-- ==== Sys2Proof/Word.lean ====
section
/-! DEFINITION. The word types of the LN-RM724 (R5, R6, R9) and their plainest arithmetic. -/

namespace Sys2Proof

/-- A 64-bit register or memory word (R13). -/
abbrev Word := BitVec 64

/-- One byte of memory (R6). -/
abbrev Byte := BitVec 8

/-- One instruction word or step word (R78, R89). -/
abbrev Word32 := BitVec 32

/-- A general register number g0 to g31 (R13). -/
abbrev GReg := BitVec 5

/-- A predicate number p0 to p7 (R13). -/
abbrev PReg := BitVec 3

/-- A branch-target register number t0 to t3 (R13). -/
abbrev TReg := BitVec 2

/-- A vector register number v0 to v31 (R13). -/
abbrev VReg := BitVec 5

/-- A mask number m0 to m7 (R13). -/
abbrev MReg := BitVec 3

/-- A semaphore field; 63 is "none" (R22). -/
abbrev SemNo := BitVec 6

/-- An ordering class c0 to c15 (R82). -/
abbrev Cls := BitVec 4

end Sys2Proof
end

