-- ==== Sys2Proof/Machine/Cipher.lean ====
section
/-! DEFINITION. AES-256-XTS, which R290 names and other standards define (FIPS 197, IEEE 1619; PRESUMED, log 48). -/

namespace Sys2Proof.Machine

/-! ## The field of 256 elements -/

/-- A byte times x. -/
def aesX (b : Byte) : Byte := (b <<< 1) ^^^ (if b.msb then 0x1B else 0)

/-- A product, over the bits of `b` from bit `i` on. -/
def aesMulFrom (a b : Byte) : Nat → Byte
  | 0 => 0
  | n + 1 => (if b.getLsbD (7 - n) then a else 0) ^^^ aesMulFrom (aesX a) b n

def aesMul (a b : Byte) : Byte := aesMulFrom a b 8

/-- The product of the squares a^2, a^4, … that come after `a`, `n` of them. -/
def aesSquares (a : Byte) : Nat → Byte
  | 0 => 1
  | n + 1 => aesMul (aesMul a a) (aesSquares (aesMul a a) n)

/-- The inverse, which is a^254; 0 for 0. -/
def aesInv (a : Byte) : Byte := aesSquares a 7

/-! ## The cipher -/

/-- The substitution of a byte, and its inverse. -/
def aesSub (b : Byte) : Byte :=
  let i := aesInv b
  i ^^^ i.rotateLeft 1 ^^^ i.rotateLeft 2 ^^^ i.rotateLeft 3 ^^^ i.rotateLeft 4 ^^^ 0x63
def aesUnsub (b : Byte) : Byte := aesInv (b.rotateLeft 1 ^^^ b.rotateLeft 3 ^^^ b.rotateLeft 6 ^^^ 0x05)

/-- Bytes combined one by one. -/
def aesXor (a b : List Byte) : List Byte := a.zipWith (· ^^^ ·) b

/-- Byte r of column c stands at index r + 4c; the rows turn by `k` r columns. -/
def aesRows (k : Nat) (l : List Byte) : List Byte := (List.range 16).map fun i => l.getD (i % 4 + 4 * ((i / 4 + k * (i % 4)) % 4)) 0

/-- The columns times a circulant matrix. -/
def aesCols (m : List Byte) (l : List Byte) : List Byte :=
  (List.range 16).map fun i => ((List.range 4).map fun j => aesMul (m.getD ((j + 4 - i % 4) % 4) 0) (l.getD (4 * (i / 4) + j) 0)).foldl (· ^^^ ·) 0

def aesMix : List Byte := [2, 3, 1, 1]
def aesUnmix : List Byte := [14, 11, 13, 9]

/-- The words of the key schedule after the first eight, `n` of them; `w` holds the words so far, the last one first, and `rc` the
round constant. -/
def aesSchedule (w : List (List Byte)) (rc : Byte) : Nat → List (List Byte)
  | 0 => w
  | n + 1 =>
    let t := w.getD 0 []
    let i := w.length % 8
    let f := if i = 0 then aesXor ((t.drop 1 ++ t.take 1).map aesSub) [rc, 0, 0, 0] else if i = 4 then t.map aesSub else t
    aesSchedule (aesXor (w.getD 7 []) f :: w) (if i = 0 then aesX rc else rc) n

/-- The bytes of a number, the lowest first. -/
def aesBytes (n : Nat) (x : Nat) : List Byte := (List.range n).map fun i => BitVec.ofNat 8 (x / 256 ^ i)
def aesNum (l : List Byte) : Nat := l.foldr (fun b n => b.toNat + 256 * n) 0

/-- The fifteen round keys. -/
def aesKeys (k : BitVec 256) : List (List Byte) :=
  let ws := (aesSchedule ((List.range 8).map fun i => aesBytes 4 (k.toNat / 2 ^ (32 * i))).reverse 1 52).reverse
  (List.range 15).map fun r => (((ws.drop (4 * r)).take 4)).flatten

/-- The rounds between the first key and the last. -/
def aesRounds : List (List Byte) → List Byte → List Byte
  | [], l => l
  | k :: ks, l => aesRounds ks (aesXor k (aesCols aesMix (aesRows 1 (l.map aesSub))))
def aesUnrounds : List (List Byte) → List Byte → List Byte
  | [], l => l
  | k :: ks, l => aesUnrounds ks (aesCols aesUnmix (aesXor k ((aesRows 3 l).map aesUnsub)))

/-- AES-256 on one block. -/
def aesBlock (dec : Bool) (k : BitVec 256) (x : BitVec 128) : BitVec 128 :=
  let ks := aesKeys k
  let first := ks.headD []
  let last := ks.getLastD []
  let mid := (ks.drop 1).dropLast
  let l := aesBytes 16 x.toNat
  BitVec.ofNat 128 (aesNum (
    if dec then aesXor first ((aesRows 3 (aesUnrounds mid.reverse (aesXor last l))).map aesUnsub)
    else aesXor last (aesRows 1 ((aesRounds mid (aesXor first l)).map aesSub))))

/-- The tweak of block `j` of a data unit: the enciphered tweak times x, `j` times. -/
def xtsTweak (t : BitVec 128) : Nat → BitVec 128
  | 0 => t
  | j + 1 => xtsTweak ((t <<< 1) ^^^ (if t.msb then 0x87 else 0)) j

/-- AES-256-XTS on block `j` of the data unit with a tweak. -/
def xtsBlock (dec : Bool) (k1 k2 : BitVec 256) (tweak : BitVec 128) (j : Nat) (x : BitVec 128) : BitVec 128 :=
  let t := xtsTweak (aesBlock false k2 tweak) j
  aesBlock dec k1 (x ^^^ t) ^^^ t

end Sys2Proof.Machine
end

