-- ==== Sys2Proof/Config.lean ====
section
/-! DEFINITION. What an implementation fixes, and the free values: results the spec leaves open.
Every free value is an opaque constant with no body, applied to the counter State.free or to its operands. -/

namespace Sys2Proof.Config

/-- R118: the value of a load of a marked word is any 64-bit value (log 8). -/
opaque freeWord : Nat → Word

/-- A choice the spec permits either way (R36, R119, R375; log 9). -/
opaque freeBool : Nat → Bool

/-- A number the spec leaves open (R375, R385; log 9). -/
opaque freeNat : Nat → Nat

/-- R247 lets a literal block hold any bytes and R249 refuses a compressed-stream block read as a literal: which of the two an
implementation follows (log 37). -/
opaque refuseStreamLiteral : Bool

/-- R390: the vendor's Ed25519 verification of a byte string against a signature (log 14). -/
opaque ed25519 : List Byte → List Byte → Bool

/-- R390: the vendor's ML-DSA-65 verification of a byte string against a signature (log 14). -/
opaque mldsa65 : List Byte → List Byte → Bool

/-- R390: SHA-384 of a byte string (log 14). -/
opaque sha384 : List Byte → BitVec 384

/-- R362: the row of a DRAM or SRAM structure that an address lies in: the spec gives no size (log 26). -/
opaque rowOf : Nat → Nat

/-- R362, R364: the 16-wire group of its bus that carries the beats of an address; eight of them make a 128-wire group (log 26). -/
opaque wiresOf : Nat → Nat

/-- R382: how the key slot command register codes the session's state and the last result (log 44). -/
opaque keyStatus : Bool → Option Bool → BitVec 64

/-- R390: the boot ROM, which is measured with the image and the manifest (log 14). -/
opaque rom : List Byte

/-- R385: the modules that the ports which are up still lead to: which port carries what, the spec does not give (log 40). -/
opaque routed : List Bool → Nat → Bool

/-- R391: the signature that the device identity of this boot makes over the measurements (log 14). -/
opaque identitySign : List (BitVec 384) → List Byte

/-- R1: dies 0 and 1 are P-dies. -/
def isPDie (die : Nat) : Bool := die < 2

/-- R1: dies 2 to 5 are D-dies. -/
def isDDie (die : Nat) : Bool := 2 ≤ die && die < 6

/-- R2: the active cells of a die. -/
def cellsOf (die : Nat) : Nat := if isPDie die then 48 else if isDDie die then 64 else 0

/-- R30: scratchpad rows; 0 on the MS. -/
def spRows (die : Nat) : Nat := if isPDie die then 2048 else if isDDie die then 1024 else 0

/-- R30: array reduction depth per pass. -/
def arrK (die : Nat) : Nat := if isPDie die then 384 else if isDDie die then 1 else 0

/-- R25, R30: array output columns, which are the columns of a tile. -/
def arrN (die : Nat) : Nat := if isPDie die then 384 else if isDDie die then 256 else 0

/-- R25, R30: tile rows. -/
def tileM (die : Nat) : Nat := if isPDie die then 64 else if isDDie die then 16 else 0

/-- R28: scratchpad bytes, 768 to a row. -/
def spBytes (die : Nat) : Nat := 768 * spRows die

/-- R297: bytes of tensor store above one column. -/
def columnBytes (die : Nat) : Nat := if isPDie die then 2 ^ 30 else 3 * 2 ^ 30

/-- R289: 64 KiB frames of the tensor store of a die. -/
def tstoreFrames (die : Nat) : Nat := if isPDie die then 786432 else 3145728

/-- R138: capacities of the queues. -/
def capQ : Nat := 16
def capLq : Nat := 32
def capBq : Nat := 8

/-- R374: energy weights at reset, class 0 to 15. -/
def weights : List (BitVec 16) :=
  [2, 6, 24, 16, 33, 20, 2, 6, 4, 16, 40, 2000, 40000, 20000, 0, 0]

/-- R41: bytes of the pending-write save area. -/
def saveBytes : Nat := 147968

end Sys2Proof.Config
end

