-- ==== Sys2Proof/Syntax.lean ====
section
/-! DEFINITION. The instructions, engine commands and events of spec/opcode_table.json: one constructor of
Instr per row, with the operands R81 to R91 give it. -/

namespace Sys2Proof

/-- R79: the guard of an AS word: a predicate, inverted when `n`. -/
structure Guard where
  p : PReg
  n : Bool
deriving DecidableEq, Repr, Inhabited

/-- R82, R257. -/
inductive Scope | cell | cluster | die | package | system
deriving DecidableEq, Repr, Inhabited

/-- R82: conditions of CMP and CMPI; ltn and gen compare unsigned. -/
inductive Cond | eq | ne | lt | ge | ltn | gen
deriving DecidableEq, Repr, Inhabited

/-- R82: atomic operations. -/
inductive AmoOp | add | and | or | xor | min | max | minn | maxn | swap
deriving DecidableEq, Repr, Inhabited

/-- R82: the nine queues. -/
inductive Queue | q (i : BitVec 2) | y (i : Bool) | lq | bqa | bqe
deriving DecidableEq, Repr, Inhabited

/-- R82: destinations of LDQ and LDX: q0 to q3 or lq. -/
inductive LQueue | q (i : BitVec 2) | lq
deriving DecidableEq, Repr, Inhabited

/-- R137: queues POP takes from: y0, y1 or lq. -/
inductive PQueue | y (i : Bool) | lq
deriving DecidableEq, Repr, Inhabited

/-- R82: rings and ports. -/
inductive Ring | mx | ce0 | ce1 | xe | ho | hub
deriving DecidableEq, Repr, Inhabited

/-- The four engines of a cell (R13). -/
inductive Eng | mx | ce0 | ce1 | xe
deriving DecidableEq, Repr, Inhabited

/-- R122. -/
inductive TlbiKind | page | segment | all
deriving DecidableEq, Repr, Inhabited

/-- R32: the system registers. -/
inductive SysReg
  | caps | ctxid | widf | wid | frame | joinp | time | timefr | energy | acqm | relm | esflags
  | trappc | trapcause | trapval | traprep | pwlsave
  | etrappc | etrapcause | etrapval | etraprep | tvec | status
deriving DecidableEq, Repr, Inhabited

/-! Operands of AS words (R81, R85). -/

structure OpA where (pg : Guard) (d a b : GReg)
deriving DecidableEq, Repr, Inhabited
structure OpUn where (pg : Guard) (d a : GReg)
deriving DecidableEq, Repr, Inhabited
structure OpSel where (pg : Guard) (d a b : GReg) (sel : PReg)
deriving DecidableEq, Repr, Inhabited
structure OpI where (pg : Guard) (d a : GReg) (imm : BitVec 12)
deriving DecidableEq, Repr, Inhabited
structure OpSh where (pg : Guard) (d a : GReg) (k : BitVec 6)
deriving DecidableEq, Repr, Inhabited
structure OpLdi where (pg : Guard) (d : GReg) (imm : BitVec 17)
deriving DecidableEq, Repr, Inhabited
structure OpLdih where (pg : Guard) (d : GReg) (imm : BitVec 16)
deriving DecidableEq, Repr, Inhabited
/-- BEXT, BINS: `len1` is len − 1 (R85). -/
structure OpBit where (pg : Guard) (d a : GReg) (len1 pos : BitVec 6)
deriving DecidableEq, Repr, Inhabited
structure OpCmp where (pg : Guard) (d : PReg) (a b : GReg) (cond : Cond)
deriving DecidableEq, Repr, Inhabited
structure OpCmpi where (pg : Guard) (d : PReg) (a : GReg) (cond : Cond) (imm : BitVec 9)
deriving DecidableEq, Repr, Inhabited
/-- PAND, POR, PXOR: `ia`, `ib` invert the operands (R107). -/
structure OpPred where (pg : Guard) (d a b : PReg) (ia ib : Bool)
deriving DecidableEq, Repr, Inhabited
structure OpSega where (pg : Guard) (d a : GReg) (seg : BitVec 6)
deriving DecidableEq, Repr, Inhabited
structure OpAdr2 where (pg : Guard) (d a b : GReg) (k : BitVec 3)
deriving DecidableEq, Repr, Inhabited
structure OpSrr where (pg : Guard) (d : GReg) (reg : SysReg)
deriving DecidableEq, Repr, Inhabited
structure OpSrw where (pg : Guard) (reg : SysReg) (a : GReg)
deriving DecidableEq, Repr, Inhabited
/-- A word with a guard and nothing else: RETT, HALT, EXIT, NOP. -/
structure OpG where (pg : Guard)
deriving DecidableEq, Repr, Inhabited
/-- Format M with a g register: LDS, STS, ST, ST rel. -/
structure OpMem where (pg : Guard) (d base : GReg) (cls : Cls) (off : BitVec 8)
deriving DecidableEq, Repr, Inhabited
/-- Format M with a destination queue: LDQ, LDX, LDQ acq. -/
structure OpMemQ where (pg : Guard) (q : LQueue) (base : GReg) (cls : Cls) (off : BitVec 8)
deriving DecidableEq, Repr, Inhabited
/-- Format M of STQ: y0 or y1. -/
structure OpStq where (pg : Guard) (y : Bool) (base : GReg) (cls : Cls) (off : BitVec 8)
deriving DecidableEq, Repr, Inhabited
/-- Format M with a hint or kind 0 or 1: PF, CWB, CINV. -/
structure OpHint where (pg : Guard) (kind : Bool) (base : GReg) (cls : Cls) (off : BitVec 8)
deriving DecidableEq, Repr, Inhabited
/-- One g register: CHK, ESTART, RET, WAITT. -/
structure OpR where (pg : Guard) (a : GReg)
deriving DecidableEq, Repr, Inhabited
/-- One predicate: CHK pa, BQP. -/
structure OpP where (pg : Guard) (a : PReg)
deriving DecidableEq, Repr, Inhabited
structure OpTlbi where (pg : Guard) (a : GReg) (scope : Scope) (kind : TlbiKind)
deriving DecidableEq, Repr, Inhabited
structure OpAmo where (pg : Guard) (op : AmoOp) (a b : GReg) (scope : Scope) (cls : Cls)
deriving DecidableEq, Repr, Inhabited
structure OpCas where (pg : Guard) (d a b : GReg) (scope : Scope) (cls : Cls)
deriving DecidableEq, Repr, Inhabited
structure OpScld where (pg : Guard) (a : GReg) (scope : Scope) (cls : Cls)
deriving DecidableEq, Repr, Inhabited
structure OpScst where (pg : Guard) (a b : GReg) (scope : Scope) (cls : Cls)
deriving DecidableEq, Repr, Inhabited
structure OpFence where (pg : Guard) (scope : Scope) (mask : BitVec 16)
deriving DecidableEq, Repr, Inhabited
structure OpTrap where (pg : Guard) (imm : BitVec 22)
deriving DecidableEq, Repr, Inhabited
structure OpFork where (pg : Guard) (d a b : GReg) (join : Bool) (prio : BitVec 3)
deriving DecidableEq, Repr, Inhabited
structure OpJoin where (pg : Guard) (a b : GReg)
deriving DecidableEq, Repr, Inhabited
structure OpEnq where (pg : Guard) (ring : Ring) (a b : GReg)
deriving DecidableEq, Repr, Inhabited
structure OpEnqs where (pg : Guard) (ring : Ring) (a : GReg)
deriving DecidableEq, Repr, Inhabited
structure OpPbr where (pg : Guard) (t : TReg) (imm : BitVec 20)
deriving DecidableEq, Repr, Inhabited
structure OpPbrR where (pg : Guard) (t : TReg) (a : GReg)
deriving DecidableEq, Repr, Inhabited
/-- One target register: BR, BRQ, CALL. -/
structure OpT where (pg : Guard) (t : TReg)
deriving DecidableEq, Repr, Inhabited
structure OpLoop where (pg : Guard) (t : TReg) (a : GReg)
deriving DecidableEq, Repr, Inhabited
structure OpPop where (pg : Guard) (d : GReg) (q : PQueue)
deriving DecidableEq, Repr, Inhabited
structure OpQpush where (pg : Guard) (q : BitVec 2) (b : GReg)
deriving DecidableEq, Repr, Inhabited
structure OpQstat where (pg : Guard) (d : GReg) (q : Queue)
deriving DecidableEq, Repr, Inhabited
structure OpSem where (pg : Guard) (s : SemNo)
deriving DecidableEq, Repr, Inhabited
structure OpSemrd where (pg : Guard) (d : GReg) (s : SemNo)
deriving DecidableEq, Repr, Inhabited
structure OpWaita where (pg : Guard) (d a b : GReg) (f : PReg) (cls : Cls)
deriving DecidableEq, Repr, Inhabited
/-- R86: REP and EREP; `cnt1` is count − 1. -/
structure OpRep where (cnt1 : BitVec 6) (ds sa sb : BitVec 4)
deriving DecidableEq, Repr, Inhabited

/-! Operands of ES words (R87, R88). -/

/-- R87: operand b is a register group, or a scalar popped from a data queue (Q form). -/
inductive VB | reg (v : VReg) | queue (q : BitVec 2)
deriving DecidableEq, Repr, Inhabited

/-- R88: conditions of VCMP. -/
inductive VCond | eq | ne | lt | le | gt | ge | un
deriving DecidableEq, Repr, Inhabited

/-- R88: conditions of EBR and EBQP. -/
inductive ECond | always | any | none
deriving DecidableEq, Repr, Inhabited

structure OpSetsh where (rm grp : BitVec 2) (vl : BitVec 12) (ety : BitVec 4)
deriving DecidableEq, Repr, Inhabited
structure OpSetshQ where (q : BitVec 2)
deriving DecidableEq, Repr, Inhabited
/-- VLD vd or VST vs, with its data queue and offset in 256-byte units (R166). -/
structure OpVmem where (m : MReg) (d : VReg) (q : BitVec 2) (off : BitVec 8)
deriving DecidableEq, Repr, Inhabited
structure OpVldq where (d : VReg) (q : BitVec 2)
deriving DecidableEq, Repr, Inhabited
structure OpVbc where (m : MReg) (d : VReg) (q : BitVec 2)
deriving DecidableEq, Repr, Inhabited
structure OpVsty where (y : Bool) (s : VReg) (idx : BitVec 8)
deriving DecidableEq, Repr, Inhabited
structure OpMpop where (m : MReg) (y : Bool) (a : MReg)
deriving DecidableEq, Repr, Inhabited
structure OpDisp where (disp : BitVec 21)
deriving DecidableEq, Repr, Inhabited
structure OpEbr where (m : MReg) (cond : ECond) (disp : BitVec 21)
deriving DecidableEq, Repr, Inhabited
structure OpEbqp where (m : MReg) (cond : ECond)
deriving DecidableEq, Repr, Inhabited
structure OpEsem where (s : SemNo)
deriving DecidableEq, Repr, Inhabited
/-- Elementwise with a saturating form: VADD, VSUB, VMUL. -/
structure OpV3s where (m : MReg) (d a : VReg) (b : VB) (sat : Bool)
deriving DecidableEq, Repr, Inhabited
structure OpV3 where (m : MReg) (d a : VReg) (b : VB)
deriving DecidableEq, Repr, Inhabited
structure OpV2s where (m : MReg) (d a : VReg) (sat : Bool)
deriving DecidableEq, Repr, Inhabited
structure OpV2 where (m : MReg) (d a : VReg)
deriving DecidableEq, Repr, Inhabited
structure OpVcvt where (m : MReg) (d a : VReg) (sat : Bool) (ty : BitVec 4)
deriving DecidableEq, Repr, Inhabited
structure OpVqb where (d a : VReg) (flag : Bool)
deriving DecidableEq, Repr, Inhabited
structure OpVdqb where (m : MReg) (d a : VReg) (bx3 : Bool)
deriving DecidableEq, Repr, Inhabited
structure OpVshi where (m : MReg) (d a : VReg) (k : BitVec 6)
deriving DecidableEq, Repr, Inhabited
structure OpViota where (m : MReg) (d : VReg)
deriving DecidableEq, Repr, Inhabited
/-- Three registers and a mask: VSEL, VPERM, VGATH, VRNG. -/
structure OpVr3 where (m : MReg) (d a b : VReg)
deriving DecidableEq, Repr, Inhabited
structure OpVcmp where (m : MReg) (d : MReg) (a : VReg) (b : VB) (cond : VCond)
deriving DecidableEq, Repr, Inhabited
structure OpM3 where (d a b : MReg)
deriving DecidableEq, Repr, Inhabited
structure OpM2 where (d a : MReg)
deriving DecidableEq, Repr, Inhabited
structure OpSlide where (m : MReg) (d a : VReg) (n : BitVec 8)
deriving DecidableEq, Repr, Inhabited
/-- ACRD vd or ACWR vs: tile, chunk and row (R185). -/
structure OpAcr where (m : MReg) (d : VReg) (tile : BitVec 2) (chunk : BitVec 5) (row : BitVec 6)
deriving DecidableEq, Repr, Inhabited
structure OpAcsc where (tile : BitVec 2) (q : BitVec 2) (row : BitVec 6)
deriving DecidableEq, Repr, Inhabited
structure OpAcz where (tile : BitVec 2) (row : BitVec 6)
deriving DecidableEq, Repr, Inhabited
structure OpAczT where (tile : BitVec 2)
deriving DecidableEq, Repr, Inhabited
structure OpAcst where (d : VReg) (tile : BitVec 2) (row : BitVec 6)
deriving DecidableEq, Repr, Inhabited

/-! Engine and port commands (R89 to R91): a header and the payload fields of the command's chapter. -/

/-- R89: the header fields a decoded command keeps; OPC and LEN are the command's own (R90). -/
structure Hdr where (wait sig : SemNo) (acq rel : Bool) (scope : Scope) (cls : Cls)
deriving DecidableEq, Repr, Inhabited

/-- R204. -/
structure PMhdr where (k : BitVec 16) (n : BitVec 9) (m : BitVec 7) (areg bfmt : Bool)
deriving DecidableEq, Repr, Inhabited
/-- R205. -/
structure PMop where (base : Word) (rpitch tpitch : BitVec 24) (rot : BitVec 4)
deriving DecidableEq, Repr, Inhabited
/-- R210: the tile control word of MMA and MMAZ. -/
structure PMma where (keepb : Bool) (row0 : BitVec 6) (tile : BitVec 2)
deriving DecidableEq, Repr, Inhabited
/-- R75, R76, R210: write-back formats. -/
inductive WbFmt | f32 | bf16 | bx7
deriving DecidableEq, Repr, Inhabited
/-- R219. -/
structure PMwb where (fmt : WbFmt) (z : Bool) (row0 : BitVec 6) (tile : BitVec 2) (base : Word) (rpitch : BitVec 24) (rot : BitVec 4)
deriving DecidableEq, Repr, Inhabited
/-- R222. -/
structure PMrn where (ht : BitVec 6) (row0 : BitVec 6) (tile : BitVec 2)
deriving DecidableEq, Repr, Inhabited
/-- R223. -/
structure PMclr where (row0 : BitVec 6) (tile : BitVec 2)
deriving DecidableEq, Repr, Inhabited
/-- R224. -/
structure PMthr where (duty : BitVec 8)
deriving DecidableEq, Repr, Inhabited
/-- R232: one side of a strided transfer. -/
structure Acc where (pitch : BitVec 32) (rot : BitVec 4)
deriving DecidableEq, Repr, Inhabited
/-- R233: `rows1` is rows − 1. -/
structure Ext where (rows1 : BitVec 16) (bytes : BitVec 32)
deriving DecidableEq, Repr, Inhabited
/-- R240. -/
structure PCopy where (src dst : Word) (sacc dacc : Acc) (ext : Ext)
deriving DecidableEq, Repr, Inhabited
/-- R241: start coordinates, extents − 1 and pitches, dimension 0 first. -/
structure PCopyn where
  (lin ten : Word) (st0 st1 st2 st3 nb0 nb1 nb2 nb3 : BitVec 16) (lp1 lp2 lp3 : BitVec 32) (rot : BitVec 4) (dir : Bool)
deriving DecidableEq, Repr, Inhabited
/-- R242: `count1` is COUNT, elements − 1. -/
structure PGath where
  (base dense idxa : Word) (count1 : BitVec 16) (esize stride bound : BitVec 32) (brot drot irot : BitVec 4)
deriving DecidableEq, Repr, Inhabited
/-- R244. -/
structure PFill where (dst : Word) (dacc : Acc) (ext : Ext) (value : Word)
deriving DecidableEq, Repr, Inhabited
/-- R245. -/
structure PFlagw where (addr value : Word)
deriving DecidableEq, Repr, Inhabited
/-- R246: CAP is zero in EXPN. -/
structure PCmpr where (src dst : Word) (cap : BitVec 32) (rot : BitVec 4) (length : BitVec 32) (res : Word)
deriving DecidableEq, Repr, Inhabited
/-- R250: every stored count is the count − 1. -/
structure PUnfold where
  (src dst : Word) (spx spy dpitch : BitVec 32) (oh ow h w c : BitVec 16) (lge : BitVec 2)
  (kh kw sty stx dly dlx padt padl : BitVec 8) (srot drot : BitVec 4)
deriving DecidableEq, Repr, Inhabited
/-- R252. -/
structure PXpose where (src dst : Word) (sacc dacc : Acc) (lge : BitVec 2) (rows1 cols1 : BitVec 16)
deriving DecidableEq, Repr, Inhabited
/-- R253. -/
structure PRelay where
  (src dst : Word) (sp1 sp2 dp1 dp2 : BitVec 32) (srot drot : BitVec 4) (perm : BitVec 3) (lgu : BitVec 2) (n0 n1 n2 : BitVec 16)
deriving DecidableEq, Repr, Inhabited
/-- R344. -/
structure PHoff where
  (src dst : Word) (count1 blk0 : BitVec 20) (stream : BitVec 24) (nh : BitVec 8) (tpb : BitVec 12) (hb : BitVec 11) (conv : Bool)
  (modno : BitVec 16)
deriving DecidableEq, Repr, Inhabited
/-- R346. -/
structure PHpull where (stream : BitVec 24) (count1 : BitVec 6) (blk0 : BitVec 20)
deriving DecidableEq, Repr, Inhabited
/-- R347. -/
structure PHcancel where (stream : BitVec 24) (cause : BitVec 7)
deriving DecidableEq, Repr, Inhabited
/-- R348. -/
structure PSwap where (addr dirent : Word) (count1 blk0 : BitVec 20) (lba : Word) (cmp : Bool) (drive : BitVec 4)
deriving DecidableEq, Repr, Inhabited
/-- R385. -/
structure PRcopy where (src doff : Word) (modno : BitVec 16) (win : BitVec 6) (sacc dacc : Acc) (ext : Ext)
deriving DecidableEq, Repr, Inhabited

/-! Operands of the events, rows 182 to 246: which of several like things the step is about, and what the
outside world brings with it. Numbers name positions in the lists of State. -/

/-- Where a launch entry comes from (R303, R331): a command queue, or the PRS for a stream. -/
inductive LaunchSrc | queue (ctx : Nat) (q : BitVec 2) | stream (n : Nat)
deriving DecidableEq, Repr, Inhabited

/-- R376: the wake events of the MS. -/
inductive WakeEvent | mailbox | chard | temperature | powerWindow | resetTrigger
deriving DecidableEq, Repr, Inhabited

/-- R380, R381: whose register a host write names. -/
inductive RegSpace | vf (ctx : Nat) | mgmt
deriving DecidableEq, Repr, Inhabited

/-- R319, R358: partition reset triggers, codes 1 to 5. -/
inductive ResetTrigger | hang | escalation | containment | host | dieRetired
deriving DecidableEq, Repr, Inhabited

/-- R239, R284: whose TLB. -/
inductive TlbAgent | as | eng (e : Eng)
deriving DecidableEq, Repr, Inhabited

/-- R383 to R385: what becomes unreachable. -/
inductive PathLoss | port (n : Nat) | module (n : BitVec 16)
deriving DecidableEq, Repr, Inhabited

/-- One constructor per row of spec/opcode_table.json, in its order. -/
inductive Instr
  -- access sequencer (rows 0 to 92)
  | add (o : OpA) | sub (o : OpA) | and (o : OpA) | or (o : OpA) | xor (o : OpA) | andn (o : OpA)
  | shl (o : OpA) | shr (o : OpA) | sar (o : OpA)
  | min (o : OpA) | max (o : OpA) | minn (o : OpA) | maxn (o : OpA)
  | clz (o : OpUn) | popc (o : OpUn)
  | mul (o : OpA) | mulh (o : OpA) | mulhn (o : OpA)
  | div (o : OpA) | divn (o : OpA) | rem (o : OpA) | remn (o : OpA)
  | sel (o : OpSel)
  | addi (o : OpI) | andi (o : OpI) | ori (o : OpI) | xori (o : OpI)
  | shli (o : OpSh) | shri (o : OpSh) | sari (o : OpSh)
  | ldi (o : OpLdi) | ldih1 (o : OpLdih) | ldih2 (o : OpLdih) | ldih3 (o : OpLdih)
  | bext (o : OpBit) | bins (o : OpBit)
  | cmp (o : OpCmp) | cmpi (o : OpCmpi)
  | pand (o : OpPred) | por (o : OpPred) | pxor (o : OpPred)
  | sega (o : OpSega) | adr2 (o : OpAdr2)
  | srr (o : OpSrr) | srw (o : OpSrw) | rett (o : OpG) | halt (o : OpG)
  | lds (o : OpMem) | sts (o : OpMem) | ldq (o : OpMemQ) | ldx (o : OpMemQ) | st (o : OpMem) | stq (o : OpStq)
  | pf (o : OpHint) | cwb (o : OpHint) | cinv (o : OpHint)
  | chk (o : OpR) | chkPred (o : OpP) | tlbi (o : OpTlbi)
  | amo (o : OpAmo) | cas (o : OpCas) | scld (o : OpScld) | scst (o : OpScst) | scamo (o : OpAmo)
  | fence (o : OpFence) | trap (o : OpTrap)
  | fork (o : OpFork) | join (o : OpJoin) | exit (o : OpG)
  | enq (o : OpEnq) | enqs (o : OpEnqs) | estart (o : OpR)
  | pbr (o : OpPbr) | pbrReg (o : OpPbrR) | br (o : OpT) | brq (o : OpT) | bqp (o : OpP)
  | call (o : OpT) | ret (o : OpR) | loop (o : OpLoop)
  | nop (o : OpG) | pop (o : OpPop) | qpush (o : OpQpush) | qstat (o : OpQstat)
  | sems (o : OpSem) | semw (o : OpSem) | semdrop (o : OpSem) | semrd (o : OpSemrd)
  | waita (o : OpWaita) | waitt (o : OpR) | ldqAcq (o : OpMemQ) | stRel (o : OpMem)
  | rep (o : OpRep)
  -- execute sequencer (rows 93 to 155)
  | setsh (o : OpSetsh) | setshQ (o : OpSetshQ)
  | vld (o : OpVmem) | vst (o : OpVmem) | vldq (o : OpVldq) | vsty (o : OpVsty) | vbc (o : OpVbc)
  | epbr (o : OpDisp) | ebr (o : OpEbr) | ebrq (o : OpDisp) | ebqp (o : OpEbqp)
  | esemw (o : OpEsem) | esems (o : OpEsem) | eexit
  | vadd (o : OpV3s) | vsub (o : OpV3s) | vmul (o : OpV3s) | vfma (o : OpV3) | vfms (o : OpV3)
  | vmin (o : OpV3) | vmax (o : OpV3) | vabs (o : OpV2s) | vneg (o : OpV2s)
  | vrcp (o : OpV2) | vrsq (o : OpV2) | vexp2 (o : OpV2) | vlog2 (o : OpV2)
  | vcvt (o : OpVcvt) | vqb (o : OpVqb) | vdqb (o : OpVdqb)
  | vand (o : OpV3) | vor (o : OpV3) | vxor (o : OpV3)
  | vshl (o : OpV3) | vshlImm (o : OpVshi) | vshr (o : OpV3) | vshrImm (o : OpVshi) | vsar (o : OpV3) | vsarImm (o : OpVshi)
  | viota (o : OpViota) | vsel (o : OpVr3) | vcmp (o : OpVcmp)
  | mand (o : OpM3) | mor (o : OpM3) | mxor (o : OpM3) | mnot (o : OpM2) | mpop (o : OpMpop)
  | vrsum (o : OpV2) | vrmax (o : OpV2) | vrmin (o : OpV2) | vrmaxi (o : OpV2) | vrmini (o : OpV2)
  | vperm (o : OpVr3) | vslide (o : OpSlide) | vgath (o : OpVr3) | vrng (o : OpVr3)
  | acrd (o : OpAcr) | acwr (o : OpAcr) | acsc (o : OpAcsc) | acz (o : OpAcz) | aczTile (o : OpAczT) | acst (o : OpAcst)
  | erep (o : OpRep)
  -- engine and port commands (rows 156 to 181); ce is false on CE0 and true on CE1
  | mhdr (h : Hdr) (p : PMhdr) | mopa (h : Hdr) (p : PMop) | mopb (h : Hdr) (p : PMop)
  | mma (h : Hdr) (p : PMma) | mmaz (h : Hdr) (p : PMma) | mwb (h : Hdr) (p : PMwb)
  | mrn (h : Hdr) (p : PMrn) | mclr (h : Hdr) (p : PMclr) | mthr (h : Hdr) (p : PMthr)
  | copy (ce : Bool) (h : Hdr) (p : PCopy) | copyn (ce : Bool) (h : Hdr) (p : PCopyn)
  | gath (ce : Bool) (h : Hdr) (p : PGath) | scat (ce : Bool) (h : Hdr) (p : PGath)
  | fill (ce : Bool) (h : Hdr) (p : PFill) | flagw (ce : Bool) (h : Hdr) (p : PFlagw)
  | cmpr (ce : Bool) (h : Hdr) (p : PCmpr) | expn (ce : Bool) (h : Hdr) (p : PCmpr)
  | unfold (h : Hdr) (p : PUnfold) | xpose (h : Hdr) (p : PXpose) | relay (h : Hdr) (p : PRelay)
  | hoff (h : Hdr) (p : PHoff) | hpull (h : Hdr) (p : PHpull) | hcancel (h : Hdr) (p : PHcancel)
  | swout (h : Hdr) (p : PSwap) | swin (h : Hdr) (p : PSwap) | rcopy (h : Hdr) (p : PRcopy)
  -- events (rows 182 to 246)
  | esFaultDelivery
  | loadArrival (n : Nat) | writePerform (held : Bool) (n : Nat) | heldSignal | writebackComplete (n : Nat)
  | waitaTimeout | frontQueueMove (e : Eng) | dispatch
  | cqtail (ctx : Nat) (q : BitVec 2) (tail : BitVec 32)
  | launchStart (src : LaunchSrc) | fenceEntryComplete (ctx : Nat) (q : BitVec 2)
  | recordAging (part level : Nat) | sliceExpiry (part : Nat) | preempt (ctx : Nat)
  | contextSwitch (part : Nat) | hangTimeout (part : Nat) | preset (ctx : Nat)
  | partitionReset (part : Nat) (why : ResetTrigger)
  | evictionRequest (d0 d1 d2 d3 : Word) | evictionFallback (n : Nat) | evictionOutcome (n : Nat)
  | streamCreate (ctx n : Nat) | streamPark (ctx n : Nat) | streamResume (ctx n : Nat) | streamCancel (ctx n : Nat)
  | decodeStepCompletion (n : Nat)
  | blockSend (n : Nat) | blockCommit (n : Nat) | blockRelease (n : Nat) | cancelAtDestination (n : Nat)
  | hpullTimeout (n k : Nat) | completionRecord (n : Nat)
  | swapBlockRead | nvmeCompletion (k : Nat) (ok : Bool) | nvmeTimeout (k : Nat)
  | errorReportDelivery (die : Nat) | reportRetry
  | chardTest (n : Nat) (fails : Bool) | cellSpare (die num : Nat) | busRetrain (die col : Nat)
  | heatTokenRefill | heatRateUpdate (rates : List (Nat × Nat)) | heatResume (col : Nat) | heatWindowEnd
  | powerCapEvaluation (watts : Nat) | staticEnergyCharge
  | partitionEnable (part : Nat) (d0 : Word) | contextAdmit (ctx : Nat) (d0 : Word)
  | registerWrite (sp : RegSpace) (off : Nat) (v : Word)
  | keySlotFill (k : Nat) (k1 k2 : BitVec 256) | keySlotEmpty (k : Nat)
  | getMeasurements | mailboxWrite (v : Word) | msWake (ev : WakeEvent)
  | clusterGate (die k : Nat) | clusterUngate (die k : Nat) | fusionChange (die k : Nat)
  | remoteWrite (w : Nat) (src : BitVec 16) (off : Nat) (v : Word × Bool)
  | ptpSync (ns : Nat) (off : BitVec 32) | standaloneTimeTimeout | powerOn | moduleReset
  | memoryCheckCompletion | tlbLoad (who : TlbAgent) (seg : BitVec 6) (page : Nat) | portRetirement (p : PathLoss)
deriving DecidableEq, Repr, Inhabited

end Sys2Proof
end

