-- ==== Sys2Proof/WellFormed.lean ====
section
/-! DEFINITION. Which instructions and commands the encoding rules allow (R82, R84 to R88, R91 and each command's
chapter): the bounds that the operand types do not already carry. -/

namespace Sys2Proof

/-- R45, R162: the width in bits of an element type code; 0 for the reserved codes 0xC to 0xF. -/
def etypeWidth (e : BitVec 4) : Nat :=
  match e.toNat with
  | 0 | 4 | 11 => 8
  | 1 | 5 | 8 | 9 => 16
  | 2 | 6 | 10 => 32
  | 3 | 7 => 64
  | _ => 0

/-- R18, R165: a shape value that SETSH accepts. -/
def shapeOk (grp : BitVec 2) (vl : BitVec 12) (ety : BitVec 4) : Bool :=
  ety.toNat < 12 && vl.toNat ≠ 0 && vl.toNat * etypeWidth ety ≤ 2 ^ grp.toNat * 2048

/-- R29, R205, R233: rotation codes 12 to 15 are reserved. -/
def rotCodeOk (c : BitVec 4) : Bool := c.toNat < 12

/-- R232: a pitch is a multiple of 8. -/
def accOk (a : Acc) : Bool := a.pitch.toNat % 8 = 0 && rotCodeOk a.rot

/-- R233. -/
def extOk (e : Ext) : Bool := e.bytes.toNat % 8 = 0 && 8 ≤ e.bytes.toNat && e.bytes.toNat ≤ 16777216

/-- The 58-bit offset of a segment address (R15, R109). -/
def addrOffset (a : Word) : Nat := (a.extractLsb' 0 58).toNat

/-- R344: the layout fields of HOFF. -/
def hoffLayoutOk (p : PHoff) : Bool :=
  if p.conv then (p.nh.toNat + 1) * (p.tpb.toNat + 1) * (64 * (p.hb.toNat + 1)) = 65536
  else p.nh = 0 && p.tpb = 0 && p.hb = 0

/-- R250: unit width of UNFOLD, and R253 of RELAY: 8, 16, 32 or 64 bytes. -/
def unitBytes (lg : BitVec 2) : Nat := 8 * 2 ^ lg.toNat

/-- R250: the rejection bounds of UNFOLD. -/
def unfoldOk (p : PUnfold) : Bool :=
  (p.kh.toNat + 1) * (p.kw.toNat + 1) * (p.c.toNat + 1) * unitBytes p.lge ≤ p.dpitch.toNat
    && p.spx.toNat % 8 = 0 && p.spy.toNat % 8 = 0 && p.dpitch.toNat % 8 = 0 && rotCodeOk p.srot && rotCodeOk p.drot

/-- Well-formed: admitted by the encoding maps (R82 to R91). Events have no encoding and carry no bound. -/
def Instr.wf : Instr → Bool
  | .bext o | .bins o => o.pos.toNat + o.len1.toNat + 1 ≤ 64
  | .tlbi o => o.kind ≠ .all || o.a = 0
  | .scld o => o.scope ≠ .system
  | .scst o => o.scope ≠ .system
  | .scamo o => o.scope ≠ .system
  | .fence o => o.mask ≠ 0
  | .semrd o => o.s ≠ 63
  | .setsh o => shapeOk o.grp o.vl o.ety
  | .ebr o => o.cond ≠ .always || o.m = 0
  | .ebqp o => o.cond ≠ .always || o.m = 0
  | .vcvt o => o.ty.toNat < 11
  | .mhdr _ p => p.k ≠ 0 && p.k.toNat ≤ 16384 && p.n ≠ 0 && p.m ≠ 0
  | .mopa _ p | .mopb _ p => p.base.toNat % 64 = 0 && rotCodeOk p.rot
  | .mwb _ p => p.base.toNat % 64 = 0 && rotCodeOk p.rot
  | .mrn _ p => p.ht ≠ 0 && p.ht ≠ 63
  | .copy _ _ p => accOk p.sacc && accOk p.dacc && extOk p.ext
  | .copyn _ _ p => rotCodeOk p.rot
  | .gath _ _ p | .scat _ _ p =>
      p.idxa.toNat % 4 = 0 && p.esize.toNat % 8 = 0 && 8 ≤ p.esize.toNat && p.esize.toNat ≤ 65536
        && p.stride.toNat % 8 = 0 && rotCodeOk p.brot && rotCodeOk p.drot && rotCodeOk p.irot
  | .fill _ _ p => accOk p.dacc && extOk p.ext
  | .cmpr _ _ p =>
      p.cap.toNat % 64 = 0 && 64 ≤ p.cap.toNat && rotCodeOk p.rot
        && p.length.toNat % 64 = 0 && 64 ≤ p.length.toNat && p.length.toNat ≤ 16777216
  | .expn _ _ p =>
      p.cap = 0 && rotCodeOk p.rot && p.length.toNat % 64 = 0 && 64 ≤ p.length.toNat && p.length.toNat ≤ 16777216
  | .unfold _ p => unfoldOk p
  | .xpose _ p =>
      accOk p.sacc && accOk p.dacc && (p.cols1.toNat + 1) * 2 ^ p.lge.toNat ≤ p.sacc.pitch.toNat
        && (p.rows1.toNat + 1) * 2 ^ p.lge.toNat ≤ p.dacc.pitch.toNat
  | .relay _ p => p.perm.toNat < 6 && rotCodeOk p.srot && rotCodeOk p.drot
  | .hoff _ p => addrOffset p.src % 65536 = 0 && addrOffset p.dst % 65536 = 0 && hoffLayoutOk p
  | .swout _ p | .swin _ p => addrOffset p.addr % 65536 = 0
  | .rcopy _ p => p.modno ≠ 0 && accOk p.sacc && accOk p.dacc && p.dacc.rot = 0 && extOk p.ext
  | _ => true

/-- The rows that are events: no word encodes them (rows 182 to 246 of the table). -/
def Instr.isEvent : Instr → Bool
  | .esFaultDelivery | .loadArrival _ | .writePerform _ _ | .heldSignal | .writebackComplete _ | .waitaTimeout
  | .frontQueueMove _ | .dispatch | .cqtail _ _ _ | .launchStart _ | .fenceEntryComplete _ _ | .recordAging _ _
  | .sliceExpiry _ | .preempt _ | .contextSwitch _ | .hangTimeout _ | .preset _ | .partitionReset _ _
  | .evictionRequest _ _ _ _ | .evictionFallback _ | .evictionOutcome _ | .streamCreate _ _ | .streamPark _ _
  | .streamResume _ _ | .streamCancel _ _ | .decodeStepCompletion _ | .blockSend _ | .blockCommit _
  | .blockRelease _ | .cancelAtDestination _ | .hpullTimeout _ _ | .completionRecord _ | .swapBlockRead
  | .nvmeCompletion _ _ | .nvmeTimeout _ | .errorReportDelivery _ | .reportRetry | .chardTest _ _ | .cellSpare _ _
  | .busRetrain _ _ | .heatTokenRefill | .heatRateUpdate _ | .heatResume _ | .heatWindowEnd | .powerCapEvaluation _
  | .staticEnergyCharge | .partitionEnable _ _ | .contextAdmit _ _ | .registerWrite _ _ _ | .keySlotFill _ _ _
  | .keySlotEmpty _ | .getMeasurements | .mailboxWrite _ | .msWake _ | .clusterGate _ _ | .clusterUngate _ _
  | .fusionChange _ _ | .remoteWrite _ _ _ _ | .ptpSync _ _ | .standaloneTimeTimeout | .powerOn | .moduleReset
  | .memoryCheckCompletion | .tlbLoad _ _ _ | .portRetirement _ => true
  | .add _ | .sub _ | .and _ | .or _ | .xor _ | .andn _ | .shl _ | .shr _ | .sar _ | .min _ | .max _ | .minn _
  | .maxn _ | .clz _ | .popc _ | .mul _ | .mulh _ | .mulhn _ | .div _ | .divn _ | .rem _ | .remn _ | .sel _
  | .addi _ | .andi _ | .ori _ | .xori _ | .shli _ | .shri _ | .sari _ | .ldi _ | .ldih1 _ | .ldih2 _ | .ldih3 _
  | .bext _ | .bins _ | .cmp _ | .cmpi _ | .pand _ | .por _ | .pxor _ | .sega _ | .adr2 _ | .srr _ | .srw _
  | .rett _ | .halt _ | .lds _ | .sts _ | .ldq _ | .ldx _ | .st _ | .stq _ | .pf _ | .cwb _ | .cinv _ | .chk _
  | .chkPred _ | .tlbi _ | .amo _ | .cas _ | .scld _ | .scst _ | .scamo _ | .fence _ | .trap _ | .fork _ | .join _
  | .exit _ | .enq _ | .enqs _ | .estart _ | .pbr _ | .pbrReg _ | .br _ | .brq _ | .bqp _ | .call _ | .ret _
  | .loop _ | .nop _ | .pop _ | .qpush _ | .qstat _ | .sems _ | .semw _ | .semdrop _ | .semrd _ | .waita _
  | .waitt _ | .ldqAcq _ | .stRel _ | .rep _ | .setsh _ | .setshQ _ | .vld _ | .vst _ | .vldq _ | .vsty _ | .vbc _
  | .epbr _ | .ebr _ | .ebrq _ | .ebqp _ | .esemw _ | .esems _ | .eexit | .vadd _ | .vsub _ | .vmul _ | .vfma _
  | .vfms _ | .vmin _ | .vmax _ | .vabs _ | .vneg _ | .vrcp _ | .vrsq _ | .vexp2 _ | .vlog2 _ | .vcvt _ | .vqb _
  | .vdqb _ | .vand _ | .vor _ | .vxor _ | .vshl _ | .vshlImm _ | .vshr _ | .vshrImm _ | .vsar _ | .vsarImm _
  | .viota _ | .vsel _ | .vcmp _ | .mand _ | .mor _ | .mxor _ | .mnot _ | .mpop _ | .vrsum _ | .vrmax _ | .vrmin _
  | .vrmaxi _ | .vrmini _ | .vperm _ | .vslide _ | .vgath _ | .vrng _ | .acrd _ | .acwr _ | .acsc _ | .acz _
  | .aczTile _ | .acst _ | .erep _ | .mhdr _ _ | .mopa _ _ | .mopb _ _ | .mma _ _ | .mmaz _ _ | .mwb _ _ | .mrn _ _
  | .mclr _ _ | .mthr _ _ | .copy _ _ _ | .copyn _ _ _ | .gath _ _ _ | .scat _ _ _ | .fill _ _ _ | .flagw _ _ _
  | .cmpr _ _ _ | .expn _ _ _ | .unfold _ _ | .xpose _ _ | .relay _ _ | .hoff _ _ | .hpull _ _ | .hcancel _ _
  | .swout _ _ | .swin _ _ | .rcopy _ _ => false

end Sys2Proof
end

