-- ==== Sys2Proof/Decode.lean ====
section
/-! DEFINITION. Decoding AS words (R81 to R86), ES words (R87, R88) and engine commands (R89 to R91), total and
rejecting by name; and after it the encoder, written from the same maps. -/

namespace Sys2Proof

/-- Why a word or a command is refused (R92). -/
inductive DecodeError
  | zeroMajor        -- AS major 0x00 or an illegal ES opcode (R83, R88)
  | unlistedFn       -- a fn or sub value the maps do not list
  | fieldCode        -- a field code outside R82
  | nonzeroField     -- an unused field or reserved bit that is set
  | bounds           -- a value outside its instruction's bounds
  | notThisEngine    -- an opcode of another engine (R91)
  | badLength        -- LEN differs from R90 (R91)
  | shortInput       -- fewer bytes than a word
deriving DecidableEq, Repr, Inhabited

/-- Go on when `c` holds, else refuse with `e`. -/
def req (c : Bool) (e : DecodeError) (k : Except DecodeError Instr) : Except DecodeError Instr :=
  if c then k else .error e

/-- Go on with the decoded field, or refuse: a code outside R82. -/
def reqSome {α : Type} (x : Option α) (k : α → Except DecodeError Instr) : Except DecodeError Instr :=
  match x with
  | some a => k a
  | none => .error .fieldCode

/-! Field codes (R82, R88). -/

def Scope.code : Scope → BitVec 3
  | .cell => 0 | .cluster => 1 | .die => 2 | .package => 3 | .system => 4
def Scope.ofCode (c : BitVec 3) : Option Scope :=
  match c.toNat with
  | 0 => some .cell | 1 => some .cluster | 2 => some .die | 3 => some .package | 4 => some .system | _ => none

def Cond.code : Cond → BitVec 3
  | .eq => 0 | .ne => 1 | .lt => 2 | .ge => 3 | .ltn => 4 | .gen => 5
def Cond.ofCode (c : BitVec 3) : Option Cond :=
  match c.toNat with
  | 0 => some .eq | 1 => some .ne | 2 => some .lt | 3 => some .ge | 4 => some .ltn | 5 => some .gen | _ => none

def AmoOp.code : AmoOp → BitVec 5
  | .add => 0 | .and => 1 | .or => 2 | .xor => 3 | .min => 4 | .max => 5 | .minn => 6 | .maxn => 7 | .swap => 8
def AmoOp.ofCode (c : BitVec 5) : Option AmoOp :=
  match c.toNat with
  | 0 => some .add | 1 => some .and | 2 => some .or | 3 => some .xor | 4 => some .min | 5 => some .max
  | 6 => some .minn | 7 => some .maxn | 8 => some .swap | _ => none

def Queue.code : Queue → BitVec 5
  | .q i => i.zeroExtend 5 | .y i => if i then 5 else 4 | .lq => 6 | .bqa => 7 | .bqe => 8
def Queue.ofCode (c : BitVec 5) : Option Queue :=
  match c.toNat with
  | 0 => some (.q 0) | 1 => some (.q 1) | 2 => some (.q 2) | 3 => some (.q 3)
  | 4 => some (.y false) | 5 => some (.y true) | 6 => some .lq | 7 => some .bqa | 8 => some .bqe | _ => none

def LQueue.code : LQueue → BitVec 5
  | .q i => i.zeroExtend 5 | .lq => 6
def LQueue.ofCode (c : BitVec 5) : Option LQueue :=
  match c.toNat with
  | 0 => some (.q 0) | 1 => some (.q 1) | 2 => some (.q 2) | 3 => some (.q 3) | 6 => some .lq | _ => none

def PQueue.code : PQueue → BitVec 5
  | .y i => if i then 5 else 4 | .lq => 6
def PQueue.ofCode (c : BitVec 5) : Option PQueue :=
  match c.toNat with
  | 4 => some (.y false) | 5 => some (.y true) | 6 => some .lq | _ => none

def Ring.code : Ring → BitVec 5
  | .mx => 0 | .ce0 => 1 | .ce1 => 2 | .xe => 3 | .ho => 4 | .hub => 5
def Ring.ofCode (c : BitVec 5) : Option Ring :=
  match c.toNat with
  | 0 => some .mx | 1 => some .ce0 | 2 => some .ce1 | 3 => some .xe | 4 => some .ho | 5 => some .hub | _ => none

def TlbiKind.code : TlbiKind → BitVec 2
  | .page => 0 | .segment => 1 | .all => 2
def TlbiKind.ofCode (c : BitVec 2) : Option TlbiKind :=
  match c.toNat with
  | 0 => some .page | 1 => some .segment | 2 => some .all | _ => none

def VCond.code : VCond → BitVec 3
  | .eq => 0 | .ne => 1 | .lt => 2 | .le => 3 | .gt => 4 | .ge => 5 | .un => 6
def VCond.ofCode (c : BitVec 3) : Option VCond :=
  match c.toNat with
  | 0 => some .eq | 1 => some .ne | 2 => some .lt | 3 => some .le | 4 => some .gt | 5 => some .ge | 6 => some .un | _ => none

def ECond.code : ECond → BitVec 2
  | .always => 0 | .any => 1 | .none => 2
def ECond.ofCode (c : BitVec 2) : Option ECond :=
  match c.toNat with
  | 0 => some .always | 1 => some .any | 2 => some .none | _ => Option.none

def WbFmt.code : WbFmt → BitVec 2
  | .f32 => 0 | .bf16 => 1 | .bx7 => 2
def WbFmt.ofCode (c : BitVec 2) : Option WbFmt :=
  match c.toNat with
  | 0 => some .f32 | 1 => some .bf16 | 2 => some .bx7 | _ => none

/-- R32: register numbers. -/
def SysReg.code : SysReg → BitVec 12
  | .caps => 0x000 | .ctxid => 0x001 | .widf => 0x002 | .wid => 0x003 | .frame => 0x004 | .joinp => 0x005
  | .time => 0x008 | .timefr => 0x009 | .energy => 0x00C | .acqm => 0x010 | .relm => 0x011 | .esflags => 0x012
  | .trappc => 0x020 | .trapcause => 0x021 | .trapval => 0x022 | .traprep => 0x023 | .pwlsave => 0x024
  | .etrappc => 0x025 | .etrapcause => 0x026 | .etrapval => 0x027 | .etraprep => 0x028 | .tvec => 0x029 | .status => 0x02A
def SysReg.ofCode (c : BitVec 12) : Option SysReg :=
  match c.toNat with
  | 0x000 => some .caps | 0x001 => some .ctxid | 0x002 => some .widf | 0x003 => some .wid | 0x004 => some .frame
  | 0x005 => some .joinp | 0x008 => some .time | 0x009 => some .timefr | 0x00C => some .energy | 0x010 => some .acqm
  | 0x011 => some .relm | 0x012 => some .esflags | 0x020 => some .trappc | 0x021 => some .trapcause
  | 0x022 => some .trapval | 0x023 => some .traprep | 0x024 => some .pwlsave | 0x025 => some .etrappc
  | 0x026 => some .etrapcause | 0x027 => some .etrapval | 0x028 => some .etraprep | 0x029 => some .tvec
  | 0x02A => some .status | _ => none

/-! Fields of an AS word (R81). -/

def asMajor (w : Word32) : BitVec 6 := w.extractLsb' 26 6
def asGuard (w : Word32) : Guard := ⟨w.extractLsb' 23 3, w.getLsbD 22⟩
def asD (w : Word32) : BitVec 5 := w.extractLsb' 17 5
def asA (w : Word32) : BitVec 5 := w.extractLsb' 12 5
def asB (w : Word32) : BitVec 5 := w.extractLsb' 7 5
def asFn (w : Word32) : BitVec 7 := w.extractLsb' 0 7
def asImm12 (w : Word32) : BitVec 12 := w.extractLsb' 0 12

def opA (w : Word32) : OpA := ⟨asGuard w, asD w, asA w, asB w⟩
def opI (w : Word32) : OpI := ⟨asGuard w, asD w, asA w, asImm12 w⟩
def opMem (w : Word32) : OpMem := ⟨asGuard w, asD w, asA w, w.extractLsb' 8 4, w.extractLsb' 0 8⟩

/-- CLZ and POPC: b must be zero (R84). -/
def decodeUn (w : Word32) (k : OpUn → Instr) : Except DecodeError Instr :=
  req (asB w = 0) .nonzeroField (.ok (k ⟨asGuard w, asD w, asA w⟩))

/-- R84: the ALU group, selected by fn. -/
def decodeAlu (w : Word32) : Except DecodeError Instr :=
  match (asFn w).toNat with
  | 0x00 => .ok (.add (opA w)) | 0x01 => .ok (.sub (opA w)) | 0x02 => .ok (.and (opA w))
  | 0x03 => .ok (.or (opA w)) | 0x04 => .ok (.xor (opA w)) | 0x05 => .ok (.andn (opA w))
  | 0x06 => .ok (.shl (opA w)) | 0x07 => .ok (.shr (opA w)) | 0x08 => .ok (.sar (opA w))
  | 0x09 => .ok (.min (opA w)) | 0x0A => .ok (.max (opA w)) | 0x0B => .ok (.minn (opA w))
  | 0x0C => .ok (.maxn (opA w)) | 0x0D => decodeUn w .clz | 0x0E => decodeUn w .popc
  | 0x10 => .ok (.mul (opA w)) | 0x11 => .ok (.mulh (opA w)) | 0x12 => .ok (.mulhn (opA w))
  | 0x14 => .ok (.div (opA w)) | 0x15 => .ok (.divn (opA w)) | 0x16 => .ok (.rem (opA w))
  | 0x17 => .ok (.remn (opA w))
  | 0x18 | 0x19 | 0x1A | 0x1B | 0x1C | 0x1D | 0x1E | 0x1F =>
      .ok (.sel ⟨asGuard w, asD w, asA w, asB w, w.extractLsb' 0 3⟩)
  | _ => .error .unlistedFn

/-- SHLI, SHRI, SARI: imm12 11:6 must be zero (R103). -/
def decodeSh (w : Word32) (k : OpSh → Instr) : Except DecodeError Instr :=
  req (w.extractLsb' 6 6 = 0) .nonzeroField (.ok (k ⟨asGuard w, asD w, asA w, w.extractLsb' 0 6⟩))

/-- LDIH: bit 16 must be zero (R104). -/
def decodeLdih (w : Word32) (k : OpLdih → Instr) : Except DecodeError Instr :=
  req (w.getLsbD 16 = false) .nonzeroField (.ok (k ⟨asGuard w, asD w, w.extractLsb' 0 16⟩))

/-- BEXT, BINS: pos + len at most 64 (R105). -/
def decodeBit (w : Word32) (k : OpBit → Instr) : Except DecodeError Instr :=
  req ((w.extractLsb' 0 6).toNat + (w.extractLsb' 6 6).toNat + 1 ≤ 64) .bounds
    (.ok (k ⟨asGuard w, asD w, asA w, w.extractLsb' 6 6, w.extractLsb' 0 6⟩))

def decodeCmp (w : Word32) : Except DecodeError Instr :=
  req ((asD w).extractLsb' 3 2 = 0) .fieldCode (req (w.extractLsb' 3 4 = 0) .nonzeroField
    (reqSome (Cond.ofCode (w.extractLsb' 0 3)) fun c =>
      .ok (.cmp ⟨asGuard w, w.extractLsb' 17 3, asA w, asB w, c⟩)))

def decodeCmpi (w : Word32) : Except DecodeError Instr :=
  req ((asD w).extractLsb' 3 2 = 0) .fieldCode
    (reqSome (Cond.ofCode (w.extractLsb' 9 3)) fun c =>
      .ok (.cmpi ⟨asGuard w, w.extractLsb' 17 3, asA w, c, w.extractLsb' 0 9⟩))

/-- PAND, POR, PXOR: fn 1:0 selects, fn 2 and 3 invert, fn 6:4 zero (R85, R107). -/
def decodePred (w : Word32) : Except DecodeError Instr :=
  req ((asD w).extractLsb' 3 2 = 0 && (asA w).extractLsb' 3 2 = 0 && (asB w).extractLsb' 3 2 = 0) .fieldCode
    (req (w.extractLsb' 4 3 = 0) .nonzeroField
      (let o : OpPred :=
        ⟨asGuard w, w.extractLsb' 17 3, w.extractLsb' 12 3, w.extractLsb' 7 3, w.getLsbD 2, w.getLsbD 3⟩
       match (w.extractLsb' 0 2).toNat with
       | 0 => .ok (.pand o) | 1 => .ok (.por o) | 2 => .ok (.pxor o) | _ => .error .unlistedFn))

/-- Words whose bits 21:0 must be zero: RETT, HALT, EXIT, NOP. -/
def decodeG (w : Word32) (k : OpG → Instr) : Except DecodeError Instr :=
  req (w.extractLsb' 0 22 = 0) .nonzeroField (.ok (k ⟨asGuard w⟩))

def decodeMemQ (w : Word32) (k : OpMemQ → Instr) : Except DecodeError Instr :=
  reqSome (LQueue.ofCode (asD w)) fun q => .ok (k ⟨asGuard w, q, asA w, w.extractLsb' 8 4, w.extractLsb' 0 8⟩)

/-- STQ: s queue code 4 or 5 (R85). -/
def decodeStq (w : Word32) : Except DecodeError Instr :=
  req ((asD w).extractLsb' 1 4 = 2) .fieldCode
    (.ok (.stq ⟨asGuard w, (asD w).getLsbD 0, asA w, w.extractLsb' 8 4, w.extractLsb' 0 8⟩))

/-- PF, CWB, CINV: hint or kind 0 or 1 (R120, R121). -/
def decodeHint (w : Word32) (k : OpHint → Instr) : Except DecodeError Instr :=
  req ((asD w).extractLsb' 1 4 = 0) .fieldCode
    (.ok (k ⟨asGuard w, (asD w).getLsbD 0, asA w, w.extractLsb' 8 4, w.extractLsb' 0 8⟩))

/-- CHK: fn 0 checks a g register, fn 1 a predicate (R115). -/
def decodeChk (w : Word32) : Except DecodeError Instr :=
  req (asD w = 0 && asB w = 0) .nonzeroField
    (match (asFn w).toNat with
     | 0 => .ok (.chk ⟨asGuard w, asA w⟩)
     | 1 => req ((asA w).extractLsb' 3 2 = 0) .fieldCode (.ok (.chkPred ⟨asGuard w, w.extractLsb' 12 3⟩))
     | _ => .error .unlistedFn)

def decodeTlbi (w : Word32) : Except DecodeError Instr :=
  req (asD w = 0 && asB w = 0 && w.extractLsb' 5 2 = 0) .nonzeroField
    (reqSome (Scope.ofCode (w.extractLsb' 2 3)) fun sc =>
      reqSome (TlbiKind.ofCode (w.extractLsb' 0 2)) fun kd =>
        req (kd ≠ .all || asA w = 0) .nonzeroField (.ok (.tlbi ⟨asGuard w, asA w, sc, kd⟩)))

/-- AMO and SCAMO; `sc` when scope system is illegal (R85). -/
def decodeAmo (w : Word32) (sc : Bool) (k : OpAmo → Instr) : Except DecodeError Instr :=
  reqSome (AmoOp.ofCode (asD w)) fun op =>
    reqSome (Scope.ofCode (w.extractLsb' 4 3)) fun s =>
      req (!sc || s ≠ .system) .fieldCode (.ok (k ⟨asGuard w, op, asA w, asB w, s, w.extractLsb' 0 4⟩))

def decodeCas (w : Word32) : Except DecodeError Instr :=
  reqSome (Scope.ofCode (w.extractLsb' 4 3)) fun s =>
    .ok (.cas ⟨asGuard w, asD w, asA w, asB w, s, w.extractLsb' 0 4⟩)

def decodeScld (w : Word32) : Except DecodeError Instr :=
  req (asD w = 0 && asB w = 0) .nonzeroField
    (reqSome (Scope.ofCode (w.extractLsb' 4 3)) fun s =>
      req (s ≠ .system) .fieldCode (.ok (.scld ⟨asGuard w, asA w, s, w.extractLsb' 0 4⟩)))

def decodeScst (w : Word32) : Except DecodeError Instr :=
  req (asD w = 0) .nonzeroField
    (reqSome (Scope.ofCode (w.extractLsb' 4 3)) fun s =>
      req (s ≠ .system) .fieldCode (.ok (.scst ⟨asGuard w, asA w, asB w, s, w.extractLsb' 0 4⟩)))

/-- FENCE: bits 18:16 zero, mask not zero (R125). -/
def decodeFence (w : Word32) : Except DecodeError Instr :=
  req (w.extractLsb' 16 3 = 0) .nonzeroField
    (reqSome (Scope.ofCode (w.extractLsb' 19 3)) fun s =>
      req (w.extractLsb' 0 16 ≠ 0) .bounds (.ok (.fence ⟨asGuard w, s, w.extractLsb' 0 16⟩)))

def decodeFork (w : Word32) : Except DecodeError Instr :=
  req (w.extractLsb' 4 3 = 0) .nonzeroField
    (.ok (.fork ⟨asGuard w, asD w, asA w, asB w, w.getLsbD 3, w.extractLsb' 0 3⟩))

def decodeJoin (w : Word32) : Except DecodeError Instr :=
  req (asD w = 0 && asFn w = 0) .nonzeroField (.ok (.join ⟨asGuard w, asA w, asB w⟩))

def decodeEnq (w : Word32) : Except DecodeError Instr :=
  req (asFn w = 0) .nonzeroField
    (reqSome (Ring.ofCode (asD w)) fun r => .ok (.enq ⟨asGuard w, r, asA w, asB w⟩))

def decodeEnqs (w : Word32) : Except DecodeError Instr :=
  req (w.extractLsb' 0 12 = 0) .nonzeroField
    (reqSome (Ring.ofCode (asD w)) fun r => .ok (.enqs ⟨asGuard w, r, asA w⟩))

/-- Words that use only field a: ESTART, RET, WAITT. -/
def decodeR (w : Word32) (k : OpR → Instr) : Except DecodeError Instr :=
  req (asD w = 0 && w.extractLsb' 0 12 = 0) .nonzeroField (.ok (k ⟨asGuard w, asA w⟩))

def decodeBqp (w : Word32) : Except DecodeError Instr :=
  req (asD w = 0 && w.extractLsb' 0 12 = 0) .nonzeroField
    (req ((asA w).extractLsb' 3 2 = 0) .fieldCode (.ok (.bqp ⟨asGuard w, w.extractLsb' 12 3⟩)))

def decodePbrR (w : Word32) : Except DecodeError Instr :=
  req (w.extractLsb' 0 12 = 0) .nonzeroField
    (req ((asD w).extractLsb' 2 3 = 0) .fieldCode (.ok (.pbrReg ⟨asGuard w, w.extractLsb' 17 2, asA w⟩)))

/-- Words that use only a target register: BR, BRQ, CALL. -/
def decodeT (w : Word32) (k : OpT → Instr) : Except DecodeError Instr :=
  req (w.extractLsb' 0 17 = 0) .nonzeroField
    (req ((asD w).extractLsb' 2 3 = 0) .fieldCode (.ok (k ⟨asGuard w, w.extractLsb' 17 2⟩)))

def decodeLoop (w : Word32) : Except DecodeError Instr :=
  req (w.extractLsb' 0 12 = 0) .nonzeroField
    (req ((asD w).extractLsb' 2 3 = 0) .fieldCode (.ok (.loop ⟨asGuard w, w.extractLsb' 17 2, asA w⟩)))

/-- Major 0x39: POP, QPUSH, QSTAT by fn (R137). -/
def decodeQueueOp (w : Word32) : Except DecodeError Instr :=
  match (asFn w).toNat with
  | 0 => req (asB w = 0) .nonzeroField
      (reqSome (PQueue.ofCode (asA w)) fun q => .ok (.pop ⟨asGuard w, asD w, q⟩))
  | 1 => req (asA w = 0) .nonzeroField
      (req ((asD w).extractLsb' 2 3 = 0) .fieldCode (.ok (.qpush ⟨asGuard w, w.extractLsb' 17 2, asB w⟩)))
  | 2 => req (asB w = 0) .nonzeroField
      (reqSome (Queue.ofCode (asA w)) fun q => .ok (.qstat ⟨asGuard w, asD w, q⟩))
  | _ => .error .unlistedFn

/-- Major 0x3A, format Q: SEMS, SEMW, SEMDROP, SEMRD by sub (R139). -/
def decodeSemOp (w : Word32) : Except DecodeError Instr :=
  req (asA w = 0) .nonzeroField
    (let s : SemNo := w.extractLsb' 6 6
     match (w.extractLsb' 0 6).toNat with
     | 0 => req (asD w = 0) .nonzeroField (.ok (.sems ⟨asGuard w, s⟩))
     | 1 => req (asD w = 0) .nonzeroField (.ok (.semw ⟨asGuard w, s⟩))
     | 2 => req (asD w = 0) .nonzeroField (.ok (.semdrop ⟨asGuard w, s⟩))
     | 3 => req (s ≠ 63) .fieldCode (.ok (.semrd ⟨asGuard w, asD w, s⟩))
     | _ => .error .unlistedFn)

/-- R86: REP and EREP share one layout; bits 7:0 zero. -/
def decodeRep (w : Word32) (k : OpRep → Instr) : Except DecodeError Instr :=
  req (w.extractLsb' 0 8 = 0) .nonzeroField
    (.ok (k ⟨w.extractLsb' 20 6, w.extractLsb' 16 4, w.extractLsb' 12 4, w.extractLsb' 8 4⟩))

/-- R83: an AS word, by major opcode. -/
def decodeAs (w : Word32) : Except DecodeError Instr :=
  match (asMajor w).toNat with
  | 0x01 => decodeAlu w
  | 0x02 => .ok (.addi (opI w)) | 0x03 => .ok (.andi (opI w)) | 0x04 => .ok (.ori (opI w)) | 0x05 => .ok (.xori (opI w))
  | 0x06 => decodeSh w .shli | 0x07 => decodeSh w .shri | 0x08 => decodeSh w .sari
  | 0x09 => .ok (.ldi ⟨asGuard w, asD w, w.extractLsb' 0 17⟩)
  | 0x0A => decodeLdih w .ldih1 | 0x0B => decodeLdih w .ldih2 | 0x0C => decodeLdih w .ldih3
  | 0x0D => decodeBit w .bext | 0x0E => decodeBit w .bins
  | 0x0F => decodeCmp w | 0x10 => decodeCmpi w | 0x11 => decodePred w
  | 0x12 => req (w.extractLsb' 6 6 = 0) .nonzeroField (.ok (.sega ⟨asGuard w, asD w, asA w, w.extractLsb' 0 6⟩))
  | 0x13 => req (w.extractLsb' 3 4 = 0) .nonzeroField (.ok (.adr2 ⟨asGuard w, asD w, asA w, asB w, w.extractLsb' 0 3⟩))
  | 0x14 => req (asA w = 0) .nonzeroField (reqSome (SysReg.ofCode (asImm12 w)) fun r => .ok (.srr ⟨asGuard w, asD w, r⟩))
  | 0x15 => req (asD w = 0) .nonzeroField (reqSome (SysReg.ofCode (asImm12 w)) fun r => .ok (.srw ⟨asGuard w, r, asA w⟩))
  | 0x16 => decodeG w .rett | 0x17 => decodeG w .halt
  | 0x18 => .ok (.lds (opMem w)) | 0x19 => .ok (.sts (opMem w))
  | 0x1A => decodeMemQ w .ldq | 0x1B => decodeMemQ w .ldx
  | 0x1C => .ok (.st (opMem w)) | 0x1D => decodeStq w
  | 0x1E => decodeHint w .pf | 0x1F => decodeHint w .cwb | 0x20 => decodeHint w .cinv
  | 0x21 => decodeChk w | 0x22 => decodeTlbi w
  | 0x23 => decodeAmo w false .amo | 0x24 => decodeCas w | 0x25 => decodeScld w | 0x26 => decodeScst w
  | 0x27 => decodeAmo w true .scamo
  | 0x28 => decodeFence w | 0x29 => .ok (.trap ⟨asGuard w, w.extractLsb' 0 22⟩)
  | 0x2A => decodeFork w | 0x2B => decodeJoin w | 0x2C => decodeG w .exit
  | 0x2D => decodeEnq w | 0x2E => decodeEnqs w | 0x2F => decodeR w .estart
  | 0x30 => .ok (.pbr ⟨asGuard w, w.extractLsb' 20 2, w.extractLsb' 0 20⟩)
  | 0x31 => decodePbrR w | 0x32 => decodeT w .br | 0x33 => decodeT w .brq | 0x34 => decodeBqp w
  | 0x35 => decodeT w .call | 0x36 => decodeR w .ret | 0x37 => decodeLoop w
  | 0x38 => decodeG w .nop | 0x39 => decodeQueueOp w | 0x3A => decodeSemOp w
  | 0x3B => req ((asFn w).getLsbD 7 = false) .nonzeroField
      (.ok (.waita ⟨asGuard w, asD w, asA w, asB w, w.extractLsb' 4 3, w.extractLsb' 0 4⟩))
  | 0x3C => decodeR w .waitt
  | 0x3D => decodeMemQ w .ldqAcq | 0x3E => .ok (.stRel (opMem w))
  | 0x3F => decodeRep w .rep
  | _ => .error .zeroMajor

/-! Fields of an ES word (R87). -/

def esOp (w : Word32) : BitVec 6 := w.extractLsb' 26 6
def esM (w : Word32) : BitVec 3 := w.extractLsb' 23 3
def esD (w : Word32) : BitVec 5 := w.extractLsb' 18 5
def esA (w : Word32) : BitVec 5 := w.extractLsb' 13 5
def esB (w : Word32) : BitVec 5 := w.extractLsb' 8 5
def esFn (w : Word32) : BitVec 8 := w.extractLsb' 0 8

/-- R87: operand b, a register or, with Q, a queue with vb 4:2 zero. -/
def esVB (w : Word32) : Option VB :=
  if w.getLsbD 7 then (if (esB w).extractLsb' 2 3 = 0 then some (.queue (w.extractLsb' 8 2)) else none)
  else some (.reg (esB w))

/-- A field that names a mask holds 0 to 7 (R87). -/
def maskOf (f : BitVec 5) : Option MReg := if f.extractLsb' 3 2 = 0 then some (f.extractLsb' 0 3) else none
/-- A field that names a data queue holds 0 to 3 (R87). -/
def queueOf (f : BitVec 5) : Option (BitVec 2) := if f.extractLsb' 2 3 = 0 then some (f.extractLsb' 0 2) else none
/-- A field that names a y queue holds 0 or 1 (R87). -/
def yOf (f : BitVec 5) : Option Bool := if f.extractLsb' 1 4 = 0 then some (f.getLsbD 0) else none

/-- VADD, VSUB, VMUL: fn bits 6:1 zero; Q in bit 7, S in bit 0. -/
def decodeV3s (w : Word32) (k : OpV3s → Instr) : Except DecodeError Instr :=
  req (w.extractLsb' 1 6 = 0) .unlistedFn
    (reqSome (esVB w) fun b => .ok (k ⟨esM w, esD w, esA w, b, w.getLsbD 0⟩))

/-- Forms with fn 0x00 and 0x80. -/
def decodeV3 (w : Word32) (k : OpV3 → Instr) : Except DecodeError Instr :=
  req (w.extractLsb' 0 7 = 0) .unlistedFn (reqSome (esVB w) fun b => .ok (k ⟨esM w, esD w, esA w, b⟩))

def decodeV2s (w : Word32) (k : OpV2s → Instr) : Except DecodeError Instr :=
  req (esB w = 0) .nonzeroField (req (w.extractLsb' 1 7 = 0) .unlistedFn (.ok (k ⟨esM w, esD w, esA w, w.getLsbD 0⟩)))

def decodeV2 (w : Word32) (k : OpV2 → Instr) : Except DecodeError Instr :=
  req (esB w = 0) .nonzeroField (req (esFn w = 0) .unlistedFn (.ok (k ⟨esM w, esD w, esA w⟩)))

/-- VSHL, VSHR, VSAR: fn 0x00, 0x80, or 0x40 to 0x7F with vb zero (R87, R88). -/
def decodeVsh (w : Word32) (k : OpV3 → Instr) (ki : OpVshi → Instr) : Except DecodeError Instr :=
  if w.getLsbD 6 then
    req (w.getLsbD 7 = false) .unlistedFn
      (req (esB w = 0) .nonzeroField (.ok (ki ⟨esM w, esD w, esA w, w.extractLsb' 0 6⟩)))
  else decodeV3 w k

def decodeVr3 (w : Word32) (k : OpVr3 → Instr) : Except DecodeError Instr :=
  req (esFn w = 0) .unlistedFn (.ok (k ⟨esM w, esD w, esA w, esB w⟩))

def decodeVmem (w : Word32) (k : OpVmem → Instr) : Except DecodeError Instr :=
  req (esB w = 0) .nonzeroField
    (reqSome (queueOf (esA w)) fun q => .ok (k ⟨esM w, esD w, q, esFn w⟩))

def decodeM3 (w : Word32) (k : OpM3 → Instr) : Except DecodeError Instr :=
  req (esM w = 0 && esFn w = 0) .nonzeroField
    (reqSome (maskOf (esD w)) fun d => reqSome (maskOf (esA w)) fun a => reqSome (maskOf (esB w)) fun b =>
      .ok (k ⟨d, a, b⟩))

def decodeDisp (w : Word32) (k : OpDisp → Instr) : Except DecodeError Instr :=
  req (w.extractLsb' 21 5 = 0) .nonzeroField (.ok (k ⟨w.extractLsb' 0 21⟩))

def decodeEsem (w : Word32) (k : OpEsem → Instr) : Except DecodeError Instr :=
  req (w.extractLsb' 6 20 = 0) .nonzeroField (.ok (k ⟨w.extractLsb' 0 6⟩))

def decodeAcr (w : Word32) (k : OpAcr → Instr) : Except DecodeError Instr :=
  req (w.extractLsb' 6 2 = 0) .unlistedFn
    (reqSome (queueOf (esA w)) fun t => .ok (k ⟨esM w, esD w, t, esB w, w.extractLsb' 0 6⟩))

/-- R88: an ES word, by opcode. -/
def decodeEs (w : Word32) : Except DecodeError Instr :=
  match (esOp w).toNat with
  | 0x01 => req (w.extractLsb' 20 6 = 0) .nonzeroField
      (let o : OpSetsh := ⟨w.extractLsb' 18 2, w.extractLsb' 16 2, w.extractLsb' 4 12, w.extractLsb' 0 4⟩
       req (shapeOk o.grp o.vl o.ety) .bounds (.ok (.setsh o)))
  | 0x02 => req (esM w = 0 && esD w = 0 && esB w = 0 && esFn w = 0) .nonzeroField
      (reqSome (queueOf (esA w)) fun q => .ok (.setshQ ⟨q⟩))
  | 0x03 => decodeVmem w .vld
  | 0x04 => decodeVmem w .vst
  | 0x05 => req (esM w = 0 && esB w = 0 && esFn w = 0) .nonzeroField
      (reqSome (queueOf (esA w)) fun q => .ok (.vldq ⟨esD w, q⟩))
  | 0x06 => req (esM w = 0 && esB w = 0) .nonzeroField
      (reqSome (yOf (esD w)) fun y => .ok (.vsty ⟨y, esA w, esFn w⟩))
  | 0x07 => req (esB w = 0 && esFn w = 0) .nonzeroField
      (reqSome (queueOf (esA w)) fun q => .ok (.vbc ⟨esM w, esD w, q⟩))
  | 0x09 => decodeDisp w .epbr
  | 0x0A => reqSome (ECond.ofCode (w.extractLsb' 21 2)) fun c =>
      req (c ≠ .always || esM w = 0) .nonzeroField (.ok (.ebr ⟨esM w, c, w.extractLsb' 0 21⟩))
  | 0x0B => decodeDisp w .ebrq
  | 0x0C => req (w.extractLsb' 0 21 = 0) .nonzeroField
      (reqSome (ECond.ofCode (w.extractLsb' 21 2)) fun c =>
        req (c ≠ .always || esM w = 0) .nonzeroField (.ok (.ebqp ⟨esM w, c⟩)))
  | 0x0D => decodeEsem w .esemw
  | 0x0E => decodeEsem w .esems
  | 0x0F => req (w.extractLsb' 0 26 = 0) .nonzeroField (.ok .eexit)
  | 0x10 => decodeV3s w .vadd | 0x11 => decodeV3s w .vsub | 0x12 => decodeV3s w .vmul
  | 0x13 => decodeV3 w .vfma | 0x14 => decodeV3 w .vfms | 0x15 => decodeV3 w .vmin | 0x16 => decodeV3 w .vmax
  | 0x17 => decodeV2s w .vabs | 0x18 => decodeV2s w .vneg
  | 0x19 => decodeV2 w .vrcp | 0x1A => decodeV2 w .vrsq | 0x1B => decodeV2 w .vexp2 | 0x1C => decodeV2 w .vlog2
  | 0x1D => req (esB w = 0 && w.extractLsb' 5 3 = 0) .nonzeroField
      (req ((w.extractLsb' 0 4).toNat < 11) .fieldCode
        (.ok (.vcvt ⟨esM w, esD w, esA w, w.getLsbD 4, w.extractLsb' 0 4⟩)))
  | 0x1E => req (esM w = 0 && esB w = 0) .nonzeroField
      (req (w.extractLsb' 1 7 = 0) .unlistedFn (.ok (.vqb ⟨esD w, esA w, w.getLsbD 0⟩)))
  | 0x1F => req (esB w = 0) .nonzeroField
      (req (w.extractLsb' 1 7 = 0) .unlistedFn (.ok (.vdqb ⟨esM w, esD w, esA w, w.getLsbD 0⟩)))
  | 0x20 => decodeV3 w .vand | 0x21 => decodeV3 w .vor | 0x22 => decodeV3 w .vxor
  | 0x23 => decodeVsh w .vshl .vshlImm | 0x24 => decodeVsh w .vshr .vshrImm | 0x25 => decodeVsh w .vsar .vsarImm
  | 0x26 => req (esA w = 0 && esB w = 0 && esFn w = 0) .nonzeroField (.ok (.viota ⟨esM w, esD w⟩))
  | 0x27 => decodeVr3 w .vsel
  | 0x28 => req (w.extractLsb' 3 4 = 0) .unlistedFn
      (reqSome (maskOf (esD w)) fun d => reqSome (esVB w) fun b => reqSome (VCond.ofCode (w.extractLsb' 0 3)) fun c =>
        .ok (.vcmp ⟨esM w, d, esA w, b, c⟩))
  | 0x29 => decodeM3 w .mand | 0x2A => decodeM3 w .mor | 0x2B => decodeM3 w .mxor
  | 0x2C => req (esM w = 0 && esB w = 0 && esFn w = 0) .nonzeroField
      (reqSome (maskOf (esD w)) fun d => reqSome (maskOf (esA w)) fun a => .ok (.mnot ⟨d, a⟩))
  | 0x2D => req (esB w = 0 && esFn w = 0) .nonzeroField
      (reqSome (yOf (esD w)) fun y => reqSome (maskOf (esA w)) fun a => .ok (.mpop ⟨esM w, y, a⟩))
  | 0x30 => decodeV2 w .vrsum | 0x31 => decodeV2 w .vrmax | 0x32 => decodeV2 w .vrmin
  | 0x33 => decodeV2 w .vrmaxi | 0x34 => decodeV2 w .vrmini
  | 0x35 => decodeVr3 w .vperm
  | 0x36 => req (esB w = 0) .nonzeroField (.ok (.vslide ⟨esM w, esD w, esA w, esFn w⟩))
  | 0x37 => decodeVr3 w .vgath
  | 0x38 => decodeVr3 w .vrng
  | 0x39 => decodeAcr w .acrd
  | 0x3A => decodeAcr w .acwr
  | 0x3B => req (esM w = 0 && esD w = 0 && w.extractLsb' 6 2 = 0) .nonzeroField
      (reqSome (queueOf (esA w)) fun t => reqSome (queueOf (esB w)) fun q => .ok (.acsc ⟨t, q, w.extractLsb' 0 6⟩))
  | 0x3C => req (esM w = 0 && esD w = 0 && w.extractLsb' 6 2 = 0) .nonzeroField
      (reqSome (queueOf (esA w)) fun t =>
        match (esB w).toNat with
        | 0 => .ok (.acz ⟨t, w.extractLsb' 0 6⟩)
        | 1 => req (esFn w = 0) .nonzeroField (.ok (.aczTile ⟨t⟩))
        | _ => .error .fieldCode)
  | 0x3D => req (esM w = 0 && esB w = 0 && w.extractLsb' 6 2 = 0) .nonzeroField
      (reqSome (queueOf (esA w)) fun t => .ok (.acst ⟨esD w, t, w.extractLsb' 0 6⟩))
  | 0x3F => decodeRep w .erep
  | _ => .error .zeroMajor

/-! Engine commands (R89 to R91). -/

def hdrOpc (h : Word32) : Nat := (h.extractLsb' 25 7).toNat
def hdrLen (h : Word32) : Nat := (h.extractLsb' 0 4).toNat
def hdrSig (h : Word32) : SemNo := h.extractLsb' 13 6

/-- A 64-bit payload quantity is two words, low word first (R89). -/
def pair (lo hi : Word32) : Word := hi ++ lo

def accOf (x : Word) : Acc := ⟨x.extractLsb' 32 32, x.extractLsb' 12 4⟩
/-- R232: bits 31:16 and 11:0 are reserved. -/
def accReserved (x : Word) : Bool := x.extractLsb' 16 16 = 0 && x.extractLsb' 0 12 = 0
def extOf (x : Word) : Ext := ⟨x.extractLsb' 32 16, x.extractLsb' 0 32⟩
/-- R233: bits 63:48 are reserved. -/
def extReserved (x : Word) : Bool := x.extractLsb' 48 16 = 0

/-- Accept the command when its payload bounds hold (R91). -/
def accept (i : Instr) : Except DecodeError Instr := req i.wf .bounds (.ok i)

def decodeMop (p : Word) (base : Word) (k : PMop → Instr) : Except DecodeError Instr :=
  req (p.extractLsb' 0 12 = 0) .nonzeroField
    (accept (k ⟨base, p.extractLsb' 40 24, p.extractLsb' 16 24, p.extractLsb' 12 4⟩))

/-- R210: the fields of a tile control word that MMA and MMAZ do not use are zero. -/
def decodeTcMma (w : Word32) (k : PMma → Instr) : Except DecodeError Instr :=
  req (w.extractLsb' 13 19 = 0 && w.extractLsb' 8 4 = 0) .nonzeroField
    (accept (k ⟨w.getLsbD 12, w.extractLsb' 2 6, w.extractLsb' 0 2⟩))

/-- Matrix engine commands (R204, R205, R210, R219, R222 to R224). -/
def decodeMx (opc : Nat) (h : Hdr) (ps : List Word32) : Except DecodeError Instr :=
  match opc, ps with
  | 0x10, [a, b] => req (b.extractLsb' 2 30 = 0) .nonzeroField
      (accept (.mhdr h ⟨a.extractLsb' 16 16, a.extractLsb' 7 9, a.extractLsb' 0 7, b.getLsbD 1, b.getLsbD 0⟩))
  | 0x11, [a, b, c, d] => decodeMop (pair c d) (pair a b) (.mopa h)
  | 0x12, [a, b, c, d] => decodeMop (pair c d) (pair a b) (.mopb h)
  | 0x13, [a] => decodeTcMma a (.mma h)
  | 0x14, [a] => decodeTcMma a (.mmaz h)
  | 0x15, [t, a, b, c, d] =>
      let p := pair c d
      req (t.extractLsb' 16 16 = 0 && t.getLsbD 12 = false && t.extractLsb' 8 4 = 0
          && p.extractLsb' 0 12 = 0 && p.extractLsb' 16 24 = 0) .nonzeroField
        (reqSome (WbFmt.ofCode (t.extractLsb' 14 2)) fun f =>
          accept (.mwb h ⟨f, t.getLsbD 13, t.extractLsb' 2 6, t.extractLsb' 0 2, pair a b, p.extractLsb' 40 24, p.extractLsb' 12 4⟩))
  | 0x16, [a] => req (a.extractLsb' 22 10 = 0 && a.extractLsb' 8 8 = 0) .nonzeroField
      (accept (.mrn h ⟨a.extractLsb' 16 6, a.extractLsb' 2 6, a.extractLsb' 0 2⟩))
  | 0x17, [a] => req (a.extractLsb' 8 24 = 0) .nonzeroField (accept (.mclr h ⟨a.extractLsb' 2 6, a.extractLsb' 0 2⟩))
  | 0x18, [a] => req (a.extractLsb' 8 24 = 0) .nonzeroField (accept (.mthr h ⟨a.extractLsb' 0 8⟩))
  | 0x10, _ | 0x11, _ | 0x12, _ | 0x13, _ | 0x14, _ | 0x15, _ | 0x16, _ | 0x17, _ | 0x18, _ => .error .badLength
  | _, _ => .error .notThisEngine

def decodeGath (b d i s st bd ct : Word) (k : PGath → Instr) : Except DecodeError Instr :=
  req (s.extractLsb' 48 16 = 0 && st.extractLsb' 32 32 = 0 && bd.extractLsb' 32 32 = 0
      && ct.extractLsb' 16 48 = 0 && ct.extractLsb' 0 4 = 0) .nonzeroField
    (accept (k ⟨b, d, i, s.extractLsb' 32 16, s.extractLsb' 0 32, st.extractLsb' 0 32, bd.extractLsb' 0 32,
      ct.extractLsb' 12 4, ct.extractLsb' 8 4, ct.extractLsb' 4 4⟩))

def decodeCmpr (src dst ct ln res : Word) (k : PCmpr → Instr) : Except DecodeError Instr :=
  req (ct.extractLsb' 16 16 = 0 && ct.extractLsb' 0 12 = 0 && ln.extractLsb' 32 32 = 0) .nonzeroField
    (accept (k ⟨src, dst, ct.extractLsb' 32 32, ct.extractLsb' 12 4, ln.extractLsb' 0 32, res⟩))

/-- Copy engine commands (R240 to R249). -/
def decodeCe (ce : Bool) (opc : Nat) (h : Hdr) (ps : List Word32) : Except DecodeError Instr :=
  match opc, ps with
  | 0x20, [a0, a1, b0, b1, c0, c1, d0, d1, e0, e1] =>
      let sa := pair c0 c1; let da := pair d0 d1; let ex := pair e0 e1
      req (accReserved sa && accReserved da && extReserved ex) .nonzeroField
        (accept (.copy ce h ⟨pair a0 a1, pair b0 b1, accOf sa, accOf da, extOf ex⟩))
  | 0x21, [a0, a1, b0, b1, c0, c1, d0, d1, e0, e1, f0, f1] =>
      let st := pair c0 c1; let nb := pair d0 d1; let lp := pair e0 e1; let ct := pair f0 f1
      req (ct.extractLsb' 16 16 = 0 && ct.extractLsb' 1 11 = 0) .nonzeroField
        (accept (.copyn ce h ⟨pair a0 a1, pair b0 b1,
          st.extractLsb' 0 16, st.extractLsb' 16 16, st.extractLsb' 32 16, st.extractLsb' 48 16,
          nb.extractLsb' 0 16, nb.extractLsb' 16 16, nb.extractLsb' 32 16, nb.extractLsb' 48 16,
          lp.extractLsb' 0 32, lp.extractLsb' 32 32, ct.extractLsb' 32 32, ct.extractLsb' 12 4, ct.getLsbD 0⟩))
  | 0x22, [a0, a1, b0, b1, c0, c1, d0, d1, e0, e1, f0, f1, g0, g1] =>
      decodeGath (pair a0 a1) (pair b0 b1) (pair c0 c1) (pair d0 d1) (pair e0 e1) (pair f0 f1) (pair g0 g1) (.gath ce h)
  | 0x23, [a0, a1, b0, b1, c0, c1, d0, d1, e0, e1, f0, f1, g0, g1] =>
      decodeGath (pair a0 a1) (pair b0 b1) (pair c0 c1) (pair d0 d1) (pair e0 e1) (pair f0 f1) (pair g0 g1) (.scat ce h)
  | 0x24, [a0, a1, b0, b1, c0, c1, d0, d1] =>
      let da := pair b0 b1; let ex := pair c0 c1
      req (accReserved da && extReserved ex) .nonzeroField
        (accept (.fill ce h ⟨pair a0 a1, accOf da, extOf ex, pair d0 d1⟩))
  | 0x25, [a0, a1, b0, b1] => accept (.flagw ce h ⟨pair a0 a1, pair b0 b1⟩)
  | 0x26, [a0, a1, b0, b1, c0, c1, d0, d1, e0, e1] =>
      decodeCmpr (pair a0 a1) (pair b0 b1) (pair c0 c1) (pair d0 d1) (pair e0 e1) (.cmpr ce h)
  | 0x27, [a0, a1, b0, b1, c0, c1, d0, d1, e0, e1] =>
      decodeCmpr (pair a0 a1) (pair b0 b1) (pair c0 c1) (pair d0 d1) (pair e0 e1) (.expn ce h)
  | 0x20, _ | 0x21, _ | 0x22, _ | 0x23, _ | 0x24, _ | 0x25, _ | 0x26, _ | 0x27, _ => .error .badLength
  | _, _ => .error .notThisEngine

/-- Transform engine commands (R250 to R253). -/
def decodeXe (opc : Nat) (h : Hdr) (ps : List Word32) : Except DecodeError Instr :=
  match opc, ps with
  | 0x30, [a0, a1, b0, b1, c0, c1, d0, d1, e0, e1, f0, f1, g0, g1] =>
      let sp := pair c0 c1; let ou := pair d0 d1; let im := pair e0 e1; let wi := pair f0 f1; let ct := pair g0 g1
      req (im.extractLsb' 0 14 = 0 && ct.extractLsb' 16 48 = 0 && ct.extractLsb' 0 8 = 0) .nonzeroField
        (accept (.unfold h ⟨pair a0 a1, pair b0 b1, sp.extractLsb' 0 32, sp.extractLsb' 32 32, ou.extractLsb' 32 32,
          ou.extractLsb' 16 16, ou.extractLsb' 0 16, im.extractLsb' 48 16, im.extractLsb' 32 16, im.extractLsb' 16 16,
          im.extractLsb' 14 2, wi.extractLsb' 56 8, wi.extractLsb' 48 8, wi.extractLsb' 40 8, wi.extractLsb' 32 8,
          wi.extractLsb' 24 8, wi.extractLsb' 16 8, wi.extractLsb' 8 8, wi.extractLsb' 0 8,
          ct.extractLsb' 12 4, ct.extractLsb' 8 4⟩))
  | 0x31, [a0, a1, b0, b1, c0, c1, d0, d1, e0, e1] =>
      let sa := pair c0 c1; let da := pair d0 d1; let ex := pair e0 e1
      req (accReserved sa && accReserved da && ex.extractLsb' 50 14 = 0 && ex.extractLsb' 0 16 = 0) .nonzeroField
        (accept (.xpose h ⟨pair a0 a1, pair b0 b1, accOf sa, accOf da, ex.extractLsb' 48 2, ex.extractLsb' 32 16, ex.extractLsb' 16 16⟩))
  | 0x32, [a0, a1, b0, b1, c0, c1, d0, d1, e0, e1] =>
      let sp := pair c0 c1; let dp := pair d0 d1; let rd := pair e0 e1
      req (rd.extractLsb' 50 3 = 0) .nonzeroField
        (accept (.relay h ⟨pair a0 a1, pair b0 b1, sp.extractLsb' 0 32, sp.extractLsb' 32 32, dp.extractLsb' 0 32, dp.extractLsb' 32 32,
          rd.extractLsb' 60 4, rd.extractLsb' 56 4, rd.extractLsb' 53 3, rd.extractLsb' 48 2,
          rd.extractLsb' 0 16, rd.extractLsb' 16 16, rd.extractLsb' 32 16⟩))
  | 0x30, _ | 0x31, _ | 0x32, _ => .error .badLength
  | _, _ => .error .notThisEngine

/-- Port ho commands (R344, R346, R347). -/
def decodeHo (opc : Nat) (h : Hdr) (ps : List Word32) : Except DecodeError Instr :=
  match opc, ps with
  | 0x40, [a0, a1, b0, b1, c0, c1, d0, d1, e0, e1] =>
      let rng := pair c0 c1; let lay := pair d0 d1; let rm := pair e0 e1
      req (lay.extractLsb' 32 32 = 0 && rm.extractLsb' 16 48 = 0) .nonzeroField
        (accept (.hoff h ⟨pair a0 a1, pair b0 b1, rng.extractLsb' 44 20, rng.extractLsb' 24 20, rng.extractLsb' 0 24,
          lay.extractLsb' 24 8, lay.extractLsb' 12 12, lay.extractLsb' 1 11, lay.getLsbD 0, rm.extractLsb' 0 16⟩))
  | 0x41, [a0, a1, b0, b1, c0, c1] =>
      let s := pair a0 a1; let rng := pair b0 b1
      req (s.extractLsb' 24 40 = 0 && rng.extractLsb' 52 12 = 0 && rng.extractLsb' 38 14 = 0 && rng.extractLsb' 20 12 = 0
          && c0 = 0 && c1 = 0) .nonzeroField
        (accept (.hpull h ⟨s.extractLsb' 0 24, rng.extractLsb' 32 6, rng.extractLsb' 0 20⟩))
  | 0x42, [a, b] => req (a.extractLsb' 24 8 = 0 && b.extractLsb' 7 25 = 0) .nonzeroField
      (accept (.hcancel h ⟨a.extractLsb' 0 24, b.extractLsb' 0 7⟩))
  | 0x40, _ | 0x41, _ | 0x42, _ => .error .badLength
  | _, _ => .error .notThisEngine

def decodeSwap (ad di rng lb dr : Word) (k : PSwap → Instr) : Except DecodeError Instr :=
  req (rng.extractLsb' 52 12 = 0 && rng.extractLsb' 20 12 = 0 && dr.extractLsb' 5 59 = 0) .nonzeroField
    (accept (k ⟨ad, di, rng.extractLsb' 32 20, rng.extractLsb' 0 20, lb, dr.getLsbD 4, dr.extractLsb' 0 4⟩))

/-- Port hub commands (R348, R385). -/
def decodeHub (opc : Nat) (h : Hdr) (ps : List Word32) : Except DecodeError Instr :=
  match opc, ps with
  | 0x48, [a0, a1, b0, b1, c0, c1, d0, d1, e0, e1] =>
      decodeSwap (pair a0 a1) (pair b0 b1) (pair c0 c1) (pair d0 d1) (pair e0 e1) (.swout h)
  | 0x49, [a0, a1, b0, b1, c0, c1, d0, d1, e0, e1] =>
      decodeSwap (pair a0 a1) (pair b0 b1) (pair c0 c1) (pair d0 d1) (pair e0 e1) (.swin h)
  | 0x4A, [a0, a1, b0, b1, c0, c1, d0, d1, e0, e1, f0, f1] =>
      let de := pair c0 c1; let sa := pair d0 d1; let da := pair e0 e1; let ex := pair f0 f1
      req (de.extractLsb' 0 42 = 0 && accReserved sa && accReserved da && extReserved ex) .nonzeroField
        (accept (.rcopy h ⟨pair a0 a1, pair b0 b1, de.extractLsb' 48 16, de.extractLsb' 42 6, accOf sa, accOf da, extOf ex⟩))
  | 0x48, _ | 0x49, _ | 0x4A, _ => .error .badLength
  | _, _ => .error .notThisEngine

/-- R89, R91: a command of a ring or port from its header and payload words; LEN must equal the payload's length. -/
def decodeCmd (r : Ring) (h : Word32) (ps : List Word32) : Except DecodeError Instr :=
  req (hdrLen h = ps.length) .badLength
    (reqSome (Scope.ofCode (h.extractLsb' 8 3)) fun sc =>
      let hd : Hdr := ⟨h.extractLsb' 19 6, h.extractLsb' 13 6, h.getLsbD 12, h.getLsbD 11, sc, h.extractLsb' 4 4⟩
      match r with
      | .mx => decodeMx (hdrOpc h) hd ps
      | .ce0 => decodeCe false (hdrOpc h) hd ps
      | .ce1 => decodeCe true (hdrOpc h) hd ps
      | .xe => decodeXe (hdrOpc h) hd ps
      | .ho => decodeHo (hdrOpc h) hd ps
      | .hub => decodeHub (hdrOpc h) hd ps)

/-! Bytes (R6, R78): a word is four bytes, the lowest address first. -/

def word32OfBytes : List Byte → Option (Word32 × List Byte)
  | b0 :: b1 :: b2 :: b3 :: rest => some (b3 ++ b2 ++ b1 ++ b0, rest)
  | _ => none

def bytesOfWord32 (w : Word32) : List Byte :=
  [w.extractLsb' 0 8, w.extractLsb' 8 8, w.extractLsb' 16 8, w.extractLsb' 24 8]

/-- The AS decoder on bytes: the instruction and the bytes after it. -/
def decodeAsBytes (bs : List Byte) : Except DecodeError (Instr × List Byte) :=
  match word32OfBytes bs with
  | none => .error .shortInput
  | some (w, rest) => (decodeAs w).map (·, rest)

/-- The ES decoder on bytes. -/
def decodeEsBytes (bs : List Byte) : Except DecodeError (Instr × List Byte) :=
  match word32OfBytes bs with
  | none => .error .shortInput
  | some (w, rest) => (decodeEs w).map (·, rest)

/-- Is the word an AS instruction; what is not, is tried as an ES word (log 7). -/
def tableWordIsAs (w : Nat) : Bool :=
  match decodeAsBytes (bytesOfWord32 (BitVec.ofNat 32 w)) with
  | .ok _ => true
  | .error _ => false

/-- The instruction the decoder reads from a word of the opcode table: AS first, then ES (log 7). -/
def decodeTableWord (nbits w : Nat) : Option Instr :=
  if nbits ≤ 32 then
    match decodeAsBytes (bytesOfWord32 (BitVec.ofNat 32 w)) with
    | .ok r => some r.1
    | .error _ =>
      match decodeEsBytes (bytesOfWord32 (BitVec.ofNat 32 w)) with
      | .ok r => some r.1
      | .error _ => none
  else none

/-! The encoder, from the same maps. -/

def asWord (major : BitVec 6) (pg : Guard) (rest : BitVec 22) : Word32 := major ++ (pg.p ++ (BitVec.ofBool pg.n ++ rest))
/-- Format A. -/
def fA (d a b : BitVec 5) (fn : BitVec 7) : BitVec 22 := d ++ (a ++ (b ++ fn))
/-- Format I. -/
def fI (d a : BitVec 5) (imm : BitVec 12) : BitVec 22 := d ++ (a ++ imm)
/-- Format M. -/
def fM (d a : BitVec 5) (c : Cls) (off : BitVec 8) : BitVec 22 := d ++ (a ++ (c ++ off))
def p5 (p : BitVec 3) : BitVec 5 := (0 : BitVec 2) ++ p
def t5 (t : BitVec 2) : BitVec 5 := (0 : BitVec 3) ++ t
def y5 (y : Bool) : BitVec 5 := (0 : BitVec 4) ++ BitVec.ofBool y

def encAlu (o : OpA) (fn : BitVec 7) : Word32 := asWord 0x01 o.pg (fA o.d o.a o.b fn)
def encI (major : BitVec 6) (o : OpI) : Word32 := asWord major o.pg (fI o.d o.a o.imm)
def encSh (major : BitVec 6) (o : OpSh) : Word32 := asWord major o.pg (fI o.d o.a ((0 : BitVec 6) ++ o.k))
def encLdih (major : BitVec 6) (o : OpLdih) : Word32 := asWord major o.pg (o.d ++ ((0 : BitVec 1) ++ o.imm))
def encBit (major : BitVec 6) (o : OpBit) : Word32 := asWord major o.pg (fI o.d o.a (o.len1 ++ o.pos))
def encPred (sel : BitVec 2) (o : OpPred) : Word32 :=
  asWord 0x11 o.pg (fA (p5 o.d) (p5 o.a) (p5 o.b) ((0 : BitVec 3) ++ (BitVec.ofBool o.ib ++ (BitVec.ofBool o.ia ++ sel))))
def encG (major : BitVec 6) (o : OpG) : Word32 := asWord major o.pg 0
def encMem (major : BitVec 6) (o : OpMem) : Word32 := asWord major o.pg (fM o.d o.base o.cls o.off)
def encMemQ (major : BitVec 6) (o : OpMemQ) : Word32 := asWord major o.pg (fM o.q.code o.base o.cls o.off)
def encHint (major : BitVec 6) (o : OpHint) : Word32 := asWord major o.pg (fM (y5 o.kind) o.base o.cls o.off)
def encR (major : BitVec 6) (o : OpR) : Word32 := asWord major o.pg (fI 0 o.a 0)
def encT (major : BitVec 6) (o : OpT) : Word32 := asWord major o.pg (fI (t5 o.t) 0 0)
def encAmo (major : BitVec 6) (o : OpAmo) : Word32 := asWord major o.pg (fA o.op.code o.a o.b (o.scope.code ++ o.cls))
def encSem (sub : BitVec 6) (o : OpSem) : Word32 := asWord 0x3A o.pg (fI 0 0 (o.s ++ sub))
def encRep (o : OpRep) : Word32 := (0x3F : BitVec 6) ++ (o.cnt1 ++ (o.ds ++ (o.sa ++ (o.sb ++ (0 : BitVec 8)))))

def esWord (op : BitVec 6) (m : BitVec 3) (d a b : BitVec 5) (fn : BitVec 8) : Word32 := op ++ (m ++ (d ++ (a ++ (b ++ fn))))
def vbField : VB → BitVec 5 | .reg v => v | .queue q => t5 q
def vbQ : VB → Bool | .reg _ => false | .queue _ => true
def encV3s (op : BitVec 6) (o : OpV3s) : Word32 :=
  esWord op o.m o.d o.a (vbField o.b) (BitVec.ofBool (vbQ o.b) ++ ((0 : BitVec 6) ++ BitVec.ofBool o.sat))
def encV3 (op : BitVec 6) (o : OpV3) : Word32 := esWord op o.m o.d o.a (vbField o.b) (BitVec.ofBool (vbQ o.b) ++ (0 : BitVec 7))
def encV2s (op : BitVec 6) (o : OpV2s) : Word32 := esWord op o.m o.d o.a 0 ((0 : BitVec 7) ++ BitVec.ofBool o.sat)
def encV2 (op : BitVec 6) (o : OpV2) : Word32 := esWord op o.m o.d o.a 0 0
def encVshi (op : BitVec 6) (o : OpVshi) : Word32 := esWord op o.m o.d o.a 0 ((1 : BitVec 2) ++ o.k)
def encVr3 (op : BitVec 6) (o : OpVr3) : Word32 := esWord op o.m o.d o.a o.b 0
def encVmem (op : BitVec 6) (o : OpVmem) : Word32 := esWord op o.m o.d (t5 o.q) 0 o.off
def encM3 (op : BitVec 6) (o : OpM3) : Word32 := esWord op 0 (p5 o.d) (p5 o.a) (p5 o.b) 0
def encDisp (op : BitVec 6) (o : OpDisp) : Word32 := op ++ ((0 : BitVec 5) ++ o.disp)
def encEsem (op : BitVec 6) (o : OpEsem) : Word32 := op ++ ((0 : BitVec 20) ++ o.s)
def encAcr (op : BitVec 6) (o : OpAcr) : Word32 := esWord op o.m o.d (t5 o.tile) o.chunk ((0 : BitVec 2) ++ o.row)

/-- R89. -/
def encHdr (opc : BitVec 7) (h : Hdr) (len : BitVec 4) : Word32 :=
  opc ++ (h.wait ++ (h.sig ++ (BitVec.ofBool h.acq ++ (BitVec.ofBool h.rel ++ (h.scope.code ++ (h.cls ++ len))))))
def split64 (x : Word) : List Word32 := [x.extractLsb' 0 32, x.extractLsb' 32 32]
def encAcc (a : Acc) : Word := a.pitch ++ ((0 : BitVec 16) ++ (a.rot ++ (0 : BitVec 12)))
def encExt (e : Ext) : Word := (0 : BitVec 16) ++ (e.rows1 ++ e.bytes)
def encMop (p : PMop) : List Word32 := split64 p.base ++ split64 (p.rpitch ++ (p.tpitch ++ (p.rot ++ (0 : BitVec 12))))
def encTc (hi : BitVec 19) (keepb : Bool) (row0 : BitVec 6) (tile : BitVec 2) : Word32 :=
  hi ++ (BitVec.ofBool keepb ++ ((0 : BitVec 4) ++ (row0 ++ tile)))
def encGath (p : PGath) : List Word32 :=
  split64 p.base ++ split64 p.dense ++ split64 p.idxa ++ split64 ((0 : BitVec 16) ++ (p.count1 ++ p.esize))
    ++ split64 ((0 : BitVec 32) ++ p.stride) ++ split64 ((0 : BitVec 32) ++ p.bound)
    ++ split64 ((0 : BitVec 48) ++ (p.brot ++ (p.drot ++ (p.irot ++ (0 : BitVec 4)))))
def encCmpr (p : PCmpr) : List Word32 :=
  split64 p.src ++ split64 p.dst ++ split64 (p.cap ++ ((0 : BitVec 16) ++ (p.rot ++ (0 : BitVec 12))))
    ++ split64 ((0 : BitVec 32) ++ p.length) ++ split64 p.res
def encSwap (p : PSwap) : List Word32 :=
  split64 p.addr ++ split64 p.dirent ++ split64 ((0 : BitVec 12) ++ (p.count1 ++ ((0 : BitVec 12) ++ p.blk0)))
    ++ split64 p.lba ++ split64 ((0 : BitVec 59) ++ (BitVec.ofBool p.cmp ++ p.drive))

/-- The words of an AS instruction. -/
def encodeAs : Instr → Option Word32
  | .add o => some (encAlu o 0x00) | .sub o => some (encAlu o 0x01) | .and o => some (encAlu o 0x02)
  | .or o => some (encAlu o 0x03) | .xor o => some (encAlu o 0x04) | .andn o => some (encAlu o 0x05)
  | .shl o => some (encAlu o 0x06) | .shr o => some (encAlu o 0x07) | .sar o => some (encAlu o 0x08)
  | .min o => some (encAlu o 0x09) | .max o => some (encAlu o 0x0A) | .minn o => some (encAlu o 0x0B) | .maxn o => some (encAlu o 0x0C)
  | .clz o => some (asWord 0x01 o.pg (fA o.d o.a 0 0x0D)) | .popc o => some (asWord 0x01 o.pg (fA o.d o.a 0 0x0E))
  | .mul o => some (encAlu o 0x10) | .mulh o => some (encAlu o 0x11) | .mulhn o => some (encAlu o 0x12)
  | .div o => some (encAlu o 0x14) | .divn o => some (encAlu o 0x15) | .rem o => some (encAlu o 0x16) | .remn o => some (encAlu o 0x17)
  | .sel o => some (asWord 0x01 o.pg (fA o.d o.a o.b ((3 : BitVec 4) ++ o.sel)))
  | .addi o => some (encI 0x02 o) | .andi o => some (encI 0x03 o) | .ori o => some (encI 0x04 o) | .xori o => some (encI 0x05 o)
  | .shli o => some (encSh 0x06 o) | .shri o => some (encSh 0x07 o) | .sari o => some (encSh 0x08 o)
  | .ldi o => some (asWord 0x09 o.pg (o.d ++ o.imm))
  | .ldih1 o => some (encLdih 0x0A o) | .ldih2 o => some (encLdih 0x0B o) | .ldih3 o => some (encLdih 0x0C o)
  | .bext o => some (encBit 0x0D o) | .bins o => some (encBit 0x0E o)
  | .cmp o => some (asWord 0x0F o.pg (fA (p5 o.d) o.a o.b ((0 : BitVec 4) ++ o.cond.code)))
  | .cmpi o => some (asWord 0x10 o.pg (fI (p5 o.d) o.a (o.cond.code ++ o.imm)))
  | .pand o => some (encPred 0 o) | .por o => some (encPred 1 o) | .pxor o => some (encPred 2 o)
  | .sega o => some (asWord 0x12 o.pg (fI o.d o.a ((0 : BitVec 6) ++ o.seg)))
  | .adr2 o => some (asWord 0x13 o.pg (fA o.d o.a o.b ((0 : BitVec 4) ++ o.k)))
  | .srr o => some (asWord 0x14 o.pg (fI o.d 0 o.reg.code)) | .srw o => some (asWord 0x15 o.pg (fI 0 o.a o.reg.code))
  | .rett o => some (encG 0x16 o) | .halt o => some (encG 0x17 o)
  | .lds o => some (encMem 0x18 o) | .sts o => some (encMem 0x19 o) | .ldq o => some (encMemQ 0x1A o) | .ldx o => some (encMemQ 0x1B o)
  | .st o => some (encMem 0x1C o) | .stq o => some (asWord 0x1D o.pg (fM ((2 : BitVec 4) ++ BitVec.ofBool o.y) o.base o.cls o.off))
  | .pf o => some (encHint 0x1E o) | .cwb o => some (encHint 0x1F o) | .cinv o => some (encHint 0x20 o)
  | .chk o => some (asWord 0x21 o.pg (fA 0 o.a 0 0)) | .chkPred o => some (asWord 0x21 o.pg (fA 0 (p5 o.a) 0 1))
  | .tlbi o => some (asWord 0x22 o.pg (fA 0 o.a 0 ((0 : BitVec 2) ++ (o.scope.code ++ o.kind.code))))
  | .amo o => some (encAmo 0x23 o) | .cas o => some (asWord 0x24 o.pg (fA o.d o.a o.b (o.scope.code ++ o.cls)))
  | .scld o => some (asWord 0x25 o.pg (fA 0 o.a 0 (o.scope.code ++ o.cls)))
  | .scst o => some (asWord 0x26 o.pg (fA 0 o.a o.b (o.scope.code ++ o.cls)))
  | .scamo o => some (encAmo 0x27 o)
  | .fence o => some (asWord 0x28 o.pg (o.scope.code ++ ((0 : BitVec 3) ++ o.mask)))
  | .trap o => some (asWord 0x29 o.pg o.imm)
  | .fork o => some (asWord 0x2A o.pg (fA o.d o.a o.b ((0 : BitVec 3) ++ (BitVec.ofBool o.join ++ o.prio))))
  | .join o => some (asWord 0x2B o.pg (fA 0 o.a o.b 0)) | .exit o => some (encG 0x2C o)
  | .enq o => some (asWord 0x2D o.pg (fA o.ring.code o.a o.b 0)) | .enqs o => some (asWord 0x2E o.pg (fA o.ring.code o.a 0 0))
  | .estart o => some (encR 0x2F o)
  | .pbr o => some (asWord 0x30 o.pg (o.t ++ o.imm)) | .pbrReg o => some (asWord 0x31 o.pg (fI (t5 o.t) o.a 0))
  | .br o => some (encT 0x32 o) | .brq o => some (encT 0x33 o) | .bqp o => some (asWord 0x34 o.pg (fI 0 (p5 o.a) 0))
  | .call o => some (encT 0x35 o) | .ret o => some (encR 0x36 o) | .loop o => some (asWord 0x37 o.pg (fI (t5 o.t) o.a 0))
  | .nop o => some (encG 0x38 o)
  | .pop o => some (asWord 0x39 o.pg (fA o.d o.q.code 0 0)) | .qpush o => some (asWord 0x39 o.pg (fA (t5 o.q) 0 o.b 1))
  | .qstat o => some (asWord 0x39 o.pg (fA o.d o.q.code 0 2))
  | .sems o => some (encSem 0 o) | .semw o => some (encSem 1 o) | .semdrop o => some (encSem 2 o)
  | .semrd o => some (asWord 0x3A o.pg (fI o.d 0 (o.s ++ (3 : BitVec 6))))
  | .waita o => some (asWord 0x3B o.pg (fA o.d o.a o.b (o.f ++ o.cls))) | .waitt o => some (encR 0x3C o)
  | .ldqAcq o => some (encMemQ 0x3D o) | .stRel o => some (encMem 0x3E o)
  | .rep o => some (encRep o)
  | _ => none

/-- The word of an ES instruction. -/
def encodeEs : Instr → Option Word32
  | .setsh o => some ((0x01 : BitVec 6) ++ ((0 : BitVec 6) ++ (o.rm ++ (o.grp ++ (o.vl ++ o.ety)))))
  | .setshQ o => some (esWord 0x02 0 0 (t5 o.q) 0 0)
  | .vld o => some (encVmem 0x03 o) | .vst o => some (encVmem 0x04 o)
  | .vldq o => some (esWord 0x05 0 o.d (t5 o.q) 0 0) | .vsty o => some (esWord 0x06 0 (y5 o.y) o.s 0 o.idx)
  | .vbc o => some (esWord 0x07 o.m o.d (t5 o.q) 0 0)
  | .epbr o => some (encDisp 0x09 o) | .ebr o => some ((0x0A : BitVec 6) ++ (o.m ++ (o.cond.code ++ o.disp)))
  | .ebrq o => some (encDisp 0x0B o) | .ebqp o => some ((0x0C : BitVec 6) ++ (o.m ++ (o.cond.code ++ (0 : BitVec 21))))
  | .esemw o => some (encEsem 0x0D o) | .esems o => some (encEsem 0x0E o) | .eexit => some 0x3C000000
  | .vadd o => some (encV3s 0x10 o) | .vsub o => some (encV3s 0x11 o) | .vmul o => some (encV3s 0x12 o)
  | .vfma o => some (encV3 0x13 o) | .vfms o => some (encV3 0x14 o) | .vmin o => some (encV3 0x15 o) | .vmax o => some (encV3 0x16 o)
  | .vabs o => some (encV2s 0x17 o) | .vneg o => some (encV2s 0x18 o)
  | .vrcp o => some (encV2 0x19 o) | .vrsq o => some (encV2 0x1A o) | .vexp2 o => some (encV2 0x1B o) | .vlog2 o => some (encV2 0x1C o)
  | .vcvt o => some (esWord 0x1D o.m o.d o.a 0 ((0 : BitVec 3) ++ (BitVec.ofBool o.sat ++ o.ty)))
  | .vqb o => some (esWord 0x1E 0 o.d o.a 0 ((0 : BitVec 7) ++ BitVec.ofBool o.flag))
  | .vdqb o => some (esWord 0x1F o.m o.d o.a 0 ((0 : BitVec 7) ++ BitVec.ofBool o.bx3))
  | .vand o => some (encV3 0x20 o) | .vor o => some (encV3 0x21 o) | .vxor o => some (encV3 0x22 o)
  | .vshl o => some (encV3 0x23 o) | .vshlImm o => some (encVshi 0x23 o) | .vshr o => some (encV3 0x24 o)
  | .vshrImm o => some (encVshi 0x24 o) | .vsar o => some (encV3 0x25 o) | .vsarImm o => some (encVshi 0x25 o)
  | .viota o => some (esWord 0x26 o.m o.d 0 0 0) | .vsel o => some (encVr3 0x27 o)
  | .vcmp o => some (esWord 0x28 o.m (p5 o.d) o.a (vbField o.b) (BitVec.ofBool (vbQ o.b) ++ ((0 : BitVec 4) ++ o.cond.code)))
  | .mand o => some (encM3 0x29 o) | .mor o => some (encM3 0x2A o) | .mxor o => some (encM3 0x2B o)
  | .mnot o => some (esWord 0x2C 0 (p5 o.d) (p5 o.a) 0 0) | .mpop o => some (esWord 0x2D o.m (y5 o.y) (p5 o.a) 0 0)
  | .vrsum o => some (encV2 0x30 o) | .vrmax o => some (encV2 0x31 o) | .vrmin o => some (encV2 0x32 o)
  | .vrmaxi o => some (encV2 0x33 o) | .vrmini o => some (encV2 0x34 o)
  | .vperm o => some (encVr3 0x35 o) | .vslide o => some (esWord 0x36 o.m o.d o.a 0 o.n)
  | .vgath o => some (encVr3 0x37 o) | .vrng o => some (encVr3 0x38 o)
  | .acrd o => some (encAcr 0x39 o) | .acwr o => some (encAcr 0x3A o)
  | .acsc o => some (esWord 0x3B 0 0 (t5 o.tile) (t5 o.q) ((0 : BitVec 2) ++ o.row))
  | .acz o => some (esWord 0x3C 0 0 (t5 o.tile) 0 ((0 : BitVec 2) ++ o.row)) | .aczTile o => some (esWord 0x3C 0 0 (t5 o.tile) 1 0)
  | .acst o => some (esWord 0x3D 0 o.d (t5 o.tile) 0 ((0 : BitVec 2) ++ o.row))
  | .erep o => some (encRep o)
  | _ => none

/-- The ring or port of a command (R90), with its header and payload words. -/
def encodeCmd : Instr → Option (Ring × List Word32)
  | .mhdr h p => some (.mx, [encHdr 0x10 h 2, p.k ++ (p.n ++ p.m), (0 : BitVec 30) ++ (BitVec.ofBool p.areg ++ BitVec.ofBool p.bfmt)])
  | .mopa h p => some (.mx, encHdr 0x11 h 4 :: encMop p)
  | .mopb h p => some (.mx, encHdr 0x12 h 4 :: encMop p)
  | .mma h p => some (.mx, [encHdr 0x13 h 1, encTc 0 p.keepb p.row0 p.tile])
  | .mmaz h p => some (.mx, [encHdr 0x14 h 1, encTc 0 p.keepb p.row0 p.tile])
  | .mwb h p => some (.mx, encHdr 0x15 h 5 :: encTc ((0 : BitVec 16) ++ (p.fmt.code ++ BitVec.ofBool p.z)) false p.row0 p.tile
      :: (split64 p.base ++ split64 (p.rpitch ++ ((0 : BitVec 24) ++ (p.rot ++ (0 : BitVec 12))))))
  | .mrn h p => some (.mx, [encHdr 0x16 h 1, encTc ((0 : BitVec 10) ++ (p.ht ++ (0 : BitVec 3))) false p.row0 p.tile])
  | .mclr h p => some (.mx, [encHdr 0x17 h 1, encTc 0 false p.row0 p.tile])
  | .mthr h p => some (.mx, [encHdr 0x18 h 1, (0 : BitVec 24) ++ p.duty])
  | .copy c h p => some (if c then .ce1 else .ce0, encHdr 0x20 h 10 :: (split64 p.src ++ split64 p.dst ++ split64 (encAcc p.sacc)
      ++ split64 (encAcc p.dacc) ++ split64 (encExt p.ext)))
  | .copyn c h p => some (if c then .ce1 else .ce0, encHdr 0x21 h 12 :: (split64 p.lin ++ split64 p.ten
      ++ split64 (p.st3 ++ (p.st2 ++ (p.st1 ++ p.st0))) ++ split64 (p.nb3 ++ (p.nb2 ++ (p.nb1 ++ p.nb0)))
      ++ split64 (p.lp2 ++ p.lp1) ++ split64 (p.lp3 ++ ((0 : BitVec 16) ++ (p.rot ++ ((0 : BitVec 11) ++ BitVec.ofBool p.dir))))))
  | .gath c h p => some (if c then .ce1 else .ce0, encHdr 0x22 h 14 :: encGath p)
  | .scat c h p => some (if c then .ce1 else .ce0, encHdr 0x23 h 14 :: encGath p)
  | .fill c h p => some (if c then .ce1 else .ce0, encHdr 0x24 h 8 :: (split64 p.dst ++ split64 (encAcc p.dacc)
      ++ split64 (encExt p.ext) ++ split64 p.value))
  | .flagw c h p => some (if c then .ce1 else .ce0, encHdr 0x25 h 4 :: (split64 p.addr ++ split64 p.value))
  | .cmpr c h p => some (if c then .ce1 else .ce0, encHdr 0x26 h 10 :: encCmpr p)
  | .expn c h p => some (if c then .ce1 else .ce0, encHdr 0x27 h 10 :: encCmpr p)
  | .unfold h p => some (.xe, encHdr 0x30 h 14 :: (split64 p.src ++ split64 p.dst ++ split64 (p.spy ++ p.spx)
      ++ split64 (p.dpitch ++ (p.oh ++ p.ow)) ++ split64 (p.h ++ (p.w ++ (p.c ++ (p.lge ++ (0 : BitVec 14)))))
      ++ split64 (p.kh ++ (p.kw ++ (p.sty ++ (p.stx ++ (p.dly ++ (p.dlx ++ (p.padt ++ p.padl)))))))
      ++ split64 ((0 : BitVec 48) ++ (p.srot ++ (p.drot ++ (0 : BitVec 8))))))
  | .xpose h p => some (.xe, encHdr 0x31 h 10 :: (split64 p.src ++ split64 p.dst ++ split64 (encAcc p.sacc) ++ split64 (encAcc p.dacc)
      ++ split64 ((0 : BitVec 14) ++ (p.lge ++ (p.rows1 ++ (p.cols1 ++ (0 : BitVec 16)))))))
  | .relay h p => some (.xe, encHdr 0x32 h 10 :: (split64 p.src ++ split64 p.dst ++ split64 (p.sp2 ++ p.sp1) ++ split64 (p.dp2 ++ p.dp1)
      ++ split64 (p.srot ++ (p.drot ++ (p.perm ++ ((0 : BitVec 3) ++ (p.lgu ++ (p.n2 ++ (p.n1 ++ p.n0)))))))))
  | .hoff h p => some (.ho, encHdr 0x40 h 10 :: (split64 p.src ++ split64 p.dst ++ split64 (p.count1 ++ (p.blk0 ++ p.stream))
      ++ split64 ((0 : BitVec 32) ++ (p.nh ++ (p.tpb ++ (p.hb ++ BitVec.ofBool p.conv)))) ++ split64 ((0 : BitVec 48) ++ p.modno)))
  | .hpull h p => some (.ho, encHdr 0x41 h 6 :: (split64 ((0 : BitVec 40) ++ p.stream)
      ++ split64 ((0 : BitVec 26) ++ (p.count1 ++ ((0 : BitVec 12) ++ p.blk0))) ++ [0, 0]))
  | .hcancel h p => some (.ho, [encHdr 0x42 h 2, (0 : BitVec 8) ++ p.stream, (0 : BitVec 25) ++ p.cause])
  | .swout h p => some (.hub, encHdr 0x48 h 10 :: encSwap p)
  | .swin h p => some (.hub, encHdr 0x49 h 10 :: encSwap p)
  | .rcopy h p => some (.hub, encHdr 0x4A h 12 :: (split64 p.src ++ split64 p.doff ++ split64 (p.modno ++ (p.win ++ (0 : BitVec 42)))
      ++ split64 (encAcc p.sacc) ++ split64 (encAcc p.dacc) ++ split64 (encExt p.ext)))
  | _ => none

/-- The words of a well-formed instruction; events have none. -/
def encode (i : Instr) : List Word32 :=
  match encodeAs i with
  | some w => [w]
  | none =>
    match encodeEs i with
    | some w => [w]
    | none =>
      match encodeCmd i with
      | some r => r.2
      | none => []

/-- The word of an AS or ES instruction, for TRAPVAL and ETRAPVAL (R80, R153). -/
def encodeWord (i : Instr) : Word :=
  match encode i with
  | [w] => w.zeroExtend 64
  | _ => 0

end Sys2Proof
end

