-- ==== Sys2Proof/Machine/State.lean ====
section
/-! DEFINITION. The state of the module as plain data (chapters 01 and 07 to 14), and the state right after reset. -/

namespace Sys2Proof.Machine

/-! ## One cell -/

/-- A 64-bit value with its poison tag (R20). -/
structure TW where
  v : Word
  psn : Bool
deriving DecidableEq, Repr, Inhabited

/-- A predicate with its poison tag (R13, R20). -/
structure TB where
  v : Bool
  psn : Bool
deriving DecidableEq, Repr, Inhabited

/-- A branch-target register (R14). -/
structure TargetReg where
  addr : Word
  valid : Bool
deriving DecidableEq, Repr, Inhabited

/-- R2: an active cell, by die and logical number. The MS is cell 0 of die 6 (R31). -/
structure CellId where
  die : Nat
  num : Nat
deriving DecidableEq, Repr, Inhabited

/-- R31. -/
inductive Level | program | kernel | machine
deriving DecidableEq, Repr, Inhabited

/-- Destination of an AS write (R41). -/
inductive Dest | g (n : GReg) | p (n : PReg) | t (n : TReg)
deriving DecidableEq, Repr, Inhabited

/-- An AS write in flight: remaining ticks, destination, value and tag (R37, R40). -/
structure Pend where
  rem : Nat
  dest : Dest
  val : Word
  psn : Bool
deriving DecidableEq, Repr, Inhabited

/-- A REP or EREP in progress: repetition `k` of `count` is next (R134 to R136, R192). -/
structure RepSt where
  count : Nat
  k : Nat
  ds : BitVec 4
  sa : BitVec 4
  sb : BitVec 4
deriving DecidableEq, Repr, Inhabited

/-- Whether the AS runs a record, is idle, or is halted (HALT on the MS, R157). -/
inductive RunSt | idle | running | halted
deriving DecidableEq, Repr, Inhabited

/-- The part of the AS that a late check failure takes back (R40, R117). -/
structure AsCore where
  g : Vector TW 32
  p : Vector TB 8
  t : Vector TargetReg 4
  pc : Word
  rep : Option RepSt
  infl : List Pend
deriving DecidableEq, Repr, Inhabited

/-- The system registers that are storage (R32); CAPS, TIME, TIMEFR, ENERGY, ESFLAGS and STATUS.LVL live elsewhere. -/
structure SysRegs where
  ctxid : Word
  widf : Word
  wid : Word
  frame : Word
  joinp : Word
  acqm : BitVec 16
  relm : BitVec 16
  trappc : Word
  trapcause : Word
  trapval : Word
  traprep : BitVec 12
  pwlsave : Word
  etrappc : Word
  etrapcause : Word
  etrapval : Word
  etraprep : BitVec 12
  tvec : Word
  esHalted : Bool
  esPending : Bool
  setup : Bool
deriving DecidableEq, Repr, Inhabited

/-- Where an access goes (R276): location (0 scratchpad … 4 CXL, 5 a drive), unit (the cell of a scratchpad as die × 64 + number,
the die of a die SRAM or tensor store, else 0), byte address, key, cache policy, and whether the leaf is backed (R361). -/
structure Place where
  loc : Nat
  die : Nat
  addr : Nat
  key : Nat
  cpol : Nat
  bk : Bool
deriving DecidableEq, Repr, Inhabited

/-- R143, R144: a WAITA that has been reached: t0, the TIME of its timeout, the cycle of its last read that was unequal, the word it waits
on with the value it waits for, and since when that word has stood at that value. -/
structure WaitSt where
  t0 : Nat
  end_ : Option Nat
  rd : Option Nat
  word : Option (Place × Word)
  eq : Option Nat
deriving DecidableEq, Repr, Inhabited

/-- The access sequencer (R13). `delivered`: the pending ES fault has been taken as a trap (R155); `esSaved`: the trap
being handled saved the ES list (R152, log 31);
`wait`: a WAITA that has been reached (R143); `exitTested`: the EXIT that waits has passed its test of unconsumed queue entries (R149); the three latches are TIMEFR's, one per level (R156). -/
structure AsSt where
  core : AsCore
  run : RunSt
  lvl : Level
  wait : Option WaitSt
  exitTested : Bool
  delivered : Bool
  esSaved : Bool
  sys : SysRegs
  latchP : BitVec 16
  latchK : BitVec 16
  latchM : BitVec 16
deriving DecidableEq, Repr, Inhabited

/-- A vector register or mask with its tag (R17, R20). -/
structure EReg where
  bits : BitVec 2048
  psn : Bool
deriving DecidableEq, Repr, Inhabited

/-- Class of an ES write (R41). -/
inductive EClass | v | m | sh | flags
deriving DecidableEq, Repr, Inhabited

/-- One register of an ES write: value, byte enables, tag delivered, tag alone (R40, R41, R162, R163). -/
structure EPart where
  val : BitVec 2048
  be : BitVec 256
  psn : Bool
  alone : Bool
deriving DecidableEq, Repr, Inhabited

/-- An ES write in flight (R40, R41): registers num, num + 1, … of its class take `parts`; `flg` is ORed into ESFLAGS. -/
structure EPend where
  rem : Nat
  cls : EClass
  num : Nat
  parts : List EPart
  flg : BitVec 6
deriving DecidableEq, Repr, Inhabited

/-- R151, R194, R43: the ES is idle, runs, has issued EEXIT with writes still to land, or is halted by a fault. -/
inductive EsRun | idle | running | draining | halted
deriving DecidableEq, Repr, Inhabited

/-- The execute sequencer (R13, R17 to R19). -/
structure EsSt where
  v : Vector EReg 32
  m : Vector EReg 8
  sh : Word
  flags : BitVec 6
  pc : Word
  rep : Option RepSt
  infl : List EPend
  run : EsRun
deriving DecidableEq, Repr, Inhabited

/-- A queue entry (R16, R21): `arrived` is false while it is only reserved, `from_` is the first cycle it can be
popped in, `seq` names the AS memory operation that reserved it. -/
structure QEnt where
  v : Word
  psn : Bool
  arrived : Bool
  from_ : Nat
  seq : Nat
deriving DecidableEq, Repr, Inhabited

/-- A bit of a branch-outcome queue and the first cycle it can be popped in (R21). -/
structure BEnt where
  v : Bool
  from_ : Nat
deriving DecidableEq, Repr, Inhabited

/-- The queues of a cell (R13). -/
structure Queues where
  q : Vector (List QEnt) 4
  y0 : List QEnt
  y1 : List QEnt
  lq : List QEnt
  bqa : List BEnt
  bqe : List BEnt
deriving DecidableEq, Repr, Inhabited

/-- A semaphore (R22): a count in normal phase, a code in error phase. -/
inductive Sem | count (n : BitVec 16) | err (code : Byte)
deriving DecidableEq, Repr, Inhabited

/-- A tile row (R25, R26): `bad` lists the columns whose parity is wrong; H_r is computed from `a`. -/
structure TRow where
  e : BitVec 12
  a : List Word
  bad : List Nat
  fresh : Bool
  nan : Bool
  ovf : Bool
  psn : Bool
  par : Bool
deriving DecidableEq, Repr, Inhabited

/-- A tile: its rows and its event count (R25). -/
structure Tile where
  rows : List TRow
  events : BitVec 32
deriving DecidableEq, Repr, Inhabited

/-- A step word moved into a front queue, with its poison (R197, R360). -/
structure FWord where
  w : Word32
  psn : Bool
deriving DecidableEq, Repr, Inhabited

/-- Where a command in progress stands among steps 2 to 6 of R200: `release` carries the completion code and DONE. -/
inductive Phase | wait | acquire | run | release (code done : Nat)
deriving DecidableEq, Repr, Inhabited

/-- A report record before it has its sequence number (R358). `ctx` is the context of its CID and `dest` the one whose queue takes it; 255
is the device and the management queue (R356). -/
structure Report where
  typ : Nat
  code : Nat
  part : Nat
  ctx : Nat
  dest : Nat
  die : Nat
  num : Nat
  agent : Nat
  time : Word
  info0 : Word
  info1 : Word
deriving DecidableEq, Repr, Inhabited

/-- A cached translation: segment, page, leaf (R239, R284). -/
structure TlbEnt where
  seg : Nat
  page : Nat
  leaf : Word
deriving DecidableEq, Repr, Inhabited

/-- A command in progress (R200, R211, R235): the decoded command, the ring position of its header, its phase, the
unit or panel reached, the move or K group within it, the row or index, whether poison was met, running byte counts, the
translations the unit in progress uses, the writes its release waits for and the AS access its acquire waits for. `buf`: words of
the unit read so far, with their markers, and `sub` the word reached (R263); `since`: when the unit's checks finished (R261);
`due`: when the accesses that use a translation dropped by TLBI must be over (R286); `code`: the lowest failing code so far (R214); `owes`: writes of
the unit checked at `since` are still to come (R261). -/
structure Cmd where
  i : Instr
  pos : Nat
  phase : Phase
  unit : Nat
  group : Nat
  row : Nat
  poisoned : Bool
  outBytes : Nat
  inBytes : Nat
  xl : List TlbEnt
  ids : List Nat
  acqSeq : Nat
  buf : List TW
  sub : Nat
  since : Nat
  due : Option Nat
  code : Nat
  owes : Bool
deriving DecidableEq, Repr, Inhabited

/-- An appended word (R150, R268): its ring or port position, the AS memory sequence at its ENQ, and the ring word it replaced, with the
poison marker there, which come back when a check before it fails (R40). -/
structure Mark where
  pos : Nat
  seq : Nat
  old : Word32
  oldPsn : Bool
deriving DecidableEq, Repr, Inhabited

/-- An engine's ring pointers, front queue and running command (R197, R199, R200); `marks`: the appended words that no command has
taken yet (R268); `told`: the error completion under way
has been reported (R359). -/
structure EngSt where
  wp : BitVec 32
  rp : BitVec 32
  front : List FWord
  fpos : Nat
  cur : Option Cmd
  marks : List Mark
  told : Bool
deriving DecidableEq, Repr, Inhabited

/-- R204. -/
structure Shape where
  k : Nat
  n : Nat
  m : Nat
  areg : Bool
  bfmt : Bool
deriving DecidableEq, Repr, Inhabited

/-- R205. -/
structure Desc where
  base : Word
  rpitch : Nat
  tpitch : Nat
  rot : Nat
deriving DecidableEq, Repr, Inhabited

/-- A 64-byte operand block as read, with whether it is a poison side (R214, R215). -/
structure Blk where
  bytes : BitVec 512
  psn : Bool
deriving DecidableEq, Repr, Inhabited

/-- The held weights of R212: blocks of column n, panel by panel. -/
structure Held where
  k : Nat
  n : Nat
  bfmt : Bool
  cols : List (List Blk)
deriving DecidableEq, Repr, Inhabited

/-- The matrix engine's state besides its ring (R203); `panelA` and `panelB` are the operand blocks of the panel in
progress as read. -/
structure MxSt where
  shape : Option Shape
  a : Option Desc
  b : Option Desc
  held : Option Held
  duty : Byte
  panelA : List (List Blk)
  panelB : List (List Blk)
deriving DecidableEq, Repr, Inhabited

/-- A port of the cell (R150, R343): appended words not yet decoded, credits, and the decoded commands not yet complete,
oldest first. -/
structure PortSt where
  buf : List Word32
  credits : Nat
  cmds : List Cmd
  pos : Nat
  marks : List Mark
  told : Bool
deriving DecidableEq, Repr, Inhabited

/-- What an AS memory operation that has not performed will do (R113 to R126, R140). -/
inductive MKind
  | load (q : Option (BitVec 2))
  | store (val : Word) (psn : Bool)
  | amo (op : AmoOp) (val : Word)
  | cas (cmp val : Word)
  | writeback (inv page : Bool)
  | signal (s : SemNo)
deriving DecidableEq, Repr, Inhabited

/-- An AS memory operation that has issued and not yet performed at cell scope (R258, R264). `addr` is its effective
address; `place` is known once its checks are finished (R117), at `since`. `acq`: the class mask a load acquires over; `rel`: the
class mask a store releases over; `deps`: the writes a release must see performed (R266); `due`: when it must have performed because
TLBI dropped its translation (R286). -/
structure MOp where
  seq : Nat
  kind : MKind
  cls : Cls
  scope : Scope
  addr : Word
  place : Option Place
  acq : Option (BitVec 16)
  rel : Option (BitVec 16)
  deps : List Nat
  since : Nat
  due : Option Nat
deriving DecidableEq, Repr, Inhabited

/-- What is taken back when the checks of operation `seq` fail late (R40, R117). -/
structure Snap where
  seq : Nat
  core : AsCore
  lq : List QEnt
  latchP : BitVec 16
  latchK : BitVec 16
  latchM : BitVec 16
deriving DecidableEq, Repr, Inhabited

/-- A segment table entry: dwords 0 to 3 (R273, R274). -/
structure SegEnt where
  d0 : Word
  d1 : Word
  d2 : Word
  d3 : Word
deriving DecidableEq, Repr, Inhabited

/-- The record a cell runs (R314): its launch, its operator and its dispatch priority. -/
structure RunRec where
  launch : Nat
  op : Nat
  prio : Nat
deriving DecidableEq, Repr, Inhabited

/-- R24, R231: how far a cell has come in a cycle: the least rank that may still act, and whether its sequencers have moved (log 1). -/
structure Cyc where
  clk : Nat
  rank : Nat
  as : Bool
  es : Bool
deriving DecidableEq, Repr, Inhabited

/-- One cell (R13), with what its agents keep besides. `recd`: the running record; `lastOp`: operator and context of the record
dispatched before (R35, R36, R199). `lastSc`: the cycle of the last SC operation (R124); `cyc`: its place in the cycle; `ovfs`: semaphores that overflowed, with the cycle
(R24). -/
structure Cell where
  id : CellId
  as : AsSt
  es : EsSt
  qs : Queues
  sems : Vector Sem 63
  tiles : List Tile
  mx : EngSt
  ce0 : EngSt
  ce1 : EngSt
  xe : EngSt
  mxs : MxSt
  ho : PortSt
  hub : PortSt
  segs : List SegEnt
  recd : Option RunRec
  lastOp : Option (Nat × Nat)
  lastCtx : Option Nat
  mops : List MOp
  mseq : Nat
  late : Bool
  snaps : List Snap
  tlb : List TlbEnt
  tlbMx : List TlbEnt
  tlbCe0 : List TlbEnt
  tlbCe1 : List TlbEnt
  tlbXe : List TlbEnt
  fused : Bool
  gated : Bool
  hold : List Report
  asbase : Word
  assize : Nat
  esbase : Word
  essize : Nat
  lastSc : Option Nat
  cyc : Cyc
  ovfs : List (SemNo × Nat)
deriving DecidableEq, Repr, Inhabited

/-! ## Memory (R256 to R262) -/

/-- R119, R287 to R289: what holds copies of lines: the L1 of a cell, or a die SRAM's cache of host lines. -/
inductive Cache | l1 (c : CellId) | sram (die : Nat)
deriving DecidableEq, Repr, Inhabited

/-- A write that has performed at some scopes and not at the widest of its place (R258). `reach`: 0 cell, 1 cluster, 2 die,
3 package; `mask` marks the bytes written; `eng` is false for the AS; `pol`: its cache policy, and `cache`: the cache whose line it made
dirty (R119); `since`: when its checks had finished (R261). -/
structure PWrite where
  id : Nat
  cell : CellId
  eng : Bool
  seq : Nat
  cls : Cls
  key : Nat
  val : Word
  mask : BitVec 8
  psn : Bool
  reach : Nat
  pol : Nat
  cache : Option Cache
  since : Nat
deriving DecidableEq, Repr, Inhabited

/-- A write-back under way (R121): the key range it covers, the operation's sequence number and class, its cell, its effective address, and
when it must be over because TLBI dropped its translation (R286). -/
structure Wback where
  cell : CellId
  seq : Nat
  cls : Cls
  lo : Nat
  len : Nat
  inv : Bool
  addr : Word
  due : Option Nat
deriving DecidableEq, Repr, Inhabited

/-- A frame bound to a key (R292): location, die, frame, key. -/
structure Binding where
  loc : Nat
  die : Nat
  frame : Nat
  key : Nat
deriving DecidableEq, Repr, Inhabited

/-- A line in a cache, with its key (R287, R294). -/
structure CLine where
  at_ : Cache
  line : Nat
  key : Nat
deriving DecidableEq, Repr, Inhabited

/-- The home value of a word whose newest value, written by `cell` under the policy `pol`, stands in a dirty line (R119); the line is home by
`until_` (R287). -/
structure Stale where
  key : Nat
  cell : CellId
  at_ : Cache
  val : Word
  psn : Bool
  pol : Nat
  until_ : Nat
deriving DecidableEq, Repr, Inhabited

/-- R78: memory as it stood when the record a cell runs was dispatched, for its instruction fetches, and the words that stores have
put there since, wherever they are visible yet. -/
structure CodeMem where
  cell : CellId
  mem : List Host.Cell
  puts : List (Nat × Word)
deriving DecidableEq, Repr, Inhabited

/-- Memory and what is known of its words. `mem` is canonical: addresses strictly rising, no zero byte. `bad`: words with an error
no read has met yet; `bus`: those of them whose bus beats fail (R355); `badLines`: copies in caches with such an error (R354);
`told`: shared lines a context has been told of (R361); `alien`: the 16-byte cipher blocks whose bytes stand as written under another key
than their frame's, with that key (R290). -/
structure MemSt where
  mem : List Host.Cell
  psn : List Nat
  writes : List PWrite
  nextId : Nat
  wbacks : List Wback
  binds : List Binding
  lines : List CLine
  stale : List Stale
  bad : List Nat
  bus : List Nat
  badLines : List (Cache × Nat)
  told : List (Nat × Nat)
  alien : List (Nat × Nat)
  code : List CodeMem
deriving DecidableEq, Repr, Inhabited

/-! ## Launches and records (chapter 11) -/

/-- R306. -/
structure Oper where
  code : Word
  enum : Bool
  dbound : Nat
deriving DecidableEq, Repr, Inhabited

/-- Place of an enumerator (R311): pair index, position in the band, index over the inner fields. -/
structure Cursor where
  d : Nat
  a : Nat
  f : Nat
  fin : Bool
deriving DecidableEq, Repr, Inhabited

/-- A started launch (R303, R305). `op` is the operator in progress, `live` its records queued or running, `began` its first
dispatch, `yielded` the last yield of its enumerator and `boost` the levels it has risen (R315); `stopped`: at a boundary with a
pre-emption standing; `saved`: its context is not running (R317). -/
structure Launch where
  id : Nat
  src : LaunchSrc
  ctx : Nat
  part : Nat
  idx : Nat
  hdr : Word
  prio : Nat
  fuse : Bool
  widths : BitVec 42
  order : Nat
  swz : Nat
  asbase : Word
  assize : Nat
  esbase : Word
  essize : Nat
  ops : List Oper
  op : Nat
  live : Nat
  placed : Bool
  cur : Cursor
  began : Option Nat
  yielded : Nat
  boost : Nat
  wmap : List (Nat × CellId)
  templ : List (Word × Nat)
  frameb : Word
  ktvec : Word
  ksave : Word
  segs : List SegEnt
  stopped : Bool
  saved : Bool
  paused : Nat
deriving DecidableEq, Repr, Inhabited

/-- What a FORKed record still waits for (R146): the cell's operations up to `seq` and the writes `deps`. -/
structure Hold where
  cell : CellId
  seq : Nat
  deps : List Nat
deriving DecidableEq, Repr, Inhabited

/-- A record in a queue (R146, R313, R315). `slot`: its place among the 8 × 2^RQLG bodies of 32 bytes at RQBASE (R365, log 42); `written`: the body is there: a FORK may yet be taken back
(R40). -/
structure Rec where
  code : Word
  frame : Word
  wid : Word
  joinp : Word
  launch : Nat
  op : Nat
  since : Nat
  hold : Option Hold
  slot : Nat
  written : Bool
deriving DecidableEq, Repr, Inhabited

/-- A partition: descriptor (R365), running context and record queues (R313, R316). `left`: the context that ran before (R316); `owed`: from
its save to the next restore, the static boundaries that the context restored is charged for (R405). -/
structure PartSt where
  en : Bool
  slice : Nat
  wbase : Nat
  wcnt : Nat
  rqlg : Nat
  cld : Word
  clp : BitVec 24
  rqbase : Word
  save : Word
  ctx : Option Nat
  left : Option Nat
  since : Nat
  owed : Option Nat
  preempt : Bool
  fifos : List (List Rec)
  lastEnum : List Bool
  served : List Nat
deriving DecidableEq, Repr, Inhabited

/-- An entry of a command queue that has started or was refused (R302 to R304). -/
structure CqEnt where
  idx : Nat
  fence : Bool
  addr : Word
  value : Word
  done : Bool
  refused : Bool
  deps : List Nat
deriving DecidableEq, Repr, Inhabited

/-- A command queue (R302, R380). `replay`: the entry after the last completed fence (R320); `posts`: the doorbells of queue 3 since then,
each with its place in the order of posting (R331). -/
structure CqSt where
  base : Word
  lg : Nat
  tail : BitVec 32
  head : BitVec 32
  ents : List CqEnt
  replay : BitVec 32
  posts : List (BitVec 32 × Nat)
deriving DecidableEq, Repr, Inhabited

/-- An error queue (R357): `prod` records written, `seq` the next sequence number. -/
structure EqSt where
  base : Word
  ctl : Word
  lg : Nat
  prod : BitVec 32
  seq : BitVec 16
deriving DecidableEq, Repr, Inhabited

/-- A tenant context (R367, R371, R374, R380). `dirty`: D of R323, `dirtyAt`: the same by location and die; `dirtySegs`: the segments of
launches counted in it; `vacating`: an eviction holds its launches back (R324, R325); `sentWords` and `gotWords`: the 8-byte words that
have left through the fabric for it, or arrived, since the last 64 bytes of them were charged (R384). -/
structure CtxSt where
  en : Bool
  eprio : BitVec 3
  ckdest : BitVec 2
  keyid : BitVec 9
  part : BitVec 4
  root : Word
  eq : EqSt
  ckbase : Word
  cqs : List CqSt
  strBusy : Bool
  strStat : Byte
  spent : Word
  paused : Word
  charged : Word
  energy : BitVec 48
  recent : List (Nat × Nat)
  dirty : Nat
  dirtyAt : List (Nat × Nat)
  dirtySegs : List (Nat × Nat)
  vacating : Bool
  sentWords : Nat
  gotWords : Nat
deriving DecidableEq, Repr, Inhabited

/-- R324: the decision for a context. -/
inductive Decision | idle | run | checkpoint | discard | runFell | checkpointFell
deriving DecidableEq, Repr, Inhabited

/-- One context of an eviction: decision, allotment, checkpoint bytes, when it became vacant. -/
structure EvCtx where
  ctx : Nat
  dec : Decision
  alloc : Nat
  bytes : Nat
  vacant : Option Nat
deriving DecidableEq, Repr, Inhabited

/-- A pending eviction (R322 to R326). -/
structure Evict where
  isCtx : Bool
  target : Nat
  deadline : Nat
  fallAt : Nat
  out : Word
  ctxs : List EvCtx
deriving DecidableEq, Repr, Inhabited

/-! ## Streams and swap (chapter 12) -/

/-- R328. -/
inductive StreamState | queued | prefill | handoff | decode | parked | resuming | done | cancelled | lost
deriving DecidableEq, Repr, Inhabited

/-- A registered block of a hand-off (R344): block, source and destination frames (die, frame), layout, remote module and
window. -/
structure HReg where
  blk : Nat
  srcDie : Nat
  srcFrame : Nat
  srcKey : Nat
  dstDie : Nat
  dstFrame : Nat
  dstKey : Nat
  conv : Bool
  nh : Nat
  tpb : Nat
  hb : Nat
  modno : Nat
  win : Nat
  off : Nat
deriving DecidableEq, Repr, Inhabited

/-- An outstanding HPULL or SWOUT (R340, R346, R350): its range, when its 2 ms began, its place among all arrivals, the port
command that waits, and its code once the outcome is known. -/
structure Pull where
  blk0 : Nat
  count : Nat
  since : Nat
  arr : Nat
  cell : CellId
  pos : Nat
  code : Option Nat
deriving DecidableEq, Repr, Inhabited

/-- Where a block stands in the swap engine (R350 to R353). -/
inductive SwapStage | registered | gather | writing | flushing | reading | data | placing | placed | failed
deriving DecidableEq, Repr, Inhabited

/-- A block under swap: direction, frame and stage; its place in the order in which blocks were begun (R351), the words of its page that
stand in the swap window, the word its transfer has reached (R263), and which slot of the window is its own (R352). -/
structure SwapBlk where
  out : Bool
  blk : Nat
  die : Nat
  frame : Nat
  key : Nat
  stage : SwapStage
  seq : Nat
  buf : List TW
  at_ : Nat
  slot : Nat
deriving DecidableEq, Repr, Inhabited

/-- A stream held by the PRS (R327 to R342). `going`: the block being sent and the word reached; `settled`: the words of the block to be
committed next that stand as they will stay (R263, R336); `again`: its swap work was abandoned and waits for the context to run (R333);
`steps`: decode steps that completed and whose control word has not been read, each with whether it belongs to this attempt (R331);
`stepAt`: the place of its decode step in the order of posting (R303, R331). -/
structure Stream where
  n : Nat
  d : List Word
  state : StreamState
  cause : Nat
  attempts : Nat
  wmr : Bool
  ackr : Bool
  pkp : Bool
  rsp : Bool
  swp : Bool
  held : Bool
  order : Nat
  own : List Byte
  regs : List HReg
  pulls : List Pull
  outs : List Pull
  sent : List Nat
  unreleased : List Nat
  swap : List SwapBlk
  fswp : Nat
  fsrc : Nat
  fdst : Nat
  disc : Nat
  postStep : Bool
  postPrefill : Bool
  running : Bool
  ending : Bool
  recorded : Bool
  going : Option (Nat × Nat)
  settled : Nat
  again : Bool
  steps : List Bool
  stepAt : Nat
deriving DecidableEq, Repr, Inhabited

/-- What an NVMe command of the SWE does (R352). -/
inductive NvKind | write | read | readHdr | flush | dealloc
deriving DecidableEq, Repr, Inhabited

/-- An outstanding NVMe command of the SWE with the pages of the swap window its PRP entries and PRP list name (R352, R353); `sub`: its
entry stands in the drive's submission queue, since `since`. -/
structure NvCmd where
  kind : NvKind
  stream : Nat
  blk : Nat
  drive : Nat
  lba : Nat
  nlb : Nat
  since : Nat
  tries : Nat
  prp : List Nat
  sub : Bool
deriving DecidableEq, Repr, Inhabited

/-- The I/O queue pair that the host has created for a drive: its depth, and the doorbells as last written (R352). -/
structure NvQp where
  drive : Nat
  depth : Nat
  sqTail : Nat
  cqHead : Nat
deriving DecidableEq, Repr, Inhabited

/-! ## Reliability, heat, power, time, boot (chapters 13 and 14) -/

/-- A column's heat account (R368 to R370). `spent`: tokens each context spent in this window; `pauseCycles`: pause cycles of this window, and
`pausedFor`: those in which each context's agents of this column stood (R371). -/
structure HeatCol where
  t : Int
  rf : Nat
  capt : Nat
  paused : Bool
  spent : List (Nat × Nat)
  pauseCycles : Nat
  pausedFor : List (Nat × Nat)
deriving DecidableEq, Repr, Inhabited

/-- What a detection concerns (R354, R362). -/
inductive Structure | dramRow | busGroup | sramRow | spadRow | l1Line | tileElement | linkLane
deriving DecidableEq, Repr, Inhabited

/-- A detection waiting for its Chard test (R362). -/
structure Detection where
  what : Structure
  die : Nat
  num : Nat
  addr : Nat
deriving DecidableEq, Repr, Inhabited

/-- Repair state (R362 to R364): waiting detections, cells due for replacement, spare cells left, counted errors per row,
retired dies, retired UCIe modules by the two dies they join; parity errors by 16-wire group, the last retraining of each bus, and the
spare wires each 128-wire group has used. -/
structure Repair where
  waiting : List Detection
  replace : List CellId
  spareCells : List Nat
  counts : List (Nat × Nat)
  retired : List Nat
  links : List (Nat × Nat)
  busErrors : List (Nat × Nat)
  retrained : List (Nat × Nat)
  wires : List Nat
deriving DecidableEq, Repr, Inhabited

/-- The error buffer of a die (R359). -/
structure ErrBuf where
  reps : List Report
  ovf : BitVec 32
  held : Bool
deriving DecidableEq, Repr, Inhabited

/-- A shedding order entry (R373, R381). -/
structure Shed where
  ent : Word
  bw : Word
  out : Word
deriving DecidableEq, Repr, Inhabited

/-- The power cap (R373): applied entries, last application, since when the average stands below 0.95 CAPW. -/
structure PowerSt where
  capw : Word
  order : List Shed
  applied : List Nat
  lastApply : Option Nat
  below : Option Nat
  allPaused : Bool
deriving DecidableEq, Repr, Inhabited

/-- A fabric window: its eight dwords (R384). -/
structure Window where
  d : List Word
deriving DecidableEq, Repr, Inhabited

/-- A write sent to another module (R385, R386), kept for whoever models that module (log 27). -/
structure Sent where
  modno : Nat
  win : Nat
  off : Nat
  val : Word
  psn : Bool
deriving DecidableEq, Repr, Inhabited

/-- What the module flash holds (R390): image and manifest with their signatures, the version of the image, the minimum
version, H and the fabric number the manifest gives, its weights, its spare maps, whether it selects standalone time, and the
firmware's segment table, code section, entry, trap entry and save area (log 13). -/
structure Flash where
  image : List Byte
  imageEd : List Byte
  imageMl : List Byte
  manifest : List Byte
  manifestEd : List Byte
  manifestMl : List Byte
  version : Nat
  minVersion : Nat
  hFrames : Nat
  fabric : BitVec 16
  weights : List (BitVec 16)
  spares : Repair
  standalone : Bool
  msSegs : List SegEnt
  msBase : Word
  msSize : Nat
  msEntry : Word
  msTvec : Word
  msSave : Word
deriving DecidableEq, Repr, Inhabited

/-- R390, R392. -/
inductive BootPhase | off | running | recovery
deriving DecidableEq, Repr, Inhabited

/-- Start-up state (R382, R390 to R392). `staged`: an image and manifest the host has brought through the mailbox. -/
structure BootSt where
  phase : BootPhase
  flash : Flash
  measures : List (BitVec 384)
  signed : List Byte
  staged : Option Flash
  fabric : BitVec 16
  hFrames : Nat
  msStart : Nat
deriving DecidableEq, Repr, Inhabited

/-- The time base (R387, R389): `t3` counts thirds of a nanosecond, so a cycle is 5; `statics`: the 500 ns boundaries that have been
charged (R375). -/
structure TimeSt where
  t3 : Nat
  set : Bool
  locked : Bool
  offset : BitVec 32
  good : Nat
  clk : Nat
  statics : Nat
deriving DecidableEq, Repr, Inhabited

/-- Other registers of the management interface (R381); `session`: the SPDM session with the security root stands, `keyDone`: the result of
the last key slot command (R382). -/
structure MgmtSt where
  stab : Word
  eq : EqSt
  evict : List Word
  evStat : Byte
  weights : List (BitVec 16)
  session : Bool
  keyDone : Option Bool
  backing : List (List Word)
  mailbox : List Word
  slots : List (Nat × Byte)
deriving DecidableEq, Repr, Inhabited

/-- A filled key slot: its two AES-256-XTS keys (R382). -/
structure KeySlot where
  k : Nat
  k1 : BitVec 256
  k2 : BitVec 256
deriving DecidableEq, Repr, Inhabited

/-- The package's state. `prsAt`: the cycle of the last stream event (R334). -/
structure Pkg where
  parts : List PartSt
  ctxs : List CtxSt
  launches : List Launch
  nextLaunch : Nat
  streams : List Stream
  nextOrder : Nat
  nvme : List NvCmd
  nvqs : List NvQp
  volatileDrives : List Nat
  errs : List ErrBuf
  hold : List Report
  prsAt : Option Nat
  heat : List (CellId × HeatCol)
  power : PowerSt
  evicts : List Evict
  repair : Repair
  keys : List KeySlot
  windows : List Window
  portsUp : List Bool
  unreachable : List (BitVec 16)
  outbox : List Sent
  time : TimeSt
  boot : BootSt
  mgmt : MgmtSt
deriving DecidableEq, Repr, Inhabited

/-! ## The agenda: which agent moves next (log 1) -/

/-- An input that is no row of the table: a host store, a store to CXL memory by an agent behind the switch (R256), an upset of storage or
of a cached copy, a bus beat that fails on all four tries, a cache or TLB eviction, a new image in the flash, a drive's volatile cache, a
queue pair the host creates (R352), a bus beat that fails parity and is re-sent clean, a corrected error or a lane that Chard is to test, the
SPDM session set up or closed (R382). -/
inductive Input
  | hostStore (addr : Nat) (v : Word)
  | cxlStore (addr : Nat) (v : Word)
  | upset (loc unit addr : Nat)
  | lineUpset (n : Nat)
  | busFault (die addr : Nat)
  | tileUpset (tile row col : Nat)
  | tlbEvict (n : Nat)
  | lineEvict (n : Nat)
  | flashImage (f : Flash)
  | volatileCache (drive : Nat) (v : Bool)
  | nvQueue (drive depth : Nat)
  | beatError (die addr : Nat)
  | corrected (d : Detection)
  | spdm (up : Bool)
deriving DecidableEq, Repr, Inhabited

/-- Which agent of the focused cell moves, or which event happens. -/
inductive Turn | as | es | mx | ce0 | ce1 | xe | ho | hub | event (i : Instr) | input (x : Input)
deriving DecidableEq, Repr, Inhabited

/-- One move: the cell it is on (none: the one in focus), whether its memory checks finish late (R117), the cycles that
pass first, and the agent. -/
structure Slot where
  cell : Option CellId
  late : Bool
  dt : Nat
  turn : Turn
deriving DecidableEq, Repr, Inhabited

/-- The whole module. `cell` is the cell in focus and `parked` the others. `free` is the model's counter of free values
(log 8); `agenda` and `rr` decide the next move (log 1). -/
structure State where
  cell : Cell
  parked : List Cell
  mem : MemSt
  pkg : Pkg
  agenda : List Slot
  rr : Nat
  free : Nat
deriving DecidableEq, Repr, Inhabited

/-! ## Outcomes -/

/-- Why a step can fault. Nothing the spec describes stops the module, so there is one reason only. -/
inductive Fault
  /-- Raised by step when the agenda names a cell the module does not have (R2). Safe: no such cell exists. -/
  | noSuchCell
deriving DecidableEq, Repr, Inhabited

/-- Why a step or an instruction is refused. -/
inductive Refusal
  /-- Raised by an arm of exec whose instruction has no meaning yet. Safe: nothing is proved about it. -/
  | notModelled (mnemonic : String)
  /-- Raised by step when the agenda gives an instruction that is not an event (log 1). Safe: only events happen unfetched. -/
  | notAnEvent
deriving DecidableEq, Repr, Inhabited

/-! ## Reset -/

/-- R35 and log 5: the register part of an AS before any dispatch. -/
def AsCore.init : AsCore where
  g := Vector.replicate 32 ⟨0, false⟩
  p := (Vector.replicate 8 ⟨false, false⟩).set 0 ⟨true, false⟩
  t := Vector.replicate 4 ⟨0, false⟩
  pc := 0
  rep := none
  infl := []

/-- Log 5: system registers before any dispatch. -/
def SysRegs.init : SysRegs where
  ctxid := 0
  widf := 0
  wid := 0
  frame := 0
  joinp := 0
  acqm := 0
  relm := 0
  trappc := 0
  trapcause := 0
  trapval := 0
  traprep := 0
  pwlsave := 0
  etrappc := 0
  etrapcause := 0
  etrapval := 0
  etraprep := 0
  tvec := 0
  esHalted := false
  esPending := false
  setup := false

/-- R35: a cell idles at program level; the MS runs at machine level (R31). -/
def AsSt.init (die : Nat) : AsSt where
  core := AsCore.init
  run := .idle
  lvl := if die = 6 then .machine else .program
  wait := none
  exitTested := false
  delivered := false
  esSaved := false
  sys := SysRegs.init
  latchP := 0
  latchK := 0
  latchM := 0

/-- R13, R35: SH at its reset value, m0 all ones, everything else zero. -/
def EsSt.init : EsSt where
  v := Vector.replicate 32 ⟨0, false⟩
  m := (Vector.replicate 8 ⟨0, false⟩).set 0 ⟨BitVec.allOnes 2048, false⟩
  sh := 0x040A
  flags := 0
  pc := 0
  rep := none
  infl := []
  run := .idle

def Queues.init : Queues where
  q := Vector.replicate 4 []
  y0 := []
  y1 := []
  lq := []
  bqa := []
  bqe := []

/-- R26, R187: a row in the state after ACZ. -/
def TRow.init (die : Nat) : TRow where
  e := 0
  a := List.replicate (Config.arrN die) 0
  bad := []
  fresh := true
  nan := false
  ovf := false
  psn := false
  par := false

def Tile.init (die : Nat) : Tile where
  rows := List.replicate (Config.tileM die) (TRow.init die)
  events := 0

/-- R199. -/
def EngSt.init : EngSt where
  wp := 0
  rp := 0
  front := []
  fpos := 0
  cur := none
  marks := []
  told := false

/-- R203. -/
def MxSt.init : MxSt where
  shape := none
  a := none
  b := none
  held := none
  duty := 255
  panelA := []
  panelB := []

/-- R150. -/
def PortSt.init : PortSt where
  buf := []
  credits := 64
  cmds := []
  pos := 0
  marks := []
  told := false

/-- A cell as module reset leaves it. -/
def Cell.init (id : CellId) : Cell where
  id := id
  as := AsSt.init id.die
  es := EsSt.init
  qs := Queues.init
  sems := Vector.replicate 63 (.count 0)
  tiles := List.replicate 4 (Tile.init id.die)
  mx := EngSt.init
  ce0 := EngSt.init
  ce1 := EngSt.init
  xe := EngSt.init
  mxs := MxSt.init
  ho := PortSt.init
  hub := PortSt.init
  segs := []
  recd := none
  lastOp := none
  lastCtx := none
  mops := []
  mseq := 0
  late := false
  snaps := []
  tlb := []
  tlbMx := []
  tlbCe0 := []
  tlbCe1 := []
  tlbXe := []
  fused := false
  gated := false
  hold := []
  asbase := 0
  assize := 0
  esbase := 0
  essize := 0
  lastSc := none
  cyc := ⟨0, 0, false, false⟩
  ovfs := []

/-- R2: every active cell, and the MS. -/
def allCells : List CellId :=
  (List.range 6).flatMap (fun d => (List.range (Config.cellsOf d)).map (CellId.mk d)) ++ [⟨6, 0⟩]

/-- Memory at reset: nothing listed, nothing bound (R292, R393; log 4). -/
def MemSt.init : MemSt where
  mem := []
  psn := []
  writes := []
  nextId := 0
  wbacks := []
  binds := []
  lines := []
  stale := []
  bad := []
  bus := []
  badLines := []
  told := []
  alien := []
  code := []

/-- R365. -/
def PartSt.init : PartSt where
  en := false
  slice := 2000
  wbase := 0
  wcnt := 0
  rqlg := 10
  cld := 0
  clp := 0
  rqbase := 0
  save := 0
  ctx := none
  left := none
  since := 0
  owed := none
  preempt := false
  fifos := List.replicate 8 []
  lastEnum := List.replicate 8 false
  served := List.replicate 8 0

def CqSt.init : CqSt where
  base := 0
  lg := 6
  tail := 0
  head := 0
  ents := []
  replay := 0
  posts := []

def EqSt.init : EqSt where
  base := 0
  ctl := 0
  lg := 4
  prod := 0
  seq := 0

/-- R367, R371, R380. -/
def CtxSt.init : CtxSt where
  en := false
  eprio := 0
  ckdest := 0
  keyid := 0
  part := 0
  root := 0
  eq := EqSt.init
  ckbase := 0
  cqs := List.replicate 4 CqSt.init
  strBusy := false
  strStat := 0
  spent := 0
  paused := 0
  charged := 0
  energy := 0
  recent := []
  dirty := 0
  dirtyAt := []
  dirtySegs := []
  vacating := false
  sentWords := 0
  gotWords := 0

/-- Log 25: tokens enough for a program to run before the MS first sets RF and CAPT. -/
def HeatCol.init : HeatCol where
  t := 2 ^ 40
  rf := 2 ^ 20
  capt := 2 ^ 40
  paused := false
  spent := []
  pauseCycles := 0
  pausedFor := []

/-- R373: DUTY 255 and DLOFF 200, the other fields zero. -/
def Shed.init : Shed where
  ent := (255 <<< 41) ||| (200 <<< 25)
  bw := 0
  out := 0

/-- No repair made, two spare cells on each cell die (R2; log 26). -/
def Repair.init : Repair := ⟨[], [], List.replicate 6 2, [], [], [], [], [], []⟩

/-- Log 14: a flash with nothing in it. -/
def Flash.init : Flash where
  image := []
  imageEd := []
  imageMl := []
  manifest := []
  manifestEd := []
  manifestMl := []
  version := 0
  minVersion := 0
  hFrames := 0
  fabric := 1
  weights := Config.weights
  spares := Repair.init
  standalone := false
  msSegs := []
  msBase := 0
  msSize := 0
  msEntry := 0
  msTvec := 0
  msSave := 0

def MgmtSt.init : MgmtSt where
  stab := 0
  eq := EqSt.init
  evict := [0, 0, 0, 0]
  evStat := 0
  weights := Config.weights
  session := false
  keyDone := none
  backing := List.replicate 16 [0, 0, 0, 0]
  mailbox := List.replicate 8 0
  slots := []

/-- The package after module reset (R393; logs 14, 23 to 26). -/
def Pkg.init : Pkg where
  parts := List.replicate 16 PartSt.init
  ctxs := List.replicate 192 CtxSt.init
  launches := []
  nextLaunch := 1
  streams := []
  nextOrder := 0
  nvme := []
  nvqs := []
  volatileDrives := []
  errs := List.replicate 7 ⟨[], 0, false⟩
  hold := []
  prsAt := none
  heat := (allCells.filter (·.die < 6)).map fun c => (c, HeatCol.init)
  power := ⟨0, List.replicate 32 Shed.init, [], none, none, false⟩
  evicts := []
  repair := Repair.init
  keys := []
  windows := List.replicate 64 ⟨List.replicate 8 0⟩
  portsUp := List.replicate 8 true
  unreachable := []
  outbox := []
  time := ⟨0, false, false, 0, 0, 0, 0⟩
  boot := ⟨.running, Flash.init, [], [], none, 1, 0, 0⟩
  mgmt := MgmtSt.init

/-- The module right after reset (R35, R393). The cell in focus is die 2 cell 0 (log 3). -/
def State.reset : State where
  cell := Cell.init ⟨2, 0⟩
  parked := (allCells.filter (· ≠ ⟨2, 0⟩)).map Cell.init
  mem := MemSt.init
  pkg := Pkg.init
  agenda := []
  rr := 0
  free := 0

end Sys2Proof.Machine
end

