-- ==== Sys2Proof/Machine/Memory.lean ====
section
/-! DEFINITION. Bytes, words, what an agent sees of them, poison, frames and keys, translation (R6, R118, R119, R256 to R262,
R272 to R295), error detection and reports (R354 to R361), and the charges of energy and heat (R368, R374, R375). -/

namespace Sys2Proof.Machine

/-! ## Plain data helpers -/

/-- Replace element `n` of a list by `f` of it. -/
def updAt {α : Type} (l : List α) (n : Nat) (f : α → α) : List α :=
  match l, n with
  | [], _ => []
  | a :: r, 0 => f a :: r
  | a :: r, n + 1 => a :: updAt r n f

/-- Drop element `n` of a list. -/
def dropAt {α : Type} (l : List α) (n : Nat) : List α :=
  match l, n with
  | [], _ => []
  | _ :: r, 0 => r
  | a :: r, n + 1 => a :: dropAt r n

/-- Sorted insertion without repeats. -/
def insertN : List Nat → Nat → List Nat
  | [], k => [k]
  | a :: r, k => if k < a then k :: a :: r else if k = a then a :: r else a :: insertN r k

/-- Removal. -/
def eraseN (l : List Nat) (k : Nat) : List Nat := l.filter (· ≠ k)

/-! ## Bytes and words -/

/-- The byte at a key; what no entry lists reads as 0 (log 4). -/
def memGet : List Host.Cell → Nat → Byte
  | [], _ => 0
  | (a, b) :: r, k => if a = k then b else memGet r k

/-- Write one byte, keeping keys strictly rising and no zero entry. -/
def memSet : List Host.Cell → Nat → Byte → List Host.Cell
  | [], k, b => if b = 0 then [] else [(k, b)]
  | (a, x) :: r, k, b =>
    if k < a then (if b = 0 then (a, x) :: r else (k, b) :: (a, x) :: r)
    else if k = a then (if b = 0 then r else (k, b) :: r)
    else (a, x) :: memSet r k b

/-- Keys strictly rising, each at least `lo`, no entry equal to what an unlisted key reads as. -/
def memWfFrom (lo : Nat) : List Host.Cell → Bool
  | [] => true
  | (a, b) :: r => lo ≤ a && b ≠ 0 && memWfFrom (a + 1) r

/-- The canonical form of memory. -/
def memWf (m : List Host.Cell) : Bool := memWfFrom 0 m

/-- The 8-byte word at a key, little-endian (R6). -/
def memWord (m : List Host.Cell) (k : Nat) : Word :=
  memGet m (k + 7) ++ memGet m (k + 6) ++ memGet m (k + 5) ++ memGet m (k + 4)
    ++ memGet m (k + 3) ++ memGet m (k + 2) ++ memGet m (k + 1) ++ memGet m k

/-- Write the bytes of a word that `mask` names. -/
def memPut (m : List Host.Cell) (k : Nat) (v : Word) (mask : BitVec 8) : List Host.Cell :=
  (List.range 8).foldl (fun m i => if mask.getLsbD i then memSet m (k + i) (v.extractLsb' (8 * i) 8) else m) m

/-- 64 bits from the byte mask of a word. -/
def maskBits (mask : BitVec 8) : Word :=
  (List.range 8).foldl (fun (x : Word) i => if mask.getLsbD i then x ||| (0xFF <<< (8 * i)) else x) 0

/-- Old bytes, but new ones where the mask names them. -/
def overlay (old new : Word) (mask : BitVec 8) : Word :=
  (old &&& ~~~ maskBits mask) ||| (new &&& maskBits mask)

/-- Key of a byte: location and unit above a 64-bit byte address. -/
def byteKey (loc unit addr : Nat) : Nat := (loc * 65536 + unit) * 2 ^ 64 + addr

/-- The key of a place. -/
def Place.wkey (p : Place) : Nat := byteKey p.loc p.die p.addr

/-- The place `n` bytes further on. -/
def Place.plus (p : Place) (n : Nat) : Place := { p with addr := p.addr + n }

/-- The scratchpad unit of a cell (R28). -/
def spadUnit (c : CellId) : Nat := c.die * 64 + c.num

/-- A word of a cell's scratchpad. -/
def spadPlace (c : CellId) (addr : Nat) : Place := ⟨0, spadUnit c, addr, 0, 0, false⟩

/-! ## Who sees a write (R257, R258, R260) -/

/-- The set of agents a cell belongs to at reach 0 (cell), 1 (cluster), 2 (die), 3 (package): die 7 stands for the host. The MS and
the other units of the H-die have only package scope in common. -/
def CellId.unit (c : CellId) (r : Nat) : Nat × Nat :=
  match r with
  | 0 => (c.die, c.num)
  | 1 => (c.die, if c.die = 6 then c.num else c.num / 4)
  | 2 => (c.die, if c.die = 6 then c.num else 0)
  | _ => (if c.die = 7 then 7 else 0, 0)

/-- R257. -/
def sameUnit (r : Nat) (a b : CellId) : Bool := a.unit r = b.unit r

/-- R257: reach of a scope. -/
def scopeReach : Scope → Nat
  | .cell => 0 | .cluster => 1 | .die => 2 | .package => 3 | .system => 4

/-- R258: the reach at which a write to this location is visible to everyone who can see it. -/
def finalReach (loc : Nat) : Nat := if loc = 3 || loc = 4 then 4 else 3

/-- The agent that stands for the package's own units: visible to it is what has performed at package scope. -/
def pkgAgent : CellId := ⟨6, 1⟩

/-- R260: the coherence-latest value of a word visible to an agent. -/
def viewWord (m : MemSt) (who : CellId) (k : Nat) : TW :=
  m.writes.foldl (fun x w => if w.key = k && sameUnit w.reach w.cell who then ⟨overlay x.v w.val w.mask, w.psn⟩ else x)
    ⟨memWord m.mem k, m.psn.contains k⟩

/-- Set or clear the poison marker of a word (R20, R118). -/
def MemSt.setPsn (m : MemSt) (k : Nat) (b : Bool) : MemSt :=
  { m with psn := if b then insertN m.psn k else eraseN m.psn k }

/-- R78: the words that a write of the 8 bytes from a key on changes, as they stand in memory now: its own, and the aligned ones. -/
def wordsAt (m : List Host.Cell) (k : Nat) : List (Nat × Word) :=
  let a := k / 8 * 8
  if k = a then [(a, memWord m a)] else [(k, memWord m k), (a, memWord m a), (a + 8, memWord m (a + 8))]

/-- R78: what a store puts into a word may be what a later fetch sees. -/
def CodeMem.stored (x : CodeMem) (l : List (Nat × Word)) : CodeMem := { x with puts := x.puts ++ l }

/-- A write reaches its home: bytes, marker. The line is rewritten: a further error in it is told again (R361). -/
def MemSt.putHome (m : MemSt) (k : Nat) (v : Word) (mask : BitVec 8) (psn : Bool) : MemSt :=
  let mem := memPut m.mem k v mask
  ({ m with
    mem := mem, bad := eraseN m.bad k, bus := eraseN m.bus k, told := m.told.filter fun x => x.1 ≠ k / 64 * 64
    code := m.code.map (CodeMem.stored · (wordsAt mem k)) }).setPsn k psn

/-- A write that performs everywhere at once: from then on no read answers what the word's home held before it (R119, R260). -/
def MemSt.putNow (m : MemSt) (k : Nat) (v : Word) (mask : BitVec 8) (psn : Bool) : MemSt :=
  ({ m with stale := m.stale.filter (·.key ≠ k) }).putHome k v mask psn

/-- R261: thirds of a nanosecond in 500 µs. -/
def writeBound : Nat := 1500000

/-- R119, R287: whether a cache holds a line under a key. -/
def MemSt.holds (m : MemSt) (h : Cache) (line key : Nat) : Bool := m.lines.any fun x => x.at_ = h && x.line = line && x.key = key

/-- R119, R287: a write becomes final. Where it made a line of a cache dirty, the word its home held before it stays readable there,
older, while the cache holds the line, for as long as R261 lets the line stay away. -/
def MemSt.finish (m : MemSt) (w : PWrite) : MemSt :=
  match w.cache.filter (fun (h : Cache) => m.lines.any fun x => x.at_ = h && x.line = w.key / 64 * 64) with
  | some h =>
    let old : Stale := ⟨w.key, w.cell, h, memWord m.mem w.key, m.psn.contains w.key, w.pol, w.since + writeBound⟩
    ({ m with stale := m.stale ++ [old] }).putHome w.key w.val w.mask w.psn
  | none => m.putNow w.key w.val w.mask w.psn

/-- Memory as it will stand once writes of a list have reached their homes. -/
def settled (m : List Host.Cell) (l : List PWrite) : List Host.Cell := l.foldl (fun x w => memPut x w.key w.val w.mask) m

/-- R258: a write joins those that have not performed everywhere; a fetch may see it from now on (R78). -/
def MemSt.addWrite (m : MemSt) (w : PWrite) : MemSt :=
  { m with
    writes := m.writes ++ [w], nextId := m.nextId + 1
    code := m.code.map (CodeMem.stored · (wordsAt (settled m.mem ((m.writes ++ [w]).filter fun x => x.key / 64 = w.key / 64)) w.key)) }

/-- R258: a write enters at cell scope; in a fused cluster it performs at cluster scope as well (R288); in scratchpad it
is applied at once (R259). `since`: when its checks had finished; `cache`: the cache whose line it changes. -/
def MemSt.write (m : MemSt) (c : CellId) (eng fused : Bool) (seq : Nat) (cls : Cls) (since : Nat) (cache : Option Cache) (p : Place)
    (v : Word) (mask : BitVec 8) (psn : Bool) : MemSt :=
  if p.loc = 0 then m.putNow p.wkey v mask psn
  else
    m.addWrite ⟨m.nextId, c, eng, seq, cls, p.wkey, v, mask, psn, if fused then 1 else 0, p.cpol, cache, since⟩

/-- Location, unit and byte address of a key. -/
def keyLoc (k : Nat) : Nat := k / 2 ^ 80
def keyUnit (k : Nat) : Nat := k / 2 ^ 64 % 65536
def keyAddr (k : Nat) : Nat := k % 2 ^ 64

/-- Two writes some agent sees both of. -/
def PWrite.meets (a b : PWrite) : Bool := sameUnit (max a.reach b.reach) a.cell b.cell

/-- R258, R259: the next scope write `n` may perform at, if it may: to become final it must not overtake an earlier write of the
same word that some agent sees beside it (log 10). -/
def MemSt.mayWiden (m : MemSt) (n : Nat) : Bool :=
  match m.writes[n]? with
  | none => false
  | some w =>
    if w.reach + 1 < finalReach (keyLoc w.key) then true
    else !(m.writes.take n).any (fun x => x.key = w.key && x.meets w)

/-- The write performs at the next scope; at its widest it leaves the list and memory holds it. -/
def MemSt.widen (m : MemSt) (n : Nat) : MemSt :=
  match m.writes[n]? with
  | none => m
  | some w =>
    if w.reach + 1 < finalReach (keyLoc w.key) then
      { m with writes := updAt m.writes n fun w => { w with reach := w.reach + 1 } }
    else
      ({ m with writes := dropAt m.writes n }).finish w

/-- Whether a write with this identifier has performed at reach `r` (R266). -/
def MemSt.reached (m : MemSt) (id r : Nat) : Bool := !m.writes.any (fun w => w.id = id && w.reach < r)

/-- The writes an agent sees that have not performed everywhere (R266 condition 2). -/
def MemSt.visibleIds (m : MemSt) (c : CellId) : List Nat :=
  (m.writes.filter fun w => sameUnit w.reach w.cell c).map (·.id)

/-! ## Cells of the package -/

/-- Change one cell, in focus or parked. -/
def State.updCell (s : State) (id : CellId) (f : Cell → Cell) : State :=
  if s.cell.id = id then { s with cell := f s.cell }
  else { s with parked := s.parked.map fun c => if c.id = id then f c else c }

/-- Find a cell. -/
def State.findCell (s : State) (id : CellId) : Option Cell :=
  if s.cell.id = id then some s.cell else s.parked.find? (·.id = id)

/-- Change the package. -/
def State.updPkg (s : State) (f : Pkg → Pkg) : State := { s with pkg := f s.pkg }

/-- Change memory. -/
def State.updMem (s : State) (f : MemSt → MemSt) : State := { s with mem := f s.mem }

/-- Change a context. -/
def State.updCtx (s : State) (n : Nat) (f : CtxSt → CtxSt) : State :=
  s.updPkg fun p => { p with ctxs := updAt p.ctxs n f }

/-- Change a partition. -/
def State.updPart (s : State) (n : Nat) (f : PartSt → PartSt) : State :=
  s.updPkg fun p => { p with parts := updAt p.parts n f }

/-- A context's state. -/
def State.ctx (s : State) (n : Nat) : CtxSt := s.pkg.ctxs.getD n CtxSt.init

/-- A partition's state. -/
def State.part (s : State) (n : Nat) : PartSt := s.pkg.parts.getD n PartSt.init

/-- TIME in ns (R32, R387). -/
def State.timeNs (s : State) : Nat := if s.pkg.time.set then s.pkg.time.t3 / 3 else 0

/-- R32: tenant context, partition and key of a CTXID value. -/
def ctxOf (w : Word) : Nat := (w.extractLsb' 0 8).toNat
def partOf (w : Word) : Nat := (w.extractLsb' 8 4).toNat
def keyOf (w : Word) : Nat := (w.extractLsb' 12 9).toNat

/-! ## Energy and heat (R368, R374, R375) -/

/-- R375: a sum above 2^48 − 1 leaves the counter at its top. -/
def satEnergy (e : BitVec 48) (n : Nat) : BitVec 48 :=
  if e.toNat + n ≥ 2 ^ 48 then BitVec.allOnes 48 else BitVec.ofNat 48 (e.toNat + n)

/-- Add a context's tokens to an account list. -/
def addFor (l : List (Nat × Nat)) (c n : Nat) : List (Nat × Nat) :=
  match l with
  | [] => [(c, n)]
  | (d, m) :: r => if d = c then (d, m + n) :: r else (d, m) :: addFor r c n

/-- R375: charges older than 2 µs are settled; the rest may yet be left out of a read. -/
def CtxSt.settle (x : CtxSt) (now : Nat) : CtxSt :=
  let old := x.recent.filter fun e => e.1 + 6000 ≤ now
  { x with
    energy := satEnergy x.energy (old.foldl (fun a e => a + e.2) 0)
    recent := x.recent.filter fun e => ¬ e.1 + 6000 ≤ now }

/-- R374: charge a context. -/
def CtxSt.charge (x : CtxSt) (now w : Nat) : CtxSt :=
  { x.settle now with recent := (x.settle now).recent ++ [(now, w)] }

/-- R405: what a counter owes is in it from now on, whatever charges are still open (R375). -/
def CtxSt.pay (x : CtxSt) (now w : Nat) : CtxSt := { x.settle now with energy := satEnergy (x.settle now).energy w }

/-- R374: weight of a class. -/
def State.weight (s : State) (cls : Nat) : Nat := (s.pkg.mgmt.weights.getD cls 0).toNat

/-- R368: `n` events of weight `w` spend tokens of a column, which falls below zero by at most one event's weight. -/
def HeatCol.spend (h : HeatCol) (ctx : Option Nat) (w n : Nat) : HeatCol :=
  let t := min h.t (max (h.t - w * n) (-w))
  { h with
    t := t
    paused := h.paused || t ≤ 0
    spent := match ctx with | some c => addFor h.spent c (w * n) | none => h.spent }

/-- Charge `n` events of a class to a context and spend their weight from a column (classes 0 to 11 spend heat). -/
def State.charge (s : State) (ctx : Option Nat) (col : CellId) (cls n : Nat) : State :=
  let w := s.weight cls
  let s := if cls < 12 then
      s.updPkg fun p => { p with heat := p.heat.map fun e => if e.1 = col then (e.1, e.2.spend ctx w n) else e }
    else s
  match ctx with
  | some c => s.updCtx c fun x => x.charge s.pkg.time.t3 (w * n)
  | none => s

/-- R375, R384: an 8-byte word leaves through a port for a context (`out`), or arrives for it: each eighth makes 64 bytes, class 9. -/
def State.chargeFabric (s : State) (ctx : Nat) (col : CellId) (out : Bool) : State :=
  let n := (if out then (s.ctx ctx).sentWords else (s.ctx ctx).gotWords) + 1
  let s := s.updCtx ctx fun x => if out then { x with sentWords := n % 8 } else { x with gotWords := n % 8 }
  if n % 8 = 0 then s.charge (some ctx) col 9 1 else s

/-! ## Reports (R356 to R359) -/

/-- R359: whether a die's buffer has an entry this report may use. -/
def ErrBuf.hasRoom (b : ErrBuf) (r : Report) : Bool :=
  b.reps.length < 256 && (r.dest = 255 || (b.reps.filter (·.dest = r.dest)).length < 16)

/-- R358, R359: whether the agent of a report is one of a cell; AGENT 7 stands for every other unit. -/
def Report.ofCell (r : Report) : Bool := r.agent ≠ 7

/-- R359: whether a report of the same agent for the same queue is held. -/
def State.heldBefore (s : State) (r : Report) : Bool :=
  let same := fun (x : Report) => x.agent = r.agent && x.dest = r.dest
  match s.findCell ⟨r.die, r.num⟩ with
  | some c => if r.ofCell then c.hold.any same else s.pkg.hold.any same
  | none => s.pkg.hold.any same

/-- R359: a report enters its die's buffer, or is held at the agent that found no room; it never overtakes a held one for the same
queue. -/
def State.report (s : State) (r : Report) : State :=
  let held := s.heldBefore r
  if (s.pkg.errs.getD r.die ⟨[], 0, false⟩).hasRoom r && !held then
    s.updPkg fun p => { p with errs := updAt p.errs r.die fun b => { b with reps := b.reps ++ [r] } }
  else
    let s := s.updPkg fun p => { p with
      errs := updAt p.errs r.die fun b =>
        { b with ovf := if b.ovf = BitVec.allOnes 32 then b.ovf else b.ovf + 1, held := true } }
    if r.ofCell && (s.findCell ⟨r.die, r.num⟩).isSome then
      s.updCell ⟨r.die, r.num⟩ fun c => { c with hold := c.hold ++ [r] }
    else s.updPkg fun p => { p with hold := p.hold ++ [r] }

/-- R356: the context whose queue takes a report about an access; 255 is the management queue. Scratchpad has no key (R276). -/
def reportCtx (ctx : Option Nat) (p : Place) : Nat :=
  match ctx with
  | some c => if p.loc ≠ 0 && (p.key = 0 || 496 ≤ p.key) then 255 else c
  | none => 255

/-- R356: the context whose key a frame is bound to, or a line is held under: the one admitted under it, or, when none is any more, the one
whose key it was; 255 for the device's and the shared keys. -/
def State.keyCtx (s : State) (key : Nat) : Nat :=
  let has := fun (x : CtxSt) => x.keyid.toNat = key
  if key = 0 || 496 ≤ key then 255
  else ((s.pkg.ctxs.findIdx? fun x => x.en && has x).or (s.pkg.ctxs.findIdx? has)).getD 255

/-- Who makes an access: cell, agent code (R358), context and partition (none for the device's own work). -/
structure Who where
  cell : CellId
  agent : Nat
  ctx : Option Nat
  part : Nat
deriving DecidableEq, Repr, Inhabited

/-- R356, R358: a report by this agent, with the CID of its access, for the queue of context `dest`. -/
def State.mkReport (s : State) (w : Who) (dest typ code : Nat) (i0 i1 : Word) : Report :=
  ⟨typ, code, w.part, w.ctx.getD 255, dest, w.cell.die, if w.cell.num < Config.cellsOf w.cell.die then w.cell.num else 0, w.agent, BitVec.ofNat 64 s.timeNs, i0, i1⟩

/-! ## Uncorrectable errors (R118, R355, R360, R361, R362) -/

/-- R362: note a detection for Chard. -/
def State.detected (s : State) (d : Detection) : State :=
  s.updPkg fun p => { p with repair := { p.repair with waiting := p.repair.waiting ++ [d] } }

/-- R358: code of an error at home by location; in host or CXL memory itself the code is a choice (log 52). -/
def errCode (loc : Nat) (bus : Bool) : Nat := if bus then 2 else if loc = 0 then 4 else if loc = 2 then 1 else if loc = 1 then 3 else 5

/-- R363: what stands for a structure of a die that belongs to no cell: the die's SRAM (log 26). -/
def noCell : Nat := 64

/-- R362: the structure whose word at home is in error, which Chard tests; host and CXL memory are not the module's. -/
def homeFault (loc unit addr : Nat) (bus : Bool) : Option Detection :=
  if loc = 0 then some ⟨.spadRow, unit / 64, unit % 64, addr⟩
  else if loc = 1 then some ⟨.sramRow, unit, noCell, addr⟩
  else if loc = 2 then some ⟨if bus then .busGroup else .dramRow, unit, addr / Config.columnBytes unit, addr⟩
  else none

/-- R362: the structure of a copy in error: the line of an L1, or a row of the die's SRAM. -/
def Cache.fault : Cache → Nat → Detection
  | .l1 c, addr => ⟨.l1Line, c.die, c.num, addr⟩
  | .sram die, addr => ⟨.sramRow, die, noCell, addr⟩

/-- R364: the 16-wire group that carries the beats of an address of a column, as a number: the bus of the column, then the group. -/
def busGroup (die addr : Nat) : Nat := (die * 64 + addr / Config.columnBytes die) * 2 ^ 32 + Config.wiresOf addr % 2 ^ 32

/-- R364: `n` beats of a group fail parity. -/
def State.noteBeats (s : State) (die addr n : Nat) : State :=
  s.updPkg fun p => { p with repair := { p.repair with
    busErrors := p.repair.busErrors ++ List.replicate n (busGroup die addr, p.time.t3) } }

/-- R361: the backing of a shared key that covers a line of a die's frame: its host address. -/
def State.backing (s : State) (p : Place) : Option Nat :=
  if 496 ≤ p.key && p.bk then
    match s.pkg.mgmt.backing[p.key - 496]? with
    | some [b, dflo, nf, _] =>
      let d := (dflo.extractLsb' 40 3).toNat
      let flo := (dflo.extractLsb' 0 36).toNat
      let n := (nf.extractLsb' 0 32).toNat
      let f := p.addr / 65536
      if d = p.die && flo ≤ f && f < flo + n then some (b.toNat + 65536 * (f - flo) + p.addr % 65536 / 64 * 64) else none
    | _ => none
  else none

/-- The first byte key of the 64-byte line of a place. -/
def Place.line (p : Place) : Nat := byteKey p.loc p.die (p.addr / 64 * 64)

/-- R358: a die byte address with its location in bits 63:61. -/
def locAddr (loc addr : Nat) : Word := (BitVec.ofNat 3 loc ++ BitVec.ofNat 61 addr : BitVec 64)

/-- R118: every word of a line is marked; the error is no longer undetected. -/
def MemSt.poisonLine (m : MemSt) (line : Nat) : MemSt :=
  { m with
    psn := (List.range 8).foldl (fun l i => insertN l (line + 8 * i)) m.psn
    bad := m.bad.filter fun k => k / 64 ≠ line / 64
    bus := m.bus.filter fun k => k / 64 ≠ line / 64 }

/-- R361: rewrite a line from the 64 bytes of host memory that back it, which begin at any byte. -/
def MemSt.refetch (m : MemSt) (line host : Nat) : MemSt :=
  (List.range 8).foldl (fun m i => m.putNow (line + 8 * i) (memWord m.mem (byteKey 3 0 (host + 8 * i))) 0xFF false) m

/-- The cell whose L1 serves a line for this cell (R288). -/
def l1Of (c : Cell) (line : Nat) : CellId :=
  if c.fused then ⟨c.id.die, c.id.num / 4 * 4 + line / 64 % 4⟩ else c.id

/-- The same for whoever makes an access. -/
def State.l1At (s : State) (who : CellId) (line : Nat) : CellId :=
  match s.findCell who with
  | some c => l1Of c line
  | none => who

/-- A line holds a word with an error no read has met. -/
def MemSt.badLine (m : MemSt) (line : Nat) : Bool := m.bad.any fun k => k / 64 = line / 64

/-- R361: the lines that the 64 bytes of host memory from an address on lie in. -/
def backLines (host : Nat) : List Nat := [byteKey 3 0 (host / 64 * 64), byteKey 3 0 ((host + 63) / 64 * 64)]

/-- R361: the backing of a line can be read: no line of it is in error, and no word of it is marked. -/
def MemSt.backed (m : MemSt) (host : Nat) : Bool :=
  !(backLines host).any m.badLine && !m.psn.any fun k => byteKey 3 0 (host / 8 * 8) ≤ k && k < byteKey 3 0 (host + 64)

/-- R119, R287, R354: the copy of a line that serves an access: the L1 of its cell, or its die's cache of host lines. -/
def MemSt.server (m : MemSt) (l1 : CellId) (p : Place) : Option Cache :=
  if m.holds (.l1 l1) p.line p.key then some (.l1 l1)
  else if p.loc = 3 && m.holds (.sram l1.die) p.line p.key then some (.sram l1.die)
  else none

/-- R354: whether the copy of a line in a cache has an error no access has met. -/
def MemSt.badCopy (m : MemSt) (h : Option Cache) (line : Nat) : Bool :=
  match h with
  | some h => m.badLines.contains (h, line)
  | none => false

/-- R358: the code of an error in a copy: SRAM die for a die SRAM's cache, else L1. -/
def Cache.errCode : Cache → Nat
  | .l1 _ => 5
  | .sram _ => 3

/-- R118, R355, R360, R361: an uncorrectable error of a code, in a structure of the module or not, is found in the line of a place. -/
def State.lineError (s : State) (w : Who) (p : Place) (sa : Word) (code : Nat) (d : Option Detection) : State :=
  let s := d.elim s s.detected
  match s.backing p with
  | some h =>
    let s := s.report (s.mkReport w 255 0x03 code sa 0)
    s.updMem fun m => if m.backed h then m.refetch p.line h else ((backLines h).filter m.badLine).foldl MemSt.poisonLine (m.poisonLine p.line)
  | none => (s.report (s.mkReport w (reportCtx w.ctx p) 0x03 code sa 0)).updMem fun m => m.poisonLine p.line

/-- R118, R354, R355: an access meets an uncorrectable error in the line it reads: in the copy that serves it, or at home; a bus fault is
four beats that failed parity (R364). -/
def State.meetError (s : State) (w : Who) (l1 : CellId) (p : Place) (sa : Word) : State :=
  match s.mem.server l1 p with
  | some h =>
    if s.mem.badCopy (some h) p.line then
      (s.lineError w p sa h.errCode (some (h.fault p.addr))).updMem fun m => { m with
        badLines := m.badLines.filter fun x => x.2 ≠ p.line }
    else s
  | none =>
    if s.mem.badLine p.line then
      let bus := s.mem.bus.any fun k => k / 64 = p.line / 64
      (if bus then s.noteBeats p.die p.addr 4 else s).lineError w p sa (errCode p.loc bus) (homeFault p.loc p.die p.addr bus)
    else s

/-- R361: a context that reads a poisoned shared line is told once. -/
def State.tellShared (s : State) (w : Who) (p : Place) (sa : Word) : State :=
  match w.ctx with
  | none => s
  | some c =>
    if 496 ≤ p.key && s.mem.psn.contains p.wkey && !s.mem.told.contains (p.line, c) then
      (s.report (s.mkReport w c 0x04 0 sa (BitVec.ofNat 64 p.key))).updMem fun m => { m with told := m.told ++ [(p.line, c)] }
    else s

/-! ## Caches (R119, R287, R288) and line charges (R375) -/

/-- R297: the column that holds a place of a tensor store. -/
def tcol (p : Place) : CellId := ⟨p.die, p.addr / Config.columnBytes p.die⟩

/-- R368: the column from which a unit that has none of its own spends for a place: the tensor block's, else the first of the die it reaches,
and for host and CXL memory the first of die 0 (DESIGN CHOICE, log 35). -/
def unitCol (p : Place) : CellId := if p.loc = 2 then tcol p else ⟨if p.loc = 1 then p.die else 0, 0⟩

/-- R374: the class of 64 bytes of a place outside the scratchpads. -/
def lineClass (p : Place) : Nat := if p.loc = 2 then (if Config.isPDie p.die then 4 else 5) else if p.loc = 1 then 7 else 10

/-- R374 classes 8 and 9: an access that leaves its column uses ring slots, and off its die link bytes; how many, the spec
leaves to the route (log 35). `col`: the column they spend from. -/
def State.chargeRoute (s : State) (w : Who) (col : CellId) (p : Place) : State :=
  let s := ({ s with free := s.free + 1 }).charge w.ctx col 8 (Config.freeNat s.free)
  if (p.loc = 1 || p.loc = 2) && p.die = w.cell.die then s
  else ({ s with free := s.free + 1 }).charge w.ctx col 9 (Config.freeNat s.free)

/-- R375: a line moved to or from die SRAM is class 7, to or from host or CXL memory class 10. -/
def State.chargeLine (s : State) (w : Who) (p : Place) : State := (s.charge w.ctx w.cell (lineClass p) 1).chargeRoute w w.cell p

/-- R374, R375: 64 bytes of a place that a unit of the package moves for a context, and their way there. -/
def State.chargeUnit (s : State) (w : Who) (p : Place) : State := (s.charge w.ctx (unitCol p) (lineClass p) 1).chargeRoute w (unitCol p) p

/-- R289: the die SRAM of a cell's die caches host lines when H is not 0; the H-die has none. -/
def State.hostCache (s : State) (die : Nat) : Bool := 0 < s.pkg.boot.hFrames && die < 6

/-- A line enters a cache. -/
def MemSt.fill (m : MemSt) (h : Cache) (p : Place) : MemSt := { m with lines := m.lines ++ [⟨h, p.line, p.key⟩] }

/-- R375, R289: a host line passes to a cell's L1 or sequencer: from its die SRAM's cache (class 7) or from the host (class 10), and
then through the cache when it is filled (`keep`; log 52). -/
def State.fetchHost (s : State) (w : Who) (die : Nat) (p : Place) (keep : Bool) : State :=
  if s.mem.holds (.sram die) p.line p.key then s.chargeLine w { p with loc := 1, die := die }
  else
    let s := s.chargeLine w p
    if keep && s.hostCache die then (s.charge w.ctx w.cell 7 1).updMem fun m => m.fill (.sram die) p else s

/-- R119, R375: an access to die SRAM or to host or CXL memory moves a line unless an L1 serves it; an allocating miss fills the line. -/
def State.touchLine (s : State) (w : Who) (c : Cell) (p : Place) : State :=
  if p.loc = 1 || p.loc = 3 || p.loc = 4 then
    let l := Cache.l1 (l1Of c p.line)
    if s.mem.holds l p.line p.key then s
    else
      let s := if p.loc = 3 then s.fetchHost w c.id.die p (p.cpol = 0) else s.chargeLine w p
      if p.cpol = 0 then s.updMem fun m => m.fill l p else s
  else s

/-- R118, R354: an access reads a line: an error in it is met where it stands, and then the line moves. -/
def State.passLine (s : State) (w : Who) (c : Cell) (p : Place) (sa : Word) : State := (s.meetError w (l1Of c p.line) p sa).touchLine w c p

/-- R119, R375: a store that misses: under allocate the line enters the L1 and nothing crosses its boundary before its write-back; else the
access moves it. R405's totals count no transfer for such a store (DEDUCED, log 35). -/
def State.touchStore (s : State) (w : Who) (c : Cell) (p : Place) : State :=
  let l := Cache.l1 (l1Of c p.line)
  if p.cpol = 0 && (p.loc = 1 || p.loc = 3 || p.loc = 4) then
    if s.mem.holds l p.line p.key then s else s.updMem fun m => m.fill l p
  else s.touchLine w c p

/-- R119: the home of a line that no cache serves holds an uncorrectable error. -/
def MemSt.homeBad (m : MemSt) (l1 : CellId) (p : Place) : Bool := (m.server l1 p).isNone && m.badLine p.line

/-- R120: a prefetch into die SRAM fetches a host line into the cache of its die; other lines have no cache there. -/
def State.touchSram (s : State) (w : Who) (c : Cell) (p : Place) : State :=
  if p.loc = 3 && s.hostCache c.id.die && !s.mem.holds (.sram c.id.die) p.line p.key then s.fetchHost w c.id.die p true else s

/-- R119: the cache whose line a write changes, whatever its policy: it hits the L1 of its cell, or its die SRAM's cache. -/
def State.writeCache (s : State) (c : Cell) (p : Place) : Option Cache := s.mem.server (l1Of c p.line) p

/-- The key a frame is bound to. -/
def MemSt.boundTo (m : MemSt) (loc die frame : Nat) : Option Nat :=
  (m.binds.find? fun b => b.loc = loc && b.die = die && b.frame = frame).map (·.key)

/-- R290: the first byte key of the 16-byte cipher block that holds a place. -/
def Place.block (p : Place) : Nat := byteKey p.loc p.die (p.addr / 16 * 16)

/-- R290: the key under which the cipher block of a place stands: the last one it was written under, else its frame's. -/
def MemSt.blockKey (m : MemSt) (p : Place) : Option Nat :=
  match m.alien.find? fun (x : Nat × Nat) => x.1 = p.block with
  | some x => some x.2
  | none => m.boundTo p.loc p.die (p.addr / 65536)

/-- R290: whether the key of an access to a word is the one under which the blocks it reaches stand: two where an unaligned BASE puts it
across their edge (log 53). -/
def MemSt.keyFits (m : MemSt) (p : Place) : Bool :=
  !(p.loc = 1 || p.loc = 2) || (m.blockKey p = some p.key && m.blockKey (p.plus 7) = some p.key)

/-- R290: the tweak of a line: its byte address, with the die in bits 63:60 and the location code in bits 66:64. -/
def Place.tweak (p : Place) : BitVec 128 :=
  BitVec.ofNat 61 0 ++ BitVec.ofNat 3 p.loc ++ BitVec.ofNat 4 p.die ++ BitVec.ofNat 60 (p.addr / 64 * 64)

/-- R290: the block of a place under a key slot, enciphered or deciphered. -/
def State.xts (s : State) (dec : Bool) (key : Nat) (p : Place) (x : BitVec 128) : BitVec 128 :=
  let k := (s.pkg.keys.find? (·.k = key)).getD ⟨key, 0, 0⟩
  xtsBlock dec k.k1 k.k2 p.tweak (p.addr / 16 % 4) x

/-- R290: the block of a place as an agent sees it under the key of the place: what stands under another key is enciphered under that
and deciphered under this one. In a frame that no key is bound to it is free (log 48). -/
def State.blockAs (s : State) (who : CellId) (p : Place) : State × BitVec 128 :=
  match s.mem.blockKey p with
  | none => ({ s with free := s.free + 2 }, Config.freeWord (s.free + 1) ++ Config.freeWord s.free)
  | some j =>
    let x := (viewWord s.mem who (p.block + 8)).v ++ (viewWord s.mem who p.block).v
    (s, if j = p.key then x else s.xts true p.key p (s.xts false j p x))

/-- R290: the block of a place stands under the key of the place from now on; writes to it that are on their way have performed. -/
def State.toKey (s : State) (p : Place) : State :=
  let r := s.blockAs s.cell.id p
  r.1.updMem fun m =>
    let m := { m with
      writes := m.writes.filter fun w => w.key / 16 ≠ p.block / 16
      alien := (m.alien.filter fun (x : Nat × Nat) => x.1 ≠ p.block) ++ (if m.boundTo p.loc p.die (p.addr / 65536) = some p.key then [] else [(p.block, p.key)]) }
    (m.putNow p.block (r.2.extractLsb' 0 64) 0xFF (m.psn.contains p.block)).putNow (p.block + 8) (r.2.extractLsb' 64 64) 0xFF
      (m.psn.contains (p.block + 8))

/-- R290: a word stored under another key than its block's: the line is read, changed and encrypted under the key of the access. -/
def State.putAlien (s : State) (p : Place) (v : Word) (mask : BitVec 8) (psn : Bool) : State :=
  ((s.toKey p).toKey (p.plus 7)).updMem fun m => m.putNow p.wkey v mask psn

/-- R258, R290: a write of an agent of the cell in focus: it enters at cell scope. -/
def State.writeW (s : State) (eng : Bool) (seq : Nat) (cls : Cls) (since : Nat) (p : Place) (v : Word) (mask : BitVec 8) (psn : Bool) :
    State :=
  if s.mem.keyFits p then
    s.updMem fun m => m.write s.cell.id eng s.cell.fused seq cls since (s.writeCache s.cell p) p v mask psn
  else s.putAlien p v mask psn

/-! ## The management registers as they read (R365, R373, R381, R384, R387) -/

/-- R365: a partition descriptor's dwords. -/
def PartSt.dword (p : PartSt) (d : Nat) : Word :=
  match d with
  | 0 => (BitVec.ofBool p.en ++ (0 : BitVec 17) ++ BitVec.ofNat 14 p.slice ++ (0 : BitVec 6) ++ BitVec.ofNat 10 p.wbase
      ++ BitVec.ofNat 11 p.wcnt ++ BitVec.ofNat 5 p.rqlg : BitVec 64)
  | 1 => p.cld
  | 2 => p.clp.zeroExtend 64
  | 3 => p.rqbase
  | 4 => p.save
  | _ => 0

/-- R357, R381: a queue's configuration. -/
def EqSt.dword (q : EqSt) (d : Nat) : Word :=
  match d with
  | 0 => q.base
  | 1 => q.ctl
  | 2 => BitVec.ofNat 64 q.lg
  | _ => 0

/-- R359. -/
def ErrBuf.stat (b : ErrBuf) : Word :=
  (b.ovf ++ (0 : BitVec 22) ++ BitVec.ofBool b.held ++ BitVec.ofNat 9 b.reps.length : BitVec 64)

/-- R387. -/
def TimeSt.stat (t : TimeSt) : Word := (t.offset ++ (0 : BitVec 30) ++ BitVec.ofBool t.set ++ BitVec.ofBool t.locked : BitVec 64)

/-- R374: four weights from class `c` on. -/
def weights4 (l : List (BitVec 16)) (c : Nat) : Word :=
  (l.getD (c + 3) 0 ++ l.getD (c + 2) 0 ++ l.getD (c + 1) 0 ++ l.getD c 0 : BitVec 64)

/-- R366: eight slot table entries. -/
def slots8 (l : List (Nat × Byte)) (o : Nat) : Word :=
  BitVec.ofNat 64 ((List.range 8).map fun i => ((l.find? (·.1 = o + i)).map (·.2.toNat)).getD 0 * 256 ^ i).sum

/-- R373: a shedding order entry. -/
def Shed.dword (e : Shed) (d : Nat) : Word :=
  match d with
  | 0 => e.ent
  | 1 => e.bw
  | 2 => e.out
  | _ => 0

/-- R7, R322: a dword of the eviction request: reserved bits read as zero, though a request that sets one is refused. -/
def evictDword (l : List Word) (d : Nat) : Word :=
  l.getD d 0 &&& (if d = 0 then 0x10FFF else if d = 2 then 0xFFFFFFFFFFFF else BitVec.allOnes 64)

/-- R381: the register at an offset, a multiple of 8; what is no register reads as 0. -/
def Pkg.mgmtRead (p : Pkg) (o : Nat) : Word :=
  let d := o % 64 / 8
  if o < 0x400 then (p.parts.getD (o / 64) PartSt.init).dword d
  else if o < 0x420 then evictDword p.mgmt.evict ((o - 0x400) / 8)
  else if o = 0x420 then p.mgmt.evStat.zeroExtend 64
  else if o = 0x440 then p.mgmt.stab
  else if 0x480 ≤ o && o < 0x498 then p.mgmt.eq.dword d
  else if o = 0x500 then p.power.capw
  else if 0x600 ≤ o && o < 0x620 then weights4 p.mgmt.weights ((o - 0x600) / 2)
  else if 0x700 ≤ o && o < 0x738 then (p.errs.getD ((o - 0x700) / 8) ⟨[], 0, false⟩).stat
  else if o = 0x800 then Config.keyStatus p.mgmt.session p.mgmt.keyDone
  else if 0x900 ≤ o && o < 0xB00 then (p.mgmt.backing.getD ((o - 0x900) / 32) []).getD (o % 32 / 8) 0
  else if o = 0xC00 then p.time.stat
  else if 0xC40 ≤ o && o < 0xC80 then p.mgmt.mailbox.getD ((o - 0xC40) / 8) 0
  else if 0x1000 ≤ o && o < 0x1400 then (p.power.order.getD ((o - 0x1000) / 32) Shed.init).dword (o % 32 / 8)
  else if 0x4000 ≤ o && o < 0x5000 then (p.windows.getD ((o - 0x4000) / 64) ⟨[]⟩).d.getD d 0
  else if 0x10000 ≤ o then slots8 p.mgmt.slots (o - 0x10000)
  else 0

/-- R376: the management window's location code in a place: no memory of R276. -/
def locMgmt : Nat := 6

/-- R119, R260: of the home values of a word, from before the first write to before the last, those that only writes through the cached
mapping have followed: a write under another policy stands between the rest and any reader. -/
def afterCached (l : List Stale) : List Stale := (l.reverse.takeWhile fun x => x.pol = 0).reverse

/-- R119, R260: the older values a read may return: it misses its cell's L1, by a mapping that does not allocate, and sees no write of its
own; the newest value, written through a mapping that does, stands dirty in a cache it does not pass. -/
def State.olderValues (s : State) (w : Who) (l1 : CellId) (p : Place) : List TW :=
  if p.cpol = 0 || s.mem.holds (.l1 l1) p.line p.key || s.mem.writes.any (fun y => y.key = p.wkey && sameUnit y.reach y.cell w.cell) then []
  else
    ((afterCached (s.mem.stale.filter fun x => x.key = p.wkey)).filter fun x =>
      x.at_ ≠ .l1 l1 && x.at_ ≠ .sram l1.die && s.pkg.time.t3 ≤ x.until_).map fun x => ⟨x.val, x.psn⟩

/-- One of the listed values or the first: which, no rule says. -/
def State.oneOf (s : State) (x : TW) (l : List TW) : State × TW :=
  if l.isEmpty then (s, x) else ({ s with free := s.free + 1 }, (x :: l).getD (Config.freeNat s.free % (l.length + 1)) x)

/-- R290: what a read under the key of its place answers: the word as it stands, or its bytes of the blocks it lies in, deciphered. -/
def State.deciphered (s : State) (who : CellId) (p : Place) (x : TW) : State × TW :=
  if s.mem.keyFits p then (s, x)
  else
    let lo := s.blockAs who p
    let hi := if (p.plus 7).block = p.block then lo else lo.1.blockAs who (p.plus 7)
    (hi.1, ⟨((hi.2 ++ lo.2) >>> (8 * (p.addr % 16))).extractLsb' 0 64, x.psn⟩)

/-- R260, R290: the newest value of a word that an agent sees, under the key of its place. -/
def State.wordAs (s : State) (who : CellId) (p : Place) : TW := (s.deciphered who p (viewWord s.mem who p.wkey)).2

/-- R290: a word written under the key of its place, at every scope at once (log 29). -/
def State.putKeyed (s : State) (p : Place) (v : Word) (mask : BitVec 8) (psn : Bool) : State :=
  if s.mem.keyFits p then s.updMem fun m => m.putNow p.wkey v mask psn else s.putAlien p v mask psn

/-- R118, R119, R260: read one word for an agent; `older`: the read may answer an older value of R119. The value of a marked word is as
stored; a load replaces it (R118). -/
def State.readAny (s : State) (older : Bool) (w : Who) (p : Place) (sa : Word) : State × TW :=
  if p.loc = locMgmt then (s, ⟨s.pkg.mgmtRead p.addr, false⟩)
  else
    let l1 := s.l1At w.cell p.line
    let s := (s.meetError w l1 p sa).tellShared w p sa
    let r := s.oneOf (viewWord s.mem w.cell p.wkey) (if older then s.olderValues w l1 p else [])
    r.1.deciphered w.cell p r.2

/-- A read like any other. -/
def State.readW (s : State) (w : Who) (p : Place) (sa : Word) : State × TW := s.readAny true w p sa

/-- R78, R262: a read of the coherence-latest value: a fetch, or the read of a read-modify-write. -/
def State.readNew (s : State) (w : Who) (p : Place) (sa : Word) : State × TW := s.readAny false w p sa

/-- R118: the value of a load of a marked word is free and tagged. -/
def State.loadVal (s : State) (x : TW) : State × TW :=
  if x.psn then ({ s with free := s.free + 1 }, ⟨Config.freeWord s.free, true⟩) else (s, x)

/-- R78: the memory a cell's fetches may still see is the present one: its record is dispatched now. What has performed at package scope
by then, as every store of a completed operator has, stands there; stores that have come less far count as made since. -/
def MemSt.setCode (m : MemSt) (c : CellId) : MemSt :=
  let mem := settled m.mem (m.writes.filter fun w => 3 ≤ w.reach)
  { m with code := m.code.filter (·.cell ≠ c)
    ++ [⟨c, mem, (m.writes.filter fun w => w.reach < 3).flatMap fun w => wordsAt (settled m.mem m.writes) w.key⟩] }

/-- R78: a fetched word is the one that stood at dispatch, one that a store has put there since, or the one visible now (log 11). -/
def State.fetched (s : State) (c : CellId) (k : Nat) (now : TW) : State × TW :=
  match s.mem.code.find? (·.cell = c) with
  | none => (s, now)
  | some x =>
    let l := memWord x.mem k :: (x.puts.filter (·.1 = k)).map (·.2)
    s.oneOf now ((l.filter (· ≠ now.v)).map (⟨·, false⟩))

/-! ## Keys and frames (R291 to R295) -/

/-- R291: whether a key slot is filled. -/
def State.keyFilled (s : State) (k : Nat) : Bool := s.pkg.keys.any (·.k = k)

/-- R293: every word of a frame becomes 0 with its marker clear, and no cached or pending older word of it remains. -/
def MemSt.scrub (m : MemSt) (loc die frame : Nat) : MemSt :=
  let lo := byteKey loc die (frame * 65536)
  let inside := fun k => lo ≤ k && k < lo + 65536
  { m with
    mem := m.mem.filter fun c => !inside c.1
    psn := m.psn.filter fun k => !inside k
    writes := m.writes.filter fun w => !inside w.key
    lines := m.lines.filter fun l => !inside l.line
    stale := m.stale.filter fun x => !inside x.key
    bad := m.bad.filter fun k => !inside k
    bus := m.bus.filter fun k => !inside k
    badLines := m.badLines.filter fun x => !inside x.2
    told := m.told.filter fun x => !inside x.1
    alien := m.alien.filter fun x => !inside x.1
    code := m.code.map fun x => { x with mem := x.mem.filter fun c => !inside c.1, puts := x.puts.filter fun c => !inside c.1 } }

/-- R292: set a frame's binding. -/
def MemSt.setBind (m : MemSt) (loc die frame key : Nat) : MemSt :=
  { m with binds := m.binds.filter (fun b => !(b.loc = loc && b.die = die && b.frame = frame)) ++ [⟨loc, die, frame, key⟩] }

/-- R356: an error that no access of a context meets is reported to context `c`, by no agent of a cell. -/
def State.reportFound (s : State) (c line code die : Nat) : State :=
  s.report ⟨0x03, code, if c = 255 then 0 else (s.ctx c).part.toNat, c, c, die, 0, 7, BitVec.ofNat 64 s.timeNs,
    locAddr (keyLoc line) (keyAddr line), 0⟩

/-- R293, R356, R362: the device's own work on a die meets the error of a line at home, which belongs to context `c`. -/
def State.foundError (s : State) (c line die : Nat) : State :=
  let bus := s.mem.bus.any fun k => k / 64 = line / 64
  let s := if bus then s.noteBeats (keyUnit line) (keyAddr line) 4 else s
  let s := (homeFault (keyLoc line) (keyUnit line) (keyAddr line) bus).elim s s.detected
  s.reportFound c line (errCode (keyLoc line) bus) die

/-- The place of a line. -/
def CLine.place (l : CLine) : Place := ⟨keyLoc l.line, keyUnit l.line, keyAddr l.line, l.key, 0, false⟩

/-- R119, R287, R374, R375: the dirty line of a cache reaches its home: bypass readers see it, the context that holds it is charged for the
line and its way, and an error in the copy is found (R356). -/
def State.lineHome (s : State) (l : CLine) : State :=
  let here := fun (x : Stale) => x.at_ = l.at_ && x.key / 64 * 64 = l.line
  match s.mem.stale.find? here with
  | none => s
  | some x =>
    let c := s.keyCtx l.key
    let s := s.chargeLine ⟨x.cell, 7, if c = 255 then none else some c, 0⟩ l.place
    let s := if s.mem.badCopy (some l.at_) l.line then
        ((s.detected (l.at_.fault (keyAddr l.line))).reportFound c l.line l.at_.errCode x.cell.die).updMem fun m => m.poisonLine l.line
      else s
    s.updMem fun m => { m with
      stale := m.stale.filter fun x => !here x, badLines := m.badLines.filter fun b => b ≠ (l.at_, l.line) }

/-- R119, R287: the chosen lines of the caches reach their homes and stay, clean. -/
def State.cleanLines (s : State) (sel : CLine → Bool) : State := (s.mem.lines.filter sel).foldl State.lineHome s

/-- R119, R287: the chosen lines reach their homes and leave the caches. -/
def State.dropLines (s : State) (sel : CLine → Bool) : State :=
  (s.cleanLines sel).updMem fun m =>
    let rest := m.lines.filter fun l => !sel l
    { m with lines := rest, badLines := m.badLines.filter fun b => rest.any fun l => l.at_ = b.1 && l.line = b.2 }

/-- Lines with an error no read has met, each once. -/
def MemSt.badIn (m : MemSt) (has : Nat → Bool) : List Nat := ((m.bad.filter has).map fun k => k / 64 * 64).eraseDups

/-- R293, R356: a binding scrub finds the errors of its frame. -/
def State.scrubFrame (s : State) (loc die frame key : Nat) : State :=
  let lo := byteKey loc die (frame * 65536)
  let s := (s.mem.badIn fun k => lo ≤ k && k < lo + 65536).foldl (init := s) fun s l => s.foundError (s.keyCtx key) l die
  s.updMem fun m => m.scrub loc die frame

/-- R294: no device cache holds the line of a host or CXL place under another key. -/
def MemSt.lineFree (m : MemSt) (p : Place) : Bool :=
  !((p.loc = 3 || p.loc = 4) && m.lines.any fun l => l.line = p.line && l.key ≠ p.key)

/-- R291: the slot of an access is filled; the MS reaches its own memory under key 0 before the host fills slot 0 (log 23). -/
def State.keyOk (s : State) (who : CellId) (k : Nat) : Bool := s.keyFilled k || (who = ⟨6, 0⟩ && k = 0)

/-- R292 to R295: bind the frame of a place for an access of an agent under its key; `none` is mapping. -/
def State.bind (s : State) (who : CellId) (p : Place) (uns : Bool) : Option State :=
  let frame := p.addr / 65536
  if !s.keyOk who p.key then none
  else if p.loc = 1 || p.loc = 2 then
    let rebind := (s.updMem fun m => m.setBind p.loc p.die frame p.key).scrubFrame p.loc p.die frame p.key
    match s.mem.boundTo p.loc p.die frame with
    | none => some rebind
    | some j => if j = p.key then some (if uns then s.scrubFrame p.loc p.die frame p.key else s) else if uns then some rebind else none
  else if uns then some (s.scrubFrame p.loc p.die frame p.key)
  else if s.mem.lineFree p then some s
  else none

/-! ## Segment entries (R273, R274, R296) -/

def SegEnt.valid (e : SegEnt) : Bool := e.d0.getLsbD 63
def SegEnt.kind (e : SegEnt) : Nat := (e.d0.extractLsb' 60 3).toNat
def SegEnt.loc (e : SegEnt) : Nat := (e.d0.extractLsb' 57 3).toNat
def SegEnt.die (e : SegEnt) : Nat := (e.d0.extractLsb' 54 3).toNat
def SegEnt.permR (e : SegEnt) : Bool := e.d0.getLsbD 53
def SegEnt.permW (e : SegEnt) : Bool := e.d0.getLsbD 52
def SegEnt.permX (e : SegEnt) : Bool := e.d0.getLsbD 51
def SegEnt.pageable (e : SegEnt) : Bool := e.d0.getLsbD 50
def SegEnt.cpol (e : SegEnt) : Nat := (e.d0.extractLsb' 48 2).toNat
def SegEnt.cmp (e : SegEnt) : Bool := e.d0.getLsbD 47
def SegEnt.keyid (e : SegEnt) : Nat := (e.d0.extractLsb' 38 9).toNat
def SegEnt.engine (e : SegEnt) : Nat := (e.d0.extractLsb' 36 2).toNat
def SegEnt.fmt (e : SegEnt) : Nat := (e.d0.extractLsb' 34 2).toNat
def SegEnt.ckey (e : SegEnt) : Bool := e.d0.getLsbD 33
def SegEnt.handle (e : SegEnt) : Nat := (e.d0.extractLsb' 0 32).toNat
def SegEnt.base (e : SegEnt) : Nat := e.d1.toNat

/-- R296: extent of dimension k of a tensor. -/
def SegEnt.extent (e : SegEnt) (k : Nat) : Nat := (e.d2.extractLsb' (16 * k) 16).toNat + 1

/-- R274, R296: size in bytes. -/
def SegEnt.size (e : SegEnt) : Nat :=
  if e.kind = 1 then 64 * e.extent 0 * e.extent 1 * e.extent 2 * e.extent 3 else e.d2.toNat

/-- R273: kinds. -/
def kLinear : Nat := 0
def kTensor : Nat := 1
def kRing : Nat := 2
def kScratch : Nat := 3

/-- The valid entry of a segment number (R272). -/
def segAt (segs : List SegEnt) (n : Nat) : Option SegEnt :=
  match segs[n]? with
  | some e => if e.valid then some e else none
  | none => none

/-- The segment number of an address (R15, R109). -/
def segNo (a : Word) : Nat := (a.extractLsb' 58 6).toNat

/-- A segment address from number and offset. -/
def mkAddr (seg off : Nat) : Word := (BitVec.ofNat 6 seg ++ BitVec.ofNat 58 off : BitVec 64)

/-! ## Translation (R276 to R285) -/

/-- Why translation fails (R281). -/
inductive XErr | notPresent | mapping
deriving DecidableEq, Repr, Inhabited

/-- A translated byte: its place, the permissions of entry and leaf together, engine-only and compression attributes. -/
structure Xl where
  place : Place
  r : Bool
  w : Bool
  x : Bool
  eo : Bool
  cmp : Bool
deriving DecidableEq, Repr, Inhabited

/-- What a translation needs of the agent: who, root and key of the tenant context, the TLB it uses (none: no TLB), whether the
access must read too and whether it is one that R299 admits to a compressed page: a write that fails them sets no D; and how many bytes
it reaches from its first one on, within a word. -/
structure Cx where
  who : Who
  root : Word
  key : Nat
  tlb : Option TlbAgent
  rd : Bool
  cmp : Bool
  len : Nat
deriving DecidableEq, Repr, Inhabited

/-- R289: mappable frames of a location. -/
def State.mappable (s : State) (loc die : Nat) : Nat :=
  if loc = 1 then 16384 - s.pkg.boot.hFrames else if loc = 2 then Config.tstoreFrames die else 2 ^ 36

/-- R279: a page-table entry the walk can follow. -/
def pteOk (e : Word) : Bool :=
  e.getLsbD 63 && e.extractLsb' 43 20 = 0 && e.extractLsb' 17 23 = 0 && (e.extractLsb' 40 3).toNat ≤ 5

/-- R280: fields of a leaf. -/
def leafKey (e : Word) : Nat := (e.extractLsb' 53 9).toNat
def leafCpol (e : Word) : Nat := (e.extractLsb' 51 2).toNat
def leafDie (e : Word) : Nat := (e.extractLsb' 40 3).toNat
def leafLoc (e : Word) : Nat := (e.extractLsb' 37 3).toNat
def leafFrame (e : Word) : Nat := (e.extractLsb' 0 36).toNat

/-- R276: the place of a byte of a leaf's page. -/
def leafPlace (byte : Nat) (e : Word) : Place :=
  ⟨leafLoc e, leafDie e, leafFrame e * 65536 + byte, leafKey e, leafCpol e, e.getLsbD 43⟩

/-- R280: a valid, present leaf that is not invalid for this kind of segment. -/
def State.leafOk (s : State) (kind : Nat) (e : Word) : Bool :=
  let loc := leafLoc e
  e.getLsbD 63 && e.getLsbD 62 && leafCpol e ≠ 3 && !e.getLsbD 36
    && (if kind = kTensor then loc = 2 else loc = 1 || loc = 3 || loc = 4)
    && (if loc = 1 || loc = 2 then leafDie e ≤ 5 else leafDie e = 0)
    && leafFrame e < s.mappable loc (leafDie e)

/-- R360: a poisoned table entry is reported to the walking context and to the management queue. -/
def State.reportPte (s : State) (w : Who) (sa : Word) : State :=
  let s := match w.ctx with | some c => s.report (s.mkReport w c 0x03 7 sa 0) | none => s
  s.report (s.mkReport w 255 0x03 7 sa 0)

/-- R279: the place of the entry of a table for an address, at a level; tables stand under key 0 (R282). -/
def entryPlace (e : Word) (va lvl : Nat) : Place :=
  ⟨1, (e.extractLsb' 40 3).toNat, (e.extractLsb' 0 17).toNat * 8192 + 8 * (va / 2 ^ (16 + 10 * (lvl - 1)) % 1024), 0, 2, false⟩

/-- R281, R282, R290: walk down from entry `e` at a place through the tables of the listed levels; answers the leaf's place and value. A
table frame that no key is bound to ends the walk as one bound to another key does: the model's choice (log 23). -/
def State.walkDown (s : State) (w : Who) (sa : Word) (va : Nat) : List Nat → Place → Word → State × Option (Place × Word)
  | [], k, e => (s, some (k, e))
  | lvl :: rest, _, e =>
    if !pteOk e then (s, none)
    else
      let p := entryPlace e va lvl
      if s.mem.boundTo 1 p.die (p.addr / 65536) ≠ some 0 then (s, none)
      else
        let s := if s.mem.badLine p.line then
            (s.detected ⟨.sramRow, p.die, noCell, p.addr⟩).updMem fun m => m.poisonLine p.line
          else s
        let x := s.wordAs pkgAgent p
        if x.psn then (s.reportPte w sa, none)
        else s.walkDown w sa va rest p x.v

/-- R283, R285: the TLB of an agent. -/
def Cell.tlbOf (c : Cell) : TlbAgent → List TlbEnt
  | .as => c.tlb
  | .eng .mx => c.tlbMx
  | .eng .ce0 => c.tlbCe0
  | .eng .ce1 => c.tlbCe1
  | .eng .xe => c.tlbXe

/-- Replace the TLB of an agent. -/
def Cell.setTlb (c : Cell) (a : TlbAgent) (l : List TlbEnt) : Cell :=
  match a with
  | .as => { c with tlb := l }
  | .eng .mx => { c with tlbMx := l }
  | .eng .ce0 => { c with tlbCe0 := l }
  | .eng .ce1 => { c with tlbCe1 := l }
  | .eng .xe => { c with tlbXe := l }

/-- R239, R284: entries of a TLB. -/
def tlbCap : TlbAgent → Nat
  | .as => 64
  | .eng _ => 8

/-- Load a translation, dropping the oldest when the TLB is full. -/
def Cell.tlbFill (c : Cell) (a : TlbAgent) (e : TlbEnt) : Cell :=
  let l := (c.tlbOf a).filter fun x => !(x.seg = e.seg && x.page = e.page)
  c.setTlb a ((if l.length < tlbCap a then l else l.drop 1) ++ [e])

/-- R323: `n` more bytes of a context at a location are dirty. -/
def CtxSt.soil (x : CtxSt) (loc die n : Nat) : CtxSt :=
  let k := loc * 8 + die
  let old := ((x.dirtyAt.find? (·.1 = k)).map (·.2)).getD 0
  { x with dirty := x.dirty + n, dirtyAt := x.dirtyAt.filter (·.1 ≠ k) ++ [(k, old + n)] }

/-- R281, R283, R292: one walk for an access: tables, leaf, binding, A and D. Answers the leaf. A walk for a unit that has no TLB, a port,
the PRS or a fabric window, sets A and D too: the model's choice (log 23). -/
def State.walk (s : State) (cx : Cx) (seg : Nat) (e : SegEnt) (off : Nat) (wr : Bool) : State × Except XErr Word :=
  let va := e.base + off
  match s.walkDown cx.who (mkAddr seg off) va [4, 3, 2, 1] ⟨1, 0, 0, 0, 2, false⟩ (if e.d3 = 0 then cx.root else e.d3) with
  | (s, none) => (s, .error .notPresent)
  | (s, some (k, lf)) =>
    if !s.leafOk e.kind lf then (s, .error .notPresent)
    else
      match s.bind cx.who.cell (leafPlace (va % 65536) lf) (lf.getLsbD 49) with
      | none => (s, .error .mapping)
      | some s =>
        let d := wr && e.permW && lf.getLsbD 45 && (!cx.rd || (e.permR && lf.getLsbD 46))
          && !(cx.tlb = some .as && lf.getLsbD 44) && (e.cmp || lf.getLsbD 50) = cx.cmp
        let lf' : Word := (lf &&& ~~~ (1 <<< 49 : Word)) ||| (1 <<< 47) ||| (if d then 1 <<< 48 else 0)
        let s := if d && !lf.getLsbD 48 then
            match cx.who.ctx with
            | some c => s.updCtx c fun x => x.soil (leafLoc lf) (leafDie lf) 65536
            | none => s
          else s
        let s := if lf' = lf then s else s.putKeyed k lf' 0xFF false
        let s := match cx.tlb with
          | some a => s.updCell cx.who.cell fun c => c.tlbFill a ⟨seg, va / 65536, lf'⟩
          | none => s
        (s, .ok lf')

/-- R276: the translation of a byte by a leaf. -/
def leafXl (e : SegEnt) (off : Nat) (lf : Word) : Xl :=
  { place := leafPlace ((e.base + off) % 65536) lf
    r := e.permR && lf.getLsbD 46
    w := e.permW && lf.getLsbD 45
    x := e.permX && lf.getLsbD 46
    eo := lf.getLsbD 44
    cmp := e.cmp || lf.getLsbD 50 }

/-- R276: the translation of a byte of a segment that is not pageable. BASE may be any byte address (R275): the word at an effective
address is then the 8 bytes from its own first byte on, kept under the key of that byte (log 53). -/
def flatXl (cell : CellId) (e : SegEnt) (off ctxKey : Nat) : Xl :=
  let key := if e.ckey then ctxKey else e.keyid
  { place := ⟨e.loc, if e.loc = 0 then spadUnit cell else if e.loc = 1 || e.loc = 2 then e.die else 0, e.base + off,
      if e.loc = 0 then 0 else key, if e.loc = 0 then 0 else e.cpol, false⟩
    r := e.permR, w := e.permW, x := e.permX, eo := false, cmp := e.cmp }

/-- The launch whose record a cell runs; 0 when none. -/
def State.runsLaunch (s : State) (c : CellId) : Nat := (((s.findCell c).bind (·.recd)).map (·.launch)).getD 0

/-- R323: a writable segment of a launch that is not pageable counts its LIMIT once when it is written. -/
def State.noteSegWrite (s : State) (cx : Cx) (seg : Nat) (e : SegEnt) : State :=
  match cx.who.ctx with
  | some c =>
    let k := (s.runsLaunch cx.who.cell, seg)
    if (e.loc = 1 || e.loc = 2) && e.permW then
      s.updCtx c fun x => if x.dirtySegs.contains k then x
        else { x.soil e.loc e.die e.size with dirtySegs := x.dirtySegs ++ [k] }
    else s
  | none => s

/-- R292: the frames of `n` bytes of a word from a place on are bound, two where an unaligned BASE puts the word across their edge. -/
def State.bindWord (s : State) (who : CellId) (p : Place) (n : Nat) : State × Bool :=
  match s.bind who p false with
  | none => (s, false)
  | some t =>
    if (p.addr + n - 1) / 65536 = p.addr / 65536 then (t, true)
    else match t.bind who (p.plus (n - 1)) false with | none => (t, false) | some u => (u, true)

/-- R376: segment 63 of the MS is its window on the management registers.
R276 to R285, R291, R292, R294: translate a byte of a segment for an access that writes or not. Scratchpad kinds need no binding; a
translation from a TLB does not bind again (R284), but its key must be filled and the line reached not be cached under another. -/
def State.xlate (s : State) (cx : Cx) (seg : Nat) (e : SegEnt) (off : Nat) (wr : Bool) : State × Except XErr Xl :=
  if cx.who.cell = ⟨6, 0⟩ && seg = 63 then
    (s, .ok ⟨⟨locMgmt, 0, off, 0, 2, false⟩, e.permR, e.permW, false, false, false⟩)
  else if e.pageable then
    let hit : Option TlbEnt := match cx.tlb, s.findCell cx.who.cell with
      | some a, some c => (c.tlbOf a).find? fun x => x.seg = seg && x.page = (e.base + off) / 65536
      | _, _ => none
    let walked := fun (_ : Unit) => match s.walk cx seg e off wr with
      | (s, .ok lf) => (s, Except.ok (leafXl e off lf))
      | (s, .error z) => (s, .error z)
    match hit with
    | some x =>
      if wr && !x.leaf.getLsbD 48 then walked ()
      else
        let y := leafXl e off x.leaf
        (s, if s.keyOk cx.who.cell y.place.key && s.mem.lineFree y.place then .ok y else .error .mapping)
    | none => walked ()
  else
    let x := flatXl cx.who.cell e off cx.key
    if e.loc = 0 then (s, .ok x)
    else
      match s.bindWord cx.who.cell x.place cx.len with
      | (s, false) => (s, .error .mapping)
      | (s, true) => (if wr then s.noteSegWrite cx seg e else s, .ok x)

/-- R28, R109 check 6: whether `n` bytes at offset `off` lie inside a segment (and inside the scratchpad). -/
def inRange (die : Nat) (e : SegEnt) (off n : Nat) : Bool :=
  off + n ≤ e.size && (e.loc ≠ 0 || e.base + off + n ≤ Config.spBytes die)

end Sys2Proof.Machine
end

