-- ==== Sys2Proof/Machine/Package.lean ====
section
/-! DEFINITION. Shared operations of the package: partitions and launches (R303, R313, R365), error queues (R357), streams
(R328 to R342), partition reset (R319 to R321), start-up and module reset (R377, R390 to R393). -/

namespace Sys2Proof.Machine

/-! ## Host memory as the device's own units read and write it (R271) -/

/-- A word of host memory as seen at package scope. -/
def State.hostWord (s : State) (a : Nat) : TW := viewWord s.mem pkgAgent (byteKey 3 0 (a / 8 * 8))

/-- A device write to host memory, performed at system scope (log 29). -/
def State.hostPut (s : State) (a : Nat) (v : Word) : State :=
  s.updMem fun m => m.putNow (byteKey 3 0 (a / 8 * 8)) v 0xFF false

/-- One byte of host memory. -/
def State.hostPutByte (s : State) (a : Nat) (b : Byte) : State :=
  s.updMem fun m => m.putNow (byteKey 3 0 (a / 8 * 8)) (b.zeroExtend 64 <<< (8 * (a % 8))) (1 <<< (a % 8)) false

/-- R356: the device's own unit at work for a partition and context. -/
def unitFor (part : Nat) (ctx : Option Nat) : Who := ⟨pkgAgent, 7, ctx, part⟩

/-- R118, R356, R358, R360: the device reads `n` words of host memory from an address on, for a partition and context: an uncorrectable
error in them is found. -/
def State.hostMeet (s : State) (w : Who) (a : Nat) : Nat → State
  | 0 => s
  | n + 1 => (s.meetError w pkgAgent ⟨3, 0, a / 8 * 8, 0, 2, false⟩ (locAddr 3 a)).hostMeet w (a + 8) n

/-- R118: a marker among `n` words of host memory from an address on. -/
def State.hostPsn (s : State) (a n : Nat) : Bool := (List.range n).any fun i => (s.hostWord (a + 8 * i)).psn

/-- Words whose layout the spec does not give: `n` words from byte key `key` on take free values (log 42). -/
def MemSt.scribble (m : MemSt) (key at_ : Nat) : Nat → MemSt
  | 0 => m
  | n + 1 => (m.scribble key at_ n).putNow (key + 8 * n) (Config.freeWord (at_ + n)) 0xFF false

/-- `n` words of free values from byte key `key` on. -/
def State.scribble (s : State) (key n : Nat) : State :=
  { s with mem := s.mem.scribble key s.free n, free := s.free + n }

/-! ## Semaphores (R22) -/

/-- R22: a signal. -/
def Sem.signal : Sem → Sem
  | .count n => if n = 0xFFFF then .err 0x02 else .count (n + 1)
  | .err c => .err c

/-- R22: error_phase. -/
def Sem.error (x : Sem) (code : Byte) : Sem :=
  match x with
  | .count _ => .err code
  | .err c => .err c

def Cell.setSem (c : Cell) (n : SemNo) (x : Sem) : Cell :=
  if h : n.toNat < 63 then { c with sems := c.sems.set n.toNat x h } else c

/-! ## Partitions and launches -/

/-- R365: whether a partition's descriptor names the cluster of a cell. -/
def PartSt.has (p : PartSt) (c : CellId) : Bool :=
  if c.die < 2 then c.num < 48 && p.clp.getLsbD (12 * c.die + c.num / 4)
  else if c.die < 6 then p.cld.getLsbD (16 * (c.die - 2) + c.num / 4)
  else false

/-- The enabled partition a cell belongs to (R365). -/
def State.cellPart (s : State) (c : CellId) : Option Nat :=
  (List.range 16).find? fun i => (s.part i).en && (s.part i).has c

/-- The cells of a partition in ascending order of die and number (R306). -/
def PartSt.cells (p : PartSt) : List CellId := allCells.filter p.has

def State.findLaunch (s : State) (id : Nat) : Option Launch := s.pkg.launches.find? (·.id = id)

def State.updLaunch (s : State) (id : Nat) (f : Launch → Launch) : State :=
  s.updPkg fun p => { p with launches := p.launches.map fun l => if l.id = id then f l else l }

/-! ## Static energy (R374, R375, R405) -/

/-- R374: what a boundary charges for a partition: classes 12 and 13 for its cells. -/
def State.staticWeight (s : State) (p : PartSt) : Nat :=
  let n := p.cells.countP fun x => Config.isPDie x.die
  s.weight 12 * n + s.weight 13 * (p.cells.length - n)

/-- R375, R405: the boundary at TIME `at_` charges every cell of a partition to its running context; while none is restored yet it is owed. -/
def State.staticCharge (s : State) (at_ : Nat) (part : Nat) : State :=
  let p := s.part part
  if !p.en then s
  else
    match p.ctx with
    | some c => s.updCtx c fun x => x.charge at_ (s.staticWeight p)
    | none => s.updPart part fun p => { p with owed := p.owed.map (· + 1) }

/-- R375: the 500 ns boundaries of TIME so far. -/
def TimeSt.boundaries (t : TimeSt) : Nat := t.t3 / 1500

/-- R375: the first boundary that has been reached and not charged is charged, for every partition. -/
def State.staticTick (s : State) : State :=
  let t := s.pkg.time
  if t.set && t.statics < t.boundaries then
    ((List.range 16).foldl (fun s i => s.staticCharge (1500 * (t.statics + 1)) i) s).updPkg fun p => { p with
      time := { p.time with statics := p.time.statics + 1 } }
  else s

/-- R375: every boundary that has been reached is charged, at most `n` of them. -/
def State.staticTicks (s : State) : Nat → State
  | 0 => s
  | n + 1 => s.staticTick.staticTicks n

/-- R375: every boundary that has been reached is charged. -/
def State.settleStatics (s : State) : State := s.staticTicks (s.pkg.time.boundaries - s.pkg.time.statics)

/-- R405: the boundaries owed since the last context was saved stand in the counter restored now. -/
def State.payOwed (s : State) (part c : Nat) : State :=
  let p := s.part part
  (s.updCtx c fun x => x.pay s.pkg.time.t3 (p.owed.getD 0 * s.staticWeight p)).updPart part fun p => { p with owed := none }

/-! ## The power cap's steps (R373) -/

/-- R373: whether an applied entry aims at a partition, or at the context it runs. -/
def Shed.hits (e : Shed) (part : Nat) (ctx : Option Nat) : Bool :=
  let t := (e.ent.extractLsb' 49 12).toNat
  if e.ent.getLsbD 61 then ctx = some t else t = part

def Shed.step (e : Shed) : Nat := (e.ent.extractLsb' 62 2).toNat
def Shed.duty (e : Shed) : Nat := (e.ent.extractLsb' 41 8).toNat

/-- The applied entries of a step that aim at a partition. -/
def State.shedding (s : State) (part step : Nat) : List Shed :=
  (s.pkg.power.applied.map fun i => s.pkg.power.order.getD i Shed.init).filter fun e =>
    e.step = step && e.hits part (s.part part).ctx

/-- R373: a partition's agents are stopped. -/
def State.partPause (s : State) (part : Nat) : Bool := !(s.shedding part 1).isEmpty

/-- R224, R373: the power cap's limit on issue, as a DUTY. -/
def State.partDuty (s : State) (part : Nat) : Nat :=
  ((s.shedding part 0).map Shed.duty).foldl min (if s.pkg.power.allPaused then 127 else 255)

/-! ## Error queues (R357, R358) -/

/-- R358: the eight dwords of a record. -/
def Report.words (r : Report) (seq : BitVec 16) : List Word :=
  [ (BitVec.ofNat 8 r.typ ++ BitVec.ofNat 8 r.code ++ BitVec.ofNat 4 r.part ++ BitVec.ofNat 8 r.ctx ++ BitVec.ofNat 4 r.die
      ++ BitVec.ofNat 6 r.num ++ BitVec.ofNat 3 r.agent ++ (0 : BitVec 7) ++ seq : BitVec 64),
    r.time, r.info0, r.info1, 0, 0, 0, 0 ]

/-- R357: the queue is full while producer minus consumer equals its size. -/
def State.eqFull (s : State) (q : EqSt) : Bool :=
  (q.prod - (s.hostWord (q.ctl.toNat + 8)).v.truncate 32).toNat ≥ 2 ^ q.lg

/-- R357: the queue of a report's context; 255 is the management queue. -/
def State.eqOf (s : State) (ctx : Nat) : EqSt := if ctx = 255 then s.pkg.mgmt.eq else (s.ctx ctx).eq

/-- Write eight dwords of host memory. -/
def State.hostPuts (s : State) (a : Nat) : List Word → State
  | [] => s
  | w :: r => (s.hostPut a w).hostPuts (a + 8) r

/-- R357: write a record, then the producer word. -/
def State.writeReport (s : State) (r : Report) : State :=
  let q := s.eqOf r.dest
  let s := s.hostPuts (q.base.toNat + 64 * (q.prod.toNat % 2 ^ q.lg)) (r.words q.seq)
  let s := s.hostPut q.ctl.toNat ((q.prod + 1).zeroExtend 64)
  let q' := { q with prod := q.prod + 1, seq := q.seq + 1 }
  if r.dest = 255 then s.updPkg fun p => { p with mgmt := { p.mgmt with eq := q' } }
  else s.updCtx r.dest fun x => { x with eq := q' }

/-- R359, R378: a partition's reset report comes after every report its agents hold, or still have in a buffer, for the same queue. -/
def State.waitsBehind (s : State) (r : Report) : Bool :=
  let first := fun (x : Report) => x.typ ≠ 5 && x.dest = r.dest && x.part = r.part && x.time ≤ r.time
  r.typ = 5 && ((s.cell :: s.parked).any (fun c => c.hold.any first) || s.pkg.hold.any first || s.pkg.errs.any fun b => b.reps.any first)

/-- R359: the position of the first report of a die's buffer whose queue is not full. -/
def State.nextDeliverable (s : State) (die : Nat) : Option Nat :=
  (s.pkg.errs.getD die ⟨[], 0, false⟩).reps.findIdx? fun r => !s.eqFull (s.eqOf r.dest) && !s.waitsBehind r

/-- R359: one report leaves its buffer for its queue. -/
def State.deliver (s : State) (die : Nat) : State :=
  match s.nextDeliverable die with
  | none => s
  | some n =>
    match (s.pkg.errs.getD die ⟨[], 0, false⟩).reps[n]? with
    | none => s
    | some r =>
      (s.writeReport r).updPkg fun p => { p with errs := updAt p.errs die fun b => { b with reps := dropAt b.reps n } }

/-- Deliver every report that can go, at most `fuel` of them. -/
def State.deliverAll (s : State) (die : Nat) : Nat → State
  | 0 => s
  | n + 1 => match s.nextDeliverable die with | none => s | some _ => (s.deliver die).deliverAll die n

/-- R359: FULL of a die: a report is held at one of its agents. -/
def State.heldOn (s : State) (d : Nat) : Bool :=
  (s.cell :: s.parked).any (fun c => c.hold.any (·.die = d)) || s.pkg.hold.any (·.die = d)

/-- R359: FULL of every die. -/
def State.noteHeld (s : State) : State :=
  s.updPkg fun p => { p with errs := p.errs.zipIdx.map fun b => { b.1 with held := s.heldOn b.2 } }

/-! ## Streams (R328 to R342) -/

def Stream.dw (x : Stream) (i : Nat) : Word := x.d.getD i 0
def Stream.recomp (x : Stream) : Bool := (x.dw 0).getLsbD 51
def Stream.ctx (x : Stream) : Nat := ((x.dw 0).extractLsb' 36 8).toNat
def Stream.part (x : Stream) : Nat := ((x.dw 0).extractLsb' 32 4).toNat
def Stream.pdie (x : Stream) : Nat := ((x.dw 0).extractLsb' 29 3).toNat
def Stream.ddie (x : Stream) : Nat := ((x.dw 0).extractLsb' 26 3).toNat
def Stream.layers (x : Stream) : Nat := ((x.dw 1).extractLsb' 56 8).toNat + 1
def Stream.perLayer (x : Stream) : Nat := ((x.dw 1).extractLsb' 44 12).toNat + 1
def Stream.wm (x : Stream) : Nat := ((x.dw 1).extractLsb' 32 12).toNat + 1
def Stream.drive (x : Stream) : Nat := ((x.dw 1).extractLsb' 28 4).toNat
def Stream.cmp (x : Stream) : Bool := (x.dw 1).getLsbD 27
def Stream.lba0 (x : Stream) : Nat := (x.dw 2).toNat
def Stream.framea (x : Stream) : Nat := (x.dw 5).toNat
/-- R328: B. -/
def Stream.blocks (x : Stream) : Nat := x.layers * x.perLayer

def StreamState.code : StreamState → Nat
  | .queued => 0 | .prefill => 1 | .handoff => 2 | .decode => 3 | .parked => 4 | .resuming => 5 | .done => 6
  | .cancelled => 7 | .lost => 8

/-- R329: a stream is over in these states. -/
def StreamState.over : StreamState → Bool
  | .done | .cancelled | .lost => true
  | _ => false

/-- R328: the fields of dword 0 that only the PRS writes, those marked RO. -/
def Stream.ro (x : Stream) : BitVec 19 :=
  BitVec.ofNat 4 x.state.code ++ BitVec.ofNat 8 x.cause ++ BitVec.ofNat 2 x.attempts
    ++ BitVec.ofBool x.wmr ++ BitVec.ofBool x.ackr ++ BitVec.ofBool x.pkp ++ BitVec.ofBool x.rsp ++ BitVec.ofBool x.swp

/-- R327, R328: dword 0 as the PRS leaves it: its own fields, beside what the host has put into the others. -/
def Stream.word0 (x : Stream) (old : Word) : Word :=
  (x.ro.extractLsb' 7 12 ++ old.extractLsb' 51 1 ++ x.ro.extractLsb' 0 7 ++ old.extractLsb' 0 44 : BitVec 64)

def State.findStream (s : State) (n : Nat) : Option Stream := s.pkg.streams.find? (·.n = n)

/-- Change a stream without writing its descriptor. -/
def State.updStream (s : State) (n : Nat) (f : Stream → Stream) : State :=
  s.updPkg fun p => { p with streams := p.streams.map fun y => if y.n = n then f y else y }

/-- R327: the PRS writes its fields of dword 0 to the directory. -/
def State.putDword0 (s : State) (x : Stream) : State :=
  let a := s.pkg.mgmt.stab.toNat + 64 * x.n
  s.hostPut a (x.word0 (s.hostWord a).v)

/-- R303, R331: a decode step that an event posts takes its place behind everything posted before. -/
def Stream.stamped (x old : Stream) (k : Nat) : Stream := if x.postStep && !old.postStep then { x with stepAt := k } else x

/-- R327: keep a stream's new state; where a field of dword 0 that the PRS writes has changed, write it to the directory. -/
def State.putStream (s : State) (x : Stream) : State :=
  match s.findStream x.n with
  | none => s
  | some old =>
    let s := (s.updStream x.n fun _ => x.stamped old s.pkg.nextOrder).updPkg fun p => { p with nextOrder := p.nextOrder + 1 }
    if x.ro = old.ro then s else s.putDword0 x

/-- R335: a block's owner changes; the map byte follows. -/
def State.setOwner (s : State) (n blk : Nat) (code : Byte) : State :=
  match s.findStream n with
  | none => s
  | some x => (s.updStream n fun y => { y with own := updAt y.own blk fun _ => code }).hostPutByte (x.framea + 0x80 + blk) code

/-- R338: the first WM + 1 blocks of every layer are owned by DDIE. -/
def Stream.wmReached (x : Stream) : Bool :=
  (List.range x.layers).all fun l => (List.range x.wm).all fun i => x.own[l * x.perLayer + i]? = some (BitVec.ofNat 8 x.ddie)

/-- Every block is owned by DDIE. -/
def Stream.allAtD (x : Stream) : Bool := x.own.all (· = BitVec.ofNat 8 x.ddie)

/-- R332: the events of a stream; cancel and lost bring their cause (R341, R342). -/
inductive StreamEv
  | admitted | pdone | wm | ack | step | end_ | park | sout | resume | cancel (cause : Nat) | lost (cause : Nat) | reset | refused
deriving DecidableEq, Repr, Inhabited

/-- Entry to DECODE posts a decode step and clears WMR (R333). -/
def Stream.toDecode (x : Stream) : Stream := { x with state := .decode, wmr := false, postStep := true }

/-- Frames captured at registration for a block (R344; log 30). -/
def Stream.regOf (x : Stream) (b : Nat) : Option HReg := x.regs.find? (·.blk = b)

/-- A block under swap that nothing has been done for yet. -/
def SwapBlk.start (out : Bool) (blk die frame key : Nat) : SwapBlk := ⟨out, blk, die, frame, key, .registered, 0, [], 0, 0⟩

/-- Swap work for the blocks of a list (R333, R350, R351). -/
def Stream.swapFor (x : Stream) (out : Bool) (bs : List Nat) : List SwapBlk :=
  bs.filterMap fun b => (x.regOf b).map fun r => SwapBlk.start out b r.dstDie r.dstFrame r.dstKey

/-- Entry to PARKED: SWOUT for every block; PKP, SWP and ACKR clear (R333). -/
def Stream.toParked (x : Stream) : Stream :=
  { x with
    state := .parked, pkp := false, swp := false, ackr := false, postStep := false
    swap := x.swapFor true (List.range x.blocks) }

/-- Give an outstanding command its code, if it has none yet. -/
def Pull.finish (p : Pull) (code : Nat) : Pull := if p.code.isSome then p else { p with code := some code }

/-- Entry to RESUMING: SWIN for every block the swap store owns; RSP clears; ACKR stands again when DDIE owns every block (R333). -/
def Stream.toResuming (x : Stream) : Stream :=
  let x := { x with
    state := .resuming, rsp := false
    swap := x.swapFor false ((List.range x.blocks).filter fun b => x.own[b]? = some 0x07) }
  if x.wmReached then { x.toDecode with ackr := x.allAtD } else x

/-- R342: a lost stream is prefilled again. -/
def Stream.restarts (x : Stream) : Bool := x.state = .lost && x.recomp && x.attempts < 3

/-- Entry to DONE, CANCELLED or LOST: nothing more is posted, outstanding commands get 0x1A, the frees of R339 follow
(CANCEL_AT_DESTINATION). The PRS holds the stream no longer, unless it starts again (R329). -/
def Stream.toEnd (x : Stream) (st : StreamState) (cause : Nat) : Stream :=
  { x with
    state := st, cause := cause, ending := true, held := { x with state := st }.restarts, postStep := false, postPrefill := false
    pulls := x.pulls.map (Pull.finish · 0x1A), outs := x.outs.map (Pull.finish · 0x1A) }

/-- Whether an SWOUT of the stream is outstanding (R333). -/
def Stream.swoutOpen (x : Stream) : Bool := x.swap.any fun b => b.out && b.stage ≠ .failed

/-- Swap work abandoned by a reset is issued again once the context runs (R333). -/
def Stream.reissue (x : Stream) : Stream :=
  { x with
    again := true
    swap := x.swap.map fun b => if b.stage = .failed then b else { b with stage := .registered, buf := [], at_ := 0 } }

/-- R331: a step of this attempt has completed and its control word has not been read. -/
def Stream.stepRead (x : Stream) : Bool := x.steps.contains true

/-- R333: the effect of an event on a stream. Pairs the table calls impossible change nothing. A reset does not run a completed step
again. -/
def Stream.on (x : Stream) (ev : StreamEv) : Stream :=
  match ev with
  | .admitted =>
    if x.state = .queued then
      { x with
        state := .prefill, own := List.replicate x.blocks (BitVec.ofNat 8 x.pdie), wmr := false, ackr := false, pkp := false
        rsp := false, swp := false, regs := [], pulls := [], outs := [], sent := [], unreleased := [], swap := [], fswp := 0, fsrc := 0
        fdst := 0, disc := 0, postPrefill := false, running := true, going := none, settled := 0, again := false }
    else x
  | .pdone =>
    let x := { x with running := false }
    if x.state = .prefill then (if x.wmr then x.toDecode else { x with state := .handoff }) else x
  | .wm =>
    match x.state with
    | .prefill => { x with wmr := true }
    | .handoff | .resuming => x.toDecode
    | _ => x
  | .ack =>
    match x.state with
    | .prefill => { x with ackr := true }
    | .handoff => { x.toDecode with ackr := true }
    | .decode => if x.pkp && !x.running then { x with ackr := true }.toParked else { x with ackr := true }
    | _ => x
  | .step =>
    let x := { x with running := false }
    if x.state = .decode then (if x.pkp && x.ackr then x.toParked else { x with postStep := true }) else x
  | .end_ =>
    let x := { x with running := false }
    if x.state = .decode then x.toEnd .done 0 else x
  | .park => if x.state = .decode then (if x.ackr && !x.running then x.toParked else { x with pkp := true }) else x
  | .sout =>
    if x.state = .parked then (if x.rsp then { x with swp := true }.toResuming else { x with swp := true }) else x
  | .resume =>
    if x.state = .parked then (if x.swp || !x.swoutOpen then x.toResuming else { x with rsp := true }) else x
  | .cancel c => if x.state.over then x else x.toEnd .cancelled c
  | .lost c => if x.state.over || x.state = .queued then x else x.toEnd .lost c
  | .refused =>
    let x := { x with running := false }
    match x.state with
    | .queued | .prefill | .decode => x.toEnd .cancelled 0x02
    | _ => x
  | .reset =>
    if x.state = .decode && x.ackr && x.stepRead then x else
    let x := { x with running := false, steps := x.steps.map fun _ => false }
    match x.state with
    | .prefill =>
      { x with
        state := .queued, fsrc := x.blocks - x.fdst, own := List.replicate x.blocks 0xFF, regs := [], sent := []
        unreleased := [], postPrefill := true, going := none, settled := 0 }
    | .handoff => x.toEnd .lost 0x06
    | .decode => if x.ackr then { x with postStep := true } else x.toEnd .lost 0x06
    | .parked | .resuming => x.reissue
    | _ => x

/-- Write the whole ownership map (R330), from block `b` on. -/
def State.writeMap (s : State) (base : Nat) : List Byte → State
  | [] => s
  | c :: r => (s.hostPutByte base c).writeMap (base + 1) r

/-- An event reaches a stream (R333); one that changes nothing writes nothing. -/
def State.streamOn (s : State) (n : Nat) (ev : StreamEv) : State :=
  match s.findStream n with
  | none => s
  | some x =>
    let y := x.on ev
    let s := (if y = x then s else s.putStream y).updPkg fun p => { p with prsAt := some p.time.clk }
    if y.own = x.own then s else s.writeMap (y.framea + 0x80) y.own

/-! ## Command queues (R302 to R304) -/

/-- A launch header as read: the word at a byte offset. -/
abbrev HdrWords := List TW

/-- The word at a byte offset of a header. -/
def hdrAt (h : HdrWords) (off : Nat) : Word := (h.getD (off / 8) ⟨0, false⟩).v

/-- Words of host memory. -/
def State.hostWords (s : State) (a : Nat) : Nat → HdrWords
  | 0 => []
  | n + 1 => s.hostWord a :: s.hostWords (a + 8) n

/-- Bits `hi` to `lo` of a word are zero. -/
def zeroBits (w : Word) (hi lo : Nat) : Bool := w.toNat / 2 ^ lo % 2 ^ (hi - lo + 1) = 0

/-- A bit field. -/
def fld (w : Word) (hi lo : Nat) : Nat := w.toNat / 2 ^ lo % 2 ^ (hi - lo + 1)

/-- Change a command queue of a context. -/
def State.updCq (s : State) (ctx q : Nat) (f : CqSt → CqSt) : State :=
  s.updCtx ctx fun x => { x with cqs := updAt x.cqs q f }

/-- A command queue's entry is done (R303); `deps` are the writes of its launch that a fence still waits for (R304). -/
def CqSt.markDone (q : CqSt) (idx : Nat) (deps : List Nat) : CqSt :=
  { q with ents := q.ents.map fun e => if e.idx = idx then { e with done := true, deps := deps } else e }

/-- Host address of entry `i` of a queue. -/
def CqSt.entry (q : CqSt) (i : BitVec 32) : Nat := q.base.toNat + 64 * (i.toNat % 2 ^ q.lg)

/-- R302: the eight dwords of the queue's next entry. -/
def State.cqHead (s : State) (q : CqSt) : HdrWords := s.hostWords (q.entry q.head) 8

/-- R302: a well-formed entry. -/
def cqOk (d : HdrWords) : Bool :=
  let t := fld (hdrAt d 0) 7 0
  (t = 1 || t = 2) && zeroBits (hdrAt d 0) 63 9 && (hdrAt d 8).toNat % 64 = 0 && (t = 2 || hdrAt d 16 = 0)
    && (d.drop 3).all (·.v = 0)

def cqIsFence (d : HdrWords) : Bool := cqOk d && fld (hdrAt d 0) 7 0 = 2
def cqBarrier (d : HdrWords) : Bool := (hdrAt d 0).getLsbD 8

/-- The queue of a context. -/
def State.cq (s : State) (c q : Nat) : CqSt := ((s.ctx c).cqs.getD q CqSt.init)

/-- R380: an entry has started or been refused. -/
def State.cqAdvance (s : State) (c q : Nat) (e : CqEnt) : State :=
  s.updCq c q fun x => { x with head := x.head + 1, ents := x.ents ++ [e] }

/-- R302: a BARRIER entry waits until every earlier entry of its queue has completed. -/
def CqSt.barred (x : CqSt) (d : HdrWords) : Bool := cqBarrier d && x.ents.any fun y => !y.done

/-- R302, R304: fence entries at the head start at once, but for one that a BARRIER holds; at most `n` of them. -/
def State.fencesFrom (s : State) (c q : Nat) : Nat → State
  | 0 => s
  | n + 1 =>
    let x := s.cq c q
    let d := s.cqHead x
    if x.head = x.tail || !cqIsFence d || x.barred d then s
    else (s.cqAdvance c q ⟨x.head.toNat, true, hdrAt d 8, hdrAt d 16, false, false, []⟩).fencesFrom c q n

/-- The same for the whole of a ring. -/
def State.startFences (s : State) (c q : Nat) : State := s.fencesFrom c q 65536

/-- The same for every queue of a context. -/
def State.startAllFences (s : State) (c : Nat) : State := (List.range 4).foldl (fun s q => s.startFences c q) s

/-! ## Partition reset (R319 to R321) -/

/-- R358: CODE of a reset report. -/
def resetCode : ResetTrigger → Nat
  | .hang => 1 | .escalation => 2 | .containment => 3 | .host => 4 | .dieRetired => 5

/-- R89: the header of a command. -/
def cmdHdr : Instr → Option Hdr
  | .mhdr h _ | .mopa h _ | .mopb h _ | .mma h _ | .mmaz h _ | .mwb h _ | .mrn h _ | .mclr h _ | .mthr h _
  | .copy _ h _ | .copyn _ h _ | .gath _ h _ | .scat _ h _ | .fill _ h _ | .flagw _ h _ | .cmpr _ h _ | .expn _ h _
  | .unfold h _ | .xpose h _ | .relay h _ | .hoff h _ | .hpull h _ | .hcancel h _ | .swout h _ | .swin h _ | .rcopy h _ => some h
  | _ => none

/-- The commands of a cell that run or wait in an engine or port. -/
def Cell.cmdsOf (c : Cell) : List Cmd := [c.mx, c.ce0, c.ce1, c.xe].filterMap (·.cur) ++ c.ho.cmds ++ c.hub.cmds

/-- R358: agent and ring numbers of the engines. -/
def engNo : Eng → Nat
  | .mx => 0
  | .ce0 => 1
  | .ce1 => 2
  | .xe => 3

def Cell.eng (c : Cell) : Eng → EngSt
  | .mx => c.mx
  | .ce0 => c.ce0
  | .ce1 => c.ce1
  | .xe => c.xe

def Cell.setEng (c : Cell) (e : Eng) (x : EngSt) : Cell :=
  match e with
  | .mx => { c with mx := x }
  | .ce0 => { c with ce0 := x }
  | .ce1 => { c with ce1 := x }
  | .xe => { c with xe := x }

/-- The ring segment of an engine (R196): base byte address in the scratchpad and size. -/
def Cell.ringSeg (c : Cell) (e : Eng) : Option (Nat × Nat) :=
  (c.segs.find? fun x => x.valid && x.kind = kRing && x.engine = engNo e).map fun x => (x.base, x.size)

/-- R197: the byte address of ring word n. -/
def ringAddr (base size n : Nat) : Nat := base + 4 * (n % (size / 4))

/-- Word `n` of a ring as its cell sees it. -/
def State.ringWord (s : State) (c : Cell) (base size n : Nat) : Word32 :=
  let a := ringAddr base size n
  let w := (viewWord s.mem c.id (byteKey 0 (spadUnit c.id) (a / 8 * 8))).v
  if a % 8 = 0 then w.extractLsb' 0 32 else w.extractLsb' 32 32

/-- Words of a ring not moved yet, from RP to WP (R197). -/
def State.ringWords (s : State) (c : Cell) (e : Eng) : List Word32 :=
  match c.ringSeg e with
  | none => []
  | some (base, size) =>
    let x := c.eng e
    (List.range (x.wp - x.rp).toNat).map fun i => s.ringWord c base size (x.rp.toNat + i)

/-- The signal field of every command header in a stream of step words, payloads skipped (R89). -/
def sigsOf : Nat → List Word32 → List SemNo
  | 0, _ => []
  | _, [] => []
  | n + 1, h :: r => hdrSig h :: sigsOf n (r.drop (hdrLen h))

/-- The whole commands in a stream of step words of a port, as far as they decode (R91, R343). -/
def cmdsIn (r : Ring) : Nat → List Word32 → List Instr
  | 0, _ => []
  | _, [] => []
  | n + 1, h :: ws =>
    if ws.length < hdrLen h then []
    else
      match decodeCmd r h (ws.take (hdrLen h)) with
      | .ok i => i :: cmdsIn r n (ws.drop (hdrLen h))
      | .error _ => cmdsIn r n (ws.drop (hdrLen h))

/-- R141, R226: the SIG field of every command of a cell that has not completed: those that run, and those whose words wait in a front
queue, a ring or a port. -/
def State.sigsOpen (s : State) (c : Cell) : List SemNo :=
  (c.cmdsOf.filterMap fun x => (cmdHdr x.i).map (·.sig))
    ++ [Eng.mx, .ce0, .ce1, .xe].flatMap (fun e =>
        let ws := (c.eng e).front.map (·.w) ++ s.ringWords c e
        sigsOf ws.length ws)
    ++ [c.ho, c.hub].flatMap fun p => sigsOf p.buf.length p.buf

/-- R22, R24: a semaphore enters error phase, before an overflow of the same cycle. -/
def Cell.errorAt (c : Cell) (clk : Nat) (n : SemNo) (code : Byte) : Cell :=
  if h : n.toNat < 63 then c.setSem n (if c.ovfs.contains (n, clk) then .err code else (c.sems[n.toNat]).error code) else c

/-- R320 steps 1 and 2 for one cell: everything is abandoned; the semaphores that its commands signal enter error phase 0x08 unless they
are in error already, and the others stay until the next dispatch (R35); held reports stay (R359). Its system registers, of which R320 and
R35 say nothing, stand as they did at first, at 0 (DESIGN CHOICE, log 44). -/
def Cell.abandon (c : Cell) (clk : Nat) (sigs : List SemNo) : Cell :=
  let d := sigs.foldl (fun d n => d.errorAt clk n 0x08) c
  { Cell.init c.id with fused := c.fused, gated := c.gated, hold := c.hold, cyc := c.cyc, sems := d.sems }

/-- R320 step 2: the scratchpads of these cells read as zero. -/
def MemSt.clearSpads (m : MemSt) (cs : List CellId) : MemSt :=
  let out := fun (k : Nat) => !(keyLoc k = 0 && cs.any fun c => k / 2 ^ 64 = spadUnit c)
  { m with
    mem := m.mem.filter fun c => out c.1
    psn := m.psn.filter out
    bad := m.bad.filter out
    bus := m.bus.filter out
    code := m.code.filter fun x => !cs.contains x.cell }

/-- R261, R320 step 1: what these cells have written and not performed never performs; their write-backs end. -/
def MemSt.dropWrites (m : MemSt) (cs : List CellId) : MemSt :=
  { m with writes := m.writes.filter fun w => !cs.contains w.cell, wbacks := m.wbacks.filter fun w => !cs.contains w.cell }

/-- The descriptor's number in DIRENT (R348). -/
def State.direntNo (s : State) (d : Word) : Option Nat :=
  let b := s.pkg.mgmt.stab.toNat
  if b ≤ d.toNat && (d.toNat - b) % 64 = 0 && (d.toNat - b) / 64 < 2 ^ 24 then some ((d.toNat - b) / 64) else none

/-- The stream a hand-off or swap command names. -/
def State.cmdStream (s : State) : Instr → Option Nat
  | .hoff _ p => some p.stream.toNat
  | .hpull _ p => some p.stream.toNat
  | .hcancel _ p => some p.stream.toNat
  | .swout _ p => s.direntNo p.dirent
  | .swin _ p => s.direntNo p.dirent
  | _ => none

/-- The streams that commands of these cells name, in whatever phase they are, those whose words wait undecoded among them. -/
def State.cmdStreams (s : State) (cs : List CellId) : List Nat :=
  ((s.cell :: s.parked).filter fun c => cs.contains c.id).flatMap fun c =>
    ((c.ho.cmds ++ c.hub.cmds).map (·.i) ++ cmdsIn .ho c.ho.buf.length c.ho.buf ++ cmdsIn .hub c.hub.buf.length c.hub.buf).filterMap
      s.cmdStream

/-- R320 steps 1 and 2: the work of these cells is abandoned: sequencers, engines, ports, their unperformed writes, scratchpads, and
what streams keep of their commands. -/
def State.abandonCells (s : State) (cs : List CellId) : State :=
  let gone := fun (c : Cell) => if cs.contains c.id then c.abandon s.pkg.time.clk (s.sigsOpen c) else c
  let s := { s with
    cell := gone s.cell
    parked := s.parked.map gone
    mem := (s.mem.clearSpads cs).dropWrites cs }
  s.updPkg fun k => { k with streams := k.streams.map fun x => { x with
    pulls := x.pulls.filter fun y => !cs.contains y.cell, outs := x.outs.filter fun y => !cs.contains y.cell } }

/-- R320 step 3: a command queue rewinds to its replay point. -/
def CqSt.rewind (q : CqSt) : CqSt := { q with head := q.replay, ents := [] }

/-- R303, R331: the place of a queue's next entry in the order of posting; none when no entry is posted. -/
def CqSt.nextPost (q : CqSt) : Option Nat :=
  if q.head = q.tail then none
  else some (((q.posts.find? fun p => (q.head - q.replay).ult (p.1 - q.replay)).map (·.2)).getD 0)

/-- R331: whether a launch of the stream is still started. -/
def State.streamLaunched (s : State) (n : Nat) : Bool := s.pkg.launches.any fun l => l.src = .stream n

/-- R303, R304, R320 step 3: a context's queues rewind; the fences at their heads start, if it is admitted. -/
def State.rewindCtx (s : State) (c : Nat) : State :=
  let s := s.updCtx c fun x => { x with cqs := x.cqs.map CqSt.rewind }
  if (s.ctx c).en then s.startAllFences c else s

/-- R320, R332: the chosen streams, those whose launch or command is abandoned, take reset (R333). -/
def State.resetStreams (s : State) (gone : Stream → Bool) : State :=
  s.pkg.streams.foldl (init := s) fun s x =>
    if gone x then (s.updPkg fun k => { k with nvme := k.nvme.filter fun y => y.stream ≠ x.n || y.kind = .dealloc }).streamOn x.n .reset
    else s

/-- R333: a swap command of the stream is under way. -/
def Stream.swapOpen (x : Stream) : Bool := x.swap.any (·.stage ≠ .failed)

/-- R316, R320: a context belongs to a partition: admitted to it, or with a launch started there (R367). -/
def State.inPart (s : State) (p c : Nat) : Bool :=
  ((s.ctx c).en && (s.ctx c).part.toNat = p) || s.pkg.launches.any fun l => l.ctx = c && l.part = p

/-- R320, R332: a partition's reset abandons a launch or a command of the stream: a launch started there, a command of one of its cells, or
swap work of a context that belongs to it, or whose descriptor names it (log 43). -/
def State.lostInPart (s : State) (p : Nat) (x : Stream) : Bool :=
  s.pkg.launches.any (fun l => l.src = .stream x.n && l.part = p) || (s.cmdStreams (s.part p).cells).contains x.n
    || (x.swapOpen && (s.inPart p x.ctx || x.part = p))

/-- R320: the partition reset, with its trigger and the first information word of its reports. -/
def State.partitionReset (s : State) (p : Nat) (why : ResetTrigger) (info : Word) : State :=
  let d := s.part p
  let cs := d.cells
  let mine := s.inPart p
  let s := (s.abandonCells cs).resetStreams (s.lostInPart p)
  let s := s.updPkg fun k => { k with
    launches := k.launches.filter (·.part ≠ p)
    evicts := k.evicts.map fun e => { e with ctxs := e.ctxs.map fun x => if mine x.ctx then { x with dec := .discard, alloc := 0 } else x } }
  let s := s.updPart p fun q => { q with
    preempt := false, fifos := List.replicate 8 [], lastEnum := List.replicate 8 false, served := List.replicate 8 0 }
  (List.range 192).foldl (init := s) fun s c =>
    if mine c then
      let s := s.rewindCtx c
      s.report ⟨0x05, resetCode why, p, c, c, 6, 0, 7, BitVec.ofNat 64 s.timeNs, info, 0⟩
    else s

/-! ## Start-up (R390 to R393) -/

/-- R390 steps 2 and 3: both signatures of both parts, and the version; a manifest that gives fabric number 0 is refused (R383, log 49). -/
def Flash.verifies (f : Flash) : Bool :=
  Config.ed25519 f.image f.imageEd && Config.mldsa65 f.image f.imageMl && Config.ed25519 f.manifest f.manifestEd
    && Config.mldsa65 f.manifest f.manifestMl && f.minVersion ≤ f.version && f.fabric ≠ 0

/-- R390: a measurement register after it is extended: the digest of its old value and of the digest of what is measured (log 14). -/
def extended (r : BitVec 384) (x : List Byte) : BitVec 384 :=
  let bytes := fun (y : BitVec 384) => (List.range 48).map fun i => y.extractLsb' (376 - 8 * i) 8
  Config.sha384 (bytes r ++ bytes (Config.sha384 x))

/-- R390 step 5: the MS starts on the image, at machine level (log 13). -/
def startMs (f : Flash) (c : Cell) : Cell :=
  let i := Cell.init c.id
  { i with
    as := { i.as with
      run := .running, lvl := .machine
      core := { i.as.core with pc := f.msEntry }
      sys := { i.as.sys with tvec := f.msTvec, pwlsave := f.msSave } }
    segs := f.msSegs, asbase := f.msBase, assize := f.msSize, hold := c.hold }

/-- R390, R392: the boot ROM's steps, to running or to recovery. -/
def State.boot (s : State) : State :=
  let f := s.pkg.boot.flash
  if f.verifies then
    let s := s.updPkg fun p => { p with
      boot := { p.boot with
        phase := .running, measures := [Config.rom, f.image, f.manifest].map (extended 0)
        fabric := f.fabric, hFrames := f.hFrames, msStart := p.time.clk }
      mgmt := { p.mgmt with weights := f.weights }
      time := if f.standalone && !p.time.set then { p.time with t3 := 0, set := true, statics := 0 } else p.time }
    (s.updCell ⟨6, 0⟩ (startMs f)).updMem fun m => m.setCode ⟨6, 0⟩
  else
    s.updPkg fun p => { p with boot := { p.boot with phase := .recovery } }

/-- R393: the reports held at an agent are delivered as far as their queues have room; those that are left. -/
def State.deliverHeld (s : State) : List Report → State × List Report
  | [] => (s, [])
  | r :: l =>
    if s.eqFull (s.eqOf r.dest) then ((s.deliverHeld l).1, r :: (s.deliverHeld l).2) else (s.writeReport r).deliverHeld l

/-- R393: the same for the agents of every cell. -/
def State.deliverCells (s : State) : List Cell → State × List Cell
  | [] => (s, [])
  | c :: l =>
    let x := s.deliverHeld c.hold
    let y := x.1.deliverCells l
    (y.1, { c with hold := x.2 } :: y.2)

/-- R393: the reports of every buffer that can go. -/
def State.deliverBuffers (s : State) : State := (List.range 7).foldl (fun s d => s.deliverAll d 256) s

/-- R359, R393: every report of the module that can go, those of the buffers first, and then the reset reports that waited behind a held
one. What is left stays where it is: its queue is full (log 44). -/
def State.deliverOut (s : State) : State :=
  let s := s.deliverBuffers
  let x := s.deliverHeld s.cell.hold
  let y := x.1.deliverCells s.parked
  let z := y.1.deliverHeld y.1.pkg.hold
  ({ z.1 with
    cell := { s.cell with hold := x.2 }, parked := y.2 }.updPkg fun p => { p with hold := z.2 }).deliverBuffers.noteHeld

/-- R359: a report for a context's queue has not left the module. -/
def State.owesReport (s : State) (c : Nat) : Bool :=
  ((s.cell :: s.parked).flatMap (·.hold) ++ s.pkg.hold ++ s.pkg.errs.flatMap (·.reps)).any (·.dest = c)

/-- R377, R393: module reset: work stops as in R320 step 1, keys and bindings go, partitions and contexts leave service; memory
contents, TIME and repairs stay; a queue that a report still waits for stays as it is configured (log 44); then the boot steps run. -/
def State.moduleReset (s : State) : State :=
  let s := s.deliverOut
  let fresh := Pkg.init
  let ctxs := s.pkg.ctxs.zipIdx.map fun x => if s.owesReport x.2 then { CtxSt.init with eq := x.1.eq } else CtxSt.init
  let mgmt := if s.owesReport 255 then { fresh.mgmt with eq := s.pkg.mgmt.eq } else fresh.mgmt
  let s := { s with
    cell := { Cell.init s.cell.id with hold := s.cell.hold }
    parked := s.parked.map fun (c : Cell) => { Cell.init c.id with hold := c.hold }
    mem := { (s.mem.clearSpads allCells) with
      binds := [], lines := [], badLines := [], stale := [], wbacks := [], writes := [], alien := [] } }
  let s := s.updPkg fun p => { fresh with
    ctxs := ctxs, mgmt := mgmt, errs := p.errs.map fun b => { b with ovf := 0 }, hold := p.hold
    time := p.time, boot := p.boot, repair := p.repair, volatileDrives := p.volatileDrives, nvqs := p.nvqs
    outbox := p.outbox, portsUp := p.portsUp, unreachable := p.unreachable, heat := p.heat }
  s.boot

/-- R393: power-on: as module reset, with TIME not set, nothing in the error buffers, the repairs of the manifest, and memory
contents unknown until binding scrubs them. -/
def State.powerOn (s : State) : State :=
  let s := { s with
    cell := { s.cell with hold := [] }, parked := s.parked.map fun (c : Cell) => { c with hold := [] }
    pkg := { s.pkg with errs := List.replicate 7 ⟨[], 0, false⟩, hold := [], repair := s.pkg.boot.flash.spares } }
  let s := s.moduleReset
  let t := s.pkg.boot.flash.standalone && s.pkg.boot.phase = .running
  s.updPkg fun p => { p with time := ⟨0, t, false, 0, 0, 0, 0⟩, boot := { p.boot with msStart := 0 } }

end Sys2Proof.Machine
end

