-- ==== Sys2Proof/Machine/Operands.lean ====
section
/-! DEFINITION. Operand forms: registers and guards (R14, R79, R100), effective addresses and the checks of memory operands
(R109, R110), repeated words (R86), queue and ring operands. -/

namespace Sys2Proof.Machine

/-! ## The AS register file -/

/-- R14: g0 reads as zero. -/
def AsCore.rg (c : AsCore) (r : GReg) : TW := if r = 0 then ⟨0, false⟩ else c.g.get r.toFin

/-- R14: p0 reads as true. -/
def AsCore.rp (c : AsCore) (r : PReg) : TB := if r = 0 then ⟨true, false⟩ else c.p.get r.toFin

def AsCore.rt (c : AsCore) (r : TReg) : TargetReg := c.t.get r.toFin

/-- R14: writes to g0 are discarded. -/
def AsCore.setG (c : AsCore) (r : GReg) (x : TW) : AsCore := if r = 0 then c else { c with g := c.g.set r.toFin x }

/-- R14: writes to p0 are discarded. -/
def AsCore.setP (c : AsCore) (r : PReg) (x : TB) : AsCore := if r = 0 then c else { c with p := c.p.set r.toFin x }

/-- R128: a landing target register becomes valid. -/
def AsCore.setT (c : AsCore) (r : TReg) (a : Word) : AsCore := { c with t := c.t.set r.toFin ⟨a, true⟩ }

/-- R37, R38: a write lands. -/
def AsCore.land (c : AsCore) (d : Pend) : AsCore :=
  match d.dest with
  | .g n => c.setG n ⟨d.val, d.psn⟩
  | .p n => c.setP n ⟨d.val.getLsbD 0, d.psn⟩
  | .t n => c.setT n d.val

/-- R37, R38: the end of a tick: writes whose ticks have run land in issue order. -/
def AsCore.endTick (c : AsCore) : AsCore :=
  let l := c.infl.map fun e => { e with rem := e.rem - 1 }
  (l.filter fun e => e.rem = 0).foldl AsCore.land { c with infl := l.filter fun e => e.rem ≠ 0 }

/-- R15, R134: the program counter after an instruction that does not transfer. -/
def AsCore.advance (c : AsCore) : AsCore :=
  match c.rep with
  | none => { c with pc := c.pc + 4 }
  | some r => if r.k + 1 < r.count then { c with rep := some { r with k := r.k + 1 } } else { c with rep := none, pc := c.pc + 8 }

/-- A write of latency `lat` enters the pipeline (R37). -/
def AsCore.push (c : AsCore) (lat : Nat) (d : Dest) (v : Word) (psn : Bool) : AsCore :=
  { c with infl := c.infl ++ [⟨lat, d, v, psn⟩] }

def State.core (s : State) : AsCore := s.cell.as.core
def State.setCore (s : State) (c : AsCore) : State := { s with cell := { s.cell with as := { s.cell.as with core := c } } }
def State.rg (s : State) (r : GReg) : TW := s.core.rg r
def State.rp (s : State) (r : PReg) : TB := s.core.rp r

/-- Change the AS, the system registers, the queues, the ES of the cell in focus. -/
def State.updAs (s : State) (f : AsSt → AsSt) : State := { s with cell := { s.cell with as := f s.cell.as } }
def State.updSys (s : State) (f : SysRegs → SysRegs) : State := s.updAs fun a => { a with sys := f a.sys }
def State.updQs (s : State) (f : Queues → Queues) : State := { s with cell := { s.cell with qs := f s.cell.qs } }
def State.updEs (s : State) (f : EsSt → EsSt) : State := { s with cell := { s.cell with es := f s.cell.es } }
def State.updFocus (s : State) (f : Cell → Cell) : State := { s with cell := f s.cell }

/-- R79: the truth of a guard. -/
def guardHolds (g : Guard) (b : Bool) : Bool := b ^^ g.n

/-! ## Who the AS is -/

/-- The context the AS works for; none on the MS (R375). -/
def Cell.asCtx (c : Cell) : Option Nat := if c.id.die = 6 then none else some (ctxOf c.as.sys.ctxid)

/-- The cell's agent with a code of R358. -/
def Cell.who (c : Cell) (agent : Nat) : Who := ⟨c.id, agent, c.asCtx, partOf c.as.sys.ctxid⟩

/-- Translation on behalf of an agent of the focused cell. -/
def State.cx (s : State) (agent : Nat) (tlb : TlbAgent) : Cx :=
  ⟨s.cell.who agent, (s.ctx (ctxOf s.cell.as.sys.ctxid)).root, keyOf s.cell.as.sys.ctxid, some tlb, false, false, 8⟩

/-! ## Effective addresses and checks (R109, R110) -/

/-- R153: causes of AS traps and ES faults. -/
def cIllegal : Nat := 0x01
def cPrivilege : Nat := 0x02
def cFetch : Nat := 0x03
def cTarget : Nat := 0x04
def cPoison : Nat := 0x05
def cAlign : Nat := 0x06
def cBounds : Nat := 0x07
def cSegment : Nat := 0x08
def cAccess : Nat := 0x09
def cPermission : Nat := 0x0A
def cNotPresent : Nat := 0x0B
def cMapping : Nat := 0x0C
def cCompressed : Nat := 0x0D
def cSem : Nat := 0x0E
def cExit : Nat := 0x0F
def cWheel : Nat := 0x10
def cRecords : Nat := 0x11
def cEsFault : Nat := 0x12
def cShape : Nat := 0x13
def cSoftware : Nat := 0x14
def cFrame : Nat := 0x15
def cEsFetch : Nat := 0x16
def cUncorrectable : Nat := 0x17

/-- R109: the unbounded offset of base and off8. -/
def offOf (base : Word) (off8 : BitVec 8) : Int := (base.extractLsb' 0 58).toNat + off8.toInt * 8

/-- R109: the effective address. -/
def eaOf (base : Word) (off8 : BitVec 8) : Word :=
  base.extractLsb' 58 6 ++ BitVec.ofInt 58 (offOf base off8)

/-- R110: what an instruction accepts and needs. -/
structure Need where
  kinds : List Nat
  r : Bool
  w : Bool
deriving DecidableEq, Repr, Inhabited

def needSpadR : Need := ⟨[kScratch, kRing], true, false⟩
def needSpadW : Need := ⟨[kScratch, kRing], false, true⟩
def needLinR : Need := ⟨[kLinear], true, false⟩
def needLinW : Need := ⟨[kLinear], false, true⟩
def needLinRW : Need := ⟨[kLinear], true, true⟩
def needWait : Need := ⟨[kLinear, kScratch, kRing], true, false⟩

/-- R109 checks 4 to 7 on the entry alone; `len` is 8 for a word. -/
def segCheck (c : Cell) (n : Need) (seg off : Nat) (len : Nat) : Except Nat SegEnt :=
  match segAt c.segs seg with
  | none => .error cSegment
  | some e =>
    if !n.kinds.contains e.kind || (c.id.die = 6 && e.kind ≠ kLinear) then .error cAccess
    else if !inRange c.id.die e off len then .error cBounds
    else if (n.r && !e.permR) || (n.w && !e.permW) then .error cPermission
    else .ok e

/-- R109 checks 8 to 11: translation, leaf permission, compression. -/
def State.xlCheck (s : State) (n : Need) (seg off : Nat) (e : SegEnt) : State × Except Nat Place :=
  match s.xlate { s.cx 0 .as with rd := n.r } seg e off n.w with
  | (s, .error .notPresent) => (s, .error cNotPresent)
  | (s, .error .mapping) => (s, .error cMapping)
  | (s, .ok x) =>
    if x.eo || (n.r && !x.r) || (n.w && !x.w) then (s, .error cPermission)
    else if x.cmp then (s, .error cCompressed)
    else (s, .ok x.place)

/-- R109 checks 2 to 11 for the word at base and off8. -/
def State.asAccess (s : State) (n : Need) (base : Word) (off8 : BitVec 8) : State × Except Nat Place :=
  let off := offOf base off8
  if off < 0 || off ≥ 2 ^ 58 then (s, .error cBounds)
  else if off % 8 ≠ 0 then (s, .error cAlign)
  else
    match segCheck s.cell n (segNo base) off.toNat 8 with
    | .error c => (s, .error c)
    | .ok e => s.xlCheck n (segNo base) off.toNat e

/-! ## Code sections and fetch (R15, R78) -/

/-- R78: a 4-byte-aligned address inside a code section. -/
def inSection (base : Word) (size : Nat) (a : Word) : Bool :=
  a.toNat % 4 = 0 && base.toNat ≤ a.toNat && a.toNat + 4 ≤ base.toNat + size

/-- R15, R78, R275: read the instruction word at `pc`, half of the word of its segment that holds it (log 53); none when the fetch
traps. -/
def State.fetchWord (s : State) (agent : Nat) (base : Word) (size : Nat) (pc : Word) : State × Option Word32 :=
  if !inSection base size pc then (s, none)
  else
    match segAt s.cell.segs (segNo pc) with
    | none => (s, none)
    | some e =>
      let off := (pc.extractLsb' 0 58).toNat
      if e.kind ≠ kLinear || !e.permX || !inRange s.cell.id.die e off 4 then (s, none)
      else
        match s.xlate { s.cx agent .as with len := 4 } (segNo pc) e off false with
        | (s, .error _) => (s, none)
        | (s, .ok x) =>
          if !x.x || x.eo || x.cmp then (s, none)
          else
            let p : Place := { x.place with addr := x.place.addr - off % 8 }
            let r := s.readNew (s.cell.who agent) p pc
            let r := r.1.fetched s.cell.id p.wkey r.2
            let r := r.1.loadVal r.2
            (r.1, some (if off % 8 = 0 then r.2.v.extractLsb' 0 32 else r.2.v.extractLsb' 32 32))

/-! ## Repeated words (R86, R134 to R136) -/

/-- A 5-bit field stepped `k` times (R86). -/
def stepField (f : BitVec 5) (st : BitVec 4) (k : Nat) : BitVec 5 := f + st.signExtend 5 * BitVec.ofNat 5 k

/-- R86: the word of repetition k of an AS word. -/
def stepAsWord (w : Word32) (r : RepSt) : Word32 :=
  w.extractLsb' 22 10 ++ stepField (w.extractLsb' 17 5) r.ds r.k ++ stepField (w.extractLsb' 12 5) r.sa r.k
    ++ stepField (w.extractLsb' 7 5) r.sb r.k ++ w.extractLsb' 0 7

/-- R86: the word of repetition k of an ES word. -/
def stepEsWord (w : Word32) (r : RepSt) : Word32 :=
  w.extractLsb' 23 9 ++ stepField (w.extractLsb' 18 5) r.ds r.k ++ stepField (w.extractLsb' 13 5) r.sa r.k
    ++ stepField (w.extractLsb' 8 5) r.sb r.k ++ w.extractLsb' 0 8

/-- Which of bits 21:17, 16:12 and 11:7 name a g register, or none when the word may not follow REP (R86). -/
def gFields : Instr → Option (Bool × Bool × Bool)
  | .add _ | .sub _ | .and _ | .or _ | .xor _ | .andn _ | .shl _ | .shr _ | .sar _ | .min _ | .max _ | .minn _ | .maxn _
  | .mul _ | .mulh _ | .mulhn _ | .div _ | .divn _ | .rem _ | .remn _ | .sel _ | .adr2 _ | .cas _ | .waita _ =>
      some (true, true, true)
  | .clz _ | .popc _ | .addi _ | .andi _ | .ori _ | .xori _ | .shli _ | .shri _ | .sari _ | .bext _ | .bins _ | .sega _
  | .lds _ | .sts _ | .st _ | .stRel _ => some (true, true, false)
  | .ldi _ | .ldih1 _ | .ldih2 _ | .ldih3 _ | .pop _ | .qstat _ | .semrd _ => some (true, false, false)
  | .cmp _ | .amo _ | .scst _ | .scamo _ | .enq _ => some (false, true, true)
  | .cmpi _ | .ldq _ | .ldx _ | .ldqAcq _ | .stq _ | .pf _ | .cwb _ | .cinv _ | .chk _ | .scld _ | .enqs _ | .waitt _ =>
      some (false, true, false)
  | .tlbi o => some (false, o.kind ≠ .all, false)
  | .qpush _ => some (false, false, true)
  | .pand _ | .por _ | .pxor _ | .chkPred _ | .fence _ | .nop _ | .sems _ | .semw _ | .semdrop _ | .bqp _ =>
      some (false, false, false)
  | _ => none

/-- Whether an operand b names a v register. -/
def vbIsReg : VB → Bool
  | .reg _ => true
  | .queue _ => false

/-- Which of vd, va and vb name a v register, or none when the word may not follow EREP (R86). -/
def vFields : Instr → Option (Bool × Bool × Bool)
  | .vld _ | .vst _ | .vldq _ | .vbc _ | .viota _ | .acrd _ | .acwr _ | .acst _ => some (true, false, false)
  | .vsty _ => some (false, true, false)
  | .vadd o | .vsub o | .vmul o => some (true, true, vbIsReg o.b)
  | .vfma o | .vfms o | .vmin o | .vmax o | .vand o | .vor o | .vxor o | .vshl o | .vshr o | .vsar o =>
      some (true, true, vbIsReg o.b)
  | .vabs _ | .vneg _ | .vrcp _ | .vrsq _ | .vexp2 _ | .vlog2 _ | .vcvt _ | .vqb _ | .vdqb _ | .vshlImm _ | .vshrImm _
  | .vsarImm _ | .vrsum _ | .vrmax _ | .vrmin _ | .vrmaxi _ | .vrmini _ | .vslide _ => some (true, true, false)
  | .vsel _ | .vperm _ | .vgath _ | .vrng _ => some (true, true, true)
  | .vcmp o => some (false, true, vbIsReg o.b)
  | .mand _ | .mor _ | .mxor _ | .mnot _ | .mpop _ | .esemw _ | .esems _ | .ebqp _ | .acsc _ | .acz _
  | .aczTile _ => some (false, false, false)
  | _ => none

/-- R86: a prefix may stand before a word: nonzero steps only on register fields. -/
def stepsOk (o : OpRep) (f : Option (Bool × Bool × Bool)) : Bool :=
  match f with
  | none => false
  | some (d, a, b) => (o.ds = 0 || d) && (o.sa = 0 || a) && (o.sb = 0 || b)

/-- The repetition state at the start of a prefix. -/
def repStart (o : OpRep) : RepSt := ⟨o.cnt1.toNat + 1, 0, o.ds, o.sa, o.sb⟩

/-- The prefix of a repetition in progress. -/
def RepSt.op (r : RepSt) : OpRep := ⟨BitVec.ofNat 6 (r.count - 1), r.ds, r.sa, r.sb⟩

/-! ## Queues -/

/-- R21: the first cycle in which an entry pushed by a sequencer can be popped. -/
def State.ready (s : State) : Nat := s.pkg.time.clk + 2

/-- The entries of a data queue. -/
def Queues.dq (q : Queues) (i : BitVec 2) : List QEnt := q.q.get i.toFin
def Queues.setDq (q : Queues) (i : BitVec 2) (l : List QEnt) : Queues := { q with q := q.q.set i.toFin l }

/-- The entries of y0 or y1. -/
def Queues.yq (q : Queues) (i : Bool) : List QEnt := if i then q.y1 else q.y0
def Queues.setYq (q : Queues) (i : Bool) (l : List QEnt) : Queues := if i then { q with y1 := l } else { q with y0 := l }

/-- The entries a load pushes into. -/
def Queues.lqOf (q : Queues) : LQueue → List QEnt
  | .q i => q.dq i
  | .lq => q.lq
def Queues.setLqOf (q : Queues) (d : LQueue) (l : List QEnt) : Queues :=
  match d with
  | .q i => q.setDq i l
  | .lq => { q with lq := l }

/-- R13, R138: capacities. -/
def lqCap : LQueue → Nat
  | .q _ => Config.capQ
  | .lq => Config.capLq

/-- The head of a queue when it can be popped now (R16, R21). -/
def popHead (now : Nat) (l : List QEnt) : Option (QEnt × List QEnt) :=
  match l with
  | e :: r => if e.arrived && e.from_ ≤ now then some (e, r) else none
  | [] => none

/-- Mark the entry of operation `seq` arrived with its value (R16, R113). -/
def arrive (l : List QEnt) (seq : Nat) (x : TW) (now : Nat) : List QEnt :=
  l.map fun e => if !e.arrived && e.seq = seq then { e with v := x.v, psn := x.psn, arrived := true, from_ := now } else e

/-- R138: RDY counts the arrived entries in front of the first unarrived one. -/
def rdyOf (now : Nat) : List QEnt → Nat
  | [] => 0
  | e :: r => if e.arrived && e.from_ ≤ now then rdyOf now r + 1 else 0

/-! ## Semaphores (R22) -/

/-- The semaphore of a field; none for 63 (R22). -/
def State.sem (s : State) (n : SemNo) : Option Sem := if h : n.toNat < 63 then some (s.cell.sems.get ⟨n.toNat, h⟩) else none

def State.setSem (s : State) (n : SemNo) (x : Sem) : State := s.updFocus fun c => c.setSem n x

/-- R22, R24: an overflow is noted with its cycle: an error entry of that cycle comes before it. -/
def Cell.noteOverflow (c : Cell) (n : SemNo) (clk : Nat) : Cell := { c with ovfs := c.ovfs.filter (·.2 = clk) ++ [(n, clk)] }

/-- Signal a semaphore field; 63 does nothing. -/
def State.signal (s : State) (n : SemNo) : State :=
  match s.sem n with
  | some x =>
    let s' := s.setSem n x.signal
    if x = .count 0xFFFF then s'.updFocus (·.noteOverflow n s.pkg.time.clk) else s'
  | none => s

/-- R24: whether the error a semaphore is in came from an overflow of this cycle, which an error entry precedes. -/
def State.overflowedNow (s : State) (n : SemNo) : Bool := s.cell.ovfs.contains (n, s.pkg.time.clk)

/-- Put a semaphore field into error phase; 63 does nothing. -/
def State.errorSem (s : State) (n : SemNo) (code : Byte) : State :=
  match s.sem n with
  | some x =>
    if s.overflowedNow n then
      (s.setSem n (.err code)).updFocus fun c => { c with ovfs := c.ovfs.filter (·.1 ≠ n) }
    else s.setSem n (x.error code)
  | none => s

/-! ## Rings and ports (R82, R196, R197) -/

/-- The engine of a ring code; none for a port. -/
def ringEng : Ring → Option Eng
  | .mx => some .mx
  | .ce0 => some .ce0
  | .ce1 => some .ce1
  | .xe => some .xe
  | _ => none

/-- R358: agent codes of the engines. -/
def engAgent (e : Eng) : Nat := engNo e + 2

/-- R197: words free in a ring. -/
def EngSt.free (x : EngSt) (size : Nat) : Nat := size / 4 - (x.wp - x.rp).toNat

/-- The key of the 8-byte word that holds ring word `n`. -/
def Cell.ringKey (c : Cell) (base size n : Nat) : Nat := byteKey 0 (spadUnit c.id) (ringAddr base size n / 8 * 8)

/-- Put ring word `n`, and the marker of the 8 bytes that hold it. -/
def State.ringSet (s : State) (base size n : Nat) (w : Word32) (psn : Bool) : State :=
  s.updMem fun m =>
    if ringAddr base size n % 8 = 0 then m.putNow (s.cell.ringKey base size n) (w.zeroExtend 64) 0x0F psn
    else m.putNow (s.cell.ringKey base size n) (w.zeroExtend 64 <<< 32) 0xF0 psn

/-- R150, R197: append one word at WP. -/
def State.ringPut (s : State) (e : Eng) (base size : Nat) (w : Word32) : State :=
  let x := s.cell.eng e
  (s.ringSet base size x.wp.toNat w false).updFocus fun c => c.setEng e { x with wp := x.wp + 1 }

end Sys2Proof.Machine
end

