-- ==== Sys2Proof/Machine/Ops.lean ====
section
/-! DEFINITION. Named operations of the sequencers: issuing an instruction (R37, R79, R80), taking a trap and returning from one
(R40 to R44, R152, R155), memory operations that perform later (R113 to R126, R264 to R267). -/

namespace Sys2Proof.Machine

/-! ## Issue (R37, R39, R374) -/

/-- R374 class 0: one AS instruction issued. -/
def State.chargeAs (s : State) : State := s.charge s.cell.asCtx s.cell.id 0 1

/-- An instruction issues and control goes on to the next one: pc, tick, charge. -/
def State.retire (s : State) : State := (s.setCore s.core.advance.endTick).chargeAs

/-- An instruction issues and control transfers to `x`. -/
def State.jump (s : State) (x : Word) : State := (s.setCore { s.core with pc := x, rep := none }.endTick).chargeAs

/-- A write of latency `lat` enters the AS pipeline (R37). -/
def State.pushWr (s : State) (lat : Nat) (d : Dest) (v : Word) (psn : Bool) : State := s.setCore (s.core.push lat d v psn)

/-- The instruction writes one register after `lat` ticks and issues. -/
def State.writeReg (s : State) (lat : Nat) (d : Dest) (v : Word) (psn : Bool) : State := (s.pushWr lat d v psn).retire

/-! ## Save area (R41) -/

/-- A kernel linear segment: linear, not pageable, in die SRAM, writable, keyed 0. -/
def SegEnt.kernelLinear (e : SegEnt) : Bool :=
  e.kind = kLinear && !e.pageable && e.loc = 1 && e.permW && e.keyid = 0 && !e.ckey

/-- Bind the frames of a range of die SRAM under key 0 (R41, R292). -/
def State.bindRange (s : State) (die : Nat) : List Nat → Option State
  | [] => some s
  | f :: r => match s.bind s.cell.id ⟨1, die, f * 65536, 0, 2, false⟩ false with | some s => s.bindRange die r | none => none

/-- R41: the save area at PWLSAVE, with its frames bound; none when it is not such an area. -/
def State.saveArea (s : State) : Option (State × Place) :=
  let a := s.cell.as.sys.pwlsave
  let off := (a.extractLsb' 0 58).toNat
  match segAt s.cell.segs (segNo a) with
  | none => none
  | some e =>
    if !e.kernelLinear || off % 256 ≠ 0 || e.size < off + Config.saveBytes then none
    else
      let p : Place := ⟨1, e.die, e.base + off, 0, e.cpol, false⟩
      let f0 := p.addr / 65536
      let f1 := (p.addr + Config.saveBytes - 1) / 65536
      (s.bindRange e.die ((List.range (f1 - f0 + 1)).map (f0 + ·))).map fun s => (s, p)

/-- A hardware write of the trap unit into the save area. -/
def State.putSave (s : State) (p : Place) (off : Nat) (v : Word) : State :=
  s.writeW true 0 0 s.pkg.time.t3 (p.plus off) v 0xFF false

/-- R41: class code of an AS destination, and its number. -/
def destCode : Dest → Nat × Nat
  | .g n => (0, n.toNat)
  | .p n => (1, n.toNat)
  | .t n => (2, n.toNat)

/-- R41: the header of a slot. -/
def slotHeader (flg : BitVec 6) (cnt1 : Nat) (psn : Bool) (rem cls num : Nat) : Word :=
  ((0 : BitVec 39) ++ flg ++ BitVec.ofNat 5 cnt1 ++ (1 : BitVec 1) ++ BitVec.ofBool psn ++ BitVec.ofNat 4 rem
    ++ BitVec.ofNat 3 cls ++ BitVec.ofNat 5 num : BitVec 64)

/-- Write AS slots from slot `k` on: the entries, then a slot with VALID clear for each that is left. -/
def State.saveAs (s : State) (p : Place) (l : List Pend) : List Nat → State
  | [] => s
  | k :: ks =>
    match l with
    | [] => (s.putSave p (16 * k) 0).saveAs p [] ks
    | e :: r =>
      let c := destCode e.dest
      ((s.putSave p (16 * k) (slotHeader 0 0 e.psn e.rem c.1 c.2)).putSave p (16 * k + 8) e.val).saveAs p r ks

/-- R41: class code of an ES destination. -/
def eclsCode : EClass → Nat
  | .v => 3 | .m => 4 | .sh => 5 | .flags => 6

/-- PSNMASK of an ES slot. -/
def psnMask (l : List EPart) : Word :=
  BitVec.ofNat 64 ((l.zipIdx.map fun x => (if x.1.psn then 2 ^ x.2 else 0) + (if x.1.alone then 2 ^ (32 + x.2) else 0)).sum)

/-- Write `n` words of a wide value. -/
def State.putWide {w : Nat} (s : State) (p : Place) (off : Nat) (v : BitVec w) : Nat → State
  | 0 => s
  | n + 1 => (s.putSave p off (v.extractLsb' 0 64)).putWide p (off + 8) (v >>> 64) n

/-- One register of an ES slot: value and byte enables. -/
def State.putPart (s : State) (p : Place) (off i : Nat) (x : EPart) : State :=
  (s.putWide p (off + 0x10 + 256 * i) x.val 32).putWide p (off + 0x2010 + 32 * i) x.be 4

/-- The registers of one ES slot: values, then byte enables. -/
def State.saveParts (s : State) (p : Place) (off : Nat) (l : List EPart) : State :=
  l.zipIdx.foldl (fun t x => t.putPart p off x.2 x.1) s

/-- Offset of ES slot k. -/
def esSlot (k : Nat) : Nat := 0x0100 + 9232 * k

/-- Write ES slots. -/
def State.saveEs (s : State) (p : Place) (l : List EPend) : List Nat → State
  | [] => s
  | k :: ks =>
    match l with
    | [] => (s.putSave p (esSlot k) 0).saveEs p [] ks
    | e :: r =>
      let s := s.putSave p (esSlot k) (slotHeader e.flg (e.parts.length - 1) false e.rem (eclsCode e.cls) e.num)
      let s := s.putSave p (esSlot k + 8) (psnMask e.parts)
      (s.saveParts p (esSlot k) e.parts).saveEs p r ks

/-! ## Taking a trap (R152) -/

/-- R135: TRAPREP. -/
def repWord (r : Option RepSt) : BitVec 12 :=
  match r with
  | some r => BitVec.ofNat 6 r.k ++ BitVec.ofNat 6 (r.count - r.k - 1)
  | none => 0

/-- R152, R319: escalation. On the MS a failure forces a module reset (R41). -/
def State.escalate (s : State) (cause : Nat) : State :=
  if s.cell.id.die = 6 then s.moduleReset
  else s.partitionReset (partOf s.cell.as.sys.ctxid) .escalation (BitVec.ofNat 64 cause)

/-- R152: the saved registers and the entry into the handler, the lists being in the save area already. -/
def State.enterHandler (s : State) (cause : Nat) (val : Word) : State :=
  s.updAs fun a => { a with
    lvl := if a.lvl = .machine then .machine else .kernel
    wait := none
    exitTested := false
    esSaved := a.sys.esHalted
    sys := { a.sys with
      trappc := a.core.pc, traprep := repWord a.core.rep, trapcause := BitVec.ofNat 64 cause, trapval := val }
    core := { a.core with pc := a.sys.tvec, rep := none, infl := [] } }

/-- R323: the trap unit writes into the segment of the save area. -/
def State.noteSave (s : State) : State :=
  let n := segNo s.cell.as.sys.pwlsave
  match segAt s.cell.segs n with
  | some e => s.noteSegWrite (s.cx 0 .as) n e
  | none => s

/-- R41: the offsets of a slot's words: its header, and of one that holds an entry the rest, with `n` registers in an ES slot. -/
def asWords (o : Nat) (valid : Bool) : List Nat := if valid then [o, o + 8] else [o]
def esWords (o : Nat) (valid : Bool) (n : Nat) : List Nat :=
  if valid then [o, o + 8] ++ (List.range (32 * n)).map (o + 0x10 + 8 * ·) ++ (List.range (4 * n)).map (o + 0x2010 + 8 * ·) else [o]

/-- R41: the words of the save area that the two lists take. -/
def pwlWords (al : List Pend) (el : List EPend) : List Nat :=
  (List.range 16).flatMap (fun k => asWords (16 * k) (k < al.length))
    ++ (List.range 16).flatMap fun k => esWords (esSlot k) (k < el.length) ((el[k]?).elim 0 (·.parts.length))

/-- R374, R375: the words at ascending offsets of the save area are reached, each line once: `f` does what reaching a line does, and `prev`
is the line reached last. -/
def State.eachLine (s : State) (f : State → Place → State) (p : Place) (prev : Option Nat) : List Nat → State
  | [] => s
  | o :: r => (if prev = some (p.plus o).line then s else f s (p.plus o)).eachLine f p (some (p.plus o).line) r

/-- R41, R152, R375: write the pending-write lists: the AS list, and the ES list when the ES is halted. -/
def State.savePwl (s : State) (p : Place) : State :=
  let esl := if s.cell.as.sys.esHalted then s.cell.es.infl else []
  let s := s.eachLine (fun s q => s.touchStore (s.cell.who 0) s.cell q) p none (pwlWords s.core.infl esl)
  let s := (s.saveAs p s.core.infl (List.range 16)).saveEs p esl (List.range 16)
  if s.cell.as.sys.esHalted then s.updEs fun e => { e with infl := [] } else s

/-- R152: every AS trap, and the trap on an ES fault, is taken by these steps. -/
def State.takeTrap (s : State) (cause : Nat) (val : Word) : State :=
  if s.cell.as.lvl = .kernel then s.escalate cause
  else if s.cell.as.sys.tvec = 0 then s.escalate cause
  else
    match s.saveArea with
    | none => s.escalate cause
    | some (s, p) => (s.noteSave.savePwl p).enterHandler cause val

/-- An instruction traps. It waits while an earlier memory instruction may still fail its checks (R40, R117). -/
def State.trap (s : State) (cause : Nat) (val : Word) : State :=
  if s.cell.snaps.isEmpty then s.takeTrap cause val else s

/-- R153: the trap value of causes that carry the instruction word. -/
def wordOf (i : Instr) : Word := encodeWord i

/-- R43: an ES fault halts the ES at the faulting instruction. -/
def State.esFault (s : State) (cause : Nat) (val : Word) : State :=
  (s.updEs fun e => { e with run := .halted, rep := none }).updSys fun r => { r with
    etrappc := s.cell.es.pc, etraprep := repWord s.cell.es.rep, etrapcause := BitVec.ofNat 64 cause, etrapval := val
    esHalted := true, esPending := true }

/-! ## Return from a trap (R155) -/

/-- R41: the fields of a slot header. -/
structure Slot64 where
  flg : BitVec 6
  cnt1 : Nat
  valid : Bool
  psn : Bool
  rem : Nat
  cls : Nat
  num : Nat
  reserved : Bool
deriving DecidableEq, Repr, Inhabited

def slotOf (h : Word) : Slot64 :=
  ⟨h.extractLsb' 19 6, (h.extractLsb' 14 5).toNat, h.getLsbD 13, h.getLsbD 12, (h.extractLsb' 8 4).toNat,
    (h.extractLsb' 5 3).toNat, (h.extractLsb' 0 5).toNat, h.extractLsb' 25 39 ≠ 0⟩

/-- R41: a valid AS slot meets every condition of the table. -/
def asSlotOk (x : Slot64) : Bool :=
  !x.reserved && x.flg = 0 && x.cnt1 = 0 && 1 ≤ x.rem && x.rem ≤ 14
    && (x.cls = 0 || (x.cls = 1 && x.num < 8) || (x.cls = 2 && x.num < 4))

/-- R41: a valid ES slot meets every condition of the table. -/
def esSlotOk (x : Slot64) : Bool :=
  !x.reserved && !x.psn && 1 ≤ x.rem && x.rem ≤ 14
    && ((x.cls = 3 && x.num + x.cnt1 < 32) || (x.cls = 4 && x.num + x.cnt1 < 8)
        || ((x.cls = 5 || x.cls = 6) && x.num = 0 && x.cnt1 = 0 && x.flg = 0))

/-- A word of the save area as the cell sees it. -/
def State.getSave (s : State) (p : Place) (off : Nat) : TW := s.wordAs s.cell.id (p.plus off)

/-- R41, R155: the first slot that fails, by its offset: `ok` judges a valid slot, `seen` is whether an invalid one came before. -/
def State.badSlot (s : State) (p : Place) (ok : Slot64 → Bool) (offs : List Nat) (seen : Bool) : Option Nat :=
  match offs with
  | [] => none
  | o :: r =>
    let x := slotOf (s.getSave p o).v
    if !x.valid then s.badSlot p ok r true
    else if seen || !ok x then some o
    else s.badSlot p ok r seen

/-- A valid AS slot as a write in flight. -/
def State.loadAsSlot (s : State) (p : Place) (o : Nat) : Option Pend :=
  let x := slotOf (s.getSave p o).v
  let v := (s.getSave p (o + 8)).v
  if !x.valid then none
  else
    let d : Dest := if x.cls = 0 then .g (BitVec.ofNat 5 x.num) else if x.cls = 1 then .p (BitVec.ofNat 3 x.num)
      else .t (BitVec.ofNat 2 x.num)
    some ⟨x.rem, d, v, x.psn⟩

/-- Read `n` words of a wide value, highest first in the result. -/
def State.getWide (s : State) (p : Place) (off : Nat) : Nat → Nat
  | 0 => 0
  | n + 1 => (s.getSave p off).v.toNat + s.getWide p (off + 8) n * 2 ^ 64

/-- A valid ES slot as a write in flight. -/
def State.loadEsSlot (s : State) (p : Place) (o : Nat) : Option EPend :=
  let x := slotOf (s.getSave p o).v
  if !x.valid then none
  else
    let mask := (s.getSave p (o + 8)).v
    let cls : EClass := if x.cls = 3 then .v else if x.cls = 4 then .m else if x.cls = 5 then .sh else .flags
    some ⟨x.rem, cls, x.num,
      (List.range (x.cnt1 + 1)).map (fun i =>
        ⟨BitVec.ofNat 2048 (s.getWide p (o + 0x10 + 256 * i) 32), BitVec.ofNat 256 (s.getWide p (o + 0x2010 + 32 * i) 4),
          mask.getLsbD i, mask.getLsbD (32 + i)⟩), x.flg⟩

/-- Offsets of the slots. -/
def asSlots : List Nat := (List.range 16).map (16 * ·)
def esSlots : List Nat := (List.range 16).map esSlot

/-- The words RETT reads of the slot at an offset: its header, and the rest of a valid one. -/
def State.slotReads (s : State) (p : Place) (o : Nat) : List Nat :=
  let x := slotOf (s.getSave p o).v
  if o < 0x100 then asWords o x.valid else esWords o x.valid (x.cnt1 + 1)

/-- R360, R152: an uncorrectable error met in these slots of the save area, by offset. -/
def State.saveError (s : State) (p : Place) (offs : List Nat) : Option Nat :=
  (offs.flatMap (s.slotReads p)).find? fun o => (s.getSave p o).psn || s.mem.bad.any fun b => b / 64 = (p.plus o).wkey / 64

/-- The REP that resumes at a word, when its frame agrees (R136): none: the frame is illegal. -/
def resumeRep (w : Option Instr) (rep : BitVec 12) : Option (Option RepSt) :=
  match w with
  | some (.rep o) | some (.erep o) =>
    let k := (rep.extractLsb' 6 6).toNat
    if k + (rep.extractLsb' 0 6).toNat + 1 = o.cnt1.toNat + 1 then some (some { repStart o with k := k }) else none
  | _ => some none

/-- What a word decodes to, if anything. -/
def asInstr (w : Option Word32) : Option Instr := w.bind fun w => (decodeAs w).toOption
def esInstr (w : Option Word32) : Option Instr := w.bind fun w => (decodeEs w).toOption

/-- R136: the repetition state with which a sequencer resumes at `pc`; none when the frame is illegal. The pair is checked again
when the word after the prefix is fetched. -/
def State.resumeAs (s : State) : Option (Option RepSt) :=
  let fetch := fun (a : Word) => asInstr (s.fetchWord 0 s.cell.asbase s.cell.assize a).2
  match fetch s.cell.as.sys.trappc with
  | some (.rep o) => resumeRep (some (.rep o)) s.cell.as.sys.traprep
  | _ => some none

def State.resumeEs (s : State) : Option (Option RepSt) :=
  let fetch := fun (a : Word) => esInstr (s.fetchWord 1 s.cell.esbase s.cell.essize a).2
  match fetch s.cell.as.sys.etrappc with
  | some (.erep o) => resumeRep (some (.erep o)) s.cell.as.sys.etraprep
  | _ => some none

/-- R37, R155: RETT issues: its tick passes for the handler's own writes in flight, and the saved ones join behind them, so that
they land last where both write one register (R40). -/
def AsCore.resume (c : AsCore) (pc : Word) (rep : Option RepSt) (al : List Pend) : AsCore :=
  { c.endTick with pc := pc, rep := rep, infl := c.endTick.infl ++ al }

/-- R44, R155: back at program level with an ES fault that has not been delivered, its trap is taken at once, before any instruction
issues: TRAPPC is the restored resume address. -/
def State.esFaultAtRett (s : State) : State :=
  if s.cell.as.lvl = .program && s.cell.as.sys.esPending && !s.cell.as.delivered then
    (s.updAs fun a => { a with delivered := true }).takeTrap cEsFault 0
  else s

/-- R155 steps 2 and 3, once every check has passed: `ar` and `er` are the repetition states the sequencers resume with. -/
def State.finishRett (s : State) (p : Place) (ar er : Option RepSt) : State :=
  let al := asSlots.filterMap (s.loadAsSlot p)
  let el := if s.cell.as.esSaved then esSlots.filterMap (s.loadEsSlot p) else s.cell.es.infl
  let back := s.cell.as.delivered
  let s := s.updEs fun e =>
    if back then { e with infl := el, run := .running, pc := s.cell.as.sys.etrappc, rep := er } else { e with infl := el }
  (s.updAs fun a => { a with
    lvl := if a.lvl = .machine then .machine else .program
    delivered := false, esSaved := false
    sys := if back then { a.sys with esHalted := false, esPending := false } else a.sys
    core := a.core.resume a.sys.trappc ar al }).chargeAs.esFaultAtRett

/-- R155: RETT at kernel or machine level. A failing check traps where it runs, and so escalates below machine level; an error in the
save area escalates at every level (R41). Errors are looked for before slots that fail, and where PWLSAVE names no such area any more the
escalation carries the illegal-frame cause, which R319 does not give (log 54). -/
def State.rett (s : State) : State :=
  match s.saveArea with
  | none => s.escalate cFrame
  | some (s, p) =>
    let offs := asSlots ++ (if s.cell.as.sys.esHalted then esSlots else [])
    match s.saveError p offs with
    | some o =>
      (s.meetError (s.cell.who 0) (l1Of s.cell (p.plus o).line) (p.plus o) (s.cell.as.sys.pwlsave + BitVec.ofNat 64 o)).escalate
        cUncorrectable
    | none =>
      let s := s.eachLine (fun s q => s.touchLine (s.cell.who 0) s.cell q) p none (offs.flatMap (s.slotReads p))
      match s.badSlot p asSlotOk asSlots false with
      | some o => s.takeTrap cFrame (BitVec.ofNat 64 o)
      | none =>
        match (if s.cell.as.sys.esHalted then s.badSlot p esSlotOk esSlots false else none) with
        | some o => s.takeTrap cFrame (BitVec.ofNat 64 o)
        | none =>
          match s.resumeAs, (if s.cell.as.delivered then s.resumeEs else some none) with
          | some ar, some er => s.finishRett p ar er
          | _, _ => s.takeTrap cFrame 0

/-! ## The guard and privilege checks (R79, R80) -/

/-- R80 items 3 and 4: a poisoned guard traps; a false one spends the tick and does nothing else. -/
def State.guarded (s : State) (g : Guard) (body : State → State) : State :=
  let b := s.rp g.p
  if b.psn then s.trap cPoison 0
  else if guardHolds g b.v then body s
  else s.retire

/-- R265: these wait, without ticks, until every earlier memory instruction has finished its checks. -/
def State.afterChecks (s : State) (body : State → State) : State := if s.cell.snaps.isEmpty then body s else s

/-- R31: below the level an instruction needs, it traps whatever its guard (R80 item 2). -/
def State.atKernel (s : State) (i : Instr) (body : State → State) : State :=
  if s.cell.as.lvl = .program then s.trap cPrivilege (wordOf i) else body s

/-- R100, R153: trap on a tagged g operand, the value being the tagged one. -/
def State.clean (s : State) (r : GReg) (body : Word → State) : State :=
  let x := s.rg r
  if x.psn then s.trap cPoison x.v else body x.v

/-! ## Memory operations in flight (R113 to R127, R264 to R266) -/

/-- An earlier operation stands before a later access of class `cls` (R264): same class, or an acquire whose mask names it. -/
def MOp.before (x : MOp) (cls : Cls) : Bool :=
  (match x.kind with | .signal _ => false | _ => x.cls = cls)
    || (match x.acq with | some m => m.getLsbD cls.toNat | none => false)

/-- R264: no operation in flight stands before an access of this class: what LDS, STS and WAITA need to perform. -/
def Cell.classFree (c : Cell) (cls : Cls) : Bool := !c.mops.any (·.before cls)

/-- R258: the reach at which a release of this operation acts: system on host and CXL memory, else package (R126). -/
def relReach (p : Place) : Nat := finalReach p.loc

/-- R266: an AS write of this cell issued before `seq` in a class of the mask has not reached `r`. -/
def MemSt.owes (m : MemSt) (c : CellId) (seq : Nat) (mask : BitVec 16) (r : Nat) : Bool :=
  m.writes.any fun w => w.cell = c && !w.eng && w.seq < seq && mask.getLsbD w.cls.toNat && w.reach < r

/-- R262: an agent of the scope has written the word where this cell does not see it yet, or a write this cell sees must still
reach the scope. -/
def MemSt.contended (m : MemSt) (c : CellId) (k r : Nat) : Bool :=
  m.writes.any fun w => w.key = k
    && ((sameUnit r w.cell c && !sameUnit w.reach w.cell c) || (finalReach (keyLoc k) ≤ r && sameUnit w.reach w.cell c))

/-- R117, R264, R266, R262: operation `n` of the cell may perform now. -/
def State.mayPerform (s : State) (n : Nat) : Bool :=
  match s.cell.mops[n]? with
  | none => false
  | some o =>
    let earlier := s.cell.mops.take n
    match o.kind with
    | .signal _ => earlier.isEmpty
    | _ =>
      match o.place with
      | none => false
      | some p =>
        earlier.all (fun x => (x.place.isSome || match x.kind with | .signal _ => true | _ => false) && !x.before o.cls)
          && (match o.rel with
              | none => true
              | some relm =>
                let m := relm ||| (1 : BitVec 16) <<< o.cls.toNat
                earlier.all (fun x => !m.getLsbD x.cls.toNat || match x.kind with | .signal _ => true | _ => false)
                  && !s.mem.owes s.cell.id o.seq m (relReach p) && o.deps.all fun d => s.mem.reached d (relReach p))
          && (match o.kind with
              | .amo _ _ | .cas _ _ => !s.mem.contended s.cell.id p.wkey (scopeReach o.scope)
              | _ => true)

/-- Operation `n` leaves the list. -/
def State.dropOp (s : State) (n : Nat) : State := s.updFocus fun c => { c with mops := dropAt c.mops n }

/-- A result reaches its reserved entry, in the queue and in what a late check would restore (R16). -/
def State.arriveAt (s : State) (q : Option (BitVec 2)) (seq : Nat) (x : TW) : State :=
  let now := s.pkg.time.clk
  match q with
  | some i => s.updQs fun k => k.setDq i (arrive (k.dq i) seq x now)
  | none => s.updFocus fun c => { c with
      qs := { c.qs with lq := arrive c.qs.lq seq x now }
      snaps := c.snaps.map fun y => { y with lq := arrive y.lq seq x now } }

/-- R123: the new value of an atomic. -/
def amoResult (op : AmoOp) (old v : Word) : Word :=
  match op with
  | .add => old + v
  | .and => old &&& v
  | .or => old ||| v
  | .xor => old ^^^ v
  | .min => if v.slt old then v else old
  | .max => if old.slt v then v else old
  | .minn => if v.ult old then v else old
  | .maxn => if old.ult v then v else old
  | .swap => v

/-- R262: the write of a read-modify-write, at its scope at once. -/
def MemSt.writeAt (m : MemSt) (w : PWrite) : MemSt :=
  if finalReach (keyLoc w.key) ≤ w.reach then m.finish w else m.addWrite w

/-- R124, R262: the writes of a word by agents of a scope that have not performed at its reach perform there now, in their order: an
operation that cannot wait for them comes after them all. -/
def MemSt.drawIn (m : MemSt) (c : CellId) (k r : Nat) : MemSt :=
  let mine := fun (w : PWrite) => w.key = k && w.reach < r && sameUnit r w.cell c
  if finalReach (keyLoc k) ≤ r then
    (m.writes.filter mine).foldl MemSt.finish { m with writes := m.writes.filter fun w => !mine w }
  else { m with writes := m.writes.map fun w => if mine w then { w with reach := r } else w }

/-- R262, R290: the AS writes a word that performs at reach `r` at once. -/
def State.writeAtW (s : State) (seq : Nat) (cls : Cls) (since : Nat) (p : Place) (v : Word) (psn : Bool) (r : Nat) : State :=
  if s.mem.keyFits p then
    s.updMem fun m => m.writeAt ⟨m.nextId, s.cell.id, false, seq, cls, p.wkey, v, 0xFF, psn, r, p.cpol, s.writeCache s.cell p, since⟩
  else s.putAlien p v 0xFF psn

/-- R118, R123, R262: a read-modify-write performs: the old value is answered; a marked word stays as it is. Its read answers no older
value of R119: its write follows the write it read directly (log 55). -/
def State.rmw (s : State) (seq : Nat) (cls : Cls) (scope : Scope) (since : Nat) (sa : Word) (p : Place) (f : Word → Option Word) : State × TW :=
  let r := s.readNew (s.cell.who 0) p sa
  let s := r.1
  if r.2.psn then (s, r.2)
  else
    match f r.2.v with
    | none => (s, r.2)
    | some v =>
      (s.writeAtW seq cls since p v false (max (scopeReach scope) (if s.cell.fused then 1 else 0)), r.2)

/-- A load of operation `n` performs and its value arrives (R113, R258). -/
def State.performLoad (s : State) (n : Nat) (o : MOp) (p : Place) (q : Option (BitVec 2)) : State :=
  let s := s.passLine (s.cell.who 0) s.cell p o.addr
  let r := s.readW (s.cell.who 0) p o.addr
  let r := r.1.loadVal r.2
  (r.1.dropOp n).arriveAt q o.seq r.2

/-- A store of operation `n` performs at cell scope (R116, R258). -/
def State.performStore (s : State) (n : Nat) (o : MOp) (p : Place) (v : Word) (psn : Bool) : State :=
  let s := s.touchStore (s.cell.who 0) s.cell p
  (s.writeW false o.seq o.cls o.since p v 0xFF psn).dropOp n

/-- An atomic of operation `n` performs and its old value arrives in lq (R123). -/
def State.performAmo (s : State) (n : Nat) (o : MOp) (p : Place) (f : Word → Option Word) : State :=
  let s := s.passLine (s.cell.who 0) s.cell p o.addr
  let r := s.rmw o.seq o.cls o.scope o.since o.addr p f
  (r.1.dropOp n).arriveAt none o.seq r.2

/-- R121: the keys a write-back covers: a line, or the 64 KiB-aligned range of offsets that holds `off`, which is a page, or in an
unpaged segment goes from BASE on and no further than the limit. -/
def wbRange (p : Place) (page : Bool) (off : Nat) (e : Option SegEnt) : Nat × Nat :=
  if page then
    match e.filter fun e => !e.pageable with
    | some e =>
      let lo := off / 65536 * 65536
      (byteKey p.loc p.die (e.base + lo), min 65536 (e.size - lo))
    | none => (byteKey p.loc p.die (p.addr / 65536 * 65536), 65536)
  else (p.line, 64)

/-- A CWB or CINV of operation `n` starts its write-back (R121). -/
def State.startWriteback (s : State) (n : Nat) (o : MOp) (p : Place) (inv page : Bool) : State :=
  let r := wbRange p page (o.addr.extractLsb' 0 58).toNat (segAt s.cell.segs (segNo o.addr))
  (s.updMem fun m => { m with wbacks := m.wbacks ++ [⟨s.cell.id, o.seq, o.cls, r.1, r.2, inv, o.addr, o.due⟩] }).dropOp n

/-- R140: the held signal of operation `n` takes effect. -/
def State.performSignal (s : State) (n : Nat) (x : SemNo) : State := (s.dropOp n).signal x

/-- Operation `n` performs, if it may. -/
def State.perform (s : State) (n : Nat) : State :=
  if !s.mayPerform n then s
  else
    match s.cell.mops[n]? with
    | none => s
    | some o =>
      match o.kind, o.place with
      | .signal x, _ => s.performSignal n x
      | .load q, some p => s.performLoad n o p q
      | .store v psn, some p => s.performStore n o p v psn
      | .amo op v, some p => s.performAmo n o p fun old => some (amoResult op old v)
      | .cas c v, some p => s.performAmo n o p fun old => if old = c then some v else none
      | .writeback inv page, some p => s.startWriteback n o p inv page
      | _, none => s

/-- R125: an operation or write of the AS in a class of the mask has not performed at reach `r`. -/
def State.fenceOpen (s : State) (mask : BitVec 16) (r : Nat) : Bool :=
  s.cell.mops.any (fun o => match o.kind with | .signal _ => false | _ => mask.getLsbD o.cls.toNat)
    || s.mem.wbacks.any (fun w => w.cell = s.cell.id && mask.getLsbD w.cls.toNat)
    || s.mem.owes s.cell.id s.cell.mseq mask r

/-- R146, R148, R149: an earlier access of the AS has not performed at package scope, or a write the AS sees has not (R266). -/
def State.packageOpen (s : State) : Bool :=
  !s.cell.mops.isEmpty || s.mem.owes s.cell.id s.cell.mseq (BitVec.allOnes 16) 3
    || (s.mem.writes.any fun w => sameUnit w.reach w.cell s.cell.id && w.reach < 3)

/-- Whether checks of a new memory operation finish late: the agenda says so (R117, log 1). -/
def State.lateNow (s : State) : Bool := s.cell.late

/-- A memory operation issues: it joins the list; when its checks finish late, what a failure restores is kept (R40). -/
def State.addOp (s : State) (kind : MKind) (cls : Cls) (scope : Scope) (addr : Word) (place : Option Place)
    (acq rel : Option (BitVec 16)) : State :=
  let o : MOp := ⟨s.cell.mseq, kind, cls, scope, addr, place, acq, rel,
    if rel.isSome then s.mem.visibleIds s.cell.id else [], s.pkg.time.t3, none⟩
  s.updFocus fun c => { c with
    mops := c.mops ++ [o]
    mseq := c.mseq + 1
    snaps := if place.isNone then c.snaps ++ [⟨o.seq, c.as.core, c.qs.lq, c.as.latchP, c.as.latchK, c.as.latchM⟩] else c.snaps }

/-- An operation that performs at once still takes its number: a later fence waits for its write (R125). -/
def State.nextSeq (s : State) : State := s.updFocus fun c => { c with mseq := c.mseq + 1 }

/-- R16, R113: reserve an entry for operation `seq`. -/
def State.reserve (s : State) (q : LQueue) (seq : Nat) : State :=
  s.updQs fun k => k.setLqOf q (k.lqOf q ++ [⟨0, false, false, 0, seq⟩])

/-- R113, R123: no entry of the queue is free of data or reservation. -/
def State.qFull (s : State) (q : LQueue) : Bool := lqCap q ≤ (s.cell.qs.lqOf q).length

/-- R109, R117: check a memory operand at issue, or leave the checks to MEMORY_CHECK_COMPLETION when the agenda delays them.
Behind an unfinished check every later one is delayed too. -/
def State.checkOrDelay (s : State) (n : Need) (base : Word) (off8 : BitVec 8) (go : State → Option Place → State) : State :=
  if s.lateNow || !s.cell.snaps.isEmpty then
    if offOf base off8 < 0 || offOf base off8 ≥ 2 ^ 58 then s.trap cBounds (eaOf base off8) else go s none
  else
    match s.asAccess n base off8 with
    | (s, .error c) => s.trap c (eaOf base off8)
    | (s, .ok p) => go s (some p)

/-- R110: what an operation in flight needs. -/
def needOf : MKind → Need
  | .load _ => needLinR
  | .store _ _ => needLinW
  | .amo _ _ | .cas _ _ => needLinRW
  | .writeback _ _ => needLinR
  | .signal _ => needLinR

/-! ## Waiting for the wheel (R124, R269) -/

/-- R269, R389: the wheel position now; none while the wheel does not run (R387). -/
def State.wheelPos (s : State) : Option Nat := if s.pkg.time.set then some (s.pkg.time.t3 / 5 % 1024) else none

/-- R306: the positions the cell owns for its launch. -/
def State.wheelOwned (s : State) : List Nat :=
  match s.cell.recd with
  | none => []
  | some r =>
    match s.findLaunch r.launch with
    | none => []
    | some l => (l.wmap.filter fun x => x.2 = s.cell.id).map (·.1)

/-! ## Records (R146 to R149, R313) -/

/-- R365: host address of the body of a record. -/
def PartSt.bodyAt (p : PartSt) (slot : Nat) : Nat := p.rqbase.toNat + 32 * (slot % (8 * 2 ^ p.rqlg))

/-- R313: the body of a record takes a slot of the queue's memory area, whose order and layout the spec does not give (log 42). -/
def State.writeBody (s : State) (part slot : Nat) : State := s.scribble (byteKey 3 0 ((s.part part).bodyAt slot)) 4

/-- R313: a record enters at the tail of a FIFO; its launch has one more record. A FORKed one may yet be taken back while a check of
its cell is unfinished (R40): its body is written afterwards. -/
def State.enqueueRec (s : State) (part prio : Nat) (r : Rec) : State :=
  let slot := Config.freeNat s.free
  let now := r.hold.isNone || s.cell.snaps.isEmpty
  let s := { s with free := s.free + 1 }
  let s := if now then s.writeBody part slot else s
  (s.updPart part fun p => { p with fifos := updAt p.fifos prio fun l => l ++ [{ r with slot := slot, written := now }] }).updLaunch
    r.launch fun l => { l with live := l.live + 1 }

/-- A record that this cell FORKed. -/
def Rec.forkedBy (r : Rec) (c : CellId) : Bool := match r.hold with | some h => h.cell = c | none => false

/-- The bodies of FORKed records of the cell are written once no check before their FORK is unfinished. -/
def State.writeBodies (s : State) (part : Nat) : State :=
  let due := fun (r : Rec) => !r.written && r.forkedBy s.cell.id && !s.cell.snaps.any fun y => match r.hold with | some h => y.seq < h.seq | none => false
  let s' := (((s.part part).fifos.flatten).filter due).foldl (fun t r => t.writeBody part r.slot) s
  s'.updPart part fun p => { p with fifos := p.fifos.map fun l => l.map fun r => if due r then { r with written := true } else r }

/-- R313: capacity of a FIFO. -/
def State.fifoFull (s : State) (part prio : Nat) : Bool :=
  2 ^ (s.part part).rqlg ≤ ((s.part part).fifos.getD prio []).length

/-- The partition of the focused cell's record. -/
def State.recPart (s : State) : Nat := partOf s.cell.as.sys.ctxid

end Sys2Proof.Machine
end

