-- ==== Sys2Proof/Machine/Flags.lean ====
section
/-! DEFINITION. Conditions, predicates, flags and status words (R19, R26, R30, R32, R106, R107, R138, R141). -/

namespace Sys2Proof.Machine

/-- R106: compares. -/
def condHolds (c : Cond) (x y : Word) : Bool :=
  match c with
  | .eq => x = y
  | .ne => x ≠ y
  | .lt => x.slt y
  | .ge => !x.slt y
  | .ltn => x.ult y
  | .gen => !x.ult y

/-- R19: ESFLAGS bits. -/
def fNV : BitVec 6 := 1
def fDZ : BitVec 6 := 2
def fOF : BitVec 6 := 4
def fUF : BitVec 6 := 8
def fNX : BitVec 6 := 16
def fSAT : BitVec 6 := 32

/-- R19: an SRW clears the flags it writes 1 to. -/
def clearFlags (f : BitVec 6) (w : Word) : BitVec 6 := f &&& ~~~ (w.extractLsb' 0 6)

/-- R31: LVL codes. -/
def levelCode : Level → BitVec 2
  | .program => 0 | .kernel => 1 | .machine => 3

/-- R32: STATUS. -/
def AsSt.statusWord (a : AsSt) : Word :=
  ((0 : BitVec 59) ++ BitVec.ofBool a.sys.setup ++ BitVec.ofBool a.sys.esPending ++ BitVec.ofBool a.sys.esHalted
    ++ levelCode a.lvl : BitVec 64)

/-- R30: DTYPE. -/
def dieType (die : Nat) : Nat := if Config.isPDie die then 0 else if Config.isDDie die then 1 else 2

/-- R30: CAPS. -/
def capsWord (c : CellId) : Word :=
  (1 : BitVec 8) ++ BitVec.ofNat 4 c.die ++ BitVec.ofNat 6 c.num ++ BitVec.ofNat 2 (dieType c.die)
    ++ BitVec.ofNat 12 (Config.spRows c.die) ++ BitVec.ofNat 9 (Config.arrK c.die) ++ BitVec.ofNat 9 (Config.arrN c.die)
    ++ BitVec.ofNat 7 (Config.tileM c.die) ++ (0 : BitVec 7)

/-- R138: a queue status word. -/
def qstatWord (cap occ rdy : Nat) : Word :=
  (0 : BitVec 40) ++ BitVec.ofNat 8 cap ++ BitVec.ofNat 8 occ ++ BitVec.ofNat 8 rdy

/-- R138: QSTAT of a queue. -/
def State.queueStatus (s : State) (q : Queue) : Word :=
  let now := s.pkg.time.clk
  let k := s.cell.qs
  match q with
  | .q i => qstatWord Config.capQ (k.dq i).length (rdyOf now (k.dq i))
  | .y i => qstatWord Config.capQ (k.yq i).length (rdyOf now (k.yq i))
  | .lq => qstatWord Config.capLq k.lq.length (rdyOf now k.lq)
  | .bqa => qstatWord Config.capBq k.bqa.length (k.bqa.filter (·.from_ ≤ now)).length
  | .bqe => qstatWord Config.capBq k.bqe.length (k.bqe.filter (·.from_ ≤ now)).length

/-- R141: SEMRD. -/
def semWord : Sem → Word
  | .count n => n.zeroExtend 64
  | .err c => (1 <<< 16) ||| c.zeroExtend 64

/-- R149: the bitmap of semaphores not consumed. -/
def unconsumed (c : Cell) : Nat :=
  (c.sems.toList.zipIdx.map fun x => match x.1 with | .count n => if n = 0 then 0 else 2 ^ x.2 | .err _ => 2 ^ x.2).sum

/-- R149: whether some queue of the cell holds an entry, reserved ones included. -/
def Queues.anyLeft (q : Queues) : Bool :=
  q.q.toList.any (!·.isEmpty) || !q.y0.isEmpty || !q.y1.isEmpty || !q.lq.isEmpty || !q.bqa.isEmpty || !q.bqe.isEmpty

/-- R25: redundant sign bits of a mantissa; a zero counts 63. -/
def rsb (x : Word) : Nat :=
  if x = 0 then 63
  else ((List.range 63).takeWhile fun i => x.getMsbD (i + 1) = x.getMsbD 0).length

/-- R25: headroom H_r of a row. -/
def TRow.headroom (r : TRow) : Nat := r.a.foldl (fun m x => min m (rsb x)) 63

/-- R26: the row status word. -/
def rowStatus (events : BitVec 32) (r : TRow) : Word :=
  events ++ (0 : BitVec 8) ++ BitVec.ofBool r.par ++ BitVec.ofBool r.psn ++ BitVec.ofBool r.ovf ++ BitVec.ofBool r.nan
    ++ BitVec.ofBool r.fresh ++ BitVec.ofNat 7 r.headroom ++ r.e

/-! ## Access to system registers (R32) -/

/-- R32: read access at a level. -/
def sysReadable (r : SysReg) (l : Level) : Bool :=
  match r with
  | .trappc | .trapcause | .trapval | .traprep | .pwlsave | .etrappc | .etrapcause | .etrapval | .etraprep | .tvec =>
      l ≠ .program
  | _ => true

/-- R32: write access at a level. -/
def sysWritable (r : SysReg) (l : Level) : Bool :=
  match r with
  | .caps | .time | .timefr => false
  | .ctxid | .widf | .tvec | .status => l = .machine
  | .wid | .frame | .energy => l ≠ .program
  | .joinp | .acqm | .relm | .esflags => true
  | .trappc | .trapcause | .trapval | .traprep | .pwlsave | .etrappc | .etrapcause | .etrapval | .etraprep => l ≠ .program

/-- R156: the latch of a level. -/
def AsSt.latch (a : AsSt) : BitVec 16 :=
  match a.lvl with
  | .program => a.latchP
  | .kernel => a.latchK
  | .machine => a.latchM

def AsSt.setLatch (a : AsSt) (v : BitVec 16) : AsSt :=
  match a.lvl with
  | .program => { a with latchP := v }
  | .kernel => { a with latchK := v }
  | .machine => { a with latchM := v }

/-- R32, R387: the fraction of a nanosecond, in 65536ths. -/
def State.timeFrac (s : State) : BitVec 16 :=
  if s.pkg.time.set then BitVec.ofNat 16 (s.pkg.time.t3 % 3 * 65536 / 3) else 0

/-- R375: an SRR of ENERGY may leave out charges of the last 2 µs: `pick` has a bit for each. -/
def energyRead (x : CtxSt) (now pick : Nat) : BitVec 48 :=
  let y := x.settle now
  satEnergy y.energy ((y.recent.zipIdx.map fun e => if pick.testBit e.2 then 0 else e.1.2).sum)

/-- R32: the value an SRR returns. -/
def State.sysRead (s : State) (r : SysReg) : Word :=
  let x := s.cell.as.sys
  match r with
  | .caps => capsWord s.cell.id
  | .ctxid => x.ctxid
  | .widf => x.widf
  | .wid => x.wid
  | .frame => x.frame
  | .joinp => x.joinp
  | .time => BitVec.ofNat 64 s.timeNs
  | .timefr => s.cell.as.latch.zeroExtend 64
  | .energy => (energyRead (s.ctx (ctxOf x.ctxid)) s.pkg.time.t3 (Config.freeNat s.free)).zeroExtend 64
  | .acqm => x.acqm.zeroExtend 64
  | .relm => x.relm.zeroExtend 64
  | .esflags => s.cell.es.flags.zeroExtend 64
  | .trappc => x.trappc
  | .trapcause => x.trapcause
  | .trapval => x.trapval
  | .traprep => x.traprep.zeroExtend 64
  | .pwlsave => x.pwlsave
  | .etrappc => x.etrappc
  | .etrapcause => x.etrapcause
  | .etrapval => x.etrapval
  | .etraprep => x.etraprep.zeroExtend 64
  | .tvec => x.tvec
  | .status => s.cell.as.statusWord

/-- R32, R156: what else an SRR does: TIME sets the latch of its level; ENERGY uses up a free value. -/
def State.sysReadEffect (s : State) (r : SysReg) : State :=
  match r with
  | .time => s.updAs fun a => a.setLatch s.timeFrac
  | .energy => { s with free := s.free + 1 }
  | _ => s

/-- R31: the level a STATUS write selects; 0b10 is reserved and keeps the old one (R7). -/
def levelOf (old : Level) (c : BitVec 2) : Level :=
  if c = 0 then .program else if c = 1 then .kernel else if c = 3 then .machine else old

/-- R32, R156: an SRW. Reserved bits of the value are ignored (R7). -/
def State.sysWrite (s : State) (r : SysReg) (v : Word) : State :=
  match r with
  | .caps | .time | .timefr => s
  | .ctxid => s.updSys fun x => { x with ctxid := (v.extractLsb' 0 21).zeroExtend 64 }
  | .widf => s.updSys fun x => { x with widf := (v.extractLsb' 0 42).zeroExtend 64 }
  | .wid => s.updSys fun x => { x with wid := v }
  | .frame => s.updSys fun x => { x with frame := v }
  | .joinp => s.updSys fun x => { x with joinp := v }
  | .energy => s.settleStatics.updCtx (ctxOf s.cell.as.sys.ctxid) fun x => { x with energy := v.extractLsb' 0 48, recent := [] }
  | .acqm => s.updSys fun x => { x with acqm := v.extractLsb' 0 16 }
  | .relm => s.updSys fun x => { x with relm := v.extractLsb' 0 16 }
  | .esflags => s.updEs fun e => { e with flags := clearFlags e.flags v }
  | .trappc => s.updSys fun x => { x with trappc := v }
  | .trapcause => s.updSys fun x => { x with trapcause := v }
  | .trapval => s.updSys fun x => { x with trapval := v }
  | .traprep => s.updSys fun x => { x with traprep := v.extractLsb' 0 12 }
  | .pwlsave => s.updSys fun x => { x with pwlsave := v }
  | .etrappc => s.updSys fun x => { x with etrappc := v }
  | .etrapcause => s.updSys fun x => { x with etrapcause := v }
  | .etrapval => s.updSys fun x => { x with etrapval := v }
  | .etraprep => s.updSys fun x => { x with etraprep := v.extractLsb' 0 12 }
  | .tvec => s.updSys fun x => { x with tvec := v }
  | .status => s.updAs fun a => { a with
      lvl := levelOf a.lvl (v.extractLsb' 0 2)
      sys := { a.sys with esHalted := v.getLsbD 2, esPending := v.getLsbD 3, setup := v.getLsbD 4 } }

end Sys2Proof.Machine
end

