-- ==== Sys2Proof/Machine/AsArith.lean ====
section
/-! DEFINITION. AS arithmetic, logic, immediates, bit fields, compares, predicates and address arithmetic (R100 to R108). -/

namespace Sys2Proof.Machine

/-- What every meaning answers. -/
abbrev Res := Host.Outcome State Fault Refusal

/-! ## Shared forms -/

/-- R100, R102: a three-register form: the tag is the OR of the tags read. -/
def State.alu (s : State) (o : OpA) (lat : Nat) (f : Word → Word → Word) : State :=
  s.guarded o.pg fun s =>
    s.writeReg lat (.g o.d) (f (s.rg o.a).v (s.rg o.b).v) ((s.rg o.a).psn || (s.rg o.b).psn)

/-- R100: a form of one register and a computed result. -/
def State.unary (s : State) (pg : Guard) (d a : GReg) (f : Word → Word) : State :=
  s.guarded pg fun s => s.writeReg 1 (.g d) (f (s.rg a).v) (s.rg a).psn

/-- R104: LDIH reads and writes its destination. -/
def State.ldih (s : State) (o : OpLdih) (h : Nat) : State :=
  s.guarded o.pg fun s =>
    let x := s.rg o.d
    s.writeReg 1 (.g o.d) ((x.v &&& ~~~ ((0xFFFF : Word) <<< (16 * h))) ||| (o.imm.zeroExtend 64 <<< (16 * h))) x.psn

/-- R107: a predicate form. -/
def State.predOp (s : State) (o : OpPred) (f : Bool → Bool → Bool) : State :=
  s.guarded o.pg fun s =>
    s.writeReg 1 (.p o.d) ((BitVec.ofBool (f ((s.rp o.a).v ^^ o.ia) ((s.rp o.b).v ^^ o.ib))).zeroExtend 64)
      ((s.rp o.a).psn || (s.rp o.b).psn)

/-- Leading zero bits; 64 for zero (R102). -/
def leadingZeros (x : Word) : Nat := ((List.range 64).takeWhile fun i => !x.getMsbD i).length

/-- One bits (R102). -/
def oneBits (x : Word) : Nat := (List.range 64).countP fun i => x.getLsbD i

/-- R105: `len` ones. -/
def onesMask (len : Nat) : Word := BitVec.ofNat 64 (2 ^ len - 1)

/-! ## The ALU group (R102) -/

/-- R102: wrapped sum. -/
def execAdd (o : OpA) (s : State) : Res := .next (s.alu o 1 fun x y => x + y)

/-- R102: wrapped difference. -/
def execSub (o : OpA) (s : State) : Res := .next (s.alu o 1 fun x y => x - y)

/-- R102. -/
def execAnd (o : OpA) (s : State) : Res := .next (s.alu o 1 fun x y => x &&& y)

/-- R102. -/
def execOr (o : OpA) (s : State) : Res := .next (s.alu o 1 fun x y => x ||| y)

/-- R102. -/
def execXor (o : OpA) (s : State) : Res := .next (s.alu o 1 fun x y => x ^^^ y)

/-- R102: x and not y. -/
def execAndn (o : OpA) (s : State) : Res := .next (s.alu o 1 fun x y => x &&& ~~~ y)

/-- R102: the count is bits 5:0 of y. -/
def execShl (o : OpA) (s : State) : Res := .next (s.alu o 1 fun x y => x <<< (y.extractLsb' 0 6).toNat)

/-- R102. -/
def execShr (o : OpA) (s : State) : Res := .next (s.alu o 1 fun x y => x >>> (y.extractLsb' 0 6).toNat)

/-- R102: arithmetic right shift. -/
def execSar (o : OpA) (s : State) : Res := .next (s.alu o 1 fun x y => x.sshiftRight (y.extractLsb' 0 6).toNat)

/-- R102: signed minimum. -/
def execMin (o : OpA) (s : State) : Res := .next (s.alu o 1 fun x y => if x.slt y then x else y)

/-- R102: signed maximum. -/
def execMax (o : OpA) (s : State) : Res := .next (s.alu o 1 fun x y => if y.slt x then x else y)

/-- R102: unsigned minimum. -/
def execMinn (o : OpA) (s : State) : Res := .next (s.alu o 1 fun x y => if x.ult y then x else y)

/-- R102: unsigned maximum. -/
def execMaxn (o : OpA) (s : State) : Res := .next (s.alu o 1 fun x y => if y.ult x then x else y)

/-- R102: leading zeros. -/
def execClz (o : OpUn) (s : State) : Res := .next (s.unary o.pg o.d o.a fun x => BitVec.ofNat 64 (leadingZeros x))

/-- R102: one bits. -/
def execPopc (o : OpUn) (s : State) : Res := .next (s.unary o.pg o.d o.a fun x => BitVec.ofNat 64 (oneBits x))

/-- R102: low 64 bits of the product. -/
def execMul (o : OpA) (s : State) : Res := .next (s.alu o 3 fun x y => x * y)

/-- R102: high half of the signed product. -/
def execMulh (o : OpA) (s : State) : Res := .next (s.alu o 3 fun x y => (x.signExtend 128 * y.signExtend 128).extractLsb' 64 64)

/-- R102: high half of the unsigned product. -/
def execMulhn (o : OpA) (s : State) : Res := .next (s.alu o 3 fun x y => (x.zeroExtend 128 * y.zeroExtend 128).extractLsb' 64 64)

/-- R102: quotient rounded toward zero; all ones when y is 0. -/
def execDiv (o : OpA) (s : State) : Res := .next (s.alu o 14 fun x y => if y = 0 then BitVec.allOnes 64 else x.sdiv y)

/-- R102. -/
def execDivn (o : OpA) (s : State) : Res := .next (s.alu o 14 fun x y => if y = 0 then BitVec.allOnes 64 else x / y)

/-- R102: the remainder takes the sign of the dividend; x when y is 0. -/
def execRem (o : OpA) (s : State) : Res := .next (s.alu o 14 fun x y => if y = 0 then x else x.srem y)

/-- R102. -/
def execRemn (o : OpA) (s : State) : Res := .next (s.alu o 14 fun x y => if y = 0 then x else x % y)

/-- R102: SEL reads its selecting predicate, whose tag counts. -/
def execSel (o : OpSel) (s : State) : Res :=
  .next (s.guarded o.pg fun s =>
    s.writeReg 1 (.g o.d) (if (s.rp o.sel).v then (s.rg o.a).v else (s.rg o.b).v)
      ((s.rg o.a).psn || (s.rg o.b).psn || (s.rp o.sel).psn))

/-! ## Immediates (R103, R104) -/

/-- R103. -/
def execAddi (o : OpI) (s : State) : Res := .next (s.unary o.pg o.d o.a fun x => x + o.imm.signExtend 64)

/-- R103. -/
def execAndi (o : OpI) (s : State) : Res := .next (s.unary o.pg o.d o.a fun x => x &&& o.imm.signExtend 64)

/-- R103. -/
def execOri (o : OpI) (s : State) : Res := .next (s.unary o.pg o.d o.a fun x => x ||| o.imm.signExtend 64)

/-- R103. -/
def execXori (o : OpI) (s : State) : Res := .next (s.unary o.pg o.d o.a fun x => x ^^^ o.imm.signExtend 64)

/-- R103. -/
def execShli (o : OpSh) (s : State) : Res := .next (s.unary o.pg o.d o.a fun x => x <<< o.k.toNat)

/-- R103. -/
def execShri (o : OpSh) (s : State) : Res := .next (s.unary o.pg o.d o.a fun x => x >>> o.k.toNat)

/-- R103. -/
def execSari (o : OpSh) (s : State) : Res := .next (s.unary o.pg o.d o.a fun x => x.sshiftRight o.k.toNat)

/-- R104: the sign-extended 17-bit immediate. -/
def execLdi (o : OpLdi) (s : State) : Res :=
  .next (s.guarded o.pg fun s => s.writeReg 1 (.g o.d) (o.imm.signExtend 64) false)

/-- R104: bits 31:16. -/
def execLdih1 (o : OpLdih) (s : State) : Res := .next (s.ldih o 1)

/-- R104: bits 47:32. -/
def execLdih2 (o : OpLdih) (s : State) : Res := .next (s.ldih o 2)

/-- R104: bits 63:48. -/
def execLdih3 (o : OpLdih) (s : State) : Res := .next (s.ldih o 3)

/-! ## Bit fields (R105) -/

/-- R105. -/
def execBext (o : OpBit) (s : State) : Res :=
  .next (s.unary o.pg o.d o.a fun x => (x >>> o.pos.toNat) &&& onesMask (o.len1.toNat + 1))

/-- R105: BINS reads its destination. -/
def execBins (o : OpBit) (s : State) : Res :=
  .next (s.guarded o.pg fun s =>
    let m := onesMask (o.len1.toNat + 1)
    let v := ((s.rg o.d).v &&& ~~~ (m <<< o.pos.toNat)) ||| (((s.rg o.a).v &&& m) <<< o.pos.toNat)
    s.writeReg 1 (.g o.d) v ((s.rg o.d).psn || (s.rg o.a).psn))

/-! ## Compares and predicates (R106, R107) -/

/-- R106. -/
def execCmp (o : OpCmp) (s : State) : Res :=
  .next (s.guarded o.pg fun s =>
    s.writeReg 1 (.p o.d) ((BitVec.ofBool (condHolds o.cond (s.rg o.a).v (s.rg o.b).v)).zeroExtend 64)
      ((s.rg o.a).psn || (s.rg o.b).psn))

/-- R106: the 9-bit immediate is sign-extended, for unsigned conditions too. -/
def execCmpi (o : OpCmpi) (s : State) : Res :=
  .next (s.guarded o.pg fun s =>
    s.writeReg 1 (.p o.d) ((BitVec.ofBool (condHolds o.cond (s.rg o.a).v (o.imm.signExtend 64))).zeroExtend 64) (s.rg o.a).psn)

/-- R107. -/
def execPand (o : OpPred) (s : State) : Res := .next (s.predOp o fun x y => x && y)

/-- R107. -/
def execPor (o : OpPred) (s : State) : Res := .next (s.predOp o fun x y => x || y)

/-- R107. -/
def execPxor (o : OpPred) (s : State) : Res := .next (s.predOp o fun x y => x ^^ y)

/-! ## Segment addresses (R108) -/

/-- R108: bits 63:58 of the operand are replaced. -/
def execSega (o : OpSega) (s : State) : Res :=
  .next (s.unary o.pg o.d o.a fun x => o.seg ++ x.extractLsb' 0 58)

/-- R108: the offset wraps within 58 bits. -/
def execAdr2 (o : OpAdr2) (s : State) : Res :=
  .next (s.guarded o.pg fun s =>
    let x := (s.rg o.a).v
    let y := (s.rg o.b).v
    s.writeReg 1 (.g o.d) (x.extractLsb' 58 6 ++ (x.extractLsb' 0 58 + (y <<< o.k.toNat).extractLsb' 0 58))
      ((s.rg o.a).psn || (s.rg o.b).psn))

end Sys2Proof.Machine
end

