-- ==== Sys2Proof/Machine/AsMemory.lean ====
section
/-! DEFINITION. AS memory instructions (R109 to R127): scratchpad, queued loads, stores, cache and TLB maintenance, atomics, SC
operations, fences. -/

namespace Sys2Proof.Machine

/-! ## Shared forms -/

/-- R111: a scratchpad access waits for the accesses of its class ahead of it, then performs in the cycle it issues (R258). -/
def State.spadAccess (s : State) (n : Need) (base : Word) (off : BitVec 8) (cls : Cls) (go : State → Place → State) : State :=
  match s.asAccess n base off with
  | (t, .error c) => t.trap c (eaOf base off)
  | (t, .ok p) => if s.cell.classFree cls then go t p else s

/-- R113: a queued load: it blocks while its queue is full, reserves an entry and joins the operations in flight. -/
def State.queuedLoad (s : State) (q : LQueue) (base : Word) (off : BitVec 8) (cls : Cls) (acq : Option (BitVec 16)) : State :=
  if s.qFull q then s
  else
    s.checkOrDelay needLinR base off fun s p =>
      let k := match q with | .q i => MKind.load (some i) | .lq => .load none
      ((s.addOp k cls .cell (eaOf base off) p acq none).reserve q s.cell.mseq).retire

/-- R116: a store of a value joins the operations in flight. -/
def State.queuedStore (s : State) (v : TW) (base : Word) (off : BitVec 8) (cls : Cls) (rel : Option (BitVec 16)) : State :=
  s.checkOrDelay needLinW base off fun s p =>
    (s.addOp (.store v.v v.psn) cls .cell (eaOf base off) p none rel).retire

/-- R123: an atomic reserves its lq entry and joins the operations in flight. -/
def State.atomic (s : State) (k : MKind) (a : Word) (scope : Scope) (cls : Cls) : State :=
  if s.qFull .lq then s
  else
    s.checkOrDelay needLinRW a 0 fun s p =>
      ((s.addOp k cls scope (eaOf a 0) p none none).reserve .lq s.cell.mseq).retire

/-- R121: CWB and CINV complete asynchronously. -/
def State.writebackOp (s : State) (o : OpHint) (inv : Bool) : State :=
  s.guarded o.pg fun s => s.clean o.base fun a =>
    s.checkOrDelay needLinR a o.off fun s p =>
      (s.addOp (.writeback inv o.kind) o.cls .cell (eaOf a o.off) p none none).retire

/-! ## Scratchpad (R111) -/

/-- R111: the word lands after 4 ticks; its tag follows its marker. -/
def execLds (o : OpMem) (s : State) : Res :=
  .next (s.guarded o.pg fun s => s.clean o.base fun a =>
    s.spadAccess needSpadR a o.off o.cls fun s p =>
      let r := s.readW (s.cell.who 0) p (eaOf a o.off)
      let r := r.1.loadVal r.2
      r.1.writeReg 4 (.g o.d) r.2.v r.2.psn)

/-- R111, R118, R265: the store is applied when it issues; a tagged value sets the word's marker. -/
def execSts (o : OpMem) (s : State) : Res :=
  .next (s.guarded o.pg fun s => s.clean o.base fun a => s.afterChecks fun s =>
    s.spadAccess needSpadW a o.off o.cls fun s p =>
      (s.updMem fun m => m.putNow p.wkey (s.rg o.d).v 0xFF (s.rg o.d).psn).retire)

/-! ## Loads into queues (R113, R114, R126) -/

/-- R113. -/
def execLdq (o : OpMemQ) (s : State) : Res :=
  .next (s.guarded o.pg fun s => s.clean o.base fun a => s.queuedLoad o.q a o.off o.cls none)

/-- R114: a failing check, or a tagged base, pushes a tagged entry whose value is the effective address. -/
def execLdx (o : OpMemQ) (s : State) : Res :=
  .next (s.guarded o.pg fun s => s.afterChecks fun s =>
    let a := s.rg o.base
    if s.qFull o.q then s
    else
      let deferred := fun (s : State) =>
        (s.updQs fun k => k.setLqOf o.q (k.lqOf o.q ++ [⟨eaOf a.v o.off, true, true, s.pkg.time.clk, s.cell.mseq⟩])).retire
      if a.psn then deferred s
      else
        match s.asAccess needLinR a.v o.off with
        | (s, .error _) => deferred s
        | (s, .ok p) =>
          let k := match o.q with | .q i => MKind.load (some i) | .lq => .load none
          ((s.addOp k o.cls .cell (eaOf a.v o.off) (some p) none none).reserve o.q s.cell.mseq).retire)

/-- R126: an acquire load: later accesses in the classes of ACQM, and in its own, come after it. -/
def execLdqAcq (o : OpMemQ) (s : State) : Res :=
  .next (s.guarded o.pg fun s => s.clean o.base fun a => s.queuedLoad o.q a o.off o.cls (some s.cell.as.sys.acqm))

/-! ## Stores (R116, R126) -/

/-- R116. -/
def execSt (o : OpMem) (s : State) : Res :=
  .next (s.guarded o.pg fun s => s.clean o.base fun a => s.queuedStore (s.rg o.d) a o.off o.cls none)

/-- R126: a release store comes after earlier accesses in the classes of RELM. -/
def execStRel (o : OpMem) (s : State) : Res :=
  .next (s.guarded o.pg fun s => s.clean o.base fun a => s.queuedStore (s.rg o.d) a o.off o.cls (some s.cell.as.sys.relm))

/-- R116, R265: STQ pops y0 or y1 when it issues, and blocks while the queue is empty. Its checks come before that wait, where a queued
load makes them after the wait for an entry (log 54). -/
def execStq (o : OpStq) (s : State) : Res :=
  .next (s.guarded o.pg fun s => s.clean o.base fun a => s.afterChecks fun s =>
    match s.asAccess needLinW a o.off with
    | (t, .error c) => t.trap c (eaOf a o.off)
    | (t, .ok p) =>
      match popHead s.pkg.time.clk (s.cell.qs.yq o.y) with
      | none => s
      | some (e, r) =>
        ((t.updQs fun k => k.setYq o.y r).addOp (.store e.v e.psn) o.cls .cell (eaOf a o.off) (some p) none none).retire)

/-! ## Cache and TLB maintenance (R120 to R122) -/

/-- R284: a prefetch needs a bound frame and UNS clear: its walk must change nothing but A. -/
def State.prefetchOk (s : State) (seg : Nat) (e : SegEnt) (off : Nat) : Bool :=
  if e.pageable then
    let cx := s.cx 0 .as
    match (s.walkDown cx.who (mkAddr seg off) (e.base + off) [4, 3, 2, 1] ⟨1, 0, 0, 0, 2, false⟩ (if e.d3 = 0 then cx.root else e.d3)).2 with
    | none => false
    | some (_, lf) => !lf.getLsbD 49 && (leafLoc lf ≥ 3 || (s.mem.boundTo (leafLoc lf) (leafDie lf) (leafFrame lf)).isSome)
  else
    let x := flatXl s.cell.id e off (keyOf s.cell.as.sys.ctxid)
    x.place.loc ≥ 3 || [x.place, x.place.plus 7].all fun p => (s.mem.boundTo p.loc p.die (p.addr / 65536)).isSome

/-- R120: fetch the line with allocation, into L1 or into die SRAM; do nothing when a check would fail. A line whose home holds an error is
left for the access that reads it (log 52). -/
def State.prefetch (s : State) (a : TW) (off : BitVec 8) (sram : Bool) : State :=
  let o := offOf a.v off
  if a.psn || o < 0 || o ≥ 2 ^ 58 || o % 8 ≠ 0 then s
  else
    match segCheck s.cell needLinR (segNo a.v) o.toNat 8 with
    | .error _ => s
    | .ok e =>
      if !s.prefetchOk (segNo a.v) e o.toNat then s
      else
        match s.xlCheck needLinR (segNo a.v) o.toNat e with
        | (_, .error _) => s
        | (t, .ok p) =>
          if t.mem.homeBad (l1Of t.cell p.line) p then t
          else if sram then t.touchSram (t.cell.who 0) t.cell p
          else t.touchLine (t.cell.who 0) t.cell { p with cpol := 0 }

/-- R120: PF takes its tick and changes no visible value. -/
def execPf (o : OpHint) (s : State) : Res := .next (s.guarded o.pg fun s => (s.prefetch (s.rg o.base) o.off o.kind).retire)

/-- R121. -/
def execCwb (o : OpHint) (s : State) : Res := .next (s.writebackOp o false)

/-- R121. -/
def execCinv (o : OpHint) (s : State) : Res := .next (s.writebackOp o true)

/-- R115: CHK of a tagged register traps with its value. -/
def execChk (o : OpR) (s : State) : Res := .next (s.guarded o.pg fun s => s.clean o.a fun _ => s.retire)

/-- R115: CHK of a tagged predicate traps with 0. -/
def execChkPred (o : OpP) (s : State) : Res :=
  .next (s.guarded o.pg fun s => if (s.rp o.a).psn then s.trap cPoison 0 else s.retire)

/-- R122: which translations of a cell go: the page, the segment, or all. -/
def tlbKeep (kind : TlbiKind) (seg page : Nat) (e : TlbEnt) : Bool :=
  match kind with
  | .page => !(e.seg = seg && e.page = page)
  | .segment => e.seg ≠ seg
  | .all => false

/-- R122: drop the translations of one cell's AS and engines. -/
def Cell.tlbDrop (c : Cell) (keep : TlbEnt → Bool) : Cell :=
  { c with
    tlb := c.tlb.filter keep, tlbMx := c.tlbMx.filter keep, tlbCe0 := c.tlbCe0.filter keep
    tlbCe1 := c.tlbCe1.filter keep, tlbXe := c.tlbXe.filter keep }

/-- R286: an operation in flight uses a translation that goes. -/
def MOp.uses (o : MOp) (segs : List SegEnt) (keep : TlbEnt → Bool) : Bool :=
  o.place.isSome && (match o.kind with | .signal _ => false | _ => true)
    && match segAt segs (segNo o.addr) with
       | some e => e.pageable && !keep ⟨segNo o.addr, (e.base + (o.addr.extractLsb' 0 58).toNat) / 65536, 0⟩
       | none => false

/-- R286: a command whose unit in progress uses a translation that goes must have moved on by a time. -/
def Cmd.tlbDue (c : Cmd) (keep : TlbEnt → Bool) (t : Nat) : Cmd := if c.due.isNone && c.xl.any (!keep ·) then { c with due := some t } else c

def EngSt.tlbDue (x : EngSt) (keep : TlbEnt → Bool) (t : Nat) : EngSt := { x with cur := x.cur.map fun c => c.tlbDue keep t }

/-- R286: the accesses of a cell that use translations that go must be over by a time. -/
def Cell.tlbDue (c : Cell) (keep : TlbEnt → Bool) (t : Nat) : Cell :=
  { c with
    mops := c.mops.map fun o => if o.due.isNone && o.uses c.segs keep then { o with due := some t } else o
    mx := c.mx.tlbDue keep t, ce0 := c.ce0.tlbDue keep t, ce1 := c.ce1.tlbDue keep t, xe := c.xe.tlbDue keep t
    hub := { c.hub with cmds := c.hub.cmds.map fun x => x.tlbDue keep t } }

/-- R286: a write-back under way uses a translation that goes. -/
def Wback.uses (w : Wback) (segs : List SegEnt) (keep : TlbEnt → Bool) : Bool :=
  match segAt segs (segNo w.addr) with
  | some e => e.pageable && !keep ⟨segNo w.addr, (e.base + (w.addr.extractLsb' 0 58).toNat) / 65536, 0⟩
  | none => false

/-- R286: the write-backs of a cell that use translations that go must be over by a time. -/
def MemSt.wbacksDue (m : MemSt) (c : Cell) (keep : TlbEnt → Bool) (t : Nat) : MemSt :=
  { m with wbacks := m.wbacks.map fun w => if w.cell = c.id && w.due.isNone && w.uses c.segs keep then { w with due := some t } else w }

/-- R122, R286: TLBs of the cells of the scope that run this context; system acts as package, and starts a translation drain. -/
def State.tlbInvalidate (s : State) (scope : Scope) (keep : TlbEnt → Bool) : State :=
  let me := s.cell.id
  let ctx := ctxOf s.cell.as.sys.ctxid
  let reach := min 3 (scopeReach scope)
  let hit := fun (c : Cell) => sameUnit reach c.id me && ctxOf c.as.sys.ctxid = ctx
  let due := s.pkg.time.t3 + writeBound
  let drop := fun (c : Cell) => (if reach = 3 then c.tlbDue keep due else c).tlbDrop keep
  let mem := if reach = 3 then (s.cell :: s.parked.filter hit).foldl (fun m c => m.wbacksDue c keep due) s.mem else s.mem
  { s with cell := drop s.cell, parked := s.parked.map fun c => if hit c then drop c else c, mem := mem }

/-- R122: privileged; a tagged operand traps; the translations are gone when it issues. Of R109's checks it makes check 1 only, and an
invalid segment counts as one of base 0: R110 gives it no kind and it accesses no word (log 54). -/
def execTlbi (o : OpTlbi) (s : State) : Res :=
  .next (s.atKernel (.tlbi o) fun s => s.guarded o.pg fun s => s.clean o.a fun a => s.afterChecks fun s =>
    let base := match segAt s.cell.segs (segNo a) with | some e => e.base | none => 0
    (s.tlbInvalidate o.scope (tlbKeep o.kind (segNo a) ((base + (a.extractLsb' 0 58).toNat) / 65536))).retire)

/-! ## Atomics (R123) -/

/-- R109 check 1: address, then data. -/
def execAmo (o : OpAmo) (s : State) : Res :=
  .next (s.guarded o.pg fun s => s.clean o.a fun a => s.clean o.b fun v => s.atomic (.amo o.op v) a o.scope o.cls)

/-- R109 check 1: address, compare value, new value. -/
def execCas (o : OpCas) (s : State) : Res :=
  .next (s.guarded o.pg fun s => s.clean o.a fun a => s.clean o.b fun c => s.clean o.d fun v =>
    s.atomic (.cas c v) a o.scope o.cls)

/-! ## Sequentially consistent operations (R124, R269, R270) -/

/-- R269: this position is the cell's, and no other SC operation of the cell has taken it. -/
def State.scHere (s : State) : Bool :=
  match s.wheelPos with
  | some w => s.wheelOwned.contains w && s.cell.lastSc ≠ some (s.pkg.time.t3 / 5)
  | none => false

/-- R124, R269: an SC operation is able to issue but for its position: every earlier access of the class has performed at package scope,
and nothing holds it. -/
def State.scFree (s : State) (cls : Cls) : Bool :=
  s.cell.snaps.isEmpty && s.cell.classFree cls && !s.mem.owes s.cell.id s.cell.mseq ((1 : BitVec 16) <<< cls.toNat) 3

/-- R124, R269: an SC operation may take this position. -/
def State.scReady (s : State) (cls : Cls) : Bool := s.scHere && s.scFree cls

/-- R266: a release of the AS finds every write it sees performed at package scope. -/
def State.seenAll (s : State) : Bool := !s.mem.writes.any fun w => sameUnit w.reach w.cell s.cell.id && w.reach < 3

/-- R124, R269: the checks of an SC operation, then its position; a full lq holds it. The wheel cause is tested after check 1 of R109
and the wait for lq, and before checks 2 to 11 (log 54). -/
def State.scOp (s : State) (n : Need) (a : Word) (cls : Cls) (release : Bool) (go : State → Place → State) : State :=
  if s.qFull .lq then s
  else if s.wheelOwned.isEmpty then s.trap cWheel 0
  else
    match s.asAccess n a 0 with
    | (t, .error c) => t.trap c (eaOf a 0)
    | (t, .ok p) =>
      if s.scReady cls && (!release || s.seenAll) then
        go (t.updFocus fun c => { c with lastSc := some (s.pkg.time.t3 / 5) }) p
      else s

/-- A result that arrives in lq at once (R124). -/
def State.pushLq (s : State) (x : TW) : State :=
  s.updQs fun k => { k with lq := k.lq ++ [⟨x.v, x.psn, true, s.pkg.time.clk, s.cell.mseq⟩] }

/-- R124: acts as LDQ into lq at its position. -/
def execScld (o : OpScld) (s : State) : Res :=
  .next (s.guarded o.pg fun s => s.clean o.a fun a =>
    s.scOp needLinR a o.cls false fun s p =>
      let s := s.passLine (s.cell.who 0) s.cell p (eaOf a 0)
      let r := s.readW (s.cell.who 0) p (eaOf a 0)
      let r := r.1.loadVal r.2
      (r.1.pushLq r.2).nextSeq.retire)

/-- R124, R270: acts as ST; its write performs at package scope at its position. -/
def execScst (o : OpScst) (s : State) : Res :=
  .next (s.guarded o.pg fun s => s.clean o.a fun a =>
    s.scOp needLinW a o.cls true fun s p =>
      let s := s.touchStore (s.cell.who 0) s.cell p
      (s.writeAtW s.cell.mseq o.cls s.pkg.time.t3 p (s.rg o.b).v (s.rg o.b).psn 3).nextSeq.retire)

/-- R124, R262, R270: acts as AMO at its position; what agents of the package have written to the word before performs first. -/
def execScamo (o : OpAmo) (s : State) : Res :=
  .next (s.guarded o.pg fun s => s.clean o.a fun a => s.clean o.b fun v =>
    s.scOp needLinRW a o.cls true fun s p =>
      let s := s.passLine (s.cell.who 0) s.cell p (eaOf a 0)
      let s := s.updMem fun m => m.drawIn s.cell.id p.wkey 3
      let r := s.rmw s.cell.mseq o.cls .package s.pkg.time.t3 (eaOf a 0) p fun old => some (amoResult o.op old v)
      (r.1.pushLq r.2).nextSeq.retire)

/-! ## Fences (R125) -/

/-- R125: blocks until every earlier access in the mask has performed at the scope. -/
def execFence (o : OpFence) (s : State) : Res :=
  .next (s.guarded o.pg fun s => s.afterChecks fun s => if s.fenceOpen o.mask (scopeReach o.scope) then s else s.retire)

end Sys2Proof.Machine
end

