-- ==== Sys2Proof/Machine/Launch.lean ====
section
/-! DEFINITION. Operators and their records: enumeration (R311), placement (R308, R313), retirement and completion (R309, R316). -/

namespace Sys2Proof.Machine

/-! ## Enumerating work (R311) -/

/-- R34: width of field k, 1 to 6. -/
def widthOf (w : BitVec 42) (k : Nat) : Nat := (w.extractLsb' (7 * (k - 1)) 7).toNat

/-- The highest field with a nonzero width, or 0. -/
def topField (w : BitVec 42) : Nat := ((List.range 7).filter fun k => k ≠ 0 && widthOf w k ≠ 0).foldl max 0

/-- Offset of field k. -/
def fieldOff (w : BitVec 42) (k : Nat) : Nat := ((List.range (k - 1)).map fun j => widthOf w (j + 1)).sum

/-- Bits of `d` at even positions, `m` of them. -/
def evenBits (d m : Nat) : Nat := ((List.range m).map fun i => if d.testBit (2 * i) then 2 ^ i else 0).sum

/-- R311: the hilbert function, from step size 1 up, `n` doublings left. -/
def hilbertGo (n s t x y : Nat) : Nat × Nat :=
  match n with
  | 0 => (x, y)
  | n + 1 =>
    let rx := t / 2 % 2
    let ry := (t + rx) % 2
    let (x, y) := if ry = 0 then (if rx = 1 then (s - 1 - y, s - 1 - x) else (y, x)) else (x, y)
    hilbertGo n (s * 2) (t / 4) (x + s * rx) (y + s * ry)

/-- The smallest m with 2^m at least n. -/
def ceilLog2 (n : Nat) : Nat := if n ≤ 1 then 0 else Nat.log2 (n - 1) + 1

/-- How many pair indices an order runs through. -/
def pairCount (order u nb : Nat) : Nat := if order < 2 then u * nb else 4 ^ ceilLog2 (max u nb)

/-- R311: pair (u, b) of an index; none when the order skips it. -/
def pairAt (order u nb d : Nat) : Option (Nat × Nat) :=
  match order with
  | 0 => if d < u * nb then some (d / nb, d % nb) else none
  | 1 => if d < u * nb then some (d % u, d / u) else none
  | o =>
    let m := ceilLog2 (max u nb)
    let (b, x) := if o = 2 then (evenBits d m, evenBits (d / 2) m) else hilbertGo m 1 d 0 0
    if d < 4 ^ m && x < u && b < nb then some (x, b) else none

/-- The first pair at or after index `d`, looking at no more than `fuel` of them. -/
def findPair (order u nb : Nat) : Nat → Nat → Option (Nat × Nat × Nat)
  | 0, _ => none
  | n + 1, d => match pairAt order u nb d with | some (x, b) => some (d, x, b) | none => findPair order u nb n (d + 1)

/-- The numbers an enumeration needs: n, Na, Nb, band width, band count, inner count. -/
structure EnumDim where
  n : Nat
  na : Nat
  nb : Nat
  s : Nat
  u : Nat
  inner : Nat
deriving DecidableEq, Repr, Inhabited

def enumDim (w : BitVec 42) (swz : Nat) : EnumDim :=
  let n := topField w
  let na := 2 ^ widthOf w n
  let s := 2 ^ swz
  ⟨n, na, if 2 ≤ n then 2 ^ widthOf w (n - 1) else 1, s, (na + s - 1) / s, 2 ^ fieldOff w (n - 1)⟩

/-- R311: the cursor at the first WID. -/
def enumFirst (w : BitVec 42) (order swz : Nat) : Cursor :=
  let e := enumDim w swz
  if e.n = 0 then ⟨0, 0, 0, false⟩
  else
    match findPair order e.u e.nb (pairCount order e.u e.nb) 0 with
    | some (d, u, _) => ⟨d, e.s * u, 0, false⟩
    | none => ⟨0, 0, 0, true⟩

/-- R311: the WID at a cursor. -/
def enumWid (w : BitVec 42) (order swz : Nat) (c : Cursor) : Word :=
  let e := enumDim w swz
  if e.n = 0 then 0
  else
    let b := match pairAt order e.u e.nb c.d with | some (_, b) => b | none => 0
    BitVec.ofNat 64 (c.a * 2 ^ fieldOff w e.n + (if 2 ≤ e.n then b * 2 ^ fieldOff w (e.n - 1) else 0) + c.f)

/-- R311: the cursor after a WID. -/
def enumNext (w : BitVec 42) (order swz : Nat) (c : Cursor) : Cursor :=
  let e := enumDim w swz
  if e.n = 0 then { c with fin := true }
  else if 2 ≤ e.n && c.f + 1 < e.inner then { c with f := c.f + 1 }
  else
    let u := match pairAt order e.u e.nb c.d with | some (u, _) => u | none => 0
    if c.a + 1 < min (e.s * u + e.s) e.na then { c with a := c.a + 1, f := 0 }
    else
      match findPair order e.u e.nb (pairCount order e.u e.nb - (c.d + 1)) (c.d + 1) with
      | some (d, u, _) => ⟨d, e.s * u, 0, false⟩
      | none => { c with fin := true }

/-! ## Operators (R308, R309) -/

/-- The operator in progress. -/
def Launch.oper (l : Launch) : Option Oper := l.ops[l.op]?

/-- R308, R316: the operator's records may be dispatched. -/
def Launch.ready (l : Launch) : Bool := !l.stopped && !l.saved

/-- R308, R313: the enumerator of the operator in progress has a WID to yield. -/
def Launch.hasWid (l : Launch) : Bool :=
  l.ready && !l.cur.fin && match l.oper with | some o => o.enum | none => false

/-- R308, R313: the record of an ENUM = 0 operator is placed once a slot is free; a standing pre-emption starts no operator (R316). -/
def State.placeSingle (s : State) (l : Launch) : State :=
  match l.oper with
  | none => s
  | some o =>
    if o.enum || l.placed || !l.ready || (s.part l.part).preempt || s.fifoFull l.part l.prio then s
    else
      (s.enqueueRec l.part l.prio ⟨o.code, l.frameb, 0, 0, l.id, l.op, s.pkg.time.t3, none, 0, false⟩).updLaunch l.id fun l =>
        { l with placed := true }

/-- Place every record that waits for a slot in a partition. -/
def State.placeSingles (s : State) (part : Nat) : State :=
  (s.pkg.launches.filter (·.part = part)).foldl State.placeSingle s

/-- R309: every record of the operator in progress has retired. -/
def Launch.opDone (l : Launch) : Bool :=
  l.live = 0 && match l.oper with | some o => (if o.enum then l.cur.fin else l.placed) | none => true

/-- R304: writes of a partition's cells that have not performed everywhere. -/
def State.partWrites (s : State) (part : Nat) : List Nat :=
  (s.mem.writes.filter fun w => (s.part part).has w.cell).map (·.id)

/-- R331, R342: a launch of a stream carries the attempt it belongs to and whether it is a decode step. -/
def Stream.tag (x : Stream) (step : Bool) : Nat := 2 * x.attempts + (if step then 1 else 0)

/-- R303, R304, R331, R332: a launch completes: it leaves, and its entry counts as completed. A stream's prefill raises pdone; a decode step
is left to DECODE_STEP_COMPLETION, which reads its control word. A launch of an attempt that was lost is only counted. -/
def State.launchDone (s : State) (l : Launch) : State :=
  let s := s.updPkg fun p => { p with launches := p.launches.filter (·.id ≠ l.id) }
  match l.src with
  | .queue c q => (s.updCq c q.toNat fun x => x.markDone l.idx (s.partWrites l.part)).startFences c q.toNat
  | .stream n =>
    match s.findStream n with
    | some x =>
      if l.idx % 2 = 1 then s.updPkg fun p => { p with streams := p.streams.map fun y =>
        if y.n = n then { y with steps := y.steps ++ [decide (l.idx = x.tag true)] } else y }
      else if l.idx = x.tag false then s.streamOn n .pdone
      else s
    | none => s

/-- R308, R309, R316: at an operator boundary the next operator becomes dispatchable, unless a pre-emption stands; after the last
one the launch completes. -/
def State.boundary (s : State) (id : Nat) : State :=
  match s.findLaunch id with
  | none => s
  | some l =>
    if !l.opDone then s
    else if l.op + 1 < l.ops.length then
      let stop := (s.part l.part).preempt
      let s := s.updLaunch id fun l => { l with
        op := l.op + 1, placed := false, cur := enumFirst l.widths l.order l.swz, began := none, yielded := s.pkg.time.t3
        boost := 0, stopped := stop, paused := 0 }
      match s.findLaunch id with
      | some l => s.placeSingle l
      | none => s
    else s.launchDone l

/-- R149, R309: the running record of the focused cell retires. -/
def State.retireRecord (s : State) : State :=
  match s.cell.recd with
  | none => s.updAs fun a => { a with run := .idle }
  | some r =>
    let s := s.updFocus fun c => { c with
      recd := none, lastOp := some (r.launch, r.op), as := { c.as with run := .idle, exitTested := false } }
    (s.updLaunch r.launch fun l => { l with live := l.live - 1 }).boundary r.launch

end Sys2Proof.Machine
end

