-- ==== Sys2Proof/Machine/AsControl.lean ====
section
/-! DEFINITION. AS control: branch targets, branches, calls, loops, branch-outcome queues, REP, NOP (R128 to R136, R157). -/

namespace Sys2Proof.Machine

/-- R128: an address a number of words away, in the segment it starts from. -/
def wordsFrom (a : Word) (d : Word) : Word := a.extractLsb' 58 6 ++ (a + d * 4).extractLsb' 0 58

/-- R128: the word and register forms write a target register after 1 tick, and check nothing. -/
def execPbr (o : OpPbr) (s : State) : Res :=
  .next (s.guarded o.pg fun s => s.writeReg 1 (.t o.t) (wordsFrom s.core.pc (o.imm.signExtend 64)) false)

/-- R128. -/
def execPbrReg (o : OpPbrR) (s : State) : Res :=
  .next (s.guarded o.pg fun s => s.clean o.a fun a => s.writeReg 1 (.t o.t) a false)

/-- R129: the target checks, made at the branch. -/
def State.target (s : State) (t : TReg) (go : Word → State) : State :=
  let x := s.core.rt t
  if !x.valid then s.trap cTarget (t.zeroExtend 64)
  else if !inSection s.cell.asbase s.cell.assize x.addr then s.trap cFetch x.addr
  else go x.addr

/-- R129. -/
def execBr (o : OpT) (s : State) : Res := .next (s.guarded o.pg fun s => s.target o.t fun x => s.jump x)

/-- R131, R265: BRQ checks its target, then waits for a bit of bqe, pops it and branches on 1. -/
def execBrq (o : OpT) (s : State) : Res :=
  .next (s.guarded o.pg fun s => s.target o.t fun x => s.afterChecks fun s =>
    match s.cell.qs.bqe with
    | b :: r =>
      if b.from_ ≤ s.pkg.time.clk then
        let s := s.updQs fun k => { k with bqe := r }
        if b.v then s.jump x else s.retire
      else s
    | [] => s)

/-- R131, R265: BQP pushes a predicate into bqa and blocks while it is full. -/
def execBqp (o : OpP) (s : State) : Res :=
  .next (s.guarded o.pg fun s =>
    if (s.rp o.a).psn then s.trap cPoison 0
    else s.afterChecks fun s =>
      if Config.capBq ≤ s.cell.qs.bqa.length then s
      else (s.updQs fun k => { k with bqa := k.bqa ++ [⟨(s.rp o.a).v, s.ready⟩] }).retire)

/-- R132: CALL writes g31 after its checks. -/
def execCall (o : OpT) (s : State) : Res :=
  .next (s.guarded o.pg fun s => s.target o.t fun x => (s.pushWr 1 (.g 31) (s.core.pc + 4) false).jump x)

/-- R132: RET transfers to a register. -/
def execRet (o : OpR) (s : State) : Res :=
  .next (s.guarded o.pg fun s => s.clean o.a fun a =>
    if inSection s.cell.asbase s.cell.assize a then s.jump a else s.trap cFetch a)

/-- R133: LOOP checks its target even when it falls through. -/
def execLoop (o : OpLoop) (s : State) : Res :=
  .next (s.guarded o.pg fun s => s.clean o.a fun a => s.target o.t fun x =>
    let c := a - 1
    let s := s.pushWr 1 (.g o.a) c false
    if c = 0 then s.retire else s.jump x)

/-- R157. -/
def execNop (o : OpG) (s : State) : Res := .next (s.guarded o.pg fun s => s.retire)

/-- R86, R134, R135: REP takes no tick: it checks the word after it and starts the repetitions; a trap at it is one before
repetition 0. -/
def execRep (o : OpRep) (s : State) : Res :=
  .next (match s.fetchWord 0 s.cell.asbase s.cell.assize (s.core.pc + 4) with
    | (t, none) => (t.setCore { t.core with rep := some (repStart o) }).trap cFetch (s.core.pc + 4)
    | (t, some w) =>
      let t := t.setCore { t.core with rep := some (repStart o) }
      match decodeAs w with
      | .error _ => t.trap cIllegal (w.zeroExtend 64)
      | .ok i => if stepsOk o (gFields i) then t else t.trap cIllegal (wordOf (.rep o)))

end Sys2Proof.Machine
end

