-- ==== Sys2Proof/Machine/AsSync.lean ====
section
/-! DEFINITION. AS queues, semaphores, waits (R137 to R145). -/

namespace Sys2Proof.Machine

/-! ## Queues (R137, R138) -/

/-- R137: the entries POP takes from. -/
def Queues.pq (q : Queues) : PQueue → List QEnt
  | .y i => q.yq i
  | .lq => q.lq
def Queues.setPq (q : Queues) (d : PQueue) (l : List QEnt) : Queues :=
  match d with
  | .y i => q.setYq i l
  | .lq => { q with lq := l }

/-- R137: POP blocks until the head has arrived; the tag comes with the value. R265 holds pops of y0 and y1. -/
def execPop (o : OpPop) (s : State) : Res :=
  .next (s.guarded o.pg fun s =>
    let go := fun (s : State) =>
      match popHead s.pkg.time.clk (s.cell.qs.pq o.q) with
      | none => s
      | some (e, r) => (s.updQs fun k => k.setPq o.q r).writeReg 1 (.g o.d) e.v e.psn
    match o.q with
    | .y _ => s.afterChecks go
    | .lq => go s)

/-- R137, R265: QPUSH blocks while no entry is free. -/
def execQpush (o : OpQpush) (s : State) : Res :=
  .next (s.guarded o.pg fun s => s.afterChecks fun s =>
    if Config.capQ ≤ (s.cell.qs.dq o.q).length then s
    else
      (s.updQs fun k => k.setDq o.q (k.dq o.q ++ [⟨(s.rg o.b).v, (s.rg o.b).psn, true, s.ready, s.cell.mseq⟩])).retire)

/-- R138: QSTAT never blocks. -/
def execQstat (o : OpQstat) (s : State) : Res :=
  .next (s.guarded o.pg fun s => s.writeReg 1 (.g o.d) (s.queueStatus o.q) false)

/-! ## Semaphores (R139 to R142) -/

/-- R140: the signal is held until every earlier memory operation has performed at cell scope; SEMS issues in its tick. -/
def execSems (o : OpSem) (s : State) : Res :=
  .next (s.guarded o.pg fun s =>
    if o.s = 63 then s.retire
    else if s.cell.mops.isEmpty then (s.signal o.s).retire
    else (s.addOp (.signal o.s) 0 .cell 0 (some (spadPlace s.cell.id 0)) none none).retire)

/-- R142: TRAPVAL of a semaphore error. -/
def semErrVal (n : SemNo) (c : Byte) : Word := (n.zeroExtend 64 <<< 8) ||| c.zeroExtend 64

/-- R139, R142: SEMW blocks at 0, takes 1, traps in error phase. -/
def execSemw (o : OpSem) (s : State) : Res :=
  .next (s.guarded o.pg fun s =>
    match s.sem o.s with
    | none => s.retire
    | some (.err c) => s.trap cSem (semErrVal o.s c)
    | some (.count n) => s.afterChecks fun s => if n = 0 then s else (s.setSem o.s (.count (n - 1))).retire)

/-- R141: a command enqueued on the cell with SIG = n has not completed. -/
def State.sigPending (s : State) (n : SemNo) : Bool := (s.sigsOpen s.cell).contains n

/-- R141: SEMDROP waits for the commands that signal s, then leaves normal phase with count 0. -/
def execSemdrop (o : OpSem) (s : State) : Res :=
  .next (s.guarded o.pg fun s =>
    if o.s = 63 then s.retire
    else s.afterChecks fun s => if s.sigPending o.s then s else (s.setSem o.s (.count 0)).retire)

/-- R141. -/
def execSemrd (o : OpSemrd) (s : State) : Res :=
  .next (s.guarded o.pg fun s =>
    s.writeReg 1 (.g o.d) (match s.sem o.s with | some x => semWord x | none => 0) false)

/-! ## Waiting on memory and on time (R143 to R145) -/

/-- A WAITA ends: its predicate lands at the end of the tick (R143). -/
def State.endWait (s : State) (f : PReg) (v psn : Bool) : State :=
  (s.updAs fun a => { a with wait := none }).writeReg 1 (.p f) ((BitVec.ofBool v).zeroExtend 64) psn

/-- R143: t0 of a WAITA: TIME when it was reached. -/
def State.waitStart (s : State) : Nat := (s.cell.as.wait.map (·.t0)).getD s.timeNs

/-- R143: a WAITA as it is reached; with d not g0 its timeout is known. -/
def State.freshWait (s : State) (o : OpWaita) : WaitSt :=
  ⟨s.timeNs, if o.d = 0 then none else some (s.timeNs + (s.rg o.d).v.toNat), none, none, none⟩

/-- R143, R144: the WAITA has been reached. -/
def State.reachWait (s : State) (o : OpWaita) : State :=
  s.updAs fun a => { a with wait := some (a.wait.getD (s.freshWait o)) }

/-- R143: the checks of WAITA once it is reached, then `go` with its place and t0. A WAITA that waits already makes them again at every
read, and may trap then (log 54). -/
def State.waitChecks (s : State) (o : OpWaita) (go : State → Place → Nat → State) : State :=
  s.guarded o.pg fun s => s.clean o.a fun a => s.clean o.b fun _ => s.clean o.d fun _ => (s.reachWait o).afterChecks fun s =>
    match s.asAccess needWait a 0 with
    | (t, .error c) => t.trap c (eaOf a 0)
    | (t, .ok p) => go t p s.waitStart

/-- R143: whether the timeout of a WAITA has come. -/
def State.waitOver (s : State) (o : OpWaita) (t0 : Nat) : Bool := o.d ≠ 0 && t0 + (s.rg o.d).v.toNat ≤ s.timeNs

/-- R144: match and timeout fall within one window of 200 cycles: the last read, no more cycles ago, found the word unequal. -/
def State.waitEither (s : State) (o : OpWaita) (t0 : Nat) : Bool :=
  s.waitOver o t0 && match s.cell.as.wait.bind (·.rd) with | some c => s.pkg.time.clk ≤ c + 200 | none => false

/-- R143, R144: the wait goes on: this cycle's read found the word at a place unequal. -/
def State.waitOn (s : State) (o : OpWaita) (p : Place) : State :=
  s.updAs fun a => { a with wait := a.wait.map fun y => { y with
    rd := some s.pkg.time.clk, word := some (p, (s.rg o.b).v), eq := none } }

/-- R143, R144: what a read of the word leads to: the wait ends on poison, on a match, on its timeout, and goes on otherwise. -/
def State.waitRead (s : State) (o : OpWaita) (p : Place) (t0 : Nat) (x : TW) : State :=
  if x.psn then s.endWait o.f false true
  else if x.v = (s.rg o.b).v then
    if s.waitEither o t0 then { s with free := s.free + 1 }.endWait o.f (Config.freeBool s.free) false else s.endWait o.f true false
  else if s.waitOver o t0 then s.endWait o.f false false
  else s.waitOn o p

/-- R144: the word has stood at its value for as long as it may: this read finds it so, though R119 would offer an older one. -/
def State.waitDue (s : State) : Bool := match s.cell.as.wait.bind (·.eq) with | some t => t + 1000 < s.pkg.time.t3 + 5 | none => false

/-- R143, R144: one pass of the loop. -/
def execWaita (o : OpWaita) (s : State) : Res :=
  .next (s.waitChecks o fun s p t0 =>
    if !s.cell.classFree o.cls then s
    else
      let s := s.passLine (s.cell.who 0) s.cell p (eaOf (s.rg o.a).v 0)
      let r := s.readAny (!s.waitDue) (s.cell.who 0) p (eaOf (s.rg o.a).v 0)
      r.1.waitRead o p t0 r.2)

/-- R145: WAITT issues once TIME has reached its operand. -/
def execWaitt (o : OpR) (s : State) : Res :=
  .next (s.guarded o.pg fun s => s.clean o.a fun a => if a.toNat ≤ s.timeNs then s.retire else s)

end Sys2Proof.Machine
end

