-- ==== Sys2Proof/Machine/AsSystem.lean ====
section
/-! DEFINITION. AS system instructions: system registers, traps, records, rings, the start of the ES (R146 to R157). -/

namespace Sys2Proof.Machine

/-! ## System registers, TRAP, RETT, HALT (R152 to R157) -/

/-- R32, R80, R156: below the level of the register an SRR traps whatever its guard. -/
def execSrr (o : OpSrr) (s : State) : Res :=
  .next (if sysReadable o.reg s.cell.as.lvl then
      s.guarded o.pg fun s => (s.sysReadEffect o.reg).writeReg 1 (.g o.d) (s.sysRead o.reg) false
    else s.trap cPrivilege (wordOf (.srr o)))

/-- R32, R80, R156: an SRW takes effect when it issues. -/
def execSrw (o : OpSrw) (s : State) : Res :=
  .next (if sysWritable o.reg s.cell.as.lvl then
      s.guarded o.pg fun s => s.clean o.a fun v => s.afterChecks fun s => (s.sysWrite o.reg v).retire
    else s.trap cPrivilege (wordOf (.srw o)))

/-- R155. -/
def execRett (o : OpG) (s : State) : Res :=
  .next (s.atKernel (.rett o) fun s => s.guarded o.pg fun s => s.afterChecks State.rett)

/-- R79, R157: HALT stops the MS until a wake event; below machine level it traps, when its guard holds (log 15). -/
def execHalt (o : OpG) (s : State) : Res :=
  .next (s.guarded o.pg fun s =>
    if s.cell.as.lvl = .machine then s.afterChecks fun s => s.retire.updAs fun a => { a with run := .halted }
    else s.trap cPrivilege (wordOf (.halt o)))

/-- R154. -/
def execTrap (o : OpTrap) (s : State) : Res := .next (s.guarded o.pg fun s => s.trap cSoftware (o.imm.zeroExtend 64))

/-! ## Records (R146 to R149) -/

/-- R146: the checks of a code pointer. -/
def State.codeOk (s : State) (x : Word) : Bool := inSection s.cell.asbase s.cell.assize x

/-- R146: FORK creates a record at the tail of a record queue and does not block; the record waits for the cell's earlier accesses
(log 32 on the MS). -/
def execFork (o : OpFork) (s : State) : Res :=
  .next (s.guarded o.pg fun s => s.clean o.a fun code => s.clean o.b fun frame => s.clean o.d fun wid =>
    if !s.codeOk code then s.trap cTarget code
    else
      match s.cell.recd with
      | none => s.trap cRecords (o.prio.zeroExtend 64)
      | some r =>
        if s.fifoFull s.recPart o.prio.toNat then s.trap cRecords (o.prio.zeroExtend 64)
        else
          (s.enqueueRec s.recPart o.prio.toNat
            ⟨code, frame, wid, if o.join then s.cell.as.sys.joinp else 0, r.launch, r.op, s.pkg.time.t3,
              some ⟨s.cell.id, s.cell.mseq, s.mem.visibleIds s.cell.id⟩, 0, false⟩).retire)

/-- R147: the word at an offset of the join block at `p`, as the cell sees it. -/
def State.joinWord (s : State) (p : Place) (off : Nat) : TW := s.wordAs s.cell.id (p.plus off)

/-- R148, R149: the decrement of a join count, at package scope. -/
def State.joinDown (s : State) (p : Place) (n : Word) : State :=
  (s.writeAtW s.cell.mseq 0 s.pkg.time.t3 p (n - 1) false 3).nextSeq

/-- R148, R149: a continuation enters the record queue of the dispatch priority, in the slot reserved for it. -/
def State.continuation (s : State) (r : RunRec) (code frame wid joinp : Word) : State :=
  s.enqueueRec s.recPart r.prio ⟨code, frame, wid, joinp, r.launch, r.op, s.pkg.time.t3, none, 0, false⟩

/-- R119, R375: the lines that `n` bytes of a join block lie in are reached. -/
def State.touchJoin (s : State) (p : Place) (n : Nat) : State :=
  let s := s.touchLine (s.cell.who 0) s.cell p
  if (p.plus (n - 1)).line = p.line then s else s.touchLine (s.cell.who 0) s.cell (p.plus (n - 1))

/-- R148: what JOIN does once its target is checked and every earlier access has performed. -/
def State.joinAt (s : State) (r : RunRec) (a code : Word) (p : Place) : State :=
  let s := (s.meetError (s.cell.who 0) (l1Of s.cell p.line) p a).touchJoin p 8
  let c := s.joinWord p 0
  if c.psn then s.trap cPoison a
  else if c.v = 1 then
    ((s.joinDown p c.v).continuation r code s.cell.as.sys.frame s.cell.as.sys.wid s.cell.as.sys.joinp).retire
  else (s.joinDown p c.v).retire

/-- R148 (logs 32, 33). -/
def execJoin (o : OpJoin) (s : State) : Res :=
  .next (s.guarded o.pg fun s => s.clean o.a fun a => s.clean o.b fun code => s.afterChecks fun s =>
    match s.asAccess needLinRW a 0 with
    | (t, .error z) => t.trap z a
    | (t, .ok p) =>
      if !s.codeOk code then t.trap cTarget code
      else if s.packageOpen || s.mem.contended s.cell.id p.wkey 3 then s
      else
        match s.cell.recd with
        | none => t.trap cRecords 0
        | some r => t.joinAt r a code p)

/-- An engine or port still has a command of the record (R149, R150). -/
def Cell.engineWork (c : Cell) : Bool :=
  [Eng.mx, .ce0, .ce1, .xe].any (fun e => (c.eng e).wp ≠ (c.eng e).rp || !(c.eng e).front.isEmpty || (c.eng e).cur.isSome)
    || [c.ho, c.hub].any fun p => !p.buf.isEmpty || !p.cmds.isEmpty

/-- R151: the ES has issued EEXIT or was never started: what ESTART needs (log 54). -/
def EsSt.exited (e : EsSt) : Bool := match e.run with | .idle | .draining => true | .running | .halted => false

/-- R149, R194: the ES was never started, or has stopped: every write in flight at its EEXIT has landed. -/
def EsSt.stopped (e : EsSt) : Bool := e.run = .idle

/-- The instruction issues and the record retires. -/
def State.leave (s : State) : State := s.retire.retireRecord

/-- R149: the first marked word among CODE, FRAME, WID and PARENT, by offset. -/
def State.joinMarked (s : State) (p : Place) : Option Nat := [0x08, 0x10, 0x18, 0x20].find? fun o => (s.joinWord p o).psn

/-- R149: what EXIT does with the join block at JOINP, already checked. -/
def State.exitJoin (s : State) (p : Place) : State :=
  let a := s.cell.as.sys.joinp
  let s := (s.meetError (s.cell.who 0) (l1Of s.cell p.line) p a).touchJoin p 40
  let c := s.joinWord p 0
  if c.psn then s.trap cPoison a
  else if c.v = 1 then
    match s.joinMarked p with
    | some o => s.trap cPoison (a + BitVec.ofNat 64 o)
    | none =>
      match s.cell.recd with
      | none => (s.joinDown p c.v).leave
      | some r =>
        ((s.joinDown p c.v).continuation r (s.joinWord p 0x08).v (s.joinWord p 0x10).v (s.joinWord p 0x18).v
          (s.joinWord p 0x20).v).leave
  else (s.joinDown p c.v).leave

/-- R109, R149: the checks of JOINP: AMO's, with alignment 64. -/
def State.joinpAccess (s : State) : State × Except Nat Place :=
  let a := s.cell.as.sys.joinp
  let off := (a.extractLsb' 0 58).toNat
  if off % 64 ≠ 0 then (s, .error cAlign)
  else
    match segCheck s.cell needLinRW (segNo a) off 8 with
    | .error c => (s, .error c)
    | .ok e => s.xlCheck needLinRW (segNo a) off e

/-- R149: EXIT waits for the engines and the ES, tests once that nothing is left unconsumed, waits for its own accesses, and performs
all its effects or none. -/
def execExit (o : OpG) (s : State) : Res :=
  .next (s.guarded o.pg fun s =>
    if !s.cell.as.exitTested && (s.cell.engineWork || !s.cell.es.stopped) then s
    else if !s.cell.as.exitTested && (unconsumed s.cell ≠ 0 || s.cell.qs.anyLeft) then
      s.trap cExit (BitVec.ofNat 64 (unconsumed s.cell) ||| (if s.cell.qs.anyLeft then 1 <<< 63 else 0))
    else if s.packageOpen then s.updAs fun a => { a with exitTested := true }
    else if s.cell.as.sys.joinp = 0 then s.leave
    else
      match s.joinpAccess with
      | (t, .error z) => t.trap z s.cell.as.sys.joinp
      | (t, .ok p) => if s.mem.contended s.cell.id p.wkey 3 then s else t.exitJoin p)

/-! ## Rings, ports and the ES (R150, R151) -/

/-- R150: append words to a port, taking credits. -/
def PortSt.put (p : PortSt) (seq : Nat) (ws : List Word32) : PortSt :=
  { p with
    buf := p.buf ++ ws, credits := p.credits - ws.length
    marks := p.marks ++ (List.range ws.length).map fun i => ⟨(p.pos + p.buf.length + i) % 2 ^ 32, seq, 0, false⟩ }

/-- R150, R197: append words to a ring, noting which AS accesses came before each (R268). -/
def State.ringPuts (s : State) (e : Eng) (base size : Nat) : List Word32 → State
  | [] => s
  | w :: r =>
    let at_ := (s.cell.eng e).wp.toNat
    let m : Mark := ⟨at_, s.cell.mseq, s.ringWord s.cell base size at_, s.mem.psn.contains (s.cell.ringKey base size at_)⟩
    let s := s.updFocus fun c => c.setEng e { c.eng e with marks := (c.eng e).marks ++ [m] }
    (s.ringPut e base size w).ringPuts e base size r

/-- R150, R196: append words to a ring or port once there is room for all of them. -/
def State.enqueueWords (s : State) (ring : Ring) (ws : List Word32) : State :=
  match ring with
  | .ho =>
    if s.cell.id.die = 6 then s.trap cAccess 4
    else if s.cell.ho.credits < ws.length then s
    else (s.updFocus fun c => { c with ho := c.ho.put c.mseq ws }).retire
  | .hub =>
    if s.cell.id.die = 6 then s.trap cAccess 5
    else if s.cell.hub.credits < ws.length then s
    else (s.updFocus fun c => { c with hub := c.hub.put c.mseq ws }).retire
  | .mx => ringTo .mx
  | .ce0 => ringTo .ce0
  | .ce1 => ringTo .ce1
  | .xe => ringTo .xe
where
  ringTo (e : Eng) : State :=
    match s.cell.ringSeg e with
    | none => s.trap cAccess (BitVec.ofNat 64 (engNo e))
    | some (base, size) =>
      if (s.cell.eng e).free size < ws.length then s else (s.ringPuts e base size ws).retire

/-- R150: four step words. -/
def execEnq (o : OpEnq) (s : State) : Res :=
  .next (s.guarded o.pg fun s => s.clean o.a fun a => s.clean o.b fun b =>
    s.enqueueWords o.ring [a.extractLsb' 0 32, a.extractLsb' 32 32, b.extractLsb' 0 32, b.extractLsb' 32 32])

/-- R150: one step word. -/
def execEnqs (o : OpEnqs) (s : State) : Res :=
  .next (s.guarded o.pg fun s => s.clean o.a fun a => s.enqueueWords o.ring [a.extractLsb' 0 32])

/-- R35, R151: ESTART resets the ES and starts it at g[a]; the MS has no ES. A bad target traps at once, also while the ES still runs
(log 54). -/
def execEstart (o : OpR) (s : State) : Res :=
  .next (s.guarded o.pg fun s => s.clean o.a fun a =>
    if s.cell.id.die = 6 then s.trap cIllegal (wordOf (.estart o))
    else if !inSection s.cell.esbase s.cell.essize a then s.trap cTarget a
    else s.afterChecks fun s =>
      if s.cell.es.exited then (s.updEs fun _ => { EsSt.init with pc := a, run := .running }).retire else s)

end Sys2Proof.Machine
end

