-- ==== Sys2Proof/Machine/Float.lean ====
section
/-! DEFINITION. Integer and IEEE elements (R45 to R53), and the correctly rounded functions of R174. -/

namespace Sys2Proof.Machine

/-! ## Element types (R18, R45, R47) -/

/-- Width in bits of an ETYPE; the BX7 view has 8 (R162). -/
def tyWidth (ty : Nat) : Nat := [8, 16, 32, 64, 8, 16, 32, 64, 16, 16, 32].getD ty 8
def tyInt (ty : Nat) : Bool := ty < 8
def tySigned (ty : Nat) : Bool := ty < 4
def tyFloat (ty : Nat) : Bool := 8 ≤ ty && ty ≤ 10

/-- The integer a pattern of an integer type stands for. -/
def intOf (ty x : Nat) : Int :=
  let w := tyWidth ty
  if tySigned ty && 2 ^ (w - 1) ≤ x then (x : Int) - 2 ^ w else x

/-- R45: bounds of an integer type. -/
def tyMin (ty : Nat) : Int := if tySigned ty then -(2 ^ (tyWidth ty - 1)) else 0
def tyMax (ty : Nat) : Int := if tySigned ty then 2 ^ (tyWidth ty - 1) - 1 else 2 ^ tyWidth ty - 1

/-- The low `w` bits of an integer. -/
def wrapInt (w : Nat) (x : Int) : Nat := (x % (2 ^ w : Int)).toNat

/-- R46: clamp, with SAT when the value changes. -/
def clampInt (ty : Nat) (x : Int) : Nat × BitVec 6 :=
  if x < tyMin ty then (wrapInt (tyWidth ty) (tyMin ty), fSAT)
  else if tyMax ty < x then (wrapInt (tyWidth ty) (tyMax ty), fSAT)
  else (wrapInt (tyWidth ty) x, 0)

/-- R46: the plain or the saturating form. -/
def narrow (ty : Nat) (sat : Bool) (x : Int) : Nat × BitVec 6 := if sat then clampInt ty x else (wrapInt (tyWidth ty) x, 0)

/-! ## Formats and values (R47, R49) -/

/-- Exponent and fraction bits of a float type. -/
structure FFmt where
  eb : Nat
  fb : Nat
deriving DecidableEq, Repr, Inhabited

def fmtOf (ty : Nat) : FFmt := if ty = 8 then ⟨5, 10⟩ else if ty = 9 then ⟨8, 7⟩ else ⟨8, 23⟩

def FFmt.bias (f : FFmt) : Nat := 2 ^ (f.eb - 1) - 1
def FFmt.width (f : FFmt) : Nat := 1 + f.eb + f.fb
/-- The pattern of +Inf. -/
def FFmt.infBits (f : FFmt) : Nat := (2 ^ f.eb - 1) * 2 ^ f.fb
/-- R47: the canonical quiet NaN. -/
def FFmt.nanBits (f : FFmt) : Nat := f.infBits + 2 ^ (f.fb - 1)

/-- An exact value: a NaN, an infinity, or ± m × 2^e. -/
inductive FV | nan (sig : Bool) | inf (neg : Bool) | num (neg : Bool) (m : Nat) (e : Int)
deriving DecidableEq, Repr, Inhabited

/-- Number of bits of a natural number. -/
def bitLen (n : Nat) : Nat := if n = 0 then 0 else Nat.log2 n + 1

/-- The value of a pattern (R49: subnormals exactly). -/
def FFmt.decode (f : FFmt) (x : Nat) : FV :=
  let neg := x / 2 ^ (f.eb + f.fb) % 2 = 1
  let ex := x / 2 ^ f.fb % 2 ^ f.eb
  let fr := x % 2 ^ f.fb
  if ex = 2 ^ f.eb - 1 then (if fr = 0 then .inf neg else .nan (fr < 2 ^ (f.fb - 1)))
  else if ex = 0 then .num neg fr (1 - (f.bias : Int) - f.fb)
  else .num neg (fr + 2 ^ f.fb) ((ex : Int) - f.bias - f.fb)

/-! ## Rounding (R48, R51, R52) -/

/-- Whether a magnitude with integer part `hi` and remainder `lo` of `2^k` rounds up; modes as in R18. -/
def roundsUp (rm : Nat) (neg : Bool) (hi lo k : Nat) : Bool :=
  if lo = 0 then false
  else
    match rm with
    | 0 => 2 ^ k < 2 * lo || (2 ^ k = 2 * lo && hi % 2 = 1)
    | 1 => false
    | 2 => !neg
    | _ => neg

/-- m × 2^d rounded to an integer magnitude, and whether that lost something. -/
def roundMag (rm : Nat) (neg : Bool) (m : Nat) (d : Int) : Nat × Bool :=
  if 0 ≤ d then (m * 2 ^ d.toNat, false)
  else
    let k := (-d).toNat
    (m / 2 ^ k + (if roundsUp rm neg (m / 2 ^ k) (m % 2 ^ k) k then 1 else 0), m % 2 ^ k ≠ 0)

/-- R48: whether an overflow of this sign in this mode gives an infinity. -/
def toInf (rm : Nat) (neg : Bool) : Bool :=
  match rm with
  | 0 => true
  | 1 => false
  | 2 => !neg
  | _ => neg

/-- R48, R52: ± m × 2^e rounded once; m is not zero. Tininess is judged after rounding with an unbounded exponent. -/
def FFmt.roundNum (f : FFmt) (rm : Nat) (neg : Bool) (m : Nat) (e : Int) : Nat × BitVec 6 :=
  let sgn := if neg then 2 ^ (f.eb + f.fb) else 0
  let emin : Int := 1 - (f.bias : Int)
  let top : Int := (bitLen m : Int) - 1 + e
  let q := max top emin - f.fb
  let r := roundMag rm neg m (e - q)
  let bits := if r.1 < 2 ^ f.fb then r.1 else ((q + f.fb + f.bias).toNat) * 2 ^ f.fb + (r.1 - 2 ^ f.fb)
  let tiny := top < emin && (roundMag rm neg m (e - (top - f.fb))).1 * 2 ^ (top - emin + 1).toNat < 2 ^ (f.fb + 1)
    || top + 1 < emin
  if f.infBits ≤ bits then (sgn + (if toInf rm neg then f.infBits else f.infBits - 1), fOF ||| fNX)
  else (sgn + bits, (if r.2 then fNX else 0) ||| (if r.2 && tiny then fUF else 0))

/-- R48, R50: an exact value in a format. -/
def FFmt.encode (f : FFmt) (rm : Nat) : FV → Nat × BitVec 6
  | .nan _ => (f.nanBits, 0)
  | .inf neg => ((if neg then 2 ^ (f.eb + f.fb) else 0) + f.infBits, 0)
  | .num neg m e => if m = 0 then (if neg then 2 ^ (f.eb + f.fb) else 0, 0) else f.roundNum rm neg m e

/-! ## Arithmetic (R50 to R52, R171) -/

/-- An exact result and whether the operation is invalid. -/
abbrev FRes := FV × Bool

def FV.sig : FV → Bool
  | .nan s => s
  | _ => false
def FV.isNan : FV → Bool
  | .nan _ => true
  | _ => false
def FV.neg : FV → FV
  | .nan s => .nan s
  | .inf n => .inf (!n)
  | .num n m e => .num (!n) m e

/-- A signed mantissa. -/
def sgnd (neg : Bool) (m : Nat) : Int := if neg then -(m : Int) else m

/-- Exact sum of two dyadic numbers, with the zero sign of R51. -/
def addNum (rm : Nat) (n1 : Bool) (m1 : Nat) (e1 : Int) (n2 : Bool) (m2 : Nat) (e2 : Int) : FV :=
  let e := min e1 e2
  let t := sgnd n1 m1 * 2 ^ (e1 - e).toNat + sgnd n2 m2 * 2 ^ (e2 - e).toNat
  if t = 0 then .num (if n1 = n2 then n1 else rm = 3) 0 e else .num (t < 0) t.natAbs e

/-- a + b. -/
def fAdd (rm : Nat) (a b : FV) : FRes :=
  match a, b with
  | .nan s, y => (.nan false, s || y.sig)
  | x, .nan s => (.nan false, s || x.sig)
  | .inf n, .inf k => if n = k then (.inf n, false) else (.nan false, true)
  | .inf n, _ => (.inf n, false)
  | _, .inf n => (.inf n, false)
  | .num n1 m1 e1, .num n2 m2 e2 => (addNum rm n1 m1 e1 n2 m2 e2, false)

/-- a × b, exactly. -/
def fMul (a b : FV) : FRes :=
  match a, b with
  | .nan s, y => (.nan false, s || y.sig)
  | x, .nan s => (.nan false, s || x.sig)
  | .inf n, .inf k => (.inf (n ^^ k), false)
  | .inf n, .num k m _ => if m = 0 then (.nan false, true) else (.inf (n ^^ k), false)
  | .num k m _, .inf n => if m = 0 then (.nan false, true) else (.inf (n ^^ k), false)
  | .num n1 m1 e1, .num n2 m2 e2 => (.num (n1 ^^ n2) (m1 * m2) (e1 + e2), false)

/-- a × b + c with one rounding. -/
def fFma (rm : Nat) (a b c : FV) : FRes :=
  let p := fMul a b
  let r := fAdd rm p.1 c
  (r.1, p.2 || r.2)

/-- Deliver a result in a format: NV excludes NX (R52). -/
def FFmt.deliver (f : FFmt) (rm : Nat) (r : FRes) : Nat × BitVec 6 :=
  let x := f.encode rm r.1
  if r.2 then (x.1, fNV) else x

/-! ## Order (R172, R178, R182) -/

/-- a < b for values that are not NaN. -/
def FV.lt (a b : FV) : Bool :=
  match a, b with
  | .nan _, _ | _, .nan _ => false
  | .inf n, .inf k => n && !k
  | .inf n, _ => n
  | _, .inf n => !n
  | .num n1 m1 e1, .num n2 m2 e2 =>
    let e := min e1 e2
    sgnd n1 m1 * 2 ^ (e1 - e).toNat < sgnd n2 m2 * 2 ^ (e2 - e).toNat

/-- Whether a value is −0 or +0. -/
def FV.zeroSign : FV → Option Bool
  | .num n 0 _ => some n
  | _ => none

/-- R172, R182: a < b with −0 below +0. -/
def FV.ltz (a b : FV) : Bool :=
  a.lt b || (match a.zeroSign, b.zeroSign with | some x, some y => x && !y | _, _ => false)

/-! ## Reciprocal, root, exponent, logarithm (R174) -/

/-- floor of the square root, bit by bit. -/
def isqrtGo : Nat → Nat → Nat → Nat
  | 0, _, r => r
  | k + 1, n, r => isqrtGo k n (if (r + 2 ^ k) * (r + 2 ^ k) ≤ n then r + 2 ^ k else r)
def isqrt (n : Nat) : Nat := isqrtGo ((bitLen n + 1) / 2 + 1) n 0

/-- n + δ units of 2^e, where 0 < δ < 1 unless `exact`, as a dyadic value that rounds alike. -/
def sticky (neg : Bool) (n : Nat) (e : Int) (exact : Bool) : FV := if exact then .num neg n e else .num neg (2 * n + 1) (e - 1)

/-- 1/a. -/
def fRcp (a : FV) : FV × BitVec 6 :=
  match a with
  | .nan s => (.nan false, if s then fNV else 0)
  | .inf n => (.num n 0 0, 0)
  | .num n m e =>
    if m = 0 then (.inf n, fDZ)
    else
      let k := bitLen m + 30
      (sticky n (2 ^ k / m) (-e - k) (2 ^ k % m = 0), 0)

/-- 1/√a. -/
def fRsq (a : FV) : FV × BitVec 6 :=
  match a with
  | .nan s => (.nan false, if s then fNV else 0)
  | .inf n => if n then (.nan false, fNV) else (.num false 0 0, 0)
  | .num n m e =>
    if m = 0 then (.inf n, fDZ)
    else if n then (.nan false, fNV)
    else
      let m' := if e % 2 = 0 then m else 2 * m
      let e' := if e % 2 = 0 then e else e - 1
      let k := bitLen m' + 30
      let r := isqrt (2 ^ (2 * k) / m')
      (sticky false r (-(e' / 2) - k) (r * r * m' = 2 ^ (2 * k)), 0)

/-- An interval of w-bit fixed point numbers. -/
structure Ival where
  lo : Nat
  hi : Nat
deriving DecidableEq, Repr, Inhabited

/-- Product of 2^(2^-i) over the one bits i of the fraction r / 2^s, most significant first; `c` encloses 2^(2^-i). -/
def exp2Go (w r : Nat) : Nat → Ival → Ival → Ival
  | 0, _, p => p
  | s + 1, c, p =>
    let c : Ival := ⟨isqrt (c.lo * 2 ^ w), isqrt (c.hi * 2 ^ w) + 1⟩
    exp2Go w r s c (if r.testBit s then ⟨p.lo * c.lo / 2 ^ w, p.hi * c.hi / 2 ^ w + 1⟩ else p)

/-- 2^(r / 2^s) for 0 < r < 2^s: the floor to 30 fraction bits, doubling the working width until it is certain. -/
def exp2Frac (s r : Nat) : Nat → Nat → Nat
  | 0, w => (exp2Go w r s ⟨2 ^ (w + 1), 2 ^ (w + 1)⟩ ⟨2 ^ w, 2 ^ w⟩).lo / 2 ^ (w - 30)
  | n + 1, w =>
    let p := exp2Go w r s ⟨2 ^ (w + 1), 2 ^ (w + 1)⟩ ⟨2 ^ w, 2 ^ w⟩
    if p.lo / 2 ^ (w - 30) = p.hi / 2 ^ (w - 30) then p.lo / 2 ^ (w - 30) else exp2Frac s r n (2 * w)

/-- 2^a. -/
def fExp2 (a : FV) : FV × BitVec 6 :=
  match a with
  | .nan s => (.nan false, if s then fNV else 0)
  | .inf n => (if n then .num false 0 0 else .inf false, 0)
  | .num n m e =>
    if m = 0 then (.num false 1 0, 0)
    else if 12 < (bitLen m : Int) + e then (.num false 1 (if n then -4096 else 4096), 0)
    else if 0 ≤ e then (.num false 1 (sgnd n (m * 2 ^ e.toNat)), 0)
    else
      let s := (-e).toNat
      let t := sgnd n m
      let r := (t % (2 ^ s : Int)).toNat
      let i := t / (2 ^ s : Int)
      if r = 0 then (.num false 1 i, 0) else (sticky false (exp2Frac s r 6 (64 + s)) (i - 30) false, 0)

/-- Fraction bits of log2 t for t in [1, 2), `n` of them; none when the interval cannot decide one. -/
def log2Go (w : Nat) : Nat → Ival → Nat → Option Nat
  | 0, _, acc => some acc
  | n + 1, t, acc =>
    let lo := t.lo * t.lo / 2 ^ w
    let hi := t.hi * t.hi / 2 ^ w + 1
    if 2 ^ (w + 1) ≤ lo then log2Go w n ⟨lo / 2, hi / 2 + 1⟩ (2 * acc + 1)
    else if hi < 2 ^ (w + 1) then log2Go w n ⟨lo, hi⟩ (2 * acc)
    else none

/-- floor of 2^64 × log2 (m / 2^(l - 1)), widening until it is certain. -/
def log2Frac (m l : Nat) : Nat → Nat → Nat
  | 0, _ => 0
  | n + 1, w =>
    let t := m * 2 ^ (w + 1 - l)
    match log2Go w 64 ⟨t, t⟩ 0 with
    | some x => x
    | none => log2Frac m l n (2 * w)

/-- log2 a. -/
def fLog2 (a : FV) : FV × BitVec 6 :=
  match a with
  | .nan s => (.nan false, if s then fNV else 0)
  | .inf n => if n then (.nan false, fNV) else (.inf false, 0)
  | .num n m e =>
    if m = 0 then (.inf true, fDZ)
    else if n then (.nan false, fNV)
    else
      let l := bitLen m
      let top : Int := (l : Int) - 1 + e
      if m = 2 ^ (l - 1) then (.num (top < 0) top.natAbs 0, 0)
      else
        let t := top * 2 ^ 64 + (log2Frac m l 6 192 : Nat)
        (if 0 ≤ t then sticky false t.toNat (-64) false else sticky true (-t - 1).toNat (-64) false, 0)

/-- Deliver a value with the flags of its operation; NV excludes NX. -/
def FFmt.deliverFl (f : FFmt) (rm : Nat) (r : FV × BitVec 6) : Nat × BitVec 6 :=
  let x := f.encode rm r.1
  (x.1, r.2 ||| (if r.2 &&& fNV ≠ 0 then 0 else x.2))

/-! ## Conversions (R53) -/

/-- Float to integer. -/
def fToInt (rm ty : Nat) (a : FV) : Nat × BitVec 6 :=
  match a with
  | .nan _ => (0, fNV)
  | .inf n => (wrapInt (tyWidth ty) (if n then tyMin ty else tyMax ty), fNV)
  | .num n m e =>
    let r := roundMag rm n m e
    let v := sgnd n r.1
    if v < tyMin ty || tyMax ty < v then (wrapInt (tyWidth ty) (if n then tyMin ty else tyMax ty), fNV)
    else (wrapInt (tyWidth ty) v, if r.2 then fNX else 0)

/-- R53: one element from type `st` to type `dt`. -/
def convertEl (rm st dt : Nat) (sat : Bool) (x : Nat) : Nat × BitVec 6 :=
  if tyFloat st then
    let a := (fmtOf st).decode x
    if tyFloat dt then (fmtOf dt).deliver rm (match a with | .nan s => (.nan false, s) | _ => (a, false))
    else fToInt rm dt a
  else if tyFloat dt then
    let v := intOf st x
    (fmtOf dt).encode rm (.num (v < 0) v.natAbs 0)
  else narrow dt sat (intOf st x)

end Sys2Proof.Machine
end

