-- ==== Sys2Proof/Machine/Blocks.lean ====
section
/-! DEFINITION. Block formats and quantisation (R54 to R64), group partial sums and accumulator rows (R65 to R77). -/

namespace Sys2Proof.Machine

/-! ## Blocks (R54 to R62) -/

/-- A group of a block: scale, gap, and for each element its selector, sign and magnitude (R57, R58). -/
structure Grp where
  scale : Nat
  gap : Nat
  els : List (Bool × Bool × Nat)
deriving DecidableEq, Repr, Inhabited

/-- A block as its consumer sees it (R54, R55). -/
inductive Block | zero | invalid | malformed | groups (l : List Grp)
deriving DecidableEq, Repr, Inhabited

/-- Byte n of a block held as a number, byte 0 lowest. -/
def blkByte (b n : Nat) : Nat := b / 2 ^ (8 * n) % 256

/-- Elements `i0` to `i0 + 31` of an element field whose elements have `mb` magnitude bits. -/
def fieldEls (field mb i0 : Nat) : List (Bool × Bool × Nat) :=
  (List.range 32).map fun i =>
    let x := field / 2 ^ ((mb + 2) * (i0 + i)) % 2 ^ (mb + 2)
    (x.testBit (mb + 1), x.testBit mb, x % 2 ^ mb)

/-- R55 item 5. -/
def Grp.ok (g : Grp) : Bool := 1 + g.gap ≤ g.scale

/-- R56. -/
def bx7Groups (b : Nat) : List Grp :=
  let f := b / 2 ^ 16 % 2 ^ 448
  [⟨blkByte b 1, blkByte b 59 % 16, fieldEls f 5 0⟩, ⟨blkByte b 58, blkByte b 59 / 16, fieldEls f 5 32⟩]

/-- R58. -/
def bx3Groups (b : Nat) : List Grp :=
  let f := b / 2 ^ 16 % 2 ^ 384
  [⟨blkByte b 1, blkByte b 53 % 16, fieldEls f 1 0⟩, ⟨blkByte b 50, blkByte b 53 / 16, fieldEls f 1 32⟩,
    ⟨blkByte b 51, blkByte b 54 % 16, fieldEls f 1 64⟩, ⟨blkByte b 52, blkByte b 54 / 16, fieldEls f 1 96⟩]

/-- R54, R55: read a block declared BX3 or BX7. -/
def readBlock (bx3 : Bool) (b : Nat) : Block :=
  let c := blkByte b 0
  if c / 16 = 0 then .zero
  else if c / 16 = 15 then .invalid
  else if c = (if bx3 then 0x20 else 0x10) then
    let gs := if bx3 then bx3Groups b else bx7Groups b
    let rest := if bx3 then b / 2 ^ 440 else b / 2 ^ 480
    if rest = 0 && gs.all Grp.ok then .groups gs else .malformed
  else .malformed

/-- R57: the exponent of an element by its selector. -/
def Grp.ex (g : Grp) (sel : Bool) : Int := if sel then (g.scale : Int) - 1 - g.gap else g.scale

/-- R57: the value of an element; magnitude 0 is +0. -/
def Grp.val (g : Grp) (x : Bool × Bool × Nat) : FV :=
  if x.2.2 = 0 then .num false 0 0 else .num x.2.1 x.2.2 (g.ex x.1 - 131)

/-! ## Quantisation to BX7 (R63, R64) -/

/-- rne(m × 2^d). -/
def rneMag (m : Nat) (d : Int) : Nat := (roundMag 0 false m d).1

/-- R63: the first exponent from `e` on, at most `n` of them, at which the magnitude fits 31. -/
def fitExp (m : Nat) (x : Int) : Nat → Nat → Option Nat
  | 0, _ => none
  | n + 1, e => if rneMag m (x - ((e : Int) - 131)) ≤ 31 then some e else fitExp m x n (e + 1)

/-- Exact magnitudes compared. -/
def magLt (m1 : Nat) (e1 : Int) (m2 : Nat) (e2 : Int) : Bool :=
  let e := min e1 e2
  m1 * 2 ^ (e1 - e).toNat < m2 * 2 ^ (e2 - e).toNat

/-- The greatest magnitude of a list. -/
def magMax (l : List (Nat × Int)) : Nat × Int := l.foldl (fun a x => if magLt a.1 a.2 x.1 x.2 then x else a) (0, 0)

/-- R63: a quantised group: scale, gap, elements, saturation. -/
structure QGrp where
  scale : Nat
  gap : Nat
  els : List Nat
  sat : Bool
deriving DecidableEq, Repr, Inhabited

/-- R63: one element by the two exponents. -/
def bx7El (eh el : Nat) (x : Bool × Nat × Int) : Nat :=
  let ml := rneMag x.2.1 (x.2.2 - ((el : Int) - 131))
  let m := if ml ≤ 31 then ml else min (rneMag x.2.1 (x.2.2 - ((eh : Int) - 131))) 31
  if m = 0 then 0 else (if ml ≤ 31 then 64 else 0) + (if x.1 then 32 else 0) + m

/-- R63: values are (negative, magnitude, exponent). -/
def bx7Group (xs : List (Bool × Nat × Int)) : QGrp :=
  let mags := xs.map (·.2)
  let top := magMax mags
  if top.1 = 0 then ⟨1, 0, xs.map fun _ => 0, false⟩
  else
    let fit := fitExp top.1 top.2 255 1
    let eh := fit.getD 255
    let l := magMax (mags.filter fun x => x.1 ≠ 0 && magLt x.1 x.2 4 ((eh : Int) - 131))
    let gap := if l.1 = 0 then 0 else eh - 1 - (fitExp l.1 l.2 256 (eh - 16)).getD (eh - 1)
    ⟨eh, gap, xs.map (bx7El eh (eh - 1 - gap)), fit.isNone⟩

/-- R56: the bytes of a quantised block. -/
def bx7Bytes (a b : QGrp) : Nat :=
  let f := ((a.els ++ b.els).zipIdx.map fun x => x.1 * 2 ^ (7 * x.2)).sum
  0x10 + a.scale * 2 ^ 8 + f * 2 ^ 16 + b.scale * 2 ^ 464 + (a.gap + 16 * b.gap) * 2 ^ 472

/-- What the quantiser reports. -/
structure Quant where
  bytes : Nat
  nan : Bool
  inf : Bool
  sat : Bool
deriving DecidableEq, Repr, Inhabited

/-- R64: a block from 64 exact values. -/
def quantBlock (xs : List FV) : Quant :=
  let nan := xs.any FV.isNan
  let inf := xs.any fun x => match x with | .inf _ => true | _ => false
  let vs := xs.map fun x => match x with | .num n m e => (n, m, e) | _ => (false, 0, 0)
  if nan || inf then ⟨0xF0, nan, inf, false⟩
  else if vs.all (·.2.1 = 0) then ⟨0, false, false, false⟩
  else
    let a := bx7Group (vs.take 32)
    let b := bx7Group (vs.drop 32)
    ⟨bx7Bytes a b, false, false, a.sat || b.sat⟩

/-! ## Group partial sums (R66, R68) -/

/-- One side of a group step: a group of a block, or what stands for none. -/
inductive Side | grp (g : Grp) | zero | nan | psn
deriving DecidableEq, Repr, Inhabited

/-- A partial sum: P, e_min, and whether it is live. -/
structure Part where
  p : Int
  e : Int
  live : Bool
deriving DecidableEq, Repr, Inhabited

/-- R66: the exact partial sum of two groups. -/
def groupSum (a b : Grp) : Int × Int :=
  let el := a.ex true - 131 + (b.ex true - 131)
  let term := fun (x : (Bool × Bool × Nat) × (Bool × Bool × Nat)) =>
    sgnd (x.1.2.1 ^^ x.2.2.1) (x.1.2.2 * x.2.2.2) * 2 ^ ((a.ex x.1.1 - 131 + (b.ex x.2.1 - 131)) - el).toNat
  (((a.els.zip b.els).map term).sum, el)

/-- R68. -/
def partOfSides (a b : Side) : Part :=
  match a, b with
  | .grp x, .grp y => ⟨(groupSum x y).1, (groupSum x y).2, true⟩
  | _, _ => ⟨0, 0, false⟩

/-! ## Row changes (R65, R69 to R72) -/

def i63 : Int := 2 ^ 63
def i62 : Int := 2 ^ 62

/-- Inside [−2^63, 2^63 − 1]. -/
def fits64 (x : Int) : Bool := -i63 ≤ x && x < i63
/-- Inside the guard range G. -/
def fitsG (x : Int) : Bool := -i62 ≤ x && x < i62
/-- R72: clamp to the 64-bit range. -/
def clamp64 (x : Int) : Int := max (-i63) (min x (i63 - 1))

/-- rne_shift(x, k): x / 2^k to the nearest integer, ties to even. -/
def rneShift (x : Int) (k : Nat) : Int :=
  let q := x / 2 ^ k
  let r := x % 2 ^ k
  if 2 ^ k < 2 * r || (2 * r = 2 ^ k && q % 2 = 1) then q + 1 else q

/-- align(P, e, E) = floor(P × 2^(e − E)). -/
def alignTo (p e ee : Int) : Int := if ee ≤ e then p * 2 ^ (e - ee).toNat else p / 2 ^ (ee - e).toNat

/-- The smallest k ≥ `k` that satisfies a test, at most `n` of them tried. -/
def leastK (f : Nat → Bool) : Nat → Nat → Nat
  | 0, k => k
  | n + 1, k => if f k then k else leastK f n (k + 1)

/-- The mantissas of a row as integers. -/
def TRow.ints (r : TRow) : List Int := r.a.map BitVec.toInt
def wordsOf (l : List Int) : List Word := l.map (BitVec.ofInt 64)

/-- R72: set E_r, with OVF above the range. -/
def TRow.setE (r : TRow) (e : Int) : TRow :=
  if 2047 < e then { r with e := 2047, ovf := true } else { r with e := BitVec.ofInt 12 e }

/-- R69, fresh branch: the row takes the sums; the flag says whether an event is counted. -/
def TRow.stepFresh (r : TRow) (ps : List Part) : TRow × Bool :=
  let live := ps.filter (·.live)
  let ee := match live with | [] => 0 | x :: l => l.foldl (fun m y => min m y.e) x.e
  let xs := ps.map fun x => if x.live then x.p * 2 ^ (x.e - ee).toNat else 0
  let big := !xs.all fits64
  let k := if big then leastK (fun k => xs.all fun x => fitsG (rneShift x k)) 4500 1 else 0
  let ys := if big then xs.map (rneShift · k) else xs
  ({ r with a := wordsOf ys, bad := [], fresh := false }.setE (ee + k), big)

/-- R69, R72: whether the sums need a renormalisation event first. Once a change has tried to pass E_r = 2047 (OVF), a row that stands there
clamps instead. -/
def TRow.needsEvent (r : TRow) (ps : List Part) : Bool :=
  !(r.e.toInt = 2047 && r.ovf) && !(r.ints.zip ps).all fun x => fits64 (x.1 + alignTo x.2.p x.2.e r.e.toInt)

/-- R69, R72: the renormalisation event. -/
def TRow.event (r : TRow) (ps : List Part) : TRow :=
  let e := r.e.toInt
  let k := leastK (fun k => (r.ints.zip ps).all fun x => fitsG (rneShift x.1 k + alignTo x.2.p x.2.e (e + k))) 4500 1
  { r with a := wordsOf (r.ints.map (rneShift · k)), bad := [] }.setE (e + k)

/-- R69, R72: the accumulation into a row that is not fresh. -/
def TRow.accumulate (r : TRow) (ps : List Part) : TRow :=
  { r with a := wordsOf ((r.ints.zip ps).map fun x => clamp64 (x.1 + alignTo x.2.p x.2.e r.e.toInt)), bad := [] }

/-- R72: ACSC's change of E_r, below the range as well. An element whose parity is wrong keeps it, also where its mantissa is shifted (log
57). -/
def TRow.scale (r : TRow) (n : Int) : TRow :=
  let e := r.e.toInt + n
  if e < -2048 then
    { r with e := BitVec.ofInt 12 (-2048), a := wordsOf (r.ints.map (rneShift · (min (-2048 - e).toNat 70))) }
  else r.setE e

/-- R187: the state after ACZ. -/
def TRow.clear (r : TRow) : TRow :=
  { r with e := 0, a := r.a.map fun _ => 0, bad := [], fresh := true, nan := false, ovf := false, psn := false, par := false }

/-- R77: the exact values of a row for write-back when neither PSN nor PAR is set. -/
def TRow.values (r : TRow) : List FV :=
  r.a.map fun x =>
    let v := x.toInt
    if r.nan then .nan false
    else if r.ovf && v ≠ 0 then .inf (v < 0)
    else .num (v < 0) v.natAbs (if v = 0 then 0 else r.e.toInt)

end Sys2Proof.Machine
end

