-- ==== Sys2Proof/Machine/Vector.lean ====
section
/-! DEFINITION. The ES: registers, ticks, element forms and legality (R17 to R20, R37 to R43, R162 to R164, R195). -/

namespace Sys2Proof.Machine

/-! ## Fields of SH (R18) -/

def shRm (sh : Word) : Nat := (sh.extractLsb' 18 2).toNat
def shG (sh : Word) : Nat := 2 ^ (sh.extractLsb' 16 2).toNat
def shVl (sh : Word) : Nat := (sh.extractLsb' 4 12).toNat
def shTy (sh : Word) : Nat := (sh.extractLsb' 0 4).toNat
def shW (sh : Word) : Nat := tyWidth (shTy sh)

/-- R18, R165: a value SETSH accepts. -/
def shOk (sh : Word) : Bool :=
  sh.extractLsb' 20 44 = 0 && shTy sh < 12 && shVl sh ≠ 0 && shVl sh ≤ shG sh * 2048 / shW sh

/-! ## Registers -/

/-- R17: m0 reads as all ones. -/
def EsSt.rm (e : EsSt) (m : MReg) : EReg := if m = 0 then ⟨BitVec.allOnes 2048, false⟩ else e.m.get m.toFin

/-- Register number `n` of the v file, wrapping. -/
def EsSt.vn (e : EsSt) (n : Nat) : EReg := e.v.get (BitVec.ofNat 5 n).toFin

/-- R17: `k` registers from `n` on as one vector. -/
def EsSt.span (e : EsSt) (n k : Nat) : Nat := ((List.range k).map fun i => (e.vn (n + i)).bits.toNat * 2 ^ (2048 * i)).sum

/-- The OR of the tags of `k` registers. -/
def EsSt.spanPsn (e : EsSt) (n k : Nat) : Bool := (List.range k).any fun i => (e.vn (n + i)).psn

/-- Element i of width w. -/
def elAt (x w i : Nat) : Nat := x / 2 ^ (w * i) % 2 ^ w

/-! ## Ticks (R37 to R40) -/

/-- The bits that byte enables select. -/
def beBits (be : BitVec 256) : BitVec 2048 :=
  BitVec.ofNat 2048 ((List.range 256).map fun i => if be.getLsbD i then 255 * 2 ^ (8 * i) else 0).sum

/-- R163: one register of a write lands. -/
def EReg.land (r : EReg) (p : EPart) : EReg :=
  ⟨(r.bits &&& ~~~ beBits p.be) ||| (p.val &&& beBits p.be), if p.alone then p.psn else r.psn || p.psn⟩

/-- Parts of a write land in v registers from `n` on. -/
def EsSt.landV (e : EsSt) (n : Nat) : List EPart → EsSt
  | [] => e
  | p :: r =>
    let f : Fin 32 := (BitVec.ofNat 5 n).toFin
    { e with v := e.v.set f ((e.v.get f).land p) }.landV (n + 1) r

/-- Parts of a write land in masks; a write to m0 is discarded (R38). -/
def EsSt.landM (e : EsSt) (n : Nat) : List EPart → EsSt
  | [] => e
  | p :: r =>
    let f : Fin 8 := (BitVec.ofNat 3 n).toFin
    (if n % 8 = 0 then e else { e with m := e.m.set f ((e.m.get f).land p) }).landM (n + 1) r

/-- R7, R18: SH keeps what is written to bits 19:0; bits 63:20 are reserved and stay 0. -/
def shKept (v : Word) : Word := v &&& 0xFFFFF

/-- R19, R37, R41: an ES write lands, with its flags; bytes not enabled stay. An ETYPE or VL that R18 does not permit, which only a save area
can bring, lands as it is: the model's choice (log 60). -/
def EsSt.land (e : EsSt) (d : EPend) : EsSt :=
  let p := d.parts.headD ⟨0, 0, false, false⟩
  let be := p.be.extractLsb' 0 8
  let e := match d.cls with
    | .v => e.landV d.num d.parts
    | .m => e.landM d.num d.parts
    | .sh => { e with sh := shKept (overlay e.sh (p.val.extractLsb' 0 64) be) }
    | .flags => { e with flags := e.flags ||| (overlay 0 (p.val.extractLsb' 0 64) be).extractLsb' 0 6 }
  { e with flags := e.flags ||| d.flg }

/-- R37, R38: the end of an ES tick. -/
def EsSt.endTick (e : EsSt) : EsSt :=
  let l := e.infl.map fun x => { x with rem := x.rem - 1 }
  (l.filter fun x => x.rem = 0).foldl EsSt.land { e with infl := l.filter fun x => x.rem ≠ 0 }

/-- R192: the program counter after an instruction that does not branch. -/
def EsSt.advance (e : EsSt) : EsSt :=
  match e.rep with
  | none => { e with pc := e.pc + 4 }
  | some r => if r.k + 1 < r.count then { e with rep := some { r with k := r.k + 1 } } else { e with rep := none, pc := e.pc + 8 }

/-- R374 class 1, R404: an ES instruction issued, per register of the largest group or span that it reads or writes. -/
def State.chargeEs (s : State) (regs : Nat) : State := s.charge s.cell.asCtx s.cell.id 1 regs

/-- An ES instruction issues and control goes on; one without a group or span counts one register (R404). -/
def State.esNext (s : State) (regs : Nat := 1) : State := (s.chargeEs regs).updEs fun e => e.advance.endTick

/-- An ES instruction issues and control transfers. -/
def State.esJump (s : State) (x : Word) : State := (s.chargeEs 1).updEs fun e => { e with pc := x, rep := none }.endTick

/-- A write enters the ES pipeline. -/
def State.esPush (s : State) (lat : Nat) (cls : EClass) (num : Nat) (parts : List EPart) (flg : BitVec 6) : State :=
  s.updEs fun e => { e with infl := e.infl ++ [⟨lat, cls, num, parts, flg⟩] }

/-! ## Results -/

/-- R40, R162, R163: the parts of an element result over `k` registers: `els` holds the active elements, `tag` the tag of each
register. -/
def partsOf (w k : Nat) (els : List (Option Nat)) (tag : Nat → Bool) : List EPart :=
  let per := 2048 / w
  (List.range k).map fun r =>
    let l := (els.drop (r * per)).take per
    let v := (l.zipIdx.map fun x => match x.1 with | some y => y * 2 ^ (w * x.2) | none => 0).sum
    let b := (l.zipIdx.map fun x => match x.1 with | some _ => (2 ^ (w / 8) - 1) * 2 ^ (w / 8 * x.2) | none => 0).sum
    ⟨BitVec.ofNat 2048 v, BitVec.ofNat 256 b, tag r, l.length = per && l.all Option.isSome⟩

/-- A register written in full, every element position being active. -/
def fullPart (v : BitVec 2048) (psn : Bool) : EPart := ⟨v, BitVec.allOnes 256, psn, true⟩

/-- R163: a register written in full that takes the tag alone only when every element position of it is active. -/
def wholePart (v : BitVec 2048) (psn alone : Bool) : EPart := ⟨v, BitVec.allOnes 256, psn, alone⟩

/-- Element results are delivered to `k` registers from `d` on and the instruction issues; `regs`: the registers it is charged for (R404). -/
def State.esWrite (s : State) (lat : Nat) (d : VReg) (w k : Nat) (els : List (Option Nat)) (tag : Bool) (flg : BitVec 6)
    (regs : Nat := k) : State :=
  (s.esPush lat .v d.toNat (partsOf w k els fun _ => tag) flg).esNext regs

/-- One mask is written in full and the instruction issues. -/
def State.esWriteM (s : State) (lat : Nat) (d : MReg) (v : BitVec 2048) (tag : Bool) (flg : BitVec 6) : State :=
  (s.esPush lat .m d.toNat [fullPart v tag] flg).esNext

/-! ## Operands -/

/-- The ES operands of one issue: SH fields, the governing mask. -/
structure Ev where
  w : Nat
  g : Nat
  vl : Nat
  ty : Nat
  rm : Nat
  mask : EReg
deriving DecidableEq, Repr, Inhabited

def State.ev (s : State) (m : MReg) : Ev :=
  let sh := s.cell.es.sh
  ⟨shW sh, shG sh, shVl sh, shTy sh, shRm sh, s.cell.es.rm m⟩

/-- R162. -/
def Ev.active (x : Ev) (i : Nat) : Bool := i < x.vl && x.mask.bits.getLsbD i

/-- R163: every one of the first `n` element positions is active: 2048 / w of them fill a v register, 2048 a mask (log 56). -/
def Ev.full (x : Ev) (n : Nat) : Bool := (List.range n).all x.active

/-- A group operand: element function and tag. -/
def State.grp (s : State) (x : Ev) (v : VReg) : (Nat → Nat) × Bool :=
  let n := s.cell.es.span v.toNat x.g
  (fun i => elAt n x.w i, s.cell.es.spanPsn v.toNat x.g)

/-- R87, R171, R195: operand b: a group, or a scalar popped from a data queue, which blocks until its head has arrived. -/
def State.withB (s : State) (x : Ev) (b : VB) (go : State → (Nat → Nat) → Bool → State) : State :=
  match b with
  | .reg v => go s (s.grp x v).1 (s.grp x v).2
  | .queue q =>
    match popHead s.pkg.time.clk (s.cell.qs.dq q) with
    | none => s
    | some (e, r) => go (s.updQs fun k => k.setDq q r) (fun _ => e.v.toNat % 2 ^ x.w) e.psn

/-- Wait for the head of a data queue without popping it. -/
def State.headOf (s : State) (q : BitVec 2) (go : QEnt → List QEnt → State) : State :=
  match popHead s.pkg.time.clk (s.cell.qs.dq q) with
  | none => s
  | some (e, r) => go e r

/-- R162: apply an element function to the active elements, collecting flags. -/
def mapActive (x : Ev) (f : Nat → Nat × BitVec 6) : List (Option Nat) × BitVec 6 :=
  let l := (List.range x.vl).map fun i => if x.active i then some (f i) else none
  (l.map fun y => y.map (·.1), l.foldl (fun a y => match y with | some z => a ||| z.2 | none => a) 0)

/-! ## Legality (R162, R164, R171 to R183) -/

/-- A group from `v` on lies inside the register file. -/
def groupIn (sh : Word) (v : VReg) : Bool := v.toNat + shG sh ≤ 32
def groupB (sh : Word) : VB → Bool
  | .reg v => groupIn sh v
  | .queue _ => true

/-- R164: an element type of the table: 0xC to 0xF, which R18 reserves, are none. -/
def anyTy (sh : Word) : Bool := shTy sh ≤ 11

/-- A float or integer type, the saturating bit only under an integer one. -/
def arithTy (sh : Word) (sat : Bool) : Bool := shTy sh ≤ 10 && (!sat || tyInt (shTy sh))

/-- ceil(a / b). -/
def ceilDiv (a b : Nat) : Nat := (a + b - 1) / b

/-- Registers that VL elements of width `w` span. -/
def spanOf (sh : Word) (w : Nat) : Nat := ceilDiv (shVl sh * w) 2048

/-- R177: bytes of the source of VDQB. -/
def dqbBytes (sh : Word) (bx3 : Bool) : Nat := if bx3 then shVl sh / 2 else shVl sh

/-- R162, R164 and the conditions of chapter 06 called illegal that depend on SH. -/
def esLegal (sh : Word) (i : Instr) : Bool :=
  let ty := shTy sh
  let g := groupIn sh
  match i with
  | .setsh o => shOk (BitVec.ofNat 64 ((o.rm ++ o.grp ++ o.vl ++ o.ety : BitVec 20).toNat))
  | .vld o | .vst o => anyTy sh && g o.d
  | .vldq o => anyTy sh && g o.d
  | .vbc o => anyTy sh && g o.d
  | .vsty o => anyTy sh && g o.s && o.idx.toNat < shVl sh
  | .vadd o | .vsub o | .vmul o => arithTy sh o.sat && g o.d && g o.a && groupB sh o.b
  | .vfma o | .vfms o | .vmin o | .vmax o => arithTy sh false && g o.d && g o.a && groupB sh o.b
  | .vabs o | .vneg o => arithTy sh o.sat && g o.d && g o.a
  | .vrcp o | .vrsq o | .vexp2 o | .vlog2 o => tyFloat ty && g o.d && g o.a
  | .vcvt o =>
    ty ≤ 10 && (!o.sat || (tyInt ty && tyInt o.ty.toNat)) && g o.a && o.d.toNat + spanOf sh (tyWidth o.ty.toNat) ≤ 32
  | .vqb o => tyFloat ty && shVl sh % 64 = 0 && g o.a && o.d.toNat + ceilDiv (shVl sh) 256 ≤ 32
  | .vdqb o =>
    tyFloat ty && shVl sh % (if o.bx3 then 128 else 64) = 0 && g o.d && o.a.toNat + ceilDiv (dqbBytes sh o.bx3) 256 ≤ 32
  | .vand o | .vor o | .vxor o => anyTy sh && g o.d && g o.a && groupB sh o.b
  | .vshl o | .vshr o | .vsar o => tyInt ty && g o.d && g o.a && groupB sh o.b
  | .vshlImm o | .vshrImm o | .vsarImm o => tyInt ty && g o.d && g o.a
  | .viota o => tyInt ty && g o.d
  | .vsel o | .vperm o => anyTy sh && g o.d && g o.a && g o.b
  | .vcmp o => arithTy sh false && (o.cond ≠ .un || tyFloat ty) && g o.a && groupB sh o.b
  | .vrsum o | .vrmax o | .vrmin o | .vrmaxi o | .vrmini o => arithTy sh false && g o.a
  | .vslide o => anyTy sh && g o.d && g o.a
  | .vgath o => anyTy sh && g o.d && o.a.toNat + 8 ≤ 32 && g o.b
  | .vrng o => (ty = 2 || ty = 6) && g o.d && g o.a && g o.b
  | _ => true

/-- R195: an ES instruction that is legal under SH, or an illegal-instruction fault. -/
def State.esLegalOr (s : State) (i : Instr) (go : State → State) : State :=
  if esLegal s.cell.es.sh i then go s else s.esFault cIllegal (wordOf i)

/-! ## What the ES fetches next -/

/-- R86, R135, R164, R192: EREP checks the word after it and every repetition under SH, then starts; a fault at it is one before
repetition 0. -/
def execErep (o : OpRep) (s : State) : Res :=
  .next (match s.fetchWord 1 s.cell.esbase s.cell.essize (s.cell.es.pc + 4) with
    | (t, none) => (t.updEs fun e => { e with rep := some (repStart o) }).esFault cEsFetch (s.cell.es.pc + 4)
    | (t, some w) =>
      let t := t.updEs fun e => { e with rep := some (repStart o) }
      match decodeEs w with
      | .error _ => t.esFault cIllegal (w.zeroExtend 64)
      | .ok i =>
        let legal := (List.range (o.cnt1.toNat + 1)).all fun k =>
          match decodeEs (stepEsWord w { repStart o with k := k }) with
          | .ok j => esLegal t.cell.es.sh j
          | .error _ => false
        if stepsOk o (vFields i) && legal then t else t.esFault cIllegal (wordOf (.erep o)))

end Sys2Proof.Machine
end

