-- ==== Sys2Proof/Machine/EsMove.lean ====
section
/-! DEFINITION. ES shape, moves, control and synchronisation (R165 to R170, R190 to R194). -/

namespace Sys2Proof.Machine

/-! ## SETSH (R165) -/

/-- A new shape lands after 1 tick. -/
def State.shapeNext (s : State) (v : Word) : State := (s.esPush 1 .sh 0 [fullPart (v.zeroExtend 2048) false] 0).esNext

/-- R165. -/
def execSetsh (o : OpSetsh) (s : State) : Res :=
  .next (s.esLegalOr (.setsh o) fun s => s.shapeNext (BitVec.ofNat 64 ((o.rm ++ o.grp ++ o.vl ++ o.ety : BitVec 20).toNat)))

/-- R165: the queue form leaves a refused entry at the head. An entry both tagged and outside R18 takes the poison-consumed cause
(log 54). -/
def execSetshQ (o : OpSetshQ) (s : State) : Res :=
  .next (s.headOf o.q fun e r =>
    if e.psn then s.esFault cPoison e.v
    else if !shOk e.v then s.esFault cIllegal (wordOf (.setshQ o))
    else (s.updQs fun k => k.setDq o.q r).shapeNext e.v)

/-! ## VLD, VST (R166, R167) -/

/-- R166: the checks of an address popped from a data queue, for `n` bytes. -/
def State.esAccess (s : State) (need : Need) (base : Word) (fn : BitVec 8) (n : Nat) : Except Nat Place :=
  let off := (base.extractLsb' 0 58).toNat + fn.toNat * 256
  if 2 ^ 58 ≤ off then .error cBounds
  else if off % 8 ≠ 0 then .error cAlign
  else
    match segCheck s.cell need (segNo base) off n with
    | .error c => .error c
    | .ok e => .ok (spadPlace s.cell.id (e.base + off))

/-- R166: ETRAPVAL of a failing address. -/
def esEa (base : Word) (fn : BitVec 8) : Word := base.extractLsb' 58 6 ++ (base.extractLsb' 0 58 + fn.zeroExtend 58 * 256)

/-- Read `n` words of the scratchpad from a place on: the bytes as a number, and the tag of each word. -/
def State.readWords (s : State) (w : Who) (p : Place) (sa : Word) : Nat → State × Nat × List Bool
  | 0 => (s, 0, [])
  | n + 1 =>
    let r := s.readW w p sa
    let r := r.1.loadVal r.2
    let t := r.1.readWords w (p.plus 8) (sa + 8) n
    (t.1, r.2.v.toNat + t.2.1 * 2 ^ 64, r.2.psn :: t.2.2)

/-- R166: the common part of VLD and VST: wait for the head, check it, pop it. -/
def State.esMem (s : State) (need : Need) (o : OpVmem) (go : State → Place → Word → State) : State :=
  s.headOf o.q fun e r =>
    if e.psn then s.esFault cPoison e.v
    else
      let x := s.ev o.m
      match s.esAccess need e.v o.off (x.vl * x.w / 8) with
      | .error c => s.esFault c (esEa e.v o.off)
      | .ok p => go (s.updQs fun k => k.setDq o.q r) p (esEa e.v o.off)

/-- R167: whether register `j` of the destination takes bytes of a marked word: `marks` has the marker of each word read. -/
def markedReg (x : Ev) (marks : List Bool) (j : Nat) : Bool :=
  (List.range (2048 / x.w)).any fun i =>
    x.active (2048 / x.w * j + i) && marks.getD ((2048 / x.w * j + i) * x.w / 64) false

/-- R167. -/
def execVld (o : OpVmem) (s : State) : Res :=
  .next (s.esLegalOr (.vld o) fun s => s.esMem needSpadR o fun s p sa =>
    let x := s.ev o.m
    let r := s.readWords (s.cell.who 1) p sa (ceilDiv (x.vl * x.w / 8) 8)
    let els := (List.range x.vl).map fun i => if x.active i then some (elAt r.2.1 x.w i) else none
    let tag := fun j => x.mask.psn || markedReg x r.2.2 j
    (r.1.esPush 5 .v o.d.toNat (partsOf x.w x.g els tag) 0).esNext x.g)

/-- The bytes that active elements cover, as a number of one bit per byte. -/
def activeBytes (x : Ev) : Nat :=
  ((List.range x.vl).map fun i => if x.active i then (2 ^ (x.w / 8) - 1) * 2 ^ (x.w / 8 * i) else 0).sum

/-- R167: store `n` words, each under its byte mask; a word with no byte written stays as it is. -/
def MemSt.storeWords (m : MemSt) (p : Place) (v be : Nat) (psn : Bool) : Nat → MemSt
  | 0 => m
  | n + 1 =>
    let m := if be % 256 = 0 then m else m.putNow p.wkey (BitVec.ofNat 64 v) (BitVec.ofNat 8 be) psn
    m.storeWords (p.plus 8) (v / 2 ^ 64) (be / 256) psn n

/-- R167. -/
def execVst (o : OpVmem) (s : State) : Res :=
  .next (s.esLegalOr (.vst o) fun s => s.esMem needSpadW o fun s p _ =>
    let x := s.ev o.m
    (s.updMem fun m => m.storeWords p (s.cell.es.span o.d.toNat x.g) (activeBytes x) (s.cell.es.spanPsn o.d.toNat x.g)
      (ceilDiv (x.vl * x.w / 8) 8)).esNext x.g)

/-! ## Queue moves (R168, R169) -/

/-- R168: the group shifts up by 64 bits and the entry enters at the bottom. -/
def execVldq (o : OpVldq) (s : State) : Res :=
  .next (s.esLegalOr (.vldq o) fun s => s.headOf o.q fun e r =>
    let g := shG s.cell.es.sh
    let v := s.cell.es.span o.d.toNat g * 2 ^ 64 + e.v.toNat
    let tag := e.psn || s.cell.es.spanPsn o.d.toNat g
    let parts := (List.range g).map fun i => fullPart (BitVec.ofNat 2048 (v / 2 ^ (2048 * i))) tag
    ((s.updQs fun k => k.setDq o.q r).esPush 2 .v o.d.toNat parts 0).esNext g)

/-- R168. -/
def execVbc (o : OpVbc) (s : State) : Res :=
  .next (s.esLegalOr (.vbc o) fun s => s.headOf o.q fun e r =>
    let x := s.ev o.m
    let els := (mapActive x fun _ => (e.v.toNat % 2 ^ x.w, 0)).1
    (s.updQs fun k => k.setDq o.q r).esWrite 2 o.d x.w x.g els (e.psn || x.mask.psn) 0)

/-- R169: push into y0 or y1, blocking while it is full. -/
def State.pushY (s : State) (y : Bool) (v : Nat) (psn : Bool) : State :=
  if Config.capQ ≤ (s.cell.qs.yq y).length then s
  else (s.updQs fun k => k.setYq y (k.yq y ++ [⟨BitVec.ofNat 64 v, psn, true, s.ready, 0⟩])).esNext

/-- R169. -/
def execVsty (o : OpVsty) (s : State) : Res :=
  .next (s.esLegalOr (.vsty o) fun s =>
    let x := s.ev 0
    let a := s.grp x o.s
    s.pushY o.y (a.1 o.idx.toNat) a.2)

/-- R169: elements below VL where both masks are 1. -/
def execMpop (o : OpMpop) (s : State) : Res :=
  .next (
    let x := s.ev o.m
    let a := s.cell.es.rm o.a
    s.pushY o.y ((List.range x.vl).countP fun i => a.bits.getLsbD i && x.mask.bits.getLsbD i) (a.psn || x.mask.psn))

/-! ## Control (R190, R191) -/

/-- R190: a branch target. -/
def State.esTarget (s : State) (disp : BitVec 21) : Word := s.cell.es.pc + disp.signExtend 64 * 4

/-- R190: the value of a condition on a mask. -/
def econd (x : Ev) (c : ECond) : Bool :=
  match c with
  | .always => true
  | .any => (List.range x.vl).any fun i => x.mask.bits.getLsbD i
  | .none => !(List.range x.vl).any fun i => x.mask.bits.getLsbD i

/-- R190: EPBR is a hint. -/
def execEpbr (_ : OpDisp) (s : State) : Res := .next s.esNext

/-- R190: the target is checked whether or not the branch is taken; a tagged mask faults before a bad target, and its ETRAPVAL, for which
R153 has no value, is 0 (log 54). -/
def execEbr (o : OpEbr) (s : State) : Res :=
  .next (
    let x := s.ev o.m
    if o.cond ≠ .always && x.mask.psn then s.esFault cPoison 0
    else if !inSection s.cell.esbase s.cell.essize (s.esTarget o.disp) then s.esFault cEsFetch (s.esTarget o.disp)
    else if econd x o.cond then s.esJump (s.esTarget o.disp)
    else s.esNext)

/-- R191: EBRQ checks its target, then waits for a bit of bqa. -/
def execEbrq (o : OpDisp) (s : State) : Res :=
  .next (
    if !inSection s.cell.esbase s.cell.essize (s.esTarget o.disp) then s.esFault cEsFetch (s.esTarget o.disp)
    else
      match s.cell.qs.bqa with
      | b :: r =>
        if b.from_ ≤ s.pkg.time.clk then
          let t := s.updQs fun k => { k with bqa := r }
          if b.v then t.esJump (s.esTarget o.disp) else t.esNext
        else s
      | [] => s)

/-- R191: EBQP pushes into bqe and blocks while it is full; ETRAPVAL of a tagged mask is 0 (log 54). -/
def execEbqp (o : OpEbqp) (s : State) : Res :=
  .next (
    let x := s.ev o.m
    if o.cond ≠ .always && x.mask.psn then s.esFault cPoison 0
    else if Config.capBq ≤ s.cell.qs.bqe.length then s
    else (s.updQs fun k => { k with bqe := k.bqe ++ [⟨econd x o.cond, s.ready⟩] }).esNext)

/-! ## Semaphores and the end (R193, R194) -/

/-- R193. -/
def execEsemw (o : OpEsem) (s : State) : Res :=
  .next (match s.sem o.s with
    | none => s.esNext
    | some (.err c) => s.esFault cSem (semErrVal o.s c)
    | some (.count n) => if n = 0 then s else (s.setSem o.s (.count (n - 1))).esNext)

/-- R193. -/
def execEsems (o : OpEsem) (s : State) : Res := .next ((s.signal o.s).esNext)

/-- R194: nothing after EEXIT is fetched; writes in flight land in the ticks that follow. -/
def execEexit (s : State) : Res :=
  .next ((s.esNext).updEs fun e => { e with run := if e.infl.isEmpty then .idle else .draining })

end Sys2Proof.Machine
end

