-- ==== Sys2Proof/Machine/EsArith.lean ====
section
/-! DEFINITION. ES arithmetic, logic, conversions and block quantisation (R171 to R177). -/

namespace Sys2Proof.Machine

/-! ## Elementwise forms (R171) -/

/-- R93: latency of the arithmetic forms: float and integer. -/
def latOf (ty float int : Nat) : Nat := if tyInt ty then int else float

/-- R171: an elementwise instruction with operand b: the function sees elements a, b and the old destination. -/
def State.elementwise (s : State) (i : Instr) (m : MReg) (d a : VReg) (b : VB) (lat : Nat) (useD : Bool)
    (f : Ev → Nat → Nat → Nat → Nat × BitVec 6) : State :=
  s.esLegalOr i fun s =>
    let x := s.ev m
    let av := s.grp x a
    let dv := s.grp x d
    s.withB x b fun s bv bt =>
      let r := mapActive x fun i => f x (av.1 i) (bv i) (dv.1 i)
      s.esWrite lat d x.w x.g r.1 (av.2 || bt || x.mask.psn || (useD && dv.2)) r.2

/-- An elementwise instruction of one source. -/
def State.elementwise1 (s : State) (i : Instr) (m : MReg) (d a : VReg) (lat : Nat) (f : Ev → Nat → Nat × BitVec 6) : State :=
  s.esLegalOr i fun s =>
    let x := s.ev m
    let av := s.grp x a
    let r := mapActive x fun i => f x (av.1 i)
    s.esWrite lat d x.w x.g r.1 (av.2 || x.mask.psn) r.2

/-- The type in force. -/
def State.ty (s : State) : Nat := shTy s.cell.es.sh

/-- A form with a float and an integer operation (R171): the integer one exact, then narrowed. -/
def arith2 (sat : Bool) (ff : Nat → FV → FV → FRes) (fi : Int → Int → Int) (x : Ev) (a b _c : Nat) : Nat × BitVec 6 :=
  if tyInt x.ty then narrow x.ty sat (fi (intOf x.ty a) (intOf x.ty b))
  else
    let f := fmtOf x.ty
    f.deliver x.rm (ff x.rm (f.decode a) (f.decode b))

/-- A fused form (R171): `neg` negates the product. -/
def fused (neg : Bool) (x : Ev) (a b c : Nat) : Nat × BitVec 6 :=
  if tyInt x.ty then
    let p := intOf x.ty a * intOf x.ty b
    narrow x.ty false (intOf x.ty c + (if neg then -p else p))
  else
    let f := fmtOf x.ty
    let a := f.decode a
    f.deliver x.rm (fFma x.rm (if neg then a.neg else a) (f.decode b) (f.decode c))

/-- R172: minimum (`max` false) and maximum of one element. -/
def minMax (max : Bool) (x : Ev) (a b _c : Nat) : Nat × BitVec 6 :=
  if tyInt x.ty then
    let l := intOf x.ty a < intOf x.ty b
    (if l = max then b else a, 0)
  else
    let f := fmtOf x.ty
    let u := f.decode a
    let v := f.decode b
    let fl := if u.sig || v.sig then fNV else 0
    match u.isNan, v.isNan with
    | true, true => (f.nanBits, fl)
    | true, false => (b, fl)
    | false, true => (a, fl)
    | false, false => (if max then (if u.ltz v then b else a) else (if v.ltz u then b else a), fl)

/-- R171, R172. -/
def absEl (sat : Bool) (x : Ev) (a : Nat) : Nat × BitVec 6 :=
  if tyInt x.ty then narrow x.ty sat (intOf x.ty a).natAbs else (a % 2 ^ (x.w - 1), 0)

/-- R171, R172. -/
def negEl (sat : Bool) (x : Ev) (a : Nat) : Nat × BitVec 6 :=
  if tyInt x.ty then narrow x.ty sat (-(intOf x.ty a)) else ((a + 2 ^ (x.w - 1)) % 2 ^ x.w, 0)

/-- R173: kinds of shift. -/
inductive Sh3 | left | right | arith
deriving DecidableEq, Repr, Inhabited

/-- R173: one element shifted by n. -/
def shiftEl (k : Sh3) (x : Ev) (a n : Nat) : Nat :=
  let neg := 2 ^ (x.w - 1) ≤ a
  match k with
  | .left => if x.w ≤ n then 0 else a * 2 ^ n % 2 ^ x.w
  | .right => if x.w ≤ n then 0 else a / 2 ^ n
  | .arith =>
    if x.w ≤ n then (if neg then 2 ^ x.w - 1 else 0)
    else if neg then 2 ^ x.w - 1 - (2 ^ x.w - 1 - a) / 2 ^ n else a / 2 ^ n

/-! ## Arithmetic and logic -/

/-- R171. -/
def execVadd (o : OpV3s) (s : State) : Res :=
  .next (s.elementwise (.vadd o) o.m o.d o.a o.b (latOf s.ty 3 2) false (arith2 o.sat fAdd fun a b => a + b))

/-- R171. -/
def execVsub (o : OpV3s) (s : State) : Res :=
  .next (s.elementwise (.vsub o) o.m o.d o.a o.b (latOf s.ty 3 2) false (arith2 o.sat (fun rm a b => fAdd rm a b.neg) fun a b => a - b))

/-- R171. -/
def execVmul (o : OpV3s) (s : State) : Res :=
  .next (s.elementwise (.vmul o) o.m o.d o.a o.b (latOf s.ty 3 2) false (arith2 o.sat (fun _ a b => fMul a b) fun a b => a * b))

/-- R171: a × b + c with one rounding. -/
def execVfma (o : OpV3) (s : State) : Res :=
  .next (s.elementwise (.vfma o) o.m o.d o.a o.b (latOf s.ty 4 2) true (fused false))

/-- R171: c − a × b with one rounding. -/
def execVfms (o : OpV3) (s : State) : Res :=
  .next (s.elementwise (.vfms o) o.m o.d o.a o.b (latOf s.ty 4 2) true (fused true))

/-- R172. -/
def execVmin (o : OpV3) (s : State) : Res := .next (s.elementwise (.vmin o) o.m o.d o.a o.b (latOf s.ty 3 2) false (minMax false))

/-- R172. -/
def execVmax (o : OpV3) (s : State) : Res := .next (s.elementwise (.vmax o) o.m o.d o.a o.b (latOf s.ty 3 2) false (minMax true))

/-- R171, R172. -/
def execVabs (o : OpV2s) (s : State) : Res := .next (s.elementwise1 (.vabs o) o.m o.d o.a 2 (absEl o.sat))

/-- R171, R172. -/
def execVneg (o : OpV2s) (s : State) : Res := .next (s.elementwise1 (.vneg o) o.m o.d o.a 2 (negEl o.sat))

/-- A function of R174 on one element. -/
def special (f : FV → FV × BitVec 6) (x : Ev) (a : Nat) : Nat × BitVec 6 :=
  (fmtOf x.ty).deliverFl x.rm (f ((fmtOf x.ty).decode a))

/-- R174. -/
def execVrcp (o : OpV2) (s : State) : Res := .next (s.elementwise1 (.vrcp o) o.m o.d o.a 5 (special fRcp))

/-- R174. -/
def execVrsq (o : OpV2) (s : State) : Res := .next (s.elementwise1 (.vrsq o) o.m o.d o.a 5 (special fRsq))

/-- R174. -/
def execVexp2 (o : OpV2) (s : State) : Res := .next (s.elementwise1 (.vexp2 o) o.m o.d o.a 6 (special fExp2))

/-- R174. -/
def execVlog2 (o : OpV2) (s : State) : Res := .next (s.elementwise1 (.vlog2 o) o.m o.d o.a 6 (special fLog2))

/-- R171: bitwise forms act on the element patterns. -/
def execVand (o : OpV3) (s : State) : Res :=
  .next (s.elementwise (.vand o) o.m o.d o.a o.b 2 false fun _ a b _ => (a &&& b, 0))

/-- R171. -/
def execVor (o : OpV3) (s : State) : Res :=
  .next (s.elementwise (.vor o) o.m o.d o.a o.b 2 false fun _ a b _ => (a ||| b, 0))

/-- R171. -/
def execVxor (o : OpV3) (s : State) : Res :=
  .next (s.elementwise (.vxor o) o.m o.d o.a o.b 2 false fun _ a b _ => (a ^^^ b, 0))

/-- R173. -/
def execVshl (o : OpV3) (s : State) : Res :=
  .next (s.elementwise (.vshl o) o.m o.d o.a o.b 2 false fun x a b _ => (shiftEl .left x a b, 0))

/-- R173. -/
def execVshlImm (o : OpVshi) (s : State) : Res :=
  .next (s.elementwise1 (.vshlImm o) o.m o.d o.a 2 fun x a => (shiftEl .left x a o.k.toNat, 0))

/-- R173. -/
def execVshr (o : OpV3) (s : State) : Res :=
  .next (s.elementwise (.vshr o) o.m o.d o.a o.b 2 false fun x a b _ => (shiftEl .right x a b, 0))

/-- R173. -/
def execVshrImm (o : OpVshi) (s : State) : Res :=
  .next (s.elementwise1 (.vshrImm o) o.m o.d o.a 2 fun x a => (shiftEl .right x a o.k.toNat, 0))

/-- R173. -/
def execVsar (o : OpV3) (s : State) : Res :=
  .next (s.elementwise (.vsar o) o.m o.d o.a o.b 2 false fun x a b _ => (shiftEl .arith x a b, 0))

/-- R173. -/
def execVsarImm (o : OpVshi) (s : State) : Res :=
  .next (s.elementwise1 (.vsarImm o) o.m o.d o.a 2 fun x a => (shiftEl .arith x a o.k.toNat, 0))

/-! ## Conversion and blocks (R175 to R177) -/

/-- R175: element i goes to the destination type; inactive elements keep their values. -/
def execVcvt (o : OpVcvt) (s : State) : Res :=
  .next (s.esLegalOr (.vcvt o) fun s =>
    let x := s.ev o.m
    let av := s.grp x o.a
    let dt := o.ty.toNat
    let r := mapActive x fun i => convertEl x.rm x.ty dt o.sat (av.1 i)
    let k := ceilDiv (x.vl * tyWidth dt) 2048
    s.esWrite 3 o.d (tyWidth dt) k r.1 (av.2 || x.mask.psn) r.2 (max x.g k))

/-- R176: flags of the flagged form. -/
def quantFlags (q : Quant) : BitVec 6 :=
  (if q.nan then fNV else 0) ||| (if q.inf || q.sat then fOF else 0)

/-- R176. -/
def execVqb (o : OpVqb) (s : State) : Res :=
  .next (s.esLegalOr (.vqb o) fun s =>
    let x := s.ev 0
    let av := s.grp x o.a
    let f := fmtOf x.ty
    let qs := (List.range (x.vl / 64)).map fun b => quantBlock ((List.range 64).map fun i => f.decode (av.1 (64 * b + i)))
    let v := (qs.zipIdx.map fun q => q.1.bytes * 2 ^ (512 * q.2)).sum
    let parts := (List.range (ceilDiv x.vl 256)).map fun i =>
      wholePart (BitVec.ofNat 2048 (v / 2 ^ (2048 * i))) av.2 (256 * i + 256 ≤ x.vl)
    (s.esPush 4 .v o.d.toNat parts (if o.flag then qs.foldl (fun a q => a ||| quantFlags q) 0 else 0)).esNext (max x.g parts.length))

/-- R177: element i of a decoded block in a float format. -/
def dqbEl (f : FFmt) (rm : Nat) (b : Block) (i : Nat) : Nat × BitVec 6 :=
  match b with
  | .zero => (0, 0)
  | .invalid => (f.nanBits, 0)
  | .malformed => (f.nanBits, fNV)
  | .groups gs =>
    match gs[i / 32]? with
    | none => (0, 0)
    | some g => f.encode rm (g.val (g.els.getD (i % 32) (false, false, 0)))

/-- R177. -/
def execVdqb (o : OpVdqb) (s : State) : Res :=
  .next (s.esLegalOr (.vdqb o) fun s =>
    let x := s.ev o.m
    let bytes := dqbBytes s.cell.es.sh o.bx3
    let k := ceilDiv bytes 256
    let n := s.cell.es.span o.a.toNat k
    let per := if o.bx3 then 128 else 64
    let blocks := (List.range (bytes / 64)).map fun b => readBlock o.bx3 (n / 2 ^ (512 * b) % 2 ^ 512)
    let r := mapActive x fun i => dqbEl (fmtOf x.ty) x.rm (blocks.getD (i / per) .zero) (i % per)
    s.esWrite 3 o.d x.w x.g r.1 (s.cell.es.spanPsn o.a.toNat k || x.mask.psn) r.2 (max x.g k))

end Sys2Proof.Machine
end

