-- ==== Sys2Proof/Machine/EsSelect.lean ====
section
/-! DEFINITION. ES compares, masks, selection, reductions, permutes, VRNG and accumulator access (R178 to R189). -/

namespace Sys2Proof.Machine

/-! ## Compares, masks, selection (R178 to R180) -/

/-- R178: a condition on integers and on floats. -/
def vcondInt (c : VCond) (a b : Int) : Bool :=
  match c with
  | .eq => a = b
  | .ne => a ≠ b
  | .lt => a < b
  | .le => a ≤ b
  | .gt => b < a
  | .ge => b ≤ a
  | .un => false

/-- R178: the conditions that raise NV on any NaN. -/
def vcondOrdered : VCond → Bool
  | .lt | .le | .gt | .ge => true
  | .eq | .ne | .un => false

/-- R178: the conditions that hold when an operand is a NaN. -/
def vcondOnNan : VCond → Bool
  | .ne | .un => true
  | .eq | .lt | .le | .gt | .ge => false

/-- R178: a condition on two operands that are no NaN. -/
def vcondOnNumbers (c : VCond) (a b : FV) : Bool :=
  match c with
  | .eq => !a.lt b && !b.lt a
  | .ne => a.lt b || b.lt a
  | .lt => a.lt b
  | .le => !b.lt a
  | .gt => b.lt a
  | .ge => !a.lt b
  | .un => false

/-- R178: float compares with their NV. -/
def vcondFloat (c : VCond) (a b : FV) : Bool × BitVec 6 :=
  if a.isNan || b.isNan then (vcondOnNan c, if a.sig || b.sig || vcondOrdered c then fNV else 0)
  else (vcondOnNumbers c a b, 0)

/-- R178. -/
def vcondEl (c : VCond) (x : Ev) (a b : Nat) : Nat × BitVec 6 :=
  if tyInt x.ty then ((vcondInt c (intOf x.ty a) (intOf x.ty b)).toNat, 0)
  else
    let r := vcondFloat c ((fmtOf x.ty).decode a) ((fmtOf x.ty).decode b)
    (r.1.toNat, r.2)

/-- R178: the whole mask is written. -/
def execVcmp (o : OpVcmp) (s : State) : Res :=
  .next (s.esLegalOr (.vcmp o) fun s =>
    let x := s.ev o.m
    let av := s.grp x o.a
    s.withB x o.b fun s bv bt =>
      let r := mapActive x fun i => vcondEl o.cond x (av.1 i) (bv i)
      let v := (r.1.zipIdx.map fun y => y.1.getD 0 * 2 ^ y.2).sum
      (s.esPush 2 .m o.d.toNat [wholePart (BitVec.ofNat 2048 v) (av.2 || bt || x.mask.psn) (x.full 2048)] r.2).esNext x.g)

/-- R179: a mask form of two operands. -/
def State.maskOp (s : State) (o : OpM3) (f : BitVec 2048 → BitVec 2048 → BitVec 2048) : State :=
  let a := s.cell.es.rm o.a
  let b := s.cell.es.rm o.b
  s.esWriteM 2 o.d (f a.bits b.bits) (a.psn || b.psn) 0

/-- R179. -/
def execMand (o : OpM3) (s : State) : Res := .next (s.maskOp o fun a b => a &&& b)

/-- R179. -/
def execMor (o : OpM3) (s : State) : Res := .next (s.maskOp o fun a b => a ||| b)

/-- R179. -/
def execMxor (o : OpM3) (s : State) : Res := .next (s.maskOp o fun a b => a ^^^ b)

/-- R179. -/
def execMnot (o : OpM2) (s : State) : Res :=
  .next (s.esWriteM 2 o.d (~~~ (s.cell.es.rm o.a).bits) (s.cell.es.rm o.a).psn 0)

/-- R180. -/
def execViota (o : OpViota) (s : State) : Res :=
  .next (s.esLegalOr (.viota o) fun s =>
    let x := s.ev o.m
    s.esWrite 2 o.d x.w x.g (mapActive x fun i => (i % 2 ^ x.w, 0)).1 x.mask.psn 0)

/-- R180: the mask selects; every element below VL is written. -/
def execVsel (o : OpVr3) (s : State) : Res :=
  .next (s.esLegalOr (.vsel o) fun s =>
    let x := s.ev o.m
    let a := s.grp x o.a
    let b := s.grp x o.b
    let els := (List.range x.vl).map fun i => some (if x.mask.bits.getLsbD i then a.1 i else b.1 i)
    s.esWrite 2 o.d x.w x.g els (a.2 || b.2 || x.mask.psn) 0)

/-! ## Reductions (R181, R182) -/

/-- One level of the tree. -/
def treeLevel {α : Type} (f : α → α → α) : List (Option α) → List (Option α)
  | x :: y :: r => (match x, y with | some a, some b => some (f a b) | some a, none => some a | none, z => z) :: treeLevel f r
  | l => l

/-- The tree over 2^n leaves. -/
def treeGo {α : Type} (f : α → α → α) : Nat → List (Option α) → Option α
  | 0, l => match l with | x :: _ => x | [] => none
  | n + 1, l => treeGo f n (treeLevel f l)

/-- R181: the active elements combined in the fixed tree. -/
def reduceTree {α : Type} (x : Ev) (el : Nat → α) (f : α → α → α) : Option α :=
  let n := ceilLog2 x.vl
  treeGo f n ((List.range (2 ^ n)).map fun i => if x.active i then some (el i) else none)

/-- R181: VRSUM at a node: a pattern and its flags. -/
def sumNode (x : Ev) (a b : Nat × BitVec 6) : Nat × BitVec 6 :=
  let r := arith2 false fAdd (fun p q => p + q) x a.1 b.1 0
  (r.1, r.2 ||| a.2 ||| b.2)

/-- Whether some active element is a signalling NaN, and the pattern of a NaN. -/
def anySig (x : Ev) (el : Nat → Nat) : Bool :=
  tyFloat x.ty && (List.range x.vl).any fun i => x.active i && ((fmtOf x.ty).decode (el i)).sig
def isNanPat (x : Ev) (a : Nat) : Bool := tyFloat x.ty && ((fmtOf x.ty).decode a).isNan

/-- R93: latency of a reduction. -/
def redLat (x : Ev) : Nat := 4 + ceilLog2 x.vl

/-- R181: VRSUM's value and flags. -/
def reduceSum (x : Ev) (el : Nat → Nat) : Nat × BitVec 6 :=
  match reduceTree x (fun i => (el i, (0 : BitVec 6))) (sumNode x) with
  | none => (0, 0)
  | some (v, fl) =>
    let fl := fl ||| (if anySig x el then fNV else 0)
    (if isNanPat x v then (fmtOf x.ty).nanBits else v, fl)

/-- R182: whether the right operand replaces the left one. -/
def takesRight (x : Ev) (max : Bool) (a b : Nat) : Bool :=
  if tyInt x.ty then (if max then intOf x.ty a < intOf x.ty b else intOf x.ty b < intOf x.ty a)
  else
    let u := (fmtOf x.ty).decode a
    let v := (fmtOf x.ty).decode b
    (u.isNan && !v.isNan) || (!u.isNan && !v.isNan && (if max then u.ltz v else v.ltz u))

/-- R181: what an empty reduction gives. -/
def emptyExt (x : Ev) (max : Bool) : Nat :=
  if tyInt x.ty then wrapInt x.w (if max then tyMin x.ty else tyMax x.ty)
  else (if max then 2 ^ (x.w - 1) else 0) + (fmtOf x.ty).infBits

/-- R181, R182: value and index of the extreme active element, and NV. -/
def reduceExt (x : Ev) (max : Bool) (el : Nat → Nat) : Nat × Nat × BitVec 6 :=
  match reduceTree x (fun i => (el i, i)) (fun a b => if takesRight x max a.1 b.1 then b else a) with
  | none => (emptyExt x max, 2 ^ 64 - 1, 0)
  | some (v, i) => (if isNanPat x v then (fmtOf x.ty).nanBits else v, i, if anySig x el then fNV else 0)

/-- R181: the result fills one register. -/
def State.reduction (s : State) (i : Instr) (o : OpV2) (f : Ev → (Nat → Nat) → Nat × BitVec 6) : State :=
  s.esLegalOr i fun s =>
    let x := s.ev o.m
    let av := s.grp x o.a
    let r := f x av.1
    (s.esPush (redLat x) .v o.d.toNat [wholePart (BitVec.ofNat 2048 r.1) (av.2 || x.mask.psn) (x.full (2048 / x.w))] r.2).esNext x.g

/-- R181. -/
def execVrsum (o : OpV2) (s : State) : Res := .next (s.reduction (.vrsum o) o reduceSum)

/-- R182. -/
def execVrmax (o : OpV2) (s : State) : Res :=
  .next (s.reduction (.vrmax o) o fun x el => ((reduceExt x true el).1, (reduceExt x true el).2.2))

/-- R182. -/
def execVrmin (o : OpV2) (s : State) : Res :=
  .next (s.reduction (.vrmin o) o fun x el => ((reduceExt x false el).1, (reduceExt x false el).2.2))

/-- R181, R182: the value and, in bits 127:64, its index. -/
def withIndex (r : Nat × Nat × BitVec 6) : Nat × BitVec 6 := (r.1 + r.2.1 * 2 ^ 64, r.2.2)

/-- R182. -/
def execVrmaxi (o : OpV2) (s : State) : Res := .next (s.reduction (.vrmaxi o) o fun x el => withIndex (reduceExt x true el))

/-- R182. -/
def execVrmini (o : OpV2) (s : State) : Res := .next (s.reduction (.vrmini o) o fun x el => withIndex (reduceExt x false el))

/-! ## Permutes, gathers, VRNG (R183, R184) -/

/-- A form that picks an element by an index function over two groups. -/
def State.permute (s : State) (i : Instr) (o : OpVr3) (lat : Nat) (f : Ev → (Nat → Nat) → Nat → Nat) (wide : Bool) : State :=
  s.esLegalOr i fun s =>
    let x := s.ev o.m
    let k := if wide then 8 else x.g
    let n := s.cell.es.span o.a.toNat k
    let b := s.grp x o.b
    let r := mapActive x fun i => (f x (fun j => elAt n x.w j) (b.1 i), 0)
    s.esWrite lat o.d x.w x.g r.1 (s.cell.es.spanPsn o.a.toNat k || b.2 || x.mask.psn) 0 (max x.g k)

/-- R183. -/
def execVperm (o : OpVr3) (s : State) : Res :=
  .next (s.permute (.vperm o) o 3 (fun x a j => if x.vl ≤ j then 0 else a j) false)

/-- R183. -/
def execVslide (o : OpSlide) (s : State) : Res :=
  .next (s.esLegalOr (.vslide o) fun s =>
    let x := s.ev o.m
    let a := s.grp x o.a
    let r := mapActive x fun i =>
      let j := (i : Int) - o.n.toInt
      (if 0 ≤ j && j < x.vl then a.1 j.toNat else 0, 0)
    s.esWrite 2 o.d x.w x.g r.1 (a.2 || x.mask.psn) 0)

/-- R183: the table is eight registers. -/
def execVgath (o : OpVr3) (s : State) : Res :=
  .next (s.permute (.vgath o) o 3 (fun x a j => if 16384 / x.w ≤ j then 0 else a j) true)

/-- R184. -/
def rng (c k : BitVec 32) : BitVec 32 :=
  let x : Word := k ++ c
  let x := x + 0x74D319AE5B07C2E5
  let x := (x ^^^ (x >>> 31)) * 0xB5A36E4D2C719F0B
  let x := (x ^^^ (x >>> 27)) * 0x8D2F47A1E3C95B67
  let x := (x ^^^ (x >>> 33)) * 0xF1E63B859A4C2D19
  let x := x ^^^ (x >>> 29)
  x.extractLsb' 32 32 ^^^ x.extractLsb' 0 32

/-- R184: counter in va, key in vb. -/
def execVrng (o : OpVr3) (s : State) : Res :=
  .next (s.esLegalOr (.vrng o) fun s =>
    let x := s.ev o.m
    let a := s.grp x o.a
    let b := s.grp x o.b
    let r := mapActive x fun i => ((rng (BitVec.ofNat 32 (a.1 i)) (BitVec.ofNat 32 (b.1 i))).toNat, 0)
    s.esWrite 4 o.d x.w x.g r.1 (a.2 || b.2 || x.mask.psn) 0)

/-! ## Tiles (R185 to R189) -/

/-- A tile of the focused cell. -/
def State.tile (s : State) (t : Nat) : Tile := s.cell.tiles.getD t ⟨[], 0⟩

/-- Change one row of a tile. -/
def State.updRow (s : State) (t r : Nat) (f : TRow → TRow) : State :=
  s.updFocus fun c => { c with tiles := updAt c.tiles t fun x => { x with rows := updAt x.rows r f } }

/-- R88: the shape checks of an accumulator access; `go` gets the row. -/
def State.tileRow (s : State) (i : Instr) (t : BitVec 2) (row : BitVec 6) (chunk : Nat) (go : State → TRow → State) : State :=
  match (s.tile t.toNat).rows[row.toNat]? with
  | none => s.esFault cShape (wordOf i)
  | some r => if Config.arrN s.cell.id.die / 32 ≤ chunk then s.esFault cShape (wordOf i) else go s r

/-- R71, R354, R358: a parity error found in a row: PAR is set, and the error is reported. INFO0 of the report is 0: a tile element has
neither a segment address nor a die byte address (log 57). -/
def State.parityFound (s : State) (agent t row : Nat) (found : Bool) : State :=
  if found then
    let s := s.detected ⟨.tileElement, s.cell.id.die, s.cell.id.num, t * 64 + row⟩
    let w := s.cell.who agent
    (s.report (s.mkReport w (w.ctx.getD 255) 0x03 6 0 0)).updRow t row fun r => { r with par := true }
  else s

/-- R185: 32 mantissas of a chunk, as one register. The read covers, and so checks the parity of, all 32 of them, those the mask leaves out
too (R71; log 57). -/
def execAcrd (o : OpAcr) (s : State) : Res :=
  .next (s.tileRow (.acrd o) o.tile o.row o.chunk.toNat fun s r =>
    let c := 32 * o.chunk.toNat
    let m := s.cell.es.rm o.m
    let found := r.bad.any fun j => c ≤ j && j < c + 32
    let els := (List.range 32).map fun i => if m.bits.getLsbD i then some (r.a.getD (c + i) 0).toNat else none
    (s.parityFound 1 o.tile.toNat o.row.toNat found).esWrite 4 o.d 64 1 els (r.psn || r.par || found || m.psn) 0)

/-- R185: replace the chosen mantissas of a chunk, with fresh parity. -/
def TRow.putChunk (r : TRow) (c : Nat) (m : BitVec 2048) (v : Nat) : TRow :=
  let hit := fun j => c ≤ j && j < c + 32 && m.getLsbD (j - c)
  { r with
    a := r.a.zipIdx.map fun x => if hit x.2 then BitVec.ofNat 64 (elAt v 64 (x.2 - c)) else x.1
    bad := r.bad.filter fun j => !hit j }

/-- R185. -/
def execAcwr (o : OpAcr) (s : State) : Res :=
  .next (s.tileRow (.acwr o) o.tile o.row o.chunk.toNat fun s _ =>
    let m := s.cell.es.rm o.m
    let v := s.cell.es.vn o.d.toNat
    if v.psn || m.psn then s.esFault cPoison 0
    else (s.updRow o.tile.toNat o.row.toNat fun r => r.putChunk (32 * o.chunk.toNat) m.bits v.bits.toNat).esNext)

/-- R186: scale a row's exponent; a tagged entry stays at the head. -/
def execAcsc (o : OpAcsc) (s : State) : Res :=
  .next (s.tileRow (.acsc o) o.tile o.row 0 fun s _ => s.headOf o.q fun e r =>
    if e.psn then s.esFault cPoison e.v
    else ((s.updQs fun k => k.setDq o.q r).updRow o.tile.toNat o.row.toNat fun x => x.scale e.v.toInt).esNext)

/-- R187: one row. -/
def execAcz (o : OpAcz) (s : State) : Res :=
  .next (s.tileRow (.acz o) o.tile o.row 0 fun s _ => (s.updRow o.tile.toNat o.row.toNat TRow.clear).esNext)

/-- R187: every row of a tile. -/
def execAczTile (o : OpAczT) (s : State) : Res :=
  .next ((s.updFocus fun c => { c with
    tiles := updAt c.tiles o.tile.toNat fun x => { x with rows := x.rows.map TRow.clear } }).esNext)

/-- R188: the row status word. -/
def execAcst (o : OpAcst) (s : State) : Res :=
  .next (s.tileRow (.acst o) o.tile o.row 0 fun s r =>
    (s.esPush 2 .v o.d.toNat [fullPart ((rowStatus (s.tile o.tile.toNat).events r).zeroExtend 2048) false] 0).esNext)

end Sys2Proof.Machine
end

