-- ==== Sys2Proof/Machine/Engine.lean ====
section
/-! DEFINITION. What the engines and ports share: fetching step words (R197, R360), the steps of a command (R91, R200, R201,
R228, R229, R268), operand translation and access (R29, R207, R234, R235, R238, R239), charges (R374, R375). -/

namespace Sys2Proof.Machine

/-! ## Front queue (R197, R198, R360) -/

/-- Whether the next word moved is a header: the words held end at a command's end. -/
def headerNext : Nat → List FWord → Bool
  | 0, l => l.isEmpty
  | _, [] => true
  | n + 1, h :: r => if r.length < hdrLen h.w then false else headerNext n (r.drop (hdrLen h.w))

/-- R117, R150: an appended word that an unfinished check of the AS stands before has not reached the engine or port. -/
def Cell.wordHeld (c : Cell) (marks : List Mark) (pos : Nat) : Bool :=
  marks.any fun m => m.pos = pos % 2 ^ 32 && c.snaps.any (·.seq < m.seq)

/-- The segment number of an engine's ring. -/
def Cell.ringNo (c : Cell) (e : Eng) : Nat :=
  (c.segs.findIdx? fun x => x.valid && x.kind = kRing && x.engine = engNo e).getD 0

/-- R197, R360: one word moves from the ring to the front queue; a poisoned header resets the partition. -/
def State.moveWord (s : State) (e : Eng) : State :=
  let x := s.cell.eng e
  match s.cell.ringSeg e with
  | none => s
  | some (base, size) =>
    if 16 ≤ x.front.length || x.wp = x.rp || s.cell.wordHeld x.marks x.rp.toNat then s
    else
      let a := ringAddr base size x.rp.toNat
      let p := spadPlace s.cell.id (a / 8 * 8)
      let r := s.readW (s.cell.who (engAgent e)) p (mkAddr (s.cell.ringNo e) (a / 8 * 8 - base))
      let w := if a % 8 = 0 then r.2.v.extractLsb' 0 32 else r.2.v.extractLsb' 32 32
      if r.2.psn && headerNext 16 x.front then
        r.1.partitionReset (partOf s.cell.as.sys.ctxid) .containment 0
      else
        r.1.updFocus fun c => c.setEng e { c.eng e with
          rp := x.rp + 1, front := x.front ++ [⟨w, r.2.psn⟩], fpos := if x.front.isEmpty then x.rp.toNat else x.fpos }

/-! ## The current command -/

/-- Replace the current command of an engine. -/
def State.setCmd (s : State) (e : Eng) (c : Option Cmd) : State :=
  s.updFocus fun x => x.setEng e { x.eng e with cur := c }

/-- R204: MHDR. -/
def isMhdr : Instr → Bool
  | .mhdr _ _ => true
  | _ => false

/-- R89: the header of a step word, as far as completion needs it. -/
def isMma : Instr → Bool
  | .mma _ _ | .mmaz _ _ => true
  | _ => false

/-- R201, R229, R358: the report of an error completion. -/
def State.errReport (s : State) (agent pos code done : Nat) : State :=
  let w := s.cell.who agent
  s.report (s.mkReport w (w.ctx.getD 255) 0x01 code (BitVec.ofNat 64 pos) (BitVec.ofNat 64 done))

/-- R200 step 6: signal, or error phase. -/
def State.completeWith (s : State) (sig : SemNo) (code : Nat) : State :=
  if code = 0 then s.signal sig else s.errorSem sig (BitVec.ofNat 8 code)

/-- R201, R229: an error completion is reported; `always`: whatever SIG is. -/
def reportDue (always : Bool) (sig : SemNo) (code : Nat) : Bool := code ≠ 0 && (always || sig = 63)

/-- R203, R204, R212: an error completion of the matrix engine other than 0x05 discards the held weights; MHDR does with every code. -/
def State.dropHeld (s : State) : State := s.updFocus fun c => { c with mxs := { c.mxs with held := none } }

/-- R359: whether the error completion under way has been reported. -/
def State.setTold (s : State) (e : Eng) (b : Bool) : State := s.updFocus fun c => c.setEng e { c.eng e with told := b }

/-- R91: a rejected command is reported, then completes with a code, and its words leave the front queue. -/
def State.rejectCmd (s : State) (e : Eng) (h : Word32) (code : Nat) : State :=
  let x := s.cell.eng e
  if reportDue (e ≠ .mx) (hdrSig h) code && !x.told then (s.errReport (engAgent e) x.fpos code 0).setTold e true
  else
    let s := s.updFocus fun c => c.setEng e { c.eng e with
      front := x.front.drop (1 + hdrLen h), fpos := (x.fpos + 1 + hdrLen h) % 2 ^ 32, told := false }
    let s := if e = .mx && code ≠ 5 then s.dropHeld else s
    s.completeWith (hdrSig h) code

/-- The ring code of an engine (R82). -/
def engRing : Eng → Ring
  | .mx => .mx
  | .ce0 => .ce0
  | .ce1 => .ce1
  | .xe => .xe

/-- A command at its start. -/
def Cmd.start (i : Instr) (pos seq : Nat) : Cmd := ⟨i, pos, .wait, 0, 0, 0, false, 0, 0, [], [], seq, [], 0, 0, none, 0, false⟩

/-- R261, R286: when a command must have made the writes of its unit, and have done with a dropped translation. -/
def Cmd.deadlines (c : Cmd) : List Nat := c.due.toList ++ if c.owes then [c.since + writeBound] else []

/-- R261, R286: such a time is at hand: no cycle may pass any more, whatever pauses (log 2). -/
def State.cmdAtHand (s : State) (c : Cmd) : Bool := c.deadlines.any fun d => d < s.pkg.time.t3 + 5

/-- R268: the AS accesses before the ENQ that appended the word at a position: their sequence bound; 0 for a template word. -/
def markAt (marks : List Mark) (pos : Nat) : Nat := match marks.find? (·.pos = pos) with | some m => m.seq | none => 0

/-- The marks left when `n` words from a position on are taken. -/
def marksAfter (marks : List Mark) (pos n : Nat) : List Mark := marks.filter fun m => n ≤ (m.pos + 2 ^ 32 - pos) % 2 ^ 32

/-- R91, R197: decode the command at the head of the front queue once it is whole. -/
def State.takeCmd (s : State) (e : Eng) : State :=
  let x := s.cell.eng e
  match x.front with
  | [] => s
  | h :: r =>
    let n := hdrLen h.w
    if r.length < n then s
    else
      let ps := r.take n
      if ps.any (·.psn) then s.rejectCmd e h.w 0x05
      else
        match decodeCmd (engRing e) h.w (ps.map (·.w)) with
        | .error _ => s.rejectCmd e h.w 0x01
        | .ok i =>
          s.updFocus fun c => c.setEng e { c.eng e with
            front := r.drop n, fpos := (x.fpos + 1 + n) % 2 ^ 32, cur := some (Cmd.start i x.fpos (markAt x.marks x.fpos))
            marks := marksAfter x.marks x.fpos (1 + n) }

/-! ## The steps of R200 -/

/-- R268: an acquire waits until the AS accesses before the ENQ are ordered at SCOPE. -/
def State.acquireOpen (s : State) (seq r : Nat) : Bool :=
  s.cell.mops.any (fun o => o.seq < seq && match o.kind with | .signal _ => false | _ => true)
    || s.mem.owes s.cell.id seq (BitVec.allOnes 16) r
    || s.mem.wbacks.any (fun w => w.cell = s.cell.id && w.seq < seq)

/-- A command ends its execution: step 5 of R200 begins, with the writes the release waits for (R266, R268). -/
def State.endRun (s : State) (e : Eng) (c : Cmd) (h : Hdr) (code done : Nat) : State :=
  s.setCmd e (some { c with phase := .release code done, xl := [], due := none, owes := false, ids := if h.rel then s.mem.visibleIds s.cell.id else [] })

/-- Step 6 of R200: an error is reported first (R359), then the command completes. What the matrix engine held stays held after 0x05, also
where the command had used nothing of it (R212; log 38). -/
def State.endCmd (s : State) (e : Eng) (c : Cmd) (h : Hdr) (code done : Nat) : State :=
  if reportDue (e ≠ .mx || isMma c.i) h.sig code && !(s.cell.eng e).told then
    (s.errReport (engAgent e) c.pos code done).setTold e true
  else
    let s := (s.setCmd e none).setTold e false
    let s := if e = .mx && code ≠ 0 && (code ≠ 5 || isMhdr c.i) then s.dropHeld else s
    s.completeWith h.sig code

/-- R200: one move of the current command of an engine, which must be `i`; `run` makes one move of step 4. -/
def State.runCmd (s : State) (e : Eng) (i : Instr) (h : Hdr) (run : State → Cmd → State) : State :=
  match (s.cell.eng e).cur with
  | none => s
  | some c =>
    if c.i ≠ i then s
    else
      match c.phase with
      | .wait =>
        match s.sem h.wait with
        | none => s.setCmd e (some { c with phase := .acquire })
        | some (.err x) => s.setCmd e (some { c with phase := .release x.toNat 0 })
        | some (.count n) =>
          if n = 0 then s else (s.setSem h.wait (.count (n - 1))).setCmd e (some { c with phase := .acquire })
      | .acquire =>
        if h.acq && s.acquireOpen c.acqSeq (scopeReach h.scope) then s else s.setCmd e (some { c with phase := .run })
      | .run => run s c
      | .release code done =>
        if c.ids.all fun d => s.mem.reached d (scopeReach h.scope) then s.endCmd e c h code done else s

/-! ## Operands -/

/-- R29: k_c of a rotation code. -/
def rotK (c : Nat) : Nat := [0, 1, 2, 3, 4, 6, 8, 12, 16, 24, 32, 48].getD c 0

/-- R29: the physical scratchpad byte of a logical one under a rotation code. -/
def rotAddr (c a : Nat) : Nat :=
  let row := a / 768
  row * 768 + (a / 8 % 96 + row * rotK c) % 96 * 8 + a % 8

/-- Translation on behalf of an engine. -/
def State.engCx (s : State) (e : Eng) : Cx := { s.cx 0 (.eng e) with who := s.cell.who (engAgent e), len := 1 }

/-- R294: no line of the `n` bytes from a place on stands in a cache under another key. -/
def MemSt.rangeFree (m : MemSt) (p : Place) (n : Nat) : Bool :=
  !((p.loc = 3 || p.loc = 4) && m.lines.any fun l => p.line ≤ l.line && l.line < p.wkey + n && l.key ≠ p.key)

/-- R207, R234, R235, R294: the page of `n` bytes of a segment: its translation for the unit, and the failing code (0: none). A page
with the compression attribute needs `cmp`, and one without it must not have it asked. -/
def State.engPage (s : State) (e : Eng) (seg : Nat) (ent : SegEnt) (off n : Nat) (wr cmp : Bool) (xl : List TlbEnt) :
    State × Nat × List TlbEnt :=
  match s.xlate { s.engCx e with cmp := cmp } seg ent off wr with
  | (s, .error _) => (s, 3, xl)
  | (s, .ok x) =>
    let page := (ent.base + off) / 65536
    let leaf : Option Word := if ent.pageable then
        (((s.findCell s.cell.id).getD s.cell).tlbOf (.eng e)).findSome? fun t => if t.seg = seg && t.page = page then some t.leaf else none
      else none
    let xl := match leaf with | some l => xl ++ [⟨seg, page, l⟩] | none => xl
    if !s.mem.rangeFree x.place n || (x.cmp && !cmp) then (s, 3, xl)
    else if !x.cmp && cmp then (s, 0x17, xl)
    else if (wr && !x.w) || (!wr && !x.r) then (s, 7, xl)
    else (s, 0, xl)

/-- The lower of two codes, 0 being none. -/
def lowCode (a b : Nat) : Nat := if a = 0 then b else if b = 0 then a else min a b

/-- Check the parts of a range, one a page: offset and bytes. -/
def State.engPages (s : State) (e : Eng) (seg : Nat) (ent : SegEnt) (wr cmp : Bool) (xl : List TlbEnt) (code : Nat) :
    List (Nat × Nat) → State × Nat × List TlbEnt
  | [] => (s, code, xl)
  | o :: r =>
    match s.engPage e seg ent o.1 o.2 wr cmp xl with
    | (s, c, xl) => s.engPages e seg ent wr cmp xl (lowCode code c) r

/-- The parts of `n` bytes from an offset on that lie in one page each. -/
def pagesOf (ent : SegEnt) (off n : Nat) : List (Nat × Nat) :=
  let lo := (ent.base + off) / 65536
  let hi := (ent.base + off + n - 1) / 65536
  (List.range (hi - lo + 1)).map fun i =>
    let a := if i = 0 then off else (lo + i) * 65536 - ent.base
    (a, min (off + n) ((lo + i + 1) * 65536 - ent.base) - a)

/-- R235: check `n` bytes at an offset: range, translation, permission. -/
def State.engRange (s : State) (e : Eng) (seg : Nat) (off n : Nat) (wr cmp : Bool) (xl : List TlbEnt) : State × Nat × List TlbEnt :=
  match segAt s.cell.segs seg with
  | none => (s, 3, xl)
  | some ent =>
    if n = 0 then (s, 0, xl)
    else if !inRange s.cell.id.die ent off n then (s, 3, xl)
    else
      s.engPages e seg ent wr cmp xl 0 (pagesOf ent off n)

/-- R276: the place of a byte already checked, by the translations of the unit. -/
def State.engPlace (s : State) (seg off rot : Nat) (xl : List TlbEnt) : Place :=
  match segAt s.cell.segs seg with
  | none => spadPlace s.cell.id 0
  | some ent =>
    if ent.pageable then
      match (xl.reverse.find? fun t => t.seg = seg && t.page = (ent.base + off) / 65536) with
      | some t => (leafXl ent off t.leaf).place
      | none => spadPlace s.cell.id 0
    else if ent.loc = 0 then spadPlace s.cell.id (rotAddr rot (ent.base + off))
    else (flatXl s.cell.id ent off (keyOf s.cell.as.sys.ctxid)).place

/-- R374, R375: the charge of a 64-byte piece an engine moves. -/
def State.chargePiece (s : State) (w : Who) (p : Place) : State :=
  if p.loc = 0 then s.charge w.ctx w.cell 6 1
  else if p.loc = 2 then
    let s := s.charge w.ctx (tcol p) (lineClass p) 1
    if tcol p = w.cell then s else s.chargeRoute w w.cell p
  else
    match s.findCell w.cell with
    | some c => s.touchLine w c p
    | none => s.chargeLine w p

/-- R119: an access to a place fills its line. -/
def Place.fills (p : Place) : Bool := p.cpol = 0 && (p.loc = 1 || p.loc = 3 || p.loc = 4)

/-- R119, R375: before an engine reads a word its line enters the L1, unless it is there, with an error in it met; the same before it writes
one. Such a line is charged as it moves. -/
def State.lineIn (s : State) (w : Who) (p : Place) (sa : Word) : State :=
  if p.fills then (match s.findCell w.cell with | some c => s.passLine w c p sa | none => s) else s
def State.lineFor (s : State) (w : Who) (p : Place) : State :=
  if p.fills then (match s.findCell w.cell with | some c => s.touchLine w c p | none => s) else s

/-- R375: the word at a place, at an offset of its segment, is the last of a 64-byte line, or of 64 bytes of scratchpad. -/
def endsLine (p : Place) (off : Nat) : Bool := if p.loc = 0 then 56 ≤ off % 64 else 56 ≤ p.addr % 64

/-- R374, R375: the charge of a word of a run of words an engine has moved: a line counts once its last byte has been, with the last word of
it or of the run. -/
def State.chargeRun (s : State) (w : Who) (p : Place) (off : Nat) (last : Bool) : State :=
  if !p.fills && (last || endsLine p off) then s.chargePiece w p else s

/-- R375: the line of a word, or the 64 bytes of scratchpad it lies in. -/
def lineAt (p : Place) (off : Nat) : Nat × Nat := (p.loc, if p.loc = 0 then off / 64 else p.line)

/-- R374, R375: the charge of a word that has been moved, when the one that comes after it on the same side of a transfer lies in another
line, or none does. -/
def State.chargeNext (s : State) (w : Who) (p : Place) (off : Nat) (next : Option (Place × Nat)) : State :=
  if p.fills || next.any fun q => lineAt q.1 q.2 = lineAt p off then s else s.chargePiece w p

/-- R237: the place of the word of a segment that holds a byte: its offset is a multiple of 8, whatever BASE is (log 53). -/
def State.engWord (s : State) (seg off rot : Nat) (xl : List TlbEnt) : Place := s.engPlace seg (off / 8 * 8) rot xl

/-- An engine reads the word that holds a byte of a segment. -/
def State.engRead (s : State) (e : Eng) (seg off rot : Nat) (xl : List TlbEnt) : State × TW :=
  s.readW (s.cell.who (engAgent e)) (s.engWord seg off rot xl) (mkAddr seg off)

/-- An engine writes bytes of one word: `v` and `mask` are placed in the word already; `since`: when its unit's checks had finished. -/
def State.engWrite (s : State) (since : Nat) (p : Place) (v : Word) (mask : BitVec 8) (psn : Bool) : State :=
  s.writeW true s.cell.mseq 0 since p v mask psn

/-- R374, R375: an engine reads a word of a run, the last one or not, and what it completes is charged. -/
def State.engTake (s : State) (e : Eng) (seg off rot : Nat) (xl : List TlbEnt) (last : Bool) : State × TW :=
  let w := s.cell.who (engAgent e)
  let p := s.engWord seg off rot xl
  let r := (s.lineIn w p (mkAddr seg off)).engRead e seg off rot xl
  (r.1.chargeRun w p off last, r.2)

/-- R374, R375: an engine writes a word of a run, at an offset of its segment. -/
def State.engPut (s : State) (e : Eng) (off since : Nat) (p : Place) (v : Word) (mask : BitVec 8) (psn last : Bool) : State :=
  let w := s.cell.who (engAgent e)
  ((s.lineFor w p).engWrite since p v mask psn).chargeRun w p off last

/-- R368, R369: the column that an access to a place spends from has no tokens. -/
def State.placePaused (s : State) (p : Place) : Bool := p.loc = 2 && s.pkg.heat.any fun h => h.1 = tcol p && h.2.paused

/-- R24, R217: nothing of the cell below a rank acts any more in this cycle. -/
def State.pastRank (s : State) (r : Nat) : State :=
  s.updFocus fun c => { c with cyc := { c.cyc with clk := s.pkg.time.clk, rank := if c.cyc.clk = s.pkg.time.clk then max c.cyc.rank r else r } }

/-- The engine move an agent may make now (R225, R359, R368, R373). -/
def State.heatPaused (s : State) (c : CellId) : Bool := s.pkg.heat.any fun h => h.1 = c && h.2.paused

/-- R359: an agent that holds a report is blocked. -/
def Cell.holding (c : Cell) (agent : Nat) : Bool := c.hold.any (·.agent = agent)

end Sys2Proof.Machine
end

