-- ==== Sys2Proof/Machine/Matrix.lean ====
section
/-! DEFINITION. The matrix engine (R203 to R225). -/

namespace Sys2Proof.Machine

/-! ## Shape, descriptors, duty (R204, R205, R224) -/

/-- Change the matrix engine's state. -/
def State.updMx (s : State) (f : MxSt → MxSt) : State := s.updFocus fun c => { c with mxs := f c.mxs }

/-- R204: MHDR latches the shape, or unsets it; the held weights go. -/
def execMhdr (h : Hdr) (p : PMhdr) (s : State) : Res :=
  .next (s.runCmd .mx (.mhdr h p) h fun s c =>
    let bad := Config.tileM s.cell.id.die < p.m.toNat || Config.arrN s.cell.id.die < p.n.toNat
    let s := s.updMx fun x => { x with
      shape := if bad then none else some ⟨p.k.toNat, p.n.toNat, p.m.toNat, p.areg, p.bfmt⟩, held := none }
    s.endRun .mx c h (if bad then 4 else 0) 0)

/-- R205: a descriptor. -/
def descOf (p : PMop) : Desc := ⟨p.base, p.rpitch.toNat, p.tpitch.toNat, p.rot.toNat⟩

/-- R205. -/
def execMopa (h : Hdr) (p : PMop) (s : State) : Res :=
  .next (s.runCmd .mx (.mopa h p) h fun s c => (s.updMx fun x => { x with a := some (descOf p) }).endRun .mx c h 0 0)

/-- R205: MOPB discards the held weights. -/
def execMopb (h : Hdr) (p : PMop) (s : State) : Res :=
  .next (s.runCmd .mx (.mopb h p) h fun s c =>
    (s.updMx fun x => { x with b := some (descOf p), held := none }).endRun .mx c h 0 0)

/-- R224: MTHR changes timing only; DUTY is kept. -/
def execMthr (h : Hdr) (p : PMthr) (s : State) : Res :=
  .next (s.runCmd .mx (.mthr h p) h fun s c => (s.updMx fun x => { x with duty := p.duty }).endRun .mx c h 0 0)

/-! ## Operand blocks (R206 to R208, R214, R215) -/

/-- R206: the byte offset of a block from the base. -/
def blkOff (d : Desc) (row panel blk : Nat) : Nat := 64 * (row * d.rpitch + panel * d.tpitch + blk)

/-- Offset of an address in its segment. -/
def segOff (a : Word) : Nat := (a.extractLsb' 0 58).toNat

/-- A block as its eight words were read. -/
def blkOfWords (l : List TW) : Blk :=
  ⟨BitVec.ofNat 512 ((l.zipIdx.map fun x => x.1.v.toNat * 2 ^ (64 * x.2)).sum), l.any (·.psn)⟩

/-- R214: the failing code of a block's format; a poison side has none. -/
def blkCode (bx3 : Bool) (b : Blk) : Nat :=
  if !b.psn && (match readBlock bx3 b.bytes.toNat with | .malformed => true | _ => false) then 6 else 0

/-- R208: one A block from the ES register file, and its failing code. -/
def State.regBlk (s : State) (d : Desc) (row panel blk : Nat) : Nat × Blk :=
  let off := d.base.toNat + blkOff d row panel blk
  if 8192 < off + 64 then (3, ⟨0, false⟩)
  else
    let r := s.cell.es.vn (off / 256)
    let b : Blk := ⟨BitVec.ofNat 512 (r.bits.toNat / 2 ^ (8 * (off % 256)) % 2 ^ 512), r.psn⟩
    (blkCode false b, b)

/-- K indices of a panel (R206). -/
def panelLen (k p : Nat) : Nat := min (k - 384 * p) 384

/-- Elements of a block of an operand (R206). -/
def blkEls (bx3 : Bool) : Nat := if bx3 then 128 else 64

/-- R212: the held weights that match a shape. -/
def heldFor (x : MxSt) (h : Shape) : Option Held := x.held.filter fun w => w.k = h.k && w.n = h.n && w.bfmt = h.bfmt

/-- Blocks of each row of A and of each column of B in a panel (R206). -/
def blksA (sh : Shape) (p : Nat) : Nat := ceilDiv (panelLen sh.k p) 64
def blksB (sh : Shape) (p : Nat) : Nat := ceilDiv (panelLen sh.k p) (blkEls sh.bfmt)

/-- How many blocks a panel reads: those of A, row by row, then those of B, column by column, unless they are held (R212). -/
def panelBlks (sh : Shape) (keepb : Bool) (p : Nat) : Nat := sh.m * blksA sh p + (if keepb then 0 else sh.n * blksB sh p)

/-- Append a block to the rows of a panel of `nb` blocks each. -/
def addBlk (l : List (List Blk)) (nb : Nat) (b : Blk) : List (List Blk) :=
  match l.reverse with
  | r :: rs => if r.length < nb then rs.reverse ++ [r ++ [b]] else l ++ [[b]]
  | [] => [[b]]

/-- Block `c.sub` of the panel has been read, or has failed its checks with `code`. -/
def State.blkDone (s : State) (c : Cmd) (sh : Shape) (isA : Bool) (code : Nat) (b : Blk) : State :=
  (s.updMx fun x => if isA then { x with panelA := addBlk x.panelA (blksA sh c.unit) b }
    else { x with panelB := addBlk x.panelB (blksB sh c.unit) b }).setCmd .mx
    (some { c with sub := c.sub + 1, buf := [], xl := [], due := none, code := lowCode c.code code })

/-- R214, R263: one move on a block in memory: its checks with its first word, then each further word. A block whose checks fail is not
read, so that its format counts no code (log 38). -/
def State.blkMove (s : State) (c : Cmd) (sh : Shape) (isA : Bool) (d : Desc) (bx3 : Bool) (row blk : Nat) : State :=
  let seg := segNo d.base
  let off := segOff d.base + blkOff d row c.unit blk
  let ch := if c.buf.isEmpty then s.engRange .mx seg off 64 false false [] else (s, 0, c.xl)
  if ch.2.1 ≠ 0 then ch.1.blkDone c sh isA ch.2.1 ⟨0, false⟩
  else if ch.1.placePaused (ch.1.engWord seg off d.rot ch.2.2) && !s.cmdAtHand c then s
  else
    let o := off + 8 * c.buf.length
    let r := ch.1.engTake .mx seg o d.rot ch.2.2 (c.buf.length = 7)
    let l := c.buf ++ [r.2]
    if l.length < 8 then r.1.setCmd .mx (some { c with buf := l, xl := ch.2.2, since := s.pkg.time.t3 })
    else r.1.blkDone c sh isA (blkCode bx3 (blkOfWords l)) (blkOfWords l)

/-- R208, R214: one move of reading panel `c.unit`, block `c.sub` of it. -/
def State.panelMove (s : State) (sh : Shape) (a b : Desc) (c : Cmd) : State :=
  let na := sh.m * blksA sh c.unit
  let s := if c.sub = 0 && c.buf.isEmpty then s.updMx fun x => { x with panelA := [], panelB := [] } else s
  if c.sub < na then
    let row := c.sub / blksA sh c.unit
    let blk := c.sub % blksA sh c.unit
    if sh.areg then s.blkDone c sh true (s.regBlk a row c.unit blk).1 (s.regBlk a row c.unit blk).2
    else s.blkMove c sh true a false row blk
  else s.blkMove c sh false b sh.bfmt ((c.sub - na) / blksB sh c.unit) ((c.sub - na) % blksB sh c.unit)

/-- R212: the held weights of a panel. -/
def heldPanel (x : MxSt) (sh : Shape) (p : Nat) : List (List Blk) :=
  ((heldFor x sh).map fun w => w.cols.map fun l => (l.drop (p * (384 / blkEls sh.bfmt))).take (blksB sh p)).getD []

/-- R212: a panel is complete: B taken from the held weights, or held from now on with the panels before it. -/
def panelHeld (sh : Shape) (keepb : Bool) (p : Nat) (x : MxSt) : MxSt :=
  if keepb then { x with panelB := heldPanel x sh p }
  else
    let old : List (List Blk) := if p = 0 then List.replicate sh.n [] else ((x.held).map (·.cols)).getD (List.replicate sh.n [])
    { x with held := some ⟨sh.k, sh.n, sh.bfmt, (old.zip x.panelB).map fun y => y.1 ++ y.2⟩ }

/-- R214: the panel is checked and read. -/
def State.panelEnd (s : State) (h : Hdr) (sh : Shape) (keepb : Bool) (c : Cmd) : State :=
  if c.code ≠ 0 then s.endRun .mx c h c.code c.unit
  else (s.updMx (panelHeld sh keepb c.unit)).setCmd .mx (some { c with unit := c.unit + 1, sub := 0 })

/-! ## Group steps (R211, R66 to R74) -/

/-- R206, R211: elements of a group at indices at or above K are zero. -/
def maskGrp (g : Grp) (k0 k : Nat) : Grp :=
  { g with els := g.els.zipIdx.map fun x => if k ≤ k0 + x.2 then (x.1.1, x.1.2.1, 0) else x.1 }

/-- R68: the side that a row's or column's blocks give K group `g`. -/
def sideOf (l : List Blk) (bx3 : Bool) (g k : Nat) : Side :=
  let kk := 32 * (g % 12)
  match l[kk / blkEls bx3]? with
  | none => .zero
  | some b =>
    if b.psn then .psn
    else
      match readBlock bx3 b.bytes.toNat with
      | .zero => .zero
      | .invalid => .nan
      | .malformed => .psn
      | .groups gs => match gs[kk % blkEls bx3 / 32]? with | some x => .grp (maskGrp x (32 * g) k) | none => .zero

/-- The partial sums of all columns of a row for K group `g`; columns at or above N take none (R211). -/
def State.partials (s : State) (sh : Shape) (i g : Nat) : List Part × Bool × Bool :=
  let a := sideOf (s.cell.mxs.panelA.getD i []) false g sh.k
  let bs := s.cell.mxs.panelB.map fun l => sideOf l sh.bfmt g sh.k
  let ps := bs.map (partOfSides a)
  (ps ++ List.replicate (Config.arrN s.cell.id.die - ps.length) ⟨0, 0, false⟩,
    a = .nan || bs.any (· = .nan), a = .psn || bs.any (· = .psn))

/-- R68, R71: flags of a group step. -/
def TRow.mark (r : TRow) (nan psn : Bool) : TRow := { r with nan := r.nan || nan, psn := r.psn || psn }

/-- Change a row and count events of its tile. -/
def State.rowEvent (s : State) (t r : Nat) (f : TRow → TRow) (n : Nat) : State :=
  s.updFocus fun c => { c with
    tiles := updAt c.tiles t fun x => { rows := updAt x.rows r f, events := x.events + BitVec.ofNat 32 n } }

/-- R69, R70, R74: one row change of the group step due; the flag says whether the step is done with this row. An event that the first
group step on a fresh row needs is counted (R69, R70), also under MMAZ, whose own clearing counts none (R74; log 57). NAN and PSN are set with
the accumulation, not with the event before it (R68, R71; log 57). -/
def State.groupStep (s : State) (t row : Nat) (ps : List Part) (nan psn zero : Bool) : State × Bool :=
  match (s.tile t).rows[row]? with
  | none => (s, true)
  | some r =>
    let s := if zero || r.fresh then s else s.parityFound 2 t row (!r.bad.isEmpty)
    let r := ((s.tile t).rows[row]?).getD r
    let r := if zero then r.clear else r
    if r.fresh then
      let x := r.stepFresh ps
      (s.rowEvent t row (fun _ => x.1.mark nan psn) (if x.2 then 1 else 0), true)
    else if r.needsEvent ps then (s.rowEvent t row (fun _ => r.event ps) 1, false)
    else (s.rowEvent t row (fun _ => (r.accumulate ps).mark nan psn) 0, true)

/-- R374: a group step of one row. -/
def State.chargeStep (s : State) : State := s.charge s.cell.asCtx s.cell.id (if Config.isPDie s.cell.id.die then 2 else 3) 1

/-- R207: rotation codes only on scratch. -/
def rotOk (e : SegEnt) (rot : Nat) : Bool := rot = 0 || e.kind = kScratch

/-- R207, R211: an operand's kind and rotation: 0x03 for an invalid entry, 0x11 for one not permitted. -/
def State.kindCode (s : State) (a : Word) (rot : Nat) (kinds : List Nat) : Nat :=
  match segAt s.cell.segs (segNo a) with
  | none => 3
  | some e => if kinds.contains e.kind && rotOk e rot then 0 else 0x11

/-- R208, R211: the A operand's kind. -/
def State.aCode (s : State) (sh : Shape) (a : Desc) : Nat :=
  if sh.areg then (if 8192 ≤ a.base.toNat || a.rot ≠ 0 then 0x11 else 0) else s.kindCode a.base a.rot [kScratch]

/-- R212: what stays held when a command ends well or with 0x05. -/
def keepHeld (sh : Shape) (x : MxSt) : MxSt := if sh.k ≤ (if sh.bfmt then 768 else 384) then x else { x with held := none }

/-- R211: the checks before the first panel. The 0x03 of either operand comes before the 0x11 of the other (log 38). -/
def State.mmaCheck (s : State) (p : PMma) (sh : Shape) (a b : Desc) : Nat :=
  let ka := s.aCode sh a
  let kb := s.kindCode b.base b.rot [kScratch, kTensor]
  if Config.tileM s.cell.id.die < p.row0.toNat + sh.m then 4
  else if ka = 3 || kb = 3 then 3
  else if ka ≠ 0 || kb ≠ 0 then 0x11
  else if p.keepb && (heldFor s.cell.mxs sh).isNone then 0x12
  else 0

/-- R211, R217: one move of MMA or MMAZ: a word of a panel is read, or one row change is made; an event and the accumulation after it
fall in different cycles. -/
def State.mmaMove (s : State) (h : Hdr) (p : PMma) (zero : Bool) (c : Cmd) : State :=
  match s.cell.mxs.shape, s.cell.mxs.a, s.cell.mxs.b with
  | some sh, some a, some b =>
    let passes := ceilDiv sh.k 384
    let groups := ceilDiv sh.k 32
    let pre := if c.unit = 0 && c.sub = 0 && c.buf.isEmpty then s.mmaCheck p sh a b else 0
    if pre ≠ 0 then s.endRun .mx c h pre 0
    else if c.unit ≤ c.group / 12 then
      if c.sub < panelBlks sh p.keepb c.unit then s.panelMove sh a b c else s.panelEnd h sh p.keepb c
    else
      let x := s.partials sh c.row c.group
      let t := s.groupStep p.tile.toNat (p.row0.toNat + c.row) x.1 x.2.1 x.2.2 (zero && c.group = 0)
      if !t.2 then (t.1.setCmd .mx (some { c with sub := 1 })).pastRank 3
      else
        let s := t.1.chargeStep
        let c := { c with poisoned := c.poisoned || x.2.2, sub := 0 }
        if c.row + 1 < sh.m then s.setCmd .mx (some { c with row := c.row + 1 })
        else if c.group + 1 < groups then s.setCmd .mx (some { c with row := 0, group := c.group + 1 })
        else (s.updMx (keepHeld sh)).endRun .mx c h (if c.poisoned then 5 else 0) passes
  | _, _, _ => s.endRun .mx c h 0x10 0

/-- R211. -/
def execMma (h : Hdr) (p : PMma) (s : State) : Res := .next (s.runCmd .mx (.mma h p) h fun s c => s.mmaMove h p false c)

/-- R211, R74. -/
def execMmaz (h : Hdr) (p : PMma) (s : State) : Res := .next (s.runCmd .mx (.mmaz h p) h fun s c => s.mmaMove h p true c)

/-! ## Write-back (R75 to R77, R219, R220) -/

/-- R219: bytes of a row as written. -/
def wbBytes (f : WbFmt) (n : Nat) : Nat := match f with | .f32 => 4 * n | .bf16 => 2 * n | .bx7 => n

/-- R75 to R77, R220: the bytes of a row's first `n` columns, and whether they are poisoned. -/
def wbRow (f : WbFmt) (n : Nat) (r : TRow) : Nat × Bool :=
  let psn := r.psn || r.par
  let vs := if psn then List.replicate n (FV.nan false) else r.values.take n
  let v := match f with
    | .f32 => (vs.zipIdx.map fun x => ((fmtOf 10).encode 0 x.1).1 * 2 ^ (32 * x.2)).sum
    | .bf16 => (vs.zipIdx.map fun x => ((fmtOf 9).encode 0 x.1).1 * 2 ^ (16 * x.2)).sum
    | .bx7 => ((List.range (n / 64)).map fun b => (quantBlock ((vs.drop (64 * b)).take 64)).bytes * 2 ^ (512 * b)).sum
  (v, psn)

/-- The words of a row's bytes. -/
def wbBuf (v : Nat) (psn : Bool) (n : Nat) : List TW := (List.range n).map fun i => ⟨BitVec.ofNat 64 (v / 2 ^ (64 * i)), psn⟩

/-- R220, R263: one word of the row at offset `off` is written, the last one of a row in part. -/
def State.wbWord (s : State) (p : PMwb) (c : Cmd) (off bytes : Nat) : State :=
  let o := off + 8 * c.sub
  let q := s.engWord (segNo p.base) o p.rot.toNat c.xl
  let x := c.buf.getD c.sub ⟨0, false⟩
  s.engPut .mx o c.since q x.v (BitVec.ofNat 8 (2 ^ (min (bytes - 8 * c.sub) 8) - 1)) x.psn (c.sub + 1 = c.buf.length)

/-- R220: the next row of an MWB, or its end. -/
def State.wbNext (s : State) (h : Hdr) (c : Cmd) (rows : Nat) : State :=
  if c.row + 1 < rows then s.setCmd .mx (some { c with row := c.row + 1, sub := 0, buf := [] }) else s.endRun .mx c h 0 0

/-- Check the destination ranges of the listed rows, collecting their translations. -/
def State.wbCheck (s : State) (p : PMwb) (bytes : Nat) (code : Nat) (xl : List TlbEnt) : List Nat → State × Nat × List TlbEnt
  | [] => (s, code, xl)
  | i :: r =>
    match s.engRange .mx (segNo p.base) (segOff p.base + 64 * i * p.rpitch.toNat) bytes true false xl with
    | (s, c, xl) => s.wbCheck p bytes (lowCode code c) xl r

/-- R207: an MWB destination. -/
def State.wbKind (s : State) (p : PMwb) : Nat :=
  match segAt s.cell.segs (segNo p.base) with
  | none => 3
  | some e =>
    if rotOk e p.rot.toNat && (e.kind = kScratch || e.kind = kLinear || (e.kind = kTensor && e.fmt = 1 && p.fmt = .bx7)) then 0
    else 0x11

/-- R219, R220, R263: one move of MWB: the checks, a row read and cleared, or one of its words written. -/
def State.mwbMove (s : State) (h : Hdr) (p : PMwb) (c : Cmd) : State :=
  match s.cell.mxs.shape with
  | none => s.endRun .mx c h 0x10 0
  | some sh =>
    let bytes := wbBytes p.fmt sh.n
    if c.unit = 0 then
      let k := s.wbKind p
      if Config.tileM s.cell.id.die < p.row0.toNat + sh.m || (p.fmt = .bx7 && sh.n % 64 ≠ 0) then s.endRun .mx c h 4 0
      else if k ≠ 0 then s.endRun .mx c h k 0
      else if p.rpitch.toNat * 64 < bytes then s.endRun .mx c h 0x11 0
      else
        match s.wbCheck p bytes 0 [] (List.range sh.m) with
        | (s, 0, xl) => s.setCmd .mx (some { c with unit := 1, xl := xl, since := s.pkg.time.t3, owes := true })
        | (s, k + 1, _) => s.endRun .mx c h (k + 1) 0
    else
      let off := segOff p.base + 64 * c.row * p.rpitch.toNat
      let row := p.row0.toNat + c.row
      if !c.buf.isEmpty then
        let s := s.wbWord p c off bytes
        if c.sub + 1 < c.buf.length then s.setCmd .mx (some { c with sub := c.sub + 1 }) else s.wbNext h c sh.m
      else
        match (s.tile p.tile.toNat).rows[row]? with
        | none => s.endRun .mx c h 4 0
        | some r0 =>
          if s.placePaused (s.engWord (segNo p.base) off p.rot.toNat c.xl) && !s.cmdAtHand c then s
          else
            let s := s.parityFound 2 p.tile.toNat row (!r0.bad.isEmpty)
            let w := wbRow p.fmt sh.n (((s.tile p.tile.toNat).rows[row]?).getD r0)
            let s := if p.z then s.updRow p.tile.toNat row TRow.clear else s
            if bytes = 0 then s.wbNext h c sh.m
            else s.setCmd .mx (some { c with sub := 0, buf := wbBuf w.1 w.2 (ceilDiv bytes 8) })

/-- R219, R220. -/
def execMwb (h : Hdr) (p : PMwb) (s : State) : Res := .next (s.runCmd .mx (.mwb h p) h fun s c => s.mwbMove h p c)

/-! ## Headroom and clearing (R222, R223) -/

/-- R222: restore the headroom of a row, if it is short. -/
def TRow.restore (r : TRow) (ht : Nat) : TRow × Bool :=
  if r.fresh || ht ≤ r.headroom then (r, false)
  else
    let k := leastK (fun k => (wordsOf (r.ints.map (rneShift · k))).all fun x => ht ≤ rsb x) 64 1
    ({ r with a := wordsOf (r.ints.map (rneShift · k)), bad := [] }.setE (r.e.toInt + k), true)

/-- The rows of a command that needs the shape and its rows within TILEM (R222, R223): one row a move. -/
def State.rowsMove (s : State) (h : Hdr) (row0 : Nat) (c : Cmd) (one : State → Nat → State) : State :=
  match s.cell.mxs.shape with
  | none => s.endRun .mx c h 0x10 0
  | some sh =>
    if Config.tileM s.cell.id.die < row0 + sh.m then s.endRun .mx c h 4 0
    else
      let s := one s (row0 + c.row)
      if c.row + 1 < sh.m then s.setCmd .mx (some { c with row := c.row + 1 }) else s.endRun .mx c h 0 0

/-- R222. -/
def execMrn (h : Hdr) (p : PMrn) (s : State) : Res :=
  .next (s.runCmd .mx (.mrn h p) h fun s c => s.rowsMove h p.row0.toNat c fun s row =>
    match (s.tile p.tile.toNat).rows[row]? with
    | none => s
    | some r0 =>
      let s := s.parityFound 2 p.tile.toNat row (!r0.bad.isEmpty)
      let r := ((s.tile p.tile.toNat).rows[row]?).getD r0
      s.rowEvent p.tile.toNat row (fun _ => (r.restore p.ht.toNat).1) (if (r.restore p.ht.toNat).2 then 1 else 0))

/-- R223. -/
def execMclr (h : Hdr) (p : PMclr) (s : State) : Res :=
  .next (s.runCmd .mx (.mclr h p) h fun s c => s.rowsMove h p.row0.toNat c fun s row => s.updRow p.tile.toNat row TRow.clear)

end Sys2Proof.Machine
end

