-- ==== Sys2Proof/Machine/DataMove.lean ====
section
/-! DEFINITION. The copy and transform engines (R228 to R253). -/

namespace Sys2Proof.Machine

/-! ## Plans -/

/-- One side of a transfer: address and rotation code (R232). -/
structure Side64 where
  addr : Word
  rot : Nat
deriving DecidableEq, Repr, Inhabited

/-- A piece of a destination word: byte offset in the source (none: the constant), byte offset in the destination, length. -/
structure Piece where
  src : Option Nat
  dst : Nat
  len : Nat
deriving DecidableEq, Repr, Inhabited

/-- How a command moves bytes: its sides, the constant, its units (R236), and for unit `u` with the index `x` found for it the
ranges read and written, the number of destination words, and the pieces of word `k`. -/
structure Plan where
  src : Side64
  dst : Side64
  const : Word
  units : Nat
  reads : Nat → Nat → List (Nat × Nat)
  writes : Nat → Nat → List (Nat × Nat)
  words : Nat → Nat → Nat
  pieces : Nat → Nat → Nat → List Piece

/-- R235: check the ranges of one side. -/
def State.sideCheck (s : State) (e : Eng) (d : Side64) (wr cmp : Bool) (code : Nat) (xl : List TlbEnt) :
    List (Nat × Nat) → State × Nat × List TlbEnt
  | [] => (s, code, xl)
  | r :: rs =>
    match s.engRange e (segNo d.addr) (segOff d.addr + r.1) r.2 wr cmp xl with
    | (s, c, xl) => s.sideCheck e d wr cmp (lowCode code c) xl rs

/-- R235: the checks of a unit over every byte it reads or writes. -/
def State.planCheck (s : State) (e : Eng) (p : Plan) (u x : Nat) (xl : List TlbEnt) : State × Nat × List TlbEnt :=
  match s.sideCheck e p.src false false 0 xl (p.reads u x) with
  | (s, c, xl) => s.sideCheck e p.dst true false c xl (p.writes u x)

/-- Bytes `a % 8` on of a word. -/
def subWord (w : Word) (a len : Nat) : Nat := w.toNat / 2 ^ (8 * (a % 8)) % 2 ^ (8 * len)

/-- The pieces of one destination word together: value, byte mask, poison; `l`: what was read for those that come from memory, in their
order. -/
def joinPieces (const : Word) : List Piece → List TW → Nat × Nat × Bool
  | [], _ => (0, 0, false)
  | x :: r, l =>
    let sh := x.dst % 8
    let m := (2 ^ x.len - 1) * 2 ^ sh
    let v : Nat × Bool := match x.src, l with
      | some _, y :: _ => (y.v.toNat, y.psn)
      | _, _ => (const.toNat % 2 ^ (8 * x.len), false)
    let t := joinPieces const r (if x.src.isSome then l.drop 1 else l)
    (v.1 * 2 ^ (8 * sh) + t.1, m ||| t.2.1, v.2 || t.2.2)

/-- The source offsets and lengths of the pieces of a word that come from memory. -/
def srcOf (ps : List Piece) : List (Nat × Nat) := ps.filterMap fun x => x.src.map fun o => (o, x.len)

/-- The place of a source offset. -/
def State.planSrc (s : State) (p : Plan) (xl : List TlbEnt) (o : Nat) : Place :=
  s.engWord (segNo p.src.addr) (segOff p.src.addr + o) p.src.rot xl

/-- The place of a piece's source, and of its destination. -/
def State.pieceSrc (s : State) (p : Plan) (xl : List TlbEnt) (x : Piece) : Option Place := x.src.map (s.planSrc p xl)
def State.pieceDst (s : State) (p : Plan) (xl : List TlbEnt) (x : Piece) : Place :=
  s.engWord (segNo p.dst.addr) (segOff p.dst.addr + x.dst) p.dst.rot xl

/-- R369: a column that the pieces of a word spend from has no tokens. -/
def State.piecesPaused (s : State) (p : Plan) (xl : List TlbEnt) (ps : List Piece) : Bool :=
  ps.any fun x => s.placePaused (s.pieceDst p xl x) || (s.pieceSrc p xl x).any s.placePaused

/-- What a side has first in the word after word `k` of a unit. -/
def Plan.after {α : Type} (p : Plan) (c : Cmd) (k : Nat) (side : List Piece → List α) : Option α :=
  if k + 1 < p.words c.unit c.row then (side (p.pieces c.unit c.row (k + 1))).head? else none

/-- R237, R263, R375: source piece `j` of word `k` of a unit is read, and its line is charged unless the next piece lies in it too. A word
that the command has written itself is read as it stands (log 38). -/
def State.readPiece (s : State) (e : Eng) (p : Plan) (c : Cmd) (k j : Nat) (x : Nat × Nat) : State × TW :=
  let w := s.cell.who (engAgent e)
  let at_ := fun (y : Nat × Nat) => (s.planSrc p c.xl y.1, segOff p.src.addr + y.1)
  let l := srcOf (p.pieces c.unit c.row k)
  let next := if j + 1 < l.length then l[j + 1]? else p.after c k srcOf
  let q := (s.lineIn w (at_ x).1 (mkAddr (segNo p.src.addr) (at_ x).2)).engRead e (segNo p.src.addr) (at_ x).2 p.src.rot c.xl
  (q.1.chargeNext w (at_ x).1 (at_ x).2 (next.map at_), ⟨BitVec.ofNat 64 (subWord q.2.v (at_ x).2 x.2), q.2.psn⟩)

/-- R235, R237, R238, R375: destination word `k` of a unit is written from what has been read; its line is charged with its last word. Bytes
beside a narrow element are not written: what a program puts there meanwhile stays (DESIGN CHOICE, log 38). -/
def State.writePieces (s : State) (e : Eng) (p : Plan) (c : Cmd) (k : Nat) (l : List TW) : State × Bool :=
  match p.pieces c.unit c.row k with
  | [] => (s, false)
  | x :: r =>
    let at_ := fun (y : Piece) => (s.pieceDst p c.xl y, segOff p.dst.addr + y.dst)
    let w := s.cell.who (engAgent e)
    let v := joinPieces p.const (x :: r) l
    let t := (s.lineFor w (at_ x).1).engWrite c.since (at_ x).1 (BitVec.ofNat 64 v.1) (BitVec.ofNat 8 v.2.1) v.2.2
    (t.chargeNext w (at_ x).1 (at_ x).2 ((p.after c k id).map at_), v.2.2)

/-- R263: one move on destination word `k` of a unit: one of its source pieces is read, and with the last of them the word is written.
Answers the command after it. -/
def State.moveWordK (s : State) (e : Eng) (p : Plan) (c : Cmd) (k : Nat) : State × Cmd :=
  let l := srcOf (p.pieces c.unit c.row k)
  let r : State × List TW := match l[c.buf.length]? with
    | none => (s, c.buf)
    | some x =>
      let q := s.readPiece e p c k c.buf.length x
      (q.1, c.buf ++ [q.2])
  if r.2.length < l.length then (r.1, { c with buf := r.2 })
  else
    let w := r.1.writePieces e p c k r.2
    (w.1, { c with group := c.group + 1, buf := [], poisoned := c.poisoned || w.2 })

/-- R235: one move of a data command. Its checks come first (`static`), then for each unit its own checks (`find`, which may
complete with a code or name an index) and those of every byte, then its words one by one. A pause of heat holds it, but not beyond the
time its writes must have performed by (R261). -/
def State.planMove (s : State) (e : Eng) (h : Hdr) (c : Cmd) (p : Plan) (static : State → State × Nat)
    (find : State → Nat → State × Nat × List TlbEnt × Nat) : State :=
  if c.group = 0 then
    let t := if c.unit = 0 then static s else (s, 0)
    if t.2 ≠ 0 then t.1.endRun e c h t.2 0
    else
      match find t.1 c.unit with
      | (s, k + 1, _, _) => s.endRun e c h (k + 1) c.unit
      | (s, 0, xl, x) =>
        match s.planCheck e p c.unit x xl with
        | (s, k + 1, _) => s.endRun e c h (k + 1) c.unit
        | (s, 0, xl) => s.setCmd e (some { c with group := 1, row := x, xl := xl, buf := [], since := s.pkg.time.t3, owes := true })
  else if c.group - 1 < p.words c.unit c.row then
    if s.piecesPaused p c.xl (p.pieces c.unit c.row (c.group - 1)) && !s.cmdAtHand c then s
    else
      let r := s.moveWordK e p c (c.group - 1)
      r.1.setCmd e (some r.2)
  else if c.unit + 1 < p.units then
    s.setCmd e (some { c with unit := c.unit + 1, group := 0, row := 0, xl := [], due := none, owes := false })
  else s.endRun e c h (if c.poisoned then 5 else 0) p.units

/-- No checks of a unit's own. -/
def noFind (s : State) (_ : Nat) : State × Nat × List TlbEnt × Nat := (s, 0, [], 0)

/-! ## Static checks (R234, R235) -/

/-- R234: one operand: entry valid (0x03), kind, rotation and alignment (0x13). `nums` are its pitches and sizes. -/
def State.operand (s : State) (d : Side64) (kinds nums : List Nat) : Nat :=
  match segAt s.cell.segs (segNo d.addr) with
  | none => 3
  | some e =>
    let al := if e.kind = kTensor then 64 else 8
    if kinds.contains e.kind && rotOk e d.rot && segOff d.addr % al = 0 && nums.all (· % al = 0) then 0 else 0x13

def kSL : List Nat := [kScratch, kLinear]
def kSLT : List Nat := [kScratch, kLinear, kTensor]

/-- The lowest code of several checks that change nothing. -/
def codes (l : List Nat) (s : State) : State × Nat := (s, l.foldl lowCode 0)

/-! ## COPY, COPYN, FILL (R240, R241, R244) -/

/-- An engine of the ce field. -/
def ceOf (ce : Bool) : Eng := if ce then .ce1 else .ce0

/-- Whole words of a row. -/
def rowPiece (so : Option Nat) (d : Nat) : List Piece := [⟨so, d, 8⟩]

/-- R240. -/
def copyPlan (p : PCopy) : Plan where
  src := ⟨p.src, p.sacc.rot.toNat⟩
  dst := ⟨p.dst, p.dacc.rot.toNat⟩
  const := 0
  units := p.ext.rows1.toNat + 1
  reads u _ := [(u * p.sacc.pitch.toNat, p.ext.bytes.toNat)]
  writes u _ := [(u * p.dacc.pitch.toNat, p.ext.bytes.toNat)]
  words _ _ := p.ext.bytes.toNat / 8
  pieces u _ k := rowPiece (some (u * p.sacc.pitch.toNat + 8 * k)) (u * p.dacc.pitch.toNat + 8 * k)

/-- R240. -/
def execCopy (ce : Bool) (h : Hdr) (p : PCopy) (s : State) : Res :=
  .next (s.runCmd (ceOf ce) (.copy ce h p) h fun s c =>
    let pl := copyPlan p
    s.planMove (ceOf ce) h c pl
      (fun s => codes [s.operand pl.src kSLT [p.sacc.pitch.toNat, p.ext.bytes.toNat],
        s.operand pl.dst kSLT [p.dacc.pitch.toNat, p.ext.bytes.toNat]] s) noFind)

/-- R241, R296: the block number of coordinates. -/
def blockNo (e : SegEnt) (i0 i1 i2 i3 : Nat) : Nat := i0 + e.extent 0 * (i1 + e.extent 1 * (i2 + e.extent 2 * i3))

/-- R241: offsets of the two sides at (i0, i1, i2, i3). -/
def copynLin (p : PCopyn) (i0 i1 i2 i3 : Nat) : Nat := 64 * i0 + p.lp1.toNat * i1 + p.lp2.toNat * i2 + p.lp3.toNat * i3
def copynTen (p : PCopyn) (e : SegEnt) (i0 i1 i2 i3 : Nat) : Nat :=
  64 * blockNo e (p.st0.toNat + i0) (p.st1.toNat + i1) (p.st2.toNat + i2) (p.st3.toNat + i3)

/-- R241: a unit is an index of dimension 3; a word is (i2, i1, i0, eighth of a block). -/
def copynPlan (p : PCopyn) (e : SegEnt) : Plan :=
  let n0 := p.nb0.toNat + 1
  let n1 := p.nb1.toNat + 1
  let n2 := p.nb2.toNat + 1
  let rows := (List.range n2).flatMap fun i2 => (List.range n1).map fun i1 => (i1, i2)
  let lin := fun (u : Nat) => rows.map fun r => (copynLin p 0 r.1 r.2 u, 64 * n0)
  let ten := fun (u : Nat) => rows.map fun r => (copynTen p e 0 r.1 r.2 u, 64 * n0)
  let at_ := fun (f : Nat → Nat → Nat → Nat → Nat) (u k : Nat) => f (k / 8 % n0) (k / 8 / n0 % n1) (k / 8 / n0 / n1) u + 8 * (k % 8)
  let l : Side64 := ⟨p.lin, p.rot.toNat⟩
  let t : Side64 := ⟨p.ten, 0⟩
  { src := if p.dir then l else t
    dst := if p.dir then t else l
    const := 0
    units := p.nb3.toNat + 1
    reads := fun u _ => if p.dir then lin u else ten u
    writes := fun u _ => if p.dir then ten u else lin u
    words := fun _ _ => n0 * n1 * n2 * 8
    pieces := fun u _ k =>
      let a := at_ (copynLin p) u k
      let b := at_ (copynTen p e) u k
      if p.dir then rowPiece (some a) b else rowPiece (some b) a }

/-- R241: coordinates outside the tensor. -/
def copynOut (p : PCopyn) (e : SegEnt) : Bool :=
  e.extent 0 < p.st0.toNat + p.nb0.toNat + 1 || e.extent 1 < p.st1.toNat + p.nb1.toNat + 1
    || e.extent 2 < p.st2.toNat + p.nb2.toNat + 1 || e.extent 3 < p.st3.toNat + p.nb3.toNat + 1

/-- R234, R235, R241: the checks of COPYN. -/
def State.copynStatic (s : State) (p : PCopyn) : Nat :=
  let k := lowCode
    (s.operand ⟨p.lin, p.rot.toNat⟩ kSL [p.lp1.toNat, p.lp2.toNat, p.lp3.toNat])
    (s.operand ⟨p.ten, 0⟩ [kTensor] [])
  if k ≠ 0 then k
  else
    match segAt s.cell.segs (segNo p.ten) with
    | none => 3
    | some e => if segOff p.ten ≠ 0 then 0x13 else if copynOut p e then 0x14 else 0

/-- R241. -/
def execCopyn (ce : Bool) (h : Hdr) (p : PCopyn) (s : State) : Res :=
  .next (s.runCmd (ceOf ce) (.copyn ce h p) h fun s c =>
    let e := (segAt s.cell.segs (segNo p.ten)).getD default
    s.planMove (ceOf ce) h c (copynPlan p e) (fun s => (s, s.copynStatic p)) noFind)

/-- R244. -/
def fillPlan (p : PFill) : Plan where
  src := ⟨0, 0⟩
  dst := ⟨p.dst, p.dacc.rot.toNat⟩
  const := p.value
  units := p.ext.rows1.toNat + 1
  reads _ _ := []
  writes u _ := [(u * p.dacc.pitch.toNat, p.ext.bytes.toNat)]
  words _ _ := p.ext.bytes.toNat / 8
  pieces u _ k := rowPiece none (u * p.dacc.pitch.toNat + 8 * k)

/-- R244. -/
def execFill (ce : Bool) (h : Hdr) (p : PFill) (s : State) : Res :=
  .next (s.runCmd (ceOf ce) (.fill ce h p) h fun s c =>
    let pl := fillPlan p
    s.planMove (ceOf ce) h c pl
      (fun s => codes [s.operand pl.dst kSLT [p.dacc.pitch.toNat, p.ext.bytes.toNat]] s) noFind)

/-! ## GATH and SCAT (R242, R243) -/

/-- R243: the skip index. -/
def skipIdx : Nat := 0xFFFFFFFF

/-- Reading the 4-byte index entry of a unit, the last one of the list or not: its checks, poison, value. A word holds two entries where
they share it. -/
def State.indexOf (s : State) (e : Eng) (d : Side64) (u : Nat) (last : Bool) : State × Nat × List TlbEnt × Nat :=
  let off := segOff d.addr + 4 * u
  match s.engRange e (segNo d.addr) off 4 false false [] with
  | (s, k + 1, xl) => (s, k + 1, xl, 0)
  | (s, 0, xl) =>
    let w := s.cell.who (engAgent e)
    let p := s.engWord (segNo d.addr) off d.rot xl
    let q := (s.lineIn w p (mkAddr (segNo d.addr) off)).engRead e (segNo d.addr) off d.rot xl
    let q := (if last || off % 8 = 4 then q.1.chargeRun w p off last else q.1, q.2)
    if q.2.psn then (q.1, 5, xl, 0) else (q.1, 0, xl, subWord q.2.v off 4)

/-- R235, R243: index, poison, skip, BOUND. -/
def State.gathFind (s : State) (e : Eng) (p : PGath) (u : Nat) : State × Nat × List TlbEnt × Nat :=
  match s.indexOf e ⟨p.idxa, p.irot.toNat⟩ u (u = p.count1.toNat) with
  | (s, 0, xl, x) => if x ≠ skipIdx && p.bound.toNat ≤ x then (s, 0x15, xl, x) else (s, 0, xl, x)
  | r => r

/-- R243: GATH. -/
def gathPlan (p : PGath) : Plan where
  src := ⟨p.base, p.brot.toNat⟩
  dst := ⟨p.dense, p.drot.toNat⟩
  const := 0
  units := p.count1.toNat + 1
  reads _ x := if x = skipIdx then [] else [(x * p.stride.toNat, p.esize.toNat)]
  writes u _ := [(u * p.esize.toNat, p.esize.toNat)]
  words _ _ := p.esize.toNat / 8
  pieces u x k := rowPiece (if x = skipIdx then none else some (x * p.stride.toNat + 8 * k)) (u * p.esize.toNat + 8 * k)

/-- R243: SCAT. -/
def scatPlan (p : PGath) : Plan where
  src := ⟨p.dense, p.drot.toNat⟩
  dst := ⟨p.base, p.brot.toNat⟩
  const := 0
  units := p.count1.toNat + 1
  reads u x := if x = skipIdx then [] else [(u * p.esize.toNat, p.esize.toNat)]
  writes _ x := if x = skipIdx then [] else [(x * p.stride.toNat, p.esize.toNat)]
  words _ x := if x = skipIdx then 0 else p.esize.toNat / 8
  pieces u x k := rowPiece (some (u * p.esize.toNat + 8 * k)) (x * p.stride.toNat + 8 * k)

/-- R234, R242: the index list: kind, rotation, a multiple of 4. -/
def State.idxOperand (s : State) (p : PGath) : Nat :=
  match segAt s.cell.segs (segNo p.idxa) with
  | none => 3
  | some e => if kSL.contains e.kind && rotOk e p.irot.toNat && segOff p.idxa % 4 = 0 then 0 else 0x13

/-- R234: operands of GATH and SCAT. -/
def State.gathStatic (s : State) (p : PGath) : List Nat :=
  [s.operand ⟨p.base, p.brot.toNat⟩ kSLT [p.stride.toNat, p.esize.toNat], s.operand ⟨p.dense, p.drot.toNat⟩ kSL [p.esize.toNat],
    s.idxOperand p]

/-- R243. -/
def execGath (ce : Bool) (h : Hdr) (p : PGath) (s : State) : Res :=
  .next (s.runCmd (ceOf ce) (.gath ce h p) h fun s c =>
    s.planMove (ceOf ce) h c (gathPlan p) (fun s => codes (s.gathStatic p) s) fun s u => s.gathFind (ceOf ce) p u)

/-- R243. -/
def execScat (ce : Bool) (h : Hdr) (p : PGath) (s : State) : Res :=
  .next (s.runCmd (ceOf ce) (.scat ce h p) h fun s c =>
    s.planMove (ceOf ce) h c (scatPlan p) (fun s => codes (s.gathStatic p) s) fun s u => s.gathFind (ceOf ce) p u)

/-! ## FLAGW (R245) -/

/-- R245, R266: the checks, the wait for every write seen by then, then the write. -/
def State.flagMove (s : State) (e : Eng) (h : Hdr) (p : PFlagw) (c : Cmd) : State :=
  let d : Side64 := ⟨p.addr, 0⟩
  if c.group = 0 then
    let k := s.operand d kSL []
    if k ≠ 0 then s.endRun e c h k 0
    else
      match s.engRange e (segNo p.addr) (segOff p.addr) 8 true false [] with
      | (s, k + 1, _) => s.endRun e c h (k + 1) 0
      | (s, 0, xl) => s.setCmd e (some { c with group := 1, xl := xl, since := s.pkg.time.t3, owes := true })
  else if (s.mem.visibleIds s.cell.id).all fun i => s.mem.reached i (scopeReach h.scope) then
    let q := s.engWord (segNo p.addr) (segOff p.addr) 0 c.xl
    if s.placePaused q && !s.cmdAtHand c then s
    else (s.engPut e (segOff p.addr) c.since q p.value 0xFF false true).endRun e c h 0 1
  else s

/-- R245. -/
def execFlagw (ce : Bool) (h : Hdr) (p : PFlagw) (s : State) : Res :=
  .next (s.runCmd (ceOf ce) (.flagw ce h p) h fun s c => s.flagMove (ceOf ce) h p c)

/-! ## CMPR and EXPN (R246 to R249) -/

/-- Eight words of a block with their tags. -/
abbrev Blk8 := List (Nat × Bool)

/-- The words read so far, as numbers. -/
def Cmd.read8 (c : Cmd) : Blk8 := c.buf.map fun x => (x.v.toNat, x.psn)

/-- R263: one move of reading: the word `c.sub` of a run of `n` words from a byte offset on joins `buf`. -/
def State.readMove (s : State) (e : Eng) (d : Side64) (off n : Nat) (c : Cmd) : State :=
  let a := segOff d.addr + off + 8 * c.sub
  let p := s.engWord (segNo d.addr) a d.rot c.xl
  if s.placePaused p && !s.cmdAtHand c then s
  else
    let q := s.engTake e (segNo d.addr) a d.rot c.xl (c.sub + 1 = n)
    q.1.setCmd e (some { c with sub := c.sub + 1, buf := c.buf ++ [q.2] })

/-- R263: one move of writing: the word `c.sub` of `buf` goes to a run of words from a byte offset on. -/
def State.writeMove (s : State) (e : Eng) (d : Side64) (off : Nat) (c : Cmd) : State :=
  let a := segOff d.addr + off + 8 * c.sub
  let p := s.engWord (segNo d.addr) a d.rot c.xl
  if s.placePaused p && !s.cmdAtHand c then s
  else
    let x := c.buf.getD c.sub ⟨0, false⟩
    (s.engPut e a c.since p x.v 0xFF x.psn (c.sub + 1 = c.buf.length)).setCmd e (some { c with sub := c.sub + 1 })

/-- Words to write, as a command holds them. -/
def toBuf (l : Blk8) : List TW := l.map fun x => ⟨BitVec.ofNat 64 x.1, x.2⟩

/-- Words grouped into blocks of eight. -/
def blocksOf : Nat → Blk8 → List Blk8
  | 0, _ => []
  | n + 1, l => l.take 8 :: blocksOf n (l.drop 8)

/-- R248: the code of a block after the block before it. -/
def cmprCode (prev : Option Blk8) (b : Blk8) : Nat :=
  if b.any (·.2) then 1
  else if b.all (·.1 = 0) then 0
  else
    match prev with
    | some q => if q.map (·.1) = b.map (·.1) then 2 else 1
    | none => 1

/-- R248: the codes of a unit's blocks. -/
def cmprCodes : Option Blk8 → List Blk8 → List Nat
  | _, [] => []
  | prev, b :: r => cmprCode prev b :: cmprCodes (some b) r

/-- R247, R248: the header and literals of a unit. -/
def cmprUnit (bs : List Blk8) : Blk8 :=
  let cs := cmprCodes none bs
  let lits := (bs.zip cs).filterMap fun x => if x.2 = 1 then some x.1 else none
  let codes := (cs.zipIdx.map fun x => x.1 * 4 ^ x.2).sum
  [(0x80 + bs.length * 2 ^ 8 + lits.length * 2 ^ 16, false), (codes, false)] ++ List.replicate 6 (0, false) ++ lits.flatten

/-- R248: blocks of input unit `u`. -/
def cmprBlocks (p : PCmpr) (u : Nat) : Nat := min 32 (p.length.toNat / 64 - 32 * u)

/-- R246, R248, R249: the result word is written, after every payload write, by the translations found when it was checked. In scratchpad it
has rotation code 0, whatever ROT is (log 36). `since`: when the checks it belongs to had finished (R261). -/
def State.putRes (s : State) (e : Eng) (a : Word) (xl : List TlbEnt) (v since : Nat) : State :=
  s.engPut e (segOff a) since (s.engWord (segNo a) (segOff a) 0 xl) (BitVec.ofNat 64 v) 0xFF false true

/-- R234, R235: the checks of the result word: kind and alignment, then its bytes; none when one fails. -/
def State.resCheck (s : State) (e : Eng) (p : PCmpr) : State × Option (List TlbEnt) :=
  if s.operand ⟨p.res, 0⟩ kSL [] ≠ 0 then (s, none)
  else
    match s.engRange e (segNo p.res) (segOff p.res) 8 true false [] with
    | (s, 0, xl) => (s, some xl)
    | (s, _, _) => (s, none)

/-- The translations of the result word among those of a unit. -/
def resXl (p : PCmpr) (xl : List TlbEnt) : List TlbEnt := xl.filter fun t => t.seg = segNo p.res

/-- R235: whether an operand lacks the compression attribute, in its entry and in the leaf of its first byte; a later page that lacks it
fails at its own unit (log 36). -/
def State.lacksCmp (s : State) (e : Eng) (a : Word) : State × Bool :=
  match segAt s.cell.segs (segNo a) with
  | none => (s, false)
  | some ent =>
    if ent.cmp then (s, false)
    else if !ent.pageable then (s, true)
    else match s.xlate (s.engCx e) (segNo a) ent (segOff a) false with
      | (s, .ok x) => (s, !x.cmp)
      | (s, .error _) => (s, false)

/-- R234, R235: the checks of CMPR (`exp` false) and EXPN. -/
def State.cmprStatic (s : State) (e : Eng) (p : PCmpr) (exp : Bool) : State × Nat :=
  let k := lowCode (s.operand ⟨p.src, if exp then 0 else p.rot.toNat⟩ (if exp then [kLinear] else kSL) [])
    (lowCode (s.operand ⟨p.dst, if exp then p.rot.toNat else 0⟩ (if exp then [kScratch] else [kLinear]) [])
      (s.operand ⟨p.res, 0⟩ kSL []))
  if k ≠ 0 then (s, k)
  else
    let r := s.lacksCmp e (if exp then p.src else p.dst)
    (r.1, if r.2 then 0x17 else 0)

/-- R248, R249: CMPR and EXPN end with a code; on 0x03 and 0x07 the result word says how far the units before came, `xl` holding the
translations of its own checks. -/
def State.endCmpr (s : State) (e : Eng) (c : Cmd) (h : Hdr) (p : PCmpr) (xl : List TlbEnt) (code res : Nat) : State :=
  (if code = 3 || code = 7 then s.putRes e p.res xl res s.pkg.time.t3 else s).endRun e c h code c.unit

/-- R234, R248, R249: the static checks fail. Where another operand has no valid entry (0x03), the result word is written as 0, unless its own
checks fail (log 36). -/
def State.endStatic (s : State) (e : Eng) (c : Cmd) (h : Hdr) (p : PCmpr) (code : Nat) : State :=
  match s.resCheck e p with
  | (t, some xl) => if code = 3 then t.endCmpr e c h p xl 3 0 else s.endRun e c h code 0
  | (_, none) => s.endRun e c h code 0

/-- R248: input units of a CMPR. -/
def cmprUnits (p : PCmpr) : Nat := ceilDiv (p.length.toNat / 64) 32

/-- R248: the next unit of CMPR, `size` bytes of output being counted. While the whole output is only measured (`row`: one more than the
unit that did not fit) the last unit ends it with 0x16. -/
def State.cmprNext (s : State) (e : Eng) (h : Hdr) (p : PCmpr) (c : Cmd) (size : Nat) : State :=
  let c := { c with unit := c.unit + 1, group := 0, sub := 0, buf := [], owes := false, outBytes := c.outBytes + size }
  if c.unit < cmprUnits p then
    s.setCmd e (some (if c.row ≠ 0 then { c with xl := resXl p c.xl } else { c with xl := [], due := none }))
  else
    (s.putRes e p.res c.xl c.outBytes c.since).endRun e c h (if c.row ≠ 0 then 0x16 else if c.poisoned then 5 else 0)
      (if c.row ≠ 0 then c.row - 1 else c.unit)

/-- R235, R248: the checks of a unit of CMPR: RES first, then the input. What the unit writes is known once its input is read: a unit that
is not read writes its header block at least, and no code is below that block's 0x03; else the whole output is checked when its size is
known (log 36). A unit that is only measured counts in full when it cannot be read. The translations of RES are kept until it is written. -/
def State.cmprCheck (s : State) (e : Eng) (h : Hdr) (p : PCmpr) (c : Cmd) : State :=
  let st := if c.unit = 0 then s.cmprStatic e p false else (s, 0)
  if st.2 ≠ 0 then st.1.endStatic e c h p st.2
  else
    let k := cmprBlocks p c.unit
    let rr := if c.row = 0 then st.1.engRange e (segNo p.res) (segOff p.res) 8 true false [] else (st.1, 0, c.xl)
    if rr.2.1 ≠ 0 then rr.1.endRun e c h rr.2.1 c.unit
    else
      let rs := rr.1.engRange e (segNo p.src) (segOff p.src + 2048 * c.unit) (64 * k) false false rr.2.2
      let rd := if c.row = 0 then rs.1.engRange e (segNo p.dst) (segOff p.dst + c.outBytes) 64 true true [] else (rs.1, 0, [])
      if c.row ≠ 0 && rs.2.1 ≠ 0 then rs.1.cmprNext e h p c (64 * (k + 1))
      else if rs.2.1 ≠ 0 || rd.2.1 = 3 then rd.1.endCmpr e c h p rr.2.2 (lowCode rs.2.1 rd.2.1) c.outBytes
      else rd.1.setCmd e (some { c with group := 1, sub := 0, buf := [], xl := rs.2.2, since := s.pkg.time.t3, owes := decide (c.row ≠ 0) })

/-- R248: a unit of CMPR has been read: it is measured, does not fit, or its output is checked and written. -/
def State.cmprJudge (s : State) (e : Eng) (h : Hdr) (p : PCmpr) (c : Cmd) : State :=
  let out := cmprUnit (blocksOf (cmprBlocks p c.unit) c.read8)
  if c.row ≠ 0 then s.cmprNext e h p c (8 * out.length)
  else
    let rd := s.engRange e (segNo p.dst) (segOff p.dst + c.outBytes) (8 * out.length) true true (resXl p c.xl)
    if rd.2.1 ≠ 0 then rd.1.endCmpr e c h p c.xl rd.2.1 c.outBytes
    else if p.cap.toNat < c.outBytes + 8 * out.length then rd.1.cmprNext e h p { c with row := c.unit + 1 } (8 * out.length)
    else
      rd.1.setCmd e (some { c with
        group := 2, sub := 0, buf := toBuf out, xl := rd.2.2, since := s.pkg.time.t3, owes := true
        poisoned := c.poisoned || c.buf.any (·.psn) })

/-- R248: one move of CMPR: the checks of a unit, one of its words read, its judgement, or one of its words written. -/
def State.cmprMove (s : State) (e : Eng) (h : Hdr) (p : PCmpr) (c : Cmd) : State :=
  match c.group with
  | 0 => s.cmprCheck e h p c
  | 1 =>
    if c.sub < 8 * cmprBlocks p c.unit then s.readMove e ⟨p.src, p.rot.toNat⟩ (2048 * c.unit) (8 * cmprBlocks p c.unit) c else s.cmprJudge e h p c
  | _ => if c.sub < c.buf.length then s.writeMove e ⟨p.dst, 0⟩ c.outBytes c else s.cmprNext e h p c (8 * c.buf.length)

/-- R248. -/
def execCmpr (ce : Bool) (h : Hdr) (p : PCmpr) (s : State) : Res :=
  .next (s.runCmd (ceOf ce) (.cmpr ce h p) h fun s c => s.cmprMove (ceOf ce) h p c)

/-- R247: the codes of a header, when it is well formed: the block codes and the literal count. -/
def headerCodes (w : Blk8) : Option (List Nat × Nat) :=
  match w with
  | (a, _) :: (codes, _) :: rest =>
    let n := a / 2 ^ 8 % 256
    let l := a / 2 ^ 16 % 256
    let cs := (List.range n).map fun i => codes / 4 ^ i % 4
    if a % 256 = 0x80 && 1 ≤ n && n ≤ 32 && a / 2 ^ 24 = 0 && rest.all (·.1 = 0) && codes / 4 ^ n = 0
        && cs.all (· ≠ 3) && cs.head? ≠ some 2 && l = cs.countP (· = 1) then some (cs, l)
    else none
  | _ => none

/-- R249: the blocks that codes and literals stand for. -/
def expand : List Nat → List Blk8 → Blk8 → List Blk8
  | [], _, _ => []
  | 0 :: r, lits, _ => List.replicate 8 (0, false) :: expand r lits (List.replicate 8 (0, false))
  | 1 :: r, b :: lits, _ => b :: expand r lits b
  | 1 :: r, [], q => q :: expand r [] q
  | _ :: r, lits, q => q :: expand r lits q

/-- R249: a compressed-stream block met as a literal, where R247's "any bytes" does not win (log 37); a poisoned one has no bytes to
judge. -/
def streamLit (b : Blk8) : Bool :=
  Config.refuseStreamLiteral && !b.any (·.2) && match b with | x :: _ => x.1 % 256 / 16 = 8 | [] => false

/-- R235, R249: the checks that come before anything else of a unit of EXPN: RES and the header block. -/
def State.expnCheck (s : State) (e : Eng) (h : Hdr) (p : PCmpr) (c : Cmd) : State :=
  let st := if c.unit = 0 then s.cmprStatic e p true else (s, 0)
  if st.2 ≠ 0 then st.1.endStatic e c h p st.2
  else
    let rr := st.1.engRange e (segNo p.res) (segOff p.res) 8 true false []
    let rh := rr.1.engRange e (segNo p.src) (segOff p.src + c.inBytes) 64 false true rr.2.2
    let code := lowCode rr.2.1 rh.2.1
    if rr.2.1 ≠ 0 then rh.1.endRun e c h code c.unit
    else if code ≠ 0 then rh.1.endCmpr e c h p rr.2.2 code c.inBytes
    else rh.1.setCmd e (some { c with group := 1, sub := 0, buf := [], xl := rh.2.2 })

/-- R247, R249: the header block has been read: it is refused, or the literals and the output of the unit are checked. -/
def State.expnHeader (s : State) (e : Eng) (h : Hdr) (p : PCmpr) (c : Cmd) : State :=
  if c.buf.any (·.psn) then s.endRun e c h 5 c.unit
  else
    match headerCodes c.read8 with
    | none => s.endRun e c h 6 c.unit
    | some (cs, l) =>
      let rl := s.engRange e (segNo p.src) (segOff p.src + c.inBytes + 64) (64 * l) false true (resXl p c.xl)
      let rd := rl.1.engRange e (segNo p.dst) (segOff p.dst + c.outBytes) (64 * cs.length) true false rl.2.2
      let code := lowCode rl.2.1 rd.2.1
      if code ≠ 0 then rd.1.endCmpr e c h p c.xl code c.inBytes
      else if p.length.toNat < c.outBytes + 64 * cs.length then rd.1.endRun e c h 0x18 c.unit
      else rd.1.setCmd e (some { c with group := 2, sub := 0, xl := rd.2.2, since := s.pkg.time.t3, owes := true })

/-- R249: the literals have been read behind the header: one is refused, or the unit's output is written. -/
def State.expnJudge (s : State) (e : Eng) (h : Hdr) (c : Cmd) (cs : List Nat) (l : Nat) : State :=
  let lits := blocksOf l (c.read8.drop 8)
  if lits.any streamLit then s.endRun e c h 6 c.unit
  else
    s.setCmd e (some { c with
      group := 3, sub := 0, buf := toBuf (expand cs lits []).flatten, inBytes := c.inBytes + 64 * (l + 1)
      poisoned := c.poisoned || c.buf.any (·.psn) })

/-- R249: a unit of EXPN is written: the next one, or the end. -/
def State.expnNext (s : State) (e : Eng) (h : Hdr) (p : PCmpr) (c : Cmd) : State :=
  let c := { c with
    unit := c.unit + 1, group := 0, sub := 0, outBytes := c.outBytes + 8 * c.buf.length, buf := [], owes := false }
  if c.outBytes < p.length.toNat then s.setCmd e (some { c with xl := [], due := none })
  else (s.putRes e p.res c.xl c.inBytes c.since).endRun e c h (if c.poisoned then 5 else 0) c.unit

/-- R249: one move of EXPN: the first checks of a unit, a word of its header or literals read, a judgement, or a word written. -/
def State.expnMove (s : State) (e : Eng) (h : Hdr) (p : PCmpr) (c : Cmd) : State :=
  match c.group with
  | 0 => s.expnCheck e h p c
  | 1 => if c.sub < 8 then s.readMove e ⟨p.src, 0⟩ c.inBytes 8 c else s.expnHeader e h p c
  | 2 =>
    match headerCodes (c.read8.take 8) with
    | some (cs, l) => if c.sub < 8 * l then s.readMove e ⟨p.src, 0⟩ (c.inBytes + 64) (8 * l) c else s.expnJudge e h c cs l
    | none => s.endRun e c h 6 c.unit
  | _ => if c.sub < c.buf.length then s.writeMove e ⟨p.dst, p.rot.toNat⟩ c.outBytes c else s.expnNext e h p c

/-- R249. -/
def execExpn (ce : Bool) (h : Hdr) (p : PCmpr) (s : State) : Res :=
  .next (s.runCmd (ceOf ce) (.expn ce h p) h fun s c => s.expnMove (ceOf ce) h p c)

/-! ## UNFOLD, XPOSE, RELAY (R250 to R253) -/

/-- R250: counts of an UNFOLD: window units, positions, unit bytes. -/
def unfE (p : PUnfold) : Nat := 8 * 2 ^ p.lge.toNat
def unfWin (p : PUnfold) : Nat := (p.kh.toNat + 1) * (p.kw.toNat + 1) * (p.c.toNat + 1)

/-- R251: the source offset of window unit `j` at output position `u`; none in the padding. -/
def unfSrc (p : PUnfold) (u j : Nat) : Option Nat :=
  let c := p.c.toNat + 1
  let kx := j / c % (p.kw.toNat + 1)
  let ky := j / c / (p.kw.toNat + 1)
  let y : Int := (u / (p.ow.toNat + 1) * (p.sty.toNat + 1) + ky * (p.dly.toNat + 1) : Nat) - (p.padt.toNat : Int)
  let x : Int := (u % (p.ow.toNat + 1) * (p.stx.toNat + 1) + kx * (p.dlx.toNat + 1) : Nat) - (p.padl.toNat : Int)
  if 0 ≤ y && y ≤ p.h.toNat && 0 ≤ x && x ≤ p.w.toNat then
    some (y.toNat * p.spy.toNat + x.toNat * p.spx.toNat + j % c * unfE p)
  else none

/-- R251. -/
def unfoldPlan (p : PUnfold) : Plan where
  src := ⟨p.src, p.srot.toNat⟩
  dst := ⟨p.dst, p.drot.toNat⟩
  const := 0
  units := (p.oh.toNat + 1) * (p.ow.toNat + 1)
  reads u _ := (List.range (unfWin p)).filterMap fun j => (unfSrc p u j).map fun o => (o, unfE p)
  writes u _ := [(u * p.dpitch.toNat, unfWin p * unfE p)]
  words _ _ := unfWin p * unfE p / 8
  pieces u _ k := rowPiece ((unfSrc p u (8 * k / unfE p)).map (· + 8 * k % unfE p)) (u * p.dpitch.toNat + 8 * k)

/-- R251. -/
def execUnfold (h : Hdr) (p : PUnfold) (s : State) : Res :=
  .next (s.runCmd .xe (.unfold h p) h fun s c =>
    let pl := unfoldPlan p
    s.planMove .xe h c pl
      (fun s => codes [s.operand pl.src kSL [p.spy.toNat, p.spx.toNat], s.operand pl.dst kSL [p.dpitch.toNat]] s) noFind)

/-- R252: destination word `k` of row `u` gathers the elements that lie in it. -/
def xposePlan (p : PXpose) : Plan :=
  let e := 2 ^ p.lge.toNat
  let rows := p.rows1.toNat + 1
  { src := ⟨p.src, p.sacc.rot.toNat⟩
    dst := ⟨p.dst, p.dacc.rot.toNat⟩
    const := 0
    units := p.cols1.toNat + 1
    reads := fun u _ => (List.range rows).map fun r => (r * p.sacc.pitch.toNat + u * e, e)
    writes := fun u _ => [(u * p.dacc.pitch.toNat, rows * e)]
    words := fun _ _ => ceilDiv (rows * e) 8
    pieces := fun u _ k =>
      ((List.range (8 / e)).map (8 / e * k + ·)).filterMap fun r =>
        if r < rows then some ⟨some (r * p.sacc.pitch.toNat + u * e), u * p.dacc.pitch.toNat + r * e, e⟩ else none }

/-- R252. -/
def execXpose (h : Hdr) (p : PXpose) (s : State) : Res :=
  .next (s.runCmd .xe (.xpose h p) h fun s c =>
    let pl := xposePlan p
    s.planMove .xe h c pl
      (fun s => codes [s.operand pl.src kSL [p.sacc.pitch.toNat], s.operand pl.dst kSL [p.dacc.pitch.toNat]] s) noFind)

/-- R253: destination indices of source indices. -/
def relayPerm (k : Nat) (i0 i1 i2 : Nat) : Nat × Nat × Nat :=
  match k with
  | 0 => (i0, i1, i2)
  | 1 => (i1, i0, i2)
  | 2 => (i0, i2, i1)
  | 3 => (i2, i1, i0)
  | 4 => (i1, i2, i0)
  | _ => (i2, i0, i1)

/-- R253: the destination offset of a piece. -/
def relayDst (p : PRelay) (i0 i1 i2 : Nat) : Nat :=
  let j := relayPerm p.perm.toNat i0 i1 i2
  j.1 * (8 * 2 ^ p.lgu.toNat) + j.2.1 * p.dp1.toNat + j.2.2 * p.dp2.toNat

/-- R253. Where destination pieces of one source plane overlap (DP1 = 0, for one), the spec says not which stands: they are written with i1
outer and i0 inner, both ascending (DESIGN CHOICE, log 38). -/
def relayPlan (p : PRelay) : Plan :=
  let u := 8 * 2 ^ p.lgu.toNat
  let n0 := p.n0.toNat + 1
  let n1 := p.n1.toNat + 1
  { src := ⟨p.src, p.srot.toNat⟩
    dst := ⟨p.dst, p.drot.toNat⟩
    const := 0
    units := p.n2.toNat + 1
    reads := fun i2 _ => (List.range n1).map fun i1 => (i1 * p.sp1.toNat + i2 * p.sp2.toNat, n0 * u)
    writes := fun i2 _ => (List.range n1).flatMap fun i1 => (List.range n0).map fun i0 => (relayDst p i0 i1 i2, u)
    words := fun _ _ => n0 * n1 * (u / 8)
    pieces := fun i2 _ k =>
      let w := k % (u / 8)
      let i0 := k / (u / 8) % n0
      let i1 := k / (u / 8) / n0
      rowPiece (some (i0 * u + i1 * p.sp1.toNat + i2 * p.sp2.toNat + 8 * w)) (relayDst p i0 i1 i2 + 8 * w) }

/-- R253. -/
def execRelay (h : Hdr) (p : PRelay) (s : State) : Res :=
  .next (s.runCmd .xe (.relay h p) h fun s c =>
    let pl := relayPlan p
    let u := 8 * 2 ^ p.lgu.toNat
    s.planMove .xe h c pl
      (fun s => codes [s.operand pl.src kSLT [p.sp1.toNat, p.sp2.toNat, u], s.operand pl.dst kSLT [p.dp1.toNat, p.dp2.toNat, u]] s)
      noFind)

end Sys2Proof.Machine
end

