-- ==== Sys2Proof/Machine/Streams.lean ====
section
/-! DEFINITION. Shared operations on streams: the Coelostat's sends and commits (R335, R336, R338, R339, R345, R386) and the
swap engine (R349 to R353). -/

namespace Sys2Proof.Machine

/-! ## Who moves KV blocks -/

/-- The Coelostat of a die, working for a stream's context; it sees what has performed on its die (R257). -/
def coelostat (die : Nat) (x : Stream) : Who := ⟨⟨die, 63⟩, 7, some x.ctx, x.part⟩

/-- The swap engine, on the H-die. -/
def swe (x : Stream) : Who := ⟨pkgAgent, 7, some x.ctx, x.part⟩

/-- The frame a registration captured, as a place (R344). -/
def framePlace (die frame key : Nat) : Place := ⟨2, die, frame * 65536, key, 0, false⟩

/-- R329: the context a stream number belongs to: the PRS's copy while it holds the stream, else the descriptor in host memory. -/
def State.streamCtx (s : State) (n : Nat) : Nat :=
  match s.pkg.streams.find? fun x => x.n = n && x.held with
  | some x => x.ctx
  | none => ((s.hostWord (s.pkg.mgmt.stab.toNat + 64 * n)).v.extractLsb' 36 8).toNat

/-- The PRS's state of a stream; a stream it never accepted is queued. -/
def State.streamState (s : State) (n : Nat) : StreamState :=
  match s.findStream n with
  | some x => x.state
  | none => .queued

/-- Every block of a range is owned by DDIE. -/
def Stream.rangeAtD (x : Stream) (blk0 count : Nat) : Bool :=
  (List.range count).all fun i => x.own[blk0 + i]? = some (BitVec.ofNat 8 x.ddie)

/-- Every block of a range is owned by the swap store. -/
def Stream.rangeSwapped (x : Stream) (blk0 count : Nat) : Bool :=
  (List.range count).all fun i => x.own[blk0 + i]? = some 0x07

def Pull.covers (p : Pull) (b : Nat) : Bool := p.blk0 ≤ b && b < p.blk0 + p.count

/-- The blocks of the outstanding HPULLs of a stream, in arrival order. -/
def Stream.pulled (x : Stream) : List Nat :=
  (x.pulls.filter (·.code.isNone)).flatMap fun p => (List.range p.count).map (p.blk0 + ·)

/-! ## Sending (R336, R345) -/

/-- R336: the next block in send order: HPULL ranges, then HOFF ranges in ring order; each block once. Blocks of `open_` are not sent
yet. -/
def Stream.nextSend (x : Stream) (open_ : Nat → Bool) : Option HReg :=
  (x.pulled ++ x.regs.map (·.blk)).findSome? fun b =>
    if x.sent.contains b || x.own[b]? ≠ some (BitVec.ofNat 8 x.pdie) || open_ b then none else x.regOf b

/-- R344: an HOFF whose range holds the block has registered it and is about to complete. -/
def State.hoffOpen (s : State) (n b : Nat) : Bool :=
  (s.cell :: s.parked).any fun c => c.ho.cmds.any fun m =>
    match m.i, m.phase with
    | .hoff _ p, .release 0 _ => p.stream.toNat = n && p.blk0.toNat ≤ b && b ≤ p.blk0.toNat + p.count1.toNat
    | _, _ => false

/-- R345: where source word `i` of a block goes. -/
def HReg.dstWord (r : HReg) (i : Nat) : Nat :=
  if r.conv then
    let piece := 8 * r.hb
    let h := i / piece / r.tpb
    let t := i / piece % r.tpb
    (t * r.nh + h) * piece + i % piece
  else i

/-- R290: a unit of the package writes a word under a captured key, performed at package scope (R336, log 29). -/
def State.devPut (s : State) (p : Place) (v : Word) (psn : Bool) : State := s.putKeyed p v 0xFF psn

/-- R374: a 64-byte block of a tensor store, charged to the context of a stream. -/
def State.chargeBlock (s : State) (w : Who) (p : Place) : State := s.charge w.ctx (tcol p) (lineClass p) 1

/-- R263, R336: one word of a block is sent: into the destination frame, or through the fabric (R384, R386). -/
def State.sendWord (s : State) (x : Stream) (r : HReg) (i : Nat) : State :=
  let w := coelostat r.srcDie x
  let p := (framePlace r.srcDie r.srcFrame r.srcKey).plus (8 * i)
  let v := s.readW w p (locAddr 2 p.addr)
  let d := 8 * r.dstWord i
  let s := if i % 8 = 7 then v.1.chargeBlock w p else v.1
  if r.modno ≠ 0 then
    (s.chargeFabric x.ctx (tcol p) true).updPkg fun k => { k with
      outbox := k.outbox ++ [⟨r.modno, r.win, r.off + d, v.2.v, v.2.psn⟩] }
  else
    let q := (framePlace r.dstDie r.dstFrame r.dstKey).plus d
    let t := s.devPut q v.2.v v.2.psn
    if i % 8 = 7 then (t.chargeRoute w (tcol p) q).chargeBlock w q else t

/-- R363: both modules of the link between two dies are retired: nothing more is delivered over it. -/
def Repair.linkDown (r : Repair) (a b : Nat) : Bool := 2 ≤ r.links.countP fun l => l = (a, b) || l = (b, a)

/-- R336: a state in which the Coelostat sends. -/
def Stream.sends (x : Stream) : Bool := x.state = .prefill || x.state = .handoff || x.state = .decode

/-- R263, R336, R344: the Coelostat begins the next block of a stream, or sends the next word of the one it has begun. -/
def State.sendBlock (s : State) (n : Nat) : State :=
  match s.findStream n with
  | none => s
  | some x =>
    if !x.sends then s
    else
      match x.going with
      | none =>
        match x.nextSend (s.hoffOpen n) with
        | none => s
        | some r => if r.modno = 0 && s.pkg.repair.linkDown x.pdie x.ddie then s else s.updStream n fun y => { y with going := some (r.blk, 0) }
      | some (b, i) =>
        match x.regOf b with
        | none => s
        | some r =>
          if r.modno = 0 && s.pkg.repair.linkDown x.pdie x.ddie then s
          else (s.sendWord x r i).updStream n fun y =>
            if i + 1 < 8192 then { y with going := some (b, i + 1) } else { y with going := none, sent := y.sent ++ [b] }

/-- R263, R336: a word of a source frame written while the block was under way arrives old or new. -/
def State.resendWord (s : State) (x : Stream) (r : HReg) (i : Nat) : State :=
  let p := (framePlace r.srcDie r.srcFrame r.srcKey).plus (8 * i)
  let q := (framePlace r.dstDie r.dstFrame r.dstKey).plus (8 * r.dstWord i)
  let v := s.wordAs (coelostat r.srcDie x).cell p
  if s.wordAs pkgAgent q = v then s
  else if Config.freeBool s.free then { s with free := s.free + 1 }.devPut q v.v v.psn
  else { s with free := s.free + 1 }

/-! ## Commits (R335, R336, R338) -/

/-- A commit's effect on the outstanding HPULLs: the 2 ms begin again, and a range now at DDIE is done (R340, R346). -/
def Stream.pullsAfter (x : Stream) (b now : Nat) : Stream :=
  { x with
    pulls := x.pulls.map fun p =>
      let p := if p.covers b then { p with since := now } else p
      if x.rangeAtD p.blk0 p.count then p.finish 0 else p }

/-- R332, R338: after a commit: the watermark, then the acknowledgement of the last block. `before`: the watermark stood. -/
def State.afterCommit (s : State) (n b : Nat) (before : Bool) : State :=
  let now := s.pkg.time.t3
  let s := s.updStream n fun x => x.pullsAfter b now
  match s.findStream n with
  | none => s
  | some x =>
    let s := if !before && x.wmReached then s.streamOn n .wm else s
    if x.allAtD then s.streamOn n .ack else s

/-- R263, R336: the words of the block sent longest ago come to stand one by one, then DDIE commits it; a block committed at a remote
module is recorded as freed, and a commit all the same for the HPULLs that wait (R340, R386). -/
def State.commitBlock (s : State) (n : Nat) : State :=
  match s.findStream n with
  | none => s
  | some x =>
    match x.sent with
    | [] => s
    | b :: rest =>
      match x.regOf b with
      | none => s
      | some r =>
        let took := fun (y : Stream) => { y with sent := rest, unreleased := y.unreleased ++ [b], settled := 0 }
        if r.modno ≠ 0 then ((s.updStream n fun y => { took y with fdst := y.fdst + 1 }).setOwner n b 0xFF).afterCommit n b x.wmReached
        else if s.pkg.repair.linkDown r.srcDie r.dstDie then s
        else if x.settled < 8192 then (s.resendWord x r x.settled).updStream n fun y => { y with settled := y.settled + 1 }
        else
          let s := s.updStream n took
          (s.setOwner n b (BitVec.ofNat 8 x.ddie)).afterCommit n b x.wmReached

/-! ## The queue pairs (R352; log 58) -/

/-- First LBA of a block's slot (R349). -/
def Stream.slot (x : Stream) (b : Nat) : Nat := x.lba0 + 32 * b

/-- A command not yet in a submission queue. -/
def nvCmd (k : NvKind) (x : Stream) (b lba n : Nat) (prp : List Nat) : NvCmd := ⟨k, x.n, b, x.drive, lba, n, 0, 0, prp, false⟩

/-- R352: the drive's queue pair has room for another entry: a ring of `depth` entries holds one less. -/
def State.nvRoom (s : State) (drive : Nat) : Bool :=
  match s.pkg.nvqs.find? (·.drive = drive) with
  | none => false
  | some q => s.pkg.nvme.countP (fun c => c.drive = drive && c.sub) + 1 < q.depth

/-- R352: the first command that waits for its queue and finds room: its entry is written and the doorbell moves. -/
def State.nvSubmit1 (s : State) : State :=
  match s.pkg.nvme.findIdx? fun c => !c.sub && s.nvRoom c.drive with
  | none => s
  | some k =>
    let d := (s.pkg.nvme[k]?).map (·.drive)
    s.updPkg fun p => { p with
      nvme := updAt p.nvme k fun c => { c with sub := true, since := p.time.t3 }
      nvqs := p.nvqs.map fun q => if some q.drive = d then { q with sqTail := (q.sqTail + 1) % q.depth } else q }

/-- R352: every command that finds room is submitted, in order, at most `n` of them. -/
def State.nvSubmit (s : State) : Nat → State
  | 0 => s
  | n + 1 => s.nvSubmit1.nvSubmit n

/-- R352: the SWE issues commands. -/
def State.nvPush (s : State) (l : List NvCmd) : State :=
  let s := s.updPkg fun p => { p with nvme := p.nvme ++ l }
  s.nvSubmit s.pkg.nvme.length

/-- R352: the pages of a window slot: one for the header, sixteen for the data, one for the PRP list. -/
def winPages (slot : Nat) (hdr : Bool) (n : Nat) : List Nat :=
  if hdr then [18 * slot] else (List.range n).map (18 * slot + 1 + ·) ++ (if 2 < n then [18 * slot + 17] else [])

/-! ## Freeing (R337, R339) -/

/-- R337: a block is freed by its owner: counted, and its map byte written; a slot of the swap store is deallocated. -/
def State.freeBlock (s : State) (n b : Nat) : State :=
  match s.findStream n with
  | none => s
  | some x =>
    match x.own[b]? with
    | none => s
    | some c =>
      if c = 0xFF then s
      else if c = 0x07 then
        let s := s.updStream n fun y => { y with fswp := y.fswp + 1 }
        (s.nvPush [nvCmd .dealloc x b (x.slot b) (if x.cmp then 17 else 16) []]).setOwner n b 0xFF
      else
        (s.updStream n fun y => if c = BitVec.ofNat 8 x.ddie then { y with fdst := y.fdst + 1 } else { y with fsrc := y.fsrc + 1 }
          ).setOwner n b 0xFF

/-- R339 steps 2 to 5: the cancel, end or loss reaches DDIE: committed blocks are freed there, blocks in flight are discarded, the
source frees the rest, and the swap store frees what it owns, its commands in flight being discarded. -/
def State.cancelAtD (s : State) (n : Nat) : State :=
  match s.findStream n with
  | none => s
  | some x =>
    if !x.ending then s
    else
      let s := s.updPkg fun p => { p with nvme := p.nvme.filter fun y => y.stream ≠ n || y.kind = .dealloc }
      let s := s.updStream n fun y => { y with disc := y.disc + y.sent.length + (if y.going.isSome then 1 else 0) }
      let s := (List.range x.blocks).foldl (fun s b => s.freeBlock n b) s
      s.updStream n fun y => { y with sent := [], unreleased := [], swap := [], regs := [], ending := false, going := none, settled := 0 }

/-! ## The swap store (R349 to R353) -/

/-- The key of a word of a drive. -/
def driveKey (drive lba i : Nat) : Nat := byteKey 5 drive (lba * 4096 + 8 * i)

/-- R247, R248: units of 32 blocks. -/
def pageUnits : Nat → Blk8 → Blk8
  | 0, _ => []
  | n + 1, l => cmprUnit (blocksOf 32 (l.take 256)) ++ pageUnits n (l.drop 256)

/-- R349, R350: C of a page and the words of its data: raw when it is poisoned or would not shrink. -/
def slotData (page : Blk8) : Nat × List Nat :=
  let u := pageUnits 32 page
  if page.any (·.2) || 65536 < 8 * u.length then (0, page.map (·.1))
  else (8 * u.length, u.map (·.1) ++ List.replicate (512 * ceilDiv (8 * u.length) 4096 - u.length) 0)

/-- LBAs of the data of a slot with size C. -/
def dataLbas (c : Nat) : Nat := if c = 0 then 16 else ceilDiv c 4096

/-- Change the swap entry of a block. -/
def Stream.updSwap (x : Stream) (b : Nat) (f : SwapBlk → SwapBlk) : Stream :=
  { x with swap := x.swap.map fun y => if y.blk = b then f y else y }

def State.updSwap (s : State) (n b : Nat) (f : SwapBlk → SwapBlk) : State := s.updStream n fun y => y.updSwap b f

/-- The words of a block that stand in the window, as numbers. -/
def SwapBlk.words (b : SwapBlk) : Blk8 := b.buf.map fun x => (x.v.toNat, x.psn)

/-- R352: the first writes of a block whose page stands in the window: the slot header, when there is one, and the data run. A page with
a marker is reported (R350, R358). -/
def State.issueWrites (s : State) (x : Stream) (b : SwapBlk) : State :=
  let s := if b.buf.any (·.psn) then s.report (s.mkReport (swe x) x.ctx 0x03 8 (locAddr 2 (b.frame * 65536)) 0) else s
  let n := if x.cmp then dataLbas (slotData b.words).1 else 16
  let hd : List NvCmd := if x.cmp then [nvCmd .write x b.blk (x.slot b.blk) 1 (winPages b.slot true 1)] else []
  s.nvPush (hd ++ [nvCmd .write x b.blk (x.slot b.blk + (if x.cmp then 1 else 0)) n (winPages b.slot false n)])

/-- R350: the block of a stream to be written next, once the block before it is done. -/
def Stream.nextOut (x : Stream) : Option SwapBlk :=
  if x.swap.any fun b => b.out && (b.stage = .gather || b.stage = .writing || b.stage = .flushing) then none
  else (x.swap.filter fun b => b.out && b.stage = .registered).foldl
    (fun best b => match best with | none => some b | some y => if b.blk < y.blk then some b else some y) none

/-- R325, R333: swap work that a reset abandoned waits for the context to run again: admitted, not being evicted, and running in its
partition. -/
def State.mayIssue (s : State) (x : Stream) : Bool :=
  let c := s.ctx x.ctx
  !x.again || (c.en && !c.vacating && (s.part c.part.toNat).ctx = some x.ctx)

/-- A window slot that no block uses. -/
def State.freeSlot (s : State) : Nat :=
  let used := s.pkg.streams.flatMap fun x => (x.swap.filter fun b => b.stage ≠ .registered && b.stage ≠ .failed).map (·.slot)
  ((List.range (used.length + 1)).find? fun k => !used.contains k).getD 0

/-- A block's transfer begins: it takes its place in the order of beginnings and a slot of the window. -/
def State.beginSwap (s : State) (n b : Nat) (st : SwapStage) : State :=
  let k := s.freeSlot
  (s.updStream n fun y => { y.updSwap b fun z => { z with stage := st, seq := s.pkg.nextOrder, buf := [], at_ := 0, slot := k } with
    again := false }).updPkg fun p => { p with nextOrder := p.nextOrder + 1 }

/-- R350: the SWE goes on with the SWOUTs of every stream, one block of each at a time, in ascending order. -/
def State.swoutGo (s : State) : State :=
  s.pkg.streams.foldl (init := s) fun s x =>
    match x.nextOut with
    | none => s
    | some b => if s.mayIssue x then s.beginSwap x.n b.blk .gather else s

/-- R351: the swapped block of a stream to be read next: HPULL ranges first, then ascending. -/
def Stream.nextIn (x : Stream) : Option SwapBlk :=
  let l := x.swap.filter fun b => !b.out && b.stage = .registered
  match x.pulled.findSome? fun k => l.find? (·.blk = k) with
  | some b => some b
  | none => l.foldl (fun best b => match best with | none => some b | some y => if b.blk < y.blk then some b else some y) none

/-- When the HPULL that covers a block arrived. -/
def Stream.pullOf (x : Stream) (b : Nat) : Option Nat := (x.pulls.find? fun p => p.code.isNone && p.covers b).map (·.arr)

/-- Blocks of a stream that DDIE owns. -/
def Stream.atD (x : Stream) : Nat := x.own.countP (· = BitVec.ofNat 8 x.ddie)

/-- R351: whether stream `x` with its block goes before stream `y` with its own. -/
def swapBefore (x : Stream) (a : SwapBlk) (y : Stream) (b : SwapBlk) : Bool :=
  match x.pullOf a.blk, y.pullOf b.blk with
  | some i, some j => i < j
  | some _, none => true
  | none, some _ => false
  | none, none =>
    let l := x.atD * y.blocks
    let r := y.atD * x.blocks
    if l ≠ r then r < l
    else if x.dw 7 ≠ y.dw 7 then (x.dw 7).ult (y.dw 7)
    else x.n < y.n

/-- R351: the next block the SWE reads, over all streams whose drive takes another command. -/
def State.nextRead (s : State) : Option (Stream × SwapBlk) :=
  (s.pkg.streams.filter fun x => s.mayIssue x && s.nvRoom x.drive).foldl (init := none) fun best x =>
    match x.nextIn with
    | none => best
    | some b =>
      match best with
      | none => some (x, b)
      | some (y, c) => if swapBefore x b y c then some (x, b) else best

/-- R352: the SWE reads the next block: its header when pages are compressed, else its 16 LBAs. -/
def State.readBlockGo (s : State) : State :=
  match s.nextRead with
  | none => s
  | some (x, b) =>
    let s := s.beginSwap x.n b.blk (if x.cmp then .reading else .data)
    let slot := ((s.findStream x.n).bind fun y => (y.swap.find? (·.blk = b.blk)).map (·.slot)).getD 0
    let n := if x.cmp then 1 else 16
    s.nvPush [nvCmd (if x.cmp then .readHdr else .read) x b.blk (x.slot b.blk) n (winPages slot x.cmp n)]

/-- Words of a drive. -/
def State.driveWords (s : State) (drive lba n : Nat) : List Nat :=
  (List.range n).map fun i => (memWord s.mem.mem (driveKey drive lba i)).toNat

/-- Store words on a drive. -/
def MemSt.driveStore (m : MemSt) (drive lba : Nat) (i : Nat) : List Nat → MemSt
  | [] => m
  | v :: r => (m.putNow (driveKey drive lba i) (BitVec.ofNat 64 v) 0xFF false).driveStore drive lba (i + 1) r

/-- R349: C of a slot header; none when it is malformed. -/
def headerC (ws : List Nat) : Option Nat :=
  match ws with
  | [] => none
  | c :: r => if c % 64 = 0 && c ≤ 65536 && r.all (· = 0) then some c else none

/-- R249: expand a stream of units to `blocks` blocks, `fuel` units at most; none when it is malformed or short. -/
def expandPage : Nat → Nat → Blk8 → Option Blk8
  | _, 0, l => if l.isEmpty then some [] else none
  | 0, _ + 1, _ => none
  | fuel + 1, blocks, l =>
    match headerCodes (l.take 8) with
    | none => none
    | some (cs, k) =>
      let lits := blocksOf k ((l.drop 8).take (8 * k))
      if l.length < 8 + 8 * k || blocks < cs.length || lits.any streamLit then none
      else (expandPage fuel (blocks - cs.length) (l.drop (8 + 8 * k))).map fun r => (expand cs lits []).flatten ++ r

/-- R349, R351: the page words of a slot whose header gives C; none when the stream is malformed. -/
def pageOf (c : Nat) (ws : List Nat) : Option (List Nat) :=
  if c = 0 then some ws
  else (expandPage 1024 1024 ((ws.take (c / 8)).map fun v => (v, false))).map fun l => l.map (·.1)

/-- R358: a swap failure is reported. -/
def State.swapReport (s : State) (x : Stream) (b : Nat) : State :=
  s.report (s.mkReport (swe x) x.ctx 0x07 0x1D (BitVec.ofNat 64 x.n) (BitVec.ofNat 64 b))

/-- R353: a block's read fails for good: it stays in the swap store, an HPULL waiting on it gets the code, lost is raised. -/
def State.readFails (s : State) (x : Stream) (b code : Nat) : State :=
  let s := s.updStream x.n fun y => { y.updSwap b fun z => { z with stage := .failed } with
    pulls := y.pulls.map fun p => if p.covers b then p.finish code else p }
  (s.swapReport x b).streamOn x.n (.lost 0x05)

/-- R333, R353: once no SWOUT is outstanding, a pending resume takes effect. -/
def State.resumePending (s : State) (n : Nat) : State :=
  match s.findStream n with
  | none => s
  | some x => if x.state = .parked && x.rsp && !x.swoutOpen then s.putStream x.toResuming else s

/-- R353: a block's write fails for good: it stays with its die and its SWOUT completes with 0x1D. -/
def State.writeFails (s : State) (x : Stream) (b : Nat) : State :=
  let s := s.updPkg fun p => { p with nvme := p.nvme.filter fun y => !(y.stream = x.n && y.blk = b && y.kind ≠ .dealloc) }
  let s := s.updStream x.n fun y => { y.updSwap b fun z => { z with stage := .failed } with
    outs := y.outs.map fun p => if p.covers b then p.finish 0x1D else p }
  (s.swapReport x b).resumePending x.n

/-- R335, R350: the block's last command has completed: the swap store owns it. -/
def State.swappedOut (s : State) (x : Stream) (b : Nat) : State :=
  let s := (s.setOwner x.n b 0x07).updStream x.n fun y =>
    { y with swap := y.swap.filter (·.blk ≠ b) }
  let s := s.updStream x.n fun y => { y with
    outs := y.outs.map fun p => if y.rangeSwapped p.blk0 p.count then p.finish 0 else p }
  match s.findStream x.n with
  | none => s
  | some y => if y.rangeSwapped 0 y.blocks then s.streamOn x.n .sout else s.resumePending x.n

/-- R374, R375: LBAs moved between the window and a drive, class 11. -/
def State.chargeSwap (s : State) (x : Stream) (b : SwapBlk) (lbas : Nat) : State :=
  s.charge (some x.ctx) (tcol (framePlace b.die b.frame b.key)) 11 lbas

/-- R349, R352: a write has completed: its words are on the drive; after the block's last write comes the Flush a volatile cache needs. -/
def State.writeDone (s : State) (x : Stream) (b : SwapBlk) (c : NvCmd) : State :=
  let d := slotData b.words
  let ws := if !x.cmp then b.words.map (·.1) else if c.lba = x.slot b.blk then d.1 :: List.replicate 511 0 else d.2
  let s := (s.updMem fun m => m.driveStore c.drive c.lba 0 ws).chargeSwap x b c.nlb
  if s.pkg.nvme.any fun y => y.stream = x.n && y.blk = b.blk && y.kind = .write then s
  else if s.pkg.volatileDrives.contains x.drive then
    (s.nvPush [nvCmd .flush x b.blk 0 0 []]).updSwap x.n b.blk fun z => { z with stage := .flushing }
  else s.swappedOut x b.blk

/-- R350: frames of a block after a SWIN: where the next PARK finds its data. -/
def Stream.moved (x : Stream) (b : SwapBlk) : Stream :=
  { x with regs := x.regs.map fun r =>
    if r.blk = b.blk then { r with dstDie := b.die, dstFrame := b.frame, dstKey := b.key } else r }

/-- R335, R336, R351: the data of a block are in its frame: DDIE owns it. -/
def State.swappedIn (s : State) (x : Stream) (b : SwapBlk) : State :=
  let s := s.updStream x.n fun y => { y.moved b with swap := y.swap.filter (·.blk ≠ b.blk) }
  (s.setOwner x.n b.blk (BitVec.ofNat 8 x.ddie)).afterCommit x.n b.blk x.wmReached

/-- R351: a block that the SWE reads in, from the issue of its read to its commit. -/
def SwapBlk.coming (b : SwapBlk) : Bool := b.stage = .reading || b.stage = .data || b.stage = .placing || b.stage = .placed

/-- R336, R351: of the blocks under way in some stages, the one begun first. -/
def State.firstSwap (s : State) (ok : SwapBlk → Bool) : Option (Stream × SwapBlk) :=
  (s.pkg.streams.flatMap fun x => (x.swap.filter ok).map fun b => (x, b)).foldl (init := none) fun best y =>
    match best with
    | none => some y
    | some z => if y.2.seq < z.2.seq then some y else some z

/-- R336, R351: blocks commit one at a time in the order in which their reads were issued, at most `n` of them (log 59). -/
def State.commitIns (s : State) : Nat → State
  | 0 => s
  | n + 1 =>
    match s.firstSwap SwapBlk.coming with
    | none => s
    | some (x, b) => if b.stage = .placed then (s.swappedIn x b).commitIns n else s

/-- R263, R374, R375: one word of a block goes between its frame and the window; with each eighth, 64 bytes of the store and their way to the
H-die or from it are charged. -/
def State.sweWord (s : State) (x : Stream) (b : SwapBlk) : State :=
  let p := (framePlace b.die b.frame b.key).plus (8 * b.at_)
  let pay := fun (t : State) => if b.at_ % 8 = 7 then t.chargeUnit (swe x) p else t
  if b.out then
    let r := s.readW (swe x) p (locAddr 2 p.addr)
    (pay r.1).updSwap x.n b.blk fun z => { z with buf := z.buf ++ [r.2], at_ := z.at_ + 1 }
  else
    (pay (s.devPut p (b.buf.getD b.at_ ⟨0, false⟩).v false)).updSwap x.n b.blk fun z => { z with at_ := z.at_ + 1 }

/-- R263, R350, R351: one move of the SWE on the block it began first among those whose page it moves: a word, or what follows the last. -/
def State.sweMove (s : State) : State :=
  match s.firstSwap fun b => b.stage = .gather || b.stage = .placing with
  | none => s
  | some (x, b) =>
    if b.at_ < 8192 then s.sweWord x b
    else if b.out then (s.issueWrites x b).updSwap x.n b.blk fun z => { z with stage := .writing }
    else (s.updSwap x.n b.blk fun z => { z with stage := .placed }).commitIns 4096

/-- R349, R351: a read has completed: a header leads to its data run, data to its way into the frame. -/
def State.readDone (s : State) (x : Stream) (b : SwapBlk) (c : NvCmd) : State :=
  let s := s.chargeSwap x b c.nlb
  match c.kind with
  | .readHdr =>
    match headerC (s.driveWords c.drive c.lba 512) with
    | none => s.readFails x b.blk 0x1E
    | some z =>
      (s.nvPush [nvCmd .read x b.blk (c.lba + 1) (dataLbas z) (winPages b.slot false (dataLbas z))]).updSwap x.n b.blk fun w =>
        { w with stage := .data, buf := [⟨BitVec.ofNat 64 z, false⟩] }
  | _ =>
    let z := if x.cmp then (b.buf.getD 0 ⟨0, false⟩).v.toNat else 0
    match pageOf z (s.driveWords c.drive c.lba (512 * c.nlb)) with
    | none => s.readFails x b.blk 0x1E
    | some ws => s.updSwap x.n b.blk fun w => { w with stage := .placing, at_ := 0, buf := ws.map fun v => ⟨BitVec.ofNat 64 v, false⟩ }

/-- R352: an NVMe command has completed with zero status. -/
def State.nvOk (s : State) (c : NvCmd) : State :=
  match s.findStream c.stream with
  | none => s
  | some x =>
    match x.swap.find? (·.blk = c.blk) with
    | none => s
    | some b =>
      match c.kind with
      | .write => s.writeDone x b c
      | .flush => s.swappedOut x b.blk
      | .read | .readHdr => s.readDone x b c
      | .dealloc => s

/-- R353: an NVMe command has failed: it is retried once. -/
def State.nvFail (s : State) (c : NvCmd) : State :=
  if c.tries = 0 then s.nvPush [{ c with tries := 1, sub := false }]
  else
    match s.findStream c.stream with
    | none => s
    | some x =>
      match c.kind with
      | .dealloc => s.swapReport x c.blk
      | .write | .flush => s.writeFails x c.blk
      | .read | .readHdr => s.readFails x c.blk 0x1D

/-- An NVMe command leaves the list with its result; its completion entry is consumed, and another command may be submitted. -/
def State.nvEnd (s : State) (k : Nat) (ok : Bool) : State :=
  match s.pkg.nvme[k]? with
  | none => s
  | some c =>
    if !c.sub then s
    else
      let s := s.updPkg fun p => { p with
        nvme := dropAt p.nvme k
        nvqs := p.nvqs.map fun q => if q.drive = c.drive then { q with cqHead := (q.cqHead + 1) % q.depth } else q }
      let s := ((if ok then s.nvOk c else s.nvFail c).commitIns 4096).swoutGo
      s.nvSubmit s.pkg.nvme.length

end Sys2Proof.Machine
end

