-- ==== Sys2Proof/Machine/Ports.lean ====
section
/-! DEFINITION. Commands of ports ho and hub: HOFF, HPULL, HCANCEL (R343 to R347, R386), SWOUT, SWIN (R348), RCOPY (R385). -/

namespace Sys2Proof.Machine

/-! ## The steps of a port command (R91, R150, R200, R343) -/

/-- A port of the cell. -/
def Cell.port (c : Cell) (hub : Bool) : PortSt := if hub then c.hub else c.ho
def Cell.setPort (c : Cell) (hub : Bool) (p : PortSt) : Cell := if hub then { c with hub := p } else { c with ho := p }
def State.updPort (s : State) (hub : Bool) (f : PortSt → PortSt) : State := s.updFocus fun c => c.setPort hub (f (c.port hub))

/-- R358: the agent code of the ports. -/
def portAgent : Nat := 6

/-- R385: an RCOPY that rotates a side that is not scratch is rejected. -/
def State.rotRejects (s : State) (i : Instr) : Bool :=
  match i with
  | .rcopy _ p => p.sacc.rot ≠ 0 && (segAt s.cell.segs (segNo p.src)).any fun e => e.kind ≠ kScratch
  | _ => false

/-- R91, R385: what a port decodes from the words of a command; none where the command is rejected. -/
def State.portDecode (s : State) (hub : Bool) (h : Word32) (r : List Word32) : Option Instr :=
  match decodeCmd (if hub then .hub else .ho) h (r.take (hdrLen h)) with
  | .error _ => none
  | .ok i => if s.rotRejects i then none else some i

/-- R117, R150: a word of the command at the head of a port has not reached it: a check before its ENQ is unfinished. -/
def State.portHeld (s : State) (p : PortSt) (n : Nat) : Bool := (List.range (1 + n)).any fun i => s.cell.wordHeld p.marks (p.pos + i)

/-- R91, R150: decode the command at the head of a port once it is whole: its credits return. A rejected command completes after
every command before it. -/
def State.portTake (s : State) (hub : Bool) : State :=
  let p := s.cell.port hub
  match p.buf with
  | [] => s
  | h :: r =>
    let n := hdrLen h
    if r.length < n || s.portHeld p n then s
    else
      let taken := fun (p : PortSt) => { p with
        buf := r.drop n, pos := (p.pos + 1 + n) % 2 ^ 32, credits := p.credits + 1 + n, marks := marksAfter p.marks p.pos (1 + n) }
      match s.portDecode hub h r with
      | none =>
        if !p.cmds.isEmpty then s
        else if !p.told then (s.errReport portAgent p.pos 1 0).updPort hub fun q => { q with told := true }
        else (s.updPort hub fun q => { taken q with told := false }).completeWith (hdrSig h) 1
      | some i =>
        s.updPort hub fun q => { taken q with cmds := q.cmds ++ [Cmd.start i p.pos (markAt p.marks p.pos)] }

/-- An entry of a list of outstanding commands, by who waits. -/
def findPull (l : List Pull) (c : CellId) (pos : Nat) : Option Pull := l.find? fun p => p.cell = c && p.pos = pos

/-- R346, R347, R350: the code with which an outstanding command completes; none while it cannot. -/
def State.outcome (s : State) (c : Cmd) : Option Nat :=
  match c.i with
  | .hpull _ p =>
    match s.findStream p.stream.toNat with
    | none => some 0x1A
    | some x => match findPull x.pulls s.cell.id c.pos with | some q => q.code | none => some 0x1A
  | .hcancel _ p =>
    match s.findStream p.stream.toNat with
    | none => some 0
    | some x => if x.ending then none else some 0
  | .swout _ p =>
    match (s.direntNo p.dirent).bind s.findStream with
    | none => some 0x1A
    | some x => match findPull x.outs s.cell.id c.pos with | some q => q.code | none => some 0x1A
  | _ => some 0

/-- Whether a command has been executed and only its outcome is awaited. -/
def Cmd.outstanding (c : Cmd) : Bool :=
  match c.i with
  | .rcopy _ _ => false
  | _ => c.phase = .run && c.group = 1

/-- R343: whether command `n` of a port can move: outstanding ones once their outcome is known, and the release and signal of the
oldest only. -/
def State.portMoves (s : State) (c : Cmd) (n : Nat) : Bool :=
  match c.phase with
  | .release _ _ => n = 0
  | _ => !c.outstanding || (s.outcome c).isSome

/-- The command of a port that moves next: the oldest one that can; none passes one that has not yet been executed. -/
def State.portPick (s : State) : List Cmd → Nat → Option Nat
  | [], _ => none
  | c :: r, n => if s.portMoves c n then some n else s.portPick r (n + 1)

/-- Replace command `n` of a port. -/
def State.setPortCmd (s : State) (hub : Bool) (n : Nat) (c : Cmd) : State :=
  s.updPort hub fun p => { p with cmds := updAt p.cmds n fun _ => c }

/-- R385. -/
def isRcopy : Instr → Bool
  | .rcopy _ _ => true
  | _ => false

/-- Step 5 of R200; the completion of an RCOPY is a release at system scope whatever its header has (R271). -/
def State.portEnd (s : State) (hub : Bool) (n : Nat) (c : Cmd) (h : Hdr) (code done : Nat) : State :=
  s.setPortCmd hub n { c with phase := .release code done, xl := [], due := none, ids := if h.rel || isRcopy c.i then s.mem.visibleIds s.cell.id else [] }

/-- R334, R346: an outstanding command leaves its stream's list when it completes. -/
def State.dropPull (s : State) (c : Cmd) : State :=
  let out := fun (p : Pull) => !(p.cell = s.cell.id && p.pos = c.pos)
  match c.i with
  | .hpull _ p => s.updStream p.stream.toNat fun x => { x with pulls := x.pulls.filter out }
  | .swout _ p =>
    match s.direntNo p.dirent with
    | some n => s.updStream n fun x => { x with outs := x.outs.filter out }
    | none => s
  | _ => s

/-- Step 6 of R200: an error is reported first (R359), then the command completes. -/
def State.portDone (s : State) (hub : Bool) (n : Nat) (c : Cmd) (h : Hdr) (code done : Nat) : State :=
  if code ≠ 0 && !(s.cell.port hub).told then
    (s.errReport portAgent c.pos code done).updPort hub fun p => { p with told := true }
  else ((s.dropPull c).updPort hub fun p => { p with cmds := dropAt p.cmds n, told := false }).completeWith h.sig code

/-- R200, R343: one move of a port on its command `i`; `run` is one move of step 4. -/
def State.runPort (s : State) (hub : Bool) (i : Instr) (h : Hdr) (run : State → Nat → Cmd → State) : State :=
  let p := s.cell.port hub
  match s.portPick p.cmds 0 with
  | none => s
  | some n =>
    match p.cmds[n]? with
    | none => s
    | some c =>
      if c.i ≠ i then s
      else
        match c.phase with
        | .wait =>
          match s.sem h.wait with
          | none => s.setPortCmd hub n { c with phase := .acquire, since := s.pkg.time.t3 }
          | some (.err x) => s.setPortCmd hub n { c with phase := .release x.toNat 0 }
          | some (.count k) =>
            if k = 0 then s else (s.setSem h.wait (.count (k - 1))).setPortCmd hub n { c with phase := .acquire, since := s.pkg.time.t3 }
        | .acquire =>
          if h.acq && s.acquireOpen c.acqSeq (scopeReach h.scope) then s else s.setPortCmd hub n { c with phase := .run }
        | .run =>
          if c.outstanding then
            match s.outcome c with
            | none => s
            | some code => s.portEnd hub n c h code 0
          else run s n c
        | .release code done =>
          if c.ids.all fun d => s.mem.reached d (if isRcopy c.i then 4 else scopeReach h.scope) then s.portDone hub n c h code done else s

/-- Mark command `n` as executed: its outcome is awaited. -/
def State.portWait (s : State) (hub : Bool) (n : Nat) (c : Cmd) : State := s.setPortCmd hub n { c with group := 1 }

/-! ## Operands of the ports -/

/-- Translation on behalf of a port's unit, which has no TLB. -/
def State.portCx (s : State) : Cx :=
  { who := s.cell.who portAgent, root := (s.ctx (ctxOf s.cell.as.sys.ctxid)).root, key := keyOf s.cell.as.sys.ctxid, tlb := none, rd := false, cmp := false, len := 8 }

/-- R344, R348: translate one page of a tensor operand: 0x03 when the entry, the range or the walk fails. -/
def State.portPage (s : State) (seg off : Nat) (wr : Bool) : State × Option Xl :=
  match segAt s.cell.segs seg with
  | none => (s, none)
  | some e =>
    if !inRange s.cell.id.die e off 65536 then (s, none)
    else
      match s.xlate { s.portCx with len := 65536 } seg e off wr with
      | (s, .error _) => (s, none)
      | (s, .ok x) => if x.cmp then (s, none) else (s, some x)

/-- Translate `n` pages from an address on; none when one fails. -/
def State.portPages (s : State) (seg off : Nat) (wr : Bool) : Nat → State × Option (List Xl)
  | 0 => (s, some [])
  | n + 1 =>
    match s.portPage seg off wr with
    | (s, none) => (s, none)
    | (s, some x) =>
      match s.portPages seg (off + 65536) wr n with
      | (s, none) => (s, none)
      | (s, some l) => (s, some (x :: l))

/-- Whether the segment of an address is of the tensor kind. -/
def State.isTensor (s : State) (a : Word) : Bool :=
  match segAt s.cell.segs (segNo a) with
  | some e => e.kind = kTensor
  | none => false

/-- R343: the checks of the stream a command names: 0x19. -/
def State.streamMine (s : State) (n : Nat) : Bool := s.cell.asCtx = some (s.streamCtx n)

/-! ## HOFF (R344, R386) -/

/-- R344: a block already registered. -/
def Stream.registered (x : Stream) (blk0 count : Nat) : Bool := x.regs.any fun r => blk0 ≤ r.blk && r.blk < blk0 + count

/-- R344: the state accepts HOFF. -/
def Stream.takesHoff (x : Stream) : Bool := x.state = .prefill || x.state = .handoff || (x.state = .decode && !x.ackr)

/-- Registrations of a range from the translations of its pages. -/
def hoffRegs (p : PHoff) (src : List Xl) (dst : List Xl) : List HReg :=
  src.zipIdx.map fun x =>
    let d := (dst[x.2]?).map (·.place)
    { blk := p.blk0.toNat + x.2, srcDie := x.1.place.die, srcFrame := x.1.place.addr / 65536, srcKey := x.1.place.key
      dstDie := (d.map (·.die)).getD 0, dstFrame := (d.map (·.addr / 65536)).getD 0, dstKey := (d.map (·.key)).getD 0
      conv := p.conv, nh := p.nh.toNat + 1, tpb := p.tpb.toNat + 1, hb := p.hb.toNat + 1
      modno := p.modno.toNat, win := segNo p.dst, off := segOff p.dst + 65536 * x.2 }

/-- R344 checks 4 to 6, and the registrations. The destination of another module is that module's to check (R386, log 39). -/
def State.hoffPages (s : State) (p : PHoff) (x : Stream) : State × Nat × List HReg :=
  let n := p.count1.toNat + 1
  match s.portPages (segNo p.src) (segOff p.src) false n with
  | (s, none) => (s, 3, [])
  | (s, some src) =>
    let r := if p.modno = 0 then s.portPages (segNo p.dst) (segOff p.dst) true n else (s, some [])
    match r with
    | (s, none) => (s, 3, [])
    | (s, some dst) =>
      let kinds := s.isTensor p.src && (p.modno ≠ 0 || s.isTensor p.dst)
      if !kinds || !src.all (fun y => y.place.die = x.pdie) || !dst.all (fun y => y.place.die = x.ddie) then (s, 0x1C, [])
      else if !src.all (·.r) || !dst.all (·.w) then (s, 7, [])
      else (s, 0, hoffRegs p src dst)

/-- R344: the checks in order; a registered range signals. -/
def State.hoffRun (s : State) (h : Hdr) (p : PHoff) (n : Nat) (c : Cmd) : State :=
  let k := p.stream.toNat
  if !s.streamMine k then s.portEnd false n c h 0x19 0
  else
    match s.findStream k with
    | none => s.portEnd false n c h 0x1A 0
    | some x =>
      if !x.takesHoff then s.portEnd false n c h 0x1A 0
      else if x.blocks ≤ p.blk0.toNat + p.count1.toNat || x.registered p.blk0.toNat (p.count1.toNat + 1) then
        s.portEnd false n c h 0x1C 0
      else
        match s.hoffPages p x with
        | (s, 0, l) => (s.updStream k fun y => { y with regs := y.regs ++ l }).portEnd false n c h 0 0
        | (s, code, _) => s.portEnd false n c h code 0

/-- R344. -/
def execHoff (h : Hdr) (p : PHoff) (s : State) : Res :=
  .next (s.runPort false (.hoff h p) h fun s n c => s.hoffRun h p n c)

/-! ## HPULL and HCANCEL (R346, R347) -/

/-- R340, R346: the range joins the outstanding HPULLs, its 2 ms counted from the cycle the command passed its wait; it is done at once when
every block is at DDIE. -/
def State.addPull (s : State) (n blk0 count : Nat) (c : Cmd) : State :=
  let q : Pull := ⟨blk0, count, c.since, s.pkg.nextOrder, s.cell.id, c.pos, none⟩
  (s.updStream n fun x => { x with pulls := x.pulls ++ [if x.rangeAtD blk0 count then q.finish 0 else q] }).updPkg fun k =>
    { k with nextOrder := k.nextOrder + 1 }

/-- R346: the checks in order, then the wait for the range. -/
def State.hpullRun (s : State) (h : Hdr) (p : PHpull) (n : Nat) (c : Cmd) : State :=
  let k := p.stream.toNat
  if !s.streamMine k then s.portEnd false n c h 0x19 0
  else
    match s.findStream k with
    | none => s.portEnd false n c h 0x1A 0
    | some x =>
      if x.state ≠ .handoff && x.state ≠ .decode && x.state ≠ .resuming then s.portEnd false n c h 0x1A 0
      else if x.blocks ≤ p.blk0.toNat + p.count1.toNat then s.portEnd false n c h 0x1C 0
      else (s.addPull k p.blk0.toNat (p.count1.toNat + 1) c).portWait false n c

/-- R346. -/
def execHpull (h : Hdr) (p : PHpull) (s : State) : Res :=
  .next (s.runPort false (.hpull h p) h fun s n c => s.hpullRun h p n c)

/-- R341, R347: HCANCEL raises cancel with cause 0x80 and its own seven bits. -/
def State.hcancelRun (s : State) (h : Hdr) (p : PHcancel) (n : Nat) (c : Cmd) : State :=
  if !s.streamMine p.stream.toNat then s.portEnd false n c h 0x19 0
  else (s.streamOn p.stream.toNat (.cancel (0x80 + p.cause.toNat))).portWait false n c

/-- R347. -/
def execHcancel (h : Hdr) (p : PHcancel) (s : State) : Res :=
  .next (s.runPort false (.hcancel h p) h fun s n c => s.hcancelRun h p n c)

/-! ## SWOUT and SWIN (R348, R350, R351) -/

/-- R348: owners of a range: for SWOUT the die each page lies on, for SWIN the swap store. -/
def Stream.ownersOk (x : Stream) (out : Bool) (blk0 : Nat) (l : List Xl) : Bool :=
  l.zipIdx.all fun y => x.own[blk0 + y.2]? = some (if out then BitVec.ofNat 8 y.1.place.die else 0x07)

/-- R348 checks 5 to 7, and the pages. -/
def State.swapPages (s : State) (p : PSwap) (out : Bool) (x : Stream) : State × Nat × List Xl :=
  match s.portPages (segNo p.addr) (segOff p.addr) (!out) (p.count1.toNat + 1) with
  | (s, none) => (s, 3, [])
  | (s, some l) =>
    if !s.isTensor p.addr || !x.ownersOk out p.blk0.toNat l then (s, 0x1C, [])
    else if !l.all (fun y => if out then y.r else y.w) then (s, 7, [])
    else (s, 0, l)

/-- R348: the checks in order, and the stream's number. -/
def State.swapCheck (s : State) (p : PSwap) (out : Bool) : State × Nat × Nat × List Xl :=
  match s.direntNo p.dirent with
  | none => (s, 0x19, 0, [])
  | some k =>
    if !s.streamMine k then (s, 0x19, k, [])
    else
      match s.findStream k with
      | none => (s, 0x1A, k, [])
      | some x =>
        if x.state ≠ (if out then .parked else .resuming) then (s, 0x1A, k, [])
        else if x.blocks ≤ p.blk0.toNat + p.count1.toNat then (s, 0x1C, k, [])
        else if p.lba ≠ x.dw 2 || p.cmp ≠ x.cmp || p.drive.toNat ≠ x.drive then (s, 0x1E, k, [])
        else
          match s.swapPages p out x with
          | (s, code, l) => (s, code, k, l)

/-- Swap entries of a range: a block whose transfer has begun keeps its entry. -/
def Stream.addSwap (x : Stream) (out : Bool) (blk0 : Nat) (l : List Xl) : Stream :=
  let begun := fun (b : Nat) => x.swap.any fun y => y.blk = b && y.stage ≠ .registered && y.stage ≠ .failed
  let new : List SwapBlk := l.zipIdx.filterMap fun y =>
    if begun (blk0 + y.2) then none else some (SwapBlk.start out (blk0 + y.2) y.1.place.die (y.1.place.addr / 65536) y.1.place.key)
  { x with swap := x.swap.filter (fun y => begun y.blk || !new.any (·.blk = y.blk)) ++ new }

/-- R350: SWOUT registers its blocks and waits until the swap store owns each. -/
def State.swoutRun (s : State) (h : Hdr) (p : PSwap) (n : Nat) (c : Cmd) : State :=
  match s.swapCheck p true with
  | (s, 0, k, l) =>
    let q : Pull := ⟨p.blk0.toNat, p.count1.toNat + 1, s.pkg.time.t3, 0, s.cell.id, c.pos, none⟩
    ((s.updStream k fun x => { x.addSwap true p.blk0.toNat l with outs := x.outs ++ [q] }).swoutGo).portWait true n c
  | (s, code, _, _) => s.portEnd true n c h code 0

/-- R350. -/
def execSwout (h : Hdr) (p : PSwap) (s : State) : Res :=
  .next (s.runPort true (.swout h p) h fun s n c => s.swoutRun h p n c)

/-- R351: SWIN registers its blocks and signals at once. -/
def State.swinRun (s : State) (h : Hdr) (p : PSwap) (n : Nat) (c : Cmd) : State :=
  match s.swapCheck p false with
  | (s, 0, k, l) => (s.updStream k fun x => x.addSwap false p.blk0.toNat l).portEnd true n c h 0 0
  | (s, code, _, _) => s.portEnd true n c h code 0

/-- R351. -/
def execSwin (h : Hdr) (p : PSwap) (s : State) : Res :=
  .next (s.runPort true (.swin h p) h fun s n c => s.swinRun h p n c)

/-! ## RCOPY (R385) -/

/-- R385: whether a module can be reached: it is not recorded unreachable, and a port that is up leads to it. With every port up each module
is reached, and with none no module; which ones the others lead to is not given (log 40). -/
def State.reachable (s : State) (m : BitVec 16) : Bool :=
  let up := s.pkg.portsUp
  !s.pkg.unreachable.contains m && (up.all id || (up.any id && Config.routed up m.toNat))

/-- R234, R385: the checks of the source side before the first unit. -/
def State.rcopyStatic (s : State) (p : PRcopy) : Nat :=
  lowCode (s.operand ⟨p.src, p.sacc.rot.toNat⟩ kSLT [p.sacc.pitch.toNat, p.ext.bytes.toNat])
    (if p.dacc.pitch.toNat % 8 = 0 && p.doff.toNat % 8 = 0 then 0 else 0x13)

/-- R235: the word at an offset of the source, translated for the port: whether it may be read, and the leaf the unit keeps; none when the
entry, the range or the walk fails. -/
def State.portRead (s : State) (seg off : Nat) : State × Option (Bool × List TlbEnt) :=
  match segAt s.cell.segs seg with
  | none => (s, none)
  | some e =>
    if !inRange s.cell.id.die e off 8 then (s, none)
    else if e.pageable then
      match s.walk s.portCx seg e off false with
      | (s, .error _) => (s, none)
      | (s, .ok lf) =>
        let x := leafXl e off lf
        (s, if x.cmp || !s.mem.lineFree x.place then none else some (x.r, [⟨seg, (e.base + off) / 65536, lf⟩]))
    else
      match s.xlate s.portCx seg e off false with
      | (s, .error _) => (s, none)
      | (s, .ok x) => (s, if x.cmp then none else some (x.r, []))

/-- R235: the lowest code over the listed word offsets of a unit, and its translations. -/
def State.rcopyCheck (s : State) (seg : Nat) (code : Nat) (xl : List TlbEnt) : List Nat → State × Nat × List TlbEnt
  | [] => (s, code, xl)
  | o :: r =>
    match s.portRead seg o with
    | (s, none) => s.rcopyCheck seg (lowCode code 3) xl r
    | (s, some (ok, l)) => s.rcopyCheck seg (lowCode code (if ok then 0 else 7)) (xl ++ l.filter fun e => !xl.contains e) r

/-- R263, R385: word `k` of unit `u` leaves for the window. -/
def State.rcopyWord (s : State) (p : PRcopy) (u k : Nat) (xl : List TlbEnt) : State × Bool :=
  let o := segOff p.src + u * p.sacc.pitch.toNat + 8 * k
  let q := s.engWord (segNo p.src) o p.sacc.rot.toNat xl
  let w := s.cell.who portAgent
  let v := (s.lineIn w q (mkAddr (segNo p.src) o)).readW w q (mkAddr (segNo p.src) o)
  let s := v.1.chargeRun w q o (8 * (k + 1) = p.ext.bytes.toNat)
  ((w.ctx.elim s fun c => s.chargeFabric c w.cell true).updPkg fun g => { g with
    outbox := g.outbox ++ [⟨p.modno.toNat, p.win.toNat, p.doff.toNat + u * p.dacc.pitch.toNat + 8 * k, v.2.v, v.2.psn⟩] }, v.2.psn)

/-- R385: what the remote end finds for a unit: nothing, 0x20, 0x03 or 0x07; that module is not in this model, so the answer is
free (log 40). -/
def State.remoteAnswer (s : State) : State × Nat := ({ s with free := s.free + 1 }, [0, 0x20, 3, 7].getD (Config.freeNat s.free % 4) 0)

/-- R385: one move of RCOPY: the checks of a unit, or one word of it. -/
def State.rcopyRun (s : State) (h : Hdr) (p : PRcopy) (n : Nat) (c : Cmd) : State :=
  if c.group = 0 then
    let st := if c.unit = 0 then s.rcopyStatic p else 0
    if st ≠ 0 then s.portEnd true n c h st 0
    else if !s.reachable p.modno then s.portEnd true n c h 0x1F c.unit
    else
      let r := s.remoteAnswer
      if r.2 = 0x20 then r.1.portEnd true n c h 0x20 c.unit
      else
        let offs := (List.range (p.ext.bytes.toNat / 8)).map fun k => segOff p.src + c.unit * p.sacc.pitch.toNat + 8 * k
        match r.1.rcopyCheck (segNo p.src) r.2 [] offs with
        | (s, 0, xl) => s.setPortCmd true n { c with group := 1, xl := xl }
        | (s, code, _) => s.portEnd true n c h code c.unit
  else if !s.reachable p.modno then s.portEnd true n c h 0x1F c.unit
  else if c.group - 1 < p.ext.bytes.toNat / 8 then
    let r := s.rcopyWord p c.unit (c.group - 1) c.xl
    r.1.setPortCmd true n { c with group := c.group + 1, poisoned := c.poisoned || r.2 }
  else if c.unit < p.ext.rows1.toNat then s.setPortCmd true n { c with unit := c.unit + 1, group := 0, xl := [], due := none }
  else s.portEnd true n c h (if c.poisoned then 5 else 0) (p.ext.rows1.toNat + 1)

/-- R385. -/
def execRcopy (h : Hdr) (p : PRcopy) (s : State) : Res :=
  .next (s.runPort true (.rcopy h p) h fun s n c => s.rcopyRun h p n c)

end Sys2Proof.Machine
end

