-- ==== Sys2Proof/Machine/LaunchCheck.lean ====
section
/-! DEFINITION. The checks of a launch (R196, R275, R305 to R307, R407). -/

namespace Sys2Proof.Machine

/-- R305: segment entries of the header. -/
def hdrSegs (h : HdrWords) : List SegEnt :=
  (List.range (fld (hdrAt h 0x10) 31 26 + 1)).map fun k =>
    let o := 0x100 + 32 * k
    ⟨hdrAt h o, hdrAt h (o + 8), hdrAt h (o + 16), hdrAt h (o + 24)⟩

def hdrWidths (h : HdrWords) : BitVec 42 := (hdrAt h 8).extractLsb' 0 42

/-! ## Segment entries (R196, R275) -/

/-- R273, R274: fields that must be zero for the entry's kind and pageability. -/
def SegEnt.zerosOk (e : SegEnt) : Bool :=
  !e.d0.getLsbD 32
    && (e.die = 0 || (!e.pageable && (e.loc = 1 || e.loc = 2)))
    && (e.engine = 0 || e.kind = kRing) && (e.fmt = 0 || e.kind = kTensor) && (e.handle = 0 || e.kind = kTensor)
    && (e.d3 = 0 || e.pageable)

/-- R275: the row of the entry's kind, other than the ring conditions that R307 reports apart. -/
def SegEnt.kindOk (e : SegEnt) : Bool :=
  let plain := !e.pageable && e.loc = 0 && e.cpol = 0 && !e.cmp && e.keyid = 0 && !e.ckey
  match e.kind with
  | 0 => e.loc = 1 || e.loc = 3 || e.loc = 4
  | 1 => e.loc = 2 && e.fmt ≤ 2 && !e.permX && e.base % 64 = 0
  | 2 => plain && e.permR && e.permW && !e.permX
  | 3 => plain && e.base % 8 = 0 && e.d2.toNat % 8 = 0 && !e.permX
  | _ => false

/-- R275: range and root. -/
def State.segRangeOk (s : State) (e : SegEnt) : Bool :=
  if e.pageable then
    e.base % 65536 = 0 && e.base + e.size ≤ 2 ^ 56 && (e.d3 = 0 || pteOk e.d3)
  else if e.loc = 1 || e.loc = 2 then e.die ≤ 5 && e.base + e.size ≤ 65536 * s.mappable e.loc e.die
  else true

/-- R275: a VALID entry of a launch (log 41: a reserved CPOL). -/
def State.segOk (s : State) (e : SegEnt) : Bool :=
  !e.valid || (e.zerosOk && e.kindOk && s.segRangeOk e && e.cpol ≠ 3 && !(e.ckey && e.keyid ≠ 0))

/-- R196, R275: LIMIT and BASE of a ring. -/
def SegEnt.ringOk (e : SegEnt) : Bool :=
  [1024, 2048, 4096, 8192, 16384, 32768, 65536].contains e.d2.toNat && e.base % e.d2.toNat = 0

/-- The ring entries of a launch. -/
def ringsOf (l : List SegEnt) : List SegEnt := l.filter fun e => e.valid && e.kind = kRing

/-- R196, R275: rings, one for each engine at most. -/
def ringsOk (l : List SegEnt) : Bool := (ringsOf l).all SegEnt.ringOk && ((ringsOf l).map (·.engine)).Nodup

/-! ## What the PRS reads through the launch's segments (R407) -/

/-- R407: the PRS as an agent of the launch's context. -/
def State.prsCx (s : State) (c : Nat) : Cx :=
  ⟨⟨pkgAgent, 7, some c, (s.ctx c).part.toNat⟩, (s.ctx c).root, (s.ctx c).keyid.toNat, none, false, false, 8⟩

/-- One word at a multiple of 8 in an entry; none when the walk or the binding fails, or the page is compressed (R299). -/
def State.prsWord (s : State) (c seg : Nat) (e : SegEnt) (off : Nat) : State × Option TW :=
  match s.xlate (s.prsCx c) seg e off false with
  | (s, .error _) => (s, none)
  | (s, .ok x) =>
    if !x.r || x.cmp then (s, none)
    else
      let r := s.readW (s.prsCx c).who x.place (mkAddr seg off)
      (r.1, some r.2)

/-- `n` words from an offset on. -/
def State.prsWords (s : State) (c seg : Nat) (e : SegEnt) (off : Nat) : Nat → State × Option HdrWords
  | 0 => (s, some [])
  | n + 1 =>
    match s.prsWord c seg e off with
    | (s, none) => (s, none)
    | (s, some w) =>
      match s.prsWords c seg e (off + 8) n with
      | (s, none) => (s, none)
      | (s, some l) => (s, some (w :: l))

/-- R407: `n` bytes at a segment address, as the 8-byte words that hold them; none when they cannot be read. -/
def State.prsRead (s : State) (c : Nat) (segs : List SegEnt) (a : Word) (n : Nat) : State × Option HdrWords :=
  if n = 0 then (s, some [])
  else
    match segAt segs (segNo a) with
    | none => (s, none)
    | some e =>
      let off := segOff a
      if e.kind ≠ kLinear || !e.permR || e.size < off + n then (s, none)
      else s.prsWords c (segNo a) e (off / 8 * 8) ((off % 8 + n + 7) / 8)

/-- Word `i` of 32 bits in words read from address `a`. -/
def word32Of (a : Word) (ws : HdrWords) (i : Nat) : Word32 :=
  let k := segOff a % 8 / 4 + i
  (((ws.getD (k / 2) ⟨0, false⟩).v) >>> (32 * (k % 2))).extractLsb' 0 32

/-! ## The statuses of R307 -/

/-- Inside a code section and 4-byte aligned. -/
def inSec (base : Word) (size : Nat) (a : Word) : Bool := inSection base size a

/-- 0x01. -/
def hdrBad1 (a : Word) (h : HdrWords) : Bool :=
  a.toNat % 64 ≠ 0 || fld (hdrAt h 0) 63 32 ≠ 0x4C4E5248 || fld (hdrAt h 0) 31 16 ≠ 1
    || fld (hdrAt h 0) 15 0 ≠ 4 + (fld (hdrAt h 0x10) 31 26 + 2) / 2

/-- 0x02. -/
def hdrBad2 (h : HdrWords) : Bool :=
  64 < ((List.range 6).map fun k => widthOf (hdrWidths h) (k + 1)).sum || !zeroBits (hdrAt h 8) 63 42

/-- 0x08: a code section. -/
def secBad (segs : List SegEnt) (base size : Word) : Bool :=
  match segAt segs (segNo base) with
  | none => true
  | some e =>
    e.kind ≠ kLinear || !e.permX || base.toNat % 4 ≠ 0 || size.toNat % 4 ≠ 0 || size.toNat < 4
      || e.size < segOff base + size.toNat

/-- 0x09. -/
def hdrBad9 (h : HdrWords) : Bool :=
  let w := hdrAt h 0x10
  fld w 6 4 = 7 || !zeroBits w 63 32 || !zeroBits w 25 24 || !zeroBits w 19 16 || !zeroBits w 7 7 || !zeroBits w 3 2
    || !zeroBits (hdrAt h 0x50) 63 16 || !zeroBits (hdrAt h 0x58) 31 0
    || (List.range 4).any (fun e => !zeroBits (hdrAt h (0x68 + 16 * e)) 63 16)
    || (List.range 8).any (fun i => hdrAt h (0xC0 + 8 * i) ≠ 0)

/-- 0x0B: KSAVE names a save area (R41). -/
def ksaveOk (segs : List SegEnt) (a : Word) : Bool :=
  a = 0 || match segAt segs (segNo a) with
    | none => false
    | some e => e.kernelLinear && segOff a % 256 = 0 && segOff a + Config.saveBytes ≤ e.size

/-- 0x0B. -/
def hdrBadB (h : HdrWords) (segs : List SegEnt) : Bool :=
  let as := inSec (hdrAt h 0x18) (hdrAt h 0x20).toNat
  (fld (hdrAt h 0x10) 15 8 = 0 && !as (hdrAt h 0x38))
    || (hdrAt h 0xA8 ≠ 0 && !inSec (hdrAt h 0x28) (hdrAt h 0x30).toNat (hdrAt h 0xA8))
    || (hdrAt h 0xB0 ≠ 0 && !as (hdrAt h 0xB0)) || !ksaveOk segs (hdrAt h 0xB8)

/-- R306: the operators of a table, as read. -/
def operOf (ws : HdrWords) (k : Nat) : Oper :=
  let d1 := (ws.getD (2 * k + 1) ⟨0, false⟩).v
  ⟨(ws.getD (2 * k) ⟨0, false⟩).v, d1.getLsbD 63, fld d1 31 0⟩

/-- 0x06: one entry of the table. -/
def operBad (h : HdrWords) (slice : Nat) (ws : HdrWords) (k : Nat) : Bool :=
  let o := operOf ws k
  !inSec (hdrAt h 0x18) (hdrAt h 0x20).toNat o.code || o.dbound = 0 || slice < o.dbound
    || !zeroBits (ws.getD (2 * k + 1) ⟨0, false⟩).v 62 32

/-- R305, R306: the operators of a launch; the implicit one when the table is empty. -/
def hdrOps (h : HdrWords) (slice : Nat) (ws : HdrWords) : List Oper :=
  let n := fld (hdrAt h 0x10) 15 8
  let d := fld (hdrAt h 0x58) 63 32
  if n = 0 then [⟨hdrAt h 0x38, true, if d = 0 then slice else d⟩] else (List.range n).map (operOf ws)

/-- R306: a wheel map entry: position and cell index. -/
def wheelEnt (h : HdrWords) (ws : HdrWords) (i : Nat) : Word32 := word32Of (hdrAt h 0x48) ws i

/-- 0x07: the entries of a wheel map; the wheel set wraps (R365). Reserved bits that are set, for which R307 lists no status, fall under it
(DESIGN CHOICE, log 41). -/
def wheelBad (h : HdrWords) (p : PartSt) (ws : HdrWords) : Bool :=
  let n := fld (hdrAt h 0x50) 15 0
  let es := (List.range n).map (wheelEnt h ws)
  let pos := es.map fun w => (w.extractLsb' 0 10).toNat
  es.any (fun w => w.extractLsb' 10 6 ≠ 0 || w.extractLsb' 25 7 ≠ 0 || p.cells.length ≤ (w.extractLsb' 16 9).toNat)
    || pos.any (fun x => p.wcnt ≤ (x + 1024 - p.wbase) % 1024) || !pos.Nodup

/-- 0x05: the template of engine `e`. -/
def State.templBad (s : State) (c : Nat) (h : HdrWords) (segs : List SegEnt) (e : Nat) : State × Bool × Bool :=
  let a := hdrAt h (0x60 + 16 * e)
  let t := fld (hdrAt h (0x68 + 16 * e)) 15 0
  if t = 0 then (s, false, false)
  else
    match (ringsOf segs).find? (fun r => r.engine = e), segAt segs (segNo a) with
    | some r, some x =>
      if r.size / 4 < t || x.pageable then (s, true, false)
      else
        match s.prsRead c segs a (4 * t) with
        | (s, none) => (s, true, false)
        | (s, some ws) => (s, false, ws.any (·.psn))
    | _, _ => (s, true, false)

/-- The templates of all four engines: whether one is bad, whether one carries an uncorrectable error. -/
def State.templsBad (s : State) (c : Nat) (h : HdrWords) (segs : List SegEnt) : List Nat → State × Bool × Bool
  | [] => (s, false, false)
  | e :: r =>
    match s.templBad c h segs e with
    | (s, b, p) =>
      match s.templsBad c h segs r with
      | (s, b', p') => (s, b || b', p || p')

/-- The verdict on a launch: refused with a status, an uncorrectable error (R360), or what it starts with. -/
inductive Verdict | refused (status : Nat) | error | ok (ops : List Oper) (wmap : List (Nat × CellId))
deriving DecidableEq, Repr, Inhabited

/-- The wheel map as positions and cells. -/
def wheelMap (h : HdrWords) (p : PartSt) (ws : HdrWords) : List (Nat × CellId) :=
  (List.range (fld (hdrAt h 0x50) 15 0)).map fun i =>
    let w := wheelEnt h ws i
    ((w.extractLsb' 0 10).toNat, p.cells.getD (w.extractLsb' 16 9).toNat ⟨0, 0⟩)

/-- R307: the lowest status whose condition holds. -/
def firstStatus (l : List (Bool × Nat)) : Option Nat := (l.find? (·.1)).map (·.2)

/-- R307, R360: the checks of a launch whose header stands at host address `a`, for context `c` in its partition. A table at an address of
the wrong alignment, for which R307 lists no status, counts as one that cannot be read: OPTAB no multiple of 16 is 0x06, WMAP no multiple
of 4 is 0x07 (DESIGN CHOICE, log 41). -/
def State.checkLaunch (s : State) (c : Nat) (a : Word) : State × Verdict :=
  let n := 4 + (fld (s.hostWord (a.toNat + 0x10)).v 31 26 + 2) / 2
  let s := s.hostMeet (unitFor (s.ctx c).part.toNat (some c)) a.toNat (8 * n)
  let h := s.hostWords a.toNat (8 * n)
  let p := s.part (s.ctx c).part.toNat
  let segs := hdrSegs h
  let ops := s.prsRead c segs (hdrAt h 0x40) (16 * fld (hdrAt h 0x10) 15 8)
  let wm := ops.1.prsRead c segs (hdrAt h 0x48) (4 * fld (hdrAt h 0x50) 15 0)
  let tp := wm.1.templsBad c h segs [0, 1, 2, 3]
  let ow := ops.2.getD []
  let ww := wm.2.getD []
  if h.any (·.psn) || ow.any (·.psn) || tp.2.2 then (tp.1, .error)
  else
    let bad6 := ops.2.isNone || (fld (hdrAt h 0x10) 15 8 ≠ 0 && (hdrAt h 0x40).toNat % 16 ≠ 0)
      || (List.range (fld (hdrAt h 0x10) 15 8)).any (operBad h p.slice ow)
      || (fld (hdrAt h 0x10) 15 8 = 0 && p.slice < fld (hdrAt h 0x58) 63 32)
    let bad7 := wm.2.isNone || (fld (hdrAt h 0x50) 15 0 ≠ 0 && (hdrAt h 0x48).toNat % 4 ≠ 0) || ww.any (·.psn) || wheelBad h p ww
    let bad8 := secBad segs (hdrAt h 0x18) (hdrAt h 0x20) || (hdrAt h 0x30 ≠ 0 && secBad segs (hdrAt h 0x28) (hdrAt h 0x30))
    match firstStatus [(hdrBad1 a h, 1), (hdrBad2 h, 2), (!segs.all s.segOk, 3), (!ringsOk segs, 4), (tp.2.1, 5), (bad6, 6),
        (bad7, 7), (bad8, 8), (hdrBad9 h, 9), (hdrBadB h segs, 0x0B)] with
    | some k => (tp.1, .refused k)
    | none => (tp.1, .ok (hdrOps h p.slice ow) (wheelMap h p ww))

end Sys2Proof.Machine
end

