-- ==== Sys2Proof/Machine/Dispatching.lean ====
section
/-! DEFINITION. The dispatcher: starting launches (R302 to R304, R331), dispatching records (R35, R36, R199, R311 to R315),
aging: rows DISPATCH to FENCE_ENTRY_COMPLETE and RECORD_AGING. -/

namespace Sys2Proof.Machine

/-- R387: one µs and one ms in thirds of a nanosecond. -/
def usT : Nat := 3000
def msT : Nat := 3000000

/-! ## Record entry (R35, R36, R199) -/

/-- R36: what a cell finds in its scratchpad after an operator boundary: at a change of context zero, else unchanged or zero. -/
def State.boundarySpad (s : State) (fresh : Bool) : State :=
  let z := fresh || Config.freeBool s.free
  let s := { s with free := s.free + 1 }
  if z then s.updMem fun m => m.clearSpads [s.cell.id] else s

/-- R36: the same for each tile, independently. -/
def State.boundaryTiles (s : State) (fresh : Bool) (i : Nat) : List Tile → State × List Tile
  | [] => (s, [])
  | t :: r =>
    let z := fresh || Config.freeBool s.free
    let q := { s with free := s.free + 1 }.boundaryTiles fresh (i + 1) r
    (q.1, (if z then Tile.init s.cell.id.die else t) :: q.2)

/-- Copy the words of a template into a ring from word `i` on. -/
def State.putTemplate (s : State) (base size : Nat) (i : Nat) : List Word32 → State
  | [] => s
  | w :: r =>
    let a := ringAddr base size i
    let k := byteKey 0 (spadUnit s.cell.id) (a / 8 * 8)
    let s := s.updMem fun m =>
      if a % 8 = 0 then m.putNow k (w.zeroExtend 64) 0x0F false else m.putNow k (w.zeroExtend 64 <<< 32) 0xF0 false
    s.putTemplate base size (i + 1) r

/-- R199, R360: the ring template of one engine; answers whether a word of it carried an uncorrectable error. -/
def State.template (s : State) (c : Nat) (e : Eng) (a : Word) (t : Nat) : State × Bool :=
  if t = 0 then (s, false)
  else
    match s.cell.ringSeg e, s.prsRead c s.cell.segs a (4 * t) with
    | some (base, size), (s, some ws) =>
      if ws.any (·.psn) then (s, true)
      else
        ((s.putTemplate base size 0 ((List.range t).map (word32Of a ws))).updFocus fun x =>
          x.setEng e { x.eng e with wp := BitVec.ofNat 32 t }, false)
    | _, (s, _) => (s, false)

/-- R199: the templates of the engines in turn. -/
def State.templates (s : State) (c : Nat) : List (Eng × Word × Nat) → State × Bool
  | [] => (s, false)
  | (e, a, t) :: r =>
    match s.template c e a t with
    | (s, true) => (s, true)
    | (s, false) => s.templates c r

/-- R199, R203: engines emptied, the matrix engine's state reset. -/
def Cell.resetEngines (c : Cell) : Cell :=
  { c with mx := EngSt.init, ce0 := EngSt.init, ce1 := EngSt.init, xe := EngSt.init, mxs := MxSt.init }

/-- R32: the CTXID value of a context. -/
def ctxidOf (ctx part key : Nat) : Word :=
  ((0 : BitVec 43) ++ BitVec.ofNat 9 key ++ BitVec.ofNat 4 part ++ BitVec.ofNat 8 ctx : BitVec 64)

/-- R35: the registers of the AS when a record is dispatched. -/
def entryCore (r : Rec) : AsCore :=
  { AsCore.init with
    g := ((AsCore.init.g.set 1 ⟨r.frame, false⟩).set 2 ⟨r.wid, false⟩).set 3 ⟨r.joinp, false⟩
    pc := r.code }

/-- R35: the system registers a dispatch sets; the others keep their values. -/
def SysRegs.entry (y : SysRegs) (r : Rec) (l : Launch) (ctxid : Word) (crossing : Bool) : SysRegs :=
  { y with
    ctxid := ctxid, widf := l.widths.zeroExtend 64, wid := r.wid, frame := r.frame, joinp := r.joinp, acqm := 0, relm := 0
    tvec := l.ktvec, pwlsave := l.ksave, esHalted := false, esPending := false, setup := crossing }

/-- R35, R272: the cell as it enters a record. -/
def Cell.enter (c : Cell) (r : Rec) (l : Launch) (prio : Nat) (ctxid : Word) (crossing : Bool) : Cell :=
  let same : Bool := match c.lastOp with | some o => o.1 = l.id | none => false
  { c with
    as := { c.as with
      core := entryCore r, run := .running, lvl := .program, wait := none, exitTested := false
      delivered := false, esSaved := false
      sys := c.as.sys.entry r l ctxid crossing, latchP := 0 }
    es := EsSt.init
    qs := Queues.init, sems := Vector.replicate 63 (.count 0)
    segs := l.segs, asbase := l.asbase, assize := l.assize, esbase := l.esbase, essize := l.essize
    recd := some ⟨l.id, r.op, prio⟩, lastCtx := some l.ctx, snaps := [], late := false
    tlb := if same then c.tlb else [], tlbMx := if same then c.tlbMx else [], tlbCe0 := if same then c.tlbCe0 else []
    tlbCe1 := if same then c.tlbCe1 else [], tlbXe := if same then c.tlbXe else [] }

/-- R35: run a record on the cell in focus at a dispatch priority. -/
def State.runRec (s : State) (r : Rec) (l : Launch) (prio : Nat) : State :=
  let crossing := s.cell.lastOp ≠ some (l.id, r.op)
  let fresh := s.cell.lastCtx ≠ some l.ctx
  let s := if crossing then s.boundarySpad fresh else s
  let t := if crossing then s.boundaryTiles fresh 0 s.cell.tiles else (s, s.cell.tiles)
  let ctxid := ctxidOf l.ctx l.part (s.ctx l.ctx).keyid.toNat
  let s := t.1.updFocus fun c => { c.enter r l prio ctxid crossing with tiles := t.2 }
  let s := s.updMem fun m => m.setCode s.cell.id
  let s := s.updLaunch l.id fun l => if l.began.isSome then l else { l with began := some s.pkg.time.t3, paused := 0 }
  if crossing then
    let s := s.updFocus Cell.resetEngines
    let l4 := [Eng.mx, .ce0, .ce1, .xe].zip l.templ
    match s.templates l.ctx (l4.map fun x => (x.1, x.2.1, x.2.2)) with
    | (s, true) => s.partitionReset l.part .containment 0
    | (s, false) => s
  else s

/-! ## Dispatch (R312 to R314) -/

/-- R146: what a forked record waits for has performed at package scope. -/
def State.holdOver (s : State) (h : Hold) : Bool :=
  (match s.findCell h.cell with
   | some c => !c.mops.any fun o => o.seq < h.seq && match o.kind with | .signal _ => false | _ => true
   | none => true)
    && !s.mem.owes h.cell h.seq (BitVec.allOnes 16) 3 && h.deps.all fun d => s.mem.reached d 3

/-- R314: a record the cell may take: its launch runs, its FUSE matches the cluster, and it waits for nothing. -/
def State.mayTake (s : State) (r : Rec) : Bool :=
  match s.findLaunch r.launch with
  | none => false
  | some l => !l.saved && r.written && l.fuse = s.cell.fused && match r.hold with | none => true | some h => s.holdOver h

/-- R313, R315: the level of a launch's enumerator now. -/
def Launch.level (l : Launch) : Nat := min 7 (l.prio + l.boost)

/-- R313: enumerators with work at a level that the cell may serve, in the order in which their launches started. While a pre-emption
request stands no further operator begins (R316). -/
def State.enumsAt (s : State) (part lvl : Nat) : List Launch :=
  s.pkg.launches.filter fun l => l.part = part && l.hasWid && l.level = lvl && l.fuse = s.cell.fused
    && (l.began.isSome || !(s.part part).preempt)

/-- R314: the first enumerator after the last one served. -/
def nextEnum (l : List Launch) (served : Nat) : Option Launch :=
  match l.find? (fun x => served < x.id) with
  | some x => some x
  | none => l.head?

/-- R314: the position of the first record of a FIFO the cell may take. -/
def State.fifoPick (s : State) (l : List Rec) : Option Nat := l.findIdx? s.mayTake

/-- Take record `i` of the FIFO of a level; an uncorrectable error in its body is a partition reset (R360). -/
def State.takeFifo (s : State) (part lvl i : Nat) : State :=
  match ((s.part part).fifos.getD lvl [])[i]? with
  | none => s
  | some r =>
    match s.findLaunch r.launch with
    | none => s
    | some l =>
      let a := (s.part part).bodyAt r.slot
      let s := s.hostMeet (unitFor part (some l.ctx)) a 4
      if s.hostPsn a 4 then s.partitionReset part .containment 0
      else
        let s := s.updPart part fun p => { p with
          fifos := updAt p.fifos lvl fun l => dropAt l i, lastEnum := updAt p.lastEnum lvl fun _ => false }
        (s.placeSingles part).runRec r l lvl

/-- R311, R314: take the next WID of an enumerator. -/
def State.takeWid (s : State) (part lvl : Nat) (l : Launch) : State :=
  match l.oper with
  | none => s
  | some o =>
    let wid := enumWid l.widths l.order l.swz l.cur
    let r : Rec := ⟨o.code, l.frameb, wid, 0, l.id, l.op, s.pkg.time.t3, none, 0, true⟩
    let s := s.updLaunch l.id fun l => { l with
      cur := enumNext l.widths l.order l.swz l.cur, live := l.live + 1, yielded := s.pkg.time.t3, boost := 0 }
    let s := s.updPart part fun p => { p with
      lastEnum := updAt p.lastEnum lvl fun _ => true, served := updAt p.served lvl fun _ => l.id }
    match s.findLaunch l.id with
    | none => s
    | some l => s.runRec r l lvl

/-- R314: dispatch from the highest level that has work, `lvl` levels being left to look at. Before any dispatch at a level the enumerators
come first there, which the spec leaves open (DESIGN CHOICE, log 33). -/
def State.dispatchFrom (s : State) (part : Nat) : Nat → State
  | 0 => s
  | lvl + 1 =>
    let p := s.part part
    let f := s.fifoPick (p.fifos.getD lvl [])
    let e := nextEnum (s.enumsAt part lvl) (p.served.getD lvl 0)
    match f, e with
    | some i, some l => if p.lastEnum.getD lvl true then s.takeFifo part lvl i else s.takeWid part lvl l
    | some i, none => s.takeFifo part lvl i
    | none, some l => s.takeWid part lvl l
    | none, none => s.dispatchFrom part lvl

/-- R314, R365, R377: an idle cell of a partition in service takes work. A cell due for replacement takes none (R363). -/
def State.dispatch (s : State) : State :=
  match s.cellPart s.cell.id with
  | none => s
  | some p =>
    if s.cell.as.run ≠ .idle || s.cell.recd.isSome || s.cell.gated || s.partPause p
        || s.pkg.repair.replace.contains s.cell.id || s.pkg.repair.retired.contains s.cell.id.die then s
    else s.dispatchFrom p 8

/-- R314. -/
def execDispatch (s : State) : Res := .next s.dispatch

/-! ## Command queues (R302 to R304) -/

/-- R302, R331: entries up to a tail are posted; those of queue 3 keep their place in the order of posting. -/
def CqSt.post (x : CqSt) (tail : BitVec 32) (k : Nat) (keep : Bool) : CqSt :=
  { x with tail := tail, posts := if keep then x.posts ++ [(tail, k)] else x.posts }

/-- R302, R380: the doorbell of a queue; in recovery there is none (R392). -/
def execCqtail (ctx : Nat) (q : BitVec 2) (tail : BitVec 32) (s : State) : Res :=
  .next (if ctx < 192 && s.pkg.boot.phase = .running then
      ((s.updCq ctx q.toNat fun x => x.post tail s.pkg.nextOrder (q = 3)).updPkg fun p => { p with
        nextOrder := p.nextOrder + 1 }).startFences ctx q.toNat
    else s)

/-- R304: the first fence of a queue whose earlier entries have all completed. -/
def fenceReady : List CqEnt → List CqEnt → Option (CqEnt × List CqEnt × List CqEnt)
  | _, [] => none
  | before, e :: r =>
    if e.fence then (if before.all (·.done) then some (e, before, r) else none)
    else fenceReady (before ++ [e]) r

/-- R304: COUNTS: launches refused and completed since the fence before. -/
def fenceCounts (l : List CqEnt) : Word :=
  BitVec.ofNat 64 ((l.countP (·.refused)) % 65536 + 65536 * ((l.countP fun e => !e.refused) % 65536))

/-- R304, R320: the entries before `k` are behind a completed fence. -/
def CqSt.passed (x : CqSt) (rest : List CqEnt) (k : BitVec 32) : CqSt :=
  { x with ents := rest, replay := k, posts := x.posts.filter fun p => (k - x.replay).ult (p.1 - x.replay) }

/-- R304: a fence writes its record, VALUE last, once every write of the launches before it has performed at system scope, and is
completed; the queue would replay from the entry after it. -/
def execFenceEntryComplete (ctx : Nat) (q : BitVec 2) (s : State) : Res :=
  let s := s.startFences ctx q.toNat
  .next (match fenceReady [] (s.cq ctx q.toNat).ents with
    | none => s
    | some (e, before, rest) =>
      if !before.all fun x => x.deps.all fun d => s.mem.reached d 4 then s else
      let a := e.addr.toNat
      let s := (((s.hostPut a (fenceCounts before)).hostPut (a + 8) (BitVec.ofNat 64 s.timeNs)).hostPut (a + 16) 0).hostPut (a + 24) e.value
      (s.updCq ctx q.toNat fun x => x.passed rest (BitVec.ofNat 32 (e.idx + 1))).startFences ctx q.toNat)

/-! ## Starting launches (R303, R307, R331) -/

/-- R303 condition 5: whether a wheel-mapped launch runs in a partition. -/
def State.wheelBusy (s : State) (part : Nat) : Bool := s.pkg.launches.any fun l => l.part = part && !l.saved && !l.wmap.isEmpty

/-- R303 conditions 3 and 4, R316, R324: the context may start launches now. -/
def State.ctxRuns (s : State) (c : Nat) : Bool :=
  let x := s.ctx c
  let p := s.part x.part.toNat
  x.en && !x.vacating && p.en && p.ctx = some c && !p.preempt
    && (s.pkg.launches.filter fun l => l.part = x.part.toNat).length < 16

/-- R305: the launch a checked header starts. -/
def launchOf (s : State) (src : LaunchSrc) (c idx : Nat) (a frameb : Word) (h : HdrWords) (ops : List Oper)
    (wmap : List (Nat × CellId)) : Launch :=
  let w := hdrAt h 0x10
  let widths := hdrWidths h
  { id := s.pkg.nextLaunch, src := src, ctx := c, part := (s.ctx c).part.toNat, idx := idx, hdr := a, prio := fld w 23 21
    fuse := w.getLsbD 20, widths := widths, order := fld w 1 0, swz := fld w 6 4
    asbase := hdrAt h 0x18, assize := (hdrAt h 0x20).toNat, esbase := hdrAt h 0x28, essize := (hdrAt h 0x30).toNat
    ops := ops, op := 0, live := 0, placed := false, cur := enumFirst widths (fld w 1 0) (fld w 6 4)
    began := none, yielded := s.pkg.time.t3, boost := 0, wmap := wmap
    templ := (List.range 4).map fun e => (hdrAt h (0x60 + 16 * e), fld (hdrAt h (0x68 + 16 * e)) 15 0)
    frameb := frameb, ktvec := hdrAt h 0xB0, ksave := hdrAt h 0xB8, segs := hdrSegs h, stopped := false, saved := false
    paused := 0 }

/-- R307: a refusal is reported to the context with its queue number. -/
def State.refuseReport (s : State) (c : Nat) (a : Word) (status q : Nat) : State :=
  s.report ⟨0x02, status, (s.ctx c).part.toNat, c, c, 6, 0, 7, BitVec.ofNat 64 s.timeNs, a, BitVec.ofNat 64 q⟩

/-- The header of a launch, once it has been checked. -/
def State.headerAt (s : State) (a : Word) : HdrWords :=
  s.hostWords a.toNat (8 * (4 + (fld (s.hostWord (a.toNat + 0x10)).v 31 26 + 2) / 2))

/-- R308: a launch starts: its first operator is dispatchable. -/
def State.startLaunch (s : State) (l : Launch) : State :=
  (s.updPkg fun p => { p with launches := p.launches ++ [l], nextLaunch := p.nextLaunch + 1 }).placeSingle l

/-- R331, R333: the launch that the PRS has posted for a stream, with its place in the order of posting: a prefill keeps the one of its
CREATE or restart, a decode step has that of its posting. -/
def Stream.posted (x : Stream) : Option (Nat × Word) :=
  if x.running || !x.held then none
  else if x.state = .queued && x.postPrefill then some (x.order, x.dw 3)
  else if x.state = .decode && x.postStep then some (x.stepAt, x.dw 4)
  else none

/-- R303 condition 1, R331: a launch of a stream of the context is posted before place `k` and has not started. -/
def State.streamBefore (s : State) (c k : Nat) : Bool :=
  s.pkg.streams.any fun y => y.ctx = c && y.posted.any fun p => p.1 < k

/-- R302, R303, R331: a launch entry waits for earlier ones of its queue; the launches of a context's streams count as entries of queue 3. -/
def State.entryBarred (s : State) (c q : Nat) (d : HdrWords) : Bool :=
  (s.cq c q).barred d
    || (q = 3 && (((s.cq c 3).nextPost.any (s.streamBefore c)) || (cqBarrier d && s.pkg.streams.any fun y => y.ctx = c && y.running)))

/-- R303, R307: the entry at the head of a command queue starts or is refused; a malformed one is refused whichever context runs. A fence
behind it starts with it (R304). -/
def State.startEntry (s : State) (c q : Nat) : State :=
  let s := s.startFences c q
  let x := s.cq c q
  let d := s.cqHead x
  let a := hdrAt d 8
  let e : CqEnt := ⟨x.head.toNat, false, a, 0, false, false, []⟩
  if x.head = x.tail || cqIsFence d then s
  else if !cqOk d then ((s.refuseReport c a 0x0A q).cqAdvance c q { e with done := true, refused := true }).startFences c q
  else if !s.ctxRuns c || s.entryBarred c q d then s
  else
    match s.checkLaunch c a with
    | (t, .error) => t.partitionReset (s.ctx c).part.toNat .containment 0
    | (t, .refused k) => ((t.refuseReport c a k q).cqAdvance c q { e with done := true, refused := true }).startFences c q
    | (t, .ok ops wm) =>
      if !wm.isEmpty && t.wheelBusy (s.ctx c).part.toNat then t
      else
        let h := t.headerAt a
        ((t.cqAdvance c q e).startFences c q).startLaunch
          (launchOf t (.queue c (BitVec.ofNat 2 q)) c x.head.toNat a (hdrAt h 0xA0) h ops wm)

/-- R303 condition 1, R331, R333: the launch a stream has posted, once it is its turn: everything posted before it for streams of its
context, and in that context's queue 3, has started or been refused. -/
def State.streamDue (s : State) (x : Stream) : Option Word :=
  match x.posted with
  | none => none
  | some (k, a) => if s.streamBefore x.ctx k || (s.cq x.ctx 3).nextPost.any (· < k) then none else some a

/-- R307, R331, R332: the PRS posts a stream's launch. -/
def State.startStream (s : State) (n : Nat) : State :=
  match s.findStream n with
  | none => s
  | some x =>
    match s.streamDue x with
    | none => s
    | some a =>
      if !s.ctxRuns x.ctx then s
      else
        match s.checkLaunch x.ctx a with
        | (t, .error) => t.partitionReset (s.ctx x.ctx).part.toNat .containment 0
        | (t, .refused k) => (t.refuseReport x.ctx a k 3).streamOn n .refused
        | (t, .ok ops wm) =>
          if !wm.isEmpty && t.wheelBusy (s.ctx x.ctx).part.toNat then t
          else
            let t := t.startLaunch (launchOf t (.stream n) x.ctx (x.tag (x.state ≠ .queued)) a (x.dw 6) (t.headerAt a) ops wm)
            if x.state = .queued then (t.streamOn n .admitted).updStream n fun y => { y with postPrefill := false }
            else t.updStream n fun y => { y with running := true, postStep := false }

/-- R303. -/
def execLaunchStart (src : LaunchSrc) (s : State) : Res :=
  .next (match src with
    | .queue c q => s.startEntry c q.toNat
    | .stream n => s.startStream n)

/-! ## Aging (R315) -/

/-- R315: the first record of a FIFO that has waited 1 ms. -/
def agedAt (now : Nat) (l : List Rec) : Option Nat := l.findIdx? fun r => r.since + msT ≤ now

/-- R315: a FIFO record moves to the tail of the next level, unless that is full. -/
def State.ageFifo (s : State) (part lvl : Nat) : State :=
  let l := (s.part part).fifos.getD lvl []
  match agedAt s.pkg.time.t3 l with
  | none => s
  | some i =>
    match l[i]? with
    | none => s
    | some r =>
      if 7 ≤ lvl || s.fifoFull part (lvl + 1) then s
      else
        (s.updPart part fun p => { p with
          fifos := updAt (updAt p.fifos lvl fun l => dropAt l i) (lvl + 1) fun l => l ++ [{ r with since := s.pkg.time.t3 }] }).placeSingles part

/-- R315: an enumerator with work that has yielded nothing for another millisecond is served one level higher. -/
def State.ageEnums (s : State) (part lvl : Nat) : State :=
  let now := s.pkg.time.t3
  s.updPkg fun p => { p with launches := p.launches.map fun l =>
    if l.part = part && l.hasWid && l.level = lvl && lvl < 7 && l.yielded + msT * (l.boost + 1) ≤ now then
      { l with boost := l.boost + 1 } else l }

/-- R315. -/
def execRecordAging (part level : Nat) (s : State) : Res := .next ((s.ageFifo part level).ageEnums part level)

end Sys2Proof.Machine
end

