-- ==== Sys2Proof/Machine/Preempting.lean ====
section
/-! DEFINITION. Pre-emption, context switches, hang detection, partition reset and the Almucantar (R316 to R326): rows
SLICE_EXPIRY to EVICTION_OUTCOME. -/

namespace Sys2Proof.Machine

/-! ## Pre-emption and context switches (R316, R317) -/

/-- R303 conditions 4 and 5: a launch with this header could start, were its context the running one. -/
def State.couldStart (s : State) (c : Nat) (hdr : Word) : Bool :=
  let part := (s.ctx c).part.toNat
  (s.pkg.launches.filter (·.part = part)).length < 16
    && (fld (s.hostWord (hdr.toNat + 0x50)).v 15 0 = 0 || !s.pkg.launches.any fun l => l.ctx = c && l.part = part && !l.wmap.isEmpty)

/-- R303: the entry at the head of a queue is a launch that could start, were its context the running one. -/
def State.queueDue (s : State) (c q : Nat) : Bool :=
  let x := s.cq c q
  let d := s.cqHead x
  x.head ≠ x.tail && cqOk d && !cqIsFence d && !s.entryBarred c q d && s.couldStart c (hdrAt d 8)

/-- R303, R331: a stream of the context has a launch that could start. -/
def State.streamReady (s : State) (c : Nat) : Bool :=
  s.pkg.streams.any fun y => y.ctx = c && (s.streamDue y).any fun a => s.couldStart c a

/-- R324: a checkpoint of the context is under way: its launches stay where they stand. -/
def State.ckPending (s : State) (c : Nat) : Bool :=
  s.pkg.evicts.any fun e => e.ctxs.any fun x => x.ctx = c && x.dec = .checkpoint && x.vacant.isNone

/-- R316: the context has a launch able to start, or a started one. What becomes of started launches when the host clears EN the spec does
not say: those that run go on, those that are saved wait until the context is admitted again (DESIGN CHOICE, log 33). -/
def State.hasWork (s : State) (part c : Nat) : Bool :=
  let x := s.ctx c
  x.en && x.part.toNat = part && !s.ckPending c
    && ((s.pkg.launches.any fun l => l.part = part && l.ctx = c)
        || (!x.vacating && ((List.range 4).any (s.queueDue c) || s.streamReady c)))

/-- R316: the next context in ascending number after the outgoing one, wrapping. -/
def State.nextCtx (s : State) (part : Nat) (from_ : Option Nat) : Option Nat :=
  let k := match from_ with | some c => c + 1 | none => 0
  ((List.range 192).map fun i => (k + i) % 192).find? (s.hasWork part)

/-- R316: the running context has run for its slice bound while another one waits: a pre-emption request arises. -/
def execSliceExpiry (part : Nat) (s : State) : Res :=
  let p := s.part part
  .next (match p.ctx with
    | none => s
    | some c =>
      let other := (List.range 192).any fun d => d ≠ c && s.hasWork part d
      if other && p.since + usT * p.slice ≤ s.pkg.time.t3 then s.updPart part fun p => { p with preempt := true } else s)

/-- R316, R380: the host asks for pre-emption of the context's partition; ignored while the context is not admitted, and in recovery (R392). -/
def execPreempt (ctx : Nat) (s : State) : Res :=
  .next (if (s.ctx ctx).en && ctx < 192 && s.pkg.boot.phase = .running then s.updPart (s.ctx ctx).part.toNat fun p => { p with preempt := true } else s)

/-- R316: a launch of the running context stands at an operator boundary: no record of its operator has been created. -/
def Launch.atBoundary (l : Launch) : Bool := l.stopped || (l.began.isNone && l.live = 0)

/-- R316: every started launch of the partition's running context stands at a boundary. -/
def State.allStopped (s : State) (part : Nat) : Bool :=
  s.pkg.launches.all fun l => l.part ≠ part || l.saved || l.atBoundary

/-- R317: launches of the incoming context go on where they stood, the others are saved. The age of an enumerator is not saved: its operator
is at its start, at PRIO (R315). -/
def Launch.switch (l : Launch) (part : Nat) (c : Option Nat) (now : Nat) : Launch :=
  if l.part ≠ part then l
  else if some l.ctx = c then { l with saved := false, stopped := false, yielded := now, boost := 0 }
  else { l with saved := true }

/-- R317: the save area takes the outgoing context's launches; neither its size nor its layout is given (log 42). -/
def State.writeSave (s : State) (part : Nat) : State :=
  { s with free := s.free + 1 }.scribble (byteKey 3 0 (s.part part).save.toNat) (Config.freeNat s.free % 8192)

/-- R317, R356, R360: the incoming context's saved launches are read back: whether an uncorrectable error stands in what is read. -/
def State.readSave (s : State) (part c : Nat) : State × Bool :=
  if s.pkg.launches.any fun l => l.part = part && l.saved && l.ctx = c then
    let n := Config.freeNat s.free % 8192
    let a := (s.part part).save.toNat
    let s := { s with free := s.free + 1 }.hostMeet (unitFor part (some c)) a n
    (s, s.hostPsn a n)
  else (s, false)

/-- R317, R375: the running context of a partition is saved, with every charge up to now in its counter; none runs from now on. -/
def State.saveCtx (s : State) (part c : Nat) : State :=
  let s := s.settleStatics.writeSave part
  let s := s.updPkg fun p => { p with launches := p.launches.map fun l => l.switch part none p.time.t3 }
  s.updPart part fun p => { p with ctx := none, left := some c, owed := some 0, preempt := false }

/-- R317, R405: a context is restored, and the partition runs it from now on. -/
def State.restoreCtx (s : State) (part c : Nat) : State :=
  match s.settleStatics.readSave part c with
  | (s, true) => s.partitionReset part .containment 0
  | (s, false) =>
    let now := s.pkg.time.t3
    let s := (s.payOwed part c).updPkg fun p => { p with launches := p.launches.map fun l => l.switch part (some c) now }
    (s.updPart part fun p => { p with ctx := some c, since := now, preempt := false }).placeSingles part

/-- R332: a checkpoint abandons the swap commands of a context's streams: they take reset. -/
def State.abandonSwaps (s : State) (c : Nat) : State :=
  s.pkg.streams.foldl (init := s) fun s x =>
    if x.held && x.ctx = c && (x.state = .parked || x.state = .resuming) && x.swapOpen then
      (s.updPkg fun k => { k with nvme := k.nvme.filter fun y => y.stream ≠ x.n || y.kind = .dealloc }).streamOn x.n .reset
    else s

/-- R316, R317, R405: the two halves of a switch: the running context, its launches all at boundaries under a request, is saved; with none
running, the next one that has work is restored. -/
def execContextSwitch (part : Nat) (s : State) : Res :=
  let p := s.part part
  .next (if !p.en then s
    else
      match p.ctx with
      | none => (s.nextCtx part p.left).elim s fun c => s.restoreCtx part c
      | some c =>
        if p.preempt && s.allStopped part then (if s.ckPending c then s.abandonSwaps c else s).saveCtx part c else s)

/-! ## Partition reset (R319 to R321) -/

/-- R319: an operator still incomplete 8 times its bound after its first dispatch, pauses not counted. -/
def Launch.hung (l : Launch) (now : Nat) : Bool :=
  match l.began, l.oper with
  | some t, some o => !l.saved && !l.stopped && t + l.paused + 8 * usT * o.dbound ≤ now
  | _, _ => false

/-- R319: the hang trigger; the report carries the operator's index. -/
def execHangTimeout (part : Nat) (s : State) : Res :=
  .next (match s.pkg.launches.find? fun l => l.part = part && l.hung s.pkg.time.t3 with
    | some l => s.partitionReset part .hang (BitVec.ofNat 64 l.op)
    | none => s)

/-- R319, R380: a host write asks for a reset of the context's partition; ignored while the context is not admitted, and in recovery. -/
def execPreset (ctx : Nat) (s : State) : Res :=
  .next (if (s.ctx ctx).en && ctx < 192 && s.pkg.boot.phase = .running then s.partitionReset (s.ctx ctx).part.toNat .host 0 else s)

/-- R320. -/
def execPartitionReset (part : Nat) (why : ResetTrigger) (s : State) : Res :=
  .next (if (s.part part).en then s.partitionReset part why 0 else s)

/-! ## The Almucantar (R322 to R326) -/

/-- R324: the contexts of a target: the one it names, or those of its partition: admitted, or with launches that still stand though the host
has cleared EN (R367). -/
def State.evTargets (s : State) (isCtx : Bool) (t : Nat) : List Nat := if isCtx then [t] else (List.range 192).filter (s.inPart t)

/-- R324: by eviction priority descending, then by number. -/
def State.evOrder (s : State) (l : List Nat) : List Nat :=
  ((List.range 8).map (7 - ·)).flatMap fun p => l.filter fun c => (s.ctx c).eprio.toNat = p

/-- R323: what remains of the operator in progress, in ns. -/
def Launch.remaining (l : Launch) (now : Nat) : Nat :=
  match l.oper with
  | none => 0
  | some o => 1000 * o.dbound - (match l.began with | some t => (now - t) / 3 | none => 0)

/-- R323: bounds of the later operators of a launch, in ns. -/
def Launch.later (l : Launch) : Nat := ((l.ops.drop (l.op + 1)).map fun o => 1000 * o.dbound).sum

/-- The started launches of a context. -/
def State.launchesOf (s : State) (c : Nat) : List Launch := s.pkg.launches.filter (·.ctx = c)

/-- The partition that runs a context. -/
def State.runsIn (s : State) (c : Nat) : Option Nat := (List.range 16).find? fun i => (s.part i).ctx = some c

/-- Whether a context runs. -/
def State.isRunning (s : State) (c : Nat) : Bool := (s.runsIn c).isSome

/-- R323: W and R of a context, in ns: an operator not yet begun counts in W with its whole bound, and does not run. -/
def State.evW (s : State) (c : Nat) : Nat := ((s.launchesOf c).map fun l => l.remaining s.pkg.time.t3 + l.later).sum
def State.evR (s : State) (c : Nat) : Nat :=
  if s.isRunning c then (((s.launchesOf c).filter (·.began.isSome)).map fun l => l.remaining s.pkg.time.t3).foldl max 0 else 0

/-- R323: DRAIN, in ns. -/
def drainNs : Nat := 50000

/-- R324: the decision for one context; `avail` holds the bandwidth left for each destination, in 0.25 GB/s. -/
def State.decide (s : State) (budget : Nat) (avail : List Nat) (c : Nat) : EvCtx × List Nat :=
  let d := (s.ctx c).dirty
  if (s.launchesOf c).isEmpty && d = 0 then (⟨c, .idle, 0, 0, none⟩, avail)
  else if s.isRunning c && s.evW c + drainNs ≤ budget then (⟨c, .run, 0, 0, none⟩, avail)
  else
    let room := budget - s.evR c - drainNs
    let dest := (s.ctx c).ckdest.toNat
    let need := ceilDiv (4 * d) room
    if s.evR c + drainNs < budget && need ≤ avail.getD dest 0 then
      (⟨c, .checkpoint, need, 0, none⟩, updAt avail dest fun x => x - need)
    else (⟨c, .discard, 0, 0, none⟩, avail)

/-- R324: the decisions in order. -/
def State.decideAll (s : State) (budget : Nat) (avail : List Nat) : List Nat → List EvCtx
  | [] => []
  | c :: r => (s.decide budget avail c).1 :: s.decideAll budget (s.decide budget avail c).2 r

/-- The context a cell works for. -/
def Cell.runsCtx (c : Cell) (x : Nat) : Bool := c.recd.isSome && c.asCtx = some x

/-- R324, R325: the cells that run a context's record or ran one last: their unperformed writes are its own. -/
def State.ctxCells (s : State) (c : Nat) : List CellId :=
  ((s.cell :: s.parked).filter fun x => x.runsCtx c || (x.recd.isNone && x.lastCtx = some c)).map (·.id)

/-- R324: discard of one context: its records, commands and unperformed writes are abandoned, its launches go, its queues rewind. -/
def State.discardCtx (s : State) (c : Nat) : State :=
  let cells := s.ctxCells c
  let named := s.cmdStreams cells
  let s := (s.abandonCells cells).resetStreams fun x => x.ctx = c && (s.streamLaunched x.n || x.swapOpen || named.contains x.n)
  let gone := (s.launchesOf c).map (·.id)
  let s := s.updPkg fun p => { p with
    launches := p.launches.filter (·.ctx ≠ c)
    parts := p.parts.map fun q => { q with fifos := q.fifos.map fun l => l.filter fun r => !gone.contains r.launch } }
  s.rewindCtx c

/-- R324, R325: carry out one decision. -/
def State.carry (s : State) (x : EvCtx) : State :=
  let s := s.updCtx x.ctx fun y => { y with vacating := true }
  match x.dec with
  | .discard => s.discardCtx x.ctx
  | .checkpoint =>
    match s.runsIn x.ctx with
    | some i => s.updPart i fun p => { p with preempt := true }
    | none => s.abandonSwaps x.ctx
  | _ => s

/-- R325: a hand-off or swap command of a context runs or waits; one that a reset abandoned waits for nothing here (R333), and a launch
saved at a boundary is none. -/
def State.swapsOpen (s : State) (c : Nat) : Bool :=
  s.pkg.streams.any fun y => y.ctx = c
    && (!y.pulls.isEmpty || !y.outs.isEmpty || (!y.again && y.swap.any (·.stage ≠ .failed))
      || s.pkg.nvme.any fun k => k.stream = y.n && k.kind ≠ .dealloc)

/-- R325: a cache holds a dirty line of a context: one that a cell of its own wrote, or that stands under its key. -/
def State.ctxDirty (s : State) (c : Nat) : Bool :=
  let cells := s.ctxCells c
  s.mem.stale.any fun x => cells.contains x.cell || s.mem.lines.any fun l => l.at_ = x.at_ && l.line = x.key / 64 * 64 && s.keyCtx l.key = c

/-- R325: a context is vacant. -/
def State.vacantNow (s : State) (x : EvCtx) : Bool :=
  (match x.dec with
   | .checkpoint => !s.isRunning x.ctx && (s.launchesOf x.ctx).all (·.saved)
   | _ => (s.launchesOf x.ctx).isEmpty)
    && !(s.cell :: s.parked).any (·.runsCtx x.ctx)
    && !s.swapsOpen x.ctx && !s.mem.writes.any (fun w => (s.ctxCells x.ctx).contains w.cell) && !s.ctxDirty x.ctx

/-- R322: the status of a request, lowest first. -/
def State.evStatus (s : State) (d0 d1 d2 : Word) : Nat :=
  let isCtx := d0.getLsbD 16
  let t := fld d0 11 0
  if d1.toNat < s.timeNs + 200000 then 1
  else if s.pkg.evicts.any fun e => e.isCtx = isCtx && e.target = t && e.deadline ≤ d1.toNat then 2
  else if !zeroBits d0 63 17 || !zeroBits d0 15 12 || !zeroBits d2 63 48 || (if isCtx then 191 < t else 15 < t) then 3
  else 0

/-- R322 to R324: an accepted request is decided and carried out at once; it replaces a pending one on the same target. -/
def State.evict (s : State) (isCtx : Bool) (t deadline : Nat) (avail : List Nat) (out : Word) : State :=
  let budget := deadline - s.timeNs - 200000
  let old := s.pkg.evicts.find? fun e => e.isCtx = isCtx && e.target = t
  let kept := match old with | some e => e.ctxs.filter (·.vacant.isSome) | none => []
  let todo := (s.evOrder (s.evTargets isCtx t)).filter fun c => !kept.any (·.ctx = c)
  let ds := s.decideAll budget avail todo
  let e : Evict := ⟨isCtx, t, deadline, s.timeNs + budget, out, kept ++ ds⟩
  let s := s.updPkg fun p => { p with
    evicts := p.evicts.filter (fun x => !(x.isCtx = isCtx && x.target = t)) ++ [e] }
  ds.foldl State.carry s

/-- R322; in recovery nothing takes the request (R392). -/
def execEvictionRequest (d0 d1 d2 d3 : Word) (s : State) : Res :=
  let st := s.evStatus d0 d1 d2
  let up := s.pkg.boot.phase = .running
  let s := if up then s.updPkg fun p => { p with mgmt := { p.mgmt with evStat := BitVec.ofNat 8 st, evict := [d0, d1, d2, d3] } } else s
  .next (if st ≠ 0 || !up then s
    else s.evict (d0.getLsbD 16) (fld d0 11 0) d1.toNat [fld d2 15 0, fld d2 31 16, fld d2 47 32] d3)

/-- R324: the fallen-back form of a decision. -/
def Decision.fall : Decision → Decision
  | .run => .runFell
  | .checkpoint => .checkpointFell
  | d => d

/-- R324: at the end of the budget every context that is not vacant is discarded. -/
def State.fallBack (s : State) (n : Nat) (e : Evict) : State :=
  let late := e.ctxs.filter fun x => x.vacant.isNone && !s.vacantNow x
  let s := s.updPkg fun p => { p with evicts := updAt p.evicts n fun e => { e with
    ctxs := e.ctxs.map fun x => if late.any (·.ctx = x.ctx) then { x with dec := x.dec.fall, alloc := 0 } else x } }
  late.foldl (fun s x => s.discardCtx x.ctx) s

/-- R324. -/
def execEvictionFallback (n : Nat) (s : State) : Res :=
  .next (match s.pkg.evicts[n]? with
    | none => s
    | some e => if e.fallAt ≤ s.timeNs then s.fallBack n e else s)

/-- R326: OUTCOME codes. -/
def Decision.code : Decision → Nat
  | .idle => 0 | .run => 1 | .checkpoint => 2 | .discard => 3 | .runFell => 4 | .checkpointFell => 5

/-- R326: one outcome record. -/
def State.outcomeWords (s : State) (x : EvCtx) (q : Nat) : List Word :=
  let cq := s.cq x.ctx q
  let next := if 3 ≤ x.dec.code then cq.replay else cq.head
  [ (next ++ (0 : BitVec 16) ++ BitVec.ofNat 4 x.dec.code ++ (0 : BitVec 2) ++ BitVec.ofNat 2 q ++ BitVec.ofNat 8 x.ctx : BitVec 64),
    BitVec.ofNat 64 x.bytes, BitVec.ofNat 64 (x.vacant.getD 0), BitVec.ofNat 64 x.alloc ]

/-- R326: the records of a list of contexts, queue by queue. -/
def State.writeOutcomes (s : State) (a : Nat) : List (EvCtx × Nat) → State
  | [] => s
  | (x, q) :: r => (s.hostPuts a (s.outcomeWords x q)).writeOutcomes (a + 32) r

/-- R324, R367: the byte key of a context's checkpoint area. -/
def CtxSt.ckKey (x : CtxSt) : Nat :=
  if x.ckdest = 0 then byteKey 3 0 x.ckbase.toNat
  else if x.ckdest = 1 then byteKey 4 0 x.ckbase.toNat
  else driveKey (x.ckbase.extractLsb' 60 4).toNat (x.ckbase.extractLsb' 0 48).toNat 0

/-- R324: a checkpoint of `b` bytes is written to the context's area; their layout is not given (log 42). -/
def State.writeCheckpoint (s : State) (c b : Nat) : State := s.scribble (s.ctx c).ckKey (b / 8)

/-- R374, R375: a checkpoint's transfers are added to its context's counter: the lines and blocks read where they lie, and what is written
at its destination. They spend from the first column of their die, or of die 0 (log 35). -/
def State.chargeCheckpoint (s : State) (c : Nat) : State :=
  let x := s.ctx c
  let s := x.dirtyAt.foldl (init := s) fun s e =>
    let p : Place := ⟨e.1 / 8, e.1 % 8, 0, 0, 0, false⟩
    (s.charge (some c) (unitCol p) (lineClass p) (ceilDiv e.2 64)).chargeRoute (unitFor 0 (some c)) (unitCol p) p
  if x.ckdest = 2 then s.charge (some c) ⟨0, 0⟩ 11 (ceilDiv x.dirty 4096) else s.charge (some c) ⟨0, 0⟩ 10 (ceilDiv x.dirty 64)

/-- R323, R324: the checkpoint of a context: D begins again. -/
def State.checkpoint (s : State) (c : Nat) : State :=
  ((s.writeCheckpoint c (s.ctx c).dirty).chargeCheckpoint c).updCtx c fun y => { y with dirty := 0, dirtyAt := [], dirtySegs := [] }

/-- R325, R367: a context found vacant: its checkpoint is complete and the device clears EN. -/
def State.nowVacant (s : State) (x : EvCtx) : State × EvCtx :=
  if x.vacant.isSome || !s.vacantNow x then (s, x)
  else
    let b := if x.dec = .checkpoint then (s.ctx x.ctx).dirty else 0
    let s := if x.dec = .checkpoint then s.checkpoint x.ctx else s
    (s.updCtx x.ctx fun y => { y with en := false, vacating := false }, { x with bytes := b, vacant := some s.timeNs })

/-- Note the contexts that have become vacant. -/
def State.noteVacant (s : State) : List EvCtx → State × List EvCtx
  | [] => (s, [])
  | x :: r =>
    let t := s.nowVacant x
    let u := t.1.noteVacant r
    (u.1, t.2 :: u.2)

/-- R326: contexts that have become vacant are noted; once all are, the outcome records are written and the request ends. -/
def execEvictionOutcome (n : Nat) (s : State) : Res :=
  .next (match s.pkg.evicts[n]? with
    | none => s
    | some e =>
      let t := s.noteVacant e.ctxs
      if t.2.all (·.vacant.isSome) then
        let byCtx := (List.range 192).flatMap fun c => t.2.filter (·.ctx = c)
        let s := t.1.writeOutcomes e.out.toNat (byCtx.flatMap fun x => (List.range 4).map fun q => (x, q))
        s.updPkg fun p => { p with evicts := dropAt p.evicts n }
      else t.1.updPkg fun p => { p with evicts := updAt p.evicts n fun e => { e with ctxs := t.2 } })

end Sys2Proof.Machine
end

