-- ==== Sys2Proof/Machine/StreamEvents.lean ====
section
/-! DEFINITION. Events of streams, hand-off and swap (R327 to R353): rows STREAM_CREATE to NVME_TIMEOUT. -/

namespace Sys2Proof.Machine

/-! ## Requests (R329, R333, R380) -/

/-- R380: a request is answered with a status. -/
def State.answer (s : State) (ctx status : Nat) : State :=
  s.updCtx ctx fun x => { x with strStat := BitVec.ofNat 8 status, strBusy := false }

/-- R328: the descriptor of a stream in host memory. -/
def State.descriptor (s : State) (n : Nat) : List Word := (s.hostWords (s.pkg.mgmt.stab.toNat + 64 * n) 8).map (·.v)

/-- R328, R329: a well-formed descriptor. -/
def descriptorOk (d : List Word) : Bool :=
  let w := fun (i : Nat) => d.getD i 0
  zeroBits (w 0) 25 0 && zeroBits (w 1) 26 0 && fld (w 0) 31 29 ≤ 1 && 2 ≤ fld (w 0) 28 26 && fld (w 0) 28 26 ≤ 5
    && fld (w 1) 43 32 ≤ fld (w 1) 55 44
    && (w 3).toNat % 64 = 0 && (w 4).toNat % 64 = 0 && (w 5).toNat % 64 = 0 && (w 2).toNat % 32 = 0 && (w 2).toNat < 2 ^ 48

/-- A command of a port is executing for stream `n` (R337). -/
def State.cmdNames (s : State) (n : Nat) (c : Cmd) : Bool :=
  (match c.phase with | .wait | .acquire => false | _ => true)
    && match c.i with
      | .hoff _ p => p.stream.toNat = n
      | .hpull _ p => p.stream.toNat = n
      | .swout _ p | .swin _ p => s.direntNo p.dirent = some n
      | _ => false

/-- R329, R337: no launch, HOFF, HPULL, SWOUT or SWIN of the stream is outstanding, and the control word of every step has been read. -/
def State.streamIdle (s : State) (x : Stream) : Bool :=
  !x.running && x.steps.isEmpty && !s.streamLaunched x.n && x.pulls.isEmpty && x.outs.isEmpty
    && !(s.cell :: s.parked).any fun c => (c.ho.cmds ++ c.hub.cmds).any (s.cmdNames x.n)

/-- R337: dwords 0x40 to 0x58. -/
def Stream.record (x : Stream) (now : Nat) : List Word :=
  [ (BitVec.ofNat 4 x.state.code ++ BitVec.ofNat 8 x.cause ++ (0 : BitVec 52) : BitVec 64),
    ((0 : BitVec 1) ++ BitVec.ofNat 21 x.fswp ++ BitVec.ofNat 21 x.fsrc ++ BitVec.ofNat 21 x.fdst : BitVec 64),
    BitVec.ofNat 64 (x.disc % 2 ^ 21), BitVec.ofNat 64 now ]

/-- R342: a lost stream that is to be prefilled again re-enters QUEUED behind every stream already there, with a report; its next attempt
has freed nothing yet (log 43). -/
def State.restart (s : State) (x : Stream) : State :=
  let s := s.report ⟨0x06, x.cause, x.part, x.ctx, x.ctx, 6, 0, 7, BitVec.ofNat 64 s.timeNs, BitVec.ofNat 64 x.n,
    (x.record s.timeNs).getD 1 0⟩
  (s.putStream { x with
    state := .queued, attempts := x.attempts + 1, order := s.pkg.nextOrder, postPrefill := true, running := false
    steps := x.steps.map fun _ => false, fswp := 0, fsrc := x.blocks, fdst := 0, disc := 0
    own := List.replicate x.blocks 0xFF }).updPkg fun p => { p with nextOrder := p.nextOrder + 1 }

/-- R337, R342: a lost stream whose frees are complete is prefilled again; else, once nothing of an ended stream is outstanding, its record
is written. -/
def State.finishStream (s : State) (n : Nat) : State :=
  match s.findStream n with
  | none => s
  | some x =>
    if !x.state.over || x.recorded || x.ending then s
    else if x.state = .lost && x.recomp && x.attempts < 3 then s.restart x
    else if !s.streamIdle x then s
    else (s.hostPuts (x.framea + 0x40) (x.record s.timeNs)).updStream n fun y => { y with recorded := true, held := false }

/-- R329: the state that decides CREATE: the PRS's for a stream it keeps, else the descriptor's. Frees that have not reached every unit yet
are no command (log 43). -/
def State.createState (s : State) (n : Nat) (d : List Word) : Bool :=
  match s.findStream n with
  | some x => (x.state = .queued || x.state.over) && s.streamIdle x
  | none => [0, 6, 7, 8].contains (fld (d.getD 0 0) 63 60)

/-- R329, R333: a stream as an accepted CREATE makes it; no block has an owner yet, and all B count as freed by no DDIE (log 43). -/
def Stream.create (n order : Nat) (d : List Word) : Stream :=
  let x : Stream :=
    { n := n, d := d, state := .queued, cause := 0, attempts := 0, wmr := false, ackr := false, pkp := false, rsp := false
      swp := false, held := true, order := order, own := [], regs := [], pulls := [], outs := [], sent := [], unreleased := []
      swap := [], fswp := 0, fsrc := 0, fdst := 0, disc := 0, postStep := false, postPrefill := true, running := false
      ending := false, recorded := false, going := none, settled := 0, again := false, steps := [], stepAt := 0 }
  { x with own := List.replicate x.blocks 0xFF, fsrc := x.blocks }

/-- R329, R337: an ended stream that CREATE takes up again: what is left of its frees is done and its record written first. -/
def State.closeStream (s : State) (n : Nat) : State := (s.cancelAtD n).finishStream n

/-- R329: CREATE; a refused one changes nothing but its answer. In recovery there is none (R392). -/
def execStreamCreate (ctx n : Nat) (s : State) : Res :=
  let d := s.descriptor n
  .next (if 192 ≤ ctx || s.pkg.boot.phase ≠ .running then s
    else if 2 ^ 24 ≤ n || !descriptorOk d then s.answer ctx 1
    else if fld (d.getD 0 0) 43 36 ≠ ctx then s.answer ctx 2
    else if !s.createState n d then s.answer ctx 3
    else
      let s := s.closeStream n
      let x := Stream.create n s.pkg.nextOrder d
      let s := s.updPkg fun p => { p with streams := p.streams.filter (·.n ≠ n) ++ [x], nextOrder := p.nextOrder + 1 }
      (s.putDword0 x).answer ctx 0)

/-- R329, R333: PARK, RESUME and CANCEL act on a held stream in a state that accepts them; in recovery there are none (R392). -/
def State.request (s : State) (ctx n : Nat) (ok : StreamState → Bool) (ev : StreamEv) : State :=
  if 192 ≤ ctx || s.pkg.boot.phase ≠ .running then s
  else if 2 ^ 24 ≤ n then s.answer ctx 1
  else if s.streamCtx n ≠ ctx then s.answer ctx 2
  else
    match s.findStream n with
    | none => s.answer ctx 3
    | some x => if x.held && ok x.state then ((s.streamOn n ev).swoutGo).answer ctx 0 else s.answer ctx 3

/-- R333: PARK is accepted in DECODE. -/
def execStreamPark (ctx n : Nat) (s : State) : Res := .next (s.request ctx n (· = .decode) .park)

/-- R333: RESUME is accepted in PARKED. -/
def execStreamResume (ctx n : Nat) (s : State) : Res := .next (s.request ctx n (· = .parked) .resume)

/-- R333, R341: CANCEL is accepted unless the stream is over; its cause is 0x01. -/
def execStreamCancel (ctx n : Nat) (s : State) : Res := .next (s.request ctx n (fun st => !st.over) (.cancel 0x01))

/-! ## Decode steps (R331, R332) -/

/-- R331, R332, R334: after a decode step the PRS reads the control word, zeroes it, and acts on it: END before PARK. The step of an attempt
that was lost is only counted. -/
def execDecodeStepCompletion (n : Nat) (s : State) : Res :=
  .next (match s.findStream n with
    | none => s
    | some x =>
      match x.steps with
      | [] => s
      | mine :: rest =>
        let w := (s.hostWord x.framea).v
        let s := (s.hostPut x.framea 0).updStream n fun y => { y with steps := rest, running := y.running && !mine }
        if mine then (s.streamOn n (if w.getLsbD 0 then .end_ else if w.getLsbD 1 then .park else .step)).swoutGo else s)

/-! ## Hand-off (R336, R339, R340) -/

/-- R336. -/
def execBlockSend (n : Nat) (s : State) : Res := .next (s.sendBlock n)

/-- R336, R338. -/
def execBlockCommit (n : Nat) (s : State) : Res := .next ((s.commitBlock n).swoutGo)

/-- R336: a release changes no ownership and frees nothing. -/
def execBlockRelease (n : Nat) (s : State) : Res := .next (s.updStream n fun x => { x with unreleased := x.unreleased.drop 1 })

/-- R339. -/
def execCancelAtDestination (n : Nat) (s : State) : Res := .next (s.cancelAtD n)

/-- R340: 2 ms in thirds of a nanosecond. -/
def hpullBound : Nat := 6000000

/-- R340: HPULL `k` of stream `n` has seen no commit for 2 ms outside RESUMING: it fails with 0x1B and raises lost. -/
def execHpullTimeout (n k : Nat) (s : State) : Res :=
  .next (match s.findStream n with
    | none => s
    | some x =>
      match x.pulls[k]? with
      | none => s
      | some p =>
        if p.code.isSome || x.state = .resuming || s.pkg.time.t3 < p.since + hpullBound then s
        else
          (s.updStream n fun y => { y with pulls := updAt y.pulls k fun q => q.finish 0x1B }).streamOn n (.lost 0x03))

/-- R337, R342. -/
def execCompletionRecord (n : Nat) (s : State) : Res := .next (s.finishStream n)

/-! ## Swap (R350 to R353) -/

/-- R350, R351: the SWE goes on: writes that wait are begun, the next swapped block is read, and a word of a page moves. -/
def execSwapBlockRead (s : State) : Res := .next (s.swoutGo.readBlockGo.sweMove)

/-- R352, R353: NVMe command `k` completes, with zero status or not. -/
def execNvmeCompletion (k : Nat) (ok : Bool) (s : State) : Res := .next (s.nvEnd k ok)

/-- R353: 100 ms in thirds of a nanosecond. -/
def nvmeBound : Nat := 300000000

/-- R353: NVMe command `k` has not completed within 100 ms. -/
def execNvmeTimeout (k : Nat) (s : State) : Res :=
  .next (match s.pkg.nvme[k]? with
    | none => s
    | some c => if c.sub && c.since + nvmeBound ≤ s.pkg.time.t3 then s.nvEnd k false else s)

end Sys2Proof.Machine
end

