-- ==== Sys2Proof/Machine/Reliability.lean ====
section
/-! DEFINITION. Error reports, Chard, spares, retraining (R354 to R364): rows ERROR_REPORT_DELIVERY to BUS_RETRAIN. -/

namespace Sys2Proof.Machine

/-! ## Reports (R357, R359) -/

/-- R357. -/
def execErrorReportDelivery (die : Nat) (s : State) : Res := .next (s.deliver die)

/-- R359: a held report takes a free entry of its die's buffer. -/
def State.enterBuffer (s : State) (r : Report) : State :=
  s.updPkg fun p => { p with errs := updAt p.errs r.die fun b => { b with reps := b.reps ++ [r] } }

/-- R359: whether a held report finds an entry it may use. -/
def State.roomFor (s : State) (r : Report) : Bool := (s.pkg.errs.getD r.die ⟨[], 0, false⟩).hasRoom r

/-- R359: the first held report that finds an entry and overtakes none of its agent for the same queue. -/
def State.nextHeld (s : State) (l : List Report) : Option Nat :=
  l.zipIdx.findIdx? fun x => s.roomFor x.1 && !(l.take x.2).any fun y => y.agent = x.1.agent && y.dest = x.1.dest

/-- R359: the reports the agents of a cell hold are tried again, one a time. -/
def State.retryCell (s : State) (id : CellId) : State :=
  match s.findCell id with
  | none => s
  | some c =>
    match (s.nextHeld c.hold).bind fun n => c.hold[n]?.map fun r => (n, r) with
    | none => s
    | some (n, r) => (s.enterBuffer r).updCell id fun c => { c with hold := dropAt c.hold n }

/-- R359: the same for the package's own agents. -/
def State.retryPkg (s : State) : State :=
  match (s.nextHeld s.pkg.hold).bind fun n => s.pkg.hold[n]?.map fun r => (n, r) with
  | none => s
  | some (n, r) => (s.enterBuffer r).updPkg fun p => { p with hold := dropAt p.hold n }

/-- R359: every agent that holds a report retries. -/
def execReportRetry (s : State) : Res := .next (((allCells.foldl State.retryCell s).retryPkg).noteHeld)

/-! ## Die retirement (R363) -/

/-- R332, R336: a block of a stream is on its way from PDIE to DDIE. -/
def Stream.inFlight (x : Stream) : Bool :=
  let here := fun (b : Nat) => (x.regOf b).any fun r => r.modno = 0
  x.going.any (fun g => here g.1) || x.sent.any here

/-- R332, R351: a block of a stream moves between DDIE and the H-die. -/
def Stream.swapping (x : Stream) : Bool := x.swap.any fun b => b.stage = .gather || b.stage = .placing

/-- R332, R363: a die holds a block of a stream that has begun and is not over, or takes one that is on its way. -/
def Stream.touches (x : Stream) (d : Nat) : Bool :=
  !x.state.over && x.state ≠ .queued && (x.own.contains (BitVec.ofNat 8 d) || (x.ddie = d && (x.inFlight || x.swapping)))

/-- R363: the die is retired: partitions with a cell on it are reset with trigger 5, streams on it are lost. -/
def State.retireDie (s : State) (d : Nat) : State :=
  let s := s.updPkg fun p => { p with repair := { p.repair with
    retired := p.repair.retired ++ [d], replace := p.repair.replace.filter (·.die ≠ d) } }
  let s := (List.range 16).foldl (init := s) fun s i =>
    if (s.part i).en && (s.part i).cells.any (·.die = d) then s.partitionReset i .dieRetired 0 else s
  s.pkg.streams.foldl (init := s) fun s x => if x.touches d then s.streamOn x.n (.lost 0x04) else s

/-! ## Chard (R362) -/

/-- R362: 24 hours in thirds of a nanosecond. -/
def dayT : Nat := 86400 * 3 * 10 ^ 9

/-- The row of a detection as a number: structure, die, cell, and the row its address lies in, which the spec does not give (log 26). -/
def Detection.row (d : Detection) : Nat :=
  (match d.what with
    | .dramRow => 0 | .busGroup => 1 | .sramRow => 2 | .tileElement => 3 | .linkLane => 4 | .spadRow => 5 | .l1Line => 6) * 2 ^ 80
    + d.die * 2 ^ 76 + d.num * 2 ^ 64 + Config.rowOf d.addr % 2 ^ 64

/-- R362: errors counted on a row within 24 h, this one included. -/
def Repair.recent (r : Repair) (row now : Nat) : Nat := r.counts.countP fun e => e.1 = row && now < e.2 + dayT

/-- R362: whether a fault is lasting. -/
def State.lasting (s : State) (d : Detection) (fails : Bool) : Bool :=
  match d.what with
  | .dramRow | .sramRow | .spadRow | .l1Line => fails || 3 ≤ s.pkg.repair.recent d.row s.pkg.time.t3
  | _ => fails

/-- R358, R362: the outcome goes to the management queue; how INFO0 and INFO1 name structure, address and resource is not given
(log 44). -/
def State.chardReport (s : State) (outcome : Nat) : State :=
  let i := Config.freeWord s.free
  let j := Config.freeWord (s.free + 1)
  { s with free := s.free + 2 }.report ⟨0x08, outcome, 0, 255, 255, 6, 0, 7, BitVec.ofNat 64 s.timeNs, i, j⟩

/-- R356, R362: the context that an error found in a line at home is reported to: the one whose key its frame is bound to; a scratchpad
holds the data of the context its cell runs. -/
def State.ownerOf (s : State) (line : Nat) : Nat :=
  if keyLoc line = 0 then ((s.findCell ⟨keyUnit line / 64, keyUnit line % 64⟩).bind Cell.asCtx).getD 255
  else s.keyCtx ((s.mem.boundTo (keyLoc line) (keyUnit line) (keyAddr line / 65536)).getD 0)

/-- R362: whether the home of a word lies in the row of a detection. -/
def Detection.covers (d : Detection) (k : Nat) : Bool :=
  match homeFault (keyLoc k) (keyUnit k) (keyAddr k) false with
  | some e => e.row = d.row
  | none => false

/-- R118, R356, R362: the test of a row reads all of it: the errors that no access had met are found. -/
def State.march (s : State) (d : Detection) : State :=
  let s := (s.mem.badIn d.covers).foldl (init := s) fun s l => (s.foundError (s.ownerOf l) l d.die).updMem fun m => m.poisonLine l
  ((s.mem.badLines.filter fun x => (x.1.fault (keyAddr x.2)).row = d.row).foldl (init := s) fun s x =>
    let key := ((s.mem.lines.find? fun l => l.at_ = x.1 && l.line = x.2).map (·.key)).getD 0
    ((s.detected (x.1.fault (keyAddr x.2))).reportFound (s.keyCtx key) x.2 x.1.errCode d.die).updMem fun m => m.poisonLine x.2).updMem
    fun m => { m with badLines := m.badLines.filter fun x => (x.1.fault (keyAddr x.2)).row ≠ d.row }

/-- R362: whether a spare row, bank or lane is left; how many there are the spec does not say (log 26). -/
def State.spareLeft (s : State) : State × Bool := ({ s with free := s.free + 1 }, Config.freeBool s.free)

/-- R362: the 128-wire group of a bus: eight groups of 16 wires. -/
def wireGroup (d : Detection) : Nat := busGroup d.die d.addr / 8

/-- R362: whether one of the 4 spare wires of a 128-wire group is left. -/
def Repair.wireLeft (r : Repair) (d : Detection) : Bool := r.wires.countP (· = wireGroup d) < 4

/-- R363: a cell is replaced at its partition's next operator boundary; with no spare left, or for a structure of no cell, the die is
retired. -/
def State.replaceCell (s : State) (c : CellId) : State :=
  if Config.cellsOf c.die ≤ c.num || s.pkg.repair.spareCells.getD c.die 0 = 0 then s.retireDie c.die
  else s.updPkg fun p => { p with repair := { p.repair with replace := p.repair.replace ++ [c] } }

/-- R332, R363: the link between two dies carries a block of a stream: from PDIE to DDIE, or to and from the H-die when it is swapped. -/
def Stream.carriedBy (x : Stream) (a b : Nat) : Bool :=
  let on := fun (c d : Nat) => (a = c && b = d) || (a = d && b = c)
  !x.state.over && x.state ≠ .queued && ((on x.pdie x.ddie && x.inFlight) || (on 6 x.ddie && x.swapping))

/-- R363: a UCIe module is retired; with both modules of a link, the link is, and the streams it carries are lost. -/
def State.retireModule (s : State) (a b : Nat) : State :=
  let s := s.updPkg fun p => { p with repair := { p.repair with links := p.repair.links ++ [(a, b)] } }
  if s.pkg.repair.linkDown a b then
    s.pkg.streams.foldl (init := s) fun s x => if x.carriedBy a b then s.streamOn x.n (.lost 0x04) else s
  else s

/-- R362, R363: repair of a lasting fault: a spare row, bank, wire or lane; a spare cell at the next operator boundary when none of
those is left, or for a tile; the module's retirement for a link. -/
def State.repairFault (s : State) (d : Detection) : State :=
  match d.what with
  | .tileElement =>
    (s.chardReport (if s.pkg.repair.spareCells.getD d.die 0 = 0 then 3 else 2)).replaceCell ⟨d.die, d.num⟩
  | .linkLane =>
    match s.spareLeft with
    | (s, true) => s.chardReport 2
    | (s, false) => (s.chardReport 3).retireModule d.die d.num
  | .busGroup =>
    if s.pkg.repair.wireLeft d then
      (s.updPkg fun p => { p with repair := { p.repair with wires := p.repair.wires ++ [wireGroup d] } }).chardReport 2
    else (s.chardReport 3).replaceCell ⟨d.die, d.num⟩
  | _ =>
    match s.spareLeft with
    | (s, true) => s.chardReport 2
    | (s, false) => (s.chardReport 3).replaceCell ⟨d.die, d.num⟩

/-- The MS goes on after HALT (R157, R376). -/
def State.wakeMs (s : State) : State :=
  s.updCell ⟨6, 0⟩ fun c => if c.as.run = .halted then { c with as := { c.as with run := .running } } else c

/-- R362: a cell stands at an operator boundary: it runs no record, and the operator of its last one is over. -/
def State.cellAtBoundary (s : State) (id : CellId) : Bool :=
  match s.findCell id with
  | none => true
  | some c => c.recd.isNone && match c.lastOp with
    | none => true
    | some (l, o) => s.pkg.launches.all fun x => x.id ≠ l || x.op ≠ o || x.saved || x.atBoundary

/-- R362: a tile is tested at its cell's operator boundary, everything else at once. -/
def State.mayTest (s : State) (d : Detection) : Bool := d.what ≠ .tileElement || s.cellAtBoundary ⟨d.die, d.num⟩

/-- R362, R376: Chard tests the structure of detection `n`; `fails` is what the test finds. Its outcome wakes the MS. -/
def execChardTest (n : Nat) (fails : Bool) (s : State) : Res :=
  .next (match s.pkg.repair.waiting[n]? with
    | none => s
    | some d =>
      if !s.mayTest d then s
      else
        let s := s.updPkg fun p => { p with repair := { p.repair with
          waiting := dropAt p.repair.waiting n, counts := p.repair.counts ++ [(d.row, p.time.t3)] } }
        let s := (s.march d).wakeMs
        if s.lasting d fails then s.repairFault d else s.chardReport 1)

/-! ## Spares and retraining (R363, R364) -/

/-- R363: a cell due for replacement becomes a spare with its logical number; its column's contents are copied. -/
def execCellSpare (die num : Nat) (s : State) : Res :=
  let id : CellId := ⟨die, num⟩
  .next (if !s.pkg.repair.replace.contains id then s
    else if match s.cellPart id with | some p => !s.allStopped p | none => false then s
    else if s.pkg.repair.spareCells.getD die 0 = 0 then s.retireDie die
    else
      let s := s.updCell id fun c => { Cell.init id with fused := c.fused, gated := c.gated, hold := c.hold }
      (s.updMem fun m => m.clearSpads [id]).updPkg fun p => { p with repair := { p.repair with
        replace := p.repair.replace.filter (· ≠ id), spareCells := updAt p.repair.spareCells die fun n => n - 1 } })

/-- The bus of a column as a number. -/
def busNo (die col : Nat) : Nat := die * 64 + col

/-- R364: the parity errors of a bus's groups of 16 wires within the last millisecond. -/
def Repair.beats (r : Repair) (b now : Nat) : List Nat := (r.busErrors.filter fun e => e.1 / 2 ^ 32 = b && now < e.2 + msT).map (·.1)

/-- R364: a bus is due: 100 ms since its last retraining, or more than 8 parity errors of one group within 1 ms. -/
def State.busDue (s : State) (b : Nat) : Bool :=
  let r := s.pkg.repair
  let now := s.pkg.time.t3
  let last := ((r.retrained.filter (·.1 = b)).map (·.2)).foldl max 0
  last + 100 * msT ≤ now || (r.beats b now).any fun g => 8 < (r.beats b now).countP (· = g)

/-- R364: a vertical bus retrains; no transfer fails and no value changes. -/
def execBusRetrain (die col : Nat) (s : State) : Res :=
  .next (if col < Config.cellsOf die && s.busDue (busNo die col) then
      s.updPkg fun p => { p with repair := { p.repair with
        retrained := p.repair.retrained.filter (·.1 ≠ busNo die col) ++ [(busNo die col, p.time.t3)]
        busErrors := p.repair.busErrors.filter (·.1 / 2 ^ 32 ≠ busNo die col) } }
    else s)

end Sys2Proof.Machine
end

