-- ==== Sys2Proof/Machine/HeatPower.lean ====
section
/-! DEFINITION. Heat tokens, the power cap, static energy (R368 to R375): rows HEAT_TOKEN_REFILL to STATIC_ENERGY_CHARGE. -/

namespace Sys2Proof.Machine

/-! ## Heat (R368 to R371) -/

def State.updHeat (s : State) (f : CellId × HeatCol → CellId × HeatCol) : State :=
  s.updPkg fun p => { p with heat := p.heat.map f }

/-- R368: RF tokens are added to every column, up to CAPT. -/
def execHeatTokenRefill (s : State) : Res :=
  .next (s.updHeat fun h => (h.1, { h.2 with t := max h.2.t (min (h.2.t + h.2.rf) h.2.capt) }))

/-- R368: the MS sets RF and CAPT of every column; `rates` lists them in the order of the columns. -/
def execHeatRateUpdate (rates : List (Nat × Nat)) (s : State) : Res :=
  .next (s.updPkg fun p => { p with heat := p.heat.zipIdx.map fun h =>
    match rates[h.2]? with
    | some r => (h.1.1, { h.1.2 with rf := r.1, capt := r.2 })
    | none => h.1 })

/-- R369: the agents of a column resume once its tokens reach CAPT / 8. -/
def execHeatResume (col : Nat) (s : State) : Res :=
  .next (s.updPkg fun p => { p with heat := updAt p.heat col fun h =>
    if (h.2.capt : Int) ≤ 8 * h.2.t then (h.1, { h.2 with paused := false }) else h })

/-- R370: the neighbours of a column. -/
def neighbours (c : CellId) : List CellId :=
  let n := Config.cellsOf c.die
  (if 8 ≤ c.num then [⟨c.die, c.num - 8⟩] else []) ++ (if c.num + 8 < n then [⟨c.die, c.num + 8⟩] else [])
    ++ (if c.num % 8 ≠ 0 then [⟨c.die, c.num - 1⟩] else []) ++ (if c.num % 8 ≠ 7 && c.num + 1 < n then [⟨c.die, c.num + 1⟩] else [])

/-- R370: S_t(c). -/
def spentBy (heat : List (CellId × HeatCol)) (c : CellId) (t : Nat) : Nat :=
  match heat.find? (·.1 = c) with
  | some h => ((h.2.spent.find? (·.1 = t)).map (·.2)).getD 0
  | none => 0

/-- R370: four times h_t(c). -/
def heatIn (heat : List (CellId × HeatCol)) (c : CellId) (t : Nat) : Nat :=
  4 * spentBy heat c t + ((neighbours c).map fun n => spentBy heat n t).sum

/-- R370: the context with the largest heat input, the lowest number on a tie. -/
def hottest (heat : List (CellId × HeatCol)) (c : CellId) : Nat :=
  (List.range 192).foldl (fun b t => if heatIn heat c b < heatIn heat c t then t else b) 0

/-- R370: the pause cycles of column `c` charged to `t`. -/
def pauseShare (heat : List (CellId × HeatCol)) (c : CellId) (p t : Nat) : Nat :=
  let hs := (List.range 192).map (heatIn heat c)
  let sum := hs.sum
  if sum = 0 then 0
  else
    let own := p * heatIn heat c t / sum
    if t = hottest heat c then own + (p - (hs.map fun h => p * h / sum).sum) else own

/-- R371: a sum that saturates at 2^64 − 1. -/
def satAdd64 (a : Word) (n : Nat) : Word := if 2 ^ 64 ≤ a.toNat + n then BitVec.allOnes 64 else BitVec.ofNat 64 (a.toNat + n)

/-- R371: whether a context's agents were paused in a column in this window (log 45). -/
def HeatCol.stood (h : HeatCol) (t : Nat) : Bool := h.pausedFor.any fun e => e.1 = t && 0 < e.2

/-- R371: the heat account of one context at the end of a window. -/
def CtxSt.heatAccount (x : CtxSt) (heat : List (CellId × HeatCol)) (t : Nat) : CtxSt :=
  { x with
    spent := satAdd64 x.spent (heat.map fun h => spentBy heat h.1 t).sum
    paused := x.paused + BitVec.ofNat 64 (heat.map fun h => if h.2.stood t then h.2.pauseCycles else 0).sum
    charged := x.charged + BitVec.ofNat 64 (heat.map fun h => pauseShare heat h.1 h.2.pauseCycles t).sum }

/-- R370, R371: a window ends. -/
def execHeatWindowEnd (s : State) : Res :=
  let heat := s.pkg.heat
  .next ((s.updPkg fun p => { p with ctxs := p.ctxs.zipIdx.map fun x => x.1.heatAccount heat x.2 }).updHeat fun h =>
    (h.1, { h.2 with spent := [], pauseCycles := 0, pausedFor := [] }))

/-! ## Power (R373) -/

/-- R373: the next entry of the order that is not applied; 3 ends the order. -/
def PowerSt.nextEntry (p : PowerSt) : List Nat → Option Nat
  | [] => none
  | i :: r =>
    if (p.order.getD i Shed.init).step = 3 then none
    else if p.applied.contains i then p.nextEntry r else some i

/-- R373: the most recent slow or pause entry applied. -/
def PowerSt.lastMild (p : PowerSt) : Option Nat := p.applied.reverse.find? fun i => (p.order.getD i Shed.init).step < 2

def State.updPower (s : State) (f : PowerSt → PowerSt) : State := s.updPkg fun p => { p with power := f p.power }

/-- R322, R373: an evict entry posts an Almucantar request DLOFF µs ahead, answered as one from the host would be. -/
def State.shedEvict (s : State) (e : Shed) : State :=
  let w := fun (hi lo : Nat) => fld e.bw hi lo
  let d0 : Word := ((0 : BitVec 47) ++ BitVec.ofBool (e.ent.getLsbD 61) ++ (0 : BitVec 4) ++ e.ent.extractLsb' 49 12 : BitVec 64)
  let at_ := s.timeNs + 1000 * fld e.ent 40 25
  if s.evStatus d0 (BitVec.ofNat 64 at_) e.bw ≠ 0 then s
  else s.evict (e.ent.getLsbD 61) (fld e.ent 60 49) at_ [w 15 0, w 31 16, w 47 32] e.out

/-- R373: above the cap the next entry is applied; when none is left every partition is held at DUTY 127, with a report whose type
the spec does not give (log 46). -/
def State.shedNext (s : State) : State :=
  let now := s.pkg.time.t3
  match s.pkg.power.nextEntry (List.range 32) with
  | some i =>
    let s := s.updPower fun p => { p with applied := p.applied ++ [i], lastApply := some now, below := none }
    let e := s.pkg.power.order.getD i Shed.init
    if e.step = 2 then s.shedEvict e else s
  | none =>
    if s.pkg.power.allPaused then s
    else
      { s with free := s.free + 1 }.report ⟨Config.freeNat s.free, 0, 0, 255, 255, 6, 0, 7, BitVec.ofNat 64 s.timeNs, 0, 0⟩ |>.updPower
        fun p => { p with allPaused := true, lastApply := some now, below := none }

/-- R373: 10 ms below 0.95 CAPW withdraw the most recent slow or pause entry. -/
def State.withdraw (s : State) : State :=
  let now := s.pkg.time.t3
  match s.pkg.power.below with
  | none => s.updPower fun p => { p with below := some now }
  | some t =>
    if now < t + 10 * msT then s
    else if s.pkg.power.allPaused then s.updPower fun p => { p with allPaused := false, below := some now }
    else
      match s.pkg.power.lastMild with
      | none => s
      | some i => s.updPower fun p => { p with applied := p.applied.filter (· ≠ i), below := some now }

/-- R373: the MS compares the module's average input power with CAPW. -/
def execPowerCapEvaluation (watts : Nat) (s : State) : Res :=
  let p := s.pkg.power
  let cap := p.capw.toNat
  .next (if cap < watts then
      (match p.lastApply with
       | some t => if s.pkg.time.t3 < t + msT then s.updPower fun p => { p with below := none } else s.shedNext
       | none => s.shedNext)
    else if 100 * watts < 95 * cap then s.withdraw
    else s.updPower fun p => { p with below := none })

/-! ## Static energy (R374, R375) -/

/-- R375: a 500 ns boundary of TIME that has been reached is charged, once. -/
def execStaticEnergyCharge (s : State) : Res := .next s.staticTick

end Sys2Proof.Machine
end

