-- ==== Sys2Proof/Machine/HostRegs.lean ====
section
/-! DEFINITION. What the host and the MS do through registers, keys, gates, fusion, the fabric, time and start-up (R288, R291,
R365 to R367, R376 to R393): rows PARTITION_ENABLE to MODULE_RESET, and PORT_RETIREMENT. -/

namespace Sys2Proof.Machine

/-! ## Partitions (R365) -/

/-- R325, R365: a context is vacant in its partition: without launches, or with launches saved at operator boundaries only. -/
def State.ctxVacant (s : State) (c : Nat) : Bool :=
  s.vacantNow ⟨c, .idle, 0, 0, none⟩ || s.vacantNow ⟨c, .checkpoint, 0, 0, none⟩

/-- R365: wheel positions of a descriptor. -/
def PartSt.wheel (p : PartSt) : List Nat := (List.range p.wcnt).map fun i => (p.wbase + i) % 1024

/-- R365: two descriptors overlap in a cluster or in a wheel position. -/
def PartSt.overlaps (p q : PartSt) : Bool :=
  (p.cld &&& q.cld) ≠ 0 || (p.clp &&& q.clp) ≠ 0 || p.wheel.any q.wheel.contains

/-- R365: fields in range and addresses aligned. -/
def PartSt.fieldsOk (p : PartSt) : Bool :=
  100 ≤ p.slice && p.slice ≤ 10000 && p.wcnt ≤ 1024 && 10 ≤ p.rqlg && p.rqlg ≤ 20 && p.rqbase.toNat % 65536 = 0
    && p.save.toNat % 4096 = 0

/-- R365: the fields of dword 0. -/
def PartSt.set0 (p : PartSt) (v : Word) : PartSt :=
  { p with slice := fld v 45 32, wbase := fld v 25 16, wcnt := fld v 15 5, rqlg := fld v 4 0 }

/-- R365, R387, R392: whether a descriptor may be put in service. -/
def State.mayEnable (s : State) (i : Nat) (p : PartSt) : Bool :=
  s.pkg.time.set && s.pkg.boot.phase = .running && p.fieldsOk
    && (List.range 16).all fun j => j = i || !(s.part j).en || !p.overlaps (s.part j)

/-- R365: a write of dword 0 of descriptor `i`: fields while EN = 0; EN set or refused; EN cleared once every context is vacant. In recovery
nothing takes it (R392). -/
def execPartitionEnable (i : Nat) (d0 : Word) (s : State) : Res :=
  let p := s.part i
  .next (if 16 ≤ i || s.pkg.boot.phase ≠ .running then s
    else if p.en then
      if d0.getLsbD 63 || !((List.range 192).all fun c => (s.ctx c).part.toNat ≠ i || s.ctxVacant c) then s
      else s.settleStatics.updPart i fun p => { p with en := false, ctx := none }
    else if !d0.getLsbD 63 then s.updPart i fun p => p.set0 d0
    else if s.mayEnable i (p.set0 d0) then
      s.updPart i fun p => { p.set0 d0 with
        en := true, ctx := none, left := none, since := s.pkg.time.t3, owed := none, preempt := false, fifos := List.replicate 8 []
        lastEnum := List.replicate 8 false, served := List.replicate 8 0 }
    else s)

/-! ## Contexts (R367) -/

/-- R367: the fields of dword 0. -/
def CtxSt.set0 (x : CtxSt) (v : Word) : CtxSt :=
  { x with
    eprio := v.extractLsb' 60 3, ckdest := v.extractLsb' 58 2, keyid := v.extractLsb' 49 9, part := v.extractLsb' 45 4 }

/-- R367: fields in range, and the partition in service. -/
def State.mayAdmit (s : State) (x : CtxSt) : Bool :=
  x.ckdest ≠ 3 && x.keyid ≠ 0 && x.keyid.toNat ≤ 495 && (s.part x.part.toNat).en && x.eq.base.toNat % 64 = 0
    && x.eq.ctl.toNat % 64 = 0 && 4 ≤ x.eq.lg && x.eq.lg ≤ 16

/-- R367: a write of dword 0 of a context. -/
def execContextAdmit (ctx : Nat) (d0 : Word) (s : State) : Res :=
  let x := s.ctx ctx
  .next (if 192 ≤ ctx || s.pkg.boot.phase ≠ .running then s
    else if x.en then (if d0.getLsbD 63 then s else s.updCtx ctx fun x => { x with en := false })
    else if !d0.getLsbD 63 then s.updCtx ctx fun x => x.set0 d0
    else if s.mayAdmit (x.set0 d0) then s.updCtx ctx fun x => { x.set0 d0 with en := true, vacating := false }
    else s)

/-- R7, R279: a root as a register keeps it: its reserved bits stay zero. -/
def rootDword (v : Word) : Word := v &&& 0x800007000001FFFF

/-- R367: dwords 1 to 5 are written only while EN = 0. -/
def CtxSt.setCfg (x : CtxSt) (d : Nat) (v : Word) : CtxSt :=
  if x.en then x
  else
    match d with
    | 1 => { x with root := rootDword v }
    | 2 => { x with eq := { x.eq with base := v } }
    | 3 => { x with eq := { x.eq with ctl := v } }
    | 4 => { x with eq := { x.eq with lg := fld v 4 0 } }
    | 5 => { x with ckbase := v }
    | _ => x

/-! ## Writes to registers (R366, R380, R381) -/

/-- What an arm of these events leaves: the next state of a result. -/
def nextOr (s : State) : Res → State
  | .next t => t
  | _ => s

/-- R329, R380: a stream request. -/
def State.streq (s : State) (ctx : Nat) (v : Word) : State :=
  let n := fld v 23 0
  if (s.ctx ctx).strBusy then s
  else
    match fld v 63 60 with
    | 1 => nextOr s (execStreamCreate ctx n s)
    | 2 => nextOr s (execStreamPark ctx n s)
    | 3 => nextOr s (execStreamResume ctx n s)
    | 4 => nextOr s (execStreamCancel ctx n s)
    | _ => s.answer ctx 1

/-- R380: a write to command queue registers. -/
def State.cqWrite (s : State) (ctx q d : Nat) (v : Word) : State :=
  match d with
  | 0 => if (s.ctx ctx).en then s else s.updCq ctx q fun x => { x with base := v }
  | 1 => if (s.ctx ctx).en then s else s.updCq ctx q fun x => { x with lg := fld v 4 0 }
  | 2 => nextOr s (execCqtail ctx (BitVec.ofNat 2 q) (v.extractLsb' 0 32) s)
  | _ => s

/-- R380: a write to a virtual function's BAR0. -/
def State.vfWrite (s : State) (ctx o : Nat) (v : Word) : State :=
  if 192 ≤ ctx || s.pkg.boot.phase ≠ .running then s
  else if o = 0 then nextOr s (execContextAdmit ctx v s)
  else if o < 0x30 then s.updCtx ctx fun x => x.setCfg (o / 8) v
  else if 0x40 ≤ o && o < 0xC0 then s.cqWrite ctx ((o - 0x40) / 32) (o % 32 / 8) v
  else if o = 0xC0 then s.streq ctx v
  else if o = 0x120 then (if v.getLsbD 0 then nextOr s (execPreempt ctx s) else s)
  else if o = 0x128 then (if v.getLsbD 0 then nextOr s (execPreset ctx s) else s)
  else s

def State.updMgmt (s : State) (f : MgmtSt → MgmtSt) : State := s.updPkg fun p => { p with mgmt := f p.mgmt }

/-- R365: dwords 1 to 4 of a descriptor, while EN = 0. -/
def PartSt.setDword (p : PartSt) (d : Nat) (v : Word) : PartSt :=
  if p.en then p
  else
    match d with
    | 1 => { p with cld := v }
    | 2 => { p with clp := v.extractLsb' 0 24 }
    | 3 => { p with rqbase := v }
    | 4 => { p with save := v }
    | _ => p

/-- R374: a write to four weights from class `c` on; classes 14 and 15 stay zero. -/
def setWeights (l : List (BitVec 16)) (c : Nat) (v : Word) : List (BitVec 16) :=
  l.zipIdx.map fun x => if c ≤ x.2 && x.2 < c + 4 && x.2 < 14 then v.extractLsb' (16 * (x.2 - c)) 16 else x.1

/-- R366: a write to eight slot entries; one that names a partition in service stays as it was. -/
def State.setSlots (s : State) (o : Nat) (v : Word) : State :=
  (List.range 8).foldl (init := s) fun s i =>
    let b : Byte := v.extractLsb' (8 * i) 8 &&& 0x1F
    if b.getLsbD 4 && (s.part (b.toNat % 16)).en then s
    else s.updMgmt fun m => { m with slots := m.slots.filter (·.1 ≠ o + i) ++ (if b = 0 then [] else [(o + i, b)]) }

/-- R373: a dword of a shedding entry. -/
def Shed.setDword (e : Shed) (d : Nat) (v : Word) : Shed :=
  match d with
  | 0 => { e with ent := v &&& ~~~ (0x1FFFFFF : Word) }
  | 1 => { e with bw := v &&& 0xFFFFFFFFFFFF }
  | 2 => { e with out := v }
  | _ => e

/-- R7, R381: a dword of a shared key's backing: reserved bits stay zero. -/
def backDword (d : Nat) (v : Word) : Word :=
  match d with
  | 0 => v
  | 1 => v &&& 0x70FFFFFFFFF
  | 2 => v &&& 0xFFFFFFFF
  | _ => 0

/-- R7, R273, R274, R279: dword `d` of a segment entry as a register keeps it: its reserved bits stay zero. -/
def segDword (d : Nat) (v : Word) : Word :=
  match d with
  | 0 => v &&& ~~~ ((1 : Word) <<< 32)
  | 3 => rootDword v
  | _ => v

/-- R384: a dword of a window: fields other than EN only while EN = 0; reserved bits stay zero. -/
def Window.setDword (w : Window) (d : Nat) (v : Word) : Window :=
  let en := (w.d.getD 0 0).getLsbD 63
  if d = 0 then
    if en then ⟨updAt w.d 0 fun x => if v.getLsbD 63 then x else x &&& ~~~ ((1 : Word) <<< 63)⟩
    else ⟨updAt w.d 0 fun _ => v &&& 0x800F00FF0000FFFF⟩
  else if en || 4 < d then w
  else ⟨updAt w.d d fun _ => segDword (d - 1) v⟩

/-- R381: the management queue's configuration. -/
def EqSt.setDword (q : EqSt) (d : Nat) (v : Word) : EqSt :=
  match d with
  | 0 => { q with base := v }
  | 1 => { q with ctl := v }
  | 2 => { q with lg := fld v 4 0 }
  | _ => q

/-- R359: OVF is cleared by writing ones. -/
def ErrBuf.clearOvf (b : ErrBuf) (v : Word) : ErrBuf := { b with ovf := b.ovf &&& ~~~ v.extractLsb' 32 32 }

/-- R381, R392: a write to the mailbox's last dword: in recovery the image brought is verified, written to flash and the module is
reset; otherwise the MS wakes. -/
def execMailboxWrite (v : Word) (s : State) : Res :=
  let s := s.updMgmt fun m => { m with mailbox := updAt m.mailbox 7 fun _ => v }
  .next (if s.pkg.boot.phase = .recovery then
      match s.pkg.boot.staged with
      | some f =>
        let s := s.updPkg fun p => { p with boot := { p.boot with staged := none } }
        if f.verifies then (s.updPkg fun p => { p with boot := { p.boot with flash := f } }).moduleReset else s
      | none => s
    else s.wakeMs)

/-- R322, R381: a write to the request's dwords; dword 3 posts it. -/
def State.evWrite (s : State) (d : Nat) (v : Word) : State :=
  let e := s.pkg.mgmt.evict
  if d = 3 then nextOr s (execEvictionRequest (e.getD 0 0) (e.getD 1 0) (e.getD 2 0) v s)
  else s.updMgmt fun m => { m with evict := updAt m.evict d fun _ => v }

/-- R381: a write to the management interface; in recovery only the mailbox acts (R392). -/
def State.mgmtWrite (s : State) (o : Nat) (v : Word) : State :=
  if 0xC40 ≤ o && o < 0xC80 then
    if o = 0xC78 then nextOr s (execMailboxWrite v s)
    else s.updMgmt fun m => { m with mailbox := updAt m.mailbox ((o - 0xC40) / 8) fun _ => v }
  else if s.pkg.boot.phase ≠ .running then s
  else if o < 0x400 then
    if o % 64 = 0 then nextOr s (execPartitionEnable (o / 64) v s)
    else s.updPart (o / 64) fun p => p.setDword (o % 64 / 8) v
  else if o < 0x420 then s.evWrite ((o - 0x400) / 8) v
  else if o = 0x440 then s.updMgmt fun m => { m with stab := v }
  else if 0x480 ≤ o && o < 0x498 then s.updMgmt fun m => { m with eq := m.eq.setDword ((o - 0x480) / 8) v }
  else if o = 0x500 then s.updPower fun p => { p with capw := v }
  else if 0x600 ≤ o && o < 0x620 then s.updMgmt fun m => { m with weights := setWeights m.weights ((o - 0x600) / 2) v }
  else if 0x700 ≤ o && o < 0x738 then s.updPkg fun p => { p with errs := updAt p.errs ((o - 0x700) / 8) fun b => b.clearOvf v }
  else if 0x900 ≤ o && o < 0xB00 then
    s.updMgmt fun m => { m with backing := updAt m.backing ((o - 0x900) / 32) fun b => updAt b (o % 32 / 8) fun _ => backDword (o % 32 / 8) v }
  else if 0x1000 ≤ o && o < 0x1400 then
    s.updPower fun p => { p with order := updAt p.order ((o - 0x1000) / 32) fun e => e.setDword (o % 32 / 8) v }
  else if 0x4000 ≤ o && o < 0x5000 then
    s.updPkg fun p => { p with windows := updAt p.windows ((o - 0x4000) / 64) fun w => w.setDword (o % 64 / 8) v }
  else if 0x10000 ≤ o && o < 0x20000 then s.setSlots (o - 0x10000) v
  else s

/-- R367: a dword of a context's configuration. -/
def CtxSt.dword (x : CtxSt) (d : Nat) : Word :=
  match d with
  | 0 => (BitVec.ofBool x.en ++ x.eprio ++ x.ckdest ++ x.keyid ++ x.part ++ (0 : BitVec 45) : BitVec 64)
  | 1 => x.root
  | 2 => x.eq.base
  | 3 => x.eq.ctl
  | 4 => BitVec.ofNat 64 x.eq.lg
  | 5 => x.ckbase
  | _ => 0

/-- R380: what the host reads of a command queue's registers. -/
def CqSt.dword (q : CqSt) (d : Nat) : Word :=
  match d with
  | 0 => q.base
  | 1 => BitVec.ofNat 64 q.lg
  | 2 => q.tail.zeroExtend 64
  | _ => q.head.zeroExtend 64

/-- R371, R380: what the host reads at an 8-byte offset of a virtual function; write-only and absent registers read 0 (log 44). -/
def CtxSt.read (x : CtxSt) (o : Nat) : Word :=
  if o < 0x30 then x.dword (o / 8)
  else if 0x40 ≤ o && o < 0xC0 then (x.cqs[(o - 0x40) / 32]?).elim 0 fun q => q.dword (o % 32 / 8)
  else if o = 0xC8 then (BitVec.ofBool x.strBusy ++ (0 : BitVec 55) ++ x.strStat : BitVec 64)
  else if o = 0x100 then x.spent
  else if o = 0x108 then x.paused
  else if o = 0x110 then x.charged
  else 0

/-- R380, R381: a write to a register at an offset, taken as the 8-byte word that holds it. -/
def execRegisterWrite (sp : RegSpace) (off : Nat) (v : Word) (s : State) : Res :=
  .next (match sp with
    | .vf c => s.vfWrite c (off / 8 * 8) v
    | .mgmt => s.mgmtWrite (off / 8 * 8) v)

/-! ## Keys and measurements (R291, R292, R382, R391) -/

/-- R382: a key slot command reaches the security root only in the SPDM session, and not in recovery (R392); its result shows in the command
register. -/
def State.keyCommand (s : State) (ok : Bool) (f : State → State) : State :=
  if s.pkg.mgmt.session && s.pkg.boot.phase = .running then (if ok then f s else s).updMgmt fun m => { m with keyDone := some ok } else s

/-- R382: a fill of a slot that is not empty is refused. -/
def execKeySlotFill (k : Nat) (k1 k2 : BitVec 256) (s : State) : Res :=
  .next (s.keyCommand (k < 512 && !s.keyFilled k) fun s => s.updPkg fun p => { p with keys := p.keys ++ [⟨k, k1, k2⟩] })

/-- R292: the frames bound to a key. -/
def MemSt.framesOf (m : MemSt) (k : Nat) : List Binding := m.binds.filter (·.key = k)

/-- Whether a byte key lies in one of the frames. -/
def inFrames (l : List Binding) (a : Nat) : Bool := l.any fun b => a / 65536 = byteKey b.loc b.die (b.frame * 65536) / 65536

/-- R292: the frames of a discarded key are unbound; their cached lines and the writes to them are dropped. -/
def MemSt.discard (m : MemSt) (k : Nat) : MemSt :=
  let fs := m.framesOf k
  { m with
    binds := m.binds.filter (·.key ≠ k), writes := m.writes.filter fun w => !inFrames fs w.key
    lines := m.lines.filter fun l => !inFrames fs l.line, badLines := m.badLines.filter fun b => !inFrames fs b.2
    stale := m.stale.filter fun x => !inFrames fs x.key, alien := m.alien.filter fun x => !inFrames fs x.1 }

/-- R291: no translation under a discarded key is left. -/
def Cell.dropKey (c : Cell) (k : Nat) : Cell := c.tlbDrop fun e => leafKey e.leaf ≠ k

/-- R290: a block that stands under a key that is about to go, in a frame of another key, is kept as it will be read under that one. -/
def State.rekey (s : State) (k : Nat) : State :=
  (s.mem.alien.filter fun (x : Nat × Nat) => x.2 = k).foldl (init := s) fun s x =>
    let p : Place := ⟨keyLoc x.1, keyUnit x.1, keyAddr x.1, 0, 0, false⟩
    match s.mem.boundTo p.loc p.die (p.addr / 65536) with
    | some j => s.toKey { p with key := j }
    | none => s

/-- R292: the key in a slot is discarded. -/
def State.discardKey (s : State) (k : Nat) : State :=
  let s := s.rekey k
  let s := (s.updPkg fun p => { p with keys := p.keys.filter (·.k ≠ k) }).updMem fun m => m.discard k
  { s with cell := s.cell.dropKey k, parked := s.parked.map fun c => c.dropKey k }

/-- R292, R382: a slot is discarded at once. -/
def execKeySlotEmpty (k : Nat) (s : State) : Res := .next (s.keyCommand (s.keyFilled k) fun s => s.discardKey k)

/-- R391: the measurements, signed by the identity of this boot. -/
def execGetMeasurements (s : State) : Res :=
  .next (s.updPkg fun p => { p with boot := { p.boot with signed := Config.identitySign p.boot.measures } })

/-! ## The MS, clusters and fusion (R288, R376, R377) -/

/-- R157, R376: a wake event restarts a halted MS. -/
def execMsWake (_ev : WakeEvent) (s : State) : Res := .next s.wakeMs

/-- The cells of cluster `k` of a die. -/
def clusterCells (die k : Nat) : List CellId := ((List.range 4).map fun i => ⟨die, 4 * k + i⟩).filter allCells.contains

/-- Change every cell of a cluster. -/
def State.updCluster (s : State) (cs : List CellId) (f : Cell → Cell) : State := cs.foldl (fun s id => s.updCell id f) s

/-- R287, R288: a cluster's caches are clean: none of its cells has a write on its way. -/
def State.clusterClean (s : State) (cs : List CellId) : Bool := !s.mem.writes.any fun w => cs.contains w.cell

/-- R288, R377: L1 caches written back and invalidated. -/
def State.emptyL1 (s : State) (cs : List CellId) : State := s.dropLines fun l => cs.any fun c => l.at_ = .l1 c

/-- R377: a cluster of no enabled partition is gated once its L1 is written back. -/
def execClusterGate (die k : Nat) (s : State) : Res :=
  let cs := clusterCells die k
  .next (if cs.any (fun c => (s.cellPart c).isSome) || !s.clusterClean cs then s
    else (s.emptyL1 cs).updCluster cs fun c => { c with gated := true })

/-- R377: a gated cluster comes back with its scratchpad zero and its tiles as after ACZ. -/
def execClusterUngate (die k : Nat) (s : State) : Res :=
  let cs := (clusterCells die k).filter fun id => match s.findCell id with | some c => c.gated | none => false
  .next ((s.updCluster cs fun c => { Cell.init c.id with fused := c.fused, hold := c.hold }).updMem fun m => m.clearSpads cs)

/-- R288: an idle cluster writes back and invalidates its L1s and changes its fusion state. -/
def execFusionChange (die k : Nat) (s : State) : Res :=
  let cs := clusterCells die k
  let busy := cs.any fun id => match s.findCell id with | some c => c.recd.isSome | none => false
  .next (if busy || !s.clusterClean cs then s
    else (s.emptyL1 cs).updCluster cs fun c => { c with fused := !c.fused })

/-! ## The fabric (R384, R385) -/

def Window.en (w : Window) : Bool := (w.d.getD 0 0).getLsbD 63
def Window.part (w : Window) : Nat := fld (w.d.getD 0 0) 51 48
def Window.ctx (w : Window) : Nat := fld (w.d.getD 0 0) 39 32
def Window.src (w : Window) : BitVec 16 := (w.d.getD 0 0).extractLsb' 0 16
def Window.seg (w : Window) : SegEnt := ⟨w.d.getD 1 0, w.d.getD 2 0, w.d.getD 3 0, w.d.getD 4 0⟩

/-- R323, R384: the place of a word behind window `n`, when every check of R109 and R281 passes. Each window's segment counts as dirty on its
own. -/
def State.windowPlace (s : State) (n : Nat) (w : Window) (off : Nat) : State × Option Place :=
  let e := w.seg
  if !e.valid || (e.kind ≠ kLinear && e.kind ≠ kTensor) || off % 8 ≠ 0 || e.size < off + 8 || !e.permW then (s, none)
  else
    match s.xlate { s.prsCx w.ctx with who := ⟨pkgAgent, 7, some w.ctx, w.part⟩ } (65536 + n) e off true with
    | (s, .error _) => (s, none)
    | (s, .ok x) => (s, if x.w && !x.cmp then some x.place else none)

/-- R386: the blocks of the streams that run here for a context which a page that has arrived in a frame may be: unsent blocks of PDIE whose
DDIE the frame is on. -/
def State.arrivals (s : State) (ctx : Nat) (p : Place) : List (Nat × Nat) :=
  s.pkg.streams.flatMap fun x =>
    if x.held && x.sends && x.ctx = ctx && x.ddie = p.die then
      ((List.range x.blocks).filter fun b => x.own[b]? = some (BitVec.ofNat 8 x.pdie) && (x.regOf b).isNone).map fun b => (x.n, b)
    else []

/-- R386: a page of the tensor store has arrived whole, its last word at `p`: the PRS may take it as a block of a stream of its own, sent
and to be committed like any other. Whether it is one, and of which stream, lies with the module that sends it (log 39). -/
def State.blockArrives (s : State) (ctx : Nat) (p : Place) : State :=
  let t := { s with free := s.free + 1 }
  match (s.arrivals ctx p)[Config.freeNat s.free]? with
  | none => t
  | some (n, b) =>
    let f := p.addr / 65536
    t.updStream n fun x => { x with
      regs := x.regs ++ [⟨b, p.die, f, p.key, p.die, f, p.key, false, 1, 1, 1, 0, 0, 0⟩], sent := x.sent ++ [b] }

/-- R374, R375, R384: a word has arrived for a context: with each 64 bytes class 9, and a line or block at its place with its way there. -/
def State.chargeArrival (s : State) (ctx : Nat) (p : Place) : State :=
  let t := s.chargeFabric ctx (unitCol p) false
  if (s.ctx ctx).gotWords = 7 then t.chargeUnit (unitFor 0 (some ctx)) p else t

/-- R384, R386: a remote write of a word, `v` with its poison marker (R118), arrives through window `w` from module `src`; one that fails a check
writes nothing. -/
def execRemoteWrite (w : Nat) (src : BitVec 16) (off : Nat) (v : Word × Bool) (s : State) : Res :=
  .next (match s.pkg.windows[w]? with
    | none => s
    | some x =>
      if !x.en || (x.src ≠ 0 && x.src ≠ src) then s
      else
        match s.windowPlace w x off with
        | (t, none) => t
        | (t, some p) =>
          let t := (t.devPut p v.1 v.2).chargeArrival x.ctx p
          if p.loc = 2 && p.addr % 65536 = 65528 then t.blockArrives x.ctx p else t)

/-- R385: an RCOPY in flight completes with 0x1F when its path is gone. -/
def Cell.cutRcopy (c : Cell) (gone : PRcopy → Bool) : Cell :=
  { c with hub := { c.hub with cmds := c.hub.cmds.map fun x =>
    match x.i, x.phase with
    | .rcopy _ p, .run => if gone p then { x with phase := .release 0x1F x.unit, owes := false } else x
    | _, _ => x } }

/-- R385: the RCOPYs in flight of every cell whose module is no longer reached are cut, and those that `hit` says. -/
def State.cutRcopies (s : State) (hit : CellId → Bool) : State :=
  let cut := fun (c : Cell) => c.cutRcopy fun q => hit c.id || !s.reachable q.modno
  { s with cell := cut s.cell, parked := s.parked.map cut }

/-- R385: a port retires, or a module becomes unreachable; which commands in flight a port carries is not given (log 40). -/
def execPortRetirement (p : PathLoss) (s : State) : Res :=
  .next (match p with
    | .module m => (s.updPkg fun k => { k with unreachable := k.unreachable ++ [m] }).cutRcopies fun _ => false
    | .port n =>
      ({ s with free := s.free + 1024 }.updPkg fun k => { k with portsUp := updAt k.portsUp n fun _ => false }).cutRcopies
        fun c => Config.freeBool (s.free + 64 * c.die + c.num))

/-! ## Time and start-up (R387 to R393) -/

/-- An operation in flight whose times move with TIME. -/
def MOp.later (o : MOp) (f : Nat → Nat) : MOp := { o with since := f o.since, due := o.due.map f }

/-- R261, R286, R287: what has been under way for some time has been so for as long once TIME is set. -/
def State.shiftTimes (s : State) (f : Nat → Nat) : State :=
  let shift := fun (c : Cell) => { c with mops := c.mops.map fun o => o.later f }
  { s with
    cell := shift s.cell, parked := s.parked.map shift
    mem := { s.mem with
      writes := s.mem.writes.map fun w => { w with since := f w.since }
      wbacks := s.mem.wbacks.map fun w => { w with due := w.due.map f }
      stale := s.mem.stale.map fun x => { x with until_ := f x.until_ } } }

/-- R387: TIME is set to `t3` thirds of a nanosecond, with the next cycle. -/
def State.setTime (s : State) (t3 : Nat) : State :=
  let t := s.pkg.time
  (s.shiftTimes fun k => k + t3 - t.t3).updPkg fun p => { p with
    time := { t with t3 := t3, set := true, statics := t3 / 1500, clk := t.clk + 1 } }

/-- R387: TIME less the grandmaster's time, in nanoseconds. -/
def State.ptpOffset (s : State) (ns : Nat) : Int := s.timeNs - ns

/-- R388: what an exchange of delay requests and responses measures: the offset, where the register can hold it (log 47). -/
def State.ptpFits (s : State) (ns : Nat) (off : BitVec 32) : Bool :=
  let d := s.ptpOffset ns
  d < -(2 ^ 31) || 2 ^ 31 ≤ d || off.toInt = d

/-- R387: the outcome of a synchronisation is noted. -/
def TimeSt.sync (t : TimeSt) (off : BitVec 32) (near : Bool) : TimeSt :=
  let good := if near then t.good + 1 else 0
  { t with offset := off, good := good, locked := 16 ≤ good }

/-- R387, R388: with a synchronisation at grandmaster time `ns` TIME is set, if it is not; else the offset is measured, toward which TIME is
slewed (log 47). -/
def execPtpSync (ns : Nat) (off : BitVec 32) (s : State) : Res :=
  .next (if !s.pkg.time.set then (s.setTime (3 * ns)).updPkg fun p => { p with time := p.time.sync 0 true }
    else if s.ptpFits ns off then
      s.updPkg fun p => { p with time := p.time.sync off (-10 ≤ s.ptpOffset ns && s.ptpOffset ns ≤ 10) }
    else s)

/-- R387: 10 s in cycles. -/
def tenSeconds : Nat := 6000000000

/-- R387: no synchronisation has arrived 10 s after the MS started. -/
def execStandaloneTimeTimeout (s : State) : Res :=
  let t := s.pkg.time
  .next (if !t.set && s.pkg.boot.phase = .running && s.pkg.boot.msStart + tenSeconds ≤ t.clk then
      s.setTime 0
    else s)

/-- R390, R393. -/
def execPowerOn (s : State) : Res := .next s.powerOn

/-- R377, R393. -/
def execModuleReset (s : State) : Res := .next s.moduleReset

end Sys2Proof.Machine
end

