-- ==== Sys2Proof/Machine/MemEvents.lean ====
section
/-! DEFINITION. Events of a cell's memory operations, queues and translations: rows ES_FAULT_DELIVERY to FRONT_QUEUE_MOVE,
MEMORY_CHECK_COMPLETION, TLB_LOAD. -/

namespace Sys2Proof.Machine

/-! ## ES fault delivery (R43, R44, R155) -/

/-- R43: the AS runs at program level with an ES fault pending that it has not taken. -/
def Cell.esFaultDue (c : Cell) : Bool := c.as.run = .running && c.as.lvl = .program && c.as.sys.esPending && !c.as.delivered

/-- R135: a REP that the AS stands at is in progress, before its repetition 0. -/
def State.atPrefix (s : State) : State :=
  match s.core.rep, asInstr (s.fetchWord 0 s.cell.asbase s.cell.assize s.core.pc).2 with
  | none, some (.rep o) => s.setCore { s.core with rep := some (repStart o) }
  | _, _ => s

/-- R43, R152: the AS takes the pending ES fault as a trap before its next instruction issues. -/
def execEsFaultDelivery (s : State) : Res :=
  .next (if s.cell.esFaultDue && s.cell.snaps.isEmpty then
      (s.atPrefix.updAs fun a => { a with delivered := true }).takeTrap cEsFault 0
    else s)

/-! ## Operations that perform (R16, R113, R116, R117, R121, R140, R258) -/

/-- What operation `n` in flight does. -/
def Cell.opKind (c : Cell) (n : Nat) : Option MKind :=
  match c.mops[n]? with
  | some o => some o.kind
  | none => none

/-- R376, R381: operation `n` of the MS acts on the registers behind its window. -/
def State.performMgmt (s : State) (n : Nat) (o : MOp) (p : Place) : State :=
  let old := s.pkg.mgmtRead p.addr
  match o.kind with
  | .store v _ => (s.dropOp n).mgmtWrite p.addr v
  | .amo op v => ((s.dropOp n).arriveAt none o.seq ⟨old, false⟩).mgmtWrite p.addr (amoResult op old v)
  | .cas c v =>
    let s := (s.dropOp n).arriveAt none o.seq ⟨old, false⟩
    if old = c then s.mgmtWrite p.addr v else s
  | _ => s.perform n

/-- Operation `n` performs, if it may, on memory or on the MS's registers. -/
def State.performHere (s : State) (n : Nat) : State :=
  match s.cell.mops[n]? with
  | none => s
  | some o =>
    match o.place with
    | some p => if p.loc = locMgmt && s.mayPerform n then s.performMgmt n o p else s.perform n
    | none => s.perform n

/-- R16: the result of a load or atomic in flight arrives; operation `n` of the cell performs. -/
def execLoadArrival (n : Nat) (s : State) : Res :=
  .next (match s.cell.opKind n with
    | some (.load _) | some (.amo _ _) | some (.cas _ _) => s.performHere n
    | _ => s)

/-- R117, R258: a held store or write-back departs and performs at cell scope, or write `n` performs at the next wider scope. -/
def execWritePerform (held : Bool) (n : Nat) (s : State) : Res :=
  .next (if held then
      match s.cell.opKind n with
      | some (.store _ _) | some (.writeback _ _) => s.performHere n
      | _ => s
    else if s.mem.mayWiden n then s.updMem fun m => m.widen n else s)

/-- R140: the oldest held signal takes effect once every memory operation before it has performed. -/
def execHeldSignal (s : State) : Res :=
  .next (match s.cell.opKind 0 with
    | some (.signal _) => s.perform 0
    | _ => s)

/-- R121: the 64-byte line from a key on has a byte in the range of a write-back. -/
def Wback.has (w : Wback) (line : Nat) : Bool := w.lo < line + 64 && line < w.lo + w.len

/-- R121: a cell whose L1 the write-back's own cell shares. -/
def State.sharesL1 (s : State) (a b : CellId) : Bool :=
  match s.findCell a with
  | some c => if c.fused then sameUnit 1 a b else a = b
  | none => a = b

/-- R121: the caches a write-back writes back from: the L1 of its cell, and the cache of host lines of its die. -/
def State.wbackCache (s : State) (w : Wback) (h : Cache) : Bool :=
  match h with
  | .l1 c => s.sharesL1 w.cell c
  | .sram die => die = w.cell.die

/-- R121, R287: the lines reach their home: bypass readers see the new values; CINV drops the lines. -/
def State.writebackEnd (s : State) (n : Nat) (w : Wback) : State :=
  let sel := fun (l : CLine) => w.has l.line && s.wbackCache w l.at_
  let s := s.updMem fun m => { m with wbacks := dropAt m.wbacks n }
  if w.inv then s.dropLines sel else s.cleanLines sel

/-- R121: a write whose value the write-back carries, and which has not performed at its home yet. -/
def State.wbackOpen (s : State) (w : Wback) : Bool :=
  s.mem.writes.any fun x => w.has (x.key / 64 * 64) && (s.sharesL1 w.cell x.cell || x.cache = some (.sram w.cell.die))
    && (x.cell ≠ w.cell || x.seq < w.seq)

/-- R121: write-back `n` completes once the writes it carries have performed at their home. -/
def execWritebackComplete (n : Nat) (s : State) : Res :=
  .next (match s.mem.wbacks[n]? with
    | none => s
    | some w => if s.wbackOpen w then s else s.writebackEnd n w)

/-! ## WAITA_TIMEOUT (R143) -/

/-- The instruction the AS stands at. -/
def State.asHere (s : State) : Option Instr :=
  asInstr (match s.core.rep with
    | none => (s.fetchWord 0 s.cell.asbase s.cell.assize s.core.pc).2
    | some r => (s.fetchWord 0 s.cell.asbase s.cell.assize (s.core.pc + 4)).2.map fun w => stepAsWord w r)

/-- The instruction the ES stands at. -/
def State.esHere (s : State) : Option Instr :=
  esInstr (match s.cell.es.rep with
    | none => (s.fetchWord 1 s.cell.esbase s.cell.essize s.cell.es.pc).2
    | some r => (s.fetchWord 1 s.cell.esbase s.cell.essize (s.cell.es.pc + 4)).2.map fun w => stepEsWord w r)

/-- The WAITA the AS stands at. -/
def State.waitaHere (s : State) : Option OpWaita :=
  match s.asHere with
  | some (.waita o) => some o
  | _ => none

/-- R143: a WAITA that is waiting makes a pass of its loop: it ends false when its timeout has come and the word it reads is unequal. -/
def execWaitaTimeout (s : State) : Res :=
  match s.cell.as.wait, s.waitaHere with
  | some _, some o => if s.cell.as.run = .running then execWaita o s else .next s
  | _, _ => .next s

/-! ## FRONT_QUEUE_MOVE (R197) -/

/-- R197, R360. -/
def execFrontQueueMove (e : Eng) (s : State) : Res := .next (s.moveWord e)

/-! ## MEMORY_CHECK_COMPLETION (R40, R117) -/

/-- Drop from a queue the entries reserved by operations from `seq` on. -/
def dropReserved (l : List QEnt) (seq : Nat) : List QEnt := l.filter fun e => e.arrived || e.seq < seq

/-- R40, R150: the words that ENQs after operation `seq` appended leave a ring, the last first. -/
def State.takeBackRing (s : State) (seq : Nat) (e : Eng) : State :=
  match s.cell.ringSeg e with
  | none => s
  | some (base, size) =>
    let gone := (s.cell.eng e).marks.filter fun m => seq < m.seq
    (gone.foldr (fun m (s : State) => s.ringSet base size m.pos m.old m.oldPsn) s).updFocus fun c =>
      c.setEng e { c.eng e with wp := (c.eng e).wp - BitVec.ofNat 32 gone.length, marks := (c.eng e).marks.filter (·.seq ≤ seq) }

/-- R40, R150: the same for a port, whose credits come back. -/
def PortSt.takeBack (p : PortSt) (seq : Nat) : PortSt :=
  let n := p.marks.countP fun m => seq < m.seq
  { p with buf := p.buf.take (p.buf.length - n), credits := p.credits + n, marks := p.marks.filter (·.seq ≤ seq) }

/-- R40, R146: a record this cell FORKed after operation `seq`. -/
def Rec.forkedAfter (r : Rec) (c : CellId) (seq : Nat) : Bool := match r.hold with | some h => h.cell = c && seq < h.seq | none => false

/-- R40, R146: the records FORKed after operation `seq` leave their queues. -/
def State.takeBackForks (s : State) (seq : Nat) : State :=
  let part := s.recPart
  let gone := fun (r : Rec) => r.forkedAfter s.cell.id seq
  let n := (s.part part).fifos.flatten.countP gone
  if n = 0 then s
  else
    let s := s.updPart part fun p => { p with fifos := p.fifos.map fun l => l.filter fun r => !gone r }
    match s.cell.recd with
    | some r => (s.updLaunch r.launch fun l => { l with live := l.live - n }).placeSingles part
    | none => s

/-- R40: what belongs to the cell alone goes back to where the failing operation found it. -/
def Cell.takeBack (c : Cell) (y : Snap) : Cell :=
  { c with
    as := { c.as with
      core := y.core, wait := none, exitTested := false, latchP := y.latchP, latchK := y.latchK, latchM := y.latchM }
    mops := c.mops.filter (·.seq < y.seq)
    snaps := []
    qs := { c.qs with lq := y.lq, q := c.qs.q.map fun l => dropReserved l y.seq }
    ho := c.ho.takeBack y.seq, hub := c.hub.takeBack y.seq }

/-- R40: everything issued from the failing operation on is taken back. -/
def State.takeBack (s : State) (y : Snap) : State :=
  (([Eng.mx, .ce0, .ce1, .xe].foldl (fun (s : State) e => s.takeBackRing y.seq e) s).takeBackForks y.seq).updFocus fun c => c.takeBack y

/-- R117: the oldest unfinished checks finish: the operation may depart, or traps and every later instruction is discarded. What only
waited for them goes on (R146). -/
def execMemoryCheckCompletion (s : State) : Res :=
  .next (match s.cell.snaps with
    | [] => s
    | y :: rest =>
      match s.cell.mops.find? (·.seq = y.seq) with
      | none => (s.updFocus fun c => { c with snaps := rest }).writeBodies s.recPart
      | some o =>
        match s.asAccess (needOf o.kind) o.addr 0 with
        | (t, .ok p) =>
          (t.updFocus fun c => { c with
            snaps := rest
            mops := c.mops.map fun x => if x.seq = y.seq then { x with place := some p, since := t.pkg.time.t3 } else x }).writeBodies
            t.recPart
        | (t, .error z) => (t.takeBack y).takeTrap z o.addr)

/-! ## TLB_LOAD (R283, R284) -/

/-- R284: a TLB walks and loads a leaf of the running launch's segments; never one with UNS set or an unbound frame. -/
def execTlbLoad (who : TlbAgent) (seg : BitVec 6) (page : Nat) (s : State) : Res :=
  .next (match segAt s.cell.segs seg.toNat with
    | none => s
    | some e =>
      let off := max (page * 65536) e.base - e.base
      if s.cell.as.run ≠ .running || !e.pageable || e.size ≤ off || (e.base + off) / 65536 ≠ page || !s.prefetchOk seg.toNat e off
      then s
      else (s.walk (s.cx 0 who) seg.toNat e off false).1)

end Sys2Proof.Machine
end

