-- ==== Sys2Proof/Machine/Turns.lean ====
section
/-! DEFINITION. What an agent does in its turn (R15, R43, R78, R86, R91, R134, R194, R197, R225, R343, R359, R369, R373), what
arrives from outside (R119, R284, R355, R390, R392), and the passing of time (R37, R387, R389). Log 1. -/

namespace Sys2Proof.Machine

/-! ## Standing still (R359, R369, R373, R377) -/

/-- R369, R373, R377: the focused cell's agents are stopped as a whole. -/
def State.cellStopped (s : State) : Bool :=
  s.cell.gated || (s.cell.recd.isSome && s.partPause s.recPart)

/-- R144: when a WAITA that waits must have ended: 200 cycles after its timeout, and 200 after its word came to stand at the value. -/
def Cell.waitDeadlines (c : Cell) (timeSet : Bool) : List Nat :=
  match c.as.wait with
  | none => []
  | some y =>
    if c.as.run ≠ .running || c.holding 0 || c.gated then []
    else (if timeSet then (y.end_.map (3 * · + 1000)).toList else []) ++ (y.eq.map (· + 1000)).toList

/-- R144: such a time is at hand: no cycle may pass any more, whatever pauses (log 2). -/
def State.waitAtHand (s : State) : Bool := (s.cell.waitDeadlines s.pkg.time.set).any fun d => d < s.pkg.time.t3 + 5

/-- R359, R369: a sequencer issues nothing. -/
def State.seqStopped (s : State) (agent : Nat) : Bool :=
  s.cellStopped || s.heatPaused s.cell.id || s.cell.holding agent

/-- R225: the matrix engine goes on in the middle of a K group, or in a command that has none: between the groups it reads panels or
stands before the first row change of the next group. -/
def midGroup (x : EngSt) : Bool :=
  match x.cur with
  | none => false
  | some c => !(isMma c.i && c.phase = .run && (c.unit ≤ c.group / 12 || (c.row = 0 && c.sub = 0)))

/-- An engine completes nothing while it holds a report (R359). -/
def EngSt.atEnd (x : EngSt) : Bool :=
  match x.cur with
  | none => true
  | some c => match c.phase with | .release _ _ => true | _ => x.told

/-- R261, R286: an engine's command must be done with its unit, or with a dropped translation, in this cycle. -/
def State.engAtHand (s : State) (e : Eng) : Bool := (s.cell.eng e).cur.any s.cmdAtHand

/-- R225, R359, R369: an engine makes no move; a pause holds no command beyond its time (log 2). -/
def State.engStopped (s : State) (e : Eng) : Bool :=
  (if s.engAtHand e then s.cell.gated
    else s.cellStopped || (s.heatPaused s.cell.id && !(e = .mx && midGroup (s.cell.eng e))))
    || (s.cell.holding (engAgent e) && (s.cell.eng e).atEnd)

/-! ## The sequencers (R15, R78, R134) -/

/-- R86, R135: the repetition state of a prefix word that is illegal: a trap there finds k = 0. -/
def badPrefix (w : Word32) : Option RepSt :=
  if w.extractLsb' 26 6 = 0x3F then some ⟨(w.extractLsb' 20 6).toNat + 1, 0, w.extractLsb' 16 4, w.extractLsb' 12 4, w.extractLsb' 8 4⟩
  else none

/-- R79, R86, R135: a word that is no AS instruction traps, with the frame of a prefix where it is one. -/
def State.badAsWord (s : State) (w : Word32) : State :=
  match s.core.rep, badPrefix w with
  | none, some r => if s.cell.snaps.isEmpty then (s.setCore { s.core with rep := some r }).trap cIllegal (w.zeroExtend 64) else s
  | _, _ => s.trap cIllegal (w.zeroExtend 64)

/-- R43, R86, R135: the same for the ES. -/
def State.badEsWord (s : State) (w : Word32) : State :=
  match s.cell.es.rep, badPrefix w with
  | none, some r => (s.updEs fun e => { e with rep := some r }).esFault cIllegal (w.zeroExtend 64)
  | _, _ => s.esFault cIllegal (w.zeroExtend 64)

/-- R15, R78, R134, R136: the AS fetches the next instruction, or the word after a REP, checked against it and stepped for its
repetition. It fetches that word again for every repetition, which may see another word or trap then (log 54). A fetch or decode that fails
traps. -/
def State.asFetch (s : State) : State × Option Instr :=
  let pc := s.core.pc
  let a := match s.core.rep with | none => pc | some _ => pc + 4
  match s.fetchWord 0 s.cell.asbase s.cell.assize a with
  | (t, none) => (t.trap cFetch a, none)
  | (t, some w) =>
    match decodeAs w, s.core.rep with
    | .error _, _ => (t.badAsWord w, none)
    | .ok i, none => (t, some i)
    | .ok i, some r =>
      if !stepsOk r.op (gFields i) then (t.trap cIllegal (wordOf (.rep r.op)), none)
      else
        match decodeAs (stepAsWord w r) with
        | .ok j => (t, some j)
        | .error _ => (t.trap cIllegal ((stepAsWord w r).zeroExtend 64), none)

/-- The AS cannot move at all: it runs nothing, or is stopped; a pause holds no WAITA beyond its time (R144; log 2). -/
def State.asStopped (s : State) : Bool := s.cell.as.run ≠ .running || (s.seqStopped 0 && !s.waitAtHand)

/-- The AS's turn. -/
def State.asTurn (s : State) : State × Option Instr := if s.asStopped then (s, none) else s.asFetch

/-- R15, R78, R192: the ES fetches. -/
def State.esFetch (s : State) : State × Option Instr :=
  let pc := s.cell.es.pc
  let a := match s.cell.es.rep with | none => pc | some _ => pc + 4
  match s.fetchWord 1 s.cell.esbase s.cell.essize a with
  | (t, none) => (t.esFault cEsFetch a, none)
  | (t, some w) =>
    match decodeEs w, s.cell.es.rep with
    | .error _, _ => (t.badEsWord w, none)
    | .ok i, none => (t, some i)
    | .ok i, some r =>
      if !stepsOk r.op (vFields i) then (t.esFault cIllegal (wordOf (.erep r.op)), none)
      else
        match decodeEs (stepEsWord w r) with
        | .ok j => (t, some j)
        | .error _ => (t.esFault cIllegal ((stepEsWord w r).zeroExtend 64), none)

/-- R194: after EEXIT ticks pass until every write has landed. -/
def EsSt.drain (e : EsSt) : EsSt :=
  let e := e.endTick
  { e with run := if e.infl.isEmpty then .idle else .draining }

/-- The ES's turn. -/
def State.esTurn (s : State) : State × Option Instr :=
  match s.cell.es.run with
  | .idle | .halted => (s, none)
  | .draining => (s.updEs EsSt.drain, none)
  | .running => if s.seqStopped 1 then (s, none) else s.esFetch

/-! ## Engines and ports (R91, R197, R343) -/

/-- Whether the front queue holds a whole command. -/
def wholeCmd : List FWord → Bool
  | [] => false
  | h :: r => hdrLen h.w ≤ r.length

/-- An engine's turn: a move of its command, or the next command decoded, or a step word fetched. -/
def State.engTurn (s : State) (e : Eng) : State × Option Instr :=
  if s.engStopped e then (s, none)
  else
    match (s.cell.eng e).cur with
    | some c => (s, some c.i)
    | none => (if wholeCmd (s.cell.eng e).front then s.takeCmd e else s.moveWord e, none)

/-- R91, R343: a port may decode: a whole command, which if rejected waits for those before it. -/
def State.portMayTake (s : State) (hub : Bool) : Bool :=
  let p := s.cell.port hub
  match p.buf with
  | [] => false
  | h :: r => hdrLen h ≤ r.length && !s.portHeld p (hdrLen h) && ((s.portDecode hub h r).isSome || p.cmds.isEmpty)

/-- A port's turn: the next command decoded, or a move of the command that can make one. -/
def State.portTurn (s : State) (hub : Bool) : State × Option Instr :=
  let p := s.cell.port hub
  if s.cell.gated || (s.cell.holding portAgent && p.told) then (s, none)
  else if s.portMayTake hub then (s.portTake hub, none)
  else
    match (s.portPick p.cmds 0).bind fun n => p.cmds[n]? with
    | some c => (s, some c.i)
    | none => (s, none)

/-! ## Inputs (Host interface; log 1) -/

/-- R271: a host store, visible to the device at once. -/
def State.hostStore (s : State) (addr : Nat) (v : Word) : State := s.hostPut addr v

/-- R354: an error no read has met yet arises in a word; `b`: in its transfer (R355). -/
def MemSt.upset (m : MemSt) (k : Nat) (b : Bool) : MemSt :=
  { m with bad := insertN m.bad k, bus := if b then insertN m.bus k else m.bus }

/-- R71, R354: an element of a tile loses its parity. -/
def Cell.tileUpset (c : Cell) (t r j : Nat) : Cell :=
  { c with tiles := updAt c.tiles t fun x => { x with rows := updAt x.rows r fun y =>
    if (j < y.a.length) && !(y.bad.contains j) then { y with bad := y.bad ++ [j] } else y } }

/-- R284: entry `n` of the TLBs of a cell, counted from the AS's on, is dropped. -/
def Cell.tlbEvict (c : Cell) (n : Nat) : Cell :=
  let k0 := c.tlb.length
  let k1 := k0 + c.tlbMx.length
  let k2 := k1 + c.tlbCe0.length
  let k3 := k2 + c.tlbCe1.length
  if n < k0 then { c with tlb := dropAt c.tlb n }
  else if n < k1 then { c with tlbMx := dropAt c.tlbMx (n - k0) }
  else if n < k2 then { c with tlbCe0 := dropAt c.tlbCe0 (n - k1) }
  else if n < k3 then { c with tlbCe1 := dropAt c.tlbCe1 (n - k2) }
  else { c with tlbXe := dropAt c.tlbXe (n - k3) }

/-- R354: an error no access has met yet arises in the copy of a line in a cache. -/
def MemSt.lineUpset (m : MemSt) (n : Nat) : MemSt :=
  match m.lines[n]? with
  | none => m
  | some l => { m with badLines := m.badLines.filter (· ≠ (l.at_, l.line)) ++ [(l.at_, l.line)] }

/-- R119, R287: a line leaves its cache and reaches its home. -/
def State.lineEvict (s : State) (n : Nat) : State :=
  match s.mem.lines[n]? with
  | none => s
  | some l => s.dropLines fun x => x = l

/-- R390, R392: an image and manifest reach the module: through the mailbox in recovery, else into the flash. -/
def BootSt.bring (b : BootSt) (f : Flash) : BootSt :=
  if b.phase = .recovery then { b with staged := some f } else { b with flash := f }

/-- R352: the host creates the queue pair of a drive. -/
def Pkg.setNvq (p : Pkg) (drive depth : Nat) : Pkg :=
  { p with nvqs := p.nvqs.filter (·.drive ≠ drive) ++ [⟨drive, depth, 0, 0⟩] }

/-- What arrives from outside. -/
def State.input (s : State) (x : Input) : State :=
  match x with
  | .hostStore a v => s.hostStore a v
  | .cxlStore a v => s.updMem fun m => m.putNow (byteKey 4 0 (a / 8 * 8)) v 0xFF false
  | .upset loc unit addr => s.updMem fun m => m.upset (byteKey loc unit (addr / 8 * 8)) false
  | .lineUpset n => s.updMem fun m => m.lineUpset n
  | .busFault die addr => s.updMem fun m => m.upset (byteKey 2 die (addr / 8 * 8)) true
  | .tileUpset t r j => s.updFocus fun c => c.tileUpset t r j
  | .tlbEvict n => s.updFocus fun c => c.tlbEvict n
  | .lineEvict n => s.lineEvict n
  | .flashImage f => s.updPkg fun p => { p with boot := p.boot.bring f }
  | .volatileCache d v => s.updPkg fun p => { p with
      volatileDrives := if v then insertN p.volatileDrives d else eraseN p.volatileDrives d }
  | .nvQueue drive depth => s.updPkg fun p => p.setNvq drive depth
  | .corrected d => s.detected d
  | .beatError die addr => (s.noteBeats die addr 1).detected ⟨.busGroup, die, addr / Config.columnBytes die, addr⟩
  | .spdm up => s.updPkg fun p => { p with mgmt := { p.mgmt with session := up } }

/-! ## Time (R261, R286, R287, R319, R371, R375) -/

/-- R319: pauses count neither toward the hang trigger nor outside a running operator. -/
def State.launchPaused (s : State) (l : Launch) : Bool :=
  l.began.isSome && !l.saved && (s.partPause l.part || (s.cell :: s.parked).any fun c =>
    (match c.recd with | some r => r.launch = l.id | none => false) && s.heatPaused c.id)

/-- R371: the context whose record a cell runs. -/
def State.ctxAt (s : State) (c : CellId) : Option Nat :=
  (s.findCell c).bind fun x => if x.recd.isSome then x.asCtx else none

/-- R371: `n` pause cycles of a column, and whose agents stand in it. -/
def HeatCol.stand (h : HeatCol) (ctx : Option Nat) (n : Nat) : HeatCol :=
  { h with
    pauseCycles := h.pauseCycles + n
    pausedFor := match ctx with | some c => addFor h.pausedFor c n | none => h.pausedFor }

/-- `n` cycles pass: five thirds of a nanosecond each. -/
def State.advance (s : State) (n : Nat) : State :=
  s.updPkg fun p => { p with
    time := { p.time with t3 := p.time.t3 + 5 * n, clk := p.time.clk + n }
    launches := p.launches.map fun l => if s.launchPaused l then { l with paused := l.paused + 5 * n } else l
    heat := p.heat.map fun h => if h.2.paused then (h.1, h.2.stand (s.ctxAt h.1) n) else h }

/-- R287: a dirty line has reached its home by the end of its time. -/
def State.expireLines (s : State) : State :=
  let past := fun (x : Stale) => x.until_ ≤ s.pkg.time.t3
  if s.mem.stale.any past then
    s.cleanLines fun l => s.mem.stale.any fun x => past x && x.at_ = l.at_ && x.key / 64 * 64 = l.line
  else s

/-- R261, R286: when an operation in flight must have performed. -/
def MOp.deadlines (o : MOp) : List Nat :=
  o.due.toList ++ match o.kind with
    | .store _ _ | .amo _ _ | .cas _ _ => if o.place.isSome then [o.since + writeBound] else []
    | _ => []

/-- R144, R261, R286: what a cell must have done, by when. -/
def Cell.deadlines (c : Cell) (timeSet : Bool) : List Nat :=
  c.mops.flatMap MOp.deadlines ++ c.cmdsOf.flatMap Cmd.deadlines ++ c.waitDeadlines timeSet

/-- R124, R269: the SC operation the AS stands at: what it needs, its address, its class, whether it releases, and its guard. -/
def State.scAt (s : State) : Option (Need × GReg × Cls × Bool × Guard) :=
  match s.asHere with
  | some (.scld o) => some (needLinR, o.a, o.cls, false, o.pg)
  | some (.scst o) => some (needLinW, o.a, o.cls, true, o.pg)
  | some (.scamo o) => some (needLinRW, o.a, o.cls, true, o.pg)
  | _ => none

/-- R269: the AS of the focused cell stands at an SC operation that is able to issue. -/
def State.scAble (s : State) : Bool :=
  !(s.cell.as.run ≠ .running || s.seqStopped 0) && !s.cell.esFaultDue && !s.qFull .lq
    && match s.scAt with
       | none => false
       | some (n, a, cls, release, g) =>
         !(s.rp g.p).psn && guardHolds g (s.rp g.p).v && !(s.rg a).psn && s.scFree cls && (!release || s.seenAll)
           && match (s.asAccess n (s.rg a).v 0).2 with | .ok _ => true | .error _ => false

/-- R269: the cycles until the first position that the SC operation can take: this one no more, once the AS's place in this cycle has
passed. -/
def State.scIn (s : State) (w : Nat) : Nat :=
  let gone := s.cell.lastSc = some (s.pkg.time.t3 / 5) || (s.cell.cyc.clk = s.pkg.time.clk && (s.cell.cyc.as || 0 < s.cell.cyc.rank))
  (s.wheelOwned.map fun p => let n := (p + 1024 - w) % 1024; if n = 0 && gone then 1024 else n).foldl min 1024

/-- R269: when an SC operation that is able to issue takes its position. -/
def State.scDue (s : State) : Option Nat :=
  match s.wheelPos with
  | none => none
  | some w => if s.wheelOwned.isEmpty || !s.scAble then none else some (s.pkg.time.t3 + 5 * s.scIn w)

/-- R144, R261, R269, R286, R375: what must have happened, by when: writes performed, dropped translations done with, waits over, SC
operations issued, static charges made (log 2). -/
def State.deadlines (s : State) : List Nat :=
  s.mem.writes.map (·.since + writeBound) ++ s.mem.wbacks.filterMap (·.due) ++ (s.cell :: s.parked).flatMap (fun c => c.deadlines s.pkg.time.set)
    ++ (s.cell :: s.parked).filterMap (fun c => { s with cell := c }.scDue)
    ++ if s.pkg.time.set then [(s.pkg.time.statics + 2) * 1500 - 1] else []

/-- How many of `n` cycles may pass now. -/
def State.slack (s : State) (n : Nat) : Nat := s.deadlines.foldl (fun k d => min k ((d - s.pkg.time.t3) / 5)) n

/-- R144: whether the word a WAITA waits on stands at its value: the write that made it so is visible to the cell. -/
def State.waitEqual (s : State) (c : CellId) (p : Place) (v : Word) : Bool :=
  (if p.loc = locMgmt then ⟨s.pkg.mgmtRead p.addr, false⟩ else s.wordAs c p) = ⟨v, false⟩

/-- R144: a waiting WAITA notes since when its word has stood at the value. -/
def State.noteWait (s : State) (c : Cell) : Cell :=
  match c.as.wait with
  | none => c
  | some y =>
    let eq := y.word.bind fun x => if s.waitEqual c.id x.1 x.2 then some (y.eq.getD s.pkg.time.t3) else none
    { c with as := { c.as with wait := some { y with eq := eq } } }

/-- R144: the same for every cell, before a cycle passes. -/
def State.noteWaits (s : State) : State :=
  if (s.cell :: s.parked).any (·.as.wait.isSome) then { s with cell := s.noteWait s.cell, parked := s.parked.map s.noteWait } else s

/-- `dt` cycles pass at most, no deadline being missed. -/
def State.elapse (s : State) (dt : Nat) : State :=
  if s.slack dt = 0 then s else (s.advance (s.slack dt)).expireLines

/-- Cycles pass, `dt` at most. -/
def State.passTime (s : State) (dt : Nat) : State := if dt = 0 then s else s.noteWaits.elapse dt

/-! ## The order within a cycle (R24, R44, R112, R160, R217, R231, R258, R334; log 1) -/

/-- A move of the AS. -/
def Turn.isAs : Turn → Bool
  | .as | .event .esFaultDelivery | .event .waitaTimeout => true
  | _ => false

/-- R24: a wait on a semaphore comes after what the cycle's accesses do, a SEMDROP last. -/
def State.asRank (s : State) : Nat :=
  match s.asHere with
  | some (.semw _) => 16
  | some (.semdrop _) => 20
  | _ => 0
def State.esRank (s : State) : Nat :=
  match s.esHere with
  | some (.esemw _) => 17
  | _ => 1

/-- R24, R231: places of an engine. -/
def engRank : Eng → Nat
  | .mx => 2 | .ce0 => 4 | .ce1 => 5 | .xe => 6
def engWaitRank : Eng → Nat
  | .mx => 10 | .ce0 => 11 | .ce1 => 12 | .xe => 13
def State.rankOfEng (s : State) (e : Eng) : Nat :=
  match (s.cell.eng e).cur with
  | some c => if c.phase = .wait then engWaitRank e else engRank e
  | none => engRank e

/-- The command a port moves. -/
def State.portCmd (s : State) (hub : Bool) : Option Cmd :=
  (s.portPick (s.cell.port hub).cmds 0).bind fun n => (s.cell.port hub).cmds[n]?

/-- R24: place of a port. -/
def State.rankOfPort (s : State) (hub : Bool) : Nat :=
  let k := if hub then 8 else 7
  if s.portMayTake hub then k else if (s.portCmd hub).any (·.phase = .wait) then k + 7 else k

/-- The place of a turn in its cycle; none where the order does not matter. -/
def State.rank (s : State) (t : Turn) : Option Nat :=
  match t with
  | .as | .event .esFaultDelivery | .event .waitaTimeout => some s.asRank
  | .es => some s.esRank
  | .mx => some (s.rankOfEng .mx)
  | .ce0 => some (s.rankOfEng .ce0)
  | .ce1 => some (s.rankOfEng .ce1)
  | .xe => some (s.rankOfEng .xe)
  | .ho => some (s.rankOfPort false)
  | .hub => some (s.rankOfPort true)
  | .event (.frontQueueMove e) => some (engRank e)
  | .event .heldSignal => some 0
  | _ => none

/-- The cell's place in the present cycle. -/
def State.cyc (s : State) : Cyc := if s.cell.cyc.clk = s.pkg.time.clk then s.cell.cyc else ⟨s.pkg.time.clk, 0, false, false⟩

/-- R144, R261, R286, R375: a deadline of this cycle is open: no cycle may pass before it is met. -/
def State.held (s : State) : Bool := s.slack 1 = 0

/-- R269: the AS's SC operation takes this position. -/
def State.scAtHand (s : State) : Bool := s.scDue = some s.pkg.time.t3

/-- R144, R261, R269, R286: the turn of an agent that must be done with something in this cycle. -/
def State.dueTurn (s : State) (t : Turn) : Bool :=
  match t with
  | .as => s.waitAtHand || s.scAtHand
  | .event .waitaTimeout => s.waitAtHand
  | .mx => s.engAtHand .mx
  | .ce0 => s.engAtHand .ce0
  | .ce1 => s.engAtHand .ce1
  | .xe => s.engAtHand .xe
  | .hub => (s.portCmd true).any s.cmdAtHand
  | _ => false

/-- The agents of the focused cell that must be done with something in this cycle stand at a lower place than `r`. -/
def State.dueBefore (s : State) (r : Nat) : Bool :=
  [Turn.as, .mx, .ce0, .ce1, .xe, .hub].any fun t => s.dueTurn t && (s.rank t).any (· < r)

/-- What meets the deadlines of operations and writes: it stands at no place of the order. -/
def Turn.settles : Turn → Bool
  | .event .memoryCheckCompletion | .event (.loadArrival _) | .event (.writePerform _ _) | .event (.writebackComplete _)
  | .event .staticEnergyCharge => true
  | _ => false

/-- Whether a turn may still come at its place in this cycle: each sequencer moves once, nothing acts out of order, and a signal comes
before every wait. -/
def State.inPlace (s : State) (t : Turn) : Bool :=
  match s.rank t with
  | none => true
  | some r =>
    s.cyc.rank ≤ (match t with | .event .heldSignal => 9 | _ => r) && !(t.isAs && s.cyc.as)
      && !(match t with | .es => s.cyc.es | _ => false)

/-- The same, and nothing follows an event of a stream (R334). -/
def State.inOrder (s : State) (t : Turn) : Bool := s.pkg.prsAt ≠ some s.pkg.time.clk && s.inPlace t

/-- A turn may come now. In a cycle in which time is held nothing is done out of its order either: what meets a deadline comes, as often
as it takes, and no agent of its cell before whose place it stands; what has no place in the order waits (log 1). -/
def State.mayTurn (s : State) (t : Turn) : Bool :=
  if !s.held then s.inOrder t
  else if t.settles then true
  else match s.rank t with
    | none => false
    | some r => !s.dueBefore r && if s.dueTurn t then s.cyc.rank ≤ r else s.inOrder t

/-- The cell has come to the place of a turn. -/
def State.mark (s : State) (t : Turn) : State :=
  match s.rank t with
  | none => s
  | some r =>
    let y := s.cyc
    s.updFocus fun c => { c with cyc := ⟨y.clk, max y.rank r, y.as || t.isAs, y.es || (match t with | .es => true | _ => false)⟩ }

/-! ## The next move (log 1) -/

/-- The moves made in turn while the agenda is empty, a cycle passing at the first; each with the places it is meant for: what the
sequencers and engines do, then what waits, then SEMDROP (R24). -/
def rounds : List (Nat × Nat × Turn) :=
  [ (0, 0, .event .dispatch), (0, 9, .as), (0, 9, .es), (0, 9, .mx), (0, 9, .event (.frontQueueMove .mx)), (0, 9, .ce0)
  , (0, 9, .event (.frontQueueMove .ce0)), (0, 9, .ce1), (0, 9, .event (.frontQueueMove .ce1)), (0, 9, .xe)
  , (0, 9, .event (.frontQueueMove .xe)), (0, 9, .ho), (0, 9, .hub), (0, 9, .event .heldSignal) ]
  ++ [ (10, 19, .mx), (10, 19, .ce0), (10, 19, .ce1), (10, 19, .xe), (10, 19, .ho), (10, 19, .hub), (10, 19, .as), (10, 19, .es)
  , (20, 20, .as), (0, 0, .event .memoryCheckCompletion), (0, 0, .event (.loadArrival 0)), (0, 0, .event (.writePerform true 0))
  , (0, 0, .event (.writePerform false 0)), (0, 0, .event (.writebackComplete 0)), (0, 0, .event .staticEnergyCharge) ]

/-- A move of the round comes at its place. -/
def State.fits (s : State) (x : Nat × Nat × Turn) : Bool :=
  match s.rank x.2.2 with
  | none => true
  | some r => x.1 ≤ r && r ≤ x.2.1 && s.mayTurn x.2.2

/-- The next move of the round, or the first of the next one. -/
def State.nextRound (s : State) : Nat :=
  ((List.range (rounds.length - s.rr)).find? fun i => (rounds[s.rr + i]?).any s.fits).elim 0 fun i => s.rr + i

/-- With no agenda the agents of the focused cell and its memory move in turn, a cycle passing each round. -/
def State.defaultSlot (s : State) : Slot :=
  ⟨none, false, if s.nextRound = 0 then 1 else 0, ((rounds[s.nextRound]?).map (·.2.2)).getD .as⟩

/-- The next slot, and the state without it. -/
def State.nextSlot (s : State) : State × Slot :=
  match s.agenda with
  | x :: r => ({ s with agenda := r }, x)
  | [] => ({ s with rr := s.nextRound + 1 }, s.defaultSlot)

/-- Put another cell in focus; none when the module has no such cell. -/
def State.focus (s : State) (id : CellId) : Option State :=
  if s.cell.id = id then some s
  else
    match s.parked.find? (·.id = id) with
    | none => none
    | some c => some { s with cell := c, parked := s.parked.map fun (x : Cell) => if x.id = id then s.cell else x }

/-- A turn that cannot come any more in this cycle waits for the next. -/
def State.inTurn (s : State) (t : Turn) : State := if s.mayTurn t then s else s.passTime 1

/-- The state in which a slot's turn is taken; none when its cell does not exist. -/
def State.enterSlot (s : State) (x : Slot) : Option State :=
  (match x.cell with | none => some s | some id => s.focus id).map fun (s : State) =>
    ((s.passTime x.dt).inTurn x.turn).updFocus fun c => { c with late := x.late }

/-- R359: events of the units of the H-die that report: the PRS, the SWE, the Coelostats, and Chard. -/
def Instr.reports : Instr → Bool
  | .launchStart _ | .streamCreate _ _ | .streamPark _ _ | .streamResume _ _ | .streamCancel _ _ | .decodeStepCompletion _
  | .blockSend _ | .blockCommit _ | .blockRelease _ | .cancelAtDestination _ | .hpullTimeout _ _ | .completionRecord _
  | .swapBlockRead | .nvmeCompletion _ _ | .nvmeTimeout _ | .chardTest _ _ => true
  | _ => false

/-- R359: a unit of the H-die that holds a report is blocked; which bullet of the rule names it the spec does not say (log 44). -/
def State.unitHeld (s : State) (i : Instr) : Bool := Instr.reports i && !s.pkg.hold.isEmpty

/-- What a turn does: the instruction an agent has next, after what it does without one. -/
def State.turn (s : State) (t : Turn) : State × Option Instr :=
  match t with
  | .as => s.asTurn
  | .es => s.esTurn
  | .mx => s.engTurn .mx
  | .ce0 => s.engTurn .ce0
  | .ce1 => s.engTurn .ce1
  | .xe => s.engTurn .xe
  | .ho => s.portTurn false
  | .hub => s.portTurn true
  | .event i => (s, if s.unitHeld i || (t.isAs && s.asStopped) then none else some i)
  | .input x => (s.input x, none)

/-- Only events happen without a sequencer or engine that fetched them. -/
def turnOk : Turn → Bool
  | .event i => i.isEvent
  | _ => true

/-! ## Placing one instruction (log 6) -/

/-- A segment over the first 64 KiB of a die's SRAM, readable and executable, under key 0. -/
def probeSeg (die : Nat) : SegEnt :=
  ⟨(1 <<< 63) ||| (1 <<< 57) ||| (BitVec.ofNat 64 die <<< 54) ||| (1 <<< 53) ||| (1 <<< 51), 0, 65536, 0⟩

/-- The focused cell with its code in that segment, at the start of a cycle. -/
def Cell.probe (c : Cell) (es : Bool) : Cell :=
  { c with
    cyc := ⟨0, 0, false, false⟩
    segs := [probeSeg c.id.die], asbase := 0, assize := 4096, esbase := 0, essize := 4096
    as := if es then c.as else { c.as with run := .running, core := { c.as.core with pc := 0, rep := none } }
    es := if es then { c.es with run := .running, pc := 0, rep := none } else c.es }

/-- The word stored at the start of the die's SRAM, its frame bound to key 0. -/
def MemSt.placeWord (m : MemSt) (die : Nat) (w : Word32) : MemSt :=
  { (m.setBind 1 die 0 0) with
    mem := memPut m.mem (byteKey 1 die 0) (w.zeroExtend 64) 0x0F
    psn := eraseN m.psn (byteKey 1 die 0), bad := eraseN m.bad (byteKey 1 die 0), code := [] }

/-- R291: key slot 0 holds a key. -/
def Pkg.withKey0 (p : Pkg) : Pkg := { p with keys := if p.keys.any (·.k = 0) then p.keys else p.keys ++ [⟨0, 0, 0⟩], prsAt := none }

/-- A word placed for the sequencer that decodes it: the AS, or the ES where the AS does not. -/
def State.placeInstr (s : State) (w : Word32) : State :=
  let es := match decodeAs w with | .ok _ => false | .error _ => true
  { s with
    cell := s.cell.probe es
    mem := s.mem.placeWord s.cell.id.die w
    pkg := s.pkg.withKey0
    agenda := [⟨none, false, 0, if es then .es else .as⟩] }

end Sys2Proof.Machine
end

