-- ==== Sys2Proof/Machine/Dispatch.lean ====
section
/-! DEFINITION. The meaning of every instruction, arm by arm. -/

namespace Sys2Proof.Machine

def exec (i : Instr) (s : State) : Host.Outcome State Fault Refusal :=
  match i with
  | .add o => Sys2Proof.Machine.execAdd o s
  | .sub o => Sys2Proof.Machine.execSub o s
  | .and o => Sys2Proof.Machine.execAnd o s
  | .or o => Sys2Proof.Machine.execOr o s
  | .xor o => Sys2Proof.Machine.execXor o s
  | .andn o => Sys2Proof.Machine.execAndn o s
  | .shl o => Sys2Proof.Machine.execShl o s
  | .shr o => Sys2Proof.Machine.execShr o s
  | .sar o => Sys2Proof.Machine.execSar o s
  | .min o => Sys2Proof.Machine.execMin o s
  | .max o => Sys2Proof.Machine.execMax o s
  | .minn o => Sys2Proof.Machine.execMinn o s
  | .maxn o => Sys2Proof.Machine.execMaxn o s
  | .clz o => Sys2Proof.Machine.execClz o s
  | .popc o => Sys2Proof.Machine.execPopc o s
  | .mul o => Sys2Proof.Machine.execMul o s
  | .mulh o => Sys2Proof.Machine.execMulh o s
  | .mulhn o => Sys2Proof.Machine.execMulhn o s
  | .div o => Sys2Proof.Machine.execDiv o s
  | .divn o => Sys2Proof.Machine.execDivn o s
  | .rem o => Sys2Proof.Machine.execRem o s
  | .remn o => Sys2Proof.Machine.execRemn o s
  | .sel o => Sys2Proof.Machine.execSel o s
  | .addi o => Sys2Proof.Machine.execAddi o s
  | .andi o => Sys2Proof.Machine.execAndi o s
  | .ori o => Sys2Proof.Machine.execOri o s
  | .xori o => Sys2Proof.Machine.execXori o s
  | .shli o => Sys2Proof.Machine.execShli o s
  | .shri o => Sys2Proof.Machine.execShri o s
  | .sari o => Sys2Proof.Machine.execSari o s
  | .ldi o => Sys2Proof.Machine.execLdi o s
  | .ldih1 o => Sys2Proof.Machine.execLdih1 o s
  | .ldih2 o => Sys2Proof.Machine.execLdih2 o s
  | .ldih3 o => Sys2Proof.Machine.execLdih3 o s
  | .bext o => Sys2Proof.Machine.execBext o s
  | .bins o => Sys2Proof.Machine.execBins o s
  | .cmp o => Sys2Proof.Machine.execCmp o s
  | .cmpi o => Sys2Proof.Machine.execCmpi o s
  | .pand o => Sys2Proof.Machine.execPand o s
  | .por o => Sys2Proof.Machine.execPor o s
  | .pxor o => Sys2Proof.Machine.execPxor o s
  | .sega o => Sys2Proof.Machine.execSega o s
  | .adr2 o => Sys2Proof.Machine.execAdr2 o s
  | .srr o => Sys2Proof.Machine.execSrr o s
  | .srw o => Sys2Proof.Machine.execSrw o s
  | .rett o => Sys2Proof.Machine.execRett o s
  | .halt o => Sys2Proof.Machine.execHalt o s
  | .lds o => Sys2Proof.Machine.execLds o s
  | .sts o => Sys2Proof.Machine.execSts o s
  | .ldq o => Sys2Proof.Machine.execLdq o s
  | .ldx o => Sys2Proof.Machine.execLdx o s
  | .st o => Sys2Proof.Machine.execSt o s
  | .stq o => Sys2Proof.Machine.execStq o s
  | .pf o => Sys2Proof.Machine.execPf o s
  | .cwb o => Sys2Proof.Machine.execCwb o s
  | .cinv o => Sys2Proof.Machine.execCinv o s
  | .chk o => Sys2Proof.Machine.execChk o s
  | .chkPred o => Sys2Proof.Machine.execChkPred o s
  | .tlbi o => Sys2Proof.Machine.execTlbi o s
  | .amo o => Sys2Proof.Machine.execAmo o s
  | .cas o => Sys2Proof.Machine.execCas o s
  | .scld o => Sys2Proof.Machine.execScld o s
  | .scst o => Sys2Proof.Machine.execScst o s
  | .scamo o => Sys2Proof.Machine.execScamo o s
  | .fence o => Sys2Proof.Machine.execFence o s
  | .trap o => Sys2Proof.Machine.execTrap o s
  | .fork o => Sys2Proof.Machine.execFork o s
  | .join o => Sys2Proof.Machine.execJoin o s
  | .exit o => Sys2Proof.Machine.execExit o s
  | .enq o => Sys2Proof.Machine.execEnq o s
  | .enqs o => Sys2Proof.Machine.execEnqs o s
  | .estart o => Sys2Proof.Machine.execEstart o s
  | .pbr o => Sys2Proof.Machine.execPbr o s
  | .pbrReg o => Sys2Proof.Machine.execPbrReg o s
  | .br o => Sys2Proof.Machine.execBr o s
  | .brq o => Sys2Proof.Machine.execBrq o s
  | .bqp o => Sys2Proof.Machine.execBqp o s
  | .call o => Sys2Proof.Machine.execCall o s
  | .ret o => Sys2Proof.Machine.execRet o s
  | .loop o => Sys2Proof.Machine.execLoop o s
  | .nop o => Sys2Proof.Machine.execNop o s
  | .pop o => Sys2Proof.Machine.execPop o s
  | .qpush o => Sys2Proof.Machine.execQpush o s
  | .qstat o => Sys2Proof.Machine.execQstat o s
  | .sems o => Sys2Proof.Machine.execSems o s
  | .semw o => Sys2Proof.Machine.execSemw o s
  | .semdrop o => Sys2Proof.Machine.execSemdrop o s
  | .semrd o => Sys2Proof.Machine.execSemrd o s
  | .waita o => Sys2Proof.Machine.execWaita o s
  | .waitt o => Sys2Proof.Machine.execWaitt o s
  | .ldqAcq o => Sys2Proof.Machine.execLdqAcq o s
  | .stRel o => Sys2Proof.Machine.execStRel o s
  | .rep o => Sys2Proof.Machine.execRep o s
  | .setsh o => Sys2Proof.Machine.execSetsh o s
  | .setshQ o => Sys2Proof.Machine.execSetshQ o s
  | .vld o => Sys2Proof.Machine.execVld o s
  | .vst o => Sys2Proof.Machine.execVst o s
  | .vldq o => Sys2Proof.Machine.execVldq o s
  | .vsty o => Sys2Proof.Machine.execVsty o s
  | .vbc o => Sys2Proof.Machine.execVbc o s
  | .epbr o => Sys2Proof.Machine.execEpbr o s
  | .ebr o => Sys2Proof.Machine.execEbr o s
  | .ebrq o => Sys2Proof.Machine.execEbrq o s
  | .ebqp o => Sys2Proof.Machine.execEbqp o s
  | .esemw o => Sys2Proof.Machine.execEsemw o s
  | .esems o => Sys2Proof.Machine.execEsems o s
  | .eexit => Sys2Proof.Machine.execEexit s
  | .vadd o => Sys2Proof.Machine.execVadd o s
  | .vsub o => Sys2Proof.Machine.execVsub o s
  | .vmul o => Sys2Proof.Machine.execVmul o s
  | .vfma o => Sys2Proof.Machine.execVfma o s
  | .vfms o => Sys2Proof.Machine.execVfms o s
  | .vmin o => Sys2Proof.Machine.execVmin o s
  | .vmax o => Sys2Proof.Machine.execVmax o s
  | .vabs o => Sys2Proof.Machine.execVabs o s
  | .vneg o => Sys2Proof.Machine.execVneg o s
  | .vrcp o => Sys2Proof.Machine.execVrcp o s
  | .vrsq o => Sys2Proof.Machine.execVrsq o s
  | .vexp2 o => Sys2Proof.Machine.execVexp2 o s
  | .vlog2 o => Sys2Proof.Machine.execVlog2 o s
  | .vcvt o => Sys2Proof.Machine.execVcvt o s
  | .vqb o => Sys2Proof.Machine.execVqb o s
  | .vdqb o => Sys2Proof.Machine.execVdqb o s
  | .vand o => Sys2Proof.Machine.execVand o s
  | .vor o => Sys2Proof.Machine.execVor o s
  | .vxor o => Sys2Proof.Machine.execVxor o s
  | .vshl o => Sys2Proof.Machine.execVshl o s
  | .vshlImm o => Sys2Proof.Machine.execVshlImm o s
  | .vshr o => Sys2Proof.Machine.execVshr o s
  | .vshrImm o => Sys2Proof.Machine.execVshrImm o s
  | .vsar o => Sys2Proof.Machine.execVsar o s
  | .vsarImm o => Sys2Proof.Machine.execVsarImm o s
  | .viota o => Sys2Proof.Machine.execViota o s
  | .vsel o => Sys2Proof.Machine.execVsel o s
  | .vcmp o => Sys2Proof.Machine.execVcmp o s
  | .mand o => Sys2Proof.Machine.execMand o s
  | .mor o => Sys2Proof.Machine.execMor o s
  | .mxor o => Sys2Proof.Machine.execMxor o s
  | .mnot o => Sys2Proof.Machine.execMnot o s
  | .mpop o => Sys2Proof.Machine.execMpop o s
  | .vrsum o => Sys2Proof.Machine.execVrsum o s
  | .vrmax o => Sys2Proof.Machine.execVrmax o s
  | .vrmin o => Sys2Proof.Machine.execVrmin o s
  | .vrmaxi o => Sys2Proof.Machine.execVrmaxi o s
  | .vrmini o => Sys2Proof.Machine.execVrmini o s
  | .vperm o => Sys2Proof.Machine.execVperm o s
  | .vslide o => Sys2Proof.Machine.execVslide o s
  | .vgath o => Sys2Proof.Machine.execVgath o s
  | .vrng o => Sys2Proof.Machine.execVrng o s
  | .acrd o => Sys2Proof.Machine.execAcrd o s
  | .acwr o => Sys2Proof.Machine.execAcwr o s
  | .acsc o => Sys2Proof.Machine.execAcsc o s
  | .acz o => Sys2Proof.Machine.execAcz o s
  | .aczTile o => Sys2Proof.Machine.execAczTile o s
  | .acst o => Sys2Proof.Machine.execAcst o s
  | .erep o => Sys2Proof.Machine.execErep o s
  | .mhdr h p => Sys2Proof.Machine.execMhdr h p s
  | .mopa h p => Sys2Proof.Machine.execMopa h p s
  | .mopb h p => Sys2Proof.Machine.execMopb h p s
  | .mma h p => Sys2Proof.Machine.execMma h p s
  | .mmaz h p => Sys2Proof.Machine.execMmaz h p s
  | .mwb h p => Sys2Proof.Machine.execMwb h p s
  | .mrn h p => Sys2Proof.Machine.execMrn h p s
  | .mclr h p => Sys2Proof.Machine.execMclr h p s
  | .mthr h p => Sys2Proof.Machine.execMthr h p s
  | .copy ce h p => Sys2Proof.Machine.execCopy ce h p s
  | .copyn ce h p => Sys2Proof.Machine.execCopyn ce h p s
  | .gath ce h p => Sys2Proof.Machine.execGath ce h p s
  | .scat ce h p => Sys2Proof.Machine.execScat ce h p s
  | .fill ce h p => Sys2Proof.Machine.execFill ce h p s
  | .flagw ce h p => Sys2Proof.Machine.execFlagw ce h p s
  | .cmpr ce h p => Sys2Proof.Machine.execCmpr ce h p s
  | .expn ce h p => Sys2Proof.Machine.execExpn ce h p s
  | .unfold h p => Sys2Proof.Machine.execUnfold h p s
  | .xpose h p => Sys2Proof.Machine.execXpose h p s
  | .relay h p => Sys2Proof.Machine.execRelay h p s
  | .hoff h p => Sys2Proof.Machine.execHoff h p s
  | .hpull h p => Sys2Proof.Machine.execHpull h p s
  | .hcancel h p => Sys2Proof.Machine.execHcancel h p s
  | .swout h p => Sys2Proof.Machine.execSwout h p s
  | .swin h p => Sys2Proof.Machine.execSwin h p s
  | .rcopy h p => Sys2Proof.Machine.execRcopy h p s
  | .esFaultDelivery => Sys2Proof.Machine.execEsFaultDelivery s
  | .loadArrival n => Sys2Proof.Machine.execLoadArrival n s
  | .writePerform held n => Sys2Proof.Machine.execWritePerform held n s
  | .heldSignal => Sys2Proof.Machine.execHeldSignal s
  | .writebackComplete n => Sys2Proof.Machine.execWritebackComplete n s
  | .waitaTimeout => Sys2Proof.Machine.execWaitaTimeout s
  | .frontQueueMove e => Sys2Proof.Machine.execFrontQueueMove e s
  | .dispatch => Sys2Proof.Machine.execDispatch s
  | .cqtail ctx q tail => Sys2Proof.Machine.execCqtail ctx q tail s
  | .launchStart src => Sys2Proof.Machine.execLaunchStart src s
  | .fenceEntryComplete ctx q => Sys2Proof.Machine.execFenceEntryComplete ctx q s
  | .recordAging part level => Sys2Proof.Machine.execRecordAging part level s
  | .sliceExpiry part => Sys2Proof.Machine.execSliceExpiry part s
  | .preempt ctx => Sys2Proof.Machine.execPreempt ctx s
  | .contextSwitch part => Sys2Proof.Machine.execContextSwitch part s
  | .hangTimeout part => Sys2Proof.Machine.execHangTimeout part s
  | .preset ctx => Sys2Proof.Machine.execPreset ctx s
  | .partitionReset part why => Sys2Proof.Machine.execPartitionReset part why s
  | .evictionRequest d0 d1 d2 d3 => Sys2Proof.Machine.execEvictionRequest d0 d1 d2 d3 s
  | .evictionFallback n => Sys2Proof.Machine.execEvictionFallback n s
  | .evictionOutcome n => Sys2Proof.Machine.execEvictionOutcome n s
  | .streamCreate ctx n => Sys2Proof.Machine.execStreamCreate ctx n s
  | .streamPark ctx n => Sys2Proof.Machine.execStreamPark ctx n s
  | .streamResume ctx n => Sys2Proof.Machine.execStreamResume ctx n s
  | .streamCancel ctx n => Sys2Proof.Machine.execStreamCancel ctx n s
  | .decodeStepCompletion n => Sys2Proof.Machine.execDecodeStepCompletion n s
  | .blockSend n => Sys2Proof.Machine.execBlockSend n s
  | .blockCommit n => Sys2Proof.Machine.execBlockCommit n s
  | .blockRelease n => Sys2Proof.Machine.execBlockRelease n s
  | .cancelAtDestination n => Sys2Proof.Machine.execCancelAtDestination n s
  | .hpullTimeout n k => Sys2Proof.Machine.execHpullTimeout n k s
  | .completionRecord n => Sys2Proof.Machine.execCompletionRecord n s
  | .swapBlockRead => Sys2Proof.Machine.execSwapBlockRead s
  | .nvmeCompletion k ok => Sys2Proof.Machine.execNvmeCompletion k ok s
  | .nvmeTimeout k => Sys2Proof.Machine.execNvmeTimeout k s
  | .errorReportDelivery die => Sys2Proof.Machine.execErrorReportDelivery die s
  | .reportRetry => Sys2Proof.Machine.execReportRetry s
  | .chardTest n fails => Sys2Proof.Machine.execChardTest n fails s
  | .cellSpare die num => Sys2Proof.Machine.execCellSpare die num s
  | .busRetrain die col => Sys2Proof.Machine.execBusRetrain die col s
  | .heatTokenRefill => Sys2Proof.Machine.execHeatTokenRefill s
  | .heatRateUpdate rates => Sys2Proof.Machine.execHeatRateUpdate rates s
  | .heatResume col => Sys2Proof.Machine.execHeatResume col s
  | .heatWindowEnd => Sys2Proof.Machine.execHeatWindowEnd s
  | .powerCapEvaluation watts => Sys2Proof.Machine.execPowerCapEvaluation watts s
  | .staticEnergyCharge => Sys2Proof.Machine.execStaticEnergyCharge s
  | .partitionEnable part d0 => Sys2Proof.Machine.execPartitionEnable part d0 s
  | .contextAdmit ctx d0 => Sys2Proof.Machine.execContextAdmit ctx d0 s
  | .registerWrite sp off v => Sys2Proof.Machine.execRegisterWrite sp off v s
  | .keySlotFill k k1 k2 => Sys2Proof.Machine.execKeySlotFill k k1 k2 s
  | .keySlotEmpty k => Sys2Proof.Machine.execKeySlotEmpty k s
  | .getMeasurements => Sys2Proof.Machine.execGetMeasurements s
  | .mailboxWrite v => Sys2Proof.Machine.execMailboxWrite v s
  | .msWake ev => Sys2Proof.Machine.execMsWake ev s
  | .clusterGate die k => Sys2Proof.Machine.execClusterGate die k s
  | .clusterUngate die k => Sys2Proof.Machine.execClusterUngate die k s
  | .fusionChange die k => Sys2Proof.Machine.execFusionChange die k s
  | .remoteWrite w src off v => Sys2Proof.Machine.execRemoteWrite w src off v s
  | .ptpSync ns off => Sys2Proof.Machine.execPtpSync ns off s
  | .standaloneTimeTimeout => Sys2Proof.Machine.execStandaloneTimeTimeout s
  | .powerOn => Sys2Proof.Machine.execPowerOn s
  | .moduleReset => Sys2Proof.Machine.execModuleReset s
  | .memoryCheckCompletion => Sys2Proof.Machine.execMemoryCheckCompletion s
  | .tlbLoad who seg page => Sys2Proof.Machine.execTlbLoad who seg page s
  | .portRetirement p => Sys2Proof.Machine.execPortRetirement p s

end Sys2Proof.Machine
end

