-- ==== Sys2Proof/Machine/Step.lean ====
section
/-! DEFINITION. One step of the module: the agenda's next slot. -/

namespace Sys2Proof.Machine

/-- Run what a turn answers. -/
def runTurn (r : State × Option Instr) : Host.Outcome State Fault Refusal :=
  match r.2 with
  | some i => exec i r.1
  | none => .next r.1

/-- R44, R160: the program has been left for a trap, or its partition has been reset. -/
def State.asFaulted (s : State) : Bool := s.cell.as.lvl ≠ .program || (s.cell.recd.isNone && s.cell.lastOp.isNone)

/-- R134, R160: the AS's own instruction, judged from `s` on: its trap if it takes one, else what `go` answers for the state it leaves. -/
def ownFaultOr (s : State) (go : State → Host.Outcome State Fault Refusal) : Host.Outcome State Fault Refusal :=
  match runTurn s.asFetch with
  | .next t => if t.asFaulted then .next t else go t
  | r => r

/-- R43, R134, R160: with an ES fault due the AS issues nothing: its own instruction traps if it must, repetition 0 of a REP that it reaches
among them, else the ES fault is taken. -/
def asFaultTurn (s : State) : Host.Outcome State Fault Refusal :=
  ownFaultOr s fun t =>
    if s.core.rep.isNone && t.core.rep.isSome then ownFaultOr t fun _ => exec .esFaultDelivery s else exec .esFaultDelivery s

/-- A turn in its place of the cycle. -/
def takeTurn (s : State) (t : Turn) : Host.Outcome State Fault Refusal :=
  if t.isAs && s.cell.esFaultDue && !s.asStopped then asFaultTurn s else runTurn (s.turn t)

/-- One step (log 1): the next slot's agent moves on its cell. -/
def step (s : State) : Host.Outcome State Fault Refusal :=
  match s.nextSlot.1.enterSlot s.nextSlot.2 with
  | none => .fault .noSuchCell
  | some t =>
    if !turnOk s.nextSlot.2.turn then .refused .notAnEvent
    else if t.mayTurn s.nextSlot.2.turn then takeTurn (t.mark s.nextSlot.2.turn) s.nextSlot.2.turn
    else .next t

/-- A word of the opcode table stored where the next step fetches it (log 6, log 7). -/
def State.withFetchWord (s : State) (_nbits w : Nat) : State := s.placeInstr (BitVec.ofNat 32 w)

end Sys2Proof.Machine
end

