-- ==== Sys2Proof/Safety.lean ====
section
/-! DEFINITION. What counts as a safe run: every step answers a next state, and memory keeps its one canonical form. -/

namespace Sys2Proof.Machine

/-- The byte memory is in canonical form: keys strictly rising, no entry that reads as an unlisted key does. -/
def State.Canonical (s : State) : Prop := memWf s.mem.mem = true

/-- A slot names a cell the module has, and an event where it names one (log 1). -/
def Slot.Legal (x : Slot) (s : State) : Prop :=
  (∀ id, x.cell = some id → (s.findCell id).isSome = true) ∧ turnOk x.turn = true

/-- The next step has a slot it can take. -/
def State.Ready (s : State) : Prop := s.nextSlot.2.Legal s

/-- The package but for its accounts: the energy counters of the contexts (R374) and the heat columns' tokens (R368). -/
def Pkg.unaccounted (p : Pkg) : Pkg := { p with
  ctxs := p.ctxs.map fun x => { x with energy := 0, recent := [] }
  heat := p.heat.map fun h => (h.1, { h.2 with t := 0, paused := false, spent := [] }) }

/-- Package, agenda, turns and free counter are as before, but for the accounts. -/
def SameModule (s t : State) : Prop :=
  t.pkg.unaccounted = s.pkg.unaccounted ∧ t.agenda = s.agenda ∧ t.rr = s.rr ∧ t.free = s.free

/-- A step that answers a next state. -/
def Steps (s t : State) : Prop := step s = .next t

end Sys2Proof.Machine
end

