-- ==== Sys2Proof/Certificates/Slice0/Obligations.lean ====
section
/-! DEFINITION. The statements for the provers. The predicates of Sys2Proof.Claims say once what several of them share. -/

namespace Sys2Proof.Claims

open Sys2Proof Sys2Proof.Machine

/-- The guard is untagged and true (R79, R80). -/
def GuardOn (s : State) (g : Guard) : Prop := (s.rp g.p).psn = false ∧ guardHolds g (s.rp g.p).v = true

/-- The guard is untagged and false. -/
def GuardOff (s : State) (g : Guard) : Prop := (s.rp g.p).psn = false ∧ guardHolds g (s.rp g.p).v = false

/-- A g register carries no tag. -/
def Clean (s : State) (r : GReg) : Prop := (s.rg r).psn = false

/-- Every earlier memory operation has finished its checks (R117, R265). -/
def Checked (s : State) : Prop := s.cell.snaps = []

/-- Everything but the AS's registers, program counter and pipeline is as before, every byte of memory and the package too; only the accounts
of energy and heat change. -/
def OnlyCore (s t : State) : Prop :=
  t.cell = { s.cell with as := { s.cell.as with core := t.core } } ∧ t.parked = s.parked ∧ t.mem = s.mem ∧ SameModule s t
    ∧ ∀ a, memGet t.mem.mem a = memGet s.mem.mem a

/-- Besides the AS's core exactly `f` happens to the cell, and nothing to other cells, to memory or, but for its accounts, to the package. -/
def Moves (s t : State) (f : Cell → Cell) : Prop :=
  t.cell = f { s.cell with as := { s.cell.as with core := t.core } } ∧ t.parked = s.parked ∧ t.mem = s.mem ∧ SameModule s t
    ∧ ∀ a, memGet t.mem.mem a = memGet s.mem.mem a

/-- The instruction issues: its one write enters the pipeline, the program counter advances, one tick passes. -/
def Writes (i : Instr) (s : State) (lat : Nat) (d : Dest) (v : Word) (psn : Bool) : Prop :=
  ∃ t, exec i s = .next t ∧ t.core = ((s.core.push lat d v psn).advance).endTick ∧ OnlyCore s t

/-- The instruction issues and does nothing else. -/
def Passes (i : Instr) (s : State) : Prop := ∃ t, exec i s = .next t ∧ t.core = s.core.advance.endTick ∧ OnlyCore s t

/-- The instruction issues and control transfers to `x`. -/
def Jumps (i : Instr) (s : State) (x : Word) : Prop :=
  ∃ t, exec i s = .next t ∧ t.core = ({ s.core with pc := x, rep := none }).endTick ∧ OnlyCore s t

/-- The guard of an AS instruction that a false guard turns into a tick, whatever the level it runs at. -/
def guardOf : Instr → Option Guard
  | .add o | .sub o | .and o | .or o | .xor o | .andn o | .shl o | .shr o | .sar o | .min o | .max o | .minn o | .maxn o
  | .mul o | .mulh o | .mulhn o | .div o | .divn o | .rem o | .remn o => some o.pg
  | .clz o | .popc o => some o.pg
  | .sel o => some o.pg
  | .addi o | .andi o | .ori o | .xori o => some o.pg
  | .shli o | .shri o | .sari o => some o.pg
  | .ldi o => some o.pg
  | .ldih1 o | .ldih2 o | .ldih3 o => some o.pg
  | .bext o | .bins o => some o.pg
  | .cmp o => some o.pg
  | .cmpi o => some o.pg
  | .pand o | .por o | .pxor o => some o.pg
  | .sega o => some o.pg
  | .adr2 o => some o.pg
  | .exit o | .nop o => some o.pg
  | .lds o | .sts o | .st o | .stRel o => some o.pg
  | .ldq o | .ldx o | .ldqAcq o => some o.pg
  | .stq o => some o.pg
  | .pf o | .cwb o | .cinv o => some o.pg
  | .chk o | .estart o | .ret o | .waitt o => some o.pg
  | .chkPred o | .bqp o => some o.pg
  | .amo o | .scamo o => some o.pg
  | .cas o => some o.pg
  | .scld o => some o.pg
  | .scst o => some o.pg
  | .fence o => some o.pg
  | .trap o => some o.pg
  | .fork o => some o.pg
  | .join o => some o.pg
  | .enq o => some o.pg
  | .enqs o => some o.pg
  | .pbr o => some o.pg
  | .pbrReg o => some o.pg
  | .br o | .brq o | .call o => some o.pg
  | .loop o => some o.pg
  | .pop o => some o.pg
  | .qpush o => some o.pg
  | .qstat o => some o.pg
  | .sems o | .semw o | .semdrop o => some o.pg
  | .semrd o => some o.pg
  | .waita o => some o.pg
  | _ => none

/-- The guard of an instruction whose level or register is checked before its guard (R80). -/
def sysGuardOf : Instr → Option Guard
  | .srr o => some o.pg
  | .srw o => some o.pg
  | .tlbi o => some o.pg
  | .rett o | .halt o => some o.pg
  | _ => none

/-- The level is below what an instruction needs (R31, R80, R153, R157). -/
def belowLevel (i : Instr) (l : Level) : Bool :=
  match i with
  | .rett _ | .tlbi _ => l = .program
  | .halt _ => l ≠ .machine
  | .srr o => !sysReadable o.reg l
  | .srw o => !sysWritable o.reg l
  | _ => false

/-- The next slot's turn is `t` and comes now (log 1): `u` is the state it is taken in. -/
def Comes (s u : State) (t : Turn) : Prop :=
  s.nextSlot.2.turn = t ∧ ∃ v, s.nextSlot.1.enterSlot s.nextSlot.2 = some v ∧ v.mayTurn t = true ∧ u = v.mark t

/-- The AS runs, is not held up, and has no ES fault to take. -/
def AsRuns (u : State) : Prop := u.cell.as.run = .running ∧ u.seqStopped 0 = false ∧ u.cell.esFaultDue = false

/-- The ES runs and is not held up. -/
def EsRuns (u : State) : Prop := u.cell.es.run = .running ∧ u.seqStopped 1 = false

/-- What the AS fetches at an address (R78). -/
def asFetchAt (u : State) (a : Word) : State × Option Word32 := u.fetchWord 0 u.cell.asbase u.cell.assize a

/-- What the ES fetches at an address (R78). -/
def esFetchAt (u : State) (a : Word) : State × Option Word32 := u.fetchWord 1 u.cell.esbase u.cell.essize a

/-- The turn of an engine. -/
def engTurn : Eng → Turn
  | .mx => .mx | .ce0 => .ce0 | .ce1 => .ce1 | .xe => .xe

end Sys2Proof.Claims

open Sys2Proof Sys2Proof.Machine Sys2Proof.Claims

/-! ## Decoding and encoding -/

/-- The words of the examples of chapter 03 decode to the instructions written beside them. -/
def Obligations.DecodeSpecWords : Prop :=
  decodeAs 0x098A4FF8 = .ok (.addi ⟨⟨3, false⟩, 5, 4, 0xFF8⟩)
    ∧ decodeAs 0x600C5202 = .ok (.lds ⟨⟨0, false⟩, 6, 5, 2, 2⟩)
    ∧ decodeAs 0xFC311000 = .ok (.rep ⟨3, 1, 1, 0⟩)
    ∧ decodeAs 0x04110C00 = .ok (.add ⟨⟨0, false⟩, 8, 16, 24⟩)
    ∧ decodeAs 0xE4104000 = .ok (.pop ⟨⟨0, false⟩, 8, .y false⟩)
    ∧ decodeAs 0xB0000000 = .ok (.exit ⟨⟨0, false⟩⟩)
    ∧ decodeEs 0x4D110C00 = .ok (.vfma ⟨2, 4, 8, .reg 12⟩)
    ∧ (∃ e, decodeAs 0 = .error e)
    ∧ decodeCmd .mx 0x26188801 [0] = .ok (.mma ⟨3, 4, false, true, .cell, 0⟩ ⟨false, 0, 0⟩)

/-- Decoding the encoding of an AS instruction gives it back. -/
def Obligations.DecodeEncodeAs : Prop :=
  ∀ (i : Instr) (w : Word32), i.wf = true → encodeAs i = some w → decodeAs w = .ok i

/-- Decoding the encoding of an ES instruction gives it back. -/
def Obligations.DecodeEncodeEs : Prop :=
  ∀ (i : Instr) (w : Word32), i.wf = true → encodeEs i = some w → decodeEs w = .ok i

/-- Decoding the step words of a command gives it back. -/
def Obligations.DecodeEncodeCmd : Prop :=
  ∀ (i : Instr) (r : Ring) (h : Word32) (ps : List Word32), i.wf = true → encodeCmd i = some (r, h :: ps) →
    decodeCmd r h ps = .ok i

/-- What the decoders accept is well-formed, and no event is ever decoded. -/
def Obligations.DecodedIsWellFormed : Prop :=
  (∀ w i, decodeAs w = .ok i → i.wf = true ∧ i.isEvent = false)
    ∧ (∀ w i, decodeEs w = .ok i → i.wf = true ∧ i.isEvent = false)
    ∧ (∀ r h ps i, decodeCmd r h ps = .ok i → i.wf = true ∧ i.isEvent = false)

/-! ## The step -/

/-- R15, R78, R134: a sequencer that runs and is not held up executes the instruction it fetches; under a REP the word after it,
stepped for the repetition. R43, R44, R160: with an ES fault to take the AS's own instruction traps if it must, repetition 0 of a REP it
reaches among them, else the fault is taken and the instruction does not issue. R194: after EEXIT the ES's turns land what is in flight. -/
def Obligations.StepRunsSequencers : Prop :=
  (∀ (s u : State) (w : Word32) (i : Instr), Comes s u .as → AsRuns u → u.core.rep = none →
    (asFetchAt u u.core.pc).2 = some w → decodeAs w = .ok i → step s = exec i (asFetchAt u u.core.pc).1)
  ∧ (∀ (s u : State) (r : RepSt) (w : Word32) (i j : Instr), Comes s u .as → AsRuns u → u.core.rep = some r →
    (asFetchAt u (u.core.pc + 4)).2 = some w → decodeAs w = .ok j → stepsOk r.op (gFields j) = true →
    decodeAs (stepAsWord w r) = .ok i → step s = exec i (asFetchAt u (u.core.pc + 4)).1)
  ∧ (∀ (s u : State) (w : Word32) (i : Instr), Comes s u .es → EsRuns u → u.cell.es.rep = none →
    (esFetchAt u u.cell.es.pc).2 = some w → decodeEs w = .ok i → step s = exec i (esFetchAt u u.cell.es.pc).1)
  ∧ (∀ (s u : State) (r : RepSt) (w : Word32) (i j : Instr), Comes s u .es → EsRuns u → u.cell.es.rep = some r →
    (esFetchAt u (u.cell.es.pc + 4)).2 = some w → decodeEs w = .ok j → stepsOk r.op (vFields j) = true →
    decodeEs (stepEsWord w r) = .ok i → step s = exec i (esFetchAt u (u.cell.es.pc + 4)).1)
  ∧ (∀ (s u t : State) (x : Turn), x.isAs = true → Comes s u x → u.cell.as.run = .running → u.seqStopped 0 = false → u.cell.esFaultDue = true →
    runTurn u.asFetch = .next t →
    (t.asFaulted = true → step s = .next t)
    ∧ (t.asFaulted = false → u.core.rep ≠ none ∨ t.core.rep = none → step s = exec .esFaultDelivery u)
    ∧ (∀ v, t.asFaulted = false → u.core.rep = none → t.core.rep ≠ none → runTurn t.asFetch = .next v →
      step s = if v.asFaulted then .next v else exec .esFaultDelivery u))
  ∧ (∀ s u : State, Comes s u .es → u.cell.es.run = .draining → step s = .next (u.updEs EsSt.drain))

/-- R200, R343: an engine moves the command it has decoded, a port the command it picks; an event of the agenda happens, but for a
unit of the H-die that holds a report (R359; log 44). -/
def Obligations.StepRunsCommands : Prop :=
  (∀ (s u : State) (e : Eng) (c : Cmd), Comes s u (engTurn e) → u.engStopped e = false → (u.cell.eng e).cur = some c →
    step s = exec c.i u)
  ∧ (∀ (s u : State) (hub : Bool) (n : Nat) (c : Cmd), Comes s u (if hub then .hub else .ho) →
    u.cell.gated = false → (u.cell.holding portAgent && (u.cell.port hub).told) = false → u.portMayTake hub = false →
    u.portPick (u.cell.port hub).cmds 0 = some n → (u.cell.port hub).cmds[n]? = some c → step s = exec c.i u)
  ∧ (∀ (s u : State) (i : Instr), Comes s u (.event i) → i.isEvent = true → u.unitHeld i = false →
    (i ≠ .esFaultDelivery ∧ i ≠ .waitaTimeout ∨ AsRuns u) → step s = exec i u)

/-- A step whose slot names a cell of the module, and an event where it names one, always answers a next state: no instruction,
command or event of the table stops the module. -/
def Obligations.StepAnswers : Prop := ∀ s : State, s.Ready → ∃ t, step s = .next t

/-- The queues of a cell hold no more entries than they have, and neither does a copy of lq that a failing check would bring back. -/
def Sys2Proof.Claims.QueuesFit (c : Cell) : Prop :=
  (∀ i, (c.qs.dq i).length ≤ Config.capQ) ∧ (∀ i, (c.qs.yq i).length ≤ Config.capQ) ∧ c.qs.lq.length ≤ Config.capLq
    ∧ c.qs.bqa.length ≤ Config.capBq ∧ c.qs.bqe.length ≤ Config.capBq ∧ ∀ y ∈ c.snaps, y.lq.length ≤ Config.capLq

/-- R16, R21, R138: no step of any agent, and no event, brings a queue of any cell beyond its capacity. -/
def Obligations.StepKeepsQueueBounds : Prop :=
  ∀ s t : State, QueuesFit s.cell → (∀ c ∈ s.parked, QueuesFit c) → step s = .next t → QueuesFit t.cell ∧ ∀ c ∈ t.parked, QueuesFit c

/-- Every step keeps the canonical form of memory. -/
def Obligations.StepKeepsCanonical : Prop := ∀ s t : State, s.Canonical → step s = .next t → t.Canonical

/-- R35, R199, R203, R292, R393: what reset leaves, the canonical form of memory and the bounds of the queues among it. Registers of the
AS the spec gives no reset value hold the model's (log 5). -/
def Obligations.ResetState : Prop :=
  State.reset.Canonical ∧ QueuesFit State.reset.cell ∧ (∀ c ∈ State.reset.parked, QueuesFit c) ∧
  (∀ m, State.reset.cell.es.rm m = if m = 0 then ⟨BitVec.allOnes 2048, false⟩ else ⟨0, false⟩)
    ∧ State.reset.cell.es.sh = 0x040A ∧ State.reset.cell.es.flags = 0
    ∧ (∀ e, (State.reset.cell.eng e).rp = 0 ∧ (State.reset.cell.eng e).wp = 0)
    ∧ State.reset.cell.mxs.duty = 255 ∧ State.reset.cell.mxs.shape = none
    ∧ State.reset.mem.binds = [] ∧ State.reset.pkg.time.set = false
    ∧ (∀ p ∈ State.reset.pkg.parts, p.en = false) ∧ (∀ c ∈ State.reset.pkg.ctxs, c.en = false)

/-! ## Issue, latency, guards (R37 to R39, R79, R80) -/

/-- R17 to R19, R37, R38, R41, R163: how writes land in the ES. The writes due land in issue order; one in flight alone lands at the end of
its last tick. Each part of a write to v registers or masks changes the bytes it enables and no others, and its tag is taken alone or ORed;
m0 takes nothing; SH is replaced, its reserved bits staying 0; every write ORs its flags into ESFLAGS. -/
def Sys2Proof.Claims.EsLands : Prop :=
  let takes := fun (old new : EReg) (x : EPart) =>
    (∀ b, b < 256 → new.bits.extractLsb' (8 * b) 8 = if x.be.getLsbD b then x.val.extractLsb' (8 * b) 8 else old.bits.extractLsb' (8 * b) 8)
      ∧ new.psn = if x.alone then x.psn else old.psn || x.psn
  (∀ e : EsSt, (∀ x ∈ e.infl, 1 ≤ x.rem) → e.endTick = (e.infl.filter (·.rem = 1)).foldl EsSt.land { e with
      infl := (e.infl.filter (·.rem ≠ 1)).map fun x => { x with rem := x.rem - 1 } })
  ∧ (∀ (e : EsSt) (d : EPend) (n : Nat), e.infl = [] → 1 ≤ d.rem →
    EsSt.endTick^[d.rem] { e with infl := [d] } = e.land d
      ∧ (n < d.rem → EsSt.endTick^[n] { e with infl := [d] } = { e with infl := [{ d with rem := d.rem - n }] }))
  ∧ (∀ (e : EsSt) (d : EPend), let t := e.land d
      t.infl = e.infl ∧ t.pc = e.pc ∧ t.rep = e.rep ∧ t.run = e.run ∧ (d.cls ≠ .flags → t.flags = e.flags ||| d.flg)
        ∧ (d.cls ≠ .v → t.v = e.v) ∧ (d.cls ≠ .m → t.m = e.m) ∧ (d.cls ≠ .sh → t.sh = e.sh))
  ∧ (∀ (e : EsSt) (d : EPend), d.cls = .v → d.num + d.parts.length ≤ 32 → let t := e.land d
      (∀ (k : Nat) (x : EPart), d.parts[k]? = some x → takes (e.vn (d.num + k)) (t.vn (d.num + k)) x)
        ∧ ∀ n, n < 32 → (n < d.num ∨ d.num + d.parts.length ≤ n) → t.vn n = e.vn n)
  ∧ (∀ (e : EsSt) (d : EPend) (x : EPart) (n : MReg), d.cls = .m → d.parts = [x] → let t := e.land d
      (n ≠ 0 → d.num = n.toNat → takes (e.rm n) (t.rm n) x) ∧ (d.num % 8 ≠ n.toNat → t.rm n = e.rm n)
        ∧ t.rm 0 = ⟨BitVec.allOnes 2048, false⟩)
  ∧ (∀ (e : EsSt) (d : EPend) (x : EPart), d.parts = [x] → (∀ b, b < 8 → x.be.getLsbD b = true) → let t := e.land d
      (d.cls = .sh → t.sh = x.val.extractLsb' 0 64 &&& 0xFFFFF)
        ∧ (d.cls = .flags → t.flags = e.flags ||| x.val.extractLsb' 0 6 ||| d.flg))

/-- R37: a write of latency L that enters the pipeline lands at the end of the L-th tick and not before, whatever else is in
flight for other registers; a write to g0 or p0 changes nothing (R14, R38). A g register takes value and tag, a predicate the value's bit 0
and the tag, a target register the address, and is valid from then on. What lands in the ES: see EsLands. -/
def Obligations.WriteLandsAfterLatency : Prop :=
  (∀ (c : AsCore) (lat : Nat) (r : GReg) (v : Word) (psn : Bool), 1 ≤ lat → r ≠ 0 →
      (∀ x ∈ c.infl, x.dest = .g r → x.rem ≤ lat) → (∀ x ∈ c.infl, 1 ≤ x.rem) →
      (AsCore.endTick^[lat] (c.push lat (.g r) v psn)).rg r = ⟨v, psn⟩)
    ∧ (∀ (c : AsCore) (lat n : Nat) (r : GReg) (v : Word) (psn : Bool), n < lat →
      (AsCore.endTick^[n] (c.push lat (.g r) v psn)).rg r = (AsCore.endTick^[n] c).rg r)
    ∧ (∀ (c : AsCore) (n : Nat), (AsCore.endTick^[n] c).rg 0 = ⟨0, false⟩)
    ∧ (∀ (c : AsCore) (r : GReg), (∀ x ∈ c.infl, x.rem ≤ 1 → x.dest ≠ .g r) → c.endTick.rg r = c.rg r)
    ∧ (∀ (c : AsCore) (r : PReg), (∀ x ∈ c.infl, x.rem ≤ 1 → x.dest ≠ .p r) → c.endTick.rp r = c.rp r)
    ∧ (∀ (c : AsCore) (r : TReg), (∀ x ∈ c.infl, x.rem ≤ 1 → x.dest ≠ .t r) → c.endTick.rt r = c.rt r)
    ∧ (∀ (c : AsCore) (lat : Nat) (d : Dest) (v : Word) (psn : Bool), 1 ≤ lat → (∀ x ∈ c.infl, x.dest = d → x.rem ≤ lat) →
      (∀ x ∈ c.infl, 1 ≤ x.rem) → let t := AsCore.endTick^[lat] (c.push lat d v psn)
      match d with
      | .g r => r ≠ 0 → t.rg r = ⟨v, psn⟩
      | .p r => r ≠ 0 → t.rp r = ⟨v.getLsbD 0, psn⟩
      | .t r => t.rt r = ⟨v, true⟩)
    ∧ (∀ (c : AsCore) (lat n : Nat) (d : Dest) (v : Word) (psn : Bool), n < lat →
      let t := AsCore.endTick^[n] (c.push lat d v psn)
      let u := AsCore.endTick^[n] c
      (∀ r, t.rg r = u.rg r) ∧ (∀ r, t.rp r = u.rp r) ∧ ∀ r, t.rt r = u.rt r)
    ∧ EsLands

/-- R79: every AS instruction but REP has a guard, from bits 25 to 22 of its word; when it is false the instruction spends its tick
and does nothing else. The guard (!p0) is always false. -/
def Obligations.FalseGuardOnlyTicks : Prop :=
  (∀ (i : Instr) (s : State) (g : Guard), guardOf i = some g → GuardOff s g → Passes i s)
  ∧ (∀ (i : Instr) (s : State) (g : Guard), sysGuardOf i = some g → belowLevel i s.cell.as.lvl = false → GuardOff s g → Passes i s)
  ∧ (∀ (w : Word32) (i : Instr) (g : Guard), decodeAs w = .ok i → (guardOf i = some g ∨ sysGuardOf i = some g) →
    g.p = w.extractLsb' 23 3 ∧ g.n = w.getLsbD 22)
  ∧ (∀ (w : Word32) (i : Instr), decodeAs w = .ok i → guardOf i = none → sysGuardOf i = none → ∃ o, i = .rep o)
  ∧ (∀ s : State, GuardOff s ⟨0, true⟩ ∧ GuardOn s ⟨0, false⟩)

/-- R31, R80: the order of the checks at issue. A word that is no instruction traps with the illegal-instruction cause and the
word, a prefix with the frame of its repetition 0 (R135); below the level it needs an instruction traps with the privilege cause and its
own word, whatever its guard (for HALT see ReturnAndHalt); then a tagged guard traps with the poison cause and value 0, whatever its
value. -/
def Obligations.GuardAndPrivilegeTraps : Prop :=
  (∀ (s u : State) (w : Word32) (e : DecodeError), Comes s u .as → AsRuns u → u.core.rep = none →
    (asFetchAt u u.core.pc).2 = some w → decodeAs w = .error e →
    (w.extractLsb' 26 6 ≠ 0x3F → step s = .next ((asFetchAt u u.core.pc).1.trap cIllegal (w.zeroExtend 64)))
    ∧ (w.extractLsb' 26 6 = 0x3F → Checked (asFetchAt u u.core.pc).1 →
      step s = .next (((asFetchAt u u.core.pc).1.setCore { (asFetchAt u u.core.pc).1.core with
        rep := some ⟨(w.extractLsb' 20 6).toNat + 1, 0, w.extractLsb' 16 4, w.extractLsb' 12 4, w.extractLsb' 8 4⟩ }).trap cIllegal
          (w.zeroExtend 64))))
  ∧ (∀ w : Word32, ((asMajor w).toNat = 0x14 ∨ (asMajor w).toNat = 0x15) → (∀ r : SysReg, r.code ≠ w.extractLsb' 0 12) →
    ∃ e, decodeAs w = .error e)
  ∧ (∀ (i : Instr) (s : State), belowLevel i s.cell.as.lvl = true → (∀ o, i ≠ .halt o) →
    exec i s = .next (s.trap cPrivilege (wordOf i)))
  ∧ (∀ (i : Instr) (s : State) (g : Guard), guardOf i = some g → (s.rp g.p).psn = true → exec i s = .next (s.trap cPoison 0))
  ∧ (∀ (i : Instr) (s : State) (g : Guard), sysGuardOf i = some g → belowLevel i s.cell.as.lvl = false → (s.rp g.p).psn = true →
    exec i s = .next (s.trap cPoison 0))

/-! ## AS arithmetic (R102 to R108) -/

/-- R102: the ALU group. -/
def Obligations.AluResult : Prop :=
  ∀ (s : State) (o : OpA), GuardOn s o.pg →
    let x := (s.rg o.a).v
    let y := (s.rg o.b).v
    let k := (y.extractLsb' 0 6).toNat
    let tag := (s.rg o.a).psn || (s.rg o.b).psn
    Writes (.add o) s 1 (.g o.d) (x + y) tag ∧ Writes (.sub o) s 1 (.g o.d) (x - y) tag
    ∧ Writes (.and o) s 1 (.g o.d) (x &&& y) tag ∧ Writes (.or o) s 1 (.g o.d) (x ||| y) tag
    ∧ Writes (.xor o) s 1 (.g o.d) (x ^^^ y) tag ∧ Writes (.andn o) s 1 (.g o.d) (x &&& ~~~ y) tag
    ∧ Writes (.shl o) s 1 (.g o.d) (x <<< k) tag ∧ Writes (.shr o) s 1 (.g o.d) (x >>> k) tag
    ∧ Writes (.sar o) s 1 (.g o.d) (x.sshiftRight k) tag
    ∧ Writes (.min o) s 1 (.g o.d) (if x.toInt < y.toInt then x else y) tag
    ∧ Writes (.max o) s 1 (.g o.d) (if y.toInt < x.toInt then x else y) tag
    ∧ Writes (.minn o) s 1 (.g o.d) (if x.toNat < y.toNat then x else y) tag
    ∧ Writes (.maxn o) s 1 (.g o.d) (if y.toNat < x.toNat then x else y) tag

/-- R102: counts, products, quotients and SEL. -/
def Obligations.MulDivResult : Prop :=
  (∀ (s : State) (o : OpA), GuardOn s o.pg →
    let x := (s.rg o.a).v
    let y := (s.rg o.b).v
    let tag := (s.rg o.a).psn || (s.rg o.b).psn
    Writes (.mul o) s 3 (.g o.d) (BitVec.ofInt 64 (x.toInt * y.toInt)) tag
    ∧ Writes (.mulh o) s 3 (.g o.d) (BitVec.ofInt 64 (x.toInt * y.toInt / 2 ^ 64)) tag
    ∧ Writes (.mulhn o) s 3 (.g o.d) (BitVec.ofNat 64 (x.toNat * y.toNat / 2 ^ 64)) tag
    ∧ Writes (.div o) s 14 (.g o.d) (if y = 0 then BitVec.allOnes 64 else BitVec.ofInt 64 (x.toInt.tdiv y.toInt)) tag
    ∧ Writes (.divn o) s 14 (.g o.d) (if y = 0 then BitVec.allOnes 64 else BitVec.ofNat 64 (x.toNat / y.toNat)) tag
    ∧ Writes (.rem o) s 14 (.g o.d) (if y = 0 then x else BitVec.ofInt 64 (x.toInt - y.toInt * x.toInt.tdiv y.toInt)) tag
    ∧ Writes (.remn o) s 14 (.g o.d) (if y = 0 then x else BitVec.ofNat 64 (x.toNat - y.toNat * (x.toNat / y.toNat))) tag)
  ∧ (∀ (s : State) (o : OpUn), GuardOn s o.pg →
    (∀ n : Nat, n ≤ 64 → (∀ i, i < n → (s.rg o.a).v.getMsbD i = false) → (n < 64 → (s.rg o.a).v.getMsbD n = true) →
      Writes (.clz o) s 1 (.g o.d) (BitVec.ofNat 64 n) (s.rg o.a).psn)
    ∧ Writes (.popc o) s 1 (.g o.d) (BitVec.ofNat 64 ((List.range 64).countP fun i => (s.rg o.a).v.getLsbD i)) (s.rg o.a).psn)
  ∧ (∀ (s : State) (o : OpSel), GuardOn s o.pg →
    Writes (.sel o) s 1 (.g o.d) (if (s.rp o.sel).v then (s.rg o.a).v else (s.rg o.b).v)
      ((s.rg o.a).psn || (s.rg o.b).psn || (s.rp o.sel).psn))

/-- R103, R104: the immediate forms, LDI and LDIH; a shift count of 64 or more, and bit 16 of an LDIH, are illegal. -/
def Obligations.ImmediateResult : Prop :=
  (∀ (s : State) (o : OpI), GuardOn s o.pg →
    let x := (s.rg o.a).v
    let m := o.imm.signExtend 64
    Writes (.addi o) s 1 (.g o.d) (x + m) (s.rg o.a).psn ∧ Writes (.andi o) s 1 (.g o.d) (x &&& m) (s.rg o.a).psn
    ∧ Writes (.ori o) s 1 (.g o.d) (x ||| m) (s.rg o.a).psn ∧ Writes (.xori o) s 1 (.g o.d) (x ^^^ m) (s.rg o.a).psn)
  ∧ (∀ (s : State) (o : OpSh), GuardOn s o.pg →
    let x := (s.rg o.a).v
    Writes (.shli o) s 1 (.g o.d) (x <<< o.k.toNat) (s.rg o.a).psn
    ∧ Writes (.shri o) s 1 (.g o.d) (x >>> o.k.toNat) (s.rg o.a).psn
    ∧ Writes (.sari o) s 1 (.g o.d) (x.sshiftRight o.k.toNat) (s.rg o.a).psn)
  ∧ (∀ (s : State) (o : OpLdi), GuardOn s o.pg → Writes (.ldi o) s 1 (.g o.d) (o.imm.signExtend 64) false)
  ∧ (∀ (s : State) (o : OpLdih), GuardOn s o.pg →
    let x := (s.rg o.d).v
    Writes (.ldih1 o) s 1 (.g o.d) (x.extractLsb' 32 32 ++ o.imm ++ x.extractLsb' 0 16) (s.rg o.d).psn
    ∧ Writes (.ldih2 o) s 1 (.g o.d) (x.extractLsb' 48 16 ++ o.imm ++ x.extractLsb' 0 32) (s.rg o.d).psn
    ∧ Writes (.ldih3 o) s 1 (.g o.d) (o.imm ++ x.extractLsb' 0 48) (s.rg o.d).psn)
  ∧ (∀ w : Word32, 6 ≤ (asMajor w).toNat → (asMajor w).toNat ≤ 8 → w.extractLsb' 6 6 ≠ 0 → ∃ e, decodeAs w = .error e)
  ∧ (∀ w : Word32, 0xA ≤ (asMajor w).toNat → (asMajor w).toNat ≤ 0xC → w.getLsbD 16 = true → ∃ e, decodeAs w = .error e)

/-- R105, R108: bit fields and segment addresses, for every form the encoding admits, and the forms that are illegal. -/
def Obligations.BitFieldAndAddressResult : Prop :=
  (∀ (s : State) (o : OpBit), GuardOn s o.pg → (Instr.bext o).wf = true →
    let len := o.len1.toNat + 1
    let pos := o.pos.toNat
    let x := (s.rg o.a).v
    Writes (.bext o) s 1 (.g o.d) (BitVec.ofNat 64 (x.toNat / 2 ^ pos % 2 ^ len)) (s.rg o.a).psn
    ∧ ∃ v : Word, (∀ i, i < 64 → v.getLsbD i = if pos ≤ i ∧ i < pos + len then x.getLsbD (i - pos) else (s.rg o.d).v.getLsbD i)
      ∧ Writes (.bins o) s 1 (.g o.d) v ((s.rg o.d).psn || (s.rg o.a).psn))
  ∧ (∀ (s : State) (o : OpSega), GuardOn s o.pg →
    Writes (.sega o) s 1 (.g o.d) (o.seg ++ (s.rg o.a).v.extractLsb' 0 58) (s.rg o.a).psn)
  ∧ (∀ (s : State) (o : OpAdr2), GuardOn s o.pg →
    Writes (.adr2 o) s 1 (.g o.d)
      ((s.rg o.a).v.extractLsb' 58 6
        ++ BitVec.ofNat 58 (((s.rg o.a).v.extractLsb' 0 58).toNat + (s.rg o.b).v.toNat * 2 ^ o.k.toNat))
      ((s.rg o.a).psn || (s.rg o.b).psn))
  ∧ (∀ w : Word32, ((asMajor w).toNat = 0xD ∨ (asMajor w).toNat = 0xE) →
    64 < (w.extractLsb' 0 6).toNat + ((w.extractLsb' 6 6).toNat + 1) → ∃ e, decodeAs w = .error e)
  ∧ (∀ w : Word32, (asMajor w).toNat = 0x12 → w.extractLsb' 6 6 ≠ 0 → ∃ e, decodeAs w = .error e)
  ∧ (∀ w : Word32, (asMajor w).toNat = 0x13 → w.extractLsb' 3 4 ≠ 0 → ∃ e, decodeAs w = .error e)

/-- R106, R107: compares and predicate logic; condition codes 6 and 7 are illegal; a write to p0 has no effect. -/
def Obligations.PredicateResult : Prop :=
  (∀ (s : State) (o : OpCmp), GuardOn s o.pg →
    let x := (s.rg o.a).v
    let y := (s.rg o.b).v
    let h : Bool := match o.cond with
      | .eq => x = y | .ne => x ≠ y | .lt => x.toInt < y.toInt | .ge => y.toInt ≤ x.toInt
      | .ltn => x.toNat < y.toNat | .gen => y.toNat ≤ x.toNat
    Writes (.cmp o) s 1 (.p o.d) ((BitVec.ofBool h).zeroExtend 64) ((s.rg o.a).psn || (s.rg o.b).psn))
  ∧ (∀ (s : State) (o : OpCmpi), GuardOn s o.pg →
    let x := (s.rg o.a).v
    let y : Word := o.imm.signExtend 64
    let h : Bool := match o.cond with
      | .eq => x = y | .ne => x ≠ y | .lt => x.toInt < y.toInt | .ge => y.toInt ≤ x.toInt
      | .ltn => x.toNat < y.toNat | .gen => y.toNat ≤ x.toNat
    Writes (.cmpi o) s 1 (.p o.d) ((BitVec.ofBool h).zeroExtend 64) (s.rg o.a).psn)
  ∧ (∀ (s : State) (o : OpPred), GuardOn s o.pg →
    let x := (s.rp o.a).v ^^ o.ia
    let y := (s.rp o.b).v ^^ o.ib
    let tag := (s.rp o.a).psn || (s.rp o.b).psn
    Writes (.pand o) s 1 (.p o.d) ((BitVec.ofBool (x && y)).zeroExtend 64) tag
    ∧ Writes (.por o) s 1 (.p o.d) ((BitVec.ofBool (x || y)).zeroExtend 64) tag
    ∧ Writes (.pxor o) s 1 (.p o.d) ((BitVec.ofBool (x ^^ y)).zeroExtend 64) tag)
  ∧ (∀ w : Word32, (asMajor w).toNat = 0xF → 6 ≤ (w.extractLsb' 0 3).toNat → ∃ e, decodeAs w = .error e)
  ∧ (∀ w : Word32, (asMajor w).toNat = 0x10 → 6 ≤ (w.extractLsb' 9 3).toNat → ∃ e, decodeAs w = .error e)
  ∧ (∀ (c : AsCore) (n : Nat), (AsCore.endTick^[n] c).rp 0 = ⟨true, false⟩)

/-! ## AS memory (R109 to R127) -/

/-- R109 to R111: LDS reads a checked scratchpad word after 4 ticks; STS stores one when it issues, and no other byte or marker changes. -/
def Obligations.ScratchpadResult : Prop :=
  (∀ (s u : State) (o : OpMem) (p : Place), GuardOn s o.pg → Clean s o.base →
    s.asAccess needSpadR (s.rg o.base).v o.off = (u, .ok p) → s.cell.classFree o.cls = true →
    let r := u.readW (u.cell.who 0) p (eaOf (s.rg o.base).v o.off)
    exec (.lds o) s = .next ((r.1.loadVal r.2).1.writeReg 4 (.g o.d) (r.1.loadVal r.2).2.v (r.1.loadVal r.2).2.psn))
  ∧ (∀ (s u : State) (o : OpMem) (p : Place), GuardOn s o.pg → Clean s o.base → Checked s →
    s.asAccess needSpadW (s.rg o.base).v o.off = (u, .ok p) → s.cell.classFree o.cls = true →
    ∃ t, exec (.sts o) s = .next t ∧ t.core = u.core.advance.endTick
      ∧ t.cell = { u.cell with as := { u.cell.as with core := t.core } } ∧ t.parked = u.parked
      ∧ t.mem.mem = memPut u.mem.mem p.wkey (u.rg o.d).v 0xFF ∧ (t.mem.psn.contains p.wkey = (u.rg o.d).psn)
      ∧ (∀ k, k ≠ p.wkey → t.mem.psn.contains k = u.mem.psn.contains k)
      ∧ (u.Canonical → ∀ a, a < p.wkey ∨ p.wkey + 8 ≤ a → memGet t.mem.mem a = memGet u.mem.mem a))

/-- R109: the checks of the AS's memory operands, in the order of the table, with the cause of the first that fails; R166: those of the
addresses the ES pops. -/
def Sys2Proof.Claims.AccessChecks : Prop :=
  (∀ (s : State) (n : Need) (base : Word) (off8 : BitVec 8),
    let off := offOf base off8
    (off < 0 ∨ 2 ^ 58 ≤ off → s.asAccess n base off8 = (s, .error 0x07))
    ∧ (0 ≤ off → off < 2 ^ 58 →
      (off % 8 ≠ 0 → s.asAccess n base off8 = (s, .error 0x06))
      ∧ (off % 8 = 0 →
        (segAt s.cell.segs (segNo base) = none → s.asAccess n base off8 = (s, .error 0x08))
        ∧ ∀ e, segAt s.cell.segs (segNo base) = some e →
          let kind := e.kind ∈ n.kinds ∧ (s.cell.id.die = 6 → e.kind = 0)
          let inside := off.toNat + 8 ≤ e.size ∧ (e.loc = 0 → e.base + off.toNat + 8 ≤ Config.spBytes s.cell.id.die)
          let may := (n.r = true → e.permR = true) ∧ (n.w = true → e.permW = true)
          (¬ kind → s.asAccess n base off8 = (s, .error 0x09))
          ∧ (kind → ¬ inside → s.asAccess n base off8 = (s, .error 0x07))
          ∧ (kind → inside → ¬ may → s.asAccess n base off8 = (s, .error 0x0A))
          ∧ (kind → inside → may →
            let x := s.xlate { s.cx 0 .as with rd := n.r } (segNo base) e off.toNat n.w
            (x.2 = .error .notPresent → s.asAccess n base off8 = (x.1, .error 0x0B))
            ∧ (x.2 = .error .mapping → s.asAccess n base off8 = (x.1, .error 0x0C))
            ∧ ∀ y, x.2 = .ok y →
              let leaf := y.eo = false ∧ (n.r = true → y.r = true) ∧ (n.w = true → y.w = true)
              (¬ leaf → s.asAccess n base off8 = (x.1, .error 0x0A))
              ∧ (leaf → y.cmp = true → s.asAccess n base off8 = (x.1, .error 0x0D))
              ∧ (leaf → y.cmp = false → s.asAccess n base off8 = (x.1, .ok y.place))))))
  ∧ (∀ (s : State) (n : Need) (base : Word) (fn : BitVec 8) (len : Nat),
    let off := (base.extractLsb' 0 58).toNat + fn.toNat * 256
    (2 ^ 58 ≤ off → s.esAccess n base fn len = .error 0x07)
    ∧ (off < 2 ^ 58 →
      (off % 8 ≠ 0 → s.esAccess n base fn len = .error 0x06)
      ∧ (off % 8 = 0 →
        (segAt s.cell.segs (segNo base) = none → s.esAccess n base fn len = .error 0x08)
        ∧ ∀ e, segAt s.cell.segs (segNo base) = some e →
          let kind := e.kind ∈ n.kinds ∧ (s.cell.id.die = 6 → e.kind = 0)
          let inside := off + len ≤ e.size ∧ (e.loc = 0 → e.base + off + len ≤ Config.spBytes s.cell.id.die)
          let may := (n.r = true → e.permR = true) ∧ (n.w = true → e.permW = true)
          (¬ kind → s.esAccess n base fn len = .error 0x09)
          ∧ (kind → ¬ inside → s.esAccess n base fn len = .error 0x07)
          ∧ (kind → inside → ¬ may → s.esAccess n base fn len = .error 0x0A)
          ∧ (kind → inside → may → s.esAccess n base fn len = .ok (spadPlace s.cell.id (e.base + off))))))
  ∧ (needSpadR = ⟨[3, 2], true, false⟩ ∧ needSpadW = ⟨[3, 2], false, true⟩ ∧ needLinR = ⟨[0], true, false⟩ ∧ needLinW = ⟨[0], false, true⟩
    ∧ needLinRW = ⟨[0], true, true⟩ ∧ needWait = ⟨[0, 3, 2], true, false⟩)

/-- R109, R116, R153: a memory operand that fails a check traps with the cause of the first check that fails and the effective
address; a tagged operand traps with its value, the address before the data (R109). Which check fails first: see AccessChecks. The SC
operations: see ScOperations. -/
def Obligations.FailedCheckTraps : Prop :=
  AccessChecks
  ∧ (∀ (s u : State) (o : OpMem) (c : Nat), GuardOn s o.pg → Clean s o.base →
    s.asAccess needSpadR (s.rg o.base).v o.off = (u, .error c) →
    exec (.lds o) s = .next (u.trap c (eaOf (s.rg o.base).v o.off)))
  ∧ (∀ (s u : State) (o : OpMem) (c : Nat), GuardOn s o.pg → Clean s o.base → Checked s → s.lateNow = false →
    s.asAccess needLinW (s.rg o.base).v o.off = (u, .error c) →
    exec (.st o) s = .next (u.trap c (eaOf (s.rg o.base).v o.off)) ∧ exec (.stRel o) s = .next (u.trap c (eaOf (s.rg o.base).v o.off)))
  ∧ (∀ (s u : State) (o : OpMem) (c : Nat), GuardOn s o.pg → Clean s o.base → Checked s →
    s.asAccess needSpadW (s.rg o.base).v o.off = (u, .error c) →
    exec (.sts o) s = .next (u.trap c (eaOf (s.rg o.base).v o.off)))
  ∧ (∀ (s u : State) (o : OpMemQ) (c : Nat), GuardOn s o.pg → Clean s o.base → s.qFull o.q = false → Checked s → s.lateNow = false →
    s.asAccess needLinR (s.rg o.base).v o.off = (u, .error c) →
    exec (.ldq o) s = .next (u.trap c (eaOf (s.rg o.base).v o.off)) ∧ exec (.ldqAcq o) s = .next (u.trap c (eaOf (s.rg o.base).v o.off)))
  ∧ (∀ (s u : State) (o : OpStq) (c : Nat), GuardOn s o.pg → Clean s o.base → Checked s →
    s.asAccess needLinW (s.rg o.base).v o.off = (u, .error c) →
    exec (.stq o) s = .next (u.trap c (eaOf (s.rg o.base).v o.off)))
  ∧ (∀ (s u : State) (o : OpAmo) (p : OpCas) (c : Nat), s.qFull .lq = false → Checked s → s.lateNow = false →
    (GuardOn s o.pg → Clean s o.a → Clean s o.b → s.asAccess needLinRW (s.rg o.a).v 0 = (u, .error c) →
      exec (.amo o) s = .next (u.trap c (eaOf (s.rg o.a).v 0)))
    ∧ (GuardOn s p.pg → Clean s p.a → Clean s p.b → Clean s p.d → s.asAccess needLinRW (s.rg p.a).v 0 = (u, .error c) →
      exec (.cas p) s = .next (u.trap c (eaOf (s.rg p.a).v 0))))
  ∧ (∀ (s u : State) (o : OpHint) (c : Nat), GuardOn s o.pg → Clean s o.base → Checked s → s.lateNow = false →
    s.asAccess needLinR (s.rg o.base).v o.off = (u, .error c) →
    exec (.cwb o) s = .next (u.trap c (eaOf (s.rg o.base).v o.off)) ∧ exec (.cinv o) s = .next (u.trap c (eaOf (s.rg o.base).v o.off)))
  ∧ (∀ (s u : State) (o : OpWaita) (c : Nat), GuardOn s o.pg → Clean s o.a → Clean s o.b → Clean s o.d → Checked s →
    (s.reachWait o).asAccess needWait (s.rg o.a).v 0 = (u, .error c) →
    exec (.waita o) s = .next (u.trap c (eaOf (s.rg o.a).v 0)))
  ∧ (∀ (s : State) (o : OpMem), GuardOn s o.pg → (s.rg o.base).psn = true →
    let t := s.trap cPoison (s.rg o.base).v
    exec (.lds o) s = .next t ∧ exec (.sts o) s = .next t ∧ exec (.st o) s = .next t ∧ exec (.stRel o) s = .next t)
  ∧ (∀ (s : State) (o : OpMemQ) (x : OpStq) (y : OpHint),
    (GuardOn s o.pg → (s.rg o.base).psn = true → exec (.ldq o) s = .next (s.trap cPoison (s.rg o.base).v)
      ∧ exec (.ldqAcq o) s = .next (s.trap cPoison (s.rg o.base).v))
    ∧ (GuardOn s x.pg → (s.rg x.base).psn = true → exec (.stq x) s = .next (s.trap cPoison (s.rg x.base).v))
    ∧ (GuardOn s y.pg → (s.rg y.base).psn = true → exec (.cwb y) s = .next (s.trap cPoison (s.rg y.base).v)
      ∧ exec (.cinv y) s = .next (s.trap cPoison (s.rg y.base).v)))
  ∧ (∀ (s : State) (o : OpAmo), GuardOn s o.pg →
    ((s.rg o.a).psn = true → exec (.amo o) s = .next (s.trap cPoison (s.rg o.a).v))
    ∧ (Clean s o.a → (s.rg o.b).psn = true → exec (.amo o) s = .next (s.trap cPoison (s.rg o.b).v)))
  ∧ (∀ (s : State) (o : OpCas), GuardOn s o.pg →
    ((s.rg o.a).psn = true → exec (.cas o) s = .next (s.trap cPoison (s.rg o.a).v))
    ∧ (Clean s o.a → (s.rg o.b).psn = true → exec (.cas o) s = .next (s.trap cPoison (s.rg o.b).v))
    ∧ (Clean s o.a → Clean s o.b → (s.rg o.d).psn = true → exec (.cas o) s = .next (s.trap cPoison (s.rg o.d).v)))
  ∧ (∀ (s : State) (o : OpWaita), GuardOn s o.pg →
    ((s.rg o.a).psn = true → exec (.waita o) s = .next (s.trap cPoison (s.rg o.a).v))
    ∧ (Clean s o.a → (s.rg o.b).psn = true → exec (.waita o) s = .next (s.trap cPoison (s.rg o.b).v))
    ∧ (Clean s o.a → Clean s o.b → (s.rg o.d).psn = true → exec (.waita o) s = .next (s.trap cPoison (s.rg o.d).v)))

/-- The queue a queued load names, as the operation in flight keeps it. -/
def Sys2Proof.Claims.loadKind (q : LQueue) : MKind := match q with | .q i => .load (some i) | .lq => .load none

/-- R113, R114, R126: a queued load that finds an entry issues at once: its entry is reserved and the access joins those in
flight. LDX never traps: what would fail a check, or has a tagged base, pushes a tagged entry with the effective address. -/
def Obligations.QueuedLoadIssues : Prop :=
  (∀ (s u : State) (o : OpMemQ) (p : Place), GuardOn s o.pg → Clean s o.base → s.qFull o.q = false → Checked s →
    s.lateNow = false → s.asAccess needLinR (s.rg o.base).v o.off = (u, .ok p) →
    let ea := eaOf (s.rg o.base).v o.off
    exec (.ldq o) s = .next ((((u.addOp (loadKind o.q) o.cls .cell ea (some p) none none).reserve o.q u.cell.mseq)).retire)
    ∧ exec (.ldqAcq o) s =
      .next ((((u.addOp (loadKind o.q) o.cls .cell ea (some p) (some s.cell.as.sys.acqm) none).reserve o.q u.cell.mseq)).retire)
    ∧ exec (.ldx o) s = .next ((((u.addOp (loadKind o.q) o.cls .cell ea (some p) none none).reserve o.q u.cell.mseq)).retire))
  ∧ (∀ (s u : State) (o : OpMemQ) (c : Nat), GuardOn s o.pg → Clean s o.base → s.qFull o.q = false → Checked s →
    s.asAccess needLinR (s.rg o.base).v o.off = (u, .error c) →
    exec (.ldx o) s = .next ((u.updQs fun k => k.setLqOf o.q
      (k.lqOf o.q ++ [⟨eaOf (s.rg o.base).v o.off, true, true, u.pkg.time.clk, u.cell.mseq⟩])).retire))
  ∧ (∀ (s : State) (o : OpMemQ), GuardOn s o.pg → s.qFull o.q = false → Checked s → (s.rg o.base).psn = true →
    exec (.ldx o) s = .next ((s.updQs fun k => k.setLqOf o.q
      (k.lqOf o.q ++ [⟨eaOf (s.rg o.base).v o.off, true, true, s.pkg.time.clk, s.cell.mseq⟩])).retire))
  ∧ (∀ (s : State) (o : OpMemQ), GuardOn s o.pg → Clean s o.base → s.qFull o.q = true → Checked s →
    exec (.ldq o) s = .next s ∧ exec (.ldqAcq o) s = .next s ∧ exec (.ldx o) s = .next s)

/-- R116, R117, R126: stores and atomics issue at once and join the accesses in flight; STQ pops its queue when it issues. A store
whose checks finish late issues all the same, and what a failure takes back is kept. -/
def Obligations.StoreAndAtomicIssue : Prop :=
  (∀ (s u : State) (o : OpMem) (p : Place), GuardOn s o.pg → Clean s o.base → Checked s → s.lateNow = false →
    s.asAccess needLinW (s.rg o.base).v o.off = (u, .ok p) →
    let ea := eaOf (s.rg o.base).v o.off
    exec (.st o) s = .next ((u.addOp (.store (s.rg o.d).v (s.rg o.d).psn) o.cls .cell ea (some p) none none).retire)
    ∧ exec (.stRel o) s =
      .next ((u.addOp (.store (s.rg o.d).v (s.rg o.d).psn) o.cls .cell ea (some p) none (some s.cell.as.sys.relm)).retire))
  ∧ (∀ (s u : State) (o : OpStq) (p : Place) (e : QEnt) (r : List QEnt), GuardOn s o.pg → Clean s o.base → Checked s →
    s.asAccess needLinW (s.rg o.base).v o.off = (u, .ok p) → popHead s.pkg.time.clk (s.cell.qs.yq o.y) = some (e, r) →
    exec (.stq o) s = .next (((u.updQs fun k => k.setYq o.y r).addOp (.store e.v e.psn) o.cls .cell
      (eaOf (s.rg o.base).v o.off) (some p) none none).retire))
  ∧ (∀ (s u : State) (o : OpAmo) (p : Place), GuardOn s o.pg → Clean s o.a → Clean s o.b → s.qFull .lq = false → Checked s →
    s.lateNow = false → s.asAccess needLinRW (s.rg o.a).v 0 = (u, .ok p) →
    exec (.amo o) s = .next (((u.addOp (.amo o.op (s.rg o.b).v) o.cls o.scope (eaOf (s.rg o.a).v 0) (some p) none none).reserve
      .lq u.cell.mseq).retire))
  ∧ (∀ (s u : State) (o : OpCas) (p : Place), GuardOn s o.pg → Clean s o.a → Clean s o.b → Clean s o.d → s.qFull .lq = false →
    Checked s → s.lateNow = false → s.asAccess needLinRW (s.rg o.a).v 0 = (u, .ok p) →
    exec (.cas o) s = .next (((u.addOp (.cas (s.rg o.b).v (s.rg o.d).v) o.cls o.scope (eaOf (s.rg o.a).v 0) (some p) none none).reserve
      .lq u.cell.mseq).retire))
  ∧ (∀ (s : State) (o : OpMem), GuardOn s o.pg → Clean s o.base → s.lateNow = true →
    0 ≤ offOf (s.rg o.base).v o.off → offOf (s.rg o.base).v o.off < 2 ^ 58 →
    exec (.st o) s =
      .next ((s.addOp (.store (s.rg o.d).v (s.rg o.d).psn) o.cls .cell (eaOf (s.rg o.base).v o.off) none none none).retire)
    ∧ (s.addOp (.store (s.rg o.d).v (s.rg o.d).psn) o.cls .cell (eaOf (s.rg o.base).v o.off) none none none).cell.snaps
      = s.cell.snaps ++ [⟨s.cell.mseq, s.core, s.cell.qs.lq, s.cell.as.latchP, s.cell.as.latchK, s.cell.as.latchM⟩])

/-- R113, R116, R118, R123, R258: what operations in flight do when they perform: a load delivers the word to its entry, a store
writes its word at cell scope, an atomic delivers the old value and writes the new one unless the word is marked. A write becomes
visible at wider scopes one at a time; at the widest its bytes, and no others, are in memory. -/
def Obligations.OperationsPerform : Prop :=
  (∀ (s : State) (n : Nat) (o : MOp) (q : Option (BitVec 2)) (p : Place), s.cell.mops[n]? = some o → o.kind = .load q →
    o.place = some p → p.loc ≠ locMgmt → s.mayPerform n = true →
    let u := s.passLine (s.cell.who 0) s.cell p o.addr
    let r := (u.readW (u.cell.who 0) p o.addr).1.loadVal (u.readW (u.cell.who 0) p o.addr).2
    exec (.loadArrival n) s = .next ((r.1.dropOp n).arriveAt q o.seq r.2))
  ∧ (∀ (s : State) (n : Nat) (o : MOp) (v : Word) (psn : Bool) (p : Place), s.cell.mops[n]? = some o → o.kind = .store v psn →
    o.place = some p → p.loc ≠ locMgmt → s.mayPerform n = true →
    ∃ t, exec (.writePerform true n) s = .next t ∧ t.cell = { s.cell with mops := dropAt s.cell.mops n } ∧ t.parked = s.parked
      ∧ (p.loc ≠ 0 → s.mem.keyFits p = true → t.mem.mem = s.mem.mem)
      ∧ (p.loc = 0 → t.mem.mem = memPut s.mem.mem p.wkey v 0xFF))
  ∧ (∀ (s : State) (n : Nat) (o : MOp) (p : Place), s.cell.mops[n]? = some o → o.place = some p → p.loc ≠ locMgmt →
    s.mayPerform n = true →
    let u := s.passLine (s.cell.who 0) s.cell p o.addr
    let r := u.readNew (u.cell.who 0) p o.addr
    let done := fun (v : Word) =>
      r.1.writeAtW o.seq o.cls o.since p v false (max (scopeReach o.scope) (if r.1.cell.fused then 1 else 0))
    (∀ op v, o.kind = .amo op v → exec (.loadArrival n) s =
      .next (((if r.2.psn then r.1 else done (amoResult op r.2.v v)).dropOp n).arriveAt none o.seq r.2))
    ∧ (∀ c v, o.kind = .cas c v → exec (.loadArrival n) s =
      .next (((if r.2.psn = false ∧ r.2.v = c then done v else r.1).dropOp n).arriveAt none o.seq r.2)))
  ∧ (∀ (s : State) (seq : Nat) (cls : Cls) (since r : Nat) (p : Place) (v : Word) (psn : Bool), s.mem.keyFits p = true →
    let t := s.writeAtW seq cls since p v psn r
    (¬ finalReach (keyLoc p.wkey) ≤ r → t.mem.mem = s.mem.mem)
    ∧ (finalReach (keyLoc p.wkey) ≤ r → t.mem.mem = memPut s.mem.mem p.wkey v 0xFF
        ∧ (s.Canonical → ∀ a, a < p.wkey ∨ p.wkey + 8 ≤ a → memGet t.mem.mem a = memGet s.mem.mem a)))
  ∧ (∀ (s : State) (n : Nat) (w : PWrite), s.mem.writes[n]? = some w → s.mem.mayWiden n = true →
    exec (.writePerform false n) s = .next (s.updMem fun m => m.widen n)
      ∧ (w.reach + 1 < finalReach (keyLoc w.key) → (s.mem.widen n).mem = s.mem.mem)
      ∧ (¬ w.reach + 1 < finalReach (keyLoc w.key) → (s.mem.widen n).mem = memPut s.mem.mem w.key w.val w.mask
          ∧ (s.Canonical → ∀ a, a < w.key ∨ w.key + 8 ≤ a → memGet (s.mem.widen n).mem a = memGet s.mem.mem a)))
  ∧ (∀ (s : State) (n : Nat) (o : MOp) (x : SemNo), n = 0 → s.cell.mops[n]? = some o → o.kind = .signal x →
    exec .heldSignal s = .next ((s.dropOp 0).signal x))

/-- R120, R284: a prefetch changes no register, queue, semaphore or other cell, and no byte of memory, but that its walk may set bit A (47)
of the leaf it finds, and load the AS's TLB. -/
def Sys2Proof.Claims.PrefetchHides : Prop :=
  ∀ (s : State) (o : OpHint), GuardOn s o.pg →
    let a := (s.rg o.base).v
    let off := (offOf a o.off).toNat
    ∃ t, exec (.pf o) s = .next t ∧ t.core = s.core.advance.endTick ∧ t.parked = s.parked
      ∧ t.cell = { s.cell with as := { s.cell.as with core := t.core }, tlb := t.cell.tlb }
      ∧ (((s.rg o.base).psn = true ∨ ∀ e, segAt s.cell.segs (segNo a) = some e → e.pageable = false) →
          t.mem = { s.mem with lines := t.mem.lines })
      ∧ ∀ (e : SegEnt) (k : Place) (lf : Word), segAt s.cell.segs (segNo a) = some e → e.pageable = true →
        (s.walkDown (s.cell.who 0) (mkAddr (segNo a) off) (e.base + off) [4, 3, 2, 1] ⟨1, 0, 0, 0, 2, false⟩
          (if e.d3 = 0 then (s.ctx (ctxOf s.cell.as.sys.ctxid)).root else e.d3)).2 = some (k, lf) → s.mem.keyFits k = true →
        t.mem.mem = s.mem.mem ∨ t.mem.mem = memPut s.mem.mem k.wkey (lf ||| 1 <<< 47) 0xFF

/-- R115, R120 to R122, R125: PF, CWB, CINV, CHK, TLBI and FENCE complete. A prefetch changes no register, queue or semaphore, and but for
a leaf's A bit no byte of memory (see PrefetchHides). CHK of a tagged register traps with the value, of a tagged predicate with 0. -/
def Obligations.MaintenanceCompletes : Prop :=
  (∀ (s : State) (o : OpHint), GuardOn s o.pg →
    ∃ t, exec (.pf o) s = .next t ∧ t.core = s.core.advance.endTick ∧ t.cell.qs = s.cell.qs ∧ t.cell.mops = s.cell.mops
      ∧ t.cell.es = s.cell.es ∧ t.cell.sems = s.cell.sems ∧ t.cell.tiles = s.cell.tiles ∧ t.cell.as.sys = s.cell.as.sys)
  ∧ PrefetchHides
  ∧ (∀ (s u : State) (o : OpHint) (p : Place), GuardOn s o.pg → Clean s o.base → Checked s → s.lateNow = false →
    s.asAccess needLinR (s.rg o.base).v o.off = (u, .ok p) →
    let ea := eaOf (s.rg o.base).v o.off
    exec (.cwb o) s = .next ((u.addOp (.writeback false o.kind) o.cls .cell ea (some p) none none).retire)
    ∧ exec (.cinv o) s = .next ((u.addOp (.writeback true o.kind) o.cls .cell ea (some p) none none).retire))
  ∧ (∀ (s : State) (o : OpR), GuardOn s o.pg → Clean s o.a → Passes (.chk o) s)
  ∧ (∀ (s : State) (o : OpP), GuardOn s o.pg → (s.rp o.a).psn = false → Passes (.chkPred o) s)
  ∧ (∀ (s : State) (o : OpTlbi), GuardOn s o.pg → Clean s o.a → Checked s → s.cell.as.lvl ≠ .program →
    let a := (s.rg o.a).v
    let base := match segAt s.cell.segs (segNo a) with | some e => e.base | none => 0
    let page := (base + (a.extractLsb' 0 58).toNat) / 65536
    let keep := tlbKeep o.kind (segNo a) page
    let reach := min 3 (scopeReach o.scope)
    let drop := fun (c : Cell) => (if reach = 3 then c.tlbDue keep (s.pkg.time.t3 + 1500000) else c).tlbDrop keep
    let isDue := fun (w : Wback) => w.due = none ∧ w.uses s.cell.segs keep = true
    ∃ t : State, exec (.tlbi o) s = .next t ∧ t.core = s.core.advance.endTick ∧ t.mem = { s.mem with wbacks := t.mem.wbacks }
      ∧ (reach ≠ 3 → t.mem = s.mem)
      ∧ (reach = 3 → t.mem.wbacks.map (fun w => { w with due := none }) = s.mem.wbacks.map (fun w => { w with due := none })
        ∧ ∀ (n : Nat) (w : Wback), s.mem.wbacks[n]? = some w → w.cell = s.cell.id → isDue w →
          t.mem.wbacks[n]? = some { w with due := some (s.pkg.time.t3 + 1500000) })
      ∧ t.cell = { drop s.cell with as := { s.cell.as with core := t.core } }
      ∧ t.parked = s.parked.map (fun (c : Cell) =>
          if sameUnit reach c.id s.cell.id ∧ ctxOf c.as.sys.ctxid = ctxOf s.cell.as.sys.ctxid then drop c else c)
      ∧ (∀ e, keep e = (match o.kind with
          | .page => !(e.seg = segNo a && e.page = page)
          | .segment => e.seg ≠ segNo a
          | .all => false)))
  ∧ (∀ (c : Cell) (keep : TlbEnt → Bool) (d : Nat),
    c.tlbDrop keep = { c with
      tlb := c.tlb.filter keep, tlbMx := c.tlbMx.filter keep, tlbCe0 := c.tlbCe0.filter keep
      tlbCe1 := c.tlbCe1.filter keep, tlbXe := c.tlbXe.filter keep }
    ∧ (let x := c.tlbDue keep d
      x.as = c.as ∧ x.es = c.es ∧ x.qs = c.qs ∧ x.sems = c.sems ∧ x.tiles = c.tiles ∧ x.segs = c.segs ∧ x.tlb = c.tlb
        ∧ x.mops.map (fun o => { o with due := none }) = c.mops.map fun o => { o with due := none }))
  ∧ (∀ (s : State) (o : OpFence), GuardOn s o.pg → Checked s → s.fenceOpen o.mask (scopeReach o.scope) = false →
    Passes (.fence o) s)
  ∧ (∀ (s : State) (o : OpFence), GuardOn s o.pg → Checked s → s.fenceOpen o.mask (scopeReach o.scope) = true →
    exec (.fence o) s = .next s)
  ∧ (∀ (s : State) (o : OpR), GuardOn s o.pg → (s.rg o.a).psn = true → exec (.chk o) s = .next (s.trap cPoison (s.rg o.a).v))
  ∧ (∀ (s : State) (o : OpP), GuardOn s o.pg → (s.rp o.a).psn = true → exec (.chkPred o) s = .next (s.trap cPoison 0))

/-- R269: an SC operation of class `cls` may take the present wheel position: the cell owns it and no other SC operation of the cell
has taken it, and every earlier access of the AS in the class has performed at package scope. -/
def Sys2Proof.Claims.ScTurn (s : State) (cls : Cls) : Prop :=
  (∃ w, s.wheelPos = some w ∧ w ∈ s.wheelOwned) ∧ s.cell.lastSc ≠ some (s.pkg.time.t3 / 5) ∧ Checked s ∧ s.cell.classFree cls = true
    ∧ ∀ w ∈ s.mem.writes, w.cell = s.cell.id → w.eng = false → w.seq < s.cell.mseq → w.cls = cls → 3 ≤ w.reach

/-- R266, R270: every write the AS sees has performed at package scope. -/
def Sys2Proof.Claims.ScSees (s : State) : Prop := ∀ w ∈ s.mem.writes, sameUnit w.reach w.cell s.cell.id = true → 3 ≤ w.reach

/-- The position is taken (R269). -/
def Sys2Proof.Claims.scTake (s u : State) : State := u.updFocus fun c => { c with lastSc := some (s.pkg.time.t3 / 5) }

/-- The position is taken, and the line of the word read is at hand (R119). -/
def Sys2Proof.Claims.scPass (s u : State) (p : Place) (ea : Word) : State :=
  (scTake s u).passLine ((scTake s u).cell.who 0) (scTake s u).cell p ea

/-- R124, R262, R269, R270: SC operations act at a wheel position their cell owns: SCLD reads into lq, SCST writes at package scope,
SCAMO does both, after what agents of the package have written to its word; until the position comes they wait; a failing operand traps, and a cell that owns no position traps with the wheel
cause. -/
def Obligations.ScOperations : Prop :=
  (∀ (s u : State) (o : OpScld) (p : Place), GuardOn s o.pg → Clean s o.a → s.qFull .lq = false → s.wheelOwned ≠ [] →
    s.asAccess needLinR (s.rg o.a).v 0 = (u, .ok p) →
    (ScTurn s o.cls →
      let v := scPass s u p (eaOf (s.rg o.a).v 0)
      let r := (v.readW (v.cell.who 0) p (eaOf (s.rg o.a).v 0)).1.loadVal (v.readW (v.cell.who 0) p (eaOf (s.rg o.a).v 0)).2
      exec (.scld o) s = .next ((r.1.pushLq r.2).nextSeq.retire))
    ∧ (¬ ScTurn s o.cls → exec (.scld o) s = .next s))
  ∧ (∀ (s u : State) (o : OpScst) (p : Place), GuardOn s o.pg → Clean s o.a → s.qFull .lq = false → s.wheelOwned ≠ [] →
    s.asAccess needLinW (s.rg o.a).v 0 = (u, .ok p) →
    (ScTurn s o.cls → ScSees s →
      let v := (scTake s u).touchStore ((scTake s u).cell.who 0) (scTake s u).cell p
      let t := ((v.writeAtW v.cell.mseq o.cls v.pkg.time.t3 p (u.rg o.b).v (u.rg o.b).psn 3).nextSeq.retire)
      exec (.scst o) s = .next t
        ∧ (u.mem.keyFits p = true →
          t.mem.mem = if finalReach (keyLoc p.wkey) ≤ 3 then memPut u.mem.mem p.wkey (u.rg o.b).v 0xFF else u.mem.mem))
    ∧ (¬ (ScTurn s o.cls ∧ ScSees s) → exec (.scst o) s = .next s))
  ∧ (∀ (s u : State) (o : OpAmo) (p : Place), GuardOn s o.pg → Clean s o.a → Clean s o.b → s.qFull .lq = false → s.wheelOwned ≠ [] →
    s.asAccess needLinRW (s.rg o.a).v 0 = (u, .ok p) →
    (ScTurn s o.cls → ScSees s →
      let v := (scPass s u p (eaOf (s.rg o.a).v 0)).updMem fun m => m.drawIn u.cell.id p.wkey 3
      let r := v.readNew (v.cell.who 0) p (eaOf (s.rg o.a).v 0)
      let w := if r.2.psn then r.1
        else r.1.writeAtW v.cell.mseq o.cls v.pkg.time.t3 p (amoResult o.op r.2.v (s.rg o.b).v) false 3
      exec (.scamo o) s = .next ((w.pushLq r.2).nextSeq.retire))
    ∧ (¬ (ScTurn s o.cls ∧ ScSees s) → exec (.scamo o) s = .next s))
  ∧ (∀ (m : MemSt) (c : CellId) (k : Nat), ∀ w ∈ (m.drawIn c k 3).writes, w.key = k → sameUnit 3 w.cell c = true → 3 ≤ w.reach)
  ∧ (∀ (s : State) (x : TW), (s.pushLq x).cell.qs.lq = s.cell.qs.lq ++ [⟨x.v, x.psn, true, s.pkg.time.clk, s.cell.mseq⟩])
  ∧ (∀ (s u : State) (o : OpScld) (p : OpScst) (q : OpAmo) (z : Nat), s.qFull .lq = false → s.wheelOwned ≠ [] →
    (GuardOn s o.pg → Clean s o.a → s.asAccess needLinR (s.rg o.a).v 0 = (u, .error z) →
      exec (.scld o) s = .next (u.trap z (eaOf (s.rg o.a).v 0)))
    ∧ (GuardOn s p.pg → Clean s p.a → s.asAccess needLinW (s.rg p.a).v 0 = (u, .error z) →
      exec (.scst p) s = .next (u.trap z (eaOf (s.rg p.a).v 0)))
    ∧ (GuardOn s q.pg → Clean s q.a → Clean s q.b → s.asAccess needLinRW (s.rg q.a).v 0 = (u, .error z) →
      exec (.scamo q) s = .next (u.trap z (eaOf (s.rg q.a).v 0))))
  ∧ (∀ (s : State) (o : OpScld) (p : OpScst) (q : OpAmo),
    (s.qFull .lq = false → s.wheelOwned = [] →
      (GuardOn s o.pg → Clean s o.a → exec (.scld o) s = .next (s.trap cWheel 0))
      ∧ (GuardOn s p.pg → Clean s p.a → exec (.scst p) s = .next (s.trap cWheel 0))
      ∧ (GuardOn s q.pg → Clean s q.a → Clean s q.b → exec (.scamo q) s = .next (s.trap cWheel 0)))
    ∧ (s.qFull .lq = true →
      (GuardOn s o.pg → Clean s o.a → exec (.scld o) s = .next s) ∧ (GuardOn s p.pg → Clean s p.a → exec (.scst p) s = .next s)
      ∧ (GuardOn s q.pg → Clean s q.a → Clean s q.b → exec (.scamo q) s = .next s)))

/-! ## AS control and synchronisation (R128 to R145) -/

/-- R128 to R134, R157: branches, calls, loops, branch-outcome queues, REP, NOP. BRQ waits for an entry it may pop, BQP for a free one. -/
def Obligations.ControlCompletes : Prop :=
  (∀ (s : State) (o : OpPbr), GuardOn s o.pg → Writes (.pbr o) s 1 (.t o.t)
    (s.core.pc.extractLsb' 58 6 ++ (s.core.pc + o.imm.signExtend 64 * 4).extractLsb' 0 58) false)
  ∧ (∀ (s : State) (o : OpPbrR), GuardOn s o.pg → Clean s o.a → Writes (.pbrReg o) s 1 (.t o.t) (s.rg o.a).v false)
  ∧ (∀ (s : State) (o : OpT), GuardOn s o.pg → (s.core.rt o.t).valid = true →
    inSection s.cell.asbase s.cell.assize (s.core.rt o.t).addr = true →
    Jumps (.br o) s (s.core.rt o.t).addr
    ∧ (∃ t, exec (.call o) s = .next t ∧ OnlyCore s t
      ∧ t.core = ({ (s.core.push 1 (.g 31) (s.core.pc + 4) false) with pc := (s.core.rt o.t).addr, rep := none }).endTick)
    ∧ (∀ b r, Checked s → s.cell.qs.bqe = b :: r → b.from_ ≤ s.pkg.time.clk →
      ∃ t, exec (.brq o) s = .next t ∧ Moves s t (fun c => { c with qs := { s.cell.qs with bqe := r } })
        ∧ t.core = if b.v then ({ s.core with pc := (s.core.rt o.t).addr, rep := none }).endTick else s.core.advance.endTick))
  ∧ (∀ (s : State) (o : OpP), GuardOn s o.pg → (s.rp o.a).psn = false → Checked s → s.cell.qs.bqa.length < Config.capBq →
    ∃ t, exec (.bqp o) s = .next t ∧ t.core = s.core.advance.endTick
      ∧ Moves s t (fun c => { c with qs := { s.cell.qs with bqa := s.cell.qs.bqa ++ [⟨(s.rp o.a).v, s.ready⟩] } }))
  ∧ (∀ (s : State) (o : OpR), GuardOn s o.pg → Clean s o.a → inSection s.cell.asbase s.cell.assize (s.rg o.a).v = true →
    Jumps (.ret o) s (s.rg o.a).v)
  ∧ (∀ (s : State) (o : OpLoop), GuardOn s o.pg → Clean s o.a → (s.core.rt o.t).valid = true →
    inSection s.cell.asbase s.cell.assize (s.core.rt o.t).addr = true →
    if (s.rg o.a).v = 1 then Writes (.loop o) s 1 (.g o.a) 0 false
    else ∃ t, exec (.loop o) s = .next t ∧ OnlyCore s t
      ∧ t.core = ({ (s.core.push 1 (.g o.a) ((s.rg o.a).v - 1) false) with pc := (s.core.rt o.t).addr, rep := none }).endTick)
  ∧ (∀ (s : State) (o : OpT), GuardOn s o.pg → (s.core.rt o.t).valid = true →
    inSection s.cell.asbase s.cell.assize (s.core.rt o.t).addr = true →
    (s.cell.qs.bqe = [] ∨ ∃ b r, s.cell.qs.bqe = b :: r ∧ s.pkg.time.clk < b.from_) → exec (.brq o) s = .next s)
  ∧ (∀ (s : State) (o : OpP), GuardOn s o.pg → (s.rp o.a).psn = false → Config.capBq ≤ s.cell.qs.bqa.length →
    exec (.bqp o) s = .next s)
  ∧ (∀ (s : State) (o : OpG), GuardOn s o.pg → Passes (.nop o) s)
  ∧ (∀ (s u : State) (o : OpRep) (w : Word32) (i : Instr), s.fetchWord 0 s.cell.asbase s.cell.assize (s.core.pc + 4) = (u, some w) →
    decodeAs w = .ok i → stepsOk o (gFields i) = true →
    exec (.rep o) s = .next (u.setCore { u.core with rep := some ⟨o.cnt1.toNat + 1, 0, o.ds, o.sa, o.sb⟩ }))

/-- R100, R153: the tagged operands of the instructions of control, synchronisation and the system trap with the poison cause: a register with
its value, a predicate with 0; where there are several, in the order tested. -/
def Sys2Proof.Claims.PoisonedOperands : Prop :=
  (∀ (s : State) (o : OpPbrR), GuardOn s o.pg → (s.rg o.a).psn = true → exec (.pbrReg o) s = .next (s.trap cPoison (s.rg o.a).v))
  ∧ (∀ (s : State) (o : OpP), GuardOn s o.pg → (s.rp o.a).psn = true → exec (.bqp o) s = .next (s.trap cPoison 0))
  ∧ (∀ (s : State) (o : OpR), GuardOn s o.pg → (s.rg o.a).psn = true →
    let t := s.trap cPoison (s.rg o.a).v
    exec (.ret o) s = .next t ∧ exec (.waitt o) s = .next t ∧ exec (.estart o) s = .next t)
  ∧ (∀ (s : State) (o : OpLoop), GuardOn s o.pg → (s.rg o.a).psn = true → exec (.loop o) s = .next (s.trap cPoison (s.rg o.a).v))
  ∧ (∀ (s : State) (o : OpSrw), GuardOn s o.pg → sysWritable o.reg s.cell.as.lvl = true → (s.rg o.a).psn = true →
    exec (.srw o) s = .next (s.trap cPoison (s.rg o.a).v))
  ∧ (∀ (s : State) (o : OpTlbi), GuardOn s o.pg → s.cell.as.lvl ≠ .program → (s.rg o.a).psn = true →
    exec (.tlbi o) s = .next (s.trap cPoison (s.rg o.a).v))
  ∧ (∀ (s : State) (o : OpFork), GuardOn s o.pg →
    ((s.rg o.a).psn = true → exec (.fork o) s = .next (s.trap cPoison (s.rg o.a).v))
    ∧ (Clean s o.a → (s.rg o.b).psn = true → exec (.fork o) s = .next (s.trap cPoison (s.rg o.b).v))
    ∧ (Clean s o.a → Clean s o.b → (s.rg o.d).psn = true → exec (.fork o) s = .next (s.trap cPoison (s.rg o.d).v)))
  ∧ (∀ (s : State) (o : OpJoin), GuardOn s o.pg →
    ((s.rg o.a).psn = true → exec (.join o) s = .next (s.trap cPoison (s.rg o.a).v))
    ∧ (Clean s o.a → (s.rg o.b).psn = true → exec (.join o) s = .next (s.trap cPoison (s.rg o.b).v)))
  ∧ (∀ (s : State) (o : OpEnq), GuardOn s o.pg →
    ((s.rg o.a).psn = true → exec (.enq o) s = .next (s.trap cPoison (s.rg o.a).v))
    ∧ (Clean s o.a → (s.rg o.b).psn = true → exec (.enq o) s = .next (s.trap cPoison (s.rg o.b).v)))
  ∧ (∀ (s : State) (o : OpEnqs), GuardOn s o.pg → (s.rg o.a).psn = true → exec (.enqs o) s = .next (s.trap cPoison (s.rg o.a).v))

/-- R86, R129, R131 to R133, R153: an invalid or outlying target traps at the branch, of LOOP also where it would fall through; BRQ pops nothing
then; for tagged operands see PoisonedOperands. TRAPVAL of an illegal REP is the word
of the prefix, by inference (log 18). -/
def Obligations.BadTargetTraps : Prop :=
  (∀ (s : State) (o : OpT), GuardOn s o.pg → (s.core.rt o.t).valid = false →
    exec (.br o) s = .next (s.trap cTarget (o.t.zeroExtend 64)) ∧ exec (.brq o) s = .next (s.trap cTarget (o.t.zeroExtend 64))
    ∧ exec (.call o) s = .next (s.trap cTarget (o.t.zeroExtend 64)))
  ∧ (∀ (s : State) (o : OpT), GuardOn s o.pg → (s.core.rt o.t).valid = true →
    inSection s.cell.asbase s.cell.assize (s.core.rt o.t).addr = false →
    exec (.br o) s = .next (s.trap cFetch (s.core.rt o.t).addr) ∧ exec (.brq o) s = .next (s.trap cFetch (s.core.rt o.t).addr)
    ∧ exec (.call o) s = .next (s.trap cFetch (s.core.rt o.t).addr))
  ∧ (∀ (s : State) (o : OpR), GuardOn s o.pg → Clean s o.a → inSection s.cell.asbase s.cell.assize (s.rg o.a).v = false →
    exec (.ret o) s = .next (s.trap cFetch (s.rg o.a).v))
  ∧ (∀ (s : State) (o : OpLoop), GuardOn s o.pg → Clean s o.a →
    ((s.core.rt o.t).valid = false → exec (.loop o) s = .next (s.trap cTarget (o.t.zeroExtend 64)))
    ∧ ((s.core.rt o.t).valid = true → inSection s.cell.asbase s.cell.assize (s.core.rt o.t).addr = false →
      exec (.loop o) s = .next (s.trap cFetch (s.core.rt o.t).addr)))
  ∧ PoisonedOperands
  ∧ (∀ (s : State) (o : OpRep) (u : State) (w : Word32) (i : Instr),
    s.fetchWord 0 s.cell.asbase s.cell.assize (s.core.pc + 4) = (u, some w) → decodeAs w = .ok i → stepsOk o (gFields i) = false →
    exec (.rep o) s = .next ((u.setCore { u.core with rep := some ⟨o.cnt1.toNat + 1, 0, o.ds, o.sa, o.sb⟩ }).trap cIllegal
      (wordOf (.rep o))))

/-- R137, R138: POP takes the head and its tag, QPUSH appends, both block when they cannot; QSTAT reads a status word of capacity,
entries, and entries arrived before the first that has not; other fn values and queue codes are illegal. -/
def Obligations.QueueResult : Prop :=
  (∀ (s : State) (o : OpPop) (e : QEnt) (r : List QEnt), GuardOn s o.pg → Checked s →
    popHead s.pkg.time.clk (s.cell.qs.pq o.q) = some (e, r) →
    ∃ t, exec (.pop o) s = .next t ∧ t.core = ((s.core.push 1 (.g o.d) e.v e.psn).advance).endTick
      ∧ Moves s t (fun c => { c with qs := s.cell.qs.setPq o.q r }))
  ∧ (∀ (s : State) (o : OpPop), GuardOn s o.pg → Checked s → popHead s.pkg.time.clk (s.cell.qs.pq o.q) = none →
    exec (.pop o) s = .next s)
  ∧ (∀ (s : State) (o : OpQpush), GuardOn s o.pg → Checked s → (s.cell.qs.dq o.q).length < Config.capQ →
    ∃ t, exec (.qpush o) s = .next t ∧ t.core = s.core.advance.endTick ∧ Moves s t (fun c => { c with
      qs := s.cell.qs.setDq o.q (s.cell.qs.dq o.q ++ [⟨(s.rg o.b).v, (s.rg o.b).psn, true, s.ready, s.cell.mseq⟩]) }))
  ∧ (∀ (s : State) (o : OpQpush), GuardOn s o.pg → Checked s → Config.capQ ≤ (s.cell.qs.dq o.q).length →
    exec (.qpush o) s = .next s)
  ∧ (∀ (s : State) (o : OpQstat), GuardOn s o.pg → Writes (.qstat o) s 1 (.g o.d) (s.queueStatus o.q) false)
  ∧ (∀ s : State,
    let rdy := fun (l : List QEnt) => (l.takeWhile fun e => e.arrived && e.from_ ≤ s.pkg.time.clk).length
    let word := fun (cap occ rdy : Nat) =>
      (0 : BitVec 40) ++ (BitVec.ofNat 8 cap ++ (BitVec.ofNat 8 occ ++ BitVec.ofNat 8 rdy))
    (∀ i, s.queueStatus (.q i) = word 16 (s.cell.qs.dq i).length (rdy (s.cell.qs.dq i)))
    ∧ (∀ i, s.queueStatus (.y i) = word 16 (s.cell.qs.yq i).length (rdy (s.cell.qs.yq i)))
    ∧ s.queueStatus .lq = word 32 s.cell.qs.lq.length (rdy s.cell.qs.lq)
    ∧ s.queueStatus .bqa = word 8 s.cell.qs.bqa.length (s.cell.qs.bqa.countP fun e => e.from_ ≤ s.pkg.time.clk)
    ∧ s.queueStatus .bqe = word 8 s.cell.qs.bqe.length (s.cell.qs.bqe.countP fun e => e.from_ ≤ s.pkg.time.clk))
  ∧ (∀ w : Word32, (asMajor w).toNat = 0x39 →
    (3 ≤ (asFn w).toNat ∨ ((asFn w).toNat = 0 ∧ ((asA w).toNat < 4 ∨ 6 < (asA w).toNat ∨ asB w ≠ 0))
      ∨ ((asFn w).toNat = 1 ∧ (3 < (asD w).toNat ∨ asA w ≠ 0)) ∨ ((asFn w).toNat = 2 ∧ (8 < (asA w).toNat ∨ asB w ≠ 0))) →
    ∃ e, decodeAs w = .error e)

/-- R22, R24: the overflows of this cycle that are noted once semaphore `n` has been signalled: its own too, where it stood at the
greatest count. -/
def Sys2Proof.Claims.overflowsOf (s : State) (n : SemNo) : List (SemNo × Nat) :=
  if s.sem n = some (.count 0xFFFF) then s.cell.ovfs.filter (·.2 = s.pkg.time.clk) ++ [(n, s.pkg.time.clk)] else s.cell.ovfs

/-- R22, R139 to R142: semaphores. -/
def Obligations.SemaphoreResult : Prop :=
  (∀ (s : State) (o : OpSem), GuardOn s o.pg → o.s ≠ 63 → s.cell.mops = [] →
    ∃ t, exec (.sems o) s = .next t ∧ t.core = s.core.advance.endTick
      ∧ Moves s t (fun c => { c with sems := t.cell.sems, ovfs := overflowsOf s o.s })
      ∧ (∀ n, n ≠ o.s → t.sem n = s.sem n)
      ∧ t.sem o.s = (s.sem o.s).map fun x => match x with
        | .count n => if n = 0xFFFF then .err 0x02 else .count (n + 1)
        | .err c => .err c)
  ∧ (∀ (s : State) (o : OpSem), GuardOn s o.pg → o.s ≠ 63 → s.cell.mops ≠ [] →
    exec (.sems o) s = .next ((s.addOp (.signal o.s) 0 .cell 0 (some (spadPlace s.cell.id 0)) none none).retire))
  ∧ (∀ (s : State) (o : OpSem) (n : BitVec 16), GuardOn s o.pg → Checked s → s.sem o.s = some (.count n) → n ≠ 0 →
    ∃ t, exec (.semw o) s = .next t ∧ t.core = s.core.advance.endTick
      ∧ Moves s t (fun c => { c with sems := t.cell.sems }) ∧ (∀ n, n ≠ o.s → t.sem n = s.sem n) ∧ t.sem o.s = some (.count (n - 1)))
  ∧ (∀ (s : State) (o : OpSem), GuardOn s o.pg → Checked s → s.sem o.s = some (.count 0) → exec (.semw o) s = .next s)
  ∧ (∀ (s : State) (o : OpSem) (c : Byte), GuardOn s o.pg → s.sem o.s = some (.err c) →
    exec (.semw o) s = .next (s.trap cSem ((o.s.zeroExtend 64 <<< 8) ||| c.zeroExtend 64)))
  ∧ (∀ (s : State) (o : OpSem), GuardOn s o.pg → o.s = 63 → Passes (.sems o) s ∧ Passes (.semw o) s ∧ Passes (.semdrop o) s)
  ∧ (∀ (s : State) (o : OpSem), GuardOn s o.pg → Checked s → o.s ≠ 63 → s.sigPending o.s = false →
    ∃ t, exec (.semdrop o) s = .next t ∧ t.core = s.core.advance.endTick
      ∧ Moves s t (fun c => { c with sems := t.cell.sems }) ∧ (∀ n, n ≠ o.s → t.sem n = s.sem n) ∧ t.sem o.s = some (.count 0))
  ∧ (∀ (s : State) (o : OpSemrd), GuardOn s o.pg →
    Writes (.semrd o) s 1 (.g o.d) (match s.sem o.s with
      | some (.count n) => n.zeroExtend 64 | some (.err c) => (1 <<< 16) ||| c.zeroExtend 64 | none => 0) false)

/-- R143 to R145: each pass of a WAITA reads its word: it ends false and tagged on a marked word, true on a match, false when its timeout
has come and the word is unequal, and either way on a match that falls within 200 cycles of the timeout; else it goes on waiting. A pass
may answer an older value (R119), but not once its word has stood equal for 200 cycles. No
cycle passes beyond the 200th after its timeout while it waits, unless it holds a report or its cell is gated (logs 2, 44). Its timeout
event makes such a pass. WAITT waits for TIME. -/
def Obligations.WaitResult : Prop :=
  (∀ (s u : State) (o : OpWaita) (p : Place), GuardOn s o.pg → Clean s o.a → Clean s o.b → Clean s o.d → Checked s →
    (s.reachWait o).asAccess needWait (s.rg o.a).v 0 = (u, .ok p) → u.cell.classFree o.cls = true →
    let w := u.passLine (u.cell.who 0) u.cell p (eaOf (s.rg o.a).v 0)
    let r := w.readAny (!w.waitDue) (w.cell.who 0) p (eaOf (s.rg o.a).v 0)
    let due := o.d ≠ 0 ∧ s.waitStart + (r.1.rg o.d).v.toNat ≤ r.1.timeNs
    let near := ∃ c, r.1.cell.as.wait.bind (·.rd) = some c ∧ r.1.pkg.time.clk ≤ c + 200
    (r.2.psn = true → exec (.waita o) s = .next (r.1.endWait o.f false true))
    ∧ (r.2.psn = false → r.2.v = (r.1.rg o.b).v → ¬ (due ∧ near) → exec (.waita o) s = .next (r.1.endWait o.f true false))
    ∧ (r.2.psn = false → r.2.v = (r.1.rg o.b).v → due → near → ∃ b,
        exec (.waita o) s = .next ({ r.1 with free := r.1.free + 1 }.endWait o.f b false))
    ∧ (r.2.psn = false → r.2.v ≠ (r.1.rg o.b).v → due → exec (.waita o) s = .next (r.1.endWait o.f false false))
    ∧ (r.2.psn = false → r.2.v ≠ (r.1.rg o.b).v → ¬ due →
        exec (.waita o) s = .next (r.1.waitOn o p)))
  ∧ (∀ (s : State) (o : OpWaita),
    (∀ y, s.cell.as.wait = some y → s.reachWait o = s ∧ s.waitStart = y.t0)
    ∧ (s.cell.as.wait = none → s.waitStart = s.timeNs ∧ (s.reachWait o).core = s.core ∧ (s.reachWait o).mem = s.mem
      ∧ ∃ y, (s.reachWait o).cell.as.wait = some y ∧ y.t0 = s.timeNs
        ∧ y.end_ = if o.d = 0 then none else some (s.timeNs + (s.rg o.d).v.toNat)))
  ∧ (∀ (s : State) (w : Who) (p : Place) (sa : Word),
    (s.waitDue = true ↔ ∃ y t, s.cell.as.wait = some y ∧ y.eq = some t ∧ t + 1000 < s.pkg.time.t3 + 5)
    ∧ s.readAny true w p sa = s.readW w p sa ∧ s.readAny false w p sa = s.readNew w p sa)
  ∧ (∀ (s : State) (o : OpWaita) (p : Place) (y : WaitSt), s.cell.as.wait = some y →
    (s.waitOn o p).core = s.core ∧ (s.waitOn o p).mem = s.mem ∧ (s.waitOn o p).cell.qs = s.cell.qs
      ∧ ∃ z, (s.waitOn o p).cell.as.wait = some z ∧ z.t0 = y.t0 ∧ z.end_ = y.end_ ∧ z.rd = some s.pkg.time.clk)
  ∧ (∀ (s : State) (y : WaitSt) (e n : Nat), s.cell.as.run = .running → s.cell.as.wait = some y → y.end_ = some e →
    s.cell.holding 0 = false → s.cell.gated = false → s.pkg.time.set = true →
    (s.passTime n).pkg.time.t3 ≤ max s.pkg.time.t3 (3 * e + 1000))
  ∧ (∀ (s : State) (f : PReg) (v psn : Bool), (s.endWait f v psn).cell.as.wait = none
      ∧ (s.endWait f v psn).core = ((s.core.push 1 (.p f) ((BitVec.ofBool v).zeroExtend 64) psn).advance).endTick)
  ∧ (∀ (s : State) (o : OpWaita) (y : WaitSt), s.cell.as.run = .running → s.cell.as.wait = some y → s.waitaHere = some o →
    exec .waitaTimeout s = exec (.waita o) s)
  ∧ (∀ (s : State) (o : OpR), GuardOn s o.pg → Clean s o.a → (s.rg o.a).v.toNat ≤ s.timeNs → Passes (.waitt o) s)
  ∧ (∀ (s : State) (o : OpR), GuardOn s o.pg → Clean s o.a → s.timeNs < (s.rg o.a).v.toNat → exec (.waitt o) s = .next s)

/-! ## AS system instructions (R146 to R157) -/

/-- R32, R156: at a level that may, SRR delivers a register and SRW writes it, reserved bits of the value ignored; every register that
some level may write reads back, and every other register, the rest of the cell, other cells and memory are as before (ENERGY of other
contexts but for the boundaries that have come, R375). A STATUS write with the reserved level keeps the level. -/
def Obligations.SystemRegisterResult : Prop :=
  (∀ (s : State) (o : OpSrr), GuardOn s o.pg → sysReadable o.reg s.cell.as.lvl = true →
    ∃ t, exec (.srr o) s = .next t ∧ t.core = ((s.core.push 1 (.g o.d) (s.sysRead o.reg) false).advance).endTick ∧ t.mem = s.mem
      ∧ (o.reg ≠ .time → t.cell = { s.cell with as := { s.cell.as with core := t.core } }))
  ∧ (∀ (s : State) (o : OpSrw), GuardOn s o.pg → Clean s o.a → Checked s → sysWritable o.reg s.cell.as.lvl = true →
    exec (.srw o) s = .next ((s.sysWrite o.reg (s.rg o.a).v).retire))
  ∧ (∀ (s : State) (v : Word), (s.sysWrite .wid v).sysRead .wid = v ∧ (s.sysWrite .frame v).sysRead .frame = v
      ∧ (s.sysWrite .joinp v).sysRead .joinp = v ∧ (s.sysWrite .tvec v).sysRead .tvec = v
      ∧ (s.sysWrite .trappc v).sysRead .trappc = v ∧ (s.sysWrite .trapcause v).sysRead .trapcause = v
      ∧ (s.sysWrite .trapval v).sysRead .trapval = v ∧ (s.sysWrite .pwlsave v).sysRead .pwlsave = v
      ∧ (s.sysWrite .etrappc v).sysRead .etrappc = v ∧ (s.sysWrite .etrapcause v).sysRead .etrapcause = v
      ∧ (s.sysWrite .etrapval v).sysRead .etrapval = v
      ∧ (s.sysWrite .acqm v).sysRead .acqm = v &&& 0xFFFF ∧ (s.sysWrite .relm v).sysRead .relm = v &&& 0xFFFF
      ∧ (s.sysWrite .traprep v).sysRead .traprep = v &&& 0xFFF ∧ (s.sysWrite .etraprep v).sysRead .etraprep = v &&& 0xFFF
      ∧ (s.sysWrite .esflags v).sysRead .esflags = s.sysRead .esflags &&& ~~~ v
      ∧ (s.sysWrite .ctxid v).sysRead .ctxid = v &&& 0x1FFFFF ∧ (s.sysWrite .widf v).sysRead .widf = v &&& 0x3FFFFFFFFFF
      ∧ (v.extractLsb' 0 2 ≠ 2 → (s.sysWrite .status v).sysRead .status = v &&& 0x1F)
      ∧ (v.extractLsb' 0 2 = 2 →
        (s.sysWrite .status v).sysRead .status = (v &&& 0x1C) ||| (levelCode s.cell.as.lvl).zeroExtend 64)
      ∧ (ctxOf s.cell.as.sys.ctxid < s.pkg.ctxs.length → (s.sysWrite .energy v).sysRead .energy = v &&& 0xFFFFFFFFFFFF))
  ∧ (∀ (s : State) (r : SysReg) (v : Word), let t := s.sysWrite r v
    t.parked = s.parked ∧ t.mem = s.mem ∧ t.agenda = s.agenda ∧ t.rr = s.rr ∧ t.free = s.free
      ∧ t.cell = { s.cell with
          as := { s.cell.as with lvl := t.cell.as.lvl, sys := t.cell.as.sys }, es := { s.cell.es with flags := t.cell.es.flags } }
      ∧ (r ≠ .status → t.cell.as.lvl = s.cell.as.lvl) ∧ (r ≠ .esflags → t.cell.es = s.cell.es) ∧ (r ≠ .energy → t.pkg = s.pkg)
      ∧ (r = .energy → t.cell = s.cell ∧ ∀ c, c ≠ ctxOf s.cell.as.sys.ctxid → t.pkg.ctxs[c]? = s.settleStatics.pkg.ctxs[c]?)
      ∧ ∀ q, q ≠ r → q ≠ .energy → (r = .status → q ≠ .timefr) → t.sysRead q = s.sysRead q)

/-- R41: what the save area at `p` holds in `t`: the writes `al` in AS slots 0 to 15 and `el` in the ES slots, every other slot with VALID
clear. -/
def Sys2Proof.Claims.Saved (t : State) (p : Place) (al : List Pend) (el : List EPend) : Prop :=
  ∀ k, k < 16 →
    (al[k]? = none → t.getSave p (16 * k) = ⟨0, false⟩)
    ∧ (∀ x, al[k]? = some x → t.getSave p (16 * k) = ⟨slotHeader 0 0 x.psn x.rem (destCode x.dest).1 (destCode x.dest).2, false⟩
        ∧ t.getSave p (16 * k + 8) = ⟨x.val, false⟩)
    ∧ (el[k]? = none → t.getSave p (esSlot k) = ⟨0, false⟩)
    ∧ (∀ x, el[k]? = some x →
        t.getSave p (esSlot k) = ⟨slotHeader x.flg (x.parts.length - 1) false x.rem (eclsCode x.cls) x.num, false⟩
        ∧ t.getSave p (esSlot k + 8) = ⟨psnMask x.parts, false⟩
        ∧ ∀ i y, x.parts[i]? = some y →
          (∀ j, j < 32 → t.getSave p (esSlot k + 0x10 + 256 * i + 8 * j) = ⟨y.val.extractLsb' (64 * j) 64, false⟩)
          ∧ ∀ j, j < 4 → t.getSave p (esSlot k + 0x2010 + 32 * i + 8 * j) = ⟨y.be.extractLsb' (64 * j) 64, false⟩)

/-- R41, R155: the writes in flight of the two lists fit in slots that RETT accepts, as those of instructions do. -/
def Sys2Proof.Claims.SlotsFit (al : List Pend) (el : List EPend) : Prop :=
  al.length ≤ 16 ∧ el.length ≤ 16 ∧ (∀ x ∈ al, 1 ≤ x.rem ∧ x.rem ≤ 14)
    ∧ ∀ x ∈ el, 1 ≤ x.rem ∧ x.rem ≤ 14 ∧ 1 ≤ x.parts.length ∧ (x.cls = .v → x.num + x.parts.length ≤ 32)
      ∧ (x.cls = .m → x.num + x.parts.length ≤ 8) ∧ (x.cls = .sh ∨ x.cls = .flags → x.num = 0 ∧ x.parts.length = 1 ∧ x.flg = 0)

/-- R40, R41, R152: what TRAP leaves in memory: the two lists in the save area, where its blocks stand under key 0 (R290), and every word
beside the area as before; from it RETT loads the writes in flight again (R155). A frame of the area that no key is bound to yet is bound and
scrubbed first (R292, R293). -/
def Sys2Proof.Claims.TrapSaves : Prop :=
  (∀ (s u : State) (o : OpTrap) (p : Place), GuardOn s o.pg → Checked s → s.cell.as.lvl ≠ .kernel → s.cell.as.sys.tvec ≠ 0 →
    s.saveArea = some (u, p) → (∀ k, 8 * k < Config.saveBytes → u.mem.keyFits (p.plus (8 * k)) = true) →
    let el := if s.cell.as.sys.esHalted then s.cell.es.infl else []
    (∀ x ∈ el, x.parts.length ≤ 32) →
    ∃ t, exec (.trap o) s = .next t ∧ Saved t p s.core.infl el ∧ t.mem.mem = u.mem.mem ∧ t.mem.psn = u.mem.psn ∧ t.parked = u.parked
      ∧ (∀ (c : CellId) (k : Nat), (k + 8 ≤ p.wkey ∨ p.wkey + Config.saveBytes ≤ k) → viewWord t.mem c k = viewWord u.mem c k)
      ∧ (SlotsFit s.core.infl el →
        t.badSlot p asSlotOk asSlots false = none ∧ t.badSlot p esSlotOk esSlots false = none
          ∧ asSlots.filterMap (t.loadAsSlot p) = s.core.infl ∧ esSlots.filterMap (t.loadEsSlot p) = el))
  ∧ (∀ (s u : State) (p : Place), s.saveArea = some (u, p) → u.cell = s.cell ∧ p.loc = 1 ∧ p.key = 0
      ∧ p.addr = (match segAt s.cell.segs (segNo s.cell.as.sys.pwlsave) with | some e => e.base | none => 0)
          + (s.cell.as.sys.pwlsave.extractLsb' 0 58).toNat
      ∧ ((∀ f, p.addr / 65536 ≤ f → f ≤ (p.addr + Config.saveBytes - 1) / 65536 → s.mem.boundTo 1 p.die f = some 0) → u = s))

/-- R152, R154: TRAP at program level, and at machine level on the MS, saves the program counter, the repetition frame, cause and value,
raises the level to kernel, where it stays at machine level on the MS, empties the pipeline and goes to TVEC; registers keep their values.
What it leaves in the save area: see TrapSaves. -/
def Obligations.TrapEntry : Prop :=
  TrapSaves ∧
  ∀ (s u : State) (o : OpTrap) (p : Place), GuardOn s o.pg → Checked s → s.cell.as.lvl ≠ .kernel → s.cell.as.sys.tvec ≠ 0 →
    s.saveArea = some (u, p) →
    ∃ t, exec (.trap o) s = .next t ∧ t.cell.as.lvl = (if s.cell.as.lvl = .machine then .machine else .kernel)
      ∧ t.core.pc = s.cell.as.sys.tvec ∧ t.core.rep = none ∧ t.core.infl = []
      ∧ t.cell.as.sys.trappc = s.core.pc ∧ t.cell.as.sys.trapcause = 0x14 ∧ t.cell.as.sys.trapval = o.imm.zeroExtend 64
      ∧ t.cell.as.sys.traprep = repWord s.core.rep
      ∧ (∀ r, t.rg r = s.rg r) ∧ (∀ r, t.rp r = s.rp r) ∧ t.cell.es.v = s.cell.es.v ∧ t.cell.qs = s.cell.qs ∧ t.cell.sems = s.cell.sems

/-- R41, R152: a trap at kernel level, with no handler, or whose PWLSAVE names no save area, escalates: the partition is reset with trigger
2; on the MS the module is. -/
def Obligations.TrapEscalates : Prop :=
  ∀ (s : State) (o : OpTrap), GuardOn s o.pg → Checked s →
    (s.cell.as.lvl = .kernel ∨ s.cell.as.sys.tvec = 0 ∨ s.saveArea = none) →
    (s.cell.id.die ≠ 6 → exec (.trap o) s = .next (s.partitionReset (partOf s.cell.as.sys.ctxid) .escalation 0x14))
    ∧ (s.cell.id.die = 6 → exec (.trap o) s = .next s.moduleReset)

/-- The slots of the save area that RETT reads (R41, R155). -/
def Sys2Proof.Claims.rettSlots (u : State) : List Nat := asSlots ++ (if u.cell.as.sys.esHalted then esSlots else [])

/-- The lines that RETT reads have moved (R375). -/
def Sys2Proof.Claims.rettReads (u : State) (p : Place) : State :=
  u.eachLine (fun s q => s.touchLine (s.cell.who 0) s.cell q) p none ((rettSlots u).flatMap (u.slotReads p))

/-- R41, R44, R136, R155: RETT at kernel level restores the pipeline from the save area, the program counter and the level, and an ES
fault not yet delivered is taken at once; on the MS it stays at machine level; an error in the save area escalates, a slot that fails and
a repetition frame that does not agree trap. HALT with a true guard stops the MS and traps below machine level; a false guard makes it a
tick there too (log 15). -/
def Obligations.ReturnAndHalt : Prop :=
  (∀ (s u : State) (o : OpG) (p : Place) (ar er : Option RepSt), GuardOn s o.pg → Checked s → s.cell.as.lvl = .kernel →
    s.saveArea = some (u, p) → u.saveError p (rettSlots u) = none → let w := rettReads u p
    w.badSlot p asSlotOk asSlots false = none → (u.cell.as.sys.esHalted = true → w.badSlot p esSlotOk esSlots false = none) →
    w.resumeAs = some ar → (u.cell.as.delivered = true → w.resumeEs = some er) →
    ∃ t, exec (.rett o) s = .next (if u.cell.as.sys.esPending && !u.cell.as.delivered
        then (t.updAs fun a => { a with delivered := true }).takeTrap 0x12 0 else t)
      ∧ t.cell.as.lvl = .program ∧ t.core.pc = u.cell.as.sys.trappc ∧ t.core.rep = ar
      ∧ t.core.infl = u.core.endTick.infl ++ asSlots.filterMap (w.loadAsSlot p) ∧ (∀ r, t.rg r = u.core.endTick.rg r)
      ∧ (∀ r, t.rp r = u.core.endTick.rp r) ∧ t.mem = w.mem
      ∧ t.cell.es.infl = (if u.cell.as.esSaved then esSlots.filterMap (w.loadEsSlot p) else u.cell.es.infl)
      ∧ t.cell.es.v = u.cell.es.v ∧ t.cell.es.m = u.cell.es.m ∧ t.cell.es.sh = u.cell.es.sh ∧ t.cell.es.flags = u.cell.es.flags
      ∧ (u.cell.as.delivered = true → t.cell.es.run = .running ∧ t.cell.es.pc = u.cell.as.sys.etrappc ∧ t.cell.es.rep = er
          ∧ t.cell.as.sys.esHalted = false ∧ t.cell.as.sys.esPending = false)
      ∧ (u.cell.as.delivered = false → t.cell.es.run = u.cell.es.run ∧ t.cell.es.pc = u.cell.es.pc ∧ t.cell.es.rep = u.cell.es.rep))
  ∧ (∀ (u : State) (p : Place), let w := rettReads u p
    w.cell = u.cell ∧ w.parked = u.parked ∧ w.mem = { u.mem with lines := w.mem.lines })
  ∧ (∀ (s u : State) (o : OpG) (p : Place) (ar : Option RepSt), GuardOn s o.pg → Checked s → s.cell.as.lvl = .machine →
    s.saveArea = some (u, p) → u.cell.as.sys.esHalted = false → u.cell.as.delivered = false → u.saveError p asSlots = none →
    let w := rettReads u p
    w.badSlot p asSlotOk asSlots false = none → w.resumeAs = some ar →
    ∃ t, exec (.rett o) s = .next t ∧ t.cell.as.lvl = .machine ∧ t.core.pc = u.cell.as.sys.trappc ∧ t.core.rep = ar
      ∧ t.core.infl = u.core.endTick.infl ++ asSlots.filterMap (w.loadAsSlot p) ∧ (∀ r, t.rg r = u.core.endTick.rg r)
      ∧ (∀ r, t.rp r = u.core.endTick.rp r) ∧ t.mem = w.mem)
  ∧ (∀ (s u : State) (o : OpG) (p : Place), GuardOn s o.pg → Checked s → s.cell.as.lvl ≠ .program → s.saveArea = some (u, p) →
    u.saveError p (rettSlots u) = none → let w := rettReads u p
    w.badSlot p asSlotOk asSlots false = none →
    (u.cell.as.sys.esHalted = true → w.badSlot p esSlotOk esSlots false = none) →
    w.resumeAs = none ∨ (u.cell.as.delivered = true ∧ w.resumeEs = none) →
    exec (.rett o) s = .next (w.takeTrap 0x15 0))
  ∧ (∀ (s u : State) (o : OpG) (p : Place), GuardOn s o.pg → Checked s → s.cell.as.lvl ≠ .program → s.saveArea = some (u, p) →
    let w := rettReads u p
    (∀ k, u.saveError p (rettSlots u) = some k → exec (.rett o) s =
      .next ((u.meetError (u.cell.who 0) (l1Of u.cell (p.plus k).line) (p.plus k) (u.cell.as.sys.pwlsave + BitVec.ofNat 64 k)).escalate 0x17))
    ∧ (∀ k, u.saveError p (rettSlots u) = none → w.badSlot p asSlotOk asSlots false = some k →
      exec (.rett o) s = .next (w.takeTrap 0x15 (BitVec.ofNat 64 k)))
    ∧ (∀ k, u.saveError p (rettSlots u) = none → w.badSlot p asSlotOk asSlots false = none → u.cell.as.sys.esHalted = true →
      w.badSlot p esSlotOk esSlots false = some k → exec (.rett o) s = .next (w.takeTrap 0x15 (BitVec.ofNat 64 k))))
  ∧ (∀ (s : State) (o : OpG), GuardOn s o.pg → Checked s → s.cell.as.lvl ≠ .program → s.saveArea = none →
    exec (.rett o) s = .next (s.escalate 0x15))
  ∧ (∀ (s : State) (o : OpG), GuardOn s o.pg → Checked s → s.cell.as.lvl = .machine →
    ∃ t, exec (.halt o) s = .next t ∧ t.core = s.core.advance.endTick
      ∧ Moves s t (fun c => { c with as := { c.as with run := .halted } }))
  ∧ (∀ (s : State) (o : OpG),
    (GuardOn s o.pg → s.cell.as.lvl ≠ .machine → exec (.halt o) s = .next (s.trap cPrivilege (wordOf (.halt o))))
    ∧ (GuardOff s o.pg → Passes (.halt o) s) ∧ ((s.rp o.pg.p).psn = true → exec (.halt o) s = .next (s.trap cPoison 0)))

/-- R148, R149: the join block's lines are reached (R119) once an error in its count is met (R118, R354). -/
def Sys2Proof.Claims.joinReach (u : State) (p : Place) (a : Word) (n : Nat) : State :=
  (u.meetError (u.cell.who 0) (l1Of u.cell p.line) p a).touchJoin p n

/-- R146 to R149: FORK queues a record; JOIN and EXIT decrement a join count at package scope, and the last of them queues the
continuation; EXIT retires the record, once the engines are done and the ES has stopped, its writes having landed (R194). EXIT with a semaphore or a
queue not consumed traps and names them, and a marked word of the join block traps. -/
def Obligations.RecordResult : Prop :=
  (∀ (s : State) (o : OpFork) (r : RunRec), GuardOn s o.pg → Clean s o.a → Clean s o.b → Clean s o.d →
    s.codeOk (s.rg o.a).v = true → s.cell.recd = some r →
    (s.fifoFull s.recPart o.prio.toNat = false →
      exec (.fork o) s = .next ((s.enqueueRec s.recPart o.prio.toNat
        ⟨(s.rg o.a).v, (s.rg o.b).v, (s.rg o.d).v, if o.join then s.cell.as.sys.joinp else 0, r.launch, r.op, s.pkg.time.t3,
          some ⟨s.cell.id, s.cell.mseq, s.mem.visibleIds s.cell.id⟩, 0, false⟩).retire))
    ∧ (s.fifoFull s.recPart o.prio.toNat = true → exec (.fork o) s = .next (s.trap cRecords (o.prio.zeroExtend 64))))
  ∧ (∀ (s u : State) (o : OpJoin) (p : Place) (r : RunRec), GuardOn s o.pg → Clean s o.a → Clean s o.b → Checked s →
    s.asAccess needLinRW (s.rg o.a).v 0 = (u, .ok p) → s.codeOk (s.rg o.b).v = true → s.packageOpen = false →
    s.mem.contended s.cell.id p.wkey 3 = false → s.cell.recd = some r →
    let v := joinReach u p (s.rg o.a).v 8
    let c := v.joinWord p 0
    (c.psn = true → exec (.join o) s = .next (v.trap cPoison (s.rg o.a).v))
    ∧ (c.psn = false → c.v ≠ 1 → exec (.join o) s = .next ((v.joinDown p c.v).retire))
    ∧ (c.psn = false → c.v = 1 → exec (.join o) s =
      .next (((v.joinDown p c.v).continuation r (s.rg o.b).v v.cell.as.sys.frame v.cell.as.sys.wid v.cell.as.sys.joinp).retire)))
  ∧ (∀ (s : State) (p : Place) (n : Nat), (s.touchJoin p n).cell = s.cell ∧ (s.touchJoin p n).parked = s.parked
      ∧ (s.touchJoin p n).mem.mem = s.mem.mem ∧ (s.touchJoin p n).mem.psn = s.mem.psn)
  ∧ (∀ (s : State) (p : Place) (n : Word), s.mem.keyFits p = true →
    (s.joinDown p n).cell = { s.cell with mseq := s.cell.mseq + 1 }
      ∧ (s.joinDown p n).mem.mem = if finalReach (keyLoc p.wkey) ≤ 3 then memPut s.mem.mem p.wkey (n - 1) 0xFF else s.mem.mem)
  ∧ (∀ (s : State) (o : OpG), GuardOn s o.pg → (s.cell.as.exitTested = true ∨
      (s.cell.engineWork = false ∧ s.cell.es.run = .idle ∧ unconsumed s.cell = 0 ∧ s.cell.qs.anyLeft = false)) →
    (s.packageOpen = true → exec (.exit o) s = .next (s.updAs fun a => { a with exitTested := true }))
    ∧ (s.packageOpen = false → s.cell.as.sys.joinp = 0 → exec (.exit o) s = .next (s.retire.retireRecord))
    ∧ (∀ (u : State) (p : Place), s.packageOpen = false → s.cell.as.sys.joinp ≠ 0 → s.joinpAccess = (u, .ok p) →
      s.mem.contended s.cell.id p.wkey 3 = false →
      let v := joinReach u p u.cell.as.sys.joinp 40
      let c := v.joinWord p 0
      (c.psn = true → exec (.exit o) s = .next (v.trap cPoison u.cell.as.sys.joinp))
      ∧ (∀ k, c.psn = false → c.v = 1 → v.joinMarked p = some k →
        exec (.exit o) s = .next (v.trap cPoison (u.cell.as.sys.joinp + BitVec.ofNat 64 k)))
      ∧ (c.psn = false → c.v ≠ 1 → exec (.exit o) s = .next ((v.joinDown p c.v).retire.retireRecord))
      ∧ (∀ r, c.psn = false → c.v = 1 → v.joinMarked p = none → v.cell.recd = some r →
        exec (.exit o) s = .next (((v.joinDown p c.v).continuation r (v.joinWord p 8).v (v.joinWord p 16).v (v.joinWord p 24).v
          (v.joinWord p 32).v).retire.retireRecord))))
  ∧ (∀ (s : State) (r : RunRec), s.cell.recd = some r → s.retireRecord.cell.recd = none ∧ s.retireRecord.cell.as.run = .idle
      ∧ s.retireRecord.cell.lastOp = some (r.launch, r.op))
  ∧ (∀ (s : State) (o : OpG), GuardOn s o.pg → s.cell.as.exitTested = false → s.cell.engineWork = false → s.cell.es.run = .idle →
    (unconsumed s.cell ≠ 0 ∨ s.cell.qs.anyLeft = true) →
    exec (.exit o) s = .next (s.trap 0x0F (BitVec.ofNat 64 (unconsumed s.cell) ||| (if s.cell.qs.anyLeft then 1 <<< 63 else 0))))
  ∧ (∀ (s : State) (o : OpG), GuardOn s o.pg → s.cell.as.exitTested = false → (s.cell.engineWork = true ∨ s.cell.es.run ≠ .idle) →
    exec (.exit o) s = .next s)

/-- The words of an ENQ. -/
def Sys2Proof.Claims.enqWords (a b : Word) : List Word32 :=
  [a.extractLsb' 0 32, a.extractLsb' 32 32, b.extractLsb' 0 32, b.extractLsb' 32 32]

/-- Instruction `i` appends the words `ws` to ring or port `ring`: at once where there is room for all of them, else it waits; a ring the
launch has no segment for, and a port of the MS, trap (log 32). -/
def Sys2Proof.Claims.Appends (i : Instr) (s : State) (ring : Ring) (ws : List Word32) : Prop :=
  (∀ (e : Eng) (base size : Nat), ringEng ring = some e → s.cell.ringSeg e = some (base, size) →
    (ws.length ≤ (s.cell.eng e).free size → exec i s = .next ((s.ringPuts e base size ws).retire))
    ∧ ((s.cell.eng e).free size < ws.length → exec i s = .next s))
  ∧ (∀ e : Eng, ringEng ring = some e → s.cell.ringSeg e = none → exec i s = .next (s.trap cAccess (BitVec.ofNat 64 (engNo e))))
  ∧ (ring = .ho → (s.cell.id.die = 6 → exec i s = .next (s.trap cAccess 4))
    ∧ (s.cell.id.die ≠ 6 →
      (ws.length ≤ s.cell.ho.credits → exec i s = .next ((s.updFocus fun c => { c with ho := c.ho.put c.mseq ws }).retire))
      ∧ (s.cell.ho.credits < ws.length → exec i s = .next s)))
  ∧ (ring = .hub → (s.cell.id.die = 6 → exec i s = .next (s.trap cAccess 5))
    ∧ (s.cell.id.die ≠ 6 →
      (ws.length ≤ s.cell.hub.credits → exec i s = .next ((s.updFocus fun c => { c with hub := c.hub.put c.mseq ws }).retire))
      ∧ (s.cell.hub.credits < ws.length → exec i s = .next s)))

/-- R150, R151: ENQ and ENQS append their words once there is room for all of them: to a ring, where each word stands at the write
pointer's place and no other byte changes, or to a port, taking credits. ESTART starts the ES from its reset state, once it has left the
program before; a bad target traps, and so does the MS. What ENQ and ENQS to a port and ESTART do on the MS is log 32's choice, which of two
failing checks counts log 54's. -/
def Obligations.EnqueueResult : Prop :=
  (∀ (s : State) (o : OpEnq), GuardOn s o.pg → Clean s o.a → Clean s o.b →
    Appends (.enq o) s o.ring (enqWords (s.rg o.a).v (s.rg o.b).v))
  ∧ (∀ (s : State) (o : OpEnqs), GuardOn s o.pg → Clean s o.a → Appends (.enqs o) s o.ring [(s.rg o.a).v.extractLsb' 0 32])
  ∧ (∀ (s : State) (e : Eng) (base size : Nat) (w : Word32) (ws : List Word32),
    s.ringPuts e base size (w :: ws) = (s.ringPuts e base size [w]).ringPuts e base size ws)
  ∧ (∀ (s : State) (e : Eng) (base size : Nat) (ws : List Word32),
    ((s.ringPuts e base size ws).cell.eng e).wp = (s.cell.eng e).wp + BitVec.ofNat 32 ws.length)
  ∧ (∀ (s : State) (e : Eng) (base size : Nat) (w : Word32), s.Canonical → base % 4 = 0 →
    let a := byteKey 0 (spadUnit s.cell.id) (ringAddr base size (s.cell.eng e).wp.toNat)
    let t := s.ringPuts e base size [w]
    (∀ k, k < a ∨ a + 4 ≤ k → memGet t.mem.mem k = memGet s.mem.mem k)
      ∧ memGet t.mem.mem (a + 3) ++ memGet t.mem.mem (a + 2) ++ memGet t.mem.mem (a + 1) ++ memGet t.mem.mem a = w)
  ∧ (∀ (p : PortSt) (seq : Nat) (ws : List Word32),
    (p.put seq ws).buf = p.buf ++ ws ∧ (p.put seq ws).credits = p.credits - ws.length ∧ (p.put seq ws).cmds = p.cmds)
  ∧ (∀ (s : State) (o : OpR), GuardOn s o.pg → Clean s o.a →
    (s.cell.id.die = 6 → exec (.estart o) s = .next (s.trap cIllegal (wordOf (.estart o))))
    ∧ (s.cell.id.die ≠ 6 → inSection s.cell.esbase s.cell.essize (s.rg o.a).v = false →
      exec (.estart o) s = .next (s.trap cTarget (s.rg o.a).v))
    ∧ (s.cell.id.die ≠ 6 → inSection s.cell.esbase s.cell.essize (s.rg o.a).v = true → Checked s →
      (s.cell.es.run = .idle ∨ s.cell.es.run = .draining →
        exec (.estart o) s = .next ((s.updEs fun _ => { EsSt.init with pc := (s.rg o.a).v, run := .running }).retire))
      ∧ (s.cell.es.run = .running ∨ s.cell.es.run = .halted → exec (.estart o) s = .next s)))

/-! ## ES (R162 to R195) -/

/-- Everything but the ES is as before, every byte of memory too, and of the package all but its accounts. -/
def Sys2Proof.Claims.OnlyEs (s t : State) : Prop :=
  t.cell = { s.cell with es := t.cell.es } ∧ t.parked = s.parked ∧ t.mem = s.mem ∧ SameModule s t
    ∧ ∀ a, memGet t.mem.mem a = memGet s.mem.mem a

/-- Besides the ES exactly `f` happens to the cell, and nothing to other cells, to memory or, but for its accounts, to the package. -/
def Sys2Proof.Claims.EsMoves (s t : State) (f : Cell → Cell) : Prop :=
  t.cell = f { s.cell with es := t.cell.es } ∧ t.parked = s.parked ∧ t.mem = s.mem ∧ SameModule s t ∧ ∀ a, memGet t.mem.mem a = memGet s.mem.mem a

/-- The ES instruction issues: its write enters the pipeline, the program counter advances, one tick passes. -/
def Sys2Proof.Claims.EsWrites (i : Instr) (s : State) (lat : Nat) (cls : EClass) (num : Nat) (parts : List EPart) (flg : BitVec 6) : Prop :=
  ∃ t, exec i s = .next t ∧ OnlyEs s t
    ∧ t.cell.es = ({ s.cell.es with infl := s.cell.es.infl ++ [(⟨lat, cls, num, parts, flg⟩ : EPend)] }).advance.endTick

/-- The same for an instruction that has taken the head of a data queue first. -/
def Sys2Proof.Claims.EsPops (i : Instr) (s : State) (q : BitVec 2) (r : List QEnt) (lat : Nat) (cls : EClass) (num : Nat)
    (parts : List EPart) (flg : BitVec 6) : Prop :=
  ∃ t, exec i s = .next t ∧ EsMoves s t (fun c => { c with qs := s.cell.qs.setDq q r })
    ∧ t.cell.es = ({ s.cell.es with infl := s.cell.es.infl ++ [(⟨lat, cls, num, parts, flg⟩ : EPend)] }).advance.endTick

/-- The ES instruction issues and does nothing else. -/
def Sys2Proof.Claims.EsPasses (i : Instr) (s : State) : Prop :=
  ∃ t, exec i s = .next t ∧ OnlyEs s t ∧ t.cell.es = s.cell.es.advance.endTick

/-- R162, R164, R195: what is illegal under SH faults with the illegal-instruction cause and its word, and halts the ES there. -/
def Obligations.EsIllegalFaults : Prop :=
  (∀ (i : Instr) (s : State), esLegal s.cell.es.sh i = false → (∃ w, encodeEs i = some w) →
    exec i s = .next (s.esFault cIllegal (wordOf i)))
  ∧ (∀ (s : State) (c : Nat) (v : Word), let t := s.esFault c v
      t.cell.es.run = .halted ∧ t.cell.as.sys.etrappc = s.cell.es.pc ∧ t.cell.as.sys.etrapcause = BitVec.ofNat 64 c
      ∧ t.cell.as.sys.etrapval = v ∧ t.cell.as.sys.etraprep = repWord s.cell.es.rep ∧ t.cell.as.sys.esPending = true
      ∧ t.cell.as.sys.esHalted = true ∧ t.cell.es.v = s.cell.es.v ∧ t.cell.es.infl = s.cell.es.infl ∧ t.core = s.core ∧ t.mem = s.mem)

/-- R165, R168, R169: shapes and queue moves. SETSH from a queue faults on a tagged entry, then on a value that R18 does not permit (in that
order: log 54), and leaves the entry; with no entry it waits. -/
def Obligations.EsMoveResult : Prop :=
  (∀ (s : State) (o : OpSetsh), esLegal s.cell.es.sh (.setsh o) = true →
    EsWrites (.setsh o) s 1 .sh 0
      [⟨(BitVec.ofNat 64 ((o.rm ++ o.grp ++ o.vl ++ o.ety : BitVec 20).toNat)).zeroExtend 2048, BitVec.allOnes 256, false, true⟩] 0)
  ∧ (∀ (s : State) (o : OpSetshQ) (e : QEnt) (r : List QEnt), popHead s.pkg.time.clk (s.cell.qs.dq o.q) = some (e, r) →
    e.psn = false → shOk e.v = true →
    EsPops (.setshQ o) s o.q r 1 .sh 0 [⟨e.v.zeroExtend 2048, BitVec.allOnes 256, false, true⟩] 0)
  ∧ (∀ (s : State) (o : OpSetshQ),
    (popHead s.pkg.time.clk (s.cell.qs.dq o.q) = none → exec (.setshQ o) s = .next s)
    ∧ ∀ e r, popHead s.pkg.time.clk (s.cell.qs.dq o.q) = some (e, r) →
      (e.psn = true → exec (.setshQ o) s = .next (s.esFault cPoison e.v))
      ∧ (e.psn = false → shOk e.v = false → exec (.setshQ o) s = .next (s.esFault cIllegal (wordOf (.setshQ o)))))
  ∧ (∀ (s : State) (o : OpVldq) (e : QEnt) (r : List QEnt), esLegal s.cell.es.sh (.vldq o) = true →
    popHead s.pkg.time.clk (s.cell.qs.dq o.q) = some (e, r) →
    let g := shG s.cell.es.sh
    let v := s.cell.es.span o.d.toNat g * 2 ^ 64 + e.v.toNat
    EsPops (.vldq o) s o.q r 2 .v o.d.toNat ((List.range g).map fun i =>
      ⟨BitVec.ofNat 2048 (v / 2 ^ (2048 * i)), BitVec.allOnes 256, e.psn || s.cell.es.spanPsn o.d.toNat g, true⟩) 0)
  ∧ (∀ (s : State) (o : OpVbc) (e : QEnt) (r : List QEnt), esLegal s.cell.es.sh (.vbc o) = true →
    popHead s.pkg.time.clk (s.cell.qs.dq o.q) = some (e, r) →
    let x := s.ev o.m
    EsPops (.vbc o) s o.q r 2 .v o.d.toNat (partsOf x.w x.g
      ((List.range x.vl).map fun i => if x.active i then some (e.v.toNat % 2 ^ x.w) else none) fun _ => e.psn || x.mask.psn) 0)
  ∧ (∀ (s : State) (o : OpVsty), esLegal s.cell.es.sh (.vsty o) = true → (s.cell.qs.yq o.y).length < Config.capQ →
    let a := s.grp (s.ev 0) o.s
    ∃ t, exec (.vsty o) s = .next t ∧ t.cell.es = s.cell.es.advance.endTick ∧ EsMoves s t (fun c => { c with
      qs := s.cell.qs.setYq o.y (s.cell.qs.yq o.y ++ [(⟨BitVec.ofNat 64 (a.1 o.idx.toNat), a.2, true, s.ready, 0⟩ : QEnt)]) }))
  ∧ (∀ (s : State) (o : OpMpop), (s.cell.qs.yq o.y).length < Config.capQ →
    let x := s.ev o.m
    let n := (List.range x.vl).countP fun i => (s.cell.es.rm o.a).bits.getLsbD i && x.mask.bits.getLsbD i
    ∃ t, exec (.mpop o) s = .next t ∧ t.cell.es = s.cell.es.advance.endTick ∧ EsMoves s t (fun c => { c with
      qs := s.cell.qs.setYq o.y
        (s.cell.qs.yq o.y ++ [(⟨BitVec.ofNat 64 n, (s.cell.es.rm o.a).psn || x.mask.psn, true, s.ready, 0⟩ : QEnt)]) }))

/-- The words a VLD or VST under `x` covers. -/
def Sys2Proof.Claims.vmemWords (x : Ev) : Nat := ceilDiv (x.vl * x.w / 8) 8

/-- R166, R167: VLD reads the words of a checked range of the scratchpad in order and writes the active elements after 5 ticks, each
register tagged where its active elements take bytes of a marked word; VST writes the bytes of the active elements and no others, each
word written taking the tag of the group. Both pop their address; a tagged or failing address faults and stays at the head; with no
address they wait. -/
def Obligations.EsMemoryResult : Prop :=
  (∀ (s : State) (o : OpVmem) (e : QEnt) (r : List QEnt) (p : Place), esLegal s.cell.es.sh (.vld o) = true →
    popHead s.pkg.time.clk (s.cell.qs.dq o.q) = some (e, r) → e.psn = false →
    s.esAccess needSpadR e.v o.off ((s.ev o.m).vl * (s.ev o.m).w / 8) = .ok p →
    let x := s.ev o.m
    let u := s.updQs fun k => k.setDq o.q r
    let rd := u.readWords (u.cell.who 1) p (esEa e.v o.off) (vmemWords x)
    let els := (List.range x.vl).map fun i => if x.active i then some (elAt rd.2.1 x.w i) else none
    let tag := fun (j : Nat) => x.mask.psn || (List.range (2048 / x.w)).any fun i =>
      x.active (2048 / x.w * j + i) && rd.2.2.getD ((2048 / x.w * j + i) * x.w / 64) false
    exec (.vld o) s = .next ((rd.1.esPush 5 .v o.d.toNat (partsOf x.w x.g els tag) 0).esNext x.g)
      ∧ rd.1.cell.es = s.cell.es ∧ rd.1.mem.mem = s.mem.mem ∧ rd.1.cell.as = s.cell.as)
  ∧ (∀ (s : State) (w : Who) (p : Place) (sa : Word) (n : Nat),
    let a := (s.readW w p sa).1.loadVal (s.readW w p sa).2
    let b := a.1.readWords w (p.plus 8) (sa + 8) n
    s.readWords w p sa (n + 1) = (b.1, a.2.v.toNat + b.2.1 * 2 ^ 64, a.2.psn :: b.2.2))
  ∧ (∀ (s : State) (o : OpVmem) (e : QEnt) (r : List QEnt) (p : Place), esLegal s.cell.es.sh (.vst o) = true →
    popHead s.pkg.time.clk (s.cell.qs.dq o.q) = some (e, r) → e.psn = false →
    s.esAccess needSpadW e.v o.off ((s.ev o.m).vl * (s.ev o.m).w / 8) = .ok p →
    let x := s.ev o.m
    let v := s.cell.es.span o.d.toNat x.g
    let hit := fun (b : Nat) => x.active (b / (x.w / 8))
    ∃ t, exec (.vst o) s = .next t ∧ t.cell = { s.cell with es := s.cell.es.advance.endTick, qs := s.cell.qs.setDq o.q r }
      ∧ t.parked = s.parked
      ∧ (s.Canonical → (∀ b, b < x.vl * x.w / 8 →
            memGet t.mem.mem (p.wkey + b) = if hit b then BitVec.ofNat 8 (v / 2 ^ (8 * b)) else memGet s.mem.mem (p.wkey + b))
          ∧ ∀ a, a < p.wkey ∨ p.wkey + x.vl * x.w / 8 ≤ a → memGet t.mem.mem a = memGet s.mem.mem a)
      ∧ ∀ k, k < vmemWords x → t.mem.psn.contains (p.wkey + 8 * k) =
          if (List.range 8).any fun i => hit (8 * k + i) then s.cell.es.spanPsn o.d.toNat x.g else s.mem.psn.contains (p.wkey + 8 * k))
  ∧ (∀ (s : State) (o : OpVmem),
    (popHead s.pkg.time.clk (s.cell.qs.dq o.q) = none →
      (esLegal s.cell.es.sh (.vld o) = true → exec (.vld o) s = .next s)
      ∧ (esLegal s.cell.es.sh (.vst o) = true → exec (.vst o) s = .next s))
    ∧ ∀ e r, popHead s.pkg.time.clk (s.cell.qs.dq o.q) = some (e, r) →
      (e.psn = true →
        (esLegal s.cell.es.sh (.vld o) = true → exec (.vld o) s = .next (s.esFault cPoison e.v))
        ∧ (esLegal s.cell.es.sh (.vst o) = true → exec (.vst o) s = .next (s.esFault cPoison e.v)))
      ∧ (e.psn = false → ∀ z,
        (esLegal s.cell.es.sh (.vld o) = true → s.esAccess needSpadR e.v o.off ((s.ev o.m).vl * (s.ev o.m).w / 8) = .error z →
          exec (.vld o) s = .next (s.esFault z (esEa e.v o.off)))
        ∧ (esLegal s.cell.es.sh (.vst o) = true → s.esAccess needSpadW e.v o.off ((s.ev o.m).vl * (s.ev o.m).w / 8) = .error z →
          exec (.vst o) s = .next (s.esFault z (esEa e.v o.off)))))

/-- R86, R164, R190 to R194: ES control, semaphores, EREP and EEXIT. An EREP before a word that may not follow it, or with a repetition that is
illegal under SH, faults with the illegal-instruction cause and, by inference (log 18), its own word. After EEXIT the writes in flight land
tick by tick and the ES stops with the last. EBR checks a target it does not take, by inference (log 16); log 54 has the
order of its two faults. -/
def Obligations.EsControlResult : Prop :=
  (∀ (s : State) (o : OpDisp), EsPasses (.epbr o) s)
  ∧ (∀ (s : State) (o : OpEbr), (o.cond = .always ∨ (s.ev o.m).mask.psn = false) →
    inSection s.cell.esbase s.cell.essize (s.cell.es.pc + o.disp.signExtend 64 * 4) = true →
    ∃ t, exec (.ebr o) s = .next t ∧ OnlyEs s t
      ∧ t.cell.es = if econd (s.ev o.m) o.cond
          then ({ s.cell.es with pc := s.cell.es.pc + o.disp.signExtend 64 * 4, rep := none }).endTick
          else s.cell.es.advance.endTick)
  ∧ (∀ (s : State) (o : OpDisp) (b : BEnt) (r : List BEnt), s.cell.qs.bqa = b :: r → b.from_ ≤ s.pkg.time.clk →
    inSection s.cell.esbase s.cell.essize (s.cell.es.pc + o.disp.signExtend 64 * 4) = true →
    ∃ t, exec (.ebrq o) s = .next t ∧ EsMoves s t (fun c => { c with qs := { s.cell.qs with bqa := r } })
      ∧ t.cell.es = if b.v then ({ s.cell.es with pc := s.cell.es.pc + o.disp.signExtend 64 * 4, rep := none }).endTick
          else s.cell.es.advance.endTick)
  ∧ (∀ (s : State) (o : OpEbr),
    (o.cond ≠ .always → (s.ev o.m).mask.psn = true → exec (.ebr o) s = .next (s.esFault cPoison 0))
    ∧ ((o.cond = .always ∨ (s.ev o.m).mask.psn = false) → inSection s.cell.esbase s.cell.essize (s.esTarget o.disp) = false →
      exec (.ebr o) s = .next (s.esFault cEsFetch (s.esTarget o.disp))))
  ∧ (∀ (s : State) (o : OpDisp),
    (inSection s.cell.esbase s.cell.essize (s.esTarget o.disp) = false →
      exec (.ebrq o) s = .next (s.esFault cEsFetch (s.esTarget o.disp)))
    ∧ (inSection s.cell.esbase s.cell.essize (s.esTarget o.disp) = true →
      (s.cell.qs.bqa = [] ∨ ∃ b r, s.cell.qs.bqa = b :: r ∧ s.pkg.time.clk < b.from_) → exec (.ebrq o) s = .next s))
  ∧ (∀ (s : State) (o : OpEbqp),
    (o.cond ≠ .always → (s.ev o.m).mask.psn = true → exec (.ebqp o) s = .next (s.esFault cPoison 0))
    ∧ ((o.cond = .always ∨ (s.ev o.m).mask.psn = false) → Config.capBq ≤ s.cell.qs.bqe.length → exec (.ebqp o) s = .next s))
  ∧ (∀ (s : State) (o : OpEbqp), (o.cond = .always ∨ (s.ev o.m).mask.psn = false) → s.cell.qs.bqe.length < Config.capBq →
    ∃ t, exec (.ebqp o) s = .next t ∧ t.cell.es = s.cell.es.advance.endTick ∧ EsMoves s t (fun c => { c with
      qs := { s.cell.qs with bqe := s.cell.qs.bqe ++ [(⟨econd (s.ev o.m) o.cond, s.ready⟩ : BEnt)] } }))
  ∧ (∀ (s : State) (o : OpEsem) (n : BitVec 16), s.sem o.s = some (.count n) → n ≠ 0 →
    ∃ t, exec (.esemw o) s = .next t ∧ t.cell.es = s.cell.es.advance.endTick
      ∧ EsMoves s t (fun c => { c with sems := t.cell.sems }) ∧ (∀ n, n ≠ o.s → t.sem n = s.sem n) ∧ t.sem o.s = some (.count (n - 1)))
  ∧ (∀ (s : State) (o : OpEsem) (c : Byte), s.sem o.s = some (.err c) →
    exec (.esemw o) s = .next (s.esFault cSem ((o.s.zeroExtend 64 <<< 8) ||| c.zeroExtend 64)))
  ∧ (∀ (s : State) (o : OpEsem), o.s = 63 → EsPasses (.esemw o) s)
  ∧ (∀ (s : State) (o : OpEsem), s.sem o.s = some (.count 0) → exec (.esemw o) s = .next s)
  ∧ (∀ (s : State) (o : OpEsem), ∃ t, exec (.esems o) s = .next t ∧ t.cell.es = s.cell.es.advance.endTick
      ∧ EsMoves s t (fun c => { c with sems := t.cell.sems, ovfs := overflowsOf s o.s }) ∧ (∀ n, n ≠ o.s → t.sem n = s.sem n)
      ∧ t.sem o.s = (s.sem o.s).map Sem.signal)
  ∧ (∀ s : State, let e := s.cell.es.advance.endTick
    ∃ t, exec .eexit s = .next t ∧ OnlyEs s t ∧ t.cell.es = { e with run := if e.infl = [] then .idle else .draining })
  ∧ (∀ e : EsSt, e.drain = { e.endTick with run := if e.endTick.infl = [] then .idle else .draining })
  ∧ (∀ (s u : State) (o : OpRep) (w : Word32) (i : Instr), s.fetchWord 1 s.cell.esbase s.cell.essize (s.cell.es.pc + 4) = (u, some w) →
    decodeEs w = .ok i → stepsOk o (vFields i) = true →
    (∀ k, k ≤ o.cnt1.toNat → ∃ j, decodeEs (stepEsWord w ⟨o.cnt1.toNat + 1, k, o.ds, o.sa, o.sb⟩) = .ok j ∧ esLegal u.cell.es.sh j = true) →
    exec (.erep o) s = .next (u.updEs fun e => { e with rep := some ⟨o.cnt1.toNat + 1, 0, o.ds, o.sa, o.sb⟩ }))
  ∧ (∀ (s u : State) (o : OpRep) (w : Option Word32), s.fetchWord 1 s.cell.esbase s.cell.essize (s.cell.es.pc + 4) = (u, w) →
    let v := u.updEs fun e => { e with rep := some ⟨o.cnt1.toNat + 1, 0, o.ds, o.sa, o.sb⟩ }
    (w = none → exec (.erep o) s = .next (v.esFault cEsFetch (s.cell.es.pc + 4)))
    ∧ (∀ x e, w = some x → decodeEs x = .error e → exec (.erep o) s = .next (v.esFault cIllegal (x.zeroExtend 64)))
    ∧ (∀ x i, w = some x → decodeEs x = .ok i →
      (stepsOk o (vFields i) = false ∨ ∃ k, k ≤ o.cnt1.toNat ∧
        ∀ j, decodeEs (stepEsWord x ⟨o.cnt1.toNat + 1, k, o.ds, o.sa, o.sb⟩) = .ok j → esLegal u.cell.es.sh j = false) →
      exec (.erep o) s = .next (v.esFault cIllegal (wordOf (.erep o)))))

/-- A binary element function applied under the mask: the write of an elementwise instruction (R162, R163, R171): the value of
element i is that of the function on element i of the operands, inactive elements keep theirs, the tag is the OR of the tags read. -/
def Sys2Proof.Claims.Elementwise (i : Instr) (s : State) (m : MReg) (d a : VReg) (b : VB) (lat : Nat) (useD : Bool)
    (f : Ev → Nat → Nat → Nat → Nat × BitVec 6) : Prop :=
  let x := s.ev m
  let av := s.grp x a
  let dv := s.grp x d
  let out := fun (bv : Nat → Nat) => (List.range x.vl).map fun j => if x.active j then some (f x (av.1 j) (bv j) (dv.1 j)) else none
  let flags := fun (l : List (Option (Nat × BitVec 6))) => l.foldl (fun z y => match y with | some w => z ||| w.2 | none => z) 0
  let parts := fun (bv : Nat → Nat) (bt : Bool) => partsOf x.w x.g ((out bv).map fun y => y.map (·.1))
    fun _ => av.2 || bt || x.mask.psn || (useD && dv.2)
  esLegal s.cell.es.sh i = true →
    match b with
    | .reg v => EsWrites i s lat .v d.toNat (parts (s.grp x v).1 (s.grp x v).2) (flags (out (s.grp x v).1))
    | .queue q => ∀ e r, popHead s.pkg.time.clk (s.cell.qs.dq q) = some (e, r) →
        EsPops i s q r lat .v d.toNat (parts (fun _ => e.v.toNat % 2 ^ x.w) e.psn) (flags (out fun _ => e.v.toNat % 2 ^ x.w))

/-- A unary element function applied under the mask. -/
def Sys2Proof.Claims.Elementwise1 (i : Instr) (s : State) (m : MReg) (d a : VReg) (lat : Nat) (f : Ev → Nat → Nat × BitVec 6) : Prop :=
  let x := s.ev m
  let av := s.grp x a
  let out := (List.range x.vl).map fun j => if x.active j then some (f x (av.1 j)) else none
  esLegal s.cell.es.sh i = true →
    EsWrites i s lat .v d.toNat (partsOf x.w x.g (out.map fun y => y.map (·.1)) fun _ => av.2 || x.mask.psn)
      (out.foldl (fun z y => match y with | some w => z ||| w.2 | none => z) 0)

/-- The magnitude that a pattern without its sign stands for (R47, R49), with the exponents above the format's own gone on with. -/
def Sys2Proof.Claims.magVal (f : FFmt) (b : Nat) : ℚ :=
  if b < 2 ^ f.fb then (b : ℚ) * 2 ^ (1 - (f.bias : ℤ) - f.fb)
  else ((2 ^ f.fb + b % 2 ^ f.fb : ℕ) : ℚ) * 2 ^ ((b / 2 ^ f.fb : ℕ) - (f.bias : ℤ) - f.fb)

/-- ± m × 2^e. -/
def Sys2Proof.Claims.numVal (neg : Bool) (m : Nat) (e : Int) : ℚ := (sgnd neg m : ℚ) * 2 ^ e

/-- R48, R52: the positive number `x`, taken with a sign, is rounded once to a format in mode `rm`: `b` and `b + 1` are the patterns around
it, `k` is the one taken. Past the largest finite value come OF and NX with an infinity or that value by mode and sign; else NX where the
value has changed, and UF with it where the result is tiny: below the smallest normal number even when rounded with no bound on the
exponent. -/
def Sys2Proof.Claims.RoundsTo (f : FFmt) (rm : Nat) (neg : Bool) (x : ℝ) (r : Nat × BitVec 6) : Prop :=
  let val := fun (n : Nat) => ((magVal f n : ℚ) : ℝ)
  let sign := if neg then 2 ^ (f.eb + f.fb) else 0
  let emin : ℤ := 1 - f.bias
  let away := (rm = 2 ∧ neg = false) ∨ (rm = 3 ∧ neg = true)
  let tiny := if rm = 0 then x < 2 ^ emin - 2 ^ (emin - f.fb - 2) else if away then x ≤ 2 ^ emin - 2 ^ (emin - f.fb - 1) else x < 2 ^ emin
  ∃ b k : Nat, val b ≤ x ∧ x < val (b + 1) ∧ (k = b ∨ k = b + 1)
    ∧ (k = b + 1 ↔ (rm = 0 ∧ (val b + val (b + 1) < 2 * x ∨ (val b + val (b + 1) = 2 * x ∧ b % 2 = 1))) ∨ (away ∧ val b ≠ x))
    ∧ (f.infBits ≤ k → r = (sign + (if rm = 0 ∨ away then f.infBits else f.infBits - 1), fOF ||| fNX))
    ∧ (k < f.infBits → r = (sign + k, (if val k ≠ x then fNX else 0) ||| (if val k ≠ x ∧ tiny then fUF else 0)))

/-- R47 to R52: what a pattern stands for, and how an exact result is delivered: rounded once, zeros and infinities with their sign, every NaN
as the canonical one, NV alone where the operation is invalid. -/
def Sys2Proof.Claims.FloatFormat : Prop :=
  ∀ ty, tyFloat ty = true →
    let f := fmtOf ty
    (∀ x : Nat, x < 2 ^ f.width →
      let b := x % 2 ^ (f.eb + f.fb)
      let neg := decide (2 ^ (f.eb + f.fb) ≤ x)
      (b < f.infBits → ∃ m e, f.decode x = .num neg m e ∧ (m : ℚ) * 2 ^ e = magVal f b)
      ∧ (b = f.infBits → f.decode x = .inf neg)
      ∧ (f.infBits < b → f.decode x = .nan (b < f.nanBits)))
    ∧ (∀ (rm : Nat) (neg : Bool) (m : Nat) (e : Int), rm < 4 → 0 < m → RoundsTo f rm neg ((m : ℝ) * 2 ^ e) (f.encode rm (.num neg m e)))
    ∧ (∀ (rm : Nat) (neg : Bool) (e : Int) (sig : Bool) (v : FV),
      let sign := if neg then 2 ^ (f.eb + f.fb) else 0
      f.encode rm (.num neg 0 e) = (sign, 0) ∧ f.encode rm (.inf neg) = (sign + f.infBits, 0) ∧ f.encode rm (.nan sig) = (f.nanBits, 0)
        ∧ f.deliver rm (v, false) = f.encode rm v ∧ f.deliver rm (.nan sig, true) = (f.nanBits, fNV))
    ∧ f.nanBits = (if ty = 8 then 0x7E00 else if ty = 9 then 0x7FC0 else 0x7FC00000)
    ∧ f.infBits - 1 = (if ty = 8 then 0x7BFF else if ty = 9 then 0x7F7F else 0x7F7FFFFF)

/-- R50 to R52, R171: the exact sum and product of two operands, the zero sign of R51, and what is invalid: a signalling NaN, ∞ − ∞, 0 × ∞. -/
def Sys2Proof.Claims.FloatArithmetic : Prop :=
  (∀ (rm : Nat) (n1 n2 : Bool) (m1 m2 : Nat) (e1 e2 : Int),
    let sum := numVal n1 m1 e1 + numVal n2 m2 e2
    (∃ n m e, fAdd rm (.num n1 m1 e1) (.num n2 m2 e2) = (.num n m e, false) ∧ numVal n m e = sum
      ∧ (sum = 0 → m = 0 ∧ n = if n1 = n2 then n1 else decide (rm = 3)) ∧ (sum ≠ 0 → n = decide (sum < 0)))
    ∧ ∃ m e, fMul (.num n1 m1 e1) (.num n2 m2 e2) = (.num (n1 ^^ n2) m e, false)
      ∧ numVal (n1 ^^ n2) m e = numVal n1 m1 e1 * numVal n2 m2 e2)
  ∧ (∀ (rm : Nat) (n1 n2 n3 : Bool) (m1 m2 m3 : Nat) (e1 e2 e3 : Int),
    let x := numVal n1 m1 e1 * numVal n2 m2 e2 + numVal n3 m3 e3
    ∃ n m e, fFma rm (.num n1 m1 e1) (.num n2 m2 e2) (.num n3 m3 e3) = (.num n m e, false) ∧ numVal n m e = x
      ∧ (x = 0 → m = 0 ∧ n = if (n1 ^^ n2) = n3 then n3 else decide (rm = 3)) ∧ (x ≠ 0 → n = decide (x < 0)))
  ∧ (∀ (rm : Nat) (a b c : FV),
    (a.isNan = true ∨ b.isNan = true → fAdd rm a b = (.nan false, a.sig || b.sig) ∧ fMul a b = (.nan false, a.sig || b.sig))
    ∧ (a.isNan = true ∨ b.isNan = true ∨ c.isNan = true → fFma rm a b c = (.nan false, (fMul a b).2 || c.sig)))
  ∧ (∀ (rm : Nat) (n k : Bool) (m : Nat) (e : Int),
    fAdd rm (.inf n) (.inf k) = (if n = k then (.inf n, false) else (.nan false, true))
    ∧ fAdd rm (.inf n) (.num k m e) = (.inf n, false) ∧ fAdd rm (.num k m e) (.inf n) = (.inf n, false)
    ∧ fMul (.inf n) (.inf k) = (.inf (n ^^ k), false)
    ∧ fMul (.inf n) (.num k m e) = (if m = 0 then (.nan false, true) else (.inf (n ^^ k), false))
    ∧ fMul (.num k m e) (.inf n) = (if m = 0 then (.nan false, true) else (.inf (n ^^ k), false)))
  ∧ (∀ (rm : Nat) (a b c : FV), a.isNan = false → b.isNan = false → c.isNan = false →
    fFma rm a b c = ((fAdd rm (fMul a b).1 c).1, (fMul a b).2 || (fAdd rm (fMul a b).1 c).2))
  ∧ (∀ (n : Bool) (m : Nat) (e : Int) (s : Bool), FV.neg (.num n m e) = .num (!n) m e ∧ FV.neg (.inf n) = .inf (!n)
    ∧ FV.neg (.nan s) = .nan s)

/-- R172: the order of floats, −0 below +0, and what VMIN and VMAX (`max`) give of two elements: the smaller or the larger one, the other one
beside a NaN, the canonical NaN for two, NV for a signalling one; under an integer type the smaller or larger integer. -/
def Sys2Proof.Claims.MinMaxRules : Prop :=
  (∀ (n1 n2 : Bool) (m1 m2 : Nat) (e1 e2 : Int),
    ((FV.num n1 m1 e1).ltz (.num n2 m2 e2) = true ↔
      numVal n1 m1 e1 < numVal n2 m2 e2 ∨ (m1 = 0 ∧ m2 = 0 ∧ n1 = true ∧ n2 = false))
    ∧ ((FV.inf n1).ltz (.num n2 m2 e2) = n1) ∧ ((FV.num n1 m1 e1).ltz (.inf n2) = !n2) ∧ ((FV.inf n1).ltz (.inf n2) = (n1 && !n2)))
  ∧ (∀ (max : Bool) (x : Ev) (a b c : Nat),
    let f := fmtOf x.ty
    let u := f.decode a
    let v := f.decode b
    let r := minMax max x a b c
    (tyInt x.ty = true → r.2 = 0 ∧ (r.1 = a ∨ r.1 = b)
      ∧ (if max then intOf x.ty a ≤ intOf x.ty r.1 ∧ intOf x.ty b ≤ intOf x.ty r.1
        else intOf x.ty r.1 ≤ intOf x.ty a ∧ intOf x.ty r.1 ≤ intOf x.ty b))
    ∧ (tyInt x.ty = false →
      r.2 = (if u.sig = true ∨ v.sig = true then fNV else 0)
      ∧ (u.isNan = true → v.isNan = true → r.1 = f.nanBits) ∧ (u.isNan = true → v.isNan = false → r.1 = b)
      ∧ (u.isNan = false → v.isNan = true → r.1 = a)
      ∧ (u.isNan = false → v.isNan = false → (r.1 = a ∨ r.1 = b) ∧
        (if max then (f.decode r.1).ltz u = false ∧ (f.decode r.1).ltz v = false
          else u.ltz (f.decode r.1) = false ∧ v.ltz (f.decode r.1) = false))))

/-- R171, R172: elementwise arithmetic: integers exact and then narrowed, floats rounded once. Integer VFMA and VFMS take latency 2, one of the
two rows of R93 that fit (log 34). -/
def Obligations.EsArithmeticResult : Prop :=
  (∀ (s : State) (o : OpV3s),
    let l := if tyInt s.ty then 2 else 3
    Elementwise (.vadd o) s o.m o.d o.a o.b l false (fun x a b _ =>
      if tyInt x.ty then narrow x.ty o.sat (intOf x.ty a + intOf x.ty b)
      else (fmtOf x.ty).deliver x.rm (fAdd x.rm ((fmtOf x.ty).decode a) ((fmtOf x.ty).decode b)))
    ∧ Elementwise (.vsub o) s o.m o.d o.a o.b l false (fun x a b _ =>
      if tyInt x.ty then narrow x.ty o.sat (intOf x.ty a - intOf x.ty b)
      else (fmtOf x.ty).deliver x.rm (fAdd x.rm ((fmtOf x.ty).decode a) ((fmtOf x.ty).decode b).neg))
    ∧ Elementwise (.vmul o) s o.m o.d o.a o.b l false (fun x a b _ =>
      if tyInt x.ty then narrow x.ty o.sat (intOf x.ty a * intOf x.ty b)
      else (fmtOf x.ty).deliver x.rm (fMul ((fmtOf x.ty).decode a) ((fmtOf x.ty).decode b))))
  ∧ (∀ (s : State) (o : OpV3),
    let l := if tyInt s.ty then 2 else 4
    Elementwise (.vfma o) s o.m o.d o.a o.b l true (fun x a b c =>
      if tyInt x.ty then narrow x.ty false (intOf x.ty c + intOf x.ty a * intOf x.ty b)
      else (fmtOf x.ty).deliver x.rm (fFma x.rm ((fmtOf x.ty).decode a) ((fmtOf x.ty).decode b) ((fmtOf x.ty).decode c)))
    ∧ Elementwise (.vfms o) s o.m o.d o.a o.b l true (fun x a b c =>
      if tyInt x.ty then narrow x.ty false (intOf x.ty c - intOf x.ty a * intOf x.ty b)
      else (fmtOf x.ty).deliver x.rm (fFma x.rm ((fmtOf x.ty).decode a).neg ((fmtOf x.ty).decode b) ((fmtOf x.ty).decode c)))
    ∧ Elementwise (.vmin o) s o.m o.d o.a o.b (if tyInt s.ty then 2 else 3) false (minMax false)
    ∧ Elementwise (.vmax o) s o.m o.d o.a o.b (if tyInt s.ty then 2 else 3) false (minMax true))
  ∧ FloatFormat ∧ FloatArithmetic ∧ MinMaxRules
  ∧ (∀ (s : State) (o : OpV2s), Elementwise1 (.vabs o) s o.m o.d o.a 2 (fun x a =>
      if tyInt x.ty then narrow x.ty o.sat (intOf x.ty a).natAbs else (a % 2 ^ (x.w - 1), 0))
    ∧ Elementwise1 (.vneg o) s o.m o.d o.a 2 (fun x a =>
      if tyInt x.ty then narrow x.ty o.sat (-(intOf x.ty a)) else ((a + 2 ^ (x.w - 1)) % 2 ^ x.w, 0)))

/-- R171, R173: bitwise forms and shifts; a count of the width or more leaves zeros, or the sign under VSAR. -/
def Obligations.EsLogicResult : Prop :=
  (∀ (s : State) (o : OpV3),
    Elementwise (.vand o) s o.m o.d o.a o.b 2 false (fun _ a b _ => (a &&& b, 0))
    ∧ Elementwise (.vor o) s o.m o.d o.a o.b 2 false (fun _ a b _ => (a ||| b, 0))
    ∧ Elementwise (.vxor o) s o.m o.d o.a o.b 2 false (fun _ a b _ => (a ^^^ b, 0))
    ∧ Elementwise (.vshl o) s o.m o.d o.a o.b 2 false (fun x a n _ => (if x.w ≤ n then 0 else a * 2 ^ n % 2 ^ x.w, 0))
    ∧ Elementwise (.vshr o) s o.m o.d o.a o.b 2 false (fun x a n _ => (if x.w ≤ n then 0 else a / 2 ^ n, 0))
    ∧ Elementwise (.vsar o) s o.m o.d o.a o.b 2 false (fun x a n _ => (shiftEl .arith x a n, 0)))
  ∧ (∀ (s : State) (o : OpVshi),
    Elementwise1 (.vshlImm o) s o.m o.d o.a 2 (fun x a => (if x.w ≤ o.k.toNat then 0 else a * 2 ^ o.k.toNat % 2 ^ x.w, 0))
    ∧ Elementwise1 (.vshrImm o) s o.m o.d o.a 2 (fun x a => (if x.w ≤ o.k.toNat then 0 else a / 2 ^ o.k.toNat, 0))
    ∧ Elementwise1 (.vsarImm o) s o.m o.d o.a 2 (fun x a => (shiftEl .arith x a o.k.toNat, 0)))
  ∧ (∀ (x : Ev) (a n : Nat), 1 ≤ x.w → a < 2 ^ x.w →
    ∀ i, i < x.w → (shiftEl .arith x a n).testBit i = a.testBit (min (i + n) (x.w - 1)))

/-- R174: 1/a and 1/√a rounded once from the exact value, and the special values of the four functions. -/
def Sys2Proof.Claims.SpecialRules : Prop :=
  (∀ (ty rm : Nat) (n : Bool) (m : Nat) (e : Int), tyFloat ty = true → rm < 4 → 0 < m →
    let f := fmtOf ty
    RoundsTo f rm n (1 / ((m : ℝ) * 2 ^ e)) (f.deliverFl rm (fRcp (.num n m e)))
    ∧ RoundsTo f rm false (1 / Real.sqrt ((m : ℝ) * 2 ^ e)) (f.deliverFl rm (fRsq (.num false m e)))
    ∧ f.deliverFl rm (fRsq (.num true m e)) = (f.nanBits, fNV) ∧ f.deliverFl rm (fLog2 (.num true m e)) = (f.nanBits, fNV))
  ∧ (∀ (ty rm : Nat) (n : Bool) (e : Int) (sig : Bool), tyFloat ty = true → rm < 4 →
    let f := fmtOf ty
    let sign := if n then 2 ^ (f.eb + f.fb) else 0
    let nan := (f.nanBits, if sig then fNV else 0)
    f.deliverFl rm (fRcp (.num n 0 e)) = (sign + f.infBits, fDZ) ∧ f.deliverFl rm (fRsq (.num n 0 e)) = (sign + f.infBits, fDZ)
      ∧ f.deliverFl rm (fExp2 (.num n 0 e)) = (f.bias * 2 ^ f.fb, 0)
      ∧ f.deliverFl rm (fLog2 (.num n 0 e)) = (2 ^ (f.eb + f.fb) + f.infBits, fDZ)
      ∧ f.deliverFl rm (fRcp (.inf n)) = (sign, 0)
      ∧ f.deliverFl rm (fRsq (.inf n)) = (if n then (f.nanBits, fNV) else (0, 0))
      ∧ f.deliverFl rm (fExp2 (.inf n)) = (if n then 0 else f.infBits, 0)
      ∧ f.deliverFl rm (fLog2 (.inf n)) = (if n then (f.nanBits, fNV) else (f.infBits, 0))
      ∧ f.deliverFl rm (fRcp (.nan sig)) = nan ∧ f.deliverFl rm (fRsq (.nan sig)) = nan ∧ f.deliverFl rm (fExp2 (.nan sig)) = nan
      ∧ f.deliverFl rm (fLog2 (.nan sig)) = nan)
  ∧ (∀ (n : Bool) (m e : Nat), m * 2 ^ e < 2 ^ 12 →
    ∃ k, fExp2 (.num n m e) = (.num false 1 k, 0) ∧ (0 < m → k = sgnd n (m * 2 ^ e)))
  ∧ (∀ (k : Nat) (e : Int), ∃ n m, fLog2 (.num false (2 ^ k) e) = (.num n m 0, 0) ∧ sgnd n m = k + e)

/-- R53: conversion of one element by the two types. -/
def Sys2Proof.Claims.ConvertRules : Prop :=
  (∀ rm st dt sat x, tyFloat st = true → tyFloat dt = true →
    convertEl rm st dt sat x = (match (fmtOf st).decode x with
      | .nan sig => ((fmtOf dt).nanBits, if sig then fNV else 0)
      | v => (fmtOf dt).encode rm v))
  ∧ (∀ rm st dt sat x, tyInt st = true → tyFloat dt = true →
    (intOf st x = 0 → convertEl rm st dt sat x = (0, 0))
    ∧ (rm < 4 → intOf st x ≠ 0 →
      RoundsTo (fmtOf dt) rm (decide (intOf st x < 0)) ((intOf st x).natAbs : ℝ) (convertEl rm st dt sat x)))
  ∧ (∀ rm st dt sat x, tyInt st = true → tyInt dt = true →
    let r := convertEl rm st dt sat x
    (sat = false → r = ((intOf st x % 2 ^ tyWidth dt).toNat, 0))
    ∧ (sat = true → intOf dt r.1 = max (tyMin dt) (min (intOf st x) (tyMax dt))
      ∧ r.2 = if intOf dt r.1 = intOf st x then 0 else fSAT))
  ∧ (∀ rm st dt sat x, tyFloat st = true → tyInt dt = true →
    let r := convertEl rm st dt sat x
    (∀ sig, (fmtOf st).decode x = .nan sig → r = (0, fNV))
    ∧ (∀ n, (fmtOf st).decode x = .inf n → intOf dt r.1 = (if n then tyMin dt else tyMax dt) ∧ r.2 = fNV)
    ∧ (∀ n m e, rm < 4 → (fmtOf st).decode x = .num n m e →
      let q := numVal n m e
      ∃ v : ℤ, (rm = 0 → |q - v| < 1 / 2 ∨ (|q - v| = 1 / 2 ∧ v % 2 = 0)) ∧ (rm = 1 → v = if q < 0 then ⌈q⌉ else ⌊q⌋)
        ∧ (rm = 2 → v = ⌈q⌉) ∧ (rm = 3 → v = ⌊q⌋)
        ∧ (v < tyMin dt → intOf dt r.1 = tyMin dt ∧ r.2 = fNV) ∧ (tyMax dt < v → intOf dt r.1 = tyMax dt ∧ r.2 = fNV)
        ∧ (tyMin dt ≤ v → v ≤ tyMax dt → intOf dt r.1 = v ∧ r.2 = if q = v then 0 else fNX)))

/-- R54, R55: how a block is read under the format its consumer declares. -/
def Sys2Proof.Claims.BlockReading : Prop :=
  ∀ (bx3 : Bool) (b : Nat), b < 2 ^ 512 →
    let c := blkByte b 0
    let gs := if bx3 then bx3Groups b else bx7Groups b
    let well := c = (if bx3 then 0x20 else 0x10) ∧ (∀ n, (if bx3 then 55 else 60) ≤ n → blkByte b n = 0)
      ∧ ∀ g ∈ gs, 1 + g.gap ≤ g.scale
    (c / 16 = 0 → readBlock bx3 b = .zero) ∧ (c / 16 = 15 → readBlock bx3 b = .invalid)
      ∧ (well → readBlock bx3 b = .groups gs) ∧ (c / 16 ≠ 0 → c / 16 ≠ 15 → ¬ well → readBlock bx3 b = .malformed)

/-- R56, R63, R64: how values are quantised. `n` is `q` rounded to the nearest integer, ties to even. -/
def Sys2Proof.Claims.QuantRules : Prop :=
  let mag := fun (y : Nat × Int) => (y.1 : ℚ) * 2 ^ y.2
  let steps := fun (y : Nat × Int) (e : Nat) => rneMag y.1 (y.2 - ((e : Int) - 131))
  (∀ (m : Nat) (d : Int), let q : ℚ := (m : ℚ) * 2 ^ d
    let n := rneMag m d
    |q - n| < 1 / 2 ∨ (|q - n| = 1 / 2 ∧ n % 2 = 0))
  ∧ (∀ xs : List (Bool × Nat × Int), (∀ x ∈ xs, x.2.1 = 0) → bx7Group xs = ⟨1, 0, xs.map fun _ => 0, false⟩)
  ∧ (∀ xs : List (Bool × Nat × Int), (∃ x ∈ xs, x.2.1 ≠ 0) →
    let g := bx7Group xs
    let low := fun (y : Nat × Int) => y ∈ xs.map (·.2) ∧ y.1 ≠ 0 ∧ mag y < 4 * 2 ^ ((g.scale : ℤ) - 131)
    (∃ top ∈ xs.map (·.2), (∀ y ∈ xs.map (·.2), mag y ≤ mag top) ∧ 1 ≤ g.scale ∧ g.scale ≤ 255
      ∧ (∀ e, 1 ≤ e → e < g.scale → 31 < steps top e) ∧ (g.sat = false → steps top g.scale ≤ 31)
      ∧ (g.sat = true → g.scale = 255 ∧ 31 < steps top 255))
    ∧ ((∀ y, ¬ low y) → g.gap = 0)
    ∧ (∀ y, low y → (∀ z, low z → mag z ≤ mag y) → g.gap ≤ g.scale - 1 ∧ g.scale - 16 ≤ g.scale - 1 - g.gap
      ∧ steps y (g.scale - 1 - g.gap) ≤ 31 ∧ ∀ e, g.scale - 16 ≤ e → e < g.scale - 1 - g.gap → 31 < steps y e)
    ∧ g.els = xs.map fun x =>
      let ml := steps x.2 (g.scale - 1 - g.gap)
      let m := if ml ≤ 31 then ml else min (steps x.2 g.scale) 31
      if m = 0 then 0 else (if ml ≤ 31 then 64 else 0) + (if x.1 then 32 else 0) + m)
  ∧ (∀ xs : List FV, ((∃ x ∈ xs, x.isNan = true) ∨ ∃ n, FV.inf n ∈ xs) → (quantBlock xs).bytes = 0xF0 ∧ (quantBlock xs).sat = false
    ∧ ((quantBlock xs).nan = true ↔ ∃ x ∈ xs, x.isNan = true) ∧ ((quantBlock xs).inf = true ↔ ∃ n, FV.inf n ∈ xs))
  ∧ (∀ vs : List (Bool × Nat × Int),
    let q := quantBlock (vs.map fun v => .num v.1 v.2.1 v.2.2)
    let a := bx7Group (vs.take 32)
    let b := bx7Group (vs.drop 32)
    let el := fun (x : Nat) => (x.testBit 6, x.testBit 5, x % 32)
    ((∀ v ∈ vs, v.2.1 = 0) → q = ⟨0, false, false, false⟩)
    ∧ (vs.length = 64 → (∃ v ∈ vs, v.2.1 ≠ 0) → q.nan = false ∧ q.inf = false ∧ q.sat = (a.sat || b.sat)
      ∧ readBlock false q.bytes = .groups [⟨a.scale, a.gap, a.els.map el⟩, ⟨b.scale, b.gap, b.els.map el⟩]))

/-- R174 to R177: special functions, conversion, block quantisation and its inverse. VEXP2 and VLOG2 round as log 34 says; when a register of
VQB takes the tag alone is log 56's reading of R163. -/
def Obligations.EsConvertResult : Prop :=
  (∀ (s : State) (o : OpV2),
    Elementwise1 (.vrcp o) s o.m o.d o.a 5 (special fRcp) ∧ Elementwise1 (.vrsq o) s o.m o.d o.a 5 (special fRsq)
    ∧ Elementwise1 (.vexp2 o) s o.m o.d o.a 6 (special fExp2) ∧ Elementwise1 (.vlog2 o) s o.m o.d o.a 6 (special fLog2))
  ∧ SpecialRules ∧ ConvertRules ∧ BlockReading ∧ QuantRules
  ∧ (∀ (s : State) (o : OpVcvt), esLegal s.cell.es.sh (.vcvt o) = true →
    let x := s.ev o.m
    let av := s.grp x o.a
    let dw := tyWidth o.ty.toNat
    let out := (List.range x.vl).map fun j => if x.active j then some (convertEl x.rm x.ty o.ty.toNat o.sat (av.1 j)) else none
    EsWrites (.vcvt o) s 3 .v o.d.toNat (partsOf dw (ceilDiv (x.vl * dw) 2048) (out.map fun y => y.map (·.1)) fun _ => av.2 || x.mask.psn)
      (out.foldl (fun z y => match y with | some w => z ||| w.2 | none => z) 0))
  ∧ (∀ (s : State) (o : OpVqb), esLegal s.cell.es.sh (.vqb o) = true →
    let x := s.ev 0
    let av := s.grp x o.a
    let q := (List.range (x.vl / 64)).map fun b => quantBlock ((List.range 64).map fun i => (fmtOf x.ty).decode (av.1 (64 * b + i)))
    let v := (q.zipIdx.map fun y => y.1.bytes * 2 ^ (512 * y.2)).sum
    EsWrites (.vqb o) s 4 .v o.d.toNat
      ((List.range (ceilDiv x.vl 256)).map fun i =>
        ⟨BitVec.ofNat 2048 (v / 2 ^ (2048 * i)), BitVec.allOnes 256, av.2, 256 * i + 256 ≤ x.vl⟩)
      (if o.flag then q.foldl (fun a y => a ||| ((if y.nan then fNV else 0) ||| (if y.inf || y.sat then fOF else 0))) 0 else 0))
  ∧ (∀ (s : State) (o : OpVdqb), esLegal s.cell.es.sh (.vdqb o) = true →
    let x := s.ev o.m
    let per := if o.bx3 then 128 else 64
    let bytes := if o.bx3 then x.vl / 2 else x.vl
    let n := s.cell.es.span o.a.toNat (ceilDiv bytes 256)
    let block := fun (b : Nat) => if b < bytes / 64 then readBlock o.bx3 (n / 2 ^ (512 * b) % 2 ^ 512) else .zero
    let out := (List.range x.vl).map fun j =>
      if x.active j then some (dqbEl (fmtOf x.ty) x.rm (block (j / per)) (j % per)) else none
    EsWrites (.vdqb o) s 3 .v o.d.toNat (partsOf x.w x.g (out.map fun y => y.map (·.1))
      fun _ => s.cell.es.spanPsn o.a.toNat (ceilDiv bytes 256) || x.mask.psn)
      (out.foldl (fun z y => match y with | some w => z ||| w.2 | none => z) 0))
  ∧ (∀ (f : FFmt) (rm i : Nat) (gs : List Grp), dqbEl f rm .zero i = (0, 0) ∧ dqbEl f rm .invalid i = (f.nanBits, 0)
    ∧ dqbEl f rm .malformed i = (f.nanBits, fNV)
    ∧ ∀ g, gs[i / 32]? = some g → dqbEl f rm (.groups gs) i = f.encode rm (g.val (g.els.getD (i % 32) (false, false, 0))))

/-- R178: a compare writes a whole mask: bit i is the condition on element i of the operands, 0 where i is inactive; its flags are those of
the active elements, and it takes the tag alone where every element position is active. -/
def Sys2Proof.Claims.Compares (s : State) (o : OpVcmp) (bv : Nat → Nat) (bt : Bool) (writes : List EPart → BitVec 6 → Prop) : Prop :=
  let x := s.ev o.m
  let av := s.grp x o.a
  let fl := fun (i : Nat) => vcondFloat o.cond ((fmtOf x.ty).decode (av.1 i)) ((fmtOf x.ty).decode (bv i))
  ∃ m : BitVec 2048,
    (∀ i, i < 2048 → m.getLsbD i = (x.active i && if tyInt x.ty then vcondInt o.cond (intOf x.ty (av.1 i)) (intOf x.ty (bv i)) else (fl i).1))
    ∧ writes [⟨m, BitVec.allOnes 256, av.2 || bt || x.mask.psn, (List.range 2048).all x.active⟩]
      ((List.range x.vl).foldl (fun z i => if x.active i && !tyInt x.ty then z ||| (fl i).2 else z) 0)

/-- R163, R178 to R180: compares write whole masks, mask forms act on all 2,048 bits, VIOTA numbers and VSEL selects; a field they do not
use is zero. When a compared mask takes the tag alone is log 56's reading of R163. -/
def Obligations.EsMaskResult : Prop :=
  (∀ (s : State) (o : OpVcmp), esLegal s.cell.es.sh (.vcmp o) = true →
    (∀ v, o.b = .reg v →
      Compares s o (s.grp (s.ev o.m) v).1 (s.grp (s.ev o.m) v).2 (EsWrites (.vcmp o) s 2 .m o.d.toNat))
    ∧ (∀ q e r, o.b = .queue q → popHead s.pkg.time.clk (s.cell.qs.dq q) = some (e, r) →
      Compares s o (fun _ => e.v.toNat % 2 ^ (s.ev o.m).w) e.psn (EsPops (.vcmp o) s q r 2 .m o.d.toNat)))
  ∧ (∀ (s : State) (o : OpM3),
    let a := s.cell.es.rm o.a
    let b := s.cell.es.rm o.b
    EsWrites (.mand o) s 2 .m o.d.toNat [⟨a.bits &&& b.bits, BitVec.allOnes 256, a.psn || b.psn, true⟩] 0
    ∧ EsWrites (.mor o) s 2 .m o.d.toNat [⟨a.bits ||| b.bits, BitVec.allOnes 256, a.psn || b.psn, true⟩] 0
    ∧ EsWrites (.mxor o) s 2 .m o.d.toNat [⟨a.bits ^^^ b.bits, BitVec.allOnes 256, a.psn || b.psn, true⟩] 0)
  ∧ (∀ (s : State) (o : OpM2), EsWrites (.mnot o) s 2 .m o.d.toNat
      [⟨~~~ (s.cell.es.rm o.a).bits, BitVec.allOnes 256, (s.cell.es.rm o.a).psn, true⟩] 0)
  ∧ (∀ (s : State) (o : OpViota), esLegal s.cell.es.sh (.viota o) = true →
    let x := s.ev o.m
    EsWrites (.viota o) s 2 .v o.d.toNat
      (partsOf x.w x.g ((List.range x.vl).map fun i => if x.active i then some (i % 2 ^ x.w) else none) fun _ => x.mask.psn) 0)
  ∧ (∀ (s : State) (o : OpVr3), esLegal s.cell.es.sh (.vsel o) = true →
    let x := s.ev o.m
    let a := s.grp x o.a
    let b := s.grp x o.b
    EsWrites (.vsel o) s 2 .v o.d.toNat (partsOf x.w x.g
      ((List.range x.vl).map fun i => some (if x.mask.bits.getLsbD i then a.1 i else b.1 i)) fun _ => a.2 || b.2 || x.mask.psn) 0)
  ∧ (∀ w : Word32, 0x29 ≤ (esOp w).toNat → (esOp w).toNat ≤ 0x2C →
    (esM w ≠ 0 ∨ esFn w ≠ 0 ∨ ((esOp w).toNat = 0x2C ∧ esB w ≠ 0)) → ∃ e, decodeEs w = .error e)
  ∧ (∀ w : Word32, (esOp w).toNat = 0x26 → (esA w ≠ 0 ∨ esB w ≠ 0 ∨ esFn w ≠ 0) → ∃ e, decodeEs w = .error e)

/-- A reduction of the active elements of `o.a`, with the value and flags `f` gives: it fills one register after 4 ticks and one more for
each level of its tree; the register takes the tag alone where every element position is active, else ORed to its own (R163). -/
def Sys2Proof.Claims.Reduces (i : Instr) (s : State) (o : OpV2) (f : Ev → (Nat → Nat) → Nat × BitVec 6) : Prop :=
  let x := s.ev o.m
  let av := s.grp x o.a
  esLegal s.cell.es.sh i = true →
    EsWrites i s (4 + ceilLog2 x.vl) .v o.d.toNat [⟨BitVec.ofNat 2048 (f x av.1).1, BitVec.allOnes 256, av.2 || x.mask.psn,
      (List.range (2048 / x.w)).all x.active⟩] (f x av.1).2

/-- R181, R182: the fixed tree pairs neighbours, so that each half is combined first; at a node of VRSUM the two are added, rounded once, and
their flags kept. A float extreme is that of the lowest of the active elements that no other exceeds, −0 being below +0; NaNs lose to
numbers, and where there are only NaNs the result is the canonical one with the lowest index. -/
def Sys2Proof.Claims.FloatReductions : Prop :=
  (∀ (f : Nat × BitVec 6 → Nat × BitVec 6 → Nat × BitVec 6) (n : Nat) (l : List (Option (Nat × BitVec 6))), l.length = 2 ^ (n + 1) →
    treeGo f (n + 1) l = (match treeGo f n (l.take (2 ^ n)), treeGo f n (l.drop (2 ^ n)) with
      | some a, some b => some (f a b)
      | some a, none => some a
      | none, z => z))
  ∧ (∀ (f : Nat × BitVec 6 → Nat × BitVec 6 → Nat × BitVec 6) (z : Option (Nat × BitVec 6)), treeGo f 0 [z] = z)
  ∧ (∀ (x : Ev) (a b : Nat × BitVec 6), tyInt x.ty = false →
    let f := fmtOf x.ty
    let r := f.deliver x.rm (fAdd x.rm (f.decode a.1) (f.decode b.1))
    sumNode x a b = (r.1, r.2 ||| a.2 ||| b.2))
  ∧ (∀ (x : Ev) (el : Nat → Nat), tyFloat x.ty = true →
    let f := fmtOf x.ty
    let sig := ∃ i, i < x.vl ∧ x.active i = true ∧ (f.decode (el i)).sig = true
    let tree := treeGo (sumNode x) (ceilLog2 x.vl) ((List.range (2 ^ ceilLog2 x.vl)).map fun i =>
      if x.active i then some (el i, (0 : BitVec 6)) else none)
    (tree = none → reduceSum x el = (0, 0))
    ∧ ∀ v fl, tree = some (v, fl) →
      ((f.decode v).isNan = true → (reduceSum x el).1 = f.nanBits) ∧ ((f.decode v).isNan = false → (reduceSum x el).1 = v)
      ∧ (sig → (reduceSum x el).2 = fl ||| fNV) ∧ (¬ sig → (reduceSum x el).2 = fl))
  ∧ (∀ (x : Ev) (max : Bool) (el : Nat → Nat), tyFloat x.ty = true → x.w = tyWidth x.ty →
    let f := fmtOf x.ty
    let v := fun (i : Nat) => f.decode (el i)
    let num := fun (i : Nat) => x.active i = true ∧ (v i).isNan = false
    let before := fun (i j : Nat) => if max then (v i).ltz (v j) = true else (v j).ltz (v i) = true
    let fl : BitVec 6 := if anySig x el then fNV else 0
    ((∀ i, x.active i = false) → reduceExt x max el = ((if max then 2 ^ (f.eb + f.fb) else 0) + f.infBits, 2 ^ 64 - 1, 0))
    ∧ (∀ i, x.active i = true → (∀ j, ¬ num j) → (∀ j, j < i → x.active j = false) → reduceExt x max el = (f.nanBits, i, fl))
    ∧ ∀ i, num i → (∀ j, num j → ¬ before i j) → (∀ j, j < i → num j → before j i) → reduceExt x max el = (el i, i, fl))

/-- R181, R182: the five reductions: value, flags, index in bits 127:64, tag and latency. Under an integer type the sum is that of the
active elements modulo 2^w, and an extreme is that of the first active element no other exceeds. When the register takes the tag alone is
log 56's reading of R163. -/
def Obligations.EsReductionResult : Prop :=
  (∀ (s : State) (o : OpV2),
    Reduces (.vrsum o) s o reduceSum
    ∧ Reduces (.vrmax o) s o (fun x el => ((reduceExt x true el).1, (reduceExt x true el).2.2))
    ∧ Reduces (.vrmin o) s o (fun x el => ((reduceExt x false el).1, (reduceExt x false el).2.2))
    ∧ Reduces (.vrmaxi o) s o (fun x el =>
        ((reduceExt x true el).1 + (reduceExt x true el).2.1 * 2 ^ 64, (reduceExt x true el).2.2))
    ∧ Reduces (.vrmini o) s o (fun x el =>
        ((reduceExt x false el).1 + (reduceExt x false el).2.1 * 2 ^ 64, (reduceExt x false el).2.2)))
  ∧ (∀ (s : State) (o : OpV2), esLegal s.cell.es.sh (.vrsum o) = true → tyInt s.ty = true →
    let x := s.ev o.m
    let av := s.grp x o.a
    ∃ v, EsWrites (.vrsum o) s (4 + ceilLog2 x.vl) .v o.d.toNat [⟨v, BitVec.allOnes 256, av.2 || x.mask.psn,
        (List.range (2048 / x.w)).all x.active⟩] 0
      ∧ v = BitVec.ofInt 2048 ((((List.range x.vl).map fun i => if x.active i then intOf x.ty (av.1 i) else 0).sum) % 2 ^ x.w))
  ∧ (∀ (x : Ev) (max : Bool) (el : Nat → Nat), tyInt x.ty = true →
    ((∀ i, x.active i = false) → reduceExt x max el =
      (wrapInt x.w (if max then tyMin x.ty else tyMax x.ty), 2 ^ 64 - 1, 0))
    ∧ ∀ i, x.active i = true →
      (∀ j, x.active j = true → if max then intOf x.ty (el j) ≤ intOf x.ty (el i) else intOf x.ty (el i) ≤ intOf x.ty (el j)) →
      (∀ j, j < i → x.active j = true → intOf x.ty (el j) ≠ intOf x.ty (el i)) → reduceExt x max el = (el i, i, 0))
  ∧ FloatReductions

/-- R183, R184: permutes, slides, gathers and VRNG. -/
def Obligations.EsPermuteResult : Prop :=
  (∀ (s : State) (o : OpVr3),
    let x := s.ev o.m
    let a := s.grp x o.a
    let b := s.grp x o.b
    (esLegal s.cell.es.sh (.vperm o) = true → EsWrites (.vperm o) s 3 .v o.d.toNat (partsOf x.w x.g
      ((List.range x.vl).map fun i => if x.active i then some (if x.vl ≤ b.1 i then 0 else a.1 (b.1 i)) else none)
      fun _ => a.2 || b.2 || x.mask.psn) 0)
    ∧ (esLegal s.cell.es.sh (.vgath o) = true → EsWrites (.vgath o) s 3 .v o.d.toNat (partsOf x.w x.g
      ((List.range x.vl).map fun i => if x.active i then
        some (if 16384 / x.w ≤ b.1 i then 0 else elAt (s.cell.es.span o.a.toNat 8) x.w (b.1 i)) else none)
      fun _ => s.cell.es.spanPsn o.a.toNat 8 || b.2 || x.mask.psn) 0)
    ∧ (esLegal s.cell.es.sh (.vrng o) = true → EsWrites (.vrng o) s 4 .v o.d.toNat (partsOf x.w x.g
      ((List.range x.vl).map fun i => if x.active i then some (rng (BitVec.ofNat 32 (a.1 i)) (BitVec.ofNat 32 (b.1 i))).toNat else none)
      fun _ => a.2 || b.2 || x.mask.psn) 0))
  ∧ (∀ (s : State) (o : OpSlide), esLegal s.cell.es.sh (.vslide o) = true →
    let x := s.ev o.m
    let a := s.grp x o.a
    EsWrites (.vslide o) s 2 .v o.d.toNat (partsOf x.w x.g
      ((List.range x.vl).map fun i => if x.active i then
        some (if 0 ≤ (i : Int) - o.n.toInt ∧ (i : Int) - o.n.toInt < x.vl then a.1 ((i : Int) - o.n.toInt).toNat else 0) else none)
      fun _ => a.2 || x.mask.psn) 0)

/-- R185 to R188: accumulator rows: reading and writing a chunk, scaling, clearing, the status word. -/
def Obligations.TileResult : Prop :=
  (∀ (s : State) (o : OpAcr) (r : TRow), (s.tile o.tile.toNat).rows[o.row.toNat]? = some r →
    o.chunk.toNat < Config.arrN s.cell.id.die / 32 →
    let bad := r.bad.any fun j => 32 * o.chunk.toNat ≤ j && j < 32 * o.chunk.toNat + 32
    let els := (List.range 32).map fun i =>
      if (s.cell.es.rm o.m).bits.getLsbD i then some (r.a.getD (32 * o.chunk.toNat + i) 0).toNat else none
    (bad = false → EsWrites (.acrd o) s 4 .v o.d.toNat (partsOf 64 1 els fun _ => r.psn || r.par || (s.cell.es.rm o.m).psn) 0)
    ∧ (bad = true → exec (.acrd o) s = .next ((s.parityFound 1 o.tile.toNat o.row.toNat true).esWrite 4 o.d 64 1 els true 0)))
  ∧ (∀ (s : State) (agent i k : Nat) (r : TRow), (s.tile i).rows[k]? = some r →
    ((s.parityFound agent i k true).tile i).rows[k]? = some { r with par := true }
      ∧ (s.parityFound agent i k true).mem = s.mem ∧ (s.parityFound agent i k true).core = s.core)
  ∧ (∀ (s : State) (o : OpAcr) (r : TRow), (s.tile o.tile.toNat).rows[o.row.toNat]? = some r →
    o.chunk.toNat < Config.arrN s.cell.id.die / 32 → (s.cell.es.vn o.d.toNat).psn = false → (s.cell.es.rm o.m).psn = false →
    ∃ t, exec (.acwr o) s = .next t ∧ t.cell.es = s.cell.es.advance.endTick
      ∧ EsMoves s t (fun c => { c with tiles := t.cell.tiles })
      ∧ (∀ i k : Nat, (i ≠ o.tile.toNat ∨ k ≠ o.row.toNat) → (t.tile i).rows[k]? = (s.tile i).rows[k]?)
      ∧ (t.tile o.tile.toNat).rows[o.row.toNat]? =
        some (r.putChunk (32 * o.chunk.toNat) (s.cell.es.rm o.m).bits (s.cell.es.vn o.d.toNat).bits.toNat))
  ∧ (∀ (s : State) (o : OpAcr) (r : TRow), (s.tile o.tile.toNat).rows[o.row.toNat]? = some r →
    o.chunk.toNat < Config.arrN s.cell.id.die / 32 → ((s.cell.es.vn o.d.toNat).psn = true ∨ (s.cell.es.rm o.m).psn = true) →
    exec (.acwr o) s = .next (s.esFault cPoison 0))
  ∧ (∀ (s : State) (o : OpAcsc) (r : TRow) (e : QEnt) (l : List QEnt), (s.tile o.tile.toNat).rows[o.row.toNat]? = some r →
    32 ≤ Config.arrN s.cell.id.die → popHead s.pkg.time.clk (s.cell.qs.dq o.q) = some (e, l) → e.psn = false →
    ∃ t, exec (.acsc o) s = .next t ∧ t.cell.es = s.cell.es.advance.endTick
      ∧ EsMoves s t (fun c => { c with qs := s.cell.qs.setDq o.q l, tiles := t.cell.tiles })
      ∧ (∀ i k : Nat, (i ≠ o.tile.toNat ∨ k ≠ o.row.toNat) → (t.tile i).rows[k]? = (s.tile i).rows[k]?)
      ∧ (t.tile o.tile.toNat).rows[o.row.toNat]? = some (r.scale e.v.toInt))
  ∧ (∀ (s : State) (o : OpAcsc) (r : TRow), (s.tile o.tile.toNat).rows[o.row.toNat]? = some r → 32 ≤ Config.arrN s.cell.id.die →
    (popHead s.pkg.time.clk (s.cell.qs.dq o.q) = none → exec (.acsc o) s = .next s)
    ∧ (∀ e l, popHead s.pkg.time.clk (s.cell.qs.dq o.q) = some (e, l) → e.psn = true →
      exec (.acsc o) s = .next (s.esFault cPoison e.v)))
  ∧ (∀ (s : State) (o : OpAcz) (r : TRow), (s.tile o.tile.toNat).rows[o.row.toNat]? = some r → 32 ≤ Config.arrN s.cell.id.die →
    ∃ t, exec (.acz o) s = .next t ∧ t.cell.es = s.cell.es.advance.endTick
      ∧ EsMoves s t (fun c => { c with tiles := t.cell.tiles })
      ∧ (t.tile o.tile.toNat).rows[o.row.toNat]? = some r.clear
      ∧ ∀ i k : Nat, (i ≠ o.tile.toNat ∨ k ≠ o.row.toNat) → (t.tile i).rows[k]? = (s.tile i).rows[k]?)
  ∧ (∀ (s : State) (o : OpAczT), ∃ t, exec (.aczTile o) s = .next t ∧ t.cell.es = s.cell.es.advance.endTick
      ∧ EsMoves s t (fun c => { c with tiles := t.cell.tiles })
      ∧ (∀ i k : Nat, i ≠ o.tile.toNat → (t.tile i).rows[k]? = (s.tile i).rows[k]?)
      ∧ ∀ (k : Nat) (r : TRow), (s.tile o.tile.toNat).rows[k]? = some r → (t.tile o.tile.toNat).rows[k]? = some r.clear)
  ∧ (∀ (s : State) (o : OpAcst) (r : TRow), (s.tile o.tile.toNat).rows[o.row.toNat]? = some r → 32 ≤ Config.arrN s.cell.id.die →
    EsWrites (.acst o) s 2 .v o.d.toNat
      [⟨(rowStatus (s.tile o.tile.toNat).events r).zeroExtend 2048, BitVec.allOnes 256, false, true⟩] 0)
  ∧ (∀ (s : State) (o : OpAcst), (s.tile o.tile.toNat).rows[o.row.toNat]? = none →
    exec (.acst o) s = .next (s.esFault 0x13 (wordOf (.acst o))))
  ∧ (∀ (s : State) (o : OpAcr), ((s.tile o.tile.toNat).rows[o.row.toNat]? = none ∨ Config.arrN s.cell.id.die / 32 ≤ o.chunk.toNat) →
    exec (.acrd o) s = .next (s.esFault 0x13 (wordOf (.acrd o))) ∧ exec (.acwr o) s = .next (s.esFault 0x13 (wordOf (.acwr o))))
  ∧ (∀ (s : State) (o : OpAcsc), (s.tile o.tile.toNat).rows[o.row.toNat]? = none →
    exec (.acsc o) s = .next (s.esFault 0x13 (wordOf (.acsc o))))
  ∧ (∀ (s : State) (o : OpAcz), (s.tile o.tile.toNat).rows[o.row.toNat]? = none →
    exec (.acz o) s = .next (s.esFault 0x13 (wordOf (.acz o))))

/-! ## Commands of the engines (R91, R200 to R253) -/

/-- The engine and header of an engine command. -/
def Sys2Proof.Claims.engCmd : Instr → Option (Eng × Hdr)
  | .mhdr h _ | .mopa h _ | .mopb h _ | .mma h _ | .mmaz h _ | .mwb h _ | .mrn h _ | .mclr h _ | .mthr h _ => some (.mx, h)
  | .copy ce h _ | .copyn ce h _ | .gath ce h _ | .scat ce h _ | .fill ce h _ | .flagw ce h _ | .cmpr ce h _ | .expn ce h _ =>
    some (ceOf ce, h)
  | .unfold h _ | .xpose h _ | .relay h _ => some (.xe, h)
  | _ => none

/-- The engine is in step 4 of its command `i`. -/
def Sys2Proof.Claims.Runs (s : State) (e : Eng) (i : Instr) (c : Cmd) : Prop :=
  (s.cell.eng e).cur = some c ∧ c.i = i ∧ c.phase = .run

/-- R22, R24: a semaphore after an error entry: it stays in the error phase it is in, but for one it entered by an overflow of this
cycle, which the entry precedes. -/
def Sys2Proof.Claims.errored (s : State) (n : SemNo) (code : Nat) (x : Sem) : Sem :=
  if s.overflowedNow n then .err (BitVec.ofNat 8 code) else x.error (BitVec.ofNat 8 code)

/-- R200, R201: the steps of every engine command around its execution: it takes its semaphore, waits for its acquire, and once the
writes its release waits for have performed signals, or reports once and puts its semaphore into error phase. -/
def Obligations.EngineCommandSteps : Prop :=
  ∀ (i : Instr) (s : State) (e : Eng) (h : Hdr) (c : Cmd), engCmd i = some (e, h) → (s.cell.eng e).cur = some c → c.i = i →
    (c.phase = .wait → s.sem h.wait = none → exec i s = .next (s.setCmd e (some { c with phase := .acquire })))
    ∧ (∀ n, c.phase = .wait → s.sem h.wait = some (.count n) → n ≠ 0 →
      exec i s = .next ((s.setSem h.wait (.count (n - 1))).setCmd e (some { c with phase := .acquire })))
    ∧ (c.phase = .wait → s.sem h.wait = some (.count 0) → exec i s = .next s)
    ∧ (∀ x, c.phase = .wait → s.sem h.wait = some (.err x) → exec i s = .next (s.setCmd e (some { c with phase := .release x.toNat 0 })))
    ∧ (c.phase = .acquire → (h.acq = true → s.acquireOpen c.acqSeq (scopeReach h.scope) = false) →
      exec i s = .next (s.setCmd e (some { c with phase := .run })))
    ∧ (∀ done, c.phase = .release 0 done → (∀ d ∈ c.ids, s.mem.reached d (scopeReach h.scope) = true) →
      ∃ t, exec i s = .next t ∧ (t.cell.eng e).cur = none ∧ t.mem = s.mem ∧ t.cell.as = s.cell.as ∧ t.cell.es = s.cell.es
        ∧ (∀ n, n ≠ h.sig → t.sem n = s.sem n) ∧ t.sem h.sig = (s.sem h.sig).map Sem.signal)
    ∧ (∀ code done, c.phase = .release code done → code ≠ 0 → (s.cell.eng e).told = true →
      (∀ d ∈ c.ids, s.mem.reached d (scopeReach h.scope) = true) →
      ∃ t, exec i s = .next t ∧ (t.cell.eng e).cur = none ∧ t.mem = s.mem ∧ t.cell.as = s.cell.as ∧ t.cell.es = s.cell.es
        ∧ (∀ n, n ≠ h.sig → t.sem n = s.sem n) ∧ t.sem h.sig = (s.sem h.sig).map (errored s h.sig code)
        ∧ t.cell.mxs = (if e = .mx ∧ (code ≠ 5 ∨ isMhdr i = true) then { s.cell.mxs with held := none } else s.cell.mxs))
    ∧ (∀ code done, c.phase = .release code done → code ≠ 0 → (s.cell.eng e).told = false →
      (e = .mx ∧ isMma i = false ∧ h.sig ≠ 63 → (∀ d ∈ c.ids, s.mem.reached d (scopeReach h.scope) = true) →
        ∃ t, exec i s = .next t ∧ (t.cell.eng e).cur = none ∧ t.sem h.sig = (s.sem h.sig).map (errored s h.sig code))
      ∧ (e ≠ .mx ∨ isMma i = true ∨ h.sig = 63 → (∀ d ∈ c.ids, s.mem.reached d (scopeReach h.scope) = true) →
        exec i s = .next ((s.errReport (engAgent e) c.pos code done).setTold e true)))

/-- R203 to R205, R210, R212, R224: the matrix engine's set-up commands. MHDR latches the shape, or unsets it and completes with
0x04; MOPA and MOPB the descriptors; MTHR the duty; MHDR and MOPB discard the held weights. Without a shape, an A or a B descriptor MMA
and MMAZ end with 0x10. -/
def Obligations.MatrixSetupResult : Prop :=
  (∀ (s : State) (h : Hdr) (p : PMhdr) (c : Cmd), Runs s .mx (.mhdr h p) c →
    p.m.toNat ≤ Config.tileM s.cell.id.die → p.n.toNat ≤ Config.arrN s.cell.id.die →
    exec (.mhdr h p) s = .next ((s.updMx fun x => { x with
      shape := some ⟨p.k.toNat, p.n.toNat, p.m.toNat, p.areg, p.bfmt⟩, held := none }).endRun .mx c h 0 0))
  ∧ (∀ (s : State) (h : Hdr) (p : PMhdr) (c : Cmd), Runs s .mx (.mhdr h p) c →
    (Config.tileM s.cell.id.die < p.m.toNat ∨ Config.arrN s.cell.id.die < p.n.toNat) →
    exec (.mhdr h p) s = .next ((s.updMx fun x => { x with shape := none, held := none }).endRun .mx c h 4 0))
  ∧ (∀ (s : State) (h : Hdr) (p : PMop) (c : Cmd), Runs s .mx (.mopa h p) c →
    exec (.mopa h p) s = .next ((s.updMx fun x => { x with
      a := some ⟨p.base, p.rpitch.toNat, p.tpitch.toNat, p.rot.toNat⟩ }).endRun .mx c h 0 0))
  ∧ (∀ (s : State) (h : Hdr) (p : PMop) (c : Cmd), Runs s .mx (.mopb h p) c →
    exec (.mopb h p) s = .next ((s.updMx fun x => { x with
      b := some ⟨p.base, p.rpitch.toNat, p.tpitch.toNat, p.rot.toNat⟩, held := none }).endRun .mx c h 0 0))
  ∧ (∀ (s : State) (h : Hdr) (p : PMthr) (c : Cmd), Runs s .mx (.mthr h p) c →
    exec (.mthr h p) s = .next ((s.updMx fun x => { x with duty := p.duty }).endRun .mx c h 0 0))
  ∧ (∀ (s : State) (h : Hdr) (p : PMma) (c : Cmd), (s.cell.mxs.shape = none ∨ s.cell.mxs.a = none ∨ s.cell.mxs.b = none) →
    (Runs s .mx (.mma h p) c → exec (.mma h p) s = .next (s.endRun .mx c h 0x10 0))
    ∧ (Runs s .mx (.mmaz h p) c → exec (.mmaz h p) s = .next (s.endRun .mx c h 0x10 0)))
  ∧ (∀ (s : State) (c : Cmd) (h : Hdr) (code done : Nat),
    ∃ ids, ((s.endRun .mx c h code done).cell.eng .mx).cur = some { c with
        phase := .release code done, xl := [], due := none, owes := false, ids := ids }
      ∧ (s.endRun .mx c h code done).mem = s.mem ∧ (s.endRun .mx c h code done).cell.tiles = s.cell.tiles
      ∧ (s.endRun .mx c h code done).cell.mxs = s.cell.mxs)

/-- Row `k` of tile `i` holds `r` afterwards; every other row is as before, and so are memory, the AS and the ES. -/
def Sys2Proof.Claims.RowBecomes (s t : State) (i k : Nat) (r : TRow) : Prop :=
  (t.tile i).rows[k]? = some r ∧ (∀ j l : Nat, (j ≠ i ∨ l ≠ k) → (t.tile j).rows[l]? = (s.tile j).rows[l]?)
    ∧ t.cell.as = s.cell.as ∧ t.cell.es = s.cell.es

/-- Only accounts of energy and heat, the counter of free values and which lines the caches hold are not as before. -/
def Sys2Proof.Claims.Charged (s t : State) : Prop :=
  t.cell = s.cell ∧ t.parked = s.parked ∧ t.mem = { s.mem with lines := t.mem.lines } ∧ t.agenda = s.agenda ∧ t.rr = s.rr
    ∧ t.pkg.unaccounted = s.pkg.unaccounted

/-- R119, R356: before an engine reads a word it caches it meets the errors of its line, as its read of any other word does itself. -/
def Sys2Proof.Claims.lineMet (s : State) (e : Eng) (p : Place) (sa : Word) : State :=
  if p.fills then s.meetError (s.cell.who (engAgent e)) (l1Of s.cell p.line) p sa else s

/-- R374, R375: a word of a run that an engine reads, and one it writes, differ from its plain read or write by charges only. -/
def Sys2Proof.Claims.EngineWords : Prop :=
  (∀ (s : State) (e : Eng) (seg off rot : Nat) (xl : List TlbEnt) (last : Bool),
    ∃ u, Charged (lineMet s e (s.engWord seg off rot xl) (mkAddr seg off)) u ∧
      Charged (u.engRead e seg off rot xl).1 (s.engTake e seg off rot xl last).1
        ∧ (s.engTake e seg off rot xl last).2 = (u.engRead e seg off rot xl).2)
  ∧ (∀ (s : State) (e : Eng) (off since : Nat) (p : Place) (v : Word) (mask : BitVec 8) (psn last : Bool),
    ∃ u, Charged s u ∧ Charged (u.engWrite since p v mask psn) (s.engPut e off since p v mask psn last))

/-- A row once the engine has read it: PAR is set where an element failed its parity (R71). -/
def Sys2Proof.Claims.rowRead (r : TRow) : TRow := { r with par := r.par || !r.bad.isEmpty }

/-- The row a group step works on: cleared by MMAZ at its first group; a fresh row is not read. -/
def Sys2Proof.Claims.stepRow (r : TRow) (zero : Bool) (c : Cmd) : TRow :=
  if zero = true ∧ c.group = 0 then r.clear else if r.fresh then r else rowRead r

/-- R69, R70, R75, R211, R214, R217, R219, R222, R223: the moves of the matrix commands. MMA and MMAZ make the checks of R211, read each
panel block by block and word by word, then take the group steps: the sums go into a fresh row, accumulate into another, or make room
first with a renormalisation event, in a cycle of its own. MCLR clears a row a move, MRN restores its headroom, MWB checks every row of its
destination, then reads each row and writes its words one by one. The last move ends the command. That 0x03 of one operand comes before
0x11 of the other is the model's choice (log 38). -/
def Obligations.MatrixRowResult : Prop :=
  (∀ (s : State) (h : Hdr) (p : PMma) (zero : Bool) (c : Cmd) (sh : Shape) (a b : Desc),
    Runs s .mx (if zero then .mmaz h p else .mma h p) c → s.cell.mxs.shape = some sh → s.cell.mxs.a = some a → s.cell.mxs.b = some b →
    let i : Instr := if zero then .mmaz h p else .mma h p
    let start := c.unit = 0 ∧ c.sub = 0 ∧ c.buf = []
    (start → s.mmaCheck p sh a b ≠ 0 → exec i s = .next (s.endRun .mx c h (s.mmaCheck p sh a b) 0))
    ∧ ((start → s.mmaCheck p sh a b = 0) → c.unit ≤ c.group / 12 →
      (c.sub < panelBlks sh p.keepb c.unit → exec i s = .next (s.panelMove sh a b c))
      ∧ (panelBlks sh p.keepb c.unit ≤ c.sub →
        (c.code ≠ 0 → exec i s = .next (s.endRun .mx c h c.code c.unit))
        ∧ (c.code = 0 → exec i s =
          .next ((s.updMx (panelHeld sh p.keepb c.unit)).setCmd .mx (some { c with unit := c.unit + 1, sub := 0 }))))))
  ∧ (∀ (s : State) (p : PMma) (sh : Shape) (a b : Desc),
    let bad := fun (k : Nat) => k ≠ 0 ∧ k ≠ 3
    (Config.tileM s.cell.id.die < p.row0.toNat + sh.m → s.mmaCheck p sh a b = 4)
    ∧ (p.row0.toNat + sh.m ≤ Config.tileM s.cell.id.die →
      (s.aCode sh a = 3 ∨ s.kindCode b.base b.rot [kScratch, kTensor] = 3 → s.mmaCheck p sh a b = 3)
      ∧ (s.aCode sh a ≠ 3 → s.kindCode b.base b.rot [kScratch, kTensor] ≠ 3 →
        bad (s.aCode sh a) ∨ bad (s.kindCode b.base b.rot [kScratch, kTensor]) → s.mmaCheck p sh a b = 0x11)
      ∧ (s.aCode sh a = 0 → s.kindCode b.base b.rot [kScratch, kTensor] = 0 →
        s.mmaCheck p sh a b = if p.keepb = true ∧ heldFor s.cell.mxs sh = none then 0x12 else 0)))
  ∧ (∀ (s : State) (h : Hdr) (p : PMma) (zero : Bool) (c : Cmd) (sh : Shape) (a b : Desc) (r : TRow),
    Runs s .mx (if zero then .mmaz h p else .mma h p) c → s.cell.mxs.shape = some sh → s.cell.mxs.a = some a →
    s.cell.mxs.b = some b → c.group / 12 < c.unit → (s.tile p.tile.toNat).rows[p.row0.toNat + c.row]? = some r →
    let x := s.partials sh c.row c.group
    let q := stepRow r zero c
    let y := { c with poisoned := c.poisoned || x.2.2, sub := 0 }
    ∃ t, exec (if zero then .mmaz h p else .mma h p) s = .next t ∧ t.mem = s.mem
      ∧ (q.fresh = true → RowBecomes s t p.tile.toNat (p.row0.toNat + c.row) ((q.stepFresh x.1).1.mark x.2.1 x.2.2))
      ∧ (q.fresh = false → q.needsEvent x.1 = true →
          RowBecomes s t p.tile.toNat (p.row0.toNat + c.row) (q.event x.1)
            ∧ (t.cell.eng .mx).cur = some { c with sub := 1 } ∧ t.cell.cyc.clk = s.pkg.time.clk ∧ 3 ≤ t.cell.cyc.rank)
      ∧ (q.fresh = false → q.needsEvent x.1 = false →
          RowBecomes s t p.tile.toNat (p.row0.toNat + c.row) ((q.accumulate x.1).mark x.2.1 x.2.2))
      ∧ (q.fresh = true ∨ q.needsEvent x.1 = false →
          (c.row + 1 < sh.m → (t.cell.eng .mx).cur = some { y with row := c.row + 1 } ∧ t.cell.mxs = s.cell.mxs)
          ∧ (¬ c.row + 1 < sh.m → c.group + 1 < ceilDiv sh.k 32 →
            (t.cell.eng .mx).cur = some { y with row := 0, group := c.group + 1 } ∧ t.cell.mxs = s.cell.mxs)
          ∧ (¬ c.row + 1 < sh.m → ¬ c.group + 1 < ceilDiv sh.k 32 →
            (t.cell.eng .mx).cur = some { y with
              phase := .release (if y.poisoned then 5 else 0) (ceilDiv sh.k 384), xl := [], due := none, owes := false
              ids := if h.rel then s.mem.visibleIds s.cell.id else [] }
            ∧ t.cell.mxs = keepHeld sh s.cell.mxs)))
  ∧ (∀ (s : State) (h : Hdr) (c : Cmd) (sh : Shape) (row0 : Nat), s.cell.mxs.shape = some sh →
    Config.tileM s.cell.id.die < row0 + sh.m →
    (∀ p : PMclr, Runs s .mx (.mclr h p) c → p.row0.toNat = row0 → exec (.mclr h p) s = .next (s.endRun .mx c h 4 0))
    ∧ (∀ p : PMrn, Runs s .mx (.mrn h p) c → p.row0.toNat = row0 → exec (.mrn h p) s = .next (s.endRun .mx c h 4 0)))
  ∧ (∀ (s : State) (h : Hdr) (c : Cmd), s.cell.mxs.shape = none →
    (∀ p, Runs s .mx (.mclr h p) c → exec (.mclr h p) s = .next (s.endRun .mx c h 0x10 0))
    ∧ (∀ p, Runs s .mx (.mrn h p) c → exec (.mrn h p) s = .next (s.endRun .mx c h 0x10 0))
    ∧ (∀ p, Runs s .mx (.mwb h p) c → exec (.mwb h p) s = .next (s.endRun .mx c h 0x10 0)))
  ∧ (∀ (s : State) (h : Hdr) (p : PMclr) (c : Cmd) (sh : Shape) (r : TRow), Runs s .mx (.mclr h p) c → s.cell.mxs.shape = some sh →
    p.row0.toNat + sh.m ≤ Config.tileM s.cell.id.die → (s.tile p.tile.toNat).rows[p.row0.toNat + c.row]? = some r →
    let u := s.updRow p.tile.toNat (p.row0.toNat + c.row) TRow.clear
    exec (.mclr h p) s =
        .next (if c.row + 1 < sh.m then u.setCmd .mx (some { c with row := c.row + 1 }) else u.endRun .mx c h 0 0)
      ∧ RowBecomes s u p.tile.toNat (p.row0.toNat + c.row) r.clear ∧ u.mem = s.mem)
  ∧ (∀ (s : State) (h : Hdr) (p : PMrn) (c : Cmd) (sh : Shape) (r : TRow), Runs s .mx (.mrn h p) c → s.cell.mxs.shape = some sh →
    p.row0.toNat + sh.m ≤ Config.tileM s.cell.id.die → (s.tile p.tile.toNat).rows[p.row0.toNat + c.row]? = some r →
    let q := (rowRead r).restore p.ht.toNat
    let u := (s.parityFound 2 p.tile.toNat (p.row0.toNat + c.row) (!r.bad.isEmpty)).rowEvent p.tile.toNat (p.row0.toNat + c.row)
      (fun _ => q.1) (if q.2 then 1 else 0)
    exec (.mrn h p) s =
        .next (if c.row + 1 < sh.m then u.setCmd .mx (some { c with row := c.row + 1 }) else u.endRun .mx c h 0 0)
      ∧ RowBecomes s u p.tile.toNat (p.row0.toNat + c.row) q.1 ∧ u.mem = s.mem)
  ∧ (∀ (s : State) (h : Hdr) (p : PMwb) (c : Cmd) (sh : Shape), Runs s .mx (.mwb h p) c → s.cell.mxs.shape = some sh → c.unit = 0 →
    let fits := p.row0.toNat + sh.m ≤ Config.tileM s.cell.id.die ∧ ¬ (p.fmt = .bx7 ∧ sh.n % 64 ≠ 0)
    let n := wbBytes p.fmt sh.n
    let k := s.wbCheck p n 0 [] (List.range sh.m)
    (¬ fits → exec (.mwb h p) s = .next (s.endRun .mx c h 4 0))
    ∧ (fits → s.wbKind p ≠ 0 → exec (.mwb h p) s = .next (s.endRun .mx c h (s.wbKind p) 0))
    ∧ (fits → s.wbKind p = 0 → p.rpitch.toNat * 64 < n → exec (.mwb h p) s = .next (s.endRun .mx c h 0x11 0))
    ∧ (fits → s.wbKind p = 0 → n ≤ p.rpitch.toNat * 64 →
      (k.2.1 ≠ 0 → exec (.mwb h p) s = .next (k.1.endRun .mx c h k.2.1 0))
      ∧ (k.2.1 = 0 → exec (.mwb h p) s =
          .next (k.1.setCmd .mx (some { c with unit := 1, xl := k.2.2, since := k.1.pkg.time.t3, owes := true })))))
  ∧ (∀ (s : State) (h : Hdr) (p : PMwb) (c : Cmd) (sh : Shape) (r : TRow), Runs s .mx (.mwb h p) c → s.cell.mxs.shape = some sh →
    c.unit ≠ 0 → c.buf = [] → (s.tile p.tile.toNat).rows[p.row0.toNat + c.row]? = some r →
    let off := segOff p.base + 64 * c.row * p.rpitch.toNat
    let n := wbBytes p.fmt sh.n
    let w := wbRow p.fmt sh.n (rowRead r)
    let v := s.parityFound 2 p.tile.toNat (p.row0.toNat + c.row) (!r.bad.isEmpty)
    let u := if p.z then v.updRow p.tile.toNat (p.row0.toNat + c.row) TRow.clear else v
    let stands := s.placePaused (s.engWord (segNo p.base) off p.rot.toNat c.xl) = true ∧ s.cmdAtHand c = false
    (stands → exec (.mwb h p) s = .next s)
    ∧ (¬ stands → n ≠ 0 →
      exec (.mwb h p) s = .next (u.setCmd .mx (some { c with sub := 0, buf := wbBuf w.1 w.2 (ceilDiv n 8) }))
        ∧ RowBecomes s u p.tile.toNat (p.row0.toNat + c.row) (if p.z then r.clear else rowRead r) ∧ u.mem = s.mem))
  ∧ (∀ (s : State) (h : Hdr) (p : PMwb) (c : Cmd) (sh : Shape), Runs s .mx (.mwb h p) c → s.cell.mxs.shape = some sh →
    c.unit ≠ 0 → c.buf ≠ [] →
    let o := segOff p.base + 64 * c.row * p.rpitch.toNat + 8 * c.sub
    let q := s.engWord (segNo p.base) o p.rot.toNat c.xl
    let x := c.buf.getD c.sub ⟨0, false⟩
    ∃ t u, Charged s t
      ∧ Charged (t.engWrite c.since q x.v (BitVec.ofNat 8 (2 ^ (min (wbBytes p.fmt sh.n - 8 * c.sub) 8) - 1)) x.psn) u
      ∧ exec (.mwb h p) s = .next (if c.sub + 1 < c.buf.length then u.setCmd .mx (some { c with sub := c.sub + 1 })
        else if c.row + 1 < sh.m then u.setCmd .mx (some { c with row := c.row + 1, sub := 0, buf := [] }) else u.endRun .mx c h 0 0))
  ∧ (∀ (v n i : Nat) (psn : Bool), i < n →
    (wbBuf v psn n).length = n ∧ (wbBuf v psn n)[i]? = some ⟨BitVec.ofNat 64 (v / 2 ^ (64 * i)), psn⟩)

/-- The plan of a data command, with its engine and header. -/
def Sys2Proof.Claims.planOf (s : State) : Instr → Option (Eng × Hdr × Plan)
  | .copy ce h p => some (ceOf ce, h, copyPlan p)
  | .copyn ce h p => some (ceOf ce, h, copynPlan p ((segAt s.cell.segs (segNo p.ten)).getD default))
  | .gath ce h p => some (ceOf ce, h, gathPlan p)
  | .scat ce h p => some (ceOf ce, h, scatPlan p)
  | .fill ce h p => some (ceOf ce, h, fillPlan p)
  | .unfold h p => some (.xe, h, unfoldPlan p)
  | .xpose h p => some (.xe, h, xposePlan p)
  | .relay h p => some (.xe, h, relayPlan p)
  | _ => none

/-- R234, R235: the code of the checks a data command makes once, on its operands' kinds, rotations and alignments (0: none). -/
def Sys2Proof.Claims.staticOf (s : State) : Instr → Nat
  | .copy _ _ p => lowCode (s.operand ⟨p.src, p.sacc.rot.toNat⟩ kSLT [p.sacc.pitch.toNat, p.ext.bytes.toNat])
      (s.operand ⟨p.dst, p.dacc.rot.toNat⟩ kSLT [p.dacc.pitch.toNat, p.ext.bytes.toNat])
  | .copyn _ _ p => s.copynStatic p
  | .gath _ _ p | .scat _ _ p => lowCode (lowCode (s.operand ⟨p.base, p.brot.toNat⟩ kSLT [p.stride.toNat, p.esize.toNat])
      (s.operand ⟨p.dense, p.drot.toNat⟩ kSL [p.esize.toNat])) (s.idxOperand p)
  | .fill _ _ p => s.operand ⟨p.dst, p.dacc.rot.toNat⟩ kSLT [p.dacc.pitch.toNat, p.ext.bytes.toNat]
  | .unfold _ p => lowCode (s.operand ⟨p.src, p.srot.toNat⟩ kSL [p.spy.toNat, p.spx.toNat])
      (s.operand ⟨p.dst, p.drot.toNat⟩ kSL [p.dpitch.toNat])
  | .xpose _ p => lowCode (s.operand ⟨p.src, p.sacc.rot.toNat⟩ kSL [p.sacc.pitch.toNat])
      (s.operand ⟨p.dst, p.dacc.rot.toNat⟩ kSL [p.dacc.pitch.toNat])
  | .relay _ p => lowCode (s.operand ⟨p.src, p.srot.toNat⟩ kSLT [p.sp1.toNat, p.sp2.toNat, 8 * 2 ^ p.lgu.toNat])
      (s.operand ⟨p.dst, p.drot.toNat⟩ kSLT [p.dp1.toNat, p.dp2.toNat, 8 * 2 ^ p.lgu.toNat])
  | _ => 0

/-- R243: the index entry a unit of GATH or SCAT reads first; nothing for the others. -/
def Sys2Proof.Claims.findOf (s : State) (u : Nat) : Instr → State × Nat × List TlbEnt × Nat
  | .gath ce _ p | .scat ce _ p => s.gathFind (ceOf ce) p u
  | _ => (s, 0, [], 0)

/-- R235 to R253: a data command makes its checks once, then for each unit reads its index entry, checks every byte of the unit, writes
its words one by one, and ends the unit; after the last it ends with 0x05 where a word was poisoned, else with 0. A failing check ends it
with its code and the units done. Where a column has no tokens it stands (R369), but not beyond the time its writes have (R261; log 2). -/
def Sys2Proof.Claims.DataMoves : Prop :=
  ∀ (s : State) (i : Instr) (e : Eng) (h : Hdr) (pl : Plan) (c : Cmd), planOf s i = some (e, h, pl) → Runs s e i c →
    (c.group = 0 → c.unit = 0 → staticOf s i ≠ 0 → exec i s = .next (s.endRun e c h (staticOf s i) 0))
    ∧ (c.group = 0 → (c.unit = 0 → staticOf s i = 0) →
      let f := findOf s c.unit i
      let g := f.1.planCheck e pl c.unit f.2.2.2 f.2.2.1
      (f.2.1 ≠ 0 → exec i s = .next (f.1.endRun e c h f.2.1 c.unit))
      ∧ (f.2.1 = 0 → g.2.1 ≠ 0 → exec i s = .next (g.1.endRun e c h g.2.1 c.unit))
      ∧ (f.2.1 = 0 → g.2.1 = 0 →
        exec i s = .next (g.1.setCmd e (some { c with
          group := 1, row := f.2.2.2, xl := g.2.2, buf := [], since := g.1.pkg.time.t3, owes := true }))))
    ∧ (0 < c.group → c.group - 1 < pl.words c.unit c.row →
      let stands := s.piecesPaused pl c.xl (pl.pieces c.unit c.row (c.group - 1)) = true ∧ s.cmdAtHand c = false
      (stands → exec i s = .next s)
      ∧ (¬ stands → exec i s =
        .next ((s.moveWordK e pl c (c.group - 1)).1.setCmd e (some (s.moveWordK e pl c (c.group - 1)).2))))
    ∧ (0 < c.group → pl.words c.unit c.row ≤ c.group - 1 → c.unit + 1 < pl.units →
      exec i s = .next (s.setCmd e (some { c with unit := c.unit + 1, group := 0, row := 0, xl := [], due := none, owes := false })))
    ∧ (0 < c.group → pl.words c.unit c.row ≤ c.group - 1 → pl.units ≤ c.unit + 1 →
      exec i s = .next (s.endRun e c h (if c.poisoned then 5 else 0) pl.units))

/-- R234 to R253: which words the data commands move. Word `k` of a unit is written with the value and marker of the source word its rule
names, or with the constant; FILL, GATH at the skip index and UNFOLD in the padding have no source; XPOSE gathers each word from the
elements that lie in it, one read a move (R263). A write to scratch changes its own bytes only. -/
def Sys2Proof.Claims.DataWords : Prop :=
  EngineWords
  ∧ (∀ (s : State) (e : Eng) (pl : Plan) (c : Cmd) (k : Nat) (x : Nat × Nat),
    let ps := pl.pieces c.unit c.row k
    let l := srcOf ps
    l[c.buf.length]? = some x →
    ∃ u t, Charged (lineMet s e (s.planSrc pl c.xl x.1) (mkAddr (segNo pl.src.addr) (segOff pl.src.addr + x.1))) u ∧
      let q := u.engRead e (segNo pl.src.addr) (segOff pl.src.addr + x.1) pl.src.rot c.xl
      let y : TW := ⟨BitVec.ofNat 64 (subWord q.2.v (segOff pl.src.addr + x.1) x.2), q.2.psn⟩
      Charged q.1 t
      ∧ (c.buf.length + 1 < l.length → s.moveWordK e pl c k = (t, { c with buf := c.buf ++ [y] }))
      ∧ (∀ z r, c.buf.length + 1 = l.length → ps = z :: r → ∃ v w, Charged q.1 v ∧
        let b := joinPieces pl.const ps (c.buf ++ [y])
        Charged (v.engWrite c.since (v.pieceDst pl c.xl z) (BitVec.ofNat 64 b.1) (BitVec.ofNat 8 b.2.1) b.2.2) w
        ∧ s.moveWordK e pl c k = (w, { c with group := c.group + 1, buf := [], poisoned := c.poisoned || b.2.2 })))
  ∧ (∀ (s : State) (e : Eng) (pl : Plan) (c : Cmd) (k d : Nat), d % 8 = 0 → c.buf = [] →
    let at_ := s.engWord (segNo pl.dst.addr) (segOff pl.dst.addr + d) pl.dst.rot c.xl
    (∀ o, pl.pieces c.unit c.row k = [⟨some o, d, 8⟩] → (segOff pl.src.addr + o) % 8 = 0 →
      ∃ u t w, Charged (lineMet s e (s.planSrc pl c.xl o) (mkAddr (segNo pl.src.addr) (segOff pl.src.addr + o))) u ∧
        let q := u.engRead e (segNo pl.src.addr) (segOff pl.src.addr + o) pl.src.rot c.xl
        Charged q.1 t ∧ Charged (t.engWrite c.since at_ q.2.v 0xFF q.2.psn) w
          ∧ s.moveWordK e pl c k = (w, { c with group := c.group + 1, buf := [], poisoned := c.poisoned || q.2.psn }))
    ∧ (pl.pieces c.unit c.row k = [⟨none, d, 8⟩] → ∃ t w, Charged s t ∧ Charged (t.engWrite c.since at_ pl.const 0xFF false) w
      ∧ s.moveWordK e pl c k = (w, { c with group := c.group + 1, buf := [] })))
  ∧ (∀ (s : State) (since : Nat) (p : Place) (v : Word) (psn : Bool), p.loc = 0 →
    (s.engWrite since p v 0xFF psn).mem.mem = memPut s.mem.mem p.wkey v 0xFF
      ∧ ((s.engWrite since p v 0xFF psn).mem.psn.contains p.wkey = psn)
      ∧ (s.Canonical → ∀ a, a < p.wkey ∨ p.wkey + 8 ≤ a → memGet (s.engWrite since p v 0xFF psn).mem.mem a = memGet s.mem.mem a))
  ∧ (∀ (p : PCopy) (u x k : Nat), (copyPlan p).units = p.ext.rows1.toNat + 1 ∧ (copyPlan p).words u x = p.ext.bytes.toNat / 8
    ∧ (copyPlan p).pieces u x k = [⟨some (u * p.sacc.pitch.toNat + 8 * k), u * p.dacc.pitch.toNat + 8 * k, 8⟩])
  ∧ (∀ (p : PFill) (u x k : Nat), (fillPlan p).const = p.value ∧ (fillPlan p).units = p.ext.rows1.toNat + 1
    ∧ (fillPlan p).words u x = p.ext.bytes.toNat / 8 ∧ (fillPlan p).pieces u x k = [⟨none, u * p.dacc.pitch.toNat + 8 * k, 8⟩])
  ∧ (∀ (p : PCopyn) (e : SegEnt) (i0 i1 i2 u j : Nat), i0 ≤ p.nb0.toNat → i1 ≤ p.nb1.toNat → i2 ≤ p.nb2.toNat → j < 8 →
    let n0 := p.nb0.toNat + 1
    let n1 := p.nb1.toNat + 1
    let lin := 64 * i0 + p.lp1.toNat * i1 + p.lp2.toNat * i2 + p.lp3.toNat * u + 8 * j
    let ten := 64 * blockNo e (p.st0.toNat + i0) (p.st1.toNat + i1) (p.st2.toNat + i2) (p.st3.toNat + u) + 8 * j
    (copynPlan p e).units = p.nb3.toNat + 1 ∧ (∀ x, (copynPlan p e).words u x = n0 * n1 * (p.nb2.toNat + 1) * 8)
      ∧ ∀ x, (copynPlan p e).pieces u x (8 * (i0 + n0 * (i1 + n1 * i2)) + j) =
          if p.dir then [⟨some lin, ten, 8⟩] else [⟨some ten, lin, 8⟩])
  ∧ (∀ (p : PGath) (u x k : Nat),
    (gathPlan p).units = p.count1.toNat + 1 ∧ (gathPlan p).words u x = p.esize.toNat / 8 ∧ (gathPlan p).const = 0
    ∧ (gathPlan p).pieces u x k =
        [⟨if x = 0xFFFFFFFF then none else some (x * p.stride.toNat + 8 * k), u * p.esize.toNat + 8 * k, 8⟩]
    ∧ (scatPlan p).units = p.count1.toNat + 1 ∧ (scatPlan p).words u x = (if x = 0xFFFFFFFF then 0 else p.esize.toNat / 8)
    ∧ (scatPlan p).pieces u x k = [⟨some (u * p.esize.toNat + 8 * k), x * p.stride.toNat + 8 * k, 8⟩])
  ∧ (∀ (p : PUnfold) (u x k : Nat), (unfoldPlan p).const = 0 ∧ (unfoldPlan p).units = (p.oh.toNat + 1) * (p.ow.toNat + 1)
    ∧ (unfoldPlan p).words u x = unfWin p * unfE p / 8
    ∧ (unfoldPlan p).pieces u x k =
        [⟨(unfSrc p u (8 * k / unfE p)).map (· + 8 * k % unfE p), u * p.dpitch.toNat + 8 * k, 8⟩])
  ∧ (∀ (p : PXpose) (u x k r : Nat), p.lge.toNat ≤ 3 →
    let e := 2 ^ p.lge.toNat
    (xposePlan p).units = p.cols1.toNat + 1 ∧ (xposePlan p).words u x = ceilDiv ((p.rows1.toNat + 1) * e) 8
      ∧ ((⟨some (r * p.sacc.pitch.toNat + u * e), u * p.dacc.pitch.toNat + r * e, e⟩ : Piece) ∈ (xposePlan p).pieces u x (r * e / 8) ↔
          r ≤ p.rows1.toNat)
      ∧ ∀ y ∈ (xposePlan p).pieces u x k, ∃ r, r ≤ p.rows1.toNat ∧ r * e / 8 = k
          ∧ y = ⟨some (r * p.sacc.pitch.toNat + u * e), u * p.dacc.pitch.toNat + r * e, e⟩)
  ∧ (∀ (p : PRelay) (i0 i1 u x w : Nat), i0 ≤ p.n0.toNat → w < 2 ^ p.lgu.toNat →
    let n := 8 * 2 ^ p.lgu.toNat
    (relayPlan p).units = p.n2.toNat + 1 ∧ (relayPlan p).words u x = (p.n0.toNat + 1) * (p.n1.toNat + 1) * 2 ^ p.lgu.toNat
      ∧ (relayPlan p).pieces u x (w + 2 ^ p.lgu.toNat * (i0 + (p.n0.toNat + 1) * i1)) =
          [⟨some (i0 * n + i1 * p.sp1.toNat + u * p.sp2.toNat + 8 * w), relayDst p i0 i1 u + 8 * w, 8⟩])

/-- R245, R266: FLAGW checks its address, waits until every write it sees has performed at its scope, then writes its value and ends. -/
def Sys2Proof.Claims.FlagWrites : Prop :=
  ∀ (s : State) (ce : Bool) (h : Hdr) (p : PFlagw) (c : Cmd), Runs s (ceOf ce) (.flagw ce h p) c →
    let e := ceOf ce
    let k := s.operand ⟨p.addr, 0⟩ kSL []
    let g := s.engRange e (segNo p.addr) (segOff p.addr) 8 true false []
    let q := s.engWord (segNo p.addr) (segOff p.addr) 0 c.xl
    let seen := ∀ w ∈ s.mem.writes, sameUnit w.reach w.cell s.cell.id = true → s.mem.reached w.id (scopeReach h.scope) = true
    (c.group = 0 → k ≠ 0 → exec (.flagw ce h p) s = .next (s.endRun e c h k 0))
    ∧ (c.group = 0 → k = 0 → g.2.1 ≠ 0 → exec (.flagw ce h p) s = .next (g.1.endRun e c h g.2.1 0))
    ∧ (c.group = 0 → k = 0 → g.2.1 = 0 → exec (.flagw ce h p) s =
      .next (g.1.setCmd e (some { c with group := 1, xl := g.2.2, since := g.1.pkg.time.t3, owes := true })))
    ∧ (c.group ≠ 0 → ¬ seen → exec (.flagw ce h p) s = .next s)
    ∧ (c.group ≠ 0 → seen → s.placePaused q = true → s.cmdAtHand c = false → exec (.flagw ce h p) s = .next s)
    ∧ (c.group ≠ 0 → seen → s.placePaused q = false ∨ s.cmdAtHand c = true → ∃ t u,
      Charged s t ∧ Charged (t.engWrite c.since q p.value 0xFF false) u ∧ exec (.flagw ce h p) s = .next (u.endRun e c h 0 1))

/-- R234 to R253: the data commands but CMPR and EXPN: their moves, the words they write, and FLAGW. -/
def Obligations.DataCommandResult : Prop := DataMoves ∧ DataWords ∧ FlagWrites

/-- R248: a unit of CMPR of `n` bytes is counted only, `c.row` being one more than the unit that did not fit: the next unit, or the end
with 0x16 and the size of the whole output in the result word. -/
def Sys2Proof.Claims.cmprMeasured (s : State) (e : Eng) (h : Hdr) (p : PCmpr) (c : Cmd) (n : Nat) : State :=
  let y := { c with unit := c.unit + 1, group := 0, sub := 0, buf := [], owes := false, outBytes := c.outBytes + n }
  if c.unit + 1 < ceilDiv (p.length.toNat / 64) 32 then s.setCmd e (some { y with xl := resXl p c.xl })
  else (s.putRes e p.res c.xl (c.outBytes + n) c.since).endRun e y h 0x16 (c.row - 1)

/-- R246 to R249: CMPR and EXPN move word by word: the checks of a unit, each word read, the judgement of what was read, each word
written; then the next unit, or the end with the result word. Output beyond CAP is counted to its end and ends CMPR with 0x16. Expanding
what CMPR makes of unmarked blocks gives them back. What a unit of CMPR is checked for before its input is read, and what a unit that is
only counted and cannot be read counts, is the model's reading (log 36). -/
def Obligations.CompressResult : Prop :=
  (∀ bs : List Blk8, 1 ≤ bs.length → bs.length ≤ 32 → (∀ b ∈ bs, b.length = 8 ∧ ∀ x ∈ b, x.2 = false) →
    ∃ cs l, headerCodes ((cmprUnit bs).take 8) = some (cs, l) ∧ cs.length = bs.length
      ∧ expand cs (blocksOf l ((cmprUnit bs).drop 8)) [] = bs)
  ∧ (∀ (s : State) (ce : Bool) (h : Hdr) (p : PCmpr) (c : Cmd), Runs s (ceOf ce) (.cmpr ce h p) c → c.row = 0 →
    let e := ceOf ce
    let k := cmprBlocks p c.unit
    let st := if c.unit = 0 then s.cmprStatic e p false else (s, 0)
    let rr := st.1.engRange e (segNo p.res) (segOff p.res) 8 true false []
    let rs := rr.1.engRange e (segNo p.src) (segOff p.src + 2048 * c.unit) (64 * k) false false rr.2.2
    let rh := rs.1.engRange e (segNo p.dst) (segOff p.dst + c.outBytes) 64 true true []
    let out := cmprUnit (blocksOf k (c.buf.map fun x => (x.v.toNat, x.psn)))
    let rd := s.engRange e (segNo p.dst) (segOff p.dst + c.outBytes) (8 * out.length) true true (resXl p c.xl)
    let units := ceilDiv (p.length.toNat / 64) 32
    let size := c.outBytes + 8 * c.buf.length
    (c.group = 0 →
      (st.2 ≠ 0 → exec (.cmpr ce h p) s = .next (st.1.endStatic e c h p st.2))
      ∧ (st.2 = 0 → rr.2.1 ≠ 0 → exec (.cmpr ce h p) s = .next (rr.1.endRun e c h rr.2.1 c.unit))
      ∧ (st.2 = 0 → rr.2.1 = 0 → rs.2.1 ≠ 0 ∨ rh.2.1 = 3 →
        exec (.cmpr ce h p) s = .next (rh.1.endCmpr e c h p rr.2.2 (lowCode rs.2.1 rh.2.1) c.outBytes))
      ∧ (st.2 = 0 → rr.2.1 = 0 → rs.2.1 = 0 → rh.2.1 ≠ 3 → exec (.cmpr ce h p) s =
        .next (rh.1.setCmd e (some { c with group := 1, sub := 0, buf := [], xl := rs.2.2, since := s.pkg.time.t3, owes := false }))))
    ∧ (c.group = 1 → c.sub < 8 * k → exec (.cmpr ce h p) s = .next (s.readMove e ⟨p.src, p.rot.toNat⟩ (2048 * c.unit) (8 * k) c))
    ∧ (c.group = 1 → 8 * k ≤ c.sub →
      (rd.2.1 ≠ 0 → exec (.cmpr ce h p) s = .next (rd.1.endCmpr e c h p c.xl rd.2.1 c.outBytes))
      ∧ (rd.2.1 = 0 → c.outBytes + 8 * out.length ≤ p.cap.toNat → exec (.cmpr ce h p) s = .next (rd.1.setCmd e (some { c with
          group := 2, sub := 0, buf := out.map fun x => ⟨BitVec.ofNat 64 x.1, x.2⟩, xl := rd.2.2, since := s.pkg.time.t3
          owes := true, poisoned := c.poisoned || c.buf.any (·.psn) })))
      ∧ (rd.2.1 = 0 → p.cap.toNat < c.outBytes + 8 * out.length →
        exec (.cmpr ce h p) s = .next (cmprMeasured rd.1 e h p { c with row := c.unit + 1 } (8 * out.length))))
    ∧ (c.group = 2 → c.sub < c.buf.length → exec (.cmpr ce h p) s = .next (s.writeMove e ⟨p.dst, 0⟩ c.outBytes c))
    ∧ (c.group = 2 → c.buf.length ≤ c.sub →
      let y := { c with unit := c.unit + 1, group := 0, sub := 0, buf := [], owes := false, outBytes := size }
      exec (.cmpr ce h p) s = .next (if c.unit + 1 < units then s.setCmd e (some { y with xl := [], due := none })
        else (s.putRes e p.res c.xl size c.since).endRun e y h (if c.poisoned then 5 else 0) (c.unit + 1))))
  ∧ (∀ (s : State) (ce : Bool) (h : Hdr) (p : PCmpr) (c : Cmd), Runs s (ceOf ce) (.cmpr ce h p) c → c.row ≠ 0 → c.unit ≠ 0 →
    let e := ceOf ce
    let k := cmprBlocks p c.unit
    let rs := s.engRange e (segNo p.src) (segOff p.src + 2048 * c.unit) (64 * k) false false c.xl
    let out := cmprUnit (blocksOf k (c.buf.map fun x => (x.v.toNat, x.psn)))
    (c.group = 0 → rs.2.1 ≠ 0 → exec (.cmpr ce h p) s = .next (cmprMeasured rs.1 e h p c (64 * (k + 1))))
    ∧ (c.group = 0 → rs.2.1 = 0 → exec (.cmpr ce h p) s =
      .next (rs.1.setCmd e (some { c with group := 1, sub := 0, buf := [], xl := rs.2.2, since := s.pkg.time.t3, owes := true })))
    ∧ (c.group = 1 → c.sub < 8 * k → exec (.cmpr ce h p) s = .next (s.readMove e ⟨p.src, p.rot.toNat⟩ (2048 * c.unit) (8 * k) c))
    ∧ (c.group = 1 → 8 * k ≤ c.sub → exec (.cmpr ce h p) s = .next (cmprMeasured s e h p c (8 * out.length))))
  ∧ (∀ (s : State) (ce : Bool) (h : Hdr) (p : PCmpr) (c : Cmd), Runs s (ceOf ce) (.expn ce h p) c →
    let e := ceOf ce
    let st := if c.unit = 0 then s.cmprStatic e p true else (s, 0)
    let rr := st.1.engRange e (segNo p.res) (segOff p.res) 8 true false []
    let rh := rr.1.engRange e (segNo p.src) (segOff p.src + c.inBytes) 64 false true rr.2.2
    let read := c.buf.map fun x => (x.v.toNat, x.psn)
    (c.group = 0 →
      (st.2 ≠ 0 → exec (.expn ce h p) s = .next (st.1.endStatic e c h p st.2))
      ∧ (st.2 = 0 → rr.2.1 ≠ 0 → exec (.expn ce h p) s = .next (rh.1.endRun e c h (lowCode rr.2.1 rh.2.1) c.unit))
      ∧ (st.2 = 0 → rr.2.1 = 0 → rh.2.1 ≠ 0 → exec (.expn ce h p) s = .next (rh.1.endCmpr e c h p rr.2.2 rh.2.1 c.inBytes))
      ∧ (st.2 = 0 → rr.2.1 = 0 → rh.2.1 = 0 →
        exec (.expn ce h p) s = .next (rh.1.setCmd e (some { c with group := 1, sub := 0, buf := [], xl := rh.2.2 }))))
    ∧ (c.group = 1 → c.sub < 8 → exec (.expn ce h p) s = .next (s.readMove e ⟨p.src, 0⟩ c.inBytes 8 c))
    ∧ (c.group = 1 → 8 ≤ c.sub →
      (c.buf.any (·.psn) = true → exec (.expn ce h p) s = .next (s.endRun e c h 5 c.unit))
      ∧ (c.buf.any (·.psn) = false → headerCodes read = none → exec (.expn ce h p) s = .next (s.endRun e c h 6 c.unit))
      ∧ (∀ cs l, c.buf.any (·.psn) = false → headerCodes read = some (cs, l) →
        let rl := s.engRange e (segNo p.src) (segOff p.src + c.inBytes + 64) (64 * l) false true (resXl p c.xl)
        let rd := rl.1.engRange e (segNo p.dst) (segOff p.dst + c.outBytes) (64 * cs.length) true false rl.2.2
        (lowCode rl.2.1 rd.2.1 ≠ 0 → exec (.expn ce h p) s = .next (rd.1.endCmpr e c h p c.xl (lowCode rl.2.1 rd.2.1) c.inBytes))
        ∧ (rl.2.1 = 0 → rd.2.1 = 0 → p.length.toNat < c.outBytes + 64 * cs.length →
          exec (.expn ce h p) s = .next (rd.1.endRun e c h 0x18 c.unit))
        ∧ (rl.2.1 = 0 → rd.2.1 = 0 → c.outBytes + 64 * cs.length ≤ p.length.toNat → exec (.expn ce h p) s =
          .next (rd.1.setCmd e (some { c with group := 2, sub := 0, xl := rd.2.2, since := s.pkg.time.t3, owes := true })))))
    ∧ (∀ cs l, c.group = 2 → headerCodes (read.take 8) = some (cs, l) →
      let lits := blocksOf l (read.drop 8)
      (c.sub < 8 * l → exec (.expn ce h p) s = .next (s.readMove e ⟨p.src, 0⟩ (c.inBytes + 64) (8 * l) c))
      ∧ (8 * l ≤ c.sub → lits.any streamLit = true → exec (.expn ce h p) s = .next (s.endRun e c h 6 c.unit))
      ∧ (8 * l ≤ c.sub → lits.any streamLit = false → exec (.expn ce h p) s = .next (s.setCmd e (some { c with
          group := 3, sub := 0, buf := (expand cs lits []).flatten.map fun x => ⟨BitVec.ofNat 64 x.1, x.2⟩
          inBytes := c.inBytes + 64 * (l + 1), poisoned := c.poisoned || c.buf.any (·.psn) }))))
    ∧ (c.group = 3 → c.sub < c.buf.length → exec (.expn ce h p) s = .next (s.writeMove e ⟨p.dst, p.rot.toNat⟩ c.outBytes c))
    ∧ (c.group = 3 → c.buf.length ≤ c.sub →
      let size := c.outBytes + 8 * c.buf.length
      let y := { c with unit := c.unit + 1, group := 0, sub := 0, outBytes := size, buf := [], owes := false }
      exec (.expn ce h p) s = .next (if size < p.length.toNat then s.setCmd e (some { y with xl := [], due := none })
        else (s.putRes e p.res c.xl c.inBytes c.since).endRun e y h (if c.poisoned then 5 else 0) (c.unit + 1))))
  ∧ (∀ (s : State) (e : Eng) (d : Side64) (off n : Nat) (c : Cmd),
    let a := segOff d.addr + off + 8 * c.sub
    let p := s.engWord (segNo d.addr) a d.rot c.xl
    let x := c.buf.getD c.sub ⟨0, false⟩
    let stands := s.placePaused p = true ∧ s.cmdAtHand c = false
    (stands → s.readMove e d off n c = s ∧ s.writeMove e d off c = s)
    ∧ (¬ stands →
      (∃ u t, Charged (lineMet s e p (mkAddr (segNo d.addr) a)) u ∧
        let q := u.engRead e (segNo d.addr) a d.rot c.xl
        Charged q.1 t ∧ s.readMove e d off n c = t.setCmd e (some { c with sub := c.sub + 1, buf := c.buf ++ [q.2] }))
      ∧ ∃ u t, Charged s u ∧ Charged (u.engWrite c.since p x.v 0xFF x.psn) t
        ∧ s.writeMove e d off c = t.setCmd e (some { c with sub := c.sub + 1 })))
  ∧ (∀ (s : State) (e : Eng) (a : Word) (xl : List TlbEnt) (v since : Nat),
    ∃ t u, Charged s t ∧ Charged (t.engWrite since (s.engWord (segNo a) (segOff a) 0 xl) (BitVec.ofNat 64 v) 0xFF false) u
      ∧ s.putRes e a xl v since = u)
  ∧ (∀ (s : State) (e : Eng) (c : Cmd) (h : Hdr) (p : PCmpr) (code res : Nat) (xl : List TlbEnt),
    (code = 3 ∨ code = 7 → s.endCmpr e c h p xl code res = (s.putRes e p.res xl res s.pkg.time.t3).endRun e c h code c.unit)
    ∧ (code ≠ 3 → code ≠ 7 → s.endCmpr e c h p xl code res = s.endRun e c h code c.unit)
    ∧ (let r := s.engRange e (segNo p.res) (segOff p.res) 8 true false []
      (s.operand ⟨p.res, 0⟩ kSL [] ≠ 0 ∨ r.2.1 ≠ 0 ∨ code ≠ 3 → s.endStatic e c h p code = s.endRun e c h code 0)
      ∧ (s.operand ⟨p.res, 0⟩ kSL [] = 0 → r.2.1 = 0 → code = 3 → s.endStatic e c h p code = r.1.endCmpr e c h p r.2.2 3 0)))

/-! ## Commands of the ports (R343 to R351, R385) -/

/-- Port `hub` moves command `n`, which is `c`, has the instruction `i` and is in step 4, not yet executed. -/
def Sys2Proof.Claims.PortRuns (s : State) (hub : Bool) (i : Instr) (n : Nat) (c : Cmd) : Prop :=
  s.portPick (s.cell.port hub).cmds 0 = some n ∧ (s.cell.port hub).cmds[n]? = some c ∧ c.i = i ∧ c.phase = .run
    ∧ c.outstanding = false

/-- R344: the codes of the checks of an HOFF that come after the stream's state: blocks, pages, kinds and dies, permissions. -/
def Sys2Proof.Claims.HoffChecks : Prop :=
  (∀ (s u : State) (h : Hdr) (p : PHoff) (n code : Nat) (c : Cmd) (x : Stream) (l : List HReg), PortRuns s false (.hoff h p) n c →
    s.streamMine p.stream.toNat = true → s.findStream p.stream.toNat = some x → x.takesHoff = true →
    (x.blocks ≤ p.blk0.toNat + p.count1.toNat ∨ x.registered p.blk0.toNat (p.count1.toNat + 1) = true →
      exec (.hoff h p) s = .next (s.portEnd false n c h 0x1C 0))
    ∧ (p.blk0.toNat + p.count1.toNat < x.blocks → x.registered p.blk0.toNat (p.count1.toNat + 1) = false →
      s.hoffPages p x = (u, code, l) → code ≠ 0 → exec (.hoff h p) s = .next (u.portEnd false n c h code 0)))
  ∧ (∀ (s u v : State) (p : PHoff) (x : Stream) (a b : List Xl),
    let n := p.count1.toNat + 1
    let here := p.modno = 0
    (s.portPages (segNo p.src) (segOff p.src) false n = (u, none) → (s.hoffPages p x).2.1 = 3)
    ∧ (s.portPages (segNo p.src) (segOff p.src) false n = (u, some a) →
      (here → u.portPages (segNo p.dst) (segOff p.dst) true n = (v, none) → (s.hoffPages p x).2.1 = 3)
      ∧ (here → u.portPages (segNo p.dst) (segOff p.dst) true n = (v, some b) →
        let fit := v.isTensor p.src = true ∧ v.isTensor p.dst = true ∧ (∀ y ∈ a, y.place.die = x.pdie) ∧ ∀ y ∈ b, y.place.die = x.ddie
        let may := (∀ y ∈ a, y.r = true) ∧ ∀ y ∈ b, y.w = true
        (¬ fit → (s.hoffPages p x).2.1 = 0x1C) ∧ (fit → ¬ may → (s.hoffPages p x).2.1 = 7)
          ∧ (fit → may → (s.hoffPages p x).2.1 = 0))
      ∧ (¬ here →
        let fit := u.isTensor p.src = true ∧ ∀ y ∈ a, y.place.die = x.pdie
        let may := ∀ y ∈ a, y.r = true
        (¬ fit → (s.hoffPages p x).2.1 = 0x1C) ∧ (fit → ¬ may → (s.hoffPages p x).2.1 = 7)
          ∧ (fit → may → (s.hoffPages p x).2.1 = 0))))

/-- R348: the codes of the checks of SWOUT (`out`) and SWIN, in their order. -/
def Sys2Proof.Claims.SwapChecks : Prop :=
  (∀ (s u : State) (h : Hdr) (p : PSwap) (n k code : Nat) (c : Cmd) (l : List Xl), code ≠ 0 →
    (PortRuns s true (.swout h p) n c → s.swapCheck p true = (u, code, k, l) →
      exec (.swout h p) s = .next (u.portEnd true n c h code 0))
    ∧ (PortRuns s true (.swin h p) n c → s.swapCheck p false = (u, code, k, l) →
      exec (.swin h p) s = .next (u.portEnd true n c h code 0)))
  ∧ (∀ (s : State) (p : PSwap) (out : Bool),
    (s.direntNo p.dirent = none → s.swapCheck p out = (s, 0x19, 0, []))
    ∧ ∀ k, s.direntNo p.dirent = some k →
      (s.streamMine k = false → s.swapCheck p out = (s, 0x19, k, []))
      ∧ (s.streamMine k = true → s.findStream k = none → s.swapCheck p out = (s, 0x1A, k, []))
      ∧ ∀ x, s.streamMine k = true → s.findStream k = some x →
        let ready := x.state = if out then .parked else .resuming
        let inside := p.blk0.toNat + p.count1.toNat < x.blocks
        let same := p.lba = x.dw 2 ∧ p.cmp = x.cmp ∧ p.drive.toNat = x.drive
        (¬ ready → s.swapCheck p out = (s, 0x1A, k, []))
        ∧ (ready → ¬ inside → s.swapCheck p out = (s, 0x1C, k, []))
        ∧ (ready → inside → ¬ same → s.swapCheck p out = (s, 0x1E, k, []))
        ∧ (ready → inside → same → ∀ u g, s.portPages (segNo p.addr) (segOff p.addr) (!out) (p.count1.toNat + 1) = (u, g) →
          (g = none → s.swapCheck p out = (u, 3, k, []))
          ∧ ∀ l, g = some l →
            let fit := u.isTensor p.addr = true ∧ x.ownersOk out p.blk0.toNat l = true
            let may := ∀ y ∈ l, if out then y.r = true else y.w = true
            (¬ fit → s.swapCheck p out = (u, 0x1C, k, [])) ∧ (fit → ¬ may → s.swapCheck p out = (u, 7, k, []))
              ∧ (fit → may → s.swapCheck p out = (u, 0, k, l))))

/-- R343 to R351, R385: the port commands: what each does once its checks pass, the codes of the checks that fail first, and the
outcome and the signal of those that wait. What the other module answers an RCOPY, and which modules can be reached while some of the
ports are up, are free (log 40). -/
def Obligations.PortCommandResult : Prop :=
  (∀ (s u : State) (h : Hdr) (p : PHoff) (n : Nat) (c : Cmd) (x : Stream) (l : List HReg), PortRuns s false (.hoff h p) n c →
    (s.streamMine p.stream.toNat = false → exec (.hoff h p) s = .next (s.portEnd false n c h 0x19 0))
    ∧ (s.streamMine p.stream.toNat = true → s.findStream p.stream.toNat = none →
      exec (.hoff h p) s = .next (s.portEnd false n c h 0x1A 0))
    ∧ (s.streamMine p.stream.toNat = true → s.findStream p.stream.toNat = some x →
      (x.takesHoff = false → exec (.hoff h p) s = .next (s.portEnd false n c h 0x1A 0))
      ∧ (x.takesHoff = true → p.blk0.toNat + p.count1.toNat < x.blocks → x.registered p.blk0.toNat (p.count1.toNat + 1) = false →
        s.hoffPages p x = (u, 0, l) →
        exec (.hoff h p) s =
          .next ((u.updStream p.stream.toNat fun y => { y with regs := y.regs ++ l }).portEnd false n c h 0 0))))
  ∧ (∀ (s : State) (h : Hdr) (p : PHpull) (n : Nat) (c : Cmd) (x : Stream), PortRuns s false (.hpull h p) n c →
    s.streamMine p.stream.toNat = true → s.findStream p.stream.toNat = some x →
    (x.state = .handoff ∨ x.state = .decode ∨ x.state = .resuming) → p.blk0.toNat + p.count1.toNat < x.blocks →
    exec (.hpull h p) s = .next ((s.addPull p.stream.toNat p.blk0.toNat (p.count1.toNat + 1) c).setPortCmd false n { c with group := 1 }))
  ∧ HoffChecks ∧ SwapChecks
  ∧ (∀ (s : State) (h : Hdr) (p : PHpull) (n : Nat) (c : Cmd), PortRuns s false (.hpull h p) n c →
    (s.streamMine p.stream.toNat = false → exec (.hpull h p) s = .next (s.portEnd false n c h 0x19 0))
    ∧ (s.streamMine p.stream.toNat = true → s.findStream p.stream.toNat = none →
      exec (.hpull h p) s = .next (s.portEnd false n c h 0x1A 0))
    ∧ ∀ x, s.streamMine p.stream.toNat = true → s.findStream p.stream.toNat = some x →
      let ready := x.state = .handoff ∨ x.state = .decode ∨ x.state = .resuming
      (¬ ready → exec (.hpull h p) s = .next (s.portEnd false n c h 0x1A 0))
      ∧ (ready → x.blocks ≤ p.blk0.toNat + p.count1.toNat → exec (.hpull h p) s = .next (s.portEnd false n c h 0x1C 0)))
  ∧ (∀ (s : State) (h : Hdr) (p : PHcancel) (n : Nat) (c : Cmd), PortRuns s false (.hcancel h p) n c →
    s.streamMine p.stream.toNat = false → exec (.hcancel h p) s = .next (s.portEnd false n c h 0x19 0))
  ∧ (∀ (s : State) (h : Hdr) (p : PHcancel) (n : Nat) (c : Cmd), PortRuns s false (.hcancel h p) n c →
    s.streamMine p.stream.toNat = true →
    exec (.hcancel h p) s =
      .next ((s.streamOn p.stream.toNat (.cancel (0x80 + p.cause.toNat))).setPortCmd false n { c with group := 1 }))
  ∧ (∀ (s u : State) (h : Hdr) (p : PSwap) (n k : Nat) (c : Cmd) (l : List Xl), PortRuns s true (.swout h p) n c →
    s.swapCheck p true = (u, 0, k, l) →
    let q : Pull := ⟨p.blk0.toNat, p.count1.toNat + 1, u.pkg.time.t3, 0, u.cell.id, c.pos, none⟩
    exec (.swout h p) s = .next (((u.updStream k fun x => { x.addSwap true p.blk0.toNat l with outs := x.outs ++ [q] }).swoutGo
      ).setPortCmd true n { c with group := 1 }))
  ∧ (∀ (s u : State) (h : Hdr) (p : PSwap) (n k : Nat) (c : Cmd) (l : List Xl), PortRuns s true (.swin h p) n c →
    s.swapCheck p false = (u, 0, k, l) →
    exec (.swin h p) s = .next ((u.updStream k fun x => x.addSwap false p.blk0.toNat l).portEnd true n c h 0 0))
  ∧ (∀ (s : State) (h : Hdr) (p : PRcopy) (n : Nat) (c : Cmd), PortRuns s true (.rcopy h p) n c → c.group ≠ 0 →
    (s.reachable p.modno = false → exec (.rcopy h p) s = .next (s.portEnd true n c h 0x1F c.unit))
    ∧ (s.reachable p.modno = true → c.group - 1 < p.ext.bytes.toNat / 8 →
      let r := s.rcopyWord p c.unit (c.group - 1) c.xl
      exec (.rcopy h p) s = .next (r.1.setPortCmd true n { c with group := c.group + 1, poisoned := c.poisoned || r.2 }))
    ∧ (s.reachable p.modno = true → p.ext.bytes.toNat / 8 ≤ c.group - 1 → c.unit < p.ext.rows1.toNat →
      exec (.rcopy h p) s = .next (s.setPortCmd true n { c with unit := c.unit + 1, group := 0, xl := [], due := none }))
    ∧ (s.reachable p.modno = true → p.ext.bytes.toNat / 8 ≤ c.group - 1 → p.ext.rows1.toNat ≤ c.unit →
      exec (.rcopy h p) s = .next (s.portEnd true n c h (if c.poisoned then 5 else 0) (p.ext.rows1.toNat + 1))))
  ∧ (∀ (s : State) (h : Hdr) (p : PRcopy) (n : Nat) (c : Cmd), PortRuns s true (.rcopy h p) n c → c.group = 0 →
    (c.unit = 0 → s.rcopyStatic p ≠ 0 → exec (.rcopy h p) s = .next (s.portEnd true n c h (s.rcopyStatic p) 0))
    ∧ ((c.unit ≠ 0 ∨ s.rcopyStatic p = 0) → s.reachable p.modno = false → exec (.rcopy h p) s = .next (s.portEnd true n c h 0x1F c.unit))
    ∧ ((c.unit ≠ 0 ∨ s.rcopyStatic p = 0) → s.reachable p.modno = true →
      let r := s.remoteAnswer
      let g := r.1.rcopyCheck (segNo p.src) r.2 []
        ((List.range (p.ext.bytes.toNat / 8)).map fun k => segOff p.src + c.unit * p.sacc.pitch.toNat + 8 * k)
      (r.2 = 0 ∨ r.2 = 0x20 ∨ r.2 = 3 ∨ r.2 = 7)
      ∧ (r.2 = 0x20 → exec (.rcopy h p) s = .next (r.1.portEnd true n c h 0x20 c.unit))
      ∧ (r.2 ≠ 0x20 → g.2.1 ≠ 0 → exec (.rcopy h p) s = .next (g.1.portEnd true n c h g.2.1 c.unit))
      ∧ (r.2 ≠ 0x20 → g.2.1 = 0 → exec (.rcopy h p) s = .next (g.1.setPortCmd true n { c with group := 1, xl := g.2.2 }))))
  ∧ (∀ (s : State) (hub : Bool) (i : Instr) (h : Hdr) (n code : Nat) (c : Cmd), cmdHdr i = some h →
    ((hub = false ∧ ((∃ p, i = .hpull h p) ∨ (∃ p, i = .hcancel h p))) ∨ (hub = true ∧ ∃ p, i = .swout h p)) →
    s.portPick (s.cell.port hub).cmds 0 = some n → (s.cell.port hub).cmds[n]? = some c → c.i = i → c.phase = .run → c.group = 1 →
    s.outcome c = some code → exec i s = .next (s.portEnd hub n c h code 0))
  ∧ (∀ (s : State) (h : Hdr) (p : PSwap) (n done : Nat) (c : Cmd), s.portPick (s.cell.port true).cmds 0 = some n →
    (s.cell.port true).cmds[n]? = some c → c.i = .swin h p → c.phase = .release 0 done →
    (∀ d ∈ c.ids, s.mem.reached d (scopeReach h.scope) = true) →
    ∃ t, exec (.swin h p) s = .next t ∧ t.sem h.sig = (s.sem h.sig).map Sem.signal ∧ (t.cell.port true).cmds = dropAt (s.cell.port true).cmds n)

/-! ## Events -/

/-- R43, R117, R121, R150, R197, R283: events of a cell: a pending ES fault is taken as a trap; the oldest delayed check passes, or takes
back everything from its instruction on and traps; a write-back ends; a step word moves to the front queue; a TLB loads a leaf. -/
def Obligations.CellEventResult : Prop :=
  (∀ s : State, s.cell.esFaultDue = true → Checked s →
    exec .esFaultDelivery s = .next ((s.atPrefix.updAs fun a => { a with delivered := true }).takeTrap 0x12 0))
  ∧ (∀ s : State,
    (s.core.rep ≠ none → s.atPrefix = s)
    ∧ (∀ o, s.core.rep = none → asInstr (s.fetchWord 0 s.cell.asbase s.cell.assize s.core.pc).2 = some (.rep o) →
      s.atPrefix = s.setCore { s.core with rep := some (repStart o) }))
  ∧ (∀ (s u : State) (y : Snap) (rest : List Snap) (o : MOp) (p : Place), s.cell.snaps = y :: rest →
    s.cell.mops.find? (·.seq = y.seq) = some o → s.asAccess (needOf o.kind) o.addr 0 = (u, .ok p) →
    exec .memoryCheckCompletion s = .next ((u.updFocus fun c => { c with
      snaps := rest
      mops := c.mops.map fun x => if x.seq = y.seq then { x with place := some p, since := u.pkg.time.t3 } else x }).writeBodies u.recPart))
  ∧ (∀ (s u : State) (y : Snap) (rest : List Snap) (o : MOp) (z : Nat), s.cell.snaps = y :: rest →
    s.cell.mops.find? (·.seq = y.seq) = some o → s.asAccess (needOf o.kind) o.addr 0 = (u, .error z) →
    exec .memoryCheckCompletion s = .next ((u.takeBack y).takeTrap z o.addr))
  ∧ (∀ (u : State) (y : Snap), let t := u.takeBack y
    t.core = y.core ∧ t.cell.qs.lq = y.lq ∧ t.cell.snaps = [] ∧ t.cell.as.latchP = y.latchP ∧ t.cell.as.latchK = y.latchK
      ∧ t.cell.as.latchM = y.latchM ∧ t.cell.as.wait = none
      ∧ (∀ x ∈ t.cell.mops, x.seq < y.seq) ∧ t.cell.ho = u.cell.ho.takeBack y.seq ∧ t.cell.hub = u.cell.hub.takeBack y.seq
      ∧ ((∀ e, ∀ m ∈ (u.cell.eng e).marks, m.seq ≤ y.seq) →
        (∀ l ∈ (u.part u.recPart).fifos, ∀ r ∈ l, r.forkedAfter u.cell.id y.seq = false) → t.mem = u.mem))
  ∧ (∀ (s : State) (y : Snap) (rest : List Snap), s.cell.snaps = y :: rest → s.cell.mops.find? (·.seq = y.seq) = none →
    exec .memoryCheckCompletion s = .next ((s.updFocus fun c => { c with snaps := rest }).writeBodies s.recPart))
  ∧ (∀ (s : State) (n : Nat) (w : Wback), s.mem.wbacks[n]? = some w →
    let ours := fun (l : CLine) => w.has l.line && s.wbackCache w l.at_
    let u := s.updMem fun m => { m with wbacks := dropAt m.wbacks n }
    (s.wbackOpen w = true → exec (.writebackComplete n) s = .next s)
    ∧ (s.wbackOpen w = false → w.inv = false → exec (.writebackComplete n) s = .next (u.cleanLines ours))
    ∧ (s.wbackOpen w = false → w.inv = true → exec (.writebackComplete n) s = .next (u.dropLines ours)))
  ∧ (∀ (s : State) (sel : CLine → Bool),
    (s.cleanLines sel).mem.mem = s.mem.mem ∧ (s.cleanLines sel).mem.writes = s.mem.writes ∧ (s.cleanLines sel).core = s.core
      ∧ (s.dropLines sel).mem.lines = (s.cleanLines sel).mem.lines.filter (fun l => !sel l)
      ∧ ∀ l ∈ s.mem.lines, sel l = true → ∀ x ∈ (s.cleanLines sel).mem.stale, ¬ (x.at_ = l.at_ ∧ x.key / 64 * 64 = l.line))
  ∧ (∀ (s : State) (e : Eng) (base size : Nat), s.cell.ringSeg e = some (base, size) → (s.cell.eng e).front.length < 16 →
    (s.cell.eng e).wp ≠ (s.cell.eng e).rp →
    let a := ringAddr base size (s.cell.eng e).rp.toNat
    let r := s.readW (s.cell.who (engAgent e)) (spadPlace s.cell.id (a / 8 * 8)) (mkAddr (s.cell.ringNo e) (a / 8 * 8 - base))
    let w : Word32 := if a % 8 = 0 then r.2.v.extractLsb' 0 32 else r.2.v.extractLsb' 32 32
    (s.cell.wordHeld (s.cell.eng e).marks (s.cell.eng e).rp.toNat = true → exec (.frontQueueMove e) s = .next s)
    ∧ (s.cell.wordHeld (s.cell.eng e).marks (s.cell.eng e).rp.toNat = false → r.2.psn = true →
      headerNext 16 (s.cell.eng e).front = true →
      exec (.frontQueueMove e) s = .next (r.1.partitionReset (partOf s.cell.as.sys.ctxid) .containment 0))
    ∧ (s.cell.wordHeld (s.cell.eng e).marks (s.cell.eng e).rp.toNat = false →
      (r.2.psn = false ∨ headerNext 16 (s.cell.eng e).front = false) →
      ∃ t, exec (.frontQueueMove e) s = .next t ∧ (t.cell.eng e).rp = (s.cell.eng e).rp + 1 ∧ (t.cell.eng e).wp = (r.1.cell.eng e).wp
        ∧ (t.cell.eng e).front = (s.cell.eng e).front ++ [⟨w, r.2.psn⟩] ∧ t.mem = r.1.mem))
  ∧ (∀ (s : State) (who : TlbAgent) (seg : BitVec 6) (page : Nat) (e : SegEnt), segAt s.cell.segs seg.toNat = some e →
    let off := max (page * 65536) e.base - e.base
    s.cell.as.run = .running → e.pageable = true → off < e.size → (e.base + off) / 65536 = page →
    s.prefetchOk seg.toNat e off = true →
    exec (.tlbLoad who seg page) s = .next (s.walk (s.cx 0 who) seg.toNat e off false).1)

/-- R303, R331: launches that streams of a context have posted and the entries of its queue 3 start in the order in which they were posted:
a prefill at its CREATE or restart, a decode step at its event, an entry at its doorbell. -/
def Sys2Proof.Claims.PostingOrder : Prop :=
  (∀ (s : State) (c k : Nat), s.streamBefore c k = true ↔ ∃ y ∈ s.pkg.streams, y.ctx = c ∧ y.held = true ∧ y.running = false
    ∧ ((y.state = .queued ∧ y.postPrefill = true ∧ y.order < k) ∨ (y.state = .decode ∧ y.postStep = true ∧ y.stepAt < k)))
  ∧ (∀ (s : State) (x : Stream), x.held = true → x.running = false →
    let turn := fun (k : Nat) => s.streamBefore x.ctx k = false ∧ ∀ j, (s.cq x.ctx 3).nextPost = some j → k ≤ j
    (x.state = .decode → x.postStep = true →
      (turn x.stepAt → s.streamDue x = some (x.dw 4)) ∧ (¬ turn x.stepAt → s.streamDue x = none))
    ∧ (x.state = .queued → x.postPrefill = true →
      (turn x.order → s.streamDue x = some (x.dw 3)) ∧ (¬ turn x.order → s.streamDue x = none)))
  ∧ (∀ (s : State) (c : Nat) (d : HdrWords), s.entryBarred c 3 d = true ↔
    (cqBarrier d = true ∧ ∃ e ∈ (s.cq c 3).ents, e.done = false)
    ∨ (∃ k, (s.cq c 3).nextPost = some k ∧ s.streamBefore c k = true)
    ∨ (cqBarrier d = true ∧ ∃ y ∈ s.pkg.streams, y.ctx = c ∧ y.running = true))
  ∧ (∀ (s : State) (c q : Nat) (d : HdrWords), q ≠ 3 →
    (s.entryBarred c q d = true ↔ cqBarrier d = true ∧ ∃ e ∈ (s.cq c q).ents, e.done = false))

/-- R35, R302 to R304, R307, R312 to R315, R331: a cell takes the FIFO record or the next WID of the highest level with work, and
enters it with its registers set; doorbells, launch starts and refusals, fences, aging. -/
def Obligations.LaunchEventResult : Prop :=
  (∀ (s : State) (p lvl : Nat), s.cellPart s.cell.id = some p → s.cell.as.run = .idle → s.cell.recd = none → s.cell.gated = false →
    s.partPause p = false → s.pkg.repair.replace.contains s.cell.id = false → s.pkg.repair.retired.contains s.cell.id.die = false →
    lvl < 8 →
    (∀ j, lvl < j → j < 8 → s.fifoPick ((s.part p).fifos.getD j []) = none ∧
      nextEnum (s.enumsAt p j) ((s.part p).served.getD j 0) = none) →
    (∀ i, s.fifoPick ((s.part p).fifos.getD lvl []) = some i →
      (nextEnum (s.enumsAt p lvl) ((s.part p).served.getD lvl 0) = none ∨ (s.part p).lastEnum.getD lvl true = true) →
      exec .dispatch s = .next (s.takeFifo p lvl i))
    ∧ (∀ l, nextEnum (s.enumsAt p lvl) ((s.part p).served.getD lvl 0) = some l →
      (s.fifoPick ((s.part p).fifos.getD lvl []) = none ∨ (s.part p).lastEnum.getD lvl true = false) →
      exec .dispatch s = .next (s.takeWid p lvl l)))
  ∧ (∀ (s : State) (p lvl i : Nat) (r : Rec) (l : Launch), ((s.part p).fifos.getD lvl [])[i]? = some r → s.findLaunch r.launch = some l →
    let a := (s.part p).bodyAt r.slot
    let u := s.hostMeet (unitFor p (some l.ctx)) a 4
    (u.hostPsn a 4 = true → s.takeFifo p lvl i = u.partitionReset p .containment 0)
    ∧ (u.hostPsn a 4 = false → s.takeFifo p lvl i = ((u.updPart p fun x => { x with
        fifos := updAt x.fifos lvl fun l => dropAt l i, lastEnum := updAt x.lastEnum lvl fun _ => false }).placeSingles p).runRec r l lvl))
  ∧ (∀ (s : State) (r : Rec) (l : Launch) (prio : Nat),
    (s.cell.lastOp ≠ some (l.id, r.op) → ∀ x ∈ l.templ, x.2 = 0) →
    let t := s.runRec r l prio
    t.cell.as.run = .running ∧ t.cell.as.lvl = .program ∧ t.core.pc = r.code ∧ t.core.infl = [] ∧ t.core.rep = none
      ∧ (∀ n : GReg, t.rg n = if n = 1 then ⟨r.frame, false⟩ else if n = 2 then ⟨r.wid, false⟩ else if n = 3 then ⟨r.joinp, false⟩
          else ⟨0, false⟩)
      ∧ (∀ n : PReg, t.rp n = ⟨n = 0, false⟩) ∧ (∀ n : TReg, (t.core.rt n).valid = false)
      ∧ t.cell.as.sys.wid = r.wid ∧ t.cell.as.sys.frame = r.frame ∧ t.cell.as.sys.joinp = r.joinp ∧ t.cell.as.sys.tvec = l.ktvec
      ∧ t.cell.qs = Queues.init ∧ t.cell.sems = Vector.replicate 63 (.count 0) ∧ t.cell.es = EsSt.init
      ∧ t.cell.recd = some ⟨l.id, r.op, prio⟩)
  ∧ (∀ (s : State) (ctx : Nat) (q : BitVec 2) (tail : BitVec 32), ctx < 192 → s.pkg.boot.phase = .running →
    exec (.cqtail ctx q tail) s = .next (((s.updCq ctx q.toNat fun x => { x with
      tail := tail, posts := if q = 3 then x.posts ++ [(tail, s.pkg.nextOrder)] else x.posts }).updPkg fun p => { p with
        nextOrder := p.nextOrder + 1 }).startFences ctx q.toNat))
  ∧ (∀ (s : State) (c q n : Nat),
    let x := s.cq c q
    let d := s.cqHead x
    s.startFences c q = s.fencesFrom c q 65536
    ∧ ((x.head = x.tail ∨ cqIsFence d = false ∨ x.barred d = true) → s.fencesFrom c q n = s)
    ∧ (x.head ≠ x.tail → cqIsFence d = true → x.barred d = false →
      s.fencesFrom c q (n + 1) = (s.cqAdvance c q ⟨x.head.toNat, true, hdrAt d 8, hdrAt d 16, false, false, []⟩).fencesFrom c q n))
  ∧ (∀ (s u : State) (c : Nat) (q : BitVec 2) (ops : List Oper) (wm : List (Nat × CellId)),
    let x := s.cq c q.toNat
    let d := s.cqHead x
    x.head ≠ x.tail → cqIsFence d = false →
    (cqOk d = false → exec (.launchStart (.queue c q)) s = .next (((s.refuseReport c (hdrAt d 8) 0x0A q.toNat).cqAdvance c q.toNat
      ⟨x.head.toNat, false, hdrAt d 8, 0, true, true, []⟩).startFences c q.toNat))
    ∧ (cqOk d = true → (s.ctxRuns c = false ∨ s.entryBarred c q.toNat d = true) → exec (.launchStart (.queue c q)) s = .next s)
    ∧ (cqOk d = true → s.ctxRuns c = true → s.entryBarred c q.toNat d = false →
      (∀ k, s.checkLaunch c (hdrAt d 8) = (u, .refused k) → exec (.launchStart (.queue c q)) s =
        .next (((u.refuseReport c (hdrAt d 8) k q.toNat).cqAdvance c q.toNat ⟨x.head.toNat, false, hdrAt d 8, 0, true, true, []⟩).startFences
          c q.toNat))
      ∧ (s.checkLaunch c (hdrAt d 8) = (u, .error) → exec (.launchStart (.queue c q)) s =
        .next (u.partitionReset (s.ctx c).part.toNat .containment 0))
      ∧ (s.checkLaunch c (hdrAt d 8) = (u, .ok ops wm) → (wm = [] ∨ u.wheelBusy (s.ctx c).part.toNat = false) →
        exec (.launchStart (.queue c q)) s =
          .next (((u.cqAdvance c q.toNat ⟨x.head.toNat, false, hdrAt d 8, 0, false, false, []⟩).startFences c q.toNat).startLaunch
            (launchOf u (.queue c q) c x.head.toNat (hdrAt d 8) (hdrAt (u.headerAt (hdrAt d 8)) 0xA0) (u.headerAt (hdrAt d 8)) ops wm)))))
  ∧ PostingOrder
  ∧ (∀ (s u : State) (n : Nat) (x : Stream) (a : Word) (ops : List Oper) (wm : List (Nat × CellId)), s.findStream n = some x →
    s.streamDue x = some a →
    (s.ctxRuns x.ctx = false → exec (.launchStart (.stream n)) s = .next s)
    ∧ (s.ctxRuns x.ctx = true →
      (∀ k, s.checkLaunch x.ctx a = (u, .refused k) →
        exec (.launchStart (.stream n)) s = .next ((u.refuseReport x.ctx a k 3).streamOn n .refused))
      ∧ (s.checkLaunch x.ctx a = (u, .error) →
        exec (.launchStart (.stream n)) s = .next (u.partitionReset (s.ctx x.ctx).part.toNat .containment 0))
      ∧ (s.checkLaunch x.ctx a = (u, .ok ops wm) → (wm = [] ∨ u.wheelBusy (s.ctx x.ctx).part.toNat = false) →
        let t := u.startLaunch (launchOf u (.stream n) x.ctx (x.tag (x.state ≠ .queued)) a (x.dw 6) (u.headerAt a) ops wm)
        (x.state = .queued →
          exec (.launchStart (.stream n)) s = .next ((t.streamOn n .admitted).updStream n fun y => { y with postPrefill := false }))
        ∧ (x.state ≠ .queued →
          exec (.launchStart (.stream n)) s = .next (t.updStream n fun y => { y with running := true, postStep := false })))))
  ∧ (∀ (s : State) (c : Nat) (q : BitVec 2) (e : CqEnt) (before rest : List CqEnt),
    ((s.cq c q.toNat).head = (s.cq c q.toNat).tail ∨ cqIsFence (s.cqHead (s.cq c q.toNat)) = false) →
    fenceReady [] (s.cq c q.toNat).ents = some (e, before, rest) →
    (before.all fun x => x.deps.all fun d => s.mem.reached d 4) = true →
    exec (.fenceEntryComplete c q) s = .next ((((((s.hostPut e.addr.toNat (fenceCounts before)).hostPut (e.addr.toNat + 8)
      (BitVec.ofNat 64 s.timeNs)).hostPut (e.addr.toNat + 16) 0).hostPut (e.addr.toNat + 24) e.value).updCq c q.toNat fun x =>
        { x with ents := rest, replay := BitVec.ofNat 32 (e.idx + 1), posts := x.posts.filter fun p =>
          (BitVec.ofNat 32 (e.idx + 1) - x.replay).ult (p.1 - x.replay) }).startFences c q.toNat)
      ∧ (∀ y ∈ before, y.done = true ∧ y.fence = false) ∧ e.fence = true ∧ (s.cq c q.toNat).ents = before ++ e :: rest)
  ∧ (∀ (s : State) (p lvl i : Nat) (r : Rec), agedAt s.pkg.time.t3 ((s.part p).fifos.getD lvl []) = some i →
    ((s.part p).fifos.getD lvl [])[i]? = some r → lvl < 7 → s.fifoFull p (lvl + 1) = false →
    exec (.recordAging p lvl) s = .next (((s.updPart p fun x => { x with
      fifos := updAt (updAt x.fifos lvl fun l => dropAt l i) (lvl + 1) fun l => l ++ [{ r with since := s.pkg.time.t3 }] }).placeSingles p).ageEnums p lvl)
      ∧ r.since + 3000000 ≤ s.pkg.time.t3)

/-- R316 to R326: pre-emption requests, context switches, hangs, partition resets and evictions. The order of the statuses of a request is
log 33's, a decision in the accepting step log 21's, the two halves of a switch log 42's; the boundaries owed to a restored context are R405's. -/
def Obligations.PreemptEventResult : Prop :=
  (∀ (s : State) (p c d : Nat), (s.part p).ctx = some c → d < 192 → d ≠ c → s.hasWork p d = true →
    (s.part p).since + 3000 * (s.part p).slice ≤ s.pkg.time.t3 →
    exec (.sliceExpiry p) s = .next (s.updPart p fun x => { x with preempt := true }))
  ∧ (∀ (s : State) (c : Nat), c < 192 → (s.ctx c).en = true → s.pkg.boot.phase = .running →
    exec (.preempt c) s = .next (s.updPart (s.ctx c).part.toNat fun x => { x with preempt := true })
    ∧ exec (.preset c) s = .next (s.partitionReset (s.ctx c).part.toNat .host 0))
  ∧ (∀ (s : State) (c : Nat), (s.ctx c).en = false → exec (.preempt c) s = .next s ∧ exec (.preset c) s = .next s)
  ∧ (∀ (s : State) (p : Nat), (s.part p).en = true →
    ((s.part p).ctx = none → s.nextCtx p (s.part p).left = none → exec (.contextSwitch p) s = .next s)
    ∧ (∀ c, (s.part p).ctx = none → s.nextCtx p (s.part p).left = some c → exec (.contextSwitch p) s = .next (s.restoreCtx p c))
    ∧ (∀ c, (s.part p).ctx = some c → (s.part p).preempt = true → s.allStopped p = true →
      (s.ckPending c = false → exec (.contextSwitch p) s = .next (s.saveCtx p c))
      ∧ (s.ckPending c = true → exec (.contextSwitch p) s = .next ((s.abandonSwaps c).saveCtx p c)))
    ∧ (∀ c, (s.part p).ctx = some c → ((s.part p).preempt = false ∨ s.allStopped p = false) →
      exec (.contextSwitch p) s = .next s))
  ∧ (∀ (s : State) (p c : Nat), p < s.pkg.parts.length →
    let t := s.saveCtx p c
    (t.part p).ctx = none ∧ (t.part p).left = some c ∧ (t.part p).owed = some 0 ∧ (t.part p).preempt = false ∧ t.cell = s.cell
      ∧ ∀ l ∈ t.pkg.launches, l.part = p → l.saved = true)
  ∧ (∀ (s u : State) (p c : Nat), p < u.pkg.parts.length → s.settleStatics.readSave p c = (u, false) →
    let t := s.restoreCtx p c
    (t.part p).ctx = some c ∧ (t.part p).since = u.pkg.time.t3 ∧ (t.part p).owed = none ∧ (t.part p).preempt = false
      ∧ ∀ l ∈ t.pkg.launches, l.part = p → (l.saved = true ↔ l.ctx ≠ c))
  ∧ (∀ (s : State) (p : Nat) (l : Launch), s.pkg.launches.find? (fun l => l.part = p && l.hung s.pkg.time.t3) = some l →
    exec (.hangTimeout p) s = .next (s.partitionReset p .hang (BitVec.ofNat 64 l.op)))
  ∧ (∀ (s : State) (p : Nat) (why : ResetTrigger), (s.part p).en = true →
    ∃ t, exec (.partitionReset p why) s = .next t ∧ t = s.partitionReset p why 0
      ∧ t.cell = (if (s.part p).cells.contains s.cell.id = true then s.cell.abandon s.pkg.time.clk (s.sigsOpen s.cell) else s.cell)
      ∧ (∀ l ∈ t.pkg.launches, l.part ≠ p) ∧ t.mem.binds = s.mem.binds)
  ∧ (∀ (c : Cell) (clk : Nat) (sigs : List SemNo),
    let d := c.abandon clk sigs
    d.recd = none ∧ d.as = AsSt.init c.id.die ∧ d.es = EsSt.init ∧ d.qs = Queues.init ∧ d.mops = [] ∧ d.hold = c.hold
      ∧ ∀ (n : SemNo) (h : n.toNat < 63),
        (n ∉ sigs → d.sems[n.toNat] = c.sems[n.toNat])
        ∧ (n ∈ sigs → (∀ k, c.sems[n.toNat] = .count k → d.sems[n.toNat] = .err 0x08)
          ∧ (∀ k, c.sems[n.toNat] = .err k → c.ovfs.contains (n, clk) = false → d.sems[n.toNat] = .err k)
          ∧ (c.ovfs.contains (n, clk) = true → d.sems[n.toNat] = .err 0x08)))
  ∧ (∀ (s : State) (c : Cell), (∀ x ∈ c.cmdsOf, ∀ h, cmdHdr x.i = some h → h.sig ∈ s.sigsOpen c)
      ∧ (∀ e w r, (c.eng e).front.map (·.w) ++ s.ringWords c e = w :: r → hdrSig w ∈ s.sigsOpen c)
      ∧ (∀ w r, c.ho.buf = w :: r → hdrSig w ∈ s.sigsOpen c) ∧ (∀ w r, c.hub.buf = w :: r → hdrSig w ∈ s.sigsOpen c))
  ∧ (∀ (s : State) (d0 d1 d2 d3 : Word),
    let u := s.updPkg fun p => { p with mgmt := { p.mgmt with evStat := BitVec.ofNat 8 (s.evStatus d0 d1 d2), evict := [d0, d1, d2, d3] } }
    (s.pkg.boot.phase ≠ .running → exec (.evictionRequest d0 d1 d2 d3) s = .next s)
    ∧ (s.pkg.boot.phase = .running → s.evStatus d0 d1 d2 ≠ 0 → exec (.evictionRequest d0 d1 d2 d3) s = .next u)
    ∧ (s.pkg.boot.phase = .running → s.evStatus d0 d1 d2 = 0 → exec (.evictionRequest d0 d1 d2 d3) s =
      .next (u.evict (d0.getLsbD 16) (fld d0 11 0) d1.toNat [fld d2 15 0, fld d2 31 16, fld d2 47 32] d3))
    ∧ (d1.toNat < s.timeNs + 200000 → s.evStatus d0 d1 d2 = 1))
  ∧ (∀ (s : State) (t c : Nat), s.evTargets true t = [t]
    ∧ (c ∈ s.evTargets false t ↔ c < 192 ∧ (((s.ctx c).en = true ∧ (s.ctx c).part.toNat = t)
      ∨ ∃ l ∈ s.pkg.launches, l.ctx = c ∧ l.part = t)))
  ∧ (∀ (l : Launch) (p c now : Nat),
    (l.part ≠ p → l.switch p (some c) now = l)
    ∧ (l.part = p → l.ctx = c → l.switch p (some c) now = { l with saved := false, stopped := false, yielded := now, boost := 0 })
    ∧ (l.part = p → l.ctx ≠ c → l.switch p (some c) now = { l with saved := true }))
  ∧ (∀ (s : State) (budget : Nat) (avail : List Nat) (c : Nat),
    ((s.launchesOf c).isEmpty = true → (s.ctx c).dirty = 0 → (s.decide budget avail c).1.dec = .idle)
    ∧ (((s.launchesOf c).isEmpty = false ∨ (s.ctx c).dirty ≠ 0) → s.isRunning c = true → s.evW c + 50000 ≤ budget →
      (s.decide budget avail c).1.dec = .run)
    ∧ (((s.launchesOf c).isEmpty = false ∨ (s.ctx c).dirty ≠ 0) → (s.isRunning c = false ∨ budget < s.evW c + 50000) →
      let need := ceilDiv (4 * (s.ctx c).dirty) (budget - s.evR c - 50000)
      let dest := (s.ctx c).ckdest.toNat
      (s.evR c + 50000 < budget → need ≤ avail.getD dest 0 →
        s.decide budget avail c = (⟨c, .checkpoint, need, 0, none⟩, updAt avail dest fun x => x - need))
      ∧ ((budget ≤ s.evR c + 50000 ∨ avail.getD dest 0 < need) → s.decide budget avail c = (⟨c, .discard, 0, 0, none⟩, avail))))
  ∧ (∀ (s : State) (x : EvCtx),
    (x.dec = .discard → ∀ l ∈ (s.carry x).pkg.launches, l.ctx ≠ x.ctx)
    ∧ (x.dec = .checkpoint → ∀ i, s.runsIn x.ctx = some i → ((s.carry x).part i).preempt = true ∧ (s.carry x).cell = s.cell))
  ∧ (∀ (s : State) (n : Nat) (e : Evict), s.pkg.evicts[n]? = some e →
    (e.fallAt ≤ s.timeNs → ∃ t f, exec (.evictionFallback n) s = .next t ∧ t.pkg.evicts[n]? = some f
      ∧ ∀ x ∈ e.ctxs, x.vacant = none → s.vacantNow x = false →
        ({ x with dec := x.dec.fall, alloc := 0 } : EvCtx) ∈ f.ctxs ∧ ∀ l ∈ t.pkg.launches, l.ctx ≠ x.ctx)
    ∧ (s.timeNs < e.fallAt → exec (.evictionFallback n) s = .next s)
    ∧ ((s.noteVacant e.ctxs).2.all (·.vacant.isSome) = true →
      let byCtx := (List.range 192).flatMap fun c => (s.noteVacant e.ctxs).2.filter (·.ctx = c)
      exec (.evictionOutcome n) s = .next (((s.noteVacant e.ctxs).1.writeOutcomes e.out.toNat
        (byCtx.flatMap fun x => (List.range 4).map fun q => (x, q))).updPkg fun p => { p with evicts := dropAt p.evicts n })))

/-- R336, R344: which block is sent next: those of the HPULLs, then those of the HOFFs, in their order, each once, none while the HOFF that
registered it has not completed. R327, R333: an event that changes nothing writes nothing; a change of the stream's own fields of dword 0 is
written beside what the host has put into the others. -/
def Sys2Proof.Claims.SendOrder : Prop :=
  (∀ (x : Stream) (open_ : Nat → Bool) (r : HReg),
    let l := (x.pulls.filter (·.code.isNone)).flatMap (fun p => (List.range p.count).map (p.blk0 + ·)) ++ x.regs.map (·.blk)
    let may := fun (b : Nat) => b ∉ x.sent ∧ x.own[b]? = some (BitVec.ofNat 8 x.pdie) ∧ open_ b = false ∧ (x.regOf b).isSome = true
    x.nextSend open_ = some r ↔ ∃ pre b post, l = pre ++ b :: post ∧ (∀ y ∈ pre, ¬ may y) ∧ may b ∧ x.regOf b = some r)
  ∧ (∀ (s : State) (n b : Nat), s.hoffOpen n b = true ↔ ∃ c ∈ s.cell :: s.parked, ∃ m ∈ c.ho.cmds, ∃ h p done, m.i = .hoff h p
    ∧ m.phase = .release 0 done ∧ p.stream.toNat = n ∧ p.blk0.toNat ≤ b ∧ b ≤ p.blk0.toNat + p.count1.toNat)
  ∧ (∀ (s : State) (n : Nat) (x : Stream) (ev : StreamEv), s.findStream n = some x → x.on ev = x →
    s.streamOn n ev = s.updPkg fun p => { p with prsAt := some p.time.clk })
  ∧ (∀ (x : Stream) (old : Word), let w := x.word0 old
    w.extractLsb' 60 4 = BitVec.ofNat 4 x.state.code ∧ w.extractLsb' 52 8 = BitVec.ofNat 8 x.cause ∧ w.getLsbD 51 = old.getLsbD 51
      ∧ w.extractLsb' 49 2 = BitVec.ofNat 2 x.attempts ∧ w.getLsbD 48 = x.wmr ∧ w.getLsbD 47 = x.ackr ∧ w.getLsbD 46 = x.pkp
      ∧ w.getLsbD 45 = x.rsp ∧ w.getLsbD 44 = x.swp ∧ w.extractLsb' 0 44 = old.extractLsb' 0 44)

/-- R329 to R342, R350 to R353: streams: requests and their status, the events of R333's table, decode steps, sends and commits word by word,
cancels, losses, records, swap. CREATE's statuses are tried in log 33's order; how NVMe commands are submitted is log 58's, the order in which
read blocks commit log 59's. -/
def Obligations.StreamEventResult : Prop :=
  (∀ (s : State) (ctx n : Nat), ctx < 192 → s.pkg.boot.phase = .running →
    let d := s.descriptor n
    (2 ^ 24 ≤ n ∨ descriptorOk d = false → exec (.streamCreate ctx n) s = .next (s.answer ctx 1))
    ∧ (n < 2 ^ 24 → descriptorOk d = true → fld (d.getD 0 0) 43 36 ≠ ctx → exec (.streamCreate ctx n) s = .next (s.answer ctx 2))
    ∧ (n < 2 ^ 24 → descriptorOk d = true → fld (d.getD 0 0) 43 36 = ctx → s.createState n d = false →
      exec (.streamCreate ctx n) s = .next (s.answer ctx 3))
    ∧ (n < 2 ^ 24 → descriptorOk d = true → fld (d.getD 0 0) 43 36 = ctx → s.createState n d = true →
      ∃ t x, exec (.streamCreate ctx n) s = .next t ∧ t.findStream n = some x ∧ x.state = .queued ∧ x.cause = 0 ∧ x.attempts = 0 ∧ x.d = d
        ∧ x.order = (s.closeStream n).pkg.nextOrder ∧ x.held = true ∧ x.postPrefill = true ∧ t.cell = (s.closeStream n).cell
        ∧ t.parked = (s.closeStream n).parked ∧ x.wmr = false ∧ x.ackr = false ∧ x.pkp = false ∧ x.rsp = false ∧ x.swp = false))
  ∧ (∀ (s : State) (ctx n : Nat), s.pkg.boot.phase ≠ .running → exec (.streamCreate ctx n) s = .next s
      ∧ exec (.streamPark ctx n) s = .next s ∧ exec (.streamResume ctx n) s = .next s ∧ exec (.streamCancel ctx n) s = .next s)
  ∧ (∀ (s : State) (ctx n : Nat) (x : Stream), ctx < 192 → s.pkg.boot.phase = .running → n < 2 ^ 24 → s.streamCtx n = ctx → s.findStream n = some x → x.held = true →
    (x.state = .decode → exec (.streamPark ctx n) s = .next (((s.streamOn n .park).swoutGo).answer ctx 0))
    ∧ (x.state = .parked → exec (.streamResume ctx n) s = .next (((s.streamOn n .resume).swoutGo).answer ctx 0))
    ∧ (x.state.over = false → exec (.streamCancel ctx n) s = .next (((s.streamOn n (.cancel 0x01)).swoutGo).answer ctx 0))
    ∧ (x.state ≠ .decode → exec (.streamPark ctx n) s = .next (s.answer ctx 3))
    ∧ (x.state ≠ .parked → exec (.streamResume ctx n) s = .next (s.answer ctx 3))
    ∧ (x.state.over = true → exec (.streamCancel ctx n) s = .next (s.answer ctx 3)))
  ∧ (∀ (x : Stream) (c : Nat),
    (x.state = .queued → (x.on .admitted).state = .prefill ∧ (x.on .admitted).own = List.replicate x.blocks (BitVec.ofNat 8 x.pdie))
    ∧ (x.state = .prefill → x.wmr = false → (x.on .pdone).state = .handoff)
    ∧ (x.state = .prefill → x.wmr = true → (x.on .pdone).state = .decode)
    ∧ (x.state = .prefill → (x.on .wm).state = .prefill ∧ (x.on .wm).wmr = true)
    ∧ (x.state = .handoff ∨ x.state = .resuming → (x.on .wm).state = .decode ∧ (x.on .wm).wmr = false ∧ (x.on .wm).postStep = true)
    ∧ (x.state = .prefill → (x.on .ack).state = .prefill ∧ (x.on .ack).ackr = true)
    ∧ (x.state = .handoff → (x.on .ack).state = .decode ∧ (x.on .ack).ackr = true)
    ∧ (x.state = .decode → x.pkp = false → (x.on .ack).state = .decode ∧ (x.on .ack).ackr = true)
    ∧ (x.state = .decode → x.pkp = true → x.running = false → (x.on .ack).state = .parked)
    ∧ (x.state = .decode → (x.pkp = false ∨ x.ackr = false) → (x.on .step).state = .decode ∧ (x.on .step).postStep = true)
    ∧ (x.state = .decode → x.pkp = true → x.ackr = true → (x.on .step).state = .parked)
    ∧ (x.state = .decode → (x.on .end_).state = .done)
    ∧ (x.state = .decode → x.ackr = true → x.running = false → (x.on .park).state = .parked)
    ∧ (x.state = .decode → (x.ackr = false ∨ x.running = true) → (x.on .park).state = .decode ∧ (x.on .park).pkp = true)
    ∧ (x.toParked.pkp = false ∧ x.toParked.swp = false ∧ x.toParked.ackr = false)
    ∧ (x.state = .parked → x.rsp = false → (x.on .sout).state = .parked ∧ (x.on .sout).swp = true)
    ∧ (x.state = .parked → x.rsp = true → x.on .sout = { x with swp := true }.toResuming)
    ∧ (x.state = .parked → (x.swp = true ∨ x.swoutOpen = false) → x.on .resume = x.toResuming)
    ∧ (x.state = .parked → x.swp = false → x.swoutOpen = true → (x.on .resume).state = .parked ∧ (x.on .resume).rsp = true)
    ∧ (x.toResuming.rsp = false ∧ (x.wmReached = false → x.toResuming.state = .resuming))
    ∧ (x.state = .queued ∨ x.state = .prefill ∨ x.state = .decode → (x.on .refused).state = .cancelled ∧ (x.on .refused).cause = 0x02)
    ∧ (x.state.over = false → (x.on (.cancel c)).state = .cancelled ∧ (x.on (.cancel c)).cause = c)
    ∧ (x.state.over = false → x.state ≠ .queued → (x.on (.lost c)).state = .lost ∧ (x.on (.lost c)).cause = c)
    ∧ (x.state = .handoff → (x.on .reset).state = .lost ∧ (x.on .reset).cause = 0x06)
    ∧ (x.state = .queued → (x.on .reset).state = .queued)
    ∧ (x.state = .prefill → (x.on .reset).state = .queued ∧ (x.on .reset).postPrefill = true ∧ (x.on .reset).held = x.held
      ∧ (x.on .reset).order = x.order ∧ (x.on .reset).own = List.replicate x.blocks 0xFF)
    ∧ (x.state = .decode → x.ackr = true → x.stepRead = false → (x.on .reset).state = .decode ∧ (x.on .reset).postStep = true)
    ∧ (x.state = .decode → x.ackr = false → (x.on .reset).state = .lost ∧ (x.on .reset).cause = 0x06)
    ∧ (x.state = .parked ∨ x.state = .resuming → (x.on .reset).state = x.state ∧ (x.on .reset).again = true)
    ∧ (x.state.over = true → (x.on (.cancel c)) = x ∧ (x.on (.lost c)) = x
      ∧ ∀ ev, (x.on ev).state = x.state ∧ (x.on ev).cause = x.cause ∧ (x.on ev).own = x.own))
  ∧ (∀ (s : State) (n : Nat) (x : Stream) (mine : Bool) (rest : List Bool), s.findStream n = some x → x.steps = mine :: rest →
    let w := (s.hostWord x.framea).v
    let u := (s.hostPut x.framea 0).updStream n fun y => { y with steps := rest, running := y.running && !mine }
    (mine = true → exec (.decodeStepCompletion n) s = .next ((u.streamOn n
      (if w.getLsbD 0 then .end_ else if w.getLsbD 1 then .park else .step)).swoutGo))
    ∧ (mine = false → exec (.decodeStepCompletion n) s = .next u))
  ∧ (∀ (s : State) (n : Nat) (x : Stream), s.findStream n = some x →
    (∀ r, (x.state = .prefill ∨ x.state = .handoff ∨ x.state = .decode) → x.going = none →
      x.nextSend (s.hoffOpen n) = some r →
      (r.modno ≠ 0 ∨ s.pkg.repair.linkDown x.pdie x.ddie = false) →
      exec (.blockSend n) s = .next (s.updStream n fun y => { y with going := some (r.blk, 0) }))
    ∧ (∀ b i r, (x.state = .prefill ∨ x.state = .handoff ∨ x.state = .decode) → x.going = some (b, i) → x.regOf b = some r →
      (r.modno ≠ 0 ∨ s.pkg.repair.linkDown x.pdie x.ddie = false) →
      (i < 8191 → exec (.blockSend n) s = .next ((s.sendWord x r i).updStream n fun y => { y with going := some (b, i + 1) }))
      ∧ (8191 ≤ i → exec (.blockSend n) s =
        .next ((s.sendWord x r i).updStream n fun y => { y with going := none, sent := y.sent ++ [b] })))
    ∧ (∀ b rest r, x.sent = b :: rest → x.regOf b = some r → r.modno = 0 →
      s.pkg.repair.linkDown r.srcDie r.dstDie = false →
      (x.settled < 8192 → exec (.blockCommit n) s =
        .next (((s.resendWord x r x.settled).updStream n fun y => { y with settled := y.settled + 1 }).swoutGo))
      ∧ (8192 ≤ x.settled → exec (.blockCommit n) s = .next (((((s.updStream n fun y => { y with
        sent := rest, unreleased := y.unreleased ++ [b], settled := 0 }).setOwner n b (BitVec.ofNat 8 x.ddie)).afterCommit n b
          x.wmReached)).swoutGo)))
    ∧ (∀ b rest r, x.sent = b :: rest → x.regOf b = some r → r.modno ≠ 0 →
      exec (.blockCommit n) s = .next ((((s.updStream n fun y => { y with
        sent := rest, unreleased := y.unreleased ++ [b], settled := 0, fdst := y.fdst + 1 }).setOwner n b 0xFF).afterCommit n b
          x.wmReached).swoutGo))
    ∧ (exec (.blockRelease n) s = .next (s.updStream n fun y => { y with unreleased := y.unreleased.drop 1 }))
    ∧ (x.ending = true → exec (.cancelAtDestination n) s = .next (((List.range x.blocks).foldl (fun s b => s.freeBlock n b)
        ((s.updPkg fun p => { p with nvme := p.nvme.filter fun y => y.stream ≠ n || y.kind = .dealloc }).updStream n fun y => { y with
          disc := y.disc + y.sent.length + (if y.going.isSome then 1 else 0) })).updStream n fun y => { y with
            sent := [], unreleased := [], swap := [], regs := [], ending := false, going := none, settled := 0 }))
    ∧ (∀ k q, x.pulls[k]? = some q → q.code = none → x.state ≠ .resuming → q.since + 6000000 ≤ s.pkg.time.t3 →
      exec (.hpullTimeout n k) s = .next ((s.updStream n fun y => { y with
        pulls := updAt y.pulls k fun z => z.finish 0x1B }).streamOn n (.lost 0x03)))
    ∧ (x.state.over = true → x.recorded = false → x.ending = false → s.streamIdle x = true →
      (x.state ≠ .lost ∨ x.recomp = false ∨ 3 ≤ x.attempts) →
      exec (.completionRecord n) s = .next ((s.hostPuts (x.framea + 0x40) (x.record s.timeNs)).updStream n fun y => { y with
        recorded := true, held := false }))
    ∧ (x.state = .lost → x.recorded = false → x.ending = false → x.recomp = true → x.attempts < 3 →
      exec (.completionRecord n) s = .next (s.restart x)))
  ∧ (∀ (s : State) (x : Stream) (r : HReg) (i : Nat), r.modno = 0 → i % 8 ≠ 7 →
    let p := (framePlace r.srcDie r.srcFrame r.srcKey).plus (8 * i)
    let q := (framePlace r.dstDie r.dstFrame r.dstKey).plus (8 * r.dstWord i)
    let v := s.readW (coelostat r.srcDie x) p (locAddr 2 p.addr)
    v.1.mem.keyFits q = true → s.sendWord x r i = v.1.updMem fun m => m.putNow q.wkey v.2.v 0xFF v.2.psn)
  ∧ SendOrder
  ∧ (∀ (s : State) (x : Stream) (b : SwapBlk), s.nextRead = some (x, b) → s.findStream x.n = some x → x.swap.find? (·.blk = b.blk) = some b →
    (∃ y z, s.readBlockGo.findStream x.n = some y ∧ y.swap.find? (·.blk = b.blk) = some z
      ∧ z.stage = (if x.cmp = true then .reading else .data) ∧ z.seq = s.pkg.nextOrder)
    ∧ ∃ c ∈ s.readBlockGo.pkg.nvme, c.kind = (if x.cmp = true then .readHdr else .read) ∧ c.stream = x.n ∧ c.blk = b.blk
      ∧ c.drive = x.drive ∧ c.lba = x.lba0 + 32 * b.blk ∧ c.nlb = (if x.cmp = true then 1 else 16))
  ∧ (∀ (s u : State) (x : Stream) (b : SwapBlk), s.swoutGo = u → u.nextRead = none →
    u.firstSwap (fun b => b.stage = .gather || b.stage = .placing) = some (x, b) →
    let p := (framePlace b.die b.frame b.key).plus (8 * b.at_)
    let pay := fun (t : State) => if b.at_ % 8 = 7 then t.chargeUnit (swe x) p else t
    let r := u.readW (swe x) p (locAddr 2 p.addr)
    (b.at_ < 8192 → b.out = true → exec .swapBlockRead s =
      .next ((pay r.1).updSwap x.n b.blk fun z => { z with buf := z.buf ++ [r.2], at_ := z.at_ + 1 }))
    ∧ (b.at_ < 8192 → b.out = false → exec .swapBlockRead s =
      .next ((pay (u.devPut p (b.buf.getD b.at_ ⟨0, false⟩).v false)).updSwap x.n b.blk fun z => { z with at_ := z.at_ + 1 }))
    ∧ (8192 ≤ b.at_ → b.out = true → exec .swapBlockRead s =
      .next ((u.issueWrites x b).updSwap x.n b.blk fun z => { z with stage := .writing }))
    ∧ (8192 ≤ b.at_ → b.out = false → exec .swapBlockRead s =
      .next ((u.updSwap x.n b.blk fun z => { z with stage := .placed }).commitIns 4096)))
  ∧ (∀ (s : State) (k : Nat) (c : NvCmd), s.pkg.nvme[k]? = some c →
    let u := s.updPkg fun p => { p with
      nvme := dropAt p.nvme k
      nvqs := p.nvqs.map fun q => if q.drive = c.drive then { q with cqHead := (q.cqHead + 1) % q.depth } else q }
    let after := fun (v : State) => (v.commitIns 4096).swoutGo.nvSubmit (v.commitIns 4096).swoutGo.pkg.nvme.length
    (c.sub = false → (∀ ok, exec (.nvmeCompletion k ok) s = .next s) ∧ exec (.nvmeTimeout k) s = .next s)
    ∧ (c.sub = true → exec (.nvmeCompletion k true) s = .next (after (u.nvOk c)) ∧ exec (.nvmeCompletion k false) s = .next (after (u.nvFail c))
      ∧ (c.since + 300000000 ≤ s.pkg.time.t3 → exec (.nvmeTimeout k) s = .next (after (u.nvFail c)))
      ∧ (s.pkg.time.t3 < c.since + 300000000 → exec (.nvmeTimeout k) s = .next s))
    ∧ (c.tries = 0 → u.nvFail c = u.nvPush [{ c with tries := 1, sub := false }]))

/-- R359: of the held reports of `l`, report `r` goes first: it finds an entry of its die's buffer it may use, it overtakes none of its
agent for the same queue, and no report held before it can go. -/
def Sys2Proof.Claims.GoesFirst (s : State) (l : List Report) (n : Nat) (r : Report) : Prop :=
  let may := fun (i : Nat) (x : Report) => (s.pkg.errs.getD x.die ⟨[], 0, false⟩).hasRoom x = true
    ∧ ∀ (j : Nat) (y : Report), j < i → l[j]? = some y → ¬ (y.agent = x.agent ∧ y.dest = x.dest)
  l[n]? = some r ∧ may n r ∧ ∀ (i : Nat) (x : Report), i < n → l[i]? = some x → ¬ may i x

/-- R359: every agent that holds reports retries: of each cell in turn, then of the package's own agents, the report that goes first
enters its die's buffer behind what is there and is held no longer; where none can go nothing changes. Then FULL of a die says whether a
report of its is still held. -/
def Sys2Proof.Claims.HeldRetry : Prop :=
  (∀ s : State, exec .reportRetry s = .next (((allCells.foldl State.retryCell s).retryPkg).noteHeld))
  ∧ (∀ s : State, s.cell.hold = [] → (∀ c ∈ s.parked, c.hold = []) → s.pkg.hold = [] →
    ∃ t, exec .reportRetry s = .next t ∧ t.cell = s.cell ∧ t.mem = s.mem ∧ ∀ b ∈ t.pkg.errs, b.held = false)
  ∧ (∀ (s : State) (id : CellId) (c : Cell), s.findCell id = some c →
    (∀ n r, GoesFirst s c.hold n r → s.retryCell id = (s.updPkg fun p => { p with errs := updAt p.errs r.die fun b => { b with
      reps := b.reps ++ [r] } }).updCell id fun x => { x with hold := dropAt x.hold n })
    ∧ ((∀ n r, ¬ GoesFirst s c.hold n r) → s.retryCell id = s))
  ∧ (∀ (s : State) (id : CellId), s.findCell id = none → s.retryCell id = s)
  ∧ (∀ s : State,
    (∀ n r, GoesFirst s s.pkg.hold n r → s.retryPkg = s.updPkg fun p => { p with
      errs := updAt p.errs r.die (fun b => { b with reps := b.reps ++ [r] }), hold := dropAt p.hold n })
    ∧ ((∀ n r, ¬ GoesFirst s s.pkg.hold n r) → s.retryPkg = s))
  ∧ (∀ (s : State) (d : Nat) (b : ErrBuf), s.pkg.errs[d]? = some b →
    let held := s.cell.hold ++ s.parked.flatMap (·.hold) ++ s.pkg.hold
    s.noteHeld.pkg.errs[d]? = some { b with held := held.any (·.die = d) })

/-- R357 to R375: reports, Chard, spares, retraining, heat, the power cap and static energy. -/
def Obligations.ModuleEventResult : Prop :=
  (∀ (s : State) (die n : Nat) (r : Report), s.nextDeliverable die = some n →
    (s.pkg.errs.getD die ⟨[], 0, false⟩).reps[n]? = some r →
    exec (.errorReportDelivery die) s =
      .next ((s.writeReport r).updPkg fun p => { p with errs := updAt p.errs die fun b => { b with reps := dropAt b.reps n } })
    ∧ s.eqFull (s.eqOf r.ctx) = false)
  ∧ HeldRetry
  ∧ (∀ (s : State) (n : Nat) (fails : Bool) (d : Detection), s.pkg.repair.waiting[n]? = some d →
    let u := ((s.updPkg fun p => { p with repair := { p.repair with
      waiting := dropAt p.repair.waiting n, counts := p.repair.counts ++ [(d.row, p.time.t3)] } }).march d).wakeMs
    (s.mayTest d = false → exec (.chardTest n fails) s = .next s)
    ∧ (s.mayTest d = true → u.lasting d fails = false → exec (.chardTest n fails) s = .next (u.chardReport 1))
    ∧ (s.mayTest d = true → u.lasting d fails = true → exec (.chardTest n fails) s = .next (u.repairFault d)))
  ∧ (∀ (s : State) (die num : Nat), s.pkg.repair.replace.contains ⟨die, num⟩ = true →
    (∀ p, s.cellPart ⟨die, num⟩ = some p → s.allStopped p = true) →
    s.pkg.repair.spareCells.getD die 0 ≠ 0 →
    ∃ t, exec (.cellSpare die num) s = .next t ∧ t.pkg.repair.spareCells = updAt s.pkg.repair.spareCells die (fun n => n - 1)
      ∧ t.pkg.repair.replace = s.pkg.repair.replace.filter (· ≠ ⟨die, num⟩)
      ∧ (s.cell.id = ⟨die, num⟩ → t.cell.tiles = (Cell.init ⟨die, num⟩).tiles))
  ∧ (∀ (s : State) (die col : Nat), col < Config.cellsOf die → s.busDue (busNo die col) = true →
    ∃ t, exec (.busRetrain die col) s = .next t ∧ t.cell = s.cell ∧ t.parked = s.parked ∧ t.mem = s.mem
      ∧ (busNo die col, s.pkg.time.t3) ∈ t.pkg.repair.retrained)
  ∧ (∀ s : State, exec .heatTokenRefill s =
      .next (s.updHeat fun h => (h.1, { h.2 with t := max h.2.t (min (h.2.t + h.2.rf) h.2.capt) })))
  ∧ (∀ (s : State) (rates : List (Nat × Nat)) (n : Nat) (h : CellId × HeatCol) (r : Nat × Nat), s.pkg.heat[n]? = some h →
    rates[n]? = some r → ∃ t, exec (.heatRateUpdate rates) s = .next t ∧ t.pkg.heat[n]? = some (h.1, { h.2 with rf := r.1, capt := r.2 })
      ∧ t.cell = s.cell ∧ t.mem = s.mem)
  ∧ (∀ (s : State) (n : Nat) (h : CellId × HeatCol), s.pkg.heat[n]? = some h →
    ∃ t, exec (.heatResume n) s = .next t ∧ t.cell = s.cell ∧ t.mem = s.mem
      ∧ t.pkg.heat[n]? = some (if (h.2.capt : Int) ≤ 8 * h.2.t then (h.1, { h.2 with paused := false }) else h))
  ∧ (∀ (s : State) (c : Nat) (x : CtxSt), s.pkg.ctxs[c]? = some x →
    ∃ t, exec .heatWindowEnd s = .next t ∧ t.pkg.ctxs[c]? = some (x.heatAccount s.pkg.heat c)
      ∧ (x.heatAccount s.pkg.heat c).spent.toNat =
        min (2 ^ 64 - 1) (x.spent.toNat + (s.pkg.heat.map fun h => spentBy s.pkg.heat h.1 c).sum)
      ∧ (x.heatAccount s.pkg.heat c).charged =
        x.charged + BitVec.ofNat 64 (s.pkg.heat.map fun h => pauseShare s.pkg.heat h.1 h.2.pauseCycles c).sum
      ∧ t.cell = s.cell ∧ t.mem = s.mem
      ∧ ∀ h ∈ t.pkg.heat, h.2.spent = [] ∧ h.2.pauseCycles = 0 ∧ h.2.pausedFor = [])
  ∧ (∀ (s : State) (w : Nat),
    (s.pkg.power.capw.toNat < w → (∀ t0, s.pkg.power.lastApply = some t0 → t0 + 3000000 ≤ s.pkg.time.t3) →
      exec (.powerCapEvaluation w) s = .next s.shedNext)
    ∧ (∀ i, s.pkg.power.nextEntry (List.range 32) = some i →
      s.shedNext.pkg.power.applied = s.pkg.power.applied ++ [i] ∧ s.shedNext.pkg.power.lastApply = some s.pkg.time.t3
        ∧ ((s.pkg.power.order.getD i Shed.init).step ≠ 2 → s.shedNext.cell = s.cell ∧ s.shedNext.mem = s.mem))
    ∧ (s.pkg.power.nextEntry (List.range 32) = none → s.shedNext.pkg.power.allPaused = true)
    ∧ (s.pkg.power.below = none → s.withdraw.pkg.power = { s.pkg.power with below := some s.pkg.time.t3 })
    ∧ (∀ t i, s.pkg.power.below = some t → t + 30000000 ≤ s.pkg.time.t3 → s.pkg.power.allPaused = false →
      s.pkg.power.lastMild = some i → s.withdraw.pkg.power =
        { s.pkg.power with applied := s.pkg.power.applied.filter (· ≠ i), below := some s.pkg.time.t3 })
    ∧ (100 * w < 95 * s.pkg.power.capw.toNat → exec (.powerCapEvaluation w) s = .next s.withdraw)
    ∧ (w ≤ s.pkg.power.capw.toNat → 95 * s.pkg.power.capw.toNat ≤ 100 * w →
      exec (.powerCapEvaluation w) s = .next (s.updPower fun p => { p with below := none })))
  ∧ (∀ s : State, ((s.pkg.time.set = false ∨ s.pkg.time.t3 / 1500 ≤ s.pkg.time.statics) → exec .staticEnergyCharge s = .next s)
    ∧ (s.pkg.time.set = true → s.pkg.time.statics < s.pkg.time.t3 / 1500 → exec .staticEnergyCharge s =
      .next (((List.range 16).foldl (fun s i => s.staticCharge (1500 * (s.pkg.time.statics + 1)) i) s).updPkg fun p => { p with time := { p.time with statics := p.time.statics + 1 } })))
  ∧ (∀ (s : State) (p c : Nat), (s.part p).en = true → (s.part p).ctx = some c →
    ∀ at_, s.staticCharge at_ p = s.updCtx c fun x => x.charge at_
      (s.weight 12 * ((s.part p).cells.countP fun x => Config.isPDie x.die)
        + s.weight 13 * ((s.part p).cells.length - (s.part p).cells.countP fun x => Config.isPDie x.die)))
  ∧ (∀ (s : State) (p at_ k : Nat), p < s.pkg.parts.length → (s.part p).en = true → (s.part p).ctx = none → (s.part p).owed = some k →
    ((s.staticCharge at_ p).part p).owed = some (k + 1) ∧ (s.staticCharge at_ p).pkg.ctxs = s.pkg.ctxs)

/-- R322, R359, R361, R365, R366, R373, R374, R381, R384: what each register of the management interface reads after a write of `v`: its
fields take it, reserved bits stay zero, and fields that stand while EN = 1 stay. The dwords that act are the events of their own rows. -/
def Sys2Proof.Claims.MgmtRegisters : Prop :=
  ∀ (s : State) (v : Word), s.pkg.boot.phase = .running →
    let reads := fun (o : Nat) (r : Word) =>
      ∃ t, exec (.registerWrite .mgmt o v) s = .next t ∧ t.cell = s.cell ∧ t.mem = s.mem ∧ t.pkg.mgmtRead o = r
    (∀ i, i < 16 → i < s.pkg.parts.length → exec (.registerWrite .mgmt (64 * i) v) s = exec (.partitionEnable i v) s
      ∧ ((s.part i).en = false → v.getLsbD 63 = false → reads (64 * i) (v &&& 0x3FFF03FFFFFF))
      ∧ ∀ d, 1 ≤ d → d ≤ 4 →
        reads (64 * i + 8 * d) (if (s.part i).en then (s.part i).dword d else if d = 2 then v &&& 0xFFFFFF else v))
    ∧ (s.pkg.mgmt.evict.length = 4 →
      reads 0x400 (v &&& 0x10FFF) ∧ reads 0x408 v ∧ reads 0x410 (v &&& 0xFFFFFFFFFFFF)
      ∧ (let e := s.pkg.mgmt.evict
        exec (.registerWrite .mgmt 0x418 v) s = exec (.evictionRequest (e.getD 0 0) (e.getD 1 0) (e.getD 2 0) v) s))
    ∧ reads 0x440 v ∧ reads 0x480 v ∧ reads 0x488 v ∧ reads 0x490 (v &&& 0x1F) ∧ reads 0x500 v
    ∧ (∀ k, k < 4 → ∃ t, exec (.registerWrite .mgmt (0x600 + 8 * k) v) s = .next t ∧ t.cell = s.cell ∧ t.mem = s.mem ∧
      ∀ c, c < s.pkg.mgmt.weights.length → t.pkg.mgmt.weights[c]? =
        if 4 * k ≤ c ∧ c < 4 * k + 4 ∧ c < 14 then some (v.extractLsb' (16 * (c - 4 * k)) 16) else s.pkg.mgmt.weights[c]?)
    ∧ (∀ d, d < 7 → d < s.pkg.errs.length →
      reads (0x700 + 8 * d) (s.pkg.mgmtRead (0x700 + 8 * d) &&& ~~~ (v &&& 0xFFFFFFFF00000000)))
    ∧ (∀ k l, k < 16 → s.pkg.mgmt.backing[k]? = some l → l.length = 4 →
      reads (0x900 + 32 * k) v ∧ reads (0x908 + 32 * k) (v &&& 0x70FFFFFFFFF) ∧ reads (0x910 + 32 * k) (v &&& 0xFFFFFFFF)
        ∧ reads (0x918 + 32 * k) 0)
    ∧ (s.pkg.mgmt.mailbox.length = 8 → (∀ k, k < 7 → reads (0xC40 + 8 * k) v)
      ∧ exec (.registerWrite .mgmt 0xC78 v) s = exec (.mailboxWrite v) s)
    ∧ (∀ e, e < 32 → e < s.pkg.power.order.length →
      reads (0x1000 + 32 * e) (v &&& 0xFFFFFFFFFE000000) ∧ reads (0x1008 + 32 * e) (v &&& 0xFFFFFFFFFFFF) ∧ reads (0x1010 + 32 * e) v)
    ∧ (∀ w x d, w < 64 → s.pkg.windows[w]? = some x → d < 8 → d < x.d.length →
      let old := x.d.getD d 0
      reads (0x4000 + 64 * w + 8 * d) (
        if d = 0 then (if x.en = true then (if v.getLsbD 63 = true then old else old &&& 0x7FFFFFFFFFFFFFFF) else v &&& 0x800F00FF0000FFFF)
        else if x.en = true ∨ 4 < d then old else if d = 1 then v &&& 0xFFFFFFFEFFFFFFFF
        else if d = 4 then v &&& 0x800007000001FFFF else v))
    ∧ (∀ o, o < 0x2000 → ∃ t, exec (.registerWrite .mgmt (0x10000 + 8 * o) v) s = .next t ∧ t.cell = s.cell ∧ t.mem = s.mem ∧ ∀ i, i < 8 →
      let at_ := fun (u : State) => ((u.pkg.mgmt.slots.find? (·.1 = 8 * o + i)).map (·.2)).getD 0
      let b : Byte := v.extractLsb' (8 * i) 8 &&& 0x1F
      at_ t = if b.getLsbD 4 = true ∧ (s.part (b.toNat % 16)).en = true then at_ s else b)
    ∧ exec (.registerWrite .mgmt 0x420 v) s = .next s ∧ exec (.registerWrite .mgmt 0xC00 v) s = .next s

/-- R302, R329, R367, R380: the same for the registers of a virtual function: its configuration and its queues take a write only while the
context is not admitted. -/
def Sys2Proof.Claims.VfRegisters : Prop :=
  ∀ (s : State) (c : Nat) (v : Word), c < 192 → c < s.pkg.ctxs.length → s.pkg.boot.phase = .running →
    let x := s.ctx c
    let write := fun (o : Nat) => exec (.registerWrite (.vf c) o v) s
    let reads := fun (o : Nat) (r : Word) => ∃ t, write o = .next t ∧ t.cell = s.cell ∧ t.mem = s.mem ∧ (t.ctx c).read o = r
    write 0 = exec (.contextAdmit c v) s
    ∧ (x.en = false →
      (v.getLsbD 63 = false → reads 0 (v &&& 0x7FFFE00000000000))
      ∧ reads 0x08 (v &&& 0x800007000001FFFF) ∧ reads 0x10 v ∧ reads 0x18 v ∧ reads 0x20 (v &&& 0x1F) ∧ reads 0x28 v
      ∧ ∀ q, q < 4 → q < x.cqs.length → reads (0x40 + 32 * q) v ∧ reads (0x48 + 32 * q) (v &&& 0x1F))
    ∧ (x.en = true → (∀ d, 1 ≤ d → d ≤ 5 → reads (8 * d) (x.read (8 * d)))
      ∧ ∀ q, q < 4 → write (0x40 + 32 * q) = .next s ∧ write (0x48 + 32 * q) = .next s)
    ∧ (∀ q : BitVec 2, write (0x50 + 32 * q.toNat) = exec (.cqtail c q (v.extractLsb' 0 32)) s ∧ write (0x58 + 32 * q.toNat) = .next s)
    ∧ (x.strBusy = true → write 0xC0 = .next s)
    ∧ (x.strBusy = false →
      let n := (v.extractLsb' 0 24).toNat
      let k := (v.extractLsb' 60 4).toNat
      (k = 1 → write 0xC0 = exec (.streamCreate c n) s) ∧ (k = 2 → write 0xC0 = exec (.streamPark c n) s)
      ∧ (k = 3 → write 0xC0 = exec (.streamResume c n) s) ∧ (k = 4 → write 0xC0 = exec (.streamCancel c n) s)
      ∧ (k ≠ 1 → k ≠ 2 → k ≠ 3 → k ≠ 4 → write 0xC0 = .next (s.answer c 1)))
    ∧ write 0x120 = (if v.getLsbD 0 = true then exec (.preempt c) s else .next s)
    ∧ write 0x128 = (if v.getLsbD 0 = true then exec (.preset c) s else .next s)
    ∧ write 0xC8 = .next s ∧ write 0x100 = .next s ∧ write 0x108 = .next s ∧ write 0x110 = .next s

/-- R375, R386: what comes with a word that has arrived: its charges, and with the last word of a page of the tensor store the block that the
page may be: an unsent block of a stream of the context that runs here and whose DDIE the page is on (which one, if any: log 39), which is
then sent and to be committed like any other. -/
def Sys2Proof.Claims.ArrivingBlocks : Prop :=
  (∀ (s : State) (c : Nat) (p : Place), let t := s.chargeArrival c p
    t.mem = s.mem ∧ t.cell = s.cell ∧ t.parked = s.parked ∧ t.agenda = s.agenda ∧ t.pkg.streams = s.pkg.streams)
  ∧ (∀ (s : State) (c : Nat) (p : Place),
    let u := { s with free := s.free + 1 }
    ((s.arrivals c p)[Config.freeNat s.free]? = none → s.blockArrives c p = u)
    ∧ ∀ n b, (s.arrivals c p)[Config.freeNat s.free]? = some (n, b) →
      s.blockArrives c p = (u.updStream n fun y => { y with
        regs := y.regs ++ [⟨b, p.die, p.addr / 65536, p.key, p.die, p.addr / 65536, p.key, false, 1, 1, 1, 0, 0, 0⟩]
        sent := y.sent ++ [b] })
      ∧ ∃ x ∈ s.pkg.streams, x.n = n ∧ x.held = true ∧ (x.state = .prefill ∨ x.state = .handoff ∨ x.state = .decode) ∧ x.ctx = c
        ∧ x.ddie = p.die ∧ b < x.blocks ∧ x.own[b]? = some (BitVec.ofNat 8 x.pdie) ∧ x.regOf b = none)

/-- R291, R292, R365 to R367, R376 to R393: the registers of the host and the MS, keys, the MS, clusters, the fabric, time and start-up.
Register values that reset restores and the spec does not give are the model's (logs 5, 24). A remote write performs at once at every scope
(log 29); under a key its frame is not bound to its block is encrypted anew (log 48); a synchronisation is log 47's. -/
def Obligations.HostEventResult : Prop :=
  (∀ (s : State) (i : Nat) (d0 : Word), i < 16 → s.pkg.boot.phase = .running →
    ((s.part i).en = false → d0.getLsbD 63 = false → exec (.partitionEnable i d0) s = .next (s.updPart i fun p => p.set0 d0))
    ∧ ((s.part i).en = false → d0.getLsbD 63 = true → s.mayEnable i ((s.part i).set0 d0) = false →
      exec (.partitionEnable i d0) s = .next s)
    ∧ (i < s.pkg.parts.length → (s.part i).en = false → d0.getLsbD 63 = true → s.mayEnable i ((s.part i).set0 d0) = true →
      ∃ t, exec (.partitionEnable i d0) s = .next t ∧ (t.part i).en = true ∧ (t.part i).ctx = none ∧ t.cell = s.cell ∧ t.mem = s.mem)
    ∧ ((s.part i).en = true → d0.getLsbD 63 = true → exec (.partitionEnable i d0) s = .next s)
    ∧ ((s.part i).en = true → ∀ c, c < 192 → (s.ctx c).part.toNat = i → s.ctxVacant c = false →
      exec (.partitionEnable i d0) s = .next s)
    ∧ (i < s.pkg.parts.length → (s.part i).en = true → d0.getLsbD 63 = false →
      (∀ c, c < 192 → (s.ctx c).part.toNat = i → s.ctxVacant c = true) →
      ∃ t, exec (.partitionEnable i d0) s = .next t ∧ t = s.settleStatics.updPart i (fun p => { p with en := false, ctx := none })
        ∧ (t.part i).en = false ∧ (t.part i).ctx = none ∧ t.cell = s.cell ∧ t.parked = s.parked ∧ t.mem = s.mem))
  ∧ (∀ (s : State) (c : Nat), s.ctxVacant c = true ↔
    ((∀ l ∈ s.pkg.launches, l.ctx ≠ c) ∨ (s.isRunning c = false ∧ ∀ l ∈ s.pkg.launches, l.ctx = c → l.saved = true))
    ∧ (∀ x ∈ s.cell :: s.parked, ¬ (x.recd.isSome = true ∧ x.asCtx = some c)) ∧ s.swapsOpen c = false
    ∧ (∀ w ∈ s.mem.writes, w.cell ∉ s.ctxCells c) ∧ s.ctxDirty c = false)
  ∧ (∀ (s : State) (c : Nat) (d0 : Word), c < 192 → s.pkg.boot.phase = .running →
    ((s.ctx c).en = false → d0.getLsbD 63 = true → s.mayAdmit ((s.ctx c).set0 d0) = true →
      exec (.contextAdmit c d0) s = .next (s.updCtx c fun x => { x.set0 d0 with en := true, vacating := false }))
    ∧ ((s.ctx c).en = true → d0.getLsbD 63 = false → exec (.contextAdmit c d0) s = .next (s.updCtx c fun x => { x with en := false }))
    ∧ ((s.ctx c).en = false → d0.getLsbD 63 = true → s.mayAdmit ((s.ctx c).set0 d0) = false → exec (.contextAdmit c d0) s = .next s))
  ∧ (∀ (s : State) (v : Word), s.pkg.boot.phase = .running →
    exec (.registerWrite .mgmt 0x500 v) s = .next (s.updPower fun p => { p with capw := v })
    ∧ exec (.registerWrite .mgmt 0x440 v) s = .next (s.updMgmt fun m => { m with stab := v })
    ∧ (∀ c, c < 192 → exec (.registerWrite (.vf c) 8 v) s = .next (s.updCtx c fun x => x.setCfg 1 v)))
  ∧ MgmtRegisters ∧ VfRegisters
  ∧ (∀ (s : State) (k : Nat) (a b : BitVec 256), s.pkg.mgmt.session = true → s.pkg.boot.phase = .running →
    (k < 512 → s.keyFilled k = false → ∃ t, exec (.keySlotFill k a b) s = .next t ∧ t.keyFilled k = true ∧ t.cell = s.cell ∧ t.mem = s.mem
        ∧ t.pkg.mgmt.keyDone = some true)
    ∧ (s.keyFilled k = true → ∃ t, exec (.keySlotFill k a b) s = .next t ∧ t.pkg.keys = s.pkg.keys ∧ t.pkg.mgmt.keyDone = some false)
    ∧ (s.keyFilled k = true → ∃ t, exec (.keySlotEmpty k) s = .next t ∧ t.keyFilled k = false
        ∧ ((∀ x ∈ s.mem.alien, x.2 ≠ k) → t.mem.mem = s.mem.mem) ∧ (∀ x ∈ t.mem.binds, x.key ≠ k) ∧ t.pkg.mgmt.keyDone = some true))
  ∧ (∀ (s : State) (k : Nat) (a b : BitVec 256), (s.pkg.mgmt.session = false ∨ s.pkg.boot.phase ≠ .running) →
    exec (.keySlotFill k a b) s = .next s ∧ exec (.keySlotEmpty k) s = .next s)
  ∧ (∀ s : State, exec .getMeasurements s =
      .next (s.updPkg fun p => { p with boot := { p.boot with signed := Config.identitySign p.boot.measures } }))
  ∧ (∀ (s : State) (v : Word), s.pkg.boot.phase ≠ .recovery →
    exec (.mailboxWrite v) s = .next ((s.updMgmt fun m => { m with mailbox := updAt m.mailbox 7 fun _ => v }).wakeMs))
  ∧ (∀ (s : State) (ev : WakeEvent), s.cell.id = ⟨6, 0⟩ → s.cell.as.run = .halted →
    ∃ t, exec (.msWake ev) s = .next t ∧ t.cell = { s.cell with as := { s.cell.as with run := .running } } ∧ t.mem = s.mem)
  ∧ (∀ (s : State) (die k : Nat),
    ((clusterCells die k).any (fun c => (s.cellPart c).isSome) = false → s.clusterClean (clusterCells die k) = true →
      exec (.clusterGate die k) s = .next ((s.emptyL1 (clusterCells die k)).updCluster (clusterCells die k) fun c => { c with gated := true }))
    ∧ ((clusterCells die k).any (fun c => (s.cellPart c).isSome) = true → exec (.clusterGate die k) s = .next s)
    ∧ ((∀ c ∈ clusterCells die k, ∀ x, s.findCell c = some x → x.recd = none) → s.clusterClean (clusterCells die k) = true →
      exec (.fusionChange die k) s = .next ((s.emptyL1 (clusterCells die k)).updCluster (clusterCells die k) fun c =>
        { c with fused := !c.fused }))
    ∧ (s.cell.gated = true → s.cell.id ∈ clusterCells die k →
      ∃ t, exec (.clusterUngate die k) s = .next t ∧ t.cell.gated = false ∧ t.cell.tiles = (Cell.init s.cell.id).tiles))
  ∧ (∀ (s u : State) (w : Nat) (x : Window) (src : BitVec 16) (off : Nat) (v : Word × Bool), s.pkg.windows[w]? = some x →
    (x.en = false → exec (.remoteWrite w src off v) s = .next s)
    ∧ (x.en = true → x.src ≠ 0 → x.src ≠ src → exec (.remoteWrite w src off v) s = .next s)
    ∧ (∀ p, x.en = true → (x.src = 0 ∨ x.src = src) → s.windowPlace w x off = (u, some p) →
      let y := (u.devPut p v.1 v.2).chargeArrival x.ctx p
      exec (.remoteWrite w src off v) s = .next (if p.loc = 2 ∧ p.addr % 65536 = 65528 then y.blockArrives x.ctx p else y)
      ∧ (u.mem.keyFits p = true → u.devPut p v.1 v.2 = u.updMem fun m => m.putNow p.wkey v.1 0xFF v.2)
      ∧ (u.mem.keyFits p = false → u.devPut p v.1 v.2 = u.putAlien p v.1 0xFF v.2))
    ∧ (x.en = true → (x.src = 0 ∨ x.src = src) → s.windowPlace w x off = (u, none) → exec (.remoteWrite w src off v) s = .next u))
  ∧ ArrivingBlocks
  ∧ (∀ (s : State) (m : BitVec 16), ∃ t, exec (.portRetirement (.module m)) s = .next t ∧ t.reachable m = false ∧ t.mem = s.mem
      ∧ (∀ (n : Nat) (h : Hdr) (p : PRcopy) (c : Cmd), (s.cell.hub.cmds)[n]? = some c → c.i = .rcopy h p → c.phase = .run → p.modno = m →
          (t.cell.hub.cmds)[n]? = some { c with phase := .release 0x1F c.unit, owes := false }))
  ∧ (∀ (s : State) (n : Nat), ∃ t, exec (.portRetirement (.port n)) s = .next t ∧ t.mem = s.mem
      ∧ t.pkg.portsUp = updAt s.pkg.portsUp n (fun _ => false)
      ∧ (∀ (k : Nat) (h : Hdr) (p : PRcopy) (c : Cmd), (s.cell.hub.cmds)[k]? = some c → c.i = .rcopy h p → c.phase = .run →
          t.reachable p.modno = false → (t.cell.hub.cmds)[k]? = some { c with phase := .release 0x1F c.unit, owes := false }))
  ∧ (∀ (s : State) (ns : Nat) (off : BitVec 32),
    (s.pkg.time.set = false → ∃ t, exec (.ptpSync ns off) s = .next t ∧ t.timeNs = ns ∧ t.pkg.time.set = true ∧ t.pkg.time.offset = 0
      ∧ t.core = s.core ∧ t.mem.mem = s.mem.mem)
    ∧ (s.pkg.time.set = true → s.ptpFits ns off = true → ∃ t, exec (.ptpSync ns off) s = .next t ∧ t.timeNs = s.timeNs
      ∧ t.pkg.time.offset = off ∧ t.cell = s.cell ∧ t.mem = s.mem
      ∧ t.pkg.time.good = if -10 ≤ s.ptpOffset ns ∧ s.ptpOffset ns ≤ 10 then s.pkg.time.good + 1 else 0))
  ∧ (∀ s : State, s.pkg.time.set = false → s.pkg.boot.phase = .running → s.pkg.boot.msStart + 6000000000 ≤ s.pkg.time.clk →
    ∃ t, exec .standaloneTimeTimeout s = .next t ∧ t.timeNs = 0 ∧ t.pkg.time.set = true ∧ t.core = s.core ∧ t.mem.mem = s.mem.mem)
  ∧ (∀ s : State, ∃ t, exec .moduleReset s = .next t
      ∧ (if s.pkg.boot.flash.verifies = true then
          t.pkg.boot.phase = .running ∧ (∀ p ∈ t.pkg.parts, p.en = false) ∧ (∀ c ∈ t.pkg.ctxs, c.en = false) ∧ t.pkg.keys = []
            ∧ t.mem.binds = [] ∧ t.pkg.launches = [] ∧ t.pkg.repair = s.pkg.repair ∧ (s.pkg.time.set = true → t.pkg.time = s.pkg.time)
            ∧ (s.cell.id ≠ ⟨6, 0⟩ → { t.cell with hold := [] } = Cell.init s.cell.id)
        else t.pkg.boot.phase = .recovery))
  ∧ (∀ s : State, ∃ t, exec .powerOn s = .next t ∧ t.pkg.keys = [] ∧ t.mem.binds = [] ∧ t.pkg.time.locked = false
      ∧ (s.pkg.boot.flash.standalone = false → t.pkg.time.set = false))
end

