-- ==== Sys2Proof/Laws/Memory.lean ====
section
/-! SUPPORT. Laws of the byte memory: read after write, and the canonical form every operation keeps. -/

namespace Sys2Proof.Machine

/-! ## The canonical form -/

theorem memWfFrom_mono {lo hi : Nat} (h : lo ≤ hi) : ∀ {m : List Host.Cell}, memWfFrom hi m = true → memWfFrom lo m = true
  | [], _ => rfl
  | (a, b) :: r, w => by
    simp only [memWfFrom, Bool.and_eq_true, decide_eq_true_eq] at w ⊢
    exact ⟨⟨by omega, w.1.2⟩, w.2⟩

/-- Writing one byte keeps the canonical form. -/
theorem memSet_wfFrom (k : Nat) (b : Byte) : ∀ {lo : Nat} {m : List Host.Cell}, lo ≤ k → memWfFrom lo m = true →
    memWfFrom lo (memSet m k b) = true
  | lo, [], hk, _ => by
    unfold memSet
    by_cases hb : b = 0
    · rw [if_pos hb]; rfl
    · rw [if_neg hb]
      simp only [memWfFrom, Bool.and_eq_true, decide_eq_true_eq]
      exact ⟨⟨hk, hb⟩, trivial⟩
  | lo, (a, x) :: r, hk, w => by
    simp only [memWfFrom, Bool.and_eq_true, decide_eq_true_eq] at w
    obtain ⟨⟨ha, hx⟩, hr⟩ := w
    unfold memSet
    split
    · by_cases hb : b = 0
      · rw [if_pos hb]
        simp only [memWfFrom, Bool.and_eq_true, decide_eq_true_eq]
        exact ⟨⟨ha, hx⟩, hr⟩
      · have : memWfFrom (k + 1) ((a, x) :: r) = true := by
          simp only [memWfFrom, Bool.and_eq_true, decide_eq_true_eq]; exact ⟨⟨by omega, hx⟩, hr⟩
        rw [if_neg hb, memWfFrom]
        simp only [Bool.and_eq_true, decide_eq_true_eq]
        exact ⟨⟨hk, hb⟩, this⟩
    · split
      · next h1 h2 =>
        subst h2
        by_cases hb : b = 0
        · rw [if_pos hb]; exact memWfFrom_mono (by omega) hr
        · rw [if_neg hb, memWfFrom]
          simp only [Bool.and_eq_true, decide_eq_true_eq]
          exact ⟨⟨hk, hb⟩, hr⟩
      · next h1 h2 =>
        have := memSet_wfFrom k b (lo := a + 1) (m := r) (by omega) hr
        simp only [memWfFrom, Bool.and_eq_true, decide_eq_true_eq]
        exact ⟨⟨ha, hx⟩, this⟩

theorem memSet_wf {m : List Host.Cell} (k : Nat) (b : Byte) (h : memWf m = true) : memWf (memSet m k b) = true :=
  memSet_wfFrom k b (Nat.zero_le k) h

/-- Bytes of a word, one after another. -/
theorem foldl_memSet_wf (k : Nat) (v : Word) (mask : BitVec 8) : ∀ (l : List Nat) {m : List Host.Cell}, memWf m = true →
    memWf (l.foldl (fun m i => if mask.getLsbD i then memSet m (k + i) (v.extractLsb' (8 * i) 8) else m) m) = true
  | [], _, h => h
  | i :: r, m, h => by
    rw [List.foldl_cons]
    refine foldl_memSet_wf k v mask r ?_
    split
    · exact memSet_wf _ _ h
    · exact h

theorem memPut_wf {m : List Host.Cell} (k : Nat) (v : Word) (mask : BitVec 8) (h : memWf m = true) :
    memWf (memPut m k v mask) = true := foldl_memSet_wf k v mask _ h

/-- Dropping entries keeps the canonical form. -/
theorem filter_wfFrom (f : Host.Cell → Bool) : ∀ {lo : Nat} {m : List Host.Cell}, memWfFrom lo m = true →
    memWfFrom lo (m.filter f) = true
  | _, [], _ => rfl
  | lo, (a, b) :: r, w => by
    simp only [memWfFrom, Bool.and_eq_true, decide_eq_true_eq] at w
    have := filter_wfFrom f (lo := a + 1) (m := r) w.2
    rw [List.filter_cons]
    split
    · simp only [memWfFrom, Bool.and_eq_true, decide_eq_true_eq]; exact ⟨w.1, this⟩
    · exact memWfFrom_mono (by omega) this

theorem filter_wf (f : Host.Cell → Bool) {m : List Host.Cell} (h : memWf m = true) : memWf (m.filter f) = true :=
  filter_wfFrom f h

/-! ## Reading after writing -/

/-- What lies below the keys listed reads as an unlisted key. -/
theorem memGet_below {k : Nat} : ∀ {lo : Nat} {m : List Host.Cell}, memWfFrom lo m = true → k < lo → memGet m k = 0
  | _, [], _, _ => rfl
  | lo, (a, b) :: r, w, hk => by
    simp only [memWfFrom, Bool.and_eq_true, decide_eq_true_eq] at w
    unfold memGet
    rw [if_neg (by omega)]
    exact memGet_below (lo := a + 1) w.2 (by omega)

theorem memGet_memSet_from (k j : Nat) (b : Byte) : ∀ {lo : Nat} {m : List Host.Cell}, memWfFrom lo m = true →
    memGet (memSet m k b) j = if j = k then b else memGet m j
  | lo, [], _ => by
    unfold memSet
    by_cases hb : b = 0
    · rw [if_pos hb]
      split
      · next h => rw [hb]; rfl
      · rfl
    · rw [if_neg hb]
      by_cases h : j = k
      · rw [if_pos h]; exact if_pos h.symm
      · rw [if_neg h]; exact if_neg (Ne.symm h)
  | lo, (a, x) :: r, w => by
    simp only [memWfFrom, Bool.and_eq_true, decide_eq_true_eq] at w
    obtain ⟨⟨ha, hx⟩, hr⟩ := w
    unfold memSet
    split
    · next h1 =>
      by_cases hj : j = k
      · subst hj
        have hz : memGet ((a, x) :: r) j = 0 := by
          unfold memGet; rw [if_neg (by omega)]; exact memGet_below hr (by omega)
        by_cases hb : b = 0
        · rw [if_pos hb, if_pos rfl, hz, hb]
        · rw [if_neg hb, if_pos rfl, memGet, if_pos rfl]
      · by_cases hb : b = 0
        · rw [if_pos hb, if_neg hj]
        · rw [if_neg hb, if_neg hj, memGet, if_neg (Ne.symm hj)]
    · split
      · next h1 h2 =>
        subst h2
        by_cases hj : j = k
        · subst hj
          by_cases hb : b = 0
          · rw [if_pos hb, if_pos rfl, hb]; exact memGet_below hr (by omega)
          · rw [if_neg hb, if_pos rfl, memGet, if_pos rfl]
        · by_cases hb : b = 0
          · rw [if_pos hb, if_neg hj]; exact (if_neg (Ne.symm hj)).symm
          · rw [if_neg hb, if_neg hj, memGet, if_neg (Ne.symm hj)]; exact (if_neg (Ne.symm hj)).symm
      · next h1 h2 =>
        have ih := memGet_memSet_from k j b (lo := a + 1) (m := r) hr
        unfold memGet
        by_cases hj : a = j
        · subst hj; simp [show ¬ a = k by omega]
        · simp only [hj, if_false]; exact ih

/-- A byte read after a byte is written. -/
theorem memGet_memSet {m : List Host.Cell} (h : memWf m = true) (k j : Nat) (b : Byte) :
    memGet (memSet m k b) j = if j = k then b else memGet m j := memGet_memSet_from k j b h

/-- What a fold of byte writes leaves at a key none of them writes. -/
theorem memGet_foldl_other (k : Nat) (v : Word) (mask : BitVec 8) (j : Nat) : ∀ (l : List Nat) {m : List Host.Cell},
    memWf m = true → (∀ i ∈ l, j ≠ k + i) →
    memGet (l.foldl (fun m i => if mask.getLsbD i then memSet m (k + i) (v.extractLsb' (8 * i) 8) else m) m) j = memGet m j
  | [], _, _, _ => rfl
  | i :: r, m, h, hj => by
    rw [List.foldl_cons, memGet_foldl_other k v mask j r]
    · split
      · rw [memGet_memSet h, if_neg (hj i (by simp))]
      · rfl
    · split
      · exact memSet_wf _ _ h
      · exact h
    · exact fun x hx => hj x (by simp [hx])

/-- Bytes outside the word keep their values. -/
theorem memGet_memPut_other {m : List Host.Cell} (h : memWf m = true) (k j : Nat) (v : Word) (mask : BitVec 8)
    (hj : j < k ∨ k + 8 ≤ j) : memGet (memPut m k v mask) j = memGet m j := by
  refine memGet_foldl_other k v mask j (List.range 8) h fun i hi => ?_
  have := List.mem_range.mp hi
  omega

/-- A byte of the word reads as written where the mask names it. -/
theorem memGet_memPut_same {m : List Host.Cell} (h : memWf m = true) (k i : Nat) (v : Word) (mask : BitVec 8) (hi : i < 8) :
    memGet (memPut m k v mask) (k + i) = if mask.getLsbD i then v.extractLsb' (8 * i) 8 else memGet m (k + i) := by
  have key : ∀ (l : List Nat) (m : List Host.Cell), memWf m = true → l.Nodup → i ∈ l →
      memGet (l.foldl (fun m i => if mask.getLsbD i then memSet m (k + i) (v.extractLsb' (8 * i) 8) else m) m) (k + i)
        = if mask.getLsbD i then v.extractLsb' (8 * i) 8 else memGet m (k + i) := by
    intro l
    induction l with
    | nil => intro m _ _ hm; exact absurd hm (by simp)
    | cons x r ih =>
      intro m hw hn hm
      rw [List.foldl_cons]
      have hx := List.nodup_cons.mp hn
      have hw' : memWf (if mask.getLsbD x then memSet m (k + x) (v.extractLsb' (8 * x) 8) else m) = true := by
        split
        · exact memSet_wf _ _ hw
        · exact hw
      by_cases hxi : x = i
      · subst hxi
        rw [memGet_foldl_other k v mask (k + x) r hw' (fun j hj h => hx.1 ((show j = x by omega) ▸ hj))]
        split
        · rw [memGet_memSet hw, if_pos rfl]
        · rfl
      · have hm' : i ∈ r := by simpa [Ne.symm hxi] using hm
        rw [ih _ hw' hx.2 hm']
        have : memGet (if mask.getLsbD x then memSet m (k + x) (v.extractLsb' (8 * x) 8) else m) (k + i) = memGet m (k + i) := by
          split
          · rw [memGet_memSet hw, if_neg (by omega)]
          · rfl
        rw [this]
  exact key _ _ h List.nodup_range (List.mem_range.mpr hi)

/-- A word read after it is written whole. -/
theorem memWord_memPut_same {m : List Host.Cell} (h : memWf m = true) (k : Nat) (v : Word) :
    memWord (memPut m k v 0xFF) k = v := by
  have e : ∀ i, i < 8 → memGet (memPut m k v 0xFF) (k + i) = v.extractLsb' (8 * i) 8 := by
    intro i hi
    rw [memGet_memPut_same h k i v 0xFF hi, if_pos]
    interval_cases i <;> rfl
  unfold memWord
  rw [e 7 (by omega), e 6 (by omega), e 5 (by omega), e 4 (by omega), e 3 (by omega), e 2 (by omega), e 1 (by omega)]
  have e0 := e 0 (by omega)
  rw [Nat.add_zero] at e0
  rw [e0]
  ext i hi
  simp only [BitVec.getElem_append, BitVec.getElem_extractLsb']
  repeat' split
  all_goals (rw [← BitVec.getLsbD_eq_getElem]; congr 1; omega)

/-- A word that overlaps none of the bytes written keeps its value. -/
theorem memWord_memPut_other {m : List Host.Cell} (h : memWf m = true) (k j : Nat) (v : Word) (mask : BitVec 8)
    (hj : j + 8 ≤ k ∨ k + 8 ≤ j) : memWord (memPut m k v mask) j = memWord m j := by
  unfold memWord
  rw [memGet_memPut_other h, memGet_memPut_other h, memGet_memPut_other h, memGet_memPut_other h, memGet_memPut_other h,
    memGet_memPut_other h, memGet_memPut_other h, memGet_memPut_other h] <;> omega

/-! ## Operations of memory -/

theorem setPsn_mem (m : MemSt) (k : Nat) (b : Bool) : (m.setPsn k b).mem = m.mem := rfl

theorem putHome_mem (m : MemSt) (k : Nat) (v : Word) (mask : BitVec 8) (p : Bool) :
    (m.putHome k v mask p).mem = memPut m.mem k v mask := rfl

/-- What putNow does: the bytes, the marker, no error left undetected there, and no older value a read may still answer. -/
theorem putNow_mem (m : MemSt) (k : Nat) (v : Word) (mask : BitVec 8) (p : Bool) :
    (m.putNow k v mask p).mem = memPut m.mem k v mask := rfl

theorem putNow_wf (m : MemSt) (k : Nat) (v : Word) (mask : BitVec 8) (p : Bool) (h : memWf m.mem = true) :
    memWf (m.putNow k v mask p).mem = true := memPut_wf k v mask h

/-- R258: a write that becomes final is in memory. -/
theorem finish_mem (m : MemSt) (w : PWrite) : (m.finish w).mem = memPut m.mem w.key w.val w.mask := by
  unfold MemSt.finish; split <;> rfl

theorem finish_wf (m : MemSt) (w : PWrite) (h : memWf m.mem = true) : memWf (m.finish w).mem = true := by
  rw [finish_mem]; exact memPut_wf _ _ _ h

theorem addWrite_mem (m : MemSt) (w : PWrite) : (m.addWrite w).mem = m.mem := rfl

/-- R258, R259: a write to the scratchpad is applied at once; any other joins the writes on their way. -/
theorem write_mem (m : MemSt) (c : CellId) (e f : Bool) (q : Nat) (cls : Cls) (n : Nat) (h : Option Cache) (p : Place) (v : Word)
    (mask : BitVec 8) (t : Bool) :
    (m.write c e f q cls n h p v mask t).mem = if p.loc = 0 then memPut m.mem p.wkey v mask else m.mem := by
  unfold MemSt.write; split <;> rfl

theorem write_wf (m : MemSt) (c : CellId) (e f : Bool) (q : Nat) (cls : Cls) (n : Nat) (x : Option Cache) (p : Place) (v : Word)
    (mask : BitVec 8) (t : Bool) (h : memWf m.mem = true) : memWf (m.write c e f q cls n x p v mask t).mem = true := by
  rw [write_mem]; split
  · exact memPut_wf _ _ _ h
  · exact h

theorem widen_wf (m : MemSt) (n : Nat) (h : memWf m.mem = true) : memWf (m.widen n).mem = true := by
  unfold MemSt.widen
  split
  · exact h
  · split
    · exact h
    · exact finish_wf _ _ h

theorem scrub_wf (m : MemSt) (loc die frame : Nat) (h : memWf m.mem = true) : memWf (m.scrub loc die frame).mem = true :=
  filter_wf _ h

theorem writeAt_wf (m : MemSt) (w : PWrite) (h : memWf m.mem = true) : memWf (m.writeAt w).mem = true := by
  unfold MemSt.writeAt
  split
  · exact finish_wf _ _ h
  · exact h

theorem foldl_putNow_wf (f : Nat → Nat) (g : MemSt → Nat → Word) : ∀ (l : List Nat) (m : MemSt), memWf m.mem = true →
    memWf (l.foldl (fun m i => m.putNow (f i) (g m i) 0xFF false) m).mem = true
  | [], _, h => h
  | i :: r, m, h => by rw [List.foldl_cons]; exact foldl_putNow_wf f g r _ (putNow_wf _ _ _ _ _ h)

theorem refetch_wf (m : MemSt) (line host : Nat) (h : memWf m.mem = true) : memWf (m.refetch line host).mem = true :=
  foldl_putNow_wf _ (fun m i => memWord m.mem (byteKey 3 0 (host + 8 * i))) _ _ h

theorem poisonLine_mem (m : MemSt) (line : Nat) : (m.poisonLine line).mem = m.mem := rfl

end Sys2Proof.Machine
end

