-- ==== Sys2Proof/Laws/State.lean ====
section
/-! SUPPORT. What each update of the state leaves and changes, field by field. -/

namespace Sys2Proof.Machine

/-! ## Updates of one field of the state -/

@[simp] theorem updPkg_cell (s : State) (f : Pkg → Pkg) : (s.updPkg f).cell = s.cell := rfl
@[simp] theorem updPkg_parked (s : State) (f : Pkg → Pkg) : (s.updPkg f).parked = s.parked := rfl
@[simp] theorem updPkg_mem (s : State) (f : Pkg → Pkg) : (s.updPkg f).mem = s.mem := rfl
@[simp] theorem updPkg_pkg (s : State) (f : Pkg → Pkg) : (s.updPkg f).pkg = f s.pkg := rfl
@[simp] theorem updPkg_agenda (s : State) (f : Pkg → Pkg) : (s.updPkg f).agenda = s.agenda := rfl
@[simp] theorem updPkg_rr (s : State) (f : Pkg → Pkg) : (s.updPkg f).rr = s.rr := rfl
@[simp] theorem updPkg_free (s : State) (f : Pkg → Pkg) : (s.updPkg f).free = s.free := rfl
@[simp] theorem updMem_cell (s : State) (f : MemSt → MemSt) : (s.updMem f).cell = s.cell := rfl
@[simp] theorem updMem_parked (s : State) (f : MemSt → MemSt) : (s.updMem f).parked = s.parked := rfl
@[simp] theorem updMem_mem (s : State) (f : MemSt → MemSt) : (s.updMem f).mem = f s.mem := rfl
@[simp] theorem updMem_pkg (s : State) (f : MemSt → MemSt) : (s.updMem f).pkg = s.pkg := rfl
@[simp] theorem updMem_agenda (s : State) (f : MemSt → MemSt) : (s.updMem f).agenda = s.agenda := rfl
@[simp] theorem updMem_rr (s : State) (f : MemSt → MemSt) : (s.updMem f).rr = s.rr := rfl
@[simp] theorem updMem_free (s : State) (f : MemSt → MemSt) : (s.updMem f).free = s.free := rfl
@[simp] theorem updFocus_cell (s : State) (f : Cell → Cell) : (s.updFocus f).cell = f s.cell := rfl
@[simp] theorem updFocus_parked (s : State) (f : Cell → Cell) : (s.updFocus f).parked = s.parked := rfl
@[simp] theorem updFocus_mem (s : State) (f : Cell → Cell) : (s.updFocus f).mem = s.mem := rfl
@[simp] theorem updFocus_pkg (s : State) (f : Cell → Cell) : (s.updFocus f).pkg = s.pkg := rfl
@[simp] theorem updFocus_agenda (s : State) (f : Cell → Cell) : (s.updFocus f).agenda = s.agenda := rfl
@[simp] theorem updFocus_rr (s : State) (f : Cell → Cell) : (s.updFocus f).rr = s.rr := rfl
@[simp] theorem updFocus_free (s : State) (f : Cell → Cell) : (s.updFocus f).free = s.free := rfl
@[simp] theorem updCtx_cell (s : State) (n : Nat) (f : CtxSt → CtxSt) : (s.updCtx n f).cell = s.cell := rfl
@[simp] theorem updCtx_parked (s : State) (n : Nat) (f : CtxSt → CtxSt) : (s.updCtx n f).parked = s.parked := rfl
@[simp] theorem updCtx_mem (s : State) (n : Nat) (f : CtxSt → CtxSt) : (s.updCtx n f).mem = s.mem := rfl
@[simp] theorem updCtx_agenda (s : State) (n : Nat) (f : CtxSt → CtxSt) : (s.updCtx n f).agenda = s.agenda := rfl
@[simp] theorem updCtx_rr (s : State) (n : Nat) (f : CtxSt → CtxSt) : (s.updCtx n f).rr = s.rr := rfl
@[simp] theorem updCtx_free (s : State) (n : Nat) (f : CtxSt → CtxSt) : (s.updCtx n f).free = s.free := rfl
@[simp] theorem updPart_cell (s : State) (n : Nat) (f : PartSt → PartSt) : (s.updPart n f).cell = s.cell := rfl
@[simp] theorem updPart_parked (s : State) (n : Nat) (f : PartSt → PartSt) : (s.updPart n f).parked = s.parked := rfl
@[simp] theorem updPart_mem (s : State) (n : Nat) (f : PartSt → PartSt) : (s.updPart n f).mem = s.mem := rfl
@[simp] theorem updPart_agenda (s : State) (n : Nat) (f : PartSt → PartSt) : (s.updPart n f).agenda = s.agenda := rfl
@[simp] theorem updPart_rr (s : State) (n : Nat) (f : PartSt → PartSt) : (s.updPart n f).rr = s.rr := rfl
@[simp] theorem updPart_free (s : State) (n : Nat) (f : PartSt → PartSt) : (s.updPart n f).free = s.free := rfl
@[simp] theorem updLaunch_cell (s : State) (n : Nat) (f : Launch → Launch) : (s.updLaunch n f).cell = s.cell := rfl
@[simp] theorem updLaunch_parked (s : State) (n : Nat) (f : Launch → Launch) : (s.updLaunch n f).parked = s.parked := rfl
@[simp] theorem updLaunch_mem (s : State) (n : Nat) (f : Launch → Launch) : (s.updLaunch n f).mem = s.mem := rfl
@[simp] theorem updLaunch_agenda (s : State) (n : Nat) (f : Launch → Launch) : (s.updLaunch n f).agenda = s.agenda := rfl
@[simp] theorem updLaunch_rr (s : State) (n : Nat) (f : Launch → Launch) : (s.updLaunch n f).rr = s.rr := rfl
@[simp] theorem updLaunch_free (s : State) (n : Nat) (f : Launch → Launch) : (s.updLaunch n f).free = s.free := rfl
@[simp] theorem updCtx_ctxs (s : State) (n : Nat) (f : CtxSt → CtxSt) : (s.updCtx n f).pkg.ctxs = updAt s.pkg.ctxs n f := rfl
@[simp] theorem updPart_parts (s : State) (n : Nat) (f : PartSt → PartSt) : (s.updPart n f).pkg.parts = updAt s.pkg.parts n f := rfl

/-! ## updAs -/

@[simp] theorem updAs_parked (s : State) (f : AsSt → AsSt) : (s.updAs f).parked = s.parked := rfl
@[simp] theorem updAs_mem (s : State) (f : AsSt → AsSt) : (s.updAs f).mem = s.mem := rfl
@[simp] theorem updAs_pkg (s : State) (f : AsSt → AsSt) : (s.updAs f).pkg = s.pkg := rfl
@[simp] theorem updAs_agenda (s : State) (f : AsSt → AsSt) : (s.updAs f).agenda = s.agenda := rfl
@[simp] theorem updAs_rr (s : State) (f : AsSt → AsSt) : (s.updAs f).rr = s.rr := rfl
@[simp] theorem updAs_free (s : State) (f : AsSt → AsSt) : (s.updAs f).free = s.free := rfl
@[simp] theorem updAs_cell_id (s : State) (f : AsSt → AsSt) : (s.updAs f).cell.id = s.cell.id := rfl
@[simp] theorem updAs_cell_as (s : State) (f : AsSt → AsSt) : (s.updAs f).cell.as = f s.cell.as := rfl
@[simp] theorem updAs_cell_es (s : State) (f : AsSt → AsSt) : (s.updAs f).cell.es = s.cell.es := rfl
@[simp] theorem updAs_cell_qs (s : State) (f : AsSt → AsSt) : (s.updAs f).cell.qs = s.cell.qs := rfl
@[simp] theorem updAs_cell_sems (s : State) (f : AsSt → AsSt) : (s.updAs f).cell.sems = s.cell.sems := rfl
@[simp] theorem updAs_cell_tiles (s : State) (f : AsSt → AsSt) : (s.updAs f).cell.tiles = s.cell.tiles := rfl
@[simp] theorem updAs_cell_mx (s : State) (f : AsSt → AsSt) : (s.updAs f).cell.mx = s.cell.mx := rfl
@[simp] theorem updAs_cell_ce0 (s : State) (f : AsSt → AsSt) : (s.updAs f).cell.ce0 = s.cell.ce0 := rfl
@[simp] theorem updAs_cell_ce1 (s : State) (f : AsSt → AsSt) : (s.updAs f).cell.ce1 = s.cell.ce1 := rfl
@[simp] theorem updAs_cell_xe (s : State) (f : AsSt → AsSt) : (s.updAs f).cell.xe = s.cell.xe := rfl
@[simp] theorem updAs_cell_mxs (s : State) (f : AsSt → AsSt) : (s.updAs f).cell.mxs = s.cell.mxs := rfl
@[simp] theorem updAs_cell_ho (s : State) (f : AsSt → AsSt) : (s.updAs f).cell.ho = s.cell.ho := rfl
@[simp] theorem updAs_cell_hub (s : State) (f : AsSt → AsSt) : (s.updAs f).cell.hub = s.cell.hub := rfl
@[simp] theorem updAs_cell_segs (s : State) (f : AsSt → AsSt) : (s.updAs f).cell.segs = s.cell.segs := rfl
@[simp] theorem updAs_cell_recd (s : State) (f : AsSt → AsSt) : (s.updAs f).cell.recd = s.cell.recd := rfl
@[simp] theorem updAs_cell_lastOp (s : State) (f : AsSt → AsSt) : (s.updAs f).cell.lastOp = s.cell.lastOp := rfl
@[simp] theorem updAs_cell_lastCtx (s : State) (f : AsSt → AsSt) : (s.updAs f).cell.lastCtx = s.cell.lastCtx := rfl
@[simp] theorem updAs_cell_mops (s : State) (f : AsSt → AsSt) : (s.updAs f).cell.mops = s.cell.mops := rfl
@[simp] theorem updAs_cell_mseq (s : State) (f : AsSt → AsSt) : (s.updAs f).cell.mseq = s.cell.mseq := rfl
@[simp] theorem updAs_cell_late (s : State) (f : AsSt → AsSt) : (s.updAs f).cell.late = s.cell.late := rfl
@[simp] theorem updAs_cell_snaps (s : State) (f : AsSt → AsSt) : (s.updAs f).cell.snaps = s.cell.snaps := rfl
@[simp] theorem updAs_cell_tlb (s : State) (f : AsSt → AsSt) : (s.updAs f).cell.tlb = s.cell.tlb := rfl
@[simp] theorem updAs_cell_tlbMx (s : State) (f : AsSt → AsSt) : (s.updAs f).cell.tlbMx = s.cell.tlbMx := rfl
@[simp] theorem updAs_cell_tlbCe0 (s : State) (f : AsSt → AsSt) : (s.updAs f).cell.tlbCe0 = s.cell.tlbCe0 := rfl
@[simp] theorem updAs_cell_tlbCe1 (s : State) (f : AsSt → AsSt) : (s.updAs f).cell.tlbCe1 = s.cell.tlbCe1 := rfl
@[simp] theorem updAs_cell_tlbXe (s : State) (f : AsSt → AsSt) : (s.updAs f).cell.tlbXe = s.cell.tlbXe := rfl
@[simp] theorem updAs_cell_fused (s : State) (f : AsSt → AsSt) : (s.updAs f).cell.fused = s.cell.fused := rfl
@[simp] theorem updAs_cell_gated (s : State) (f : AsSt → AsSt) : (s.updAs f).cell.gated = s.cell.gated := rfl
@[simp] theorem updAs_cell_hold (s : State) (f : AsSt → AsSt) : (s.updAs f).cell.hold = s.cell.hold := rfl
@[simp] theorem updAs_cell_asbase (s : State) (f : AsSt → AsSt) : (s.updAs f).cell.asbase = s.cell.asbase := rfl
@[simp] theorem updAs_cell_assize (s : State) (f : AsSt → AsSt) : (s.updAs f).cell.assize = s.cell.assize := rfl
@[simp] theorem updAs_cell_esbase (s : State) (f : AsSt → AsSt) : (s.updAs f).cell.esbase = s.cell.esbase := rfl
@[simp] theorem updAs_cell_essize (s : State) (f : AsSt → AsSt) : (s.updAs f).cell.essize = s.cell.essize := rfl
@[simp] theorem updAs_cell_lastSc (s : State) (f : AsSt → AsSt) : (s.updAs f).cell.lastSc = s.cell.lastSc := rfl
@[simp] theorem updAs_cell_cyc (s : State) (f : AsSt → AsSt) : (s.updAs f).cell.cyc = s.cell.cyc := rfl
@[simp] theorem updAs_cell_ovfs (s : State) (f : AsSt → AsSt) : (s.updAs f).cell.ovfs = s.cell.ovfs := rfl

/-! ## updEs -/

@[simp] theorem updEs_parked (s : State) (f : EsSt → EsSt) : (s.updEs f).parked = s.parked := rfl
@[simp] theorem updEs_mem (s : State) (f : EsSt → EsSt) : (s.updEs f).mem = s.mem := rfl
@[simp] theorem updEs_pkg (s : State) (f : EsSt → EsSt) : (s.updEs f).pkg = s.pkg := rfl
@[simp] theorem updEs_agenda (s : State) (f : EsSt → EsSt) : (s.updEs f).agenda = s.agenda := rfl
@[simp] theorem updEs_rr (s : State) (f : EsSt → EsSt) : (s.updEs f).rr = s.rr := rfl
@[simp] theorem updEs_free (s : State) (f : EsSt → EsSt) : (s.updEs f).free = s.free := rfl
@[simp] theorem updEs_cell_id (s : State) (f : EsSt → EsSt) : (s.updEs f).cell.id = s.cell.id := rfl
@[simp] theorem updEs_cell_as (s : State) (f : EsSt → EsSt) : (s.updEs f).cell.as = s.cell.as := rfl
@[simp] theorem updEs_cell_es (s : State) (f : EsSt → EsSt) : (s.updEs f).cell.es = f s.cell.es := rfl
@[simp] theorem updEs_cell_qs (s : State) (f : EsSt → EsSt) : (s.updEs f).cell.qs = s.cell.qs := rfl
@[simp] theorem updEs_cell_sems (s : State) (f : EsSt → EsSt) : (s.updEs f).cell.sems = s.cell.sems := rfl
@[simp] theorem updEs_cell_tiles (s : State) (f : EsSt → EsSt) : (s.updEs f).cell.tiles = s.cell.tiles := rfl
@[simp] theorem updEs_cell_mx (s : State) (f : EsSt → EsSt) : (s.updEs f).cell.mx = s.cell.mx := rfl
@[simp] theorem updEs_cell_ce0 (s : State) (f : EsSt → EsSt) : (s.updEs f).cell.ce0 = s.cell.ce0 := rfl
@[simp] theorem updEs_cell_ce1 (s : State) (f : EsSt → EsSt) : (s.updEs f).cell.ce1 = s.cell.ce1 := rfl
@[simp] theorem updEs_cell_xe (s : State) (f : EsSt → EsSt) : (s.updEs f).cell.xe = s.cell.xe := rfl
@[simp] theorem updEs_cell_mxs (s : State) (f : EsSt → EsSt) : (s.updEs f).cell.mxs = s.cell.mxs := rfl
@[simp] theorem updEs_cell_ho (s : State) (f : EsSt → EsSt) : (s.updEs f).cell.ho = s.cell.ho := rfl
@[simp] theorem updEs_cell_hub (s : State) (f : EsSt → EsSt) : (s.updEs f).cell.hub = s.cell.hub := rfl
@[simp] theorem updEs_cell_segs (s : State) (f : EsSt → EsSt) : (s.updEs f).cell.segs = s.cell.segs := rfl
@[simp] theorem updEs_cell_recd (s : State) (f : EsSt → EsSt) : (s.updEs f).cell.recd = s.cell.recd := rfl
@[simp] theorem updEs_cell_lastOp (s : State) (f : EsSt → EsSt) : (s.updEs f).cell.lastOp = s.cell.lastOp := rfl
@[simp] theorem updEs_cell_lastCtx (s : State) (f : EsSt → EsSt) : (s.updEs f).cell.lastCtx = s.cell.lastCtx := rfl
@[simp] theorem updEs_cell_mops (s : State) (f : EsSt → EsSt) : (s.updEs f).cell.mops = s.cell.mops := rfl
@[simp] theorem updEs_cell_mseq (s : State) (f : EsSt → EsSt) : (s.updEs f).cell.mseq = s.cell.mseq := rfl
@[simp] theorem updEs_cell_late (s : State) (f : EsSt → EsSt) : (s.updEs f).cell.late = s.cell.late := rfl
@[simp] theorem updEs_cell_snaps (s : State) (f : EsSt → EsSt) : (s.updEs f).cell.snaps = s.cell.snaps := rfl
@[simp] theorem updEs_cell_tlb (s : State) (f : EsSt → EsSt) : (s.updEs f).cell.tlb = s.cell.tlb := rfl
@[simp] theorem updEs_cell_tlbMx (s : State) (f : EsSt → EsSt) : (s.updEs f).cell.tlbMx = s.cell.tlbMx := rfl
@[simp] theorem updEs_cell_tlbCe0 (s : State) (f : EsSt → EsSt) : (s.updEs f).cell.tlbCe0 = s.cell.tlbCe0 := rfl
@[simp] theorem updEs_cell_tlbCe1 (s : State) (f : EsSt → EsSt) : (s.updEs f).cell.tlbCe1 = s.cell.tlbCe1 := rfl
@[simp] theorem updEs_cell_tlbXe (s : State) (f : EsSt → EsSt) : (s.updEs f).cell.tlbXe = s.cell.tlbXe := rfl
@[simp] theorem updEs_cell_fused (s : State) (f : EsSt → EsSt) : (s.updEs f).cell.fused = s.cell.fused := rfl
@[simp] theorem updEs_cell_gated (s : State) (f : EsSt → EsSt) : (s.updEs f).cell.gated = s.cell.gated := rfl
@[simp] theorem updEs_cell_hold (s : State) (f : EsSt → EsSt) : (s.updEs f).cell.hold = s.cell.hold := rfl
@[simp] theorem updEs_cell_asbase (s : State) (f : EsSt → EsSt) : (s.updEs f).cell.asbase = s.cell.asbase := rfl
@[simp] theorem updEs_cell_assize (s : State) (f : EsSt → EsSt) : (s.updEs f).cell.assize = s.cell.assize := rfl
@[simp] theorem updEs_cell_esbase (s : State) (f : EsSt → EsSt) : (s.updEs f).cell.esbase = s.cell.esbase := rfl
@[simp] theorem updEs_cell_essize (s : State) (f : EsSt → EsSt) : (s.updEs f).cell.essize = s.cell.essize := rfl
@[simp] theorem updEs_cell_lastSc (s : State) (f : EsSt → EsSt) : (s.updEs f).cell.lastSc = s.cell.lastSc := rfl
@[simp] theorem updEs_cell_cyc (s : State) (f : EsSt → EsSt) : (s.updEs f).cell.cyc = s.cell.cyc := rfl
@[simp] theorem updEs_cell_ovfs (s : State) (f : EsSt → EsSt) : (s.updEs f).cell.ovfs = s.cell.ovfs := rfl

/-! ## updQs -/

@[simp] theorem updQs_parked (s : State) (f : Queues → Queues) : (s.updQs f).parked = s.parked := rfl
@[simp] theorem updQs_mem (s : State) (f : Queues → Queues) : (s.updQs f).mem = s.mem := rfl
@[simp] theorem updQs_pkg (s : State) (f : Queues → Queues) : (s.updQs f).pkg = s.pkg := rfl
@[simp] theorem updQs_agenda (s : State) (f : Queues → Queues) : (s.updQs f).agenda = s.agenda := rfl
@[simp] theorem updQs_rr (s : State) (f : Queues → Queues) : (s.updQs f).rr = s.rr := rfl
@[simp] theorem updQs_free (s : State) (f : Queues → Queues) : (s.updQs f).free = s.free := rfl
@[simp] theorem updQs_cell_id (s : State) (f : Queues → Queues) : (s.updQs f).cell.id = s.cell.id := rfl
@[simp] theorem updQs_cell_as (s : State) (f : Queues → Queues) : (s.updQs f).cell.as = s.cell.as := rfl
@[simp] theorem updQs_cell_es (s : State) (f : Queues → Queues) : (s.updQs f).cell.es = s.cell.es := rfl
@[simp] theorem updQs_cell_qs (s : State) (f : Queues → Queues) : (s.updQs f).cell.qs = f s.cell.qs := rfl
@[simp] theorem updQs_cell_sems (s : State) (f : Queues → Queues) : (s.updQs f).cell.sems = s.cell.sems := rfl
@[simp] theorem updQs_cell_tiles (s : State) (f : Queues → Queues) : (s.updQs f).cell.tiles = s.cell.tiles := rfl
@[simp] theorem updQs_cell_mx (s : State) (f : Queues → Queues) : (s.updQs f).cell.mx = s.cell.mx := rfl
@[simp] theorem updQs_cell_ce0 (s : State) (f : Queues → Queues) : (s.updQs f).cell.ce0 = s.cell.ce0 := rfl
@[simp] theorem updQs_cell_ce1 (s : State) (f : Queues → Queues) : (s.updQs f).cell.ce1 = s.cell.ce1 := rfl
@[simp] theorem updQs_cell_xe (s : State) (f : Queues → Queues) : (s.updQs f).cell.xe = s.cell.xe := rfl
@[simp] theorem updQs_cell_mxs (s : State) (f : Queues → Queues) : (s.updQs f).cell.mxs = s.cell.mxs := rfl
@[simp] theorem updQs_cell_ho (s : State) (f : Queues → Queues) : (s.updQs f).cell.ho = s.cell.ho := rfl
@[simp] theorem updQs_cell_hub (s : State) (f : Queues → Queues) : (s.updQs f).cell.hub = s.cell.hub := rfl
@[simp] theorem updQs_cell_segs (s : State) (f : Queues → Queues) : (s.updQs f).cell.segs = s.cell.segs := rfl
@[simp] theorem updQs_cell_recd (s : State) (f : Queues → Queues) : (s.updQs f).cell.recd = s.cell.recd := rfl
@[simp] theorem updQs_cell_lastOp (s : State) (f : Queues → Queues) : (s.updQs f).cell.lastOp = s.cell.lastOp := rfl
@[simp] theorem updQs_cell_lastCtx (s : State) (f : Queues → Queues) : (s.updQs f).cell.lastCtx = s.cell.lastCtx := rfl
@[simp] theorem updQs_cell_mops (s : State) (f : Queues → Queues) : (s.updQs f).cell.mops = s.cell.mops := rfl
@[simp] theorem updQs_cell_mseq (s : State) (f : Queues → Queues) : (s.updQs f).cell.mseq = s.cell.mseq := rfl
@[simp] theorem updQs_cell_late (s : State) (f : Queues → Queues) : (s.updQs f).cell.late = s.cell.late := rfl
@[simp] theorem updQs_cell_snaps (s : State) (f : Queues → Queues) : (s.updQs f).cell.snaps = s.cell.snaps := rfl
@[simp] theorem updQs_cell_tlb (s : State) (f : Queues → Queues) : (s.updQs f).cell.tlb = s.cell.tlb := rfl
@[simp] theorem updQs_cell_tlbMx (s : State) (f : Queues → Queues) : (s.updQs f).cell.tlbMx = s.cell.tlbMx := rfl
@[simp] theorem updQs_cell_tlbCe0 (s : State) (f : Queues → Queues) : (s.updQs f).cell.tlbCe0 = s.cell.tlbCe0 := rfl
@[simp] theorem updQs_cell_tlbCe1 (s : State) (f : Queues → Queues) : (s.updQs f).cell.tlbCe1 = s.cell.tlbCe1 := rfl
@[simp] theorem updQs_cell_tlbXe (s : State) (f : Queues → Queues) : (s.updQs f).cell.tlbXe = s.cell.tlbXe := rfl
@[simp] theorem updQs_cell_fused (s : State) (f : Queues → Queues) : (s.updQs f).cell.fused = s.cell.fused := rfl
@[simp] theorem updQs_cell_gated (s : State) (f : Queues → Queues) : (s.updQs f).cell.gated = s.cell.gated := rfl
@[simp] theorem updQs_cell_hold (s : State) (f : Queues → Queues) : (s.updQs f).cell.hold = s.cell.hold := rfl
@[simp] theorem updQs_cell_asbase (s : State) (f : Queues → Queues) : (s.updQs f).cell.asbase = s.cell.asbase := rfl
@[simp] theorem updQs_cell_assize (s : State) (f : Queues → Queues) : (s.updQs f).cell.assize = s.cell.assize := rfl
@[simp] theorem updQs_cell_esbase (s : State) (f : Queues → Queues) : (s.updQs f).cell.esbase = s.cell.esbase := rfl
@[simp] theorem updQs_cell_essize (s : State) (f : Queues → Queues) : (s.updQs f).cell.essize = s.cell.essize := rfl
@[simp] theorem updQs_cell_lastSc (s : State) (f : Queues → Queues) : (s.updQs f).cell.lastSc = s.cell.lastSc := rfl
@[simp] theorem updQs_cell_cyc (s : State) (f : Queues → Queues) : (s.updQs f).cell.cyc = s.cell.cyc := rfl
@[simp] theorem updQs_cell_ovfs (s : State) (f : Queues → Queues) : (s.updQs f).cell.ovfs = s.cell.ovfs := rfl

/-! ## setCore -/

@[simp] theorem setCore_parked (s : State) (c : AsCore) : (s.setCore c).parked = s.parked := rfl
@[simp] theorem setCore_mem (s : State) (c : AsCore) : (s.setCore c).mem = s.mem := rfl
@[simp] theorem setCore_pkg (s : State) (c : AsCore) : (s.setCore c).pkg = s.pkg := rfl
@[simp] theorem setCore_agenda (s : State) (c : AsCore) : (s.setCore c).agenda = s.agenda := rfl
@[simp] theorem setCore_rr (s : State) (c : AsCore) : (s.setCore c).rr = s.rr := rfl
@[simp] theorem setCore_free (s : State) (c : AsCore) : (s.setCore c).free = s.free := rfl
@[simp] theorem setCore_cell_id (s : State) (c : AsCore) : (s.setCore c).cell.id = s.cell.id := rfl
@[simp] theorem setCore_cell_as (s : State) (c : AsCore) : (s.setCore c).cell.as = { s.cell.as with core := c } := rfl
@[simp] theorem setCore_cell_es (s : State) (c : AsCore) : (s.setCore c).cell.es = s.cell.es := rfl
@[simp] theorem setCore_cell_qs (s : State) (c : AsCore) : (s.setCore c).cell.qs = s.cell.qs := rfl
@[simp] theorem setCore_cell_sems (s : State) (c : AsCore) : (s.setCore c).cell.sems = s.cell.sems := rfl
@[simp] theorem setCore_cell_tiles (s : State) (c : AsCore) : (s.setCore c).cell.tiles = s.cell.tiles := rfl
@[simp] theorem setCore_cell_mx (s : State) (c : AsCore) : (s.setCore c).cell.mx = s.cell.mx := rfl
@[simp] theorem setCore_cell_ce0 (s : State) (c : AsCore) : (s.setCore c).cell.ce0 = s.cell.ce0 := rfl
@[simp] theorem setCore_cell_ce1 (s : State) (c : AsCore) : (s.setCore c).cell.ce1 = s.cell.ce1 := rfl
@[simp] theorem setCore_cell_xe (s : State) (c : AsCore) : (s.setCore c).cell.xe = s.cell.xe := rfl
@[simp] theorem setCore_cell_mxs (s : State) (c : AsCore) : (s.setCore c).cell.mxs = s.cell.mxs := rfl
@[simp] theorem setCore_cell_ho (s : State) (c : AsCore) : (s.setCore c).cell.ho = s.cell.ho := rfl
@[simp] theorem setCore_cell_hub (s : State) (c : AsCore) : (s.setCore c).cell.hub = s.cell.hub := rfl
@[simp] theorem setCore_cell_segs (s : State) (c : AsCore) : (s.setCore c).cell.segs = s.cell.segs := rfl
@[simp] theorem setCore_cell_recd (s : State) (c : AsCore) : (s.setCore c).cell.recd = s.cell.recd := rfl
@[simp] theorem setCore_cell_lastOp (s : State) (c : AsCore) : (s.setCore c).cell.lastOp = s.cell.lastOp := rfl
@[simp] theorem setCore_cell_lastCtx (s : State) (c : AsCore) : (s.setCore c).cell.lastCtx = s.cell.lastCtx := rfl
@[simp] theorem setCore_cell_mops (s : State) (c : AsCore) : (s.setCore c).cell.mops = s.cell.mops := rfl
@[simp] theorem setCore_cell_mseq (s : State) (c : AsCore) : (s.setCore c).cell.mseq = s.cell.mseq := rfl
@[simp] theorem setCore_cell_late (s : State) (c : AsCore) : (s.setCore c).cell.late = s.cell.late := rfl
@[simp] theorem setCore_cell_snaps (s : State) (c : AsCore) : (s.setCore c).cell.snaps = s.cell.snaps := rfl
@[simp] theorem setCore_cell_tlb (s : State) (c : AsCore) : (s.setCore c).cell.tlb = s.cell.tlb := rfl
@[simp] theorem setCore_cell_tlbMx (s : State) (c : AsCore) : (s.setCore c).cell.tlbMx = s.cell.tlbMx := rfl
@[simp] theorem setCore_cell_tlbCe0 (s : State) (c : AsCore) : (s.setCore c).cell.tlbCe0 = s.cell.tlbCe0 := rfl
@[simp] theorem setCore_cell_tlbCe1 (s : State) (c : AsCore) : (s.setCore c).cell.tlbCe1 = s.cell.tlbCe1 := rfl
@[simp] theorem setCore_cell_tlbXe (s : State) (c : AsCore) : (s.setCore c).cell.tlbXe = s.cell.tlbXe := rfl
@[simp] theorem setCore_cell_fused (s : State) (c : AsCore) : (s.setCore c).cell.fused = s.cell.fused := rfl
@[simp] theorem setCore_cell_gated (s : State) (c : AsCore) : (s.setCore c).cell.gated = s.cell.gated := rfl
@[simp] theorem setCore_cell_hold (s : State) (c : AsCore) : (s.setCore c).cell.hold = s.cell.hold := rfl
@[simp] theorem setCore_cell_asbase (s : State) (c : AsCore) : (s.setCore c).cell.asbase = s.cell.asbase := rfl
@[simp] theorem setCore_cell_assize (s : State) (c : AsCore) : (s.setCore c).cell.assize = s.cell.assize := rfl
@[simp] theorem setCore_cell_esbase (s : State) (c : AsCore) : (s.setCore c).cell.esbase = s.cell.esbase := rfl
@[simp] theorem setCore_cell_essize (s : State) (c : AsCore) : (s.setCore c).cell.essize = s.cell.essize := rfl
@[simp] theorem setCore_cell_lastSc (s : State) (c : AsCore) : (s.setCore c).cell.lastSc = s.cell.lastSc := rfl
@[simp] theorem setCore_cell_cyc (s : State) (c : AsCore) : (s.setCore c).cell.cyc = s.cell.cyc := rfl
@[simp] theorem setCore_cell_ovfs (s : State) (c : AsCore) : (s.setCore c).cell.ovfs = s.cell.ovfs := rfl

/-! ## updSys -/

@[simp] theorem updSys_parked (s : State) (f : SysRegs → SysRegs) : (s.updSys f).parked = s.parked := rfl
@[simp] theorem updSys_mem (s : State) (f : SysRegs → SysRegs) : (s.updSys f).mem = s.mem := rfl
@[simp] theorem updSys_pkg (s : State) (f : SysRegs → SysRegs) : (s.updSys f).pkg = s.pkg := rfl
@[simp] theorem updSys_agenda (s : State) (f : SysRegs → SysRegs) : (s.updSys f).agenda = s.agenda := rfl
@[simp] theorem updSys_rr (s : State) (f : SysRegs → SysRegs) : (s.updSys f).rr = s.rr := rfl
@[simp] theorem updSys_free (s : State) (f : SysRegs → SysRegs) : (s.updSys f).free = s.free := rfl
@[simp] theorem updSys_cell_id (s : State) (f : SysRegs → SysRegs) : (s.updSys f).cell.id = s.cell.id := rfl
@[simp] theorem updSys_cell_as (s : State) (f : SysRegs → SysRegs) : (s.updSys f).cell.as = { s.cell.as with sys := f s.cell.as.sys } := rfl
@[simp] theorem updSys_cell_es (s : State) (f : SysRegs → SysRegs) : (s.updSys f).cell.es = s.cell.es := rfl
@[simp] theorem updSys_cell_qs (s : State) (f : SysRegs → SysRegs) : (s.updSys f).cell.qs = s.cell.qs := rfl
@[simp] theorem updSys_cell_sems (s : State) (f : SysRegs → SysRegs) : (s.updSys f).cell.sems = s.cell.sems := rfl
@[simp] theorem updSys_cell_tiles (s : State) (f : SysRegs → SysRegs) : (s.updSys f).cell.tiles = s.cell.tiles := rfl
@[simp] theorem updSys_cell_mx (s : State) (f : SysRegs → SysRegs) : (s.updSys f).cell.mx = s.cell.mx := rfl
@[simp] theorem updSys_cell_ce0 (s : State) (f : SysRegs → SysRegs) : (s.updSys f).cell.ce0 = s.cell.ce0 := rfl
@[simp] theorem updSys_cell_ce1 (s : State) (f : SysRegs → SysRegs) : (s.updSys f).cell.ce1 = s.cell.ce1 := rfl
@[simp] theorem updSys_cell_xe (s : State) (f : SysRegs → SysRegs) : (s.updSys f).cell.xe = s.cell.xe := rfl
@[simp] theorem updSys_cell_mxs (s : State) (f : SysRegs → SysRegs) : (s.updSys f).cell.mxs = s.cell.mxs := rfl
@[simp] theorem updSys_cell_ho (s : State) (f : SysRegs → SysRegs) : (s.updSys f).cell.ho = s.cell.ho := rfl
@[simp] theorem updSys_cell_hub (s : State) (f : SysRegs → SysRegs) : (s.updSys f).cell.hub = s.cell.hub := rfl
@[simp] theorem updSys_cell_segs (s : State) (f : SysRegs → SysRegs) : (s.updSys f).cell.segs = s.cell.segs := rfl
@[simp] theorem updSys_cell_recd (s : State) (f : SysRegs → SysRegs) : (s.updSys f).cell.recd = s.cell.recd := rfl
@[simp] theorem updSys_cell_lastOp (s : State) (f : SysRegs → SysRegs) : (s.updSys f).cell.lastOp = s.cell.lastOp := rfl
@[simp] theorem updSys_cell_lastCtx (s : State) (f : SysRegs → SysRegs) : (s.updSys f).cell.lastCtx = s.cell.lastCtx := rfl
@[simp] theorem updSys_cell_mops (s : State) (f : SysRegs → SysRegs) : (s.updSys f).cell.mops = s.cell.mops := rfl
@[simp] theorem updSys_cell_mseq (s : State) (f : SysRegs → SysRegs) : (s.updSys f).cell.mseq = s.cell.mseq := rfl
@[simp] theorem updSys_cell_late (s : State) (f : SysRegs → SysRegs) : (s.updSys f).cell.late = s.cell.late := rfl
@[simp] theorem updSys_cell_snaps (s : State) (f : SysRegs → SysRegs) : (s.updSys f).cell.snaps = s.cell.snaps := rfl
@[simp] theorem updSys_cell_tlb (s : State) (f : SysRegs → SysRegs) : (s.updSys f).cell.tlb = s.cell.tlb := rfl
@[simp] theorem updSys_cell_tlbMx (s : State) (f : SysRegs → SysRegs) : (s.updSys f).cell.tlbMx = s.cell.tlbMx := rfl
@[simp] theorem updSys_cell_tlbCe0 (s : State) (f : SysRegs → SysRegs) : (s.updSys f).cell.tlbCe0 = s.cell.tlbCe0 := rfl
@[simp] theorem updSys_cell_tlbCe1 (s : State) (f : SysRegs → SysRegs) : (s.updSys f).cell.tlbCe1 = s.cell.tlbCe1 := rfl
@[simp] theorem updSys_cell_tlbXe (s : State) (f : SysRegs → SysRegs) : (s.updSys f).cell.tlbXe = s.cell.tlbXe := rfl
@[simp] theorem updSys_cell_fused (s : State) (f : SysRegs → SysRegs) : (s.updSys f).cell.fused = s.cell.fused := rfl
@[simp] theorem updSys_cell_gated (s : State) (f : SysRegs → SysRegs) : (s.updSys f).cell.gated = s.cell.gated := rfl
@[simp] theorem updSys_cell_hold (s : State) (f : SysRegs → SysRegs) : (s.updSys f).cell.hold = s.cell.hold := rfl
@[simp] theorem updSys_cell_asbase (s : State) (f : SysRegs → SysRegs) : (s.updSys f).cell.asbase = s.cell.asbase := rfl
@[simp] theorem updSys_cell_assize (s : State) (f : SysRegs → SysRegs) : (s.updSys f).cell.assize = s.cell.assize := rfl
@[simp] theorem updSys_cell_esbase (s : State) (f : SysRegs → SysRegs) : (s.updSys f).cell.esbase = s.cell.esbase := rfl
@[simp] theorem updSys_cell_essize (s : State) (f : SysRegs → SysRegs) : (s.updSys f).cell.essize = s.cell.essize := rfl
@[simp] theorem updSys_cell_lastSc (s : State) (f : SysRegs → SysRegs) : (s.updSys f).cell.lastSc = s.cell.lastSc := rfl
@[simp] theorem updSys_cell_cyc (s : State) (f : SysRegs → SysRegs) : (s.updSys f).cell.cyc = s.cell.cyc := rfl
@[simp] theorem updSys_cell_ovfs (s : State) (f : SysRegs → SysRegs) : (s.updSys f).cell.ovfs = s.cell.ovfs := rfl
@[simp] theorem setCore_core (s : State) (c : AsCore) : (s.setCore c).core = c := rfl
@[simp] theorem updEs_core (s : State) (f : EsSt → EsSt) : (s.updEs f).core = s.core := rfl
@[simp] theorem updQs_core (s : State) (f : Queues → Queues) : (s.updQs f).core = s.core := rfl
@[simp] theorem updPkg_core (s : State) (f : Pkg → Pkg) : (s.updPkg f).core = s.core := rfl
@[simp] theorem updMem_core (s : State) (f : MemSt → MemSt) : (s.updMem f).core = s.core := rfl
@[simp] theorem updSys_core (s : State) (f : SysRegs → SysRegs) : (s.updSys f).core = s.core := rfl

end Sys2Proof.Machine
end

