-- ==== Sys2Proof/Laws/Ops.lean ====
section
/-! SUPPORT. One lemma for each shared operation of the sequencers: what a charge leaves, what an issued instruction does, when a guard,
a privilege check or a wait lets an instruction go on, what entering a handler writes. -/

namespace Sys2Proof.Machine

/-! ## Charges (R374) change the package only -/

@[simp] theorem charge_cell (s : State) (c : Option Nat) (col : CellId) (k n : Nat) : (s.charge c col k n).cell = s.cell := by
  cases c <;> simp only [State.charge] <;> split <;> rfl

@[simp] theorem charge_parked (s : State) (c : Option Nat) (col : CellId) (k n : Nat) : (s.charge c col k n).parked = s.parked := by
  cases c <;> simp only [State.charge] <;> split <;> rfl

@[simp] theorem charge_mem (s : State) (c : Option Nat) (col : CellId) (k n : Nat) : (s.charge c col k n).mem = s.mem := by
  cases c <;> simp only [State.charge] <;> split <;> rfl

@[simp] theorem charge_free (s : State) (c : Option Nat) (col : CellId) (k n : Nat) : (s.charge c col k n).free = s.free := by
  cases c <;> simp only [State.charge] <;> split <;> rfl

@[simp] theorem charge_time (s : State) (c : Option Nat) (col : CellId) (k n : Nat) : (s.charge c col k n).pkg.time = s.pkg.time := by
  cases c <;> simp only [State.charge] <;> split <;> rfl

/-- An update that a projection does not show leaves the projected list. -/
theorem map_updAt_same {α β : Type} {f : α → α} {g : α → β} (h : ∀ x, g (f x) = g x) : ∀ (l : List α) (n : Nat), (updAt l n f).map g = l.map g
  | [], n => by simp [updAt]
  | a :: r, 0 => by simp [updAt, h]
  | a :: r, n + 1 => by simp [updAt, map_updAt_same h r n]

/-- R368, R374: a charge changes accounts only. -/
@[simp] theorem charge_unaccounted (s : State) (c : Option Nat) (col : CellId) (k n : Nat) :
    (s.charge c col k n).pkg.unaccounted = s.pkg.unaccounted := by
  have hc : ∀ (t : State) (m a b : Nat), ((t.updCtx m fun x => x.charge a b).pkg.unaccounted = t.pkg.unaccounted) := by
    intro t m a b
    simp only [Pkg.unaccounted, updCtx_ctxs]
    rw [map_updAt_same (fun x => by simp [CtxSt.charge, CtxSt.settle])]
    rfl
  have hh : ∀ (t : State) (w : Nat), ((t.updPkg fun p => { p with
      heat := p.heat.map fun e => if e.1 = col then (e.1, e.2.spend c w n) else e }).pkg.unaccounted = t.pkg.unaccounted) := by
    intro t w
    simp only [Pkg.unaccounted, State.updPkg, List.map_map]
    congr 1
    refine List.map_congr_left fun e _ => ?_
    simp only [Function.comp]
    split <;> simp [HeatCol.spend]
  cases c <;> simp only [State.charge] <;> split <;> simp only [hc, hh]

theorem charge_sameModule (s : State) (c : Option Nat) (col : CellId) (k n : Nat) : SameModule s (s.charge c col k n) := by
  refine ⟨by simp, ?_⟩
  cases c <;> simp only [State.charge] <;> split <;> exact ⟨rfl, rfl, rfl⟩

/-- An issued instruction changes nothing of the module but its accounts. -/
theorem retire_sameModule (s : State) : SameModule s s.retire := charge_sameModule _ _ _ _ _
theorem jump_sameModule (s : State) (x : Word) : SameModule s (s.jump x) := charge_sameModule _ _ _ _ _
theorem writeReg_sameModule (s : State) (l : Nat) (d : Dest) (v : Word) (t : Bool) : SameModule s (s.writeReg l d v t) :=
  retire_sameModule _

@[simp] theorem chargeAs_cell (s : State) : s.chargeAs.cell = s.cell := by simp [State.chargeAs]
@[simp] theorem chargeAs_parked (s : State) : s.chargeAs.parked = s.parked := by simp [State.chargeAs]
@[simp] theorem chargeAs_mem (s : State) : s.chargeAs.mem = s.mem := by simp [State.chargeAs]
@[simp] theorem chargeEs_cell (s : State) (n : Nat) : (s.chargeEs n).cell = s.cell := by simp [State.chargeEs]
@[simp] theorem chargeEs_parked (s : State) (n : Nat) : (s.chargeEs n).parked = s.parked := by simp [State.chargeEs]
@[simp] theorem chargeEs_mem (s : State) (n : Nat) : (s.chargeEs n).mem = s.mem := by simp [State.chargeEs]

@[simp] theorem chargeRoute_cell (s : State) (w : Who) (c : CellId) (p : Place) : (s.chargeRoute w c p).cell = s.cell := by
  simp only [State.chargeRoute]; split <;> simp

@[simp] theorem chargeRoute_parked (s : State) (w : Who) (c : CellId) (p : Place) : (s.chargeRoute w c p).parked = s.parked := by
  simp only [State.chargeRoute]; split <;> simp

@[simp] theorem chargeRoute_mem (s : State) (w : Who) (c : CellId) (p : Place) : (s.chargeRoute w c p).mem = s.mem := by
  simp only [State.chargeRoute]; split <;> simp

@[simp] theorem chargeLine_cell (s : State) (w : Who) (p : Place) : (s.chargeLine w p).cell = s.cell := by simp [State.chargeLine]
@[simp] theorem chargeLine_parked (s : State) (w : Who) (p : Place) : (s.chargeLine w p).parked = s.parked := by
  simp [State.chargeLine]
@[simp] theorem chargeLine_mem (s : State) (w : Who) (p : Place) : (s.chargeLine w p).mem = s.mem := by simp [State.chargeLine]

@[simp] theorem chargeUnit_cell (s : State) (w : Who) (p : Place) : (s.chargeUnit w p).cell = s.cell := by simp [State.chargeUnit]
@[simp] theorem chargeUnit_mem (s : State) (w : Who) (p : Place) : (s.chargeUnit w p).mem = s.mem := by simp [State.chargeUnit]

/-- A host line fetched through a die's cache changes no byte (R289, R375). -/
@[simp] theorem fetchHost_cell (s : State) (w : Who) (d : Nat) (p : Place) (k : Bool) : (s.fetchHost w d p k).cell = s.cell := by
  simp only [State.fetchHost]; split
  · simp
  · split <;> simp

@[simp] theorem fetchHost_parked (s : State) (w : Who) (d : Nat) (p : Place) (k : Bool) : (s.fetchHost w d p k).parked = s.parked := by
  simp only [State.fetchHost]; split
  · simp
  · split <;> simp

@[simp] theorem fetchHost_bytes (s : State) (w : Who) (d : Nat) (p : Place) (k : Bool) : (s.fetchHost w d p k).mem.mem = s.mem.mem := by
  simp only [State.fetchHost]; split
  · simp
  · split <;> simp [MemSt.fill]

/-- A line moved into an L1 changes no byte (R119, R375). -/
@[simp] theorem touchLine_cell (s : State) (w : Who) (c : Cell) (p : Place) : (s.touchLine w c p).cell = s.cell := by
  simp only [State.touchLine]; repeat' split
  all_goals simp

@[simp] theorem touchLine_parked (s : State) (w : Who) (c : Cell) (p : Place) : (s.touchLine w c p).parked = s.parked := by
  simp only [State.touchLine]; repeat' split
  all_goals simp

@[simp] theorem touchLine_bytes (s : State) (w : Who) (c : Cell) (p : Place) : (s.touchLine w c p).mem.mem = s.mem.mem := by
  simp only [State.touchLine]; repeat' split
  all_goals simp [MemSt.fill]

/-- A line that a store takes into an L1 changes no byte (R119). -/
@[simp] theorem touchStore_cell (s : State) (w : Who) (c : Cell) (p : Place) : (s.touchStore w c p).cell = s.cell := by
  simp only [State.touchStore]; repeat' split
  all_goals simp

@[simp] theorem touchStore_parked (s : State) (w : Who) (c : Cell) (p : Place) : (s.touchStore w c p).parked = s.parked := by
  simp only [State.touchStore]; repeat' split
  all_goals simp

@[simp] theorem touchStore_bytes (s : State) (w : Who) (c : Cell) (p : Place) : (s.touchStore w c p).mem.mem = s.mem.mem := by
  simp only [State.touchStore]; repeat' split
  all_goals simp [MemSt.fill]

/-- R375: what a transfer, a join block and the fabric charge changes no cell and no byte. -/
@[simp] theorem chargePiece_cell (s : State) (w : Who) (p : Place) : (s.chargePiece w p).cell = s.cell := by
  simp only [State.chargePiece]; repeat' split
  all_goals simp

@[simp] theorem chargePiece_bytes (s : State) (w : Who) (p : Place) : (s.chargePiece w p).mem.mem = s.mem.mem := by
  simp only [State.chargePiece]; repeat' split
  all_goals simp

@[simp] theorem touchJoin_cell (s : State) (p : Place) (n : Nat) : (s.touchJoin p n).cell = s.cell := by
  simp only [State.touchJoin]; split <;> simp

@[simp] theorem touchJoin_bytes (s : State) (p : Place) (n : Nat) : (s.touchJoin p n).mem.mem = s.mem.mem := by
  simp only [State.touchJoin]; split <;> simp

@[simp] theorem chargeFabric_cell (s : State) (c : Nat) (col : CellId) (out : Bool) : (s.chargeFabric c col out).cell = s.cell := by
  cases out <;> simp [State.chargeFabric, apply_ite]

@[simp] theorem chargeFabric_mem (s : State) (c : Nat) (col : CellId) (out : Bool) : (s.chargeFabric c col out).mem = s.mem := by
  cases out <;> simp [State.chargeFabric, apply_ite]

/-- R375, R405: a boundary of TIME changes no cell and no byte. -/
@[simp] theorem staticCharge_cell (s : State) (t i : Nat) : (s.staticCharge t i).cell = s.cell := by
  simp only [State.staticCharge]; repeat' split
  all_goals simp

@[simp] theorem staticCharge_mem (s : State) (t i : Nat) : (s.staticCharge t i).mem = s.mem := by
  simp only [State.staticCharge]; repeat' split
  all_goals simp

/-! ## Reports and found errors (R356, R359) touch no cell where no cell's agent reports -/

@[simp] theorem report_cell {s : State} {r : Report} (h : r.agent = 7) : (s.report r).cell = s.cell := by
  simp only [State.report]; split
  · rfl
  · rw [if_neg (by simp [Report.ofCell, h])]; rfl

@[simp] theorem report_mem (s : State) (r : Report) : (s.report r).mem = s.mem := by
  simp only [State.report]; split
  · rfl
  · split
    · simp only [State.updCell]; split <;> rfl
    · rfl

@[simp] theorem detected_cell (s : State) (d : Detection) : (s.detected d).cell = s.cell := rfl
@[simp] theorem detected_mem (s : State) (d : Detection) : (s.detected d).mem = s.mem := rfl
@[simp] theorem noteBeats_cell (s : State) (d a n : Nat) : (s.noteBeats d a n).cell = s.cell := rfl
@[simp] theorem noteBeats_mem (s : State) (d a n : Nat) : (s.noteBeats d a n).mem = s.mem := rfl

@[simp] theorem reportFound_cell (s : State) (c l k d : Nat) : (s.reportFound c l k d).cell = s.cell := report_cell rfl
@[simp] theorem reportFound_mem (s : State) (c l k d : Nat) : (s.reportFound c l k d).mem = s.mem := report_mem _ _

@[simp] theorem foundError_cell (s : State) (c l d : Nat) : (s.foundError c l d).cell = s.cell := by
  simp only [State.foundError, reportFound_cell]
  generalize homeFault _ _ _ _ = o
  cases o <;> simp only [Option.elim] <;> split <;> rfl

@[simp] theorem foundError_mem (s : State) (c l d : Nat) : (s.foundError c l d).mem = s.mem := by
  simp only [State.foundError, reportFound_mem]
  generalize homeFault _ _ _ _ = o
  cases o <;> simp only [Option.elim] <;> split <;> rfl

theorem foldl_cell {α : Type} {f : State → α → State} (hf : ∀ t x, (f t x).cell = t.cell) :
    ∀ (l : List α) (s : State), (l.foldl f s).cell = s.cell
  | [], _ => rfl
  | x :: r, s => (foldl_cell hf r _).trans (hf s x)

theorem foldl_mem {α : Type} {f : State → α → State} (hf : ∀ t x, (f t x).mem = t.mem) :
    ∀ (l : List α) (s : State), (l.foldl f s).mem = s.mem
  | [], _ => rfl
  | x :: r, s => (foldl_mem hf r _).trans (hf s x)

@[simp] theorem scrubFrame_cell (s : State) (l d f k : Nat) : (s.scrubFrame l d f k).cell = s.cell := by
  simp only [State.scrubFrame, updMem_cell]
  exact foldl_cell (fun t x => foundError_cell t _ _ _) _ _

/-- R293: a scrub leaves the bytes of the frame zero, in canonical form. -/
theorem scrubFrame_wf (s : State) (l d f k : Nat) (h : memWf s.mem.mem = true) : memWf (s.scrubFrame l d f k).mem.mem = true := by
  simp only [State.scrubFrame, updMem_mem]
  refine scrub_wf _ _ _ _ ?_
  rw [foldl_mem (fun t x => foundError_mem t _ _ _)]; exact h

/-! ## Issue (R37, R79, R80) -/

@[simp] theorem setCore_cell (s : State) (c : AsCore) : (s.setCore c).cell = { s.cell with as := { s.cell.as with core := c } } := rfl

/-- An issued instruction advances the program counter and ends the tick. -/
@[simp] theorem retire_core (s : State) : s.retire.core = s.core.advance.endTick := by simp [State.retire, State.core]

@[simp] theorem retire_cell (s : State) :
    s.retire.cell = { s.cell with as := { s.cell.as with core := s.core.advance.endTick } } := by simp [State.retire]

@[simp] theorem retire_parked (s : State) : s.retire.parked = s.parked := by simp [State.retire]
@[simp] theorem retire_mem (s : State) : s.retire.mem = s.mem := by simp [State.retire]

/-- A transfer sets the program counter and ends the tick. -/
@[simp] theorem jump_core (s : State) (x : Word) : (s.jump x).core = ({ s.core with pc := x, rep := none }).endTick := by
  simp [State.jump, State.core]

@[simp] theorem jump_cell (s : State) (x : Word) :
    (s.jump x).cell = { s.cell with as := { s.cell.as with core := ({ s.core with pc := x, rep := none }).endTick } } := by
  simp [State.jump]

@[simp] theorem jump_parked (s : State) (x : Word) : (s.jump x).parked = s.parked := by simp [State.jump]
@[simp] theorem jump_mem (s : State) (x : Word) : (s.jump x).mem = s.mem := by simp [State.jump]

@[simp] theorem pushWr_core (s : State) (l : Nat) (d : Dest) (v : Word) (t : Bool) : (s.pushWr l d v t).core = s.core.push l d v t := rfl
@[simp] theorem pushWr_cell (s : State) (l : Nat) (d : Dest) (v : Word) (t : Bool) :
    (s.pushWr l d v t).cell = { s.cell with as := { s.cell.as with core := s.core.push l d v t } } := rfl
@[simp] theorem pushWr_parked (s : State) (l : Nat) (d : Dest) (v : Word) (t : Bool) : (s.pushWr l d v t).parked = s.parked := rfl
@[simp] theorem pushWr_mem (s : State) (l : Nat) (d : Dest) (v : Word) (t : Bool) : (s.pushWr l d v t).mem = s.mem := rfl

/-- An instruction that writes one register. -/
@[simp] theorem writeReg_core (s : State) (l : Nat) (d : Dest) (v : Word) (t : Bool) :
    (s.writeReg l d v t).core = ((s.core.push l d v t).advance).endTick := by simp [State.writeReg]

@[simp] theorem writeReg_cell (s : State) (l : Nat) (d : Dest) (v : Word) (t : Bool) :
    (s.writeReg l d v t).cell =
      { s.cell with as := { s.cell.as with core := ((s.core.push l d v t).advance).endTick } } := by simp [State.writeReg]

@[simp] theorem writeReg_parked (s : State) (l : Nat) (d : Dest) (v : Word) (t : Bool) : (s.writeReg l d v t).parked = s.parked := by
  simp [State.writeReg]
@[simp] theorem writeReg_mem (s : State) (l : Nat) (d : Dest) (v : Word) (t : Bool) : (s.writeReg l d v t).mem = s.mem := by
  simp [State.writeReg]

/-- R80: an untagged true guard lets the instruction go on. -/
theorem guarded_on {s : State} {g : Guard} (ht : (s.rp g.p).psn = false) (hv : guardHolds g (s.rp g.p).v = true)
    (f : State → State) : s.guarded g f = f s := by simp [State.guarded, ht, hv]

/-- R79: an untagged false guard spends the tick. -/
theorem guarded_off {s : State} {g : Guard} (ht : (s.rp g.p).psn = false) (hv : guardHolds g (s.rp g.p).v = false)
    (f : State → State) : s.guarded g f = s.retire := by simp [State.guarded, ht, hv]

/-- R80: a tagged guard traps. -/
theorem guarded_tagged {s : State} {g : Guard} (ht : (s.rp g.p).psn = true) (f : State → State) :
    s.guarded g f = s.trap cPoison 0 := by simp [State.guarded, ht]

/-- R100: an untagged operand lets the instruction go on. -/
theorem clean_on {s : State} {r : GReg} (h : (s.rg r).psn = false) (f : Word → State) : s.clean r f = f (s.rg r).v := by
  simp [State.clean, h]

/-- R153: a tagged operand traps with its value. -/
theorem clean_tagged {s : State} {r : GReg} (h : (s.rg r).psn = true) (f : Word → State) :
    s.clean r f = s.trap cPoison (s.rg r).v := by simp [State.clean, h]

/-- R265: with every check done the instruction goes on. -/
theorem afterChecks_on {s : State} (h : s.cell.snaps = []) (f : State → State) : s.afterChecks f = f s := by
  simp [State.afterChecks, h]

/-- With every check done a trap is taken at once. -/
theorem trap_now {s : State} (h : s.cell.snaps = []) (c : Nat) (v : Word) : s.trap c v = s.takeTrap c v := by
  simp [State.trap, h]

/-- R109: a memory operand whose checks are made at issue. -/
theorem checkOrDelay_now {s u : State} {n : Need} {a : Word} {o : BitVec 8} {p : Place} (hl : s.lateNow = false)
    (hs : s.cell.snaps = []) (h : s.asAccess n a o = (u, .ok p)) (go : State → Option Place → State) :
    s.checkOrDelay n a o go = go u (some p) := by simp [State.checkOrDelay, hl, hs, h]

/-- R109: a memory operand that fails its checks at issue. -/
theorem checkOrDelay_fails {s u : State} {n : Need} {a : Word} {o : BitVec 8} {c : Nat} (hl : s.lateNow = false)
    (hs : s.cell.snaps = []) (h : s.asAccess n a o = (u, .error c)) (go : State → Option Place → State) :
    s.checkOrDelay n a o go = u.trap c (eaOf a o) := by simp [State.checkOrDelay, hl, hs, h]

/-! ## The ES (R37, R171) -/

@[simp] theorem esNext_cell (s : State) (n : Nat) : (s.esNext n).cell = { s.cell with es := s.cell.es.advance.endTick } := by
  simp [State.esNext, State.updEs]
@[simp] theorem esNext_parked (s : State) (n : Nat) : (s.esNext n).parked = s.parked := by simp [State.esNext, State.updEs]
@[simp] theorem esNext_mem (s : State) (n : Nat) : (s.esNext n).mem = s.mem := by simp [State.esNext, State.updEs]

theorem esNext_sameModule (s : State) (n : Nat) : SameModule s (s.esNext n) := charge_sameModule s _ _ _ _
theorem esJump_sameModule (s : State) (x : Word) : SameModule s (s.esJump x) := charge_sameModule s _ _ _ _

@[simp] theorem esJump_cell (s : State) (x : Word) :
    (s.esJump x).cell = { s.cell with es := ({ s.cell.es with pc := x, rep := none }).endTick } := by
  simp [State.esJump, State.updEs]
@[simp] theorem esJump_parked (s : State) (x : Word) : (s.esJump x).parked = s.parked := by simp [State.esJump, State.updEs]
@[simp] theorem esJump_mem (s : State) (x : Word) : (s.esJump x).mem = s.mem := by simp [State.esJump, State.updEs]

@[simp] theorem esPush_cell (s : State) (l : Nat) (c : EClass) (n : Nat) (ps : List EPart) (f : BitVec 6) :
    (s.esPush l c n ps f).cell = { s.cell with es := { s.cell.es with infl := s.cell.es.infl ++ [⟨l, c, n, ps, f⟩] } } := rfl
@[simp] theorem esPush_parked (s : State) (l : Nat) (c : EClass) (n : Nat) (ps : List EPart) (f : BitVec 6) :
    (s.esPush l c n ps f).parked = s.parked := rfl
@[simp] theorem esPush_mem (s : State) (l : Nat) (c : EClass) (n : Nat) (ps : List EPart) (f : BitVec 6) :
    (s.esPush l c n ps f).mem = s.mem := rfl

/-- R195: a legal instruction goes on. -/
theorem esLegalOr_on {s : State} {i : Instr} (h : esLegal s.cell.es.sh i = true) (f : State → State) : s.esLegalOr i f = f s := by
  simp [State.esLegalOr, h]

/-- R195: an illegal one faults with its word. -/
theorem esLegalOr_off {s : State} {i : Instr} (h : esLegal s.cell.es.sh i = false) (f : State → State) :
    s.esLegalOr i f = s.esFault cIllegal (wordOf i) := by simp [State.esLegalOr, h]

/-- R168: a data queue whose head can be popped. -/
theorem headOf_some {s : State} {q : BitVec 2} {e : QEnt} {r : List QEnt} (h : popHead s.pkg.time.clk (s.cell.qs.dq q) = some (e, r))
    (f : QEnt → List QEnt → State) : s.headOf q f = f e r := by simp [State.headOf, h]

/-! ## Traps (R41, R152) -/

/-- R290: seeing a block, and putting it under another key, touch no cell. -/
@[simp] theorem blockAs_cell (s : State) (c : CellId) (p : Place) : (s.blockAs c p).1.cell = s.cell := by
  simp only [State.blockAs]; split <;> rfl
@[simp] theorem toKey_cell (s : State) (p : Place) : (s.toKey p).cell = s.cell := by simp [State.toKey]
@[simp] theorem putAlien_cell (s : State) (p : Place) (v : Word) (m : BitVec 8) (t : Bool) : (s.putAlien p v m t).cell = s.cell := by
  simp [State.putAlien]

/-- R290: a write of the AS touches no cell. -/
@[simp] theorem writeW_cell (s : State) (e : Bool) (q : Nat) (c : Cls) (n : Nat) (p : Place) (v : Word) (m : BitVec 8) (t : Bool) :
    (s.writeW e q c n p v m t).cell = s.cell := by
  simp only [State.writeW]; split <;> simp

@[simp] theorem putSave_cell (s : State) (p : Place) (o : Nat) (v : Word) : (s.putSave p o v).cell = s.cell := by
  simp [State.putSave]

/-- The save area's AS list touches no register. -/
@[simp] theorem saveAs_cell (p : Place) : ∀ (ks : List Nat) (s : State) (l : List Pend), (s.saveAs p l ks).cell = s.cell
  | [], _, _ => rfl
  | _ :: ks, _, [] => by simp [State.saveAs, saveAs_cell p ks]
  | _ :: ks, _, _ :: r => by simp [State.saveAs, saveAs_cell p ks]

@[simp] theorem putWide_cell {w : Nat} (p : Place) : ∀ (n : Nat) (s : State) (o : Nat) (v : BitVec w), (s.putWide p o v n).cell = s.cell
  | 0, _, _, _ => rfl
  | n + 1, _, _, _ => by simp [State.putWide, putWide_cell p n]

@[simp] theorem putPart_cell (s : State) (p : Place) (o i : Nat) (x : EPart) : (s.putPart p o i x).cell = s.cell :=
  (putWide_cell p 4 _ _ _).trans (putWide_cell p 32 _ _ _)

@[simp] theorem saveParts_cell (p : Place) (o : Nat) (l : List EPart) (s : State) : (s.saveParts p o l).cell = s.cell := by
  rw [State.saveParts, foldl_cell]
  exact fun t x => putPart_cell t p o x.2 x.1

@[simp] theorem saveEs_cell (p : Place) : ∀ (ks : List Nat) (s : State) (l : List EPend), (s.saveEs p l ks).cell = s.cell
  | [], _, _ => rfl
  | _ :: ks, _, [] => by simp [State.saveEs, saveEs_cell p ks]
  | _ :: ks, _, _ :: r => by simp [State.saveEs, saveEs_cell p ks]

/-- R375: reaching lines one by one changes no cell where reaching one changes none. -/
theorem eachLine_cell {f : State → Place → State} (hf : ∀ s p, (f s p).cell = s.cell) (p : Place) :
    ∀ (l : List Nat) (s : State) (prev : Option Nat), (s.eachLine f p prev l).cell = s.cell
  | [], _, _ => rfl
  | o :: r, s, prev => by
    rw [State.eachLine, eachLine_cell hf p r]
    split
    · rfl
    · exact hf _ _

@[simp] theorem saveLines_cell (s : State) (p : Place) (l : List Nat) :
    (s.eachLine (fun s q => s.touchStore (s.cell.who 0) s.cell q) p none l).cell = s.cell :=
  eachLine_cell (fun _ _ => touchStore_cell _ _ _ _) _ _ _ _

@[simp] theorem loadLines_cell (s : State) (p : Place) (l : List Nat) :
    (s.eachLine (fun s q => s.touchLine (s.cell.who 0) s.cell q) p none l).cell = s.cell :=
  eachLine_cell (fun _ _ => touchLine_cell _ _ _ _) _ _ _ _

/-- R41, R152: saving the lists changes at most the ES list. -/
theorem savePwl_cell (s : State) (p : Place) :
    (s.savePwl p).cell = if s.cell.as.sys.esHalted then { s.cell with es := { s.cell.es with infl := [] } } else s.cell := by
  simp only [State.savePwl, State.updEs]; split <;> simp_all

/-- R152: what the entry into the handler writes. -/
theorem enterHandler_cell (s : State) (c : Nat) (v : Word) :
    (s.enterHandler c v).cell.as = { s.cell.as with
      lvl := if s.cell.as.lvl = .machine then .machine else .kernel, wait := none, exitTested := false
      esSaved := s.cell.as.sys.esHalted
      sys := { s.cell.as.sys with
        trappc := s.core.pc, traprep := repWord s.core.rep, trapcause := BitVec.ofNat 64 c, trapval := v }
      core := { s.core with pc := s.cell.as.sys.tvec, rep := none, infl := [] } } := rfl

/-- R41, R292: binding the save area's frames touches memory only. -/
theorem bind_cell {s t : State} {w : CellId} {p : Place} {u : Bool} (h : s.bind w p u = some t) : t.cell = s.cell := by
  simp only [State.bind] at h
  repeat' split at h
  all_goals (cases h; try simp)

theorem bindRange_cell {d : Nat} : ∀ {l : List Nat} {s t : State}, s.bindRange d l = some t → t.cell = s.cell
  | [], s, t, h => by cases h; rfl
  | f :: r, s, t, h => by
    unfold State.bindRange at h
    split at h
    · rename_i u hu; rw [bindRange_cell h, bind_cell hu]
    · cases h

theorem saveArea_cell {s u : State} {p : Place} (h : s.saveArea = some (u, p)) : u.cell = s.cell := by
  simp only [State.saveArea] at h
  split at h
  · cases h
  · split at h
    · cases h
    · simp only [Option.map_eq_some_iff, Prod.mk.injEq] at h
      obtain ⟨a, ha, rfl, -⟩ := h
      exact bindRange_cell ha

end Sys2Proof.Machine
end

