-- ==== Sys2Proof/Laws/PerInstr.lean ====
section
/-! SUPPORT. Every instruction has exactly one place in the encoding: an AS word (R83), an ES word (R88), the step words of a
command (R90), or none, being an event. One lemma per constructor. -/

namespace Sys2Proof.Laws.Homes

/-- The encoder knows the instruction in exactly one of its three maps, or it is an event. -/
def Statement (i : Instr) : Prop :=
  (encodeAs i).isSome.toNat + (encodeEs i).isSome.toNat + (encodeCmd i).isSome.toNat + i.isEvent.toNat = 1

theorem add : ∀ o, Statement (.add o) := fun _ => rfl
theorem sub : ∀ o, Statement (.sub o) := fun _ => rfl
theorem and : ∀ o, Statement (.and o) := fun _ => rfl
theorem or : ∀ o, Statement (.or o) := fun _ => rfl
theorem xor : ∀ o, Statement (.xor o) := fun _ => rfl
theorem andn : ∀ o, Statement (.andn o) := fun _ => rfl
theorem shl : ∀ o, Statement (.shl o) := fun _ => rfl
theorem shr : ∀ o, Statement (.shr o) := fun _ => rfl
theorem sar : ∀ o, Statement (.sar o) := fun _ => rfl
theorem min : ∀ o, Statement (.min o) := fun _ => rfl
theorem max : ∀ o, Statement (.max o) := fun _ => rfl
theorem minn : ∀ o, Statement (.minn o) := fun _ => rfl
theorem maxn : ∀ o, Statement (.maxn o) := fun _ => rfl
theorem clz : ∀ o, Statement (.clz o) := fun _ => rfl
theorem popc : ∀ o, Statement (.popc o) := fun _ => rfl
theorem mul : ∀ o, Statement (.mul o) := fun _ => rfl
theorem mulh : ∀ o, Statement (.mulh o) := fun _ => rfl
theorem mulhn : ∀ o, Statement (.mulhn o) := fun _ => rfl
theorem div : ∀ o, Statement (.div o) := fun _ => rfl
theorem divn : ∀ o, Statement (.divn o) := fun _ => rfl
theorem rem : ∀ o, Statement (.rem o) := fun _ => rfl
theorem remn : ∀ o, Statement (.remn o) := fun _ => rfl
theorem sel : ∀ o, Statement (.sel o) := fun _ => rfl
theorem addi : ∀ o, Statement (.addi o) := fun _ => rfl
theorem andi : ∀ o, Statement (.andi o) := fun _ => rfl
theorem ori : ∀ o, Statement (.ori o) := fun _ => rfl
theorem xori : ∀ o, Statement (.xori o) := fun _ => rfl
theorem shli : ∀ o, Statement (.shli o) := fun _ => rfl
theorem shri : ∀ o, Statement (.shri o) := fun _ => rfl
theorem sari : ∀ o, Statement (.sari o) := fun _ => rfl
theorem ldi : ∀ o, Statement (.ldi o) := fun _ => rfl
theorem ldih1 : ∀ o, Statement (.ldih1 o) := fun _ => rfl
theorem ldih2 : ∀ o, Statement (.ldih2 o) := fun _ => rfl
theorem ldih3 : ∀ o, Statement (.ldih3 o) := fun _ => rfl
theorem bext : ∀ o, Statement (.bext o) := fun _ => rfl
theorem bins : ∀ o, Statement (.bins o) := fun _ => rfl
theorem cmp : ∀ o, Statement (.cmp o) := fun _ => rfl
theorem cmpi : ∀ o, Statement (.cmpi o) := fun _ => rfl
theorem pand : ∀ o, Statement (.pand o) := fun _ => rfl
theorem por : ∀ o, Statement (.por o) := fun _ => rfl
theorem pxor : ∀ o, Statement (.pxor o) := fun _ => rfl
theorem sega : ∀ o, Statement (.sega o) := fun _ => rfl
theorem adr2 : ∀ o, Statement (.adr2 o) := fun _ => rfl
theorem srr : ∀ o, Statement (.srr o) := fun _ => rfl
theorem srw : ∀ o, Statement (.srw o) := fun _ => rfl
theorem rett : ∀ o, Statement (.rett o) := fun _ => rfl
theorem halt : ∀ o, Statement (.halt o) := fun _ => rfl
theorem lds : ∀ o, Statement (.lds o) := fun _ => rfl
theorem sts : ∀ o, Statement (.sts o) := fun _ => rfl
theorem ldq : ∀ o, Statement (.ldq o) := fun _ => rfl
theorem ldx : ∀ o, Statement (.ldx o) := fun _ => rfl
theorem st : ∀ o, Statement (.st o) := fun _ => rfl
theorem stq : ∀ o, Statement (.stq o) := fun _ => rfl
theorem pf : ∀ o, Statement (.pf o) := fun _ => rfl
theorem cwb : ∀ o, Statement (.cwb o) := fun _ => rfl
theorem cinv : ∀ o, Statement (.cinv o) := fun _ => rfl
theorem chk : ∀ o, Statement (.chk o) := fun _ => rfl
theorem chkPred : ∀ o, Statement (.chkPred o) := fun _ => rfl
theorem tlbi : ∀ o, Statement (.tlbi o) := fun _ => rfl
theorem amo : ∀ o, Statement (.amo o) := fun _ => rfl
theorem cas : ∀ o, Statement (.cas o) := fun _ => rfl
theorem scld : ∀ o, Statement (.scld o) := fun _ => rfl
theorem scst : ∀ o, Statement (.scst o) := fun _ => rfl
theorem scamo : ∀ o, Statement (.scamo o) := fun _ => rfl
theorem fence : ∀ o, Statement (.fence o) := fun _ => rfl
theorem trap : ∀ o, Statement (.trap o) := fun _ => rfl
theorem fork : ∀ o, Statement (.fork o) := fun _ => rfl
theorem join : ∀ o, Statement (.join o) := fun _ => rfl
theorem exit : ∀ o, Statement (.exit o) := fun _ => rfl
theorem enq : ∀ o, Statement (.enq o) := fun _ => rfl
theorem enqs : ∀ o, Statement (.enqs o) := fun _ => rfl
theorem estart : ∀ o, Statement (.estart o) := fun _ => rfl
theorem pbr : ∀ o, Statement (.pbr o) := fun _ => rfl
theorem pbrReg : ∀ o, Statement (.pbrReg o) := fun _ => rfl
theorem br : ∀ o, Statement (.br o) := fun _ => rfl
theorem brq : ∀ o, Statement (.brq o) := fun _ => rfl
theorem bqp : ∀ o, Statement (.bqp o) := fun _ => rfl
theorem call : ∀ o, Statement (.call o) := fun _ => rfl
theorem ret : ∀ o, Statement (.ret o) := fun _ => rfl
theorem loop : ∀ o, Statement (.loop o) := fun _ => rfl
theorem nop : ∀ o, Statement (.nop o) := fun _ => rfl
theorem pop : ∀ o, Statement (.pop o) := fun _ => rfl
theorem qpush : ∀ o, Statement (.qpush o) := fun _ => rfl
theorem qstat : ∀ o, Statement (.qstat o) := fun _ => rfl
theorem sems : ∀ o, Statement (.sems o) := fun _ => rfl
theorem semw : ∀ o, Statement (.semw o) := fun _ => rfl
theorem semdrop : ∀ o, Statement (.semdrop o) := fun _ => rfl
theorem semrd : ∀ o, Statement (.semrd o) := fun _ => rfl
theorem waita : ∀ o, Statement (.waita o) := fun _ => rfl
theorem waitt : ∀ o, Statement (.waitt o) := fun _ => rfl
theorem ldqAcq : ∀ o, Statement (.ldqAcq o) := fun _ => rfl
theorem stRel : ∀ o, Statement (.stRel o) := fun _ => rfl
theorem rep : ∀ o, Statement (.rep o) := fun _ => rfl
theorem setsh : ∀ o, Statement (.setsh o) := fun _ => rfl
theorem setshQ : ∀ o, Statement (.setshQ o) := fun _ => rfl
theorem vld : ∀ o, Statement (.vld o) := fun _ => rfl
theorem vst : ∀ o, Statement (.vst o) := fun _ => rfl
theorem vldq : ∀ o, Statement (.vldq o) := fun _ => rfl
theorem vsty : ∀ o, Statement (.vsty o) := fun _ => rfl
theorem vbc : ∀ o, Statement (.vbc o) := fun _ => rfl
theorem epbr : ∀ o, Statement (.epbr o) := fun _ => rfl
theorem ebr : ∀ o, Statement (.ebr o) := fun _ => rfl
theorem ebrq : ∀ o, Statement (.ebrq o) := fun _ => rfl
theorem ebqp : ∀ o, Statement (.ebqp o) := fun _ => rfl
theorem esemw : ∀ o, Statement (.esemw o) := fun _ => rfl
theorem esems : ∀ o, Statement (.esems o) := fun _ => rfl
theorem eexit : Statement .eexit := rfl
theorem vadd : ∀ o, Statement (.vadd o) := fun _ => rfl
theorem vsub : ∀ o, Statement (.vsub o) := fun _ => rfl
theorem vmul : ∀ o, Statement (.vmul o) := fun _ => rfl
theorem vfma : ∀ o, Statement (.vfma o) := fun _ => rfl
theorem vfms : ∀ o, Statement (.vfms o) := fun _ => rfl
theorem vmin : ∀ o, Statement (.vmin o) := fun _ => rfl
theorem vmax : ∀ o, Statement (.vmax o) := fun _ => rfl
theorem vabs : ∀ o, Statement (.vabs o) := fun _ => rfl
theorem vneg : ∀ o, Statement (.vneg o) := fun _ => rfl
theorem vrcp : ∀ o, Statement (.vrcp o) := fun _ => rfl
theorem vrsq : ∀ o, Statement (.vrsq o) := fun _ => rfl
theorem vexp2 : ∀ o, Statement (.vexp2 o) := fun _ => rfl
theorem vlog2 : ∀ o, Statement (.vlog2 o) := fun _ => rfl
theorem vcvt : ∀ o, Statement (.vcvt o) := fun _ => rfl
theorem vqb : ∀ o, Statement (.vqb o) := fun _ => rfl
theorem vdqb : ∀ o, Statement (.vdqb o) := fun _ => rfl
theorem vand : ∀ o, Statement (.vand o) := fun _ => rfl
theorem vor : ∀ o, Statement (.vor o) := fun _ => rfl
theorem vxor : ∀ o, Statement (.vxor o) := fun _ => rfl
theorem vshl : ∀ o, Statement (.vshl o) := fun _ => rfl
theorem vshlImm : ∀ o, Statement (.vshlImm o) := fun _ => rfl
theorem vshr : ∀ o, Statement (.vshr o) := fun _ => rfl
theorem vshrImm : ∀ o, Statement (.vshrImm o) := fun _ => rfl
theorem vsar : ∀ o, Statement (.vsar o) := fun _ => rfl
theorem vsarImm : ∀ o, Statement (.vsarImm o) := fun _ => rfl
theorem viota : ∀ o, Statement (.viota o) := fun _ => rfl
theorem vsel : ∀ o, Statement (.vsel o) := fun _ => rfl
theorem vcmp : ∀ o, Statement (.vcmp o) := fun _ => rfl
theorem mand : ∀ o, Statement (.mand o) := fun _ => rfl
theorem mor : ∀ o, Statement (.mor o) := fun _ => rfl
theorem mxor : ∀ o, Statement (.mxor o) := fun _ => rfl
theorem mnot : ∀ o, Statement (.mnot o) := fun _ => rfl
theorem mpop : ∀ o, Statement (.mpop o) := fun _ => rfl
theorem vrsum : ∀ o, Statement (.vrsum o) := fun _ => rfl
theorem vrmax : ∀ o, Statement (.vrmax o) := fun _ => rfl
theorem vrmin : ∀ o, Statement (.vrmin o) := fun _ => rfl
theorem vrmaxi : ∀ o, Statement (.vrmaxi o) := fun _ => rfl
theorem vrmini : ∀ o, Statement (.vrmini o) := fun _ => rfl
theorem vperm : ∀ o, Statement (.vperm o) := fun _ => rfl
theorem vslide : ∀ o, Statement (.vslide o) := fun _ => rfl
theorem vgath : ∀ o, Statement (.vgath o) := fun _ => rfl
theorem vrng : ∀ o, Statement (.vrng o) := fun _ => rfl
theorem acrd : ∀ o, Statement (.acrd o) := fun _ => rfl
theorem acwr : ∀ o, Statement (.acwr o) := fun _ => rfl
theorem acsc : ∀ o, Statement (.acsc o) := fun _ => rfl
theorem acz : ∀ o, Statement (.acz o) := fun _ => rfl
theorem aczTile : ∀ o, Statement (.aczTile o) := fun _ => rfl
theorem acst : ∀ o, Statement (.acst o) := fun _ => rfl
theorem erep : ∀ o, Statement (.erep o) := fun _ => rfl
theorem mhdr : ∀ h p, Statement (.mhdr h p) := fun _ _ => rfl
theorem mopa : ∀ h p, Statement (.mopa h p) := fun _ _ => rfl
theorem mopb : ∀ h p, Statement (.mopb h p) := fun _ _ => rfl
theorem mma : ∀ h p, Statement (.mma h p) := fun _ _ => rfl
theorem mmaz : ∀ h p, Statement (.mmaz h p) := fun _ _ => rfl
theorem mwb : ∀ h p, Statement (.mwb h p) := fun _ _ => rfl
theorem mrn : ∀ h p, Statement (.mrn h p) := fun _ _ => rfl
theorem mclr : ∀ h p, Statement (.mclr h p) := fun _ _ => rfl
theorem mthr : ∀ h p, Statement (.mthr h p) := fun _ _ => rfl
theorem copy : ∀ ce h p, Statement (.copy ce h p) := fun _ _ _ => rfl
theorem copyn : ∀ ce h p, Statement (.copyn ce h p) := fun _ _ _ => rfl
theorem gath : ∀ ce h p, Statement (.gath ce h p) := fun _ _ _ => rfl
theorem scat : ∀ ce h p, Statement (.scat ce h p) := fun _ _ _ => rfl
theorem fill : ∀ ce h p, Statement (.fill ce h p) := fun _ _ _ => rfl
theorem flagw : ∀ ce h p, Statement (.flagw ce h p) := fun _ _ _ => rfl
theorem cmpr : ∀ ce h p, Statement (.cmpr ce h p) := fun _ _ _ => rfl
theorem expn : ∀ ce h p, Statement (.expn ce h p) := fun _ _ _ => rfl
theorem unfold : ∀ h p, Statement (.unfold h p) := fun _ _ => rfl
theorem xpose : ∀ h p, Statement (.xpose h p) := fun _ _ => rfl
theorem relay : ∀ h p, Statement (.relay h p) := fun _ _ => rfl
theorem hoff : ∀ h p, Statement (.hoff h p) := fun _ _ => rfl
theorem hpull : ∀ h p, Statement (.hpull h p) := fun _ _ => rfl
theorem hcancel : ∀ h p, Statement (.hcancel h p) := fun _ _ => rfl
theorem swout : ∀ h p, Statement (.swout h p) := fun _ _ => rfl
theorem swin : ∀ h p, Statement (.swin h p) := fun _ _ => rfl
theorem rcopy : ∀ h p, Statement (.rcopy h p) := fun _ _ => rfl
theorem esFaultDelivery : Statement .esFaultDelivery := rfl
theorem loadArrival : ∀ n, Statement (.loadArrival n) := fun _ => rfl
theorem writePerform : ∀ held n, Statement (.writePerform held n) := fun _ _ => rfl
theorem heldSignal : Statement .heldSignal := rfl
theorem writebackComplete : ∀ n, Statement (.writebackComplete n) := fun _ => rfl
theorem waitaTimeout : Statement .waitaTimeout := rfl
theorem frontQueueMove : ∀ e, Statement (.frontQueueMove e) := fun _ => rfl
theorem dispatch : Statement .dispatch := rfl
theorem cqtail : ∀ ctx q tail, Statement (.cqtail ctx q tail) := fun _ _ _ => rfl
theorem launchStart : ∀ src, Statement (.launchStart src) := fun _ => rfl
theorem fenceEntryComplete : ∀ ctx q, Statement (.fenceEntryComplete ctx q) := fun _ _ => rfl
theorem recordAging : ∀ part level, Statement (.recordAging part level) := fun _ _ => rfl
theorem sliceExpiry : ∀ part, Statement (.sliceExpiry part) := fun _ => rfl
theorem preempt : ∀ ctx, Statement (.preempt ctx) := fun _ => rfl
theorem contextSwitch : ∀ part, Statement (.contextSwitch part) := fun _ => rfl
theorem hangTimeout : ∀ part, Statement (.hangTimeout part) := fun _ => rfl
theorem preset : ∀ ctx, Statement (.preset ctx) := fun _ => rfl
theorem partitionReset : ∀ part why, Statement (.partitionReset part why) := fun _ _ => rfl
theorem evictionRequest : ∀ d0 d1 d2 d3, Statement (.evictionRequest d0 d1 d2 d3) := fun _ _ _ _ => rfl
theorem evictionFallback : ∀ n, Statement (.evictionFallback n) := fun _ => rfl
theorem evictionOutcome : ∀ n, Statement (.evictionOutcome n) := fun _ => rfl
theorem streamCreate : ∀ ctx n, Statement (.streamCreate ctx n) := fun _ _ => rfl
theorem streamPark : ∀ ctx n, Statement (.streamPark ctx n) := fun _ _ => rfl
theorem streamResume : ∀ ctx n, Statement (.streamResume ctx n) := fun _ _ => rfl
theorem streamCancel : ∀ ctx n, Statement (.streamCancel ctx n) := fun _ _ => rfl
theorem decodeStepCompletion : ∀ n, Statement (.decodeStepCompletion n) := fun _ => rfl
theorem blockSend : ∀ n, Statement (.blockSend n) := fun _ => rfl
theorem blockCommit : ∀ n, Statement (.blockCommit n) := fun _ => rfl
theorem blockRelease : ∀ n, Statement (.blockRelease n) := fun _ => rfl
theorem cancelAtDestination : ∀ n, Statement (.cancelAtDestination n) := fun _ => rfl
theorem hpullTimeout : ∀ n k, Statement (.hpullTimeout n k) := fun _ _ => rfl
theorem completionRecord : ∀ n, Statement (.completionRecord n) := fun _ => rfl
theorem swapBlockRead : Statement .swapBlockRead := rfl
theorem nvmeCompletion : ∀ k ok, Statement (.nvmeCompletion k ok) := fun _ _ => rfl
theorem nvmeTimeout : ∀ k, Statement (.nvmeTimeout k) := fun _ => rfl
theorem errorReportDelivery : ∀ die, Statement (.errorReportDelivery die) := fun _ => rfl
theorem reportRetry : Statement .reportRetry := rfl
theorem chardTest : ∀ n fails, Statement (.chardTest n fails) := fun _ _ => rfl
theorem cellSpare : ∀ die num, Statement (.cellSpare die num) := fun _ _ => rfl
theorem busRetrain : ∀ die col, Statement (.busRetrain die col) := fun _ _ => rfl
theorem heatTokenRefill : Statement .heatTokenRefill := rfl
theorem heatRateUpdate : ∀ rates, Statement (.heatRateUpdate rates) := fun _ => rfl
theorem heatResume : ∀ col, Statement (.heatResume col) := fun _ => rfl
theorem heatWindowEnd : Statement .heatWindowEnd := rfl
theorem powerCapEvaluation : ∀ watts, Statement (.powerCapEvaluation watts) := fun _ => rfl
theorem staticEnergyCharge : Statement .staticEnergyCharge := rfl
theorem partitionEnable : ∀ part d0, Statement (.partitionEnable part d0) := fun _ _ => rfl
theorem contextAdmit : ∀ ctx d0, Statement (.contextAdmit ctx d0) := fun _ _ => rfl
theorem registerWrite : ∀ sp off v, Statement (.registerWrite sp off v) := fun _ _ _ => rfl
theorem keySlotFill : ∀ k k1 k2, Statement (.keySlotFill k k1 k2) := fun _ _ _ => rfl
theorem keySlotEmpty : ∀ k, Statement (.keySlotEmpty k) := fun _ => rfl
theorem getMeasurements : Statement .getMeasurements := rfl
theorem mailboxWrite : ∀ v, Statement (.mailboxWrite v) := fun _ => rfl
theorem msWake : ∀ ev, Statement (.msWake ev) := fun _ => rfl
theorem clusterGate : ∀ die k, Statement (.clusterGate die k) := fun _ _ => rfl
theorem clusterUngate : ∀ die k, Statement (.clusterUngate die k) := fun _ _ => rfl
theorem fusionChange : ∀ die k, Statement (.fusionChange die k) := fun _ _ => rfl
theorem remoteWrite : ∀ w src off v, Statement (.remoteWrite w src off v) := fun _ _ _ _ => rfl
theorem ptpSync : ∀ ns off, Statement (.ptpSync ns off) := fun _ _ => rfl
theorem standaloneTimeTimeout : Statement .standaloneTimeTimeout := rfl
theorem powerOn : Statement .powerOn := rfl
theorem moduleReset : Statement .moduleReset := rfl
theorem memoryCheckCompletion : Statement .memoryCheckCompletion := rfl
theorem tlbLoad : ∀ who seg page, Statement (.tlbLoad who seg page) := fun _ _ _ => rfl
theorem portRetirement : ∀ p, Statement (.portRetirement p) := fun _ => rfl

end Sys2Proof.Laws.Homes
end

