-- ==== Sys2Proof/Machine/Toolchain.lean ====
section
/-! DEFINITION. The assembler zenas and the linker zenld (R94 to R99, R305): lines, expressions, engine statements, directives,
placement, relocations, the launch header. The machine's own definitions do not use this file. -/

namespace Sys2Proof.Machine

abbrev AsmName := List Char

/-- What zenas or zenld reports instead of writing a file (R94 to R99). -/
inductive AsmError
  | badLine | badLabel | labelIsRegister | badGuard | guardHere | badNumber | badExpression | zeroDivisor | unknownName
  | notAWord | payloadCount | wrongSection | noSection | badAlign | badBlock | outsideHeader | headerTwice | badWidths
  | badSwizzle | segmentTwice | badSegment | noAsEntry | noCodeSegment | beyondLimit | undefinedLabel | relocRange
deriving DecidableEq, Repr

/-! ## Lines (R94) -/

/-- R94: a comment runs from a semicolon or two slashes to the end of the line. -/
def cutComment : List Char → List Char
  | [] => []
  | c :: r => if c = ';' || (c = '/' && r.head? = some '/') then [] else c :: cutComment r

def trimText (l : List Char) : List Char := ((l.dropWhile Char.isWhitespace).reverse.dropWhile Char.isWhitespace).reverse

/-- R95: a name with a number below `n`. -/
def numbered (stem : String) (n : Nat) : List AsmName := (List.range n).map fun k => stem.toList ++ (toString k).toList

/-- R95: the names of registers and queues, which no label may have. -/
def registerNames : List AsmName :=
  numbered "g" 32 ++ numbered "p" 8 ++ numbered "t" 4 ++ numbered "v" 32 ++ numbered "m" 8 ++ numbered "acc" 4
    ++ numbered "seg" 64 ++ numbered "s" 63 ++ numbered "q" 4 ++ numbered "y" 2
    ++ ["none".toList, "lq".toList, "bqa".toList, "bqe".toList]

def labelHead (c : Char) : Bool := c.isAlpha || c = '_'
def labelTail (c : Char) : Bool := c.isAlpha || c.isDigit || c = '_' || c = '.'

/-- R94: whether a text is a label, and not one spelled as a register or queue. -/
def checkLabel (l : AsmName) : Except AsmError AsmName :=
  match l with
  | [] => .error .badLabel
  | c :: r =>
    if !(labelHead c && r.all labelTail) then .error .badLabel
    else if registerNames.contains l then .error .labelIsRegister
    else .ok l

/-- A line: label, guard, mnemonic or directive, and its operands as texts. -/
structure AsmLine where
  label : Option AsmName
  guard : Option Guard
  word : AsmName
  operands : List AsmName
deriving DecidableEq, Repr

/-- R94, R95: operands are separated by commas, except inside the brackets of a memory operand. -/
def splitOperands : Bool → AsmName → List Char → List AsmName
  | _, cur, [] => [cur.reverse]
  | inside, cur, c :: r =>
    if c = ',' && !inside then cur.reverse :: splitOperands false [] r
    else splitOperands (c = '[' || (inside && c ≠ ']')) (c :: cur) r

/-- R94: a guard (pn) or (!pn) at the head of a text. -/
def splitGuard (l : List Char) : Except AsmError (Option Guard × List Char) :=
  let pred := fun (c : Char) => if '0' ≤ c && c ≤ '7' then some (BitVec.ofNat 3 (c.toNat - 48)) else none
  match l with
  | '(' :: '!' :: 'p' :: c :: ')' :: r => match pred c with | some p => .ok (some ⟨p, true⟩, trimText r) | none => .error .badGuard
  | '(' :: 'p' :: c :: ')' :: r => match pred c with | some p => .ok (some ⟨p, false⟩, trimText r) | none => .error .badGuard
  | '(' :: _ => .error .badGuard
  | _ => .ok (none, l)

/-- R94: the optional label of a line. -/
def splitLabel (l : List Char) : Except AsmError (Option AsmName × List Char) :=
  match l.span (· ≠ ':') with
  | (_, []) => .ok (none, l)
  | (a, _ :: r) => match checkLabel (trimText a) with | .ok n => .ok (some n, trimText r) | .error e => .error e

/-- R94: a source line. -/
def readLine (text : List Char) : Except AsmError AsmLine :=
  match splitLabel (trimText (cutComment text)) with
  | .error e => .error e
  | .ok (n, l) =>
    match splitGuard l with
    | .error e => .error e
    | .ok (g, r) =>
      let (w, o) := r.span fun c => !c.isWhitespace
      if w = [] && g.isSome then .error .badLine
      else .ok ⟨n, g, w, if trimText o = [] then [] else (splitOperands false [] o).map trimText⟩

/-- R94: what a statement is, for its guard. -/
inductive StmtKind | asWord | rep | esWord | directive | engine
deriving DecidableEq, Repr

/-- R94: only an AS word other than REP takes a guard. -/
def guardAllowed (k : StmtKind) (g : Option Guard) : Bool := g.isNone || k = .asWord

/-! ## Expressions (R95) -/

/-- R95: a digit of a base. -/
def digitOf (base : Nat) (c : Char) : Option Nat :=
  let n := if c.isDigit then c.toNat - 48 else if 'a' ≤ c && c ≤ 'f' then c.toNat - 87 else if 'A' ≤ c && c ≤ 'F' then c.toNat - 55 else 99
  if n < base then some n else none

/-- R95: digits after the first, underscores among them. -/
def moreDigits (base : Nat) : Nat → List Char → Option Nat
  | v, [] => some v
  | v, '_' :: r => moreDigits base v r
  | v, c :: r => match digitOf base c with | some d => moreDigits base (v * base + d) r | none => none

/-- R95: a number: decimal, hexadecimal or binary. -/
def readNumber (l : List Char) : Option Nat :=
  let go := fun (base : Nat) (r : List Char) => match r with | c :: r => (digitOf base c).bind fun d => moreDigits base d r | [] => none
  match l with
  | '0' :: 'x' :: r => go 16 r
  | '0' :: 'b' :: r => go 2 r
  | _ => go 10 l

inductive AsmFun | lo | hi | seg | off
deriving DecidableEq, Repr

inductive AsmOp | mul | div | rem | add | sub | shl | shr | band | bxor | bor
deriving DecidableEq, Repr

/-- R95: how tightly an operator binds: the higher, the tighter. -/
def AsmOp.level : AsmOp → Nat
  | .mul | .div | .rem => 6
  | .add | .sub => 5
  | .shl | .shr => 4
  | .band => 3
  | .bxor => 2
  | .bor => 1

inductive AsmTok | num (n : Nat) | name (n : AsmName) | op (o : AsmOp) | tilde | open_ | close
deriving DecidableEq, Repr

/-- R95: the tokens of an expression; `fuel` bounds their number. -/
def tokens : Nat → List Char → Option (List AsmTok)
  | 0, _ => none
  | n + 1, l =>
    let one := fun (t : AsmTok) (r : List Char) => (tokens n r).map (t :: ·)
    match l.dropWhile Char.isWhitespace with
    | [] => some []
    | '(' :: r => one .open_ r
    | ')' :: r => one .close r
    | '~' :: r => one .tilde r
    | '*' :: r => one (.op .mul) r
    | '/' :: r => one (.op .div) r
    | '%' :: r => one (.op .rem) r
    | '+' :: r => one (.op .add) r
    | '-' :: r => one (.op .sub) r
    | '<' :: '<' :: r => one (.op .shl) r
    | '>' :: '>' :: r => one (.op .shr) r
    | '&' :: r => one (.op .band) r
    | '^' :: r => one (.op .bxor) r
    | '|' :: r => one (.op .bor) r
    | c :: r =>
      let (w, r) := (c :: r).span labelTail
      if c.isDigit then (readNumber w).bind fun v => one (.num v) r
      else if labelHead c then one (.name w) r
      else none

inductive AsmExpr
  | num (n : Nat) | name (n : AsmName) | neg (a : AsmExpr) | compl (a : AsmExpr) | bin (o : AsmOp) (a b : AsmExpr)
  | app (f : AsmFun) (a : AsmExpr)
deriving DecidableEq, Repr

def asmFun (n : AsmName) : Option AsmFun :=
  if n = ['l', 'o'] then some .lo else if n = ['h', 'i'] then some .hi else if n = ['s', 'e', 'g'] then some .seg
  else if n = ['o', 'f', 'f'] then some .off else none

/-- A closing parenthesis after an expression. -/
def closing (x : Option (AsmExpr × List AsmTok)) (f : AsmExpr → AsmExpr) : Option (AsmExpr × List AsmTok) :=
  match x with
  | some (e, .close :: r) => some (f e, r)
  | _ => none

/-- R95: precedence climbing from a level: level 7 is a unary or primary expression; `left` is what has been read of a level. -/
def parseExpr : Nat → Nat → Option AsmExpr → List AsmTok → Option (AsmExpr × List AsmTok)
  | 0, _, _, _ => none
  | n + 1, 7, _, ts =>
    match ts with
    | .op .sub :: r => (parseExpr n 7 none r).map fun x => (.neg x.1, x.2)
    | .tilde :: r => (parseExpr n 7 none r).map fun x => (.compl x.1, x.2)
    | .num v :: r => some (.num v, r)
    | .name f :: .open_ :: r => (asmFun f).bind fun g => closing (parseExpr n 1 none r) (.app g)
    | .name x :: r => some (.name x, r)
    | .open_ :: r => closing (parseExpr n 1 none r) id
    | _ => none
  | n + 1, lv, none, ts => (parseExpr n (lv + 1) none ts).bind fun x => parseExpr n lv (some x.1) x.2
  | n + 1, lv, some a, ts =>
    match ts with
    | .op o :: r =>
      if o.level = lv then (parseExpr n (lv + 1) none r).bind fun x => parseExpr n lv (some (.bin o a x.1)) x.2
      else some (a, ts)
    | _ => some (a, ts)

/-- R95: an expression's text. -/
def readExpr (l : List Char) : Except AsmError AsmExpr :=
  match (tokens (l.length + 1) l).bind fun ts => parseExpr (16 * ts.length + 16) 1 none ts with
  | some (e, []) => .ok e
  | _ => .error .badExpression

/-- R99: the forms in which an operand may refer to a relocatable symbol, with a constant added. -/
inductive RelForm | full | lo | hi | low16 | seg | off
deriving DecidableEq, Repr

/-- The value of an expression: a number, or a form of a symbol that zenld resolves. -/
inductive AsmVal | abs (v : Int) | rel (f : RelForm) (sym : AsmName) (add : Int)
deriving DecidableEq, Repr

/-- R95: a binary operator on numbers; quotient and remainder as DIV and REM give them (R102). -/
def AsmOp.value (o : AsmOp) (a b : Int) : Except AsmError Int :=
  match o with
  | .mul => .ok (a * b)
  | .div => if b = 0 then .error .zeroDivisor else .ok (Int.tdiv a b)
  | .rem => if b = 0 then .error .zeroDivisor else .ok (Int.tmod a b)
  | .add => .ok (a + b)
  | .sub => .ok (a - b)
  | .shl => if b < 0 then .error .badExpression else .ok (a * 2 ^ b.toNat)
  | .shr => if b < 0 then .error .badExpression else .ok (a / 2 ^ b.toNat)
  | .band => .ok (Int.land a b)
  | .bxor => .ok (Int.xor a b)
  | .bor => .ok (Int.lor a b)

/-- R95: a function of a number taken as a segment address. -/
def AsmFun.value (f : AsmFun) (v : Int) : Int :=
  let w := BitVec.ofInt 64 v
  match f with
  | .lo => (w.extractLsb' 0 32).toNat
  | .hi => (w.extractLsb' 32 32).toNat
  | .seg => (w.extractLsb' 58 6).toNat
  | .off => (w.extractLsb' 0 58).toNat

/-- R95, R99: the value of an expression. `equ` gives the constants of .equ; any other name is a symbol. -/
def AsmExpr.value (equ : AsmName → Option Int) : AsmExpr → Except AsmError AsmVal
  | .num n => .ok (.abs n)
  | .name x => .ok (match equ x with | some v => .abs v | none => .rel .full x 0)
  | .neg a => match a.value equ with | .ok (.abs v) => .ok (.abs (-v)) | .ok _ => .error .badExpression | .error e => .error e
  | .compl a => match a.value equ with | .ok (.abs v) => .ok (.abs (-v - 1)) | .ok _ => .error .badExpression | .error e => .error e
  | .bin o a b =>
    match a.value equ, b.value equ with
    | .error e, _ => .error e
    | _, .error e => .error e
    | .ok (.abs x), .ok (.abs y) => match o.value x y with | .ok v => .ok (.abs v) | .error e => .error e
    | .ok (.rel .full s k), .ok (.abs y) =>
      match o with
      | .add => .ok (.rel .full s (k + y))
      | .sub => .ok (.rel .full s (k - y))
      | .band => if k = 0 && y = 0xFFFF then .ok (.rel .low16 s 0) else .error .badExpression
      | _ => .error .badExpression
    | .ok (.abs x), .ok (.rel .full s k) => match o with | .add => .ok (.rel .full s (k + x)) | _ => .error .badExpression
    | _, _ => .error .badExpression
  | .app f a =>
    match a.value equ with
    | .error e => .error e
    | .ok (.abs v) => .ok (.abs (f.value v))
    | .ok (.rel .full s k) => .ok (.rel (match f with | .lo => .lo | .hi => .hi | .seg => .seg | .off => .off) s k)
    | .ok _ => .error .badExpression

/-! ## Relocations (R99) -/

inductive RelocCode
  | segAddr64 | segLo32 | segHi32 | pcRel20 | epcRel21 | imm17 | imm16h (h : BitVec 2) | imm12 | seg6 | off8 | imm16l
deriving DecidableEq, Repr

/-- R99: the code's number. -/
def RelocCode.code : RelocCode → Nat
  | .segAddr64 => 1 | .segLo32 => 2 | .segHi32 => 3 | .pcRel20 => 4 | .epcRel21 => 5 | .imm17 => 6 | .imm16h _ => 7
  | .imm12 => 8 | .seg6 => 9 | .off8 => 10 | .imm16l => 11

/-- A field of an object that zenld fills: its form, symbol and constant. -/
structure Fixup where
  code : RelocCode
  form : RelForm
  sym : AsmName
  add : Int
deriving DecidableEq, Repr

/-- The operand fields of statements. -/
inductive AsmField | dword | word | pbr | ebr | ldi | ldih (h : BitVec 2) | imm12 | sega | off8
deriving DecidableEq, Repr

/-- R99: the relocation of a field for a form; none where the form may not stand there. -/
def AsmField.reloc (f : AsmField) (r : RelForm) : Option RelocCode :=
  match f, r with
  | .dword, .full | .dword, .off => some .segAddr64
  | .word, .lo => some .segLo32
  | .word, .hi => some .segHi32
  | .pbr, .full => some .pcRel20
  | .ebr, .full => some .epcRel21
  | .ldi, .full | .ldi, .off => some .imm17
  | .ldi, .low16 => some .imm16l
  | .ldih h, .full => some (.imm16h h)
  | .imm12, .full | .imm12, .off => some .imm12
  | .sega, .seg => some .seg6
  | .off8, .full | .off8, .off => some .off8
  | _, _ => none

/-- Whether an integer fits a signed field. -/
def fitsInt (n : Nat) (v : Int) : Bool := -(2 ^ (n - 1)) ≤ v && v < 2 ^ (n - 1)

/-- The bits of a word from `lo` on replaced by `n` bits of a number. -/
def putField (w : Word) (lo n : Nat) (v : Int) : Word :=
  let m : Word := BitVec.ofNat 64 (2 ^ n - 1) <<< lo
  (w &&& ~~~m) ||| (((BitVec.ofInt 64 v) <<< lo) &&& m)

/-- R99: a field filled: `seg` and `off` are the symbol's, the constant already added; `atSeg` and `at_` are the word's own. -/
def RelocCode.apply (c : RelocCode) (form : RelForm) (seg : Nat) (off : Int) (atSeg at_ : Nat) (w : Word) : Except AsmError Word :=
  let addr : Int := seg * 2 ^ 58 + off
  let v := if form = .off then off else addr
  let check := fun (ok : Bool) (x : Word) => if ok then (Except.ok x : Except AsmError Word) else .error .relocRange
  match c with
  | .segAddr64 => .ok (BitVec.ofInt 64 v)
  | .segLo32 => .ok (putField w 0 32 addr)
  | .segHi32 => .ok (putField w 0 32 (addr / 2 ^ 32))
  | .pcRel20 => check (seg = atSeg && (off - at_) % 4 = 0 && fitsInt 20 ((off - at_) / 4)) (putField w 0 20 ((off - at_) / 4))
  | .epcRel21 => check (seg = atSeg && (off - at_) % 4 = 0 && fitsInt 21 ((off - at_) / 4)) (putField w 0 21 ((off - at_) / 4))
  | .imm17 => check (fitsInt 17 v) (putField w 0 17 v)
  | .imm16h h => .ok (putField w 0 16 (v / 2 ^ (16 * h.toNat)))
  | .imm12 => check (fitsInt 12 v) (putField w 0 12 v)
  | .seg6 => check (seg < 64) (putField w 0 6 seg)
  | .off8 => check (v % 8 = 0 && -1024 ≤ v && v ≤ 1016) (putField w 0 8 (v / 8))
  | .imm16l => .ok (putField w 0 17 (v % 2 ^ 16))

/-! ## Statements of a section (R96, R97) -/

inductive Section | as | es | mx | ce0 | ce1 | xe | data
deriving DecidableEq, Repr

/-- R98: the order in which zenld places sections. -/
def sectionOrder : List Section := [.as, .es, .mx, .ce0, .ce1, .xe, .data]

/-- What a section holds of one statement: its labels, the alignment before it, its bytes, the field zenld fills. -/
structure ObjStmt where
  labels : List AsmName
  align : Nat
  bytes : List Byte
  fix : Option Fixup
deriving DecidableEq, Repr

/-- R6: the bytes of a word. -/
def bytesLe (n : Nat) (w : Word) : List Byte := (List.range n).map fun k => w.extractLsb' (8 * k) 8

/-- R95, R97: an instruction stands only in its sequencer's section, and every operand within its range. -/
def instrWord (sec : Section) (i : Instr) : Except AsmError Word32 :=
  if !i.wf then .error .notAWord
  else
    match encodeAs i, encodeEs i with
    | some w, _ => if sec = .as then .ok w else .error .wrongSection
    | none, some w => if sec = .es then .ok w else .error .wrongSection
    | none, none => .error .notAWord

/-- R90: mnemonic, opcode, payload words and the sections that take the command. -/
def engineOps : List (String × Nat × Nat × List Section) :=
  [("MHDR", 0x10, 2, [.mx]), ("MOPA", 0x11, 4, [.mx]), ("MOPB", 0x12, 4, [.mx]), ("MMA", 0x13, 1, [.mx]), ("MMAZ", 0x14, 1, [.mx]),
   ("MWB", 0x15, 5, [.mx]), ("MRN", 0x16, 1, [.mx]), ("MCLR", 0x17, 1, [.mx]), ("MTHR", 0x18, 1, [.mx]),
   ("COPY", 0x20, 10, [.ce0, .ce1]), ("COPYN", 0x21, 12, [.ce0, .ce1]), ("GATH", 0x22, 14, [.ce0, .ce1]),
   ("SCAT", 0x23, 14, [.ce0, .ce1]), ("FILL", 0x24, 8, [.ce0, .ce1]), ("FLAGW", 0x25, 4, [.ce0, .ce1]),
   ("CMPR", 0x26, 10, [.ce0, .ce1]), ("EXPN", 0x27, 10, [.ce0, .ce1])]
  ++ [("UNFOLD", 0x30, 14, [.xe]), ("XPOSE", 0x31, 10, [.xe]), ("RELAY", 0x32, 10, [.xe]),
   ("HOFF", 0x40, 10, [.data]), ("HPULL", 0x41, 6, [.data]), ("HCANCEL", 0x42, 2, [.data]),
   ("SWOUT", 0x48, 10, [.data]), ("SWIN", 0x49, 10, [.data]), ("RCOPY", 0x4A, 12, [.data])]

/-- R96: an engine statement's flags start clear, clear, cell and 0. -/
def hdrDefault (wait sig : SemNo) : Hdr := ⟨wait, sig, false, false, .cell, 0⟩

/-- R95: a semaphore operand, or none. -/
def readSem (t : AsmName) : Option SemNo :=
  if t = "none".toList then some 63
  else match t with
    | 's' :: r => if r.all Char.isDigit then (readNumber r).bind fun n => if n < 63 then some (BitVec.ofNat 6 n) else none else none
    | _ => none

/-- R95. -/
def readScope (t : AsmName) : Option Scope :=
  ([("cell", Scope.cell), ("cluster", .cluster), ("die", .die), ("package", .package), ("system", .system)].find?
    fun x => x.1.toList = t).map (·.2)

/-- R96: a flag of an engine statement. -/
def readFlag (t : AsmName) (h : Hdr) : Option Hdr :=
  if t = "acq".toList then some { h with acq := true }
  else if t = "rel".toList then some { h with rel := true }
  else
    match t.span (· ≠ '=') with
    | (n, _ :: v) =>
      if n = "scope".toList then (readScope v).map fun c => { h with scope := c }
      else if n = "class".toList then (readNumber v).bind fun k => if k < 16 then some { h with cls := BitVec.ofNat 4 k } else none
      else none
    | _ => none

/-- R96: the flags at the head of a list of operands. -/
def readFlags (h : Hdr) : List AsmName → Hdr × List AsmName
  | [] => (h, [])
  | t :: r => match readFlag t h with | some h => readFlags h r | none => (h, t :: r)

/-- R95: the expression's value in the field of a statement: its number, which must fit, or the fixup. -/
def fieldValue (equ : AsmName → Option Int) (f : AsmField) (n : Nat) (t : AsmName) : Except AsmError (Word × Option Fixup) :=
  match readExpr t with
  | .error e => .error e
  | .ok x =>
    match x.value equ with
    | .error e => .error e
    | .ok (.abs v) => if -(2 ^ (n - 1)) ≤ v && v < 2 ^ n then .ok (BitVec.ofInt 64 v, none) else .error .badNumber
    | .ok (.rel r s k) => match f.reloc r with | some c => .ok (0, some ⟨c, r, s, k⟩) | none => .error .badExpression

/-- R97: .word, .dword and payload words: one object per expression. -/
def exprWords (equ : AsmName → Option Int) (f : AsmField) (size : Nat) : List AsmName → Except AsmError (List ObjStmt)
  | [] => .ok []
  | t :: r =>
    match fieldValue equ f (8 * size) t, exprWords equ f size r with
    | .ok (w, x), .ok l => .ok (⟨[], 1, bytesLe size w, x⟩ :: l)
    | .error e, _ => .error e
    | _, .error e => .error e

/-- R96: an engine statement: a header word and as many payload words as R90 gives the command. -/
def engineStmt (equ : AsmName → Option Int) (sec : Section) (mnem : AsmName) (ops : List AsmName) : Except AsmError (List ObjStmt) :=
  match engineOps.find? fun x => x.1.toList = mnem, ops with
  | some (_, opc, n, secs), w :: s :: r =>
    match readSem w, readSem s with
    | some w, some s =>
      let q := readFlags (hdrDefault w s) r
      if !secs.contains sec then .error .wrongSection
      else if q.2.length ≠ n then .error .payloadCount
      else
        match exprWords equ .word 4 q.2 with
        | .ok l => .ok (⟨[], 1, bytesLe 4 ((encHdr (BitVec.ofNat 7 opc) q.1 (BitVec.ofNat 4 n)).zeroExtend 64), none⟩ :: l)
        | .error e => .error e
    | _, _ => .error .badLine
  | _, _ => .error .badLine

/-! ## Directives (R97) -/

/-- R97: what .entry names. -/
inductive EntryOf | as | es | eng (e : Eng)
deriving DecidableEq, Repr

/-- The directives of R97 but .word; a field of .segment is given as its name and the text of its value (R277). -/
inductive Directive
  | section_ (s : Section)
  | launch (order : Nat) (swizzle : Nat) (ops : Option AsmName)
  | wid (ws : List Nat)
  | segment (n : Nat) (kind : AsmName) (fields : List (AsmName × AsmName))
  | entry (of_ : EntryOf) (label : AsmName)
  | align (n : Nat)
  | block (bytes : List Byte)
  | equ (name : AsmName) (v : Int)
  | end_
deriving DecidableEq, Repr

/-- R97: a launch header under construction. -/
structure LaunchSrcHdr where
  order : Nat
  swizzle : Nat
  ops : Option AsmName
  widths : List Nat
  segs : List (Nat × SegEnt)
  entries : List (EntryOf × AsmName)
deriving DecidableEq, Repr

/-- What zenas has read of its files: the open section, labels and alignment that wait for a statement, statements, constants, the
header, whether it is closed. -/
structure Asm where
  sec : Option Section
  labels : List AsmName
  pad : Nat
  objs : List (Section × ObjStmt)
  equs : List (AsmName × Int)
  hdr : Option LaunchSrcHdr
  closed : Bool
deriving DecidableEq, Repr

def Asm.init : Asm := ⟨none, [], 1, [], [], none, false⟩
def Asm.equ (a : Asm) (n : AsmName) : Option Int := (a.equs.find? (·.1 = n)).map (·.2)

/-- Statements join the open section, the first one with the labels and at the alignment that wait. -/
def Asm.emit (a : Asm) (l : List ObjStmt) : Except AsmError Asm :=
  match a.sec, l with
  | none, _ => .error .noSection
  | some _, [] => .ok a
  | some s, o :: r => .ok { a with
      labels := [], pad := 1
      objs := a.objs ++ (s, { o with labels := a.labels ++ o.labels, align := max o.align a.pad }) :: r.map fun o => (s, o) }

/-- Labels after the last statement of a section stand at its end. -/
def Asm.flush (a : Asm) : Except AsmError Asm := if a.labels = [] then .ok a else a.emit [⟨[], 1, [], none⟩]

/-- R97: powers of two. -/
def isPow2 (n : Nat) : Bool := n ≠ 0 && 2 ^ Nat.log2 n = n

/-- R277: the kinds of .segment. -/
def segKinds : List AsmName := ["linear".toList, "tensor".toList, "ring".toList, "scratch".toList]

/-- R277: the place of a value in a list of names. -/
def nameIdx (l : List String) (t : AsmName) : Option Nat := l.findIdx? fun x => x.toList = t

/-- R277: the number an expression gives, from `lo` on and below `hi`. -/
def segNum (equ : AsmName → Option Int) (lo hi : Nat) (t : AsmName) : Option Nat :=
  match readExpr t with
  | .error _ => none
  | .ok x =>
    match x.value equ with
    | .ok (.abs v) => if (lo : Int) ≤ v && v < hi then some v.toNat else none
    | _ => none

/-- R277: a PERM string: r, w and x, each at most once. -/
def segPerm (t : AsmName) : Option Nat :=
  if t ≠ [] && t.all (fun c => c = 'r' || c = 'w' || c = 'x') && t.Nodup then
    some ((if t.contains 'r' then 4 else 0) + (if t.contains 'w' then 2 else 0) + (if t.contains 'x' then 1 else 0))
  else none

/-- A field of `n` bits at bit `lo` of dword 0. -/
def SegEnt.put0 (e : SegEnt) (lo n v : Nat) : SegEnt := { e with d0 := putField e.d0 lo n v }

/-- R277: an entry with its defaults, for kind 0 linear, 1 tensor, 2 ring, 3 scratch. -/
def segDefault (kind : Nat) : SegEnt :=
  let e := (⟨1 <<< 63, 0, 0, 0⟩ : SegEnt).put0 60 3 kind
  match kind with
  | 0 => ((e.put0 57 3 1).put0 51 3 4).put0 33 1 1
  | 1 => (((e.put0 57 3 2).put0 51 3 4).put0 33 1 1).put0 34 2 1
  | _ => e.put0 51 3 6

/-- R275, R277: the kinds that a field may be named for; the layout of a tensor stands where LIMIT would. -/
def segKindsOf (name : String) : List Nat :=
  match name with
  | "loc" | "perm" | "base" => [0, 1, 2, 3]
  | "limit" => [0, 2, 3]
  | "die" | "pageable" | "cpol" | "cmp" | "keyid" | "root" => [0, 1]
  | "engine" => [2]
  | "fmt" | "handle" | "ex0" | "ex1" | "ex2" | "ex3" => [1]
  | _ => []

/-- R277: one named field of .segment; none for a name or value outside the table, or a name the kind does not take. -/
def segField (equ : AsmName → Option Int) (kind : Nat) (e : SegEnt) (name v : AsmName) : Option SegEnt :=
  let n := String.ofList name
  let ext := fun (k : Nat) => (segNum equ 1 65537 v).map fun x => { e with d2 := putField e.d2 (16 * k) 16 (x - 1 : Nat) }
  if !(segKindsOf n).contains kind then none
  else
    match n with
    | "loc" => (nameIdx ["spad", "sram", "tstore", "host", "cxl"] v).map (e.put0 57 3)
    | "die" => (segNum equ 0 6 v).map (e.put0 54 3)
    | "perm" => (segPerm v).map (e.put0 51 3)
    | "pageable" => (segNum equ 0 2 v).map (e.put0 50 1)
    | "cpol" => (nameIdx ["alloc", "noalloc", "bypass"] v).map (e.put0 48 2)
    | "cmp" => (segNum equ 0 2 v).map (e.put0 47 1)
    | "keyid" => (segNum equ 0 512 v).map fun k => (e.put0 38 9 k).put0 33 1 0
    | "engine" => (nameIdx ["mx", "ce0", "ce1", "xe"] v).map (e.put0 36 2)
    | "fmt" => (nameIdx ["raw", "bx7", "bx3"] v).map (e.put0 34 2)
    | "handle" => (segNum equ 0 (2 ^ 32) v).map (e.put0 0 32)
    | "base" => (segNum equ 0 (2 ^ 64) v).map fun x => { e with d1 := BitVec.ofNat 64 x }
    | "limit" => (segNum equ 0 (2 ^ 64) v).map fun x => { e with d2 := BitVec.ofNat 64 x }
    | "root" => (segNum equ 0 (2 ^ 64) v).map fun x => { e with d3 := BitVec.ofNat 64 x }
    | "ex0" => ext 0
    | "ex1" => ext 1
    | "ex2" => ext 2
    | "ex3" => ext 3
    | _ => none

/-- R97, R277: the entry of a .segment directive: every name at most once, limit given but for a tensor, engine for a ring (log 50). -/
def segEntry (equ : AsmName → Option Int) (kind : AsmName) (fields : List (AsmName × AsmName)) : Option SegEnt :=
  match segKinds.findIdx? (· = kind) with
  | none => none
  | some k =>
    let has := fun (x : String) => fields.any fun f => f.1 = x.toList
    if !(fields.map (·.1)).Nodup || (k ≠ 1 && !has "limit") || (k = 2 && !has "engine") then none
    else fields.foldl (init := some (segDefault k)) fun x f => x.bind fun e => segField equ k e f.1 f.2

/-- Change the open header. -/
def Asm.inHdr (a : Asm) (f : LaunchSrcHdr → Except AsmError LaunchSrcHdr) : Except AsmError Asm :=
  match a.hdr with
  | none => .error .outsideHeader
  | some h => if a.closed then .error .outsideHeader else match f h with | .ok h => .ok { a with hdr := some h } | .error e => .error e

/-- R97: a directive. -/
def Asm.directive (a : Asm) (d : Directive) : Except AsmError Asm :=
  match d with
  | .section_ s => a.flush.map fun a => { a with sec := some s, pad := 1 }
  | .launch order swz ops =>
    if a.hdr.isSome then .error .headerTwice
    else if !(isPow2 swz && swz ≤ 64) then .error .badSwizzle
    else .ok { a with hdr := some ⟨order, swz, ops, [], [], []⟩ }
  | .wid ws => a.inHdr fun h =>
    if ws = [] || 6 < ws.length || 64 < ws.sum then .error .badWidths else .ok { h with widths := ws }
  | .segment n kind fs => a.inHdr fun h =>
    if h.segs.any (·.1 = n) then .error .segmentTwice
    else match segEntry a.equ kind fs with
      | some e => if n < 64 then .ok { h with segs := h.segs ++ [(n, e)] } else .error .badSegment
      | none => .error .badSegment
  | .entry o l => a.inHdr fun h => .ok { h with entries := h.entries ++ [(o, l)] }
  | .align n => if isPow2 n && n ≤ 65536 then .ok { a with pad := max a.pad n } else .error .badAlign
  | .block bs =>
    if 64 < bs.length then .error .badBlock
    else a.emit [⟨[], 64, bs ++ List.replicate (64 - bs.length) 0, none⟩]
  | .equ n v => .ok { a with equs := (n, v) :: a.equs }
  | .end_ =>
    match a.flush with
    | .error e => .error e
    | .ok a =>
      match a.hdr with
      | some h => if h.entries.any (·.1 = .as) then .ok { a with closed := true } else .error .noAsEntry
      | none => .ok { a with closed := true }

/-- A line's statement: nothing, a directive, .word or .dword, an engine statement, an instruction with the operand that refers to a
symbol, if one does. -/
inductive AsmItem
  | nothing
  | dir (d : Directive)
  | word (es : List AsmName)
  | dword (es : List AsmName)
  | engine (mnem : AsmName) (ops : List AsmName)
  | instr (i : Instr) (ref : Option (AsmField × AsmName))
deriving DecidableEq, Repr

/-- R95, R99: an instruction's word, with the fixup of its symbol. -/
def Asm.instrStmt (a : Asm) (i : Instr) (ref : Option (AsmField × AsmName)) : Except AsmError (List ObjStmt) :=
  match a.sec with
  | none => .error .noSection
  | some s =>
    match instrWord s i, ref with
    | .error e, _ => .error e
    | .ok w, none => .ok [⟨[], 1, bytesLe 4 (w.zeroExtend 64), none⟩]
    | .ok w, some (f, t) =>
      match fieldValue a.equ f 64 t with
      | .ok (_, some x) => .ok [⟨[], 1, bytesLe 4 (w.zeroExtend 64), some x⟩]
      | .ok (_, none) => .error .badExpression
      | .error e => .error e

/-- R94 to R97: one line, with its labels; nothing is read after .end. -/
def Asm.line (a : Asm) (label : Option AsmName) (x : AsmItem) : Except AsmError Asm :=
  if a.closed then .ok a
  else
    let a := { a with labels := a.labels ++ label.toList }
    let put := fun (r : Except AsmError (List ObjStmt)) => match r with | .ok l => a.emit l | .error e => .error e
    match x with
    | .nothing => .ok a
    | .dir d => a.directive d
    | .word es => put (exprWords a.equ .word 4 es)
    | .dword es => put (exprWords a.equ .dword 8 es)
    | .engine m os => match a.sec with | none => .error .noSection | some s => put (engineStmt a.equ s m os)
    | .instr i r => put (a.instrStmt i r)

/-- R94 to R97: zenas: a file's lines in order, or the first error. -/
def zenas (a : Asm) : List (Option AsmName × AsmItem) → Except AsmError Asm
  | [] => .ok a
  | (n, x) :: r => match a.line n x with | .ok a => zenas a r | .error e => .error e

/-! ## zenld (R98) -/

def roundUp (n k : Nat) : Nat := (n + k - 1) / k * k

/-- Where the statements of a section start, from an offset on, with the offset after the last. -/
def layStmts (at_ : Nat) : List ObjStmt → List (Nat × ObjStmt) × Nat
  | [] => ([], at_)
  | o :: r =>
    let p := roundUp at_ o.align
    let q := layStmts (p + o.bytes.length) r
    ((p, o) :: q.1, q.2)

/-- A placed section. -/
structure Placed where
  sec : Section
  base : Nat
  stop : Nat
  stmts : List (Nat × ObjStmt)
deriving DecidableEq, Repr

/-- R98: the sections in order, each at a multiple of 256 bytes and of its largest alignment; empty sections are not placed. -/
def laySections (objs : List (Section × ObjStmt)) (at_ : Nat) : List Section → List Placed
  | [] => []
  | s :: r =>
    let l := (objs.filter (·.1 = s)).map (·.2)
    if l = [] then laySections objs at_ r
    else
      let b := roundUp at_ ((l.map (·.align)).foldl max 256)
      let q := layStmts b l
      ⟨s, b, q.2, q.1⟩ :: laySections objs q.2 r

/-- R98: the code segment: the lowest-numbered linear segment with execute permission. -/
def codeSegment (segs : List (Nat × SegEnt)) : Option (Nat × SegEnt) :=
  (List.range 64).findSome? fun k => segs.find? fun x => x.1 = k && x.2.kind = kLinear && x.2.permX

/-- R98: a label's offset in the code segment. -/
def labelAt (ps : List Placed) (n : AsmName) : Option Nat :=
  (ps.flatMap (·.stmts)).findSome? fun x => if x.2.labels.contains n then some x.1 else none

/-- R99: a statement's bytes with its field filled. -/
def fixBytes (seg : Nat) (ps : List Placed) (p : Nat) (o : ObjStmt) : Except AsmError (List Byte) :=
  match o.fix with
  | none => .ok o.bytes
  | some f =>
    match labelAt ps f.sym with
    | none => .error .undefinedLabel
    | some t =>
      let w : Word := o.bytes.foldr (fun b w => (w <<< 8) ||| b.zeroExtend 64) 0
      match f.code.apply f.form seg (t + f.add) seg p w with
      | .ok w => .ok (bytesLe o.bytes.length w)
      | .error e => .error e

/-- R98: the image: statements at their offsets, zeros in the gaps. -/
def imageOf (seg : Nat) (ps : List Placed) (img : List Byte) : List (Nat × ObjStmt) → Except AsmError (List Byte)
  | [] => .ok img
  | (p, o) :: r =>
    match fixBytes seg ps p o with
    | .ok bs => imageOf seg ps (img ++ List.replicate (p - img.length) 0 ++ bs) r
    | .error e => .error e

/-- R98: a segment address in the code segment. -/
def codeAddr (seg off : Nat) : Word := mkAddr seg off

/-- R98, R305: the dwords of the launch header. -/
def launchHeader (h : LaunchSrcHdr) (seg : Nat) (ps : List Placed) : Except AsmError (List Word) :=
  let sec := fun (s : Section) => ps.find? (·.sec = s)
  let span := fun (s : Section) => match sec s with
    | some p => [codeAddr seg p.base, BitVec.ofNat 64 (p.stop - p.base)]
    | none => [(0 : Word), 0]
  let label := fun (n : AsmName) => match labelAt ps n with | some o => Except.ok (codeAddr seg o) | none => .error AsmError.undefinedLabel
  let entry := fun (o : EntryOf) => match h.entries.find? (·.1 = o) with | some x => label x.2 | none => .ok 0
  let endOf := fun (n : AsmName) => (ps.find? fun p => p.stmts.any fun x => x.2.labels.contains n).elim 0 (·.stop)
  let count := fun (o : EntryOf) => match h.entries.find? (·.1 = o) with
    | some x => (endOf x.2 - (labelAt ps x.2).getD 0) / 4
    | none => 0
  let nseg := (h.segs.map (·.1)).foldl max 0
  let widths := (h.widths.zipIdx.map fun x => x.1 * 2 ^ (7 * x.2)).sum
  let opcnt := match h.ops with | some n => (endOf n - (labelAt ps n).getD 0) / 16 | none => 0
  let size := 4 + (nseg + 2) / 2
  do
    let code ← entry .as
    let esCode ← entry .es
    let table ← match h.ops with | some n => label n | none => .ok 0
    let rings ← [Eng.mx, .ce0, .ce1, .xe].mapM fun e => entry (.eng e)
    let ents := (List.range (nseg + 1)).flatMap fun k =>
      match h.segs.find? (·.1 = k) with | some x => [x.2.d0, x.2.d1, x.2.d2, x.2.d3] | none => [0, 0, 0, 0]
    let templates := (rings.zip [Eng.mx, .ce0, .ce1, .xe]).flatMap fun x => [x.1, BitVec.ofNat 64 (count (.eng x.2))]
    let ds := [BitVec.ofNat 64 (0x4C4E5248 * 2 ^ 32 + 2 ^ 16 + size), BitVec.ofNat 64 widths,
        BitVec.ofNat 64 (nseg * 2 ^ 26 + opcnt * 2 ^ 8 + Nat.log2 h.swizzle * 16 + h.order)]
      ++ span .as ++ span .es ++ [code, table, 0, 0, 0] ++ templates ++ [0, esCode, 0, 0] ++ List.replicate 8 0 ++ ents
    return ds ++ List.replicate (8 * size - ds.length) 0

/-- R98: the launch header and the image of the code segment, or the error for which none is written. -/
def zenld (h : LaunchSrcHdr) (objs : List (Section × ObjStmt)) : Except AsmError (List Word × List Byte) :=
  match codeSegment h.segs with
  | none => .error .noCodeSegment
  | some (seg, e) =>
    let ps := laySections objs 0 sectionOrder
    if (ps.map (·.stop)).any fun n => e.d2.toNat < n then .error .beyondLimit
    else
      do
        let ws ← launchHeader h seg ps
        let img ← imageOf seg ps [] (ps.flatMap (·.stmts))
        return (ws, img)

end Sys2Proof.Machine
end

