-- ==== Sys2Proof/Tests/Slice0.lean ====
section
/-! SUPPORT. Own tests: ill-formed terms refused (WellFormed), words of every constructor decoded, results worked out by hand from
the spec, and states that meet the hypotheses of the statements (test_meets_…). -/

namespace Sys2Proof.Tests

open Sys2Proof Sys2Proof.Machine Sys2Proof.Claims

set_option Elab.async false

/-! ## Ill-formed terms -/

/-- Guard 0, not inverted. -/
abbrev g0 : Guard := ⟨0, false⟩
/-- A header with no semaphores, at cell scope. -/
abbrev h0 : Hdr := ⟨63, 63, false, false, .cell, 0⟩

/-- R85, R88: each bound of an AS or ES operand refuses a term that breaks it. -/
theorem test_wf_words :
    (Instr.bext ⟨g0, 1, 2, 60, 4⟩).wf = false ∧ (Instr.bins ⟨g0, 1, 2, 63, 1⟩).wf = false ∧ (Instr.bext ⟨g0, 1, 2, 59, 4⟩).wf = true
    ∧ (Instr.tlbi ⟨g0, 1, .cell, .all⟩).wf = false ∧ (Instr.scld ⟨g0, 1, .system, 0⟩).wf = false
    ∧ (Instr.scst ⟨g0, 1, 2, .system, 0⟩).wf = false ∧ (Instr.scamo ⟨g0, .add, 1, 2, .system, 0⟩).wf = false
    ∧ (Instr.fence ⟨g0, .die, 0⟩).wf = false ∧ (Instr.semrd ⟨g0, 1, 63⟩).wf = false
    ∧ (Instr.setsh ⟨0, 0, 65, 2⟩).wf = false ∧ (Instr.setsh ⟨0, 0, 64, 12⟩).wf = false ∧ (Instr.setsh ⟨0, 0, 0, 2⟩).wf = false
    ∧ (Instr.setsh ⟨0, 0, 64, 2⟩).wf = true ∧ (Instr.ebr ⟨1, .always, 0⟩).wf = false ∧ (Instr.ebqp ⟨1, .always⟩).wf = false
    ∧ (Instr.vcvt ⟨0, 1, 2, false, 11⟩).wf = false := by
  decide

/-- R91: each bound of a matrix command's payload. -/
theorem test_wf_matrix :
    (Instr.mhdr h0 ⟨0, 1, 1, false, false⟩).wf = false ∧ (Instr.mhdr h0 ⟨16385, 1, 1, false, false⟩).wf = false
    ∧ (Instr.mhdr h0 ⟨1, 0, 1, false, false⟩).wf = false ∧ (Instr.mhdr h0 ⟨1, 1, 0, false, false⟩).wf = false
    ∧ (Instr.mopa h0 ⟨32, 0, 0, 0⟩).wf = false ∧ (Instr.mopb h0 ⟨64, 0, 0, 12⟩).wf = false
    ∧ (Instr.mwb h0 ⟨.f32, false, 0, 0, 32, 0, 0⟩).wf = false ∧ (Instr.mrn h0 ⟨0, 0, 0⟩).wf = false
    ∧ (Instr.mrn h0 ⟨63, 0, 0⟩).wf = false := by
  decide

/-- R91: each bound of a payload of the other engines and of the ports. -/
theorem test_wf_data :
    (Instr.copy false h0 ⟨0, 0, ⟨4, 0⟩, ⟨8, 0⟩, ⟨0, 8⟩⟩).wf = false ∧ (Instr.copy false h0 ⟨0, 0, ⟨8, 0⟩, ⟨8, 13⟩, ⟨0, 8⟩⟩).wf = false
    ∧ (Instr.copy false h0 ⟨0, 0, ⟨8, 0⟩, ⟨8, 0⟩, ⟨0, 12⟩⟩).wf = false ∧ (Instr.copy false h0 ⟨0, 0, ⟨8, 0⟩, ⟨8, 0⟩, ⟨0, 16777224⟩⟩).wf = false
    ∧ (Instr.copyn false h0 ⟨0, 0, 0, 0, 0, 0, 0, 0, 0, 0, 0, 0, 0, 12, false⟩).wf = false
    ∧ (Instr.gath false h0 ⟨0, 0, 2, 0, 8, 8, 1, 0, 0, 0⟩).wf = false ∧ (Instr.gath false h0 ⟨0, 0, 4, 0, 4, 8, 1, 0, 0, 0⟩).wf = false
    ∧ (Instr.scat false h0 ⟨0, 0, 4, 0, 65544, 8, 1, 0, 0, 0⟩).wf = false ∧ (Instr.scat false h0 ⟨0, 0, 4, 0, 8, 4, 1, 0, 0, 0⟩).wf = false
    ∧ (Instr.gath false h0 ⟨0, 0, 4, 0, 8, 8, 1, 0, 0, 12⟩).wf = false ∧ (Instr.fill false h0 ⟨0, ⟨8, 12⟩, ⟨0, 8⟩, 0⟩).wf = false
    ∧ (Instr.cmpr false h0 ⟨0, 0, 32, 0, 64, 0⟩).wf = false ∧ (Instr.cmpr false h0 ⟨0, 0, 64, 0, 32, 0⟩).wf = false
    ∧ (Instr.expn false h0 ⟨0, 0, 64, 0, 64, 0⟩).wf = false
    ∧ (Instr.unfold h0 ⟨0, 0, 8, 8, 8, 0, 0, 0, 0, 1, 0, 0, 0, 0, 0, 0, 0, 0, 0, 0, 0⟩).wf = false
    ∧ (Instr.xpose h0 ⟨0, 0, ⟨8, 0⟩, ⟨8, 0⟩, 0, 0, 8⟩).wf = false ∧ (Instr.relay h0 ⟨0, 0, 0, 0, 0, 0, 0, 0, 6, 0, 0, 0, 0⟩).wf = false
    ∧ (Instr.hoff h0 ⟨64, 0, 0, 0, 0, 0, 0, 0, false, 0⟩).wf = false ∧ (Instr.hoff h0 ⟨0, 0, 0, 0, 0, 1, 0, 0, false, 0⟩).wf = false
    ∧ (Instr.hoff h0 ⟨0, 0, 0, 0, 0, 1, 1, 1, true, 0⟩).wf = false ∧ (Instr.swout h0 ⟨64, 0, 0, 0, 0, false, 0⟩).wf = false
    ∧ (Instr.swin h0 ⟨64, 0, 0, 0, 0, false, 0⟩).wf = false ∧ (Instr.rcopy h0 ⟨0, 0, 0, 0, ⟨8, 0⟩, ⟨8, 0⟩, ⟨0, 8⟩⟩).wf = false := by
  decide

/-- R92: words that no map lists are refused: majors 0x00, an unlisted fn, a set reserved bit, a bad LEN, another engine's opcode. -/
theorem test_refused :
    decodeAs 0 = .error .zeroMajor ∧ decodeAs 0x0400000F = .error .unlistedFn ∧ decodeAs 0xE0000001 = .error .nonzeroField
    ∧ decodeEs 0x20000000 = .error .zeroMajor ∧ decodeCmd .mx 0x26000002 [0, 0] = .error .badLength
    ∧ decodeCmd .xe 0x26000001 [0] = .error .notThisEngine ∧ decodeAs 0xA0000000 = .error .bounds := by
  decide

/-! ## Words of every constructor -/

/-- AS words of this family, assembled from R81 to R86. -/
theorem test_decode_alu :
    decodeAs 0x06E3E480 = .ok (.add ⟨⟨5, true⟩, 17, 30, 9⟩)
    ∧ decodeAs 0x06E3E481 = .ok (.sub ⟨⟨5, true⟩, 17, 30, 9⟩)
    ∧ decodeAs 0x06E3E482 = .ok (.and ⟨⟨5, true⟩, 17, 30, 9⟩)
    ∧ decodeAs 0x06E3E483 = .ok (.or ⟨⟨5, true⟩, 17, 30, 9⟩)
    ∧ decodeAs 0x06E3E484 = .ok (.xor ⟨⟨5, true⟩, 17, 30, 9⟩)
    ∧ decodeAs 0x06E3E485 = .ok (.andn ⟨⟨5, true⟩, 17, 30, 9⟩)
    ∧ decodeAs 0x06E3E486 = .ok (.shl ⟨⟨5, true⟩, 17, 30, 9⟩)
    ∧ decodeAs 0x06E3E487 = .ok (.shr ⟨⟨5, true⟩, 17, 30, 9⟩)
    ∧ decodeAs 0x06E3E488 = .ok (.sar ⟨⟨5, true⟩, 17, 30, 9⟩)
    ∧ decodeAs 0x06E3E489 = .ok (.min ⟨⟨5, true⟩, 17, 30, 9⟩)
    ∧ decodeAs 0x06E3E48A = .ok (.max ⟨⟨5, true⟩, 17, 30, 9⟩)
    ∧ decodeAs 0x06E3E48B = .ok (.minn ⟨⟨5, true⟩, 17, 30, 9⟩)
    ∧ decodeAs 0x06E3E48C = .ok (.maxn ⟨⟨5, true⟩, 17, 30, 9⟩)
    ∧ decodeAs 0x06E3E490 = .ok (.mul ⟨⟨5, true⟩, 17, 30, 9⟩)
    ∧ decodeAs 0x06E3E491 = .ok (.mulh ⟨⟨5, true⟩, 17, 30, 9⟩)
    ∧ decodeAs 0x06E3E492 = .ok (.mulhn ⟨⟨5, true⟩, 17, 30, 9⟩)
    ∧ decodeAs 0x06E3E494 = .ok (.div ⟨⟨5, true⟩, 17, 30, 9⟩)
    ∧ decodeAs 0x06E3E495 = .ok (.divn ⟨⟨5, true⟩, 17, 30, 9⟩)
    ∧ decodeAs 0x06E3E496 = .ok (.rem ⟨⟨5, true⟩, 17, 30, 9⟩)
    ∧ decodeAs 0x06E3E497 = .ok (.remn ⟨⟨5, true⟩, 17, 30, 9⟩)
    ∧ decodeAs 0x06E3E00D = .ok (.clz ⟨⟨5, true⟩, 17, 30⟩)
    ∧ decodeAs 0x0423E00E = .ok (.popc ⟨⟨0, false⟩, 17, 30⟩)
    ∧ decodeAs 0x0402219D = .ok (.sel ⟨⟨0, false⟩, 1, 2, 3, 5⟩) := by
  decide

/-- AS words of this family, assembled from R81 to R86. -/
theorem test_decode_imm :
    decodeAs 0x0AC64FF8 = .ok (.addi ⟨⟨5, true⟩, 3, 4, 0xFF8⟩)
    ∧ decodeAs 0x0C06407F = .ok (.andi ⟨⟨0, false⟩, 3, 4, 0x7F⟩)
    ∧ decodeAs 0x10064800 = .ok (.ori ⟨⟨0, false⟩, 3, 4, 0x800⟩)
    ∧ decodeAs 0x14064001 = .ok (.xori ⟨⟨0, false⟩, 3, 4, 1⟩)
    ∧ decodeAs 0x180A2003 = .ok (.shli ⟨⟨0, false⟩, 5, 2, 3⟩)
    ∧ decodeAs 0x1C0A203F = .ok (.shri ⟨⟨0, false⟩, 5, 2, 63⟩)
    ∧ decodeAs 0x200A2021 = .ok (.sari ⟨⟨0, false⟩, 5, 2, 33⟩)
    ∧ decodeAs 0x240BFFFF = .ok (.ldi ⟨⟨0, false⟩, 5, 0x1FFFF⟩)
    ∧ decodeAs 0x280A89AB = .ok (.ldih1 ⟨⟨0, false⟩, 5, 0x89AB⟩)
    ∧ decodeAs 0x2C0A4567 = .ok (.ldih2 ⟨⟨0, false⟩, 5, 0x4567⟩)
    ∧ decodeAs 0x300A0123 = .ok (.ldih3 ⟨⟨0, false⟩, 5, 0x123⟩)
    ∧ decodeAs 0x340C52D4 = .ok (.bext ⟨⟨0, false⟩, 6, 5, 11, 20⟩)
    ∧ decodeAs 0x380A62C0 = .ok (.bins ⟨⟨0, false⟩, 5, 6, 11, 0⟩)
    ∧ decodeAs 0x3C0C9504 = .ok (.cmp ⟨⟨0, false⟩, 6, 9, 10, .ltn⟩)
    ∧ decodeAs 0x40046AFF = .ok (.cmpi ⟨⟨0, false⟩, 2, 6, .gen, 0xFF⟩)
    ∧ decodeAs 0x44022188 = .ok (.pand ⟨⟨0, false⟩, 1, 2, 3, false, true⟩)
    ∧ decodeAs 0x44022185 = .ok (.por ⟨⟨0, false⟩, 1, 2, 3, true, false⟩)
    ∧ decodeAs 0x44022182 = .ok (.pxor ⟨⟨0, false⟩, 1, 2, 3, false, false⟩)
    ∧ decodeAs 0x48085021 = .ok (.sega ⟨⟨0, false⟩, 4, 5, 33⟩)
    ∧ decodeAs 0x4C085307 = .ok (.adr2 ⟨⟨0, false⟩, 4, 5, 6, 7⟩) := by
  decide

/-- AS words of this family, assembled from R81 to R86. -/
theorem test_decode_sys :
    decodeAs 0x500E0020 = .ok (.srr ⟨⟨0, false⟩, 7, .trappc⟩)
    ∧ decodeAs 0x54007010 = .ok (.srw ⟨⟨0, false⟩, .acqm, 7⟩)
    ∧ decodeAs 0x5AC00000 = .ok (.rett ⟨⟨5, true⟩⟩)
    ∧ decodeAs 0x5C000000 = .ok (.halt ⟨⟨0, false⟩⟩)
    ∧ decodeAs 0xA4012345 = .ok (.trap ⟨⟨0, false⟩, 0x12345⟩)
    ∧ decodeAs 0xA806110D = .ok (.fork ⟨⟨0, false⟩, 3, 1, 2, true, 5⟩)
    ∧ decodeAs 0xAC004280 = .ok (.join ⟨⟨0, false⟩, 4, 5⟩)
    ∧ decodeAs 0xB0000000 = .ok (.exit ⟨⟨0, false⟩⟩)
    ∧ decodeAs 0xB4064280 = .ok (.enq ⟨⟨0, false⟩, .xe, 4, 5⟩)
    ∧ decodeAs 0xB80A4000 = .ok (.enqs ⟨⟨0, false⟩, .hub, 4⟩)
    ∧ decodeAs 0xBC009000 = .ok (.estart ⟨⟨0, false⟩, 9⟩) := by
  decide

/-- AS words of this family, assembled from R81 to R86. -/
theorem test_decode_mem :
    decodeAs 0x600C5202 = .ok (.lds ⟨⟨0, false⟩, 6, 5, 2, 2⟩)
    ∧ decodeAs 0x66CC5FFF = .ok (.sts ⟨⟨5, true⟩, 6, 5, 15, 0xFF⟩)
    ∧ decodeAs 0x68065104 = .ok (.ldq ⟨⟨0, false⟩, .q 3, 5, 1, 4⟩)
    ∧ decodeAs 0x6C0C4100 = .ok (.ldx ⟨⟨0, false⟩, .lq, 4, 1, 0⟩)
    ∧ decodeAs 0x700C5104 = .ok (.st ⟨⟨0, false⟩, 6, 5, 1, 4⟩)
    ∧ decodeAs 0x740A5104 = .ok (.stq ⟨⟨0, false⟩, true, 5, 1, 4⟩)
    ∧ decodeAs 0x78025104 = .ok (.pf ⟨⟨0, false⟩, true, 5, 1, 4⟩)
    ∧ decodeAs 0x7C005104 = .ok (.cwb ⟨⟨0, false⟩, false, 5, 1, 4⟩)
    ∧ decodeAs 0x80025104 = .ok (.cinv ⟨⟨0, false⟩, true, 5, 1, 4⟩)
    ∧ decodeAs 0x84007000 = .ok (.chk ⟨⟨0, false⟩, 7⟩)
    ∧ decodeAs 0x84007001 = .ok (.chkPred ⟨⟨0, false⟩, 7⟩)
    ∧ decodeAs 0x88007011 = .ok (.tlbi ⟨⟨0, false⟩, 7, .system, .segment⟩)
    ∧ decodeAs 0x8C107339 = .ok (.amo ⟨⟨0, false⟩, .swap, 7, 6, .package, 9⟩)
    ∧ decodeAs 0x90107349 = .ok (.cas ⟨⟨0, false⟩, 8, 7, 6, .system, 9⟩)
    ∧ decodeAs 0x94007029 = .ok (.scld ⟨⟨0, false⟩, 7, .die, 9⟩)
    ∧ decodeAs 0x98007319 = .ok (.scst ⟨⟨0, false⟩, 7, 6, .cluster, 9⟩)
    ∧ decodeAs 0x9C027309 = .ok (.scamo ⟨⟨0, false⟩, .and, 7, 6, .cell, 9⟩)
    ∧ decodeAs 0xA010A5A5 = .ok (.fence ⟨⟨0, false⟩, .die, 0xA5A5⟩)
    ∧ decodeAs 0xF4045104 = .ok (.ldqAcq ⟨⟨0, false⟩, .q 2, 5, 1, 4⟩)
    ∧ decodeAs 0xF80C5104 = .ok (.stRel ⟨⟨0, false⟩, 6, 5, 1, 4⟩) := by
  decide

/-- AS words of this family, assembled from R81 to R86. -/
theorem test_decode_control :
    decodeAs 0xC01FFFFF = .ok (.pbr ⟨⟨0, false⟩, 1, 0xFFFFF⟩)
    ∧ decodeAs 0xC4049000 = .ok (.pbrReg ⟨⟨0, false⟩, 2, 9⟩)
    ∧ decodeAs 0xCAC60000 = .ok (.br ⟨⟨5, true⟩, 3⟩)
    ∧ decodeAs 0xCC060000 = .ok (.brq ⟨⟨0, false⟩, 3⟩)
    ∧ decodeAs 0xD0006000 = .ok (.bqp ⟨⟨0, false⟩, 6⟩)
    ∧ decodeAs 0xD4020000 = .ok (.call ⟨⟨0, false⟩, 1⟩)
    ∧ decodeAs 0xD801F000 = .ok (.ret ⟨⟨0, false⟩, 31⟩)
    ∧ decodeAs 0xDC025000 = .ok (.loop ⟨⟨0, false⟩, 1, 5⟩)
    ∧ decodeAs 0xE0000000 = .ok (.nop ⟨⟨0, false⟩⟩)
    ∧ decodeAs 0xE4104000 = .ok (.pop ⟨⟨0, false⟩, 8, .y false⟩)
    ∧ decodeAs 0xE4060381 = .ok (.qpush ⟨⟨0, false⟩, 3, 7⟩)
    ∧ decodeAs 0xE4107002 = .ok (.qstat ⟨⟨0, false⟩, 8, .bqa⟩)
    ∧ decodeAs 0xE8000840 = .ok (.sems ⟨⟨0, false⟩, 33⟩)
    ∧ decodeAs 0xE8000841 = .ok (.semw ⟨⟨0, false⟩, 33⟩)
    ∧ decodeAs 0xE8000FC2 = .ok (.semdrop ⟨⟨0, false⟩, 63⟩)
    ∧ decodeAs 0xE8120843 = .ok (.semrd ⟨⟨0, false⟩, 9, 33⟩)
    ∧ decodeAs 0xEC085373 = .ok (.waita ⟨⟨0, false⟩, 4, 5, 6, 7, 3⟩)
    ∧ decodeAs 0xF0009000 = .ok (.waitt ⟨⟨0, false⟩, 9⟩)
    ∧ decodeAs 0xFC311000 = .ok (.rep ⟨3, 1, 1, 0⟩) := by
  decide

/-- ES words of this family, assembled from R87 and R88. -/
theorem test_decode_es_move :
    decodeEs 0x040B0402 = .ok (.setsh ⟨2, 3, 0x40, 2⟩)
    ∧ decodeEs 0x08006000 = .ok (.setshQ ⟨3⟩)
    ∧ decodeEs 0x0C904007 = .ok (.vld ⟨1, 4, 2, 7⟩)
    ∧ decodeEs 0x109040FF = .ok (.vst ⟨1, 4, 2, 0xFF⟩)
    ∧ decodeEs 0x14104000 = .ok (.vldq ⟨4, 2⟩)
    ∧ decodeEs 0x18052005 = .ok (.vsty ⟨true, 9, 5⟩)
    ∧ decodeEs 0x1D106000 = .ok (.vbc ⟨2, 4, 3⟩)
    ∧ decodeEs 0x241FFFFF = .ok (.epbr ⟨0x1FFFFF⟩)
    ∧ decodeEs 0x29A00005 = .ok (.ebr ⟨3, .any, 5⟩)
    ∧ decodeEs 0x2C000005 = .ok (.ebrq ⟨5⟩)
    ∧ decodeEs 0x31C00000 = .ok (.ebqp ⟨3, .none⟩)
    ∧ decodeEs 0x34000021 = .ok (.esemw ⟨33⟩)
    ∧ decodeEs 0x38000021 = .ok (.esems ⟨33⟩)
    ∧ decodeEs 0x3C000000 = .ok (.eexit)
    ∧ decodeEs 0xFFFA5100 = .ok (.erep ⟨63, 10, 5, 1⟩) := by
  decide

/-- ES words of this family, assembled from R87 and R88. -/
theorem test_decode_es_arith :
    decodeEs 0x41110C01 = .ok (.vadd ⟨2, 4, 8, .reg 12, true⟩)
    ∧ decodeEs 0x45110C01 = .ok (.vsub ⟨2, 4, 8, .reg 12, true⟩)
    ∧ decodeEs 0x49110C01 = .ok (.vmul ⟨2, 4, 8, .reg 12, true⟩)
    ∧ decodeEs 0x41110380 = .ok (.vadd ⟨2, 4, 8, .queue 3, false⟩)
    ∧ decodeEs 0x4D110C00 = .ok (.vfma ⟨2, 4, 8, .reg 12⟩)
    ∧ decodeEs 0x51110C00 = .ok (.vfms ⟨2, 4, 8, .reg 12⟩)
    ∧ decodeEs 0x55110C00 = .ok (.vmin ⟨2, 4, 8, .reg 12⟩)
    ∧ decodeEs 0x59110C00 = .ok (.vmax ⟨2, 4, 8, .reg 12⟩)
    ∧ decodeEs 0x81110C00 = .ok (.vand ⟨2, 4, 8, .reg 12⟩)
    ∧ decodeEs 0x85110C00 = .ok (.vor ⟨2, 4, 8, .reg 12⟩)
    ∧ decodeEs 0x89110C00 = .ok (.vxor ⟨2, 4, 8, .reg 12⟩)
    ∧ decodeEs 0x8D110C00 = .ok (.vshl ⟨2, 4, 8, .reg 12⟩)
    ∧ decodeEs 0x91110C00 = .ok (.vshr ⟨2, 4, 8, .reg 12⟩)
    ∧ decodeEs 0x95110C00 = .ok (.vsar ⟨2, 4, 8, .reg 12⟩)
    ∧ decodeEs 0x8D110180 = .ok (.vshl ⟨2, 4, 8, .queue 1⟩)
    ∧ decodeEs 0x8D110065 = .ok (.vshlImm ⟨2, 4, 8, 37⟩)
    ∧ decodeEs 0x91110065 = .ok (.vshrImm ⟨2, 4, 8, 37⟩)
    ∧ decodeEs 0x95110065 = .ok (.vsarImm ⟨2, 4, 8, 37⟩)
    ∧ decodeEs 0x5D110001 = .ok (.vabs ⟨2, 4, 8, true⟩)
    ∧ decodeEs 0x61110001 = .ok (.vneg ⟨2, 4, 8, true⟩)
    ∧ decodeEs 0x65110000 = .ok (.vrcp ⟨2, 4, 8⟩)
    ∧ decodeEs 0x69110000 = .ok (.vrsq ⟨2, 4, 8⟩)
    ∧ decodeEs 0x6D110000 = .ok (.vexp2 ⟨2, 4, 8⟩)
    ∧ decodeEs 0x71110000 = .ok (.vlog2 ⟨2, 4, 8⟩)
    ∧ decodeEs 0x75110019 = .ok (.vcvt ⟨2, 4, 8, true, 9⟩)
    ∧ decodeEs 0x78110001 = .ok (.vqb ⟨4, 8, true⟩)
    ∧ decodeEs 0x7D110001 = .ok (.vdqb ⟨2, 4, 8, true⟩) := by
  decide

/-- ES words of this family, assembled from R87 and R88. -/
theorem test_decode_es_select :
    decodeEs 0x99100000 = .ok (.viota ⟨2, 4⟩)
    ∧ decodeEs 0x9D110C00 = .ok (.vsel ⟨2, 4, 8, 12⟩)
    ∧ decodeEs 0xA1110C06 = .ok (.vcmp ⟨2, 4, 8, .reg 12, .un⟩)
    ∧ decodeEs 0xA1110382 = .ok (.vcmp ⟨2, 4, 8, .queue 3, .lt⟩)
    ∧ decodeEs 0xA4044300 = .ok (.mand ⟨1, 2, 3⟩)
    ∧ decodeEs 0xA8044300 = .ok (.mor ⟨1, 2, 3⟩)
    ∧ decodeEs 0xAC044300 = .ok (.mxor ⟨1, 2, 3⟩)
    ∧ decodeEs 0xB0044000 = .ok (.mnot ⟨1, 2⟩)
    ∧ decodeEs 0xB6844000 = .ok (.mpop ⟨5, true, 2⟩)
    ∧ decodeEs 0xC1110000 = .ok (.vrsum ⟨2, 4, 8⟩)
    ∧ decodeEs 0xC5110000 = .ok (.vrmax ⟨2, 4, 8⟩)
    ∧ decodeEs 0xC9110000 = .ok (.vrmin ⟨2, 4, 8⟩)
    ∧ decodeEs 0xCD110000 = .ok (.vrmaxi ⟨2, 4, 8⟩)
    ∧ decodeEs 0xD1110000 = .ok (.vrmini ⟨2, 4, 8⟩)
    ∧ decodeEs 0xD5110C00 = .ok (.vperm ⟨2, 4, 8, 12⟩)
    ∧ decodeEs 0xD91100FE = .ok (.vslide ⟨2, 4, 8, 0xFE⟩)
    ∧ decodeEs 0xDD110C00 = .ok (.vgath ⟨2, 4, 8, 12⟩)
    ∧ decodeEs 0xE1110C00 = .ok (.vrng ⟨2, 4, 8, 12⟩)
    ∧ decodeEs 0xE5106721 = .ok (.acrd ⟨2, 4, 3, 7, 33⟩)
    ∧ decodeEs 0xE9106721 = .ok (.acwr ⟨2, 4, 3, 7, 33⟩)
    ∧ decodeEs 0xEC006121 = .ok (.acsc ⟨3, 1, 33⟩)
    ∧ decodeEs 0xF0006021 = .ok (.acz ⟨3, 33⟩)
    ∧ decodeEs 0xF0006100 = .ok (.aczTile ⟨3⟩)
    ∧ decodeEs 0xF4106021 = .ok (.acst ⟨4, 3, 33⟩) := by
  decide

/-- Step words of these commands, assembled from R89, R90 and each command's payload table. -/
theorem test_decode_matrix :
    decodeCmd .mx 0x212AD392 [0x18040A1, 0x3] = .ok (.mhdr ⟨37, 22, true, false, .package, 9⟩ ⟨384, 129, 33, true, true⟩)
    ∧ decodeCmd .mx 0x232AD394 [0x12340, 0x4000000, 0x67000, 0x500] = .ok (.mopa ⟨37, 22, true, false, .package, 9⟩ ⟨0x400000000012340, 5, 6, 7⟩)
    ∧ decodeCmd .mx 0x252AD394 [0x12340, 0x4000000, 0x6B000, 0x500] = .ok (.mopb ⟨37, 22, true, false, .package, 9⟩ ⟨0x400000000012340, 5, 6, 11⟩)
    ∧ decodeCmd .mx 0x272AD391 [0x1086] = .ok (.mma ⟨37, 22, true, false, .package, 9⟩ ⟨true, 33, 2⟩)
    ∧ decodeCmd .mx 0x292AD391 [0x86] = .ok (.mmaz ⟨37, 22, true, false, .package, 9⟩ ⟨false, 33, 2⟩)
    ∧ decodeCmd .mx 0x2B2AD395 [0x6086, 0x12340, 0x4000000, 0x7000, 0x500] = .ok (.mwb ⟨37, 22, true, false, .package, 9⟩ ⟨.bf16, true, 33, 2, 0x400000000012340, 5, 7⟩)
    ∧ decodeCmd .mx 0x2D2AD391 [0x140086] = .ok (.mrn ⟨37, 22, true, false, .package, 9⟩ ⟨20, 33, 2⟩)
    ∧ decodeCmd .mx 0x2F2AD391 [0x86] = .ok (.mclr ⟨37, 22, true, false, .package, 9⟩ ⟨33, 2⟩)
    ∧ decodeCmd .mx 0x312AD391 [0x7F] = .ok (.mthr ⟨37, 22, true, false, .package, 9⟩ ⟨127⟩) := by
  decide

/-- Step words of these commands, assembled from R89, R90 and each command's payload table. -/
theorem test_decode_copy :
    decodeCmd .ce0 0x412AD39A [0x12340, 0x4000000, 0xABC00, 0xC000000, 0x3000, 0x40, 0x0, 0x80, 0x100, 0x9] = .ok (.copy false ⟨37, 22, true, false, .package, 9⟩ ⟨0x400000000012340, 0xC000000000ABC00, ⟨64, 3⟩, ⟨128, 0⟩, ⟨9, 256⟩⟩)
    ∧ decodeCmd .ce1 0x432AD39C [0x12340, 0x4000000, 0xABC00, 0xC000000, 0x20001, 0x40003, 0x60005, 0x80007, 0x10, 0x20, 0x7001, 0x30] = .ok (.copyn true ⟨37, 22, true, false, .package, 9⟩ ⟨0x400000000012340, 0xC000000000ABC00, 1, 2, 3, 4, 5, 6, 7, 8, 0x10, 0x20, 0x30, 7, true⟩)
    ∧ decodeCmd .ce0 0x452AD39E [0x12340, 0x4000000, 0xABC00, 0xC000000, 0x12340, 0x4000000, 0x40, 0x63, 0x80, 0x0, 0x3E8, 0x0, 0x3210, 0x0] = .ok (.gath false ⟨37, 22, true, false, .package, 9⟩ ⟨0x400000000012340, 0xC000000000ABC00, 0x400000000012340, 99, 64, 128, 1000, 3, 2, 1⟩)
    ∧ decodeCmd .ce1 0x472AD39E [0x12340, 0x4000000, 0xABC00, 0xC000000, 0x12340, 0x4000000, 0x40, 0x63, 0x80, 0x0, 0x3E8, 0x0, 0x3210, 0x0] = .ok (.scat true ⟨37, 22, true, false, .package, 9⟩ ⟨0x400000000012340, 0xC000000000ABC00, 0x400000000012340, 99, 64, 128, 1000, 3, 2, 1⟩)
    ∧ decodeCmd .ce0 0x492AD398 [0xABC00, 0xC000000, 0x4000, 0x80, 0x100, 0x9, 0x12340, 0x4000000] = .ok (.fill false ⟨37, 22, true, false, .package, 9⟩ ⟨0xC000000000ABC00, ⟨128, 4⟩, ⟨9, 256⟩, 0x400000000012340⟩)
    ∧ decodeCmd .ce1 0x4B2AD394 [0xABC00, 0xC000000, 0x12340, 0x4000000] = .ok (.flagw true ⟨37, 22, true, false, .package, 9⟩ ⟨0xC000000000ABC00, 0x400000000012340⟩)
    ∧ decodeCmd .ce0 0x4D2AD39A [0x12340, 0x4000000, 0xABC00, 0xC000000, 0x5000, 0x1000, 0x800, 0x0, 0x12340, 0x4000000] = .ok (.cmpr false ⟨37, 22, true, false, .package, 9⟩ ⟨0x400000000012340, 0xC000000000ABC00, 4096, 5, 2048, 0x400000000012340⟩)
    ∧ decodeCmd .ce1 0x4F2AD39A [0x12340, 0x4000000, 0xABC00, 0xC000000, 0x5000, 0x0, 0x800, 0x0, 0x12340, 0x4000000] = .ok (.expn true ⟨37, 22, true, false, .package, 9⟩ ⟨0x400000000012340, 0xC000000000ABC00, 0, 5, 2048, 0x400000000012340⟩) := by
  decide

/-- Step words of these commands, assembled from R89, R90 and each command's payload table. -/
theorem test_decode_transform :
    decodeCmd .xe 0x612AD39E [0x12340, 0x4000000, 0xABC00, 0xC000000, 0x8, 0x10, 0x30004, 0x10000, 0x74000, 0x50006, 0x5060708, 0x1020304, 0x9A00, 0x0] = .ok (.unfold ⟨37, 22, true, false, .package, 9⟩ ⟨0x400000000012340, 0xC000000000ABC00, 8, 16, 0x10000, 3, 4, 5, 6, 7, 1, 1, 2, 3, 4, 5, 6, 7, 8, 9, 10⟩)
    ∧ decodeCmd .xe 0x632AD39A [0x12340, 0x4000000, 0xABC00, 0xC000000, 0x3000, 0x40, 0x4000, 0x80, 0x50000, 0x20007] = .ok (.xpose ⟨37, 22, true, false, .package, 9⟩ ⟨0x400000000012340, 0xC000000000ABC00, ⟨64, 3⟩, ⟨128, 4⟩, 2, 7, 5⟩)
    ∧ decodeCmd .xe 0x652AD39A [0x12340, 0x4000000, 0xABC00, 0xC000000, 0x1, 0x2, 0x3, 0x4, 0x14000A, 0x5662001E] = .ok (.relay ⟨37, 22, true, false, .package, 9⟩ ⟨0x400000000012340, 0xC000000000ABC00, 1, 2, 3, 4, 5, 6, 3, 2, 10, 20, 30⟩) := by
  decide

/-- Step words of these commands, assembled from R89, R90 and each command's payload table. -/
theorem test_decode_ports :
    decodeCmd .ho 0x812AD39A [0x10000, 0x4000000, 0xB0000, 0xC000000, 0x50ABCDE, 0x3000, 0x707F001, 0x0, 0x9, 0x0] = .ok (.hoff ⟨37, 22, true, false, .package, 9⟩ ⟨0x400000000010000, 0xC000000000B0000, 3, 5, 0xABCDE, 7, 127, 0, true, 9⟩)
    ∧ decodeCmd .ho 0x832AD396 [0xABCDE, 0x0, 0x5, 0x6, 0x0, 0x0] = .ok (.hpull ⟨37, 22, true, false, .package, 9⟩ ⟨0xABCDE, 6, 5⟩)
    ∧ decodeCmd .ho 0x852AD392 [0xABCDE, 0x55] = .ok (.hcancel ⟨37, 22, true, false, .package, 9⟩ ⟨0xABCDE, 0x55⟩)
    ∧ decodeCmd .hub 0x912AD39A [0x10000, 0x4000000, 0x12340, 0x4000000, 0x5, 0x6, 0x1000, 0x0, 0x17, 0x0] = .ok (.swout ⟨37, 22, true, false, .package, 9⟩ ⟨0x400000000010000, 0x400000000012340, 6, 5, 0x1000, true, 7⟩)
    ∧ decodeCmd .hub 0x932AD39A [0x10000, 0x4000000, 0x12340, 0x4000000, 0x5, 0x6, 0x1000, 0x0, 0x7, 0x0] = .ok (.swin ⟨37, 22, true, false, .package, 9⟩ ⟨0x400000000010000, 0x400000000012340, 6, 5, 0x1000, false, 7⟩)
    ∧ decodeCmd .hub 0x952AD39C [0x12340, 0x4000000, 0xABC00, 0xC000000, 0x0, 0x98400, 0x3000, 0x40, 0x0, 0x80, 0x100, 0x9] = .ok (.rcopy ⟨37, 22, true, false, .package, 9⟩ ⟨0x400000000012340, 0xC000000000ABC00, 9, 33, ⟨64, 3⟩, ⟨128, 0⟩, ⟨9, 256⟩⟩) := by
  decide

/-! ## Small states -/

/-- A segment entry: kind, location, die, permissions R W X as three bits, size, base (R273). -/
def seg (kind loc die perm size base : Nat) : SegEnt :=
  ⟨BitVec.ofNat 64 (2 ^ 63 + kind * 2 ^ 60 + loc * 2 ^ 57 + die * 2 ^ 54 + perm * 2 ^ 51), BitVec.ofNat 64 base, BitVec.ofNat 64 size, 0⟩

/-- Segment 0: scratchpad; 1: 64 KiB of die SRAM with code in its first 4 KiB; 2: the ring of mx; 3: a kernel segment. -/
def segs : List SegEnt := [seg 3 0 0 6 4096 0, seg 0 1 2 7 65536 0, seg 2 0 0 6 4096 4096, seg 0 1 2 6 262144 262144]

/-- Registers put in place. -/
def regs (c : AsCore) (l : List (GReg × Word)) : AsCore := l.foldl (fun c x => c.setG x.1 ⟨x.2, false⟩) c

/-- A cell whose AS runs at the start of segment 1: g4 points into scratchpad, g5 into die SRAM, g6 to code. -/
def st : State :=
  { State.reset with
    pkg := State.reset.pkg.withKey0, mem := { State.reset.mem with binds := [⟨1, 2, 0, 0⟩] }
    cell := { State.reset.cell with
      segs := segs, asbase := mkAddr 1 0, assize := 4096, esbase := mkAddr 1 0, essize := 4096
      as := { State.reset.cell.as with
        run := .running, sys := { SysRegs.init with pwlsave := mkAddr 3 0, tvec := mkAddr 1 0x800 }
        core := regs { AsCore.init with pc := mkAddr 1 0, t := Vector.replicate 4 ⟨mkAddr 1 0x40, true⟩ }
          [(4, 64), (5, mkAddr 1 0x2000), (6, mkAddr 1 0x40), (7, 7), (8, 0xFFFFFFFFFFFFFFF8), (9, 1)] } } }

/-- The same with a tagged g10 and a tagged p3. -/
def stTag : State :=
  st.setCore { st.core with g := st.core.g.set 10 ⟨mkAddr 1 0x2000, true⟩, p := st.core.p.set 3 ⟨true, true⟩ }

/-- The same with one word stored at key `k`. -/
def poke (s : State) (k : Nat) (v : Word) : State := s.updMem fun m => m.putNow k v 0xFF false

/-- What an outcome's next state says. -/
def after (r : Host.Outcome State Fault Refusal) (f : State → Bool) : Bool :=
  match r with
  | .next s => f s
  | .fault _ => false
  | .refused _ => false

/-- The write an instruction puts into the AS pipeline, if it is still in flight. -/
def flying (r : Host.Outcome State Fault Refusal) : Option (Nat × Word) :=
  match r with
  | .next s => s.core.infl.head?.map fun e => (e.rem, e.val)
  | .fault _ => none
  | .refused _ => none

/-! ## Results (expected values by hand from R102 to R108 and the examples of chapter 04) -/

/-- R102: 7 and −8 through the 1-tick forms. -/
theorem test_alu_results :
    after (exec (.add ⟨g0, 1, 7, 8⟩) st) (fun t => (t.rg 1).v = 0xFFFFFFFFFFFFFFFF && t.core.pc = mkAddr 1 4) = true
    ∧ after (exec (.sub ⟨g0, 1, 7, 8⟩) st) (fun t => (t.rg 1).v = 15) = true
    ∧ after (exec (.andn ⟨g0, 1, 7, 8⟩) st) (fun t => (t.rg 1).v = 7) = true
    ∧ after (exec (.sar ⟨g0, 1, 8, 9⟩) st) (fun t => (t.rg 1).v = 0xFFFFFFFFFFFFFFFC) = true
    ∧ after (exec (.shr ⟨g0, 1, 8, 8⟩) st) (fun t => (t.rg 1).v = 0xFF) = true
    ∧ after (exec (.min ⟨g0, 1, 7, 8⟩) st) (fun t => (t.rg 1).v = 0xFFFFFFFFFFFFFFF8) = true
    ∧ after (exec (.minn ⟨g0, 1, 7, 8⟩) st) (fun t => (t.rg 1).v = 7) = true
    ∧ after (exec (.clz ⟨g0, 1, 7⟩) st) (fun t => (t.rg 1).v = 61) = true
    ∧ after (exec (.popc ⟨g0, 1, 8⟩) st) (fun t => (t.rg 1).v = 61) = true
    ∧ after (exec (.add ⟨⟨0, true⟩, 7, 7, 8⟩) st) (fun t => (t.rg 7).v = 7 && t.core.pc = mkAddr 1 4) = true := by
  decide +kernel

/-- R102: products after 3 ticks, quotients and remainders after 14, the corners of y = 0 and of −2^63 by −1. -/
theorem test_muldiv_results :
    flying (exec (.mul ⟨g0, 1, 7, 8⟩) st) = some (2, 0xFFFFFFFFFFFFFFC8)
    ∧ flying (exec (.mulh ⟨g0, 1, 7, 8⟩) st) = some (2, 0xFFFFFFFFFFFFFFFF)
    ∧ flying (exec (.mulhn ⟨g0, 1, 7, 8⟩) st) = some (2, 6)
    ∧ flying (exec (.div ⟨g0, 1, 8, 7⟩) st) = some (13, 0xFFFFFFFFFFFFFFFF)
    ∧ flying (exec (.rem ⟨g0, 1, 8, 7⟩) st) = some (13, 0xFFFFFFFFFFFFFFFF)
    ∧ flying (exec (.div ⟨g0, 1, 7, 0⟩) st) = some (13, 0xFFFFFFFFFFFFFFFF)
    ∧ flying (exec (.remn ⟨g0, 1, 7, 0⟩) st) = some (13, 7)
    ∧ flying (exec (.div ⟨g0, 1, 2, 3⟩) (st.setCore (regs st.core [(2, 0x8000000000000000), (3, 0xFFFFFFFFFFFFFFFF)])))
        = some (13, 0x8000000000000000) := by
  decide +kernel

/-- The example of chapter 04: a constant built, a field moved out and back, a compare. -/
theorem test_constant_example :
    after (exec (.ldi ⟨g0, 5, 0xCDEF⟩) st) (fun t => (t.rg 5).v = 0xCDEF) = true
    ∧ after (exec (.ldih1 ⟨g0, 5, 0x89AB⟩) (st.setCore (regs st.core [(5, 0xCDEF)]))) (fun t => (t.rg 5).v = 0x89ABCDEF) = true
    ∧ after (exec (.ldih3 ⟨g0, 5, 0x0123⟩) (st.setCore (regs st.core [(5, 0x456789ABCDEF)])))
        (fun t => (t.rg 5).v = 0x0123456789ABCDEF) = true
    ∧ after (exec (.bext ⟨g0, 6, 5, 11, 20⟩) (st.setCore (regs st.core [(5, 0x0123456789ABCDEF)]))) (fun t => (t.rg 6).v = 0x89A) = true
    ∧ after (exec (.bins ⟨g0, 5, 6, 11, 0⟩) (st.setCore (regs st.core [(5, 0x0123456789ABCDEF), (6, 0x89A)])))
        (fun t => (t.rg 5).v = 0x0123456789ABC89A) = true
    ∧ after (exec (.cmpi ⟨g0, 2, 6, .gen, 0xFF⟩) (st.setCore (regs st.core [(6, 0x89A)]))) (fun t => (t.rp 2).v) = true
    ∧ after (exec (.adr2 ⟨g0, 1, 5, 8, 3⟩) st) (fun t => (t.rg 1).v = mkAddr 1 0x1FC0) = true
    ∧ after (exec (.sega ⟨g0, 1, 5, 2⟩) st) (fun t => (t.rg 1).v = mkAddr 2 0x2000) = true := by
  decide +kernel


/-! ## States that meet the hypotheses: encodings and steps -/

theorem test_meets_encode :
    (Instr.add ⟨g0, 8, 16, 24⟩).wf = true ∧ encodeAs (.add ⟨g0, 8, 16, 24⟩) = some 0x04110C00
    ∧ (Instr.vfma ⟨2, 4, 8, .reg 12⟩).wf = true ∧ encodeEs (.vfma ⟨2, 4, 8, .reg 12⟩) = some 0x4D110C00
    ∧ (Instr.mma ⟨3, 4, false, true, .cell, 0⟩ ⟨false, 0, 0⟩).wf = true
    ∧ encodeCmd (.mma ⟨3, 4, false, true, .cell, 0⟩ ⟨false, 0, 0⟩) = some (.mx, [0x26188801, 0]) := by
  decide

/-- The state a slot's turn is taken in, before and after the turn is noted. -/
def entering (s : State) : State := (s.nextSlot.1.enterSlot s.nextSlot.2).getD s
def entered (s : State) : State := (entering s).mark s.nextSlot.2.turn
/-- The next slot may come now. -/
def comes (s : State) : Bool := (s.nextSlot.1.enterSlot s.nextSlot.2).isSome && (entering s).mayTurn s.nextSlot.2.turn

/-- A word placed for the AS, and for the ES. -/
def stAs : State := State.reset.withFetchWord 32 0x04110C00
def stEs : State := State.reset.withFetchWord 32 0x98880000
/-- The same under a repetition: the word after the one at the program counter is repeated. -/
def stAsRep : State :=
  let s := poke stAs (byteKey 1 2 0) 0x04110C00FC311000
  s.setCore { s.core with rep := some ⟨4, 1, 1, 1, 0⟩ }
def stEsRep : State := (poke stEs (byteKey 1 2 0) 0x98880000FC311000).updEs fun e => { e with rep := some ⟨4, 1, 1, 0, 0⟩ }

theorem test_meets_step_as :
    stAs.nextSlot.2.turn = .as ∧ comes stAs = true ∧ (entered stAs).cell.as.run = .running
    ∧ (entered stAs).seqStopped 0 = false ∧ (entered stAs).cell.esFaultDue = false ∧ (entered stAs).core.rep = none
    ∧ ((entered stAs).fetchWord 0 (entered stAs).cell.asbase (entered stAs).cell.assize (entered stAs).core.pc).2 = some 0x04110C00
    ∧ (entered stAsRep).core.rep = some ⟨4, 1, 1, 1, 0⟩ ∧ (entered stAsRep).seqStopped 0 = false
    ∧ ((entered stAsRep).fetchWord 0 (entered stAsRep).cell.asbase (entered stAsRep).cell.assize ((entered stAsRep).core.pc + 4)).2
        = some 0x04110C00
    ∧ decodeAs (stepAsWord 0x04110C00 ⟨4, 1, 1, 1, 0⟩) = .ok (.add ⟨g0, 9, 17, 24⟩) := by
  decide +kernel

theorem test_meets_step_es :
    stEs.nextSlot.2.turn = .es ∧ comes stEs = true ∧ (entered stEs).cell.es.run = .running
    ∧ (entered stEs).seqStopped 1 = false ∧ (entered stEs).cell.es.rep = none
    ∧ ((entered stEs).fetchWord 1 (entered stEs).cell.esbase (entered stEs).cell.essize (entered stEs).cell.es.pc).2 = some 0x98880000
    ∧ (decodeEs 0x98880000).toOption.isSome = true
    ∧ (entered stEsRep).cell.es.rep = some ⟨4, 1, 1, 0, 0⟩
    ∧ ((entered stEsRep).fetchWord 1 (entered stEsRep).cell.esbase (entered stEsRep).cell.essize ((entered stEsRep).cell.es.pc + 4)).2
        = some 0x98880000
    ∧ (decodeEs (stepEsWord 0x98880000 ⟨4, 1, 1, 0, 0⟩)).toOption.isSome = true := by
  decide +kernel

/-- A word that is no instruction, placed for the AS. -/
def stBad : State :=
  let s := poke stAs (byteKey 1 2 0) 0x0400000F
  s

theorem test_meets_illegal_word :
    stBad.nextSlot.2.turn = .as ∧ (entered stBad).cell.as.run = .running ∧ (entered stBad).seqStopped 0 = false
    ∧ ((entered stBad).fetchWord 0 (entered stBad).cell.asbase (entered stBad).cell.assize (entered stBad).core.pc).2 = some 0x0400000F
    ∧ decodeAs 0x0400000F = .error .unlistedFn ∧ (asMajor 0x50000007).toNat = 0x14
    ∧ (∀ r : SysReg, r.code ≠ (0x50000007 : Word32).extractLsb' 0 12) := by
  refine ⟨by decide +kernel, by decide +kernel, by decide +kernel, by decide +kernel, by decide, by decide, ?_⟩
  intro r
  cases r <;> decide

/-- A command with nothing done yet. -/
def cmd (i : Instr) (ph : Phase) : Cmd := { Cmd.start i 0 0 with phase := ph }

/-- A turn as the next slot. -/
def slot (s : State) (t : Turn) : State := { s with agenda := [⟨none, false, 0, t⟩] }

def mthr : Instr := .mthr h0 ⟨7⟩
def stMx : State := slot (st.updFocus fun c => { c with mx := { c.mx with cur := some (cmd mthr .wait) } }) .mx
def hcan : Instr := .hcancel h0 ⟨3, 1⟩
def stHo : State := slot (st.updFocus fun c => { c with ho := { c.ho with cmds := [cmd hcan .run] } }) .ho

theorem test_meets_step_commands :
    comes stMx = true ∧ (entered stMx).engStopped .mx = false
    ∧ (entered stMx).cell.mx.cur = some (cmd mthr .wait)
    ∧ comes stHo = true ∧ (entered stHo).cell.gated = false
    ∧ ((entered stHo).cell.holding portAgent && (entered stHo).cell.ho.told) = false ∧ (entered stHo).portMayTake false = false
    ∧ (entered stHo).portPick (entered stHo).cell.ho.cmds 0 = some 0 ∧ (entered stHo).cell.ho.cmds[0]? = some (cmd hcan .run)
    ∧ Instr.isEvent .dispatch = true ∧ comes (slot st (.event .dispatch)) = true ∧ (entered (slot st (.event .dispatch))).unitHeld .dispatch = false
    := by
  decide +kernel

theorem test_meets_ready : State.reset.Ready ∧ State.reset.Canonical ∧ stAs.Ready ∧ stAs.Canonical := by
  simp only [State.Canonical]
  refine ⟨⟨?_, by decide +kernel⟩, by decide +kernel, ⟨?_, by decide +kernel⟩, by decide +kernel⟩ <;> intro id h <;> cases h

theorem test_meets_landing :
    (∀ x ∈ (st.core.push 3 (.g 1) 5 false).infl, x.dest = .g 2 → x.rem ≤ 1) ∧ (∀ x ∈ (st.core.push 3 (.g 1) 5 false).infl, 1 ≤ x.rem)
    ∧ (∀ x ∈ (st.core.push 3 (.g 1) 5 false).infl, x.rem ≤ 1 → x.dest ≠ .g 1)
    ∧ (∀ x ∈ (st.core.push 3 (.g 1) 5 false).infl, x.rem ≤ 1 → x.dest ≠ .p 1) := by
  decide +kernel

/-! ## States that meet the hypotheses: the AS -/

theorem test_meets_guards :
    guardOf (.add ⟨⟨0, true⟩, 1, 2, 3⟩) = some ⟨0, true⟩ ∧ GuardOff st ⟨0, true⟩ ∧ GuardOn st g0
    ∧ sysGuardOf (.srr ⟨⟨0, true⟩, 1, .wid⟩) = some ⟨0, true⟩ ∧ belowLevel (.srr ⟨⟨0, true⟩, 1, .wid⟩) st.cell.as.lvl = false
    ∧ belowLevel (.rett ⟨g0⟩) st.cell.as.lvl = true ∧ belowLevel (.srw ⟨g0, .tvec, 1⟩) st.cell.as.lvl = true
    ∧ (stTag.rp 3).psn = true ∧ (stTag.rg 10).psn = true ∧ Clean st 5 ∧ Checked st := by
  simp only [GuardOff, GuardOn, Clean, Checked]
  decide +kernel

/-- Illegal words of R103 to R108 and R137: the bits the statements name. -/
theorem test_meets_illegal_fields :
    (asMajor 0x18000040).toNat = 6 ∧ (0x18000040 : Word32).extractLsb' 6 6 ≠ 0 ∧ (asMajor 0x28010000).toNat = 0xA
    ∧ (0x28010000 : Word32).getLsbD 16 = true ∧ (asMajor 0x34000FC1).toNat = 0xD
    ∧ 64 < ((0x34000FC1 : Word32).extractLsb' 0 6).toNat + (((0x34000FC1 : Word32).extractLsb' 6 6).toNat + 1)
    ∧ (asMajor 0x48000040).toNat = 0x12 ∧ (asMajor 0x4C000008).toNat = 0x13 ∧ (0x4C000008 : Word32).extractLsb' 3 4 ≠ 0
    ∧ (asMajor 0x3C000006).toNat = 0xF ∧ 6 ≤ ((0x3C000006 : Word32).extractLsb' 0 3).toNat ∧ (asMajor 0x40000C00).toNat = 0x10
    ∧ 6 ≤ ((0x40000C00 : Word32).extractLsb' 9 3).toNat ∧ (asMajor 0xE4000003).toNat = 0x39 ∧ 3 ≤ (asFn 0xE4000003).toNat
    ∧ (esOp 0xA4800000).toNat = 0x29 ∧ esM 0xA4800000 ≠ 0 ∧ (esOp 0x98002000).toNat = 0x26 ∧ esA 0x98002000 ≠ 0 := by
  decide

/-- The place a passing check of a word answers: scratchpad byte 64, and byte 0x2000 of the die's SRAM. -/
def spot0 : Place := ⟨0, spadUnit ⟨2, 0⟩, 64, 0, 0, false⟩
def spot1 : Place := ⟨1, 2, 0x2000, 0, 0, false⟩

theorem test_meets_access :
    (st.asAccess needSpadR (st.rg 4).v 0).2 = .ok spot0 ∧ (st.asAccess needSpadW (st.rg 4).v 0).2 = .ok spot0
    ∧ (st.asAccess needLinR (st.rg 5).v 0).2 = .ok spot1 ∧ (st.asAccess needLinW (st.rg 5).v 0).2 = .ok spot1
    ∧ (st.asAccess needLinRW (st.rg 5).v 0).2 = .ok spot1 ∧ (st.asAccess needWait (st.rg 5).v 0).2 = .ok spot1
    ∧ (st.asAccess needSpadR (st.rg 5).v 0).2 = .error cAccess ∧ (st.asAccess needLinR (st.rg 4).v 0).2 = .error cAccess
    ∧ (st.asAccess needLinW (st.rg 5).v 127).2 = .ok { spot1 with addr := 0x23F8 }
    ∧ (st.asAccess needLinR (mkAddr 1 0xFFF8) 0).2 = .ok { spot1 with addr := 0xFFF8 }
    ∧ (st.asAccess needLinR (mkAddr 1 0x10000) 0).2 = .error cBounds ∧ (st.asAccess needLinW (mkAddr 1 4) 0).2 = .error cAlign
    ∧ st.cell.classFree 0 = true ∧ st.lateNow = false ∧ st.qFull .lq = false ∧ st.qFull (.q 0) = false ∧ spot1.loc ≠ locMgmt := by
  decide +kernel

/-- A full lq. -/
def stFull : State := st.updQs fun k => { k with lq := List.replicate 32 ⟨0, false, true, 0, 0⟩ }
/-- Late checks. -/
def stLate : State := st.updFocus fun c => { c with late := true }
/-- An entry stands at the head of y0, y1, q0, lq and of bqe. -/
def stPop : State := st.updQs fun k => { k with
  y0 := [⟨mkAddr 1 0x2000, false, true, 0, 0⟩], y1 := [⟨5, true, true, 0, 0⟩], lq := [⟨6, false, true, 0, 0⟩], bqe := [⟨true, 0⟩]
  q := k.q.set 0 [⟨64, false, true, 0, 0⟩] }

theorem test_meets_queues :
    stFull.qFull .lq = true ∧ (stLate.lateNow = true ∧ 0 ≤ offOf (stLate.rg 5).v 0 ∧ offOf (stLate.rg 5).v 0 < 2 ^ 58)
    ∧ popHead stPop.pkg.time.clk (stPop.cell.qs.yq false) = some (⟨mkAddr 1 0x2000, false, true, 0, 0⟩, [])
    ∧ (stPop.asAccess needLinW (stPop.rg 5).v 0).2 = .ok spot1
    ∧ popHead stPop.pkg.time.clk (stPop.cell.qs.pq .lq) = some (⟨6, false, true, 0, 0⟩, [])
    ∧ popHead st.pkg.time.clk (st.cell.qs.pq .lq) = none ∧ (st.cell.qs.dq 0).length < Config.capQ
    ∧ Config.capQ ≤ ((st.updQs fun k => k.setDq 1 (List.replicate 16 ⟨0, false, true, 0, 0⟩)).cell.qs.dq 1).length := by
  decide +kernel

/-- One operation in flight, its checks finished; scratchpad, SRAM, an atomic, a signal. -/
def flight (k : MKind) (p : Place) : State := st.addOp k 0 .cell 0 (some p) none none

theorem test_meets_performing :
    (flight (.load none) spot1).mayPerform 0 = true ∧ (flight (.store 5 false) spot1).mayPerform 0 = true
    ∧ (flight (.store 5 false) spot0).mayPerform 0 = true ∧ (flight (.amo .add 5) spot1).mayPerform 0 = true
    ∧ (flight (.cas 0 5) spot1).mayPerform 0 = true ∧ (flight (.load none) spot1).cell.mops[0]?.isSome = true
    ∧ (flight (.signal 3) spot0).cell.mops[0]?.map (·.kind) = some (.signal 3) := by
  decide +kernel

/-- A store performed at cell scope and nowhere wider, and one performed at die scope. -/
def wrote (reach : Nat) : State :=
  st.updMem fun m => { m with writes := [⟨1, ⟨2, 0⟩, false, 0, 0, byteKey 1 2 0x2000, 5, 0xFF, false, reach, 0, none, 0⟩], nextId := 2 }

theorem test_meets_widening :
    (wrote 0).mem.mayWiden 0 = true ∧ 0 + 1 < finalReach (keyLoc (byteKey 1 2 0x2000)) ∧ (wrote 2).mem.mayWiden 0 = true
    ∧ ¬ 2 + 1 < finalReach (keyLoc (byteKey 1 2 0x2000)) ∧ (wrote 2).Canonical := by
  simp only [State.Canonical]
  decide +kernel

/-- R113, R118, R259: the word loaded arrives, a store in scratchpad is in memory at once, one in SRAM when it is widest. -/
theorem test_memory_results :
    after (exec (.lds ⟨g0, 1, 4, 0, 0⟩) (poke st (byteKey 0 (spadUnit ⟨2, 0⟩) 64) 77)) (fun t => t.core.infl.map (·.val) = [77]) = true
    ∧ after (exec (.sts ⟨g0, 7, 4, 0, 0⟩) st) (fun t => memWord t.mem.mem (byteKey 0 (spadUnit ⟨2, 0⟩) 64) = 7) = true
    ∧ after (exec (.loadArrival 0) (poke (flight (.amo .add 5) spot1) (byteKey 1 2 0x2000) 37)) (fun t =>
        viewWord t.mem ⟨2, 0⟩ (byteKey 1 2 0x2000) = ⟨42, false⟩ && t.cell.mops.isEmpty) = true
    ∧ after (exec (.writePerform false 0) (wrote 2)) (fun t => memWord t.mem.mem (byteKey 1 2 0x2000) = 5 && t.mem.writes.isEmpty) = true
    ∧ after (exec (.writePerform false 0) (wrote 0)) (fun t => memWord t.mem.mem (byteKey 1 2 0x2000) = 0) = true := by
  decide +kernel


/-! ## States that meet the hypotheses: maintenance, SC operations, control, synchronisation -/

/-- A launch that owns wheel position 5 for the cell, whose record the cell runs; TIME is set and stands at that position. -/
def stSc : State :=
  { (st.updFocus fun c => { c with recd := some ⟨1, 0, 3⟩ }) with
    pkg := { st.pkg with launches := [{ (default : Launch) with id := 1, wmap := [(5, ⟨2, 0⟩)] }], time := ⟨25, true, false, 0, 0, 5, 0⟩ } }

theorem test_meets_maintenance :
    (st.asAccess needLinR (st.rg 5).v 255).2 = .ok { spot1 with addr := 0x1FF8 } ∧ st.lateNow = false
    ∧ (stTag.rg 10).psn = true ∧ (stTag.rp 3).psn = true ∧ (stTag.rp 2).psn = false
    ∧ (st.updAs fun a => { a with lvl := .kernel }).cell.as.lvl ≠ .program ∧ st.fenceOpen 0xFFFF 3 = false
    ∧ (flight (.store 5 false) spot1).fenceOpen 1 0 = true ∧ ((wrote 0).updFocus fun c => { c with mseq := 1 }).fenceOpen 0x8001 3 = true
    ∧ Checked (flight (.store 5 false) spot1) := by
  simp only [Checked]
  decide +kernel

theorem test_meets_sc :
    stSc.wheelOwned = [5] ∧ stSc.qFull .lq = false ∧ (stSc.asAccess needLinR (stSc.rg 5).v 0).2 = .ok spot1
    ∧ (stSc.asAccess needLinW (stSc.rg 5).v 0).2 = .ok spot1 ∧ (stSc.asAccess needLinRW (stSc.rg 5).v 0).2 = .ok spot1
    ∧ stSc.scReady 0 = true ∧ stSc.seenAll = true ∧ st.wheelOwned = [] := by
  decide +kernel

/-- The same at wheel position 6. -/
def tick6 (s : State) : State := { s with pkg := { s.pkg with time := ⟨30, true, false, 0, 0, 6, 0⟩ } }

/-- R124, R270: SCST writes at package scope at once; away from the position it waits. -/
theorem test_sc_results :
    after (exec (.scst ⟨g0, 5, 7, .package, 0⟩) stSc) (fun t => memWord t.mem.mem (byteKey 1 2 0x2000) = 7) = true
    ∧ after (exec (.scamo ⟨g0, .add, 5, 7, .package, 0⟩) (poke (stSc.asAccess needLinR (stSc.rg 5).v 0).1 (byteKey 1 2 0x2000) 30)) (fun t =>
        memWord t.mem.mem (byteKey 1 2 0x2000) = 37 && t.cell.qs.lq.map (·.v) = [30]) = true
    ∧ after (exec (.scst ⟨g0, 5, 7, .package, 0⟩) (tick6 stSc)) (fun t => t = tick6 stSc) = true := by
  decide +kernel

/-- R128 to R133: a jump to a target register, a call and its link, a loop that goes on. -/
theorem test_control_results :
    after (exec (.br ⟨g0, 1⟩) st) (fun t => t.core.pc = mkAddr 1 0x40) = true
    ∧ after (exec (.call ⟨g0, 1⟩) st) (fun t => t.core.pc = mkAddr 1 0x40 && (t.rg 31).v = mkAddr 1 4) = true
    ∧ after (exec (.loop ⟨g0, 1, 7⟩) st) (fun t => t.core.pc = mkAddr 1 0x40 && (t.rg 7).v = 6) = true
    ∧ after (exec (.ret ⟨g0, 6⟩) st) (fun t => t.core.pc = mkAddr 1 0x40) = true
    ∧ after (exec (.pbr ⟨g0, 1, 0xFFFFF⟩) (st.setCore { st.core with pc := mkAddr 1 8 })) (fun t => t.core.rt 1 = ⟨mkAddr 1 4, true⟩) = true := by
  decide +kernel

/-- Target register 1 is valid and outside the section; an instruction word to repeat stands after the program counter. -/
def stFar : State := st.setCore { st.core with t := st.core.t.set 1 ⟨mkAddr 1 0x1000, true⟩ }
def stRepd : State := poke (st.fetchWord 0 st.cell.asbase st.cell.assize st.core.pc).1 (byteKey 1 2 0) 0x04110C0000000000
/-- The head of a branch-outcome queue can be popped, and cannot before cycle 9. -/
def stBq (n : Nat) : State := st.updQs fun k => { k with bqa := [⟨true, n⟩], bqe := [⟨true, n⟩] }

theorem test_meets_control :
    (st.core.rt 1).valid = true ∧ inSection st.cell.asbase st.cell.assize (st.core.rt 1).addr = true
    ∧ inSection st.cell.asbase st.cell.assize (st.rg 6).v = true ∧ (stBq 0).cell.qs.bqe = ⟨true, 0⟩ :: [] ∧ (0 ≤ (stBq 0).pkg.time.clk)
    ∧ st.cell.qs.bqa.length < Config.capBq ∧ (st.rg 9).v = 1 ∧ (st.rg 7).v ≠ 1
    ∧ (stRepd.fetchWord 0 stRepd.cell.asbase stRepd.cell.assize (stRepd.core.pc + 4)).2 = some 0x04110C00
    ∧ stepsOk ⟨0, 1, 1, 1⟩ (gFields (.add ⟨g0, 8, 16, 24⟩)) = true ∧ stepsOk ⟨63, 1, 1, 1⟩ (gFields (.nop ⟨g0⟩)) = false
    ∧ (stFar.core.rt 1).valid = true ∧ inSection stFar.cell.asbase stFar.cell.assize (stFar.core.rt 1).addr = false
    ∧ (State.reset.core.rt 0).valid = false ∧ GuardOn State.reset g0 := by
  simp only [GuardOn]
  decide +kernel

/-- One semaphore at a value. -/
def stSem (x : Sem) : State := st.setSem 3 x
/-- A record runs; its launch is number 1, of partition 0. -/
def stRec : State :=
  { (st.updFocus fun c => { c with recd := some ⟨1, 0, 3⟩, as := { c.as with sys := { c.as.sys with joinp := mkAddr 1 0x40 } } }) with
    pkg := { st.pkg with launches := [{ (default : Launch) with id := 1 }] } }
def stRecFull : State := stRec.updPart 0 fun p => { p with rqlg := 0, fifos := updAt p.fifos 7 fun _ => [default] }

theorem test_meets_semaphores :
    (3 : SemNo) ≠ 63 ∧ st.cell.mops = [] ∧ (stSem (.count 0xFFFF)).sem 3 = some (.count 0xFFFF) ∧ (stSem (.count 1)).sem 3 = some (.count 1)
    ∧ st.sem 62 = some (.count 0) ∧ (stSem (.err 5)).sem 3 = some (.err 5) ∧ st.sem 63 = none ∧ st.sigPending 3 = false
    ∧ (flight (.signal 3) spot0).cell.mops ≠ [] ∧ Checked (flight (.signal 3) spot0) := by
  simp only [Checked]
  decide +kernel

/-- R22, R139 to R142: a signal counts, at 0xFFFF it makes error 0x02, a wait counts down, an error keeps its first code. -/
theorem test_semaphore_results :
    after (exec (.sems ⟨g0, 3⟩) st) (fun t => t.sem 3 = some (.count 1) && t.sem 4 = some (.count 0)) = true
    ∧ after (exec (.sems ⟨g0, 3⟩) (stSem (.count 0xFFFF))) (fun t => t.sem 3 = some (.err 0x02)) = true
    ∧ after (exec (.semw ⟨g0, 3⟩) (stSem (.count 1))) (fun t => t.sem 3 = some (.count 0) && t.core.pc = mkAddr 1 4) = true
    ∧ after (exec (.semw ⟨g0, 3⟩) (stSem (.err 5))) (fun t =>
        t.cell.as.lvl = .kernel && t.cell.as.sys.trapval = 0x305 && t.core.pc = mkAddr 1 0x800) = true
    ∧ after (exec (.semrd ⟨g0, 1, 3⟩) (stSem (.err 5))) (fun t => (t.rg 1).v = 0x10005) = true := by
  decide +kernel

/-- The word at 0x2000 holds 7, the value of g7; TIME is 100. -/
def stW : State :=
  let s := poke (st.asAccess needWait (st.rg 5).v 0).1 (byteKey 1 2 0x2000) 7
  { s with pkg := { s.pkg with time := ⟨300, true, false, 0, 0, 60, 0⟩ } }
/-- A WAITA of 60 ns that began at time 40 stands at the program counter. -/
def stWt : State :=
  let w := (encodeAs (.waita ⟨g0, 9, 5, 7, 2, 0⟩)).getD 0
  (poke stW (byteKey 1 2 0) (w.zeroExtend 64)).updAs fun a => { a with
    wait := some ⟨99, some 100, none, none, none⟩, core := regs a.core [(9, 1)] }

theorem test_meets_waits :
    (stW.asAccess needWait (stW.rg 5).v 0).2 = .ok spot1 ∧ (stW.asAccess needWait (stW.rg 5).v 0).1.cell.classFree 0 = true
    ∧ (let u := (stW.asAccess needWait (stW.rg 5).v 0).1
       let w := u.passLine (u.cell.who 0) u.cell spot1 (eaOf (stW.rg 5).v 0)
       let r := w.readAny (!w.waitDue) (w.cell.who 0) spot1 (eaOf (stW.rg 5).v 0)
       r.2.psn = false ∧ r.2.v = (r.1.rg 7).v)
    ∧ stWt.cell.as.run = .running ∧ stWt.cell.as.wait = some ⟨99, some 100, none, none, none⟩ ∧ stWt.waitaHere = some ⟨g0, 9, 5, 7, 2, 0⟩
    ∧ 99 + (stWt.rg 9).v.toNat ≤ stWt.timeNs ∧ (stW.rg 7).v.toNat ≤ stW.timeNs ∧ stW.timeNs < (stW.rg 8).v.toNat
    ∧ (let s := stW.updMem fun m => { m with psn := [byteKey 1 2 0x2000] }
       let u := (s.asAccess needWait (s.rg 5).v 0).1
       let w := u.passLine (u.cell.who 0) u.cell spot1 (eaOf (s.rg 5).v 0)
       (s.asAccess needWait (s.rg 5).v 0).2 = .ok spot1 ∧ (w.readAny (!w.waitDue) (w.cell.who 0) spot1 (eaOf (s.rg 5).v 0)).2.psn = true) := by
  decide +kernel

/-- One pass of a WAITA on g5: what it reads and the state it reads in; `v` stands in the word, the last pass was at cycle `c`. -/
def passOf (s : State) : State × TW :=
  let u := ((s.reachWait ⟨g0, 9, 5, 7, 2, 0⟩).asAccess needWait (s.rg 5).v 0).1
  let w := u.passLine (u.cell.who 0) u.cell spot1 (eaOf (s.rg 5).v 0)
  w.readAny (!w.waitDue) (w.cell.who 0) spot1 (eaOf (s.rg 5).v 0)
def stWp (v : Word) (c : Option Nat) : State :=
  (poke stWt (byteKey 1 2 0x2000) v).updAs fun a => { a with wait := some ⟨99, some 100, c, none, none⟩ }

theorem test_meets_wait_cases :
    (((stWp 7 none).reachWait ⟨g0, 9, 5, 7, 2, 0⟩).asAccess needWait ((stWp 7 none).rg 5).v 0).2 = .ok spot1
    ∧ (((stWp 7 none).reachWait ⟨g0, 9, 5, 7, 2, 0⟩).asAccess needWait ((stWp 7 none).rg 5).v 0).1.cell.classFree 0 = true
    ∧ (passOf (stWp 7 none)).2 = ⟨7, false⟩ ∧ ((passOf (stWp 7 none)).1.rg 7).v = 7 ∧ (passOf (stWp 8 none)).2 = ⟨8, false⟩
    ∧ (passOf (stWp 7 none)).1.waitStart + ((passOf (stWp 7 none)).1.rg 9).v.toNat ≤ (passOf (stWp 7 none)).1.timeNs
    ∧ (passOf (stWp 7 (some 0))).1.cell.as.wait.bind (·.rd) = some 0 ∧ (passOf (stWp 7 (some 0))).1.pkg.time.clk ≤ 0 + 200
    ∧ ¬ (passOf (stWp 8 none)).1.waitStart + (0xFFFFFFFFFFFFFFF8 : Word).toNat ≤ (passOf (stWp 8 none)).1.timeNs
    ∧ (stWp 7 none).rg 8 = ⟨0xFFFFFFFFFFFFFFF8, false⟩ ∧ (stWp 8 none).cell.holding 0 = false ∧ (stWp 8 none).cell.gated = false
    ∧ (stWp 8 none).pkg.time.set = true ∧ (stWp 8 none).cell.as.wait.bind (·.end_) = some 100 := by
  decide +kernel

/-- R143, R144: with its timeout come a pass still reads: an unequal word ends it false, a match that no pass saw before ends it true; with
the timeout far off it goes on. -/
theorem test_wait_results :
    after (exec (.waita ⟨g0, 9, 5, 7, 2, 0⟩) (stWp 8 none)) (fun t => !(t.rp 2).v && t.cell.as.wait.isNone && t.core.pc = mkAddr 1 4) = true
    ∧ after (exec (.waita ⟨g0, 9, 5, 7, 2, 0⟩) (stWp 7 none)) (fun t => (t.rp 2).v && t.core.pc = mkAddr 1 4) = true
    ∧ after (exec (.waita ⟨g0, 8, 5, 7, 2, 0⟩) (stWp 8 none)) (fun t => t.cell.as.wait.bind (·.rd) = some 60 && t.core.pc = mkAddr 1 0) = true := by
  decide +kernel

theorem test_meets_system :
    sysReadable .wid st.cell.as.lvl = true ∧ sysWritable .joinp st.cell.as.lvl = true ∧ sysReadable .tvec .kernel = true
    ∧ sysWritable .tvec .machine = true ∧ st.cell.as.lvl = .program ∧ st.cell.as.sys.tvec ≠ 0
    ∧ st.saveArea.map (·.2) = some ⟨1, 2, 262144, 0, 0, false⟩ ∧ st.cell.id.die ≠ 6
    ∧ (st.updAs fun a => { a with lvl := .kernel }).cell.as.lvl = .kernel
    ∧ (st.updAs fun a => { a with sys := { a.sys with tvec := 0 } }).cell.as.sys.tvec = 0
    ∧ (st.updAs fun a => { a with lvl := .machine }).cell.as.lvl = .machine := by
  decide +kernel

/-- The state in which a handler runs: TRAP has been taken; ETRAP registers name a faulting ES instruction too. -/
def stTrapped : State := match exec (.trap ⟨g0, 9⟩) st with | .next t => t | _ => st
def stDelivered : State :=
  let s := (st.updEs fun e => { e with run := .running, pc := mkAddr 1 0x80 }).esFault 1 5
  (s.updAs fun a => { a with delivered := true }).takeTrap 0x12 0

theorem test_meets_return :
    (stTrapped.cell.as.lvl = .kernel ∧ ∃ x, stTrapped.saveArea = some x
      ∧ x.1.saveError x.2 (rettSlots x.1) = none
      ∧ (rettReads x.1 x.2).badSlot x.2 asSlotOk asSlots false = none ∧ (rettReads x.1 x.2).resumeAs = some none)
    ∧ (stDelivered.cell.as.lvl = .kernel ∧ ∃ x, stDelivered.saveArea = some x ∧ x.1.cell.as.sys.esHalted = true
      ∧ x.1.saveError x.2 (rettSlots x.1) = none
      ∧ (rettReads x.1 x.2).badSlot x.2 asSlotOk asSlots false = none ∧ (rettReads x.1 x.2).badSlot x.2 esSlotOk esSlots false = none
      ∧ (rettReads x.1 x.2).resumeAs = some none ∧ x.1.cell.as.delivered = true ∧ (rettReads x.1 x.2).resumeEs = some none) := by
  refine ⟨⟨by decide +kernel, stTrapped.saveArea.get (by decide +kernel), by decide +kernel, by decide +kernel⟩,
    by decide +kernel, stDelivered.saveArea.get (by decide +kernel), by decide +kernel, by decide +kernel⟩

/-- R152, R155: what TRAP saves, and RETT after it comes back to the trapping instruction. -/
theorem test_trap_results :
    stTrapped.cell.as.sys.trappc = mkAddr 1 0 ∧ stTrapped.cell.as.sys.trapcause = 0x14 ∧ stTrapped.cell.as.sys.trapval = 9
    ∧ after (exec (.rett ⟨g0⟩) stTrapped) (fun t => t.cell.as.lvl = .program && t.core.pc = mkAddr 1 0 && t.rg 7 = st.rg 7) = true
    ∧ after (exec (.rett ⟨g0⟩) stDelivered) (fun t => t.cell.es.run = .running && t.cell.es.pc = mkAddr 1 0x80) = true
    ∧ after (exec (.halt ⟨g0⟩) (st.updAs fun a => { a with lvl := .machine })) (fun t => t.cell.as.run = .halted) = true := by
  decide +kernel

theorem test_meets_records :
    stRec.codeOk (stRec.rg 6).v = true ∧ stRec.cell.recd = some ⟨1, 0, 3⟩ ∧ stRec.fifoFull stRec.recPart 7 = false
    ∧ stRecFull.fifoFull stRecFull.recPart 7 = true ∧ stRec.packageOpen = false
    ∧ (stRec.asAccess needLinRW (stRec.rg 5).v 0).2 = .ok spot1 ∧ stRec.mem.contended stRec.cell.id spot1.wkey 3 = false
    ∧ (let u := (stRec.asAccess needLinRW (stRec.rg 5).v 0).1
       let v := u.meetError (u.cell.who 0) (l1Of u.cell spot1.line) spot1 (stRec.rg 5).v
       (v.joinWord spot1 0).psn = false ∧ (v.joinWord spot1 0).v ≠ 1)
    ∧ st.cell.engineWork = false ∧ st.cell.es.run = .idle ∧ unconsumed st.cell = 0 ∧ st.cell.qs.anyLeft = false
    ∧ st.packageOpen = false ∧ st.cell.as.sys.joinp = 0 ∧ unconsumed (stSem (.count 1)).cell ≠ 0
    ∧ (stBq 0).cell.qs.anyLeft = true ∧ (stSem (.count 1)).cell.engineWork = false := by
  decide +kernel

theorem test_meets_enqueue :
    ringEng .mx = some .mx ∧ st.cell.ringSeg .mx = some (4096, 4096) ∧ 4 ≤ (st.cell.eng .mx).free 4096
    ∧ 1 ≤ st.cell.ho.credits ∧ 1 ≤ st.cell.hub.credits ∧ st.cell.id.die ≠ 6
    ∧ inSection st.cell.esbase st.cell.essize (st.rg 6).v = true ∧ st.cell.es.exited = true := by
  decide +kernel

/-- R146 to R151: a record queued, a join count down, a record retired, words appended, the ES started. -/
theorem test_record_results :
    after (exec (.fork ⟨g0, 7, 6, 5, true, 7⟩) stRec) (fun t =>
      ((t.part 0).fifos.getD 7 []).map (fun r : Rec => (r.code, r.frame, r.wid, r.joinp)) =
        [(mkAddr 1 0x40, mkAddr 1 0x2000, 7, mkAddr 1 0x40)]) = true
    ∧ after (exec (.exit ⟨g0⟩) st) (fun t => t.cell.as.run = .idle) = true
    ∧ after (exec (.enq ⟨g0, .mx, 7, 9⟩) st) (fun t =>
        (t.cell.eng .mx).wp = 4 && memWord t.mem.mem (byteKey 0 (spadUnit ⟨2, 0⟩) 4096) = 7) = true
    ∧ after (exec (.enqs ⟨g0, .ho, 7⟩) st) (fun t => t.cell.ho.buf = [7] && t.cell.ho.credits = 63) = true
    ∧ after (exec (.estart ⟨g0, 6⟩) st) (fun t => t.cell.es.run = .running && t.cell.es.pc = mkAddr 1 0x40 && t.cell.es.sh = 0x040A) = true := by
  decide +kernel

/-! ## The ES -/

/-- An ES that runs under the shape word `sh`: v2 and v3 hold the operands, m2 a mask; q0 holds 5, q1 scratchpad byte 64. -/
def stE (sh : Word) (a b : BitVec 2048) : State :=
  let s := st.updEs fun e => { e with
    run := .running, pc := mkAddr 1 0, sh := sh, v := (e.v.set 2 ⟨a, false⟩).set 3 ⟨b, false⟩, m := e.m.set 2 ⟨0b1, false⟩ }
  s.updQs fun k => { k with q := (k.q.set 0 [⟨5, false, true, 0, 0⟩]).set 1 [⟨64, false, true, 0, 0⟩] }

/-- Two 32-bit elements under s32 and f32, four bytes under u8. -/
abbrev shS32 : Word := 0x22
abbrev shF32 : Word := 0x2A
abbrev shU8 : Word := 0x44

/-- The first register an ES instruction writes, once it lands. -/
def lands (r : Host.Outcome State Fault Refusal) : Option (BitVec 2048 × Bool) :=
  match r with
  | .next s => s.cell.es.infl.head?.bind fun e => e.parts.head?.map fun p => (p.val, p.psn)
  | .fault _ => none
  | .refused _ => none

theorem test_meets_es :
    esLegal shS32 (.vadd ⟨0, 1, 2, .reg 3, false⟩) = true ∧ esLegal shS32 (.vadd ⟨0, 1, 2, .queue 0, true⟩) = true
    ∧ esLegal shF32 (.vadd ⟨0, 1, 2, .reg 3, true⟩) = false ∧ encodeEs (.vadd ⟨0, 1, 2, .reg 3, true⟩) ≠ none
    ∧ esLegal shF32 (.setsh ⟨3, 0, 64, 2⟩) = true ∧ shOk 0x402 = true
    ∧ popHead 0 ((stE shS32 0 0).cell.qs.dq 0) = some (⟨5, false, true, 0, 0⟩, [])
    ∧ popHead 0 ((stE shS32 0 0).cell.qs.dq 1) = some (⟨64, false, true, 0, 0⟩, [])
    ∧ popHead 0 ((st.updQs fun k => { k with q := k.q.set 2 [⟨0x402, false, true, 0, 0⟩] }).cell.qs.dq 2) = some (⟨0x402, false, true, 0, 0⟩, [])
    ∧ esLegal shS32 (.vldq ⟨1, 0⟩) = true ∧ esLegal shS32 (.vbc ⟨0, 1, 0⟩) = true ∧ esLegal shS32 (.vsty ⟨false, 1, 1⟩) = true
    ∧ (st.cell.qs.yq false).length < Config.capQ ∧ esLegal shS32 (.vld ⟨0, 1, 1, 0⟩) = true ∧ esLegal shS32 (.vst ⟨0, 1, 1, 0⟩) = true
    ∧ (stE shS32 0 0).esAccess needSpadR 64 0 8 = .ok spot0 ∧ (stE shS32 0 0).esAccess needSpadW 64 0 8 = .ok spot0 := by
  decide +kernel

theorem test_meets_es_control :
    ((stE shS32 0 0).ev 2).mask.psn = false
    ∧ inSection st.cell.esbase st.cell.essize ((stE shS32 0 0).cell.es.pc + (4 : BitVec 21).signExtend 64 * 4) = true
    ∧ (stBq 0).cell.qs.bqa = ⟨true, 0⟩ :: [] ∧ st.cell.qs.bqe.length < Config.capBq
    ∧ inSection st.cell.esbase st.cell.essize ((stE shS32 0 0).cell.es.pc + (0x3FF : BitVec 21).signExtend 64 * 4) = true := by
  decide +kernel

/-- The ES word after its program counter is VIOTA. -/
def stErep : State :=
  poke ((stE shS32 0 0).fetchWord 1 st.cell.esbase st.cell.essize (mkAddr 1 0)).1 (byteKey 1 2 0) 0x9888000000000000

theorem test_meets_erep :
    (stErep.fetchWord 1 stErep.cell.esbase stErep.cell.essize (stErep.cell.es.pc + 4)).2 = some 0x98880000
    ∧ decodeEs 0x98880000 = .ok (.viota ⟨1, 2⟩) ∧ stepsOk ⟨1, 1, 0, 0⟩ (vFields (.viota ⟨1, 2⟩)) = true
    ∧ (∀ k : Nat, k ≤ (1 : BitVec 6).toNat → (decodeEs (stepEsWord 0x98880000 ⟨2, k, 1, 0, 0⟩)).toOption = some (.viota ⟨1, BitVec.ofNat 5 (2 + k)⟩))
    ∧ esLegal (stErep.fetchWord 1 stErep.cell.esbase stErep.cell.essize (stErep.cell.es.pc + 4)).1.cell.es.sh (.viota ⟨1, 3⟩) = true := by
  refine ⟨by decide +kernel, by decide +kernel, by decide +kernel, ?_, by decide +kernel⟩
  intro k h
  have : k = 0 ∨ k = 1 := by have : (1 : BitVec 6).toNat = 1 := rfl; omega
  rcases this with rfl | rfl <;> decide +kernel

theorem test_meets_es_legal :
    esLegal shS32 (.vfma ⟨0, 1, 2, .reg 3⟩) = true ∧ esLegal shS32 (.vabs ⟨0, 1, 2, true⟩) = true
    ∧ esLegal shS32 (.vand ⟨0, 1, 2, .reg 3⟩) = true ∧ esLegal shS32 (.vsar ⟨0, 1, 2, .queue 0⟩) = true
    ∧ esLegal shS32 (.vsarImm ⟨0, 1, 2, 63⟩) = true ∧ esLegal shF32 (.vrcp ⟨0, 1, 2⟩) = true ∧ esLegal shF32 (.vlog2 ⟨0, 1, 2⟩) = true
    ∧ esLegal shF32 (.vcvt ⟨0, 1, 2, false, 0⟩) = true ∧ esLegal shS32 (.vcmp ⟨0, 1, 2, .reg 3, .lt⟩) = true
    ∧ esLegal shS32 (.viota ⟨0, 31⟩) = true ∧ esLegal shS32 (.vsel ⟨2, 1, 2, 3⟩) = true ∧ esLegal shS32 (.vrsum ⟨0, 1, 2⟩) = true
    ∧ esLegal shS32 (.vrmini ⟨0, 1, 2⟩) = true ∧ esLegal shS32 (.vperm ⟨0, 1, 2, 3⟩) = true
    ∧ esLegal shS32 (.vgath ⟨0, 1, 2, 3⟩) = true ∧ esLegal 0x26 (.vrng ⟨0, 1, 2, 3⟩) = true
    ∧ esLegal shS32 (.vslide ⟨0, 1, 2, 0x80⟩) = true := by
  decide +kernel

/-- A shape VQB and VDQB take: 64 elements of f32. -/
theorem test_meets_es_quant : esLegal 0x40A (.vqb ⟨1, 2, true⟩) = true ∧ esLegal 0x40A (.vdqb ⟨0, 1, 2, false⟩) = true := by
  decide +kernel

/-- R171 to R184 by hand: s32 sums wrap or saturate, f32 1.5 + 2.25 = 3.75, the arithmetic shift, a compare, a sum, a slide. -/
theorem test_es_results :
    lands (exec (.vadd ⟨0, 1, 2, .reg 3, false⟩) (stE shS32 0x7FFFFFFF00000003 0x0000000100000004)) = some (0x8000000000000007, false)
    ∧ lands (exec (.vadd ⟨0, 1, 2, .reg 3, true⟩) (stE shS32 0x7FFFFFFF00000003 0x0000000100000004)) = some (0x7FFFFFFF00000007, false)
    ∧ lands (exec (.vadd ⟨0, 1, 2, .reg 3, false⟩) (stE shF32 0x3FC000003F800000 0x4010000040000000)) = some (0x4070000040400000, false)
    ∧ lands (exec (.vmul ⟨0, 1, 2, .queue 0, false⟩) (stE shS32 0xFFFFFFFE00000003 0)) = some (0xFFFFFFF60000000F, false)
    ∧ lands (exec (.vfma ⟨0, 3, 2, .reg 2⟩) (stE shF32 0x3F80000040000000 0x3F8000003F800000)) = some (0x4000000040A00000, false)
    ∧ lands (exec (.vsarImm ⟨0, 1, 2, 63⟩) (stE shS32 0x8000000000000007 0)) = some (0xFFFFFFFF00000000, false)
    ∧ lands (exec (.vcmp ⟨0, 1, 2, .reg 3, .lt⟩) (stE shS32 0xFFFFFFFF00000003 0)) = some (0b10, false)
    ∧ lands (exec (.vrsum ⟨0, 1, 2⟩) (stE shS32 0xFFFFFFFE00000003 0)) = some (1, false)
    ∧ lands (exec (.vslide ⟨0, 1, 2, 1⟩) (stE shS32 0x0000000700000003 0)) = some (0x0000000300000000, false)
    ∧ lands (exec (.vperm ⟨0, 1, 2, 3⟩) (stE shU8 0x04030201 0x00010203)) = some (0x01020304, false)
    ∧ lands (exec (.viota ⟨0, 1⟩) (stE shU8 0 0)) = some (0x03020100, false)
    ∧ lands (exec (.vrcp ⟨0, 1, 2⟩) (stE shF32 0x0000000040800000 0)) = some (0x7F8000003E800000, false) := by
  decide +kernel

/-! ## Tiles -/

def row0 : TRow := TRow.init 2

theorem test_meets_tiles :
    (st.tile 0).rows[0]? = some row0 ∧ (st.tile 3).rows[15]? = some row0 ∧ (st.tile 3).rows[16]? = none ∧ (0 : BitVec 5).toNat < Config.arrN st.cell.id.die / 32
    ∧ row0.bad = [] ∧ (st.cell.es.vn 2).psn = false ∧ (st.cell.es.rm 0).psn = false ∧ 32 ≤ Config.arrN st.cell.id.die
    ∧ popHead 0 ((stE shS32 0 0).cell.qs.dq 0) = some (⟨5, false, true, 0, 0⟩, []) := by
  decide +kernel

/-! ## Engines -/

/-- A state whose engine `e` stands at a command. -/
def stC (e : Eng) (c : Cmd) : State := st.setCmd e (some c)
/-- A header that waits on semaphore 1, acquires, releases at package scope and signals semaphore 2. -/
def h1 : Hdr := ⟨1, 2, true, true, .package, 0⟩
def mclr1 : Instr := .mclr h1 ⟨0, 0⟩

theorem test_meets_engine_steps :
    engCmd mclr1 = some (.mx, h1) ∧ ((stC .mx (cmd mclr1 .wait)).cell.eng .mx).cur = some (cmd mclr1 .wait)
    ∧ st.sem h0.wait = none ∧ (st.setSem 1 (.count 1)).sem h1.wait = some (.count 1) ∧ st.sem h1.wait = some (.count 0)
    ∧ (st.setSem 1 (.err 7)).sem h1.wait = some (.err 7) ∧ st.acquireOpen 0 3 = false
    ∧ (st.cell.eng .mx).told = false ∧ (((stC .ce0 (cmd (.flagw false h1 ⟨0, 0⟩) (.release 3 0))).setTold .ce0 true).cell.eng .ce0).told = true
    ∧ engCmd (.flagw false h1 ⟨0, 0⟩) = some (.ce0, h1) ∧ isMma mclr1 = false ∧ h1.sig ≠ 63
    ∧ (∀ d ∈ (cmd mclr1 (.release 0 0)).ids, st.mem.reached d 3 = true)
    ∧ (∀ d ∈ [1], (wrote 3).mem.reached d 3 = true) := by
  decide +kernel

/-- A block of 64 ones in BX7 (R63), and the matrix engine with it as an A row and a B column. -/
def ones : Blk := ⟨BitVec.ofNat 512 (quantBlock (List.replicate 64 (.num false 1 0))).bytes, false⟩
def shape1 : Shape := ⟨32, 1, 1, false, false⟩
def desc1 : Desc := ⟨0, 1, 1, 0⟩
def pma : PMma := ⟨false, 0, 0⟩
def cmma (zero : Bool) : Cmd := { cmd (if zero then .mmaz h0 pma else .mma h0 pma) .run with unit := 1 }
def stM (zero : Bool) (row : TRow) : State :=
  (stC .mx (cmma zero)).updFocus fun c => { c with
    mxs := { c.mxs with shape := some shape1, a := some desc1, b := some desc1, panelA := [[ones]], panelB := [[ones]] }
    tiles := updAt c.tiles 0 fun x => { x with rows := updAt x.rows 0 fun _ => row } }
/-- A row that is not fresh, its first mantissa `a`. -/
def rowA (a : Word) : TRow := { row0 with fresh := false, a := a :: row0.a.tail }

theorem test_meets_matrix_setup :
    Runs (stC .mx (cmd (.mhdr h0 ⟨16384, 256, 16, false, false⟩) .run)) .mx (.mhdr h0 ⟨16384, 256, 16, false, false⟩)
      (cmd (.mhdr h0 ⟨16384, 256, 16, false, false⟩) .run)
    ∧ (16 : BitVec 7).toNat ≤ Config.tileM st.cell.id.die ∧ (256 : BitVec 9).toNat ≤ Config.arrN st.cell.id.die
    ∧ Config.tileM st.cell.id.die < (17 : BitVec 7).toNat ∧ Config.arrN st.cell.id.die < (257 : BitVec 9).toNat
    ∧ Runs (stC .mx (cmd mthr .run)) .mx mthr (cmd mthr .run)
    ∧ Runs (stC .mx (cmd (.mma h0 pma) .run)) .mx (.mma h0 pma) (cmd (.mma h0 pma) .run)
    ∧ (stC .mx (cmd (.mma h0 pma) .run)).cell.mxs.shape = none := by
  simp only [Runs]
  decide +kernel

theorem test_meets_matrix_rows :
    Runs (stM true row0) .mx (.mmaz h0 pma) (cmma true) ∧ Runs (stM false row0) .mx (.mma h0 pma) (cmma false)
    ∧ (stM true row0).cell.mxs.shape = some shape1 ∧ (stM true row0).cell.mxs.a = some desc1
    ∧ (stM true row0).cell.mxs.b = some desc1 ∧ (cmma true).group / 12 < (cmma true).unit
    ∧ ((stM true row0).tile 0).rows[0]? = some row0 ∧ row0.bad = [] ∧ row0.clear.fresh = true
    ∧ ((stM false (rowA 5)).tile 0).rows[0]? = some (rowA 5) ∧ (rowA 5).fresh = false
    ∧ (rowA 5).needsEvent ((stM false (rowA 5)).partials shape1 0 0).1 = false
    ∧ (rowA 0x7FFFFFFFFFFFFFFF).needsEvent ((stM false (rowA 5)).partials shape1 0 0).1 = true
    ∧ (cmma true).row + 1 = shape1.m ∧ (cmma true).group + 1 = ceilDiv shape1.k 32
    ∧ (15 : BitVec 6).toNat + shape1.m ≤ Config.tileM st.cell.id.die ∧ (st.tile 0).rows[15]? = some row0 := by
  simp only [Runs]
  decide +kernel

/-- R66, R69, R223: 32 products of ones are 32; they add to a row; MCLR clears it. -/
theorem test_matrix_results :
    after (exec (.mmaz h0 pma) (stM true (rowA 5))) (fun t => match (t.tile 0).rows[0]? with
      | some r => ((r.a.getD 0 0).toInt : Int) = 32 * 2 ^ (-r.e.toInt).toNat && r.e.toInt ≤ 0 && !r.fresh | none => false) = true
    ∧ after (exec (.mma h0 pma) (stM false (rowA 5))) (fun t =>
        ((t.tile 0).rows[0]?).map (fun r : TRow => r.a.getD 0 0) = some 37) = true
    ∧ after (exec (.mclr h0 ⟨0, 0⟩) ((stM false (rowA 5)).setCmd .mx (some (cmd (.mclr h0 ⟨0, 0⟩) .run)))) (fun t =>
        (t.tile 0).rows[0]? = some row0) = true
    ∧ after (exec (.mhdr h0 ⟨32, 1, 1, true, false⟩) (stC .mx (cmd (.mhdr h0 ⟨32, 1, 1, true, false⟩) .run))) (fun t =>
        t.cell.mxs.shape = some ⟨32, 1, 1, true, false⟩) = true := by
  decide +kernel

/-- A fill of one row of 16 bytes at scratchpad byte 64, its checks passed and one word written. -/
def pfill : PFill := ⟨64, ⟨16, 0⟩, ⟨0, 16⟩, 0x1122334455667788⟩
def cfill (g : Nat) : Cmd := { cmd (.fill false h0 pfill) .run with group := g }
def pcopy : PCopy := ⟨64, 128, ⟨16, 0⟩, ⟨16, 0⟩, ⟨0, 16⟩⟩
def pflagw : PFlagw := ⟨64, 9⟩

theorem test_meets_data :
    (planOf st (.fill false h0 pfill)).map (fun x => (x.1, x.2.1)) = some (.ce0, h0)
    ∧ Runs (stC .ce0 (cfill 1)) .ce0 (.fill false h0 pfill) (cfill 1) ∧ 0 < (cfill 1).group
    ∧ (cfill 1).group - 1 < (fillPlan pfill).words 0 0 ∧ (fillPlan pfill).words 0 0 ≤ (cfill 3).group - 1
    ∧ (fillPlan pfill).units ≤ 0 + 1 ∧ 0 + 1 < (fillPlan { pfill with ext := ⟨1, 16⟩ }).units
    ∧ pfill.dacc.pitch.toNat % 8 = 0 ∧ pcopy.sacc.pitch.toNat % 8 = 0 ∧ segOff pcopy.src % 8 = 0
    ∧ (st.engPlace (segNo pfill.dst) (segOff pfill.dst) 0 []).loc = 0
    ∧ Runs (stC .ce1 { cmd (.flagw true h0 pflagw) .run with group := 1 }) .ce1 (.flagw true h0 pflagw)
        { cmd (.flagw true h0 pflagw) .run with group := 1 }
    ∧ (wrote 0).mem.reached 1 3 = false := by
  simp only [Runs]
  decide +kernel

/-- R244, R240, R245: what FILL, COPY and FLAGW write. -/
theorem test_data_results :
    after (exec (.fill false h0 pfill) (stC .ce0 (cfill 2))) (fun t =>
      memWord t.mem.mem (byteKey 0 (spadUnit ⟨2, 0⟩) 72) = 0x1122334455667788 && memWord t.mem.mem (byteKey 0 (spadUnit ⟨2, 0⟩) 64) = 0) = true
    ∧ after (exec (.copy false h0 pcopy) (poke (stC .ce0 { cmd (.copy false h0 pcopy) .run with group := 1 })
        (byteKey 0 (spadUnit ⟨2, 0⟩) 64) 77)) (fun t => memWord t.mem.mem (byteKey 0 (spadUnit ⟨2, 0⟩) 128) = 77) = true
    ∧ after (exec (.flagw true h0 pflagw) (stC .ce1 { cmd (.flagw true h0 pflagw) .run with group := 1 })) (fun t =>
        memWord t.mem.mem (byteKey 0 (spadUnit ⟨2, 0⟩) 64) = 9) = true := by
  decide +kernel

/-- A block of eight zero words, and one of eight distinct bytes. -/
def blkZ : Blk8 := List.replicate 8 (0, false)
def blkD : Blk8 := (List.range 8).map fun i => (0x0123456789ABCDEF * (i + 1) % 2 ^ 64, false)
/-- R247 to R249: a compression unit made by hand expands to the blocks it was made of. -/
theorem test_compress_results :
    (cmprUnit [blkZ]).length = 8 ∧ (headerCodes ((cmprUnit [blkZ, blkD, blkD]).take 8)).isSome = true
    ∧ (headerCodes ((cmprUnit [blkZ, blkD, blkD]).take 8)).map (fun x =>
        expand x.1 (blocksOf x.2 ((cmprUnit [blkZ, blkD, blkD]).drop 8)) []) = some [blkZ, blkD, blkD] := by
  decide +kernel

/-! ## Ports -/

/-- A stream of context 0 from die 0 to die 2, one layer of four blocks, its watermark two, its frame at host byte 0x4000. -/
def strD : List Word := [(2 : Word) <<< 26, (3 : Word) <<< 44 ||| (1 : Word) <<< 32, 0, 0, 0, 0x4000, 0, 0]
def strm (st : StreamState) : Stream :=
  { (default : Stream) with n := 0, d := strD, state := st, held := true, own := List.replicate 4 0 }
/-- The small state with the stream, tensor segment 4 on die 0 and 5 on die 2, and a command of a port. -/
def stS (x : Stream) : State :=
  { (st.updFocus fun c => { c with segs := segs ++ [seg 1 2 0 6 4095 0, seg 1 2 2 6 4095 0] }) with
    pkg := { st.pkg with streams := [x] } }
def stP (hub : Bool) (c : Cmd) (x : Stream) : State := (stS x).updPort hub fun p => { p with cmds := [c] }
def phoff (k : Nat) : PHoff := ⟨mkAddr 4 0, mkAddr 5 0, 1, BitVec.ofNat 20 k, 0, 0, 0, 0, false, 0⟩
def pswap : PSwap := ⟨mkAddr 4 0, 0, 1, 2, 0, false, 0⟩
def phpull : PHpull := ⟨0, 1, 2⟩
def prcopy : PRcopy := ⟨64, 0, 7, 3, ⟨16, 0⟩, ⟨16, 0⟩, ⟨0, 16⟩⟩
def chp : Cmd := { cmd (.hpull h0 phpull) .run with group := 1 }

theorem test_meets_ports :
    (let s := stP false (cmd (.hoff h0 (phoff 2)) .run) (strm .prefill)
     PortRuns s false (.hoff h0 (phoff 2)) 0 (cmd (.hoff h0 (phoff 2)) .run) ∧ s.streamMine 0 = true
       ∧ s.findStream 0 = some (strm .prefill) ∧ (strm .prefill).takesHoff = true ∧ (strm .queued).takesHoff = false
       ∧ (phoff 2).blk0.toNat + (phoff 2).count1.toNat < (strm .prefill).blocks ∧ (strm .prefill).registered 2 2 = false
       ∧ (s.hoffPages (phoff 2) (strm .prefill)).2.1 = 0)
    ∧ (stS { strm .prefill with d := [(1 : Word) <<< 36] }).streamMine 0 = false
    ∧ PortRuns (stP false (cmd (.hpull h0 phpull) .run) (strm .decode)) false (.hpull h0 phpull) 0 (cmd (.hpull h0 phpull) .run)
    ∧ phpull.blk0.toNat + phpull.count1.toNat < (strm .decode).blocks
    ∧ PortRuns (stP false (cmd hcan .run) (strm .decode)) false hcan 0 (cmd hcan .run) := by
  simp only [PortRuns]
  decide +kernel

theorem test_meets_ports_swap :
    (let x := { strm .parked with own := [0, 0, 0, 0] }
     let s := stP true (cmd (.swout h0 pswap) .run) x
     PortRuns s true (.swout h0 pswap) 0 (cmd (.swout h0 pswap) .run) ∧ (s.swapCheck pswap true).2.1 = 0)
    ∧ (let x := { strm .resuming with own := [7, 7, 7, 7] }
       let s := stP true (cmd (.swin h0 pswap) .run) x
       PortRuns s true (.swin h0 pswap) 0 (cmd (.swin h0 pswap) .run) ∧ (s.swapCheck pswap false).2.1 = 0)
    ∧ (let s := stP true { cmd (.rcopy h0 prcopy) .run with group := 1 } (strm .decode)
       PortRuns s true (.rcopy h0 prcopy) 0 { cmd (.rcopy h0 prcopy) .run with group := 1 } ∧ s.reachable 7 = true
         ∧ 1 - 1 < prcopy.ext.bytes.toNat / 8 ∧ prcopy.ext.bytes.toNat / 8 ≤ 3 - 1 ∧ prcopy.ext.rows1.toNat ≤ 0)
    ∧ ({ st with pkg := { st.pkg with unreachable := [7] } } : State).reachable 7 = false := by
  simp only [PortRuns]
  decide +kernel

theorem test_meets_ports_end :
    (let s := stP false chp { strm .decode with pulls := [⟨2, 2, 0, 0, ⟨2, 0⟩, 0, some 0⟩] }
     s.portPick (s.cell.port false).cmds 0 = some 0 ∧ (s.cell.port false).cmds[0]? = some chp ∧ s.outcome chp = some 0)
    ∧ (let c := cmd (.swin h0 pswap) (.release 0 0)
       let s := stP true c (strm .resuming)
       s.portPick (s.cell.port true).cmds 0 = some 0 ∧ (s.cell.port true).cmds[0]? = some c
         ∧ ∀ d ∈ c.ids, s.mem.reached d (scopeReach h0.scope) = true) := by
  decide +kernel

/-- R344, R347, R385: HOFF registers its pages and signals, HCANCEL cancels with 0x80 and its bits, RCOPY sends its words. -/
theorem test_port_results :
    after (exec (.hoff h0 (phoff 2)) (stP false (cmd (.hoff h0 (phoff 2)) .run) (strm .prefill))) (fun t =>
      (t.findStream 0).map (fun x : Stream => x.regs.map (fun r : HReg => (r.blk, r.srcDie, r.dstDie, r.dstFrame))) =
        some [(2, 0, 2, 0), (3, 0, 2, 1)]
      && (t.cell.port false).cmds.map (fun c : Cmd => c.phase) = [.release 0 0]) = true
    ∧ after (exec hcan (stP false (cmd hcan .run) (strm .decode))) (fun t =>
        (t.findStream 3).isNone && (t.cell.port false).cmds.length = 1) = true
    ∧ after (exec (.rcopy h0 prcopy) (stP true { cmd (.rcopy h0 prcopy) .run with group := 1 } (strm .decode))) (fun t =>
        t.pkg.outbox.map (fun o : Sent => (o.modno, o.win, o.off, o.val)) = [(7, 3, 0, 0)]) = true := by
  decide +kernel

/-! ## Events of a cell -/

/-- The ES has faulted and the AS runs a program. -/
def stEf : State := (st.updEs fun e => { e with run := .running }).esFault 1 5
/-- A load whose checks are delayed. -/
def stLateLd (a : Word) : State := match exec (.ldq ⟨g0, .lq, 5, 0, 0⟩) (stLate.setCore (regs stLate.core [(5, a)])) with | .next t => t | _ => st
def wb1 : Wback := ⟨⟨2, 0⟩, 1, 0, byteKey 1 2 0x2000, 64, true, 0, none⟩
def stRing : State := match exec (.enqs ⟨g0, .mx, 7⟩) st with | .next t => t | _ => st

theorem test_meets_cell_events :
    stEf.cell.esFaultDue = true ∧ stEf.cell.snaps = []
    ∧ (∃ y o, (stLateLd (mkAddr 1 0x2000)).cell.snaps = y :: []
        ∧ (stLateLd (mkAddr 1 0x2000)).cell.mops.find? (·.seq = (y : Snap).seq) = some o
        ∧ ((stLateLd (mkAddr 1 0x2000)).asAccess (needOf (o : MOp).kind) o.addr 0).2 = .ok spot1)
    ∧ (∃ y o, (stLateLd (mkAddr 1 0x2001)).cell.snaps = y :: []
        ∧ (stLateLd (mkAddr 1 0x2001)).cell.mops.find? (·.seq = (y : Snap).seq) = some o
        ∧ ((stLateLd (mkAddr 1 0x2001)).asAccess (needOf (o : MOp).kind) o.addr 0).2 = .error cAlign)
    ∧ (st.updMem fun m => { m with wbacks := [wb1] }).mem.wbacks[0]? = some wb1
    ∧ stRing.cell.ringSeg .mx = some (4096, 4096) ∧ (stRing.cell.eng .mx).front.length < 16
    ∧ (stRing.cell.eng .mx).wp ≠ (stRing.cell.eng .mx).rp
    ∧ (stRing.readW (stRing.cell.who (engAgent .mx)) (spadPlace stRing.cell.id 4096) 0).2.psn = false := by
  refine ⟨by decide +kernel, by decide +kernel, ?_, ?_, by decide +kernel⟩
  · exact ⟨(stLateLd (mkAddr 1 0x2000)).cell.snaps.head!, (stLateLd (mkAddr 1 0x2000)).cell.mops.head!, by decide +kernel⟩
  · exact ⟨(stLateLd (mkAddr 1 0x2001)).cell.snaps.head!, (stLateLd (mkAddr 1 0x2001)).cell.mops.head!, by decide +kernel⟩

/-- R43, R117, R197: a delayed check that fails comes back to its load and traps; a word moves to the front queue. -/
theorem test_cell_event_results :
    after (exec .memoryCheckCompletion (stLateLd (mkAddr 1 0x2001))) (fun t =>
      t.cell.as.sys.trappc = mkAddr 1 0 && t.cell.as.sys.trapval = mkAddr 1 0x2001 && t.cell.qs.lq = [] && t.cell.as.lvl = .kernel) = true
    ∧ after (exec .esFaultDelivery stEf) (fun t => t.cell.as.sys.trapcause = 0x12 && t.cell.as.sys.etrapval = 5) = true
    ∧ after (exec (.frontQueueMove .mx) stRing) (fun t =>
        (t.cell.eng .mx).front = [⟨7, false⟩] && (t.cell.eng .mx).rp = 1) = true := by
  decide +kernel

/-- A pageable segment 4 whose four tables stand in frame 8 of die 2, and its page 0 on frame 3 (R279 to R281). -/
def pte (n : Nat) : Word := BitVec.ofNat 64 (2 ^ 63 + 2 * 2 ^ 40 + n)
def leaf3 : Word := BitVec.ofNat 64 (2 ^ 63 + 2 ^ 62 + 2 ^ 46 + 2 ^ 45 + 2 * 2 ^ 40 + 2 ^ 37 + 3)
def stPg : State :=
  let s := (st.updFocus fun c => { c with
    segs := segs ++ [{ seg 0 0 0 6 65536 0 with d0 := (seg 0 0 0 6 65536 0).d0 ||| (1 <<< 50), d3 := pte 64 }] }).updMem fun m =>
      { m with binds := [⟨1, 2, 0, 0⟩, ⟨1, 2, 8, 0⟩, ⟨1, 2, 3, 0⟩] }
  (List.range 4).foldl (fun s n => poke s (byteKey 1 2 (8192 * (64 + n))) (if n = 3 then leaf3 else pte (65 + n))) s

theorem test_meets_tlb_load :
    (segAt stPg.cell.segs (4 : BitVec 6).toNat).map (fun e => (e.pageable, e.size, e.base, stPg.prefetchOk 4 e 0)) =
      some (true, 65536, 0, true) ∧ stPg.cell.as.run = .running := by
  decide +kernel

/-- R276, R281, R284: a store through the page goes to frame 3 and sets A and D; a load of the translation leaves it in the TLB. -/
theorem test_paging_results :
    after (exec (.st ⟨g0, 7, 5, 0, 0⟩) (stPg.setCore (regs stPg.core [(5, mkAddr 4 0x18)]))) (fun t =>
      t.cell.mops.map (fun o : MOp => o.place) = [some ⟨1, 2, 0x30018, 0, 0, false⟩]
      && memWord t.mem.mem (byteKey 1 2 (8192 * 67)) = leaf3 ||| (1 <<< 47) ||| (1 <<< 48)) = true
    ∧ after (exec (.tlbLoad .as 4 0) stPg) (fun t => t.cell.tlb = [⟨4, 0, leaf3 ||| (1 <<< 47)⟩]) = true := by
  decide +kernel

/-! ## Partitions, launches and dispatch -/

/-- Partition 0 in service on cluster 0 of die 2 with context 0 running; context 0 and context 1 admitted to it. -/
def stD : State :=
  let s := (st.updAs fun a => { a with run := .idle }).updPart 0 fun p => { p with en := true, cld := 1, ctx := some 0 }
  ((s.updCtx 0 fun x => { x with en := true }).updCtx 1 fun x => { x with en := true }).updPkg fun p => { p with
    time := ⟨9000000, true, false, 0, 0, 1800000, 0⟩, boot := { p.boot with phase := .running } }
/-- A launch of priority 3 with one enumerated operator; its record in a FIFO. -/
def lch : Launch := { (default : Launch) with id := 1, prio := 3, ops := [⟨mkAddr 1 0x40, true, 100⟩], segs := segs }
def rec1 : Rec := ⟨mkAddr 1 0x40, 5, 6, 0, 1, 0, 0, none, 0, true⟩
def stL : State := stD.updPkg fun p => { p with launches := [lch] }
def stF : State := (stD.updPkg fun p => { p with launches := [{ lch with cur := { lch.cur with fin := true } }] }).updPart 0 fun p =>
  { p with fifos := updAt p.fifos 3 fun _ => [rec1] }

theorem test_meets_dispatch :
    stL.cellPart stL.cell.id = some 0 ∧ stL.cell.as.run = .idle ∧ stL.cell.recd = none ∧ stL.cell.gated = false ∧ stL.partPause 0 = false
    ∧ stL.pkg.repair.replace.contains stL.cell.id = false ∧ stL.pkg.repair.retired.contains stL.cell.id.die = false
    ∧ nextEnum (stL.enumsAt 0 3) ((stL.part 0).served.getD 3 0) = some lch ∧ stL.fifoPick ((stL.part 0).fifos.getD 3 []) = none
    ∧ stF.fifoPick ((stF.part 0).fifos.getD 3 []) = some 0 ∧ nextEnum (stF.enumsAt 0 3) ((stF.part 0).served.getD 3 0) = none
    ∧ (∀ j ∈ [4, 5, 6, 7], stL.fifoPick ((stL.part 0).fifos.getD j []) = none ∧
        nextEnum (stL.enumsAt 0 j) ((stL.part 0).served.getD j 0) = none)
    ∧ stF.cellPart stF.cell.id = some 0 ∧ (∀ x ∈ lch.templ, x.2 = 0)
    ∧ agedAt stF.pkg.time.t3 ((stF.part 0).fifos.getD 3 []) = some 0 ∧ ((stF.part 0).fifos.getD 3 [])[0]? = some rec1
    ∧ stF.fifoFull 0 4 = false := by
  decide +kernel

/-- Words of host memory from an address on. -/
def hput (s : State) (a : Nat) (l : List (Nat × Nat)) : State := l.foldl (fun s x => s.hostPut (a + x.1) (BitVec.ofNat 64 x.2)) s
/-- A queue entry at host byte 0x8000 for a launch header at 0x10000 (R302, R305): one segment of die SRAM, its code at byte 0. -/
def stQ : State :=
  let s := hput stD 0x8000 [(0, 1), (8, 0x10000)]
  let s := hput s 0x10000 [(0, 0x4C4E5248 * 2 ^ 32 + 1 * 65536 + 5), (0x18, 0), (0x20, 4096), (0x38, 0x40),
    (0x100, (seg 0 1 2 7 65536 0).d0.toNat), (0x110, 65536)]
  s.updCq 0 0 fun x => { x with base := 0x8000, tail := 1 }
/-- The same with a magic number that is wrong, with an ill-formed entry, and with a fence entry. -/
def stQbad : State := hput stQ 0x10000 [(0, 0)]
def stQill : State := hput stQ 0x8000 [(0, 3)]
def fence1 : CqEnt := ⟨0, true, 0x9000, 77, false, false, []⟩
def stFe : State := stD.updCq 0 0 fun x => { x with ents := [fence1] }

theorem test_meets_launch :
    (stQ.cq 0 0).head ≠ (stQ.cq 0 0).tail ∧ cqIsFence (stQ.cqHead (stQ.cq 0 0)) = false ∧ stQ.ctxRuns 0 = true
    ∧ cqOk (stQ.cqHead (stQ.cq 0 0)) = true ∧ cqBarrier (stQ.cqHead (stQ.cq 0 0)) = false
    ∧ (stQ.checkLaunch 0 0x10000).2 = .ok [⟨0x40, true, 2000⟩] []
    ∧ (stQbad.checkLaunch 0 0x10000).2 = .refused 1 ∧ cqOk (stQill.cqHead (stQill.cq 0 0)) = false
    ∧ (stFe.cq 0 0).head = (stFe.cq 0 0).tail ∧ fenceReady [] (stFe.cq 0 0).ents = some (fence1, [], [])
    ∧ (([] : List CqEnt).all fun x => x.deps.all fun d => stFe.mem.reached d 4) = true := by
  decide +kernel

/-- R302 to R314: the launch starts, is refused with status 0x01, a fence record is written, a record runs with its registers set. -/
theorem test_launch_results :
    after (exec (.launchStart (.queue 0 0)) stQ) (fun t =>
      t.pkg.launches.map (fun l : Launch => (l.id, l.ctx, l.ops)) = [(1, 0, [⟨0x40, true, 2000⟩])] && (t.cq 0 0).head = 1) = true
    ∧ after (exec (.launchStart (.queue 0 0)) stQbad) (fun t => t.pkg.launches.isEmpty && (t.cq 0 0).head = 1
        && (t.cq 0 0).ents.map (fun e : CqEnt => e.refused) = [true]) = true
    ∧ after (exec (.fenceEntryComplete 0 0) stFe) (fun t => (t.hostWord 0x9018).v = 77 && (t.hostWord 0x9008).v = 3000000) = true
    ∧ after (exec .dispatch stF) (fun t => t.cell.as.run = .running && t.core.pc = mkAddr 1 0x40 && (t.rg 1).v = 5 && (t.rg 2).v = 6
        && (t.rg 31).v = 0) = true
    ∧ after (exec (.recordAging 0 3) stF) (fun t => ((t.part 0).fifos.getD 4 []).length = 1) = true := by
  decide +kernel

/-- Context 1 has work too; a launch that has run longer than 8 DBOUND. -/
def stTwo : State := stL.updPkg fun p => { p with launches := [lch, { lch with id := 2, ctx := 1 }] }
def stHang : State := stD.updPkg fun p => { p with launches := [{ lch with began := some 0 }] }
def ev1 : Evict := ⟨true, 0, 900000, 1000, 0xA000, [⟨0, .idle, 0, 0, some 5⟩]⟩
def stEv : State := stD.updPkg fun p => { p with evicts := [ev1] }

theorem test_meets_preempt :
    (stTwo.part 0).ctx = some 0 ∧ stTwo.hasWork 0 1 = true ∧ (stTwo.part 0).since + 3000 * (stTwo.part 0).slice ≤ stTwo.pkg.time.t3
    ∧ (stTwo.ctx 1).en = true ∧ (stTwo.ctx 2).en = false ∧ (stTwo.part 0).en = true ∧ stTwo.allStopped 0 = true
    ∧ (stTwo.updPart 0 fun p => { p with preempt := true }).allStopped 0 = true ∧ stHang.allStopped 0 = false
    ∧ (stHang.pkg.launches.find? (fun l => l.part = 0 && l.hung stHang.pkg.time.t3)).isSome = true
    ∧ stD.evStatus 0 0 0 = 1 ∧ stD.evStatus 0x10000 4000000 0 = 0 ∧ stD.evStatus 0x100C0 4000000 0 = 3
    ∧ stEv.pkg.evicts[0]? = some ev1 ∧ ev1.fallAt ≤ stEv.timeNs ∧ (stEv.noteVacant ev1.ctxs).2.all (·.vacant.isSome) = true
    ∧ (stD.launchesOf 5).isEmpty = true ∧ (stD.ctx 5).dirty = 0 ∧ (stL.launchesOf 0).isEmpty = false ∧ stL.isRunning 0 = true
    ∧ stL.evW 0 + 50000 ≤ 10 ^ 9 := by
  decide +kernel

/-- Context 0 has been saved, and none runs yet. -/
def stLeft : State := (stTwo.updPart 0 fun p => { p with ctx := none, left := some 0, owed := some 0 }).updPkg fun p => { p with
  time := { p.time with statics := 6000 } }

theorem test_preempt_results :
    after (exec (.contextSwitch 0) stLeft) (fun t => (t.part 0).ctx = some 1 && (t.part 0).owed = none) = true
    ∧ after (exec (.hangTimeout 0) stHang) (fun t => t.pkg.launches.isEmpty) = true
    ∧ after (exec (.sliceExpiry 0) stTwo) (fun t => (t.part 0).preempt) = true
    ∧ after (exec (.evictionRequest 0 0 0 0) stD) (fun t => t.pkg.mgmt.evStat = 1) = true := by
  decide +kernel

/-! ## Streams -/

/-- A registered block, from frame 0 of die 0 to frame 0 of die 2. -/
def hreg (b : Nat) : HReg := ⟨b, 0, b, 0, 2, b, 0, false, 1, 1, 1, 0, 0, 0⟩
def strO (sta : StreamState) : Stream := { strm sta with regs := [hreg 0, hreg 1], own := List.replicate 4 0 }
def nv1 : NvCmd := ⟨.write, 0, 0, 0, 0, 1, 0, 0, [], true⟩
def stStr : State := hput stD 0 [(0, 2 * 2 ^ 26), (8, 3 * 2 ^ 44 + 2 ^ 32), (40, 0x4000)]

theorem test_meets_streams :
    descriptorOk (stStr.descriptor 0) = true ∧ fld ((stStr.descriptor 0).getD 0 0) 43 36 = 0 ∧ stStr.createState 0 (stStr.descriptor 0) = true
    ∧ fld ((stStr.descriptor 0).getD 0 0) 43 36 ≠ 1 ∧ descriptorOk (st.descriptor 0) = false
    ∧ (stS (strm .decode)).streamCtx 0 = 0 ∧ (stS (strm .decode)).findStream 0 = some (strm .decode) ∧ (strm .decode).held = true
    ∧ (strm .decode).state.over = false ∧ (strm .lost).state.over = true
    ∧ (stS { strm .decode with running := true }).streamLaunched 0 = false
    ∧ (strO .handoff).nextSend (stD.hoffOpen 0) = some (hreg 0) ∧ ({ strO .handoff with sent := [0] } : Stream).regOf 0 = some (hreg 0) ∧ (hreg 0).modno = 0
    ∧ (stS (strO .handoff)).pkg.repair.linkDown (strO .handoff).pdie (strO .handoff).ddie = false
    ∧ (stS (strO .handoff)).pkg.repair.linkDown (hreg 0).srcDie (hreg 0).dstDie = false
    ∧ (let p : Pull := ⟨0, 1, 0, 0, ⟨2, 0⟩, 0, none⟩
       p.code = none ∧ p.since + 6000000 ≤ stD.pkg.time.t3)
    ∧ (stS (strm .lost)).streamIdle (strm .lost) = true ∧ (strm .lost).recorded = false ∧ (strm .lost).recomp = false
    ∧ ({ strm .lost with d := [(1 : Word) <<< 51] } : Stream).recomp = true ∧ (strm .lost).attempts < 3
    ∧ (stD.updPkg fun p => { p with nvme := [nv1] }).pkg.nvme[0]? = some nv1 ∧ stD.pkg.time.t3 < nv1.since + 300000000
    ∧ nv1.since + 300000000 ≤ 300000000 ∧ nv1.tries = 0 := by
  decide +kernel

/-- R329, R331, R337, R342: a stream is created in QUEUED, parked, cancelled with cause 0x01; its record is written once. -/
theorem test_stream_results :
    after (exec (.streamCreate 0 0) stStr) (fun t => (t.findStream 0).map (fun x : Stream => x.state) = some .queued) = true
    ∧ after (exec (.streamCancel 0 0) (stS (strm .decode))) (fun t =>
        (t.findStream 0).map (fun x : Stream => (x.state, x.cause)) = some (.cancelled, 1)) = true
    ∧ after (exec (.streamResume 0 0) (stS (strm .decode))) (fun t =>
        (t.ctx 0).strStat = 3 ∧ (t.ctx 0).read 0xC8 = 3 ∧ (t.ctx 0).read 0x48 = 6) = true
    ∧ after (exec (.completionRecord 0) (stS (strm .lost))) (fun t =>
        (t.findStream 0).map (fun x : Stream => (x.recorded, x.held)) = some (true, false)) = true := by
  decide +kernel

/-! ## Module and host -/

def rep1 : Report := ⟨1, 4, 0, 0, 0, 2, 0, 2, 0, 7, 0⟩
def stRep : State := stD.updPkg fun p => { p with errs := updAt p.errs 2 fun b => { b with reps := [rep1] } }
def det1 : Detection := ⟨.dramRow, 2, 0, 0⟩
def stDet : State := st.updPkg fun p => { p with repair := { p.repair with waiting := [det1] } }

theorem test_meets_module :
    stRep.nextDeliverable 2 = some 0 ∧ (stRep.pkg.errs.getD 2 ⟨[], 0, false⟩).reps[0]? = some rep1
    ∧ st.cell.hold = [] ∧ (∀ c ∈ st.parked, c.hold = []) ∧ st.pkg.hold = []
    ∧ stDet.pkg.repair.waiting[0]? = some det1
    ∧ (st.updPkg fun p => { p with repair := { p.repair with replace := [⟨2, 0⟩] } }).pkg.repair.replace.contains ⟨2, 0⟩ = true
    ∧ st.cellPart ⟨2, 0⟩ = none ∧ st.pkg.repair.spareCells.getD 2 0 ≠ 0
    ∧ 63 < Config.cellsOf 2 ∧ (st.updPkg fun p => { p with time := ⟨300000000, true, false, 0, 0, 0, 0⟩ }).busDue (busNo 2 63) = true
    ∧ (st.pkg.heat[0]?).isSome = true ∧ (st.pkg.ctxs[191]?).isSome = true
    ∧ st.pkg.power.capw.toNat < 1 ∧ st.pkg.power.lastApply = none ∧ st.timeNs = 0
    ∧ (∀ p ∈ st.pkg.parts, p.en = false) ∧ (stD.part 0).en = true ∧ (stD.part 0).ctx = some 0
    ∧ (let s := st.updPower fun p => { p with capw := 100 }
       95 * s.pkg.power.capw.toNat ≤ 100 * 95 ∧ 95 ≤ s.pkg.power.capw.toNat ∧ 100 * 94 < 95 * s.pkg.power.capw.toNat) := by
  decide +kernel

/-- The MS in focus, halted. -/
def stMs : State := { State.reset with
  cell := { Cell.init ⟨6, 0⟩ with as := { AsSt.init 6 with run := .halted } }, parked := (allCells.filter (· ≠ ⟨6, 0⟩)).map Cell.init }
/-- A window in service onto die SRAM. -/
def win1 (src : Nat) : Window :=
  ⟨[BitVec.ofNat 64 (2 ^ 63 + src), (seg 0 1 2 6 65536 0).d0, 0, 65536, 0, 0, 0, 0]⟩

theorem test_meets_host :
    (stD.part 1).en = false ∧ stD.mayEnable 1 ((stD.part 1).set0 (0x8000000000000000 + 2000 * 2 ^ 32 + 10)) = true ∧ 1 < stD.pkg.parts.length
    ∧ stD.mayEnable 1 ((stD.part 1).set0 0x8000000000000000) = false ∧ stD.pkg.boot.phase = .running ∧ (stD.ctx 2).en = false
    ∧ (stD.ctx 0).en = true ∧ stD.mayAdmit ((stD.ctx 2).set0 0x8000000000000000) = false
    ∧ stD.mayAdmit ((stD.ctx 2).set0 0x8002000000000000) = true ∧ stD.keyFilled 511 = false ∧ stD.keyFilled 0 = true
    ∧ stMs.cell.id = ⟨6, 0⟩ ∧ stMs.cell.as.run = .halted
    ∧ (clusterCells 2 0).any (fun c => (st.cellPart c).isSome) = false ∧ st.clusterClean (clusterCells 2 0) = true
    ∧ (clusterCells 2 0).any (fun c => (stD.cellPart c).isSome) = true
    ∧ (∀ c ∈ clusterCells 2 0, ∀ x ∈ st.findCell c, x.recd = none) ∧ st.cell.id ∈ clusterCells 2 0
    ∧ (win1 0).en = true ∧ (win1 0).src = 0 ∧ (win1 7).src ≠ 0 ∧ (win1 7).src ≠ 8 ∧ (default : Window).en = false
    ∧ (st.windowPlace 0 (win1 0) 8).2 = some ⟨1, 2, 8, 0, 0, false⟩ ∧ (st.windowPlace 0 (win1 0) 9).2 = none
    ∧ st.pkg.time.set = false ∧ stD.pkg.time.set = true
    ∧ st.pkg.boot.msStart + 6000000000 ≤ (st.updPkg fun p => { p with time := ⟨0, false, false, 0, 0, 6000000000, 0⟩ }).pkg.time.clk := by
  decide +kernel

/-- R384, R367, R376, R365: a remote write lands, a context whose key is 0 is not admitted, the MS wakes, a partition enters service. -/
theorem test_host_results :
    after (exec (.remoteWrite 0 9 8 (77, false)) (st.updPkg fun p => { p with windows := [win1 0] })) (fun t =>
      memWord t.mem.mem (byteKey 1 2 8) = 77) = true
    ∧ after (exec (.contextAdmit 2 (0x8000000000000000 + 3 * 2 ^ 32)) stD) (fun t => (t.ctx 2).en = false) = true
    ∧ after (exec (.msWake .mailbox) stMs) (fun t => t.cell.as.run = .running) = true
    ∧ after (exec (.partitionEnable 1 (0x8000000000000000 + 2000 * 2 ^ 32 + 10)) stD) (fun t => (t.part 1).en) = true
    ∧ after (exec (.ptpSync 1000 5) st) (fun t => t.timeNs = 1000 && t.pkg.time.set) = true
    ∧ after (exec (.keySlotFill 5 1 2) (st.updMgmt fun m => { m with session := true })) (fun t => t.keyFilled 5) = true := by
  decide +kernel

/-! ## The other cases: steps -/

/-- The AS's slot with the ES's fault to take, its own instruction an ADD, and one that is illegal. -/
def stEfOk : State := slot ((poke stEf (byteKey 1 2 0) 0x04110C00).updFocus fun c => { c with recd := some ⟨1, 0, 3⟩ }) .as
def stEfBad : State := slot (poke stEf (byteKey 1 2 0) 0x0400000F) .as
/-- A prefix with a set reserved bit, placed for the AS. -/
def stBadRep : State := slot (poke st (byteKey 1 2 0) 0xFC311001) .as

theorem test_meets_step_faults :
    comes stEfOk = true ∧ stEfOk.nextSlot.2.turn = .as ∧ (entered stEfOk).cell.as.run = .running ∧ (entered stEfOk).seqStopped 0 = false
    ∧ (entered stEfOk).cell.esFaultDue = true ∧ after (runTurn (entered stEfOk).asFetch) (fun t => !t.asFaulted) = true
    ∧ comes stEfBad = true ∧ (entered stEfBad).cell.esFaultDue = true ∧ (entered stEfBad).seqStopped 0 = false
    ∧ after (runTurn (entered stEfBad).asFetch) (fun t => t.asFaulted) = true
    ∧ comes stBadRep = true ∧ (entered stBadRep).cell.as.run = .running ∧ (entered stBadRep).seqStopped 0 = false
    ∧ (entered stBadRep).core.rep = none ∧ (asFetchAt (entered stBadRep) (entered stBadRep).core.pc).2 = some 0xFC311001
    ∧ (decodeAs 0xFC311001).toOption = none ∧ (0xFC311001 : Word32).extractLsb' 26 6 = 0x3F
    ∧ (asFetchAt (entered stBadRep) (entered stBadRep).core.pc).1.cell.snaps = [] := by
  decide +kernel

/-- R135, R160: the trap at the prefix saves its count with k = 0; an AS fault comes before the ES's. -/
theorem test_step_fault_results :
    after (step stBadRep) (fun t => t.cell.as.sys.trapcause = 1 && t.cell.as.sys.traprep = 3) = true
    ∧ after (step stEfBad) (fun t => t.cell.as.sys.trapcause = 1 && t.cell.as.delivered = false) = true
    ∧ after (step stEfOk) (fun t => t.cell.as.sys.trapcause = 0x12 && t.cell.as.delivered) = true := by
  decide +kernel

/-! ## The SC operations, records and appends: the other cases -/

/-- A write of class 7 the AS made, at cell scope, stands in the way of an SC write. -/
def stScOpen : State := stSc.updMem fun m => { m with
  writes := [⟨1, ⟨2, 0⟩, false, 0, 7, byteKey 1 2 0x2000, 5, 0xFF, false, 0, 0, none, 0⟩], nextId := 2 }

theorem test_meets_sc_cases :
    ScTurn stSc 0 ∧ ScSees stSc ∧ ¬ ScTurn (tick6 stSc) 0 ∧ ¬ ScSees stScOpen ∧ ScTurn stScOpen 0
    ∧ (tick6 stSc).wheelOwned ≠ [] ∧ (stSc.asAccess needLinR (mkAddr 1 0x10000) 0).2 = .error cBounds
    ∧ (stSc.asAccess needLinW (mkAddr 1 4) 0).2 = .error cAlign ∧ (stSc.asAccess needLinRW (mkAddr 0 64) 0).2 = .error cAccess
    ∧ (stSc.asAccess needLinW (stSc.rg 5).v 0).1.mem.keyFits spot1 = true ∧ stFull.qFull .lq = true ∧ st.wheelOwned = []
    ∧ st.qFull .lq = false := by
  have h : stSc.wheelPos = some 5 ∧ 5 ∈ stSc.wheelOwned := by decide +kernel
  have k : stScOpen.wheelPos = some 5 ∧ 5 ∈ stScOpen.wheelOwned := by decide +kernel
  have n : (tick6 stSc).wheelPos = some 6 ∧ (tick6 stSc).wheelOwned = [5] := by decide +kernel
  refine ⟨⟨⟨5, h⟩, by simp only [Checked]; decide +kernel⟩, ?_, ?_, ?_, ⟨⟨5, k⟩, by simp only [Checked]; decide +kernel⟩, by decide +kernel⟩
  · simp only [ScSees]; decide +kernel
  · rintro ⟨⟨w, hw, hm⟩, -⟩; rw [n.1] at hw; rw [n.2] at hm; simp_all
  · simp only [ScSees]; decide +kernel

/-- The count word of a JOIN holds `n`; its checks are done. -/
def stJn (n : Word) : State := poke (stRec.asAccess needLinRW (stRec.rg 5).v 0).1 (byteKey 1 2 0x2000) n
def joinAt0 (s : State) : TW :=
  let u := (s.asAccess needLinRW (s.rg 5).v 0).1
  (u.meetError (u.cell.who 0) (l1Of u.cell spot1.line) spot1 (s.rg 5).v).joinWord spot1 0
/-- The join block of a record stands at 0x40 of segment 1 and counts `n`. -/
def spotJ : Place := ⟨1, 2, 0x40, 0, 0, false⟩
def stEj (n : Word) : State := poke (stRec.joinpAccess).1 (byteKey 1 2 0x40) n
def exitJoin0 (s : State) : State :=
  let u := s.joinpAccess.1
  u.meetError (u.cell.who 0) (l1Of u.cell spotJ.line) spotJ u.cell.as.sys.joinp

theorem test_meets_record_cases :
    (stJn 1).packageOpen = false ∧ (stJn 1).mem.contended (stJn 1).cell.id spot1.wkey 3 = false ∧ joinAt0 (stJn 1) = ⟨1, false⟩
    ∧ joinAt0 (stJn 2) = ⟨2, false⟩ ∧ (joinAt0 ((stJn 2).updMem fun m => { m with psn := [byteKey 1 2 0x2000] })).psn = true
    ∧ (stJn 1).cell.recd = some ⟨1, 0, 3⟩ ∧ (stJn 1).codeOk ((stJn 1).rg 6).v = true ∧ (stJn 1).mem.keyFits spot1 = true
    ∧ (st.updAs fun a => { a with exitTested := true }).cell.as.exitTested = true ∧ ((flight (.store 5 false) spot1).packageOpen = true)
    ∧ (flight (.store 5 false) spot1).cell.engineWork = false ∧ st.cell.as.sys.joinp = 0 ∧ stRec.cell.as.sys.joinp ≠ 0
    ∧ (stEj 2).joinpAccess.2 = .ok spotJ ∧ (stEj 2).packageOpen = false ∧ (stEj 2).cell.es.run = .idle
    ∧ (stEj 2).mem.contended (stEj 2).cell.id spotJ.wkey 3 = false ∧ (exitJoin0 (stEj 2)).joinWord spotJ 0 = ⟨2, false⟩
    ∧ (exitJoin0 (stEj 1)).joinWord spotJ 0 = ⟨1, false⟩ ∧ (exitJoin0 (stEj 1)).joinMarked spotJ = none
    ∧ (exitJoin0 (stEj 1)).cell.recd = some ⟨1, 0, 3⟩ ∧ st.cell.as.exitTested = false ∧ stMx.cell.engineWork = true
    ∧ (stE 0 0 0).cell.es.run ≠ .idle ∧ (stSem (.count 1)).cell.es.run = .idle := by
  decide +kernel

/-- R147, R149: the last of a join queues the continuation; EXIT takes it from the join block's words. -/
theorem test_join_results :
    after (exec (.join ⟨g0, 5, 6⟩) (stJn 1)) (fun t =>
        ((t.part 0).fifos.getD 3 []).map (fun r : Rec => r.code) = [mkAddr 1 0x40]) = true
    ∧ after (exec (.join ⟨g0, 5, 6⟩) (stJn 2)) (fun t => memWord t.mem.mem (byteKey 1 2 0x2000) = 1
      && ((t.part 0).fifos.getD 3 []).isEmpty) = true
    ∧ after (exec (.exit ⟨g0⟩) (poke (stEj 1) (byteKey 1 2 0x48) (mkAddr 1 0x80))) (fun t =>
        ((t.part 0).fifos.getD 3 []).map (fun r : Rec => r.code) = [mkAddr 1 0x80] && t.cell.recd.isNone) = true := by
  decide +kernel

/-- The ring of mx with one free word; a port with one credit. -/
def stTight : State := (st.updFocus fun c => { c with
  mx := { c.mx with wp := 1023 }, ho := { c.ho with credits := 1 }, hub := { c.hub with credits := 1 } })
/-- The MS in focus, with the same registers. -/
def stOnMs : State := st.updFocus fun c => { c with id := ⟨6, 0⟩ }

theorem test_meets_appends :
    st.cell.ringSeg .mx = some (4096, 4096) ∧ (enqWords 7 9).length ≤ (st.cell.eng .mx).free 4096
    ∧ stTight.cell.ringSeg .mx = some (4096, 4096) ∧ (stTight.cell.eng .mx).free 4096 < (enqWords 7 9).length
    ∧ [(7 : Word32)].length ≤ (stTight.cell.eng .mx).free 4096 ∧ st.cell.ringSeg .xe = none ∧ stOnMs.cell.id.die = 6
    ∧ (enqWords 7 9).length ≤ st.cell.ho.credits ∧ stTight.cell.ho.credits < (enqWords 7 9).length
    ∧ stTight.cell.hub.credits < (enqWords 7 9).length ∧ 4096 % 4 = 0
    ∧ inSection st.cell.esbase st.cell.essize (mkAddr 1 0x1000) = false ∧ st.cell.es.run = .idle
    ∧ (stE 0 0 0).cell.es.run = .running ∧ (stE 0 0 0).cell.snaps = [] := by
  decide +kernel

theorem test_meets_return_cases :
    (let s := stTrapped.updMem fun m => { m with bad := [byteKey 1 2 262144] }
     s.cell.as.lvl ≠ .program ∧ (s.saveArea.map fun x =>
       (x.1.saveError x.2 (rettSlots x.1)).isSome) = some true)
    ∧ (let s := poke (stTrapped.updMem fun m => { m with writes := [] }) (byteKey 1 2 262144) 0x2000
       (s.saveArea.map fun x => (x.1.saveError x.2 (rettSlots x.1), ((rettReads x.1 x.2).badSlot x.2 asSlotOk asSlots false).isSome)) = some (none, true))
    ∧ (let s := poke (stDelivered.updMem fun m => { m with writes := [] }) (byteKey 1 2 (262144 + esSlot 0)) 0x2000
       (s.saveArea.map fun x => (x.1.saveError x.2 (rettSlots x.1), (rettReads x.1 x.2).badSlot x.2 asSlotOk asSlots false,
         x.1.cell.as.sys.esHalted, ((rettReads x.1 x.2).badSlot x.2 esSlotOk esSlots false).isSome)) = some (none, none, true, true))
    ∧ (stTrapped.updAs fun a => { a with sys := { a.sys with pwlsave := mkAddr 63 0 } }).saveArea = none
    ∧ (stTrapped.updAs fun a => { a with sys := { a.sys with esPending := true } }).cell.as.delivered = false := by
  decide +kernel

/-! ## The other cases: the ES and tiles -/

/-- A tagged entry, and addresses that fail, at the heads of q1. -/
def stEq (x : QEnt) : State := (stE shS32 0 0).updQs fun k => { k with q := k.q.set 1 [x] }
/-- A tagged m2; full branch-outcome queues. -/
def stEm : State := (stE shS32 0 0).updEs fun e => { e with m := e.m.set 2 ⟨1, true⟩ }
def stEb : State := (stE shS32 0 0).updQs fun k => { k with bqe := List.replicate 8 ⟨true, 0⟩ }

theorem test_meets_es_cases :
    popHead 0 ((stEq ⟨64, true, true, 0, 0⟩).cell.qs.dq 1) = some (⟨64, true, true, 0, 0⟩, []) ∧ popHead 0 ((stE 0 0 0).cell.qs.dq 2) = none
    ∧ (stE shS32 0 0).esAccess needSpadR 4090 0 8 = .error cAlign ∧ (stE shS32 0 0).esAccess needSpadW 4096 0 8 = .error cBounds
    ∧ (stE shS32 0 0).esAccess needSpadR 4088 0 ((stE shS32 0 0).ev 2 |> fun x => x.vl * x.w / 8) = .ok { spot0 with addr := 4088 }
    ∧ (stEm.ev 2).mask.psn = true ∧ inSection st.cell.esbase st.cell.essize ((stE shS32 0 0).esTarget 0x400) = false
    ∧ inSection st.cell.esbase st.cell.essize ((stE shS32 0 0).esTarget 0x3FF) = true
    ∧ st.cell.qs.bqa = [] ∧ Config.capBq ≤ stEb.cell.qs.bqe.length
    ∧ (stSem (.count 0)).sem 3 = some (.count 0) ∧ (stSem (.count 1)).sem 3 = some (.count 1) ∧ (stSem (.err 5)).sem 3 = some (.err 5)
    ∧ esLegal shS32 (.vcmp ⟨0, 1, 2, .queue 0, .lt⟩) = true ∧ tyInt (stE shS32 0 0).ty = true
    ∧ ((stE shS32 0 0).ev 0).active 0 = true ∧ ((stE shS32 0 0).ev 2).active 1 = false := by
  decide +kernel

/-- A row with a failing element in chunk 0, tagged operands, and rows and chunks there are none of. -/
def rowB : TRow := { row0 with bad := [31] }
theorem test_meets_tile_cases :
    (rowB.bad.any fun j => 32 * 0 ≤ j && j < 32 * 0 + 32) = true ∧ (rowB.bad.any fun j => 32 * 1 ≤ j && j < 32 * 1 + 32) = false
    ∧ ((stM false rowB).tile 0).rows[0]? = some rowB ∧ (st.tile 0).rows[16]? = none
    ∧ ¬ (8 : BitVec 5).toNat < Config.arrN st.cell.id.die / 32 ∧ (7 : BitVec 5).toNat < Config.arrN st.cell.id.die / 32
    ∧ ((stE 0 0 0).updEs fun e => { e with v := e.v.set 2 ⟨1, true⟩ }).cell.es.v.toList.any (·.psn) = true
    ∧ (stEm.cell.es.rm 2).psn = true ∧ popHead 0 ((stE 0 0 0).cell.qs.dq 3) = none
    ∧ popHead 0 ((stEq ⟨5, true, true, 0, 0⟩).cell.qs.dq 1) = some (⟨5, true, true, 0, 0⟩, []) := by
  decide +kernel

/-- R71, R167, R185: a failing element tags what ACRD reads and sets PAR; VST stores the bytes of its active elements only. -/
theorem test_es_case_results :
    after (exec (.acrd ⟨0, 1, 0, 0, 0⟩) (stM false rowB)) (fun t => ((t.tile 0).rows[0]?).map (fun r : TRow => r.par) = some true
      && t.cell.es.infl.map (fun e : EPend => e.parts.map (fun p : EPart => p.psn)) = [[true]]) = true
    ∧ after (exec (.vst ⟨2, 2, 1, 0⟩) (stE shS32 0x0000000700000003 0)) (fun t =>
        memWord t.mem.mem (byteKey 0 (spadUnit ⟨2, 0⟩) 64) = 3 && (t.cell.qs.dq 1).isEmpty) = true
    ∧ lands (exec (.vld ⟨0, 1, 1, 0⟩) (poke (stE shS32 0 0) (byteKey 0 (spadUnit ⟨2, 0⟩) 64) 0x0000000700000003))
        = some (0x0000000700000003, false) := by
  decide +kernel

/-! ## The other cases: engines -/

/-- MX in step 5 with an error; a semaphore that overflowed in this cycle. -/
def stRel (i : Instr) (code : Nat) (told : Bool) : State := (stC .mx (cmd i (.release code 0))).setTold .mx told
def mhdr1 : Instr := .mhdr h1 ⟨32, 1, 1, false, false⟩

theorem test_meets_engine_cases :
    ((stRel mclr1 4 true).cell.eng .mx).told = true ∧ ((stRel mclr1 4 true).cell.eng .mx).cur = some (cmd mclr1 (.release 4 0))
    ∧ ((stRel mhdr1 5 true).cell.eng .mx).cur = some (cmd mhdr1 (.release 5 0)) ∧ engCmd mhdr1 = some (.mx, h1) ∧ isMhdr mhdr1 = true
    ∧ ((stRel (.mma h0 pma) 0x12 false).cell.eng .mx).told = false ∧ isMma (.mma h0 pma) = true ∧ h0.sig = 63
    ∧ ((stRel mclr1 4 false).cell.eng .mx).told = false ∧ (cmd mclr1 (.release 4 0)).ids = [] := by
  decide +kernel

/-- R22, R204: an error completion puts the signal semaphore into error phase; a 0x05 of MHDR still drops the held weights. -/
theorem test_engine_results :
    after (exec mclr1 (stRel mclr1 4 true)) (fun t => t.sem 2 = some (.err 4) && (t.cell.eng .mx).cur.isNone) = true
    ∧ after (exec mhdr1 ((stRel mhdr1 5 true).updMx fun x => { x with held := some ⟨32, 1, false, []⟩ })) (fun t =>
        t.sem 2 = some (.err 5) && t.cell.mxs.held.isNone) = true := by
  decide +kernel

/-- An MMA before its first panel, and with both blocks of its panel read. -/
def cstart : Cmd := cmd (.mma h0 pma) .run
def stMs0 (p : PMma) : State := stC .mx (cmd (.mma h0 p) .run) |>.updFocus fun c => { c with
  mxs := { c.mxs with shape := some shape1, a := some desc1, b := some desc1 } }
def stMd (code : Nat) : State := (stM false row0).setCmd .mx (some { cstart with sub := 2, code := code })
/-- An MWB of one f32 row to scratchpad byte 128, at its checks, at the row, and at the word of the row read. -/
def pmwb : PMwb := ⟨.f32, true, 0, 0, 128, 1, 0⟩
def cmwb : Cmd := cmd (.mwb h0 pmwb) .run
def stWb (p : PMwb) (u : Nat) : State := (stM false (rowA 5)).setCmd .mx (some { cmd (.mwb h0 p) .run with unit := u })
def cwbk : Cmd := { cmwb with unit := 1, buf := [⟨5 <<< 32 ||| 6, false⟩] }
def stWbk : State := (stM false (rowA 5)).setCmd .mx (some cwbk)

theorem test_meets_matrix_cases :
    (stMs0 { pma with row0 := 16 }).mmaCheck { pma with row0 := 16 } shape1 desc1 desc1 = 4
    ∧ Config.tileM st.cell.id.die < (16 : BitVec 6).toNat + shape1.m ∧ (15 : BitVec 6).toNat + shape1.m ≤ Config.tileM st.cell.id.die
    ∧ (stMs0 pma).mmaCheck pma shape1 desc1 desc1 = 0 ∧ (stMs0 pma).aCode shape1 desc1 = 0
    ∧ (stMs0 pma).kindCode desc1.base desc1.rot [kScratch, kTensor] = 0
    ∧ (stMs0 pma).kindCode (mkAddr 60 0) 0 [kScratch, kTensor] = 3 ∧ (stMs0 pma).aCode shape1 { desc1 with base := mkAddr 1 0 } = 0x11
    ∧ (stMs0 pma).aCode { shape1 with areg := true } { desc1 with base := 8192 } = 0x11
    ∧ (stMs0 pma).aCode { shape1 with areg := true } { desc1 with base := 8191 } = 0
    ∧ heldFor (stMs0 pma).cell.mxs shape1 = none ∧ Runs (stMs0 pma) .mx (.mma h0 pma) cstart
    ∧ cstart.unit ≤ cstart.group / 12 ∧ cstart.sub < panelBlks shape1 pma.keepb 0 ∧ panelBlks shape1 pma.keepb 0 = 2
    ∧ Runs (stMd 0) .mx (.mma h0 pma) { cstart with sub := 2 } ∧ Runs (stMd 8) .mx (.mma h0 pma) { cstart with sub := 2, code := 8 }
    ∧ Runs (stWb pmwb 0) .mx (.mwb h0 pmwb) cmwb ∧ (stWb pmwb 0).wbKind pmwb = 0 ∧ (stWb pmwb 0).cell.mxs.shape = some shape1
    ∧ wbBytes pmwb.fmt shape1.n ≤ pmwb.rpitch.toNat * 64 ∧ ((stWb pmwb 0).wbCheck pmwb 4 0 [] [0]).2.1 = 0
    ∧ ((stWb pmwb 0).wbCheck { pmwb with base := 4096 } 4 0 [] [0]).2.1 ≠ 0 ∧ (stWb pmwb 0).wbKind { pmwb with base := mkAddr 2 0 } = 0x11
    ∧ ({ pmwb with rpitch := 0 } : PMwb).rpitch.toNat * 64 < wbBytes pmwb.fmt shape1.n
    ∧ Runs (stWb pmwb 1) .mx (.mwb h0 pmwb) { cmwb with unit := 1 } ∧ ((stWb pmwb 1).tile 0).rows[0]? = some (rowA 5)
    ∧ (stWb pmwb 1).placePaused ((stWb pmwb 1).engWord 0 128 0 []) = false
    ∧ (Runs ((stM false (rowA 5)).setCmd .mx (some (cmd (.mrn h0 ⟨20, 0, 0⟩) .run))) .mx (.mrn h0 ⟨20, 0, 0⟩) (cmd (.mrn h0 ⟨20, 0, 0⟩) .run)) := by
  simp only [Runs]
  decide +kernel

/-- R206, R208, R220: the first word of a panel is read, the panel is complete, a row is written back and cleared. -/
theorem test_matrix_case_results :
    after (exec (.mma h0 pma) (stMs0 pma)) (fun t => ((t.cell.eng .mx).cur).map (fun c : Cmd => (c.sub, c.buf.length)) = some (0, 1)) = true
    ∧ after (exec (.mma h0 pma) (stMd 0)) (fun t => ((t.cell.eng .mx).cur).map (fun c : Cmd => (c.unit, c.sub)) = some (1, 0)) = true
    ∧ after (exec (.mma h0 pma) (stMd 8)) (fun t => ((t.cell.eng .mx).cur).map (fun c : Cmd => c.phase) = some (.release 8 0)) = true
    ∧ after (exec (.mma h0 { pma with keepb := true }) (stMs0 { pma with keepb := true })) (fun t =>
        ((t.cell.eng .mx).cur).map (fun c : Cmd => c.phase) = some (.release 0x12 0)) = true
    ∧ after (exec (.mwb h0 pmwb) (stWb pmwb 1)) (fun t => ((t.tile 0).rows[0]?).map (fun r : TRow => r.fresh) = some true
        && ((t.cell.eng .mx).cur).map (fun c : Cmd => (c.sub, c.buf.isEmpty)) = some (0, false) && t.mem.mem.isEmpty) = true
    ∧ after (exec (.mwb h0 pmwb) stWbk) (fun t => memWord t.mem.mem (byteKey 0 (spadUnit ⟨2, 0⟩) 128) = 6
        && ((t.cell.eng .mx).cur).map (fun c : Cmd => c.phase) = some (.release 0 0)) = true := by
  decide +kernel

/-! ## The other cases: data movement -/

/-- A COPY out of a tensor segment whose column has no tokens. -/
def pcopyT : PCopy := { pcopy with src := mkAddr 4 0 }
def stHot : State := { (stS (strm .decode)) with pkg := { (stS (strm .decode)).pkg with
  heat := ((stS (strm .decode)).pkg.heat.map fun h => (h.1, { h.2 with paused := true })) } }

theorem test_meets_data_cases :
    staticOf st (.fill false h0 { pfill with dst := mkAddr 60 0 }) = 3 ∧ staticOf st (.fill false h0 pfill) = 0
    ∧ staticOf st (.copy false h0 { pcopy with dst := mkAddr 2 0 }) = 0x13
    ∧ (st.planCheck .ce0 (fillPlan pfill) 0 0 []).2.1 = 0 ∧ (st.planCheck .ce0 (fillPlan { pfill with dst := 4088 }) 0 0 []).2.1 ≠ 0
    ∧ (st.gathFind .ce0 ⟨0, 0, 64, 0, 8, 8, 1, 0, 0, 0⟩ 0).2.1 = 0 ∧ (st.gathFind .ce0 ⟨0, 0, 4096, 0, 8, 8, 1, 0, 0, 0⟩ 0).2.1 ≠ 0
    ∧ st.piecesPaused (fillPlan pfill) [] ((fillPlan pfill).pieces 0 0 0) = false
    ∧ (let l := srcOf ((xposePlan ⟨64, 128, ⟨16, 0⟩, ⟨16, 0⟩, 0, 7, 7⟩).pieces 0 0 0)
       l[0]? = some (0, 1) ∧ 0 + 1 < l.length ∧ l[7]? = some (112, 1) ∧ 7 + 1 = l.length)
    ∧ (fillPlan pfill).pieces 0 0 1 = [⟨none, 8, 8⟩] ∧ (copyPlan pcopy).pieces 0 0 1 = [⟨some 8, 8, 8⟩]
    ∧ st.operand ⟨64, 0⟩ kSL [] = 0 ∧ st.operand ⟨mkAddr 60 0, 0⟩ kSL [] = 3
    ∧ (st.engRange .ce1 0 64 8 true false []).2.1 = 0 ∧ (st.engRange .ce1 0 4096 8 true false []).2.1 ≠ 0
    ∧ (∃ w ∈ (wrote 0).mem.writes, sameUnit w.reach w.cell (wrote 0).cell.id = true ∧ (wrote 0).mem.reached w.id 3 = false)
    ∧ (st.engWord 0 64 0 []).loc = 0
    ∧ stHot.piecesPaused (copyPlan pcopyT) [] ((copyPlan pcopyT).pieces 0 0 0) = true ∧ stHot.placePaused (stHot.engWord 4 0 0 []) = true := by
  decide +kernel

/-- The small state with a compressed segment 4, and CE0 in a CMPR of 2112 bytes into it, or in an EXPN from it. -/
def pcmpr : PCmpr := ⟨mkAddr 1 0x3000, mkAddr 4 0, 4096, 0, 2112, 64⟩
def pexpn : PCmpr := ⟨mkAddr 4 0, 1024, 0, 0, 2112, 64⟩
def segC : SegEnt := { seg 0 1 2 6 65536 524288 with d0 := (seg 0 1 2 6 65536 524288).d0 ||| (1 <<< 47) }
def stCm (c : Cmd) : State := (st.updFocus fun x => { x with segs := segs ++ [segC] }).setCmd .ce0 (some c)
/-- Unit 1 of the CMPR with `n` words read or written in part `g`. -/
def ccmpr (g : Nat) (buf : List TW) (n : Nat) : Cmd :=
  { cmd (.cmpr false h0 pcmpr) .run with unit := 1, outBytes := 64, group := g, buf := buf, sub := n }
def cexpn (g : Nat) (buf : List TW) (n : Nat) : Cmd :=
  { cmd (.expn false h0 pexpn) .run with unit := 1, inBytes := 64, outBytes := 2048, group := g, buf := buf, sub := n }
/-- The header of a unit of one zero block. -/
def hdrZ : List TW := (cmprUnit [blkZ]).map fun x => ⟨BitVec.ofNat 64 x.1, x.2⟩
def zeros (n : Nat) : List TW := List.replicate n ⟨0, false⟩
/-- The two commands at unit 0 with nothing done. -/
def c0 (p : PCmpr) (x : Bool) : Cmd := cmd (if x then .expn false h0 p else .cmpr false h0 p) .run

theorem test_meets_compress :
    Runs (stCm (ccmpr 0 [] 0)) .ce0 (.cmpr false h0 pcmpr) (ccmpr 0 [] 0) ∧ (ccmpr 0 [] 0).row = 0 ∧ cmprBlocks pcmpr 1 = 1
    ∧ (let s := stCm (ccmpr 0 [] 0)
       let rr := s.engRange .ce0 0 64 8 true false []
       let rs := rr.1.engRange .ce0 1 (0x3000 + 2048) 64 false false []
       let rh := rs.1.engRange .ce0 4 64 64 true true []
       rr.2.1 = 0 ∧ rs.2.1 = 0 ∧ rh.2.1 = 0)
    ∧ ((stCm (c0 pcmpr false)).cmprStatic .ce0 pcmpr false).2 = 0 ∧ ((st.setCmd .ce0 (some (c0 pcmpr false))).cmprStatic .ce0 pcmpr false).2 = 3
    ∧ (let s := st.setCmd .ce0 (some (ccmpr 0 [] 0))
       let rr := s.engRange .ce0 0 64 8 true false []
       lowCode (rr.1.engRange .ce0 1 (0x3000 + 2048) 64 false false []).2.1 (rr.1.engRange .ce0 4 64 64 true true []).2.1 ≠ 0)
    ∧ ((stCm (ccmpr 0 [] 0)).engRange .ce0 0 4096 8 true false []).2.1 ≠ 0
    ∧ (ccmpr 1 [] 7).sub < 8 * cmprBlocks pcmpr 1 ∧ 8 * cmprBlocks pcmpr 1 ≤ (ccmpr 1 (zeros 8) 8).sub
    ∧ (cmprUnit (blocksOf 1 ((zeros 8).map fun x => (x.v.toNat, x.psn)))).length = 8
    ∧ ((stCm (ccmpr 1 (zeros 8) 8)).engRange .ce0 4 64 64 true true []).2.1 = 0 ∧ 64 + 8 * 8 ≤ pcmpr.cap.toNat
    ∧ ((stCm (ccmpr 1 (zeros 8) 8)).engRange .ce0 4 65536 64 true true []).2.1 ≠ 0
    ∧ (ccmpr 2 hdrZ 7).sub < (ccmpr 2 hdrZ 7).buf.length ∧ (ccmpr 2 hdrZ 8).buf.length ≤ (ccmpr 2 hdrZ 8).sub
    ∧ ceilDiv (pcmpr.length.toNat / 64) 32 = 2 := by
  simp only [Runs]
  decide +kernel

theorem test_meets_expand :
    Runs (stCm (cexpn 0 [] 0)) .ce0 (.expn false h0 pexpn) (cexpn 0 [] 0)
    ∧ (let s := stCm (cexpn 0 [] 0)
       let rr := s.engRange .ce0 0 64 8 true false []
       rr.2.1 = 0 ∧ (rr.1.engRange .ce0 4 64 64 false true []).2.1 = 0)
    ∧ ((stCm (c0 pexpn true)).cmprStatic .ce0 pexpn true).2 = 0 ∧ ((st.setCmd .ce0 (some (c0 pexpn true))).cmprStatic .ce0 pexpn true).2 = 3
    ∧ lowCode ((stCm (cexpn 0 [] 0)).engRange .ce0 0 4096 8 true false []).2.1 0 ≠ 0
    ∧ (cexpn 1 [] 7).sub < 8 ∧ 8 ≤ (cexpn 1 hdrZ 8).sub ∧ hdrZ.any (·.psn) = false
    ∧ headerCodes (hdrZ.map fun x => (x.v.toNat, x.psn)) = some ([.zero], 0) ∧ headerCodes ((zeros 8).map fun x => (x.v.toNat, x.psn)) = none
    ∧ ([⟨0, true⟩] ++ zeros 7 : List TW).any (·.psn) = true
    ∧ (let s := stCm (cexpn 1 hdrZ 8)
       let rl := s.engRange .ce0 4 128 0 false true []
       rl.2.1 = 0 ∧ (rl.1.engRange .ce0 0 (1024 + 2048) 64 true false rl.2.2).2.1 = 0)
    ∧ 2048 + 64 * 1 ≤ pexpn.length.toNat ∧ ({ pexpn with length := 2048 } : PCmpr).length.toNat < 2048 + 64 * 1
    ∧ (cexpn 2 hdrZ 0).sub = 8 * 0 ∧ (blocksOf 0 ((hdrZ.map fun x => (x.v.toNat, x.psn)).drop 8)).any streamLit = false
    ∧ (cexpn 3 (zeros 8) 7).sub < 8 ∧ (zeros 8).length ≤ (cexpn 3 (zeros 8) 8).sub := by
  simp only [Runs]
  decide +kernel

/-- R248, R249: the last unit of a CMPR ends with the size in RES, and a missing segment with 0; the last of an EXPN writes its block. -/
theorem test_compress_case_results :
    after (exec (.cmpr false h0 pcmpr) (stCm (ccmpr 2 hdrZ 8))) (fun t => memWord t.mem.mem (byteKey 0 (spadUnit ⟨2, 0⟩) 64) = 128
      && ((t.cell.eng .ce0).cur).map (fun c : Cmd => c.phase) = some (.release 0 2)) = true
    ∧ after (exec (.cmpr false h0 pcmpr) (poke (st.setCmd .ce0 (some (c0 pcmpr false))) (byteKey 0 (spadUnit ⟨2, 0⟩) 64) 5)) (fun t =>
        memWord t.mem.mem (byteKey 0 (spadUnit ⟨2, 0⟩) 64) = 0
        && ((t.cell.eng .ce0).cur).map (fun c : Cmd => c.phase) = some (.release 3 0)) = true
    ∧ after (exec (.expn false h0 pexpn) (stCm (cexpn 2 hdrZ 0))) (fun t =>
        ((t.cell.eng .ce0).cur).map (fun c : Cmd => (c.group, c.buf, c.inBytes)) = some (3, zeros 8, 128)) = true := by
  decide +kernel

/-! ## The other cases: ports and events of a cell -/

/-- An RCOPY at a command state. -/
def stRc (p : PRcopy) (g : Nat) : State := stP true { cmd (.rcopy h0 p) .run with group := g } (strm .decode)
def unreach (s : State) : State := { s with pkg := { s.pkg with unreachable := [7] } }

theorem test_meets_port_cases :
    (strm .queued).takesHoff = false ∧ (strm .prefill).takesHoff = true
    ∧ (let s := stP false (cmd hcan .run) (strm .decode)
       ((s.updPkg fun p => { p with streams := [{ strm .decode with n := 3 }] }).streamMine 3) = true)
    ∧ (stP false (cmd (.hpull h0 phpull) .run) (strm .decode)).streamMine 0 = true
    ∧ (stRc prcopy 0).rcopyStatic prcopy = 0 ∧ (stRc { prcopy with src := mkAddr 60 0 } 0).rcopyStatic { prcopy with src := mkAddr 60 0 } = 3
    ∧ (unreach (stRc prcopy 0)).reachable 7 = false ∧ (stRc prcopy 0).reachable 7 = true
    ∧ 1 - 1 < prcopy.ext.bytes.toNat / 8 ∧ prcopy.ext.bytes.toNat / 8 ≤ 3 - 1
    ∧ 0 < ({ prcopy with ext := ⟨1, 16⟩ } : PRcopy).ext.rows1.toNat := by
  decide +kernel

/-- The queued word of a ring held back, one that is marked, and a header next in the front queue. -/
def stRingP : State := stRing.updMem fun m => { m with psn := [byteKey 0 (spadUnit ⟨2, 0⟩) 4096] }
def stRingM : State := stRing.updFocus fun c => { c with mx := { c.mx with front := [⟨0x26188801, false⟩] } }
def stRingH : State := match exec (.enqs ⟨g0, .mx, 7⟩) (stLateLd (mkAddr 1 0x2000)) with | .next t => t | _ => st
def wbackState (inv : Bool) : State := st.updMem fun m => { m with wbacks := [{ wb1 with inv := inv }] }
/-- The same while a store before it in its class has not performed. -/
def wbackHeld : State := (wrote 0).updMem fun m => { m with wbacks := [{ wb1 with seq := 1 }] }

theorem test_meets_cell_event_cases :
    stRing.cell.wordHeld (stRing.cell.eng .mx).marks (stRing.cell.eng .mx).rp.toNat = false
    ∧ stRingH.cell.wordHeld (stRingH.cell.eng .mx).marks (stRingH.cell.eng .mx).rp.toNat = true
    ∧ stRingH.cell.ringSeg .mx = some (4096, 4096) ∧ (stRingH.cell.eng .mx).wp ≠ (stRingH.cell.eng .mx).rp
    ∧ (stRingP.readW (stRingP.cell.who (engAgent .mx)) (spadPlace stRingP.cell.id 4096) 0).2.psn = true
    ∧ headerNext 16 (stRingP.cell.eng .mx).front = true ∧ headerNext 16 (stRingM.cell.eng .mx).front = false
    ∧ (wbackState false).mem.wbacks[0]? = some { wb1 with inv := false } ∧ (wbackState true).mem.wbacks[0]? = some wb1
    ∧ (wbackState true).wbackOpen wb1 = false ∧ wbackHeld.wbackOpen { wb1 with seq := 1 } = true
    ∧ st.core.rep = none ∧ (let s := poke st (byteKey 1 2 0) 0x04110C00FC311000
        asInstr (s.fetchWord 0 s.cell.asbase s.cell.assize s.core.pc).2 = some (.rep ⟨3, 1, 1, 0⟩))
    ∧ stAsRep.core.rep ≠ none
    ∧ (let s := stLateLd (mkAddr 1 0x2000)
       (s.updFocus fun c => { c with mops := [] }).cell.mops.find? (·.seq = (s.cell.snaps.head!).seq) = none)
    ∧ (∀ e ∈ [Eng.mx, .ce0, .ce1, .xe], (stRing.cell.eng e).marks.all (fun m => m.seq ≤ 5) = true)
    ∧ (∀ l ∈ ((stLateLd 0).part (stLateLd 0).recPart).fifos, l = []) := by
  decide +kernel

/-- R121, R197, R283: a write-back of clean lines ends; a marked header word of a ring resets the partition. -/
theorem test_cell_event_case_results :
    after (exec (.writebackComplete 0) (wbackState true)) (fun t => t.mem.wbacks.isEmpty) = true
    ∧ after (exec (.writebackComplete 0) wbackHeld) (fun t => t.mem.wbacks.length = 1) = true
    ∧ after (exec (.frontQueueMove .mx) stRingH) (fun t => (t.cell.eng .mx).front.isEmpty) = true := by
  decide +kernel

/-! ## The other cases: launches, pre-emption, streams -/

/-- A record whose body is marked; a fence at the head of a queue, free and behind an entry that a BARRIER waits for. -/
def stFp : State := stF.updMem fun m => { m with psn := [byteKey 3 0 ((stF.part 0).bodyAt 0)] }
def stQf (d0 : Nat) (ents : List CqEnt) : State := (hput stQ 0x8000 [(0, d0), (8, 0x9000), (16, 77)]).updCq 0 0 fun x => { x with ents := ents }
def stQb : State := (hput stQ 0x8000 [(0, 0x101)]).updCq 0 0 fun x => { x with ents := [{ fence1 with fence := false }] }
/-- The launch header is marked, and the context does not run. -/
def stQe : State := stQ.updMem fun m => { m with psn := [byteKey 3 0 0x10000] }
def stQn : State := stQ.updPart 0 fun p => { p with ctx := none }

theorem test_meets_launch_cases :
    ((stF.part 0).fifos.getD 3 [])[0]? = some rec1 ∧ (stF.findLaunch rec1.launch).isSome = true
    ∧ (let a := (stF.part 0).bodyAt rec1.slot
       (stF.hostMeet (unitFor 0 (some 0)) a 4).hostPsn a 4 = false ∧ (stFp.hostMeet (unitFor 0 (some 0)) a 4).hostPsn a 4 = true)
    ∧ (stF.cell.lastOp ≠ some (lch.id, 0) ∧ ∀ x ∈ lch.templ, x.2 = 0)
    ∧ cqIsFence ((stQf 2 []).cqHead ((stQf 2 []).cq 0 0)) = true ∧ ((stQf 2 []).cq 0 0).head ≠ ((stQf 2 []).cq 0 0).tail
    ∧ ((stQf 2 []).cq 0 0).barred ((stQf 2 []).cqHead ((stQf 2 []).cq 0 0)) = false
    ∧ (let s := stQf 0x102 [{ fence1 with fence := false }]
       cqIsFence (s.cqHead (s.cq 0 0)) = true ∧ (s.cq 0 0).barred (s.cqHead (s.cq 0 0)) = true)
    ∧ cqIsFence (stQ.cqHead (stQ.cq 0 0)) = false ∧ cqOk (stQ.cqHead (stQ.cq 0 0)) = true ∧ stQ.entryBarred 0 0 (stQ.cqHead (stQ.cq 0 0)) = false
    ∧ stQb.entryBarred 0 0 (stQb.cqHead (stQb.cq 0 0)) = true ∧ cqOk (stQb.cqHead (stQb.cq 0 0)) = true
    ∧ stQn.ctxRuns 0 = false ∧ stQ.ctxRuns 0 = true ∧ (stQe.checkLaunch 0 0x10000).2 = .error
    ∧ (stQ.checkLaunch 0 0x10000).2 = .ok [⟨0x40, true, 2000⟩] [] ∧ (stQbad.checkLaunch 0 0x10000).2 = .refused 1
    ∧ (stFe.cq 0 0).head = (stFe.cq 0 0).tail := by
  decide +kernel

/-- R304, R307, R360: a fence starts with its doorbell, and behind a launch; a marked header resets the partition. -/
theorem test_launch_case_results :
    after (exec (.cqtail 0 0 1) (stQf 2 [])) (fun t => (t.cq 0 0).head = 1 && (t.cq 0 0).ents.map (fun e : CqEnt => (e.fence, e.value)) = [(true, 77)])
      = true
    ∧ after (exec (.launchStart (.queue 0 0)) stQn) (fun t => (t.cq 0 0).head = 0) = true
    ∧ after (exec (.launchStart (.queue 0 0)) ((hput stQ 0x8040 [(0, 2), (8, 0x9000), (16, 77)]).updCq 0 0 fun x => { x with tail := 2 })) (fun t =>
        (t.cq 0 0).head = 2 && t.pkg.launches.length = 1) = true
    ∧ after (exec .dispatch stFp) (fun t => t.pkg.launches.isEmpty && t.cell.recd.isNone) = true := by
  decide +kernel

/-- A checkpoint of context 0 under way, its stream 0 writing a block out. -/
def stCk : State := (stTwo.updPkg fun p => { p with
  evicts := [⟨true, 0, 900000, 1000, 0xA000, [⟨0, .checkpoint, 0, 0, none⟩]⟩]
  streams := [{ strm .parked with swap := [SwapBlk.start true 1 2 0 0] }] }).updPart 0 fun p => { p with preempt := true }
/-- The cell is in a command that signals semaphore 2 when its partition is reset. -/
def stAb : State := stD.setCmd .mx (some (cmd mclr1 .run))

theorem test_meets_preempt_cases :
    stCk.ckPending 0 = true ∧ stCk.allStopped 0 = true ∧ (stCk.part 0).preempt = true ∧ (stCk.part 0).en = true
    ∧ (stTwo.updPart 0 fun p => { p with preempt := true }).ckPending 0 = false ∧ ((stD.updPart 0 fun p => { p with ctx := none }).part 0).ctx = none
    ∧ (stAb.part 0).cells.contains stAb.cell.id = true ∧ (stAb.part 1).cells.contains stAb.cell.id = false
    ∧ (stEv.noteVacant ev1.ctxs).2.all (·.vacant.isSome) = true ∧ stEv.timeNs < 3000001 := by
  decide +kernel

/-- R23, R320, R332: an abandoned command's semaphore takes error 0x08; swap commands a checkpoint abandons go again. -/
theorem test_preempt_case_results :
    after (exec (.partitionReset 0 .host) stAb) (fun t => t.sem 2 = some (.err 8) && t.sem 1 = some (.count 0)) = true
    ∧ ((stCk.abandonSwaps 0).findStream 0).map (fun x : Stream => x.again) = some true := by
  decide +kernel

/-- A block in the middle of being sent, being settled, and a step that was not this attempt's. -/
def strG (i : Nat) : Stream := { strO .handoff with going := some (0, i) }
def strK (k : Nat) : Stream := { strO .handoff with sent := [0], settled := k }
def strR (r : HReg) : Stream := { strO .handoff with regs := [r], sent := [0] }
def stNv (c : NvCmd) : State := stD.updPkg fun p => { p with nvme := [c], streams := [strm .parked] }

theorem test_meets_stream_cases :
    ((stS { strm .decode with steps := [true] }).findStream 0).map (·.steps) = some [true] ∧ ({ strm .decode with steps := [false] } : Stream).steps = false :: []
    ∧ (strO .handoff).going = none ∧ (strO .handoff).nextSend (stD.hoffOpen 0) = some (hreg 0) ∧ (hreg 0).modno = 0
    ∧ (stS (strO .handoff)).pkg.repair.linkDown (strO .handoff).pdie (strO .handoff).ddie = false
    ∧ (stS (strO .handoff)).pkg.repair.linkDown (hreg 0).srcDie (hreg 0).dstDie = false
    ∧ (strG 8190).going = some (0, 8190) ∧ (strG 8191).regOf 0 = some (hreg 0) ∧ (strK 8191).settled < 8192 ∧ 8192 ≤ (strK 8192).settled
    ∧ (strK 0).sent = 0 :: [] ∧ (strR { hreg 0 with modno := 5 }).regOf 0 = some { hreg 0 with modno := 5 }
    ∧ ({ strm .cancelled with ending := true } : Stream).ending = true
    ∧ (strm .lost).state.over = true ∧ (strm .lost).recorded = false ∧ (strm .lost).ending = false ∧ (stS (strm .lost)).streamIdle (strm .lost) = true
    ∧ ({ strm .lost with d := [(1 : Word) <<< 51] } : Stream).recomp = true ∧ (strm .lost).attempts < 3 ∧ (strm .lost).recomp = false
    ∧ (hreg 0).modno = 0 ∧ 1 % 8 ≠ 7
    ∧ (let s := (stS (strO .handoff)).updMem fun m => { m with binds := [⟨2, 2, 0, 1⟩, ⟨2, 0, 0, 1⟩] }
       let v := s.readW (coelostat (hreg 0).srcDie (strO .handoff)) ((framePlace 0 0 (hreg 0).srcKey).plus 8) (locAddr 2 8)
       v.1.mem.keyFits ((framePlace (hreg 0).dstDie (hreg 0).dstFrame (hreg 0).dstKey).plus 8) =
         (s.mem.keyFits ((framePlace (hreg 0).dstDie (hreg 0).dstFrame (hreg 0).dstKey).plus 8)))
    ∧ (stNv nv1).pkg.nvme[0]? = some nv1 ∧ nv1.sub = true ∧ nv1.tries = 0 ∧ (stNv { nv1 with sub := false }).pkg.nvme[0]? = some { nv1 with sub := false }
    ∧ (stD.updPkg fun p => { p with time := { p.time with t3 := 300000000 } }).pkg.time.t3 = nv1.since + 300000000 ∧ stD.pkg.time.t3 < 300000000 := by
  decide +kernel

/-- R336, R340: sending begins with the first word of a block and ends with its last; a commit settles word after word. -/
theorem test_stream_case_results :
    after (exec (.blockSend 0) (stS (strO .handoff))) (fun t => (t.findStream 0).map (fun x : Stream => x.going) = some (some (0, 0))) = true
    ∧ after (exec (.blockSend 0) (stS (strG 8191))) (fun t => (t.findStream 0).map (fun x : Stream => (x.going, x.sent)) = some (none, [0])) = true
    ∧ after (exec (.blockCommit 0) ((stS (strK 8191)).updMem fun m => { m with binds := [⟨2, 2, 0, 0⟩, ⟨2, 0, 0, 0⟩] })) (fun t => (t.findStream 0).map (fun x : Stream => x.settled) = some 8192) = true
    ∧ after (exec (.blockCommit 0) (stS (strK 8192))) (fun t =>
        (t.findStream 0).map (fun x : Stream => (x.sent, x.unreleased, x.own[0]?)) = some ([], [0], some 2)) = true := by
  decide +kernel

/-! ## The other cases: the module and the host -/

/-- A tile's detection, with its cell at an operator boundary and inside an operator; a context whose agents stood still for a window. -/
def detT : Detection := ⟨.tileElement, 2, 0, 0⟩
def stDt (s : State) : State := s.updPkg fun p => { p with repair := { p.repair with waiting := [detT] } }
def stBus (s : State) : State := { s with pkg := { s.pkg with time := ⟨3000, true, false, 0, 0, 0, 1⟩ } }
/-- A session stands. -/
def stSs : State := st.updMgmt fun m => { m with session := true }
/-- A window onto a frame bound under another key. -/
def stWk : State := (st.updPkg fun p => { p with windows := [win1 5] }).updMem fun m => { m with binds := [⟨1, 2, 0, 3⟩] }

theorem test_meets_module_cases :
    (stDt st).mayTest detT = true ∧ (stDt stRec).mayTest detT = false ∧ (stDt st).pkg.repair.waiting[0]? = some detT
    ∧ (st.lasting detT false = false ∧ st.lasting detT true = true)
    ∧ (stBus st).pkg.time.set = true ∧ (stBus st).pkg.time.statics < (stBus st).pkg.time.t3 / 1500
    ∧ (stBus st).pkg.time.t3 / 1500 ≤ 2 ∧ st.pkg.time.set = false ∧ (stD.part 0).ctx = some 0
    ∧ (st.pkg.heat[63]?).isSome = true ∧ ((stD.updPower fun p => { p with lastApply := some 0 }).pkg.power.lastApply = some 0) := by
  decide +kernel

theorem test_meets_host_cases :
    stSs.pkg.mgmt.session = true ∧ st.pkg.mgmt.session = false ∧ stSs.keyFilled 511 = false ∧ stSs.keyFilled 0 = true
    ∧ stWk.pkg.windows[0]? = some (win1 5) ∧ (win1 5).src = 5 ∧ (win1 5).src ≠ 0
    ∧ (stWk.windowPlace 0 (win1 5) 0).2 = none
    ∧ ((st.updPkg fun p => { p with windows := [win1 5] }).windowPlace 0 (win1 5) 0).2 = some ⟨1, 2, 0, 0, 0, false⟩
    ∧ (stD.part 2).en = false ∧ (0x0000000000000001 : Word).getLsbD 63 = false ∧ (stD.ctx 0).en = true
    ∧ st.pkg.boot.phase = .running
    ∧ (∀ c ∈ clusterCells 2 0, ∀ x ∈ st.findCell c, x.recd = none)
    ∧ ((st.updCluster (clusterCells 2 0) fun c => { c with gated := true }).cell.gated = true)
    ∧ (let p : PRcopy := prcopy
       let c := cmd (.rcopy h0 p) .run
       let s := stP true c (strm .decode)
       (s.cell.hub.cmds)[0]? = some c ∧ c.phase = .run ∧ p.modno = 7) := by
  decide +kernel

/-- R382, R384, R375: a fill needs a session, and then reports; a window's source is checked; static energy is charged once a boundary. -/
theorem test_host_case_results :
    after (exec (.keySlotFill 511 1 2) st) (fun t => !t.keyFilled 511) = true
    ∧ after (exec (.keySlotFill 0 1 2) stSs) (fun t => t.pkg.mgmt.keyDone = some false) = true
    ∧ after (exec (.remoteWrite 0 6 0 (77, true)) (st.updPkg fun p => { p with windows := [win1 5] })) (fun t =>
        memWord t.mem.mem (byteKey 1 2 0) = 0) = true
    ∧ after (exec (.remoteWrite 0 5 0 (77, true)) (st.updPkg fun p => { p with windows := [win1 5] })) (fun t =>
        memWord t.mem.mem (byteKey 1 2 0) = 77 && t.mem.psn = [byteKey 1 2 0]) = true
    ∧ after (exec .staticEnergyCharge (stBus st)) (fun t => t.pkg.time.statics = 2) = true
    ∧ after (exec (.chardTest 0 true) (stDt stRec)) (fun t => t.pkg.repair.waiting.length = 1) = true := by
  decide +kernel

/-! ## The cases of checks that fail -/

theorem test_meets_failed_checks :
    (st.asAccess needSpadW (st.rg 5).v 0).2 = .error cAccess ∧ (st.asAccess needLinW (st.rg 4).v 0).2 = .error cAccess
    ∧ (st.asAccess needLinRW (st.rg 4).v 0).2 = .error cAccess ∧ (st.asAccess needLinR (st.rg 8).v 0).2 = .error cSegment
    ∧ ((st.reachWait ⟨g0, 9, 8, 7, 2, 0⟩).asAccess needWait (st.rg 8).v 0).2 = .error cSegment
    ∧ (st.rg 8).psn = false ∧ (st.rg 4).psn = false ∧ st.qFull (.q 0) = false ∧ st.qFull .lq = false ∧ st.lateNow = false
    ∧ (stTag.rg 10).psn = true ∧ (stTag.rg 5).psn = false ∧ (stTag.rg 7).psn = false := by
  decide +kernel

/-- The MS's program in a handler of its own; saved repetition frames that do not agree with the prefixes at the
saved program counters. -/
def stTrapMs : State := stTrapped.updAs fun a => { a with lvl := .machine }
def stNoRep : State := (poke stTrapped (byteKey 1 2 0) 0x04110C00FC311000).updAs fun a => { a with sys := { a.sys with traprep := 1 } }
def stNoEsRep : State := (poke stDelivered (byteKey 1 2 0x80) 0x98880000FFFA5100).updAs fun a => { a with sys := { a.sys with etraprep := 1 } }

theorem test_meets_return_more :
    stTrapMs.cell.as.lvl = .machine
    ∧ (stTrapMs.saveArea.map fun x => !x.1.cell.as.sys.esHalted && !x.1.cell.as.delivered && x.1.saveError x.2 asSlots = none
        && (rettReads x.1 x.2).badSlot x.2 asSlotOk asSlots false = none && (rettReads x.1 x.2).resumeAs = some none) = some true
    ∧ (stNoRep.saveArea.map fun x => x.1.saveError x.2 (rettSlots x.1) = none
        && (rettReads x.1 x.2).badSlot x.2 asSlotOk asSlots false = none && !x.1.cell.as.sys.esHalted
        && (rettReads x.1 x.2).resumeAs = none) = some true
    ∧ (stNoEsRep.saveArea.map fun x => x.1.saveError x.2 (rettSlots x.1) = none
        && (rettReads x.1 x.2).badSlot x.2 asSlotOk asSlots false = none && (rettReads x.1 x.2).badSlot x.2 esSlotOk esSlots false = none
        && x.1.cell.as.delivered && (rettReads x.1 x.2).resumeEs = none) = some true
    ∧ ctxOf st.cell.as.sys.ctxid < st.pkg.ctxs.length ∧ (5 : Word).extractLsb' 0 2 ≠ 2 ∧ (6 : Word).extractLsb' 0 2 = 2 := by
  decide +kernel

theorem test_return_more_results :
    after (exec (.rett ⟨g0⟩) stTrapMs) (fun t => t.cell.as.lvl = .machine && t.core.pc = mkAddr 1 0) = true
    ∧ after (exec (.halt ⟨⟨0, true⟩⟩) stTrapped) (fun t => t.cell.as.run = .running && t.core.pc = stTrapped.core.pc + 4) = true := by
  decide +kernel

/-- Entries of q2 for SETSH: a tagged one, one that names no type, none. -/
def stQ2 (x : List QEnt) : State := (stE shS32 0 0).updQs fun k => { k with q := k.q.set 2 x }

theorem test_meets_setsh_cases :
    popHead 0 ((stQ2 [⟨0x402, true, true, 0, 0⟩]).cell.qs.dq 2) = some (⟨0x402, true, true, 0, 0⟩, [])
    ∧ popHead 0 ((stQ2 [⟨0x40F, false, true, 0, 0⟩]).cell.qs.dq 2) = some (⟨0x40F, false, true, 0, 0⟩, []) ∧ shOk 0x40F = false
    ∧ popHead 0 ((stQ2 []).cell.qs.dq 2) = none := by
  decide +kernel

/-! ## The cases of commands -/

/-- An MMA with a shape and one of its descriptors not set; a row of an MWB in the middle of being written; a column without tokens. -/
def stNoA : State := (stMs0 pma).updMx fun x => { x with a := none }
def stNoB : State := (stMs0 pma).updMx fun x => { x with b := none }

theorem test_meets_matrix_more :
    Runs stNoA .mx (.mma h0 pma) cstart ∧ stNoA.cell.mxs.a = none ∧ Runs stNoB .mx (.mma h0 pma) cstart ∧ stNoB.cell.mxs.b = none
    ∧ Runs stWbk .mx (.mwb h0 pmwb) cwbk ∧ cwbk.unit ≠ 0 ∧ cwbk.buf ≠ [] ∧ stWbk.cell.mxs.shape = some shape1
    ∧ (stMs0 pma).aCode shape1 { desc1 with base := mkAddr 60 0 } = 3
    ∧ stHot.placePaused (stHot.engWord 4 0 0 []) = true ∧ stHot.cmdAtHand (cfill 1) = false ∧ wbBytes pmwb.fmt shape1.n ≠ 0 := by
  simp only [Runs]
  decide +kernel

/-- A CMPR that has met its capacity in unit 0, at unit 1: nothing read, read to the end, and with no source for the unit. -/
def cfull (g : Nat) (buf : List TW) (n : Nat) : Cmd := { ccmpr g buf n with row := 1 }
def pcmprX : PCmpr := { pcmpr with src := mkAddr 1 0xF800 }

theorem test_meets_compress_full :
    Runs (stCm (cfull 0 [] 0)) .ce0 (.cmpr false h0 pcmpr) (cfull 0 [] 0) ∧ (cfull 0 [] 0).row ≠ 0 ∧ (cfull 0 [] 0).unit ≠ 0
    ∧ ((stCm (cfull 0 [] 0)).engRange .ce0 1 (0x3000 + 2048) 64 false false []).2.1 = 0
    ∧ ((stCm (cfull 0 [] 0)).engRange .ce0 (segNo pcmprX.src) (segOff pcmprX.src + 2048) 64 false false []).2.1 ≠ 0
    ∧ (cfull 1 [] 7).sub < 8 * cmprBlocks pcmpr 1 ∧ 8 * cmprBlocks pcmpr 1 ≤ (cfull 1 (zeros 8) 8).sub
    ∧ ({ pcmpr with cap := 64 } : PCmpr).cap.toNat < 64 + 8 * 8 := by
  simp only [Runs]
  decide +kernel

/-- R246, R248: the unit that does not fit ends CMPR with 0x16 and the whole size in RES. -/
theorem test_compress_full_results :
    after (exec (.cmpr false h0 pcmpr) (stCm (cfull 1 (zeros 8) 8))) (fun t => memWord t.mem.mem (byteKey 0 (spadUnit ⟨2, 0⟩) 64) = 128
      && ((t.cell.eng .ce0).cur).map (fun c : Cmd => c.phase) = some (.release 0x16 0)) = true
    ∧ after (exec (.cmpr false h0 { pcmpr with cap := 64 }) (stCm { ccmpr 1 (zeros 8) 8 with i := .cmpr false h0 { pcmpr with cap := 64 } })) (fun t =>
        ((t.cell.eng .ce0).cur).map (fun c : Cmd => c.phase) = some (.release 0x16 1)) = true := by
  decide +kernel

/-- A port at a hand-off or a swap of stream `x`; the same with tensor segments of other permissions. -/
def stHoff (p : PHoff) (x : Stream) : State := stP false (cmd (.hoff h0 p) .run) x
def stNoPerm (s : State) : State :=
  s.updFocus fun c => { c with segs := segs ++ [seg 1 2 0 2 4095 0, seg 1 2 2 4 4095 0] }
def stSwap (out : Bool) (p : PSwap) (x : Stream) : State := stP true (cmd (if out then .swout h0 p else .swin h0 p) .run) x
/-- What the pages of a hand-off answer first. -/
def srcPages (s : State) (p : PHoff) : State × Option (List Xl) := s.portPages (segNo p.src) (segOff p.src) false (p.count1.toNat + 1)
def dstPages (s : State) (p : PHoff) : State × Option (List Xl) := s.portPages (segNo p.dst) (segOff p.dst) true (p.count1.toNat + 1)

theorem test_meets_hoff_checks :
    PortRuns (stHoff (phoff 3) (strm .prefill)) false (.hoff h0 (phoff 3)) 0 (cmd (.hoff h0 (phoff 3)) .run)
    ∧ (strm .prefill).blocks ≤ (phoff 3).blk0.toNat + (phoff 3).count1.toNat
    ∧ ({ strO .prefill with regs := [hreg 0] } : Stream).registered (phoff 0).blk0.toNat ((phoff 0).count1.toNat + 1) = true
    ∧ (srcPages (stHoff (phoff 2) (strm .prefill)) { phoff 2 with src := mkAddr 60 0 }).2 = none
    ∧ (dstPages (stHoff (phoff 2) (strm .prefill)) { phoff 2 with dst := mkAddr 60 0 }).2 = none
    ∧ ((stHoff (phoff 2) (strm .prefill)).hoffPages { phoff 2 with src := mkAddr 60 0 } (strm .prefill)).2.1 = 3
    ∧ ((stHoff (phoff 2) (strm .prefill)).hoffPages { phoff 2 with src := mkAddr 5 0 } (strm .prefill)).2.1 = 0x1C
    ∧ ((stNoPerm (stHoff (phoff 2) (strm .prefill))).hoffPages (phoff 2) (strm .prefill)).2.1 = 7
    ∧ ((stHoff (phoff 2) (strm .prefill)).hoffPages { phoff 2 with modno := 5 } (strm .prefill)).2.1 = 0
    ∧ ((stHoff (phoff 2) (strm .prefill)).hoffPages { phoff 2 with modno := 5, src := mkAddr 5 0 } (strm .prefill)).2.1 = 0x1C
    ∧ ((stNoPerm (stHoff (phoff 2) (strm .prefill))).hoffPages { phoff 2 with modno := 5 } (strm .prefill)).2.1 = 7 := by
  simp only [PortRuns]
  decide +kernel

theorem test_meets_swap_checks :
    PortRuns (stSwap true { pswap with lba := 9 } (strm .parked)) true (.swout h0 { pswap with lba := 9 }) 0
      (cmd (.swout h0 { pswap with lba := 9 }) .run)
    ∧ PortRuns (stSwap false { pswap with lba := 9 } (strm .resuming)) true (.swin h0 { pswap with lba := 9 }) 0
      (cmd (.swin h0 { pswap with lba := 9 }) .run)
    ∧ ((stSwap true { pswap with lba := 9 } (strm .parked)).swapCheck { pswap with lba := 9 } true).2.1 = 0x1E
    ∧ ((stSwap false { pswap with lba := 9 } (strm .resuming)).swapCheck { pswap with lba := 9 } false).2.1 = 0x1E
    ∧ st.direntNo 7 = none ∧ st.direntNo 64 = some 1
    ∧ (stS { strm .parked with d := [(1 : Word) <<< 36] }).streamMine 0 = false
    ∧ (stS (strm .parked)).streamMine 1 = true ∧ (stS (strm .parked)).findStream 1 = none
    ∧ (strm .decode).state ≠ .parked ∧ (strm .parked).blocks ≤ ({ pswap with blk0 := 3 } : PSwap).blk0.toNat + pswap.count1.toNat
    ∧ ((stS (strm .parked)).swapPages { pswap with addr := mkAddr 60 0 } true (strm .parked)).2.1 = 3
    ∧ ((stS (strm .parked)).swapPages pswap true { strm .parked with own := [7, 7, 7, 7] }).2.1 = 0x1C
    ∧ ((stNoPerm (stS (strm .parked))).swapPages pswap true (strm .parked)).2.1 = 7 := by
  simp only [PortRuns]
  decide +kernel

/-- An HPULL before its stream is ready and beyond its blocks, and commands for a stream of context 1 and for none. -/
def stHp (x : Stream) : State := stP false (cmd (.hpull h0 phpull) .run) x

theorem test_meets_hpull_checks :
    PortRuns (stHp (strm .prefill)) false (.hpull h0 phpull) 0 (cmd (.hpull h0 phpull) .run) ∧ (stHp (strm .prefill)).streamMine 0 = true
    ∧ (stHp (strm .prefill)).findStream 0 = some (strm .prefill)
    ∧ (strm .decode).blocks ≤ ({ phpull with blk0 := 3 } : PHpull).blk0.toNat + phpull.count1.toNat
    ∧ (stHp { strm .decode with d := [(1 : Word) <<< 36] }).streamMine 0 = false
    ∧ (stP false (cmd hcan .run) { strm .decode with n := 3, d := [(1 : Word) <<< 36] }).streamMine 3 = false
    ∧ (stHp { strm .decode with n := 5 }).streamMine 0 = true ∧ (stHp { strm .decode with n := 5 }).findStream 0 = none := by
  simp only [PortRuns]
  decide +kernel

/-! ## The cases of events -/

/-- Every queue holds at most what it has room for, before and after a step. -/
theorem test_meets_queue_bounds :
    QueuesFit stAs.cell ∧ (∀ c ∈ stAs.parked, QueuesFit c) ∧ QueuesFit stPop.cell ∧ QueuesFit stFull.cell ∧ after (step stAs) (fun t => t.core.pc ≠ stAs.core.pc) = true := by
  simp only [QueuesFit]
  decide +kernel

/-- A stream of the running context whose prefill, or step, is due; the launch header of stQ is its own. -/
def strQ (x : StreamState) : Stream :=
  { strm x with d := [(2 : Word) <<< 26, (3 : Word) <<< 44 ||| (1 : Word) <<< 32, 0, 0x10000, 0x10000, 0x4000, 0, 0]
                postPrefill := true, postStep := true }
def stSl (s : State) (x : Stream) : State := s.updPkg fun p => { p with streams := [x] }

theorem test_meets_stream_launch :
    (strQ .decode).held = true ∧ (strQ .decode).running = false ∧ (strQ .decode).postStep = true ∧ (strQ .queued).postPrefill = true
    ∧ (∀ y ∈ (stSl stQ (strQ .queued)).pkg.streams, y.held = true → y.ctx = (strQ .queued).ctx → y.state = .queued → (strQ .queued).order ≤ y.order)
    ∧ (stSl stQ (strQ .queued)).findStream 0 = some (strQ .queued) ∧ (stSl stQ (strQ .queued)).streamDue (strQ .queued) = some 0x10000
    ∧ (stSl stQ (strQ .decode)).streamDue (strQ .decode) = some 0x10000
    ∧ (stSl stQ (strQ .queued)).ctxRuns 0 = true ∧ (stSl stQn (strQ .queued)).ctxRuns 0 = false
    ∧ ((stSl stQ (strQ .queued)).checkLaunch 0 0x10000).2 = .ok [⟨0x40, true, 2000⟩] []
    ∧ ((stSl stQbad (strQ .queued)).checkLaunch 0 0x10000).2 = .refused 1
    ∧ ((stSl stQe (strQ .queued)).checkLaunch 0 0x10000).2 = .error := by
  decide +kernel

/-- R331, R333: the PRS posts a stream's prefill: the stream is admitted, and a refused one cancelled with cause 0x02. -/
theorem test_stream_launch_results :
    after (exec (.launchStart (.stream 0)) (stSl stQ (strQ .queued))) (fun t => t.pkg.launches.length = 1
      && (t.findStream 0).map (fun x : Stream => (x.state, x.postPrefill)) = some (.prefill, false)) = true
    ∧ after (exec (.launchStart (.stream 0)) (stSl stQ (strQ .decode))) (fun t => t.pkg.launches.length = 1
      && (t.findStream 0).map (fun x : Stream => (x.running, x.postStep)) = some (true, false)) = true
    ∧ after (exec (.launchStart (.stream 0)) (stSl stQbad (strQ .queued))) (fun t => t.pkg.launches.isEmpty
      && (t.findStream 0).map (fun x : Stream => (x.state, x.cause)) = some (.cancelled, 2)) = true := by
  decide +kernel

/-- A launch of context 0 that began an operator just now; context 1 does not run and has `d` bytes to save. -/
def stDirty (d : Nat) : State :=
  (stD.updPkg fun p => { p with launches := [{ lch with began := some 9000000 }] }).updCtx 1 fun x => { x with dirty := d }
/-- A request on context 0 that is not over when its fallback time comes. -/
def ev2 : Evict := ⟨true, 0, 3900000, 1000, 0xA000, [⟨0, .run, 0, 0, none⟩]⟩
def stLateEv : State := stL.updPkg fun p => { p with evicts := [ev2] }

theorem test_meets_evictions :
    ((stDirty 0).launchesOf 0).isEmpty = false ∧ (stDirty 0).isRunning 0 = true ∧ (stDirty 0).evR 0 + 50000 < 200000
    ∧ (stDirty 100).evW 0 + 50000 ≤ 200000 ∧ 60000 < (stDirty 100).evW 0 + 50000 ∧ (stDirty 0).isRunning 1 = false
    ∧ ((stDirty 4000).ctx 1).dirty ≠ 0 ∧ (stDirty 4000).isRunning 1 = false ∧ (stDirty 4000).evR 1 + 50000 < 51000
    ∧ ceilDiv (4 * ((stDirty 4000).ctx 1).dirty) (51000 - (stDirty 4000).evR 1 - 50000) ≤ [99].getD ((stDirty 4000).ctx 1).ckdest.toNat 0
    ∧ [0].getD ((stDirty 4000).ctx 1).ckdest.toNat 0 < ceilDiv (4 * ((stDirty 4000).ctx 1).dirty) (51000 - (stDirty 4000).evR 1 - 50000)
    ∧ 40000 ≤ (stDirty 4000).evR 1 + 50000 ∧ stD.runsIn 0 = some 0
    ∧ stLateEv.pkg.evicts[0]? = some ev2 ∧ ev2.fallAt ≤ stLateEv.timeNs ∧ stLateEv.vacantNow ⟨0, .run, 0, 0, none⟩ = false
    ∧ stD.pkg.boot.phase = .running ∧ stD.evStatus 0x10000 4000000 0 = 0 ∧ (stLeft.settleStatics.readSave 0 1).2 = false
    ∧ 0 < stD.pkg.parts.length ∧ (stLeft.part 0).ctx = none ∧ stLeft.nextCtx 0 (stLeft.part 0).left = some 1
    ∧ (stLeft.updCtx 1 fun x => { x with en := false }).nextCtx 0 (some 0) = some 0 := by
  decide +kernel

/-- A word of a step that the PRS has read no control word of, and the states of the table of R333 the statement names. -/
def strT (x : StreamState) (w a p r : Bool) : Stream := { strm x with wmr := w, ackr := a, pkp := p, running := r }

theorem test_meets_stream_table :
    (strT .queued false false false false).state = .queued ∧ (strT .prefill true false false false).wmr = true
    ∧ (strT .resuming false false false false).state = .resuming ∧ (strT .decode false true true true).pkp = true
    ∧ (strT .decode false true false false).stepRead = false ∧ (strT .decode false false true false).running = false
    ∧ (strT .parked false false false false).swoutOpen = false
    ∧ ({ strm .parked with swap := [SwapBlk.start true 1 2 0 0] } : Stream).swoutOpen = true
    ∧ (strT .parked false false false false).rsp = false ∧ ({ strm .parked with rsp := true } : Stream).rsp = true
    ∧ ({ strm .resuming with own := [0, 0, 0, 0] } : Stream).wmReached = false ∧ (strm .done).state.over = true := by
  decide +kernel

theorem test_stream_table_results :
    ((strT .prefill true false false false).on .pdone).state = .decode ∧ ((strT .prefill false false false false).on .pdone).state = .handoff
    ∧ ((strT .handoff false false false false).on .ack).state = .decode ∧ ((strT .decode false true true true).on .step).state = .parked
    ∧ ((strT .decode false false true false).on .ack).state = .parked ∧ ((strT .decode false true false false).on .park).state = .parked
    ∧ ((strT .decode false false false true).on .end_).state = .done ∧ ((strT .handoff false false false false).on .reset).state = .lost
    ∧ ((strT .prefill false false false false).on .reset).state = .queued := by
  decide

/-- A stream that swaps one block in or out, at stage `g`, `n` words of it moved. -/
def strW (out : Bool) (g : SwapStage) (n : Nat) : Stream :=
  { strm (if out then .parked else .resuming) with swap := [{ SwapBlk.start out 1 2 0 0 with stage := g, at_ := n }] }
def stW1 (x : Stream) : State := stD.updPkg fun p => { p with streams := [x], nvqs := [⟨0, 32, 0, 0⟩] }

theorem test_meets_swap_events :
    (stW1 (strW false .registered 0)).nextRead.isSome = true ∧ (stW1 (strW false .registered 0)).findStream 0 = some (strW false .registered 0)
    ∧ (strW false .registered 0).swap.find? (·.blk = 1) = some (SwapBlk.start false 1 2 0 0)
    ∧ (∀ n ∈ [0, 5, 8192], ∀ o ∈ [true, false], let g := if o then SwapStage.gather else .placing
        (stW1 (strW o g n)).swoutGo.nextRead.isNone = true
          ∧ ((stW1 (strW o g n)).swoutGo.firstSwap (fun b => b.stage = .gather || b.stage = .placing)).map (·.2.at_) = some n) := by
  decide +kernel

/-- R351, R352: the read of a block goes into the drive's queue; a word of a block to be written out is read. -/
theorem test_swap_event_results :
    after (exec .swapBlockRead (stW1 (strW false .registered 0))) (fun t => t.pkg.nvme.map (fun c : NvCmd => (c.blk, c.nlb)) = [(1, 16)]
      && (t.findStream 0).map (fun x : Stream => x.swap.map (·.stage)) = some [.data]) = true
    ∧ after (exec .swapBlockRead (stW1 (strW true .gather 5))) (fun t =>
        (t.findStream 0).map (fun x : Stream => x.swap.map (fun b : SwapBlk => (b.at_, b.buf.length))) = some [(6, 1)]) = true := by
  decide +kernel

/-- A power order of one slow entry, applied or not; a partition in service that runs none. -/
def stShed (l : List Nat) : State := stD.updPower fun p => { p with
  order := updAt p.order 0 fun _ => ⟨0, 0, 0⟩, applied := l, below := some 0 }
def stSlack : State := (stShed [0]).updPkg fun p => { p with time := { p.time with t3 := 30000000 } }

theorem test_meets_power :
    (stShed []).pkg.power.nextEntry (List.range 32) = some 0 ∧ (stShed (List.range 32)).pkg.power.nextEntry (List.range 32) = none
    ∧ ((stShed []).pkg.power.order.getD 0 Shed.init).step ≠ 2 ∧ stD.pkg.power.below = none
    ∧ stSlack.pkg.power.below = some 0 ∧ 0 + 30000000 ≤ stSlack.pkg.time.t3 ∧ stSlack.pkg.power.allPaused = false
    ∧ stSlack.pkg.power.lastMild = some 0 ∧ (stLeft.part 0).en = true ∧ (stLeft.part 0).owed = some 0 := by
  decide +kernel

/-- R373, R405: an entry is applied above the cap and withdrawn after 10 ms below it; a boundary while none runs is owed. -/
theorem test_power_results :
    after (exec (.powerCapEvaluation 5) (stShed [])) (fun t => t.pkg.power.applied = [0]) = true
    ∧ after (exec (.powerCapEvaluation 0) (stSlack.updPower fun p => { p with capw := 100 })) (fun t => t.pkg.power.applied.isEmpty) = true
    ∧ ((stLeft.staticCharge 9001500 0).part 0).owed = some 1 := by
  decide +kernel

/-- The host in a running module with a session; the module in recovery; its one port up, with an RCOPY that runs; a block of memory under
another key than its frame's. -/
def stRecov : State := stSs.updPkg fun p => { p with boot := { p.boot with phase := .recovery } }
def stPort1 : State := (stP true (cmd (.rcopy h0 prcopy) .run) (strm .decode)).updPkg fun p => { p with portsUp := [true] }

theorem test_meets_host_more :
    stSs.pkg.boot.phase = .running ∧ stRecov.pkg.boot.phase ≠ .running ∧ stSs.keyFilled 3 = false
    ∧ (stPort1.cell.hub.cmds)[0]? = some (cmd (.rcopy h0 prcopy) .run) ∧ stPort1.reachable 7 = true
    ∧ (stPort1.updPkg fun p => { p with portsUp := [false] }).reachable 7 = false
    ∧ (∀ x ∈ (st.updMem fun m => { m with alien := [(0, 3)] }).mem.alien, x.2 ≠ 0)
    ∧ stD.pkg.time.set = true ∧ stD.ptpFits (stD.timeNs - 5) 5 = true ∧ stD.ptpOffset (stD.timeNs - 5) = 5
    ∧ (stWk.windowPlace 0 (win1 5) 0).2 = none ∧ (0x8000000000000000 : Word).getLsbD 63 = true := by
  decide +kernel

/-- R392, R403: nothing but the mailbox acts in recovery; an RCOPY to a module out of reach ends with 0x1F. -/
theorem test_host_more_results :
    after (exec (.streamCreate 0 0) (stRecov)) (fun t => t.pkg.streams.isEmpty && (t.ctx 0).strStat = (stRecov.ctx 0).strStat) = true
    ∧ after (exec (.portRetirement (.module 7)) stPort1) (fun t =>
        t.cell.hub.cmds.map (fun c : Cmd => c.phase) = [.release 0x1F 0]) = true
    ∧ after (exec (.ptpSync (stD.timeNs - 5) 5) stD) (fun t => t.pkg.time.offset = 5 && t.pkg.time.good = stD.pkg.time.good + 1) = true := by
  decide +kernel

/-! ## Further cases: landing and the checks of an access -/

/-- An ES write of each class in flight, its last tick coming: all bytes of v2, byte 0 of m2 ORed in, SH and ESFLAGS whole. -/
def allBytes : BitVec 256 := BitVec.allOnes 256
def dV : EPend := ⟨1, .v, 2, [⟨5, allBytes, true, true⟩, ⟨6, 1, false, false⟩], 1⟩
def dM : EPend := ⟨1, .m, 2, [⟨7, 1, true, false⟩], 0⟩
def dSh : EPend := ⟨1, .sh, 0, [⟨0xFFFFFFFF, allBytes, false, true⟩], 0⟩
def dFl : EPend := ⟨1, .flags, 0, [⟨4, allBytes, false, true⟩], 0⟩
def esIn (l : List EPend) : EsSt := { st.cell.es with infl := l }

theorem test_meets_es_landing :
    (∀ x ∈ (esIn [dV, dM, dSh, dFl]).infl, 1 ≤ x.rem) ∧ st.cell.es.infl = [] ∧ 1 ≤ ({ dV with rem := 3 } : EPend).rem
    ∧ dV.cls = .v ∧ dV.num + dV.parts.length ≤ 32 ∧ dV.parts[1]? = some ⟨6, 1, false, false⟩ ∧ (31 : Nat) + 1 ≤ 32
    ∧ dM.cls = .m ∧ dM.num = (2 : MReg).toNat ∧ dM.num % 8 ≠ (3 : MReg).toNat ∧ (2 : MReg) ≠ 0
    ∧ dSh.cls = .sh ∧ dFl.cls = .flags ∧ ∀ b, b < 8 → allBytes.getLsbD b = true := by
  decide +kernel

/-- R37, R38, R163: the bytes enabled change and no others, a tag ORed stays, SH keeps 20 bits, flags are ORed. -/
theorem test_es_landing :
    ((esIn []).land dV).vn 2 = ⟨5, true⟩ ∧ ((esIn []).land dV).flags = 1
    ∧ (({ esIn [] with m := (esIn []).m.set 2 ⟨0x1234, false⟩ }).land dM).rm 2 = ⟨0x1207, true⟩
    ∧ ((esIn []).land dSh).sh = 0xFFFFF ∧ ((esIn []).land dFl).flags = 4
    ∧ ((esIn [{ dV with rem := 2 }]).endTick).vn 2 = (esIn []).vn 2 := by
  decide +kernel

/-- The page of segment 4 with a leaf of another form: `lf` stands for it. -/
def leafAs (lf : Nat) : State := poke stPg (byteKey 1 2 (8192 * 67)) (BitVec.ofNat 64 lf)
def leafBase : Nat := 2 ^ 63 + 2 ^ 62 + 2 * 2 ^ 40 + 2 ^ 37 + 3
/-- Segment 4 without a root, without write permission; a kernel segment on the MS. -/
def segW (e : SegEnt) : State := st.updFocus fun c => { c with segs := segs ++ [e] }

theorem test_meets_access_checks :
    (offOf (0 : Word) 0xFF < 0 ∧ offOf (mkAddr 1 4) 0 % 8 ≠ 0 ∧ 2 ^ 58 ≤ offOf (mkAddr 1 (2 ^ 58 - 8)) 1)
    ∧ segAt st.cell.segs (segNo (mkAddr 9 0)) = none ∧ (segAt st.cell.segs 0).map (fun e => decide (e.kind ∈ needLinR.kinds)) = some false
    ∧ (segAt st.cell.segs 1).map (fun e => decide (e.kind ∈ needLinW.kinds ∧ 65536 + 8 ≤ e.size)) = some false
    ∧ (segAt st.cell.segs 1).map (fun e => decide (e.kind ∈ needLinW.kinds ∧ 65528 + 8 ≤ e.size ∧ e.loc ≠ 0 ∧ e.permR = true)) = some true
    ∧ (segAt (segW (seg 0 1 2 4 65536 0)).cell.segs 4).map (fun e => e.permR && !e.permW) = some true
    ∧ (segAt (segW (seg 3 0 0 6 4096 (2 ^ 20))).cell.segs 4).map
        (fun e => decide (e.loc = 0 ∧ Config.spBytes 2 < e.base + 8)) = some true
    ∧ (st.cell.id.die ≠ 6) := by
  decide +kernel

/-- R109, R281, R283: what the check answers: a leaf that is not present, one without write
permission, one for engines only, one of a compressed page, one of a frame under another key. -/
theorem test_access_checks :
    ((leafAs 0).asAccess needLinR (mkAddr 4 0) 0).2 = .error 0x0B
    ∧ ((leafAs (leafBase + 2 ^ 46)).asAccess needLinW (mkAddr 4 0) 0).2 = .error 0x0A
    ∧ ((leafAs (leafBase + 2 ^ 46 + 2 ^ 45 + 2 ^ 44)).asAccess needLinR (mkAddr 4 0) 0).2 = .error 0x0A
    ∧ ((leafAs (leafBase + 2 ^ 46 + 2 ^ 50)).asAccess needLinR (mkAddr 4 0) 0).2 = .error 0x0D
    ∧ (((leafAs (leafBase + 2 ^ 46 + 2 ^ 53)).updMem fun m => { m with lines := [] }).asAccess needLinR (mkAddr 4 0) 0).2 = .error 0x0C
    ∧ (stPg.asAccess needLinRW (mkAddr 4 0) 0).2 = .ok ⟨1, 2, 0x30000, 0, 0, false⟩
    ∧ ((segW (seg 0 1 2 4 65536 0)).asAccess needLinW (mkAddr 4 0) 0).2 = .error 0x0A
    ∧ ((segW (seg 3 0 0 6 4096 (2 ^ 20))).asAccess needSpadR (mkAddr 4 0) 0).2 = .error 0x07
    ∧ (st.asAccess needLinR (mkAddr 9 0) 0).2 = .error 0x08 ∧ (st.asAccess needLinR 0 0xFF).2 = .error 0x07 := by
  decide +kernel

/-! ## Further cases: prefetches, branch-outcome queues and tagged operands -/

/-- R166: what the check of a popped address answers. -/
theorem test_es_access :
    (stE shS32 0 0).esAccess needSpadR (mkAddr 9 0) 0 8 = .error 0x08 ∧ (stE shS32 0 0).esAccess needSpadR (mkAddr 1 0) 0 8 = .error 0x09
    ∧ (stE shS32 0 0).esAccess needSpadR (BitVec.ofNat 64 (2 ^ 58 - 8)) 1 8 = .error 0x07
    ∧ ((segW (seg 3 0 0 4 4096 0)).esAccess needSpadW (mkAddr 4 0) 0 8) = .error 0x0A := by
  decide +kernel

/-- The prefetch of segment 4's page; a write-back in progress that used it. -/
def pfBase : Place × Word := (stPg.walkDown (stPg.cell.who 0) (mkAddr 4 0x18) 0x18 [4, 3, 2, 1] ⟨1, 0, 0, 0, 2, false⟩ (pte 64)).2.getD default
def wb4 : Wback := { wb1 with addr := mkAddr 4 0x18 }
def stWbs : State := (stPg.updAs fun a => { a with lvl := .kernel }).updMem fun m => { m with wbacks := [wb4] }

theorem test_meets_prefetch :
    (stPg.walkDown (stPg.cell.who 0) (mkAddr 4 0x18) 0x18 [4, 3, 2, 1] ⟨1, 0, 0, 0, 2, false⟩ (pte 64)).2 = some pfBase
    ∧ pfBase.2 = leaf3 ∧ stPg.mem.keyFits pfBase.1 = true ∧ (segAt stPg.cell.segs 4).map (fun e => (e.pageable, decide (e.d3 = pte 64))) = some (true, true)
    ∧ (segAt st.cell.segs 1).map (fun e => e.pageable) = some false ∧ (stTag.rg 10).psn = true
    ∧ stWbs.mem.wbacks[0]? = some wb4 ∧ wb4.cell = stWbs.cell.id ∧ wb4.due = none
    ∧ wb4.uses stWbs.cell.segs (tlbKeep .all 0 0) = true ∧ stWbs.cell.as.lvl ≠ .program ∧ Checked stWbs := by
  simp only [Checked]
  decide +kernel

/-- R120, R286: PF sets A alone; a package-wide TLBI gives the write-back its deadline. -/
theorem test_prefetch_results :
    after (exec (.pf ⟨g0, false, 5, 0, 0⟩) (stPg.setCore (regs stPg.core [(5, mkAddr 4 0)]))) (fun t =>
      memWord t.mem.mem (byteKey 1 2 (8192 * 67)) = leaf3 ||| (1 <<< 47)) = true
    ∧ after (exec (.tlbi ⟨g0, 5, .package, .all⟩) stWbs) (fun t => t.mem.wbacks.map (·.due) = [some (stWbs.pkg.time.t3 + 1500000)]) = true := by
  decide +kernel

/-- Full and empty branch-outcome queues, a false target of LOOP, tagged registers and predicates. -/
theorem test_meets_control_cases :
    st.cell.qs.bqe = [] ∧ (stBq 9).cell.qs.bqe = ⟨true, 9⟩ :: [] ∧ (stBq 9).pkg.time.clk < 9
    ∧ Config.capBq ≤ (st.updQs fun k => { k with bqa := List.replicate 8 ⟨true, 0⟩ }).cell.qs.bqa.length
    ∧ inSection st.cell.asbase st.cell.assize (st.rg 5).v = false ∧ (st.rg 5).psn = false
    ∧ (stTag.rg 10).psn = true ∧ (stTag.rg 5).psn = false ∧ (stTag.rg 7).psn = false ∧ (stTag.rp 3).psn = true
    ∧ sysWritable .joinp stTag.cell.as.lvl = true ∧ (stTag.updAs fun a => { a with lvl := .kernel }).cell.as.lvl ≠ .program := by
  decide +kernel

/-- R131 to R133, R153: a tagged operand traps with its value; an outlying LOOP target traps too. -/
theorem test_poison_results :
    after (exec (.bqp ⟨g0, 3⟩) stTag) (fun t => t.cell.as.sys.trapcause = 0x05 && t.cell.as.sys.trapval = 0) = true
    ∧ after (exec (.fork ⟨g0, 7, 6, 10, true, 7⟩) stTag) (fun t => t.cell.as.sys.trapcause = 0x05 && t.cell.as.sys.trapval = mkAddr 1 0x2000) = true
    ∧ after (exec (.loop ⟨g0, 1, 9⟩) stFar) (fun t => t.cell.as.sys.trapcause = 0x03 && t.cell.as.sys.trapval = mkAddr 1 0x1000) = true
    ∧ after (exec (.brq ⟨g0, 1⟩) (stBq 9)) (fun t => t = stBq 9) = true := by
  decide +kernel

/-- The word has stood equal for 200 cycles. -/
def stDue : State := stWp 7 none |>.updAs fun a => { a with wait := a.wait.map fun y => { y with eq := some 0 } }
theorem test_meets_wait_due :
    stDue.pkg.time.t3 = 300 ∧ ({ stDue with pkg := { stDue.pkg with time := { stDue.pkg.time with t3 := 1000 } } } : State).waitDue = true
    ∧ stDue.waitDue = false := by
  decide +kernel

/-! ## Further cases: what a trap saves -/

/-- Writes in flight of the AS, and of a halted ES too. -/
def stFly : State := st.setCore (((st.core.push 3 (.g 1) 5 true).push 14 (.p 2) 1 false).push 1 (.t 3) 0x40 false)
def spotS : Place := ⟨1, 2, 262144, 0, 0, false⟩
def dV2 : EPend := ⟨2, .v, 2, [⟨5, BitVec.allOnes 256, true, true⟩, ⟨6, 1, false, true⟩], 1⟩
def stFlyEs : State := (stFly.updEs fun e => { e with run := .halted, infl := [dV2] }).updAs fun a => { a with sys := { a.sys with esHalted := true } }
/-- The MS runs at machine level. -/
def stMsRun : State := (st.updFocus fun c => { c with id := ⟨6, 0⟩ }).updAs fun a => { a with lvl := .machine }

theorem test_meets_trap_saves :
    stFlyEs.cell.as.lvl ≠ .kernel ∧ stFlyEs.cell.as.sys.tvec ≠ 0 ∧ stFlyEs.saveArea.map (·.2) = some spotS
    ∧ (∀ x ∈ stFlyEs.cell.es.infl, x.parts.length ≤ 32) ∧ stFlyEs.core.infl.length = 3 := by
  decide +kernel

theorem test_meets_trap_keys (u : State) (p : Place) (h : stFlyEs.saveArea = some (u, p)) (k : Nat) (hk : 8 * k < Config.saveBytes) :
    u.mem.keyFits (p.plus (8 * k)) = true := by
  have key : ∀ x ∈ stFlyEs.saveArea, x.1.mem.alien = [] ∧ x.2 = spotS ∧ ∀ f ∈ [4, 5, 6], x.1.mem.boundTo 1 2 f = some 0 := by decide +kernel
  obtain ⟨ha, rfl, hf⟩ := key _ (Option.mem_def.2 h)
  have e : ∀ n, n < 147976 → u.mem.blockKey (spotS.plus n) = some 0 := fun n hn => by
    have ha' : u.mem.alien = [] := ha
    rw [MemSt.blockKey, ha']
    exact hf ((262144 + n) / 65536) (by simp only [List.mem_cons, List.not_mem_nil, or_false]; omega)
  simp only [Config.saveBytes] at hk
  have e1 := e (8 * k) (by omega)
  have e2 : u.mem.blockKey ((spotS.plus (8 * k)).plus 7) = some 0 := e (8 * k + 7) (by omega)
  simp only [MemSt.keyFits, e1, e2]
  rfl

theorem test_meets_slots_fit : SlotsFit stFlyEs.core.infl stFlyEs.cell.es.infl := by
  simp only [SlotsFit]
  decide +kernel

theorem test_meets_trap_cases :
    stMsRun.cell.as.lvl = .machine ∧ stMsRun.cell.as.sys.tvec ≠ 0 ∧ stMsRun.cell.id.die = 6 ∧ stMsRun.saveArea.isSome = true
    ∧ (st.updAs fun a => { a with sys := { a.sys with pwlsave := mkAddr 63 0 } }).saveArea = none := by
  decide +kernel

/-- R41, R152: the header of an AS slot and of an ES slot, by hand from R41; the MS stays at machine level. -/
theorem test_trap_saves :
    after (exec (.trap ⟨g0, 9⟩) stFlyEs) (fun t => t.core.infl = [] && t.cell.as.lvl = .kernel
      && t.getSave spotS 8 = ⟨5, false⟩ && t.getSave spotS 48 = ⟨0, false⟩) = true
    ∧ after (exec (.trap ⟨g0, 9⟩) stMsRun) (fun t => t.cell.as.lvl = .machine && t.core.pc = mkAddr 1 0x800) = true := by
  decide +kernel

/-! ## Further cases: repetition 0 and draining -/

/-- With the ES's fault to take the AS reaches a REP whose repetition 0 runs, and one whose repetition 0 traps; an ES that drains. -/
def stEfRep (w : Nat) : State :=
  slot ((poke stEf (byteKey 1 2 0) (BitVec.ofNat 64 (w * 2 ^ 32 + 0xFC311000))).updFocus fun c => { c with recd := some ⟨1, 0, 3⟩ }) .as
def stDrain : State := slot (st.updEs fun e => { e with run := .draining, infl := [⟨2, .v, 2, [⟨5, BitVec.allOnes 256, false, true⟩], 0⟩] }) .es
/-- A REP is under way and the ES's fault comes. -/
def stEfIn : State := (stEfRep 0x04110C00).setCore { (stEfRep 0x04110C00).core with rep := some ⟨4, 1, 1, 1, 0⟩ }
def repTurn (s : State) : Option State := match runTurn s.asFetch with | .next t => some t | _ => none

theorem test_meets_step_repetition :
    comes (stEfRep 0x04110C00) = true ∧ (entered (stEfRep 0x04110C00)).cell.esFaultDue = true ∧ (entered (stEfRep 0x04110C00)).core.rep = none
    ∧ (entered (stEfRep 0x04110C00)).seqStopped 0 = false
    ∧ (repTurn (entered (stEfRep 0x04110C00))).map (fun t => (t.asFaulted, t.core.rep.isSome)) = some (false, true)
    ∧ ((repTurn (entered (stEfRep 0x04110C00))).bind repTurn).map (·.asFaulted) = some false
    ∧ (repTurn (entered (stEfRep 0x600C5202))).map (fun t => (t.asFaulted, t.core.rep.isSome)) = some (false, true)
    ∧ ((repTurn (entered (stEfRep 0x600C5202))).bind repTurn).map (·.asFaulted) = some true
    ∧ comes stDrain = true ∧ (entered stDrain).cell.es.run = .draining
    ∧ (entered stEfIn).core.rep.isSome = true ∧ (entered stEfIn).cell.esFaultDue = true := by
  decide +kernel

/-- R160, R194: repetition 0 faults before the ES's fault is taken; a draining ES lands. -/
theorem test_step_repetition :
    after (step (stEfRep 0x04110C00)) (fun t => t.cell.as.sys.trapcause = 0x12 && t.cell.as.delivered) = true
    ∧ after (step (stEfRep 0x600C5202)) (fun t => t.cell.as.sys.trapcause = 0x09 && t.cell.as.delivered = false && t.core.pc = mkAddr 1 0x800) = true
    ∧ after (step stDrain) (fun t => t.cell.es.infl.map (·.rem) = [1]) = true := by
  decide +kernel

/-! ## Further cases: EREP -/

/-- The ES under f32, with `w` after its program counter. -/
def stErepW (w : Word32) : State :=
  poke ((stE shF32 0 0).fetchWord 1 st.cell.esbase st.cell.essize (mkAddr 1 0)).1 (byteKey 1 2 0) (w ++ (0 : BitVec 32))
def erepFetch (s : State) : State × Option Word32 := s.fetchWord 1 s.cell.esbase s.cell.essize (s.cell.es.pc + 4)
def vaddSat : Instr := .vadd ⟨0, 1, 2, .reg 3, true⟩
/-- The end of the ES's section; an outcome that may not be popped yet; the last write after EEXIT. -/
def stErepEnd : State := (stE shF32 0 0).updEs fun e => { e with pc := mkAddr 1 4092 }
def stEbq : State := (stE shS32 0 0).updQs fun k => { k with bqa := [⟨true, 9⟩] }
def stEnd (n : Nat) : EsSt := { st.cell.es with run := .draining, infl := [⟨n, .flags, 0, [⟨4, BitVec.allOnes 256, false, true⟩], 0⟩] }

theorem test_meets_erep_cases :
    (erepFetch stErepEnd).2 = none ∧ (erepFetch (stErepW 0)).2 = some 0 ∧ (decodeEs 0).toOption = none
    ∧ (erepFetch (stErepW 0x98880000)).2 = some 0x98880000 ∧ (decodeEs 0x98880000).toOption = some (.viota ⟨1, 2⟩)
    ∧ stepsOk ⟨1, 1, 1, 1⟩ (vFields (.viota ⟨1, 2⟩)) = false
    ∧ (encodeEs vaddSat).bind (fun w => (decodeEs w).toOption) = some vaddSat ∧ stepsOk ⟨1, 0, 0, 0⟩ (vFields vaddSat) = true
    ∧ (erepFetch (stErepW ((encodeEs vaddSat).getD 0))).2 = encodeEs vaddSat
    ∧ esLegal (erepFetch (stErepW ((encodeEs vaddSat).getD 0))).1.cell.es.sh vaddSat = false
    ∧ stepEsWord ((encodeEs vaddSat).getD 0) ⟨2, 0, 0, 0, 0⟩ = (encodeEs vaddSat).getD 0
    ∧ stEbq.cell.qs.bqa = ⟨true, 9⟩ :: [] ∧ stEbq.pkg.time.clk < 9 ∧ inSection st.cell.esbase st.cell.essize (stEbq.esTarget 4) = true := by
  decide +kernel

/-- R86, R164, R194: the fault of an EREP halts the ES with its frame saved; a draining ES goes on until its last write has landed. -/
theorem test_erep_results :
    after (exec (.erep ⟨1, 0, 0, 0⟩) (stErepW ((encodeEs vaddSat).getD 0))) (fun t =>
      t.cell.es.run = .halted && t.cell.as.sys.etrapcause = 1 && t.cell.as.sys.etraprep ≠ 0) = true
    ∧ after (exec (.erep ⟨1, 0, 0, 0⟩) stErepEnd) (fun t => t.cell.es.run = .halted && t.cell.as.sys.etrapval = mkAddr 1 4096) = true
    ∧ (stEnd 2).drain.run = .draining ∧ (stEnd 2).drain.flags = 0 ∧ (stEnd 1).drain.run = .idle ∧ (stEnd 1).drain.flags = 4 := by
  decide +kernel

/-! ## Further cases: floats -/

/-- Patterns of each kind; a group with a value that keeps the finer scale, and one without. -/
theorem test_meets_floats :
    (∀ ty ∈ [8, 9, 10], tyFloat ty = true ∧ (fmtOf ty).infBits < (fmtOf ty).nanBits)
    ∧ (fmtOf 10).decode 0x7FC00000 = .nan false ∧ (fmtOf 10).decode 0x7F800001 = .nan true ∧ (fmtOf 10).decode 0xFF800000 = .inf true
    ∧ tyInt 2 = true ∧ tyInt 6 = true ∧ intOf 2 0xFFFFFFFB = -5 ∧ (fmtOf 10).decode 0x40200000 = .num false 0xA00000 (-22)
    ∧ (∃ x ∈ [(false, 3, (0 : Int)), (true, 0, 0)], x.2.1 ≠ 0) ∧ blkByte 0x20 0 / 16 = 2
    ∧ (List.replicate 64 (false, 3, (0 : Int))).length = 64 := by
  decide +kernel

/-- R48 to R56, R63, R172, R174 by hand: 1/3 rounded up and down, 2.5 to s8, 300 to s8, a NaN beside 1, −0 below +0, the block of 64 ones. -/
theorem test_float_results :
    (fmtOf 10).deliverFl 0 (fRcp (.num false 3 0)) = (0x3EAAAAAB, fNX) ∧ (fmtOf 10).deliverFl 1 (fRcp (.num false 3 0)) = (0x3EAAAAAA, fNX)
    ∧ convertEl 0 10 0 false 0x40200000 = (2, fNX) ∧ convertEl 2 10 0 false 0x40200000 = (3, fNX)
    ∧ convertEl 0 10 0 false 0x43960000 = (127, fNV) ∧ convertEl 0 10 0 false 0x7FC00000 = (0, fNV)
    ∧ (FV.num true 0 0).ltz (.num false 0 0) = true ∧ (FV.num false 0 0).ltz (.num true 0 0) = false
    ∧ (bx7Group (List.replicate 32 (false, 1, 0))).scale = 127 ∧ (quantBlock [.nan false]).bytes = 0xF0 := by
  decide +kernel

/-! ## Further cases: results of CMPR, launches posted, sends, held reports, registers -/

/-- A CMPR whose destination's segment is invalid, with RES as it should be, and with RES misaligned. -/
def pcmprN (res : Word) : PCmpr := { pcmpr with dst := mkAddr 9 0, res := res }
def stCn (res : Word) : State := stCm (c0 (pcmprN res) false)
theorem test_meets_static_result :
    ((stCn 64).cmprStatic .ce0 (pcmprN 64) false).2 = 3 ∧ ((stCn 68).cmprStatic .ce0 (pcmprN 68) false).2 = 3
    ∧ ((stCn 64).cmprStatic .ce0 (pcmprN 64) false).1.operand ⟨64, 0⟩ kSL [] = 0
    ∧ ((stCn 68).cmprStatic .ce0 (pcmprN 68) false).1.operand ⟨68, 0⟩ kSL [] ≠ 0
    ∧ (stCn 64).placePaused ((stCn 64).engWord 0 64 0 []) = false ∧ ((stCn 64).engRange .ce0 0 64 8 true false []).2.1 = 0 := by
  decide +kernel

/-- R234: with 0x03 of another operand RES takes 0 where its own checks pass, and is left alone where they fail. -/
theorem test_static_result :
    after (exec (.cmpr false h0 (pcmprN 64)) (poke (stCn 64) (byteKey 0 (spadUnit ⟨2, 0⟩) 64) 99)) (fun t =>
      memWord t.mem.mem (byteKey 0 (spadUnit ⟨2, 0⟩) 64) = 0) = true
    ∧ after (exec (.cmpr false h0 (pcmprN 68)) (poke (stCn 68) (byteKey 0 (spadUnit ⟨2, 0⟩) 64) 99)) (fun t =>
      memWord t.mem.mem (byteKey 0 (spadUnit ⟨2, 0⟩) 64) = 99) = true := by
  decide +kernel

/-- Two streams of context 0 with launches posted at 3 and 8, and an entry of queue 3 posted at 5. -/
def strA : Stream := { strm .queued with postPrefill := true, order := 3 }
def strB : Stream := { strm .decode with n := 1, postStep := true, stepAt := 8 }
def stPost (l : List Stream) (posts : List (BitVec 32 × Nat)) : State :=
  (stD.updPkg fun p => { p with streams := l }).updCq 0 3 fun x => { x with tail := BitVec.ofNat 32 posts.length, posts := posts }

theorem test_meets_posting_order :
    (stPost [strA, strB] [(1, 5)]).streamBefore 0 8 = true ∧ (stPost [strA, strB] [(1, 5)]).streamBefore 0 3 = false
    ∧ ((stPost [strA, strB] [(1, 5)]).cq 0 3).nextPost = some 5 ∧ (stPost [strB] []).streamBefore 0 8 = false
    ∧ ((stPost [strB] []).cq 0 3).nextPost = none
    ∧ ((stPost [strA, strB] [(1, 5)]).streamDue strA).isSome = true ∧ (stPost [strA, strB] [(1, 5)]).streamDue strB = none
    ∧ ((stPost [strB] []).streamDue strB).isSome = true ∧ (stPost [strB] [(1, 5)]).streamDue strB = none
    ∧ (stPost [strA] [(1, 5)]).entryBarred 0 3 [] = true ∧ (stPost [strB] [(1, 5)]).entryBarred 0 3 [] = false := by
  decide +kernel

/-- Block 2 stands registered by a HOFF that has not completed. -/
def stOpenH : State := stP false (cmd (.hoff h0 (phoff 2)) (.release 0 2)) { strO .handoff with regs := [hreg 2] }
theorem test_meets_send_order :
    stOpenH.hoffOpen 0 2 = true ∧ stOpenH.hoffOpen 0 1 = false ∧ ({ strO .handoff with regs := [hreg 2] } : Stream).nextSend (stOpenH.hoffOpen 0) = none
    ∧ ({ strO .handoff with regs := [hreg 2] } : Stream).nextSend (stD.hoffOpen 0) = some (hreg 2)
    ∧ (strm .done).on (.cancel 1) = strm .done ∧ (stS (strm .done)).findStream 0 = some (strm .done) := by
  decide +kernel

/-- A report held at the cell and one held at the package; one of those is for another queue. -/
def repB : Report := { rep1 with dest := 1 }
def stHeld : State := (st.updFocus fun c => { c with hold := [rep1] }).updPkg fun p => { p with hold := [{ rep1 with agent := 9 }, repB] }
def stFullB : State := stHeld.updPkg fun p => { p with errs := updAt p.errs 2 fun b => { b with reps := List.replicate 64 rep1 } }

theorem test_meets_held :
    GoesFirst stHeld [rep1] 0 rep1 ∧ GoesFirst stHeld stHeld.pkg.hold 0 { rep1 with agent := 9 } ∧ (stHeld.findCell ⟨2, 0⟩).map (·.hold) = some [rep1]
    ∧ stHeld.findCell ⟨2, 64⟩ = none ∧ (stHeld.pkg.errs[2]?).isSome = true := by
  refine ⟨⟨rfl, ⟨by decide +kernel, fun j y h => absurd h (Nat.not_lt_zero j)⟩, fun i x h => absurd h (Nat.not_lt_zero i)⟩,
    ⟨rfl, ⟨by decide +kernel, fun j y h => absurd h (Nat.not_lt_zero j)⟩, fun i x h => absurd h (Nat.not_lt_zero i)⟩, by decide +kernel⟩

theorem test_meets_held_none (n : Nat) (r : Report) : ¬ GoesFirst stFullB [rep1] n r := by
  rintro ⟨h, ⟨m, -⟩, -⟩
  match n with
  | 0 =>
    have e : r = rep1 := (Option.some.inj h).symm
    have : (stFullB.pkg.errs.getD 2 ⟨[], 0, false⟩).hasRoom rep1 = false := by decide +kernel
    rw [e] at m
    exact absurd (m.symm.trans this) (by decide)
  | n + 1 => simp at h

/-- R359: the held report enters the die's buffer; with it full of those of one queue only a report for another moves. -/
theorem test_held_results :
    ((stHeld.retryCell ⟨2, 0⟩).cell.hold = [] ∧ ((stHeld.retryCell ⟨2, 0⟩).pkg.errs.getD 2 ⟨[], 0, false⟩).reps = [rep1])
    ∧ stHeld.retryPkg.pkg.hold = [repB] ∧ (stFullB.retryCell ⟨2, 0⟩).cell.hold = [rep1] ∧ stFullB.retryPkg.pkg.hold = [{ rep1 with agent := 9 }] := by
  decide +kernel

/-- Partition 1 in service with context 1 admitted to it and nothing of it left. -/
def stFree : State := (stD.updPart 1 fun p => { p with en := true }).updCtx 1 fun x => x.set0 (0x0000200000000000)
theorem test_meets_leaving :
    (stFree.part 1).en = true ∧ (stFree.ctx 1).part.toNat = 1 ∧ stFree.ctxVacant 1 = true ∧ stL.ctxVacant 0 = false
    ∧ (stL.part 0).en = true ∧ (stL.ctx 0).part.toNat = 0
    ∧ ∀ a < 12, ∀ b < 16, (stFree.ctx (16 * a + b)).part.toNat = 1 → 16 * a + b = 1 := by
  decide +kernel
theorem test_meets_registers :
    st.pkg.boot.phase = .running ∧ st.pkg.parts.length = 16 ∧ st.pkg.mgmt.evict.length = 4 ∧ st.pkg.mgmt.weights.length = 16
    ∧ st.pkg.errs.length = 7 ∧ st.pkg.mgmt.backing.map (·.length) = List.replicate 16 4 ∧ st.pkg.mgmt.mailbox.length = 8
    ∧ st.pkg.power.order.length = 32 ∧ st.pkg.windows.length = 64 ∧ st.pkg.windows.all (fun x => x.d.length = 8) = true
    ∧ (win1 5).en = true ∧ (default : Window).en = false ∧ st.pkg.ctxs.length = 192 ∧ (st.ctx 3).cqs.length = 4
    ∧ (st.ctx 3).en = false ∧ (stD.ctx 0).en = true ∧ (st.ctx 3).strBusy = false := by
  decide +kernel

/-- R365, R380, R384: fields that take what is written, bits that stay zero. -/
theorem test_register_results :
    after (exec (.registerWrite .mgmt 0x408 0xFFFFFFFFFFFFFFFF) st) (fun t => t.pkg.mgmtRead 0x408 = 0xFFFFFFFFFFFFFFFF) = true
    ∧ after (exec (.registerWrite .mgmt 0x490 0xFF) st) (fun t => t.pkg.mgmtRead 0x490 = 0x1F) = true
    ∧ after (exec (.registerWrite (.vf 3) 0x20 0xFF) st) (fun t => (t.ctx 3).read 0x20 = 0x1F) = true
    ∧ after (exec (.registerWrite (.vf 0) 0x20 0xFF) stD) (fun t => (t.ctx 0).read 0x20 = (stD.ctx 0).read 0x20) = true := by
  decide +kernel

/-- A page of die 2's tensor store arrives for context 0. -/
def spotT : Place := ⟨2, 2, 65528, 0, 0, false⟩
theorem test_meets_arrivals :
    (stS (strm .handoff)).arrivals 0 spotT = [(0, 0), (0, 1), (0, 2), (0, 3)] ∧ (stS (strm .handoff)).arrivals 1 spotT = []
    ∧ spotT.loc = 2 ∧ spotT.addr % 65536 = 65528 := by
  decide +kernel

/-! ## The cipher -/

/-- FIPS 197: bytes of its S-box, and the product of its section 4.2. -/
theorem test_cipher_bytes : aesSub 0x53 = 0xED ∧ aesUnsub 0xED = 0x53 ∧ aesSub 0 = 0x63 ∧ aesMul 0x57 0x83 = 0xC1 := by
  decide +kernel

/-- FIPS 197, appendix C.3. -/
theorem test_cipher_block :
    aesBlock false 0x1f1e1d1c1b1a191817161514131211100f0e0d0c0b0a09080706050403020100 0xffeeddccbbaa99887766554433221100
      = 0x8960494b9049fceabf456751cab7a28e := by
  decide +kernel

/-! ## The assembler and the linker -/

/-- Names and values of fields. -/
def fields (l : List (String × String)) : List (AsmName × AsmName) := l.map fun x => (x.1.toList, x.2.toList)

/-- The launch `wid_store` of the example after R99. -/
def exampleLines : List (Option AsmName × AsmItem) :=
  [(none, .dir (.launch 0 1 none)), (none, .dir (.wid [8])),
   (none, .dir (.segment 0 "linear".toList (fields [("loc", "sram"), ("die", "0"), ("base", "0x20_0000"), ("limit", "0x1000"), ("perm", "rx")]))),
   (none, .dir (.segment 1 "scratch".toList (fields [("base", "0x0"), ("limit", "0x800"), ("perm", "rw")]))),
   (none, .dir (.entry .as "start".toList)), (none, .dir (.section_ .as)),
   (some "start".toList, .instr (.shli ⟨⟨0, false⟩, 5, 2, 3⟩) none), (none, .instr (.sega ⟨⟨0, false⟩, 4, 5, 1⟩) none),
   (none, .word ["0x6404_4000".toList]), (none, .instr (.exit ⟨⟨0, false⟩⟩) none), (none, .dir .end_)]

def exampleImage : Except AsmError (List Word × List Byte) :=
  match zenas Asm.init exampleLines with
  | .ok a => (match a.hdr with | some h => zenld h a.objs | none => .error .outsideHeader)
  | .error e => .error e

/-- R98, R99, R305: the words the example gives, and its header's first dwords. -/
theorem test_toolchain_example :
    exampleImage.toOption.map (fun x => (x.1.take 5, x.2)) = some ([0x4C4E_5248_0001_0005, 8, 0x400_0000, 0, 16],
      bytesLe 8 0x4808_5001_180A_2003 ++ bytesLe 8 0xB000_0000_6404_4000) := by
  decide +kernel

/-- R94 to R96, R89: a label spelled as a register, a quotient rounded toward zero, precedence, the worked MMA header. -/
theorem test_toolchain_statements :
    checkLabel "g5".toList = .error .labelIsRegister ∧ checkLabel "_a.1".toList = .ok "_a.1".toList
    ∧ (readExpr "(1 + 0x1_0 * 2 << 2 | 3) - -7 % 4 + -7 / 2".toList).bind (fun e => e.value fun _ => none) = .ok (.abs 135)
    ∧ (engineStmt (fun _ => none) .mx "MMA".toList ["s3".toList, "s4".toList, "rel".toList, "5".toList]).map
        (fun l => l.map (·.bytes)) = .ok [bytesLe 4 0x2618_8801, bytesLe 4 5]
    ∧ RelocCode.apply .pcRel20 .full 0 0 0 8 0 = .ok 0xF_FFFE ∧ RelocCode.apply .imm12 .full 0 2048 0 0 0 = .error .relocRange := by
  decide +kernel

end Sys2Proof.Tests
end

section
/-! SUPPORT. R32, R375: what an access to a system register does. -/

namespace Sys2Proof.Machine

open Sys2Proof.Claims

/-! ## Settling the static charges (R375) changes only the package's accounts -/

/-- `t` differs from `s` in the package only, and there neither in TIME nor in the number of contexts. -/
structure ChargesOnly (s t : State) : Prop where
  cell : t.cell = s.cell
  parked : t.parked = s.parked
  mem : t.mem = s.mem
  agenda : t.agenda = s.agenda
  rr : t.rr = s.rr
  free : t.free = s.free
  t3 : t.pkg.time.t3 = s.pkg.time.t3
  set : t.pkg.time.set = s.pkg.time.set
  ctxs : t.pkg.ctxs.length = s.pkg.ctxs.length

theorem ChargesOnly.refl (s : State) : ChargesOnly s s := ⟨rfl, rfl, rfl, rfl, rfl, rfl, rfl, rfl, rfl⟩

theorem ChargesOnly.trans {s t u : State} (a : ChargesOnly s t) (b : ChargesOnly t u) : ChargesOnly s u :=
  ⟨b.cell.trans a.cell, b.parked.trans a.parked, b.mem.trans a.mem, b.agenda.trans a.agenda, b.rr.trans a.rr,
    b.free.trans a.free, b.t3.trans a.t3, b.set.trans a.set, b.ctxs.trans a.ctxs⟩

@[simp] theorem length_updAt {α : Type} (f : α → α) : ∀ (l : List α) (n : Nat), (updAt l n f).length = l.length
  | [], _ => by simp [updAt]
  | _ :: _, 0 => by simp [updAt]
  | _ :: r, n + 1 => by simp [updAt, length_updAt f r n]

theorem getElem?_updAt {α : Type} (f : α → α) :
    ∀ (l : List α) (n m : Nat), (updAt l n f)[m]? = if m = n then l[m]?.map f else l[m]?
  | [], _, _ => by simp [updAt]
  | _ :: _, 0, 0 => by simp [updAt]
  | _ :: _, 0, _ + 1 => by simp [updAt]
  | _ :: _, _ + 1, 0 => by simp [updAt]
  | _ :: r, n + 1, m + 1 => by simp [updAt, getElem?_updAt f r n m]

theorem updCtx_chargesOnly (s : State) (n : Nat) (f : CtxSt → CtxSt) : ChargesOnly s (s.updCtx n f) :=
  ⟨rfl, rfl, rfl, rfl, rfl, rfl, rfl, rfl, by simp⟩

theorem updPart_chargesOnly (s : State) (n : Nat) (f : PartSt → PartSt) : ChargesOnly s (s.updPart n f) :=
  ⟨rfl, rfl, rfl, rfl, rfl, rfl, rfl, rfl, rfl⟩

theorem staticCharge_chargesOnly (s : State) (at_ i : Nat) : ChargesOnly s (s.staticCharge at_ i) := by
  simp only [State.staticCharge]
  split
  · exact .refl s
  · split
    · exact updCtx_chargesOnly ..
    · exact updPart_chargesOnly ..

theorem foldl_chargesOnly {α : Type} {f : State → α → State} (hf : ∀ t x, ChargesOnly t (f t x)) :
    ∀ (l : List α) (s : State), ChargesOnly s (l.foldl f s)
  | [], s => .refl s
  | x :: r, s => (hf s x).trans (foldl_chargesOnly hf r _)

theorem staticTick_chargesOnly (s : State) : ChargesOnly s s.staticTick := by
  simp only [State.staticTick]
  split
  · have h := foldl_chargesOnly (fun t i => staticCharge_chargesOnly t (1500 * (s.pkg.time.statics + 1)) i) (List.range 16) s
    generalize List.foldl _ s _ = u at h ⊢
    exact h.trans ⟨rfl, rfl, rfl, rfl, rfl, rfl, rfl, rfl, rfl⟩
  · exact .refl s

theorem staticTicks_chargesOnly : ∀ (n : Nat) (s : State), ChargesOnly s (s.staticTicks n)
  | 0, s => .refl s
  | n + 1, s => (staticTick_chargesOnly s).trans (staticTicks_chargesOnly n _)

theorem settleStatics_chargesOnly (s : State) : ChargesOnly s s.settleStatics := staticTicks_chargesOnly _ s

/-! ## What an SRW can do -/

/-- R32: an SRW of ENERGY charges what has come due and sets the counter of the running context. -/
theorem sysWrite_energy_chargesOnly (s : State) (v : Word) : ChargesOnly s (s.sysWrite .energy v) :=
  (settleStatics_chargesOnly s).trans (updCtx_chargesOnly ..)

/-- R375: the contexts that do not run keep what settling leaves them. -/
theorem sysWrite_energy_other (s : State) (v : Word) {c : Nat} (h : c ≠ ctxOf s.cell.as.sys.ctxid) :
    (s.sysWrite .energy v).pkg.ctxs[c]? = s.settleStatics.pkg.ctxs[c]? := by
  simp [State.sysWrite, getElem?_updAt, h]

/-- R32: every other SRW changes at most the level (STATUS), the ES's flags (ESFLAGS) and the stored registers. -/
theorem sysWrite_of_ne_energy (s : State) {r : SysReg} (v : Word) (hr : r ≠ .energy) :
    ∃ l x f, s.sysWrite r v = { s with cell := { s.cell with
        as := { s.cell.as with lvl := l, sys := x }, es := { s.cell.es with flags := f } } }
      ∧ (r ≠ .status → l = s.cell.as.lvl) ∧ (r ≠ .esflags → f = s.cell.es.flags) := by
  cases r with
  | energy => exact absurd rfl hr
  | status => exact ⟨_, _, _, rfl, fun h => absurd rfl h, fun _ => rfl⟩
  | esflags => exact ⟨_, _, _, rfl, fun _ => rfl, fun h => absurd rfl h⟩
  | _ => exact ⟨_, _, _, rfl, fun _ => rfl, fun _ => rfl⟩

/-! ## What a register reads after an SRW -/

/-- R375: charges show in ENERGY only. -/
theorem ChargesOnly.sysRead {s t : State} (h : ChargesOnly s t) {q : SysReg} (hq : q ≠ .energy) : t.sysRead q = s.sysRead q := by
  cases q with
  | energy => exact absurd rfl hq
  | _ => simp only [State.sysRead, State.timeNs, h.cell, h.t3, h.set]

/-- R32: an SRW leaves every other register: ENERGY apart, which CTXID selects, and TIMEFR after a change of level (R156). -/
theorem sysRead_sysWrite_of_ne (s : State) {r q : SysReg} (v : Word) (hqr : q ≠ r) (hq : q ≠ .energy) (hl : r = .status → q ≠ .timefr) :
    (s.sysWrite r v).sysRead q = s.sysRead q := by
  cases r with
  | energy => exact (sysWrite_energy_chargesOnly s v).sysRead hq
  | caps | time | timefr => rfl
  | status =>
    have ht := hl rfl
    cases q <;> try contradiction
    all_goals rfl
  | _ =>
    cases q <;> try contradiction
    all_goals rfl

theorem zeroExtend_extractLsb' (v : Word) (n : Nat) :
    (v.extractLsb' 0 n).zeroExtend 64 = v &&& (BitVec.allOnes n).setWidth 64 := by
  ext i hi
  simp [hi, Bool.and_comm]

/-- R19: a flag read after the write is set where it was and the write has no 1. -/
theorem zeroExtend_clearFlags (f : BitVec 6) (v : Word) : (clearFlags f v).zeroExtend 64 = f.zeroExtend 64 &&& ~~~ v := by
  ext i hi
  by_cases h6 : i < 6
  · simp [clearFlags, h6, BitVec.getLsbD_eq_getElem hi]
  · simp [BitVec.getLsbD_of_ge _ i (Nat.le_of_not_lt h6)]

theorem levelCode_levelOf (l : Level) {c : BitVec 2} (h : c ≠ 2) : levelCode (levelOf l c) = c := by
  revert c; cases l <;> decide

/-- R32: SETUP, PEND and HALT of a STATUS word stand above the level's two bits, where the value written has them. -/
theorem statusFields_eq (v : Word) (c : BitVec 2) :
    ((0 : BitVec 59) ++ BitVec.ofBool (v.getLsbD 4) ++ BitVec.ofBool (v.getLsbD 3) ++ BitVec.ofBool (v.getLsbD 2) ++ c : BitVec 64)
      = (v &&& 0x1C) ||| c.zeroExtend 64 := by
  refine BitVec.eq_of_getLsbD_eq fun i hi => ?_
  simp only [BitVec.getLsbD_append]
  rcases Nat.lt_or_ge i 5 with low | high
  · interval_cases i <;> simp
  · have hv : (0x1C#64).getLsbD i = false := by
      have : (0x1C : Nat) < 2 ^ i := Nat.lt_of_lt_of_le (by decide) (Nat.pow_le_pow_right (by decide) high)
      simp [BitVec.getLsbD_ofNat, Nat.testBit_lt_two_pow this]
    have hc : c.getLsbD i = false := BitVec.getLsbD_of_ge _ _ (by omega)
    rw [if_neg (by omega), if_neg (by omega), if_neg (by omega), if_neg (by omega)]
    simp [hv, hc]

/-- R31, R32: STATUS after a write: the fields written, and the level that the write leaves. -/
theorem sysRead_sysWrite_status (s : State) (v : Word) :
    (s.sysWrite .status v).sysRead .status =
      (v &&& 0x1C) ||| (levelCode (levelOf s.cell.as.lvl (v.extractLsb' 0 2))).zeroExtend 64 :=
  statusFields_eq v _

/-- R31: a level that is not reserved is read back as written. -/
theorem sysRead_sysWrite_status_of_ne (s : State) {v : Word} (h : v.extractLsb' 0 2 ≠ 2) :
    (s.sysWrite .status v).sysRead .status = v &&& 0x1F := by
  rw [sysRead_sysWrite_status, levelCode_levelOf _ h, zeroExtend_extractLsb', ← BitVec.and_or_distrib_left]
  rfl

/-- R7, R31: the reserved level keeps the old one. -/
theorem sysRead_sysWrite_status_reserved (s : State) {v : Word} (h : v.extractLsb' 0 2 = 2) :
    (s.sysWrite .status v).sysRead .status = (v &&& 0x1C) ||| (levelCode s.cell.as.lvl).zeroExtend 64 := by
  rw [sysRead_sysWrite_status, h]
  rfl

/-- R375: a counter with no open charges reads as it stands. -/
theorem energyRead_of_recent_nil {x : CtxSt} (h : x.recent = []) (now pick : Nat) : energyRead x now pick = x.energy := by
  have hs : satEnergy x.energy 0 = x.energy := by
    simp [satEnergy, Nat.not_le.mpr x.energy.isLt]
  simp [energyRead, CtxSt.settle, h, hs]

/-- R375: the charges still open go with the write, so ENERGY then reads the 48 bits written. -/
theorem sysRead_sysWrite_energy (s : State) (v : Word) (h : ctxOf s.cell.as.sys.ctxid < s.pkg.ctxs.length) :
    (s.sysWrite .energy v).sysRead .energy = (v.extractLsb' 0 48).zeroExtend 64 := by
  have hw := settleStatics_chargesOnly s
  have hx := List.getElem?_eq_getElem (hw.ctxs.symm ▸ h)
  simp only [State.sysRead, State.sysWrite, updCtx_cell, hw.cell, State.ctx, updCtx_ctxs,
    List.getD_eq_getElem?_getD, getElem?_updAt, if_pos, hx, Option.map_some, Option.getD_some]
  rw [energyRead_of_recent_nil rfl]

/-! ## SRR and SRW at a level that may -/

/-- R156: setting the latch of TIME's fraction touches no part of the core. -/
theorem setLatch_core (a : AsSt) (v : BitVec 16) : (a.setLatch v).core = a.core := by
  simp only [AsSt.setLatch]; split <;> rfl

theorem sysReadEffect_core (s : State) (r : SysReg) : (s.sysReadEffect r).core = s.core := by
  cases r with
  | time => exact setLatch_core _ _
  | _ => rfl

theorem sysReadEffect_mem (s : State) (r : SysReg) : (s.sysReadEffect r).mem = s.mem := by cases r <;> rfl

/-- R156: only an SRR of TIME changes the cell, whose latch it sets. -/
theorem sysReadEffect_cell (s : State) {r : SysReg} (h : r ≠ .time) : (s.sysReadEffect r).cell = s.cell := by
  cases r with
  | time => exact absurd rfl h
  | _ => rfl

/-- R32, R156: SRR at a level that may. -/
theorem exec_srr {s : State} {o : OpSrr} (hg : GuardOn s o.pg) (hr : sysReadable o.reg s.cell.as.lvl = true) :
    exec (.srr o) s = .next ((s.sysReadEffect o.reg).writeReg 1 (.g o.d) (s.sysRead o.reg) false) := by
  obtain ⟨htag, htrue⟩ := hg
  change execSrr o s = _
  rw [execSrr, if_pos hr, guarded_on htag htrue]

/-- R32, R156: SRW at a level that may. -/
theorem exec_srw {s : State} {o : OpSrw} (hg : GuardOn s o.pg) (ha : Clean s o.a) (hc : Checked s)
    (hw : sysWritable o.reg s.cell.as.lvl = true) : exec (.srw o) s = .next ((s.sysWrite o.reg (s.rg o.a).v).retire) := by
  obtain ⟨htag, htrue⟩ := hg
  change execSrw o s = _
  rw [execSrw, if_pos hw, guarded_on htag htrue, clean_on ha, afterChecks_on hc]

/-- R32, R156: what an SRR delivers and what it leaves. -/
theorem srr_result {s : State} {o : OpSrr} (hg : GuardOn s o.pg) (hr : sysReadable o.reg s.cell.as.lvl = true) :
    ∃ t, exec (.srr o) s = .next t ∧ t.core = ((s.core.push 1 (.g o.d) (s.sysRead o.reg) false).advance).endTick ∧ t.mem = s.mem
      ∧ (o.reg ≠ .time → t.cell = { s.cell with as := { s.cell.as with core := t.core } }) := by
  refine ⟨_, exec_srr hg hr, ?_, ?_, fun h => ?_⟩
  · rw [writeReg_core, sysReadEffect_core]
  · rw [writeReg_mem, sysReadEffect_mem]
  · rw [writeReg_cell, sysReadEffect_cell s h, writeReg_core]

/-- R32, R375: what an SRW leaves. -/
theorem sysWrite_frame (s : State) (r : SysReg) (v : Word) : let t := s.sysWrite r v
    t.parked = s.parked ∧ t.mem = s.mem ∧ t.agenda = s.agenda ∧ t.rr = s.rr ∧ t.free = s.free
      ∧ t.cell = { s.cell with
          as := { s.cell.as with lvl := t.cell.as.lvl, sys := t.cell.as.sys }, es := { s.cell.es with flags := t.cell.es.flags } }
      ∧ (r ≠ .status → t.cell.as.lvl = s.cell.as.lvl) ∧ (r ≠ .esflags → t.cell.es = s.cell.es) ∧ (r ≠ .energy → t.pkg = s.pkg)
      ∧ (r = .energy → t.cell = s.cell ∧ ∀ c, c ≠ ctxOf s.cell.as.sys.ctxid → t.pkg.ctxs[c]? = s.settleStatics.pkg.ctxs[c]?) := by
  intro t
  by_cases hr : r = .energy
  · subst hr
    have h := sysWrite_energy_chargesOnly s v
    exact ⟨h.parked, h.mem, h.agenda, h.rr, h.free, by rw [h.cell], fun _ => by rw [h.cell], fun _ => by rw [h.cell],
      fun h => absurd rfl h, fun _ => ⟨h.cell, fun _ hc => sysWrite_energy_other s v hc⟩⟩
  · obtain ⟨l, x, f, ht, hl, hf⟩ := sysWrite_of_ne_energy s v hr
    change t = _ at ht
    clear_value t
    subst ht
    exact ⟨rfl, rfl, rfl, rfl, rfl, rfl, hl, fun h => by rw [hf h], fun _ => rfl, fun h => absurd h hr⟩

end Sys2Proof.Machine

namespace Sys2Proof.Proofs

open Sys2Proof.Machine Sys2Proof.Claims

/-- Settles O32: SRR and SRW issue as the shared forms do, each register reads back by its own rule, and a write that is not one of ENERGY
touches the level, the flags and the stored registers only, one of ENERGY the package's accounts only. -/
theorem systemRegisterResult : Obligations.SystemRegisterResult := by
  unfold Obligations.SystemRegisterResult
  refine ⟨fun _ _ => srr_result, fun _ _ => exec_srw, fun s v => ?_, fun s r v => ?_⟩
  · have low := zeroExtend_extractLsb' v
    exact ⟨rfl, rfl, rfl, rfl, rfl, rfl, rfl, rfl, rfl, rfl, rfl, low 16, low 16, low 12, low 12, zeroExtend_clearFlags _ v, low 21, low 42,
      sysRead_sysWrite_status_of_ne s, sysRead_sysWrite_status_reserved s, fun h => (sysRead_sysWrite_energy s v h).trans (low 48)⟩
  · obtain ⟨hparked, hmem, hagenda, hrr, hfree, hcell, hlvl, hes, hpkg, henergy⟩ := sysWrite_frame s r v
    exact ⟨hparked, hmem, hagenda, hrr, hfree, hcell, hlvl, hes, hpkg, henergy, fun q => sysRead_sysWrite_of_ne s v⟩

end Sys2Proof.Proofs
end

section
/-! SUPPORT. O8: a slot that names a cell of the module is entered, and every instruction, command and event answers a next state. -/

namespace Sys2Proof.Machine

/-- R144: the timeout of a WAITA is a pass of it, or nothing. -/
theorem execWaitaTimeout_answers (s : State) : ∃ t, execWaitaTimeout s = .next t := by
  unfold execWaitaTimeout
  split
  · split
    · exact ⟨_, rfl⟩
    · exact ⟨_, rfl⟩
  · exact ⟨_, rfl⟩

/-- R92: every row of the table has a meaning, and it answers a next state. -/
theorem exec_answers (i : Instr) (s : State) : ∃ t, exec i s = .next t := by
  cases i
  case waitaTimeout => exact execWaitaTimeout_answers s
  all_goals exact ⟨_, rfl⟩

theorem runTurn_answers (r : State × Option Instr) : ∃ t, runTurn r = .next t := by
  obtain ⟨s, i⟩ := r
  cases i with
  | none => exact ⟨s, rfl⟩
  | some i => exact exec_answers i s

theorem ownFaultOr_answers {s : State} {go : State → Host.Outcome State Fault Refusal} (hgo : ∀ t, ∃ u, go t = .next u) :
    ∃ t, ownFaultOr s go = .next t := by
  obtain ⟨t, ht⟩ := runTurn_answers s.asFetch
  unfold ownFaultOr
  rw [ht]
  by_cases hf : t.asFaulted
  · exact ⟨t, if_pos hf⟩
  · obtain ⟨u, hu⟩ := hgo t
    exact ⟨u, (if_neg hf).trans hu⟩

theorem asFaultTurn_answers (s : State) : ∃ t, asFaultTurn s = .next t := by
  have delivery := exec_answers .esFaultDelivery s
  refine ownFaultOr_answers fun t => ?_
  split
  · exact ownFaultOr_answers fun _ => delivery
  · exact delivery

theorem takeTurn_answers (s : State) (x : Turn) : ∃ t, takeTurn s x = .next t := by
  unfold takeTurn
  split
  · exact asFaultTurn_answers s
  · exact runTurn_answers _

/-! ## Entering a slot (log 1) -/

/-- Taking the next slot moves no cell. -/
theorem nextSlot_cells (s : State) : s.nextSlot.1.cell = s.cell ∧ s.nextSlot.1.parked = s.parked := by
  unfold State.nextSlot
  split <;> exact ⟨rfl, rfl⟩

/-- A cell the module has can be put in focus. -/
theorem focus_isSome {s : State} {id : CellId} (h : (s.findCell id).isSome = true) : (s.focus id).isSome = true := by
  unfold State.findCell at h
  unfold State.focus
  by_cases hid : s.cell.id = id
  · rw [if_pos hid]; rfl
  · rw [if_neg hid]
    split
    · next hnone => simp [hid, hnone] at h
    · rfl

theorem findCell_congr {s t : State} (hc : t.cell = s.cell) (hp : t.parked = s.parked) (id : CellId) : t.findCell id = s.findCell id := by
  unfold State.findCell
  rw [hc, hp]

/-- A ready state's next slot is entered. -/
theorem enterSlot_of_ready {s : State} (h : s.Ready) : ∃ t, s.nextSlot.1.enterSlot s.nextSlot.2 = some t := by
  obtain ⟨hcell, -⟩ := h
  obtain ⟨hc, hp⟩ := nextSlot_cells s
  unfold State.enterSlot
  cases hx : s.nextSlot.2.cell with
  | none => exact ⟨_, rfl⟩
  | some id =>
    have hfound := hcell id hx
    rw [← findCell_congr hc hp] at hfound
    obtain ⟨t, ht⟩ := Option.isSome_iff_exists.mp (focus_isSome hfound)
    simp only [ht]
    exact ⟨_, rfl⟩

end Sys2Proof.Machine

namespace Sys2Proof.Proofs

open Sys2Proof.Machine Sys2Proof.Claims

/-- Settles O8: a ready slot is entered and names an event where it must, and every meaning answers a next state. -/
theorem stepAnswers : Obligations.StepAnswers := by
  unfold Obligations.StepAnswers
  intro s hready
  obtain ⟨u, hu⟩ := enterSlot_of_ready hready
  obtain ⟨-, hturn⟩ := hready
  unfold step
  rw [hu]
  by_cases hmay : u.mayTurn s.nextSlot.2.turn
  · obtain ⟨t, ht⟩ := takeTurn_answers (u.mark s.nextSlot.2.turn) s.nextSlot.2.turn
    exact ⟨t, by simp [hturn, hmay, ht]⟩
  · exact ⟨u, by simp [hturn, hmay]⟩

end Sys2Proof.Proofs
end

section
/-! SUPPORT. O6: what a step is when a sequencer's turn comes. -/

namespace Sys2Proof.Machine

open Sys2Proof.Claims

/-- A turn that comes is taken in its place of the cycle (log 1). -/
theorem step_of_comes {s u : State} {x : Turn} (h : Comes s u x) (hx : turnOk x = true) : step s = takeTurn u x := by
  obtain ⟨rfl, v, hv, hmay, rfl⟩ := h
  unfold step
  simp [hv, hx, hmay]

/-- With no ES fault to take, a turn is what its agent does. -/
theorem takeTurn_of_not_due {u : State} {x : Turn} (h : (x.isAs && u.cell.esFaultDue) = false) : takeTurn u x = runTurn (u.turn x) := by
  unfold takeTurn
  rw [h, Bool.false_and]
  rfl

theorem asStopped_of_runs {u : State} (hrun : u.cell.as.run = .running) (hstop : u.seqStopped 0 = false) : u.asStopped = false := by
  simp [State.asStopped, hrun, hstop]

/-- R15: a running AS that is not held up fetches. -/
theorem step_as_of_runs {s u : State} (h : Comes s u .as) (hr : AsRuns u) : step s = runTurn u.asFetch := by
  obtain ⟨hrun, hstop, hdue⟩ := hr
  rw [step_of_comes h rfl, takeTurn_of_not_due (by simp [hdue])]
  simp [State.turn, State.asTurn, asStopped_of_runs hrun hstop]

/-- R15, R192: a running ES that is not held up fetches. -/
theorem step_es_of_runs {s u : State} (h : Comes s u .es) (hr : EsRuns u) : step s = runTurn u.esFetch := by
  obtain ⟨hrun, hstop⟩ := hr
  rw [step_of_comes h rfl, takeTurn_of_not_due rfl]
  simp [State.turn, State.esTurn, hrun, hstop]

/-! ## What a fetch answers (R15, R78, R134, R192) -/

theorem asFetch_of_word {u : State} {w : Word32} {i : Instr} (hrep : u.core.rep = none) (hw : (asFetchAt u u.core.pc).2 = some w)
    (hi : decodeAs w = .ok i) : u.asFetch = ((asFetchAt u u.core.pc).1, some i) := by
  unfold State.asFetch
  unfold asFetchAt at hw ⊢
  rw [hrep]
  dsimp only
  generalize u.fetchWord 0 u.cell.asbase u.cell.assize u.core.pc = r at hw ⊢
  obtain ⟨t, _⟩ := r
  subst hw
  simp [hi]

theorem asFetch_of_repeated {u : State} {r : RepSt} {w : Word32} {i j : Instr} (hrep : u.core.rep = some r)
    (hw : (asFetchAt u (u.core.pc + 4)).2 = some w) (hj : decodeAs w = .ok j) (hok : stepsOk r.op (gFields j) = true)
    (hi : decodeAs (stepAsWord w r) = .ok i) : u.asFetch = ((asFetchAt u (u.core.pc + 4)).1, some i) := by
  unfold State.asFetch
  unfold asFetchAt at hw ⊢
  rw [hrep]
  dsimp only
  generalize u.fetchWord 0 u.cell.asbase u.cell.assize (u.core.pc + 4) = x at hw ⊢
  obtain ⟨t, _⟩ := x
  subst hw
  simp [hj, hok, hi]

theorem esFetch_of_word {u : State} {w : Word32} {i : Instr} (hrep : u.cell.es.rep = none)
    (hw : (esFetchAt u u.cell.es.pc).2 = some w) (hi : decodeEs w = .ok i) : u.esFetch = ((esFetchAt u u.cell.es.pc).1, some i) := by
  unfold State.esFetch
  unfold esFetchAt at hw ⊢
  rw [hrep]
  dsimp only
  generalize u.fetchWord 1 u.cell.esbase u.cell.essize u.cell.es.pc = r at hw ⊢
  obtain ⟨t, _⟩ := r
  subst hw
  simp [hi]

theorem esFetch_of_repeated {u : State} {r : RepSt} {w : Word32} {i j : Instr} (hrep : u.cell.es.rep = some r)
    (hw : (esFetchAt u (u.cell.es.pc + 4)).2 = some w) (hj : decodeEs w = .ok j) (hok : stepsOk r.op (vFields j) = true)
    (hi : decodeEs (stepEsWord w r) = .ok i) : u.esFetch = ((esFetchAt u (u.cell.es.pc + 4)).1, some i) := by
  unfold State.esFetch
  unfold esFetchAt at hw ⊢
  rw [hrep]
  dsimp only
  generalize u.fetchWord 1 u.cell.esbase u.cell.essize (u.cell.es.pc + 4) = x at hw ⊢
  obtain ⟨t, _⟩ := x
  subst hw
  simp [hj, hok, hi]

/-! ## With an ES fault to take (R43, R134, R160) -/

theorem turnOk_of_isAs {x : Turn} (h : x.isAs = true) : turnOk x = true := by
  unfold Turn.isAs at h
  split at h
  · rfl
  · rfl
  · rfl
  · cases h

/-- R43, R160: with an ES fault to take, an AS that may move is judged by its own instruction first. -/
theorem step_of_due {s u : State} {x : Turn} (hx : x.isAs = true) (h : Comes s u x) (hrun : u.cell.as.run = .running)
    (hstop : u.seqStopped 0 = false) (hdue : u.cell.esFaultDue = true) : step s = asFaultTurn u := by
  rw [step_of_comes h (turnOk_of_isAs hx)]
  simp [takeTurn, hx, hdue, asStopped_of_runs hrun hstop]

theorem ownFaultOr_of_run {u t : State} (h : runTurn u.asFetch = .next t) (go : State → Host.Outcome State Fault Refusal) :
    ownFaultOr u go = if t.asFaulted then .next t else go t := by
  unfold ownFaultOr
  rw [h]

theorem asFaultTurn_of_run {u t : State} (h : runTurn u.asFetch = .next t) :
    asFaultTurn u = if t.asFaulted then .next t
      else if u.core.rep.isNone && t.core.rep.isSome then ownFaultOr t fun _ => exec .esFaultDelivery u else exec .esFaultDelivery u :=
  ownFaultOr_of_run h _

end Sys2Proof.Machine

namespace Sys2Proof.Proofs

open Sys2Proof.Machine Sys2Proof.Claims

/-- Settles O6: a turn that comes is `takeTurn`; a running sequencer fetches, and the word it fetches decides the instruction. -/
theorem stepRunsSequencers : Obligations.StepRunsSequencers := by
  unfold Obligations.StepRunsSequencers
  refine ⟨fun s u w i hc hr hrep hw hi => ?_, fun s u r w i j hc hr hrep hw hj hok hi => ?_, fun s u w i hc hr hrep hw hi => ?_,
    fun s u r w i j hc hr hrep hw hj hok hi => ?_, fun s u t x hx hc hrun hstop hdue ht => ⟨fun hf => ?_, fun hf hrep => ?_,
    fun v hf hrep hrep' hv => ?_⟩, fun s u hc hrun => ?_⟩
  · rw [step_as_of_runs hc hr, asFetch_of_word hrep hw hi]; rfl
  · rw [step_as_of_runs hc hr, asFetch_of_repeated hrep hw hj hok hi]; rfl
  · rw [step_es_of_runs hc hr, esFetch_of_word hrep hw hi]; rfl
  · rw [step_es_of_runs hc hr, esFetch_of_repeated hrep hw hj hok hi]; rfl
  · rw [step_of_due hx hc hrun hstop hdue, asFaultTurn_of_run ht, if_pos hf]
  · have hrepeats : (u.core.rep.isNone && t.core.rep.isSome) = false := by
      rcases hrep with hu | ht
      · simp [hu]
      · simp [ht]
    rw [step_of_due hx hc hrun hstop hdue, asFaultTurn_of_run ht, if_neg (by simp [hf]), if_neg (by simp [hrepeats])]
  · have hreached : (u.core.rep.isNone && t.core.rep.isSome) = true := by simp [hrep, Option.isSome_iff_ne_none, hrep']
    rw [step_of_due hx hc hrun hstop hdue, asFaultTurn_of_run ht, if_neg (by simp [hf]), if_pos hreached, ownFaultOr_of_run hv]
  · rw [step_of_comes hc rfl, takeTurn_of_not_due rfl]
    simp [State.turn, State.esTurn, hrun, runTurn]

end Sys2Proof.Proofs
end

section
/-! SUPPORT. O11: the state after reset. -/

namespace Sys2Proof.Machine

open Sys2Proof.Claims

theorem queuesInit_dq (i : BitVec 2) : Queues.init.dq i = [] := by simp [Queues.dq, Queues.init, Vector.get]

theorem queuesInit_yq (i : Bool) : Queues.init.yq i = [] := by cases i <;> rfl

/-- Empty queues, and no copy that a failing check would bring back, are within every capacity. -/
theorem queuesFit_of_init {c : Cell} (hq : c.qs = Queues.init) (hs : c.snaps = []) : QueuesFit c := by
  unfold QueuesFit
  rw [hq, hs]
  exact ⟨fun i => by simp [queuesInit_dq], fun i => by simp [queuesInit_yq], Nat.zero_le _, Nat.zero_le _, Nat.zero_le _, by simp⟩

theorem queuesFit_cellInit (id : CellId) : QueuesFit (Cell.init id) := queuesFit_of_init rfl rfl

/-- R13: m0 is all ones and the other masks are zero. -/
theorem esInit_rm (m : MReg) : EsSt.init.rm m = if m = 0 then ⟨BitVec.allOnes 2048, false⟩ else ⟨0, false⟩ := by
  unfold EsSt.rm
  by_cases hm : m = 0
  · rw [if_pos hm, if_pos hm]
  · rw [if_neg hm, if_neg hm]
    have hne : (0 : Nat) ≠ m.toNat := fun h => hm (BitVec.eq_of_toNat_eq h.symm)
    exact (Vector.getElem_set_ne (by decide) m.toFin.isLt hne).trans (Vector.getElem_replicate m.toFin.isLt)

end Sys2Proof.Machine

namespace Sys2Proof.Proofs

open Sys2Proof.Machine Sys2Proof.Claims

/-- Settles O11: every cell is `Cell.init`, and the lists of the package are copies of an entry that is not enabled. -/
theorem resetState : Obligations.ResetState := by
  unfold Obligations.ResetState
  refine ⟨rfl, queuesFit_cellInit _, fun c hc => ?_, esInit_rm, rfl, rfl, fun e => ?_, rfl, rfl, rfl, rfl, fun p hp => ?_, fun c hc => ?_⟩
  · obtain ⟨id, -, rfl⟩ := List.mem_map.mp hc
    exact queuesFit_cellInit id
  · cases e <;> exact ⟨rfl, rfl⟩
  · rw [List.eq_of_mem_replicate hp]; rfl
  · rw [List.eq_of_mem_replicate hc]; rfl

end Sys2Proof.Proofs
end

section
/-! SUPPORT. O38: what an ES instruction that is illegal under SH does, and what a fault of the ES writes. -/

namespace Sys2Proof.Machine

/-- R195: an instruction whose meaning begins with the check of SH faults where the check fails. -/
theorem fault_of_illegal {i : Instr} {s : State} {go : State → State} (hexec : exec i s = .next (s.esLegalOr i go))
    (h : esLegal s.cell.es.sh i = false) : exec i s = .next (s.esFault cIllegal (wordOf i)) :=
  hexec.trans (congrArg _ (esLegalOr_off h go))

/-- R162, R164: the instructions that SH can make illegal begin with that check; every other is legal under any SH. -/
theorem exec_of_illegal {i : Instr} {s : State} (h : esLegal s.cell.es.sh i = false) :
    exec i s = .next (s.esFault cIllegal (wordOf i)) := by
  cases i
  case setsh | vld | vst | vldq | vsty | vbc => exact fault_of_illegal rfl h
  case vadd | vsub | vmul | vfma | vfms | vmin | vmax | vabs | vneg => exact fault_of_illegal rfl h
  case vrcp | vrsq | vexp2 | vlog2 | vcvt | vqb | vdqb => exact fault_of_illegal rfl h
  case vand | vor | vxor | vshl | vshlImm | vshr | vshrImm | vsar | vsarImm | viota => exact fault_of_illegal rfl h
  case vsel | vcmp | vrsum | vrmax | vrmin | vrmaxi | vrmini => exact fault_of_illegal rfl h
  case vperm | vslide | vgath | vrng => exact fault_of_illegal rfl h
  all_goals exact absurd h (by simp [esLegal])

end Sys2Proof.Machine

namespace Sys2Proof.Proofs

open Sys2Proof.Machine Sys2Proof.Claims

/-- Settles O38: the check of SH comes first where SH can make an instruction illegal, and `esFault` writes the fault's registers only. -/
theorem esIllegalFaults : Obligations.EsIllegalFaults := by
  unfold Obligations.EsIllegalFaults
  exact ⟨fun i s h _ => exec_of_illegal h, fun s c v => ⟨rfl, rfl, rfl, rfl, rfl, rfl, rfl, rfl, rfl, rfl, rfl⟩⟩

end Sys2Proof.Proofs
end

section
/-! SUPPORT. O39: shapes and queue moves of the ES (R165, R168, R169). -/

namespace Sys2Proof.Machine

open Sys2Proof.Claims

/-! ## What an instruction of the ES that issues leaves (R37) -/

/-- R37: a write enters the ES pipeline and the instruction issues. -/
theorem esWrites_of_exec {i : Instr} {s : State} {lat num n : Nat} {cls : EClass} {parts : List EPart} {flg : BitVec 6}
    (h : exec i s = .next ((s.esPush lat cls num parts flg).esNext n)) : EsWrites i s lat cls num parts flg := by
  refine ⟨_, h, ⟨?_, ?_, ?_, esNext_sameModule _ n, fun a => ?_⟩, ?_⟩ <;> simp

/-- R37, R168: the same once the head of a data queue is taken. -/
theorem esPops_of_exec {i : Instr} {s : State} {q : BitVec 2} {r : List QEnt} {lat num n : Nat} {cls : EClass} {parts : List EPart}
    {flg : BitVec 6} (h : exec i s = .next (((s.updQs fun k => k.setDq q r).esPush lat cls num parts flg).esNext n)) :
    EsPops i s q r lat cls num parts flg := by
  refine ⟨_, h, ⟨?_, ?_, ?_, esNext_sameModule _ n, fun a => ?_⟩, ?_⟩ <;> simp [State.updQs]

/-- R169: a push into y0 or y1 that finds room appends one entry and issues. -/
theorem pushY_of_room {s : State} {y : Bool} (h : (s.cell.qs.yq y).length < Config.capQ) (v : Nat) (psn : Bool) :
    s.pushY y v psn = (s.updQs fun k => k.setYq y (k.yq y ++ [⟨BitVec.ofNat 64 v, psn, true, s.ready, 0⟩])).esNext :=
  if_neg (Nat.not_le.mpr h)

theorem pushY_result {s : State} {y : Bool} (h : (s.cell.qs.yq y).length < Config.capQ) (v : Nat) (psn : Bool) :
    (s.pushY y v psn).cell.es = s.cell.es.advance.endTick ∧ EsMoves s (s.pushY y v psn) (fun c => { c with
      qs := s.cell.qs.setYq y (s.cell.qs.yq y ++ [(⟨BitVec.ofNat 64 v, psn, true, s.ready, 0⟩ : QEnt)]) }) := by
  rw [pushY_of_room h]
  refine ⟨?_, ?_, ?_, ?_, esNext_sameModule _ 1, fun a => ?_⟩ <;> simp [State.updQs]

/-- R168: a queue whose head cannot be popped yet. -/
theorem headOf_none {s : State} {q : BitVec 2} (h : popHead s.pkg.time.clk (s.cell.qs.dq q) = none) (f : QEnt → List QEnt → State) :
    s.headOf q f = s := by simp [State.headOf, h]

/-! ## SETSH from a queue (R165) -/

theorem exec_setshQ_of_head {s : State} {o : OpSetshQ} {e : QEnt} {r : List QEnt}
    (h : popHead s.pkg.time.clk (s.cell.qs.dq o.q) = some (e, r)) :
    exec (.setshQ o) s = .next (if e.psn then s.esFault cPoison e.v
      else if !shOk e.v then s.esFault cIllegal (wordOf (.setshQ o))
      else (s.updQs fun k => k.setDq o.q r).shapeNext e.v) := by
  change execSetshQ o s = _
  rw [execSetshQ, headOf_some h]

/-! ## VLDQ, VBC (R168) -/

/-- R168: a legal instruction that waits for the head of a data queue and finds it. -/
theorem esLegalOr_headOf {s : State} {i : Instr} {q : BitVec 2} {e : QEnt} {r : List QEnt} (hl : esLegal s.cell.es.sh i = true)
    (h : popHead s.pkg.time.clk (s.cell.qs.dq q) = some (e, r)) (f : State → QEnt → List QEnt → State) :
    (s.esLegalOr i fun s => s.headOf q (f s)) = f s e r := by
  rw [esLegalOr_on hl, headOf_some h]

/-- R162: where an element function raises no flag its results are the active elements' values. -/
theorem mapActive_const (x : Ev) (v : Nat) :
    (mapActive x fun _ => (v, 0)).1 = (List.range x.vl).map fun i => if x.active i then some v else none := by
  simp only [mapActive, List.map_map]
  refine List.map_congr_left fun i _ => ?_
  by_cases hi : x.active i <;> simp [hi]

end Sys2Proof.Machine

namespace Sys2Proof.Proofs

open Sys2Proof.Machine Sys2Proof.Claims

/-- Settles O39: each move is a push into the ES pipeline, or onto y0 or y1, of an instruction that issues. -/
theorem esMoveResult : Obligations.EsMoveResult := by
  unfold Obligations.EsMoveResult
  refine ⟨fun s o hl => ?_, fun s o e r h hp hok => ?_, fun s o => ⟨fun h => ?_, fun e r h => ⟨fun hp => ?_, fun hp hok => ?_⟩⟩,
    fun s o e r hl h => ?_, fun s o e r hl h => ?_, fun s o hl hroom => ?_, fun s o hroom => ?_⟩
  · exact esWrites_of_exec (congrArg _ (esLegalOr_on hl _))
  · refine esPops_of_exec (n := 1) ((exec_setshQ_of_head h).trans ?_)
    rw [hp, hok]
    rfl
  · exact congrArg _ (headOf_none h _)
  · rw [exec_setshQ_of_head h, if_pos hp]
  · rw [exec_setshQ_of_head h, if_neg (by simp [hp]), if_pos (by simp [hok])]
  · exact esPops_of_exec (congrArg _ (esLegalOr_headOf hl h _))
  · refine esPops_of_exec (n := (s.ev o.m).g) ((congrArg _ (esLegalOr_headOf hl h _)).trans ?_)
    simp only [mapActive_const]
    rfl
  · obtain ⟨hes, hmoves⟩ := pushY_result hroom ((s.grp (s.ev 0) o.s).1 o.idx.toNat) (s.grp (s.ev 0) o.s).2
    exact ⟨_, congrArg Host.Outcome.next (esLegalOr_on hl _), hes, hmoves⟩
  · obtain ⟨hes, hmoves⟩ := pushY_result hroom _ _
    exact ⟨_, rfl, hes, hmoves⟩

end Sys2Proof.Proofs
end

section
/-! SUPPORT. O12: how a write in flight lands, in the AS (R14, R37, R38, R128) and in the ES (R163). -/

namespace Sys2Proof.Machine

/-! ## The register file of the AS as one map from destinations -/

/-- What a destination of an AS write shows: a g register, a predicate, or a target register. -/
def AsCore.shown (c : AsCore) : Dest → TW ⊕ TB ⊕ TargetReg
  | .g r => .inl (c.rg r)
  | .p r => .inr (.inl (c.rp r))
  | .t r => .inr (.inr (c.rt r))

/-- R14, R38, R128: what a destination shows once a write has landed on it. -/
def landedAs (v : Word) (psn : Bool) : Dest → TW ⊕ TB ⊕ TargetReg
  | .g r => .inl (if r = 0 then ⟨0, false⟩ else ⟨v, psn⟩)
  | .p r => .inr (.inl (if r = 0 then ⟨true, false⟩ else ⟨v.getLsbD 0, psn⟩))
  | .t _ => .inr (.inr ⟨v, true⟩)

theorem get_set_toFin {α : Type} {w : Nat} (v : Vector α (2 ^ w)) (r q : BitVec w) (x : α) :
    (v.set r.toFin x r.toFin.isLt).get q.toFin = if r = q then x else v.get q.toFin := by
  change (v.set r.toFin x r.toFin.isLt)[q.toNat]'q.toFin.isLt = if r = q then x else v[q.toNat]'q.toFin.isLt
  rw [Vector.getElem_set]
  refine if_congr ⟨fun h => BitVec.eq_of_toNat_eq h, fun h => h ▸ rfl⟩ rfl rfl

theorem rg_zero (c : AsCore) : c.rg 0 = ⟨0, false⟩ := rfl
theorem rp_zero (c : AsCore) : c.rp 0 = ⟨true, false⟩ := rfl

theorem rg_setG (c : AsCore) (r q : GReg) (x : TW) :
    (c.setG r x).rg q = if r = q then (if q = 0 then ⟨0, false⟩ else x) else c.rg q := by
  by_cases hq : q = 0
  · subst hq
    rw [if_pos rfl, rg_zero, rg_zero, ite_self]
  by_cases hr : r = 0
  · rw [if_neg (fun h : r = q => hq (h ▸ hr)), AsCore.setG, if_pos hr]
  · rw [AsCore.setG, if_neg hr, AsCore.rg, AsCore.rg, if_neg hq, if_neg hq, if_neg hq]
    exact get_set_toFin c.g r q x

theorem rp_setP (c : AsCore) (r q : PReg) (x : TB) :
    (c.setP r x).rp q = if r = q then (if q = 0 then ⟨true, false⟩ else x) else c.rp q := by
  by_cases hq : q = 0
  · subst hq
    rw [if_pos rfl, rp_zero, rp_zero, ite_self]
  by_cases hr : r = 0
  · rw [if_neg (fun h : r = q => hq (h ▸ hr)), AsCore.setP, if_pos hr]
  · rw [AsCore.setP, if_neg hr, AsCore.rp, AsCore.rp, if_neg hq, if_neg hq, if_neg hq]
    exact get_set_toFin c.p r q x

theorem rt_setT (c : AsCore) (r q : TReg) (a : Word) : (c.setT r a).rt q = if r = q then ⟨a, true⟩ else c.rt q :=
  get_set_toFin (w := 2) c.t r q ⟨a, true⟩

theorem setG_p (c : AsCore) (r : GReg) (x : TW) : (c.setG r x).p = c.p := by unfold AsCore.setG; split <;> rfl
theorem setG_t (c : AsCore) (r : GReg) (x : TW) : (c.setG r x).t = c.t := by unfold AsCore.setG; split <;> rfl
theorem setP_g (c : AsCore) (r : PReg) (x : TB) : (c.setP r x).g = c.g := by unfold AsCore.setP; split <;> rfl
theorem setP_t (c : AsCore) (r : PReg) (x : TB) : (c.setP r x).t = c.t := by unfold AsCore.setP; split <;> rfl

/-- R14, R38: a write changes what its destination shows and nothing else. -/
theorem shown_land (c : AsCore) (x : Pend) (d : Dest) : (c.land x).shown d = if x.dest = d then landedAs x.val x.psn d else c.shown d := by
  obtain ⟨rem, dest, v, psn⟩ := x
  cases dest with
  | g n =>
    cases d with
    | g r => simp only [AsCore.land, AsCore.shown, landedAs, rg_setG, Dest.g.injEq]; split <;> rfl
    | p r => simp [AsCore.land, AsCore.shown, AsCore.rp, setG_p]
    | t r => simp [AsCore.land, AsCore.shown, AsCore.rt, setG_t]
  | p n =>
    cases d with
    | p r => simp only [AsCore.land, AsCore.shown, landedAs, rp_setP, Dest.p.injEq]; split <;> rfl
    | g r => simp [AsCore.land, AsCore.shown, AsCore.rg, setP_g]
    | t r => simp [AsCore.land, AsCore.shown, AsCore.rt, setP_t]
  | t n =>
    cases d with
    | t r => simp only [AsCore.land, AsCore.shown, landedAs, rt_setT, Dest.t.injEq]; split <;> rfl
    | g r => rfl
    | p r => rfl

/-- Writes that land one after another leave a destination that none of them names. -/
theorem shown_foldl_land (d : Dest) : ∀ (l : List Pend) (c : AsCore), (∀ x ∈ l, x.dest ≠ d) → (l.foldl AsCore.land c).shown d = c.shown d
  | [], _, _ => rfl
  | x :: r, c, h => by
    rw [List.foldl_cons, shown_foldl_land d r _ fun y hy => h y (List.mem_cons_of_mem x hy), shown_land,
      if_neg (h x List.mem_cons_self)]

/-! ## The end of a tick (R37, R38) -/

/-- A write's ticks left, a tick later. -/
def Pend.aged (x : Pend) : Pend := { x with rem := x.rem - 1 }

theorem land_infl (c : AsCore) (x : Pend) (l : List Pend) : ({ c with infl := l } : AsCore).land x = { c.land x with infl := l } := by
  unfold AsCore.land AsCore.setG AsCore.setP AsCore.setT
  repeat' split
  all_goals rfl

theorem foldl_land_infl (l' : List Pend) : ∀ (l : List Pend) (c : AsCore),
    l.foldl AsCore.land { c with infl := l' } = { l.foldl AsCore.land c with infl := l' }
  | [], _ => rfl
  | x :: r, c => by rw [List.foldl_cons, land_infl, foldl_land_infl l' r, List.foldl_cons]

/-- R37: the writes whose last tick this is. -/
def AsCore.due (c : AsCore) : List Pend := (c.infl.map Pend.aged).filter fun x => x.rem = 0

/-- The writes that stay in flight. -/
def AsCore.flying (c : AsCore) : List Pend := (c.infl.map Pend.aged).filter fun x => x.rem ≠ 0

theorem endTick_eq (c : AsCore) : c.endTick = { c.due.foldl AsCore.land c with infl := c.flying } :=
  foldl_land_infl _ _ c

theorem shown_endTick (c : AsCore) (d : Dest) : c.endTick.shown d = (c.due.foldl AsCore.land c).shown d := by
  rw [endTick_eq]
  cases d <;> rfl

/-- R37: a tick in which no write lands on a destination leaves it. -/
theorem shown_endTick_of_none_due {c : AsCore} {d : Dest} (h : ∀ x ∈ c.infl, x.rem ≤ 1 → x.dest ≠ d) : c.endTick.shown d = c.shown d := by
  rw [shown_endTick, shown_foldl_land]
  intro x hx
  simp only [AsCore.due, List.mem_filter, List.mem_map, decide_eq_true_eq] at hx
  obtain ⟨⟨y, hy, rfl⟩, hrem⟩ := hx
  exact h y hy (by simp only [Pend.aged] at hrem; omega)

/-- R37: a write with ticks left behind all others only grows a tick older. -/
theorem endTick_push (c : AsCore) (n : Nat) (d : Dest) (v : Word) (psn : Bool) :
    (c.push (n + 2) d v psn).endTick = c.endTick.push (n + 1) d v psn := by
  rw [endTick_eq, endTick_eq]
  have hdue : (c.push (n + 2) d v psn).due = c.due := by simp [AsCore.due, AsCore.push, Pend.aged]
  have hflying : (c.push (n + 2) d v psn).flying = c.flying ++ [⟨n + 1, d, v, psn⟩] := by simp [AsCore.flying, AsCore.push, Pend.aged]
  rw [hdue, hflying]
  unfold AsCore.push
  rw [foldl_land_infl]

theorem iterate_endTick_push (c : AsCore) (lat : Nat) (d : Dest) (v : Word) (psn : Bool) : ∀ n, n < lat →
    AsCore.endTick^[n] (c.push lat d v psn) = (AsCore.endTick^[n] c).push (lat - n) d v psn
  | 0, _ => rfl
  | n + 1, h => by
    rw [Function.iterate_succ_apply', Function.iterate_succ_apply', iterate_endTick_push c lat d v psn n (by omega)]
    obtain ⟨k, rfl⟩ : ∃ k, lat = n + (k + 2) := ⟨lat - n - 2, by omega⟩
    rw [show n + (k + 2) - n = k + 2 by omega, endTick_push, show n + (k + 2) - (n + 1) = k + 1 by omega]

/-- R37: until its last tick a write in flight shows nowhere. -/
theorem shown_push_before (c : AsCore) {lat n : Nat} (d : Dest) (v : Word) (psn : Bool) (h : n < lat) (e : Dest) :
    (AsCore.endTick^[n] (c.push lat d v psn)).shown e = (AsCore.endTick^[n] c).shown e := by
  rw [iterate_endTick_push c lat d v psn n h]
  cases e <;> rfl

/-- R37, R38: in its last tick the youngest write lands after the others. -/
theorem shown_push_landed (c : AsCore) {lat : Nat} (d : Dest) (v : Word) (psn : Bool) (h : 1 ≤ lat) :
    (AsCore.endTick^[lat] (c.push lat d v psn)).shown d = landedAs v psn d := by
  obtain ⟨n, rfl⟩ : ∃ n, lat = n + 1 := ⟨lat - 1, by omega⟩
  rw [Function.iterate_succ_apply', iterate_endTick_push c (n + 1) d v psn n (by omega), show n + 1 - n = 1 by omega, shown_endTick]
  generalize AsCore.endTick^[n] c = e
  have hdue : (e.push 1 d v psn).due = e.due ++ [⟨0, d, v, psn⟩] := by simp [AsCore.due, AsCore.push, Pend.aged]
  rw [hdue, List.foldl_append, List.foldl_cons, List.foldl_nil, shown_land, if_pos rfl]

theorem rg_of_shown {c e : AsCore} {r : GReg} (h : c.shown (.g r) = e.shown (.g r)) : c.rg r = e.rg r := Sum.inl.inj h
theorem rp_of_shown {c e : AsCore} {r : PReg} (h : c.shown (.p r) = e.shown (.p r)) : c.rp r = e.rp r := Sum.inl.inj (Sum.inr.inj h)
theorem rt_of_shown {c e : AsCore} {r : TReg} (h : c.shown (.t r) = e.shown (.t r)) : c.rt r = e.rt r := Sum.inr.inj (Sum.inr.inj h)

/-- R37, R38: a g register but g0 takes value and tag. -/
theorem rg_push_landed (c : AsCore) {lat : Nat} {r : GReg} (v : Word) (psn : Bool) (h : 1 ≤ lat) (hr : r ≠ 0) :
    (AsCore.endTick^[lat] (c.push lat (.g r) v psn)).rg r = ⟨v, psn⟩ :=
  (Sum.inl.inj (shown_push_landed c (.g r) v psn h)).trans (if_neg hr)

/-- R37, R38: a predicate but p0 takes the value's bit 0 and the tag. -/
theorem rp_push_landed (c : AsCore) {lat : Nat} {r : PReg} (v : Word) (psn : Bool) (h : 1 ≤ lat) (hr : r ≠ 0) :
    (AsCore.endTick^[lat] (c.push lat (.p r) v psn)).rp r = ⟨v.getLsbD 0, psn⟩ :=
  (Sum.inl.inj (Sum.inr.inj (shown_push_landed c (.p r) v psn h))).trans (if_neg hr)

/-- R37, R128: a target register takes the address and is valid. -/
theorem rt_push_landed (c : AsCore) {lat : Nat} (r : TReg) (v : Word) (psn : Bool) (h : 1 ≤ lat) :
    (AsCore.endTick^[lat] (c.push lat (.t r) v psn)).rt r = ⟨v, true⟩ :=
  Sum.inr.inj (Sum.inr.inj (shown_push_landed c (.t r) v psn h))

end Sys2Proof.Machine
end

section
/-! SUPPORT. O12: how a write in flight lands in the ES (R17 to R19, R37, R38, R41, R163). -/

namespace Sys2Proof.Machine

open Sys2Proof.Claims

/-! ## The end of an ES tick -/

/-- A write's ticks left, a tick later. -/
def EPend.aged (x : EPend) : EPend := { x with rem := x.rem - 1 }

theorem filter_aged_eq_zero {l : List EPend} (h : ∀ x ∈ l, 1 ≤ x.rem) :
    ((l.map EPend.aged).filter fun x => x.rem = 0) = (l.filter (·.rem = 1)).map EPend.aged := by
  rw [List.filter_map]
  refine congrArg _ (List.filter_congr fun x hx => ?_)
  have := h x hx
  exact decide_eq_decide.mpr (by simp only [EPend.aged]; omega)

theorem filter_aged_ne_zero {l : List EPend} (h : ∀ x ∈ l, 1 ≤ x.rem) :
    ((l.map EPend.aged).filter fun x => x.rem ≠ 0) = (l.filter (·.rem ≠ 1)).map EPend.aged := by
  rw [List.filter_map]
  refine congrArg _ (List.filter_congr fun x hx => ?_)
  have := h x hx
  exact decide_eq_decide.mpr (by simp only [EPend.aged]; omega)

/-- R37: the writes due land in issue order; the others grow a tick older. -/
theorem esEndTick_eq {e : EsSt} (h : ∀ x ∈ e.infl, 1 ≤ x.rem) :
    e.endTick = (e.infl.filter (·.rem = 1)).foldl EsSt.land { e with infl := (e.infl.filter (·.rem ≠ 1)).map EPend.aged } := by
  unfold EsSt.endTick
  change (List.filter (fun x => x.rem = 0) (e.infl.map EPend.aged)).foldl EsSt.land
    { e with infl := List.filter (fun x => x.rem ≠ 0) (e.infl.map EPend.aged) } = _
  rw [filter_aged_eq_zero h, filter_aged_ne_zero h, List.foldl_map]
  rfl

/-- R37: one write in flight alone, before its last tick. -/
theorem iterate_esEndTick_alone (e : EsSt) (d : EPend) : ∀ n, n < d.rem →
    EsSt.endTick^[n] { e with infl := [d] } = { e with infl := [{ d with rem := d.rem - n }] }
  | 0, _ => rfl
  | n + 1, h => by
    rw [Function.iterate_succ_apply', iterate_esEndTick_alone e d n (by omega), esEndTick_eq (by simp; omega)]
    simp [EPend.aged, show ¬ d.rem - n = 1 by omega, show d.rem - n - 1 = d.rem - (n + 1) by omega]

/-- R37: it lands at the end of its last tick. -/
theorem iterate_esEndTick_landed {e : EsSt} {d : EPend} (he : e.infl = []) (h : 1 ≤ d.rem) :
    EsSt.endTick^[d.rem] { e with infl := [d] } = e.land d := by
  obtain ⟨n, hn⟩ : ∃ n, d.rem = n + 1 := ⟨d.rem - 1, by omega⟩
  rw [hn, Function.iterate_succ_apply', iterate_esEndTick_alone e d n (by omega), esEndTick_eq (by simp; omega)]
  have hlast : d.rem - n = 1 := by omega
  simp only [hlast, List.filter_cons_of_pos, decide_true, List.filter_nil, List.foldl_cons, List.foldl_nil]
  have hrest : { e with infl := [] } = e := by rw [← he]
  simp [hrest]
  rfl

/-! ## What a landing write leaves (R41, R163) -/

/-- Nothing but v registers differs. -/
theorem landV_frame : ∀ (l : List EPart) (n : Nat) (e : EsSt), e.landV n l = { e with v := (e.landV n l).v }
  | [], _, _ => rfl
  | p :: r, n, e => by
    rw [EsSt.landV, landV_frame r]

/-- Nothing but masks differs. -/
theorem landM_frame : ∀ (l : List EPart) (n : Nat) (e : EsSt), e.landM n l = { e with m := (e.landM n l).m }
  | [], _, _ => rfl
  | p :: r, n, e => by
    rw [EsSt.landM, landM_frame r]
    split <;> rfl

/-- Bytes of ones, one for each number of which `f` holds. -/
def onesSum (f : Nat → Bool) (n : Nat) : Nat := ((List.range n).map fun i => if f i then 255 * 2 ^ (8 * i) else 0).sum

theorem onesSum_succ (f : Nat → Bool) (n : Nat) : onesSum f (n + 1) = 2 ^ (8 * n) * (if f n then 255 else 0) + onesSum f n := by
  simp only [onesSum, List.range_succ, List.map_append, List.sum_append, List.map_cons, List.map_nil, List.sum_cons, List.sum_nil]
  split <;> ring

theorem onesSum_lt (f : Nat → Bool) : ∀ n, onesSum f n < 2 ^ (8 * n)
  | 0 => Nat.one_pos
  | n + 1 => by
    have ih := onesSum_lt f n
    rw [onesSum_succ, show 8 * (n + 1) = 8 * n + 8 by ring, pow_add]
    split <;> omega

theorem testBit_onesSum (f : Nat → Bool) : ∀ n j, (onesSum f n).testBit j = (decide (j < 8 * n) && f (j / 8))
  | 0, j => by simp [onesSum]
  | n + 1, j => by
    rw [onesSum_succ, Nat.testBit_two_pow_mul_add _ (onesSum_lt f n), testBit_onesSum f n]
    by_cases hj : j < 8 * n
    · simp [hj, show j < 8 * (n + 1) by omega]
    · rw [if_neg hj]
      by_cases hk : j < 8 * (n + 1)
      · rw [show j / 8 = n by omega]
        have hbit : Nat.testBit 255 (j - 8 * n) = true := by
          rw [show 255 = 2 ^ 8 - 1 by rfl, Nat.testBit_two_pow_sub_one]
          exact decide_eq_true (by omega)
        cases hf : f n <;> simp [hbit, hk]
      · have hbit : Nat.testBit 255 (j - 8 * n) = false := by
          rw [show 255 = 2 ^ 8 - 1 by rfl, Nat.testBit_two_pow_sub_one]
          exact decide_eq_false (by omega)
        cases hf : f n <;> simp [hbit, hk]

theorem getLsbD_beBits (be : BitVec 256) {j : Nat} (hj : j < 2048) : (beBits be).getLsbD j = be.getLsbD (j / 8) := by
  change (BitVec.ofNat 2048 (onesSum be.getLsbD 256)).getLsbD j = _
  rw [BitVec.getLsbD_ofNat, testBit_onesSum]
  simp [hj]

/-- R163: the bytes a part enables, and no others, take its value. -/
theorem land_bytes (r : EReg) (x : EPart) {b : Nat} (hb : b < 256) :
    (r.land x).bits.extractLsb' (8 * b) 8 = if x.be.getLsbD b then x.val.extractLsb' (8 * b) 8 else r.bits.extractLsb' (8 * b) 8 := by
  refine BitVec.eq_of_getLsbD_eq fun i hi => ?_
  have hj : 8 * b + i < 2048 := by omega
  have hdiv : (8 * b + i) / 8 = b := by omega
  unfold EReg.land
  rw [BitVec.getLsbD_extractLsb', BitVec.getLsbD_or, BitVec.getLsbD_and, BitVec.getLsbD_and, BitVec.getLsbD_not, getLsbD_beBits _ hj, hdiv]
  cases hbe : x.be.getLsbD b <;> simp [hi, hj]

/-- R163: a part's tag is taken alone or ORed. -/
theorem land_psn (r : EReg) (x : EPart) : (r.land x).psn = if x.alone then x.psn else r.psn || x.psn := rfl

/-! ## v registers (R17, R163) -/

/-- The first part of a write has landed. -/
def EsSt.landOneV (e : EsSt) (n : Nat) (x : EPart) : EsSt :=
  { e with v := e.v.set (BitVec.ofNat 5 n).toFin ((e.v.get (BitVec.ofNat 5 n).toFin).land x) }

theorem ofNat_inj {w m n : Nat} (hm : m < 2 ^ w) (hn : n < 2 ^ w) : BitVec.ofNat w m = BitVec.ofNat w n ↔ m = n := by
  rw [← BitVec.toNat_inj, BitVec.toNat_ofNat, BitVec.toNat_ofNat, Nat.mod_eq_of_lt hm, Nat.mod_eq_of_lt hn]

theorem vn_landOneV (e : EsSt) (x : EPart) {n m : Nat} (hn : n < 32) (hm : m < 32) :
    (e.landOneV n x).vn m = if n = m then (e.vn n).land x else e.vn m :=
  (get_set_toFin (w := 5) e.v (BitVec.ofNat 5 n) (BitVec.ofNat 5 m) _).trans (if_congr (ofNat_inj hn hm) rfl rfl)

theorem vn_landV_other {m : Nat} (hm : m < 32) : ∀ (l : List EPart) (n : Nat) (e : EsSt), n + l.length ≤ 32 →
    (m < n ∨ n + l.length ≤ m) → (e.landV n l).vn m = e.vn m
  | [], _, _, _, _ => rfl
  | x :: r, n, e, hl, hout => by
    rw [List.length_cons] at hl hout
    have step : (e.landV n (x :: r)).vn m = (e.landOneV n x).vn m := vn_landV_other hm r (n + 1) _ (by omega) (by omega)
    rw [step, vn_landOneV e x (by omega) hm, if_neg (by omega)]

theorem vn_landV_part : ∀ (l : List EPart) (n k : Nat) (x : EPart) (e : EsSt), n + l.length ≤ 32 → l[k]? = some x →
    (e.landV n l).vn (n + k) = (e.vn (n + k)).land x
  | [], _, _, _, _, _, h => by simp at h
  | y :: r, n, 0, x, e, hl, h => by
    rw [List.length_cons] at hl
    obtain rfl : y = x := by simpa using h
    have step : (e.landV n (y :: r)).vn n = (e.landOneV n y).vn n := vn_landV_other (by omega) r (n + 1) _ (by omega) (by omega)
    rw [Nat.add_zero, step, vn_landOneV e y (by omega) (by omega), if_pos rfl]
  | y :: r, n, k + 1, x, e, hl, h => by
    rw [List.length_cons] at hl
    rw [List.getElem?_cons_succ] at h
    have hk : k < r.length := (List.getElem?_eq_some_iff.mp h).1
    have step : (e.landV n (y :: r)).vn (n + 1 + k) = ((e.landOneV n y).vn (n + 1 + k)).land x :=
      vn_landV_part r (n + 1) k x _ (by omega) h
    rw [show n + (k + 1) = n + 1 + k by omega, step, vn_landOneV e y (by omega) (by omega), if_neg (by omega)]

/-! ## Masks (R17, R38, R163) -/

theorem rm_zero (e : EsSt) : e.rm 0 = ⟨BitVec.allOnes 2048, false⟩ := if_pos rfl

/-- One part of a write lands in the masks. -/
theorem rm_landM_one (e : EsSt) (n : Nat) (x : EPart) (m : MReg) (hm : m ≠ 0) :
    (e.landM n [x]).rm m = if n % 8 = m.toNat then (e.rm m).land x else e.rm m := by
  have hmod : (BitVec.ofNat 3 n).toNat = n % 8 := BitVec.toNat_ofNat n 3
  have hm0 : m.toNat ≠ 0 := fun h => hm (BitVec.eq_of_toNat_eq h)
  rw [EsSt.landM, EsSt.landM, EsSt.rm, EsSt.rm]
  rw [if_neg hm, if_neg hm]
  by_cases hn : n % 8 = 0
  · rw [if_pos hn, if_neg (by omega)]
  · rw [if_neg hn]
    refine (get_set_toFin (w := 3) e.m (BitVec.ofNat 3 n) m _).trans ?_
    by_cases hnm : BitVec.ofNat 3 n = m
    · rw [if_pos hnm, hnm, if_pos (by rw [← hmod, hnm])]
    · rw [if_neg hnm, if_neg fun h => hnm (BitVec.eq_of_toNat_eq (hmod.trans h))]

/-! ## A write of each class -/

theorem esLand_v {e : EsSt} {d : EPend} (h : d.cls = .v) : e.land d = { e.landV d.num d.parts with flags := e.flags ||| d.flg } := by
  unfold EsSt.land
  rw [h, landV_frame]

theorem esLand_m {e : EsSt} {d : EPend} (h : d.cls = .m) : e.land d = { e.landM d.num d.parts with flags := e.flags ||| d.flg } := by
  unfold EsSt.land
  rw [h, landM_frame]

/-- R18: the part of a write to SH. -/
def EPend.head (d : EPend) : EPart := d.parts.headD ⟨0, 0, false, false⟩

theorem esLand_sh {e : EsSt} {d : EPend} (h : d.cls = .sh) : e.land d =
    { e with sh := shKept (overlay e.sh (d.head.val.extractLsb' 0 64) (d.head.be.extractLsb' 0 8)), flags := e.flags ||| d.flg } := by
  unfold EsSt.land
  rw [h]
  rfl

theorem esLand_flags {e : EsSt} {d : EPend} (h : d.cls = .flags) : e.land d = { e with
    flags := e.flags ||| (overlay 0 (d.head.val.extractLsb' 0 64) (d.head.be.extractLsb' 0 8)).extractLsb' 0 6 ||| d.flg } := by
  unfold EsSt.land
  rw [h]
  rfl

/-- R37, R41: what no landing write changes, and what a write of another class leaves. -/
theorem esLand_frame (e : EsSt) (d : EPend) : (e.land d).infl = e.infl ∧ (e.land d).pc = e.pc ∧ (e.land d).rep = e.rep
    ∧ (e.land d).run = e.run ∧ (d.cls ≠ .flags → (e.land d).flags = e.flags ||| d.flg) ∧ (d.cls ≠ .v → (e.land d).v = e.v)
    ∧ (d.cls ≠ .m → (e.land d).m = e.m) ∧ (d.cls ≠ .sh → (e.land d).sh = e.sh) := by
  cases h : d.cls with
  | v =>
    rw [esLand_v h, landV_frame]
    exact ⟨rfl, rfl, rfl, rfl, fun _ => rfl, fun h => absurd rfl h, fun _ => rfl, fun _ => rfl⟩
  | m =>
    rw [esLand_m h, landM_frame]
    exact ⟨rfl, rfl, rfl, rfl, fun _ => rfl, fun _ => rfl, fun h => absurd rfl h, fun _ => rfl⟩
  | sh =>
    rw [esLand_sh h]
    exact ⟨rfl, rfl, rfl, rfl, fun _ => rfl, fun _ => rfl, fun _ => rfl, fun h => absurd rfl h⟩
  | flags =>
    rw [esLand_flags h]
    exact ⟨rfl, rfl, rfl, rfl, fun h => absurd rfl h, fun _ => rfl, fun _ => rfl, fun _ => rfl⟩

/-- Under a full mask a word is replaced. -/
theorem overlay_full (old new : Word) {be : BitVec 256} (h : ∀ b, b < 8 → be.getLsbD b = true) :
    overlay old new (be.extractLsb' 0 8) = new := by
  have hbe : be.extractLsb' 0 8 = 0xFF := by
    refine BitVec.eq_of_getLsbD_eq fun i hi => ?_
    rw [BitVec.getLsbD_extractLsb', Nat.zero_add, h i hi]
    interval_cases i <;> rfl
  have hones : maskBits 0xFF = BitVec.allOnes 64 := by decide
  rw [hbe, overlay, hones, BitVec.not_allOnes, BitVec.and_zero, BitVec.and_allOnes, BitVec.zero_or]

/-- R18: SH keeps bits 19:0. -/
theorem esLand_sh_full {e : EsSt} {d : EPend} {x : EPart} (hx : d.parts = [x]) (h : ∀ b, b < 8 → x.be.getLsbD b = true)
    (hc : d.cls = .sh) : (e.land d).sh = x.val.extractLsb' 0 64 &&& 0xFFFFF := by
  have hhead : d.head = x := by rw [EPend.head, hx]; rfl
  rw [esLand_sh hc, hhead, overlay_full _ _ h]
  rfl

theorem esLand_flags_full {e : EsSt} {d : EPend} {x : EPart} (hx : d.parts = [x]) (h : ∀ b, b < 8 → x.be.getLsbD b = true)
    (hc : d.cls = .flags) : (e.land d).flags = e.flags ||| x.val.extractLsb' 0 6 ||| d.flg := by
  have hhead : d.head = x := by rw [EPend.head, hx]; rfl
  rw [esLand_flags hc, hhead, overlay_full _ _ h]
  have hlow : (x.val.extractLsb' 0 64).extractLsb' 0 6 = x.val.extractLsb' 0 6 := by
    refine BitVec.eq_of_getLsbD_eq fun i hi => ?_
    simp [hi]
  rw [hlow]

/-- R17 to R19, R37, R38, R41, R163. -/
theorem esLands : EsLands := by
  unfold EsLands
  refine ⟨fun e h => esEndTick_eq h, fun e d n he h => ⟨iterate_esEndTick_landed he h, iterate_esEndTick_alone e d n⟩, esLand_frame,
    fun e d hc hlen => ⟨fun k x hx => ?_, fun n hn hout => ?_⟩, fun e d x n hc hx => ⟨fun hn hnum => ?_, fun hnum => ?_, rm_zero _⟩,
    fun e d x hx hfull => ⟨esLand_sh_full hx hfull, esLand_flags_full hx hfull⟩⟩
  · rw [esLand_v hc]
    have hpart := vn_landV_part d.parts d.num k x e hlen hx
    exact ⟨fun b hb => (congrArg (fun r : EReg => r.bits.extractLsb' (8 * b) 8) hpart).trans (land_bytes _ x hb),
      (congrArg EReg.psn hpart).trans (land_psn _ x)⟩
  · rw [esLand_v hc]
    exact vn_landV_other hn d.parts d.num e hlen hout
  · rw [esLand_m hc, hx]
    have hlt := n.isLt
    have hpart := (rm_landM_one e d.num x n hn).trans (if_pos (by omega))
    exact ⟨fun b hb => (congrArg (fun r : EReg => r.bits.extractLsb' (8 * b) 8) hpart).trans (land_bytes _ x hb),
      (congrArg EReg.psn hpart).trans (land_psn _ x)⟩
  · by_cases hn : n = 0
    · rw [hn, rm_zero, rm_zero]
    · rw [esLand_m hc, hx]
      exact (rm_landM_one e d.num x n hn).trans (if_neg hnum)

end Sys2Proof.Machine

namespace Sys2Proof.Proofs

open Sys2Proof.Machine Sys2Proof.Claims

/-- Settles O12: a write pushed into the pipeline stays last in it until its last tick, in which it lands after every other. -/
theorem writeLandsAfterLatency : Obligations.WriteLandsAfterLatency := by
  unfold Obligations.WriteLandsAfterLatency
  refine ⟨fun c lat r v psn hlat hr _ _ => rg_push_landed c v psn hlat hr,
    fun c lat n r v psn h => rg_of_shown (shown_push_before c _ v psn h _), fun c n => rg_zero _,
    fun c r h => rg_of_shown (shown_endTick_of_none_due h), fun c r h => rp_of_shown (shown_endTick_of_none_due h),
    fun c r h => rt_of_shown (shown_endTick_of_none_due h), fun c lat d v psn hlat _ _ => ?_,
    fun c lat n d v psn h => ⟨fun r => rg_of_shown (shown_push_before c d v psn h _), fun r => rp_of_shown (shown_push_before c d v psn h _),
      fun r => rt_of_shown (shown_push_before c d v psn h _)⟩, esLands⟩
  cases d with
  | g r => exact rg_push_landed c v psn hlat
  | p r => exact rp_push_landed c v psn hlat
  | t r => exact rt_push_landed c r v psn hlat

end Sys2Proof.Proofs
end

section
/-! SUPPORT. Semaphores (R22, R24): what a write, a signal and an error entry of one leave; O30. -/

namespace Sys2Proof.Machine

open Sys2Proof.Claims

/-! ## An instruction that changes its cell and issues -/

/-- A change of the cell that neither reads nor writes the AS. -/
def LeavesAs (c : Cell) (f : Cell → Cell) : Prop := ∀ a, f { c with as := a } = { f c with as := a }

theorem LeavesAs.as_eq {c : Cell} {f : Cell → Cell} (h : LeavesAs c f) : (f c).as = c.as := by
  have := congrArg Cell.as (h c.as)
  exact this

/-- An instruction that changes its cell beside the AS, then issues. -/
theorem retire_updFocus_core {s : State} {f : Cell → Cell} (h : LeavesAs s.cell f) :
    (s.updFocus f).retire.core = s.core.advance.endTick := by
  rw [retire_core, State.core, updFocus_cell, h.as_eq]
  rfl

theorem retire_updFocus_moves {s : State} {f : Cell → Cell} (h : LeavesAs s.cell f) : Moves s (s.updFocus f).retire f := by
  refine ⟨?_, by simp, by simp, retire_sameModule (s.updFocus f), fun a => by simp⟩
  rw [retire_updFocus_core h, retire_cell, State.core, updFocus_cell, h.as_eq]
  exact (h _).symm

theorem retire_onlyCore (s : State) : OnlyCore s s.retire := by
  refine ⟨?_, by simp, by simp, retire_sameModule s, fun a => by simp⟩
  rw [retire_cell, retire_core]

theorem writes_of_exec {i : Instr} {s : State} {lat : Nat} {d : Dest} {v : Word} {psn : Bool}
    (h : exec i s = .next (s.writeReg lat d v psn)) : Writes i s lat d v psn := by
  refine ⟨_, h, writeReg_core s lat d v psn, ?_, by simp, by simp, writeReg_sameModule s lat d v psn, fun a => by simp⟩
  rw [writeReg_cell, writeReg_core]

theorem passes_of_exec {i : Instr} {s : State} (h : exec i s = .next s.retire) : Passes i s := ⟨_, h, retire_core s, retire_onlyCore s⟩

/-! ## Reading a semaphore after a write -/

theorem sem_congr {s t : State} (h : t.cell.sems = s.cell.sems) (n : SemNo) : t.sem n = s.sem n := by
  unfold State.sem
  rw [h]

theorem toNat_lt_of_ne {n : SemNo} (h : n ≠ 63) : n.toNat < 63 := by
  have hne : n.toNat ≠ 63 := fun hn => h (BitVec.eq_of_toNat_eq hn)
  omega

theorem toNat_lt_of_sem {s : State} {n : SemNo} {x : Sem} (h : s.sem n = some x) : n.toNat < 63 := by
  unfold State.sem at h
  split at h
  · assumption
  · cases h

/-- R22: field 63 names no semaphore. -/
theorem sem_63 (s : State) : s.sem 63 = none := rfl

theorem setSem_eq (s : State) (n : SemNo) (x : Sem) : s.setSem n x = s.updFocus fun c => { c with sems := (s.cell.setSem n x).sems } := by
  unfold State.setSem State.updFocus Cell.setSem
  split <;> rfl

theorem sem_setSem_same {s : State} {n : SemNo} (x : Sem) (h : n.toNat < 63) : (s.setSem n x).sem n = some x := by
  unfold State.sem
  rw [dif_pos h, State.setSem, updFocus_cell, Cell.setSem, dif_pos h]
  exact congrArg some (Vector.getElem_set_self h)

theorem sem_setSem_other (s : State) {n m : SemNo} (x : Sem) (h : m ≠ n) : (s.setSem n x).sem m = s.sem m := by
  have hne : n.toNat ≠ m.toNat := fun e => h (BitVec.eq_of_toNat_eq e.symm)
  unfold State.sem
  split
  · next hm =>
    rw [State.setSem, updFocus_cell, Cell.setSem]
    split
    · exact congrArg some (Vector.getElem_set_ne (by assumption) hm hne)
    · rfl
  · rfl

/-! ## Signals (R22, R24) -/

theorem signal_eq (s : State) (n : SemNo) :
    s.signal n = s.updFocus fun c => { c with sems := (s.signal n).cell.sems, ovfs := overflowsOf s n } := by
  unfold State.signal overflowsOf
  cases hx : s.sem n with
  | none => simp [State.updFocus]
  | some x =>
    dsimp only
    rw [setSem_eq]
    by_cases ho : x = .count 0xFFFF
    · subst ho; rfl
    · rw [if_neg ho, if_neg (by simpa using ho)]; rfl

theorem sem_signal_other (s : State) {n m : SemNo} (h : m ≠ n) : (s.signal n).sem m = s.sem m := by
  unfold State.signal
  cases s.sem n with
  | none => rfl
  | some x =>
    have hset := sem_setSem_other s x.signal h
    dsimp only
    split
    · exact (sem_congr rfl m).trans hset
    · exact hset

theorem sem_signal_same (s : State) (n : SemNo) : (s.signal n).sem n = (s.sem n).map Sem.signal := by
  unfold State.signal
  cases hx : s.sem n with
  | none => exact hx
  | some x =>
    have hset := sem_setSem_same (s := s) x.signal (toNat_lt_of_sem hx)
    dsimp only
    split
    · exact (sem_congr rfl n).trans hset
    · exact hset

end Sys2Proof.Machine

namespace Sys2Proof.Proofs

open Sys2Proof.Machine Sys2Proof.Claims

/-- R140: SEMS with nothing in flight. -/
theorem sems_signals {s : State} {o : OpSem} (hg : GuardOn s o.pg) (hs : o.s ≠ 63) (hm : s.cell.mops = []) :
    exec (.sems o) s = .next (s.signal o.s).retire := by
  obtain ⟨htag, htrue⟩ := hg
  change execSems o s = _
  rw [execSems, guarded_on htag htrue, if_neg hs, if_pos (by simp [hm])]

/-- R140: SEMS behind operations in flight joins them. -/
theorem sems_held {s : State} {o : OpSem} (hg : GuardOn s o.pg) (hs : o.s ≠ 63) (hm : s.cell.mops ≠ []) :
    exec (.sems o) s = .next (s.addOp (.signal o.s) 0 .cell 0 (some (spadPlace s.cell.id 0)) none none).retire := by
  obtain ⟨htag, htrue⟩ := hg
  change execSems o s = _
  rw [execSems, guarded_on htag htrue, if_neg hs, if_neg (by simpa using hm)]

/-- R139: SEMW in normal phase. -/
theorem semw_of_count {s : State} {o : OpSem} {n : BitVec 16} (hg : GuardOn s o.pg) (hc : Checked s) (hs : s.sem o.s = some (.count n)) :
    exec (.semw o) s = .next (if n = 0 then s else (s.setSem o.s (.count (n - 1))).retire) := by
  obtain ⟨htag, htrue⟩ := hg
  change execSemw o s = _
  rw [execSemw, guarded_on htag htrue, hs]
  dsimp only
  rw [afterChecks_on hc]

/-- R142: SEMW in error phase. -/
theorem semw_of_err {s : State} {o : OpSem} {c : Byte} (hg : GuardOn s o.pg) (hs : s.sem o.s = some (.err c)) :
    exec (.semw o) s = .next (s.trap cSem (semErrVal o.s c)) := by
  obtain ⟨htag, htrue⟩ := hg
  change execSemw o s = _
  rw [execSemw, guarded_on htag htrue, hs]

/-- R22: semaphore 63 makes SEMS, SEMW and SEMDROP a tick. -/
theorem sem63_passes {s : State} {o : OpSem} (hg : GuardOn s o.pg) (hs : o.s = 63) :
    Passes (.sems o) s ∧ Passes (.semw o) s ∧ Passes (.semdrop o) s := by
  obtain ⟨htag, htrue⟩ := hg
  refine ⟨passes_of_exec ?_, passes_of_exec ?_, passes_of_exec ?_⟩
  · change execSems o s = _
    rw [execSems, guarded_on htag htrue, if_pos hs]
  · change execSemw o s = _
    rw [execSemw, guarded_on htag htrue, hs, sem_63]
  · change execSemdrop o s = _
    rw [execSemdrop, guarded_on htag htrue, if_pos hs]

/-- R141: SEMDROP once no open command signals the semaphore. -/
theorem semdrop_clears {s : State} {o : OpSem} (hg : GuardOn s o.pg) (hc : Checked s) (hs : o.s ≠ 63) (hp : s.sigPending o.s = false) :
    exec (.semdrop o) s = .next (s.setSem o.s (.count 0)).retire := by
  obtain ⟨htag, htrue⟩ := hg
  change execSemdrop o s = _
  rw [execSemdrop, guarded_on htag htrue, if_neg hs, afterChecks_on hc, if_neg (by simp [hp])]

/-- An instruction that writes one semaphore and issues. -/
theorem setSem_retire_result (s : State) {n : SemNo} (x : Sem) (hn : n.toNat < 63) : let t := (s.setSem n x).retire
    t.core = s.core.advance.endTick ∧ Moves s t (fun c => { c with sems := t.cell.sems }) ∧ (∀ m, m ≠ n → t.sem m = s.sem m)
      ∧ t.sem n = some x := by
  intro t
  have hsem : ∀ m, t.sem m = (s.setSem n x).sem m := fun m => sem_congr (by simp [t]) m
  refine ⟨?_, ?_, fun m hm => (hsem m).trans (sem_setSem_other s x hm), (hsem n).trans (sem_setSem_same x hn)⟩
  · simp only [t, setSem_eq]
    exact retire_updFocus_core fun a => rfl
  · have hmoves : Moves s t fun c => { c with sems := (s.cell.setSem n x).sems } := by
      rw [show t = _ from congrArg State.retire (setSem_eq s n x)]
      exact retire_updFocus_moves fun a => rfl
    have hsems : t.cell.sems = (s.cell.setSem n x).sems := by simp [t, State.setSem]
    rw [hsems]
    exact hmoves

/-- Settles O30: SEMS is a signal, SEMW and SEMDROP a write of one semaphore, of an instruction that issues. -/
theorem semaphoreResult : Obligations.SemaphoreResult := by
  unfold Obligations.SemaphoreResult
  refine ⟨fun s o hg hs hm => ?_, fun s o => sems_held, fun s o n hg hc hs hn => ?_, fun s o hg hc hs => ?_, fun s o c hg hs => semw_of_err hg hs,
    fun s o => sem63_passes, fun s o hg hc hs hp => ?_, fun s o hg => ?_⟩
  · have hsem : ∀ m, (s.signal o.s).retire.sem m = (s.signal o.s).sem m := fun m => sem_congr (by simp) m
    refine ⟨_, sems_signals hg hs hm, ?_, ?_, fun n hn => (hsem n).trans (sem_signal_other s hn), ?_⟩
    · rw [signal_eq]
      exact retire_updFocus_core fun a => rfl
    · have hsems : (s.signal o.s).retire.cell.sems = (s.signal o.s).cell.sems := by simp
      have hsignal := congrArg State.retire (signal_eq s o.s)
      rw [hsems, hsignal]
      exact retire_updFocus_moves fun a => rfl
    · rw [hsem, sem_signal_same]
      rfl
  · exact ⟨_, (semw_of_count hg hc hs).trans (by rw [if_neg hn]), setSem_retire_result s _ (toNat_lt_of_sem hs)⟩
  · rw [semw_of_count hg hc hs, if_pos rfl]
  · exact ⟨_, semdrop_clears hg hc hs hp, setSem_retire_result s _ (toNat_lt_of_ne hs)⟩
  · obtain ⟨htag, htrue⟩ := hg
    refine writes_of_exec ?_
    change execSemrd o s = _
    rw [execSemrd, guarded_on htag htrue]
    rcases s.sem o.s with _ | ⟨_ | _⟩ <;> rfl

end Sys2Proof.Proofs
end

section
/-! SUPPORT. Traps (R41, R152, R154): what TRAP answers, where it escalates, what it leaves; O34. -/

namespace Sys2Proof.Machine

open Sys2Proof.Claims

/-- R154: TRAP takes its trap. -/
theorem exec_trap {s : State} {o : OpTrap} (hg : GuardOn s o.pg) (hc : Checked s) :
    exec (.trap o) s = .next (s.takeTrap cSoftware (o.imm.zeroExtend 64)) := by
  obtain ⟨htag, htrue⟩ := hg
  change execTrap o s = _
  rw [execTrap, guarded_on htag htrue, trap_now hc]

/-- R41, R152: where a trap cannot be handled it escalates. -/
theorem takeTrap_escalates {s : State} (h : s.cell.as.lvl = .kernel ∨ s.cell.as.sys.tvec = 0 ∨ s.saveArea = none) (c : Nat) (v : Word) :
    s.takeTrap c v = s.escalate c := by
  unfold State.takeTrap
  rcases h with hl | ht | hs
  · rw [if_pos hl]
  · rw [if_pos ht, ite_self]
  · rw [hs, ite_self, ite_self]

/-- R152: a trap that is handled saves the lists and enters the handler. -/
theorem takeTrap_handled {s u : State} {p : Place} (hl : s.cell.as.lvl ≠ .kernel) (ht : s.cell.as.sys.tvec ≠ 0)
    (hs : s.saveArea = some (u, p)) (c : Nat) (v : Word) : s.takeTrap c v = (u.noteSave.savePwl p).enterHandler c v := by
  unfold State.takeTrap
  rw [if_neg hl, if_neg ht, hs]

end Sys2Proof.Machine

namespace Sys2Proof.Proofs

open Sys2Proof.Machine Sys2Proof.Claims

/-- Settles O34: such a trap is the escalation of its cause, which the MS takes as a module reset. -/
theorem trapEscalates : Obligations.TrapEscalates := by
  unfold Obligations.TrapEscalates
  intro s o hg hc hcannot
  rw [exec_trap hg hc, takeTrap_escalates hcannot, State.escalate]
  exact ⟨fun hdie => by rw [if_neg hdie]; rfl, fun hdie => by rw [if_pos hdie]⟩

end Sys2Proof.Proofs
end

section
/-! SUPPORT. The save area (R41): what the trap unit writes there, and that RETT loads the same writes again (R155). -/

namespace Sys2Proof.Machine

open Sys2Proof.Claims

/-! ## Lines that move (R119, R375) change no word of memory -/

/-- Two states that differ, at most, in the lines the caches hold and in the accounts. -/
structure SameButLines (s t : State) : Prop where
  cell : t.cell = s.cell
  parked : t.parked = s.parked
  mem : t.mem = { s.mem with lines := t.mem.lines }

theorem SameButLines.refl (s : State) : SameButLines s s := ⟨rfl, rfl, rfl⟩

theorem SameButLines.trans {s t u : State} (a : SameButLines s t) (b : SameButLines t u) : SameButLines s u :=
  ⟨b.cell.trans a.cell, b.parked.trans a.parked, b.mem.trans (by rw [a.mem])⟩

theorem sameButLines_of_mem {s t : State} (hc : t.cell = s.cell) (hp : t.parked = s.parked) (hm : t.mem = s.mem) : SameButLines s t :=
  ⟨hc, hp, by rw [hm]⟩

theorem chargeLine_sameButLines (s : State) (w : Who) (p : Place) : SameButLines s (s.chargeLine w p) :=
  sameButLines_of_mem (by simp) (by simp) (by simp)

theorem charge_sameButLines (s : State) (c : Option Nat) (col : CellId) (k n : Nat) : SameButLines s (s.charge c col k n) :=
  sameButLines_of_mem (by simp) (by simp) (by simp)

theorem fill_sameButLines (s : State) (h : Cache) (p : Place) : SameButLines s (s.updMem fun m => m.fill h p) := ⟨rfl, rfl, rfl⟩

theorem fetchHost_sameButLines (s : State) (w : Who) (d : Nat) (p : Place) (k : Bool) : SameButLines s (s.fetchHost w d p k) := by
  simp only [State.fetchHost]
  split
  · exact chargeLine_sameButLines s w _
  · split
    · exact (chargeLine_sameButLines s w p).trans ((charge_sameButLines _ _ _ _ _).trans (fill_sameButLines _ _ _))
    · exact chargeLine_sameButLines s w p

/-- R119, R375: a line that an access moves. -/
theorem touchLine_sameButLines (s : State) (w : Who) (c : Cell) (p : Place) : SameButLines s (s.touchLine w c p) := by
  have moved : SameButLines s (if p.loc = 3 then s.fetchHost w c.id.die p (p.cpol = 0) else s.chargeLine w p) := by
    split
    · exact fetchHost_sameButLines s w _ p _
    · exact chargeLine_sameButLines s w p
  simp only [State.touchLine]
  split
  · split
    · exact .refl s
    · split
      · exact moved.trans (fill_sameButLines _ _ _)
      · exact moved
  · exact .refl s

/-- R119: a line that a store takes. -/
theorem touchStore_sameButLines (s : State) (w : Who) (c : Cell) (p : Place) : SameButLines s (s.touchStore w c p) := by
  simp only [State.touchStore]
  split
  · split
    · exact .refl s
    · exact fill_sameButLines _ _ _
  · exact touchLine_sameButLines s w c p

/-- R375: lines reached one by one. -/
theorem eachLine_sameButLines {f : State → Place → State} (hf : ∀ s q, SameButLines s (f s q)) (p : Place) :
    ∀ (l : List Nat) (s : State) (prev : Option Nat), SameButLines s (s.eachLine f p prev l)
  | [], s, _ => .refl s
  | o :: r, s, prev => by
    rw [State.eachLine]
    refine SameButLines.trans ?_ (eachLine_sameButLines hf p r _ _)
    split
    · exact .refl s
    · exact hf s _

/-! ## One write of the trap unit (R41, R258) -/

/-- A key fits as long as bindings and blocks under other keys stay (R290). -/
theorem keyFits_congr {m n : MemSt} (ha : n.alien = m.alien) (hb : n.binds = m.binds) (p : Place) : n.keyFits p = m.keyFits p := by
  unfold MemSt.keyFits MemSt.blockKey MemSt.boundTo
  rw [ha, hb]

theorem wkey_plus (p : Place) (n : Nat) : (p.plus n).wkey = p.wkey + n := (Nat.add_assoc _ _ _).symm

/-- A word seen after a write joins those on their way (R260). -/
theorem viewWord_addWrite (m : MemSt) (w : PWrite) (c : CellId) (k : Nat) : viewWord (m.addWrite w) c k =
    if w.key = k && sameUnit w.reach w.cell c then ⟨overlay (viewWord m c k).v w.val w.mask, w.psn⟩ else viewWord m c k := by
  unfold viewWord
  simp only [MemSt.addWrite, List.foldl_append, List.foldl_cons, List.foldl_nil]

theorem overlay_all (old new : Word) : overlay old new 0xFF = new := by
  have hones : maskBits 0xFF = BitVec.allOnes 64 := by decide
  rw [overlay, hones, BitVec.not_allOnes, BitVec.and_zero, BitVec.and_allOnes, BitVec.zero_or]

theorem sameUnit_self (r : Nat) (c : CellId) : sameUnit r c c = true := decide_eq_true rfl

/-- The writes of the trap unit leave cells, bytes, markers, bindings and blocks under other keys as they are. -/
structure SaveKeeps (s t : State) : Prop where
  cell : t.cell = s.cell
  parked : t.parked = s.parked
  bytes : t.mem.mem = s.mem.mem
  psn : t.mem.psn = s.mem.psn
  alien : t.mem.alien = s.mem.alien
  binds : t.mem.binds = s.mem.binds

theorem SaveKeeps.refl (s : State) : SaveKeeps s s := ⟨rfl, rfl, rfl, rfl, rfl, rfl⟩

theorem SaveKeeps.trans {s t u : State} (a : SaveKeeps s t) (b : SaveKeeps t u) : SaveKeeps s u :=
  ⟨b.cell.trans a.cell, b.parked.trans a.parked, b.bytes.trans a.bytes, b.psn.trans a.psn, b.alien.trans a.alien, b.binds.trans a.binds⟩

theorem SaveKeeps.keyFits {s t : State} (h : SaveKeeps s t) (p : Place) : t.mem.keyFits p = s.mem.keyFits p := keyFits_congr h.alien h.binds p

theorem SameButLines.saveKeeps {s t : State} (h : SameButLines s t) : SaveKeeps s t :=
  ⟨h.cell, h.parked, by rw [h.mem], by rw [h.mem], by rw [h.mem], by rw [h.mem]⟩

theorem SameButLines.viewWord {s t : State} (h : SameButLines s t) (c : CellId) (k : Nat) : viewWord t.mem c k = viewWord s.mem c k := by
  rw [h.mem]
  rfl

/-- R41, R258: the write that the trap unit makes at an offset of the save area. -/
def State.saveWrite (s : State) (p : Place) (o : Nat) (v : Word) : PWrite :=
  ⟨s.mem.nextId, s.cell.id, true, 0, 0, p.wkey + o, v, 0xFF, false, if s.cell.fused then 1 else 0, p.cpol, s.writeCache s.cell (p.plus o),
    s.pkg.time.t3⟩

theorem putSave_eq {s : State} {p : Place} {o : Nat} (hl : p.loc = 1) (hk : s.mem.keyFits (p.plus o) = true) (v : Word) :
    s.putSave p o v = s.updMem fun m => m.addWrite (s.saveWrite p o v) := by
  have hloc : ¬ (p.plus o).loc = 0 := by
    change ¬ p.loc = 0
    rw [hl]
    decide
  simp only [State.putSave, State.writeW, if_pos hk, MemSt.write, if_neg hloc, wkey_plus]
  rfl

theorem putSave_keeps {s : State} {p : Place} {o : Nat} (hl : p.loc = 1) (hk : s.mem.keyFits (p.plus o) = true) (v : Word) :
    SaveKeeps s (s.putSave p o v) := by
  rw [putSave_eq hl hk]
  exact ⟨rfl, rfl, rfl, rfl, rfl, rfl⟩

/-- The cell itself sees what the trap unit wrote. -/
theorem view_putSave_same {s : State} {p : Place} {o : Nat} (hl : p.loc = 1) (hk : s.mem.keyFits (p.plus o) = true) (v : Word) :
    viewWord (s.putSave p o v).mem s.cell.id (p.wkey + o) = ⟨v, false⟩ := by
  rw [putSave_eq hl hk, updMem_mem, viewWord_addWrite]
  simp only [State.saveWrite, decide_true, sameUnit_self, Bool.and_self, if_true, overlay_all]

theorem view_putSave_other {s : State} {p : Place} {o : Nat} (hl : p.loc = 1) (hk : s.mem.keyFits (p.plus o) = true) (v : Word) (c : CellId)
    {k : Nat} (h : k ≠ p.wkey + o) : viewWord (s.putSave p o v).mem c k = viewWord s.mem c k := by
  rw [putSave_eq hl hk, updMem_mem, viewWord_addWrite]
  simp [State.saveWrite, Ne.symm h]

/-! ## A list of writes into the save area -/

/-- Words by their offsets, put one after another. -/
def State.putAll (s : State) (p : Place) (l : List (Nat × Word)) : State := l.foldl (fun t a => t.putSave p a.1 a.2) s

theorem putAll_append (s : State) (p : Place) (l r : List (Nat × Word)) : s.putAll p (l ++ r) = (s.putAll p l).putAll p r := List.foldl_append

section
variable {p : Place} (hl : p.loc = 1)
include hl

theorem putAll_keeps : ∀ (l : List (Nat × Word)) (s : State), (∀ a ∈ l, s.mem.keyFits (p.plus a.1) = true) → SaveKeeps s (s.putAll p l)
  | [], s, _ => .refl s
  | a :: r, s, h => by
    have hput := putSave_keeps hl (h a List.mem_cons_self) a.2
    exact hput.trans (putAll_keeps r _ fun b hb => (hput.keyFits _).trans (h b (List.mem_cons_of_mem a hb)))

theorem view_putAll_other (c : CellId) {k : Nat} : ∀ (l : List (Nat × Word)) (s : State), (∀ a ∈ l, s.mem.keyFits (p.plus a.1) = true) →
    (∀ a ∈ l, k ≠ p.wkey + a.1) → viewWord (s.putAll p l).mem c k = viewWord s.mem c k
  | [], _, _, _ => rfl
  | a :: r, s, h, hk => by
    have hput := putSave_keeps hl (h a List.mem_cons_self) a.2
    exact (view_putAll_other c r _ (fun b hb => (hput.keyFits _).trans (h b (List.mem_cons_of_mem a hb)))
      fun b hb => hk b (List.mem_cons_of_mem a hb)).trans (view_putSave_other hl (h a List.mem_cons_self) a.2 c (hk a List.mem_cons_self))

/-- Where every word put is what `f` says of its offset, the cell sees it there. -/
theorem view_putAll_same (f : Nat → Word) : ∀ (l : List (Nat × Word)) (s : State), (∀ a ∈ l, s.mem.keyFits (p.plus a.1) = true) →
    (∀ a ∈ l, a.2 = f a.1) → ∀ a ∈ l, viewWord (s.putAll p l).mem s.cell.id (p.wkey + a.1) = ⟨a.2, false⟩
  | [], _, _, _, a, ha => absurd ha List.not_mem_nil
  | b :: r, s, hk, hf, a, ha => by
    have hput := putSave_keeps hl (hk b List.mem_cons_self) b.2
    have hkr : ∀ c ∈ r, (s.putSave p b.1 b.2).mem.keyFits (p.plus c.1) = true := fun c hc =>
      (hput.keyFits _).trans (hk c (List.mem_cons_of_mem b hc))
    have hfr : ∀ c ∈ r, c.2 = f c.1 := fun c hc => hf c (List.mem_cons_of_mem b hc)
    by_cases hr : ∃ c ∈ r, c.1 = a.1
    · obtain ⟨c, hc, hca⟩ := hr
      have hlater := view_putAll_same f r _ hkr hfr c hc
      rw [hput.cell, hca, hfr c hc, hca, ← hf a ha] at hlater
      exact hlater
    · have hab : a = b := by
        rcases List.mem_cons.mp ha with h | h
        · exact h
        · exact absurd ⟨a, h, rfl⟩ hr
      subst hab
      have hout : ∀ c ∈ r, p.wkey + a.1 ≠ p.wkey + c.1 := fun c hc h => hr ⟨c, hc, by omega⟩
      exact (view_putAll_other hl s.cell.id r _ hkr hout).trans (view_putSave_same hl (hk a List.mem_cons_self) a.2)

end

/-! ## The words of the two lists, by their offsets (R41) -/

/-- The AS slots: of an entry its header and value, of a slot not used a header with VALID clear. -/
def asPuts : List Pend → List Nat → List (Nat × Word)
  | _, [] => []
  | [], k :: ks => (16 * k, 0) :: asPuts [] ks
  | e :: r, k :: ks =>
    (16 * k, slotHeader 0 0 e.psn e.rem (destCode e.dest).1 (destCode e.dest).2) :: (16 * k + 8, e.val) :: asPuts r ks

/-- `n` words of a wide value from an offset on. -/
def widePuts {w : Nat} (o : Nat) (v : BitVec w) (n : Nat) : List (Nat × Word) :=
  (List.range n).map fun j => (o + 8 * j, v.extractLsb' (64 * j) 64)

/-- One register of an ES slot. -/
def partPuts (o i : Nat) (x : EPart) : List (Nat × Word) := widePuts (o + 0x10 + 256 * i) x.val 32 ++ widePuts (o + 0x2010 + 32 * i) x.be 4

/-- The header of an ES slot that holds an entry. -/
def esHeader (e : EPend) : Word := slotHeader e.flg (e.parts.length - 1) false e.rem (eclsCode e.cls) e.num

/-- An ES slot that holds an entry. -/
def entryPuts (o : Nat) (e : EPend) : List (Nat × Word) :=
  [(o, esHeader e), (o + 8, psnMask e.parts)] ++ e.parts.zipIdx.flatMap fun x => partPuts o x.2 x.1

/-- The ES slots. -/
def esPuts : List EPend → List Nat → List (Nat × Word)
  | _, [] => []
  | [], k :: ks => (esSlot k, 0) :: esPuts [] ks
  | e :: r, k :: ks => entryPuts (esSlot k) e ++ esPuts r ks

theorem saveAs_eq (p : Place) : ∀ (ks : List Nat) (l : List Pend) (s : State), s.saveAs p l ks = s.putAll p (asPuts l ks)
  | [], l, s => by cases l <;> rfl
  | k :: ks, [], s => saveAs_eq p ks [] _
  | k :: ks, e :: r, s => saveAs_eq p ks r _

theorem extractLsb'_shift {w : Nat} (v : BitVec w) (j : Nat) : (v >>> 64).extractLsb' (64 * j) 64 = v.extractLsb' (64 * (j + 1)) 64 := by
  refine BitVec.eq_of_getLsbD_eq fun i hi => ?_
  rw [BitVec.getLsbD_extractLsb', BitVec.getLsbD_extractLsb', BitVec.getLsbD_ushiftRight]
  congr 2
  omega

theorem widePuts_succ {w : Nat} (o : Nat) (v : BitVec w) (n : Nat) :
    widePuts o v (n + 1) = (o, v.extractLsb' 0 64) :: widePuts (o + 8) (v >>> 64) n := by
  unfold widePuts
  rw [List.range_succ_eq_map, List.map_cons, List.map_map]
  refine congrArg₂ _ rfl (List.map_congr_left fun j _ => ?_)
  simp only [Function.comp, extractLsb'_shift, Nat.succ_eq_add_one]
  congr 1
  omega

theorem putWide_eq {w : Nat} (p : Place) : ∀ (n : Nat) (s : State) (o : Nat) (v : BitVec w), s.putWide p o v n = s.putAll p (widePuts o v n)
  | 0, _, _, _ => rfl
  | n + 1, s, o, v => by
    rw [widePuts_succ]
    exact putWide_eq p n _ _ _

theorem putPart_eq (s : State) (p : Place) (o i : Nat) (x : EPart) : s.putPart p o i x = s.putAll p (partPuts o i x) := by
  rw [partPuts, putAll_append, ← putWide_eq, ← putWide_eq]
  rfl

theorem foldl_putPart_eq (p : Place) (o : Nat) : ∀ (l : List (EPart × Nat)) (s : State),
    l.foldl (fun t x => t.putPart p o x.2 x.1) s = s.putAll p (l.flatMap fun x => partPuts o x.2 x.1)
  | [], _ => rfl
  | x :: r, s => by
    rw [List.flatMap_cons, putAll_append, ← putPart_eq]
    exact foldl_putPart_eq p o r _

theorem saveEs_eq (p : Place) : ∀ (ks : List Nat) (l : List EPend) (s : State), s.saveEs p l ks = s.putAll p (esPuts l ks)
  | [], l, s => by cases l <;> rfl
  | k :: ks, [], s => saveEs_eq p ks [] _
  | k :: ks, e :: r, s => by
    have hparts : ∀ t : State, t.saveParts p (esSlot k) e.parts = t.putAll p (e.parts.zipIdx.flatMap fun x => partPuts (esSlot k) x.2 x.1) :=
      fun t => foldl_putPart_eq p (esSlot k) _ t
    rw [State.saveEs, saveEs_eq p ks r, hparts, esPuts, putAll_append, entryPuts, putAll_append]
    rfl

/-- The words that the two lists put into the save area. -/
def pwlPuts (al : List Pend) (el : List EPend) : List (Nat × Word) := asPuts al (List.range 16) ++ esPuts el (List.range 16)

end Sys2Proof.Machine
end

section
/-! SUPPORT. What stands at each offset of the save area (R41), and what RETT makes of it (R155). -/

namespace Sys2Proof.Machine

open Sys2Proof.Claims

/-! ## The words slot by slot -/

/-- The words of AS slot `k`. -/
def asSlotPuts (k : Nat) : Option Pend → List (Nat × Word)
  | none => [(16 * k, 0)]
  | some e => [(16 * k, slotHeader 0 0 e.psn e.rem (destCode e.dest).1 (destCode e.dest).2), (16 * k + 8, e.val)]

/-- The words of ES slot `k`. -/
def esSlotPuts (k : Nat) : Option EPend → List (Nat × Word)
  | none => [(esSlot k, 0)]
  | some e => entryPuts (esSlot k) e

/-- A list from its entry `n` on is empty, or that entry and the rest. -/
theorem drop_cases {α : Type} (l : List α) (n : Nat) :
    (l[n]? = none ∧ l.drop n = [] ∧ l.drop (n + 1) = []) ∨ ∃ x, l[n]? = some x ∧ l.drop n = x :: l.drop (n + 1) := by
  by_cases h : n < l.length
  · exact .inr ⟨l[n], List.getElem?_eq_getElem h, List.drop_eq_getElem_cons h⟩
  · exact .inl ⟨List.getElem?_eq_none (by omega), List.drop_eq_nil_of_le (by omega), List.drop_eq_nil_of_le (by omega)⟩

theorem asPuts_eq (al : List Pend) : ∀ m n, asPuts (al.drop n) (List.range' n m) = (List.range' n m).flatMap fun k => asSlotPuts k al[k]?
  | 0, n => by cases al.drop n <;> rfl
  | m + 1, n => by
    have ih := asPuts_eq al m (n + 1)
    rw [List.range'_succ, List.flatMap_cons, ← ih]
    rcases drop_cases al n with ⟨hn, hd, hd'⟩ | ⟨x, hn, hd⟩
    · rw [hn, hd, hd']; rfl
    · rw [hn, hd]; rfl

theorem esPuts_eq (el : List EPend) : ∀ m n, esPuts (el.drop n) (List.range' n m) = (List.range' n m).flatMap fun k => esSlotPuts k el[k]?
  | 0, n => by cases el.drop n <;> rfl
  | m + 1, n => by
    have ih := esPuts_eq el m (n + 1)
    rw [List.range'_succ, List.flatMap_cons, ← ih]
    rcases drop_cases el n with ⟨hn, hd, hd'⟩ | ⟨x, hn, hd⟩
    · rw [hn, hd, hd']; rfl
    · rw [hn, hd]; rfl

/-- R41: a word is put where one of the 16 slots of a list has it. -/
theorem mem_pwlPuts {al : List Pend} {el : List EPend} {a : Nat × Word} :
    a ∈ pwlPuts al el ↔ (∃ k < 16, a ∈ asSlotPuts k al[k]?) ∨ ∃ k < 16, a ∈ esSlotPuts k el[k]? := by
  have has := asPuts_eq al 16 0
  have hes := esPuts_eq el 16 0
  rw [List.drop_zero, ← List.range_eq_range'] at has hes
  rw [pwlPuts, has, hes, List.mem_append, List.mem_flatMap, List.mem_flatMap]
  simp only [List.mem_range]

/-! ## The word of each offset -/

/-- R41: the word `r` bytes into an ES slot that holds an entry. -/
def entryWord (e : EPend) (r : Nat) : Word :=
  if r = 0 then esHeader e
  else if r = 8 then psnMask e.parts
  else if r < 0x2010 then (e.parts[(r - 0x10) / 256]?).elim 0 fun x => x.val.extractLsb' (64 * ((r - 0x10) % 256 / 8)) 64
  else (e.parts[(r - 0x2010) / 32]?).elim 0 fun x => x.be.extractLsb' (64 * ((r - 0x2010) % 32 / 8)) 64

/-- R41: the word at an offset of a save area that holds two lists. -/
def areaWord (al : List Pend) (el : List EPend) (o : Nat) : Word :=
  if o < 0x100 then
    (al[o / 16]?).elim 0 fun e => if o % 16 = 0 then slotHeader 0 0 e.psn e.rem (destCode e.dest).1 (destCode e.dest).2 else e.val
  else (el[(o - 0x100) / 9232]?).elim 0 fun e => entryWord e ((o - 0x100) % 9232)

/-- A word put at an offset is that of `f`, aligned, and lies below `hi`. -/
def PutOk (f : Nat → Word) (hi : Nat) (a : Nat × Word) : Prop := a.2 = f a.1 ∧ a.1 % 8 = 0 ∧ a.1 + 8 ≤ hi

theorem areaWord_as (al : List Pend) (el : List EPend) {k : Nat} (hk : k < 16) {o : Nat} (ho : o = 16 * k) :
    areaWord al el o = (al[k]?).elim 0 fun e => slotHeader 0 0 e.psn e.rem (destCode e.dest).1 (destCode e.dest).2 := by
  subst ho
  rw [areaWord, if_pos (by omega), show 16 * k / 16 = k by omega]
  simp

theorem areaWord_asValue (al : List Pend) (el : List EPend) {k : Nat} (hk : k < 16) {o : Nat} (ho : o = 16 * k + 8) :
    areaWord al el o = (al[k]?).elim 0 fun e => e.val := by
  subst ho
  rw [areaWord, if_pos (by omega), show (16 * k + 8) / 16 = k by omega]
  simp

theorem areaWord_es (al : List Pend) (el : List EPend) {k r : Nat} (hr : r < 9232) :
    areaWord al el (esSlot k + r) = (el[k]?).elim 0 fun e => entryWord e r := by
  unfold areaWord esSlot
  rw [if_neg (by omega), show (0x100 + 9232 * k + r - 0x100) / 9232 = k by omega, show (0x100 + 9232 * k + r - 0x100) % 9232 = r by omega]

/-! ## Every word put is that of its offset -/

theorem asSlotPuts_ok (al : List Pend) (el : List EPend) {k : Nat} (hk : k < 16) {a : Nat × Word} (ha : a ∈ asSlotPuts k al[k]?) :
    PutOk (areaWord al el) Config.saveBytes a := by
  have hsize : Config.saveBytes = 147968 := rfl
  cases h : al[k]? with
  | none =>
    rw [h] at ha
    obtain rfl := List.mem_singleton.mp ha
    exact ⟨by rw [areaWord_as al el hk rfl, h]; rfl, by omega, by omega⟩
  | some e =>
    rw [h] at ha
    rcases List.mem_cons.mp ha with rfl | ha
    · exact ⟨by rw [areaWord_as al el hk rfl, h]; rfl, by omega, by omega⟩
    · obtain rfl := List.mem_singleton.mp ha
      exact ⟨by rw [areaWord_asValue al el hk rfl, h]; rfl, by omega, by omega⟩

theorem mem_widePuts {w : Nat} {o : Nat} {v : BitVec w} {n : Nat} {a : Nat × Word} :
    a ∈ widePuts o v n ↔ ∃ j < n, a = (o + 8 * j, v.extractLsb' (64 * j) 64) := by
  simp [widePuts, eq_comm]

theorem mem_entryPuts {o : Nat} {e : EPend} {a : Nat × Word} : a ∈ entryPuts o e ↔
    a = (o, esHeader e) ∨ a = (o + 8, psnMask e.parts) ∨ ∃ i x, e.parts[i]? = some x ∧ a ∈ partPuts o i x := by
  simp only [entryPuts, List.mem_append, List.mem_cons, List.not_mem_nil, or_false, List.mem_flatMap, Prod.exists,
    List.mem_zipIdx_iff_getElem?, or_assoc]
  constructor
  · rintro (h | h | ⟨x, i, hx, h⟩)
    · exact .inl h
    · exact .inr (.inl h)
    · exact .inr (.inr ⟨i, x, hx, h⟩)
  · rintro (h | h | ⟨i, x, hx, h⟩)
    · exact .inl h
    · exact .inr (.inl h)
    · exact .inr (.inr ⟨x, i, hx, h⟩)

/-- R41: a word of an entry, by how far into its slot it stands. -/
theorem entryPuts_ok {o : Nat} {e : EPend} (he : e.parts.length ≤ 32) {a : Nat × Word} (ha : a ∈ entryPuts o e) :
    ∃ r, a.1 = o + r ∧ a.2 = entryWord e r ∧ r % 8 = 0 ∧ r + 8 ≤ 9232 := by
  rcases mem_entryPuts.mp ha with rfl | rfl | ⟨i, x, hx, ha⟩
  · exact ⟨0, rfl, rfl, rfl, by omega⟩
  · exact ⟨8, rfl, rfl, rfl, by omega⟩
  have hi : i < 32 := lt_of_lt_of_le (List.getElem?_eq_some_iff.mp hx).1 he
  rcases List.mem_append.mp ha with ha | ha
  · obtain ⟨j, hj, rfl⟩ := mem_widePuts.mp ha
    refine ⟨0x10 + 256 * i + 8 * j, by omega, ?_, by omega, by omega⟩
    rw [entryWord, if_neg (by omega), if_neg (by omega), if_pos (by omega), show (0x10 + 256 * i + 8 * j - 0x10) / 256 = i by omega,
      show (0x10 + 256 * i + 8 * j - 0x10) % 256 / 8 = j by omega, hx]
    rfl
  · obtain ⟨j, hj, rfl⟩ := mem_widePuts.mp ha
    refine ⟨0x2010 + 32 * i + 8 * j, by omega, ?_, by omega, by omega⟩
    rw [entryWord, if_neg (by omega), if_neg (by omega), if_neg (by omega), show (0x2010 + 32 * i + 8 * j - 0x2010) / 32 = i by omega,
      show (0x2010 + 32 * i + 8 * j - 0x2010) % 32 / 8 = j by omega, hx]
    rfl

theorem esSlotPuts_ok (al : List Pend) {el : List EPend} (hel : ∀ x ∈ el, x.parts.length ≤ 32) {k : Nat} (hk : k < 16) {a : Nat × Word}
    (ha : a ∈ esSlotPuts k el[k]?) : PutOk (areaWord al el) Config.saveBytes a := by
  have hsize : Config.saveBytes = 147968 := rfl
  have hslot : esSlot k = 0x100 + 9232 * k := rfl
  cases h : el[k]? with
  | none =>
    rw [h] at ha
    obtain rfl := List.mem_singleton.mp ha
    have hword : areaWord al el (esSlot k + 0) = 0 := by rw [areaWord_es al el (by omega), h]; rfl
    exact ⟨hword.symm, by dsimp only; omega, by dsimp only; omega⟩
  | some e =>
    rw [h] at ha
    obtain ⟨r, ho, hv, hr, hlt⟩ := entryPuts_ok (hel e (List.mem_of_getElem? h)) ha
    refine ⟨?_, by omega, by omega⟩
    rw [hv, ho, areaWord_es al el (by omega), h]
    rfl

theorem pwlPuts_ok (al : List Pend) {el : List EPend} (hel : ∀ x ∈ el, x.parts.length ≤ 32) :
    ∀ a ∈ pwlPuts al el, PutOk (areaWord al el) Config.saveBytes a := by
  intro a ha
  rcases mem_pwlPuts.mp ha with ⟨k, hk, ha⟩ | ⟨k, hk, ha⟩
  · exact asSlotPuts_ok al el hk ha
  · exact esSlotPuts_ok al hel hk ha

/-! ## What the cell reads back (R41) -/

theorem getSave_of_view {s : State} {p : Place} {o : Nat} (hk : s.mem.keyFits (p.plus o) = true) :
    s.getSave p o = viewWord s.mem s.cell.id (p.wkey + o) := by
  unfold State.getSave State.wordAs State.deciphered
  rw [if_pos hk, wkey_plus]

/-- R41: where the cell reads every word that the two lists put, the area holds the lists. -/
theorem saved_of_puts {t : State} {p : Place} {al : List Pend} {el : List EPend}
    (h : ∀ a ∈ pwlPuts al el, t.getSave p a.1 = ⟨a.2, false⟩) : Saved t p al el := by
  intro k hk
  have has : ∀ a ∈ asSlotPuts k al[k]?, t.getSave p a.1 = ⟨a.2, false⟩ := fun a ha => h a (mem_pwlPuts.mpr (.inl ⟨k, hk, ha⟩))
  have hes : ∀ a ∈ esSlotPuts k el[k]?, t.getSave p a.1 = ⟨a.2, false⟩ := fun a ha => h a (mem_pwlPuts.mpr (.inr ⟨k, hk, ha⟩))
  refine ⟨fun hx => ?_, fun x hx => ?_, fun hx => ?_, fun x hx => ?_⟩
  · rw [hx] at has
    exact has (16 * k, 0) List.mem_cons_self
  · rw [hx] at has
    have hheader : (16 * k, slotHeader 0 0 x.psn x.rem (destCode x.dest).1 (destCode x.dest).2) ∈ asSlotPuts k (some x) :=
      List.mem_cons_self
    have hvalue : (16 * k + 8, x.val) ∈ asSlotPuts k (some x) := List.mem_cons_of_mem _ List.mem_cons_self
    have readHeader := has _ hheader
    have readValue := has _ hvalue
    exact ⟨readHeader, readValue⟩
  · rw [hx] at hes
    exact hes (esSlot k, 0) List.mem_cons_self
  · rw [hx] at hes
    have hentry : ∀ a ∈ entryPuts (esSlot k) x, t.getSave p a.1 = ⟨a.2, false⟩ := hes
    have hheader : t.getSave p (esSlot k) = ⟨esHeader x, false⟩ := hentry (esSlot k, esHeader x) (mem_entryPuts.mpr (.inl rfl))
    have hmask : t.getSave p (esSlot k + 8) = ⟨psnMask x.parts, false⟩ :=
      hentry (esSlot k + 8, psnMask x.parts) (mem_entryPuts.mpr (.inr (.inl rfl)))
    refine ⟨hheader, hmask, fun i y hy => ⟨fun j hj => ?_, fun j hj => ?_⟩⟩
    · have hword : (esSlot k + 0x10 + 256 * i + 8 * j, y.val.extractLsb' (64 * j) 64) ∈ partPuts (esSlot k) i y :=
        List.mem_append_left _ (mem_widePuts.mpr ⟨j, hj, rfl⟩)
      have readWord := hentry _ (mem_entryPuts.mpr (.inr (.inr ⟨i, y, hy, hword⟩)))
      exact readWord
    · have hword : (esSlot k + 0x2010 + 32 * i + 8 * j, y.be.extractLsb' (64 * j) 64) ∈ partPuts (esSlot k) i y :=
        List.mem_append_right _ (mem_widePuts.mpr ⟨j, hj, rfl⟩)
      have readWord := hentry _ (mem_entryPuts.mpr (.inr (.inr ⟨i, y, hy, hword⟩)))
      exact readWord

end Sys2Proof.Machine
end

section
/-! SUPPORT. The words of a save area read back as the writes in flight that were put there (R41, R155). -/

namespace Sys2Proof.Machine

open Sys2Proof.Claims

/-! ## A slot header and its fields -/

theorem slotOf_fields (f : BitVec 6) (c : BitVec 5) (v p : BitVec 1) (r : BitVec 4) (k : BitVec 3) (n : BitVec 5) :
    slotOf ((0 : BitVec 39) ++ f ++ c ++ v ++ p ++ r ++ k ++ n : BitVec 64)
      = ⟨f, c.toNat, v.getLsbD 0, p.getLsbD 0, r.toNat, k.toNat, n.toNat, false⟩ := by
  have fields : ∀ h : BitVec 64, h = (0 : BitVec 39) ++ f ++ c ++ v ++ p ++ r ++ k ++ n →
      h.extractLsb' 19 6 = f ∧ h.extractLsb' 14 5 = c ∧ h.extractLsb' 8 4 = r ∧ h.extractLsb' 5 3 = k ∧ h.extractLsb' 0 5 = n
        ∧ h.extractLsb' 25 39 = 0 := by
    rintro h rfl
    refine ⟨?_, ?_, ?_, ?_, ?_, ?_⟩ <;> refine BitVec.eq_of_getLsbD_eq fun i hi => ?_ <;>
      simp only [BitVec.getLsbD_extractLsb', BitVec.getLsbD_append] <;> interval_cases i <;> rfl
  obtain ⟨hf, hc, hr, hk, hn, hzero⟩ := fields _ rfl
  rw [slotOf, hf, hc, hr, hk, hn, hzero]
  simp only [BitVec.getLsbD_append]
  rfl

/-- R41: a header that the trap unit writes reads back as its fields. -/
theorem slotOf_slotHeader (f : BitVec 6) {c : Nat} (b : Bool) {r k n : Nat} (hc : c < 32) (hr : r < 16) (hk : k < 8) (hn : n < 32) :
    slotOf (slotHeader f c b r k n) = ⟨f, c, true, b, r, k, n, false⟩ := by
  rw [slotHeader, slotOf_fields, BitVec.toNat_ofNat, BitVec.toNat_ofNat, BitVec.toNat_ofNat, BitVec.toNat_ofNat, Nat.mod_eq_of_lt hc,
    Nat.mod_eq_of_lt hr, Nat.mod_eq_of_lt hk, Nat.mod_eq_of_lt hn]
  cases b <;> rfl

theorem valid_slotOf_zero : (slotOf 0).valid = false := by decide

/-! ## PSNMASK -/

/-- The number whose bits, from bit `n` on, are those of a list. -/
def bitsFrom (n : Nat) : List Bool → Nat
  | [] => 0
  | b :: r => (if b then 2 ^ n else 0) + bitsFrom (n + 1) r

theorem bitsFrom_succ (n : Nat) : ∀ l : List Bool, bitsFrom (n + 1) l = 2 * bitsFrom n l
  | [] => rfl
  | b :: r => by
    rw [bitsFrom, bitsFrom, bitsFrom_succ (n + 1) r, pow_succ]
    cases b <;> grind

theorem bitsFrom_zero_cons (b : Bool) (l : List Bool) : bitsFrom 0 (b :: l) = 2 * bitsFrom 0 l + b.toNat := by
  rw [bitsFrom, bitsFrom_succ]
  cases b <;> grind

theorem testBit_bitsFrom : ∀ (l : List Bool) (i : Nat), (bitsFrom 0 l).testBit i = l[i]?.getD false
  | [], i => by simp [bitsFrom]
  | b :: r, 0 => by
    rw [bitsFrom_zero_cons]
    cases b <;> simp
  | b :: r, i + 1 => by
    have ih := testBit_bitsFrom r i
    rw [bitsFrom_zero_cons, Nat.testBit_succ, show (2 * bitsFrom 0 r + b.toNat) / 2 = bitsFrom 0 r by cases b <;> grind, ih]
    rfl

theorem psnSum_eq : ∀ (l : List EPart) (n : Nat),
    ((l.zipIdx n).map fun x => (if x.1.psn then 2 ^ x.2 else 0) + (if x.1.alone then 2 ^ (32 + x.2) else 0)).sum
      = bitsFrom n (l.map EPart.psn) + 2 ^ 32 * bitsFrom n (l.map EPart.alone)
  | [], _ => rfl
  | x :: r, n => by
    rw [List.zipIdx_cons, List.map_cons, List.sum_cons, psnSum_eq r (n + 1), List.map_cons, List.map_cons, bitsFrom, bitsFrom, pow_add]
    cases x.psn <;> cases x.alone <;> simp <;> ring

theorem bitsFrom_lt : ∀ l : List Bool, bitsFrom 0 l < 2 ^ l.length
  | [] => by decide
  | b :: r => by
    have ih := bitsFrom_lt r
    have hb : b.toNat ≤ 1 := Bool.toNat_le b
    rw [bitsFrom_zero_cons, List.length_cons, pow_succ]
    omega

/-- R41: of up to 32 registers PSNMASK has the tags in its low half, and in its high half those that are taken alone. -/
theorem psnMask_bits {l : List EPart} (hl : l.length ≤ 32) {i : Nat} {x : EPart} (hx : l[i]? = some x) :
    (psnMask l).getLsbD i = x.psn ∧ (psnMask l).getLsbD (32 + i) = x.alone := by
  have hi : i < 32 := lt_of_lt_of_le (List.getElem?_eq_some_iff.mp hx).1 hl
  have hlow : bitsFrom 0 (l.map EPart.psn) < 2 ^ 32 :=
    lt_of_lt_of_le (bitsFrom_lt _) (Nat.pow_le_pow_right (by decide) (by simpa using hl))
  have hsum : psnMask l = BitVec.ofNat 64 (2 ^ 32 * bitsFrom 0 (l.map EPart.alone) + bitsFrom 0 (l.map EPart.psn)) := by
    rw [psnMask, psnSum_eq l 0, Nat.add_comm]
  rw [hsum, BitVec.getLsbD_ofNat, BitVec.getLsbD_ofNat, Nat.testBit_two_pow_mul_add _ hlow, Nat.testBit_two_pow_mul_add _ hlow, if_pos hi,
    if_neg (by omega), Nat.add_sub_cancel_left, testBit_bitsFrom, testBit_bitsFrom, List.getElem?_map, List.getElem?_map, hx]
  simp
  omega

/-! ## Wide values -/

/-- R41: words that hold a wide value from an offset on read back as that value. -/
theorem getWide_eq (s : State) (p : Place) {w : Nat} : ∀ (n o : Nat) (v : BitVec w),
    (∀ j < n, s.getSave p (o + 8 * j) = ⟨v.extractLsb' (64 * j) 64, false⟩) → s.getWide p o n = v.toNat % 2 ^ (64 * n)
  | 0, _, v, _ => by rw [State.getWide, Nat.mul_zero, pow_zero, Nat.mod_one]
  | n + 1, o, v, h => by
    have hrest := getWide_eq s p n (o + 8) (v >>> 64) fun j hj => by
      rw [extractLsb'_shift, ← h (j + 1) (by omega)]
      congr 1
      omega
    have hfirst := h 0 (by omega)
    rw [Nat.mul_zero, Nat.add_zero] at hfirst
    rw [State.getWide, hrest, hfirst]
    have hshift : (v >>> 64).toNat = v.toNat / 2 ^ 64 := by rw [BitVec.toNat_ushiftRight, Nat.shiftRight_eq_div_pow]
    have hlow : (v.extractLsb' (64 * 0) 64).toNat = v.toNat % 2 ^ 64 := by
      rw [BitVec.extractLsb'_toNat]
      simp
    dsimp only
    rw [hshift, show 64 * (n + 1) = 64 + 64 * n by ring, pow_add, Nat.mod_mul, Nat.mul_comm (2 ^ 64)]
    exact congrArg (· + _) hlow

/-! ## Slots -/

section
variable {t : State} {p : Place} {al : List Pend} {el : List EPend} (hs : Saved t p al el)
include hs

/-- An AS slot not used is not valid, and loads nothing. -/
theorem asSlot_none {k : Nat} (hk : k < 16) (hx : al[k]? = none) :
    (slotOf (t.getSave p (16 * k)).v).valid = false ∧ t.loadAsSlot p (16 * k) = none := by
  obtain ⟨hnone, -, -, -⟩ := hs k hk
  have hvalid : (slotOf (t.getSave p (16 * k)).v).valid = false := by rw [hnone hx]; exact valid_slotOf_zero
  refine ⟨hvalid, ?_⟩
  simp only [State.loadAsSlot, hvalid]
  rfl

theorem esSlot_none {k : Nat} (hk : k < 16) (hx : el[k]? = none) :
    (slotOf (t.getSave p (esSlot k)).v).valid = false ∧ t.loadEsSlot p (esSlot k) = none := by
  obtain ⟨-, -, hnone, -⟩ := hs k hk
  have hvalid : (slotOf (t.getSave p (esSlot k)).v).valid = false := by rw [hnone hx]; exact valid_slotOf_zero
  refine ⟨hvalid, ?_⟩
  simp only [State.loadEsSlot, hvalid]
  rfl

/-- R155: an AS slot in use is valid, passes, and loads its entry. -/
theorem asSlot_some {k : Nat} (hk : k < 16) {x : Pend} (hx : al[k]? = some x) (hr : 1 ≤ x.rem ∧ x.rem ≤ 14) :
    (slotOf (t.getSave p (16 * k)).v).valid = true ∧ asSlotOk (slotOf (t.getSave p (16 * k)).v) = true
      ∧ t.loadAsSlot p (16 * k) = some x := by
  obtain ⟨-, hsome, -, -⟩ := hs k hk
  obtain ⟨hheader, hvalue⟩ := hsome x hx
  obtain ⟨rem, d, v, psn⟩ := x
  obtain ⟨hlow, hhigh⟩ := hr
  dsimp only at hheader hvalue hlow hhigh
  have hrem : rem < 16 := by omega
  cases d with
  | g n =>
    have hslot : slotOf (t.getSave p (16 * k)).v = ⟨0, 0, true, psn, rem, 0, n.toNat, false⟩ := by
      rw [hheader]; exact slotOf_slotHeader 0 psn (by omega) hrem (by simp [destCode]) n.isLt
    refine ⟨by rw [hslot], ?_, ?_⟩
    · rw [hslot]; simp [asSlotOk, hlow, hhigh]
    · simp [State.loadAsSlot, hslot, hvalue]
  | p n =>
    have hslot : slotOf (t.getSave p (16 * k)).v = ⟨0, 0, true, psn, rem, 1, n.toNat, false⟩ := by
      rw [hheader]; exact slotOf_slotHeader 0 psn (by omega) hrem (by simp [destCode]) (lt_trans n.isLt (by decide))
    have hn : n.toNat < 8 := n.isLt
    refine ⟨by rw [hslot], ?_, ?_⟩
    · rw [hslot]; simp [asSlotOk, hlow, hhigh, hn]
    · simp [State.loadAsSlot, hslot, hvalue]
  | t n =>
    have hslot : slotOf (t.getSave p (16 * k)).v = ⟨0, 0, true, psn, rem, 2, n.toNat, false⟩ := by
      rw [hheader]; exact slotOf_slotHeader 0 psn (by omega) hrem (by simp [destCode]) (lt_trans n.isLt (by decide))
    have hn : n.toNat < 4 := n.isLt
    refine ⟨by rw [hslot], ?_, ?_⟩
    · rw [hslot]; simp [asSlotOk, hlow, hhigh, hn]
    · simp [State.loadAsSlot, hslot, hvalue]

/-- Registers of an ES slot as RETT loads them. -/
theorem loadParts_eq {k : Nat} (hk : k < 16) {x : EPend} (hx : el[k]? = some x) (hn : x.parts.length ≤ 32) :
    (List.range x.parts.length).map (fun i =>
      (⟨BitVec.ofNat 2048 (t.getWide p (esSlot k + 0x10 + 256 * i) 32), BitVec.ofNat 256 (t.getWide p (esSlot k + 0x2010 + 32 * i) 4),
        (psnMask x.parts).getLsbD i, (psnMask x.parts).getLsbD (32 + i)⟩ : EPart)) = x.parts := by
  obtain ⟨-, -, -, hsome⟩ := hs k hk
  obtain ⟨-, -, hparts⟩ := hsome x hx
  refine List.ext_getElem (by simp) fun i _ hi => ?_
  have hget : x.parts[i]? = some x.parts[i] := List.getElem?_eq_getElem hi
  obtain ⟨hval, hbe⟩ := hparts i _ hget
  obtain ⟨hpsn, halone⟩ := psnMask_bits hn hget
  rw [List.getElem_map, List.getElem_range, getWide_eq t p 32 _ _ hval, getWide_eq t p 4 _ _ hbe, hpsn, halone,
    Nat.mod_eq_of_lt x.parts[i].val.isLt, Nat.mod_eq_of_lt x.parts[i].be.isLt, BitVec.ofNat_toNat, BitVec.ofNat_toNat, BitVec.setWidth_eq,
    BitVec.setWidth_eq]

/-- R155: an ES slot in use is valid, passes, and loads its entry. -/
theorem esSlot_some {k : Nat} (hk : k < 16) {x : EPend} (hx : el[k]? = some x) (hr : 1 ≤ x.rem ∧ x.rem ≤ 14) (hpos : 1 ≤ x.parts.length)
    (hv : x.cls = .v → x.num + x.parts.length ≤ 32) (hm : x.cls = .m → x.num + x.parts.length ≤ 8)
    (hsh : x.cls = .sh ∨ x.cls = .flags → x.num = 0 ∧ x.parts.length = 1 ∧ x.flg = 0) :
    (slotOf (t.getSave p (esSlot k)).v).valid = true ∧ esSlotOk (slotOf (t.getSave p (esSlot k)).v) = true
      ∧ t.loadEsSlot p (esSlot k) = some x := by
  have hbound : x.num < 32 ∧ x.parts.length ≤ 32 := by
    cases hc : x.cls
    case v => have := hv hc; omega
    case m => have := hm hc; omega
    case sh => obtain ⟨hn, hl, -⟩ := hsh (.inl hc); omega
    case flags => obtain ⟨hn, hl, -⟩ := hsh (.inr hc); omega
  obtain ⟨hnum, hlen⟩ := hbound
  have hparts := loadParts_eq hs hk hx hlen
  obtain ⟨-, -, -, hsome⟩ := hs k hk
  obtain ⟨hheader, hmask, -⟩ := hsome x hx
  have hcls : eclsCode x.cls < 8 := by cases x.cls <;> decide
  obtain ⟨hlow, hhigh⟩ := hr
  have hslot : slotOf (t.getSave p (esSlot k)).v
      = ⟨x.flg, x.parts.length - 1, true, false, x.rem, eclsCode x.cls, x.num, false⟩ := by
    rw [hheader]
    exact slotOf_slotHeader x.flg false (by omega) (by omega) hcls hnum
  have hcount : x.parts.length - 1 + 1 = x.parts.length := by omega
  refine ⟨by rw [hslot], ?_, ?_⟩
  · rw [hslot]
    cases hc : x.cls
    case v => have := hv hc; simp [esSlotOk, eclsCode, hlow, hhigh]; omega
    case m => have := hm hc; simp [esSlotOk, eclsCode, hlow, hhigh]; omega
    case sh => obtain ⟨hn, hl, hf⟩ := hsh (.inl hc); simp [esSlotOk, eclsCode, hlow, hhigh, hn, hl, hf]
    case flags => obtain ⟨hn, hl, hf⟩ := hsh (.inr hc); simp [esSlotOk, eclsCode, hlow, hhigh, hn, hl, hf]
  · simp only [State.loadEsSlot, hslot, hmask, hcount, hparts]
    cases hc : x.cls <;> simp [eclsCode, ← hc]

end

/-! ## The two lists of slots (R155) -/

/-- Slots that are in use as far as a list goes, and valid slots that pass, hold no slot that fails. -/
theorem badSlot_none {α : Type} {t : State} {p : Place} {ok : Slot64 → Bool} {off : Nat → Nat} {l : List α}
    (hnone : ∀ k < 16, l[k]? = none → (slotOf (t.getSave p (off k)).v).valid = false)
    (hsome : ∀ k < 16, ∀ x, l[k]? = some x →
      (slotOf (t.getSave p (off k)).v).valid = true ∧ ok (slotOf (t.getSave p (off k)).v) = true) :
    ∀ (m n : Nat) (seen : Bool), n + m ≤ 16 → (seen = true → l.length ≤ n) → t.badSlot p ok ((List.range' n m).map off) seen = none
  | 0, _, _, _, _ => rfl
  | m + 1, n, seen, hm, hseen => by
    rw [List.range'_succ, List.map_cons, State.badSlot]
    cases hx : l[n]? with
    | none =>
      rw [hnone n (by omega) hx]
      exact badSlot_none hnone hsome m (n + 1) true (by omega) fun _ => by have := List.getElem?_eq_none_iff.mp hx; omega
    | some x =>
      obtain ⟨hvalid, hok⟩ := hsome n (by omega) x hx
      have hlt : n < l.length := (List.getElem?_eq_some_iff.mp hx).1
      have hfresh : seen = false := by
        cases seen
        case false => rfl
        case true => exact absurd (hseen rfl) (by omega)
      rw [hvalid, hok, hfresh]
      exact badSlot_none hnone hsome m (n + 1) false (by omega) (by simp)

/-- Slots that load the entries of a list, and nothing past its end, load the list. -/
theorem filterMap_slots {α : Type} {g : Nat → Option α} {l : List α} (hg : ∀ k < 16, g k = l[k]?) :
    ∀ m n, n + m = 16 → l.length ≤ 16 → (List.range' n m).filterMap g = l.drop n
  | 0, n, hn, hl => by rw [List.drop_eq_nil_of_le (by omega)]; rfl
  | m + 1, n, hn, hl => by
    have ih := filterMap_slots hg m (n + 1) (by omega) hl
    rw [List.range'_succ, List.filterMap_cons, hg n (by omega), ih]
    rcases drop_cases l n with ⟨hx, hd, hd'⟩ | ⟨x, hx, hd⟩
    · rw [hx, hd, hd']
    · rw [hx, hd]

/-- R155: a save area that holds lists that fit has no slot that fails, and RETT loads the lists from it. -/
theorem saved_loads {t : State} {p : Place} {al : List Pend} {el : List EPend} (hs : Saved t p al el) (hfit : SlotsFit al el) :
    t.badSlot p asSlotOk asSlots false = none ∧ t.badSlot p esSlotOk esSlots false = none
      ∧ asSlots.filterMap (t.loadAsSlot p) = al ∧ esSlots.filterMap (t.loadEsSlot p) = el := by
  obtain ⟨hal, hel, hafit, hefit⟩ := hfit
  have hsome : ∀ k < 16, ∀ x, al[k]? = some x → (slotOf (t.getSave p (16 * k)).v).valid = true
      ∧ asSlotOk (slotOf (t.getSave p (16 * k)).v) = true ∧ t.loadAsSlot p (16 * k) = some x :=
    fun k hk x hx => asSlot_some hs hk hx (hafit x (List.mem_of_getElem? hx))
  have esome : ∀ k < 16, ∀ x, el[k]? = some x → (slotOf (t.getSave p (esSlot k)).v).valid = true
      ∧ esSlotOk (slotOf (t.getSave p (esSlot k)).v) = true ∧ t.loadEsSlot p (esSlot k) = some x := fun k hk x hx => by
    obtain ⟨hlow, hhigh, hpos, hv, hm, hsh⟩ := hefit x (List.mem_of_getElem? hx)
    exact esSlot_some hs hk hx ⟨hlow, hhigh⟩ hpos hv hm hsh
  have has : asSlots = (List.range' 0 16).map (16 * ·) := by rw [← List.range_eq_range']; rfl
  have hes : esSlots = (List.range' 0 16).map esSlot := by rw [← List.range_eq_range']; rfl
  refine ⟨?_, ?_, ?_, ?_⟩
  · rw [has]
    exact badSlot_none (l := al) (fun k hk hx => (asSlot_none hs hk hx).1) (fun k hk x hx => ⟨(hsome k hk x hx).1, (hsome k hk x hx).2.1⟩)
      16 0 false (by omega) (by simp)
  · rw [hes]
    exact badSlot_none (l := el) (fun k hk hx => (esSlot_none hs hk hx).1) (fun k hk x hx => ⟨(esome k hk x hx).1, (esome k hk x hx).2.1⟩)
      16 0 false (by omega) (by simp)
  · rw [has, List.filterMap_map]
    refine filterMap_slots (l := al) (fun k hk => ?_) 16 0 rfl hal
    cases hx : al[k]? with
    | none => exact (asSlot_none hs hk hx).2
    | some x => exact (hsome k hk x hx).2.2
  · rw [hes, List.filterMap_map]
    refine filterMap_slots (l := el) (fun k hk => ?_) 16 0 rfl hel
    cases hx : el[k]? with
    | none => exact (esSlot_none hs hk hx).2
    | some x => exact (esome k hk x hx).2.2

end Sys2Proof.Machine
end

section
/-! SUPPORT. TRAP: the entry into the handler, and what it leaves in the save area (R41, R152); O33. -/

namespace Sys2Proof.Machine

open Sys2Proof.Claims

/-! ## The save area itself (R41, R292) -/

theorem noteSegWrite_sameButLines (u : State) (cx : Cx) (n : Nat) (e : SegEnt) : SameButLines u (u.noteSegWrite cx n e) := by
  unfold State.noteSegWrite
  split
  · dsimp only
    split
    · exact ⟨rfl, rfl, rfl⟩
    · exact .refl u
  · exact .refl u

theorem noteSave_sameButLines (u : State) : SameButLines u u.noteSave := by
  unfold State.noteSave
  dsimp only
  split
  · exact noteSegWrite_sameButLines u _ _ _
  · exact .refl u

/-- R292: binding a frame that is bound to the key of the access changes nothing. -/
theorem bind_bound {s t : State} {w : CellId} {p : Place} (hl : p.loc = 1) (hb : s.mem.boundTo p.loc p.die (p.addr / 65536) = some p.key)
    (h : s.bind w p false = some t) : t = s := by
  simp only [State.bind, hb] at h
  split at h
  · cases h
  · rw [if_pos (by simp [hl])] at h
    simpa using h.symm

theorem bindRange_bound {d : Nat} : ∀ {l : List Nat} {s t : State}, (∀ f ∈ l, s.mem.boundTo 1 d f = some 0) → s.bindRange d l = some t → t = s
  | [], _, _, _, h => by cases h; rfl
  | f :: r, s, t, hb, h => by
    unfold State.bindRange at h
    split at h
    case h_1 v hv =>
      obtain rfl := bind_bound rfl (by rw [Nat.mul_div_cancel f (by decide)]; exact hb f List.mem_cons_self) hv
      exact bindRange_bound (fun g hg => hb g (List.mem_cons_of_mem f hg)) h
    case h_2 => cases h

/-- R41: where the save area stands. -/
theorem saveArea_place {s u : State} {p : Place} (h : s.saveArea = some (u, p)) :
    p.loc = 1 ∧ p.key = 0
      ∧ p.addr = (match segAt s.cell.segs (segNo s.cell.as.sys.pwlsave) with | some e => e.base | none => 0)
          + (s.cell.as.sys.pwlsave.extractLsb' 0 58).toNat
      ∧ s.bindRange p.die ((List.range ((p.addr + Config.saveBytes - 1) / 65536 - p.addr / 65536 + 1)).map (p.addr / 65536 + ·)) = some u := by
  simp only [State.saveArea] at h
  split at h
  · cases h
  case h_2 e he =>
    split at h
    · cases h
    · obtain ⟨v, hv, hp⟩ := Option.map_eq_some_iff.mp h
      obtain ⟨rfl, rfl⟩ := Prod.mk.inj hp
      exact ⟨rfl, rfl, by rw [he], hv⟩

theorem saveArea_bound {s u : State} {p : Place} (h : s.saveArea = some (u, p))
    (hb : ∀ f, p.addr / 65536 ≤ f → f ≤ (p.addr + Config.saveBytes - 1) / 65536 → s.mem.boundTo 1 p.die f = some 0) : u = s := by
  obtain ⟨-, -, -, hrange⟩ := saveArea_place h
  refine bindRange_bound (fun f hf => ?_) hrange
  obtain ⟨k, hk, rfl⟩ := List.mem_map.mp hf
  have hk := List.mem_range.mp hk
  have hsize : Config.saveBytes = 147968 := rfl
  exact hb _ (by omega) (by omega)

/-! ## What saving the two lists leaves (R41, R258) -/

/-- The ES list that a trap saves. -/
def State.savedEs (s : State) : List EPend := if s.cell.as.sys.esHalted then s.cell.es.infl else []

/-- The state whose lines the saved words have taken. -/
def State.saveLines (s : State) (p : Place) : State :=
  s.eachLine (fun s q => s.touchStore (s.cell.who 0) s.cell q) p none (pwlWords s.core.infl s.savedEs)

theorem saveLines_sameButLines (s : State) (p : Place) : SameButLines s (s.saveLines p) :=
  eachLine_sameButLines (fun s _ => touchStore_sameButLines s _ _ _) p _ s _

/-- Saving the lists is the words of the two lists, put in order. -/
theorem savePwl_eq (s : State) (p : Place) : s.savePwl p =
    if s.cell.as.sys.esHalted then ((s.saveLines p).putAll p (pwlPuts s.core.infl s.savedEs)).updEs fun e => { e with infl := [] }
    else (s.saveLines p).putAll p (pwlPuts s.core.infl s.savedEs) := by
  have hcell : (s.saveLines p).cell = s.cell := (saveLines_sameButLines s p).cell
  have hcore : (s.saveLines p).core = s.core := congrArg (·.as.core) hcell
  have hsaved : ∀ (t : State) (al : List Pend) (el : List EPend),
      (t.saveAs p al (List.range 16)).saveEs p el (List.range 16) = t.putAll p (pwlPuts al el) := fun t al el => by
    rw [saveEs_eq, saveAs_eq, pwlPuts, putAll_append]
  have hputs := hsaved (s.saveLines p) s.core.infl s.savedEs
  have hkept : ((s.saveLines p).putAll p (pwlPuts s.core.infl s.savedEs)).cell = s.cell := by
    rw [← hputs, saveEs_cell, saveAs_cell, hcell]
  rw [← hcore, ← hsaved] at hkept ⊢
  have hshape : ∀ l, l = State.saveLines s p →
      s.savePwl p = if ((l.saveAs p l.core.infl (List.range 16)).saveEs p s.savedEs (List.range 16)).cell.as.sys.esHalted
        then ((l.saveAs p l.core.infl (List.range 16)).saveEs p s.savedEs (List.range 16)).updEs fun e => { e with infl := [] }
        else (l.saveAs p l.core.infl (List.range 16)).saveEs p s.savedEs (List.range 16) := by
    rintro l rfl
    unfold State.savePwl State.saveLines State.savedEs
    with_reducible rfl
  rw [hshape _ rfl, hkept]

/-- The state with the two lists in the save area. -/
def State.savedIn (u : State) (p : Place) : State := (u.noteSave.saveLines p).putAll p (pwlPuts u.core.infl u.savedEs)

theorem saveLines_noteSave (u : State) (p : Place) : SameButLines u (u.noteSave.saveLines p) :=
  (noteSave_sameButLines u).trans (saveLines_sameButLines _ p)

/-- R152: a trap that is handled keeps memory, parked cells and the cell's number as the saves leave them. -/
theorem handled_keeps (u : State) (p : Place) (c : Nat) (v : Word) : let t := (u.noteSave.savePwl p).enterHandler c v
    t.mem = (u.savedIn p).mem ∧ t.parked = (u.savedIn p).parked ∧ t.cell.id = (u.savedIn p).cell.id := by
  intro t
  have hcell : u.noteSave.cell = u.cell := (noteSave_sameButLines u).cell
  have hputs : (u.noteSave.saveLines p).putAll p (pwlPuts u.noteSave.core.infl u.noteSave.savedEs) = u.savedIn p := by
    rw [State.savedIn, State.savedEs, State.savedEs, State.core, State.core, hcell]
  have hsave : t.mem = (u.noteSave.savePwl p).mem ∧ t.parked = (u.noteSave.savePwl p).parked ∧ t.cell.id = (u.noteSave.savePwl p).cell.id :=
    ⟨rfl, rfl, rfl⟩
  obtain ⟨hm, hp, hi⟩ := hsave
  rw [hm, hp, hi, savePwl_eq, hputs]
  split
  · exact ⟨rfl, rfl, rfl⟩
  · exact ⟨rfl, rfl, rfl⟩

section
variable {u : State} {p : Place} (hl : p.loc = 1) (hk : ∀ k, 8 * k < Config.saveBytes → u.mem.keyFits (p.plus (8 * k)) = true)
  (hel : ∀ x ∈ u.savedEs, x.parts.length ≤ 32)
include hk hel

/-- Every word that the lists put stands under its key. -/
theorem puts_keyFits : ∀ a ∈ pwlPuts u.core.infl u.savedEs, (u.noteSave.saveLines p).mem.keyFits (p.plus a.1) = true := by
  intro a ha
  obtain ⟨-, halign, hend⟩ := pwlPuts_ok u.core.infl hel a ha
  have hfits := hk (a.1 / 8) (by omega)
  rw [show 8 * (a.1 / 8) = a.1 by omega] at hfits
  rw [(saveLines_noteSave u p).saveKeeps.keyFits, hfits]

include hl

theorem savedIn_keeps : SaveKeeps u (u.savedIn p) :=
  (saveLines_noteSave u p).saveKeeps.trans (putAll_keeps hl _ _ (puts_keyFits hk hel))

/-- R41: a word that does not reach into the save area is seen as before. -/
theorem view_savedIn_other (c : CellId) {k : Nat} (hout : k + 8 ≤ p.wkey ∨ p.wkey + Config.saveBytes ≤ k) :
    viewWord (u.savedIn p).mem c k = viewWord u.mem c k := by
  refine (view_putAll_other hl c _ _ (puts_keyFits hk hel) fun a ha => ?_).trans ((saveLines_noteSave u p).viewWord c k)
  obtain ⟨-, halign, hend⟩ := pwlPuts_ok u.core.infl hel a ha
  omega

/-- R41: the area holds the two lists, in any state with that memory. -/
theorem saved_savedIn {t : State} (hm : t.mem = (u.savedIn p).mem) (hi : t.cell.id = (u.savedIn p).cell.id) :
    Saved t p u.core.infl u.savedEs := by
  refine saved_of_puts fun a ha => ?_
  have hkeeps := savedIn_keeps hl hk hel
  have hfits := puts_keyFits hk hel
  have hview := view_putAll_same hl (areaWord u.core.infl u.savedEs) _ _ hfits
    (fun b hb => (pwlPuts_ok u.core.infl hel b hb).1) a ha
  rw [(saveLines_noteSave u p).cell] at hview
  have hfit : t.mem.keyFits (p.plus a.1) = true := by
    rw [hm, hkeeps.keyFits, ← (saveLines_noteSave u p).saveKeeps.keyFits]
    exact hfits a ha
  rw [getSave_of_view hfit, hm, hi, hkeeps.cell]
  exact hview

end

end Sys2Proof.Machine

namespace Sys2Proof.Proofs

open Sys2Proof.Machine Sys2Proof.Claims

/-- What TRAP leaves in the save area: the words of the two lists, which RETT reads back, and nothing beside them. -/
theorem trapSaves : TrapSaves := by
  refine ⟨fun s u o p hg hc hlvl htvec harea hkey => ?_, fun s u p harea => ?_⟩
  · intro el hlen
    have hcell : u.cell = s.cell := saveArea_cell harea
    obtain ⟨hloc, -, -, -⟩ := saveArea_place harea
    have hcore : u.core.infl = s.core.infl := by rw [State.core, hcell]; rfl
    have hsaved : u.savedEs = el := by rw [State.savedEs, hcell]
    rw [← hsaved] at hlen ⊢
    obtain ⟨hmem, hparked, hid⟩ := handled_keeps u p cSoftware (o.imm.zeroExtend 64)
    have hkeeps := savedIn_keeps hloc hkey hlen
    have harea' := saved_savedIn hloc hkey hlen hmem hid
    rw [hcore] at harea'
    refine ⟨_, by rw [exec_trap hg hc, takeTrap_handled hlvl htvec harea], harea', by rw [hmem, hkeeps.bytes], by rw [hmem, hkeeps.psn],
      hparked.trans hkeeps.parked, fun c k hout => ?_, fun hfit => saved_loads harea' hfit⟩
    rw [hmem]
    exact view_savedIn_other hloc hkey hlen c hout
  · obtain ⟨hloc, hkey, haddr, -⟩ := saveArea_place harea
    exact ⟨saveArea_cell harea, hloc, hkey, haddr, saveArea_bound harea⟩

/-- Settles O33: a trap that is handled writes what `enterHandler` says over the saved lists. -/
theorem trapEntry : Obligations.TrapEntry := by
  unfold Obligations.TrapEntry
  refine ⟨trapSaves, fun s u o p hg hc hlvl htvec harea => ?_⟩
  have hcell : u.noteSave.cell = s.cell := (noteSave_sameButLines u).cell.trans (saveArea_cell harea)
  refine ⟨_, by rw [exec_trap hg hc, takeTrap_handled hlvl htvec harea], ?_⟩
  obtain ⟨has, hv, hqs, hsems⟩ : (u.noteSave.savePwl p).cell.as = s.cell.as ∧ (u.noteSave.savePwl p).cell.es.v = s.cell.es.v
      ∧ (u.noteSave.savePwl p).cell.qs = s.cell.qs ∧ (u.noteSave.savePwl p).cell.sems = s.cell.sems := by
    rw [savePwl_cell, hcell]
    split <;> exact ⟨rfl, rfl, rfl, rfl⟩
  have hentry := enterHandler_cell (u.noteSave.savePwl p) cSoftware (o.imm.zeroExtend 64)
  rw [State.core, has] at hentry
  refine ⟨?_, ?_, ?_, ?_, ?_, ?_, ?_, ?_, fun r => ?_, fun r => ?_, hv, hqs, hsems⟩
  all_goals simp only [State.core, State.rg, State.rp, hentry]
  all_goals rfl

end Sys2Proof.Proofs
end

section
/-! SUPPORT. RETT and HALT (R155, R157): the branches of a return, and the state it restores; O35. -/

namespace Sys2Proof.Machine

open Sys2Proof.Claims

theorem rettReads_sameButLines (u : State) (p : Place) : SameButLines u (rettReads u p) :=
  eachLine_sameButLines (fun s _ => touchLine_sameButLines s _ _ _) p _ u _

theorem rettReads_cell (u : State) (p : Place) : (rettReads u p).cell = u.cell := (rettReads_sameButLines u p).cell

/-! ## The branches of a return (R41, R155) -/

/-- R155: at kernel or machine level RETT returns. -/
theorem exec_rett {s : State} {o : OpG} (hg : GuardOn s o.pg) (hc : Checked s) (hl : s.cell.as.lvl ≠ .program) :
    exec (.rett o) s = .next s.rett := by
  obtain ⟨htag, htrue⟩ := hg
  change execRett o s = _
  rw [execRett, State.atKernel, if_neg hl, guarded_on htag htrue, afterChecks_on hc]

theorem rett_noArea {s : State} (h : s.saveArea = none) : s.rett = s.escalate cFrame := by
  unfold State.rett
  rw [h]

section
variable {s u : State} {p : Place} (ha : s.saveArea = some (u, p))
include ha

theorem rett_error {k : Nat} (he : u.saveError p (rettSlots u) = some k) : s.rett =
    (u.meetError (u.cell.who 0) (l1Of u.cell (p.plus k).line) (p.plus k) (u.cell.as.sys.pwlsave + BitVec.ofNat 64 k)).escalate
      cUncorrectable := by
  unfold rettSlots at he
  simp only [State.rett, ha, he]

variable (he : u.saveError p (rettSlots u) = none)
include he

/-- R155: past the errors, what the slots read say. -/
theorem rett_read : s.rett = match (rettReads u p).badSlot p asSlotOk asSlots false with
    | some o => (rettReads u p).takeTrap cFrame (BitVec.ofNat 64 o)
    | none =>
      match (if (rettReads u p).cell.as.sys.esHalted then (rettReads u p).badSlot p esSlotOk esSlots false else none) with
      | some o => (rettReads u p).takeTrap cFrame (BitVec.ofNat 64 o)
      | none =>
        match (rettReads u p).resumeAs, (if (rettReads u p).cell.as.delivered then (rettReads u p).resumeEs else some none) with
        | some ar, some er => (rettReads u p).finishRett p ar er
        | _, _ => (rettReads u p).takeTrap cFrame 0 := by
  unfold rettSlots at he
  simp only [State.rett, ha, he, rettReads, rettSlots]
  rfl

theorem rett_badAs {k : Nat} (hb : (rettReads u p).badSlot p asSlotOk asSlots false = some k) :
    s.rett = (rettReads u p).takeTrap cFrame (BitVec.ofNat 64 k) := by
  rw [rett_read ha he, hb]

variable (hb : (rettReads u p).badSlot p asSlotOk asSlots false = none)
include hb

theorem rett_badEs {k : Nat} (hh : u.cell.as.sys.esHalted = true) (hk : (rettReads u p).badSlot p esSlotOk esSlots false = some k) :
    s.rett = (rettReads u p).takeTrap cFrame (BitVec.ofNat 64 k) := by
  rw [rett_read ha he, hb, rettReads_cell, hh, if_pos rfl, hk]

variable (hes : u.cell.as.sys.esHalted = true → (rettReads u p).badSlot p esSlotOk esSlots false = none)
include hes

theorem rett_slotsPass : s.rett = match (rettReads u p).resumeAs, (if u.cell.as.delivered then (rettReads u p).resumeEs else some none) with
    | some ar, some er => (rettReads u p).finishRett p ar er
    | _, _ => (rettReads u p).takeTrap cFrame 0 := by
  have hslots : (if u.cell.as.sys.esHalted then (rettReads u p).badSlot p esSlotOk esSlots false else none) = none := by
    split
    · exact hes (by assumption)
    · rfl
  rw [rett_read ha he, hb, rettReads_cell, hslots]

theorem rett_badFrame (hr : (rettReads u p).resumeAs = none ∨ (u.cell.as.delivered = true ∧ (rettReads u p).resumeEs = none)) :
    s.rett = (rettReads u p).takeTrap cFrame 0 := by
  rw [rett_slotsPass ha he hb hes]
  rcases hr with hr | ⟨hd, hr⟩
  · rw [hr]
  · rw [hd, if_pos rfl, hr]
    cases (rettReads u p).resumeAs <;> rfl

theorem rett_returns {ar er : Option RepSt} (har : (rettReads u p).resumeAs = some ar)
    (her : (if u.cell.as.delivered then (rettReads u p).resumeEs else some none) = some er) :
    s.rett = (rettReads u p).finishRett p ar er := by
  rw [rett_slotsPass ha he hb hes, har, her]

end

/-! ## The state that a return restores (R155) -/

/-- The return itself, before an ES fault not yet delivered is taken. -/
def State.restored (s : State) (p : Place) (ar er : Option RepSt) : State :=
  let al := asSlots.filterMap (s.loadAsSlot p)
  let el := if s.cell.as.esSaved then esSlots.filterMap (s.loadEsSlot p) else s.cell.es.infl
  let back := s.cell.as.delivered
  let s := s.updEs fun e =>
    if back then { e with infl := el, run := .running, pc := s.cell.as.sys.etrappc, rep := er } else { e with infl := el }
  (s.updAs fun a => { a with
    lvl := if a.lvl = .machine then .machine else .program
    delivered := false, esSaved := false
    sys := if back then { a.sys with esHalted := false, esPending := false } else a.sys
    core := a.core.resume a.sys.trappc ar al }).chargeAs

theorem finishRett_eq (s : State) (p : Place) (ar er : Option RepSt) : s.finishRett p ar er = (s.restored p ar er).esFaultAtRett := rfl

theorem restored_as (s : State) (p : Place) (ar er : Option RepSt) : (s.restored p ar er).cell.as = { s.cell.as with
    lvl := if s.cell.as.lvl = .machine then .machine else .program
    delivered := false, esSaved := false
    sys := if s.cell.as.delivered then { s.cell.as.sys with esHalted := false, esPending := false } else s.cell.as.sys
    core := s.core.resume s.cell.as.sys.trappc ar (asSlots.filterMap (s.loadAsSlot p)) } := by
  simp only [State.restored, State.chargeAs, charge_cell]
  rfl

theorem restored_es (s : State) (p : Place) (ar er : Option RepSt) : (s.restored p ar er).cell.es =
    let el := if s.cell.as.esSaved then esSlots.filterMap (s.loadEsSlot p) else s.cell.es.infl
    if s.cell.as.delivered then { s.cell.es with infl := el, run := .running, pc := s.cell.as.sys.etrappc, rep := er }
    else { s.cell.es with infl := el } := by
  simp only [State.restored, State.chargeAs, charge_cell]
  rfl

theorem restored_mem (s : State) (p : Place) (ar er : Option RepSt) : (s.restored p ar er).mem = s.mem := by
  simp only [State.restored, State.chargeAs, charge_mem]
  rfl

/-- R44: whether a return to program level takes an ES fault at once. -/
theorem restored_esFault (s : State) (p : Place) (ar er : Option RepSt) : s.finishRett p ar er =
    if s.cell.as.lvl ≠ .machine ∧ s.cell.as.sys.esPending = true ∧ s.cell.as.delivered = false
    then ((s.restored p ar er).updAs fun a => { a with delivered := true }).takeTrap cEsFault 0 else s.restored p ar er := by
  rw [finishRett_eq, State.esFaultAtRett, restored_as]
  cases s.cell.as.lvl <;> cases s.cell.as.delivered <;> simp

/-- R155: what the two cores of a return at either level have. -/
theorem restored_core (u : State) (p : Place) (ar er : Option RepSt) : let t := (rettReads u p).restored p ar er
    t.core.pc = u.cell.as.sys.trappc ∧ t.core.rep = ar
      ∧ t.core.infl = u.core.endTick.infl ++ asSlots.filterMap ((rettReads u p).loadAsSlot p) ∧ (∀ r, t.rg r = u.core.endTick.rg r)
      ∧ (∀ r, t.rp r = u.core.endTick.rp r) ∧ t.mem = (rettReads u p).mem := by
  intro t
  have hcore : t.core = u.core.resume u.cell.as.sys.trappc ar (asSlots.filterMap ((rettReads u p).loadAsSlot p)) := by
    rw [State.core, restored_as, State.core, rettReads_cell]
    rfl
  refine ⟨?_, ?_, ?_, fun r => ?_, fun r => ?_, restored_mem _ _ _ _⟩
  all_goals simp only [State.rg, State.rp, hcore]
  all_goals rfl

end Sys2Proof.Machine

namespace Sys2Proof.Proofs

open Sys2Proof.Machine Sys2Proof.Claims

/-- Settles O35: each branch of RETT by the check that decides it, and HALT by its guard and level. -/
theorem returnAndHalt : Obligations.ReturnAndHalt := by
  unfold Obligations.ReturnAndHalt
  refine ⟨?kernel, fun u p => ?reads, ?machine, ?frame, ?fails, ?noArea, ?halt, ?below⟩
  case kernel =>
    intro s u o p ar er hg hc hl ha he w hb hes har her
    have hlvl : u.cell.as.lvl = .kernel := by rw [saveArea_cell ha, hl]
    have hret : s.rett = w.finishRett p ar (if u.cell.as.delivered then er else none) := by
      refine rett_returns ha he hb hes har ?_
      split
      · exact her (by assumption)
      · rfl
    obtain ⟨hpc, hrep, hinfl, hrg, hrp, hmem⟩ := restored_core u p ar (if u.cell.as.delivered then er else none)
    have has := restored_as w p ar (if u.cell.as.delivered then er else none)
    have hes' := restored_es w p ar (if u.cell.as.delivered then er else none)
    rw [rettReads_cell] at has hes'
    refine ⟨w.restored p ar (if u.cell.as.delivered then er else none), ?_, ?_, hpc, hrep, hinfl, hrg, hrp, hmem, ?_, ?_, ?_, ?_, ?_, ?_, ?_⟩
    · rw [exec_rett hg hc (by rw [hl]; decide), hret, restored_esFault, rettReads_cell, hlvl]
      simp [cEsFault]
    · rw [has, hlvl]; rfl
    all_goals rw [hes']
    case refine_3 => cases u.cell.as.delivered <;> rfl
    case refine_4 => cases u.cell.as.delivered <;> rfl
    case refine_5 => cases u.cell.as.delivered <;> rfl
    case refine_6 => cases u.cell.as.delivered <;> rfl
    case refine_7 => cases u.cell.as.delivered <;> rfl
    case refine_8 =>
      intro hd
      rw [has, hd]
      exact ⟨rfl, rfl, rfl, rfl, rfl⟩
    case refine_9 =>
      intro hd
      rw [hd]
      exact ⟨rfl, rfl, rfl⟩
  case reads => exact ⟨rettReads_cell u p, (rettReads_sameButLines u p).parked, (rettReads_sameButLines u p).mem⟩
  case machine =>
    intro s u o p ar hg hc hl ha hh hd he w hb har
    have hslots : rettSlots u = asSlots := by rw [rettSlots, hh]; exact List.append_nil _
    have hlvl : u.cell.as.lvl = .machine := by rw [saveArea_cell ha, hl]
    have hret : s.rett = w.finishRett p ar none :=
      rett_returns ha (by rw [hslots, he]) hb (by rw [hh]; simp) har (by rw [hd]; rfl)
    refine ⟨w.restored p ar none, ?_, ?_, restored_core u p ar none⟩
    · rw [exec_rett hg hc (by rw [hl]; decide), hret, restored_esFault, rettReads_cell, hlvl]
      simp
    · rw [restored_as, rettReads_cell, hlvl]; rfl
  case frame =>
    intro s u o p hg hc hl ha he w hb hes hr
    rw [exec_rett hg hc hl, rett_badFrame ha he hb hes hr]
    rfl
  case fails =>
    intro s u o p hg hc hl ha w
    refine ⟨fun k he => ?_, fun k he hb => ?_, fun k he hb hh hk => ?_⟩
    · rw [exec_rett hg hc hl, rett_error ha he]; rfl
    · rw [exec_rett hg hc hl, rett_badAs ha he hb]; rfl
    · rw [exec_rett hg hc hl, rett_badEs ha he hb hh hk]; rfl
  case noArea =>
    intro s o hg hc hl ha
    rw [exec_rett hg hc hl, rett_noArea ha]
    rfl
  case halt =>
    intro s o hg hc hl
    obtain ⟨htag, htrue⟩ := hg
    have hexec : exec (.halt o) s = .next (s.retire.updAs fun a => { a with run := .halted }) := by
      change execHalt o s = _
      rw [execHalt, guarded_on htag htrue, if_pos hl, afterChecks_on hc]
    refine ⟨_, hexec, retire_core s, ?_, ?_, ?_, retire_sameModule s, fun a => ?_⟩
    · simp only [State.updAs, retire_cell]
      rfl
    · exact retire_parked s
    · exact retire_mem s
    · exact congrArg (fun m => memGet m.mem a) (retire_mem s)
  case below =>
    intro s o
    refine ⟨fun hg hl => ?_, fun hg => passes_of_exec ?_, fun htag => ?_⟩
    all_goals change execHalt o s = _
    all_goals rw [execHalt]
    · obtain ⟨htag, htrue⟩ := hg
      rw [guarded_on htag htrue, if_neg hl]
    · obtain ⟨htag, hfalse⟩ := hg
      rw [guarded_off htag hfalse]
    · rw [guarded_tagged htag]

end Sys2Proof.Proofs
end

section
/-! SUPPORT. The queues of every cell (R16, R21): the functions of the model that leave them as they are. -/

namespace Sys2Proof.Machine

open Sys2Proof.Claims

/-- The queues of a cell, and the copies of lq that a failing check would bring back. -/
def Cell.queues (c : Cell) : Queues × List (List QEnt) := (c.qs, c.snaps.map (·.lq))

/-- The queues of every cell. -/
def State.queues (s : State) : (Queues × List (List QEnt)) × List (Queues × List (List QEnt)) :=
  (s.cell.queues, s.parked.map Cell.queues)

theorem queues_congr {s t : State} (hq : t.cell.qs = s.cell.qs) (hs : t.cell.snaps = s.cell.snaps) (hp : t.parked = s.parked) :
    t.queues = s.queues := by
  simp only [State.queues, Cell.queues, hq, hs, hp]

@[simp] theorem queues_mk (s : State) (m : MemSt) (k : Pkg) (a : List Slot) (r f : Nat) :
    State.queues ⟨s.cell, s.parked, m, k, a, r, f⟩ = s.queues := rfl

@[simp] theorem updMem_queues (s : State) (f : MemSt → MemSt) : (s.updMem f).queues = s.queues := rfl
@[simp] theorem updPkg_queues (s : State) (f : Pkg → Pkg) : (s.updPkg f).queues = s.queues := rfl
@[simp] theorem updAs_queues (s : State) (f : AsSt → AsSt) : (s.updAs f).queues = s.queues := rfl
@[simp] theorem updEs_queues (s : State) (f : EsSt → EsSt) : (s.updEs f).queues = s.queues := rfl
@[simp] theorem setCore_queues (s : State) (c : AsCore) : (s.setCore c).queues = s.queues := rfl

/-- A change of the cell in focus beside its queues. -/
@[simp] theorem updFocus_queues {s : State} {f : Cell → Cell} (hq : (f s.cell).qs = s.cell.qs) (hs : (f s.cell).snaps = s.cell.snaps) :
    (s.updFocus f).queues = s.queues := queues_congr hq hs rfl

/-- A change of one cell, in focus or not, beside its queues. -/
@[simp] theorem updCell_queues {s : State} {id : CellId} {f : Cell → Cell} (hq : ∀ c, (f c).qs = c.qs) (hs : ∀ c, (f c).snaps = c.snaps) :
    (s.updCell id f).queues = s.queues := by
  have hcell : ∀ c, (f c).queues = c.queues := fun c => by rw [Cell.queues, hq, hs, Cell.queues]
  unfold State.updCell
  split
  · exact queues_congr (hq _) (hs _) rfl
  · simp only [State.queues, List.map_map]
    refine congrArg _ (List.map_congr_left fun c _ => ?_)
    simp only [Function.comp]
    split
    · exact hcell c
    · rfl

/-- A fold of changes that leave the queues. -/
@[simp] theorem foldl_queues {α : Type} {f : State → α → State} (h : ∀ s a, (f s a).queues = s.queues) :
    ∀ (l : List α) (s : State), (l.foldl f s).queues = s.queues
  | [], _ => rfl
  | a :: r, s => (foldl_queues h r (f s a)).trans (h s a)

@[simp] theorem setEng_qs (c : Cell) (e : Eng) (x : EngSt) : (c.setEng e x).qs = c.qs := by cases e <;> rfl
@[simp] theorem setEng_snaps (c : Cell) (e : Eng) (x : EngSt) : (c.setEng e x).snaps = c.snaps := by cases e <;> rfl
@[simp] theorem setSem_qs (c : Cell) (n : SemNo) (x : Sem) : (c.setSem n x).qs = c.qs := by
  unfold Cell.setSem
  split <;> rfl
@[simp] theorem setSem_snaps (c : Cell) (n : SemNo) (x : Sem) : (c.setSem n x).snaps = c.snaps := by
  unfold Cell.setSem
  split <;> rfl
@[simp] theorem setTlb_qs (c : Cell) (a : TlbAgent) (l : List TlbEnt) : (c.setTlb a l).qs = c.qs := by
  unfold Cell.setTlb
  split <;> rfl
@[simp] theorem setTlb_snaps (c : Cell) (a : TlbAgent) (l : List TlbEnt) : (c.setTlb a l).snaps = c.snaps := by
  unfold Cell.setTlb
  split <;> rfl
@[simp] theorem tlbFill_qs (c : Cell) (a : TlbAgent) (e : TlbEnt) : (c.tlbFill a e).qs = c.qs := setTlb_qs c a _
@[simp] theorem tlbFill_snaps (c : Cell) (a : TlbAgent) (e : TlbEnt) : (c.tlbFill a e).snaps = c.snaps := setTlb_snaps c a _
@[simp] theorem tlbEvict_qs (c : Cell) (n : Nat) : (c.tlbEvict n).qs = c.qs := by simp only [Cell.tlbEvict]; split_ifs <;> rfl
@[simp] theorem tlbEvict_snaps (c : Cell) (n : Nat) : (c.tlbEvict n).snaps = c.snaps := by simp only [Cell.tlbEvict]; split_ifs <;> rfl
@[simp] theorem tileUpset_qs (c : Cell) (t r j : Nat) : (c.tileUpset t r j).qs = c.qs := rfl
@[simp] theorem tileUpset_snaps (c : Cell) (t r j : Nat) : (c.tileUpset t r j).snaps = c.snaps := rfl

@[simp] theorem setPort_qs (c : Cell) (h : Bool) (p : PortSt) : (c.setPort h p).qs = c.qs := by cases h <;> rfl
@[simp] theorem setPort_snaps (c : Cell) (h : Bool) (p : PortSt) : (c.setPort h p).snaps = c.snaps := by cases h <;> rfl

@[simp] theorem resetEngines_qs (c : Cell) : (c.resetEngines).qs = c.qs := rfl
@[simp] theorem resetEngines_snaps (c : Cell) : (c.resetEngines).snaps = c.snaps := rfl

end Sys2Proof.Machine
end

section
/-! SUPPORT. The queues of every cell (R16, R21): the operations of the model that leave them as they are. -/

namespace Sys2Proof.Machine

open Sys2Proof.Claims

@[simp] theorem nextSlot_queues (s : State) : (s.nextSlot).1.queues = s.queues := by unfold State.nextSlot; split <;> simp

@[simp] theorem mark_queues (s : State) (t : Turn) : (s.mark t).queues = s.queues := by unfold State.mark; split <;> simp

@[simp] theorem report_queues (s : State) (r : Report) : (s.report r).queues = s.queues := by
  simp only [State.report]
  (repeat' split) <;> simp

@[simp] theorem reportFound_queues (s : State) (c line code die : Nat) : (s.reportFound c line code die).queues = s.queues := by
  simp [State.reportFound]

@[simp] theorem noteBeats_queues (s : State) (die addr n : Nat) : (s.noteBeats die addr n).queues = s.queues := rfl

@[simp] theorem detected_queues (s : State) (d : Detection) : (s.detected d).queues = s.queues := rfl

@[simp] theorem foundError_queues (s : State) (c line die : Nat) : (s.foundError c line die).queues = s.queues := by
  simp only [State.foundError]
  cases homeFault (keyLoc line) (keyUnit line) (keyAddr line) (s.mem.bus.any fun k => k / 64 = line / 64) <;> simp <;> split <;> simp

@[simp] theorem scrubFrame_queues (s : State) (loc die frame key : Nat) : (s.scrubFrame loc die frame key).queues = s.queues := by
  simp [State.scrubFrame]

/-- R292: binding a frame leaves the queues. -/
theorem bind_queues {s t : State} {w : CellId} {p : Place} {u : Bool} (h : s.bind w p u = some t) : t.queues = s.queues := by
  simp only [State.bind] at h
  repeat' split at h
  all_goals cases h <;> simp

theorem bindRange_queues {d : Nat} : ∀ {l : List Nat} {s t : State}, s.bindRange d l = some t → t.queues = s.queues
  | [], _, _, h => by cases h; rfl
  | f :: r, s, t, h => by
    unfold State.bindRange at h
    split at h
    · next u hu => exact (bindRange_queues h).trans (bind_queues hu)
    · cases h

theorem saveArea_queues {s u : State} {p : Place} (h : s.saveArea = some (u, p)) : u.queues = s.queues := by
  obtain ⟨-, -, -, hrange⟩ := saveArea_place h
  exact bindRange_queues hrange

@[simp] theorem blockAs_queues (s : State) (who : CellId) (p : Place) : (s.blockAs who p).1.queues = s.queues := by
  unfold State.blockAs
  split <;> simp

@[simp] theorem toKey_queues (s : State) (p : Place) : (s.toKey p).queues = s.queues := by simp [State.toKey]

@[simp] theorem putAlien_queues (s : State) (p : Place) (v : Word) (mask : BitVec 8) (psn : Bool) :
    (s.putAlien p v mask psn).queues = s.queues := by
  grind [State.putAlien, toKey_queues, updMem_queues]

@[simp] theorem writeW_queues (s : State) (eng : Bool) (seq : Nat) (cls : Cls) (since : Nat) (p : Place) (v : Word)
    (mask : BitVec 8) (psn : Bool) :
    (s.writeW eng seq cls since p v mask psn).queues = s.queues := by
  unfold State.writeW
  split <;> simp

@[simp] theorem putSave_queues (s : State) (p : Place) (off : Nat) (v : Word) : (s.putSave p off v).queues = s.queues := by
  simp [State.putSave]

@[simp] theorem putWide_queues {w : Nat} (p : Place) :
    ∀ (n : Nat) (s : State) (off : Nat) (v : BitVec w), (s.putWide p off v n).queues = s.queues
  | 0, _, _, _ => rfl
  | n + 1, s, off, v => by rw [State.putWide, putWide_queues p n, putSave_queues]

@[simp] theorem putPart_queues (s : State) (p : Place) (off i : Nat) (x : EPart) : (s.putPart p off i x).queues = s.queues := by
  simp [State.putPart]

@[simp] theorem saveParts_queues (s : State) (p : Place) (off : Nat) (l : List EPart) :
    (s.saveParts p off l).queues = s.queues := by
  simp [State.saveParts]

@[simp] theorem saveEs_queues (p : Place) : ∀ (ks : List Nat) (s : State) (l : List EPend), (s.saveEs p l ks).queues = s.queues
  | [], _, _ => rfl
  | _ :: ks, _, [] => by simp [State.saveEs, saveEs_queues p ks]
  | _ :: ks, _, _ :: _ => by simp [State.saveEs, saveEs_queues p ks]

@[simp] theorem updCtx_queues (s : State) (n : Nat) (f : CtxSt → CtxSt) : (s.updCtx n f).queues = s.queues := rfl

@[simp] theorem charge_queues (s : State) (ctx : Option Nat) (col : CellId) (cls n : Nat) :
    (s.charge ctx col cls n).queues = s.queues := by
  simp only [State.charge]
  (repeat' split) <;> simp

@[simp] theorem chargeRoute_queues (s : State) (w : Who) (col : CellId) (p : Place) :
    (s.chargeRoute w col p).queues = s.queues := by
  unfold State.chargeRoute
  split <;> simp

@[simp] theorem chargeLine_queues (s : State) (w : Who) (p : Place) : (s.chargeLine w p).queues = s.queues := by
  simp [State.chargeLine]

@[simp] theorem fetchHost_queues (s : State) (w : Who) (die : Nat) (p : Place) (keep : Bool) :
    (s.fetchHost w die p keep).queues = s.queues := by
  simp only [State.fetchHost]
  (repeat' split) <;> simp

@[simp] theorem touchLine_queues (s : State) (w : Who) (c : Cell) (p : Place) : (s.touchLine w c p).queues = s.queues := by
  simp only [State.touchLine]
  (repeat' split) <;> simp

@[simp] theorem touchStore_queues (s : State) (w : Who) (c : Cell) (p : Place) : (s.touchStore w c p).queues = s.queues := by
  simp only [State.touchStore]
  (repeat' split) <;> simp

@[simp] theorem saveAs_queues (p : Place) : ∀ (ks : List Nat) (s : State) (l : List Pend), (s.saveAs p l ks).queues = s.queues
  | [], _, _ => rfl
  | _ :: ks, _, [] => by simp [State.saveAs, saveAs_queues p ks]
  | _ :: ks, _, _ :: _ => by simp [State.saveAs, saveAs_queues p ks]

/-- R375: reaching lines one by one. -/
@[simp] theorem eachLine_queues {f : State → Place → State} (hf : ∀ s q, (f s q).queues = s.queues) (p : Place) :
    ∀ (l : List Nat) (s : State) (prev : Option Nat), (s.eachLine f p prev l).queues = s.queues
  | [], _, _ => rfl
  | o :: r, s, prev => by
    rw [State.eachLine, eachLine_queues hf p r]
    split
    · rfl
    · exact hf _ _

@[simp] theorem savePwl_queues (s : State) (p : Place) : (s.savePwl p).queues = s.queues := by
  simp only [State.savePwl]
  (repeat' split) <;> simp

@[simp] theorem hostPutByte_queues (s : State) (a : Nat) (b : Byte) : (s.hostPutByte a b).queues = s.queues := rfl

@[simp] theorem writeMap_queues : ∀ (l : List Byte) (s : State) (b : Nat), (s.writeMap b l).queues = s.queues
  | [], _, _ => rfl
  | _ :: r, s, b => by rw [State.writeMap, writeMap_queues r, hostPutByte_queues]

@[simp] theorem updStream_queues (s : State) (n : Nat) (f : Stream → Stream) : (s.updStream n f).queues = s.queues := rfl

@[simp] theorem hostPut_queues (s : State) (a : Nat) (v : Word) : (s.hostPut a v).queues = s.queues := rfl

@[simp] theorem putDword0_queues (s : State) (x : Stream) : (s.putDword0 x).queues = s.queues := rfl

@[simp] theorem putStream_queues (s : State) (x : Stream) : (s.putStream x).queues = s.queues := by
  simp only [State.putStream]
  (repeat' split) <;> simp

@[simp] theorem streamOn_queues (s : State) (n : Nat) (ev : StreamEv) : (s.streamOn n ev).queues = s.queues := by
  simp only [State.streamOn]
  (repeat' split) <;> simp

@[simp] theorem resetStreams_queues (s : State) (gone : Stream → Bool) : (s.resetStreams gone).queues = s.queues := by
  refine foldl_queues (fun s x => ?_) _ s
  split
  · exact streamOn_queues _ _ _
  · rfl

@[simp] theorem updPart_queues (s : State) (n : Nat) (f : PartSt → PartSt) : (s.updPart n f).queues = s.queues := rfl

@[simp] theorem updCq_queues (s : State) (ctx q : Nat) (f : CqSt → CqSt) : (s.updCq ctx q f).queues = s.queues := rfl

@[simp] theorem cqAdvance_queues (s : State) (c q : Nat) (e : CqEnt) : (s.cqAdvance c q e).queues = s.queues := rfl

@[simp] theorem fencesFrom_queues (c q : Nat) : ∀ (n : Nat) (s : State), (s.fencesFrom c q n).queues = s.queues
  | 0, _ => rfl
  | n + 1, s => by
    simp only [State.fencesFrom]
    split
    · rfl
    · rw [fencesFrom_queues c q n, cqAdvance_queues]

@[simp] theorem startFences_queues (s : State) (c q : Nat) : (s.startFences c q).queues = s.queues := by simp [State.startFences]

@[simp] theorem startAllFences_queues (s : State) (c : Nat) : (s.startAllFences c).queues = s.queues := by
  simp [State.startAllFences]

@[simp] theorem rewindCtx_queues (s : State) (c : Nat) : (s.rewindCtx c).queues = s.queues := by
  simp only [State.rewindCtx]
  split <;> simp

@[simp] theorem hostPuts_queues : ∀ (l : List Word) (s : State) (a : Nat), (s.hostPuts a l).queues = s.queues
  | [], _, _ => rfl
  | _ :: r, s, a => by rw [State.hostPuts, hostPuts_queues r, hostPut_queues]

@[simp] theorem writeReport_queues (s : State) (r : Report) : (s.writeReport r).queues = s.queues := by
  grind [State.writeReport, hostPut_queues, hostPuts_queues, updPkg_queues, updCtx_queues]

@[simp] theorem noteHeld_queues (s : State) : (s.noteHeld).queues = s.queues := rfl

@[simp] theorem deliver_queues (s : State) (die : Nat) : (s.deliver die).queues = s.queues := by
  simp only [State.deliver]
  (repeat' split) <;> simp

@[simp] theorem enterHandler_queues (s : State) (cause : Nat) (val : Word) : (s.enterHandler cause val).queues = s.queues := rfl

@[simp] theorem noteSegWrite_queues (s : State) (cx : Cx) (seg : Nat) (e : SegEnt) :
    (s.noteSegWrite cx seg e).queues = s.queues := by
  simp only [State.noteSegWrite]
  (repeat' split) <;> simp

@[simp] theorem noteSave_queues (s : State) : (s.noteSave).queues = s.queues := by simp only [State.noteSave]; split <;> simp

@[simp] theorem chargeAs_queues (s : State) : (s.chargeAs).queues = s.queues := by simp [State.chargeAs]

@[simp] theorem retire_queues (s : State) : (s.retire).queues = s.queues := by simp [State.retire]

@[simp] theorem ringSet_queues (s : State) (base size n : Nat) (w : Word32) (psn : Bool) :
    (s.ringSet base size n w psn).queues = s.queues :=
  rfl

@[simp] theorem ringPut_queues (s : State) (e : Eng) (base size : Nat) (w : Word32) :
    (s.ringPut e base size w).queues = s.queues := by
  simp [State.ringPut]

@[simp] theorem ringPuts_queues (e : Eng) (base size : Nat) :
    ∀ (l : List Word32) (s : State), (s.ringPuts e base size l).queues = s.queues
  | [], _ => rfl
  | _ :: r, s => by simp [State.ringPuts, ringPuts_queues e base size r]

@[simp] theorem ageEnums_queues (s : State) (part lvl : Nat) : (s.ageEnums part lvl).queues = s.queues := rfl

@[simp] theorem scribble_queues (s : State) (key n : Nat) : (s.scribble key n).queues = s.queues := rfl

@[simp] theorem writeBody_queues (s : State) (part slot : Nat) : (s.writeBody part slot).queues = s.queues := by
  simp [State.writeBody]

@[simp] theorem updLaunch_queues (s : State) (id : Nat) (f : Launch → Launch) : (s.updLaunch id f).queues = s.queues := rfl

@[simp] theorem enqueueRec_queues (s : State) (part prio : Nat) (r : Rec) : (s.enqueueRec part prio r).queues = s.queues := by
  simp only [State.enqueueRec]
  split <;> simp

@[simp] theorem placeSingle_queues (s : State) (l : Launch) : (s.placeSingle l).queues = s.queues := by
  simp only [State.placeSingle]
  (repeat' split) <;> simp

@[simp] theorem placeSingles_queues (s : State) (part : Nat) : (s.placeSingles part).queues = s.queues := by
  simp [State.placeSingles]

@[simp] theorem ageFifo_queues (s : State) (part lvl : Nat) : (s.ageFifo part lvl).queues = s.queues := by
  simp only [State.ageFifo]
  (repeat' split) <;> simp

@[simp] theorem dropOp_queues (s : State) (n : Nat) : (s.dropOp n).queues = s.queues := rfl

@[simp] theorem lineError_queues (s : State) (w : Who) (p : Place) (sa : Word) (code : Nat) (d : Option Detection) :
    (s.lineError w p sa code d).queues = s.queues := by
  cases d <;> simp only [State.lineError] <;> split <;> simp

@[simp] theorem meetError_queues (s : State) (w : Who) (l1 : CellId) (p : Place) (sa : Word) :
    (s.meetError w l1 p sa).queues = s.queues := by
  simp only [State.meetError]
  (repeat' split) <;> simp

@[simp] theorem passLine_queues (s : State) (w : Who) (c : Cell) (p : Place) (sa : Word) :
    (s.passLine w c p sa).queues = s.queues := by
  simp [State.passLine]

@[simp] theorem loadVal_queues (s : State) (x : TW) : (s.loadVal x).1.queues = s.queues := by unfold State.loadVal; split <;> simp

@[simp] theorem oneOf_queues (s : State) (x : TW) (l : List TW) : (s.oneOf x l).1.queues = s.queues := by
  unfold State.oneOf
  split <;> simp

@[simp] theorem deciphered_queues (s : State) (who : CellId) (p : Place) (x : TW) :
    (s.deciphered who p x).1.queues = s.queues := by
  simp only [State.deciphered]
  (repeat' split) <;> simp

@[simp] theorem tellShared_queues (s : State) (w : Who) (p : Place) (sa : Word) : (s.tellShared w p sa).queues = s.queues := by
  simp only [State.tellShared]
  (repeat' split) <;> simp

@[simp] theorem readAny_queues (s : State) (older : Bool) (w : Who) (p : Place) (sa : Word) :
    (s.readAny older w p sa).1.queues = s.queues := by
  unfold State.readAny
  split <;> simp

@[simp] theorem readW_queues (s : State) (w : Who) (p : Place) (sa : Word) : (s.readW w p sa).1.queues = s.queues := by
  simp [State.readW]

@[simp] theorem performStore_queues (s : State) (n : Nat) (o : MOp) (p : Place) (v : Word) (psn : Bool) :
    (s.performStore n o p v psn).queues = s.queues := by
  simp [State.performStore]

@[simp] theorem setSem_queues (s : State) (n : SemNo) (x : Sem) : (s.setSem n x).queues = s.queues := by simp [State.setSem]

@[simp] theorem signal_queues (s : State) (n : SemNo) : (s.signal n).queues = s.queues := by
  simp only [State.signal]
  split
  · split
    · exact (updFocus_queues rfl rfl).trans (setSem_queues s n _)
    · exact setSem_queues s n _
  · rfl

@[simp] theorem performSignal_queues (s : State) (n : Nat) (x : SemNo) : (s.performSignal n x).queues = s.queues := by
  simp [State.performSignal]

@[simp] theorem writeAtW_queues (s : State) (seq : Nat) (cls : Cls) (since : Nat) (p : Place) (v : Word) (psn : Bool) (r : Nat) :
    (s.writeAtW seq cls since p v psn r).queues = s.queues := by
  grind [State.writeAtW, putAlien_queues, updMem_queues]

@[simp] theorem readNew_queues (s : State) (w : Who) (p : Place) (sa : Word) : (s.readNew w p sa).1.queues = s.queues := by
  simp [State.readNew]

@[simp] theorem rmw_queues (s : State) (seq : Nat) (cls : Cls) (scope : Scope) (since : Nat) (sa : Word) (p : Place)
    (f : Word → Option Word) :
    (s.rmw seq cls scope since sa p f).1.queues = s.queues := by
  simp only [State.rmw]
  (repeat' split) <;> simp

@[simp] theorem updPower_queues (s : State) (f : PowerSt → PowerSt) : (s.updPower f).queues = s.queues := rfl

@[simp] theorem updMgmt_queues (s : State) (f : MgmtSt → MgmtSt) : (s.updMgmt f).queues = s.queues := rfl

@[simp] theorem staticCharge_queues (s : State) (at_ part : Nat) : (s.staticCharge at_ part).queues = s.queues := by
  simp only [State.staticCharge]
  (repeat' split) <;> simp

@[simp] theorem staticTick_queues (s : State) : (s.staticTick).queues = s.queues := by
  simp only [State.staticTick]
  split <;> simp

@[simp] theorem staticTicks_queues : ∀ (n : Nat) (s : State), (s.staticTicks n).queues = s.queues
  | 0, _ => rfl
  | n + 1, s => by rw [State.staticTicks, staticTicks_queues n, staticTick_queues]

@[simp] theorem settleStatics_queues (s : State) : (s.settleStatics).queues = s.queues := by simp [State.settleStatics]

@[simp] theorem setSlots_queues (s : State) (o : Nat) (v : Word) : (s.setSlots o v).queues = s.queues := by
  refine foldl_queues (fun s i => ?_) _ s
  dsimp only
  split
  · rfl
  · exact updMgmt_queues _ _

@[simp] theorem wakeMs_queues (s : State) : s.wakeMs.queues = s.queues :=
  updCell_queues (fun c => by split <;> rfl) (fun c => by split <;> rfl)

@[simp] theorem abandonSwaps_queues (s : State) (c : Nat) : (s.abandonSwaps c).queues = s.queues := by
  refine foldl_queues (fun s x => ?_) _ s
  split
  · exact streamOn_queues _ _ _
  · rfl

@[simp] theorem chargeEs_queues (s : State) (regs : Nat) : (s.chargeEs regs).queues = s.queues := by simp [State.chargeEs]

@[simp] theorem esNext_queues (s : State) (regs : optParam Nat 1) : (s.esNext regs).queues = s.queues := by simp [State.esNext]

@[simp] theorem updSys_queues (s : State) (f : SysRegs → SysRegs) : (s.updSys f).queues = s.queues := rfl

@[simp] theorem esFault_queues (s : State) (cause : Nat) (val : Word) : (s.esFault cause val).queues = s.queues := rfl

@[simp] theorem esLegalOr_queues (s : State) (i : Instr) (go : State → State) (h0 : ∀ x0, (go x0).queues = x0.queues) :
    (s.esLegalOr i go).queues = s.queues := by
  simp only [State.esLegalOr]
  (repeat' split) <;> simp [*]

@[simp] theorem esPush_queues (s : State) (lat : Nat) (cls : EClass) (num : Nat) (parts : List EPart) (flg : BitVec 6) :
    (s.esPush lat cls num parts flg).queues = s.queues :=
  rfl

@[simp] theorem esWrite_queues (s : State) (lat : Nat) (d : VReg) (w k : Nat) (els : List (Option Nat)) (tag : Bool)
    (flg : BitVec 6) (regs : optParam Nat k) :
    (s.esWrite lat d w k els tag flg regs).queues = s.queues := by
  simp [State.esWrite]

@[simp] theorem elementwise1_queues (s : State) (i : Instr) (m : MReg) (d a : VReg) (lat : Nat) (f : Ev → Nat → Nat × BitVec 6) :
    (s.elementwise1 i m d a lat f).queues = s.queues := by
  simp [State.elementwise1]

@[simp] theorem updRow_queues (s : State) (t r : Nat) (f : TRow → TRow) : (s.updRow t r f).queues = s.queues := rfl

@[simp] theorem tileRow_queues (s : State) (i : Instr) (t : BitVec 2) (row : BitVec 6) (chunk : Nat) (go : State → TRow → State)
    (h0 : ∀ x0 x1, (go x0 x1).queues = x0.queues) :
    (s.tileRow i t row chunk go).queues = s.queues := by
  simp only [State.tileRow]
  (repeat' split) <;> simp [*]

@[simp] theorem reportPte_queues (s : State) (w : Who) (sa : Word) : (s.reportPte w sa).queues = s.queues := by
  unfold State.reportPte
  split <;> simp

@[simp] theorem walkDown_queues (w : Who) (sa : Word) (va : Nat) :
    ∀ (l : List Nat) (s : State) (k : Place) (e : Word), (s.walkDown w sa va l k e).1.queues = s.queues
  | [], _, _, _ => rfl
  | lvl :: rest, s, k, e => by
    simp only [State.walkDown]
    (repeat' split) <;> simp [walkDown_queues w sa va rest]

@[simp] theorem putKeyed_queues (s : State) (p : Place) (v : Word) (mask : BitVec 8) (psn : Bool) :
    (s.putKeyed p v mask psn).queues = s.queues := by
  unfold State.putKeyed
  split <;> simp

/-- What a call that also answers a value leaves. -/
theorem queues_of_eq {α : Type} {s t : State} {x : State × α} {a : α} (h : x = (t, a)) (hx : x.1.queues = s.queues) :
    t.queues = s.queues := by
  rw [h] at hx
  exact hx

@[simp] theorem walk_queues (s : State) (cx : Cx) (seg : Nat) (e : SegEnt) (off : Nat) (wr : Bool) :
    (s.walk cx seg e off wr).1.queues = s.queues := by
  simp only [State.walk]
  split
  · next t h => exact queues_of_eq h (walkDown_queues _ _ _ _ _ _ _)
  · next t k lf h =>
    have hdown := queues_of_eq h (walkDown_queues _ _ _ _ _ _ _)
    split
    · exact hdown
    · split
      · exact hdown
      · next u hu =>
        have hbind := (bind_queues hu).trans hdown
        (repeat' split) <;> simp [hbind]

@[simp] theorem bindWord_queues (s : State) (w : CellId) (p : Place) (n : Nat) : (s.bindWord w p n).1.queues = s.queues := by
  unfold State.bindWord
  split
  · rfl
  · next t ht =>
    split
    · exact bind_queues ht
    · split
      · exact bind_queues ht
      · next u hu => exact (bind_queues hu).trans (bind_queues ht)

@[simp] theorem xlate_queues (s : State) (cx : Cx) (seg : Nat) (e : SegEnt) (off : Nat) (wr : Bool) :
    (s.xlate cx seg e off wr).1.queues = s.queues := by
  have hwalk : ∀ x : State × Except XErr Word, x.1.queues = s.queues → (match x with
      | (s, .ok lf) => (s, Except.ok (leafXl e off lf))
      | (s, .error z) => (s, .error z)).1.queues = s.queues := fun x hx => by
    split <;> exact hx
  simp only [State.xlate]
  split
  · rfl
  · split
    · split
      · split
        · exact hwalk _ (walk_queues s cx seg e off wr)
        · rfl
      · exact hwalk _ (walk_queues s cx seg e off wr)
    · split
      · rfl
      · split
        · next h => exact queues_of_eq h (bindWord_queues _ _ _ _)
        · next h =>
          have hb := queues_of_eq h (bindWord_queues _ _ _ _)
          split
          · exact (noteSegWrite_queues _ _ _ _).trans hb
          · exact hb

@[simp] theorem xlCheck_queues (s : State) (n : Need) (seg off : Nat) (e : SegEnt) :
    (s.xlCheck n seg off e).1.queues = s.queues := by
  grind [State.xlCheck, xlate_queues]

@[simp] theorem asAccess_queues (s : State) (n : Need) (base : Word) (off8 : BitVec 8) :
    (s.asAccess n base off8).1.queues = s.queues := by
  simp only [State.asAccess]
  (repeat' split) <;> simp

@[simp] theorem retireModule_queues (s : State) (a b : Nat) : (s.retireModule a b).queues = s.queues := by
  simp only [State.retireModule]
  split
  · refine foldl_queues (fun s x => ?_) _ _
    split
    · exact streamOn_queues _ _ _
    · rfl
  · rfl

@[simp] theorem chardReport_queues (s : State) (outcome : Nat) : (s.chardReport outcome).queues = s.queues := by
  simp [State.chardReport]

@[simp] theorem spareLeft_queues (s : State) : (s.spareLeft).1.queues = s.queues := rfl

@[simp] theorem jump_queues (s : State) (x : Word) : (s.jump x).queues = s.queues := by simp [State.jump]

@[simp] theorem restart_queues (s : State) (x : Stream) : (s.restart x).queues = s.queues := by simp [State.restart]

@[simp] theorem finishStream_queues (s : State) (n : Nat) : (s.finishStream n).queues = s.queues := by
  grind [State.finishStream, restart_queues, hostPuts_queues, updStream_queues]

@[simp] theorem keyCommand_queues (s : State) (ok : Bool) (f : State → State) (h0 : ∀ x0, (f x0).queues = x0.queues) :
    (s.keyCommand ok f).queues = s.queues := by
  simp only [State.keyCommand]
  (repeat' split) <;> simp [*]

@[simp] theorem fetched_queues (s : State) (c : CellId) (k : Nat) (now : TW) : (s.fetched c k now).1.queues = s.queues := by
  unfold State.fetched
  split <;> simp

@[simp] theorem fetchWord_queues (s : State) (agent : Nat) (base : Word) (size : Nat) (pc : Word) :
    (s.fetchWord agent base size pc).1.queues = s.queues := by
  simp only [State.fetchWord]
  split
  · rfl
  · split
    · rfl
    · split
      · rfl
      · split
        · next h => exact queues_of_eq h (xlate_queues _ _ _ _ _ _)
        · next h =>
          have hx := queues_of_eq h (xlate_queues _ _ _ _ _ _)
          split
          · exact hx
          · simp [hx]

@[simp] theorem dropHeld_queues (s : State) : (s.dropHeld).queues = s.queues := rfl

@[simp] theorem errReport_queues (s : State) (agent pos code done : Nat) :
    (s.errReport agent pos code done).queues = s.queues := by
  simp [State.errReport]

@[simp] theorem setTold_queues (s : State) (e : Eng) (b : Bool) : (s.setTold e b).queues = s.queues := by simp [State.setTold]

@[simp] theorem errorSem_queues (s : State) (n : SemNo) (code : Byte) : (s.errorSem n code).queues = s.queues := by
  simp only [State.errorSem]
  (repeat' split) <;> simp

@[simp] theorem completeWith_queues (s : State) (sig : SemNo) (code : Nat) : (s.completeWith sig code).queues = s.queues := by
  unfold State.completeWith
  split <;> simp

@[simp] theorem setCmd_queues (s : State) (e : Eng) (c : Option Cmd) : (s.setCmd e c).queues = s.queues := by simp [State.setCmd]

@[simp] theorem endCmd_queues (s : State) (e : Eng) (c : Cmd) (h : Hdr) (code done : Nat) :
    (s.endCmd e c h code done).queues = s.queues := by
  simp only [State.endCmd]
  (repeat' split) <;> simp

@[simp] theorem runCmd_queues (s : State) (e : Eng) (i : Instr) (h : Hdr) (run : State → Cmd → State)
    (h0 : ∀ x0 x1, (run x0 x1).queues = x0.queues) :
    (s.runCmd e i h run).queues = s.queues := by
  simp only [State.runCmd]
  (repeat' split) <;> simp [*]

@[simp] theorem engPage_queues (s : State) (e : Eng) (seg : Nat) (ent : SegEnt) (off n : Nat) (wr cmp : Bool) (xl : List TlbEnt) :
    (s.engPage e seg ent off n wr cmp xl).1.queues = s.queues := by
  simp only [State.engPage]
  split
  · next h => exact queues_of_eq h (xlate_queues _ _ _ _ _ _)
  · next h =>
    have hx := queues_of_eq h (xlate_queues _ _ _ _ _ _)
    split_ifs <;> exact hx

@[simp] theorem engPages_queues (e : Eng) (seg : Nat) (ent : SegEnt) (wr cmp : Bool) :
    ∀ (l : List (Nat × Nat)) (s : State) (xl : List TlbEnt) (code : Nat), (s.engPages e seg ent wr cmp xl code l).1.queues = s.queues
  | [], _, _, _ => rfl
  | o :: r, s, xl, code => by
    rw [State.engPages]
    exact (engPages_queues e seg ent wr cmp r _ _ _).trans (engPage_queues s e seg ent o.1 o.2 wr cmp xl)

@[simp] theorem engRange_queues (s : State) (e : Eng) (seg off n : Nat) (wr cmp : Bool) (xl : List TlbEnt) :
    (s.engRange e seg off n wr cmp xl).1.queues = s.queues := by
  unfold State.engRange
  split
  · rfl
  · split_ifs <;> simp

@[simp] theorem endRun_queues (s : State) (e : Eng) (c : Cmd) (h : Hdr) (code done : Nat) :
    (s.endRun e c h code done).queues = s.queues := by
  simp [State.endRun]

@[simp] theorem chargePiece_queues (s : State) (w : Who) (p : Place) : (s.chargePiece w p).queues = s.queues := by
  simp only [State.chargePiece]
  (repeat' split) <;> simp

@[simp] theorem chargeRun_queues (s : State) (w : Who) (p : Place) (off : Nat) (last : Bool) :
    (s.chargeRun w p off last).queues = s.queues := by
  unfold State.chargeRun
  split <;> simp

@[simp] theorem engWrite_queues (s : State) (since : Nat) (p : Place) (v : Word) (mask : BitVec 8) (psn : Bool) :
    (s.engWrite since p v mask psn).queues = s.queues := by
  simp [State.engWrite]

@[simp] theorem lineFor_queues (s : State) (w : Who) (p : Place) : (s.lineFor w p).queues = s.queues := by
  simp only [State.lineFor]
  (repeat' split) <;> simp

@[simp] theorem engPut_queues (s : State) (e : Eng) (off since : Nat) (p : Place) (v : Word) (mask : BitVec 8) (psn last : Bool) :
    (s.engPut e off since p v mask psn last).queues = s.queues := by
  simp [State.engPut]

@[simp] theorem flagMove_queues (s : State) (e : Eng) (h : Hdr) (p : PFlagw) (c : Cmd) :
    (s.flagMove e h p c).queues = s.queues := by
  simp only [State.flagMove]
  split
  · split
    · simp
    · split
      · next hx => simp [queues_of_eq hx (engRange_queues _ _ _ _ _ _ _ _)]
      · next hx => simp [queues_of_eq hx (engRange_queues _ _ _ _ _ _ _ _)]
  · split_ifs <;> simp

@[simp] theorem pushWr_queues (s : State) (lat : Nat) (d : Dest) (v : Word) (psn : Bool) :
    (s.pushWr lat d v psn).queues = s.queues :=
  rfl

@[simp] theorem writeReg_queues (s : State) (lat : Nat) (d : Dest) (v : Word) (psn : Bool) :
    (s.writeReg lat d v psn).queues = s.queues := by
  simp [State.writeReg]

@[simp] theorem rowsMove_queues (s : State) (h : Hdr) (row0 : Nat) (c : Cmd) (one : State → Nat → State)
    (h0 : ∀ x0 x1, (one x0 x1).queues = x0.queues) :
    (s.rowsMove h row0 c one).queues = s.queues := by
  simp only [State.rowsMove]
  (repeat' split) <;> simp [*]

theorem readWords_fst (s : State) (w : Who) (p : Place) (sa : Word) (n : Nat) : (s.readWords w p sa (n + 1)).1
    = (((s.readW w p sa).1.loadVal (s.readW w p sa).2).1.readWords w (p.plus 8) (sa + 8) n).1 := by
  rw [State.readWords]

@[simp] theorem readWords_queues (w : Who) (n : Nat) :
    ∀ (s : State) (p : Place) (sa : Word), (s.readWords w p sa n).1.queues = s.queues := by
  induction n with
  | zero => exact fun _ _ _ => rfl
  | succ n ih =>
    intro s p sa
    rw [readWords_fst, ih, loadVal_queues, readW_queues]

@[simp] theorem updPort_queues (s : State) (hub : Bool) (f : PortSt → PortSt) : (s.updPort hub f).queues = s.queues := by
  simp [State.updPort]

@[simp] theorem setPortCmd_queues (s : State) (hub : Bool) (n : Nat) (c : Cmd) : (s.setPortCmd hub n c).queues = s.queues := by
  simp [State.setPortCmd]

@[simp] theorem portEnd_queues (s : State) (hub : Bool) (n : Nat) (c : Cmd) (h : Hdr) (code done : Nat) :
    (s.portEnd hub n c h code done).queues = s.queues := by
  simp [State.portEnd]

@[simp] theorem dropPull_queues (s : State) (c : Cmd) : (s.dropPull c).queues = s.queues := by
  simp only [State.dropPull]
  (repeat' split) <;> simp

@[simp] theorem portDone_queues (s : State) (hub : Bool) (n : Nat) (c : Cmd) (h : Hdr) (code done : Nat) :
    (s.portDone hub n c h code done).queues = s.queues := by
  unfold State.portDone
  split <;> simp

@[simp] theorem runPort_queues (s : State) (hub : Bool) (i : Instr) (h : Hdr) (run : State → Nat → Cmd → State)
    (h0 : ∀ x0 x1 x2, (run x0 x1 x2).queues = x0.queues) :
    (s.runPort hub i h run).queues = s.queues := by
  simp only [State.runPort]
  (repeat' split) <;> simp [*]

@[simp] theorem portPage_queues (s : State) (seg off : Nat) (wr : Bool) : (s.portPage seg off wr).1.queues = s.queues := by
  unfold State.portPage
  split
  · rfl
  · split
    · rfl
    · split
      · next h => exact queues_of_eq h (xlate_queues _ _ _ _ _ _)
      · next h =>
        have hx := queues_of_eq h (xlate_queues _ _ _ _ _ _)
        split_ifs <;> exact hx

@[simp] theorem portPages_queues (seg : Nat) (wr : Bool) :
    ∀ (n : Nat) (s : State) (off : Nat), (s.portPages seg off wr n).1.queues = s.queues
  | 0, _, _ => rfl
  | n + 1, s, off => by
    rw [State.portPages]
    split
    · next h => exact queues_of_eq h (portPage_queues _ _ _ _)
    · next t x h =>
      have hpage := queues_of_eq h (portPage_queues _ _ _ _)
      split
      · next g => exact queues_of_eq g ((portPages_queues seg wr n _ _).trans hpage)
      · next g => exact queues_of_eq g ((portPages_queues seg wr n _ _).trans hpage)

@[simp] theorem hoffPages_queues (s : State) (p : PHoff) (x : Stream) : (s.hoffPages p x).1.queues = s.queues := by
  simp only [State.hoffPages]
  split
  · next h => exact queues_of_eq h (portPages_queues _ _ _ _ _)
  · next t src h =>
    have hsrc := queues_of_eq h (portPages_queues _ _ _ _ _)
    have hdst : (if p.modno = 0 then t.portPages (segNo p.dst) (segOff p.dst) true (p.count1.toNat + 1) else (t, some [])).1.queues
        = s.queues := by split <;> simp [hsrc]
    split
    · next g => exact queues_of_eq g hdst
    · next g =>
      have hboth := queues_of_eq g hdst
      split_ifs <;> exact hboth

@[simp] theorem hoffRun_queues (s : State) (h : Hdr) (p : PHoff) (n : Nat) (c : Cmd) : (s.hoffRun h p n c).queues = s.queues := by
  simp only [State.hoffRun]
  split
  · simp
  · split
    · simp
    · split
      · simp
      · split
        · simp
        · split
          · next g => simp [queues_of_eq g (hoffPages_queues _ _ _)]
          · next g => simp [queues_of_eq g (hoffPages_queues _ _ _)]

@[simp] theorem esWriteM_queues (s : State) (lat : Nat) (d : MReg) (v : BitVec 2048) (tag : Bool) (flg : BitVec 6) :
    (s.esWriteM lat d v tag flg).queues = s.queues := by
  simp [State.esWriteM]

@[simp] theorem maskOp_queues (s : State) (o : OpM3) (f : BitVec 2048 → BitVec 2048 → BitVec 2048) :
    (s.maskOp o f).queues = s.queues := by
  simp [State.maskOp]

@[simp] theorem afterChecks_queues (s : State) (body : State → State) (h0 : ∀ x0, (body x0).queues = x0.queues) :
    (s.afterChecks body).queues = s.queues := by
  simp only [State.afterChecks]
  (repeat' split) <;> simp [*]

@[simp] theorem sideCheck_queues (e : Eng) (d : Side64) (wr cmp : Bool) :
    ∀ (l : List (Nat × Nat)) (s : State) (code : Nat) (xl : List TlbEnt), (s.sideCheck e d wr cmp code xl l).1.queues = s.queues
  | [], _, _, _ => rfl
  | r :: rs, s, code, xl => by
    rw [State.sideCheck]
    exact (sideCheck_queues e d wr cmp rs _ _ _).trans (engRange_queues _ _ _ _ _ _ _ _)

@[simp] theorem planCheck_queues (s : State) (e : Eng) (p : Plan) (u x : Nat) (xl : List TlbEnt) :
    (s.planCheck e p u x xl).1.queues = s.queues :=
  (sideCheck_queues _ _ _ _ _ _ _ _).trans (sideCheck_queues _ _ _ _ _ _ _ _)

@[simp] theorem chargeNext_queues (s : State) (w : Who) (p : Place) (off : Nat) (next : Option (Place × Nat)) :
    (s.chargeNext w p off next).queues = s.queues := by
  unfold State.chargeNext
  split <;> simp

@[simp] theorem lineIn_queues (s : State) (w : Who) (p : Place) (sa : Word) : (s.lineIn w p sa).queues = s.queues := by
  simp only [State.lineIn]
  (repeat' split) <;> simp

@[simp] theorem engRead_queues (s : State) (e : Eng) (seg off rot : Nat) (xl : List TlbEnt) :
    (s.engRead e seg off rot xl).1.queues = s.queues := by
  simp [State.engRead]

@[simp] theorem readPiece_queues (s : State) (e : Eng) (p : Plan) (c : Cmd) (k j : Nat) (x : Nat × Nat) :
    (s.readPiece e p c k j x).1.queues = s.queues := by
  simp [State.readPiece]

@[simp] theorem writePieces_queues (s : State) (e : Eng) (p : Plan) (c : Cmd) (k : Nat) (l : List TW) :
    (s.writePieces e p c k l).1.queues = s.queues := by
  unfold State.writePieces
  split <;> simp

@[simp] theorem moveWordK_queues (s : State) (e : Eng) (p : Plan) (c : Cmd) (k : Nat) :
    (s.moveWordK e p c k).1.queues = s.queues := by
  simp only [State.moveWordK]
  (repeat' split) <;> simp

@[simp] theorem planMove_queues {s : State} {static : State → State × Nat} {find : State → Nat → State × Nat × List TlbEnt × Nat}
    (hs : ∀ s, (static s).1.queues = s.queues) (hf : ∀ s u, (find s u).1.queues = s.queues) (e : Eng) (h : Hdr) (c : Cmd) (p : Plan) :
    (s.planMove e h c p static find).queues = s.queues := by
  simp only [State.planMove]
  split
  · have hstatic : (if c.unit = 0 then static s else (s, 0)).1.queues = s.queues := by split <;> simp [hs]
    generalize (if c.unit = 0 then static s else (s, 0)) = t at hstatic
    split
    · simp [hstatic]
    · have hfind := (hf t.1 c.unit).trans hstatic
      split
      · next g => simp [queues_of_eq g hfind]
      · next g =>
        have hfound := queues_of_eq g hfind
        split
        · next g' => simp [queues_of_eq g' ((planCheck_queues _ _ _ _ _ _).trans hfound)]
        · next g' => simp [queues_of_eq g' ((planCheck_queues _ _ _ _ _ _).trans hfound)]
  · split_ifs <;> simp

@[simp] theorem noFind_queues (s : State) (u : Nat) : (noFind s u).1.queues = s.queues := rfl

@[simp] theorem codes_queues (l : List Nat) (s : State) : (codes l s).1.queues = s.queues := rfl

@[simp] theorem afterCommit_queues (s : State) (n b : Nat) (before : Bool) : (s.afterCommit n b before).queues = s.queues := by
  simp only [State.afterCommit]
  (repeat' split) <;> simp

@[simp] theorem setOwner_queues (s : State) (n blk : Nat) (code : Byte) : (s.setOwner n blk code).queues = s.queues := by
  unfold State.setOwner
  split <;> simp

@[simp] theorem devPut_queues (s : State) (p : Place) (v : Word) (psn : Bool) : (s.devPut p v psn).queues = s.queues := by
  simp [State.devPut]

@[simp] theorem resendWord_queues (s : State) (x : Stream) (r : HReg) (i : Nat) : (s.resendWord x r i).queues = s.queues := by
  simp only [State.resendWord]
  (repeat' split) <;> simp

@[simp] theorem commitBlock_queues (s : State) (n : Nat) : (s.commitBlock n).queues = s.queues := by
  simp only [State.commitBlock]
  (repeat' split) <;> simp

@[simp] theorem beginSwap_queues (s : State) (n b : Nat) (st : SwapStage) : (s.beginSwap n b st).queues = s.queues := rfl

@[simp] theorem swoutGo_queues (s : State) : s.swoutGo.queues = s.queues := by
  refine foldl_queues (fun s x => ?_) _ s
  split
  · rfl
  · split <;> simp

@[simp] theorem swapPages_queues (s : State) (p : PSwap) (out : Bool) (x : Stream) :
    (s.swapPages p out x).1.queues = s.queues := by
  unfold State.swapPages
  split
  · next h => exact queues_of_eq h (portPages_queues _ _ _ _ _)
  · next h =>
    have hx := queues_of_eq h (portPages_queues _ _ _ _ _)
    split_ifs <;> exact hx

@[simp] theorem swapCheck_queues (s : State) (p : PSwap) (out : Bool) : (s.swapCheck p out).1.queues = s.queues := by
  simp only [State.swapCheck]
  (repeat' split) <;> simp

@[simp] theorem swinRun_queues (s : State) (h : Hdr) (p : PSwap) (n : Nat) (c : Cmd) : (s.swinRun h p n c).queues = s.queues := by
  unfold State.swinRun
  split
  · next g => simp [queues_of_eq g (swapCheck_queues _ _ _)]
  · next g => simp [queues_of_eq g (swapCheck_queues _ _ _)]

@[simp] theorem updHeat_queues (s : State) (f : CellId × HeatCol → CellId × HeatCol) : (s.updHeat f).queues = s.queues := rfl

@[simp] theorem boundarySpad_queues (s : State) (fresh : Bool) : (s.boundarySpad fresh).queues = s.queues := by
  simp only [State.boundarySpad]
  split <;> simp

@[simp] theorem boundaryTiles_queues (fresh : Bool) :
    ∀ (l : List Tile) (s : State) (i : Nat), (s.boundaryTiles fresh i l).1.queues = s.queues
  | [], _, _ => rfl
  | _ :: r, s, i => by simp [State.boundaryTiles, boundaryTiles_queues fresh r]

@[simp] theorem prsWord_queues (s : State) (c seg : Nat) (e : SegEnt) (off : Nat) :
    (s.prsWord c seg e off).1.queues = s.queues := by
  unfold State.prsWord
  split
  · next h => exact queues_of_eq h (xlate_queues _ _ _ _ _ _)
  · next h =>
    have hx := queues_of_eq h (xlate_queues _ _ _ _ _ _)
    split <;> simp [hx]

@[simp] theorem prsWords_queues (c seg : Nat) (e : SegEnt) :
    ∀ (n : Nat) (s : State) (off : Nat), (s.prsWords c seg e off n).1.queues = s.queues
  | 0, _, _ => rfl
  | n + 1, s, off => by
    rw [State.prsWords]
    split
    · next h => exact queues_of_eq h (prsWord_queues _ _ _ _ _)
    · next h =>
      have hw := queues_of_eq h (prsWord_queues _ _ _ _ _)
      split
      · next g => exact queues_of_eq g ((prsWords_queues c seg e n _ _).trans hw)
      · next g => exact queues_of_eq g ((prsWords_queues c seg e n _ _).trans hw)

@[simp] theorem prsRead_queues (s : State) (c : Nat) (segs : List SegEnt) (a : Word) (n : Nat) :
    (s.prsRead c segs a n).1.queues = s.queues := by
  simp only [State.prsRead]
  (repeat' split) <;> simp

@[simp] theorem putTemplate_queues (base size : Nat) :
    ∀ (l : List Word32) (s : State) (i : Nat), (s.putTemplate base size i l).queues = s.queues
  | [], _, _ => rfl
  | _ :: r, s, i => by simp [State.putTemplate, putTemplate_queues base size r]

@[simp] theorem template_queues (s : State) (c : Nat) (e : Eng) (a : Word) (t : Nat) :
    (s.template c e a t).1.queues = s.queues := by
  have hread := prsRead_queues s c s.cell.segs a (4 * t)
  unfold State.template
  split
  · rfl
  · split
    · next h =>
      have hx := queues_of_eq h hread
      split <;> simp [hx]
    · next h _ => exact queues_of_eq h hread

@[simp] theorem templates_queues (c : Nat) : ∀ (l : List (Eng × Word × Nat)) (s : State), (s.templates c l).1.queues = s.queues
  | [], _ => rfl
  | (e, a, t) :: r, s => by
    rw [State.templates]
    split
    · next h => exact queues_of_eq h (template_queues _ _ _ _ _)
    · next h => exact (templates_queues c r _).trans (queues_of_eq h (template_queues _ _ _ _ _))

@[simp] theorem hostMeet_queues (w : Who) : ∀ (n : Nat) (s : State) (a : Nat), (s.hostMeet w a n).queues = s.queues
  | 0, _, _ => rfl
  | n + 1, s, a => by rw [State.hostMeet, hostMeet_queues w n, meetError_queues]

@[simp] theorem shiftTimes_queues (s : State) (f : Nat → Nat) : (s.shiftTimes f).queues = s.queues := by
  simp only [State.shiftTimes, State.queues, List.map_map]
  rfl

@[simp] theorem setTime_queues (s : State) (t3 : Nat) : (s.setTime t3).queues = s.queues := by simp [State.setTime]

@[simp] theorem sysReadEffect_queues (s : State) (r : SysReg) : (s.sysReadEffect r).queues = s.queues := by
  unfold State.sysReadEffect
  split <;> simp

@[simp] theorem nextSeq_queues (s : State) : (s.nextSeq).queues = s.queues := rfl

@[simp] theorem joinDown_queues (s : State) (p : Place) (n : Word) : (s.joinDown p n).queues = s.queues := by
  simp [State.joinDown]

@[simp] theorem touchJoin_queues (s : State) (p : Place) (n : Nat) : (s.touchJoin p n).queues = s.queues := by
  unfold State.touchJoin
  split <;> simp

@[simp] theorem continuation_queues (s : State) (r : RunRec) (code frame wid joinp : Word) :
    (s.continuation r code frame wid joinp).queues = s.queues := by
  simp [State.continuation]

@[simp] theorem enterBuffer_queues (s : State) (r : Report) : (s.enterBuffer r).queues = s.queues := rfl

@[simp] theorem retryPkg_queues (s : State) : (s.retryPkg).queues = s.queues := by unfold State.retryPkg; split <;> simp

@[simp] theorem retryCell_queues (s : State) (id : CellId) : (s.retryCell id).queues = s.queues := by
  simp only [State.retryCell]
  (repeat' split) <;> simp

@[simp] theorem indexOf_queues (s : State) (e : Eng) (d : Side64) (u : Nat) (last : Bool) :
    (s.indexOf e d u last).1.queues = s.queues := by
  simp only [State.indexOf]
  split
  · next h => exact queues_of_eq h (engRange_queues _ _ _ _ _ _ _ _)
  · next h =>
    have hx := queues_of_eq h (engRange_queues _ _ _ _ _ _ _ _)
    split_ifs <;> simp [hx]

@[simp] theorem gathFind_queues (s : State) (e : Eng) (p : PGath) (u : Nat) : (s.gathFind e p u).1.queues = s.queues := by
  have hindex := indexOf_queues s e ⟨p.idxa, p.irot.toNat⟩ u (u = p.count1.toNat)
  unfold State.gathFind
  split
  · next h =>
    have hx := queues_of_eq h hindex
    split <;> exact hx
  · exact hindex

@[simp] theorem answer_queues (s : State) (ctx status : Nat) : (s.answer ctx status).queues = s.queues := rfl

@[simp] theorem nvSubmit1_queues (s : State) : (s.nvSubmit1).queues = s.queues := by unfold State.nvSubmit1; split <;> simp

@[simp] theorem nvSubmit_queues : ∀ (n : Nat) (s : State), (s.nvSubmit n).queues = s.queues
  | 0, _ => rfl
  | n + 1, s => by rw [State.nvSubmit, nvSubmit_queues n, nvSubmit1_queues]

@[simp] theorem nvPush_queues (s : State) (l : List NvCmd) : (s.nvPush l).queues = s.queues := by simp [State.nvPush]

@[simp] theorem freeBlock_queues (s : State) (n b : Nat) : (s.freeBlock n b).queues = s.queues := by
  simp only [State.freeBlock]
  (repeat' split) <;> simp

@[simp] theorem cancelAtD_queues (s : State) (n : Nat) : (s.cancelAtD n).queues = s.queues := by
  simp only [State.cancelAtD]
  (repeat' split) <;> simp

@[simp] theorem closeStream_queues (s : State) (n : Nat) : (s.closeStream n).queues = s.queues := by simp [State.closeStream]

@[simp] theorem withdraw_queues (s : State) : (s.withdraw).queues = s.queues := by
  simp only [State.withdraw]
  (repeat' split) <;> simp

@[simp] theorem lineHome_queues (s : State) (l : CLine) : (s.lineHome l).queues = s.queues := by
  simp only [State.lineHome]
  (repeat' split) <;> simp

@[simp] theorem cleanLines_queues (s : State) (sel : CLine → Bool) : (s.cleanLines sel).queues = s.queues := by
  simp [State.cleanLines]

@[simp] theorem dropLines_queues (s : State) (sel : CLine → Bool) : (s.dropLines sel).queues = s.queues := by
  simp [State.dropLines]

@[simp] theorem emptyL1_queues (s : State) (cs : List CellId) : (s.emptyL1 cs).queues = s.queues := by simp [State.emptyL1]

@[simp] theorem updCluster_queues {f : Cell → Cell} (hq : ∀ c,
    (f c).qs = c.qs) (hs : ∀ c, (f c).snaps = c.snaps) (s : State) (cs : List CellId) :
    (s.updCluster cs f).queues = s.queues := foldl_queues (fun _ _ => updCell_queues hq hs) cs s

@[simp] theorem permute_queues (s : State) (i : Instr) (o : OpVr3) (lat : Nat) (f : Ev → (Nat → Nat) → Nat → Nat) (wide : Bool) :
    (s.permute i o lat f wide).queues = s.queues := by
  simp [State.permute]

@[simp] theorem shapeNext_queues (s : State) (v : Word) : (s.shapeNext v).queues = s.queues := by simp [State.shapeNext]

@[simp] theorem chargeFabric_queues (s : State) (ctx : Nat) (col : CellId) (out : Bool) :
    (s.chargeFabric ctx col out).queues = s.queues := by
  simp only [State.chargeFabric]
  (repeat' split) <;> simp

@[simp] theorem chargeBlock_queues (s : State) (w : Who) (p : Place) : (s.chargeBlock w p).queues = s.queues := by
  simp [State.chargeBlock]

@[simp] theorem sendWord_queues (s : State) (x : Stream) (r : HReg) (i : Nat) : (s.sendWord x r i).queues = s.queues := by
  simp only [State.sendWord]
  (repeat' split) <;> simp

@[simp] theorem sendBlock_queues (s : State) (n : Nat) : (s.sendBlock n).queues = s.queues := by
  simp only [State.sendBlock]
  (repeat' split) <;> simp

@[simp] theorem swappedIn_queues (s : State) (x : Stream) (b : SwapBlk) : (s.swappedIn x b).queues = s.queues := by
  simp [State.swappedIn]

@[simp] theorem commitIns_queues : ∀ (n : Nat) (s : State), (s.commitIns n).queues = s.queues
  | 0, _ => rfl
  | n + 1, s => by
    rw [State.commitIns]
    split
    · rfl
    · split
      · rw [commitIns_queues n, swappedIn_queues]
      · rfl

@[simp] theorem issueWrites_queues (s : State) (x : Stream) (b : SwapBlk) : (s.issueWrites x b).queues = s.queues := by
  unfold State.issueWrites
  split <;> simp

@[simp] theorem chargeUnit_queues (s : State) (w : Who) (p : Place) : (s.chargeUnit w p).queues = s.queues := by
  simp [State.chargeUnit]

@[simp] theorem updSwap_queues (s : State) (n b : Nat) (f : SwapBlk → SwapBlk) : (s.updSwap n b f).queues = s.queues := rfl

@[simp] theorem sweWord_queues (s : State) (x : Stream) (b : SwapBlk) : (s.sweWord x b).queues = s.queues := by
  simp only [State.sweWord]
  (repeat' split) <;> simp

@[simp] theorem sweMove_queues (s : State) : (s.sweMove).queues = s.queues := by
  simp only [State.sweMove]
  (repeat' split) <;> simp

@[simp] theorem readBlockGo_queues (s : State) : (s.readBlockGo).queues = s.queues := by unfold State.readBlockGo; split <;> simp

@[simp] theorem portWait_queues (s : State) (hub : Bool) (n : Nat) (c : Cmd) : (s.portWait hub n c).queues = s.queues := by
  simp [State.portWait]

@[simp] theorem hcancelRun_queues (s : State) (h : Hdr) (p : PHcancel) (n : Nat) (c : Cmd) :
    (s.hcancelRun h p n c).queues = s.queues := by
  unfold State.hcancelRun
  split <;> simp

@[simp] theorem parityFound_queues (s : State) (agent t row : Nat) (found : Bool) :
    (s.parityFound agent t row found).queues = s.queues := by
  unfold State.parityFound
  split <;> simp

@[simp] theorem rowEvent_queues (s : State) (t r : Nat) (f : TRow → TRow) (n : Nat) : (s.rowEvent t r f n).queues = s.queues :=
  rfl

@[simp] theorem groupStep_queues (s : State) (t row : Nat) (ps : List Part) (nan psn zero : Bool) :
    (s.groupStep t row ps nan psn zero).1.queues = s.queues := by
  simp only [State.groupStep]
  (repeat' split) <;> simp

@[simp] theorem chargeStep_queues (s : State) : (s.chargeStep).queues = s.queues := by simp [State.chargeStep]

@[simp] theorem updMx_queues (s : State) (f : MxSt → MxSt) : (s.updMx f).queues = s.queues := rfl

@[simp] theorem blkDone_queues (s : State) (c : Cmd) (sh : Shape) (isA : Bool) (code : Nat) (b : Blk) :
    (s.blkDone c sh isA code b).queues = s.queues :=
  rfl

@[simp] theorem engTake_queues (s : State) (e : Eng) (seg off rot : Nat) (xl : List TlbEnt) (last : Bool) :
    (s.engTake e seg off rot xl last).1.queues = s.queues := by
  simp [State.engTake]

@[simp] theorem blkMove_queues (s : State) (c : Cmd) (sh : Shape) (isA : Bool) (d : Desc) (bx3 : Bool) (row blk : Nat) :
    (s.blkMove c sh isA d bx3 row blk).queues = s.queues := by
  have hch : ∀ x n, (if c.buf.isEmpty then s.engRange .mx x n 64 false false [] else (s, 0, c.xl)).1.queues = s.queues := fun x n => by
    split <;> simp
  simp only [State.blkMove]
  generalize hc : (if c.buf.isEmpty then s.engRange .mx (segNo d.base) (segOff d.base + blkOff d row c.unit blk) 64 false false []
    else (s, 0, c.xl)) = ch
  have hq := hch (segNo d.base) (segOff d.base + blkOff d row c.unit blk)
  rw [hc] at hq
  split
  · simp [hq]
  · split
    · rfl
    · split <;> simp [hq]

@[simp] theorem panelMove_queues (s : State) (sh : Shape) (a b : Desc) (c : Cmd) : (s.panelMove sh a b c).queues = s.queues := by
  simp only [State.panelMove]
  (repeat' split) <;> simp

@[simp] theorem panelEnd_queues (s : State) (h : Hdr) (sh : Shape) (keepb : Bool) (c : Cmd) :
    (s.panelEnd h sh keepb c).queues = s.queues := by
  unfold State.panelEnd
  split <;> simp

@[simp] theorem pastRank_queues (s : State) (r : Nat) : (s.pastRank r).queues = s.queues := rfl

@[simp] theorem mmaMove_queues (s : State) (h : Hdr) (p : PMma) (zero : Bool) (c : Cmd) :
    (s.mmaMove h p zero c).queues = s.queues := by
  simp only [State.mmaMove]
  (repeat' split) <;> simp

/-- A change of every cell beside its queues. -/
theorem parked_queues {f : Cell → Cell} (h : ∀ c, (f c).queues = c.queues) (l : List Cell) :
    (l.map f).map Cell.queues = l.map Cell.queues := by
  rw [List.map_map]
  exact List.map_congr_left fun c _ => h c

@[simp] theorem tlbInvalidate_queues (s : State) (scope : Scope) (keep : TlbEnt → Bool) :
    (s.tlbInvalidate scope keep).queues = s.queues := by
  simp only [State.tlbInvalidate]
  refine Prod.ext ?_ (parked_queues (fun c => ?_) _)
  · split <;> rfl
  · split
    · split <;> rfl
    · rfl

@[simp] theorem launchDone_queues (s : State) (l : Launch) : (s.launchDone l).queues = s.queues := by
  simp only [State.launchDone]
  (repeat' split) <;> simp

@[simp] theorem boundary_queues (s : State) (id : Nat) : (s.boundary id).queues = s.queues := by
  simp only [State.boundary]
  (repeat' split) <;> simp

@[simp] theorem retireRecord_queues (s : State) : (s.retireRecord).queues = s.queues := by
  unfold State.retireRecord
  split <;> simp

@[simp] theorem leave_queues (s : State) : (s.leave).queues = s.queues := by simp [State.leave]

@[simp] theorem reduction_queues (s : State) (i : Instr) (o : OpV2) (f : Ev → (Nat → Nat) → Nat × BitVec 6) :
    (s.reduction i o f).queues = s.queues := by
  simp [State.reduction]

@[simp] theorem sysWrite_queues (s : State) (r : SysReg) (v : Word) : (s.sysWrite r v).queues = s.queues := by
  unfold State.sysWrite
  split <;> simp

@[simp] theorem writeMove_queues (s : State) (e : Eng) (d : Side64) (off : Nat) (c : Cmd) :
    (s.writeMove e d off c).queues = s.queues := by
  simp only [State.writeMove]
  split <;> simp

@[simp] theorem putRes_queues (s : State) (e : Eng) (a : Word) (xl : List TlbEnt) (v since : Nat) :
    (s.putRes e a xl v since).queues = s.queues := by
  simp [State.putRes]

@[simp] theorem expnNext_queues (s : State) (e : Eng) (h : Hdr) (p : PCmpr) (c : Cmd) :
    (s.expnNext e h p c).queues = s.queues := by
  simp only [State.expnNext]
  split <;> simp

@[simp] theorem expnJudge_queues (s : State) (e : Eng) (h : Hdr) (c : Cmd) (cs : List Nat) (l : Nat) :
    (s.expnJudge e h c cs l).queues = s.queues := by
  simp only [State.expnJudge]
  split <;> simp

@[simp] theorem readMove_queues (s : State) (e : Eng) (d : Side64) (off n : Nat) (c : Cmd) :
    (s.readMove e d off n c).queues = s.queues := by
  simp only [State.readMove]
  split <;> simp

@[simp] theorem endCmpr_queues (s : State) (e : Eng) (c : Cmd) (h : Hdr) (p : PCmpr) (xl : List TlbEnt) (code res : Nat) :
    (s.endCmpr e c h p xl code res).queues = s.queues := by
  unfold State.endCmpr
  split <;> simp

@[simp] theorem resCheck_queues (s : State) (e : Eng) (p : PCmpr) : (s.resCheck e p).1.queues = s.queues := by
  unfold State.resCheck
  split
  · rfl
  · split
    · next h => exact queues_of_eq h (engRange_queues _ _ _ _ _ _ _ _)
    · next h => exact queues_of_eq h (engRange_queues _ _ _ _ _ _ _ _)

@[simp] theorem endStatic_queues (s : State) (e : Eng) (c : Cmd) (h : Hdr) (p : PCmpr) (code : Nat) :
    (s.endStatic e c h p code).queues = s.queues := by
  unfold State.endStatic
  split
  · next g =>
    have hres := queues_of_eq g (resCheck_queues s e p)
    split <;> simp [hres]
  · simp

@[simp] theorem lacksCmp_queues (s : State) (e : Eng) (a : Word) : (s.lacksCmp e a).1.queues = s.queues := by
  unfold State.lacksCmp
  split
  · rfl
  · split
    · rfl
    · split
      · rfl
      · split
        · next h => exact queues_of_eq h (xlate_queues _ _ _ _ _ _)
        · next h => exact queues_of_eq h (xlate_queues _ _ _ _ _ _)

@[simp] theorem cmprStatic_queues (s : State) (e : Eng) (p : PCmpr) (exp : Bool) :
    (s.cmprStatic e p exp).1.queues = s.queues := by
  simp only [State.cmprStatic]
  (repeat' split) <;> simp

@[simp] theorem expnCheck_queues (s : State) (e : Eng) (h : Hdr) (p : PCmpr) (c : Cmd) :
    (s.expnCheck e h p c).queues = s.queues := by
  have hst : (if c.unit = 0 then s.cmprStatic e p true else (s, 0)).1.queues = s.queues := by split <;> simp
  simp only [State.expnCheck]
  generalize (if c.unit = 0 then s.cmprStatic e p true else (s, 0)) = st at hst
  (repeat' split) <;> simp [hst]

@[simp] theorem expnHeader_queues (s : State) (e : Eng) (h : Hdr) (p : PCmpr) (c : Cmd) :
    (s.expnHeader e h p c).queues = s.queues := by
  simp only [State.expnHeader]
  (repeat' split) <;> simp

@[simp] theorem expnMove_queues (s : State) (e : Eng) (h : Hdr) (p : PCmpr) (c : Cmd) :
    (s.expnMove e h p c).queues = s.queues := by
  simp only [State.expnMove]
  (repeat' split) <;> simp

@[simp] theorem resumePending_queues (s : State) (n : Nat) : (s.resumePending n).queues = s.queues := by
  simp only [State.resumePending]
  (repeat' split) <;> simp

@[simp] theorem swappedOut_queues (s : State) (x : Stream) (b : Nat) : (s.swappedOut x b).queues = s.queues := by
  simp only [State.swappedOut]
  (repeat' split) <;> simp

@[simp] theorem swapReport_queues (s : State) (x : Stream) (b : Nat) : (s.swapReport x b).queues = s.queues := by
  simp [State.swapReport]

@[simp] theorem readFails_queues (s : State) (x : Stream) (b code : Nat) : (s.readFails x b code).queues = s.queues := by
  simp [State.readFails]

@[simp] theorem chargeSwap_queues (s : State) (x : Stream) (b : SwapBlk) (lbas : Nat) :
    (s.chargeSwap x b lbas).queues = s.queues :=
  rfl

@[simp] theorem readDone_queues (s : State) (x : Stream) (b : SwapBlk) (c : NvCmd) : (s.readDone x b c).queues = s.queues := by
  simp only [State.readDone]
  (repeat' split) <;> simp

@[simp] theorem writeDone_queues (s : State) (x : Stream) (b : SwapBlk) (c : NvCmd) : (s.writeDone x b c).queues = s.queues := by
  grind [State.writeDone, updSwap_queues, chargeSwap_queues, nvPush_queues, updMem_queues, swappedOut_queues]

@[simp] theorem nvOk_queues (s : State) (c : NvCmd) : (s.nvOk c).queues = s.queues := by
  simp only [State.nvOk]
  (repeat' split) <;> simp

@[simp] theorem writeFails_queues (s : State) (x : Stream) (b : Nat) : (s.writeFails x b).queues = s.queues := by
  simp [State.writeFails]

@[simp] theorem nvFail_queues (s : State) (c : NvCmd) : (s.nvFail c).queues = s.queues := by
  simp only [State.nvFail]
  (repeat' split) <;> simp

@[simp] theorem nvEnd_queues (s : State) (k : Nat) (ok : Bool) : (s.nvEnd k ok).queues = s.queues := by
  simp only [State.nvEnd]
  (repeat' split) <;> simp

@[simp] theorem writeBodies_queues (s : State) (part : Nat) : (s.writeBodies part).queues = s.queues := by
  simp [State.writeBodies]

@[simp] theorem takeBackRing_queues (s : State) (seq : Nat) (e : Eng) : (s.takeBackRing seq e).queues = s.queues := by
  have hfold : ∀ (b z : Nat) (l : List Mark), (l.foldr (fun m (s : State) => s.ringSet b z m.pos m.old m.oldPsn) s).queues = s.queues := fun b z l => by
    induction l with
    | nil => rfl
    | cons m r ih => rw [List.foldr_cons, ringSet_queues, ih]
  simp only [State.takeBackRing]
  split
  · rfl
  · simp [hfold]

@[simp] theorem refuseReport_queues (s : State) (c : Nat) (a : Word) (status q : Nat) :
    (s.refuseReport c a status q).queues = s.queues := by
  simp [State.refuseReport]

@[simp] theorem startLaunch_queues (s : State) (l : Launch) : (s.startLaunch l).queues = s.queues := by simp [State.startLaunch]

@[simp] theorem templBad_queues (s : State) (c : Nat) (h : HdrWords) (segs : List SegEnt) (e : Nat) :
    (s.templBad c h segs e).1.queues = s.queues := by
  simp only [State.templBad]
  split
  · rfl
  · split
    · split
      · rfl
      · split
        · next g => exact queues_of_eq g (prsRead_queues _ _ _ _ _)
        · next g => exact queues_of_eq g (prsRead_queues _ _ _ _ _)
    · rfl

@[simp] theorem templsBad_queues (c : Nat) (h : HdrWords) (segs : List SegEnt) :
    ∀ (l : List Nat) (s : State), (s.templsBad c h segs l).1.queues = s.queues
  | [], _ => rfl
  | e :: r, s => by
    rw [State.templsBad]
    exact (templsBad_queues c h segs r _).trans (templBad_queues s c h segs e)

@[simp] theorem checkLaunch_queues (s : State) (c : Nat) (a : Word) : (s.checkLaunch c a).1.queues = s.queues := by
  simp only [State.checkLaunch]
  (repeat' split) <;> simp

@[simp] theorem endWait_queues (s : State) (f : PReg) (v psn : Bool) : (s.endWait f v psn).queues = s.queues := by
  simp [State.endWait]

@[simp] theorem waitOn_queues (s : State) (o : OpWaita) (p : Place) : (s.waitOn o p).queues = s.queues := rfl

@[simp] theorem waitRead_queues (s : State) (o : OpWaita) (p : Place) (t0 : Nat) (x : TW) :
    (s.waitRead o p t0 x).queues = s.queues := by
  simp only [State.waitRead]
  (repeat' split) <;> simp

@[simp] theorem reachWait_queues (s : State) (o : OpWaita) : (s.reachWait o).queues = s.queues := rfl

@[simp] theorem addPull_queues (s : State) (n blk0 count : Nat) (c : Cmd) : (s.addPull n blk0 count c).queues = s.queues := rfl

@[simp] theorem hpullRun_queues (s : State) (h : Hdr) (p : PHpull) (n : Nat) (c : Cmd) :
    (s.hpullRun h p n c).queues = s.queues := by
  simp only [State.hpullRun]
  (repeat' split) <;> simp

@[simp] theorem rcopyWord_queues (s : State) (p : PRcopy) (u k : Nat) (xl : List TlbEnt) :
    (s.rcopyWord p u k xl).1.queues = s.queues := by
  have helim : ∀ (o : Option Nat) (t : State) (a : CellId), (o.elim t fun c => t.chargeFabric c a true).queues = t.queues := fun o t a => by
    cases o <;> simp
  simp [State.rcopyWord, helim]

@[simp] theorem portRead_queues (s : State) (seg off : Nat) : (s.portRead seg off).1.queues = s.queues := by
  simp only [State.portRead]
  split
  · rfl
  · split
    · rfl
    · split
      · split
        · next h => exact queues_of_eq h (walk_queues _ _ _ _ _ _)
        · next h => exact queues_of_eq h (walk_queues _ _ _ _ _ _)
      · split
        · next h => exact queues_of_eq h (xlate_queues _ _ _ _ _ _)
        · next h => exact queues_of_eq h (xlate_queues _ _ _ _ _ _)

@[simp] theorem rcopyCheck_queues (seg : Nat) :
    ∀ (l : List Nat) (s : State) (code : Nat) (xl : List TlbEnt), (s.rcopyCheck seg code xl l).1.queues = s.queues
  | [], _, _, _ => rfl
  | o :: r, s, code, xl => by
    rw [State.rcopyCheck]
    split
    · next h => exact (rcopyCheck_queues seg r _ _ _).trans (queues_of_eq h (portRead_queues _ _ _))
    · next h => exact (rcopyCheck_queues seg r _ _ _).trans (queues_of_eq h (portRead_queues _ _ _))

@[simp] theorem remoteAnswer_queues (s : State) : (s.remoteAnswer).1.queues = s.queues := rfl

@[simp] theorem rcopyRun_queues (s : State) (h : Hdr) (p : PRcopy) (n : Nat) (c : Cmd) :
    (s.rcopyRun h p n c).queues = s.queues := by
  simp only [State.rcopyRun]
  split
  · generalize (if c.unit = 0 then s.rcopyStatic p else 0) = st
    split
    · simp
    · split
      · simp
      · split
        · simp
        · split
          · next g => simp [queues_of_eq g ((rcopyCheck_queues _ _ _ _ _).trans (remoteAnswer_queues s))]
          · next g => simp [queues_of_eq g ((rcopyCheck_queues _ _ _ _ _).trans (remoteAnswer_queues s))]
  · split_ifs <;> simp

@[simp] theorem chargeCheckpoint_queues (s : State) (c : Nat) : (s.chargeCheckpoint c).queues = s.queues := by
  simp only [State.chargeCheckpoint]
  split <;> simp

@[simp] theorem writeCheckpoint_queues (s : State) (c b : Nat) : (s.writeCheckpoint c b).queues = s.queues := rfl

@[simp] theorem checkpoint_queues (s : State) (c : Nat) : (s.checkpoint c).queues = s.queues := by simp [State.checkpoint]

@[simp] theorem nowVacant_queues (s : State) (x : EvCtx) : (s.nowVacant x).1.queues = s.queues := by
  simp only [State.nowVacant]
  (repeat' split) <;> simp

@[simp] theorem noteVacant_queues : ∀ (l : List EvCtx) (s : State), (s.noteVacant l).1.queues = s.queues
  | [], _ => rfl
  | x :: r, s => (noteVacant_queues r _).trans (nowVacant_queues s x)

@[simp] theorem writeOutcomes_queues : ∀ (l : List (EvCtx × Nat)) (s : State) (a : Nat), (s.writeOutcomes a l).queues = s.queues
  | [], _, _ => rfl
  | (x, q) :: r, s, a => by rw [State.writeOutcomes, writeOutcomes_queues r, hostPuts_queues]

@[simp] theorem rekey_queues (s : State) (k : Nat) : (s.rekey k).queues = s.queues := by
  refine foldl_queues (fun s x => ?_) _ s
  dsimp only
  split
  · exact toKey_queues _ _
  · rfl

@[simp] theorem discardKey_queues (s : State) (k : Nat) : (s.discardKey k).queues = s.queues := by
  rw [← rekey_queues s k]
  exact Prod.ext rfl (parked_queues (f := fun c => c.dropKey k) (fun _ => rfl) _)

@[simp] theorem cmprNext_queues (s : State) (e : Eng) (h : Hdr) (p : PCmpr) (c : Cmd) (size : Nat) :
    (s.cmprNext e h p c size).queues = s.queues := by
  simp only [State.cmprNext]
  split <;> simp

@[simp] theorem cmprJudge_queues (s : State) (e : Eng) (h : Hdr) (p : PCmpr) (c : Cmd) :
    (s.cmprJudge e h p c).queues = s.queues := by
  simp only [State.cmprJudge]
  (repeat' split) <;> simp

@[simp] theorem cmprCheck_queues (s : State) (e : Eng) (h : Hdr) (p : PCmpr) (c : Cmd) :
    (s.cmprCheck e h p c).queues = s.queues := by
  have hst : (if c.unit = 0 then s.cmprStatic e p false else (s, 0)).1.queues = s.queues := by split <;> simp
  simp only [State.cmprCheck]
  generalize (if c.unit = 0 then s.cmprStatic e p false else (s, 0)) = st at hst
  split
  · simp [hst]
  · by_cases hr : c.row = 0
    · simp only [hr, if_true]
      split_ifs <;> simp [hst]
    · simp only [if_neg hr]
      split_ifs <;> simp [hst]

@[simp] theorem cmprMove_queues (s : State) (e : Eng) (h : Hdr) (p : PCmpr) (c : Cmd) :
    (s.cmprMove e h p c).queues = s.queues := by
  simp only [State.cmprMove]
  (repeat' split) <;> simp

@[simp] theorem touchSram_queues (s : State) (w : Who) (c : Cell) (p : Place) : (s.touchSram w c p).queues = s.queues := by
  unfold State.touchSram
  split <;> simp

@[simp] theorem readSave_queues (s : State) (part c : Nat) : (s.readSave part c).1.queues = s.queues := by
  unfold State.readSave
  split <;> simp

@[simp] theorem payOwed_queues (s : State) (part c : Nat) : (s.payOwed part c).queues = s.queues := rfl

@[simp] theorem writeSave_queues (s : State) (part : Nat) : (s.writeSave part).queues = s.queues := rfl

@[simp] theorem saveCtx_queues (s : State) (part c : Nat) : (s.saveCtx part c).queues = s.queues := by simp [State.saveCtx]

@[simp] theorem esJump_queues (s : State) (x : Word) : (s.esJump x).queues = s.queues := by simp [State.esJump]

@[simp] theorem writebackEnd_queues (s : State) (n : Nat) (w : Wback) : (s.writebackEnd n w).queues = s.queues := by
  unfold State.writebackEnd
  split <;> simp

@[simp] theorem atPrefix_queues (s : State) : (s.atPrefix).queues = s.queues := by unfold State.atPrefix; split <;> simp

@[simp] theorem cutRcopies_queues (s : State) (hit : CellId → Bool) : (s.cutRcopies hit).queues = s.queues :=
  Prod.ext rfl (parked_queues (f := fun c => c.cutRcopy fun q => hit c.id || !s.reachable q.modno) (fun _ => rfl) _)

@[simp] theorem windowPlace_queues (s : State) (n : Nat) (w : Window) (off : Nat) :
    (s.windowPlace n w off).1.queues = s.queues := by
  simp only [State.windowPlace]
  split
  · rfl
  · split
    · next h => exact queues_of_eq h (xlate_queues _ _ _ _ _ _)
    · next h => exact queues_of_eq h (xlate_queues _ _ _ _ _ _)

@[simp] theorem chargeArrival_queues (s : State) (ctx : Nat) (p : Place) : (s.chargeArrival ctx p).queues = s.queues := by
  unfold State.chargeArrival
  split <;> simp

@[simp] theorem blockArrives_queues (s : State) (ctx : Nat) (p : Place) : (s.blockArrives ctx p).queues = s.queues := by
  unfold State.blockArrives
  split <;> simp

@[simp] theorem wbNext_queues (s : State) (h : Hdr) (c : Cmd) (rows : Nat) : (s.wbNext h c rows).queues = s.queues := by
  unfold State.wbNext
  split <;> simp

@[simp] theorem wbWord_queues (s : State) (p : PMwb) (c : Cmd) (off bytes : Nat) :
    (s.wbWord p c off bytes).queues = s.queues := by
  simp [State.wbWord]

@[simp] theorem wbCheck_queues (p : PMwb) (bytes : Nat) :
    ∀ (l : List Nat) (s : State) (code : Nat) (xl : List TlbEnt), (s.wbCheck p bytes code xl l).1.queues = s.queues
  | [], _, _, _ => rfl
  | i :: r, s, code, xl => by
    rw [State.wbCheck]
    exact (wbCheck_queues p bytes r _ _ _).trans (engRange_queues _ _ _ _ _ _ _ _)

@[simp] theorem mwbMove_queues (s : State) (h : Hdr) (p : PMwb) (c : Cmd) : (s.mwbMove h p c).queues = s.queues := by
  simp only [State.mwbMove]
  split
  · simp
  · split
    · split
      · simp
      · split
        · simp
        · split
          · simp
          · split
            · next g => simp [queues_of_eq g (wbCheck_queues _ _ _ _ _ _)]
            · next g => simp [queues_of_eq g (wbCheck_queues _ _ _ _ _ _)]
    · split
      · split <;> simp
      · split
        · simp
        · split
          · rfl
          · split
            · split <;> simp
            · split <;> simp

@[simp] theorem swoutRun_queues (s : State) (h : Hdr) (p : PSwap) (n : Nat) (c : Cmd) :
    (s.swoutRun h p n c).queues = s.queues := by
  simp only [State.swoutRun]
  split
  · next g => simp [queues_of_eq g (swapCheck_queues _ _ _)]
  · next g => simp [queues_of_eq g (swapCheck_queues _ _ _)]

@[simp] theorem badEsWord_queues (s : State) (w : Word32) : (s.badEsWord w).queues = s.queues := by
  unfold State.badEsWord
  split <;> simp

@[simp] theorem esFetch_queues (s : State) : s.esFetch.1.queues = s.queues := by
  simp only [State.esFetch]
  split
  · next h => simp [queues_of_eq h (fetchWord_queues _ _ _ _ _)]
  · next h =>
    have hf := queues_of_eq h (fetchWord_queues _ _ _ _ _)
    split
    · simp [hf]
    · exact hf
    · split
      · simp [hf]
      · split <;> simp [hf]

@[simp] theorem esTurn_queues (s : State) : (s.esTurn).1.queues = s.queues := by
  simp only [State.esTurn]
  (repeat' split) <;> simp

@[simp] theorem hostStore_queues (s : State) (addr : Nat) (v : Word) : (s.hostStore addr v).queues = s.queues := rfl

@[simp] theorem lineEvict_queues (s : State) (n : Nat) : (s.lineEvict n).queues = s.queues := by
  unfold State.lineEvict
  split <;> simp

@[simp] theorem input_queues (s : State) (x : Input) : (s.input x).queues = s.queues := by
  cases x
  all_goals simp only [State.input]
  case tileUpset | tlbEvict => exact updFocus_queues (by simp) (by simp)
  all_goals simp

@[simp] theorem portTake_queues (s : State) (hub : Bool) : (s.portTake hub).queues = s.queues := by
  simp only [State.portTake]
  (repeat' split) <;> simp

@[simp] theorem portTurn_queues (s : State) (hub : Bool) : (s.portTurn hub).1.queues = s.queues := by
  simp only [State.portTurn]
  (repeat' split) <;> simp

@[simp] theorem rejectCmd_queues (s : State) (e : Eng) (h : Word32) (code : Nat) : (s.rejectCmd e h code).queues = s.queues := by
  simp only [State.rejectCmd]
  (repeat' split) <;> simp

@[simp] theorem takeCmd_queues (s : State) (e : Eng) : (s.takeCmd e).queues = s.queues := by
  simp only [State.takeCmd]
  (repeat' split) <;> simp

@[simp] theorem noteWaits_queues (s : State) : s.noteWaits.queues = s.queues := by
  have hcell : ∀ c, (s.noteWait c).queues = c.queues := fun c => by
    unfold State.noteWait
    (repeat' split) <;> rfl
  unfold State.noteWaits
  split
  · exact Prod.ext (hcell _) (parked_queues hcell _)
  · rfl

@[simp] theorem advance_queues (s : State) (n : Nat) : (s.advance n).queues = s.queues := rfl

@[simp] theorem expireLines_queues (s : State) : (s.expireLines).queues = s.queues := by
  simp only [State.expireLines]
  split <;> simp

@[simp] theorem elapse_queues (s : State) (dt : Nat) : (s.elapse dt).queues = s.queues := by unfold State.elapse; split <;> simp

@[simp] theorem passTime_queues (s : State) (dt : Nat) : (s.passTime dt).queues = s.queues := by
  unfold State.passTime
  split <;> simp

@[simp] theorem inTurn_queues (s : State) (t : Turn) : (s.inTurn t).queues = s.queues := by unfold State.inTurn; split <;> simp

end Sys2Proof.Machine
end

section
/-! SUPPORT. The bounds of the queues (R16, R21, R138): what keeps a cell, and a state, within them. -/

namespace Sys2Proof.Machine

open Sys2Proof.Claims

/-- Queues within their capacities, and copies of lq within its own. -/
structure QFit (x : Queues × List (List QEnt)) : Prop where
  dq : ∀ i, (x.1.dq i).length ≤ Config.capQ
  yq : ∀ i, (x.1.yq i).length ≤ Config.capQ
  lq : x.1.lq.length ≤ Config.capLq
  bqa : x.1.bqa.length ≤ Config.capBq
  bqe : x.1.bqe.length ≤ Config.capBq
  copies : ∀ l ∈ x.2, l.length ≤ Config.capLq

/-- The queues of every cell are within their capacities. -/
def AllFit (x : (Queues × List (List QEnt)) × List (Queues × List (List QEnt))) : Prop := QFit x.1 ∧ ∀ y ∈ x.2, QFit y

theorem qFit_queues_iff (c : Cell) : QFit c.queues ↔ QueuesFit c := by
  constructor
  · rintro ⟨hdq, hyq, hlq, hbqa, hbqe, hcopies⟩
    exact ⟨hdq, hyq, hlq, hbqa, hbqe, fun y hy => hcopies y.lq (List.mem_map_of_mem hy)⟩
  · rintro ⟨hdq, hyq, hlq, hbqa, hbqe, hsnaps⟩
    refine ⟨hdq, hyq, hlq, hbqa, hbqe, fun l hl => ?_⟩
    obtain ⟨y, hy, rfl⟩ := List.mem_map.mp hl
    exact hsnaps y hy

theorem allFit_queues_iff (s : State) : AllFit s.queues ↔ QueuesFit s.cell ∧ ∀ c ∈ s.parked, QueuesFit c := by
  simp only [AllFit, State.queues, List.forall_mem_map, qFit_queues_iff]

/-- Queues as after a reset. -/
theorem qFit_init : QFit (Queues.init, []) :=
  ⟨fun i => by simp [queuesInit_dq], fun i => by simp [queuesInit_yq], Nat.zero_le _, Nat.zero_le _, Nat.zero_le _, by simp⟩

theorem allFit_of_frame {s t : State} (h : AllFit s.queues) (e : t.queues = s.queues) : AllFit t.queues := by rwa [e]

/-! ## One queue written -/

section
variable {k : Queues} {cs : List (List QEnt)}

theorem dq_setDq (k : Queues) (i j : BitVec 2) (r : List QEnt) : (k.setDq i r).dq j = if j = i then r else k.dq j := by
  have hget : (k.setDq i r).dq j = (k.q.set i.toFin r)[j.toNat]'j.toFin.isLt := rfl
  rw [hget, Vector.getElem_set]
  by_cases h : j = i
  · subst h
    exact (if_pos rfl).trans (if_pos rfl).symm
  · rw [if_neg h, if_neg fun e => h (BitVec.eq_of_toNat_eq (by exact e.symm))]
    rfl

theorem QFit.setDq (h : QFit (k, cs)) (i : BitVec 2) {r : List QEnt} (hr : r.length ≤ Config.capQ) : QFit (k.setDq i r, cs) := by
  refine ⟨fun j => ?_, h.yq, h.lq, h.bqa, h.bqe, h.copies⟩
  have hj := h.dq j
  dsimp only at hj ⊢
  rw [dq_setDq]
  split
  · exact hr
  · exact hj

theorem QFit.setYq (h : QFit (k, cs)) (i : Bool) {r : List QEnt} (hr : r.length ≤ Config.capQ) : QFit (k.setYq i r, cs) := by
  have h0 := h.yq false
  have h1 := h.yq true
  cases i
  · refine ⟨h.dq, fun j => ?_, h.lq, h.bqa, h.bqe, h.copies⟩
    cases j
    · exact hr
    · exact h1
  · refine ⟨h.dq, fun j => ?_, h.lq, h.bqa, h.bqe, h.copies⟩
    cases j
    · exact h0
    · exact hr

theorem QFit.setLq (h : QFit (k, cs)) {r : List QEnt} (hr : r.length ≤ Config.capLq) : QFit ({ k with lq := r }, cs) :=
  ⟨h.dq, h.yq, hr, h.bqa, h.bqe, h.copies⟩

theorem QFit.setBqa (h : QFit (k, cs)) {r : List BEnt} (hr : r.length ≤ Config.capBq) : QFit ({ k with bqa := r }, cs) :=
  ⟨h.dq, h.yq, h.lq, hr, h.bqe, h.copies⟩

theorem QFit.setBqe (h : QFit (k, cs)) {r : List BEnt} (hr : r.length ≤ Config.capBq) : QFit ({ k with bqe := r }, cs) :=
  ⟨h.dq, h.yq, h.lq, h.bqa, hr, h.copies⟩

theorem QFit.setCopies (h : QFit (k, cs)) {ds : List (List QEnt)} (hd : ∀ l ∈ ds, l.length ≤ Config.capLq) : QFit (k, ds) :=
  ⟨h.dq, h.yq, h.lq, h.bqa, h.bqe, hd⟩

theorem QFit.setLqOf (h : QFit (k, cs)) (q : LQueue) {r : List QEnt} (hr : r.length ≤ lqCap q) : QFit (k.setLqOf q r, cs) := by
  cases q with
  | q i => exact h.setDq i hr
  | lq => exact h.setLq hr

theorem QFit.pq (h : QFit (k, cs)) (q : PQueue) {r : List QEnt} (hr : r.length ≤ (k.pq q).length) : QFit (k.setPq q r, cs) := by
  cases q with
  | y i => exact h.setYq i (hr.trans (h.yq i))
  | lq => exact h.setLq (hr.trans h.lq)

end

theorem popHead_length {now : Nat} {l r : List QEnt} {e : QEnt} (h : popHead now l = some (e, r)) : r.length ≤ l.length := by
  unfold popHead at h
  split at h
  · split at h
    · cases h
      exact Nat.le_succ _
    · cases h
  · cases h

/-- An entry joins a queue that is not full. -/
theorem append_length {α : Type} {l : List α} {n : Nat} (h : ¬ n ≤ l.length) (x : α) : (l ++ [x]).length ≤ n := by
  rw [List.length_append, List.length_singleton]
  omega

theorem arrive_length (l : List QEnt) (seq : Nat) (x : TW) (now : Nat) : (arrive l seq x now).length = l.length := List.length_map ..

/-! ## The queues of the cell in focus written -/

theorem AllFit.cell {s : State} (h : AllFit s.queues) : QFit (s.cell.qs, s.cell.snaps.map (·.lq)) := h.1

theorem updFocus_fits {s : State} {f : Cell → Cell} (h : AllFit s.queues) (hf : QFit (f s.cell).queues) : AllFit (s.updFocus f).queues :=
  ⟨hf, h.2⟩

theorem updQs_fits {s : State} {f : Queues → Queues} (h : AllFit s.queues) (hf : QFit (f s.cell.qs, s.cell.snaps.map (·.lq))) :
    AllFit (s.updQs f).queues := ⟨hf, h.2⟩

theorem qs_of_queues {s t : State} (h : t.queues = s.queues) : t.cell.qs = s.cell.qs := congrArg (·.1.1) h

/-- R16: taking the head of a data queue. -/
theorem popDq_fits {s t : State} (h : AllFit s.queues) (e : t.queues = s.queues) {i : BitVec 2} {now : Nat} {x : QEnt} {r : List QEnt}
    (hr : popHead now (s.cell.qs.dq i) = some (x, r)) : AllFit (t.updQs fun k => k.setDq i r).queues := by
  have ht := allFit_of_frame h e
  exact updQs_fits ht (ht.cell.setDq i ((popHead_length hr).trans (h.cell.dq i)))

/-- R117: an operation whose checks are done has no copy; a delayed one keeps the copy of lq. -/
theorem addOp_fits {s : State} (h : AllFit s.queues) (k : MKind) (cls : Cls) (scope : Scope) (a : Word) (p : Option Place)
    (acq rel : Option (BitVec 16)) : AllFit (s.addOp k cls scope a p acq rel).queues := by
  refine updFocus_fits h (QFit.setCopies h.cell fun l hl => ?_)
  obtain ⟨y, hy, rfl⟩ := List.mem_map.mp hl
  dsimp only at hy
  split at hy
  · rcases List.mem_append.mp hy with hy | hy
    · exact h.cell.copies _ (List.mem_map_of_mem hy)
    · obtain rfl := List.mem_singleton.mp hy
      exact h.cell.lq
  · exact h.cell.copies _ (List.mem_map_of_mem hy)

theorem addOp_qs (s : State) (k : MKind) (cls : Cls) (scope : Scope) (a : Word) (p : Option Place) (acq rel : Option (BitVec 16)) :
    (s.addOp k cls scope a p acq rel).cell.qs = s.cell.qs := rfl

/-- R113: an entry is reserved in a queue that is not full. -/
theorem reserve_fits {s : State} (h : AllFit s.queues) {q : LQueue} (hq : s.qFull q = false) (n : Nat) : AllFit (s.reserve q n).queues :=
  updQs_fits h (h.cell.setLqOf q (append_length (by simpa [State.qFull] using hq) _))

theorem qFull_congr {s t : State} (h : t.cell.qs = s.cell.qs) (q : LQueue) : t.qFull q = s.qFull q := by rw [State.qFull, State.qFull, h]

/-- R113, R117: an operation joins, and its entry is reserved in a queue that is not full. -/
theorem addOp_reserve_fits {s t : State} (h : AllFit s.queues) (e : t.queues = s.queues) {q : LQueue} (hq : s.qFull q = false) (k : MKind)
    (cls : Cls) (scope : Scope) (a : Word) (p : Option Place) (acq rel : Option (BitVec 16)) (n : Nat) :
    AllFit ((t.addOp k cls scope a p acq rel).reserve q n).queues :=
  reserve_fits (addOp_fits (allFit_of_frame h e) k cls scope a p acq rel)
    ((qFull_congr ((addOp_qs t k cls scope a p acq rel).trans (qs_of_queues e)) q).trans hq) n

/-- R16, R113: a value arrives at its entry. -/
theorem arriveAt_fits {s : State} (h : AllFit s.queues) (q : Option (BitVec 2)) (seq : Nat) (x : TW) : AllFit (s.arriveAt q seq x).queues := by
  cases q with
  | some i => exact updQs_fits h (h.cell.setDq i (by rw [arrive_length]; exact h.cell.dq i))
  | none =>
    refine updFocus_fits h (QFit.setCopies (h.cell.setLq (by rw [arrive_length]; exact h.cell.lq)) fun l hl => ?_)
    obtain ⟨y, hy, rfl⟩ := List.mem_map.mp hl
    obtain ⟨z, hz, rfl⟩ := List.mem_map.mp hy
    dsimp only
    rw [arrive_length]
    exact h.cell.copies _ (List.mem_map_of_mem hz)

/-! ## Resets, dispatch, and taking back -/

theorem abandon_queues (c : Cell) (clk : Nat) (sigs : List SemNo) : (c.abandon clk sigs).queues = (Queues.init, []) := rfl

/-- A change of every cell that puts no queue beyond its capacity. -/
theorem allFit_of_map {s : State} {f : Cell → Cell} (h : AllFit s.queues) (hf : ∀ c, QFit c.queues → QFit (f c).queues) :
    AllFit ((f s.cell).queues, (s.parked.map f).map Cell.queues) := by
  refine ⟨hf _ h.1, fun y hy => ?_⟩
  obtain ⟨d, hd, rfl⟩ := List.mem_map.mp hy
  obtain ⟨c, hc, rfl⟩ := List.mem_map.mp hd
  exact hf c (h.2 _ (List.mem_map_of_mem hc))

/-- R320: the cells of a partition that is reset are as after a reset. -/
theorem abandonCells_fits {s : State} (h : AllFit s.queues) (cs : List CellId) : AllFit (s.abandonCells cs).queues := by
  refine allFit_of_map (s := s) (f := fun c => if cs.contains c.id then c.abandon s.pkg.time.clk (s.sigsOpen c) else c) h fun c hc => ?_
  split
  · exact qFit_init
  · exact hc

theorem startMs_queues (f : Flash) (c : Cell) : (startMs f c).queues = (Queues.init, []) := rfl

/-- A change of one cell, in focus or not, that puts no queue beyond its capacity. -/
theorem updCell_fits {s : State} (h : AllFit s.queues) (id : CellId) {f : Cell → Cell} (hf : ∀ c, QFit c.queues → QFit (f c).queues) :
    AllFit (s.updCell id f).queues := by
  unfold State.updCell
  split
  · exact ⟨hf _ h.1, h.2⟩
  · refine ⟨h.1, (allFit_of_map (f := fun c => if c.id = id then f c else c) h fun c hc => ?_).2⟩
    split
    · exact hf c hc
    · exact hc

/-- R390: the MS starts with empty queues. -/
theorem boot_fits {s : State} (h : AllFit s.queues) : AllFit s.boot.queues := by
  simp only [State.boot]
  split
  · rw [updMem_queues]
    refine updCell_fits (f := startMs s.pkg.boot.flash) ?_ _ fun _ _ => qFit_init
    exact h
  · exact h

/-- The state of a module whose cells are as after a reset, but for reports held. -/
theorem fresh_fits (s : State) (m : MemSt) (k : Pkg) (a : List Slot) (r f : Nat) :
    AllFit (State.queues ⟨{ Cell.init s.cell.id with hold := s.cell.hold },
      s.parked.map fun (c : Cell) => { Cell.init c.id with hold := c.hold }, m, k, a, r, f⟩) := by
  refine ⟨qFit_init, fun y hy => ?_⟩
  obtain ⟨d, hd, rfl⟩ := List.mem_map.mp hy
  obtain ⟨c, -, rfl⟩ := List.mem_map.mp hd
  exact qFit_init

/-- R360: after a reset of the module every cell is as after a reset. -/
theorem moduleReset_fits (s : State) : AllFit s.moduleReset.queues := by
  simp only [State.moduleReset]
  generalize s.deliverOut = t
  refine boot_fits ?_
  rw [updPkg_queues]
  exact fresh_fits t _ _ _ _ _

theorem foldl_fits {α : Type} {f : State → α → State} (hf : ∀ s a, AllFit s.queues → AllFit (f s a).queues) :
    ∀ (l : List α) {s : State}, AllFit s.queues → AllFit (l.foldl f s).queues
  | [], _, h => h
  | a :: r, s, h => foldl_fits hf r (hf s a h)

/-- R302: a cell that a record enters has empty queues. -/
theorem enter_queues (c : Cell) (r : Rec) (l : Launch) (prio : Nat) (ctxid : Word) (x : Bool) :
    (c.enter r l prio ctxid x).queues = (Queues.init, []) := rfl

/-- R40: what is taken back. -/
theorem takeBack_qFit {c : Cell} (h : QFit c.queues) {y : Snap} (hy : y.lq.length ≤ Config.capLq) : QFit (c.takeBack y).queues := by
  refine ⟨fun i => ?_, h.yq, hy, h.bqa, h.bqe, by simp [Cell.queues, Cell.takeBack]⟩
  have hget : (c.takeBack y).queues.1.dq i = dropReserved (c.qs.dq i) y.seq := Vector.getElem_map ..
  rw [hget]
  exact (List.length_filter_le _ _).trans (h.dq i)

/-! ## Outcomes -/

/-- An answer whose state, where it has one, keeps the bounds. -/
def NextFits : Host.Outcome State Fault Refusal → Prop
  | .next t => AllFit t.queues
  | _ => True

theorem nextOr_fits {s : State} {r : Res} (h : AllFit s.queues) (hr : NextFits r) : AllFit (nextOr s r).queues := by
  cases r with
  | next t => exact hr
  | fault f => exact h
  | refused f => exact h

end Sys2Proof.Machine
end

section
/-! SUPPORT. The bounds of the queues (R16, R21, R137, R138): the operations that take entries and append them. -/

namespace Sys2Proof.Machine

open Sys2Proof.Claims

@[simp] theorem partitionReset_fits {s : State} (h : AllFit s.queues) (p : Nat) (why : ResetTrigger) (info : Word) :
    AllFit (s.partitionReset p why info).queues := by
  simp only [State.partitionReset]
  rw [foldl_queues]
  · simp [abandonCells_fits h]
  · intro t c
    split <;> simp

@[simp] theorem escalate_fits {s : State} (h : AllFit s.queues) (c : Nat) : AllFit (s.escalate c).queues := by
  unfold State.escalate
  split
  · exact moduleReset_fits s
  · exact partitionReset_fits h _ _ _

@[simp] theorem takeTrap_fits {s : State} (h : AllFit s.queues) (c : Nat) (v : Word) : AllFit (s.takeTrap c v).queues := by
  unfold State.takeTrap
  split
  · exact escalate_fits h c
  · split
    · exact escalate_fits h c
    · split
      · exact escalate_fits h c
      · next hu => simp [saveArea_queues hu, h]

@[simp] theorem trap_fits {s : State} (h : AllFit s.queues) (c : Nat) (v : Word) : AllFit (s.trap c v).queues := by
  unfold State.trap
  split
  · exact takeTrap_fits h c v
  · exact h

theorem clean_fits {s : State} {f : Word → State} (h : AllFit s.queues) (hf : ∀ x, AllFit (f x).queues) (r : GReg) :
    AllFit (s.clean r f).queues := by
  simp only [State.clean]
  split
  · exact trap_fits h _ _
  · exact hf _

theorem guarded_fits {s : State} {f : State → State} (h : AllFit s.queues) (hf : AllFit (f s).queues) (g : Guard) :
    AllFit (s.guarded g f).queues := by
  simp only [State.guarded]
  split
  · exact trap_fits h _ _
  · split
    · exact hf
    · simp [h]

theorem ringTo_fits {s : State} (fit : AllFit s.queues) (ws : List Word32) (e : Eng) :
    AllFit (State.enqueueWords.ringTo s ws e).queues := by
  simp only [State.enqueueWords.ringTo]
  split
  · simp [fit]
  · split
    · exact fit
    · simp [fit]

theorem enqueueWords_fits {s : State} (h : AllFit s.queues) (r : Ring) (ws : List Word32) :
    AllFit (s.enqueueWords r ws).queues := by
  unfold State.enqueueWords
  split
  case h_3 | h_4 | h_5 | h_6 => exact ringTo_fits h ws _
  · split
    · exact trap_fits h _ _
    · split
      · exact h
      · rw [retire_queues, updFocus_queues rfl rfl]
        exact h
  · split
    · exact trap_fits h _ _
    · split
      · exact h
      · rw [retire_queues, updFocus_queues rfl rfl]
        exact h

theorem execBusRetrain_fits {s : State} (fit : AllFit s.queues) (die col : Nat) : NextFits (execBusRetrain die col s) := by
  simp only [execBusRetrain, NextFits]
  split <;> exact fit

theorem performLoad_fits {s : State} (fit : AllFit s.queues) (n : Nat) (o : MOp) (p : Place) (q : Option (BitVec 2)) :
    AllFit (s.performLoad n o p q).queues :=
  arriveAt_fits (by simp [fit]) ..

theorem performAmo_fits {s : State} (fit : AllFit s.queues) (n : Nat) (o : MOp) (p : Place) (f : Word → Option Word) :
    AllFit (s.performAmo n o p f).queues :=
  arriveAt_fits (by simp [fit]) ..

theorem perform_fits {s : State} (fit : AllFit s.queues) (n : Nat) : AllFit (s.perform n).queues := by
  simp only [State.perform]
  split
  · exact fit
  · split
    · exact fit
    · split
      · simp [fit]
      · exact performLoad_fits fit ..
      · simp [fit]
      · exact performAmo_fits fit ..
      · exact performAmo_fits fit ..
      · exact fit
      · exact fit

theorem execPartitionEnable_fits {s : State} (fit : AllFit s.queues) (i : Nat) (d0 : Word) :
    NextFits (execPartitionEnable i d0 s) := by
  simp only [execPartitionEnable, NextFits]
  split
  · exact fit
  · split
    · split
      · exact fit
      · simp [fit]
    · split
      · exact fit
      · split <;> exact fit

theorem execMailboxWrite_fits {s : State} (fit : AllFit s.queues) (v : Word) : NextFits (execMailboxWrite v s) := by
  simp only [execMailboxWrite, NextFits]
  split
  · split
    · split
      · exact moduleReset_fits _
      · exact fit
    · exact fit
  · simp [fit]

theorem discardCtx_fits {s : State} (fit : AllFit s.queues) (c : Nat) : AllFit (s.discardCtx c).queues := by
  simp only [State.discardCtx, rewindCtx_queues, updPkg_queues, resetStreams_queues]
  exact abandonCells_fits fit _

theorem carry_fits {s : State} (fit : AllFit s.queues) (x : EvCtx) : AllFit (s.carry x).queues := by
  simp only [State.carry]
  split
  · apply discardCtx_fits
    exact fit
  · split
    · exact fit
    · simp [fit]
  · exact fit

theorem evict_fits {s : State} (fit : AllFit s.queues) (isCtx : Bool) (t deadline : Nat) (avail : List Nat) (out : Word) :
    AllFit (s.evict isCtx t deadline avail out).queues :=
  foldl_fits (fun _ _ ht => carry_fits (by simp [ht]) ..) _ fit

theorem execEvictionRequest_fits {s : State} (fit : AllFit s.queues) (d0 d1 d2 d3 : Word) :
    NextFits (execEvictionRequest d0 d1 d2 d3 s) := by
  simp only [execEvictionRequest, NextFits]
  split
  · split <;> exact fit
  · apply evict_fits
    split <;> exact fit

theorem evWrite_fits {s : State} (fit : AllFit s.queues) (d : Nat) (v : Word) : AllFit (s.evWrite d v).queues := by
  simp only [State.evWrite]
  split
  · exact nextOr_fits fit (execEvictionRequest_fits fit ..)
  · exact fit

theorem headOf_fits {s : State} {q : BitVec 2} {f : QEnt → List QEnt → State} (h : AllFit s.queues)
    (hf : ∀ e r, popHead s.pkg.time.clk (s.cell.qs.dq q) = some (e, r) → AllFit (f e r).queues) : AllFit (s.headOf q f).queues := by
  unfold State.headOf
  split
  · exact h
  · next e r hr => exact hf e r hr

theorem esLegalOr_fits {s : State} {f : State → State} (h : AllFit s.queues) (hf : AllFit (f s).queues) (i : Instr) :
    AllFit (s.esLegalOr i f).queues := by
  unfold State.esLegalOr
  split
  · exact hf
  · simp [h]

theorem execVldq_fits {s : State} (h : AllFit s.queues) (o : OpVldq) : NextFits (execVldq o s) := by
  refine esLegalOr_fits h (headOf_fits h fun e r hr => ?_) _
  simp [popDq_fits h rfl hr]

theorem tileRow_fits {s : State} {f : State → TRow → State} (h : AllFit s.queues) (hf : ∀ r, AllFit (f s r).queues) (i : Instr) (t : BitVec 2)
    (row : BitVec 6) (k : Nat) : AllFit (s.tileRow i t row k f).queues := by
  unfold State.tileRow
  split
  · simp [h]
  · split
    · simp [h]
    · exact hf _

theorem execAcsc_fits {s : State} (h : AllFit s.queues) (o : OpAcsc) : NextFits (execAcsc o s) := by
  refine tileRow_fits h (fun _ => headOf_fits h fun e r hr => ?_) _ _ _ _
  split
  · simp [h]
  · simp [popDq_fits h rfl hr]

theorem checkOrDelay_fits {s : State} {f : State → Option Place → State} (h : AllFit s.queues)
    (hf : ∀ t p, t.queues = s.queues → AllFit (f t p).queues) (n : Need) (b : Word) (o : BitVec 8) :
    AllFit (s.checkOrDelay n b o f).queues := by
  unfold State.checkOrDelay
  split
  · split
    · exact trap_fits h _ _
    · exact hf s none rfl
  · split
    · next hx => exact trap_fits (allFit_of_frame h (queues_of_eq hx (asAccess_queues _ _ _ _))) _ _
    · next hx => exact hf _ _ (queues_of_eq hx (asAccess_queues _ _ _ _))

theorem queuedStore_fits {s : State} (h : AllFit s.queues) (v : TW) (b : Word) (o : BitVec 8) (cls : Cls) (rel : Option (BitVec 16)) :
    AllFit (s.queuedStore v b o cls rel).queues := by
  refine checkOrDelay_fits h (fun t p ht => ?_) _ _ _
  rw [retire_queues]
  exact addOp_fits (allFit_of_frame h ht) _ _ _ _ _ _ _

theorem retireDie_fits {s : State} (fit : AllFit s.queues) (d : Nat) : AllFit (s.retireDie d).queues := by
  simp only [State.retireDie]
  refine foldl_fits (fun _ _ ht => ?_) _ (foldl_fits (fun _ _ ht => ?_) _ fit)
  all_goals split <;> simp [ht]

theorem replaceCell_fits {s : State} (fit : AllFit s.queues) (c : CellId) : AllFit (s.replaceCell c).queues := by
  simp only [State.replaceCell]
  split
  · exact retireDie_fits fit ..
  · exact fit

theorem repairFault_fits {s : State} (fit : AllFit s.queues) (d : Detection) : AllFit (s.repairFault d).queues := by
  simp only [State.repairFault]
  split
  case h_1 => exact replaceCell_fits (by simp [fit]) _
  case h_2 =>
    split
    all_goals next hx => simp [queues_of_eq hx (spareLeft_queues s), fit]
  case h_3 =>
    split
    · simp [fit]
    · exact replaceCell_fits (by simp [fit]) _
  case h_4 =>
    split
    · next hx => simp [queues_of_eq hx (spareLeft_queues s), fit]
    · next hx => exact replaceCell_fits (by simp [queues_of_eq hx (spareLeft_queues s), fit]) _

theorem march_fits {s : State} (fit : AllFit s.queues) (d : Detection) : AllFit (s.march d).queues :=
  by simp [State.march, fit]

theorem execChardTest_fits {s : State} (fit : AllFit s.queues) (n : Nat) (fails : Bool) : NextFits (execChardTest n fails s) := by
  simp only [execChardTest, NextFits]
  split
  · exact fit
  · next d _ =>
    generalize hu : ((s.updPkg _).march d).wakeMs = u
    have hmarch : AllFit u.queues := by
      rw [← hu, wakeMs_queues]
      exact march_fits (s := s.updPkg _) fit d
    split
    · exact fit
    · split
      · exact repairFault_fits hmarch d
      · simpa using hmarch

theorem execRet_fits {s : State} (fit : AllFit s.queues) (o : OpR) : NextFits (execRet o s) := by
  refine guarded_fits fit (clean_fits fit (fun _ => ?_) ..) ..
  split <;> simp [fit]

theorem execErep_fits {s : State} (fit : AllFit s.queues) (o : OpRep) : NextFits (execErep o s) := by
  simp only [execErep, NextFits]
  grind [updEs_queues, fetchWord_queues, esFault_queues]

theorem withB_fits {s : State} {f : State → (Nat → Nat) → Bool → State} (h : AllFit s.queues)
    (hf : ∀ t a b, AllFit t.queues → AllFit (f t a b).queues) (x : Ev) (b : VB) : AllFit (s.withB x b f).queues := by
  unfold State.withB
  split
  · exact hf _ _ _ h
  · split
    · exact h
    · next hr => exact hf _ _ _ (popDq_fits h rfl hr)

theorem elementwise_fits {s : State} (h : AllFit s.queues) (i : Instr) (m : MReg) (d a : VReg) (b : VB) (lat : Nat) (u : Bool)
    (f : Ev → Nat → Nat → Nat → Nat × BitVec 6) : AllFit (s.elementwise i m d a b lat u f).queues := by
  refine esLegalOr_fits h (withB_fits h (fun t a b ht => ?_) _ _) _
  simp [ht]

theorem pushY_fits {s : State} (h : AllFit s.queues) (y : Bool) (v : Nat) (b : Bool) : AllFit (s.pushY y v b).queues := by
  unfold State.pushY
  split
  · exact h
  · next hn =>
    rw [esNext_queues]
    exact updQs_fits h (h.cell.setYq y (append_length hn _))

theorem unary_fits {s : State} (fit : AllFit s.queues) (pg : Guard) (d a : GReg) (f : Word → Word) :
    AllFit (s.unary pg d a f).queues :=
  guarded_fits fit (by simp [fit]) ..

theorem esMem_fits {s : State} {f : State → Place → Word → State} (h : AllFit s.queues)
    (hf : ∀ t p a, AllFit t.queues → AllFit (f t p a).queues) (n : Need) (o : OpVmem) : AllFit (s.esMem n o f).queues := by
  refine headOf_fits h fun e r hr => ?_
  split
  · simp [h]
  · dsimp only
    split
    · simp [h]
    · exact hf _ _ _ (popDq_fits h rfl hr)

theorem alu_fits {s : State} (fit : AllFit s.queues) (o : OpA) (lat : Nat) (f : Word → Word → Word) :
    AllFit (s.alu o lat f).queues :=
  guarded_fits fit (by simp [fit]) ..

theorem execSliceExpiry_fits {s : State} (fit : AllFit s.queues) (part : Nat) : NextFits (execSliceExpiry part s) := by
  simp only [execSliceExpiry, NextFits]
  split
  · exact fit
  · split <;> exact fit

theorem spadAccess_fits {s : State} {f : State → Place → State} (h : AllFit s.queues)
    (hf : ∀ t p, t.queues = s.queues → AllFit (f t p).queues) (n : Need) (b : Word) (o : BitVec 8) (cls : Cls) :
    AllFit (s.spadAccess n b o cls f).queues := by
  unfold State.spadAccess
  split
  · next hx => exact trap_fits (allFit_of_frame h (queues_of_eq hx (asAccess_queues _ _ _ _))) _ _
  · next hx =>
    split
    · exact hf _ _ (queues_of_eq hx (asAccess_queues _ _ _ _))
    · exact h

theorem afterChecks_fits {s : State} {f : State → State} (h : AllFit s.queues) (hf : AllFit (f s).queues) :
    AllFit (s.afterChecks f).queues := by
  unfold State.afterChecks
  split
  · exact hf
  · exact h

theorem execChkPred_fits {s : State} (fit : AllFit s.queues) (o : OpP) : NextFits (execChkPred o s) := by
  refine guarded_fits fit ?_ ..
  split <;> simp [fit]

theorem execPtpSync_fits {s : State} (fit : AllFit s.queues) (ns : Nat) (off : BitVec 32) : NextFits (execPtpSync ns off s) := by
  simp only [execPtpSync, NextFits]
  split
  · simp [fit]
  · split <;> exact fit

theorem fallBack_fits {s : State} (fit : AllFit s.queues) (n : Nat) (e : Evict) : AllFit (s.fallBack n e).queues :=
  foldl_fits (fun _ _ ht => discardCtx_fits (by simp [ht]) ..) _ fit

theorem execEvictionFallback_fits {s : State} (fit : AllFit s.queues) (n : Nat) : NextFits (execEvictionFallback n s) := by
  simp only [execEvictionFallback, NextFits]
  split
  · exact fit
  · split
    · exact fallBack_fits fit ..
    · exact fit

theorem execSrr_fits {s : State} (fit : AllFit s.queues) (o : OpSrr) : NextFits (execSrr o s) := by
  simp only [execSrr, NextFits]
  split
  · refine guarded_fits fit ?_ ..
    simp [fit]
  · simp [fit]

theorem joinAt_fits {s : State} (fit : AllFit s.queues) (r : RunRec) (a code : Word) (p : Place) :
    AllFit (s.joinAt r a code p).queues := by
  simp only [State.joinAt]
  split
  · simp [fit]
  · split <;> simp [fit]

theorem execJoin_fits {s : State} (fit : AllFit s.queues) (o : OpJoin) : NextFits (execJoin o s) := by
  refine guarded_fits fit (clean_fits fit (fun a => clean_fits fit (fun _ => afterChecks_fits fit ?_) _) _) _
  have hacc := asAccess_queues s needLinRW a 0
  split
  · next hx => exact trap_fits (allFit_of_frame fit (queues_of_eq hx hacc)) ..
  · next hx =>
    have ht := allFit_of_frame fit (queues_of_eq hx hacc)
    split
    · exact trap_fits ht ..
    · split
      · exact fit
      · split
        · exact trap_fits ht ..
        · exact joinAt_fits ht ..

theorem execCqtail_fits {s : State} (fit : AllFit s.queues) (ctx : Nat) (q : BitVec 2) (tail : BitVec 32) :
    NextFits (execCqtail ctx q tail s) := by
  simp only [execCqtail, NextFits]
  split
  · simp [fit]
  · exact fit

theorem execPreset_fits {s : State} (fit : AllFit s.queues) (ctx : Nat) : NextFits (execPreset ctx s) := by
  simp only [execPreset, NextFits]
  split
  · simp [fit]
  · exact fit

theorem execGath_fits {s : State} (fit : AllFit s.queues) (ce : Bool) (h : Hdr) (p : PGath) : NextFits (execGath ce h p s) := by
  simp only [execGath, NextFits]
  rw [runCmd_queues _ _ _ _ _ fun _ _ => planMove_queues (fun _ => codes_queues ..) (fun _ _ => gathFind_queues ..) ..]
  exact fit

theorem execSemdrop_fits {s : State} (fit : AllFit s.queues) (o : OpSem) : NextFits (execSemdrop o s) := by
  refine guarded_fits fit ?_ ..
  split
  · simp [fit]
  · refine afterChecks_fits fit ?_ ..
    split
    · exact fit
    · simp [fit]

theorem cqWrite_fits {s : State} (fit : AllFit s.queues) (ctx q d : Nat) (v : Word) : AllFit (s.cqWrite ctx q d v).queues := by
  simp only [State.cqWrite]
  split
  · split <;> exact fit
  · split <;> exact fit
  · exact nextOr_fits fit (execCqtail_fits fit ..)
  · exact fit

theorem execPreempt_fits {s : State} (fit : AllFit s.queues) (ctx : Nat) : NextFits (execPreempt ctx s) := by
  simp only [execPreempt, NextFits]
  split <;> exact fit

theorem execContextAdmit_fits {s : State} (fit : AllFit s.queues) (ctx : Nat) (d0 : Word) :
    NextFits (execContextAdmit ctx d0 s) := by
  simp only [execContextAdmit, NextFits]
  split
  · exact fit
  · split
    · split <;> exact fit
    · split
      · exact fit
      · split <;> exact fit

theorem request_fits {s : State} (fit : AllFit s.queues) (ctx n : Nat) (ok : StreamState → Bool) (ev : StreamEv) :
    AllFit (s.request ctx n ok ev).queues := by
  simp only [State.request]
  split
  · exact fit
  · split
    · exact fit
    · split
      · exact fit
      · split
        · exact fit
        · split
          · simp [fit]
          · exact fit

theorem execStreamResume_fits {s : State} (fit : AllFit s.queues) (ctx n : Nat) : NextFits (execStreamResume ctx n s) :=
  request_fits fit ..

theorem execStreamCancel_fits {s : State} (fit : AllFit s.queues) (ctx n : Nat) : NextFits (execStreamCancel ctx n s) :=
  request_fits fit ..

theorem execStreamCreate_fits {s : State} (fit : AllFit s.queues) (ctx n : Nat) : NextFits (execStreamCreate ctx n s) := by
  simp only [execStreamCreate, NextFits]
  split
  · exact fit
  · split
    · exact fit
    · split
      · exact fit
      · split
        · exact fit
        · simp [fit]

theorem execStreamPark_fits {s : State} (fit : AllFit s.queues) (ctx n : Nat) : NextFits (execStreamPark ctx n s) :=
  request_fits fit ..

theorem streq_fits {s : State} (fit : AllFit s.queues) (ctx : Nat) (v : Word) : AllFit (s.streq ctx v).queues := by
  simp only [State.streq]
  split
  · exact fit
  · split
    · exact nextOr_fits fit (execStreamCreate_fits fit ..)
    · exact nextOr_fits fit (execStreamPark_fits fit ..)
    · exact nextOr_fits fit (execStreamResume_fits fit ..)
    · exact nextOr_fits fit (execStreamCancel_fits fit ..)
    · exact fit

theorem vfWrite_fits {s : State} (fit : AllFit s.queues) (ctx o : Nat) (v : Word) : AllFit (s.vfWrite ctx o v).queues := by
  simp only [State.vfWrite]
  split
  · exact fit
  · split
    · exact nextOr_fits fit (execContextAdmit_fits fit ..)
    · split
      · exact fit
      · split
        · exact cqWrite_fits fit ..
        · split
          · exact streq_fits fit ..
          · split
            · split
              · exact nextOr_fits fit (execPreempt_fits fit ..)
              · exact fit
            · split
              · split
                · exact nextOr_fits fit (execPreset_fits fit ..)
                · exact fit
              · exact fit

theorem esFaultAtRett_fits {s : State} (fit : AllFit s.queues) : AllFit (s.esFaultAtRett).queues := by
  simp only [State.esFaultAtRett]
  split
  · apply takeTrap_fits
    exact fit
  · exact fit

theorem finishRett_fits {s : State} (fit : AllFit s.queues) (p : Place) (ar er : Option RepSt) :
    AllFit (s.finishRett p ar er).queues :=
  esFaultAtRett_fits (by simp [fit]) ..

theorem rett_fits {s : State} (fit : AllFit s.queues) : AllFit (s.rett).queues := by
  simp only [State.rett]
  split
  · exact escalate_fits fit _
  · next t p hx =>
    have ht := allFit_of_frame fit (saveArea_queues hx)
    split
    · exact escalate_fits (by simpa using ht) _
    · generalize hu : t.eachLine _ p none _ = u
      have hlines : AllFit u.queues := by
        rw [← hu, eachLine_queues fun _ _ => touchLine_queues ..]
        exact ht
      split
      · exact takeTrap_fits hlines ..
      · split
        · exact takeTrap_fits hlines ..
        · split
          · exact finishRett_fits hlines ..
          · exact takeTrap_fits hlines ..

theorem atKernel_fits {s : State} {f : State → State} (h : AllFit s.queues) (hf : AllFit (f s).queues) (i : Instr) :
    AllFit (s.atKernel i f).queues := by
  unfold State.atKernel
  split
  · exact trap_fits h _ _
  · exact hf

theorem execCopyn_fits {s : State} (h : AllFit s.queues) (ce : Bool) (hd : Hdr) (p : PCopyn) :
    NextFits (execCopyn ce hd p s) := by
  refine allFit_of_frame h (runCmd_queues s (ceOf ce) (.copyn ce hd p) hd _ fun t c => ?_)
  exact planMove_queues (fun _ => rfl) (fun _ _ => rfl) _ _ _ _

theorem execWaitt_fits {s : State} (fit : AllFit s.queues) (o : OpR) : NextFits (execWaitt o s) := by
  refine guarded_fits fit (clean_fits fit (fun _ => ?_) ..) ..
  split
  · simp [fit]
  · exact fit

theorem execTlbLoad_fits {s : State} (fit : AllFit s.queues) (who : TlbAgent) (seg : BitVec 6) (page : Nat) :
    NextFits (execTlbLoad who seg page s) := by
  simp only [execTlbLoad, NextFits]
  split
  · exact fit
  · split
    · exact fit
    · simp [fit]

theorem shedEvict_fits {s : State} (fit : AllFit s.queues) (e : Shed) : AllFit (s.shedEvict e).queues := by
  simp only [State.shedEvict]
  split
  · exact fit
  · exact evict_fits fit ..

theorem shedNext_fits {s : State} (fit : AllFit s.queues) : AllFit (s.shedNext).queues := by
  simp only [State.shedNext]
  split
  · split
    · apply shedEvict_fits
      exact fit
    · exact fit
  · split
    · exact fit
    · simp [fit]

theorem execPowerCapEvaluation_fits {s : State} (fit : AllFit s.queues) (watts : Nat) :
    NextFits (execPowerCapEvaluation watts s) := by
  simp only [execPowerCapEvaluation, NextFits]
  split
  · split
    · split
      · exact fit
      · exact shedNext_fits fit ..
    · exact shedNext_fits fit ..
  · split
    · simp [fit]
    · exact fit

theorem execClusterGate_fits {s : State} (fit : AllFit s.queues) (die k : Nat) : NextFits (execClusterGate die k s) := by
  simp only [execClusterGate, NextFits]
  split
  · exact fit
  · simp [fit]

theorem execFusionChange_fits {s : State} (fit : AllFit s.queues) (die k : Nat) : NextFits (execFusionChange die k s) := by
  simp only [execFusionChange, NextFits]
  split
  · exact fit
  · simp [fit]

theorem target_fits {s : State} {f : Word → State} (h : AllFit s.queues) (hf : ∀ x, AllFit (f x).queues) (t : TReg) :
    AllFit (s.target t f).queues := by
  simp only [State.target]
  split
  · exact trap_fits h _ _
  · split
    · exact trap_fits h _ _
    · exact hf _

theorem scOp_fits {s : State} {f : State → Place → State} (h : AllFit s.queues)
    (hf : ∀ t p, s.qFull .lq = false → t.queues = s.queues → AllFit (f t p).queues) (n : Need) (a : Word) (cls : Cls) (rel : Bool) :
    AllFit (s.scOp n a cls rel f).queues := by
  unfold State.scOp
  split
  · exact h
  · next hq =>
    split
    · exact trap_fits h _ _
    · split
      · next hx => exact trap_fits (allFit_of_frame h (queues_of_eq hx (asAccess_queues _ _ _ _))) _ _
      · next hx =>
        split
        · exact hf _ _ (by simpa using hq) ((updFocus_queues rfl rfl).trans (queues_of_eq hx (asAccess_queues _ _ _ _)))
        · exact h

theorem pushLq_fits {s t : State} (h : AllFit s.queues) (e : t.queues = s.queues) (hq : s.qFull .lq = false) (x : TW) :
    AllFit (t.pushLq x).queues := by
  have ht := allFit_of_frame h e
  have hfull : ¬ Config.capLq ≤ t.cell.qs.lq.length := by
    rw [qs_of_queues e]
    exact of_decide_eq_false hq
  exact updQs_fits ht (ht.cell.setLq (append_length hfull _))

theorem execScamo_fits {s : State} (fit : AllFit s.queues) (o : OpAmo) : NextFits (execScamo o s) := by
  refine guarded_fits fit (clean_fits fit (fun a => clean_fits fit (fun _ => scOp_fits fit (fun t p hq ht => ?_) ..) _) _) _
  have hpass := (passLine_queues t (t.cell.who 0) t.cell p (eaOf a 0)).trans ht
  rw [retire_queues, nextSeq_queues]
  exact pushLq_fits fit ((rmw_queues ..).trans ((updMem_queues ..).trans hpass)) hq _

theorem predOp_fits {s : State} (fit : AllFit s.queues) (o : OpPred) (f : Bool → Bool → Bool) : AllFit (s.predOp o f).queues :=
  guarded_fits fit (by simp [fit]) ..

theorem execSetshQ_fits {s : State} (h : AllFit s.queues) (o : OpSetshQ) : NextFits (execSetshQ o s) := by
  refine headOf_fits h fun e r hr => ?_
  split
  · simp [h]
  · split
    · simp [h]
    · simp [popDq_fits h rfl hr]

theorem execScat_fits {s : State} (fit : AllFit s.queues) (ce : Bool) (h : Hdr) (p : PGath) : NextFits (execScat ce h p s) := by
  simp only [execScat, NextFits]
  rw [runCmd_queues _ _ _ _ _ fun _ _ => planMove_queues (fun _ => codes_queues ..) (fun _ _ => gathFind_queues ..) ..]
  exact fit

theorem queuedLoad_fits {s : State} (h : AllFit s.queues) (q : LQueue) (b : Word) (o : BitVec 8) (cls : Cls) (acq : Option (BitVec 16)) :
    AllFit (s.queuedLoad q b o cls acq).queues := by
  unfold State.queuedLoad
  split
  · exact h
  · next hq =>
    refine checkOrDelay_fits h (fun t p ht => ?_) _ _ _
    rw [retire_queues]
    exact addOp_reserve_fits h ht (by simpa using hq) _ _ _ _ _ _ _ _

theorem moveWord_fits {s : State} (fit : AllFit s.queues) (e : Eng) : AllFit (s.moveWord e).queues := by
  simp only [State.moveWord]
  split
  · exact fit
  · split
    · exact fit
    · split <;> simp [fit]

theorem execPop_fits {s : State} (h : AllFit s.queues) (o : OpPop) : NextFits (execPop o s) := by
  have hpop : AllFit (match popHead s.pkg.time.clk (s.cell.qs.pq o.q) with
      | none => s
      | some (e, r) => (s.updQs fun k => k.setPq o.q r).writeReg 1 (.g o.d) e.v e.psn).queues := by
    split
    · exact h
    · next hr =>
      rw [writeReg_queues]
      exact updQs_fits h (h.cell.pq _ (popHead_length hr))
  refine guarded_fits h ?_ _
  dsimp only
  split
  · exact afterChecks_fits h hpop
  · exact hpop

theorem ldih_fits {s : State} (fit : AllFit s.queues) (o : OpLdih) (h : Nat) : AllFit (s.ldih o h).queues :=
  guarded_fits fit (by simp [fit]) ..

theorem execSrw_fits {s : State} (fit : AllFit s.queues) (o : OpSrw) : NextFits (execSrw o s) := by
  simp only [execSrw, NextFits]
  split
  · refine guarded_fits fit ?_ ..
    refine clean_fits fit (fun _ => ?_) ..
    simp [fit]
  · simp [fit]

theorem execHeatRateUpdate_fits {s : State} (fit : AllFit s.queues) (rates : List (Nat × Nat)) :
    NextFits (execHeatRateUpdate rates s) :=
  by simp [execHeatRateUpdate, NextFits, fit]

theorem execScld_fits {s : State} (fit : AllFit s.queues) (o : OpScld) : NextFits (execScld o s) := by
  refine guarded_fits fit (clean_fits fit (fun _ => scOp_fits fit (fun t p hq ht => ?_) ..) _) _
  rw [retire_queues, nextSeq_queues]
  exact pushLq_fits fit (by simp [ht]) hq _

theorem execNvmeTimeout_fits {s : State} (fit : AllFit s.queues) (k : Nat) : NextFits (execNvmeTimeout k s) := by
  simp only [execNvmeTimeout, NextFits]
  split
  · exact fit
  · split
    · simp [fit]
    · exact fit

theorem startStream_fits {s : State} (fit : AllFit s.queues) (n : Nat) : AllFit (s.startStream n).queues := by
  simp only [State.startStream]
  split
  · exact fit
  · next x _ =>
    split
    · exact fit
    · next a _ =>
      have hcheck := checkLaunch_queues s x.ctx a
      split
      · exact fit
      · split
        · next hx => exact partitionReset_fits (allFit_of_frame fit (queues_of_eq hx hcheck)) ..
        · next hx => simp [queues_of_eq hx hcheck, fit]
        · next hx =>
          have ht := allFit_of_frame fit (queues_of_eq hx hcheck)
          split
          · exact ht
          · split <;> simp [ht]

theorem startEntry_fits {s : State} (fit : AllFit s.queues) (c q : Nat) : AllFit (s.startEntry c q).queues := by
  simp only [State.startEntry]
  split
  · simp [fit]
  · split
    · simp [fit]
    · split
      · simp [fit]
      · have hcheck := fun a => (checkLaunch_queues (s.startFences c q) c a).trans (startFences_queues s c q)
        split
        · next hx => exact partitionReset_fits (allFit_of_frame fit (queues_of_eq hx (hcheck _))) ..
        · next hx => simp [queues_of_eq hx (hcheck _), fit]
        · next hx =>
          have ht := allFit_of_frame fit (queues_of_eq hx (hcheck _))
          split
          · exact ht
          · simp [ht]

theorem execLaunchStart_fits {s : State} (fit : AllFit s.queues) (src : LaunchSrc) : NextFits (execLaunchStart src s) := by
  simp only [execLaunchStart, NextFits]
  split
  · exact startEntry_fits fit ..
  · exact startStream_fits fit ..

theorem waitChecks_fits {s : State} {f : State → Place → Nat → State} (h : AllFit s.queues)
    (hf : ∀ t p n, t.queues = s.queues → AllFit (f t p n).queues) (o : OpWaita) : AllFit (s.waitChecks o f).queues := by
  have hreach : AllFit (s.reachWait o).queues := by simp [h]
  refine guarded_fits h (clean_fits h (fun a => clean_fits h (fun _ => clean_fits h (fun _ => afterChecks_fits hreach ?_) _) _) _) _
  split
  · next hx => exact trap_fits (allFit_of_frame hreach (queues_of_eq hx (asAccess_queues _ _ _ _))) _ _
  · next hx => exact hf _ _ _ ((queues_of_eq hx (asAccess_queues _ _ _ _)).trans (reachWait_queues s o))

theorem execWaita_fits {s : State} (fit : AllFit s.queues) (o : OpWaita) : NextFits (execWaita o s) := by
  simp only [execWaita, NextFits]
  refine waitChecks_fits fit (fun _ _ _ ht => ?_) _
  split <;> simp [fit, ht]

theorem atomic_fits {s : State} (h : AllFit s.queues) (k : MKind) (a : Word) (scope : Scope) (cls : Cls) :
    AllFit (s.atomic k a scope cls).queues := by
  unfold State.atomic
  split
  · exact h
  · next hq =>
    refine checkOrDelay_fits h (fun t p ht => ?_) _ _ _
    rw [retire_queues]
    exact addOp_reserve_fits h ht (by simpa using hq) _ _ _ _ _ _ _ _

theorem execStandaloneTimeTimeout_fits {s : State} (fit : AllFit s.queues) : NextFits (execStandaloneTimeTimeout s) := by
  simp only [execStandaloneTimeTimeout, NextFits]
  split
  · simp [fit]
  · exact fit

theorem execBqp_fits {s : State} (h : AllFit s.queues) (o : OpP) : NextFits (execBqp o s) := by
  refine guarded_fits h ?_ _
  split
  · exact trap_fits h _ _
  · refine afterChecks_fits h ?_
    split
    · exact h
    · next hn =>
      rw [retire_queues]
      exact updQs_fits h (h.cell.setBqa (append_length hn _))

theorem writebackOp_fits {s : State} (h : AllFit s.queues) (o : OpHint) (inv : Bool) : AllFit (s.writebackOp o inv).queues := by
  refine guarded_fits h (clean_fits h (fun a => checkOrDelay_fits h (fun t p ht => ?_) _ _ _) _) _
  rw [retire_queues]
  exact addOp_fits (allFit_of_frame h ht) _ _ _ _ _ _ _

theorem execDecodeStepCompletion_fits {s : State} (fit : AllFit s.queues) (n : Nat) :
    NextFits (execDecodeStepCompletion n s) := by
  simp only [execDecodeStepCompletion, NextFits]
  split
  · exact fit
  · split
    · exact fit
    · split
      · simp [fit]
      · exact fit

theorem execSems_fits {s : State} (fit : AllFit s.queues) (o : OpSem) : NextFits (execSems o s) := by
  refine guarded_fits fit ?_ _
  split
  · simp [fit]
  · split
    · simp [fit]
    · rw [retire_queues]
      exact addOp_fits fit ..

theorem execEvictionOutcome_fits {s : State} (fit : AllFit s.queues) (n : Nat) : NextFits (execEvictionOutcome n s) := by
  simp only [execEvictionOutcome, NextFits]
  split
  · exact fit
  · split <;> simp [fit]

theorem execEbqp_fits {s : State} (h : AllFit s.queues) (o : OpEbqp) : NextFits (execEbqp o s) := by
  simp only [execEbqp, NextFits]
  split
  · simp [h]
  · split
    · exact h
    · next hn =>
      rw [esNext_queues]
      exact updQs_fits h (h.cell.setBqe (append_length hn _))

theorem execHpullTimeout_fits {s : State} (fit : AllFit s.queues) (n k : Nat) : NextFits (execHpullTimeout n k s) := by
  simp only [execHpullTimeout, NextFits]
  split
  · exact fit
  · split
    · exact fit
    · split
      · exact fit
      · simp [fit]

theorem execEstart_fits {s : State} (fit : AllFit s.queues) (o : OpR) : NextFits (execEstart o s) := by
  refine guarded_fits fit (clean_fits fit (fun _ => ?_) ..) ..
  split
  · simp [fit]
  · split
    · simp [fit]
    · refine afterChecks_fits fit ?_ ..
      split
      · simp [fit]
      · exact fit

theorem execFenceEntryComplete_fits {s : State} (fit : AllFit s.queues) (ctx : Nat) (q : BitVec 2) :
    NextFits (execFenceEntryComplete ctx q s) := by
  simp only [execFenceEntryComplete, NextFits]
  split
  · simp [fit]
  · split <;> simp [fit]

theorem execEsemw_fits {s : State} (fit : AllFit s.queues) (o : OpEsem) : NextFits (execEsemw o s) := by
  simp only [execEsemw, NextFits]
  split
  · simp [fit]
  · exact fit
  · split
    · exact fit
    · simp [fit]

theorem prefetch_queues (s : State) (a : TW) (off : BitVec 8) (sram : Bool) : (s.prefetch a off sram).queues = s.queues := by
  simp only [State.prefetch]
  split
  · rfl
  · split
    · rfl
    · next e _ =>
      have hxl := xlCheck_queues s needLinR (segNo a.v) (offOf a.v off).toNat e
      split
      · rfl
      · split
        · rfl
        · next hx =>
          have ht := queues_of_eq hx hxl
          split
          · exact ht
          · split <;> simp [ht]

theorem execHalt_fits {s : State} (fit : AllFit s.queues) (o : OpG) : NextFits (execHalt o s) := by
  refine guarded_fits fit ?_ ..
  split <;> simp [fit]

theorem restoreCtx_fits {s : State} (fit : AllFit s.queues) (part c : Nat) : AllFit (s.restoreCtx part c).queues := by
  have hread : (s.settleStatics.readSave part c).1.queues = s.queues := by simp
  simp only [State.restoreCtx]
  split
  · next hx => exact partitionReset_fits (allFit_of_frame fit (queues_of_eq hx hread)) ..
  · next hx => simp [queues_of_eq hx hread, fit]

theorem execContextSwitch_fits {s : State} (h : AllFit s.queues) (part : Nat) : NextFits (execContextSwitch part s) := by
  simp only [execContextSwitch, NextFits]
  split
  · exact h
  · split
    · cases s.nextCtx part (s.part part).left with
      | none => exact h
      | some c => exact restoreCtx_fits h _ _
    · split
      · split <;> simp [h]
      · exact h

theorem execHangTimeout_fits {s : State} (fit : AllFit s.queues) (part : Nat) : NextFits (execHangTimeout part s) := by
  simp only [execHangTimeout, NextFits]
  split
  · simp [fit]
  · exact fit

theorem execWaitaTimeout_fits {s : State} (fit : AllFit s.queues) : NextFits (execWaitaTimeout s) := by
  unfold execWaitaTimeout
  split
  · split
    · exact execWaita_fits fit ..
    · exact fit
  · exact fit

theorem execFork_fits {s : State} (fit : AllFit s.queues) (o : OpFork) : NextFits (execFork o s) := by
  refine guarded_fits fit (clean_fits fit (fun _ => ?_) ..) ..
  refine clean_fits fit (fun _ => clean_fits fit (fun _ => ?_) ..) ..
  split
  · simp [fit]
  · split
    · simp [fit]
    · split <;> simp [fit]

theorem execEbrq_fits {s : State} (h : AllFit s.queues) (o : OpDisp) : NextFits (execEbrq o s) := by
  simp only [execEbrq, NextFits]
  split
  · simp [h]
  · split
    · next b r hb =>
      have hpop : AllFit (s.updQs fun k => { k with bqa := r }).queues :=
        updQs_fits h (h.cell.setBqa ((Nat.le_succ _).trans (by simpa [hb] using h.cell.bqa)))
      split
      · split <;> simp [hpop]
      · exact h
    · exact h

theorem execWritebackComplete_fits {s : State} (fit : AllFit s.queues) (n : Nat) : NextFits (execWritebackComplete n s) := by
  simp only [execWritebackComplete, NextFits]
  split
  · exact fit
  · split
    · exact fit
    · simp [fit]

theorem execSemw_fits {s : State} (fit : AllFit s.queues) (o : OpSem) : NextFits (execSemw o s) := by
  refine guarded_fits fit ?_ ..
  split
  · simp [fit]
  · simp [fit]
  · refine afterChecks_fits fit ?_ ..
    split
    · exact fit
    · simp [fit]

theorem execBrq_fits {s : State} (h : AllFit s.queues) (o : OpT) : NextFits (execBrq o s) := by
  refine guarded_fits h (target_fits h (fun x => afterChecks_fits h ?_) _) _
  split
  · next b r hb =>
    have hpop : AllFit (s.updQs fun k => { k with bqe := r }).queues :=
      updQs_fits h (h.cell.setBqe ((Nat.le_succ _).trans (by simpa [hb] using h.cell.bqe)))
    split
    · dsimp only
      split <;> simp [hpop]
    · exact h
  · exact h

theorem execEsFaultDelivery_fits {s : State} (fit : AllFit s.queues) : NextFits (execEsFaultDelivery s) := by
  simp only [execEsFaultDelivery, NextFits]
  split
  · simp [fit]
  · exact fit

theorem execPortRetirement_fits {s : State} (fit : AllFit s.queues) (p : PathLoss) : NextFits (execPortRetirement p s) := by
  simp only [execPortRetirement, NextFits]
  split <;> simp [fit]

theorem execRemoteWrite_fits {s : State} (fit : AllFit s.queues) (w : Nat) (src : BitVec 16) (off : Nat) (v : Word × Bool) :
    NextFits (execRemoteWrite w src off v s) := by
  simp only [execRemoteWrite, NextFits]
  split
  · exact fit
  · next x _ =>
    have hplace := windowPlace_queues s w x off
    split
    · exact fit
    · split
      · next hx => exact allFit_of_frame fit (queues_of_eq hx hplace)
      · next hx => split <;> simp [queues_of_eq hx hplace, fit]

theorem execRep_fits {s : State} (fit : AllFit s.queues) (o : OpRep) : NextFits (execRep o s) := by
  rcases hx : s.fetchWord 0 s.cell.asbase s.cell.assize (s.core.pc + 4) with ⟨t, w⟩
  have hfetch := allFit_of_frame fit (queues_of_eq hx (fetchWord_queues ..))
  have ht : AllFit (t.setCore { t.core with rep := some (repStart o) }).queues := hfetch
  simp only [execRep, NextFits, hx]
  cases w with
  | none => exact trap_fits ht ..
  | some w =>
    dsimp only
    split
    · exact trap_fits ht ..
    · split
      · exact ht
      · exact trap_fits ht ..

theorem execHeldSignal_fits {s : State} (fit : AllFit s.queues) : NextFits (execHeldSignal s) := by
  simp only [execHeldSignal, NextFits]
  split
  · exact perform_fits fit ..
  · exact fit

theorem execFence_fits {s : State} (fit : AllFit s.queues) (o : OpFence) : NextFits (execFence o s) := by
  simp only [execFence, NextFits]
  apply guarded_fits
  · exact fit
  · apply afterChecks_fits
    · exact fit
    · split
      · exact fit
      · simp [fit]

theorem execVbc_fits {s : State} (h : AllFit s.queues) (o : OpVbc) : NextFits (execVbc o s) := by
  refine esLegalOr_fits h (headOf_fits h fun e r hr => ?_) _
  simp [popDq_fits h rfl hr]

theorem execLoop_fits {s : State} (fit : AllFit s.queues) (o : OpLoop) : NextFits (execLoop o s) := by
  simp only [execLoop, NextFits]
  apply guarded_fits
  · exact fit
  · refine clean_fits fit (fun _ => target_fits fit (fun _ => ?_) _) _
    split <;> simp [fit]

theorem execModuleReset_fits (s : State) : NextFits (execModuleReset s) := moduleReset_fits s

theorem execEbr_fits {s : State} (fit : AllFit s.queues) (o : OpEbr) : NextFits (execEbr o s) := by
  simp only [execEbr, NextFits]
  split
  · exact fit
  · split
    · exact fit
    · split <;> simp [fit]

theorem powerOn_fits (s : State) : AllFit (s.powerOn).queues := by
  rw [State.powerOn, updPkg_queues]
  exact moduleReset_fits _

theorem execPowerOn_fits (s : State) : NextFits (execPowerOn s) := powerOn_fits s

theorem execPartitionReset_fits {s : State} (fit : AllFit s.queues) (part : Nat) (why : ResetTrigger) :
    NextFits (execPartitionReset part why s) := by
  simp only [execPartitionReset, NextFits]
  split
  · simp [fit]
  · exact fit

theorem badAsWord_fits {s : State} (fit : AllFit s.queues) (w : Word32) : AllFit (s.badAsWord w).queues := by
  simp only [State.badAsWord]
  split
  · split
    · apply trap_fits
      exact fit
    · exact fit
  · simp [fit]

theorem asFetch_fits {s : State} (fit : AllFit s.queues) : AllFit (s.asFetch).1.queues := by
  simp only [State.asFetch]
  split
  · next hx => exact trap_fits (allFit_of_frame fit (queues_of_eq hx (fetchWord_queues ..))) ..
  · next hx =>
    have ht := allFit_of_frame fit (queues_of_eq hx (fetchWord_queues ..))
    split
    · exact badAsWord_fits ht _
    · exact ht
    · split
      · exact trap_fits ht ..
      · split
        · exact ht
        · exact trap_fits ht ..

theorem asTurn_fits {s : State} (fit : AllFit s.queues) : AllFit (s.asTurn).1.queues := by
  simp only [State.asTurn]
  split
  · exact fit
  · exact asFetch_fits fit ..

theorem engTurn_fits {s : State} (fit : AllFit s.queues) (e : Eng) : AllFit (s.engTurn e).1.queues := by
  simp only [State.engTurn]
  split
  · exact fit
  · split
    · exact fit
    · split
      · simp [fit]
      · dsimp only
        exact moveWord_fits fit ..

theorem turn_fits {s : State} (fit : AllFit s.queues) (t : Turn) : AllFit (s.turn t).1.queues := by
  simp only [State.turn]
  split
  · exact asTurn_fits fit
  · simp [fit]
  · exact engTurn_fits fit _
  · exact engTurn_fits fit _
  · exact engTurn_fits fit _
  · exact engTurn_fits fit _
  · simp [fit]
  · simp [fit]
  · exact fit
  · simp [fit]

end Sys2Proof.Machine
end

section
namespace Sys2Proof.Machine
open Sys2Proof.Claims

theorem ite_fits {c : Prop} [Decidable c] {s t : State} (hs : AllFit s.queues) (ht : AllFit t.queues) :
    AllFit (if c then s else t).queues := by
  split
  · exact hs
  · exact ht

/-- R305: a write to the management block. -/
theorem mgmtWrite_fits {s : State} (h : AllFit s.queues) (o : Nat) (v : Word) : AllFit (s.mgmtWrite o v).queues := by
  have hmail := nextOr_fits h (execMailboxWrite_fits h v)
  have hpart := nextOr_fits h (execPartitionEnable_fits h (o / 64) v)
  have hev := evWrite_fits h ((o - 0x400) / 8) v
  have hslots := allFit_of_frame h (setSlots_queues s (o - 0x10000) v)
  exact ite_fits (ite_fits hmail h) (ite_fits h (ite_fits (ite_fits hpart h) (ite_fits hev (ite_fits h (ite_fits h (ite_fits h
    (ite_fits h (ite_fits h (ite_fits h (ite_fits h (ite_fits h (ite_fits hslots h)))))))))))) 

theorem performMgmt_fits {s : State} (h : AllFit s.queues) (n : Nat) (o : MOp) (p : Place) : AllFit (s.performMgmt n o p).queues := by
  have hdrop : AllFit (s.dropOp n).queues := by simp [h]
  unfold State.performMgmt
  extract_lets old
  split
  · exact mgmtWrite_fits hdrop _ _
  · exact mgmtWrite_fits (arriveAt_fits hdrop _ _ _) _ _
  · have harrived := arriveAt_fits hdrop none o.seq ⟨old, false⟩
    exact ite_fits (mgmtWrite_fits harrived _ _) harrived
  · exact perform_fits h n

theorem performHere_fits {s : State} (h : AllFit s.queues) (n : Nat) : AllFit (s.performHere n).queues := by
  unfold State.performHere
  split
  · exact h
  · split
    · exact ite_fits (performMgmt_fits h _ _ _) (perform_fits h n)
    · exact perform_fits h n

theorem execWritePerform_fits {s : State} (h : AllFit s.queues) (held : Bool) (n : Nat) : NextFits (execWritePerform held n s) := by
  refine ite_fits ?_ (ite_fits h h)
  split
  case h_3 => exact h
  all_goals exact performHere_fits h n

theorem execLoadArrival_fits {s : State} (h : AllFit s.queues) (n : Nat) : NextFits (execLoadArrival n s) := by
  simp only [execLoadArrival, NextFits]
  split
  case h_4 => exact h
  all_goals exact performHere_fits h n

theorem execRegisterWrite_fits {s : State} (h : AllFit s.queues) (sp : RegSpace) (off : Nat) (v : Word) :
    NextFits (execRegisterWrite sp off v s) := by
  cases sp with
  | vf c => exact vfWrite_fits h _ _ _
  | mgmt => exact mgmtWrite_fits h _ _

/-! ## Dispatch (R302) -/

/-- R302: a record enters a cell, whatever its tiles. -/
theorem enter_fits {s : State} (h : AllFit s.queues) (r : Rec) (l : Launch) (prio : Nat) (ctxid : Word) (x : Bool) (ts : List Tile) :
    AllFit (s.updFocus fun c => { c.enter r l prio ctxid x with tiles := ts }).queues := updFocus_fits h qFit_init

theorem runRec_fits {s : State} (h : AllFit s.queues) (r : Rec) (l : Launch) (prio : Nat) : AllFit (s.runRec r l prio).queues := by
  unfold State.runRec
  extract_lets crossing fresh s0 t ctxid s1 s2 s3 s4 l4
  have h0 : s0.queues = s.queues := by
    simp only [s0]
    split <;> simp
  have ht : t.1.queues = s.queues := by
    simp only [t]
    split <;> simp [h0]
  have h3 : AllFit s3.queues := by
    have h1 : AllFit s1.queues := enter_fits (allFit_of_frame h ht) r l prio ctxid crossing t.2
    exact allFit_of_frame h1 ((updLaunch_queues _ _ _).trans (updMem_queues _ _))
  have h4 : AllFit s4.queues := allFit_of_frame h3 (updFocus_queues (resetEngines_qs _) (resetEngines_snaps _))
  refine ite_fits ?_ h3
  split
  · next hx =>
    exact partitionReset_fits (allFit_of_frame h4 (queues_of_eq hx (templates_queues _ _ _))) _ _ _
  · next hx => exact allFit_of_frame h4 (queues_of_eq hx (templates_queues _ _ _))

theorem takeFifo_fits {s : State} (h : AllFit s.queues) (part lvl i : Nat) : AllFit (s.takeFifo part lvl i).queues := by
  unfold State.takeFifo
  split
  · exact h
  · split
    · exact h
    · refine ite_fits (partitionReset_fits ?_ _ _ _) (runRec_fits ?_ _ _ _) <;> simp [h]

theorem takeWid_fits {s : State} (h : AllFit s.queues) (part lvl : Nat) (l : Launch) : AllFit (s.takeWid part lvl l).queues := by
  unfold State.takeWid
  split
  · exact h
  · extract_lets wid r s1 s2
    have h2 : AllFit s2.queues := allFit_of_frame h ((updPart_queues _ _ _).trans (updLaunch_queues _ _ _))
    split
    · exact h2
    · exact runRec_fits h2 _ _ _

theorem dispatchFrom_fits {s : State} (h : AllFit s.queues) (part : Nat) : ∀ n, AllFit (s.dispatchFrom part n).queues
  | 0 => h
  | lvl + 1 => by
    simp only [State.dispatchFrom]
    split
    · exact ite_fits (takeFifo_fits h _ _ _) (takeWid_fits h _ _ _)
    · exact takeFifo_fits h _ _ _
    · exact takeWid_fits h _ _ _
    · exact dispatchFrom_fits h part lvl

theorem execDispatch_fits {s : State} (h : AllFit s.queues) : NextFits (execDispatch s) := by
  simp only [execDispatch, NextFits, State.dispatch]
  split
  · exact h
  · exact ite_fits h (dispatchFrom_fits h _ 8)

/-! ## Repair and gating (R288, R365) -/

theorem execCellSpare_fits {s : State} (h : AllFit s.queues) (die num : Nat) : NextFits (execCellSpare die num s) := by
  refine ite_fits h (ite_fits h (ite_fits (retireDie_fits h die) ?_))
  exact updCell_fits (f := fun c => { Cell.init ⟨die, num⟩ with fused := c.fused, gated := c.gated, hold := c.hold }) h _ fun _ _ => qFit_init

theorem execClusterUngate_fits {s : State} (h : AllFit s.queues) (die k : Nat) : NextFits (execClusterUngate die k s) := by
  have hcluster : ∀ cs, AllFit (s.updCluster cs fun c => { Cell.init c.id with fused := c.fused, hold := c.hold }).queues := fun cs =>
    foldl_fits (fun t id ht => updCell_fits (f := fun c => { Cell.init c.id with fused := c.fused, hold := c.hold }) ht id fun _ _ => qFit_init) cs h
  exact hcluster _

/-! ## EXIT (R149) -/

theorem joinpAccess_queues (s : State) : s.joinpAccess.1.queues = s.queues := by
  unfold State.joinpAccess
  extract_lets a off
  split
  · rfl
  · split
    · rfl
    · exact xlCheck_queues _ _ _ _ _

/-- EXIT once the lines of its join block are there. -/
def State.exitJoinFrom (t : State) (p : Place) (a : Word) : State :=
  let c := t.joinWord p 0
  if c.psn then t.trap cPoison a
  else if c.v = 1 then
    match t.joinMarked p with
    | some o => t.trap cPoison (a + BitVec.ofNat 64 o)
    | none =>
      match t.cell.recd with
      | none => (t.joinDown p c.v).leave
      | some r =>
        ((t.joinDown p c.v).continuation r (t.joinWord p 0x08).v (t.joinWord p 0x10).v (t.joinWord p 0x18).v
          (t.joinWord p 0x20).v).leave
  else (t.joinDown p c.v).leave
theorem exitJoinFrom_fits {t : State} (ht : AllFit t.queues) (p : Place) (a : Word) : AllFit (t.exitJoinFrom p a).queues := by
  have hdown : ∀ n, (t.joinDown p n).leave.queues = t.queues := fun n => (leave_queues _).trans (joinDown_queues _ _ _)
  unfold State.exitJoinFrom
  dsimp only
  refine ite_fits (trap_fits ht _ _) (ite_fits ?_ (allFit_of_frame ht (hdown _)))
  split
  · exact trap_fits ht _ _
  · split
    · exact allFit_of_frame ht (hdown _)
    · exact allFit_of_frame ht ((leave_queues _).trans ((continuation_queues _ _ _ _ _ _).trans (joinDown_queues _ _ _)))

theorem exitJoin_eq (s : State) (p : Place) : s.exitJoin p
    = ((s.meetError (s.cell.who 0) (l1Of s.cell p.line) p s.cell.as.sys.joinp).touchJoin p 40).exitJoinFrom p s.cell.as.sys.joinp := rfl

theorem exitJoin_fits {s : State} (h : AllFit s.queues) (p : Place) : AllFit (s.exitJoin p).queues := by
  rw [exitJoin_eq]
  refine exitJoinFrom_fits ?_ _ _
  rw [touchJoin_queues, meetError_queues]
  exact h

theorem execExit_fits {s : State} (h : AllFit s.queues) (o : OpG) : NextFits (execExit o s) := by
  refine guarded_fits h ?_ _
  refine ite_fits h (ite_fits (trap_fits h _ _) (ite_fits h (ite_fits ?_ ?_)))
  · exact allFit_of_frame h (leave_queues s)
  · split
    · next hx => exact trap_fits (allFit_of_frame h (queues_of_eq hx (joinpAccess_queues _))) _ _
    · next hx =>
    exact ite_fits h (exitJoin_fits (allFit_of_frame h (queues_of_eq hx (joinpAccess_queues _))) _)

/-! ## Queues written by instructions (R116, R137, R114) -/

theorem execStq_fits {s : State} (h : AllFit s.queues) (o : OpStq) : NextFits (execStq o s) := by
  refine guarded_fits h (clean_fits h (fun a => afterChecks_fits h ?_) _) _
  split
  · next hx =>
    exact trap_fits (allFit_of_frame h (queues_of_eq hx (asAccess_queues _ _ _ _))) _ _
  · next t p hx =>
    have ht := allFit_of_frame h (queues_of_eq hx (asAccess_queues _ _ _ _))
    split
    · exact h
    · next e r hr =>
      have hlen : r.length ≤ Config.capQ := (popHead_length hr).trans (h.cell.yq o.y)
      have hpop : AllFit (t.updQs fun k => k.setYq o.y r).queues := updQs_fits ht (ht.cell.setYq o.y hlen)
      rw [retire_queues]
      exact addOp_fits hpop _ _ _ _ _ _ _

theorem execQpush_fits {s : State} (h : AllFit s.queues) (o : OpQpush) : NextFits (execQpush o s) := by
  refine guarded_fits h ?_ _
  refine afterChecks_fits h ?_
  split
  · exact h
  · next hn =>
    have hpush := h.cell.setDq o.q (append_length hn ⟨(s.rg o.b).v, (s.rg o.b).psn, true, s.ready, s.cell.mseq⟩)
    rw [retire_queues]
    exact updQs_fits h hpush

/-- R114: an entry joins a queue for loads that is not full. -/
theorem pushLqOf_fits {s t : State} (h : AllFit s.queues) (e : t.queues = s.queues) {q : LQueue} (hq : s.qFull q = false) (x : QEnt) :
    AllFit (t.updQs fun k => k.setLqOf q (k.lqOf q ++ [x])).queues := by
  have ht := allFit_of_frame h e
  have hroom : ¬ lqCap q ≤ (t.cell.qs.lqOf q).length := by
    rw [qs_of_queues e]
    exact of_decide_eq_false hq
  exact updQs_fits ht (ht.cell.setLqOf q (append_length hroom x))

theorem execLdx_fits {s : State} (h : AllFit s.queues) (o : OpMemQ) : NextFits (execLdx o s) := by
  refine guarded_fits h ?_ _
  refine afterChecks_fits h ?_
  extract_lets a deferred
  have hdeferred : ∀ t, t.queues = s.queues → s.qFull o.q = false → AllFit (deferred t).queues := fun t e hq =>
    allFit_of_frame (pushLqOf_fits h e hq _) (retire_queues _)
  split
  · exact h
  · next hq =>
    have hroom : s.qFull o.q = false := by simpa using hq
    refine ite_fits (hdeferred s rfl hroom) ?_
    split
    · next hx => exact hdeferred _ (queues_of_eq hx (asAccess_queues _ _ _ _)) hroom
    · next hx =>
      have hasked := queues_of_eq hx (asAccess_queues _ _ _ _)
      exact allFit_of_frame (addOp_reserve_fits h hasked hroom _ _ _ _ _ _ _ _) (retire_queues _)

/-! ## Late checks (R40, R117) -/

theorem takeBackForks_queues (s : State) (seq : Nat) : (s.takeBackForks seq).queues = s.queues := by
  simp only [State.takeBackForks]
  split
  · rfl
  · split <;> simp

/-- R40: taking back to one of the copies. -/
theorem takeBack_fits {s : State} (h : AllFit s.queues) {y : Snap} (hy : y.lq.length ≤ Config.capLq) : AllFit (s.takeBack y).queues := by
  have hrings : (([Eng.mx, .ce0, .ce1, .xe].foldl (fun (s : State) e => s.takeBackRing y.seq e) s).takeBackForks y.seq).queues = s.queues := by
    rw [takeBackForks_queues]
    exact foldl_queues (fun _ _ => takeBackRing_queues _ _ _) _ s
  have hfit := allFit_of_frame h hrings
  exact updFocus_fits hfit (takeBack_qFit hfit.1 hy)

theorem execMemoryCheckCompletion_fits {s : State} (h : AllFit s.queues) : NextFits (execMemoryCheckCompletion s) := by
  simp only [execMemoryCheckCompletion, NextFits]
  split
  · exact h
  · next y rest hs =>
    have hcopy : ∀ x ∈ s.cell.snaps, x.lq.length ≤ Config.capLq := fun x hx => h.cell.copies _ (List.mem_map_of_mem hx)
    have hrest : ∀ l ∈ rest.map (·.lq), l.length ≤ Config.capLq := fun l hl => by
      obtain ⟨x, hx, rfl⟩ := List.mem_map.mp hl
      exact hcopy x (by rw [hs]; exact List.mem_cons_of_mem y hx)
    split
    · exact allFit_of_frame (updFocus_fits (f := fun c => { c with snaps := rest }) h (h.cell.setCopies hrest)) (writeBodies_queues _ _)
    · split
      · next t p hx =>
        have ht := allFit_of_frame h (queues_of_eq hx (asAccess_queues _ _ _ _))
        rw [writeBodies_queues]
        exact updFocus_fits ht (ht.cell.setCopies hrest)
      · next hx =>
        have ht := allFit_of_frame h (queues_of_eq hx (asAccess_queues _ _ _ _))
        exact takeTrap_fits (takeBack_fits ht (hcopy y (by rw [hs]; exact List.mem_cons_self))) _ _

/-! ## One step (log 1) -/

theorem exec_fits {s : State} (fit : AllFit s.queues) (i : Instr) : NextFits (exec i s) := by
  match i with
  | .add _ | .sub _ | .and _ | .or _ | .xor _ | .andn _ | .shl _ | .shr _ | .sar _ | .min _ | .max _ | .minn _
  | .maxn _ | .mul _ | .mulh _ | .mulhn _ | .div _ | .divn _ | .rem _ | .remn _ => exact alu_fits fit ..
  | .clz _ | .popc _ | .addi _ | .andi _ | .ori _ | .xori _ | .shli _ | .shri _ | .sari _ | .bext _ | .sega _ => exact unary_fits fit ..
  | .sel _ | .ldi _ | .bins _ | .cmp _ | .cmpi _ | .adr2 _ | .trap _ | .pbr _ | .nop _ | .qstat _ | .semrd _ =>
    exact guarded_fits fit (by simp [fit]) ..
  | .ldih1 _ | .ldih2 _ | .ldih3 _ => exact ldih_fits fit ..
  | .pand _ | .por _ | .pxor _ => exact predOp_fits fit ..
  | .srr o => exact execSrr_fits fit o
  | .srw o => exact execSrw_fits fit o
  | .rett _ =>
    exact atKernel_fits fit (guarded_fits fit (afterChecks_fits fit (rett_fits fit ..) ..) ..) ..
  | .halt o => exact execHalt_fits fit o
  | .lds _ =>
    exact guarded_fits fit (clean_fits fit (fun _ => spadAccess_fits fit (fun _ _ ht => by simp [fit, ht]) ..) ..) ..
  | .sts _ =>
    exact guarded_fits fit (clean_fits fit (fun _ => afterChecks_fits fit (spadAccess_fits fit (fun _ _ ht => by simp [fit, ht]) ..) ..) ..) ..
  | .ldq _ | .ldqAcq _ => exact guarded_fits fit (clean_fits fit (fun _ => queuedLoad_fits fit ..) ..) ..
  | .ldx o => exact execLdx_fits fit o
  | .st _ | .stRel _ => exact guarded_fits fit (clean_fits fit (fun _ => queuedStore_fits fit ..) ..) ..
  | .stq o => exact execStq_fits fit o
  | .pf _ => exact guarded_fits fit (by simp [prefetch_queues, fit]) ..
  | .cwb _ | .cinv _ => exact writebackOp_fits fit ..
  | .chk _ | .pbrReg _ => exact guarded_fits fit (clean_fits fit (fun _ => by simp [fit]) ..) ..
  | .chkPred o => exact execChkPred_fits fit o
  | .tlbi _ =>
    exact atKernel_fits fit (guarded_fits fit (clean_fits fit (fun _ => by simp [fit]) ..) ..) ..
  | .amo _ =>
    exact guarded_fits fit (clean_fits fit (fun _ => clean_fits fit (fun _ => atomic_fits fit ..) ..) ..) ..
  | .cas _ =>
    exact guarded_fits fit (clean_fits fit (fun _ => clean_fits fit (fun _ => clean_fits fit (fun _ => atomic_fits fit ..) ..) ..) ..) ..
  | .scld o => exact execScld_fits fit o
  | .scst _ =>
    exact guarded_fits fit (clean_fits fit (fun _ => scOp_fits fit (fun _ _ _ ht => by simp [fit, ht]) ..) ..) ..
  | .scamo o => exact execScamo_fits fit o
  | .fence o => exact execFence_fits fit o
  | .fork o => exact execFork_fits fit o
  | .join o => exact execJoin_fits fit o
  | .exit o => exact execExit_fits fit o
  | .enq _ =>
    exact guarded_fits fit (clean_fits fit (fun _ => clean_fits fit (fun _ => enqueueWords_fits fit ..) ..) ..) ..
  | .enqs _ =>
    exact guarded_fits fit (clean_fits fit (fun _ => enqueueWords_fits fit ..) ..) ..
  | .estart o => exact execEstart_fits fit o
  | .br _ | .call _ => exact guarded_fits fit (target_fits fit (fun _ => by simp [fit]) ..) ..
  | .brq o => exact execBrq_fits fit o
  | .bqp o => exact execBqp_fits fit o
  | .ret o => exact execRet_fits fit o
  | .loop o => exact execLoop_fits fit o
  | .pop o => exact execPop_fits fit o
  | .qpush o => exact execQpush_fits fit o
  | .sems o => exact execSems_fits fit o
  | .semw o => exact execSemw_fits fit o
  | .semdrop o => exact execSemdrop_fits fit o
  | .waita o => exact execWaita_fits fit o
  | .waitt o => exact execWaitt_fits fit o
  | .rep o => exact execRep_fits fit o
  | .setsh _ | .epbr _ | .esems _ | .eexit | .vabs _ | .vneg _ | .vrcp _ | .vrsq _ | .vexp2 _ | .vlog2 _
  | .vcvt _ | .vqb _ | .vdqb _ | .vshlImm _ | .vshrImm _ | .vsarImm _ | .viota _ | .vsel _ | .mand _ | .mor _
  | .mxor _ | .mnot _ | .vrsum _ | .vrmax _ | .vrmin _ | .vrmaxi _ | .vrmini _ | .vperm _ | .vslide _
  | .vgath _ | .vrng _ | .acrd _ | .acz _ | .aczTile _ | .acst _ | .mhdr _ _ | .mopa _ _ | .mopb _ _
  | .mma _ _ | .mmaz _ _ | .mwb _ _ | .mthr _ _ | .flagw _ _ _ | .cmpr _ _ _ | .expn _ _ _ | .hoff _ _
  | .hpull _ _ | .hcancel _ _ | .swout _ _ | .swin _ _ | .rcopy _ _ | .recordAging _ _ | .blockSend _
  | .blockCommit _ | .blockRelease _ | .cancelAtDestination _ | .completionRecord _ | .swapBlockRead
  | .nvmeCompletion _ _ | .errorReportDelivery _ | .reportRetry | .heatTokenRefill | .heatResume _
  | .heatWindowEnd | .staticEnergyCharge | .keySlotEmpty _ | .getMeasurements | .msWake _ => exact allFit_of_frame fit (by simp)
  | .setshQ o => exact execSetshQ_fits fit o
  | .vld _ | .vst _ => exact esLegalOr_fits fit (esMem_fits fit (fun _ _ _ ht => by simp [ht]) ..) ..
  | .vldq o => exact execVldq_fits fit o
  | .vsty _ => exact esLegalOr_fits fit (pushY_fits fit ..) ..
  | .vbc o => exact execVbc_fits fit o
  | .ebr o => exact execEbr_fits fit o
  | .ebrq o => exact execEbrq_fits fit o
  | .ebqp o => exact execEbqp_fits fit o
  | .esemw o => exact execEsemw_fits fit o
  | .vadd _ | .vsub _ | .vmul _ | .vfma _ | .vfms _ | .vmin _ | .vmax _ | .vand _ | .vor _ | .vxor _ | .vshl _
  | .vshr _ | .vsar _ => exact elementwise_fits fit ..
  | .vcmp _ => exact esLegalOr_fits fit (withB_fits fit (fun _ _ _ ht => by simp [ht]) ..) ..
  | .mpop _ => exact pushY_fits fit ..
  | .acwr _ =>
    exact allFit_of_frame fit (tileRow_queues _ _ _ _ _ _ fun _ _ => by dsimp only; split <;> simp)
  | .acsc o => exact execAcsc_fits fit o
  | .erep o => exact execErep_fits fit o
  | .mrn _ _ =>
    exact allFit_of_frame fit (runCmd_queues _ _ _ _ _ fun _ _ => rowsMove_queues _ _ _ _ _ fun _ _ => by split <;> simp)
  | .mclr _ _ =>
    exact allFit_of_frame fit (runCmd_queues _ _ _ _ _ fun _ _ => rowsMove_queues _ _ _ _ _ fun _ _ => updRow_queues ..)
  | .copy _ _ _ | .fill _ _ _ | .unfold _ _ | .xpose _ _ | .relay _ _ =>
    exact allFit_of_frame fit (runCmd_queues _ _ _ _ _ fun _ _ => planMove_queues (codes_queues _) noFind_queues ..)
  | .copyn ce h p => exact execCopyn_fits fit ce h p
  | .gath ce h p => exact execGath_fits fit ce h p
  | .scat ce h p => exact execScat_fits fit ce h p
  | .esFaultDelivery => exact execEsFaultDelivery_fits fit
  | .loadArrival n => exact execLoadArrival_fits fit n
  | .writePerform held n => exact execWritePerform_fits fit held n
  | .heldSignal => exact execHeldSignal_fits fit
  | .writebackComplete n => exact execWritebackComplete_fits fit n
  | .waitaTimeout => exact execWaitaTimeout_fits fit
  | .frontQueueMove _ => exact moveWord_fits fit ..
  | .dispatch => exact execDispatch_fits fit
  | .cqtail ctx q tail => exact execCqtail_fits fit ctx q tail
  | .launchStart src => exact execLaunchStart_fits fit src
  | .fenceEntryComplete ctx q => exact execFenceEntryComplete_fits fit ctx q
  | .sliceExpiry part => exact execSliceExpiry_fits fit part
  | .preempt ctx => exact execPreempt_fits fit ctx
  | .contextSwitch part => exact execContextSwitch_fits fit part
  | .hangTimeout part => exact execHangTimeout_fits fit part
  | .preset ctx => exact execPreset_fits fit ctx
  | .partitionReset part why => exact execPartitionReset_fits fit part why
  | .evictionRequest d0 d1 d2 d3 => exact execEvictionRequest_fits fit d0 d1 d2 d3
  | .evictionFallback n => exact execEvictionFallback_fits fit n
  | .evictionOutcome n => exact execEvictionOutcome_fits fit n
  | .streamCreate ctx n => exact execStreamCreate_fits fit ctx n
  | .streamPark ctx n => exact execStreamPark_fits fit ctx n
  | .streamResume ctx n => exact execStreamResume_fits fit ctx n
  | .streamCancel ctx n => exact execStreamCancel_fits fit ctx n
  | .decodeStepCompletion n => exact execDecodeStepCompletion_fits fit n
  | .hpullTimeout n k => exact execHpullTimeout_fits fit n k
  | .nvmeTimeout k => exact execNvmeTimeout_fits fit k
  | .chardTest n fails => exact execChardTest_fits fit n fails
  | .cellSpare die num => exact execCellSpare_fits fit die num
  | .busRetrain die col => exact execBusRetrain_fits fit die col
  | .heatRateUpdate rates => exact execHeatRateUpdate_fits fit rates
  | .powerCapEvaluation watts => exact execPowerCapEvaluation_fits fit watts
  | .partitionEnable part d0 => exact execPartitionEnable_fits fit part d0
  | .contextAdmit ctx d0 => exact execContextAdmit_fits fit ctx d0
  | .registerWrite sp off v => exact execRegisterWrite_fits fit sp off v
  | .keySlotFill _ _ _ => exact allFit_of_frame fit (keyCommand_queues _ _ _ fun _ => updPkg_queues ..)
  | .mailboxWrite v => exact execMailboxWrite_fits fit v
  | .clusterGate die k => exact execClusterGate_fits fit die k
  | .clusterUngate die k => exact execClusterUngate_fits fit die k
  | .fusionChange die k => exact execFusionChange_fits fit die k
  | .remoteWrite w src off v => exact execRemoteWrite_fits fit w src off v
  | .ptpSync ns off => exact execPtpSync_fits fit ns off
  | .standaloneTimeTimeout => exact execStandaloneTimeTimeout_fits fit
  | .powerOn => exact execPowerOn_fits s
  | .moduleReset => exact execModuleReset_fits s
  | .memoryCheckCompletion => exact execMemoryCheckCompletion_fits fit
  | .tlbLoad who seg page => exact execTlbLoad_fits fit who seg page
  | .portRetirement p => exact execPortRetirement_fits fit p

theorem runTurn_fits {r : State × Option Instr} (h : AllFit r.1.queues) : NextFits (runTurn r) := by
  unfold runTurn
  split
  · exact exec_fits h _
  · exact h

theorem ownFaultOr_fits {s : State} {go : State → Host.Outcome State Fault Refusal} (h : AllFit s.queues)
    (hgo : ∀ t, AllFit t.queues → NextFits (go t)) : NextFits (ownFaultOr s go) := by
  have hrun := runTurn_fits (asFetch_fits h)
  unfold ownFaultOr
  split
  · next t ht =>
    rw [ht] at hrun
    split
    · exact hrun
    · exact hgo t hrun
  · exact hrun

theorem takeTurn_fits {s : State} (h : AllFit s.queues) (t : Turn) : NextFits (takeTurn s t) := by
  have hdelivery := exec_fits h .esFaultDelivery
  unfold takeTurn
  split
  · refine ownFaultOr_fits h fun u hu => ?_
    split
    · exact ownFaultOr_fits hu fun _ _ => hdelivery
    · exact hdelivery
  · exact runTurn_fits (turn_fits h t)

/-- Putting a cell in focus moves cells and changes none. -/
theorem focus_fits {s t : State} (h : AllFit s.queues) {id : CellId} (e : s.focus id = some t) : AllFit t.queues := by
  unfold State.focus at e
  split at e
  · cases e
    exact h
  · split at e
    · cases e
    · next c hc =>
      cases e
      refine ⟨h.2 _ (List.mem_map_of_mem (List.mem_of_find?_eq_some hc)), fun y hy => ?_⟩
      obtain ⟨d, hd, rfl⟩ := List.mem_map.mp hy
      obtain ⟨x, hx, rfl⟩ := List.mem_map.mp hd
      split
      · exact h.1
      · exact h.2 _ (List.mem_map_of_mem hx)

theorem enterSlot_fits {s t : State} (h : AllFit s.queues) {x : Slot} (e : s.enterSlot x = some t) : AllFit t.queues := by
  obtain ⟨u, hu, rfl⟩ := Option.map_eq_some_iff.mp e
  have hfit : AllFit u.queues := by
    split at hu
    · cases hu
      exact h
    · exact focus_fits h hu
  simp [hfit]

theorem step_fits {s : State} (h : AllFit s.queues) : NextFits (step s) := by
  unfold step
  split
  · trivial
  · next t ht =>
    have henter := enterSlot_fits (allFit_of_frame h (nextSlot_queues s)) ht
    split
    · trivial
    · split
      · exact takeTurn_fits (allFit_of_frame henter (mark_queues _ _)) _
      · exact henter

end Sys2Proof.Machine

namespace Sys2Proof.Proofs

open Sys2Proof.Machine Sys2Proof.Claims

/-- Settles O9: every instruction, command, event and turn keeps the bounds, and entering a slot moves cells only. -/
theorem stepKeepsQueueBounds : Obligations.StepKeepsQueueBounds := by
  unfold Obligations.StepKeepsQueueBounds
  intro s t hcell hparked hstep
  have hfit := step_fits ((allFit_queues_iff s).mpr ⟨hcell, hparked⟩)
  rw [hstep] at hfit
  exact (allFit_queues_iff t).mp hfit

end Sys2Proof.Proofs
end

section
/-! SUPPORT. Rings and ports (R35, R150, R151): the words an AS instruction appends, and the start of the ES. -/

namespace Sys2Proof.Machine

open Sys2Proof.Claims

@[simp] theorem eng_setEng_same (c : Cell) (e : Eng) (x : EngSt) : (c.setEng e x).eng e = x := by cases e <;> rfl

@[simp] theorem setEng_id (c : Cell) (e : Eng) (x : EngSt) : (c.setEng e x).id = c.id := by cases e <;> rfl

theorem ringPuts_cons (s : State) (e : Eng) (base size : Nat) (w : Word32) (ws : List Word32) :
    s.ringPuts e base size (w :: ws) = (s.ringPuts e base size [w]).ringPuts e base size ws := rfl

/-- R150: each word moves the write pointer by one. -/
theorem ringPuts_wp (e : Eng) (base size : Nat) : ∀ (ws : List Word32) (s : State),
    ((s.ringPuts e base size ws).cell.eng e).wp = (s.cell.eng e).wp + BitVec.ofNat 32 ws.length
  | [], s => (BitVec.add_zero _).symm
  | w :: ws, s => by
    have hone : ((s.ringPuts e base size [w]).cell.eng e).wp = (s.cell.eng e).wp + 1 := by
      simp [State.ringPuts, State.ringPut, State.ringSet, State.updFocus, State.updMem]
    rw [ringPuts_cons, ringPuts_wp e base size ws, hone, List.length_cons, BitVec.add_assoc, Nat.add_comm, BitVec.ofNat_add]
    rfl

/-- R150, R197: what putting one word leaves of memory. -/
theorem ringPuts_one_mem (s : State) (e : Eng) (base size : Nat) (w : Word32) :
    (s.ringPuts e base size [w]).mem.mem =
      let a := ringAddr base size (s.cell.eng e).wp.toNat
      if a % 8 = 0 then memPut s.mem.mem (byteKey 0 (spadUnit s.cell.id) (a / 8 * 8)) (w.zeroExtend 64) 0x0F
      else memPut s.mem.mem (byteKey 0 (spadUnit s.cell.id) (a / 8 * 8)) (w.zeroExtend 64 <<< 32) 0xF0 := by
  simp only [State.ringPuts, State.ringPut, State.ringSet, State.updFocus, State.updMem, eng_setEng_same, Cell.ringKey, setEng_id]
  split <;> exact putNow_mem ..

/-- Four bytes of a word written under the mask that names them. -/
theorem memPut_half {m : List Host.Cell} (hm : memWf m = true) (k h : Nat) (hh : h ≤ 4) (v : Word) {mask : BitVec 8}
    (hmask : ∀ i, i < 8 → mask.getLsbD i = (decide (h ≤ i) && decide (i < h + 4))) :
    (∀ j, j < k + h ∨ k + h + 4 ≤ j → memGet (memPut m k v mask) j = memGet m j)
      ∧ ∀ i, i < 4 → memGet (memPut m k v mask) (k + h + i) = v.extractLsb' (8 * (h + i)) 8 := by
  constructor
  · intro j hj
    by_cases hin : k ≤ j ∧ j < k + 8
    · obtain ⟨i, rfl⟩ := Nat.exists_eq_add_of_le hin.1
      have hi : i < 8 := by omega
      rw [memGet_memPut_same hm k i v mask hi, hmask i hi, if_neg]
      simp only [Bool.and_eq_true, decide_eq_true_eq]
      omega
    · exact memGet_memPut_other hm k j v mask (by omega)
  · intro i hi
    rw [Nat.add_assoc, memGet_memPut_same hm k (h + i) v mask (by omega), hmask (h + i) (by omega), if_pos]
    simp only [Bool.and_eq_true, decide_eq_true_eq]
    omega

/-- Four bytes of a word side by side. -/
theorem bytes_append (v : Word) (b : Nat) :
    v.extractLsb' (8 * (b + 3)) 8 ++ v.extractLsb' (8 * (b + 2)) 8 ++ v.extractLsb' (8 * (b + 1)) 8 ++ v.extractLsb' (8 * b) 8
      = v.extractLsb' (8 * b) 32 := by
  apply BitVec.eq_of_getLsbD_eq
  intro i hi
  simp only [BitVec.getLsbD_append, BitVec.getLsbD_extractLsb']
  grind

theorem zeroExtend_low (w : Word32) : (w.zeroExtend 64).extractLsb' 0 32 = w := by
  apply BitVec.eq_of_getLsbD_eq
  intro i hi
  simp [hi, show i < 64 by omega]

theorem zeroExtend_high (w : Word32) : (w.zeroExtend 64 <<< 32).extractLsb' 32 32 = w := by
  apply BitVec.eq_of_getLsbD_eq
  intro i hi
  simp [hi, show 32 + i < 64 by omega]

theorem byteKey_add (u a i : Nat) : byteKey 0 u (a + i) = byteKey 0 u a + i := (Nat.add_assoc ..).symm

/-- R150: the word stands at the write pointer's place, and no other byte of memory changes. -/
theorem ringPuts_one_memGet {s : State} (hs : s.Canonical) (e : Eng) (base size : Nat) (hb : base % 4 = 0) (w : Word32) :
    let a := byteKey 0 (spadUnit s.cell.id) (ringAddr base size (s.cell.eng e).wp.toNat)
    let t := s.ringPuts e base size [w]
    (∀ k, k < a ∨ a + 4 ≤ k → memGet t.mem.mem k = memGet s.mem.mem k)
      ∧ memGet t.mem.mem (a + 3) ++ memGet t.mem.mem (a + 2) ++ memGet t.mem.mem (a + 1) ++ memGet t.mem.mem a = w := by
  have hmem := ringPuts_one_mem s e base size w
  dsimp only at hmem ⊢
  have hal : ringAddr base size (s.cell.eng e).wp.toNat % 4 = 0 := by
    unfold ringAddr
    omega
  generalize ringAddr base size (s.cell.eng e).wp.toNat = a at hmem hal ⊢
  generalize s.ringPuts e base size [w] = t at hmem ⊢
  obtain ⟨d, h, rfl, hh⟩ : ∃ d h, a = 8 * d + h ∧ (h = 0 ∨ h = 4) := ⟨a / 8, a % 8, by omega, by omega⟩
  rw [byteKey_add]
  rcases hh with rfl | rfl
  · have hkey : (8 * d + 0) / 8 * 8 = 8 * d := by omega
    rw [if_pos (by omega), hkey] at hmem
    rw [hmem]
    obtain ⟨hother, hsame⟩ := memPut_half hs (byteKey 0 (spadUnit s.cell.id) (8 * d)) 0 (by decide) (w.zeroExtend 64) (mask := 0x0F) (by decide)
    refine ⟨hother, ?_⟩
    rw [hsame 3 (by decide), hsame 2 (by decide), hsame 1 (by decide), hsame 0 (by decide)]
    exact (bytes_append _ 0).trans (zeroExtend_low w)
  · have hkey : (8 * d + 4) / 8 * 8 = 8 * d := by omega
    rw [if_neg (by omega), hkey] at hmem
    rw [hmem]
    obtain ⟨hother, hsame⟩ :=
      memPut_half hs (byteKey 0 (spadUnit s.cell.id) (8 * d)) 4 (by decide) (w.zeroExtend 64 <<< 32) (mask := 0xF0) (by decide)
    refine ⟨hother, ?_⟩
    rw [hsame 3 (by decide), hsame 2 (by decide), hsame 1 (by decide), hsame 0 (by decide)]
    exact (bytes_append _ 4).trans (zeroExtend_high w)

/-- R150, R196: an instruction that hands its words to `enqueueWords` appends them. -/
theorem appends_of_exec {i : Instr} {s : State} {ring : Ring} {ws : List Word32} (h : exec i s = .next (s.enqueueWords ring ws)) :
    Appends i s ring ws := by
  have hring : ∀ e, ringEng ring = some e → s.enqueueWords ring ws = State.enqueueWords.ringTo s ws e := by
    intro e he
    cases ring <;> cases he <;> rfl
  refine ⟨fun e base size he hseg => ?_, fun e he hseg => ?_, ?_, ?_⟩
  · rw [h, hring e he, State.enqueueWords.ringTo, hseg]
    exact ⟨fun hroom => congrArg _ (if_neg (Nat.not_lt.mpr hroom)), fun hfull => congrArg _ (if_pos hfull)⟩
  · rw [h, hring e he, State.enqueueWords.ringTo, hseg]
  all_goals
    rintro rfl
    rw [h]
    simp only [State.enqueueWords]
    exact ⟨fun hms => by rw [if_pos hms], fun hms =>
      ⟨fun hroom => by rw [if_neg hms, if_neg (Nat.not_lt.mpr hroom)], fun hfull => by rw [if_neg hms, if_pos hfull]⟩⟩

/-- R151: ESTART with its guard on and its register clean. -/
theorem exec_estart {s : State} {o : OpR} (hg : GuardOn s o.pg) (hc : Clean s o.a) :
    exec (.estart o) s = .next (if s.cell.id.die = 6 then s.trap cIllegal (wordOf (.estart o))
      else if !inSection s.cell.esbase s.cell.essize (s.rg o.a).v then s.trap cTarget (s.rg o.a).v
      else s.afterChecks fun s =>
        if s.cell.es.exited then (s.updEs fun _ => { EsSt.init with pc := (s.rg o.a).v, run := .running }).retire else s) := by
  have hx : exec (.estart o) s = execEstart o s := rfl
  rw [hx, execEstart, guarded_on hg.1 hg.2, clean_on hc]
  rfl

end Sys2Proof.Machine

namespace Sys2Proof.Proofs

open Sys2Proof.Machine Sys2Proof.Claims

/-- Settles O37: `enqueueWords` appends to a ring word by word, or to a port, and ESTART splits on the MS, the target and the ES's state. -/
theorem enqueueResult : Obligations.EnqueueResult := by
  unfold Obligations.EnqueueResult
  refine ⟨fun s o hg ha hb => ?_, fun s o hg ha => ?_, ringPuts_cons, fun s e base size ws => ringPuts_wp e base size ws s,
    fun s e base size w hs hb => ringPuts_one_memGet hs e base size hb w, fun _ _ _ => ⟨rfl, rfl, rfl⟩, fun s o hg ha => ?_⟩
  · refine appends_of_exec ?_
    have hx : exec (.enq o) s = execEnq o s := rfl
    rw [hx, execEnq, guarded_on hg.1 hg.2, clean_on ha, clean_on hb, enqWords]
  · refine appends_of_exec ?_
    have hx : exec (.enqs o) s = execEnqs o s := rfl
    rw [hx, execEnqs, guarded_on hg.1 hg.2, clean_on ha]
  · rw [exec_estart hg ha]
    refine ⟨fun hms => by rw [if_pos hms], fun hms hbad => by rw [if_neg hms, hbad]; rfl, fun hms hok hchk => ?_⟩
    rw [if_neg hms, hok, Bool.not_true, if_neg Bool.false_ne_true, afterChecks_on hchk]
    exact ⟨fun hrun => by rw [if_pos]; rcases hrun with hrun | hrun <;> simp [EsSt.exited, hrun],
      fun hrun => by rw [if_neg]; rcases hrun with hrun | hrun <;> simp [EsSt.exited, hrun]⟩

end Sys2Proof.Proofs
end

section
/-! SUPPORT. The steps of an engine command (R200, R201): what waiting, acquiring and completing change. -/

namespace Sys2Proof.Machine

open Sys2Proof.Claims

/-! ## Completing with a code (R22, R24) -/

/-- Nothing of the cell but its semaphores and the overflows of the cycle changes, and nothing elsewhere. -/
def OnlySems (s t : State) : Prop := t = s.updFocus fun c => { c with sems := t.cell.sems, ovfs := t.cell.ovfs }

theorem setSem_onlySems (s : State) (n : SemNo) (x : Sem) : OnlySems s (s.setSem n x) := by
  unfold OnlySems State.setSem Cell.setSem
  split <;> rfl

theorem signal_onlySems (s : State) (n : SemNo) : OnlySems s (s.signal n) := by
  unfold OnlySems
  rw [signal_eq]
  rfl

theorem errorSem_onlySems (s : State) (n : SemNo) (code : Byte) : OnlySems s (s.errorSem n code) := by
  unfold State.errorSem
  cases s.sem n with
  | none => rfl
  | some x =>
    dsimp only
    split
    · have hset := setSem_onlySems s n (.err code)
      unfold OnlySems at hset ⊢
      rw [hset]
      rfl
    · exact setSem_onlySems ..

theorem completeWith_onlySems (s : State) (n : SemNo) (code : Nat) : OnlySems s (s.completeWith n code) := by
  unfold State.completeWith
  split
  · exact signal_onlySems ..
  · exact errorSem_onlySems ..

section
variable {s t : State} (h : OnlySems s t)
include h

theorem OnlySems.eng (e : Eng) : t.cell.eng e = s.cell.eng e := by
  rw [h]
  cases e <;> rfl

theorem OnlySems.mem : t.mem = s.mem := by rw [h]; rfl
theorem OnlySems.as : t.cell.as = s.cell.as := by rw [h]; rfl
theorem OnlySems.es : t.cell.es = s.cell.es := by rw [h]; rfl
theorem OnlySems.mxs : t.cell.mxs = s.cell.mxs := by rw [h]; rfl

end

theorem sem_errorSem_other (s : State) {n m : SemNo} (code : Byte) (h : m ≠ n) : (s.errorSem n code).sem m = s.sem m := by
  unfold State.errorSem
  cases s.sem n with
  | none => rfl
  | some x =>
    dsimp only
    split
    · exact (sem_congr rfl m).trans (sem_setSem_other s _ h)
    · exact sem_setSem_other s _ h

theorem sem_errorSem_same (s : State) (n : SemNo) (code : Nat) :
    (s.errorSem n (BitVec.ofNat 8 code)).sem n = (s.sem n).map (errored s n code) := by
  unfold State.errorSem errored
  cases hx : s.sem n with
  | none => exact hx
  | some x =>
    have hn := toNat_lt_of_sem hx
    dsimp only
    split
    · exact (sem_congr rfl n).trans (sem_setSem_same _ hn)
    · exact sem_setSem_same _ hn

/-! ## The engine lets go of its command -/

/-- R200 step 6 before the signal: the command is gone, and with some codes the held weights. -/
def State.letGo (s : State) (e : Eng) (c : Cmd) (code : Nat) : State :=
  let s := (s.setCmd e none).setTold e false
  if e = .mx && code ≠ 0 && (code ≠ 5 || isMhdr c.i) then s.dropHeld else s

theorem letGo_eng (s : State) (e : Eng) (c : Cmd) (code : Nat) : ((s.letGo e c code).cell.eng e).cur = none := by
  simp only [State.letGo]
  split <;> cases e <;> rfl

theorem letGo_mem (s : State) (e : Eng) (c : Cmd) (code : Nat) : (s.letGo e c code).mem = s.mem := by
  simp only [State.letGo]
  split <;> rfl

theorem letGo_as (s : State) (e : Eng) (c : Cmd) (code : Nat) : (s.letGo e c code).cell.as = s.cell.as := by
  simp only [State.letGo]
  split <;> cases e <;> rfl

theorem letGo_es (s : State) (e : Eng) (c : Cmd) (code : Nat) : (s.letGo e c code).cell.es = s.cell.es := by
  simp only [State.letGo]
  split <;> cases e <;> rfl

theorem letGo_sem (s : State) (e : Eng) (c : Cmd) (code : Nat) (n : SemNo) : (s.letGo e c code).sem n = s.sem n := by
  refine sem_congr ?_ n
  simp only [State.letGo]
  split <;> cases e <;> rfl

theorem letGo_errored (s : State) (e : Eng) (c : Cmd) (code : Nat) (n : SemNo) (k : Nat) :
    errored (s.letGo e c code) n k = errored s n k := by
  have hnow : (s.letGo e c code).overflowedNow n = s.overflowedNow n := by
    simp only [State.letGo]
    split <;> cases e <;> rfl
  funext x
  rw [errored, hnow, errored]

theorem letGo_mxs (s : State) (e : Eng) (c : Cmd) {code : Nat} (hc : code ≠ 0) : (s.letGo e c code).cell.mxs =
    if e = .mx ∧ (code ≠ 5 ∨ isMhdr c.i = true) then { s.cell.mxs with held := none } else s.cell.mxs := by
  simp only [State.letGo, Bool.and_eq_true, Bool.or_eq_true, decide_eq_true_eq, ne_eq, hc, not_false_eq_true, and_true]
  split <;> cases e <;> rfl

/-! ## The moves of a command that is not in step 4 (R200) -/

/-- R91: every engine command is run by its engine, under its header. -/
theorem exec_engCmd {i : Instr} {e : Eng} {h : Hdr} (hi : engCmd i = some (e, h)) : ∃ run, ∀ s, exec i s = .next (s.runCmd e i h run) := by
  cases i <;> cases hi <;> exact ⟨_, fun _ => rfl⟩

section
variable {s : State} {e : Eng} {i : Instr} {h : Hdr} {run : State → Cmd → State} {c : Cmd}
  (hcur : (s.cell.eng e).cur = some c) (hi : c.i = i)
include hcur hi

theorem runCmd_wait (hp : c.phase = .wait) : s.runCmd e i h run =
    match s.sem h.wait with
    | none => s.setCmd e (some { c with phase := .acquire })
    | some (.err x) => s.setCmd e (some { c with phase := .release x.toNat 0 })
    | some (.count n) => if n = 0 then s else (s.setSem h.wait (.count (n - 1))).setCmd e (some { c with phase := .acquire }) := by
  rw [State.runCmd, hcur]
  dsimp only
  rw [if_neg (not_not.mpr hi), hp] <;> rfl

theorem runCmd_acquire (hp : c.phase = .acquire) (hopen : h.acq = true → s.acquireOpen c.acqSeq (scopeReach h.scope) = false) :
    s.runCmd e i h run = s.setCmd e (some { c with phase := .run }) := by
  rw [State.runCmd, hcur]
  dsimp only
  rw [if_neg (not_not.mpr hi), hp]
  cases ha : h.acq with
  | false => rfl
  | true => simp [hopen ha]

theorem runCmd_release {code done : Nat} (hp : c.phase = .release code done)
    (hdone : ∀ d ∈ c.ids, s.mem.reached d (scopeReach h.scope) = true) : s.runCmd e i h run = s.endCmd e c h code done := by
  rw [State.runCmd, hcur]
  dsimp only
  rw [if_neg (not_not.mpr hi), hp]
  exact if_pos (List.all_eq_true.mpr hdone)

end

/-- R201, R359: an error not yet reported is reported. -/
theorem endCmd_due {s : State} {e : Eng} {c : Cmd} {h : Hdr} {code done : Nat} (hc : code ≠ 0)
    (hdue : e ≠ .mx ∨ isMma c.i = true ∨ h.sig = 63) (htold : (s.cell.eng e).told = false) :
    s.endCmd e c h code done = (s.errReport (engAgent e) c.pos code done).setTold e true := by
  refine if_pos ?_
  simp only [reportDue, Bool.and_eq_true, Bool.or_eq_true, decide_eq_true_eq, htold, Bool.not_false, and_true, or_assoc]
  exact ⟨hc, hdue⟩

/-- R200 step 6: what is reported, or needs no report, completes. -/
theorem endCmd_ends {s : State} {e : Eng} {c : Cmd} {h : Hdr} {code done : Nat}
    (hnot : code = 0 ∨ (s.cell.eng e).told = true ∨ (e = .mx ∧ isMma c.i = false ∧ h.sig ≠ 63)) :
    s.endCmd e c h code done = (s.letGo e c code).completeWith h.sig code := by
  refine if_neg ?_
  simp only [reportDue, Bool.and_eq_true, Bool.or_eq_true, decide_eq_true_eq, Bool.not_eq_true']
  rintro ⟨⟨hc, hdue⟩, htold⟩
  rcases hnot with rfl | ht | ⟨rfl, hm, h63⟩
  · exact hc rfl
  · exact Bool.false_ne_true (htold.symm.trans ht)
  · rcases hdue with (hne | hmma) | hsig
    · exact hne rfl
    · exact Bool.false_ne_true (hm.symm.trans hmma)
    · exact h63 hsig

/-- R200 step 6: beside the command, the held weights and the semaphore the command signals all is as before. -/
theorem completed_keeps (s : State) (e : Eng) (c : Cmd) (n : SemNo) (code : Nat) : let t := (s.letGo e c code).completeWith n code
    (t.cell.eng e).cur = none ∧ t.mem = s.mem ∧ t.cell.as = s.cell.as ∧ t.cell.es = s.cell.es
      ∧ t.cell.mxs = (s.letGo e c code).cell.mxs := by
  intro t
  have ht : OnlySems (s.letGo e c code) t := completeWith_onlySems ..
  exact ⟨by rw [ht.eng, letGo_eng], ht.mem.trans (letGo_mem ..), ht.as.trans (letGo_as ..), ht.es.trans (letGo_es ..), ht.mxs⟩

/-- R200 step 6: a command that has ended well signals. -/
theorem completed_signal (s : State) (e : Eng) (c : Cmd) (n : SemNo) : let t := (s.letGo e c 0).completeWith n 0
    (∀ m, m ≠ n → t.sem m = s.sem m) ∧ t.sem n = (s.sem n).map Sem.signal :=
  ⟨fun m hm => (sem_signal_other _ hm).trans (letGo_sem ..), (sem_signal_same ..).trans (by rw [letGo_sem])⟩

/-- R201: one that has failed puts its semaphore into error phase. -/
theorem completed_error (s : State) (e : Eng) (c : Cmd) (n : SemNo) {code : Nat} (hc : code ≠ 0) :
    let t := (s.letGo e c code).completeWith n code
    (∀ m, m ≠ n → t.sem m = s.sem m) ∧ t.sem n = (s.sem n).map (errored s n code) := by
  intro t
  have ht : t = (s.letGo e c code).errorSem n (BitVec.ofNat 8 code) := if_neg hc
  rw [ht]
  exact ⟨fun m hm => (sem_errorSem_other _ _ hm).trans (letGo_sem ..), by rw [sem_errorSem_same, letGo_sem, letGo_errored]⟩

end Sys2Proof.Machine

namespace Sys2Proof.Proofs

open Sys2Proof.Machine Sys2Proof.Claims

/-- Settles O49: an engine command is its engine's `runCmd`, which moves by the phase of the command. -/
theorem engineCommandSteps : Obligations.EngineCommandSteps := by
  unfold Obligations.EngineCommandSteps
  intro i s e h c hcmd hcur hi
  obtain ⟨run, hexec⟩ := exec_engCmd hcmd
  have hwait := runCmd_wait (h := h) (run := run) hcur hi
  have hrelease := fun {code done : Nat} => runCmd_release (h := h) (run := run) (code := code) (done := done) hcur hi
  rw [hexec]
  refine ⟨fun hp hs => by rw [hwait hp, hs], fun n hp hs hn => by rw [hwait hp, hs]; dsimp only; rw [if_neg hn],
    fun hp hs => by rw [hwait hp, hs]; rfl, fun x hp hs => by rw [hwait hp, hs],
    fun hp hopen => by rw [runCmd_acquire hcur hi hp hopen], fun done hp hdone => ?_, fun code done hp hc htold hdone => ?_,
    fun code done hp hc htold => ⟨fun hquiet hdone => ?_, fun hdue hdone => ?_⟩⟩
  · obtain ⟨hnone, hmem, has, hes, -⟩ := completed_keeps s e c h.sig 0
    exact ⟨_, congrArg _ ((hrelease hp hdone).trans (endCmd_ends (.inl rfl))), hnone, hmem, has, hes, completed_signal s e c h.sig⟩
  · obtain ⟨hnone, hmem, has, hes, hmxs⟩ := completed_keeps s e c h.sig code
    obtain ⟨hother, hsame⟩ := completed_error s e c h.sig hc
    exact ⟨_, congrArg _ ((hrelease hp hdone).trans (endCmd_ends (.inr (.inl htold)))), hnone, hmem, has, hes, hother, hsame,
      hi ▸ hmxs.trans (letGo_mxs s e c hc)⟩
  · obtain ⟨rfl, hmma, hsig⟩ := hquiet
    exact ⟨_, congrArg _ ((hrelease hp hdone).trans (endCmd_ends (.inr (.inr ⟨rfl, hi ▸ hmma, hsig⟩)))),
      (completed_keeps s .mx c h.sig code).1, (completed_error s .mx c h.sig hc).2⟩
  · exact congrArg _ ((hrelease hp hdone).trans (endCmd_due hc (hi ▸ hdue) htold))

end Sys2Proof.Proofs
end

section
/-! SUPPORT. Events of a cell (R43, R117, R121, R150, R197): what a failing check takes back, what a write-back cleans. -/

namespace Sys2Proof.Machine

open Sys2Proof.Claims

/-! ## Taking back (R40, R146, R150) -/

theorem writeBody_cell (s : State) (part slot : Nat) : (s.writeBody part slot).cell = s.cell := by
  unfold State.writeBody State.scribble
  rfl

theorem enqueueRec_cell (s : State) (part prio : Nat) (r : Rec) : (s.enqueueRec part prio r).cell = s.cell := by
  simp only [State.enqueueRec]
  split <;> simp [writeBody_cell]

theorem placeSingles_cell (s : State) (part : Nat) : (s.placeSingles part).cell = s.cell := by
  refine foldl_cell (fun t l => ?_) _ s
  unfold State.placeSingle
  split
  · rfl
  · split
    · rfl
    · rw [updLaunch_cell, enqueueRec_cell]

theorem takeBackForks_cell (s : State) (seq : Nat) : (s.takeBackForks seq).cell = s.cell := by
  simp only [State.takeBackForks]
  split
  · rfl
  · split
    · exact placeSingles_cell ..
    · rfl

/-- R146: with no record forked after an operation nothing is taken out of a queue. -/
theorem takeBackForks_none {s : State} {seq : Nat}
    (h : ∀ l ∈ (s.part s.recPart).fifos, ∀ r ∈ l, r.forkedAfter s.cell.id seq = false) : s.takeBackForks seq = s := by
  have hcount : (s.part s.recPart).fifos.flatten.countP (fun r => r.forkedAfter s.cell.id seq) = 0 := by
    refine List.countP_eq_zero.mpr fun r hr => ?_
    obtain ⟨l, hl, hrl⟩ := List.mem_flatten.mp hr
    rw [h l hl r hrl]
    exact Bool.false_ne_true
  simp only [State.takeBackForks]
  exact if_pos hcount

theorem foldr_ringSet_cell (base size : Nat) (s : State) :
    ∀ l : List Mark, (l.foldr (fun m (s : State) => s.ringSet base size m.pos m.old m.oldPsn) s).cell = s.cell
  | [] => rfl
  | _ :: l => foldr_ringSet_cell base size s l

theorem foldr_ringSet_pkg (base size : Nat) (s : State) :
    ∀ l : List Mark, (l.foldr (fun m (s : State) => s.ringSet base size m.pos m.old m.oldPsn) s).pkg = s.pkg
  | [] => rfl
  | _ :: l => foldr_ringSet_pkg base size s l

/-- The cell but for its engines. -/
def Cell.noEngs (c : Cell) : Cell := { c with mx := EngSt.init, ce0 := EngSt.init, ce1 := EngSt.init, xe := EngSt.init }

theorem noEngs_setEng (c : Cell) (e : Eng) (x : EngSt) : (c.setEng e x).noEngs = c.noEngs := by cases e <;> rfl

theorem eng_setEng_other (c : Cell) {e f : Eng} (h : f ≠ e) (x : EngSt) : (c.setEng e x).eng f = c.eng f := by
  cases e <;> cases f <;> simp_all [Cell.setEng, Cell.eng]

theorem takeBackRing_noEngs (s : State) (seq : Nat) (e : Eng) : (s.takeBackRing seq e).cell.noEngs = s.cell.noEngs := by
  unfold State.takeBackRing
  split
  · rfl
  · rw [updFocus_cell, noEngs_setEng, foldr_ringSet_cell]

theorem takeBackRing_pkg (s : State) (seq : Nat) (e : Eng) : (s.takeBackRing seq e).pkg = s.pkg := by
  unfold State.takeBackRing
  split
  · rfl
  · exact foldr_ringSet_pkg ..

/-- R150: taking words back adds no mark. -/
theorem takeBackRing_marks (s : State) (seq : Nat) (e f : Eng) {m : Mark} (h : m ∈ ((s.takeBackRing seq e).cell.eng f).marks) :
    m ∈ (s.cell.eng f).marks := by
  unfold State.takeBackRing at h
  split at h
  · exact h
  · rw [updFocus_cell, foldr_ringSet_cell] at h
    by_cases hf : f = e
    · subst hf
      rw [eng_setEng_same] at h
      exact List.mem_of_mem_filter h
    · rwa [eng_setEng_other _ hf] at h

/-- R150: with no word appended after an operation a ring keeps its words. -/
theorem takeBackRing_mem {s : State} {seq : Nat} {e : Eng} (h : ∀ m ∈ (s.cell.eng e).marks, m.seq ≤ seq) :
    (s.takeBackRing seq e).mem = s.mem := by
  have hgone : (s.cell.eng e).marks.filter (fun m => decide (seq < m.seq)) = [] :=
    List.filter_eq_nil_iff.mpr fun m hm => by simpa using h m hm
  simp only [State.takeBackRing, hgone]
  split <;> rfl

/-- R150: the words appended to the rings after operation `seq`, taken back. -/
def State.takeBackRings (s : State) (seq : Nat) (l : List Eng) : State := l.foldl (fun s e => s.takeBackRing seq e) s

theorem takeBackRings_noEngs (seq : Nat) : ∀ (l : List Eng) (s : State), (s.takeBackRings seq l).cell.noEngs = s.cell.noEngs
  | [], _ => rfl
  | e :: l, s => (takeBackRings_noEngs seq l _).trans (takeBackRing_noEngs s seq e)

theorem takeBackRings_pkg (seq : Nat) : ∀ (l : List Eng) (s : State), (s.takeBackRings seq l).pkg = s.pkg
  | [], _ => rfl
  | e :: l, s => (takeBackRings_pkg seq l _).trans (takeBackRing_pkg s seq e)

theorem takeBackRings_mem (seq : Nat) : ∀ (l : List Eng) {s : State}, (∀ e, ∀ m ∈ (s.cell.eng e).marks, m.seq ≤ seq) →
    (s.takeBackRings seq l).mem = s.mem
  | [], _, _ => rfl
  | e :: l, s, h => (takeBackRings_mem seq l fun f m hm => h f m (takeBackRing_marks s seq e f hm)).trans (takeBackRing_mem (h e))

theorem takeBack_eq (u : State) (y : Snap) :
    u.takeBack y = ((u.takeBackRings y.seq [.mx, .ce0, .ce1, .xe]).takeBackForks y.seq).updFocus fun c => c.takeBack y := rfl

/-- R40: what taking back leaves of the cell comes from the cell itself and from what the failing operation found. -/
theorem takeBack_cell (u : State) (y : Snap) : (u.takeBack y).cell.noEngs = (u.cell.takeBack y).noEngs := by
  have hcomm (c : Cell) : (c.takeBack y).noEngs = c.noEngs.takeBack y := rfl
  rw [takeBack_eq, updFocus_cell, takeBackForks_cell, hcomm, hcomm, takeBackRings_noEngs]

/-- R40, R146, R150: with nothing appended and nothing forked since, memory keeps its state. -/
theorem takeBack_mem {u : State} {y : Snap} (hmarks : ∀ e, ∀ m ∈ (u.cell.eng e).marks, m.seq ≤ y.seq)
    (hforks : ∀ l ∈ (u.part u.recPart).fifos, ∀ r ∈ l, r.forkedAfter u.cell.id y.seq = false) : (u.takeBack y).mem = u.mem := by
  have hrings := takeBackRings_noEngs y.seq [.mx, .ce0, .ce1, .xe] u
  have hmem := takeBackRings_mem y.seq [.mx, .ce0, .ce1, .xe] hmarks
  have hpkg := takeBackRings_pkg y.seq [.mx, .ce0, .ce1, .xe] u
  rw [takeBack_eq, updFocus_mem]
  generalize u.takeBackRings y.seq [.mx, .ce0, .ce1, .xe] = t at hrings hmem hpkg ⊢
  have hid : t.cell.noEngs.id = u.cell.noEngs.id := by rw [hrings]
  have has : t.cell.noEngs.as = u.cell.noEngs.as := by rw [hrings]
  have hnone : ∀ l ∈ (t.part t.recPart).fifos, ∀ r ∈ l, r.forkedAfter t.cell.id y.seq = false := by
    dsimp only [Cell.noEngs] at hid has
    rw [State.part, hpkg, State.recPart, has, hid]
    exact hforks
  rw [takeBackForks_none hnone, hmem]

/-! ## Lines written back (R121) -/

theorem lineHome_mem (s : State) (l : CLine) :
    (s.lineHome l).mem.mem = s.mem.mem ∧ (s.lineHome l).mem.writes = s.mem.writes ∧ (s.lineHome l).core = s.core := by
  simp only [State.lineHome]
  split
  · exact ⟨rfl, rfl, rfl⟩
  · (repeat' split) <;> simp [State.core, MemSt.poisonLine]

/-- R121: bypass readers see the line's new values. -/
theorem lineHome_stale (s : State) (l : CLine) :
    (s.lineHome l).mem.stale = s.mem.stale.filter fun x => !(x.at_ = l.at_ && x.key / 64 * 64 = l.line) := by
  simp only [State.lineHome]
  split
  · next hnone =>
    refine (List.filter_eq_self.mpr fun x hx => ?_).symm
    simpa [imp_iff_not_or] using List.find?_eq_none.mp hnone x hx
  · (repeat' split) <;> simp [MemSt.poisonLine]

theorem foldl_lineHome_mem : ∀ (l : List CLine) (s : State), (l.foldl State.lineHome s).mem.mem = s.mem.mem
      ∧ (l.foldl State.lineHome s).mem.writes = s.mem.writes ∧ (l.foldl State.lineHome s).core = s.core
  | [], _ => ⟨rfl, rfl, rfl⟩
  | x :: l, s => by
    obtain ⟨hmem, hwrites, hcore⟩ := foldl_lineHome_mem l (s.lineHome x)
    obtain ⟨hmem', hwrites', hcore'⟩ := lineHome_mem s x
    exact ⟨hmem.trans hmem', hwrites.trans hwrites', hcore.trans hcore'⟩

theorem foldl_lineHome_stale : ∀ (l : List CLine) (s : State), ∀ x ∈ (l.foldl State.lineHome s).mem.stale,
    x ∈ s.mem.stale ∧ ∀ y ∈ l, ¬ (x.at_ = y.at_ ∧ x.key / 64 * 64 = y.line)
  | [], _, x, hx => ⟨hx, by simp⟩
  | y :: l, s, x, hx => by
    obtain ⟨hstale, hrest⟩ := foldl_lineHome_stale l (s.lineHome y) x hx
    rw [lineHome_stale, List.mem_filter] at hstale
    refine ⟨hstale.1, List.forall_mem_cons.mpr ⟨by simpa [imp_iff_not_or] using hstale.2, hrest⟩⟩

/-! ## Front queue and translations (R197, R284) -/

theorem exec_frontQueueMove (e : Eng) (s : State) : exec (.frontQueueMove e) s = .next (s.moveWord e) := rfl

/-- R197: a word moves, or waits for a check of the AS before it, or resets the partition. -/
theorem moveWord_of_ring {s : State} {e : Eng} {base size : Nat} (hring : s.cell.ringSeg e = some (base, size))
    (hroom : (s.cell.eng e).front.length < 16) (hword : (s.cell.eng e).wp ≠ (s.cell.eng e).rp) :
    let x := s.cell.eng e
    let a := ringAddr base size x.rp.toNat
    let r := s.readW (s.cell.who (engAgent e)) (spadPlace s.cell.id (a / 8 * 8)) (mkAddr (s.cell.ringNo e) (a / 8 * 8 - base))
    s.moveWord e = if s.cell.wordHeld x.marks x.rp.toNat then s
      else if r.2.psn && headerNext 16 x.front then r.1.partitionReset (partOf s.cell.as.sys.ctxid) .containment 0
      else r.1.updFocus fun c => c.setEng e { c.eng e with
        rp := x.rp + 1
        front := x.front ++ [⟨if a % 8 = 0 then r.2.v.extractLsb' 0 32 else r.2.v.extractLsb' 32 32, r.2.psn⟩]
        fpos := if x.front.isEmpty then x.rp.toNat else x.fpos } := by
  simp only [State.moveWord, hring]
  cases hheld : s.cell.wordHeld (s.cell.eng e).marks (s.cell.eng e).rp.toNat with
  | true => simp
  | false => simp [hword, hroom]

end Sys2Proof.Machine

namespace Sys2Proof.Proofs

open Sys2Proof.Machine Sys2Proof.Claims

/-- Settles O55: each event by the branches of its own definition; what a failing check takes back touches engines, rings and queues of
records beside the cell. -/
theorem cellEventResult : Obligations.CellEventResult := by
  unfold Obligations.CellEventResult
  refine ⟨fun s hdue hchk => ?_, fun s => ⟨fun hrep => ?_, fun o hrep hw => ?_⟩, fun s u y rest o p hs ho ha => ?_,
    fun s u y rest o z hs ho ha => ?_, fun u y => ?_, fun s y rest hs ho => ?_, fun s n w hw => ⟨fun hopen => ?_, fun hopen hinv => ?_,
    fun hopen hinv => ?_⟩, fun s sel => ?_, fun s e base size hring hroom hword => ⟨fun hheld => ?_, fun hheld hpsn hhead => ?_,
    fun hheld hgood => ?_⟩, fun s who seg page e hseg hrun hpage hsize hsame hok => ?_⟩
  · exact congrArg _ (if_pos (by rw [hdue, hchk]; rfl))
  · obtain ⟨r, hr⟩ := Option.ne_none_iff_exists'.mp hrep
    simp only [State.atPrefix, hr]
  · simp only [State.atPrefix, hrep, hw]
  · change execMemoryCheckCompletion s = _
    simp only [execMemoryCheckCompletion, hs, ho, ha]
  · change execMemoryCheckCompletion s = _
    simp only [execMemoryCheckCompletion, hs, ho, ha]
  · have hcell := takeBack_cell u y
    have hmops : (u.takeBack y).cell.mops = u.cell.mops.filter (·.seq < y.seq) := congrArg Cell.mops hcell
    refine ⟨rfl, rfl, rfl, rfl, rfl, rfl, rfl, fun x hx => ?_, congrArg Cell.ho hcell, congrArg Cell.hub hcell, takeBack_mem⟩
    rw [hmops, List.mem_filter] at hx
    exact of_decide_eq_true hx.2
  · change execMemoryCheckCompletion s = _
    simp only [execMemoryCheckCompletion, hs, ho]
  · change execWritebackComplete n s = _
    simp only [execWritebackComplete, hw, hopen, if_true]
  · change execWritebackComplete n s = _
    simp [execWritebackComplete, hw, hopen, State.writebackEnd, hinv]
  · change execWritebackComplete n s = _
    simp [execWritebackComplete, hw, hopen, State.writebackEnd, hinv]
  · obtain ⟨hmem, hwrites, hcore⟩ := foldl_lineHome_mem (s.mem.lines.filter sel) s
    refine ⟨hmem, hwrites, hcore, rfl, fun l hl hsel x hx => ?_⟩
    exact (foldl_lineHome_stale _ s x hx).2 l (List.mem_filter.mpr ⟨hl, hsel⟩)
  · rw [exec_frontQueueMove, moveWord_of_ring hring hroom hword, if_pos hheld]
  · rw [exec_frontQueueMove, moveWord_of_ring hring hroom hword, if_neg (by simp [hheld]), if_pos (by rw [hpsn, hhead]; rfl)]
  · have hmoves := (moveWord_of_ring hring hroom hword).trans
      ((if_neg (by simp [hheld])).trans (if_neg (by rcases hgood with hg | hg <;> simp [hg])))
    refine ⟨_, (exec_frontQueueMove e s).trans (congrArg _ hmoves), ?_⟩
    simp only [updFocus_cell, eng_setEng_same, true_and]
    rfl
  · change execTlbLoad who seg page s = _
    simp only [execTlbLoad, hseg]
    rw [if_neg]
    simp [hrun, hpage, hok]
    omega

end Sys2Proof.Proofs
end

section
/-! SUPPORT. Dispatching (R35, R312 to R314): the level a cell serves, and what entering a record sets. -/

namespace Sys2Proof.Machine

open Sys2Proof.Claims

/-! ## The level served (R314) -/

/-- R314: levels without work are passed over. -/
theorem dispatchFrom_skip {s : State} {p lvl : Nat} : ∀ {n : Nat}, lvl < n →
    (∀ j, lvl < j → j < n → s.fifoPick ((s.part p).fifos.getD j []) = none ∧
      nextEnum (s.enumsAt p j) ((s.part p).served.getD j 0) = none) →
    s.dispatchFrom p n = s.dispatchFrom p (lvl + 1)
  | n + 1, hlt, hidle => by
    by_cases hn : n = lvl
    · rw [hn]
    · obtain ⟨hfifo, henum⟩ := hidle n (by omega) (by omega)
      have hskip : s.dispatchFrom p (n + 1) = s.dispatchFrom p n := by
        rw [State.dispatchFrom, hfifo, henum]
      rw [hskip]
      exact dispatchFrom_skip (by omega) fun j hj hjn => hidle j hj (by omega)

/-- R314: a record of the level, where its enumerators have no work or were served last. -/
theorem dispatchFrom_fifo {s : State} {p lvl i : Nat} (hi : s.fifoPick ((s.part p).fifos.getD lvl []) = some i)
    (h : nextEnum (s.enumsAt p lvl) ((s.part p).served.getD lvl 0) = none ∨ (s.part p).lastEnum.getD lvl true = true) :
    s.dispatchFrom p (lvl + 1) = s.takeFifo p lvl i := by
  rw [State.dispatchFrom, hi]
  cases henum : nextEnum (s.enumsAt p lvl) ((s.part p).served.getD lvl 0) with
  | none => rfl
  | some l => exact if_pos (h.resolve_left (by rw [henum]; exact Option.some_ne_none l))

/-- R314: a WID of the level, where no record may be taken or one was taken last. -/
theorem dispatchFrom_wid {s : State} {p lvl : Nat} {l : Launch}
    (hl : nextEnum (s.enumsAt p lvl) ((s.part p).served.getD lvl 0) = some l)
    (h : s.fifoPick ((s.part p).fifos.getD lvl []) = none ∨ (s.part p).lastEnum.getD lvl true = false) :
    s.dispatchFrom p (lvl + 1) = s.takeWid p lvl l := by
  rw [State.dispatchFrom, hl]
  cases hfifo : s.fifoPick ((s.part p).fifos.getD lvl []) with
  | none => rfl
  | some i => exact if_neg (by rw [h.resolve_left (by rw [hfifo]; exact Option.some_ne_none i)]; exact Bool.false_ne_true)

/-- R314, R365: an idle cell in service looks at all eight levels. -/
theorem exec_dispatch {s : State} {p : Nat} (hp : s.cellPart s.cell.id = some p) (hrun : s.cell.as.run = .idle) (hrec : s.cell.recd = none)
    (hgate : s.cell.gated = false) (hpause : s.partPause p = false) (hrepl : s.pkg.repair.replace.contains s.cell.id = false)
    (hret : s.pkg.repair.retired.contains s.cell.id.die = false) : exec .dispatch s = .next (s.dispatchFrom p 8) := by
  have hexec : exec .dispatch s = .next s.dispatch := rfl
  rw [hexec, State.dispatch, hp]
  dsimp only
  rw [hrun, hrec, hgate, hpause, hrepl, hret]
  rfl

/-- R360: the record at a place of a FIFO is taken, or its body resets the partition. -/
theorem takeFifo_eq {s : State} {p lvl i : Nat} {r : Rec} {l : Launch} (hr : ((s.part p).fifos.getD lvl [])[i]? = some r)
    (hl : s.findLaunch r.launch = some l) :
    let a := (s.part p).bodyAt r.slot
    let u := s.hostMeet (unitFor p (some l.ctx)) a 4
    s.takeFifo p lvl i = if u.hostPsn a 4 then u.partitionReset p .containment 0
      else ((u.updPart p fun x => { x with
        fifos := updAt x.fifos lvl fun l => dropAt l i, lastEnum := updAt x.lastEnum lvl fun _ => false }).placeSingles p).runRec r l lvl := by
  simp only [State.takeFifo, hr, hl]

/-! ## Entering a record (R35, R36, R199) -/

theorem boundarySpad_cell (s : State) (fresh : Bool) : (s.boundarySpad fresh).cell = s.cell := by
  simp only [State.boundarySpad]
  split <;> rfl

theorem boundaryTiles_cell (fresh : Bool) : ∀ (l : List Tile) (s : State) (i : Nat), (s.boundaryTiles fresh i l).1.cell = s.cell
  | [], _, _ => rfl
  | _ :: l, _, i => (boundaryTiles_cell fresh l _ (i + 1)).trans rfl

/-- R199: rings without a template stay empty. -/
theorem templates_none (c : Nat) : ∀ (l : List (Eng × Word × Nat)) (s : State), (∀ x ∈ l, x.2.2 = 0) → s.templates c l = (s, false)
  | [], _, _ => rfl
  | (e, a, t) :: l, s, h => by
    obtain ⟨ht, hl⟩ := List.forall_mem_cons.mp h
    have hnone : s.template c e a t = (s, false) := if_pos ht
    rw [State.templates, hnone]
    exact templates_none c l s hl

/-- R199: the templates of a launch, one for each engine. -/
def Launch.ringTempl (l : Launch) : List (Eng × Word × Nat) :=
  ([Eng.mx, .ce0, .ce1, .xe].zip l.templ).map fun x => (x.1, x.2.1, x.2.2)

theorem ringTempl_none {l : Launch} (h : ∀ x ∈ l.templ, x.2 = 0) : ∀ x ∈ l.ringTempl, x.2.2 = 0 := by
  intro x hx
  obtain ⟨y, hy, rfl⟩ := List.mem_map.mp hx
  exact h y.2 (List.of_mem_zip hy).2

/-- R35: the state as a cell has entered a record, before rings are filled. -/
def State.entered (s : State) (r : Rec) (l : Launch) (prio : Nat) : State :=
  let crossing := s.cell.lastOp ≠ some (l.id, r.op)
  let fresh := s.cell.lastCtx ≠ some l.ctx
  let s := if crossing then s.boundarySpad fresh else s
  let t := if crossing then s.boundaryTiles fresh 0 s.cell.tiles else (s, s.cell.tiles)
  let ctxid := ctxidOf l.ctx l.part (s.ctx l.ctx).keyid.toNat
  let s := t.1.updFocus fun c => { c.enter r l prio ctxid crossing with tiles := t.2 }
  let s := s.updMem fun m => m.setCode s.cell.id
  s.updLaunch l.id fun l => if l.began.isSome then l else { l with began := some s.pkg.time.t3, paused := 0 }

theorem runRec_eq (s : State) (r : Rec) (l : Launch) (prio : Nat) : s.runRec r l prio =
    if s.cell.lastOp ≠ some (l.id, r.op) then
      match ((s.entered r l prio).updFocus Cell.resetEngines).templates l.ctx l.ringTempl with
      | (s, true) => s.partitionReset l.part .containment 0
      | (s, false) => s
    else s.entered r l prio := by
  by_cases h : s.cell.lastOp ≠ some (l.id, r.op) <;> simp only [State.runRec, h, State.entered] <;> rfl

/-- R35: the cell that has entered a record. -/
theorem entered_cell (s : State) (r : Rec) (l : Launch) (prio : Nat) :
    ∃ k b x, (s.entered r l prio).cell = { s.cell.enter r l prio k b with tiles := x } := by
  simp only [State.entered, updLaunch_cell, updMem_cell, updFocus_cell]
  by_cases h : s.cell.lastOp ≠ some (l.id, r.op)
  · simp only [if_pos h, boundaryTiles_cell, boundarySpad_cell]
    exact ⟨_, _, _, rfl⟩
  · simp only [if_neg h]
    exact ⟨_, _, _, rfl⟩

/-- R35: with no ring to fill, entering a record is the whole of running it, but for the engines. -/
theorem runRec_enters {s : State} {r : Rec} {l : Launch} (prio : Nat)
    (h : s.cell.lastOp ≠ some (l.id, r.op) → ∀ x ∈ l.templ, x.2 = 0) :
    ∃ k b, let c := s.cell.enter r l prio k b
      let d := (s.runRec r l prio).cell
      d.as = c.as ∧ d.qs = c.qs ∧ d.sems = c.sems ∧ d.es = c.es ∧ d.recd = c.recd := by
  obtain ⟨k, b, x, hcell⟩ := entered_cell s r l prio
  refine ⟨k, b, ?_⟩
  rw [runRec_eq]
  split
  · next hcross =>
    rw [templates_none _ _ _ (ringTempl_none (h hcross))]
    dsimp only
    rw [updFocus_cell, hcell]
    exact ⟨rfl, rfl, rfl, rfl, rfl⟩
  · rw [hcell]
    exact ⟨rfl, rfl, rfl, rfl, rfl⟩

theorem init_rg (n : GReg) : AsCore.init.rg n = ⟨0, false⟩ := by
  unfold AsCore.rg
  split
  · rfl
  · exact Vector.getElem_replicate _

theorem init_rp (n : PReg) : AsCore.init.rp n = ⟨n = 0, false⟩ := by
  revert n
  decide

theorem init_rt (n : TReg) : (AsCore.init.rt n).valid = false := by
  revert n
  decide

/-- R35: g1 to g3 hold the frame, the WID and the join pointer. -/
theorem entryCore_rg (r : Rec) (n : GReg) : (entryCore r).rg n =
    if n = 1 then ⟨r.frame, false⟩ else if n = 2 then ⟨r.wid, false⟩ else if n = 3 then ⟨r.joinp, false⟩ else ⟨0, false⟩ := by
  have hset : (entryCore r).rg n =
      (((AsCore.init.setG 1 ⟨r.frame, false⟩).setG 2 ⟨r.wid, false⟩).setG 3 ⟨r.joinp, false⟩).rg n := rfl
  rw [hset, rg_setG, rg_setG, rg_setG, init_rg]
  by_cases h1 : n = 1
  · subst h1; rfl
  · by_cases h2 : n = 2
    · subst h2; rfl
    · by_cases h3 : n = 3
      · subst h3; rfl
      · rw [if_neg (Ne.symm h1), if_neg (Ne.symm h2), if_neg (Ne.symm h3), if_neg h1, if_neg h2, if_neg h3]

end Sys2Proof.Machine
end

section
/-! SUPPORT. Starting launches (R302 to R304, R307, R331): fences at the head of a queue, entries, posting order, aging; O56. -/

namespace Sys2Proof.Machine

open Sys2Proof.Claims

/-! ## Fences (R302, R304) -/

/-- R304: no fence starts where none stands free at the head. -/
theorem fencesFrom_idle {s : State} {c q : Nat} (h : (s.cq c q).head = (s.cq c q).tail ∨ cqIsFence (s.cqHead (s.cq c q)) = false
    ∨ (s.cq c q).barred (s.cqHead (s.cq c q)) = true) : ∀ n : Nat, s.fencesFrom c q n = s
  | 0 => rfl
  | n + 1 => by
    refine if_pos ?_
    simp only [Bool.or_eq_true, decide_eq_true_eq, Bool.not_eq_true', or_assoc]
    exact h

theorem fencesFrom_starts {s : State} {c q : Nat} (hne : (s.cq c q).head ≠ (s.cq c q).tail)
    (hf : cqIsFence (s.cqHead (s.cq c q)) = true) (hb : (s.cq c q).barred (s.cqHead (s.cq c q)) = false) (n : Nat) :
    s.fencesFrom c q (n + 1) = (s.cqAdvance c q ⟨(s.cq c q).head.toNat, true, hdrAt (s.cqHead (s.cq c q)) 8,
      hdrAt (s.cqHead (s.cq c q)) 16, false, false, []⟩).fencesFrom c q n :=
  if_neg (by simp [hne, hf, hb])

theorem startFences_idle {s : State} {c q : Nat} (h : (s.cq c q).head = (s.cq c q).tail ∨ cqIsFence (s.cqHead (s.cq c q)) = false) :
    s.startFences c q = s := fencesFrom_idle (h.imp_right .inl) _

/-- R304: the fence that is ready is the first of its queue, and every entry before it has completed. -/
theorem fenceReady_some {e : CqEnt} {before rest : List CqEnt} : ∀ {l acc : List CqEnt}, (∀ x ∈ acc, x.fence = false) →
    fenceReady acc l = some (e, before, rest) →
    (∀ y ∈ before, y.done = true ∧ y.fence = false) ∧ e.fence = true ∧ acc ++ l = before ++ e :: rest
  | [], _, _, h => by cases h
  | x :: l, acc, hacc, h => by
    unfold fenceReady at h
    split at h
    · next hx =>
      split at h
      · next hall =>
        cases h
        exact ⟨fun y hy => ⟨List.all_eq_true.mp hall y hy, hacc y hy⟩, hx, rfl⟩
      · cases h
    · next hx =>
      have hacc' : ∀ y ∈ acc ++ [x], y.fence = false := by
        intro y hy
        rcases List.mem_append.mp hy with hy | hy
        · exact hacc y hy
        · rw [List.mem_singleton.mp hy]
          exact Bool.eq_false_iff.mpr hx
      obtain ⟨hb, he, heq⟩ := fenceReady_some hacc' h
      exact ⟨hb, he, by rw [← heq, List.append_assoc]; rfl⟩

/-- R304: a ready fence whose launches' writes have performed writes its record. -/
theorem exec_fenceEntryComplete {s : State} {c : Nat} {q : BitVec 2} {e : CqEnt} {before rest : List CqEnt}
    (hidle : s.startFences c q.toNat = s) (hready : fenceReady [] (s.cq c q.toNat).ents = some (e, before, rest))
    (hdone : (before.all fun x => x.deps.all fun d => s.mem.reached d 4) = true) :
    exec (.fenceEntryComplete c q) s = .next ((((((s.hostPut e.addr.toNat (fenceCounts before)).hostPut (e.addr.toNat + 8)
      (BitVec.ofNat 64 s.timeNs)).hostPut (e.addr.toNat + 16) 0).hostPut (e.addr.toNat + 24) e.value).updCq c q.toNat fun x =>
        x.passed rest (BitVec.ofNat 32 (e.idx + 1))).startFences c q.toNat) := by
  have hexec : exec (.fenceEntryComplete c q) s = execFenceEntryComplete c q s := rfl
  simp only [hexec, execFenceEntryComplete, hidle, hready, hdone, Bool.not_true, Bool.false_eq_true, if_false]

/-! ## Entries of a command queue (R303, R307) -/

section
variable {s : State} {c q : Nat} (hne : (s.cq c q).head ≠ (s.cq c q).tail) (hf : cqIsFence (s.cqHead (s.cq c q)) = false)
include hne hf

/-- R307: a malformed entry is refused. -/
theorem startEntry_malformed (hok : cqOk (s.cqHead (s.cq c q)) = false) : s.startEntry c q =
    ((s.refuseReport c (hdrAt (s.cqHead (s.cq c q)) 8) 0x0A q).cqAdvance c q
      ⟨(s.cq c q).head.toNat, false, hdrAt (s.cqHead (s.cq c q)) 8, 0, true, true, []⟩).startFences c q := by
  simp [State.startEntry, startFences_idle (.inr hf), hne, hf, hok]

/-- R303: an entry waits for its context and for its barrier. -/
theorem startEntry_waits (hok : cqOk (s.cqHead (s.cq c q)) = true)
    (hwait : s.ctxRuns c = false ∨ s.entryBarred c q (s.cqHead (s.cq c q)) = true) : s.startEntry c q = s := by
  simp only [State.startEntry, startFences_idle (.inr hf), hne, hf, hok]
  rcases hwait with hw | hw <;> simp [hw]

/-- R303: an entry that need not wait is checked. -/
theorem startEntry_checked (hok : cqOk (s.cqHead (s.cq c q)) = true) (hrun : s.ctxRuns c = true)
    (hbar : s.entryBarred c q (s.cqHead (s.cq c q)) = false) : s.startEntry c q =
    match s.checkLaunch c (hdrAt (s.cqHead (s.cq c q)) 8) with
    | (t, .error) => t.partitionReset (s.ctx c).part.toNat .containment 0
    | (t, .refused k) => ((t.refuseReport c (hdrAt (s.cqHead (s.cq c q)) 8) k q).cqAdvance c q
        ⟨(s.cq c q).head.toNat, false, hdrAt (s.cqHead (s.cq c q)) 8, 0, true, true, []⟩).startFences c q
    | (t, .ok ops wm) =>
      if !wm.isEmpty && t.wheelBusy (s.ctx c).part.toNat then t
      else
        ((t.cqAdvance c q ⟨(s.cq c q).head.toNat, false, hdrAt (s.cqHead (s.cq c q)) 8, 0, false, false, []⟩).startFences c q).startLaunch
          (launchOf t (.queue c (BitVec.ofNat 2 q)) c (s.cq c q).head.toNat (hdrAt (s.cqHead (s.cq c q)) 8)
            (hdrAt (t.headerAt (hdrAt (s.cqHead (s.cq c q)) 8)) 0xA0) (t.headerAt (hdrAt (s.cqHead (s.cq c q)) 8)) ops wm) := by
  simp only [State.startEntry, startFences_idle (.inr hf), hne, hf, hok, hrun, hbar] <;> rfl

end

/-- R303 condition 5: a launch without a wheel map waits for none. -/
theorem wheel_free {wm : List (Nat × CellId)} {b : Bool} (h : wm = [] ∨ b = false) : (!wm.isEmpty && b) = false := by
  rcases h with rfl | rfl
  · rfl
  · exact Bool.and_false _

/-! ## Launches of streams (R307, R331, R333) -/

/-- R331: a stream whose turn has come is checked once its context runs. -/
theorem startStream_due {s : State} {n : Nat} {x : Stream} {a : Word} (hx : s.findStream n = some x) (ha : s.streamDue x = some a) :
    s.startStream n = if !s.ctxRuns x.ctx then s
      else
        match s.checkLaunch x.ctx a with
        | (t, .error) => t.partitionReset (s.ctx x.ctx).part.toNat .containment 0
        | (t, .refused k) => (t.refuseReport x.ctx a k 3).streamOn n .refused
        | (t, .ok ops wm) =>
          if !wm.isEmpty && t.wheelBusy (s.ctx x.ctx).part.toNat then t
          else
            let t := t.startLaunch (launchOf t (.stream n) x.ctx (x.tag (x.state ≠ .queued)) a (x.dw 6) (t.headerAt a) ops wm)
            if x.state = .queued then (t.streamOn n .admitted).updStream n fun y => { y with postPrefill := false }
            else t.updStream n fun y => { y with running := true, postStep := false } := by
  simp only [State.startStream, hx, ha] <;> rfl

/-- R331: what a stream has posted, and at which place. -/
theorem posted_iff (x : Stream) (k : Nat) (a : Word) : x.posted = some (k, a) ↔ x.held = true ∧ x.running = false
    ∧ ((x.state = .queued ∧ x.postPrefill = true ∧ x.order = k ∧ x.dw 3 = a)
      ∨ (x.state = .decode ∧ x.postStep = true ∧ x.stepAt = k ∧ x.dw 4 = a)) := by
  unfold Stream.posted
  cases hrun : x.running <;> cases hheld : x.held <;> cases hst : x.state <;> cases hp : x.postPrefill <;> cases hq : x.postStep <;> simp

/-- R331: a launch of a stream of the context stands before place `k`. -/
theorem streamBefore_iff (s : State) (c k : Nat) : s.streamBefore c k = true ↔
    ∃ y ∈ s.pkg.streams, y.ctx = c ∧ y.held = true ∧ y.running = false
      ∧ ((y.state = .queued ∧ y.postPrefill = true ∧ y.order < k) ∨ (y.state = .decode ∧ y.postStep = true ∧ y.stepAt < k)) := by
  have hany (y : Stream) : (y.posted.any fun p => decide (p.1 < k)) = true ↔ ∃ j a, y.posted = some (j, a) ∧ j < k := by
    simp [Option.any_eq_true]
  unfold State.streamBefore
  simp only [List.any_eq_true, Bool.and_eq_true, decide_eq_true_eq, hany, posted_iff]
  refine exists_congr fun y => and_congr_right fun _ => and_congr_right fun _ => ⟨?_, ?_⟩
  · rintro ⟨j, a, ⟨hheld, hrun, ⟨hst, hp, rfl, -⟩ | ⟨hst, hp, rfl, -⟩⟩, hlt⟩
    · exact ⟨hheld, hrun, .inl ⟨hst, hp, hlt⟩⟩
    · exact ⟨hheld, hrun, .inr ⟨hst, hp, hlt⟩⟩
  · rintro ⟨hheld, hrun, ⟨hst, hp, hlt⟩ | ⟨hst, hp, hlt⟩⟩
    · exact ⟨_, _, ⟨hheld, hrun, .inl ⟨hst, hp, rfl, rfl⟩⟩, hlt⟩
    · exact ⟨_, _, ⟨hheld, hrun, .inr ⟨hst, hp, rfl, rfl⟩⟩, hlt⟩

/-- R331: a posted launch is due when nothing posted before it is left, of the streams and of queue 3. -/
theorem streamDue_turn {s : State} {x : Stream} {k : Nat} {a : Word} (h : x.posted = some (k, a)) :
    let turn := s.streamBefore x.ctx k = false ∧ ∀ j, (s.cq x.ctx 3).nextPost = some j → k ≤ j
    (turn → s.streamDue x = some a) ∧ (¬ turn → s.streamDue x = none) := by
  have hiff : (s.streamBefore x.ctx k || (s.cq x.ctx 3).nextPost.any (· < k)) = true ↔
      ¬ (s.streamBefore x.ctx k = false ∧ ∀ j, (s.cq x.ctx 3).nextPost = some j → k ≤ j) := by
    cases s.streamBefore x.ctx k <;> cases (s.cq x.ctx 3).nextPost <;> simp
  have hdue : s.streamDue x = if s.streamBefore x.ctx k || (s.cq x.ctx 3).nextPost.any (· < k) then none else some a := by
    simp only [State.streamDue, h]
  rw [hdue]
  exact ⟨fun hturn => if_neg fun hb => hiff.mp hb hturn, fun hno => if_pos (hiff.mpr hno)⟩

theorem barred_iff (x : CqSt) (d : HdrWords) : x.barred d = true ↔ cqBarrier d = true ∧ ∃ e ∈ x.ents, e.done = false := by
  simp [CqSt.barred]

/-- R302, R331: what an entry of queue 3 waits for. -/
theorem entryBarred_three (s : State) (c : Nat) (d : HdrWords) : s.entryBarred c 3 d = true ↔
    (cqBarrier d = true ∧ ∃ e ∈ (s.cq c 3).ents, e.done = false)
    ∨ (∃ k, (s.cq c 3).nextPost = some k ∧ s.streamBefore c k = true)
    ∨ (cqBarrier d = true ∧ ∃ y ∈ s.pkg.streams, y.ctx = c ∧ y.running = true) := by
  simp [State.entryBarred, ← barred_iff, Option.any_eq_true]

theorem entryBarred_other {q : Nat} (hq : q ≠ 3) (s : State) (c : Nat) (d : HdrWords) :
    s.entryBarred c q d = true ↔ cqBarrier d = true ∧ ∃ e ∈ (s.cq c q).ents, e.done = false := by
  simp [State.entryBarred, ← barred_iff, hq]

/-! ## Aging (R315) -/

/-- R315: the aged record has waited 1 ms. -/
theorem agedAt_some {now i : Nat} {l : List Rec} {r : Rec} (h : agedAt now l = some i) (hr : l[i]? = some r) : r.since + 3000000 ≤ now := by
  obtain ⟨hi, hp, -⟩ := List.findIdx?_eq_some_iff_getElem.mp h
  obtain ⟨hi', rfl⟩ := List.getElem?_eq_some_iff.mp hr
  exact of_decide_eq_true hp

end Sys2Proof.Machine

namespace Sys2Proof.Proofs

open Sys2Proof.Machine Sys2Proof.Claims

/-- R303, R331: launches of streams and entries of queue 3 keep their order of posting. -/
theorem postingOrder : PostingOrder := by
  refine ⟨streamBefore_iff, fun s x hheld hrun => ⟨fun hst hp => ?_, fun hst hp => ?_⟩, entryBarred_three,
    fun s c q d hq => entryBarred_other hq s c d⟩
  · exact streamDue_turn ((posted_iff x _ _).mpr ⟨hheld, hrun, .inr ⟨hst, hp, rfl, rfl⟩⟩)
  · exact streamDue_turn ((posted_iff x _ _).mpr ⟨hheld, hrun, .inl ⟨hst, hp, rfl, rfl⟩⟩)

/-- R314: an idle cell serves the highest level with work. -/
theorem dispatch_serves {s : State} {p lvl : Nat} (hexec : exec .dispatch s = .next (s.dispatchFrom p 8)) (hlvl : lvl < 8)
    (hidle : ∀ j, lvl < j → j < 8 → s.fifoPick ((s.part p).fifos.getD j []) = none ∧
      nextEnum (s.enumsAt p j) ((s.part p).served.getD j 0) = none) : exec .dispatch s = .next (s.dispatchFrom p (lvl + 1)) :=
  hexec.trans (congrArg _ (dispatchFrom_skip hlvl hidle))

/-- Settles O56: every event of the dispatcher by its branches, queues and streams through the order of posting. -/
theorem launchEventResult : Obligations.LaunchEventResult := by
  unfold Obligations.LaunchEventResult
  refine ⟨fun s p lvl hp hrun hrec hgate hpause hrepl hret hlvl hidle => ?_, fun s p lvl i r l hr hl => ?_, fun s r l prio htempl => ?_,
    fun s c q tail hc hrun => ?_, fun s c q n => ⟨rfl, fun h => fencesFrom_idle h n, fun hne hf hb => fencesFrom_starts hne hf hb n⟩,
    fun s u c q ops wm => ?_, postingOrder, fun s u n x a ops wm hx ha => ?_, fun s c q e before rest hidle hready hdone => ?_,
    fun s p lvl i r hi hr hlvl hfull => ?_⟩
  · have hserves := dispatch_serves (exec_dispatch hp hrun hrec hgate hpause hrepl hret) hlvl hidle
    exact ⟨fun i hi h => hserves.trans (congrArg _ (dispatchFrom_fifo hi h)), fun l hl h => hserves.trans (congrArg _ (dispatchFrom_wid hl h))⟩
  · exact ⟨fun hpsn => (takeFifo_eq hr hl).trans (if_pos hpsn), fun hpsn => (takeFifo_eq hr hl).trans (if_neg (by simp [hpsn]))⟩
  · obtain ⟨k, b, has, hqs, hsems, hes, hrecd⟩ := runRec_enters prio htempl
    have hcore : (s.runRec r l prio).core = entryCore r := by rw [State.core, has]; rfl
    intro t
    rw [has, hqs, hsems, hes, hrecd]
    refine ⟨rfl, rfl, congrArg _ hcore, congrArg _ hcore, congrArg _ hcore, fun n => ?_, fun n => ?_, fun n => ?_, rfl, rfl, rfl, rfl, rfl, rfl,
      rfl, rfl⟩
    · rw [State.rg, hcore, entryCore_rg]
    · rw [State.rp, hcore]
      exact init_rp n
    · rw [hcore]
      exact init_rt n
  · have hexec : exec (.cqtail c q tail) s = execCqtail c q tail s := rfl
    simp [hexec, execCqtail, hc, hrun, CqSt.post]
  · intro x d hne hf
    have hexec : exec (.launchStart (.queue c q)) s = .next (s.startEntry c q.toNat) := rfl
    rw [hexec]
    refine ⟨fun hok => congrArg _ (startEntry_malformed hne hf hok), fun hok hwait => congrArg _ (startEntry_waits hne hf hok hwait),
      fun hok hctx hbar => ?_⟩
    rw [startEntry_checked hne hf hok hctx hbar]
    refine ⟨fun k hk => by rw [hk], fun herr => by rw [herr], fun hgood hwheel => ?_⟩
    rw [hgood]
    dsimp only
    rw [wheel_free hwheel, BitVec.ofNat_toNat, BitVec.setWidth_eq]
    rfl
  · have hexec : exec (.launchStart (.stream n)) s = .next (s.startStream n) := rfl
    rw [hexec, startStream_due hx ha]
    refine ⟨fun hctx => by rw [hctx]; rfl, fun hctx => ?_⟩
    rw [hctx]
    refine ⟨fun k hk => by rw [hk]; rfl, fun herr => by rw [herr]; rfl, fun hgood hwheel => ?_⟩
    rw [hgood]
    dsimp only
    rw [wheel_free hwheel]
    exact ⟨fun hq => congrArg _ (if_pos hq), fun hq => congrArg _ (if_neg hq)⟩
  · obtain ⟨hbefore, hfence, hents⟩ := fenceReady_some (List.forall_mem_nil _) hready
    exact ⟨exec_fenceEntryComplete (startFences_idle hidle) hready hdone, hbefore, hfence, hents⟩
  · refine ⟨?_, agedAt_some hi hr⟩
    have hexec : exec (.recordAging p lvl) s = .next ((s.ageFifo p lvl).ageEnums p lvl) := rfl
    simp only [hexec, State.ageFifo, hi, hr]
    rw [if_neg (by simp [hfull]; omega)]

end Sys2Proof.Proofs
end

section
/-! SUPPORT. Partitions and contexts (R317, R319, R320, R324): what a reset, a discard and a switch change of launches, requests and
cells. -/

namespace Sys2Proof.Machine

open Sys2Proof.Claims

/-! ## One partition of the list -/

theorem part_updPart {s : State} {n : Nat} (h : n < s.pkg.parts.length) (f : PartSt → PartSt) : (s.updPart n f).part n = f (s.part n) := by
  have hget : (updAt s.pkg.parts n f)[n]? = some (f s.pkg.parts[n]) := by
    rw [getElem?_updAt, if_pos rfl, List.getElem?_eq_getElem h]
    rfl
  have hold : s.part n = s.pkg.parts[n] := by
    rw [State.part, List.getD_eq_getElem?_getD, List.getElem?_eq_getElem h]
    rfl
  rw [hold, State.part, List.getD_eq_getElem?_getD]
  exact congrArg (·.getD PartSt.init) hget

/-- A partition that runs a context is one of the module's. -/
theorem lt_of_part_ctx {s : State} {n c : Nat} (h : (s.part n).ctx = some c) : n < s.pkg.parts.length := by
  by_contra hn
  rw [State.part, List.getD_eq_getElem?_getD, List.getElem?_eq_none (Nat.le_of_not_lt hn)] at h
  cases h

/-! ## What leaves launches, requests, bindings and the cell -/

/-- Launches, eviction requests, bindings of frames and the cell in focus are as before. -/
structure Kept (s t : State) : Prop where
  launches : t.pkg.launches = s.pkg.launches
  evicts : t.pkg.evicts = s.pkg.evicts
  binds : t.mem.binds = s.mem.binds
  cell : t.cell = s.cell

theorem Kept.refl (s : State) : Kept s s := ⟨rfl, rfl, rfl, rfl⟩

theorem Kept.trans {s t u : State} (h : Kept s t) (k : Kept t u) : Kept s u :=
  ⟨k.launches.trans h.launches, k.evicts.trans h.evicts, k.binds.trans h.binds, k.cell.trans h.cell⟩

theorem Kept.after {s t u : State} (k : Kept t u) (h : Kept s t) : Kept s u := h.trans k

theorem foldl_kept {α : Type} {f : State → α → State} (hf : ∀ t x, Kept t (f t x)) : ∀ (l : List α) (s : State), Kept s (l.foldl f s)
  | [], s => .refl s
  | x :: l, s => (hf s x).trans (foldl_kept hf l _)

theorem hostPut_kept (s : State) (a : Nat) (v : Word) : Kept s (s.hostPut a v) := ⟨rfl, rfl, rfl, rfl⟩

theorem writeMap_kept : ∀ (l : List Byte) (s : State) (b : Nat), Kept s (s.writeMap b l)
  | [], s, _ => .refl s
  | _ :: l, _, b => (writeMap_kept l _ (b + 1)).after ⟨rfl, rfl, rfl, rfl⟩

theorem putStream_kept (s : State) (x : Stream) : Kept s (s.putStream x) := by
  simp only [State.putStream]
  split
  · exact .refl s
  · split
    · exact ⟨rfl, rfl, rfl, rfl⟩
    · exact (hostPut_kept ..).after ⟨rfl, rfl, rfl, rfl⟩

theorem streamOn_kept (s : State) (n : Nat) (ev : StreamEv) : Kept s (s.streamOn n ev) := by
  have hprs (t : State) : Kept t (t.updPkg fun p => { p with prsAt := some p.time.clk }) := ⟨rfl, rfl, rfl, rfl⟩
  simp only [State.streamOn]
  split
  · exact .refl s
  · next x _ =>
    have hput : Kept s (if x.on ev = x then s else s.putStream (x.on ev)) := by
      split
      · exact .refl s
      · exact putStream_kept ..
    split
    · exact hput.trans (hprs _)
    · exact (hput.trans (hprs _)).trans (writeMap_kept ..)

theorem resetStreams_kept (s : State) (gone : Stream → Bool) : Kept s (s.resetStreams gone) := by
  refine foldl_kept (fun t x => ?_) _ s
  split
  · exact (streamOn_kept ..).after ⟨rfl, rfl, rfl, rfl⟩
  · exact .refl t

theorem fencesFrom_kept (c q : Nat) : ∀ (n : Nat) (s : State), Kept s (s.fencesFrom c q n)
  | 0, s => .refl s
  | n + 1, s => by
    unfold State.fencesFrom
    dsimp only
    split
    · exact .refl s
    · exact (fencesFrom_kept c q n _).after ⟨rfl, rfl, rfl, rfl⟩

theorem rewindCtx_kept (s : State) (c : Nat) : Kept s (s.rewindCtx c) := by
  have hrewind : Kept s (s.updCtx c fun x => { x with cqs := x.cqs.map CqSt.rewind }) := ⟨rfl, rfl, rfl, rfl⟩
  simp only [State.rewindCtx]
  split
  · exact hrewind.trans (foldl_kept (fun t q => fencesFrom_kept c q 65536 t) _ _)
  · exact hrewind

theorem report_kept {s : State} {r : Report} (h : r.agent = 7) : Kept s (s.report r) := by
  refine ⟨?_, ?_, by rw [report_mem], report_cell h⟩
  all_goals
    simp only [State.report]
    split
    · rfl
    · rw [if_neg (by simp [Report.ofCell, h])]
      rfl

/-- R320, R324: the cells of a list are abandoned; launches, requests and bindings stay. -/
theorem abandonCells_keeps (s : State) (cs : List CellId) : (s.abandonCells cs).pkg.launches = s.pkg.launches
    ∧ (s.abandonCells cs).pkg.evicts = s.pkg.evicts ∧ (s.abandonCells cs).mem.binds = s.mem.binds
    ∧ (s.abandonCells cs).cell = if cs.contains s.cell.id then s.cell.abandon s.pkg.time.clk (s.sigsOpen s.cell) else s.cell :=
  ⟨rfl, rfl, rfl, rfl⟩

/-! ## Partition reset and discard (R320, R324) -/

/-- R320: a partition reset abandons the partition's cells and its launches, and leaves every binding. -/
theorem partitionReset_result (s : State) (p : Nat) (why : ResetTrigger) (info : Word) : let t := s.partitionReset p why info
    t.cell = (if (s.part p).cells.contains s.cell.id = true then s.cell.abandon s.pkg.time.clk (s.sigsOpen s.cell) else s.cell)
      ∧ (∀ l ∈ t.pkg.launches, l.part ≠ p) ∧ t.mem.binds = s.mem.binds := by
  obtain ⟨-, -, hbinds, hcell⟩ := abandonCells_keeps s (s.part p).cells
  have hstreams := resetStreams_kept (s.abandonCells (s.part p).cells) (s.lostInPart p)
  simp only [State.partitionReset]
  generalize (s.abandonCells (s.part p).cells).resetStreams (s.lostInPart p) = u at hstreams ⊢
  generalize hv : State.updPart _ p _ = v
  have hvcell : v.cell = u.cell := by rw [← hv]; rfl
  have hvbinds : v.mem.binds = u.mem.binds := by rw [← hv]; rfl
  have hvlaunches : v.pkg.launches = u.pkg.launches.filter (·.part ≠ p) := by rw [← hv]; rfl
  have hfold := foldl_kept (f := fun (s' : State) c =>
      if s.inPart p c then
        (s'.rewindCtx c).report ⟨0x05, resetCode why, p, c, c, 6, 0, 7, BitVec.ofNat 64 (s'.rewindCtx c).timeNs, info, 0⟩
      else s')
    (fun t c => by
      split
      · exact (rewindCtx_kept t c).trans (report_kept rfl)
      · exact .refl t) (List.range 192) v
  refine ⟨hfold.cell.trans (hvcell.trans (hstreams.cell.trans hcell)), fun l hl => ?_,
    hfold.binds.trans (hvbinds.trans (hstreams.binds.trans hbinds))⟩
  rw [hfold.launches, hvlaunches, List.mem_filter] at hl
  exact of_decide_eq_true hl.2

/-- R324: a discard takes the launches of its context and no others. -/
theorem discardCtx_result (s : State) (c : Nat) : (s.discardCtx c).pkg.launches = s.pkg.launches.filter (·.ctx ≠ c)
    ∧ (s.discardCtx c).pkg.evicts = s.pkg.evicts := by
  obtain ⟨hlaunches, hevicts, -, -⟩ := abandonCells_keeps s (s.ctxCells c)
  simp only [State.discardCtx]
  generalize hu : (s.abandonCells (s.ctxCells c)).resetStreams _ = u
  have hstreams : Kept (s.abandonCells (s.ctxCells c)) u := hu ▸ resetStreams_kept ..
  have hrewind := fun v => rewindCtx_kept v c
  exact ⟨(hrewind _).launches.trans (congrArg (List.filter fun l : Launch => l.ctx ≠ c) (hstreams.launches.trans hlaunches)),
    (hrewind _).evicts.trans (hstreams.evicts.trans hevicts)⟩

theorem foldl_discardCtx : ∀ (xs : List EvCtx) (s : State), let t := xs.foldl (fun s x => s.discardCtx x.ctx) s
    t.pkg.evicts = s.pkg.evicts ∧ (∀ l ∈ t.pkg.launches, l ∈ s.pkg.launches) ∧ ∀ x ∈ xs, ∀ l ∈ t.pkg.launches, l.ctx ≠ x.ctx
  | [], s => ⟨rfl, fun _ h => h, by simp⟩
  | y :: xs, s => by
    obtain ⟨hevicts, hsub, hgone⟩ := foldl_discardCtx xs (s.discardCtx y.ctx)
    obtain ⟨hlaunches, hevicts'⟩ := discardCtx_result s y.ctx
    have hof : ∀ l ∈ (s.discardCtx y.ctx).pkg.launches, l ∈ s.pkg.launches ∧ l.ctx ≠ y.ctx := fun l hl => by
      rw [hlaunches, List.mem_filter] at hl
      exact ⟨hl.1, of_decide_eq_true hl.2⟩
    exact ⟨hevicts.trans hevicts', fun l hl => (hof l (hsub l hl)).1,
      List.forall_mem_cons.mpr ⟨fun l hl => (hof l (hsub l hl)).2, hgone⟩⟩

/-! ## What abandoning leaves of a cell (R320, log 44) -/

theorem sems_errorAt_same {c : Cell} {clk : Nat} {n : SemNo} (h : n.toNat < 63) (b : Byte) :
    (c.errorAt clk n b).sems[n.toNat] = if c.ovfs.contains (n, clk) then .err b else (c.sems[n.toNat]).error b := by
  rw [Cell.errorAt, dif_pos h, Cell.setSem, dif_pos h]
  exact Vector.getElem_set_self h

theorem sems_errorAt_other {c : Cell} {clk : Nat} {n m : SemNo} (hm : m.toNat < 63) (h : m ≠ n) (b : Byte) :
    (c.errorAt clk n b).sems[m.toNat] = c.sems[m.toNat] := by
  have hne : n.toNat ≠ m.toNat := fun e => h (BitVec.eq_of_toNat_eq e.symm)
  unfold Cell.errorAt
  split
  · next hn =>
    simp only [Cell.setSem, dif_pos hn]
    exact Vector.getElem_set_ne hn hm hne
  · rfl

theorem errorAt_ovfs (c : Cell) (clk : Nat) (n : SemNo) (b : Byte) : (c.errorAt clk n b).ovfs = c.ovfs := by
  unfold Cell.errorAt Cell.setSem
  split
  · split <;> rfl
  · rfl

/-- R320: the semaphores of a list enter error phase, but those that are in it and did not enter it by an overflow of this cycle. -/
theorem foldl_errorAt {clk : Nat} {b : Byte} {m : SemNo} (hm : m.toNat < 63) : ∀ (sigs : List SemNo) (c : Cell),
    let d := sigs.foldl (fun d n => d.errorAt clk n b) c
    (m ∉ sigs → d.sems[m.toNat] = c.sems[m.toNat])
      ∧ (m ∈ sigs → d.sems[m.toNat] = if c.ovfs.contains (m, clk) then .err b else (c.sems[m.toNat]).error b)
  | [], c => ⟨fun _ => rfl, fun h => by cases h⟩
  | n :: sigs, c => by
    obtain ⟨hout, hin⟩ := foldl_errorAt hm sigs (c.errorAt clk n b)
    rw [errorAt_ovfs] at hin
    refine ⟨fun h => ?_, fun h => ?_⟩
    · obtain ⟨hne, hsigs⟩ := not_or.mp (mt List.mem_cons.mpr h)
      exact (hout hsigs).trans (sems_errorAt_other hm hne b)
    · by_cases hn : m = n
      · subst hn
        have hsame := sems_errorAt_same (c := c) (clk := clk) hm b
        by_cases hsigs : m ∈ sigs
        · refine (hin hsigs).trans ?_
          rw [hsame]
          cases c.ovfs.contains (m, clk) <;> cases c.sems[m.toNat] <;> rfl
        · exact (hout hsigs).trans hsame
      · have hsigs : m ∈ sigs := (List.mem_cons.mp h).resolve_left hn
        refine (hin hsigs).trans ?_
        rw [sems_errorAt_other hm hn b]

/-- R320: what an open command would signal is among the semaphores an abandoned cell puts into error phase. -/
theorem sigsOf_head (w : Word32) (r : List Word32) : hdrSig w ∈ sigsOf (w :: r).length (w :: r) := List.mem_cons_self

/-! ## Switching contexts (R317) -/

theorem switch_other {l : Launch} {p : Nat} (h : l.part ≠ p) (c : Option Nat) (now : Nat) : l.switch p c now = l := if_pos h

theorem switch_part (l : Launch) (p : Nat) (c : Option Nat) (now : Nat) : (l.switch p c now).part = l.part := by
  unfold Launch.switch
  split
  · rfl
  · split <;> rfl

theorem switch_ctx (l : Launch) (p : Nat) (c : Option Nat) (now : Nat) : (l.switch p c now).ctx = l.ctx := by
  unfold Launch.switch
  split
  · rfl
  · split <;> rfl

/-- R317: the launches of the partition but the incoming context's are saved. -/
theorem switch_saved {l : Launch} {p : Nat} (h : l.part = p) (c : Option Nat) (now : Nat) :
    (l.switch p c now).saved = decide (some l.ctx ≠ c) := by
  by_cases hc : some l.ctx = c <;> simp [Launch.switch, h, hc]

/-! ## Charges and records placed (R311, R375) -/

theorem staticCharge_parts (s : State) (a i : Nat) : (s.staticCharge a i).pkg.parts.length = s.pkg.parts.length := by
  simp only [State.staticCharge]
  split
  · rfl
  · split
    · rfl
    · exact length_updAt ..

theorem settleStatics_parts (s : State) : s.settleStatics.pkg.parts.length = s.pkg.parts.length := by
  have hfold (a : Nat) : ∀ (l : List Nat) (t : State),
      (l.foldl (fun s i => s.staticCharge a i) t).pkg.parts.length = t.pkg.parts.length := fun l => by
    induction l with
    | nil => exact fun _ => rfl
    | cons i l ih => exact fun t => (ih _).trans (staticCharge_parts t a i)
  have htick (t : State) : t.staticTick.pkg.parts.length = t.pkg.parts.length := by
    have hall := hfold (1500 * (t.pkg.time.statics + 1)) (List.range 16) t
    simp only [State.staticTick]
    generalize List.foldl _ t _ = u at hall ⊢
    split
    · exact hall
    · rfl
  have hticks : ∀ (n : Nat) (t : State), (t.staticTicks n).pkg.parts.length = t.pkg.parts.length := fun n => by
    induction n with
    | zero => exact fun _ => rfl
    | succ n ih => exact fun t => (ih _).trans (htick t)
  exact hticks _ s

/-- What a switch sets of a partition. -/
def PartSt.turn (p : PartSt) : Option Nat × Nat × Option Nat × Bool := (p.ctx, p.since, p.owed, p.preempt)

/-- What a switch sets of a launch, and where it belongs. -/
def Launch.stand (l : Launch) : Nat × Nat × Bool := (l.part, l.ctx, l.saved)

/-- Records are placed: partitions keep their turns, launches where they stand. -/
structure Placing (s t : State) : Prop where
  turns : t.pkg.parts.map PartSt.turn = s.pkg.parts.map PartSt.turn
  stands : t.pkg.launches.map Launch.stand = s.pkg.launches.map Launch.stand

theorem Placing.refl (s : State) : Placing s s := ⟨rfl, rfl⟩

theorem Placing.trans {s t u : State} (h : Placing s t) (k : Placing t u) : Placing s u :=
  ⟨k.turns.trans h.turns, k.stands.trans h.stands⟩

theorem updPart_placing (s : State) (n : Nat) {f : PartSt → PartSt} (h : ∀ p, (f p).turn = p.turn) : Placing s (s.updPart n f) :=
  ⟨map_updAt_same h _ _, rfl⟩

theorem updLaunch_placing (s : State) (id : Nat) {f : Launch → Launch} (h : ∀ l, (f l).stand = l.stand) : Placing s (s.updLaunch id f) := by
  refine ⟨rfl, ?_⟩
  have hmap : (s.updLaunch id f).pkg.launches = s.pkg.launches.map fun l => if l.id = id then f l else l := rfl
  rw [hmap, List.map_map]
  refine List.map_congr_left fun l _ => ?_
  dsimp only [Function.comp]
  split
  · exact h l
  · rfl

theorem writeBody_placing (s : State) (part slot : Nat) : Placing s (s.writeBody part slot) := by
  unfold State.writeBody State.scribble
  exact ⟨rfl, rfl⟩

theorem enqueueRec_placing (s : State) (part prio : Nat) (r : Rec) : Placing s (s.enqueueRec part prio r) := by
  have hfree (k : Nat) : Placing s { s with free := k } := ⟨rfl, rfl⟩
  have hrest (u : State) (f : PartSt → PartSt) (hf : ∀ p, (f p).turn = p.turn) :
      Placing u ((u.updPart part f).updLaunch r.launch fun l => { l with live := l.live + 1 }) :=
    (updPart_placing u part hf).trans (updLaunch_placing _ _ fun _ => rfl)
  simp only [State.enqueueRec]
  split
  · exact (hfree _).trans ((writeBody_placing ..).trans (hrest _ _ fun _ => rfl))
  · exact (hfree _).trans (hrest _ _ fun _ => rfl)

theorem placeSingles_placing (s : State) (part : Nat) : Placing s (s.placeSingles part) := by
  have hone (t : State) (l : Launch) : Placing t (t.placeSingle l) := by
    unfold State.placeSingle
    split
    · exact .refl t
    · split
      · exact .refl t
      · exact (enqueueRec_placing ..).trans (updLaunch_placing _ _ fun _ => rfl)
  have hfold : ∀ (l : List Launch) (t : State), Placing t (l.foldl State.placeSingle t) := fun l => by
    induction l with
    | nil => exact .refl
    | cons x l ih => exact fun t => (hone t x).trans (ih _)
  exact hfold _ s

theorem Placing.turn {s t : State} (h : Placing s t) (n : Nat) : (t.part n).turn = (s.part n).turn := by
  have hget := congrArg (fun l => l.getD n PartSt.init.turn) h.turns
  rwa [List.getD_map, List.getD_map] at hget

theorem Placing.stand {s t : State} (h : Placing s t) {l : Launch} (hl : l ∈ t.pkg.launches) :
    ∃ k ∈ s.pkg.launches, k.stand = l.stand := by
  have hmem := List.mem_map_of_mem (f := Launch.stand) hl
  rw [h.stands] at hmem
  exact List.mem_map.mp hmem

/-! ## The two halves of a switch (R316, R317) -/

/-- R317: the outgoing context's launches are saved, and the partition runs none. -/
theorem saveCtx_result {s : State} {p : Nat} (c : Nat) (hp : p < s.pkg.parts.length) : let t := s.saveCtx p c
    (t.part p).turn = (none, (t.part p).since, some 0, false) ∧ (t.part p).left = some c ∧ t.cell = s.cell
      ∧ ∀ l ∈ t.pkg.launches, l.part = p → l.saved = true := by
  intro t
  have hset := settleStatics_chargesOnly s
  have hparts := settleStatics_parts s
  have ht : t = (((s.settleStatics.writeSave p).updPkg fun k => { k with
      launches := k.launches.map fun l => l.switch p none k.time.t3 })).updPart p fun x =>
        { x with ctx := none, left := some c, owed := some 0, preempt := false } := rfl
  have hpart : t.part p = { (s.settleStatics.part p) with ctx := none, left := some c, owed := some 0, preempt := false } := by
    rw [ht, part_updPart (by exact hparts ▸ hp)]
    rfl
  refine ⟨by rw [hpart]; rfl, by rw [hpart], hset.cell, fun l hl hlp => ?_⟩
  obtain ⟨k, -, rfl⟩ := List.mem_map.mp (show l ∈ List.map _ _ from hl)
  rw [switch_part] at hlp
  rw [switch_saved hlp]
  rfl

/-- R317, R405: the incoming context's launches go on, and the partition runs it from now on. -/
theorem restoreCtx_result {s u : State} {p c : Nat} (hp : p < u.pkg.parts.length) (hu : s.settleStatics.readSave p c = (u, false)) :
    let t := s.restoreCtx p c
    (t.part p).turn = (some c, u.pkg.time.t3, none, false) ∧ ∀ l ∈ t.pkg.launches, l.part = p → (l.saved = true ↔ l.ctx ≠ c) := by
  intro t
  have ht : t = (((u.payOwed p c).updPkg fun k => { k with launches := k.launches.map fun l => l.switch p (some c) u.pkg.time.t3 }).updPart p
      fun x => { x with ctx := some c, since := u.pkg.time.t3, preempt := false }).placeSingles p := by
    simp only [t, State.restoreCtx, hu]
  have hpaid : ((u.payOwed p c).part p).owed = none := by
    have hpay : u.payOwed p c = (u.updCtx c fun x => x.pay u.pkg.time.t3 ((u.part p).owed.getD 0 * u.staticWeight (u.part p))).updPart p
        fun x => { x with owed := none } := rfl
    rw [hpay, part_updPart (s := u.updCtx c _) hp]
  have hlen : (u.payOwed p c).pkg.parts.length = u.pkg.parts.length := length_updAt ..
  have hplace := placeSingles_placing (((u.payOwed p c).updPkg fun k => { k with
    launches := k.launches.map fun l => l.switch p (some c) u.pkg.time.t3 }).updPart p
      fun x => { x with ctx := some c, since := u.pkg.time.t3, preempt := false }) p
  rw [← ht] at hplace
  refine ⟨?_, fun l hl hlp => ?_⟩
  · rw [hplace.turn p, part_updPart (by exact hlen ▸ hp)]
    exact congrArg (fun o => (some c, u.pkg.time.t3, o, false)) hpaid
  · obtain ⟨k, hk, hstand⟩ := hplace.stand hl
    obtain ⟨j, -, rfl⟩ := List.mem_map.mp (show k ∈ List.map _ _ from hk)
    obtain ⟨hpart, hctx, hsaved⟩ : (j.switch p (some c) u.pkg.time.t3).part = l.part ∧ (j.switch p (some c) u.pkg.time.t3).ctx = l.ctx
        ∧ (j.switch p (some c) u.pkg.time.t3).saved = l.saved := by
      simpa [Launch.stand] using hstand
    rw [switch_part] at hpart
    rw [switch_ctx] at hctx
    rw [switch_saved (hpart.trans hlp), hctx] at hsaved
    simp [← hsaved]

end Sys2Proof.Machine
end

section
/-! SUPPORT. Pre-emption and evictions (R316, R319, R322 to R326): requests, decisions, fallback; O57. -/

namespace Sys2Proof.Machine

open Sys2Proof.Claims

/-! ## Requests and switches (R316, R317, R319) -/

/-- R316: a slice that has run out while another context waits asks for pre-emption. -/
theorem exec_sliceExpiry {s : State} {p c d : Nat} (hc : (s.part p).ctx = some c) (hd : d < 192) (hne : d ≠ c) (hwork : s.hasWork p d = true)
    (hslice : (s.part p).since + 3000 * (s.part p).slice ≤ s.pkg.time.t3) :
    exec (.sliceExpiry p) s = .next (s.updPart p fun x => { x with preempt := true }) := by
  have hexec : exec (.sliceExpiry p) s = execSliceExpiry p s := rfl
  have hother : ((List.range 192).any fun d => d ≠ c && s.hasWork p d) = true :=
    List.any_eq_true.mpr ⟨d, List.mem_range.mpr hd, by simp [hne, hwork]⟩
  simp only [hexec, execSliceExpiry, hc]
  rw [if_pos (by rw [hother, Bool.true_and]; exact decide_eq_true hslice)]

/-- R316, R319: the doorbells of pre-emption and reset name an admitted context. -/
theorem exec_preempt {s : State} {c : Nat} (hc : c < 192) (hen : (s.ctx c).en = true) (hup : s.pkg.boot.phase = .running) :
    exec (.preempt c) s = .next (s.updPart (s.ctx c).part.toNat fun x => { x with preempt := true })
      ∧ exec (.preset c) s = .next (s.partitionReset (s.ctx c).part.toNat .host 0) := by
  have hcond : ((s.ctx c).en && decide (c < 192) && decide (s.pkg.boot.phase = .running)) = true := by simp [hc, hen, hup]
  exact ⟨congrArg _ (if_pos hcond), congrArg _ (if_pos hcond)⟩

theorem exec_preempt_off {s : State} {c : Nat} (hen : (s.ctx c).en = false) :
    exec (.preempt c) s = .next s ∧ exec (.preset c) s = .next s := by
  have hcond : ¬ ((s.ctx c).en && decide (c < 192) && decide (s.pkg.boot.phase = .running)) = true := by simp [hen]
  exact ⟨congrArg _ (if_neg hcond), congrArg _ (if_neg hcond)⟩

/-- R316: in a partition in service the running context is saved, or with none running the next one restored. -/
theorem exec_contextSwitch {s : State} {p : Nat} (hen : (s.part p).en = true) : exec (.contextSwitch p) s =
    .next (match (s.part p).ctx with
      | none => (s.nextCtx p (s.part p).left).elim s fun c => s.restoreCtx p c
      | some c => if (s.part p).preempt && s.allStopped p then (if s.ckPending c then s.abandonSwaps c else s).saveCtx p c else s) := by
  have hexec : exec (.contextSwitch p) s = execContextSwitch p s := rfl
  simp only [hexec, execContextSwitch, hen, Bool.not_true, Bool.false_eq_true, if_false] <;> rfl

/-- R319: the first launch of a partition that has hung resets it. -/
theorem exec_hangTimeout {s : State} {p : Nat} {l : Launch}
    (hl : s.pkg.launches.find? (fun l => l.part = p && l.hung s.pkg.time.t3) = some l) :
    exec (.hangTimeout p) s = .next (s.partitionReset p .hang (BitVec.ofNat 64 l.op)) := by
  have hexec : exec (.hangTimeout p) s = execHangTimeout p s := rfl
  rw [hexec, execHangTimeout, hl]

/-! ## Signals of open commands (R320) -/

section
variable (s : State) (c : Cell)

theorem sig_of_cmd {x : Cmd} (hx : x ∈ c.cmdsOf) {h : Hdr} (hh : cmdHdr x.i = some h) : h.sig ∈ s.sigsOpen c := by
  refine List.mem_append_left _ (List.mem_append_left _ (List.mem_filterMap.mpr ⟨x, hx, ?_⟩))
  rw [hh]
  rfl

theorem sig_of_ring {e : Eng} {w : Word32} {r : List Word32} (h : (c.eng e).front.map (·.w) ++ s.ringWords c e = w :: r) :
    hdrSig w ∈ s.sigsOpen c := by
  refine List.mem_append_left _ (List.mem_append_right _ (List.mem_flatMap.mpr ⟨e, by cases e <;> simp, ?_⟩))
  dsimp only
  rw [h]
  exact sigsOf_head w r

theorem sig_of_port {p : PortSt} (hp : p ∈ [c.ho, c.hub]) {w : Word32} {r : List Word32} (h : p.buf = w :: r) : hdrSig w ∈ s.sigsOpen c := by
  refine List.mem_append_right _ (List.mem_flatMap.mpr ⟨p, hp, ?_⟩)
  rw [h]
  exact sigsOf_head w r

end

/-- R320, R23: the semaphores of an abandoned cell. -/
theorem abandon_sems (c : Cell) (clk : Nat) (sigs : List SemNo) {n : SemNo} (h : n.toNat < 63) : let d := c.abandon clk sigs
    (n ∉ sigs → d.sems[n.toNat] = c.sems[n.toNat])
      ∧ (n ∈ sigs → d.sems[n.toNat] = if c.ovfs.contains (n, clk) then .err 0x08 else (c.sems[n.toNat]).error 0x08) :=
  foldl_errorAt h sigs c

/-! ## Evictions (R322 to R326) -/

theorem evTargets_partition (s : State) (t c : Nat) : c ∈ s.evTargets false t ↔
    c < 192 ∧ (((s.ctx c).en = true ∧ (s.ctx c).part.toNat = t) ∨ ∃ l ∈ s.pkg.launches, l.ctx = c ∧ l.part = t) := by
  simp [State.evTargets, State.inPart]

/-- R322: a request is taken while the module runs, and carried out when its status is 0. -/
theorem exec_evictionRequest (s : State) (d0 d1 d2 d3 : Word) :
    let u := s.updPkg fun p => { p with mgmt := { p.mgmt with evStat := BitVec.ofNat 8 (s.evStatus d0 d1 d2), evict := [d0, d1, d2, d3] } }
    (s.pkg.boot.phase ≠ .running → exec (.evictionRequest d0 d1 d2 d3) s = .next s)
    ∧ (s.pkg.boot.phase = .running → s.evStatus d0 d1 d2 ≠ 0 → exec (.evictionRequest d0 d1 d2 d3) s = .next u)
    ∧ (s.pkg.boot.phase = .running → s.evStatus d0 d1 d2 = 0 → exec (.evictionRequest d0 d1 d2 d3) s =
      .next (u.evict (d0.getLsbD 16) (fld d0 11 0) d1.toNat [fld d2 15 0, fld d2 31 16, fld d2 47 32] d3)) := by
  intro u
  have hexec : exec (.evictionRequest d0 d1 d2 d3) s = execEvictionRequest d0 d1 d2 d3 s := rfl
  rw [hexec]
  exact ⟨fun hup => by simp [execEvictionRequest, hup], fun hup hst => by simp [execEvictionRequest, hup, hst, u],
    fun hup hst => by simp [execEvictionRequest, hup, hst, u]⟩

/-- R324: a context with nothing to lose is idle. -/
theorem decide_idle {s : State} {c : Nat} (hl : (s.launchesOf c).isEmpty = true) (hd : (s.ctx c).dirty = 0) (budget : Nat) (avail : List Nat) :
    (s.decide budget avail c).1.dec = .idle := by
  simp [State.decide, hl, hd]

section
variable {s : State} {budget c : Nat} {avail : List Nat} (hwork : (s.launchesOf c).isEmpty = false ∨ (s.ctx c).dirty ≠ 0)
include hwork

/-- R324: one that finishes in time runs on. -/
theorem decide_run (hrun : s.isRunning c = true) (hw : s.evW c + 50000 ≤ budget) : (s.decide budget avail c).1.dec = .run := by
  rw [State.decide, if_neg (by rcases hwork with h | h <;> simp [h]), if_pos (by rw [hrun, Bool.true_and]; exact decide_eq_true hw)]

/-- R324: one that does not is checkpointed if the bandwidth allows it, else discarded. -/
theorem decide_else (hnot : s.isRunning c = false ∨ budget < s.evW c + 50000) : s.decide budget avail c =
    let need := ceilDiv (4 * (s.ctx c).dirty) (budget - s.evR c - 50000)
    let dest := (s.ctx c).ckdest.toNat
    if s.evR c + 50000 < budget && need ≤ avail.getD dest 0 then (⟨c, .checkpoint, need, 0, none⟩, updAt avail dest fun x => x - need)
    else (⟨c, .discard, 0, 0, none⟩, avail) := by
  have hno : ¬ (s.isRunning c && decide (s.evW c + drainNs ≤ budget)) = true := by
    rcases hnot with h | h
    · simp [h]
    · intro hboth
      obtain ⟨-, hfits⟩ := Bool.and_eq_true_iff.mp hboth
      exact Nat.not_le.mpr h (of_decide_eq_true hfits)
  rw [State.decide, if_neg (by rcases hwork with h | h <;> simp [h]), if_neg hno]
  rfl

end

/-- R324: a context carried as a discard has no launch left. -/
theorem carry_discard {s : State} {x : EvCtx} (h : x.dec = .discard) : ∀ l ∈ (s.carry x).pkg.launches, l.ctx ≠ x.ctx := by
  have hcarry : s.carry x = (s.updCtx x.ctx fun y => { y with vacating := true }).discardCtx x.ctx := by simp only [State.carry, h]
  intro l hl
  rw [hcarry, (discardCtx_result _ _).1, List.mem_filter] at hl
  exact of_decide_eq_true hl.2

/-- R324: the partition that runs a context to be checkpointed is asked to stop at its boundaries. -/
theorem carry_checkpoint {s : State} {x : EvCtx} {i : Nat} (h : x.dec = .checkpoint) (hi : s.runsIn x.ctx = some i) :
    ((s.carry x).part i).preempt = true ∧ (s.carry x).cell = s.cell := by
  have hruns : (s.updCtx x.ctx fun y => { y with vacating := true }).runsIn x.ctx = some i := hi
  have hlen : i < s.pkg.parts.length := by
    have hfound := List.find?_some hi
    exact lt_of_part_ctx (of_decide_eq_true hfound)
  have hcarry : s.carry x = (s.updCtx x.ctx fun y => { y with vacating := true }).updPart i fun p => { p with preempt := true } := by
    simp only [State.carry, h, hruns]
  rw [hcarry, part_updPart (s := s.updCtx x.ctx _) hlen]
  exact ⟨rfl, rfl⟩

/-- R324: the contexts of a request that are not vacant. -/
def State.lateCtxs (s : State) (e : Evict) : List EvCtx := e.ctxs.filter fun x => x.vacant.isNone && !s.vacantNow x

/-- R324: the decision about a context that is late has fallen back. -/
def EvCtx.fallen (late : List EvCtx) (x : EvCtx) : EvCtx :=
  if late.any (·.ctx = x.ctx) then { x with dec := x.dec.fall, alloc := 0 } else x

theorem fallBack_eq (s : State) (n : Nat) (e : Evict) : s.fallBack n e = (s.lateCtxs e).foldl (fun s x => s.discardCtx x.ctx)
    (s.updPkg fun p => { p with evicts := updAt p.evicts n fun e' => { e' with ctxs := e'.ctxs.map (EvCtx.fallen (s.lateCtxs e)) } }) := rfl

/-- R324: at the end of its budget a request discards every context that is not vacant. -/
theorem fallBack_result {s : State} {n : Nat} {e : Evict} (he : s.pkg.evicts[n]? = some e) :
    ∃ f, (s.fallBack n e).pkg.evicts[n]? = some f ∧ ∀ x ∈ e.ctxs, x.vacant = none → s.vacantNow x = false →
      ({ x with dec := x.dec.fall, alloc := 0 } : EvCtx) ∈ f.ctxs ∧ ∀ l ∈ (s.fallBack n e).pkg.launches, l.ctx ≠ x.ctx := by
  rw [fallBack_eq]
  obtain ⟨hevicts, -, hgone⟩ := foldl_discardCtx (s.lateCtxs e)
    (s.updPkg fun p => { p with evicts := updAt p.evicts n fun e' => { e' with ctxs := e'.ctxs.map (EvCtx.fallen (s.lateCtxs e)) } })
  refine ⟨_, (congrArg (·[n]?) hevicts).trans ((getElem?_updAt _ _ n n).trans ((if_pos rfl).trans (congrArg _ he))), fun x hx hv hnow => ?_⟩
  have hlate : x ∈ s.lateCtxs e := List.mem_filter.mpr ⟨hx, by simp [hv, hnow]⟩
  exact ⟨List.mem_map.mpr ⟨x, hx, if_pos (List.any_eq_true.mpr ⟨x, hlate, by simp⟩)⟩, hgone x hlate⟩

end Sys2Proof.Machine

namespace Sys2Proof.Proofs

open Sys2Proof.Machine Sys2Proof.Claims

/-- Settles O57: requests and switches by their branches; resets, discards and fallbacks through what they change of launches. -/
theorem preemptEventResult : Obligations.PreemptEventResult := by
  unfold Obligations.PreemptEventResult
  refine ⟨fun s p c d hc hd hne hwork hslice => exec_sliceExpiry hc hd hne hwork hslice, fun s c hc hen hup => exec_preempt hc hen hup,
    fun s c hen => exec_preempt_off hen, fun s p hen => ?_, fun s p c hp => ?_, fun s u p c hp hu => ?_, fun s p l hl => exec_hangTimeout hl,
    fun s p why hen => ?_, fun c clk sigs => ?_, fun s c => ?_, fun s d0 d1 d2 d3 => ?_, fun s t c => ⟨rfl, evTargets_partition s t c⟩,
    fun l p c now => ?_, fun s budget avail c => ?_, fun s x => ⟨carry_discard, fun h i hi => carry_checkpoint h hi⟩, fun s n e he => ?_⟩
  · rw [exec_contextSwitch hen]
    refine ⟨fun hc hn => by rw [hc, hn]; rfl, fun c hc hn => by rw [hc, hn]; rfl, fun c hc hp hs => ?_, fun c hc hno => ?_⟩
    · rw [hc, hp, hs]
      exact ⟨fun hck => by simp [hck], fun hck => by simp [hck]⟩
    · rw [hc]
      rcases hno with h | h <;> simp [h]
  · obtain ⟨hturn, hleft, hcell, hsaved⟩ := saveCtx_result c hp
    simp only [PartSt.turn, Prod.mk.injEq, true_and] at hturn
    obtain ⟨hctx, howed, hpre⟩ := hturn
    exact ⟨hctx, hleft, howed, hpre, hcell, hsaved⟩
  · obtain ⟨hturn, hsaved⟩ := restoreCtx_result hp hu
    simp only [PartSt.turn, Prod.mk.injEq] at hturn
    obtain ⟨hctx, hsince, howed, hpre⟩ := hturn
    exact ⟨hctx, hsince, howed, hpre, hsaved⟩
  · exact ⟨s.partitionReset p why 0, congrArg Host.Outcome.next (if_pos hen), rfl, partitionReset_result s p why 0⟩
  · refine ⟨rfl, rfl, rfl, rfl, rfl, rfl, fun n h => ?_⟩
    obtain ⟨hout, hin⟩ := abandon_sems c clk sigs h
    refine ⟨hout, fun hn => ⟨fun k hk => ?_, fun k hk ho => ?_, fun ho => ?_⟩⟩
    · rw [hin hn, hk]
      split <;> rfl
    · rw [hin hn, hk, ho]
      rfl
    · rw [hin hn, ho]
      rfl
  · exact ⟨fun x hx h hh => sig_of_cmd s c hx hh, fun e w r h => sig_of_ring s c h, fun w r h => sig_of_port s c (by simp) h,
      fun w r h => sig_of_port s c (by simp) h⟩
  · obtain ⟨hoff, hbad, hgood⟩ := exec_evictionRequest s d0 d1 d2 d3
    exact ⟨hoff, hbad, hgood, fun hlow => if_pos hlow⟩
  · exact ⟨fun h => switch_other h _ _, fun hp hc => by simp [Launch.switch, hp, hc], fun hp hc => by simp [Launch.switch, hp, hc]⟩
  · refine ⟨fun hl hd => decide_idle hl hd budget avail, fun hwork hrun hw => decide_run hwork hrun hw, fun hwork hnot => ?_⟩
    rw [decide_else hwork hnot]
    exact ⟨fun hr hn => if_pos (by simpa using ⟨hr, hn⟩), fun hno => if_neg (by simpa [or_iff_not_imp_left] using hno)⟩
  · have hfall : exec (.evictionFallback n) s = .next (if e.fallAt ≤ s.timeNs then s.fallBack n e else s) := by
      have hexec : exec (.evictionFallback n) s = execEvictionFallback n s := rfl
      rw [hexec, execEvictionFallback, he]
    refine ⟨fun hlate => ?_, fun hearly => hfall.trans (congrArg _ (if_neg (Nat.not_le.mpr hearly))), fun hall => ?_⟩
    · obtain ⟨f, hf, hrest⟩ := fallBack_result he
      exact ⟨_, f, hfall.trans (congrArg _ (if_pos hlate)), hf, hrest⟩
    · have hexec : exec (.evictionOutcome n) s = execEvictionOutcome n s := rfl
      simp only [hexec, execEvictionOutcome, he, hall, if_true]

end Sys2Proof.Proofs
end

section
/-! SUPPORT. Rows of tiles (R25, R71): which row a change touches, and that every other row is as before. -/

namespace Sys2Proof.Machine

open Sys2Proof.Claims

/-! ## Changing one tile or one row -/

/-- A change of one tile that acts on its rows alone acts on no other tile's rows. -/
theorem rows_of_updAt {s t : State} {i : Nat} {f : Tile → Tile} {g : List TRow → List TRow} (h : t.cell.tiles = updAt s.cell.tiles i f)
    (hf : ∀ x, (f x).rows = g x.rows) (hg : g [] = []) (j : Nat) :
    (t.tile j).rows = if j = i then g (s.tile j).rows else (s.tile j).rows := by
  rw [State.tile, State.tile, h, List.getD_eq_getElem?_getD, List.getD_eq_getElem?_getD, getElem?_updAt]
  by_cases hj : j = i
  · rw [if_pos hj, if_pos hj]
    cases s.cell.tiles[j]? with
    | none => exact hg.symm
    | some x => exact hf x
  · rw [if_neg hj, if_neg hj]

/-- A change of row `k` of tile `i`. -/
def ChangesRow (s t : State) (i k : Nat) (f : TRow → TRow) : Prop :=
  ∀ j l : Nat, (t.tile j).rows[l]? = if j = i ∧ l = k then ((s.tile j).rows[l]?).map f else (s.tile j).rows[l]?

theorem changesRow_of_updAt {s t : State} {i k : Nat} {f : Tile → Tile} {g : TRow → TRow} (h : t.cell.tiles = updAt s.cell.tiles i f)
    (hf : ∀ x, (f x).rows = updAt x.rows k g) : ChangesRow s t i k g := fun j l => by
  rw [rows_of_updAt (g := fun r => updAt r k g) h hf rfl]
  by_cases hj : j = i
  · simp only [hj, if_true, true_and, getElem?_updAt]
  · simp only [hj, if_false, false_and]

theorem ChangesRow.same {s t : State} {i k : Nat} {f : TRow → TRow} (h : ChangesRow s t i k f) {r : TRow}
    (hr : (s.tile i).rows[k]? = some r) : (t.tile i).rows[k]? = some (f r) := by
  rw [h, if_pos ⟨rfl, rfl⟩, hr, Option.map_some]

theorem ChangesRow.other {s t : State} {i k : Nat} {f : TRow → TRow} (h : ChangesRow s t i k f) {j l : Nat} (hne : j ≠ i ∨ l ≠ k) :
    (t.tile j).rows[l]? = (s.tile j).rows[l]? := by
  rw [h, if_neg (by tauto)]

theorem tile_congr {s t : State} (h : t.cell.tiles = s.cell.tiles) (j : Nat) : t.tile j = s.tile j := by
  rw [State.tile, State.tile, h]

theorem updRow_changesRow (s : State) (i k : Nat) (f : TRow → TRow) : ChangesRow s (s.updRow i k f) i k f :=
  changesRow_of_updAt rfl fun _ => rfl

/-! ## A parity error found (R71, R354, R358) -/

/-- R359: of the cell in focus a report changes at most the reports it holds. -/
theorem report_held (s : State) (r : Report) : ∃ l, (s.report r).cell = { s.cell with hold := l } := by
  simp only [State.report]
  split
  · exact ⟨_, rfl⟩
  · split
    · simp only [State.updCell]
      split <;> exact ⟨_, rfl⟩
    · exact ⟨_, rfl⟩

@[simp] theorem report_clk (s : State) (r : Report) : (s.report r).pkg.time = s.pkg.time := by
  simp only [State.report]
  split
  · rfl
  · split
    · simp only [State.updCell]
      split <;> rfl
    · rfl

theorem parityFound_of_none (s : State) (agent i k : Nat) : s.parityFound agent i k false = s := rfl

/-- R71: an error found sets PAR and is reported; of the cell nothing else changes but the reports it holds. -/
theorem parityFound_cell (s : State) (agent i k : Nat) : ∃ l, (s.parityFound agent i k true).cell =
    { s.cell with
      hold := l, tiles := updAt s.cell.tiles i fun x => { x with rows := updAt x.rows k fun r => { r with par := true } } } := by
  obtain ⟨l, hl⟩ := report_held (s.detected ⟨.tileElement, s.cell.id.die, s.cell.id.num, i * 64 + k⟩)
    ((s.detected ⟨.tileElement, s.cell.id.die, s.cell.id.num, i * 64 + k⟩).mkReport
      (s.cell.who agent) ((s.cell.who agent).ctx.getD 255) 0x03 6 0 0)
  refine ⟨l, ?_⟩
  change State.cell (State.updRow _ i k _) = _
  rw [State.updRow, updFocus_cell]
  exact congrArg (fun c : Cell => { c with
    tiles := updAt c.tiles i fun x => { x with rows := updAt x.rows k fun r => { r with par := true } } }) hl

theorem parityFound_changesRow (s : State) (agent i k : Nat) :
    ChangesRow s (s.parityFound agent i k true) i k fun r => { r with par := true } := by
  obtain ⟨l, hl⟩ := parityFound_cell s agent i k
  exact changesRow_of_updAt (by rw [hl]) fun _ => rfl

@[simp] theorem parityFound_mem (s : State) (agent i k : Nat) (found : Bool) : (s.parityFound agent i k found).mem = s.mem := by
  cases found with
  | false => rfl
  | true => exact (report_mem _ _).trans rfl

theorem parityFound_core (s : State) (agent i k : Nat) : (s.parityFound agent i k true).core = s.core := by
  obtain ⟨l, hl⟩ := parityFound_cell s agent i k
  rw [State.core, hl]
  rfl

/-! ## Accumulator access of the ES (R88, R185 to R188) -/

theorem tileRow_of_row {s : State} {i : Instr} {t : BitVec 2} {row : BitVec 6} {chunk : Nat} {r : TRow} {go : State → TRow → State}
    (hr : (s.tile t.toNat).rows[row.toNat]? = some r) (hc : chunk < Config.arrN s.cell.id.die / 32) :
    s.tileRow i t row chunk go = go s r := by
  rw [State.tileRow, hr]
  exact if_neg (Nat.not_le.mpr hc)

/-- R88, R185: a row or a chunk outside the tile faults with 0x13. -/
theorem tileRow_outside {s : State} {i : Instr} {t : BitVec 2} {row : BitVec 6} {chunk : Nat} {go : State → TRow → State}
    (h : (s.tile t.toNat).rows[row.toNat]? = none ∨ Config.arrN s.cell.id.die / 32 ≤ chunk) :
    s.tileRow i t row chunk go = s.esFault 0x13 (wordOf i) := by
  rw [State.tileRow]
  cases hr : (s.tile t.toNat).rows[row.toNat]? with
  | none => rfl
  | some r => exact if_pos (h.resolve_left (by simp [hr]))

theorem chunk_zero {n : Nat} (h : 32 ≤ n) : 0 < n / 32 := Nat.div_pos h (by decide)

/-- An instruction of the ES that changes tiles and issues leaves all else as before. -/
theorem esMoves_tiles (s : State) (f : List Tile → List Tile) :
    let t := (s.updFocus fun c => { c with tiles := f c.tiles }).esNext
    t.cell.es = s.cell.es.advance.endTick ∧ EsMoves s t (fun c => { c with tiles := t.cell.tiles })
      ∧ t.cell.tiles = f s.cell.tiles := by
  refine ⟨?_, ⟨?_, ?_, ?_, esNext_sameModule _ 1, fun a => ?_⟩, ?_⟩ <;> simp

/-- One that changes a row. -/
theorem esMoves_updRow (s : State) (i k : Nat) (f : TRow → TRow) :
    let t := (s.updRow i k f).esNext
    t.cell.es = s.cell.es.advance.endTick ∧ EsMoves s t (fun c => { c with tiles := t.cell.tiles }) ∧ ChangesRow s t i k f := by
  obtain ⟨hes, hmoves, htiles⟩ := esMoves_tiles s fun l => updAt l i fun x => { x with rows := updAt x.rows k f }
  exact ⟨hes, hmoves, changesRow_of_updAt htiles fun _ => rfl⟩

/-- One that changes a row after it has taken the head of a data queue. -/
theorem esMoves_queue_updRow (s : State) (q : BitVec 2) (l : List QEnt) (i k : Nat) (f : TRow → TRow) :
    let t := ((s.updQs fun k => k.setDq q l).updRow i k f).esNext
    t.cell.es = s.cell.es.advance.endTick ∧ EsMoves s t (fun c => { c with qs := s.cell.qs.setDq q l, tiles := t.cell.tiles })
      ∧ ChangesRow s t i k f := by
  refine ⟨?_, ⟨?_, ?_, ?_, esNext_sameModule _ 1, fun a => ?_⟩,
    changesRow_of_updAt (f := fun x => { x with rows := updAt x.rows k f }) ?_ fun _ => rfl⟩ <;> simp [State.updQs, State.updRow]

end Sys2Proof.Machine

namespace Sys2Proof.Proofs

open Sys2Proof.Machine Sys2Proof.Claims

/-- Settles O48: each access checks its row and chunk first, and then writes a register, one row or one tile. -/
theorem tileResult : Obligations.TileResult := by
  unfold Obligations.TileResult
  refine ⟨fun s o r hr hc => ⟨fun hbad => ?_, fun hbad => ?_⟩, fun s agent i k r hr => ?_, fun s o r hr hc hd hm => ?_,
    fun s o r hr hc htag => ?_, fun s o r e l hr h32 hq hp => ?_, fun s o r hr h32 => ⟨fun hq => ?_, fun e l hq hp => ?_⟩,
    fun s o r hr h32 => ?_, fun s o => ?_, fun s o r hr h32 => ?_, fun s o hr => ?_, fun s o hout => ⟨?_, ?_⟩, fun s o hr => ?_,
    fun s o hr => ?_⟩
  · refine esWrites_of_exec (n := 1) ((congrArg _ (tileRow_of_row hr hc)).trans ?_)
    simp only [hbad, Bool.or_false, parityFound_of_none]
    rfl
  · refine (congrArg _ (tileRow_of_row hr hc)).trans ?_
    simp only [hbad, Bool.or_true, Bool.true_or]
  · exact ⟨(parityFound_changesRow s agent i k).same hr, parityFound_mem s agent i k true, parityFound_core s agent i k⟩
  · obtain ⟨hes, hmoves, hrow⟩ := esMoves_updRow s o.tile.toNat o.row.toNat fun r =>
      r.putChunk (32 * o.chunk.toNat) (s.cell.es.rm o.m).bits (s.cell.es.vn o.d.toNat).bits.toNat
    refine ⟨_, (congrArg _ (tileRow_of_row hr hc)).trans ?_, hes, hmoves, fun i k hne => hrow.other hne, hrow.same hr⟩
    simp only [hd, hm]
    rfl
  · refine (congrArg _ (tileRow_of_row hr hc)).trans ?_
    rcases htag with h | h <;> simp [h]
  · obtain ⟨hes, hmoves, hrow⟩ := esMoves_queue_updRow s o.q l o.tile.toNat o.row.toNat fun x => x.scale e.v.toInt
    refine ⟨_, (congrArg _ ((tileRow_of_row hr (chunk_zero h32)).trans (headOf_some hq _))).trans ?_, hes, hmoves,
      fun i k hne => hrow.other hne, hrow.same hr⟩
    simp only [hp]
    rfl
  · exact congrArg _ ((tileRow_of_row hr (chunk_zero h32)).trans (headOf_none hq _))
  · refine (congrArg _ ((tileRow_of_row hr (chunk_zero h32)).trans (headOf_some hq _))).trans ?_
    simp [hp]
  · obtain ⟨hes, hmoves, hrow⟩ := esMoves_updRow s o.tile.toNat o.row.toNat TRow.clear
    exact ⟨_, congrArg Host.Outcome.next (tileRow_of_row hr (chunk_zero h32)), hes, hmoves, hrow.same hr, fun i k hne => hrow.other hne⟩
  · obtain ⟨hes, hmoves, htiles⟩ := esMoves_tiles s fun l => updAt l o.tile.toNat fun x => { x with rows := x.rows.map TRow.clear }
    have hrows := rows_of_updAt (g := List.map TRow.clear) htiles (fun _ => rfl) rfl
    refine ⟨_, rfl, hes, hmoves, fun i k hne => ?_, fun k r hr => ?_⟩
    · exact (congrArg (·[k]?) (hrows i)).trans (by rw [if_neg hne])
    · refine (congrArg (·[k]?) (hrows _)).trans ?_
      simp [hr]
  · exact esWrites_of_exec (congrArg _ (tileRow_of_row hr (chunk_zero h32)))
  · exact congrArg _ (tileRow_outside (.inl hr))
  · exact congrArg _ (tileRow_outside hout)
  · exact congrArg _ (tileRow_outside hout)
  · exact congrArg _ (tileRow_outside (.inl hr))
  · exact congrArg _ (tileRow_outside (.inl hr))

end Sys2Proof.Proofs
end

section
/-! SUPPORT. Reductions of the ES (R93, R181, R182): the tree by halves, the element that wins, the integer sum; O46. -/

namespace Sys2Proof.Machine

open Sys2Proof.Claims

/-! ## The tree by halves (R181) -/

/-- A node of the tree: its two operands combined, or the one that is there. -/
def joinNode {α : Type} (f : α → α → α) : Option α → Option α → Option α
  | some a, some b => some (f a b)
  | some a, none => some a
  | none, z => z

theorem treeLevel_cons {α : Type} (f : α → α → α) (x y : Option α) (r : List (Option α)) :
    treeLevel f (x :: y :: r) = joinNode f x y :: treeLevel f r := by
  cases x <;> cases y <;> rfl

/-- Neighbours are paired within the first 2k leaves, and within those after them. -/
theorem treeLevel_append {α : Type} (f : α → α → α) (r : List (Option α)) : ∀ (k : Nat) (l : List (Option α)), l.length = 2 * k →
    treeLevel f (l ++ r) = treeLevel f l ++ treeLevel f r ∧ (treeLevel f l).length = k
  | 0, [], _ => ⟨rfl, rfl⟩
  | k + 1, x :: y :: l, h => by
    obtain ⟨happ, hlen⟩ := treeLevel_append f r k l (by simpa [Nat.mul_add] using h)
    rw [List.cons_append, List.cons_append, treeLevel_cons, treeLevel_cons, happ]
    exact ⟨rfl, congrArg (· + 1) hlen⟩

/-- R181: the tree over 2^(n+1) leaves joins the trees over its halves. -/
theorem treeGo_halves {α : Type} (f : α → α → α) : ∀ (n : Nat) (l r : List (Option α)), l.length = 2 ^ n → r.length = 2 ^ n →
    treeGo f (n + 1) (l ++ r) = joinNode f (treeGo f n l) (treeGo f n r)
  | 0, [x], [y], _, _ => congrArg (treeGo f 0) (treeLevel_cons f x y [])
  | n + 1, l, r, hl, hr => by
    obtain ⟨happ, hl'⟩ := treeLevel_append f r (2 ^ n) l (by omega)
    obtain ⟨-, hr'⟩ := treeLevel_append f [] (2 ^ n) r (by omega)
    rw [treeGo, happ]
    exact treeGo_halves f n _ _ hl' hr'

/-- The tree over the leaves from `a` on. -/
def treeFrom {α : Type} (f : α → α → α) (leaf : Nat → Option α) (n a : Nat) : Option α :=
  treeGo f n ((List.range' a (2 ^ n)).map leaf)

theorem treeFrom_succ {α : Type} (f : α → α → α) (leaf : Nat → Option α) (n a : Nat) :
    treeFrom f leaf (n + 1) a = joinNode f (treeFrom f leaf n a) (treeFrom f leaf n (a + 2 ^ n)) := by
  rw [treeFrom, show 2 ^ (n + 1) = 2 ^ n + 2 ^ n by omega, ← List.range'_append_1, List.map_append]
  exact treeGo_halves f n _ _ (by simp) (by simp)

/-- The leaf of an element: nothing where it is not active. -/
def activeLeaf {α : Type} (x : Ev) (el : Nat → α) (i : Nat) : Option α := if x.active i then some (el i) else none

theorem reduceTree_eq {α : Type} (x : Ev) (el : Nat → α) (f : α → α → α) :
    reduceTree x el f = treeFrom f (activeLeaf x el) (ceilLog2 x.vl) 0 := by
  rw [treeFrom, ← List.range_eq_range']
  rfl

theorem activeLeaf_eq_some {α : Type} {x : Ev} {el : Nat → α} {i : Nat} {v : α} (h : activeLeaf x el i = some v) :
    x.active i = true ∧ el i = v := by
  simpa [activeLeaf] using h

theorem le_two_pow_ceilLog2 (n : Nat) : n ≤ 2 ^ ceilLog2 n := by
  unfold ceilLog2
  split
  · omega
  · have := Nat.lt_log2_self (n := n - 1)
    omega

theorem lt_vl_of_active {x : Ev} {i : Nat} (h : x.active i = true) : i < x.vl := by
  simp only [Ev.active, Bool.and_eq_true, decide_eq_true_eq] at h
  exact h.1

theorem lt_tree_of_active {x : Ev} {i : Nat} (h : x.active i = true) : i < 2 ^ ceilLog2 x.vl :=
  (lt_vl_of_active h).trans_le (le_two_pow_ceilLog2 x.vl)

/-! ## A tree that chooses one of its leaves (R182) -/

section
variable {α : Type} {f : α → α → α} {leaf : Nat → Option α}

theorem treeFrom_none (h : ∀ j, leaf j = none) : ∀ n a, treeFrom f leaf n a = none
  | 0, a => h a
  | n + 1, a => by rw [treeFrom_succ, treeFrom_none h n, treeFrom_none h n]; rfl

/-- What a tree that always keeps one operand answers is one of its leaves. -/
theorem treeFrom_leaf (hf : ∀ u v, f u v = u ∨ f u v = v) : ∀ (n a : Nat) (v : α), treeFrom f leaf n a = some v →
    ∃ j, a ≤ j ∧ j < a + 2 ^ n ∧ leaf j = some v
  | 0, a, v, h => ⟨a, le_refl a, Nat.lt_succ_self a, h⟩
  | n + 1, a, v, h => by
    have hl : ∀ u, treeFrom f leaf n a = some u → ∃ j, a ≤ j ∧ j < a + 2 ^ (n + 1) ∧ leaf j = some u := fun u hu => by
      obtain ⟨j, h1, h2, h3⟩ := treeFrom_leaf hf n a u hu
      exact ⟨j, h1, by omega, h3⟩
    have hr : ∀ u, treeFrom f leaf n (a + 2 ^ n) = some u → ∃ j, a ≤ j ∧ j < a + 2 ^ (n + 1) ∧ leaf j = some u := fun u hu => by
      obtain ⟨j, h1, h2, h3⟩ := treeFrom_leaf hf n _ u hu
      exact ⟨j, by omega, by omega, h3⟩
    rw [treeFrom_succ] at h
    cases hp : treeFrom f leaf n a with
    | none => rw [hp] at h; exact hr v h
    | some p =>
      cases hq : treeFrom f leaf n (a + 2 ^ n) with
      | none => rw [hp, hq] at h; exact hl v (hp.trans h)
      | some q =>
        rw [hp, hq] at h
        have hv : f p q = v := Option.some.inj h
        rcases hf p q with hpq | hpq
        · exact hl v (hp.trans (congrArg some (hpq.symm.trans hv)))
        · exact hr v (hq.trans (congrArg some (hpq.symm.trans hv)))

/-- A leaf that stands against every later one and takes the place of every earlier one is the answer. -/
theorem treeFrom_winner (hf : ∀ u v, f u v = u ∨ f u v = v) {i : Nat} {w : α} (hi : leaf i = some w)
    (hkeep : ∀ j v, leaf j = some v → i ≤ j → f w v = w) (htake : ∀ j v, leaf j = some v → j < i → f v w = w) :
    ∀ n a, a ≤ i → i < a + 2 ^ n → treeFrom f leaf n a = some w
  | 0, a, h1, h2 => by
    obtain rfl : i = a := by omega
    exact hi
  | n + 1, a, h1, h2 => by
    rw [treeFrom_succ]
    by_cases hlow : i < a + 2 ^ n
    · rw [treeFrom_winner hf hi hkeep htake n a h1 hlow]
      cases hr : treeFrom f leaf n (a + 2 ^ n) with
      | none => rfl
      | some v =>
        obtain ⟨j, hj, -, hv⟩ := treeFrom_leaf hf n _ v hr
        exact congrArg some (hkeep j v hv (by omega))
    · rw [treeFrom_winner hf hi hkeep htake n (a + 2 ^ n) (by omega) (by omega)]
      cases hl : treeFrom f leaf n a with
      | none => rfl
      | some v =>
        obtain ⟨j, -, hj, hv⟩ := treeFrom_leaf hf n _ v hl
        exact congrArg some (htake j v hv (by omega))

end

/-! ## Extremes (R181, R182) -/

/-- R181: with no active element an extreme is the one of the empty reduction. -/
theorem reduceExt_empty {x : Ev} (h : ∀ i, x.active i = false) (max : Bool) (el : Nat → Nat) :
    reduceExt x max el = (emptyExt x max, 2 ^ 64 - 1, 0) := by
  rw [reduceExt, reduceTree_eq, treeFrom_none (leaf := activeLeaf x _) fun j => if_neg (by simp [h j])]

/-- R182: an active element that no later one replaces and that replaces every earlier one is the extreme. -/
theorem reduceExt_winner {x : Ev} {max : Bool} {el : Nat → Nat} {i : Nat} (hi : x.active i = true)
    (hkeep : ∀ j, x.active j = true → takesRight x max (el i) (el j) = false)
    (htake : ∀ j, x.active j = true → j < i → takesRight x max (el j) (el i) = true) :
    reduceExt x max el = (if isNanPat x (el i) then (fmtOf x.ty).nanBits else el i, i, if anySig x el then fNV else 0) := by
  rw [reduceExt, reduceTree_eq, treeFrom_winner (w := (el i, i)) (fun u v => (ite_eq_or_eq _ v u).symm) (if_pos hi)
    (fun j v hv _ => ?_) (fun j v hv hj => ?_) _ 0 (Nat.zero_le i) (by rw [Nat.zero_add]; exact lt_tree_of_active hi)]
  · obtain ⟨ha, rfl⟩ := activeLeaf_eq_some hv
    simp [hkeep j ha]
  · obtain ⟨ha, rfl⟩ := activeLeaf_eq_some hv
    simp [htake j ha hj]

theorem tyFloat_of_tyInt {ty : Nat} (h : tyInt ty = true) : tyFloat ty = false := by
  simp only [tyInt, tyFloat, decide_eq_true_eq, Bool.and_eq_false_iff, decide_eq_false_iff_not] at h ⊢
  omega

theorem tyInt_of_tyFloat {ty : Nat} (h : tyFloat ty = true) : tyInt ty = false := by
  by_contra hi
  rw [tyFloat_of_tyInt (by simpa using hi)] at h
  exact Bool.false_ne_true h

/-- R182: under an integer type the right operand replaces the left one where it is the greater, or the smaller, integer. -/
theorem takesRight_int {x : Ev} (h : tyInt x.ty = true) (max : Bool) (a b : Nat) :
    takesRight x max a b = if max then decide (intOf x.ty a < intOf x.ty b) else decide (intOf x.ty b < intOf x.ty a) := by
  cases max <;> exact if_pos h

theorem reduceExt_int {x : Ev} (h : tyInt x.ty = true) {max : Bool} {el : Nat → Nat} {i : Nat} (hi : x.active i = true)
    (hbest : ∀ j, x.active j = true → if max then intOf x.ty (el j) ≤ intOf x.ty (el i) else intOf x.ty (el i) ≤ intOf x.ty (el j))
    (hfirst : ∀ j, j < i → x.active j = true → intOf x.ty (el j) ≠ intOf x.ty (el i)) : reduceExt x max el = (el i, i, 0) := by
  have hfl := tyFloat_of_tyInt h
  rw [reduceExt_winner hi (fun j hj => ?_) (fun j hj hji => ?_)]
  · simp [isNanPat, anySig, hfl]
  · rw [takesRight_int h]
    have := hbest j hj
    cases max <;> simpa using this
  · rw [takesRight_int h]
    have hb := hbest j hj
    have hne := hfirst j hji hj
    cases max with
    | false => exact decide_eq_true (lt_of_le_of_ne hb hne.symm)
    | true => exact decide_eq_true (lt_of_le_of_ne hb hne)

/-- R182: under a float type a number replaces a NaN, and the number beyond another one that one. -/
theorem takesRight_float {x : Ev} (h : tyFloat x.ty = true) (max : Bool) (a b : Nat) :
    let u := (fmtOf x.ty).decode a
    let v := (fmtOf x.ty).decode b
    takesRight x max a b = ((u.isNan && !v.isNan) || (!u.isNan && !v.isNan && (if max then u.ltz v else v.ltz u))) :=
  if_neg (by simp [tyInt_of_tyFloat h])

theorem reduceExt_nan {x : Ev} (h : tyFloat x.ty = true) (max : Bool) {el : Nat → Nat} {i : Nat} (hi : x.active i = true)
    (hnan : ∀ j, x.active j = true → ((fmtOf x.ty).decode (el j)).isNan = true) (hfirst : ∀ j, j < i → x.active j = false) :
    reduceExt x max el = ((fmtOf x.ty).nanBits, i, if anySig x el then fNV else 0) := by
  rw [reduceExt_winner hi (fun j hj => ?_) (fun j hj hji => ?_)]
  · simp [isNanPat, h, hnan i hi]
  · simp [takesRight_float h, hnan i hi, hnan j hj]
  · simp [hfirst j hji] at hj

theorem reduceExt_num {x : Ev} (h : tyFloat x.ty = true) {max : Bool} {el : Nat → Nat} {i : Nat} (hi : x.active i = true)
    (hnum : ((fmtOf x.ty).decode (el i)).isNan = false)
    (hbest : ∀ j, x.active j = true → ((fmtOf x.ty).decode (el j)).isNan = false → (if max
      then ((fmtOf x.ty).decode (el i)).ltz ((fmtOf x.ty).decode (el j))
      else ((fmtOf x.ty).decode (el j)).ltz ((fmtOf x.ty).decode (el i))) = false)
    (hfirst : ∀ j, j < i → x.active j = true → ((fmtOf x.ty).decode (el j)).isNan = false → (if max
      then ((fmtOf x.ty).decode (el j)).ltz ((fmtOf x.ty).decode (el i))
      else ((fmtOf x.ty).decode (el i)).ltz ((fmtOf x.ty).decode (el j))) = true) :
    reduceExt x max el = (el i, i, if anySig x el then fNV else 0) := by
  rw [reduceExt_winner hi (fun j hj => ?_) (fun j hj hji => ?_)]
  · simp [isNanPat, hnum]
  · rw [takesRight_float h]
    cases hn : ((fmtOf x.ty).decode (el j)).isNan with
    | true => simp [hnum]
    | false => simpa [hnum] using hbest j hj hn
  · rw [takesRight_float h]
    cases hn : ((fmtOf x.ty).decode (el j)).isNan with
    | true => simp [hnum]
    | false => simpa [hnum] using hfirst j hji hj hn

theorem emptyExt_float {x : Ev} (h : tyFloat x.ty = true) (hw : x.w = tyWidth x.ty) (max : Bool) :
    emptyExt x max = (if max then 2 ^ ((fmtOf x.ty).eb + (fmtOf x.ty).fb) else 0) + (fmtOf x.ty).infBits := by
  have hwidth : x.w - 1 = (fmtOf x.ty).eb + (fmtOf x.ty).fb := by
    rw [hw]
    simp only [tyFloat, Bool.and_eq_true, decide_eq_true_eq] at h
    obtain ⟨h8, h10⟩ := h
    interval_cases x.ty <;> rfl
  rw [emptyExt, if_neg (by simp [tyInt_of_tyFloat h]), hwidth]

/-! ## Integers narrowed (R45, R46) -/

theorem tyWidth_pos (ty : Nat) : 0 < tyWidth ty := by
  rcases lt_or_ge ty 11 with h | h
  · unfold tyWidth
    interval_cases ty <;> decide
  · simp [tyWidth, List.getD_eq_getElem?_getD, List.getElem?_eq_none (show [8, 16, 32, 64, 8, 16, 32, 64, 16, 16, 32].length ≤ ty from h)]

/-- R45: a pattern and the integer it stands for agree modulo 2^w. -/
theorem intOf_emod (ty x : Nat) : intOf ty x % 2 ^ tyWidth ty = (x : Int) % 2 ^ tyWidth ty := by
  simp only [intOf]
  split
  · exact Int.sub_emod_right _ _
  · rfl

theorem natCast_wrapInt (w : Nat) (x : Int) : (wrapInt w x : Int) = x % 2 ^ w :=
  Int.toNat_of_nonneg (Int.emod_nonneg x (by positivity))

theorem intOf_wrapInt_emod (ty : Nat) (x : Int) : intOf ty (wrapInt (tyWidth ty) x) % 2 ^ tyWidth ty = x % 2 ^ tyWidth ty := by
  rw [intOf_emod, natCast_wrapInt, Int.emod_emod]

theorem wrapInt_intOf {ty x : Nat} (h : x < 2 ^ tyWidth ty) : wrapInt (tyWidth ty) (intOf ty x) = x := by
  rw [wrapInt, intOf_emod, Int.emod_eq_of_lt (Int.natCast_nonneg x) (by exact_mod_cast h), Int.toNat_natCast]

theorem wrapInt_congr {w : Nat} {x y : Int} (h : x % 2 ^ w = y % 2 ^ w) : wrapInt w x = wrapInt w y := congrArg Int.toNat h

theorem emod_of_wrapInt_zero {w : Nat} {x : Int} (h : wrapInt w x = 0) : x % 2 ^ w = 0 := by
  rw [← natCast_wrapInt, h]
  rfl

/-! ## The integer sum (R181) -/

/-- The integers of the active elements among the 2^n from `a` on, added. -/
def activeSum (x : Ev) (el : Nat → Nat) (n a : Nat) : Int :=
  ((List.range' a (2 ^ n)).map fun i => if x.active i then intOf x.ty (el i) else 0).sum

theorem activeSum_succ (x : Ev) (el : Nat → Nat) (n a : Nat) :
    activeSum x el (n + 1) a = activeSum x el n a + activeSum x el n (a + 2 ^ n) := by
  rw [activeSum, show 2 ^ (n + 1) = 2 ^ n + 2 ^ n by omega, ← List.range'_append_1, List.map_append, List.sum_append]
  rfl

theorem activeSum_all (x : Ev) (el : Nat → Nat) :
    activeSum x el (ceilLog2 x.vl) 0 = ((List.range x.vl).map fun i => if x.active i then intOf x.ty (el i) else 0).sum := by
  obtain ⟨d, hd⟩ := Nat.exists_eq_add_of_le (le_two_pow_ceilLog2 x.vl)
  rw [activeSum, ← List.range_eq_range', hd, List.range_add, List.map_append, List.sum_append, List.map_map, add_eq_left]
  refine List.sum_eq_zero fun z hz => ?_
  obtain ⟨k, -, rfl⟩ := List.mem_map.mp hz
  exact if_neg fun h => absurd (lt_vl_of_active h) (Nat.not_lt.mpr (Nat.le_add_right _ k))

theorem sumNode_int {x : Ev} (h : tyInt x.ty = true) (a b : Nat) :
    sumNode x (a, 0) (b, 0) = (wrapInt (tyWidth x.ty) (intOf x.ty a + intOf x.ty b), 0) := by
  simp [sumNode, arith2, h, narrow]

/-- R181: at every node an integer sum is that of the active elements below it modulo 2^w, without flags. -/
theorem sumTree_int {x : Ev} (h : tyInt x.ty = true) {el : Nat → Nat} (hel : ∀ i, el i < 2 ^ tyWidth x.ty) : ∀ n a : Nat,
    ((treeFrom (sumNode x) (activeLeaf x fun i => (el i, (0 : BitVec 6))) n a).getD (0, 0)) =
      (wrapInt (tyWidth x.ty) (activeSum x el n a), 0)
  | 0, a => by
    by_cases ha : x.active a = true
    · simp [treeFrom, treeGo, activeLeaf, activeSum, ha, wrapInt_intOf (hel a)]
    · simp [treeFrom, treeGo, activeLeaf, activeSum, ha, wrapInt]
  | n + 1, a => by
    have hl := sumTree_int h hel n a
    have hr := sumTree_int h hel n (a + 2 ^ n)
    rw [treeFrom_succ, activeSum_succ]
    cases hp : treeFrom (sumNode x) (activeLeaf x fun i => (el i, (0 : BitVec 6))) n a with
    | none =>
      rw [hp] at hl
      have hzero := emod_of_wrapInt_zero (congrArg Prod.fst hl).symm
      exact hr.trans (congrArg (·, 0) (wrapInt_congr (by rw [Int.add_emod, hzero, zero_add, Int.emod_emod])))
    | some p =>
      cases hq : treeFrom (sumNode x) (activeLeaf x fun i => (el i, (0 : BitVec 6))) n (a + 2 ^ n) with
      | none =>
        rw [hp] at hl
        rw [hq] at hr
        have hzero := emod_of_wrapInt_zero (congrArg Prod.fst hr).symm
        exact hl.trans (congrArg (·, 0) (wrapInt_congr (by rw [Int.add_emod _ (activeSum _ _ _ _), hzero, add_zero, Int.emod_emod])))
      | some q =>
        rw [hp] at hl
        rw [hq] at hr
        obtain rfl : p = _ := hl
        obtain rfl : q = _ := hr
        rw [joinNode, Option.getD_some, sumNode_int h]
        exact congrArg (·, 0) (wrapInt_congr (by rw [Int.add_emod, intOf_wrapInt_emod, intOf_wrapInt_emod, ← Int.add_emod]))

theorem reduceSum_int {x : Ev} (h : tyInt x.ty = true) {el : Nat → Nat} (hel : ∀ i, el i < 2 ^ tyWidth x.ty) :
    reduceSum x el = (wrapInt (tyWidth x.ty) ((List.range x.vl).map fun i => if x.active i then intOf x.ty (el i) else 0).sum, 0) := by
  have hsum := sumTree_int h hel (ceilLog2 x.vl) 0
  have hfl := tyFloat_of_tyInt h
  rw [activeSum_all, ← reduceTree_eq] at hsum
  rw [reduceSum, ← hsum]
  cases reduceTree x (fun i => (el i, (0 : BitVec 6))) (sumNode x) with
  | none => rfl
  | some p => simp [isNanPat, anySig, hfl]

/-! ## The float sum (R181) -/

/-- Among the active elements there is a signalling NaN. -/
theorem anySig_iff {x : Ev} (h : tyFloat x.ty = true) (el : Nat → Nat) :
    anySig x el = true ↔ ∃ i, i < x.vl ∧ x.active i = true ∧ ((fmtOf x.ty).decode (el i)).sig = true := by
  simp [anySig, h]

/-- R181: the sum of a float type is what the tree leaves, a NaN as the canonical one, and NV for a signalling element. -/
theorem reduceSum_float {x : Ev} (h : tyFloat x.ty = true) {el : Nat → Nat} {v : Nat} {fl : BitVec 6}
    (ht : reduceTree x (fun i => (el i, (0 : BitVec 6))) (sumNode x) = some (v, fl)) :
    reduceSum x el = (if ((fmtOf x.ty).decode v).isNan then (fmtOf x.ty).nanBits else v, fl ||| (if anySig x el then fNV else 0)) := by
  rw [reduceSum, ht]
  simp only [isNanPat, h, Bool.true_and]

/-- A reduction that is legal fills one register. -/
theorem reduces_of_exec {i : Instr} {s : State} {o : OpV2} {f : Ev → (Nat → Nat) → Nat × BitVec 6}
    (h : exec i s = .next (s.reduction i o f)) : Reduces i s o f := fun hl =>
  esWrites_of_exec (h.trans (congrArg _ (esLegalOr_on hl _)))

theorem floatReductions : FloatReductions := by
  refine ⟨fun f n l hl => ?_, fun f z => rfl, fun x a b h => ?_, fun x el h => ⟨fun ht => ?_, fun v fl ht => ?_⟩, fun x max el h hw => ?_⟩
  · conv_lhs => rw [← List.take_append_drop (2 ^ n) l]
    rw [treeGo_halves f n _ _ (by simp; omega) (by simp; omega)]
    cases treeGo f n (l.take (2 ^ n)) <;> cases treeGo f n (l.drop (2 ^ n)) <;> rfl
  · simp [sumNode, arith2, h]
  · rw [reduceSum, show reduceTree x _ (sumNode x) = none from ht]
  · rw [reduceSum_float h ht, ← anySig_iff h]
    refine ⟨fun hn => if_pos hn, fun hn => if_neg (by simp [hn]), fun hs => by simp [hs], fun hs => by simp [hs]⟩
  · refine ⟨fun hno => ?_, fun i hi hnum hfirst => ?_, fun i hi hbest hfirst => ?_⟩
    · rw [reduceExt_empty hno, emptyExt_float h hw]
    · refine reduceExt_nan h max hi (fun j hj => ?_) hfirst
      simpa [hj] using hnum j
    · refine reduceExt_num h hi.1 hi.2 (fun j hj hn => ?_) (fun j hji hj hn => ?_)
      · have hb := hbest j ⟨hj, hn⟩
        cases max <;> simpa using hb
      · have hf := hfirst j hji ⟨hj, hn⟩
        cases max <;> simpa using hf

end Sys2Proof.Machine

namespace Sys2Proof.Proofs

open Sys2Proof.Machine Sys2Proof.Claims

/-- Settles O46: the tree is taken by halves; a sum is kept modulo 2^w, or with its flags, and an extreme is the leaf that wins. -/
theorem esReductionResult : Obligations.EsReductionResult := by
  unfold Obligations.EsReductionResult
  refine ⟨fun s o => ⟨reduces_of_exec rfl, reduces_of_exec rfl, reduces_of_exec rfl, reduces_of_exec rfl, reduces_of_exec rfl⟩,
    fun s o hl hty => ?_, fun x max el h => ⟨fun hno => ?_, fun i hi hbest hfirst => reduceExt_int h hi hbest hfirst⟩, floatReductions⟩
  · have hsum := reduceSum_int (x := s.ev o.m) hty (el := (s.grp (s.ev o.m) o.a).1) fun i => Nat.mod_lt _ (by positivity)
    have hw := reduces_of_exec (f := reduceSum) (i := .vrsum o) (s := s) rfl hl
    rw [hsum] at hw
    refine ⟨_, hw, ?_⟩
    rw [← natCast_wrapInt, BitVec.ofInt_natCast]
    rfl
  · rw [reduceExt_empty hno, emptyExt, if_pos h]

end Sys2Proof.Proofs
end

section
/-! SUPPORT. O51: charges, one row changed by the matrix engine, and the moves of its commands (R69 to R71, R211, R219, R222, R223). -/

namespace Sys2Proof.Machine

open Sys2Proof.Claims

/-! ## What an engine's access charges (R374, R375) -/

theorem charged_refl (s : State) : Charged s s := ⟨rfl, rfl, rfl, rfl, rfl, rfl⟩

theorem charged_trans {s t u : State} (a : Charged s t) (b : Charged t u) : Charged s u := by
  obtain ⟨hcell, hparked, hmem, hagenda, hrr, hacc⟩ := a
  obtain ⟨kcell, kparked, kmem, kagenda, krr, kacc⟩ := b
  exact ⟨kcell.trans hcell, kparked.trans hparked, kmem.trans (by rw [hmem]), kagenda.trans hagenda, krr.trans hrr, kacc.trans hacc⟩

theorem charge_charged (s : State) (c : Option Nat) (col : CellId) (k n : Nat) : Charged s (s.charge c col k n) := by
  refine ⟨by simp, by simp, by simp, ?_, ?_, by simp⟩ <;> cases c <;> simp only [State.charge] <;> split <;> rfl

theorem fill_charged (s : State) (h : Cache) (p : Place) : Charged s (s.updMem fun m => m.fill h p) := ⟨rfl, rfl, rfl, rfl, rfl, rfl⟩

theorem chargeRoute_charged (s : State) (w : Who) (col : CellId) (p : Place) : Charged s (s.chargeRoute w col p) := by
  have slot : ∀ (t : State) (k n : Nat), Charged t (({ t with free := t.free + 1 }).charge w.ctx col k n) := fun t k n =>
    charged_trans ⟨rfl, rfl, rfl, rfl, rfl, rfl⟩ (charge_charged _ _ _ _ _)
  simp only [State.chargeRoute]
  split
  · exact slot s 8 _
  · exact charged_trans (slot s 8 _) (slot _ 9 _)

theorem chargeLine_charged (s : State) (w : Who) (p : Place) : Charged s (s.chargeLine w p) :=
  charged_trans (charge_charged s _ _ _ _) (chargeRoute_charged _ _ _ _)

theorem fetchHost_charged (s : State) (w : Who) (d : Nat) (p : Place) (k : Bool) : Charged s (s.fetchHost w d p k) := by
  simp only [State.fetchHost]
  split
  · exact chargeLine_charged s w _
  · split
    · exact charged_trans (chargeLine_charged s w p) (charged_trans (charge_charged _ _ _ _ _) (fill_charged _ _ _))
    · exact chargeLine_charged s w p

theorem touchLine_charged (s : State) (w : Who) (c : Cell) (p : Place) : Charged s (s.touchLine w c p) := by
  have moved : Charged s (if p.loc = 3 then s.fetchHost w c.id.die p (p.cpol = 0) else s.chargeLine w p) := by
    split
    · exact fetchHost_charged s w _ p _
    · exact chargeLine_charged s w p
  simp only [State.touchLine]
  split
  · split
    · exact charged_refl s
    · split
      · exact charged_trans moved (fill_charged _ _ _)
      · exact moved
  · exact charged_refl s

theorem lineFor_charged (s : State) (w : Who) (p : Place) : Charged s (s.lineFor w p) := by
  rw [State.lineFor]
  split
  · split
    · exact touchLine_charged s w _ p
    · exact charged_refl s
  · exact charged_refl s

theorem chargePiece_charged (s : State) (w : Who) (p : Place) : Charged s (s.chargePiece w p) := by
  simp only [State.chargePiece]
  split
  · exact charge_charged _ _ _ _ _
  · split
    · split
      · exact charge_charged _ _ _ _ _
      · exact charged_trans (charge_charged _ _ _ _ _) (chargeRoute_charged _ _ _ _)
    · split
      · exact touchLine_charged s w _ p
      · exact chargeLine_charged s w p

theorem chargeRun_charged (s : State) (w : Who) (p : Place) (off : Nat) (last : Bool) : Charged s (s.chargeRun w p off last) := by
  rw [State.chargeRun]
  split
  · exact chargePiece_charged s w p
  · exact charged_refl s

/-! ## One row changed -/

/-- Row `k` of tile `i` holds `r` afterwards; besides it only reports, charges and the tile's event count are not as before. -/
structure OneRow (s t : State) (i k : Nat) (r : TRow) : Prop where
  row : (t.tile i).rows[k]? = some r
  other : ∀ j l : Nat, (j ≠ i ∨ l ≠ k) → (t.tile j).rows[l]? = (s.tile j).rows[l]?
  cell : ∃ tiles hold, t.cell = { s.cell with tiles := tiles, hold := hold }
  mem : t.mem = s.mem
  time : t.pkg.time = s.pkg.time

theorem OneRow.refl {s : State} {i k : Nat} {r : TRow} (h : (s.tile i).rows[k]? = some r) : OneRow s s i k r :=
  ⟨h, fun _ _ _ => rfl, ⟨_, _, rfl⟩, rfl, rfl⟩

theorem OneRow.trans {s t u : State} {i k : Nat} {r q : TRow} (a : OneRow s t i k r) (b : OneRow t u i k q) : OneRow s u i k q where
  row := b.row
  other j l h := (b.other j l h).trans (a.other j l h)
  cell := by
    obtain ⟨x, y, hx⟩ := a.cell
    obtain ⟨z, w, hz⟩ := b.cell
    exact ⟨z, w, by rw [hz, hx]⟩
  mem := b.mem.trans a.mem
  time := b.time.trans a.time

/-- A state that shows the same tiles, AS and ES. -/
theorem OneRow.rowBecomes {s t u : State} {i k : Nat} {r : TRow} (h : OneRow s t i k r) (htiles : u.cell.tiles = t.cell.tiles)
    (has : u.cell.as = t.cell.as) (hes : u.cell.es = t.cell.es) : RowBecomes s u i k r := by
  obtain ⟨x, y, hx⟩ := h.cell
  refine ⟨by rw [tile_congr htiles]; exact h.row, fun j l hne => by rw [tile_congr htiles]; exact h.other j l hne, ?_, ?_⟩
  · rw [has, hx]
  · rw [hes, hx]

theorem updRow_oneRow {s : State} {i k : Nat} {r : TRow} (h : (s.tile i).rows[k]? = some r) (f : TRow → TRow) :
    OneRow s (s.updRow i k f) i k (f r) :=
  ⟨(updRow_changesRow s i k f).same h, fun _ _ hne => (updRow_changesRow s i k f).other hne, ⟨_, _, rfl⟩, rfl, rfl⟩

theorem rowEvent_oneRow {s : State} {i k : Nat} {r : TRow} (h : (s.tile i).rows[k]? = some r) (f : TRow → TRow) (n : Nat) :
    OneRow s (s.rowEvent i k f n) i k (f r) := by
  have hrow : ChangesRow s (s.rowEvent i k f n) i k f := changesRow_of_updAt rfl fun _ => rfl
  exact ⟨hrow.same h, fun _ _ hne => hrow.other hne, ⟨_, _, rfl⟩, rfl, rfl⟩

/-- R71: a row read by the matrix engine. -/
theorem parityFound_oneRow {s : State} {i k : Nat} {r : TRow} (h : (s.tile i).rows[k]? = some r) (agent : Nat) :
    OneRow s (s.parityFound agent i k (!r.bad.isEmpty)) i k (rowRead r) := by
  rw [rowRead]
  cases r.bad.isEmpty with
  | true => exact (Bool.or_false r.par).symm ▸ OneRow.refl h
  | false =>
    have hrow := parityFound_changesRow s agent i k
    obtain ⟨l, hl⟩ := parityFound_cell s agent i k
    refine ⟨(hrow.same h).trans ?_, fun _ _ hne => hrow.other hne, ⟨_, _, hl⟩, parityFound_mem s agent i k true, ?_⟩
    · rw [Bool.not_false, Bool.or_true]
    · exact report_clk _ _

/-! ## A group step (R69 to R71) -/

/-- R69: the row a group step works on stands in a state that has met its parity errors, and takes one of three changes there. -/
theorem groupStep_eq {s : State} {i k : Nat} {r : TRow} (h : (s.tile i).rows[k]? = some r) (ps : List Part) (nan psn zero : Bool)
    (c : Cmd) : let q := stepRow r zero c
    ∃ (u : State) (r0 : TRow), OneRow s u i k r0 ∧ s.groupStep i k ps nan psn (zero && c.group = 0) =
      if q.fresh then (u.rowEvent i k (fun _ => (q.stepFresh ps).1.mark nan psn) (if (q.stepFresh ps).2 then 1 else 0), true)
      else if q.needsEvent ps then (u.rowEvent i k (fun _ => q.event ps) 1, false)
      else (u.rowEvent i k (fun _ => (q.accumulate ps).mark nan psn) 0, true) := by
  simp only [stepRow, State.groupStep, h]
  by_cases hz : zero = true ∧ c.group = 0
  · exact ⟨s, r, .refl h, by simp [h, hz]⟩
  · by_cases hf : r.fresh = true
    · exact ⟨s, r, .refl h, by simp [h, hf]⟩
    · have hone := parityFound_oneRow h 2
      exact ⟨_, _, hone, by simp [hone.row, hf, hz]⟩

section
variable {s : State} {i k : Nat} {r : TRow} (h : (s.tile i).rows[k]? = some r) (ps : List Part) (nan psn : Bool) {zero : Bool} {c : Cmd}
include h

theorem groupStep_fresh (hq : (stepRow r zero c).fresh = true) :
    ∃ t, s.groupStep i k ps nan psn (zero && c.group = 0) = (t, true)
      ∧ OneRow s t i k (((stepRow r zero c).stepFresh ps).1.mark nan psn) := by
  obtain ⟨u, r0, hu, heq⟩ := groupStep_eq h ps nan psn zero c
  exact ⟨_, heq.trans (if_pos hq), hu.trans (rowEvent_oneRow hu.row _ _)⟩

theorem groupStep_event (hq : (stepRow r zero c).fresh = false) (hev : (stepRow r zero c).needsEvent ps = true) :
    ∃ t, s.groupStep i k ps nan psn (zero && c.group = 0) = (t, false) ∧ OneRow s t i k ((stepRow r zero c).event ps) := by
  obtain ⟨u, r0, hu, heq⟩ := groupStep_eq h ps nan psn zero c
  exact ⟨_, heq.trans ((if_neg (by simp [hq])).trans (if_pos hev)), hu.trans (rowEvent_oneRow hu.row _ _)⟩

theorem groupStep_accumulates (hq : (stepRow r zero c).fresh = false) (hev : (stepRow r zero c).needsEvent ps = false) :
    ∃ t, s.groupStep i k ps nan psn (zero && c.group = 0) = (t, true)
      ∧ OneRow s t i k (((stepRow r zero c).accumulate ps).mark nan psn) := by
  obtain ⟨u, r0, hu, heq⟩ := groupStep_eq h ps nan psn zero c
  exact ⟨_, heq.trans ((if_neg (by simp [hq])).trans (if_neg (by simp [hev]))), hu.trans (rowEvent_oneRow hu.row _ _)⟩

end

/-! ## Moves of MMA and MMAZ (R211) -/

/-- R200: a command in step 4 makes one move of its own. -/
theorem runCmd_runs {s : State} {e : Eng} {i : Instr} {c : Cmd} (h : Runs s e i c) (hd : Hdr) (run : State → Cmd → State) :
    s.runCmd e i hd run = run s c := by
  obtain ⟨hcur, hi, hp⟩ := h
  rw [State.runCmd, hcur]
  dsimp only
  rw [if_neg (not_not.mpr hi), hp]

theorem exec_mma_runs {s : State} {h : Hdr} {p : PMma} {zero : Bool} {c : Cmd}
    (hr : Runs s .mx (if zero then .mmaz h p else .mma h p) c) :
    exec (if zero then .mmaz h p else .mma h p) s = .next (s.mmaMove h p zero c) := by
  cases zero <;> exact congrArg Host.Outcome.next (runCmd_runs hr h _)

/-- A group step is done with its row: the next row, the next group or the end of the command. -/
def State.stepDone (s : State) (h : Hdr) (sh : Shape) (c : Cmd) : State :=
  if c.row + 1 < sh.m then s.setCmd .mx (some { c with row := c.row + 1 })
  else if c.group + 1 < ceilDiv sh.k 32 then s.setCmd .mx (some { c with row := 0, group := c.group + 1 })
  else (s.updMx (keepHeld sh)).endRun .mx c h (if c.poisoned then 5 else 0) (ceilDiv sh.k 384)

section
variable {s : State} {h : Hdr} {p : PMma} {zero : Bool} {c : Cmd} {sh : Shape} {a b : Desc}
  (hsh : s.cell.mxs.shape = some sh) (ha : s.cell.mxs.a = some a) (hb : s.cell.mxs.b = some b)
include hsh ha hb

theorem mmaMove_fails (hstart : c.unit = 0 ∧ c.sub = 0 ∧ c.buf = []) (hbad : s.mmaCheck p sh a b ≠ 0) :
    s.mmaMove h p zero c = s.endRun .mx c h (s.mmaCheck p sh a b) 0 := by
  obtain ⟨hu, hs, hbuf⟩ := hstart
  simp [State.mmaMove, hsh, ha, hb, hu, hs, hbuf, hbad]

/-- R214: while panels are still due, one is read or ended. -/
theorem mmaMove_panel (hok : c.unit = 0 ∧ c.sub = 0 ∧ c.buf = [] → s.mmaCheck p sh a b = 0) (hpanel : c.unit ≤ c.group / 12) :
    s.mmaMove h p zero c = if c.sub < panelBlks sh p.keepb c.unit then s.panelMove sh a b c else s.panelEnd h sh p.keepb c := by
  have hpre : (if c.unit = 0 && c.sub = 0 && c.buf.isEmpty then s.mmaCheck p sh a b else 0) = 0 := by
    split
    · next hc => exact hok (by simpa [and_assoc] using hc)
    · rfl
  rw [State.mmaMove, hsh, ha, hb]
  exact (if_neg (not_not.mpr hpre)).trans (if_pos hpanel)

/-- R211, R217: with the panel read a group step is taken, and an event ends the cycle. -/
theorem mmaMove_step (hstep : c.group / 12 < c.unit) : s.mmaMove h p zero c =
    let x := s.partials sh c.row c.group
    let t := s.groupStep p.tile.toNat (p.row0.toNat + c.row) x.1 x.2.1 x.2.2 (zero && c.group = 0)
    if !t.2 then (t.1.setCmd .mx (some { c with sub := 1 })).pastRank 3
    else t.1.chargeStep.stepDone h sh { c with poisoned := c.poisoned || x.2.2, sub := 0 } := by
  have hu : c.unit ≠ 0 := by omega
  rw [State.mmaMove, hsh, ha, hb]
  simp only [hu, decide_false, Bool.false_and, Bool.false_eq_true, if_false, ne_eq, not_true_eq_false, Nat.not_le.mpr hstep]
  rfl

theorem mmaMove_event (hstep : c.group / 12 < c.unit) {u : State} {x : List Part × Bool × Bool} (hx : x = s.partials sh c.row c.group)
    (hgs : s.groupStep p.tile.toNat (p.row0.toNat + c.row) x.1 x.2.1 x.2.2 (zero && c.group = 0) = (u, false)) :
    s.mmaMove h p zero c = (u.setCmd .mx (some { c with sub := 1 })).pastRank 3 := by
  simp only [mmaMove_step hsh ha hb hstep, ← hx, hgs, Bool.not_false, if_true]

theorem mmaMove_done (hstep : c.group / 12 < c.unit) {u : State} {x : List Part × Bool × Bool} (hx : x = s.partials sh c.row c.group)
    (hgs : s.groupStep p.tile.toNat (p.row0.toNat + c.row) x.1 x.2.1 x.2.2 (zero && c.group = 0) = (u, true)) :
    s.mmaMove h p zero c = u.chargeStep.stepDone h sh { c with poisoned := c.poisoned || x.2.2, sub := 0 } := by
  simp only [mmaMove_step hsh ha hb hstep, ← hx, hgs, Bool.not_true, Bool.false_eq_true, if_false]

end

/-- What the end of a group step leaves. -/
theorem stepDone_frame (s : State) (h : Hdr) (sh : Shape) (c : Cmd) : let t := s.stepDone h sh c
    t.cell.tiles = s.cell.tiles ∧ t.cell.as = s.cell.as ∧ t.cell.es = s.cell.es ∧ t.mem = s.mem := by
  simp only [State.stepDone]
  split
  · exact ⟨rfl, rfl, rfl, rfl⟩
  · split <;> exact ⟨rfl, rfl, rfl, rfl⟩

/-- What the end of a group step makes of the command and of the held weights. -/
theorem stepDone_cmd (s : State) (h : Hdr) (sh : Shape) (c : Cmd) : let t := s.stepDone h sh c
    (c.row + 1 < sh.m → (t.cell.eng .mx).cur = some { c with row := c.row + 1 } ∧ t.cell.mxs = s.cell.mxs)
    ∧ (¬ c.row + 1 < sh.m → c.group + 1 < ceilDiv sh.k 32 →
      (t.cell.eng .mx).cur = some { c with row := 0, group := c.group + 1 } ∧ t.cell.mxs = s.cell.mxs)
    ∧ (¬ c.row + 1 < sh.m → ¬ c.group + 1 < ceilDiv sh.k 32 →
      (t.cell.eng .mx).cur = some { c with
        phase := .release (if c.poisoned then 5 else 0) (ceilDiv sh.k 384), xl := [], due := none, owes := false
        ids := if h.rel then s.mem.visibleIds s.cell.id else [] }
      ∧ t.cell.mxs = keepHeld sh s.cell.mxs) := by
  refine ⟨fun h1 => ?_, fun h1 h2 => ?_, fun h1 h2 => ?_⟩
  · simp only [State.stepDone, if_pos h1]
    exact ⟨rfl, rfl⟩
  · simp only [State.stepDone, if_neg h1, if_pos h2]
    exact ⟨rfl, rfl⟩
  · simp only [State.stepDone, if_neg h1, if_neg h2]
    exact ⟨rfl, rfl⟩

/-- R211: the codes of the checks of MMA and MMAZ. -/
theorem mmaCheck_rows {s : State} {p : PMma} {sh : Shape} {a b : Desc} (h : Config.tileM s.cell.id.die < p.row0.toNat + sh.m) :
    s.mmaCheck p sh a b = 4 := if_pos h

theorem mmaCheck_eq {s : State} {p : PMma} {sh : Shape} {a b : Desc} (h : p.row0.toNat + sh.m ≤ Config.tileM s.cell.id.die) :
    s.mmaCheck p sh a b =
      if s.aCode sh a = 3 || s.kindCode b.base b.rot [kScratch, kTensor] = 3 then 3
      else if s.aCode sh a ≠ 0 || s.kindCode b.base b.rot [kScratch, kTensor] ≠ 0 then 0x11
      else if p.keepb && (heldFor s.cell.mxs sh).isNone then 0x12
      else 0 := if_neg (Nat.not_lt.mpr h)

/-! ## Moves of MCLR and MRN (R222, R223) -/

section
variable {s : State} {h : Hdr} {row0 : Nat} {c : Cmd} {one : State → Nat → State}

theorem rowsMove_unset (hsh : s.cell.mxs.shape = none) : s.rowsMove h row0 c one = s.endRun .mx c h 0x10 0 := by
  rw [State.rowsMove, hsh]

variable {sh : Shape} (hsh : s.cell.mxs.shape = some sh)
include hsh

theorem rowsMove_outside (hout : Config.tileM s.cell.id.die < row0 + sh.m) : s.rowsMove h row0 c one = s.endRun .mx c h 4 0 := by
  rw [State.rowsMove, hsh]
  exact if_pos hout

theorem rowsMove_row (hin : row0 + sh.m ≤ Config.tileM s.cell.id.die) : s.rowsMove h row0 c one =
    let u := one s (row0 + c.row)
    if c.row + 1 < sh.m then u.setCmd .mx (some { c with row := c.row + 1 }) else u.endRun .mx c h 0 0 := by
  rw [State.rowsMove, hsh]
  exact if_neg (Nat.not_lt.mpr hin)

end

/-! ## Moves of MWB (R219, R220) -/

theorem mwbMove_unset {s : State} {h : Hdr} {p : PMwb} {c : Cmd} (hsh : s.cell.mxs.shape = none) :
    s.mwbMove h p c = s.endRun .mx c h 0x10 0 := by
  rw [State.mwbMove, hsh]

section
variable {s : State} {h : Hdr} {p : PMwb} {c : Cmd} {sh : Shape} (hsh : s.cell.mxs.shape = some sh)
include hsh

/-- R219: a row outside the tile, or a BX7 row of no whole block. -/
theorem mwbMove_unfit (hu : c.unit = 0)
    (hno : ¬ (p.row0.toNat + sh.m ≤ Config.tileM s.cell.id.die ∧ ¬ (p.fmt = .bx7 ∧ sh.n % 64 ≠ 0))) :
    s.mwbMove h p c = s.endRun .mx c h 4 0 := by
  rw [State.mwbMove, hsh]
  simp only [hu, if_true]
  exact if_pos (by simpa [or_iff_not_imp_left] using hno)

/-- R207, R219: the checks before the first row. -/
theorem mwbMove_checks (hu : c.unit = 0)
    (hfits : p.row0.toNat + sh.m ≤ Config.tileM s.cell.id.die ∧ ¬ (p.fmt = .bx7 ∧ sh.n % 64 ≠ 0)) : s.mwbMove h p c =
    if s.wbKind p ≠ 0 then s.endRun .mx c h (s.wbKind p) 0
    else if p.rpitch.toNat * 64 < wbBytes p.fmt sh.n then s.endRun .mx c h 0x11 0
    else
      let k := s.wbCheck p (wbBytes p.fmt sh.n) 0 [] (List.range sh.m)
      if k.2.1 = 0 then k.1.setCmd .mx (some { c with unit := 1, xl := k.2.2, since := k.1.pkg.time.t3, owes := true })
      else k.1.endRun .mx c h k.2.1 0 := by
  rw [State.mwbMove, hsh]
  simp only [hu, if_true]
  refine (if_neg (by simpa using hfits)).trans ?_
  generalize s.wbCheck p (wbBytes p.fmt sh.n) 0 [] (List.range sh.m) = k
  obtain ⟨u, code, xl⟩ := k
  cases code <;> simp

/-- R220, R263: one word is written. -/
theorem mwbMove_word (hu : c.unit ≠ 0) (hbuf : c.buf ≠ []) : s.mwbMove h p c =
    let u := s.wbWord p c (segOff p.base + 64 * c.row * p.rpitch.toNat) (wbBytes p.fmt sh.n)
    if c.sub + 1 < c.buf.length then u.setCmd .mx (some { c with sub := c.sub + 1 }) else u.wbNext h c sh.m := by
  rw [State.mwbMove, hsh]
  simp [hu, hbuf]

/-- R71, R219: a row is read, and cleared where the command says so, unless its column pauses. -/
theorem mwbMove_row (hu : c.unit ≠ 0) (hbuf : c.buf = []) {r : TRow}
    (hr : (s.tile p.tile.toNat).rows[p.row0.toNat + c.row]? = some r) (hn : wbBytes p.fmt sh.n ≠ 0) : s.mwbMove h p c =
    if s.placePaused (s.engWord (segNo p.base) (segOff p.base + 64 * c.row * p.rpitch.toNat) p.rot.toNat c.xl) && !s.cmdAtHand c then s
    else
      let v := s.parityFound 2 p.tile.toNat (p.row0.toNat + c.row) (!r.bad.isEmpty)
      let w := wbRow p.fmt sh.n (rowRead r)
      let u := if p.z then v.updRow p.tile.toNat (p.row0.toNat + c.row) TRow.clear else v
      u.setCmd .mx (some { c with sub := 0, buf := wbBuf w.1 w.2 (ceilDiv (wbBytes p.fmt sh.n) 8) }) := by
  rw [State.mwbMove, hsh]
  simp [hu, hbuf, hr, hn, (parityFound_oneRow hr 2).row]

theorem mwbMove_paused (hu : c.unit ≠ 0) (hbuf : c.buf = []) {r : TRow}
    (hr : (s.tile p.tile.toNat).rows[p.row0.toNat + c.row]? = some r)
    (hstands : s.placePaused (s.engWord (segNo p.base) (segOff p.base + 64 * c.row * p.rpitch.toNat) p.rot.toNat c.xl) = true
      ∧ s.cmdAtHand c = false) : s.mwbMove h p c = s := by
  rw [State.mwbMove, hsh]
  simp [hu, hbuf, hr, hstands]

end

theorem wbBuf_length (v n : Nat) (psn : Bool) : (wbBuf v psn n).length = n := by simp [wbBuf]

theorem wbBuf_getElem? {v n i : Nat} {psn : Bool} (h : i < n) : (wbBuf v psn n)[i]? = some ⟨BitVec.ofNat 64 (v / 2 ^ (64 * i)), psn⟩ := by
  simp [wbBuf, h]

theorem clear_rowRead (r : TRow) : (rowRead r).clear = r.clear := rfl

/-! ## The three results of a group step -/

section
variable {s u : State} {h : Hdr} {p : PMma} {zero : Bool} {c : Cmd} {sh : Shape} {a b : Desc} {i k : Nat} {r : TRow}

/-- A row that is done: its change, and what the command goes on with. -/
theorem stepDone_result (hu : OneRow s u i k r) : let t := u.chargeStep.stepDone h sh c
    t.mem = s.mem ∧ RowBecomes s t i k r
    ∧ (c.row + 1 < sh.m → (t.cell.eng .mx).cur = some { c with row := c.row + 1 } ∧ t.cell.mxs = s.cell.mxs)
    ∧ (¬ c.row + 1 < sh.m → c.group + 1 < ceilDiv sh.k 32 →
      (t.cell.eng .mx).cur = some { c with row := 0, group := c.group + 1 } ∧ t.cell.mxs = s.cell.mxs)
    ∧ (¬ c.row + 1 < sh.m → ¬ c.group + 1 < ceilDiv sh.k 32 →
      (t.cell.eng .mx).cur = some { c with
        phase := .release (if c.poisoned then 5 else 0) (ceilDiv sh.k 384), xl := [], due := none, owes := false
        ids := if h.rel then s.mem.visibleIds s.cell.id else [] }
      ∧ t.cell.mxs = keepHeld sh s.cell.mxs) := by
  obtain ⟨htiles, has, hes, hmem⟩ := stepDone_frame u.chargeStep h sh c
  have hcell : u.chargeStep.cell = u.cell := charge_cell _ _ _ _ _
  have hcmem : u.chargeStep.mem = s.mem := (charge_mem _ _ _ _ _).trans hu.mem
  obtain ⟨x, y, hx⟩ := hu.cell
  have hmxs : u.chargeStep.cell.mxs = s.cell.mxs := by rw [hcell, hx]
  have hid : u.chargeStep.cell.id = s.cell.id := by rw [hcell, hx]
  obtain ⟨hrow, hgroup, hend⟩ := stepDone_cmd u.chargeStep h sh c
  rw [hmxs] at hrow hgroup hend
  rw [hcmem, hid] at hend
  rw [hcell] at htiles has hes
  exact ⟨hmem.trans hcmem, hu.rowBecomes htiles has hes, hrow, hgroup, hend⟩

/-- R217: an event ends the cycle of the matrix engine. -/
theorem event_result (hu : OneRow s u i k r) : let t := (u.setCmd .mx (some { c with sub := 1 })).pastRank 3
    t.mem = s.mem ∧ RowBecomes s t i k r ∧ (t.cell.eng .mx).cur = some { c with sub := 1 } ∧ t.cell.cyc.clk = s.pkg.time.clk
      ∧ 3 ≤ t.cell.cyc.rank := by
  refine ⟨hu.mem, hu.rowBecomes rfl rfl rfl, rfl, congrArg (·.clk) hu.time, ?_⟩
  simp only [State.pastRank, updFocus_cell]
  split
  · exact Nat.le_max_right _ _
  · exact le_refl 3

end

end Sys2Proof.Machine

namespace Sys2Proof.Proofs

open Sys2Proof.Machine Sys2Proof.Claims

/-- Settles O51: each command is one move in step 4; a group step, MCLR, MRN and MWB change one row, whose parity errors are met first. -/
theorem matrixRowResult : Obligations.MatrixRowResult := by
  unfold Obligations.MatrixRowResult
  refine ⟨fun s h p zero c sh a b hr hsh ha hb =>
      ⟨fun hstart hbad => ?_, fun hok hpanel => ⟨fun hsub => ?_, fun hsub => ⟨fun hc => ?_, fun hc => ?_⟩⟩⟩,
    fun s p sh a b => ⟨fun hout => mmaCheck_rows hout, fun hin => ⟨fun h3 => ?_, fun ha hb hbad => ?_, fun ha hb => ?_⟩⟩,
    fun s h p zero c sh a b r hr hsh ha hb hstep hrow => ?_,
    fun s h c sh row0 hsh hout => ⟨fun p hr hrow => ?_, fun p hr hrow => ?_⟩,
    fun s h c hsh => ⟨fun p hr => ?_, fun p hr => ?_, fun p hr => ?_⟩,
    fun s h p c sh r hr hsh hin hrow => ?_, fun s h p c sh r hr hsh hin hrow => ?_,
    fun s h p c sh hr hsh hu => ?_, fun s h p c sh r hr hsh hu hbuf hrow => ⟨fun hstands => ?_, fun hgo hn => ?_⟩,
    fun s h p c sh hr hsh hu hbuf => ?_, fun v n i psn hi => ⟨wbBuf_length v n psn, wbBuf_getElem? hi⟩⟩
  · rw [exec_mma_runs hr, mmaMove_fails hsh ha hb hstart hbad]
  · rw [exec_mma_runs hr, mmaMove_panel hsh ha hb hok hpanel, if_pos hsub]
  · rw [exec_mma_runs hr, mmaMove_panel hsh ha hb hok hpanel, if_neg (Nat.not_lt.mpr hsub), State.panelEnd, if_pos hc]
  · rw [exec_mma_runs hr, mmaMove_panel hsh ha hb hok hpanel, if_neg (Nat.not_lt.mpr hsub), State.panelEnd, if_neg (not_not.mpr hc)]
  · rw [mmaCheck_eq hin, if_pos (by simpa using h3)]
  · rw [mmaCheck_eq hin, if_neg (by simp [ha, hb]), if_pos]
    simpa using hbad.imp And.left And.left
  · simp [mmaCheck_eq hin, ha, hb]
  · generalize hx : s.partials sh c.row c.group = x
    have hexec := exec_mma_runs hr
    cases hq : (stepRow r zero c).fresh with
    | true =>
      obtain ⟨u, hgs, hone⟩ := groupStep_fresh hrow x.1 x.2.1 x.2.2 hq
      obtain ⟨hmem, hbec, hcmd⟩ := stepDone_result (h := h) (sh := sh) (c := { c with poisoned := c.poisoned || x.2.2, sub := 0 }) hone
      exact ⟨_, hexec.trans (congrArg _ (mmaMove_done hsh ha hb hstep hx.symm hgs)), hmem, fun _ => hbec,
        fun hno => absurd (hq.symm.trans hno) (by simp), fun hno => absurd (hq.symm.trans hno) (by simp), fun _ => hcmd⟩
    | false =>
      cases hev : (stepRow r zero c).needsEvent x.1 with
      | true =>
        obtain ⟨u, hgs, hone⟩ := groupStep_event hrow x.1 x.2.1 x.2.2 hq hev
        obtain ⟨hmem, hbec, hcur, hclk, hrank⟩ := event_result (c := c) hone
        refine ⟨_, hexec.trans (congrArg _ (mmaMove_event hsh ha hb hstep hx.symm hgs)), hmem, fun hno => absurd (hq.symm.trans hno) (by simp),
          fun _ _ => ⟨hbec, hcur, hclk, hrank⟩, fun _ hno => absurd (hev.symm.trans hno) (by simp), fun hno => ?_⟩
        rcases hno with hno | hno
        · exact absurd (hq.symm.trans hno) (by simp)
        · exact absurd (hev.symm.trans hno) (by simp)
      | false =>
        obtain ⟨u, hgs, hone⟩ := groupStep_accumulates hrow x.1 x.2.1 x.2.2 hq hev
        obtain ⟨hmem, hbec, hcmd⟩ := stepDone_result (h := h) (sh := sh) (c := { c with poisoned := c.poisoned || x.2.2, sub := 0 }) hone
        exact ⟨_, hexec.trans (congrArg _ (mmaMove_done hsh ha hb hstep hx.symm hgs)), hmem, fun hno => absurd (hq.symm.trans hno) (by simp),
          fun _ hno => absurd (hev.symm.trans hno) (by simp), fun _ _ => hbec, fun _ => hcmd⟩
  · exact congrArg _ ((runCmd_runs hr h _).trans (rowsMove_outside hsh (hrow ▸ hout)))
  · exact congrArg _ ((runCmd_runs hr h _).trans (rowsMove_outside hsh (hrow ▸ hout)))
  · exact congrArg _ ((runCmd_runs hr h _).trans (rowsMove_unset hsh))
  · exact congrArg _ ((runCmd_runs hr h _).trans (rowsMove_unset hsh))
  · exact congrArg _ ((runCmd_runs hr h _).trans (mwbMove_unset hsh))
  · exact ⟨congrArg _ ((runCmd_runs hr h _).trans (rowsMove_row hsh hin)), (updRow_oneRow hrow TRow.clear).rowBecomes rfl rfl rfl, rfl⟩
  · have hread := parityFound_oneRow hrow 2
    have hone := hread.trans (rowEvent_oneRow hread.row (fun _ => ((rowRead r).restore p.ht.toNat).1)
      (if ((rowRead r).restore p.ht.toNat).2 then 1 else 0))
    refine ⟨(congrArg _ ((runCmd_runs hr h _).trans (rowsMove_row hsh hin))).trans ?_, hone.rowBecomes rfl rfl rfl, hone.mem⟩
    simp only [hrow, hread.row, Option.getD_some]
  · have hmove : exec (.mwb h p) s = .next (s.mwbMove h p c) := congrArg Host.Outcome.next (runCmd_runs hr h _)
    rw [hmove]
    refine ⟨fun hno => congrArg _ (mwbMove_unfit hsh hu hno), fun hfits hk => ?_, fun hfits hk hpitch => ?_, fun hfits hk hpitch => ?_⟩
    · rw [mwbMove_checks hsh hu hfits, if_pos hk]
    · rw [mwbMove_checks hsh hu hfits, if_neg (not_not.mpr hk), if_pos hpitch]
    · rw [mwbMove_checks hsh hu hfits, if_neg (not_not.mpr hk), if_neg (Nat.not_lt.mpr hpitch)]
      exact ⟨fun hbad => congrArg _ (if_neg hbad), fun hok => congrArg _ (if_pos hok)⟩
  · exact congrArg _ ((runCmd_runs hr h _).trans (mwbMove_paused hsh hu hbuf hrow hstands))
  · have hread := parityFound_oneRow hrow 2
    refine ⟨congrArg _ ((runCmd_runs hr h _).trans ((mwbMove_row hsh hu hbuf hrow hn).trans (if_neg (by simpa using hgo)))), ?_⟩
    cases p.z with
    | false => exact ⟨hread.rowBecomes rfl rfl rfl, hread.mem⟩
    | true =>
      have hone := hread.trans (updRow_oneRow hread.row TRow.clear)
      exact ⟨hone.rowBecomes rfl rfl rfl, hone.mem⟩
  · exact ⟨_, _, lineFor_charged s _ _, chargeRun_charged _ _ _ _ _, congrArg _ ((runCmd_runs hr h _).trans (mwbMove_word hsh hu hbuf))⟩

end Sys2Proof.Proofs
end

section
/-! SUPPORT. Rounding (R47 to R49, R52): patterns and their magnitudes, one rounding to an integer, one rounding to a format. -/

namespace Sys2Proof.Machine

open Sys2Proof.Claims

/-! ## Rounding to an integer (R48) -/

/-- R48: the mode takes a magnitude of this sign away from zero. -/
abbrev Away (rm : Nat) (neg : Bool) : Prop := (rm = 2 ∧ neg = false) ∨ (rm = 3 ∧ neg = true)

/-- R48: `y` with the integer part `hi` is rounded to `n`. -/
structure RoundsInt {K : Type} [Field K] [LinearOrder K] (rm : Nat) (neg : Bool) (y : K) (hi n : Nat) : Prop where
  le : (hi : K) ≤ y
  lt : y < hi + 1
  near : n = hi ∨ n = hi + 1
  up : n = hi + 1 ↔ (rm = 0 ∧ (2 * (hi : K) + 1 < 2 * y ∨ (2 * (hi : K) + 1 = 2 * y ∧ hi % 2 = 1))) ∨ (Away rm neg ∧ (hi : K) ≠ y)

theorem roundsUp_iff {rm : Nat} (hrm : rm < 4) (neg : Bool) (hi lo k : Nat) : roundsUp rm neg hi lo k = true ↔
    (rm = 0 ∧ (2 ^ k < 2 * lo ∨ (2 ^ k = 2 * lo ∧ hi % 2 = 1))) ∨ (Away rm neg ∧ lo ≠ 0) := by
  have hpos : 0 < 2 ^ k := by positivity
  by_cases hlo : lo = 0
  · simp [roundsUp, hlo]
  · interval_cases rm <;> simp [roundsUp, hlo, Away]

section
variable {K : Type} [Field K] [LinearOrder K] [IsStrictOrderedRing K]

/-- A natural number is its own rounding. -/
theorem roundsInt_natCast (rm : Nat) (neg : Bool) (n : Nat) : RoundsInt rm neg (n : K) n n := by
  refine ⟨le_refl _, lt_add_one _, .inl rfl, ⟨fun h => absurd h (Nat.succ_ne_self n).symm, ?_⟩⟩
  rintro (⟨-, h | ⟨h, -⟩⟩ | ⟨-, h⟩)
  · linarith
  · linarith
  · exact absurd rfl h

/-- R48: rounding m × 2^d, and whether it loses something. -/
theorem roundMag_rounds {rm : Nat} (hrm : rm < 4) (neg : Bool) (m : Nat) (d : Int) :
    ∃ hi, RoundsInt rm neg ((m : K) * 2 ^ d) hi (roundMag rm neg m d).1 ∧ ((roundMag rm neg m d).2 = true ↔ (hi : K) ≠ (m : K) * 2 ^ d) := by
  by_cases hd : 0 ≤ d
  · obtain ⟨n, rfl⟩ := Int.eq_ofNat_of_zero_le hd
    have hval : (m : K) * 2 ^ (n : Int) = ((m * 2 ^ n : Nat) : K) := by push_cast [zpow_natCast]; rfl
    rw [roundMag, if_pos hd, hval, Int.toNat_natCast]
    exact ⟨_, roundsInt_natCast rm neg _, by simp⟩
  · obtain ⟨k, hk⟩ := Int.eq_ofNat_of_zero_le (show 0 ≤ -d by omega)
    have hpow : (0 : K) < 2 ^ k := by positivity
    have hval : (m : K) * 2 ^ d = ((m / 2 ^ k : Nat) : K) + ((m % 2 ^ k : Nat) : K) / 2 ^ k := by
      rw [show d = -(k : Int) by omega, zpow_neg, zpow_natCast, ← div_eq_mul_inv, div_eq_iff hpow.ne', add_mul, div_mul_cancel₀ _ hpow.ne']
      exact_mod_cast Eq.symm <| Nat.div_add_mod' m (2 ^ k)
    have hlo : ((m % 2 ^ k : Nat) : K) < 2 ^ k := by exact_mod_cast Nat.mod_lt m (by positivity)
    have hlo0 : ((m / 2 ^ k : Nat) : K) = (m : K) * 2 ^ d ↔ m % 2 ^ k = 0 := by
      rw [hval, left_eq_add, div_eq_zero_iff, or_iff_left hpow.ne']
      exact Nat.cast_eq_zero
    have hround : (roundMag rm neg m d) =
        (m / 2 ^ k + (if roundsUp rm neg (m / 2 ^ k) (m % 2 ^ k) k then 1 else 0), decide (m % 2 ^ k ≠ 0)) := by
      rw [roundMag, if_neg hd, hk]
      rfl
    refine ⟨m / 2 ^ k, ⟨?_, ?_, ?_, ?_⟩, ?_⟩
    · rw [hval]
      exact le_add_of_nonneg_right (by positivity)
    · rw [hval]
      exact (add_lt_add_iff_left _).mpr ((div_lt_one hpow).mpr hlo)
    · rw [hround]
      dsimp only
      split
      · exact .inr rfl
      · exact .inl rfl
    · have h1 : 2 * ((m / 2 ^ k : Nat) : K) + 1 < 2 * ((m : K) * 2 ^ d) ↔ 2 ^ k < 2 * (m % 2 ^ k) := by
        rw [hval, mul_add, add_lt_add_iff_left, ← mul_div_assoc, one_lt_div hpow]
        exact_mod_cast Iff.rfl
      have h2 : 2 * ((m / 2 ^ k : Nat) : K) + 1 = 2 * ((m : K) * 2 ^ d) ↔ 2 ^ k = 2 * (m % 2 ^ k) := by
        rw [hval, mul_add, add_right_inj, ← mul_div_assoc, eq_div_iff hpow.ne', one_mul]
        exact_mod_cast Iff.rfl
      rw [h1, h2, ne_eq, hlo0, ← ne_eq, ← roundsUp_iff hrm, hround]
      dsimp only
      split <;> simp_all
    · rw [ne_eq, hlo0, hround]
      simp

/-- Rounding loses something exactly where the result is another number. -/
theorem RoundsInt.exact_iff {rm : Nat} {neg : Bool} {y : K} {hi n : Nat} (h : RoundsInt rm neg y hi n) : (hi : K) = y ↔ (n : K) = y := by
  have hlt := h.lt
  rcases h.near with rfl | rfl
  · exact Iff.rfl
  · push_cast
    refine iff_of_false (fun heq => ?_) hlt.ne'
    rcases h.up.mp rfl with ⟨-, hup | ⟨hup, -⟩⟩ | ⟨-, hne⟩
    · linarith
    · linarith
    · exact hne heq

/-- Rounding reaches an even bound only from where the mode carries it there. -/
theorem RoundsInt.lt_iff {rm : Nat} {neg : Bool} {y : K} {hi n N : Nat} (h : RoundsInt rm neg y hi n) (hy : y < (N : K)) (hN : N % 2 = 0) :
    n < N ↔ (if rm = 0 then 2 * y < 2 * N - 1 else if Away rm neg then y ≤ N - 1 else y < (N : K)) := by
  have hle := h.le
  have hhi : hi < N := by exact_mod_cast h.le.trans_lt hy
  have hup := h.up
  have hn : n < N ↔ ¬ (hi + 1 = N ∧ n = hi + 1) := by rcases h.near with rfl | rfl <;> omega
  by_cases hlast : hi + 1 = N
  · have hodd : hi % 2 = 1 := by omega
    have hcast : (N : K) = hi + 1 := by exact_mod_cast hlast.symm
    rw [hn, and_iff_right hlast, hup]
    simp only [hcast, hodd, and_true]
    rcases eq_or_ne rm 0 with rfl | h0
    · have haway : ¬ Away 0 neg := by simp [Away]
      simp only [haway, false_and, or_false, true_and, if_true, ← le_iff_lt_or_eq, not_le]
      constructor <;> intro h1 <;> linarith
    · by_cases ha : Away rm neg
      · simp only [h0, ha, true_and, false_and, false_or, if_true, if_false, ne_eq, not_not]
        exact ⟨fun h1 => by linarith, fun h1 => le_antisymm hle (by linarith)⟩
      · simp only [h0, ha, false_and, or_self, if_false, not_false_eq_true, true_iff]
        exact h.lt
  · have h2 : hi + 2 ≤ N := by omega
    rw [hn]
    have hcast : (hi : K) + 2 ≤ N := by exact_mod_cast h2
    have hlt := h.lt
    simp only [hlast, false_and, not_false_eq_true, true_iff]
    split
    · linarith
    · split <;> linarith

end

end Sys2Proof.Machine
end

section
/-! SUPPORT. Rounding to a format (R47 to R49, R52): the pattern around a magnitude, overflow and tininess. -/

namespace Sys2Proof.Machine

open Sys2Proof.Claims

/-! ## The magnitude of a pattern (R47, R49) -/

/-- The exponent of the last place of a pattern without its sign. -/
def FFmt.ulpExp (f : FFmt) (j : Nat) : Int := j + 1 - (f.bias : Int) - f.fb

/-- R47, R49: `n` units of the `j`-th last place, subnormals being at place 0. -/
theorem magVal_units (f : FFmt) {j n : Nat} (hlow : j = 0 ∨ 2 ^ f.fb ≤ n) (hhigh : n ≤ 2 ^ (f.fb + 1)) :
    magVal f (n + j * 2 ^ f.fb) = (n : ℚ) * 2 ^ f.ulpExp j := by
  have hpow : 0 < 2 ^ f.fb := by positivity
  rw [magVal, FFmt.ulpExp]
  by_cases hsub : n + j * 2 ^ f.fb < 2 ^ f.fb
  · obtain rfl : j = 0 := by
      rcases hlow with h | h
      · exact h
      · omega
    rw [if_pos hsub]
    simp
  · rw [if_neg hsub]
    have hn : 2 ^ f.fb ≤ n := by
      rcases hlow with rfl | h
      · omega
      · exact h
    obtain ⟨d, rfl⟩ := Nat.exists_eq_add_of_le hn
    rw [pow_succ] at hhigh
    have hsum : 2 ^ f.fb + d + j * 2 ^ f.fb = d + (j + 1) * 2 ^ f.fb := by ring
    rcases Nat.lt_or_ge d (2 ^ f.fb) with hd | hd
    · rw [hsum, Nat.add_mul_mod_self_right, Nat.add_mul_div_right _ _ hpow, Nat.mod_eq_of_lt hd, Nat.div_eq_of_lt hd, Nat.zero_add]
      push_cast
      rfl
    · obtain rfl : d = 2 ^ f.fb := by omega
      rw [hsum, show 2 ^ f.fb + (j + 1) * 2 ^ f.fb = (j + 2) * 2 ^ f.fb by ring, Nat.mul_mod_left, Nat.mul_div_cancel _ hpow]
      push_cast
      rw [show ((j : Int) + 2 - f.bias - f.fb) = (j + 1 - f.bias - f.fb) + 1 by ring, zpow_add_one₀ two_ne_zero]
      ring

/-- Every pattern is a number of units of its last place, and so is the next one. -/
theorem exists_units (f : FFmt) (b : Nat) : ∃ j n : Nat, b = n + j * 2 ^ f.fb ∧ (j = 0 ∨ 2 ^ f.fb ≤ n) ∧ n < 2 ^ (f.fb + 1) := by
  have hpow : 0 < 2 ^ f.fb := by positivity
  by_cases hb : b < 2 ^ f.fb
  · exact ⟨0, b, by simp, .inl rfl, hb.trans (Nat.pow_lt_pow_right (by decide) (Nat.lt_succ_self _))⟩
  · have hq : 1 ≤ b / 2 ^ f.fb := (Nat.one_le_div_iff hpow).mpr (Nat.not_lt.mp hb)
    refine ⟨b / 2 ^ f.fb - 1, 2 ^ f.fb + b % 2 ^ f.fb, ?_, .inr (Nat.le_add_right _ _), ?_⟩
    · have hdm := Nat.div_add_mod' b (2 ^ f.fb)
      obtain ⟨c, hc⟩ := Nat.exists_eq_add_of_le hq
      rw [hc] at hdm ⊢
      rw [Nat.add_sub_cancel_left]
      linarith
    · have := Nat.mod_lt b hpow
      rw [pow_succ]
      omega

/-! ## One rounding to a format (R48, R52) -/

theorem toInf_iff {rm : Nat} (hrm : rm < 4) (neg : Bool) : toInf rm neg = true ↔ rm = 0 ∨ Away rm neg := by
  interval_cases rm <;> simp [toInf, Away]

/-- R52: a number is tiny: below the smallest normal number even when rounded with no bound on the exponent. -/
def IsTiny (f : FFmt) (rm : Nat) (neg : Bool) (x : ℝ) : Prop :=
  if rm = 0 then x < 2 ^ (1 - (f.bias : ℤ)) - 2 ^ (1 - (f.bias : ℤ) - f.fb - 2)
  else if Away rm neg then x ≤ 2 ^ (1 - (f.bias : ℤ)) - 2 ^ (1 - (f.bias : ℤ) - f.fb - 1)
  else x < 2 ^ (1 - (f.bias : ℤ))

/-- The magnitude of a pattern as a real number. -/
noncomputable def magReal (f : FFmt) (b : Nat) : ℝ := ((magVal f b : ℚ) : ℝ)

theorem magReal_units (f : FFmt) {j n : Nat} (hlow : j = 0 ∨ 2 ^ f.fb ≤ n) (hhigh : n ≤ 2 ^ (f.fb + 1)) :
    magReal f (n + j * 2 ^ f.fb) = (n : ℝ) * 2 ^ f.ulpExp j := by
  rw [magReal, magVal_units f hlow hhigh]
  push_cast
  rfl

/-- R48, R52: what a rounding delivers, by the two patterns around the number, whether it was inexact and whether it is tiny. -/
theorem roundsTo_of {f : FFmt} {rm : Nat} {neg : Bool} {x : ℝ} {r : Nat × BitVec 6} {b k : Nat} {inexact tiny : Bool} (hrm : rm < 4)
    (hle : magReal f b ≤ x) (hlt : x < magReal f (b + 1)) (hnear : k = b ∨ k = b + 1)
    (hup : k = b + 1 ↔ (rm = 0 ∧ (magReal f b + magReal f (b + 1) < 2 * x ∨ (magReal f b + magReal f (b + 1) = 2 * x ∧ b % 2 = 1)))
      ∨ (Away rm neg ∧ magReal f b ≠ x))
    (hinexact : inexact = true ↔ magReal f k ≠ x) (htiny : tiny = true ↔ IsTiny f rm neg x)
    (hr : r = if f.infBits ≤ k
      then ((if neg then 2 ^ (f.eb + f.fb) else 0) + (if toInf rm neg then f.infBits else f.infBits - 1), fOF ||| fNX)
      else ((if neg then 2 ^ (f.eb + f.fb) else 0) + k, (if inexact then fNX else 0) ||| (if inexact && tiny then fUF else 0))) :
    RoundsTo f rm neg x r := by
  refine ⟨b, k, hle, hlt, hnear, hup, fun hover => ?_, fun hfin => ?_⟩
  · rw [hr, if_pos hover]
    exact Prod.ext (congrArg (_ + ·) (if_congr (toInf_iff hrm neg) rfl rfl)) rfl
  · rw [hr, if_neg (Nat.not_le.mpr hfin)]
    exact Prod.ext rfl (congrArg₂ (· ||| ·) (if_congr hinexact rfl rfl)
      (if_congr ((Bool.and_eq_true _ _).to_iff.trans (and_congr hinexact htiny)) rfl rfl))

/-! ## `roundNum` -/

theorem bitLen_bounds {m : Nat} (hm : 0 < m) : 2 ^ (bitLen m - 1) ≤ m ∧ m < 2 ^ bitLen m ∧ 0 < bitLen m := by
  rw [bitLen, if_neg hm.ne', Nat.add_sub_cancel]
  exact ⟨Nat.log2_self_le hm.ne', Nat.lt_log2_self, Nat.succ_pos _⟩

/-- A number lies between the power of two of its top bit and the next one. -/
theorem top_bounds {m : Nat} (hm : 0 < m) (e : Int) :
    (2 : ℝ) ^ ((bitLen m : Int) - 1 + e) ≤ (m : ℝ) * 2 ^ e ∧ (m : ℝ) * 2 ^ e < 2 ^ ((bitLen m : Int) - 1 + e + 1) := by
  obtain ⟨hlow, hhigh, hpos⟩ := bitLen_bounds hm
  have h2 : (0 : ℝ) < 2 ^ e := by positivity
  rw [show ((bitLen m : Int) - 1 + e + 1) = (bitLen m : Int) + e by ring, zpow_add₀ two_ne_zero, zpow_add₀ two_ne_zero,
    show ((bitLen m : Int) - 1) = ((bitLen m - 1 : Nat) : Int) by omega, zpow_natCast, zpow_natCast, mul_le_mul_iff_left₀ h2,
    mul_lt_mul_iff_left₀ h2]
  exact ⟨by exact_mod_cast hlow, by exact_mod_cast hhigh⟩

/-- A number in units of 2^q. -/
theorem in_units (m : Nat) (e q : Int) : (m : ℝ) * 2 ^ e = (m : ℝ) * 2 ^ (e - q) * 2 ^ q := by
  rw [mul_assoc, ← zpow_add₀ two_ne_zero, Int.sub_add_cancel]

/-- R52: `roundNum` judges tininess as R52 says. -/
theorem tiny_iff (f : FFmt) {rm : Nat} (hrm : rm < 4) (neg : Bool) {m : Nat} (hm : 0 < m) (e : Int) :
    let top : Int := (bitLen m : Int) - 1 + e
    let emin : Int := 1 - (f.bias : Int)
    (top < emin && (roundMag rm neg m (e - (top - f.fb))).1 * 2 ^ (top - emin + 1).toNat < 2 ^ (f.fb + 1) || top + 1 < emin) = true ↔
      IsTiny f rm neg ((m : ℝ) * 2 ^ e) := by
  intro top emin
  obtain ⟨hlow, hhigh⟩ := top_bounds hm e
  have hunder : (0 : ℝ) < 2 ^ (emin - f.fb - 2) := by positivity
  have hunder1 : (0 : ℝ) < 2 ^ (emin - f.fb - 1) := by positivity
  rcases lt_trichotomy (top + 1) emin with hlt | heq | hgt
  · have hx : (m : ℝ) * 2 ^ e < 2 ^ (emin - 1) := hhigh.trans_le (zpow_le_zpow_right₀ one_le_two (by omega))
    have hdouble : (2 : ℝ) ^ emin = 2 * 2 ^ (emin - 1) := by rw [← zpow_one_add₀ two_ne_zero]; congr 1; ring
    have h2 : (2 : ℝ) ^ (emin - f.fb - 2) ≤ 2 ^ (emin - 1) := zpow_le_zpow_right₀ one_le_two (by omega)
    have h1 : (2 : ℝ) ^ (emin - f.fb - 1) ≤ 2 ^ (emin - 1) := zpow_le_zpow_right₀ one_le_two (by omega)
    refine iff_of_true (by simp [hlt]) ?_
    unfold IsTiny
    split
    · linarith
    · split <;> linarith
  · obtain ⟨hi, hround, -⟩ := roundMag_rounds (K := ℝ) hrm neg m (e - (top - f.fb))
    have hq := in_units m e (top - f.fb)
    have hP : (0 : ℝ) < 2 ^ (top - f.fb) := by positivity
    have hN : (((2 ^ (f.fb + 1) : Nat)) : ℝ) * 2 ^ (top - f.fb) = 2 ^ emin := by
      push_cast
      rw [← zpow_natCast, ← zpow_add₀ two_ne_zero]
      congr 1
      push_cast
      omega
    have hhalf : (2 : ℝ) ^ (top - f.fb) = 2 * 2 ^ (emin - f.fb - 2) := by
      rw [← zpow_one_add₀ two_ne_zero]
      congr 1
      omega
    have hy : (m : ℝ) * 2 ^ (e - (top - f.fb)) < ((2 ^ (f.fb + 1) : Nat) : ℝ) := by
      rw [← mul_lt_mul_iff_left₀ hP, ← hq, hN, ← heq]
      exact hhigh
    have hbelow := hround.lt_iff hy (by rw [pow_succ]; omega)
    have hbool : (top < emin && (roundMag rm neg m (e - (top - f.fb))).1 * 2 ^ (top - emin + 1).toNat < 2 ^ (f.fb + 1) || top + 1 < emin)
        = true ↔ (roundMag rm neg m (e - (top - f.fb))).1 < 2 ^ (f.fb + 1) := by
      have h1 : top < emin := by omega
      have h2 : (top - emin + 1).toNat = 0 := by omega
      simp [h1, h2, heq]
    rw [hbool, hbelow]
    unfold IsTiny
    have hscale : ∀ a b : ℝ, a < b ↔ a * 2 ^ (top - f.fb) < b * 2 ^ (top - f.fb) := fun a b => (mul_lt_mul_iff_left₀ hP).symm
    have hscale' : ∀ a b : ℝ, a ≤ b ↔ a * 2 ^ (top - f.fb) ≤ b * 2 ^ (top - f.fb) := fun a b => (mul_le_mul_iff_left₀ hP).symm
    split
    · rw [hscale, mul_assoc, ← hq, sub_mul, mul_assoc, hN, one_mul, hhalf]
      constructor <;> intro h <;> linarith
    · split
      · rw [hscale', ← hq, sub_mul, hN, one_mul, show top - (f.fb : Int) = emin - f.fb - 1 by omega]
      · rw [hscale, ← hq, hN]
  · have hx : (2 : ℝ) ^ emin ≤ (m : ℝ) * 2 ^ e := (zpow_le_zpow_right₀ one_le_two (by omega)).trans hlow
    have h1 : ¬ top < emin := by omega
    have h2 : ¬ top + 1 < emin := by omega
    refine iff_of_false (by simp [h1, h2]) ?_
    unfold IsTiny
    split
    · exact not_lt.mpr (by linarith)
    · split
      · exact not_le.mpr (by linarith)
      · exact not_lt.mpr hx

/-- R48, R52: `roundNum` rounds once. -/
theorem roundNum_roundsTo {f : FFmt} (hfb : 1 ≤ f.fb) {rm : Nat} (hrm : rm < 4) (neg : Bool) {m : Nat} (hm : 0 < m) (e : Int) :
    RoundsTo f rm neg ((m : ℝ) * 2 ^ e) (f.roundNum rm neg m e) := by
  obtain ⟨hlow, hhigh⟩ := top_bounds hm e
  have htiny := tiny_iff f hrm neg hm e
  revert htiny
  generalize htop : (bitLen m : Int) - 1 + e = top at hlow hhigh
  generalize hq : max top (1 - (f.bias : Int)) - f.fb = q
  intro htiny
  obtain ⟨hi, hround, hlost⟩ := roundMag_rounds (K := ℝ) hrm neg m (e - q)
  have hunits := in_units m e q
  generalize (m : ℝ) * 2 ^ (e - q) = y at hround hlost hunits
  have hP : (0 : ℝ) < 2 ^ q := by positivity
  obtain ⟨j, hj⟩ := Int.eq_ofNat_of_zero_le (show 0 ≤ q + f.fb + f.bias - 1 by omega)
  have hulp : f.ulpExp j = q := by rw [FFmt.ulpExp]; omega
  generalize hn : (roundMag rm neg m (e - q)).1 = n at hround
  have hhi : hi < 2 ^ (f.fb + 1) := by
    have : y < ((2 ^ (f.fb + 1) : Nat) : ℝ) := by
      rw [← mul_lt_mul_iff_left₀ hP, ← hunits]
      refine hhigh.trans_le ?_
      push_cast
      rw [← zpow_natCast, ← zpow_add₀ two_ne_zero]
      exact zpow_le_zpow_right₀ one_le_two (by push_cast; omega)
    exact_mod_cast hround.le.trans_lt this
  have hnorm : j = 0 ∨ 2 ^ f.fb ≤ hi := by
    refine or_iff_not_imp_left.mpr fun hj0 => ?_
    have : ((2 ^ f.fb : Nat) : ℝ) ≤ y := by
      rw [← mul_le_mul_iff_left₀ hP, ← hunits]
      refine le_trans ?_ hlow
      push_cast
      rw [← zpow_natCast, ← zpow_add₀ two_ne_zero]
      exact zpow_le_zpow_right₀ one_le_two (by omega)
    exact Nat.lt_succ_iff.mp (by exact_mod_cast this.trans_lt hround.lt)
  have hnear := hround.near
  have hnnorm : j = 0 ∨ 2 ^ f.fb ≤ n := hnorm.imp_right fun h => by omega
  have hvhi : magReal f (hi + j * 2 ^ f.fb) = hi * 2 ^ q := by rw [magReal_units f hnorm hhi.le, hulp]
  have hvnext : magReal f (hi + j * 2 ^ f.fb + 1) = (hi + 1) * 2 ^ q := by
    rw [add_right_comm, magReal_units f (hnorm.imp_right fun h => by omega) (by omega), hulp]
    push_cast
    rfl
  have hvn : magReal f (n + j * 2 ^ f.fb) = n * 2 ^ q := by rw [magReal_units f hnnorm (by omega), hulp]
  have hbits : (if n < 2 ^ f.fb then n else (q + f.fb + f.bias).toNat * 2 ^ f.fb + (n - 2 ^ f.fb)) = n + j * 2 ^ f.fb := by
    split
    · next hlt =>
      obtain rfl : j = 0 := hnnorm.resolve_right (by omega)
      simp
    · next hge =>
      obtain ⟨d, rfl⟩ := Nat.exists_eq_add_of_le (Nat.not_lt.mp hge)
      rw [show (q + f.fb + f.bias).toNat = j + 1 by omega, Nat.add_sub_cancel_left]
      ring
  have heven : (hi + j * 2 ^ f.fb) % 2 = hi % 2 := by
    obtain ⟨c, hc⟩ := Nat.exists_eq_add_of_le' hfb
    rw [hc, pow_succ, ← mul_assoc, Nat.add_mul_mod_self_right]
  refine roundsTo_of (b := hi + j * 2 ^ f.fb) (k := n + j * 2 ^ f.fb) (inexact := (roundMag rm neg m (e - q)).2) hrm ?_ ?_ ?_ ?_ ?_ htiny ?_
  · rw [hvhi, hunits, mul_le_mul_iff_left₀ hP]
    exact hround.le
  · rw [hvnext, hunits, mul_lt_mul_iff_left₀ hP]
    exact hround.lt
  · omega
  · rw [hvhi, hvnext, heven, hunits]
    have hk : n + j * 2 ^ f.fb = hi + j * 2 ^ f.fb + 1 ↔ n = hi + 1 := by omega
    have hsum : (hi : ℝ) * 2 ^ q + (hi + 1) * 2 ^ q = (2 * hi + 1) * 2 ^ q := by ring
    rw [hk, hround.up, hsum, ← mul_assoc 2 y, mul_lt_mul_iff_left₀ hP, mul_left_inj' hP.ne', ne_eq, ne_eq, mul_left_inj' hP.ne']
  · rw [hlost, hvn, hunits, ne_eq, ne_eq, mul_left_inj' hP.ne', hround.exact_iff]
  · rw [FFmt.roundNum]
    simp only [htop, hq, hn, hbits]

end Sys2Proof.Machine
end

section
/-! SUPPORT. Float elements (R47 to R52, R171, R172): what a pattern stands for, exact sums and products, the order of floats. -/

namespace Sys2Proof.Machine

open Sys2Proof.Claims

/-! ## The three formats (R47) -/

/-- A statement about the formats of the float types is one about the three of them. -/
theorem fmtOf_cases {P : FFmt → Prop} {ty : Nat} (h : tyFloat ty = true) (h16 : P ⟨5, 10⟩) (hb : P ⟨8, 7⟩) (h32 : P ⟨8, 23⟩) : P (fmtOf ty) := by
  simp only [tyFloat, Bool.and_eq_true, decide_eq_true_eq] at h
  obtain ⟨hlow, hhigh⟩ := h
  interval_cases ty
  · exact h16
  · exact hb
  · exact h32

theorem fb_bounds {ty : Nat} (h : tyFloat ty = true) : 1 ≤ (fmtOf ty).fb ∧ (fmtOf ty).fb ≤ 23 :=
  fmtOf_cases (P := fun f => 1 ≤ f.fb ∧ f.fb ≤ 23) h (by decide) (by decide) (by decide)

/-! ## Reading a pattern (R47, R49) -/

/-- A pattern by its sign, exponent and fraction. -/
theorem decode_parts (f : FFmt) {s ex fr : Nat} (hs : s < 2) (hex : ex < 2 ^ f.eb) (hfr : fr < 2 ^ f.fb) :
    f.decode (fr + ex * 2 ^ f.fb + s * 2 ^ (f.eb + f.fb)) =
      if ex = 2 ^ f.eb - 1 then (if fr = 0 then .inf (s = 1) else .nan (fr < 2 ^ (f.fb - 1)))
      else if ex = 0 then .num (s = 1) fr (1 - (f.bias : Int) - f.fb)
      else .num (s = 1) (fr + 2 ^ f.fb) ((ex : Int) - f.bias - f.fb) := by
  have hF : 0 < 2 ^ f.fb := by positivity
  have hE : 0 < 2 ^ f.eb := by positivity
  have hx : fr + ex * 2 ^ f.fb + s * 2 ^ (f.eb + f.fb) = fr + (ex + s * 2 ^ f.eb) * 2 ^ f.fb := by rw [pow_add]; ring
  have h1 : (fr + (ex + s * 2 ^ f.eb) * 2 ^ f.fb) % 2 ^ f.fb = fr := by rw [Nat.add_mul_mod_self_right, Nat.mod_eq_of_lt hfr]
  have h2 : (fr + (ex + s * 2 ^ f.eb) * 2 ^ f.fb) / 2 ^ f.fb = ex + s * 2 ^ f.eb := by
    rw [Nat.add_mul_div_right _ _ hF, Nat.div_eq_of_lt hfr, Nat.zero_add]
  have h3 : (fr + (ex + s * 2 ^ f.eb) * 2 ^ f.fb) / 2 ^ (f.eb + f.fb) % 2 = s := by
    rw [show 2 ^ (f.eb + f.fb) = 2 ^ f.fb * 2 ^ f.eb by rw [pow_add, mul_comm], ← Nat.div_div_eq_div_mul, h2,
      Nat.add_mul_div_right _ _ hE, Nat.div_eq_of_lt hex, Nat.zero_add, Nat.mod_eq_of_lt hs]
  rw [hx, FFmt.decode, h1, h2, h3, Nat.add_mul_mod_self_right, Nat.mod_eq_of_lt hex]

/-- The parts of a pattern. -/
theorem exists_parts (f : FFmt) {x : Nat} (hx : x < 2 ^ f.width) : ∃ s ex fr, s < 2 ∧ ex < 2 ^ f.eb ∧ fr < 2 ^ f.fb ∧
    x = fr + ex * 2 ^ f.fb + s * 2 ^ (f.eb + f.fb) ∧ x % 2 ^ (f.eb + f.fb) = fr + ex * 2 ^ f.fb ∧ (2 ^ (f.eb + f.fb) ≤ x ↔ s = 1) := by
  have hF : 0 < 2 ^ f.fb := by positivity
  have hEF : 0 < 2 ^ (f.eb + f.fb) := by positivity
  have hmod : x % 2 ^ (f.eb + f.fb) = x % 2 ^ f.fb + x / 2 ^ f.fb % 2 ^ f.eb * 2 ^ f.fb := by
    rw [show 2 ^ (f.eb + f.fb) = 2 ^ f.fb * 2 ^ f.eb by rw [pow_add, mul_comm], Nat.mod_mul, mul_comm (2 ^ f.fb) (_ % _)]
  have hs : x / 2 ^ (f.eb + f.fb) < 2 := by
    rw [Nat.div_lt_iff_lt_mul hEF, ← pow_succ']
    rwa [FFmt.width, show 1 + f.eb + f.fb = f.eb + f.fb + 1 by ring] at hx
  refine ⟨x / 2 ^ (f.eb + f.fb), x / 2 ^ f.fb % 2 ^ f.eb, x % 2 ^ f.fb, hs, Nat.mod_lt _ (by positivity), Nat.mod_lt _ hF, ?_, hmod, ?_⟩
  · rw [← hmod, Nat.mod_add_div']
  · rw [← Nat.one_le_div_iff hEF]
    omega

/-- The magnitude of a pattern by its exponent and fraction. -/
theorem magVal_parts (f : FFmt) {ex fr : Nat} (hfr : fr < 2 ^ f.fb) : magVal f (fr + ex * 2 ^ f.fb) =
    if ex = 0 then (fr : ℚ) * 2 ^ (1 - (f.bias : ℤ) - f.fb) else ((fr + 2 ^ f.fb : ℕ) : ℚ) * 2 ^ ((ex : ℤ) - f.bias - f.fb) := by
  have hF : 0 < 2 ^ f.fb := by positivity
  rw [magVal]
  cases ex with
  | zero => simp [hfr]
  | succ n =>
    rw [if_neg (by rw [Nat.add_mul]; omega), if_neg (Nat.succ_ne_zero n), Nat.add_mul_mod_self_right, Nat.mod_eq_of_lt hfr,
      Nat.add_mul_div_right _ _ hF, Nat.div_eq_of_lt hfr, Nat.zero_add, Nat.add_comm (2 ^ f.fb)]

theorem decode_spec (f : FFmt) {x : Nat} (hx : x < 2 ^ f.width) :
    let b := x % 2 ^ (f.eb + f.fb)
    let neg := decide (2 ^ (f.eb + f.fb) ≤ x)
    (b < f.infBits → ∃ m e, f.decode x = .num neg m e ∧ (m : ℚ) * 2 ^ e = magVal f b)
      ∧ (b = f.infBits → f.decode x = .inf neg) ∧ (f.infBits < b → f.decode x = .nan (b < f.nanBits)) := by
  obtain ⟨s, ex, fr, hs, hex, hfr, rfl, hmod, hneg⟩ := exists_parts f hx
  have hF : 0 < 2 ^ f.fb := by positivity
  simp only [hmod, decide_eq_decide.mpr hneg, decode_parts f hs hex hfr, FFmt.nanBits]
  rcases Nat.lt_or_ge ex (2 ^ f.eb - 1) with hlt | hge
  · have hb : fr + ex * 2 ^ f.fb < f.infBits := by
      have := Nat.mul_le_mul_right (2 ^ f.fb) (Nat.succ_le_of_lt hlt)
      rw [FFmt.infBits]
      rw [Nat.succ_mul] at this
      omega
    refine ⟨fun _ => ?_, fun h => absurd h hb.ne, fun h => absurd h (Nat.not_lt.mpr hb.le)⟩
    rw [if_neg hlt.ne, magVal_parts f hfr]
    split <;> exact ⟨_, _, rfl, rfl⟩
  · obtain rfl : ex = 2 ^ f.eb - 1 := by omega
    rw [if_pos rfl, ← FFmt.infBits]
    refine ⟨fun h => absurd h (by omega), fun h => if_pos (by omega), fun h => ?_⟩
    rw [if_neg (by omega)]
    congr 1
    rw [decide_eq_decide]
    omega

/-! ## Delivering a result (R48, R50, R52) -/

theorem encode_num {f : FFmt} (hfb : 1 ≤ f.fb) {rm : Nat} (hrm : rm < 4) (neg : Bool) {m : Nat} (hm : 0 < m) (e : Int) :
    RoundsTo f rm neg ((m : ℝ) * 2 ^ e) (f.encode rm (.num neg m e)) := by
  rw [FFmt.encode, if_neg hm.ne']
  exact roundNum_roundsTo hfb hrm neg hm e

theorem encode_zero (f : FFmt) (rm : Nat) (neg : Bool) (e : Int) :
    f.encode rm (.num neg 0 e) = (if neg then 2 ^ (f.eb + f.fb) else 0, 0) := by
  rw [FFmt.encode, if_pos rfl]

theorem floatFormat : FloatFormat := by
  intro ty h
  obtain ⟨hfb, -⟩ := fb_bounds h
  refine ⟨fun x hx => decode_spec _ hx, fun rm neg m e hrm hm => encode_num hfb hrm neg hm e,
    fun rm neg e sig v => ⟨encode_zero _ rm neg e, rfl, rfl, rfl, rfl⟩, ?_, ?_⟩ <;>
    simp only [tyFloat, Bool.and_eq_true, decide_eq_true_eq] at h <;> obtain ⟨hlow, hhigh⟩ := h <;> interval_cases ty <;> rfl

/-! ## Exact sums and products (R50, R51, R171) -/

theorem sgnd_natAbs (t : Int) : sgnd (t < 0) t.natAbs = t := by
  by_cases h : t < 0
  · simp only [sgnd, h, decide_true, if_true]
    omega
  · simp only [sgnd, h, decide_false, Bool.false_eq_true, if_false]
    omega

/-- A number in units of a lower power of two. -/
theorem numVal_units (n : Bool) (m : Nat) {e e' : Int} (h : e' ≤ e) : numVal n m e = ((sgnd n m * 2 ^ (e - e').toNat : Int) : ℚ) * 2 ^ e' := by
  rw [numVal]
  push_cast
  rw [← zpow_natCast, Int.toNat_of_nonneg (by omega), mul_assoc, ← zpow_add₀ two_ne_zero, Int.sub_add_cancel]

/-- R50, R51: the exact sum of two numbers, and its sign. -/
theorem addNum_spec (rm : Nat) (n1 n2 : Bool) (m1 m2 : Nat) (e1 e2 : Int) :
    let sum := numVal n1 m1 e1 + numVal n2 m2 e2
    ∃ n m e, addNum rm n1 m1 e1 n2 m2 e2 = .num n m e ∧ numVal n m e = sum
      ∧ (sum = 0 → m = 0 ∧ n = if n1 = n2 then n1 else decide (rm = 3)) ∧ (sum ≠ 0 → n = decide (sum < 0)) := by
  intro sum
  have hP : (0 : ℚ) < 2 ^ min e1 e2 := by positivity
  generalize ht : sgnd n1 m1 * 2 ^ (e1 - min e1 e2).toNat + sgnd n2 m2 * 2 ^ (e2 - min e1 e2).toNat = t
  have hsum : sum = (t : ℚ) * 2 ^ min e1 e2 := by
    simp only [sum, numVal_units n1 m1 (min_le_left e1 e2), numVal_units n2 m2 (min_le_right e1 e2), ← add_mul, ← ht]
    push_cast
    rfl
  have hzero : sum = 0 ↔ t = 0 := by rw [hsum, mul_eq_zero, or_iff_left hP.ne']; exact Int.cast_eq_zero
  have hneg : sum < 0 ↔ t < 0 := by
    rw [hsum, ← zero_mul (2 ^ min e1 e2 : ℚ), mul_lt_mul_iff_left₀ hP]
    exact Int.cast_lt_zero
  simp only [addNum, ht]
  by_cases h0 : t = 0
  · rw [if_pos h0]
    refine ⟨_, _, _, rfl, ?_, fun _ => ⟨rfl, rfl⟩, fun h => absurd (hzero.mpr h0) h⟩
    rw [hzero.mpr h0, numVal]
    split <;> simp [sgnd]
  · rw [if_neg h0]
    refine ⟨_, _, _, rfl, ?_, fun h => absurd (hzero.mp h) h0, fun _ => decide_eq_decide.mpr hneg.symm⟩
    rw [numVal, sgnd_natAbs, hsum]

theorem sgnd_mul (n1 n2 : Bool) (m1 m2 : Nat) : sgnd (n1 ^^ n2) (m1 * m2) = sgnd n1 m1 * sgnd n2 m2 := by
  cases n1 <;> cases n2 <;> simp [sgnd]

theorem numVal_mul (n1 n2 : Bool) (m1 m2 : Nat) (e1 e2 : Int) :
    numVal (n1 ^^ n2) (m1 * m2) (e1 + e2) = numVal n1 m1 e1 * numVal n2 m2 e2 := by
  rw [numVal, numVal, numVal, sgnd_mul, zpow_add₀ two_ne_zero]
  push_cast
  ring

theorem fAdd_nan (rm : Nat) {a b : FV} (h : a.isNan = true ∨ b.isNan = true) : fAdd rm a b = (.nan false, a.sig || b.sig) := by
  cases a <;> cases b <;> simp_all [fAdd, FV.isNan, FV.sig]

theorem fMul_nan {a b : FV} (h : a.isNan = true ∨ b.isNan = true) : fMul a b = (.nan false, a.sig || b.sig) := by
  cases a <;> cases b <;> simp_all [fMul, FV.isNan, FV.sig]

/-- A product is a NaN only as a quiet one. -/
theorem fMul_sig (a b : FV) : (fMul a b).1.sig = false := by
  cases a with
  | nan s => rw [fMul_nan (.inl rfl), FV.sig]
  | inf n =>
    cases b with
    | nan s => rfl
    | inf k => rfl
    | num k m e => by_cases hm : m = 0 <;> simp [fMul, hm, FV.sig]
  | num n m e =>
    cases b with
    | nan s => rfl
    | inf k => by_cases hm : m = 0 <;> simp [fMul, hm, FV.sig]
    | num k m' e' => rfl

theorem fFma_nan (rm : Nat) {a b c : FV} (h : a.isNan = true ∨ b.isNan = true ∨ c.isNan = true) :
    fFma rm a b c = (.nan false, (fMul a b).2 || c.sig) := by
  have hnan : (fMul a b).1.isNan = true ∨ c.isNan = true := by
    rcases h with h | h | h
    · exact .inl (by rw [fMul_nan (.inl h)]; rfl)
    · exact .inl (by rw [fMul_nan (.inr h)]; rfl)
    · exact .inr h
  simp only [fFma, fAdd_nan rm hnan, fMul_sig, Bool.false_or]

theorem floatArithmetic : FloatArithmetic := by
  refine ⟨fun rm n1 n2 m1 m2 e1 e2 => ⟨?_, ?_⟩, fun rm n1 n2 n3 m1 m2 m3 e1 e2 e3 => ?_,
    fun rm a b c => ⟨fun h => ⟨fAdd_nan rm h, fMul_nan h⟩, fFma_nan rm⟩,
    fun rm n k m e => ⟨rfl, rfl, rfl, rfl, rfl, rfl⟩, fun rm a b c _ _ _ => rfl, fun n m e s => ⟨rfl, rfl, rfl⟩⟩
  · obtain ⟨n, m, e, heq, hval, hzero, hsign⟩ := addNum_spec rm n1 n2 m1 m2 e1 e2
    exact ⟨n, m, e, congrArg (·, false) heq, hval, hzero, hsign⟩
  · exact ⟨_, _, rfl, numVal_mul n1 n2 m1 m2 e1 e2⟩
  · obtain ⟨n, m, e, heq, hval, hzero, hsign⟩ := addNum_spec rm (n1 ^^ n2) n3 (m1 * m2) m3 (e1 + e2) e3
    rw [numVal_mul] at hval hzero hsign
    refine ⟨n, m, e, congrArg (·, false) heq, hval, fun h => ⟨(hzero h).1, (hzero h).2.trans ?_⟩, hsign⟩
    split
    · next heq => exact heq
    · rfl

/-! ## The order of floats (R172) -/

theorem lt_num (n1 n2 : Bool) (m1 m2 : Nat) (e1 e2 : Int) :
    (FV.num n1 m1 e1).lt (.num n2 m2 e2) = true ↔ numVal n1 m1 e1 < numVal n2 m2 e2 := by
  have hP : (0 : ℚ) < 2 ^ min e1 e2 := by positivity
  rw [numVal_units n1 m1 (min_le_left e1 e2), numVal_units n2 m2 (min_le_right e1 e2), mul_lt_mul_iff_left₀ hP, Int.cast_lt]
  exact decide_eq_true_iff

/-- R172: −0 comes below +0. -/
theorem ltz_num (n1 n2 : Bool) (m1 m2 : Nat) (e1 e2 : Int) : (FV.num n1 m1 e1).ltz (.num n2 m2 e2) = true ↔
    numVal n1 m1 e1 < numVal n2 m2 e2 ∨ (m1 = 0 ∧ m2 = 0 ∧ n1 = true ∧ n2 = false) := by
  rw [FV.ltz, Bool.or_eq_true, lt_num]
  cases m1 <;> cases m2 <;> simp [FV.zeroSign]

theorem ltz_asymm {a b : FV} (h : a.ltz b = true) : b.ltz a = false := by
  cases a with
  | nan s => simp [FV.ltz, FV.lt, FV.zeroSign] at h
  | inf n =>
    cases b with
    | nan s => simp [FV.ltz, FV.lt, FV.zeroSign] at h
    | inf k => revert h; cases n <;> cases k <;> decide
    | num k m e => cases n <;> cases m <;> simp_all [FV.ltz, FV.lt, FV.zeroSign]
  | num n m e =>
    cases b with
    | nan s => simp [FV.ltz, FV.lt, FV.zeroSign] at h
    | inf k => cases k <;> cases m <;> simp_all [FV.ltz, FV.lt, FV.zeroSign]
    | num k m' e' =>
      rw [Bool.eq_false_iff, ne_eq, ltz_num]
      rw [ltz_num] at h
      rcases h with h | ⟨rfl, rfl, rfl, rfl⟩
      · rintro (hlt | ⟨rfl, rfl, -, -⟩)
        · exact lt_asymm h hlt
        · simp [numVal, sgnd] at h
      · simp [numVal, sgnd]

theorem ltz_self (a : FV) : a.ltz a = false := by
  by_contra h
  exact h (ltz_asymm (by simpa using h))

/-- R172: VMIN and VMAX under an integer type. -/
theorem minMax_int {x : Ev} (h : tyInt x.ty = true) (max : Bool) (a b c : Nat) : minMax max x a b c =
    (if (intOf x.ty a < intOf x.ty b) = (max = true) then b else a, 0) := if_pos h

/-- R172: VMIN and VMAX of two floats, NaNs apart. -/
theorem minMax_numbers {x : Ev} (h : tyInt x.ty = false) (max : Bool) {a b : Nat} (c : Nat)
    (ha : ((fmtOf x.ty).decode a).isNan = false) (hb : ((fmtOf x.ty).decode b).isNan = false) :
    (minMax max x a b c).1 = (if max then (if ((fmtOf x.ty).decode a).ltz ((fmtOf x.ty).decode b) then b else a)
      else (if ((fmtOf x.ty).decode b).ltz ((fmtOf x.ty).decode a) then b else a)) := by
  simp [minMax, h, ha, hb]

theorem minMaxRules : MinMaxRules := by
  refine ⟨fun n1 n2 m1 m2 e1 e2 => ⟨ltz_num n1 n2 m1 m2 e1 e2, ?_, ?_, ?_⟩, fun max x a b c => ⟨fun h => ?_,
    fun h => ⟨?_, fun ha hb => ?_, fun ha hb => ?_, fun ha hb => ?_, fun ha hb => ?_⟩⟩⟩
  · simp [FV.ltz, FV.lt, FV.zeroSign]
  · cases m1 <;> simp [FV.ltz, FV.lt, FV.zeroSign]
  · simp [FV.ltz, FV.lt, FV.zeroSign]
  · rw [minMax_int h]
    refine ⟨rfl, ?_, ?_⟩
    · dsimp only
      split
      · exact .inr rfl
      · exact .inl rfl
    · by_cases hlt : intOf x.ty a < intOf x.ty b <;> cases max <;> simp [hlt] <;> omega
  · simp only [minMax, h]
    cases ((fmtOf x.ty).decode a).isNan <;> cases ((fmtOf x.ty).decode b).isNan <;> simp
  · simp [minMax, h, ha, hb]
  · simp [minMax, h, ha, hb]
  · simp [minMax, h, ha, hb]
  · rw [minMax_numbers h max c ha hb]
    cases max with
    | false =>
      cases hlt : ((fmtOf x.ty).decode b).ltz ((fmtOf x.ty).decode a) with
      | true => exact ⟨.inr rfl, ltz_asymm hlt, ltz_self _⟩
      | false => exact ⟨.inl rfl, ltz_self _, hlt⟩
    | true =>
      cases hlt : ((fmtOf x.ty).decode a).ltz ((fmtOf x.ty).decode b) with
      | true => exact ⟨.inr rfl, ltz_asymm hlt, ltz_self _⟩
      | false => exact ⟨.inl rfl, ltz_self _, hlt⟩

/-! ## Elementwise instructions (R162, R163, R171) -/

theorem withB_queue {s : State} {x : Ev} {q : BitVec 2} {e : QEnt} {r : List QEnt}
    (h : popHead s.pkg.time.clk (s.cell.qs.dq q) = some (e, r)) (go : State → (Nat → Nat) → Bool → State) :
    s.withB x (.queue q) go = go (s.updQs fun k => k.setDq q r) (fun _ => e.v.toNat % 2 ^ x.w) e.psn := by
  simp [State.withB, h]

/-- R171: an instruction of two sources is the function of its elements under the mask. -/
theorem elementwise_of_exec {i : Instr} {s : State} {m : MReg} {d a : VReg} {b : VB} {lat : Nat} {useD : Bool}
    {f g : Ev → Nat → Nat → Nat → Nat × BitVec 6} (h : exec i s = .next (s.elementwise i m d a b lat useD f))
    (hfg : ∀ x a b c, f x a b c = g x a b c) : Elementwise i s m d a b lat useD g := by
  obtain rfl : f = g := by funext x a b c; exact hfg x a b c
  intro hl
  have hgo := h.trans (congrArg _ (esLegalOr_on hl _))
  cases b with
  | reg v => exact esWrites_of_exec hgo
  | queue q => exact fun e r hq => esPops_of_exec (hgo.trans (congrArg _ (withB_queue hq _)))

/-- R171: one of one source. -/
theorem elementwise1_of_exec {i : Instr} {s : State} {m : MReg} {d a : VReg} {lat : Nat} {f : Ev → Nat → Nat × BitVec 6}
    (h : exec i s = .next (s.elementwise1 i m d a lat f)) : Elementwise1 i s m d a lat f := by
  intro hl
  exact esWrites_of_exec (h.trans (congrArg _ (esLegalOr_on hl _)))

end Sys2Proof.Machine

namespace Sys2Proof.Proofs

open Sys2Proof.Machine Sys2Proof.Claims

/-- Settles O42: every form is `elementwise` with its function; float results are exact values rounded once. -/
theorem esArithmeticResult : Obligations.EsArithmeticResult := by
  unfold Obligations.EsArithmeticResult
  refine ⟨fun s o => ⟨elementwise_of_exec rfl fun x a b c => rfl, elementwise_of_exec rfl fun x a b c => rfl,
      elementwise_of_exec rfl fun x a b c => rfl⟩,
    fun s o => ⟨elementwise_of_exec rfl fun x a b c => rfl, elementwise_of_exec rfl fun x a b c => ?_,
      elementwise_of_exec rfl fun x a b c => rfl, elementwise_of_exec rfl fun x a b c => rfl⟩,
    floatFormat, floatArithmetic, minMaxRules, fun s o => ⟨elementwise1_of_exec rfl, elementwise1_of_exec rfl⟩⟩
  rw [fused, Int.sub_eq_add_neg]
  rfl

end Sys2Proof.Proofs
end

section
/-! SUPPORT. Special functions (R174): a number told apart from 1/a or 1/√a by no pattern rounds alike; their special values. -/

namespace Sys2Proof.Machine

open Sys2Proof.Claims

/-! ## Numbers between the same neighbours of a fine grid round alike (R48) -/

/-- A multiple of 2^J. -/
def OnGrid (J : Int) (g : ℝ) : Prop := ∃ z : Int, g = z * 2 ^ J

theorem onGrid_of_le {J q : Int} (h : J ≤ q) (z : Int) : OnGrid J (z * 2 ^ q) := by
  refine ⟨z * 2 ^ (q - J).toNat, ?_⟩
  push_cast
  rw [mul_assoc, ← zpow_natCast, Int.toNat_of_nonneg (by omega), ← zpow_add₀ two_ne_zero, Int.sub_add_cancel]

theorem onGrid_pow {J q : Int} (h : J ≤ q) : OnGrid J (2 ^ q) := by
  simpa using onGrid_of_le h 1

theorem OnGrid.sub {J : Int} {a b : ℝ} (ha : OnGrid J a) (hb : OnGrid J b) : OnGrid J (a - b) := by
  obtain ⟨y, rfl⟩ := ha
  obtain ⟨z, rfl⟩ := hb
  exact ⟨y - z, by push_cast; ring⟩

/-- `x` lies strictly between the multiples `n` and `n + 1` of 2^J. -/
def InCell (n : Nat) (J : Int) (x : ℝ) : Prop := (n : ℝ) * 2 ^ J < x ∧ x < (n + 1) * 2 ^ J

theorem InCell.side {n : Nat} {J : Int} {x y g : ℝ} (hx : InCell n J x) (hy : InCell n J y) (hg : OnGrid J g) :
    (g < x ↔ g < y) ∧ (x < g ↔ y < g) ∧ g ≠ x ∧ g ≠ y := by
  obtain ⟨z, rfl⟩ := hg
  obtain ⟨hx1, hx2⟩ := hx
  obtain ⟨hy1, hy2⟩ := hy
  have hP : (0 : ℝ) < 2 ^ J := by positivity
  rcases lt_or_ge (n : Int) z with h | h
  · have hz : ((n : ℝ) + 1) * 2 ^ J ≤ z * 2 ^ J := (mul_le_mul_iff_left₀ hP).mpr (by exact_mod_cast h)
    exact ⟨iff_of_false (by linarith) (by linarith), iff_of_true (by linarith) (by linarith), by linarith, by linarith⟩
  · have hz : (z : ℝ) * 2 ^ J ≤ n * 2 ^ J := (mul_le_mul_iff_left₀ hP).mpr (by exact_mod_cast h)
    exact ⟨iff_of_true (by linarith) (by linarith), iff_of_false (by linarith) (by linarith), by linarith, by linarith⟩

theorem InCell.pow_lt {n p : Nat} {J : Int} {x : ℝ} (hx : InCell n J x) (hn : 2 ^ p ≤ n) : (2 : ℝ) ^ (p + J) < x := by
  refine lt_of_le_of_lt ?_ hx.1
  rw [zpow_add₀ two_ne_zero, zpow_natCast]
  exact mul_le_mul_of_nonneg_right (by exact_mod_cast hn) (by positivity)

theorem isTiny_congr {f : FFmt} {rm : Nat} {neg : Bool} {n : Nat} {J : Int} {x y : ℝ} (hn : 2 ^ (f.fb + 2) ≤ n) (hx : InCell n J x)
    (hy : InCell n J y) : IsTiny f rm neg x ↔ IsTiny f rm neg y := by
  have hx1 := hx.pow_lt hn
  have hy1 := hy.pow_lt hn
  have hu1 : (0 : ℝ) < 2 ^ (1 - (f.bias : ℤ) - f.fb - 2) := by positivity
  have hu2 : (0 : ℝ) < 2 ^ (1 - (f.bias : ℤ) - f.fb - 1) := by positivity
  unfold IsTiny
  by_cases hJ : J ≤ 1 - (f.bias : ℤ) - f.fb - 2
  · have he : OnGrid J (2 ^ (1 - (f.bias : ℤ))) := onGrid_pow (by omega)
    obtain ⟨-, h1, -, -⟩ := hx.side hy (he.sub (onGrid_pow hJ))
    obtain ⟨-, h2, hne, hne'⟩ := hx.side hy (he.sub (onGrid_pow (show J ≤ 1 - (f.bias : ℤ) - f.fb - 1 by omega)))
    obtain ⟨-, h3, -, -⟩ := hx.side hy he
    rw [h1, h3, le_iff_lt_or_eq, le_iff_lt_or_eq, or_iff_left hne.symm, or_iff_left hne'.symm, h2]
  · have hp : (2 : ℝ) ^ (1 - (f.bias : ℤ)) ≤ 2 ^ (((f.fb + 2 : Nat) : Int) + J) := zpow_le_zpow_right₀ one_le_two (by push_cast; omega)
    split
    · exact iff_of_false (by linarith) (by linarith)
    · split <;> exact iff_of_false (by linarith) (by linarith)

/-- R48: what one of two numbers between the same neighbours rounds to, the other does. -/
theorem roundsTo_congr {f : FFmt} {rm : Nat} {neg : Bool} {n : Nat} {J : Int} {x y : ℝ} {r : Nat × BitVec 6} (hn : 2 ^ (f.fb + 2) ≤ n)
    (hx : InCell n J x) (hy : InCell n J y) (h : RoundsTo f rm neg y r) : RoundsTo f rm neg x r := by
  obtain ⟨b, k, hle, hlt, hnear, hup, hover, hfin⟩ := h
  obtain ⟨j, c, rfl, hlow, hhigh⟩ := exists_units f b
  have hb : magReal f (c + j * 2 ^ f.fb) = (c : ℤ) * 2 ^ f.ulpExp j := magReal_units f hlow hhigh.le
  have hb1 : magReal f (c + j * 2 ^ f.fb + 1) = (c + 1 : ℤ) * 2 ^ f.ulpExp j := by
    rw [add_right_comm, magReal_units f (hlow.imp_right fun h => by omega) hhigh]
    push_cast
    rfl
  have hfine : J + 2 ≤ f.ulpExp j := by
    have hpow : (2 : ℝ) ^ (((f.fb + 2 : Nat) : Int) + J) < 2 ^ ((f.fb + 1 : Nat) + f.ulpExp j) := by
      refine (hy.pow_lt hn).trans_le (hlt.le.trans (hb1.le.trans ?_))
      rw [zpow_add₀ two_ne_zero, zpow_natCast]
      exact mul_le_mul_of_nonneg_right (by exact_mod_cast hhigh) (by positivity)
    have := (zpow_lt_zpow_iff_right₀ one_lt_two).mp hpow
    push_cast at this
    omega
  have gb : OnGrid J (magReal f (c + j * 2 ^ f.fb)) := hb ▸ onGrid_of_le (by omega) _
  have gb1 : OnGrid J (magReal f (c + j * 2 ^ f.fb + 1)) := hb1 ▸ onGrid_of_le (by omega) _
  have gmid : OnGrid J ((magReal f (c + j * 2 ^ f.fb) + magReal f (c + j * 2 ^ f.fb + 1)) / 2) := by
    have : (magReal f (c + j * 2 ^ f.fb) + magReal f (c + j * 2 ^ f.fb + 1)) / 2 = (2 * c + 1 : ℤ) * 2 ^ (f.ulpExp j - 1) := by
      rw [hb, hb1, zpow_sub_one₀ two_ne_zero]
      push_cast
      ring
    exact this ▸ onGrid_of_le (by omega) _
  obtain ⟨s1, -, s2, s3⟩ := hx.side hy gb
  obtain ⟨-, s4, s5, s6⟩ := hx.side hy gb1
  obtain ⟨s7, -, s8, s9⟩ := hx.side hy gmid
  rw [div_lt_iff₀' two_pos, div_lt_iff₀' two_pos] at s7
  have hmid : ∀ z : ℝ, (magReal f (c + j * 2 ^ f.fb) + magReal f (c + j * 2 ^ f.fb + 1)) / 2 ≠ z →
      magReal f (c + j * 2 ^ f.fb) + magReal f (c + j * 2 ^ f.fb + 1) ≠ 2 * z := fun z hne h => hne (by linarith)
  have hk : magReal f k ≠ y ∧ magReal f k ≠ x := by
    rcases hnear with rfl | rfl
    · exact ⟨s3, s2⟩
    · exact ⟨s6, s5⟩
  refine ⟨c + j * 2 ^ f.fb, k, (s1.mpr (lt_of_le_of_ne hle s3)).le, s4.mpr hlt, hnear, hup.trans ?_, hover, fun hk' => (hfin hk').trans ?_⟩
  · exact or_congr (and_congr_right' (or_congr s7.symm (and_congr_left' (iff_of_false (hmid y s9) (hmid x s8)))))
      (and_congr_right' (iff_of_true s3 s2))
  · exact Prod.ext rfl (congrArg₂ (· ||| ·) (if_congr (iff_of_true hk.1 hk.2) rfl rfl)
      (if_congr (and_congr (iff_of_true hk.1 hk.2) (isTiny_congr hn hy hx)) rfl rfl))

/-- R174: a function whose value is `n` units of 2^e, or a number between `n` and `n + 1` of them, delivers that value rounded once. -/
theorem sticky_roundsTo {f : FFmt} (hfb : 1 ≤ f.fb) {rm : Nat} (hrm : rm < 4) (neg : Bool) {n : Nat} (hn : 2 ^ (f.fb + 2) ≤ n) {e : Int}
    {exact_ : Bool} {x : ℝ} (hexact : exact_ = true → x = n * 2 ^ e) (hcell : exact_ = false → InCell n e x) :
    RoundsTo f rm neg x (f.encode rm (sticky neg n e exact_)) := by
  have hpos : 0 < n := (show 0 < 2 ^ (f.fb + 2) by positivity).trans_le hn
  cases exact_ with
  | true =>
    rw [hexact rfl]
    exact encode_num hfb hrm neg hpos e
  | false =>
    have hP : (0 : ℝ) < 2 ^ (e - 1) := by positivity
    have he : (2 : ℝ) ^ e = 2 * 2 ^ (e - 1) := by rw [← zpow_one_add₀ two_ne_zero]; congr 1; ring
    refine roundsTo_congr hn (hcell rfl) (y := ((2 * n + 1 : Nat) : ℝ) * 2 ^ (e - 1)) ⟨?_, ?_⟩ (encode_num hfb hrm neg (Nat.succ_pos _) _) <;>
      · rw [he]
        push_cast
        nlinarith

theorem deliverFl_plain (f : FFmt) (rm : Nat) (v : FV) : f.deliverFl rm (v, 0) = f.encode rm v := by
  simp [FFmt.deliverFl]

/-- A result that no rounding touches keeps the flags of its operation. -/
theorem deliverFl_exact {f : FFmt} {rm : Nat} {v : FV} {b : Nat} (h : f.encode rm v = (b, 0)) (fl : BitVec 6) :
    f.deliverFl rm (v, fl) = (b, fl) := by
  simp [FFmt.deliverFl, h]

/-! ## Reciprocal (R174) -/

/-- R174: the quotient that VRCP takes. -/
theorem rcp_cell {m k : Nat} (hm : 0 < m) (e : Int) :
    (2 ^ k % m = 0 → 1 / ((m : ℝ) * 2 ^ e) = (2 ^ k / m : Nat) * 2 ^ (-e - k))
      ∧ (2 ^ k % m ≠ 0 → InCell (2 ^ k / m) (-e - k) (1 / ((m : ℝ) * 2 ^ e))) := by
  have hmr : (0 : ℝ) < m := by exact_mod_cast hm
  have hP : (0 : ℝ) < 2 ^ (-e - (k : Int)) := by positivity
  have hx : 1 / ((m : ℝ) * 2 ^ e) = 2 ^ k / m * 2 ^ (-e - (k : Int)) := by
    rw [zpow_sub₀ two_ne_zero, zpow_neg, zpow_natCast]
    field_simp
  have hdm : (2 : ℝ) ^ k = (m : ℝ) * (2 ^ k / m : Nat) + (2 ^ k % m : Nat) := by exact_mod_cast (Nat.div_add_mod (2 ^ k) m).symm
  have hlt : ((2 ^ k % m : Nat) : ℝ) < m := by exact_mod_cast Nat.mod_lt _ hm
  refine ⟨fun h0 => ?_, fun h0 => ?_⟩
  · rw [hx]
    congr 1
    rw [div_eq_iff hmr.ne', hdm, h0]
    push_cast
    ring
  · have hpos : (0 : ℝ) < (2 ^ k % m : Nat) := by exact_mod_cast Nat.pos_of_ne_zero h0
    rw [hx]
    refine ⟨(mul_lt_mul_iff_left₀ hP).mpr ?_, (mul_lt_mul_iff_left₀ hP).mpr ?_⟩
    · rw [lt_div_iff₀ hmr]
      linarith
    · rw [div_lt_iff₀ hmr]
      linarith

theorem fRcp_roundsTo {ty : Nat} (h : tyFloat ty = true) {rm : Nat} (hrm : rm < 4) (n : Bool) {m : Nat} (hm : 0 < m) (e : Int) :
    RoundsTo (fmtOf ty) rm n (1 / ((m : ℝ) * 2 ^ e)) ((fmtOf ty).deliverFl rm (fRcp (.num n m e))) := by
  obtain ⟨hfb, hfb'⟩ := fb_bounds h
  obtain ⟨hexact, hcell⟩ := rcp_cell (k := bitLen m + 30) hm e
  have hn : 2 ^ ((fmtOf ty).fb + 2) ≤ 2 ^ (bitLen m + 30) / m := by
    rw [Nat.le_div_iff_mul_le hm, pow_add 2 (bitLen m), mul_comm (2 ^ bitLen m)]
    exact Nat.mul_le_mul (Nat.pow_le_pow_right (by decide) (by omega)) (bitLen_bounds hm).2.1.le
  rw [fRcp, if_neg hm.ne', deliverFl_plain]
  exact sticky_roundsTo hfb hrm n hn (fun h0 => by push_cast at hexact ⊢; exact hexact (by simpa using h0))
    (fun h0 => by push_cast at hcell ⊢; exact hcell (by simpa using h0))

/-! ## Reciprocal square root (R174) -/

theorem isqrtGo_spec (n : Nat) : ∀ k r, r * r ≤ n → n < (r + 2 ^ k) * (r + 2 ^ k) →
    isqrtGo k n r * isqrtGo k n r ≤ n ∧ n < (isqrtGo k n r + 1) * (isqrtGo k n r + 1)
  | 0, r, hle, hlt => ⟨hle, hlt⟩
  | k + 1, r, hle, hlt => by
    rw [isqrtGo]
    rw [pow_succ] at hlt
    split
    · next h => exact isqrtGo_spec n k _ h (by rwa [add_assoc, ← mul_two])
    · next h => exact isqrtGo_spec n k r hle (Nat.not_le.mp h)

theorem isqrt_spec (n : Nat) : isqrt n * isqrt n ≤ n ∧ n < (isqrt n + 1) * (isqrt n + 1) := by
  refine isqrtGo_spec n _ 0 (Nat.zero_le n) ?_
  rcases Nat.eq_zero_or_pos n with rfl | hn
  · rw [Nat.zero_add]; positivity
  · rw [Nat.zero_add, ← pow_add]
    exact (bitLen_bounds hn).2.1.trans_le (Nat.pow_le_pow_right (by decide) (by omega))

/-- R174: the root that VRSQ takes of a number with an even exponent. -/
theorem rsq_cell {m k : Nat} (hm : 0 < m) (i : Int) : let r := isqrt (2 ^ (2 * k) / m)
    (r * r * m = 2 ^ (2 * k) → 1 / Real.sqrt ((m : ℝ) * 2 ^ (2 * i)) = r * 2 ^ (-i - k))
      ∧ (r * r * m ≠ 2 ^ (2 * k) → InCell r (-i - k) (1 / Real.sqrt ((m : ℝ) * 2 ^ (2 * i)))) := by
  intro r
  obtain ⟨hle, hlt⟩ := isqrt_spec (2 ^ (2 * k) / m)
  have hmr : (0 : ℝ) < m := by exact_mod_cast hm
  have hs : (0 : ℝ) < Real.sqrt m := Real.sqrt_pos.mpr hmr
  have hsq : Real.sqrt m * Real.sqrt m = m := Real.mul_self_sqrt hmr.le
  have hP : (0 : ℝ) < 2 ^ (-i - (k : Int)) := by positivity
  have hx : 1 / Real.sqrt ((m : ℝ) * 2 ^ (2 * i)) = 2 ^ k / Real.sqrt m * 2 ^ (-i - (k : Int)) := by
    rw [Real.sqrt_mul hmr.le, show (2 : ℝ) ^ (2 * i) = 2 ^ i * 2 ^ i by rw [← zpow_add₀ two_ne_zero, two_mul],
      Real.sqrt_mul_self (by positivity), zpow_sub₀ two_ne_zero, zpow_neg, zpow_natCast]
    field_simp
  have hk : (2 : ℝ) ^ k * 2 ^ k = ((2 ^ (2 * k) : Nat) : ℝ) := by push_cast; rw [← pow_add, two_mul]
  have h1 : r * r * m ≤ 2 ^ (2 * k) := (Nat.mul_le_mul_right m hle).trans (Nat.div_mul_le_self _ m)
  have h2 : 2 ^ (2 * k) < (r + 1) * (r + 1) * m := (Nat.div_lt_iff_lt_mul hm).mp hlt
  have hroot : ∀ z : ℝ, (z * Real.sqrt m) * (z * Real.sqrt m) = z * z * m := fun z => by rw [mul_mul_mul_comm, hsq]
  refine ⟨fun h0 => ?_, fun h0 => ?_⟩
  · rw [hx]
    congr 1
    rw [div_eq_iff hs.ne', ← mul_self_inj (by positivity) (by positivity), hk, hroot]
    exact_mod_cast h0.symm
  · rw [hx]
    refine ⟨(mul_lt_mul_iff_left₀ hP).mpr ?_, (mul_lt_mul_iff_left₀ hP).mpr ?_⟩
    · rw [lt_div_iff₀ hs, mul_self_lt_mul_self_iff (by positivity) (by positivity), hk, hroot]
      exact_mod_cast lt_of_le_of_ne h1 h0
    · rw [div_lt_iff₀ hs, mul_self_lt_mul_self_iff (by positivity) (by positivity), hk, hroot]
      exact_mod_cast h2

/-- A number with an even exponent. -/
theorem even_exponent (m : Nat) (e : Int) : let m' := if e % 2 = 0 then m else 2 * m
    let e' := if e % 2 = 0 then e else e - 1
    (m : ℝ) * 2 ^ e = (m' : ℝ) * 2 ^ (2 * (e' / 2)) := by
  intro m' e'
  by_cases h : e % 2 = 0
  · simp only [m', e', h, if_true]
    rw [show 2 * (e / 2) = e by omega]
  · simp only [m', e', h, if_false]
    rw [show 2 * ((e - 1) / 2) = e - 1 by omega, zpow_sub_one₀ two_ne_zero]
    push_cast
    ring

theorem fRsq_roundsTo {ty : Nat} (h : tyFloat ty = true) {rm : Nat} (hrm : rm < 4) {m : Nat} (hm : 0 < m) (e : Int) :
    RoundsTo (fmtOf ty) rm false (1 / Real.sqrt ((m : ℝ) * 2 ^ e)) ((fmtOf ty).deliverFl rm (fRsq (.num false m e))) := by
  obtain ⟨hfb, hfb'⟩ := fb_bounds h
  rw [even_exponent m e, fRsq, if_neg hm.ne', if_neg Bool.false_ne_true, deliverFl_plain]
  have hm' : 0 < (if e % 2 = 0 then m else 2 * m) := by split <;> omega
  generalize (if e % 2 = 0 then m else 2 * m) = m' at hm'
  generalize (if e % 2 = 0 then e else e - 1) = e'
  obtain ⟨hexact, hcell⟩ := rsq_cell (k := bitLen m' + 30) hm' (e' / 2)
  obtain ⟨-, hlt⟩ := isqrt_spec (2 ^ (2 * (bitLen m' + 30)) / m')
  have hn : 2 ^ ((fmtOf ty).fb + 2) ≤ isqrt (2 ^ (2 * (bitLen m' + 30)) / m') := by
    have hbig : 2 ^ 30 * 2 ^ 30 ≤ 2 ^ (2 * (bitLen m' + 30)) / m' := by
      rw [Nat.le_div_iff_mul_le hm', show 2 * (bitLen m' + 30) = 30 + 30 + bitLen m' + bitLen m' by ring, pow_add, pow_add 2 (30 + 30), pow_add 2 30]
      exact (Nat.mul_le_mul_left _ (bitLen_bounds hm').2.1.le).trans (Nat.le_mul_of_pos_right _ (by positivity))
    have hroot : 2 ^ 30 < isqrt (2 ^ (2 * (bitLen m' + 30)) / m') + 1 := lt_of_mul_self_lt_mul_self₀ (Nat.zero_le _) (hbig.trans_lt hlt)
    exact (Nat.pow_le_pow_right (by decide) (by omega)).trans (Nat.lt_succ_iff.mp hroot)
  exact sticky_roundsTo hfb hrm false hn (fun h0 => by push_cast at hexact ⊢; exact hexact (by simpa using h0))
    (fun h0 => by push_cast at hcell ⊢; exact hcell (by simpa using h0))

/-! ## Exponent and logarithm of a power of two, and special values (R174) -/

theorem bitLen_le {m n : Nat} (h : m < 2 ^ n) : bitLen m ≤ n := by
  rw [bitLen]
  split
  · exact Nat.zero_le n
  · next h0 => exact (Nat.log2_lt h0).mpr h

theorem bitLen_two_pow (k : Nat) : bitLen (2 ^ k) = k + 1 := by
  rw [bitLen, if_neg (by positivity), Nat.log2_two_pow]

/-- R174: an integer power of two is exact. -/
theorem fExp2_int {n : Bool} {m e : Nat} (h : m * 2 ^ e < 2 ^ 12) :
    ∃ k, fExp2 (.num n m e) = (.num false 1 k, 0) ∧ (0 < m → k = sgnd n (m * 2 ^ e)) := by
  rcases Nat.eq_zero_or_pos m with rfl | hm
  · exact ⟨0, rfl, fun h0 => absurd h0 (lt_irrefl 0)⟩
  · have hlen : ¬ 12 < (bitLen m : Int) + e := by
      have hlow : 2 ^ (bitLen m - 1 + e) < 2 ^ 12 := by
        rw [pow_add]
        exact (Nat.mul_le_mul_right _ (bitLen_bounds hm).1).trans_lt h
      have := (Nat.pow_lt_pow_iff_right (by decide)).mp hlow
      have := (bitLen_bounds hm).2.2
      omega
    refine ⟨sgnd n (m * 2 ^ e), ?_, fun _ => rfl⟩
    rw [fExp2, if_neg hm.ne', if_neg hlen, if_pos (Int.natCast_nonneg e), Int.toNat_natCast]

/-- R174: the logarithm of a power of two is exact. -/
theorem fLog2_pow (k : Nat) (e : Int) : ∃ n m, fLog2 (.num false (2 ^ k) e) = (.num n m 0, 0) ∧ sgnd n m = k + e := by
  refine ⟨decide ((k : Int) + e < 0), ((k : Int) + e).natAbs, ?_, sgnd_natAbs _⟩
  have htop : ((k + 1 : Nat) : Int) - 1 + e = k + e := by push_cast; ring
  rw [fLog2, if_neg (by positivity), if_neg Bool.false_ne_true]
  simp only [bitLen_two_pow, htop, Nat.add_sub_cancel, if_true]

theorem encode_one {ty : Nat} (h : tyFloat ty = true) {rm : Nat} (hrm : rm < 4) :
    (fmtOf ty).encode rm (.num false 1 0) = ((fmtOf ty).bias * 2 ^ (fmtOf ty).fb, 0) := by
  refine fmtOf_cases (P := fun f => f.encode rm (.num false 1 0) = (f.bias * 2 ^ f.fb, 0)) h ?_ ?_ ?_ <;> interval_cases rm <;> decide

theorem specialRules : SpecialRules := by
  refine ⟨fun ty rm n m e h hrm hm => ⟨fRcp_roundsTo h hrm n hm e, fRsq_roundsTo h hrm hm e, ?_, ?_⟩, fun ty rm n e sig h hrm => ?_,
    fun n m e h => fExp2_int h, fLog2_pow⟩
  · rw [fRsq, if_neg hm.ne', if_pos rfl]
    exact deliverFl_exact rfl fNV
  · rw [fLog2, if_neg hm.ne', if_pos rfl]
    exact deliverFl_exact rfl fNV
  · refine ⟨?_, ?_, ?_, ?_, ?_, ?_, ?_, ?_, ?_, ?_, ?_, ?_⟩
    · exact deliverFl_exact rfl fDZ
    · exact deliverFl_exact rfl fDZ
    · exact deliverFl_exact (encode_one h hrm) 0
    · exact deliverFl_exact rfl fDZ
    · exact deliverFl_exact (encode_zero _ rm n 0) 0
    · cases n
      · exact deliverFl_exact (encode_zero _ rm false 0) 0
      · exact deliverFl_exact rfl fNV
    · cases n
      · exact deliverFl_exact (congrArg (·, 0) (Nat.zero_add _)) 0
      · exact deliverFl_exact (encode_zero _ rm false 0) 0
    · cases n
      · exact deliverFl_exact (congrArg (·, 0) (Nat.zero_add _)) 0
      · exact deliverFl_exact rfl fNV
    · exact deliverFl_exact rfl _
    · exact deliverFl_exact rfl _
    · exact deliverFl_exact rfl _
    · exact deliverFl_exact rfl _

end Sys2Proof.Machine
end

section
/-! SUPPORT. Conversion of one element (R53). -/

namespace Sys2Proof.Machine

open Sys2Proof.Claims

/-! ## The integers of a type (R45, R46) -/

theorem tyMin_nonpos (ty : Nat) : tyMin ty ≤ 0 := by
  unfold tyMin
  split
  · exact neg_nonpos.mpr (by positivity)
  · exact le_refl 0

theorem tyMax_nonneg (ty : Nat) : 0 ≤ tyMax ty := by
  unfold tyMax
  split <;> exact Int.sub_nonneg_of_le (one_le_pow₀ (by decide))

/-- An integer within the bounds of its type survives the pattern it is held in. -/
theorem intOf_wrapInt {ty : Nat} {v : Int} (hmin : tyMin ty ≤ v) (hmax : v ≤ tyMax ty) : intOf ty (wrapInt (tyWidth ty) v) = v := by
  obtain ⟨k, hk⟩ := Nat.exists_eq_add_of_lt (tyWidth_pos ty)
  have hw : (2 : Int) ^ tyWidth ty = 2 * 2 ^ (tyWidth ty - 1) := by rw [hk]; simp [pow_succ, mul_comm]
  have hx := natCast_wrapInt (tyWidth ty) v
  have hcast : 2 ^ (tyWidth ty - 1) ≤ wrapInt (tyWidth ty) v ↔ (2 : Int) ^ (tyWidth ty - 1) ≤ wrapInt (tyWidth ty) v := by exact_mod_cast Iff.rfl
  simp only [intOf, Bool.and_eq_true, decide_eq_true_eq, hcast]
  unfold tyMin at hmin
  unfold tyMax at hmax
  rw [hw] at hx hmax ⊢
  generalize (2 : Int) ^ (tyWidth ty - 1) = p at *
  cases hs : tySigned ty with
  | true =>
    simp only [hs, if_true, true_and] at hmin hmax ⊢
    rcases lt_or_ge v 0 with hneg | hpos
    · have hv : v % (2 * p) = v + 2 * p := by rw [← Int.add_emod_right, Int.emod_eq_of_lt (by omega) (by omega)]
      rw [hx, hv, if_pos (by omega), add_sub_cancel_right]
    · rw [hx, Int.emod_eq_of_lt hpos (by omega), if_neg (by omega)]
  | false =>
    simp only [hs, Bool.false_eq_true, if_false, false_and] at hmin hmax ⊢
    rw [hx, Int.emod_eq_of_lt hmin (by omega)]

/-- R46: the clamped integer, and SAT where it is another one. -/
theorem clampInt_spec (ty : Nat) (v : Int) : intOf ty (clampInt ty v).1 = max (tyMin ty) (min v (tyMax ty))
    ∧ (clampInt ty v).2 = if intOf ty (clampInt ty v).1 = v then 0 else fSAT := by
  have h0 := tyMin_nonpos ty
  have h1 := tyMax_nonneg ty
  unfold clampInt
  split
  · next hlow =>
    rw [intOf_wrapInt le_rfl (h0.trans h1)]
    exact ⟨by omega, (if_neg hlow.ne').symm⟩
  · split
    · next hhigh =>
      rw [intOf_wrapInt (h0.trans h1) le_rfl]
      exact ⟨by omega, (if_neg hhigh.ne).symm⟩
    · rw [intOf_wrapInt (by omega) (by omega)]
      exact ⟨by omega, (if_pos rfl).symm⟩

/-! ## Rounding to an integer, by mode (R48) -/

section
variable {K : Type} [Field K] [LinearOrder K] [IsStrictOrderedRing K] {rm : Nat} {neg : Bool} {y : K} {hi n : Nat}

theorem RoundsInt.nearest (h : RoundsInt 0 neg y hi n) : |y - n| < 1 / 2 ∨ (|y - n| = 1 / 2 ∧ n % 2 = 0) := by
  have hle := h.le
  have hlt := h.lt
  have hup : n = hi + 1 ↔ 2 * (hi : K) + 1 < 2 * y ∨ (2 * (hi : K) + 1 = 2 * y ∧ hi % 2 = 1) := by simpa [Away] using h.up
  rcases h.near with rfl | rfl
  · have hnot := mt hup.mpr (Nat.succ_ne_self n).symm
    rw [not_or, not_and, not_lt] at hnot
    obtain ⟨hhalf, hodd⟩ := hnot
    rw [abs_of_nonneg (by linarith)]
    rcases hhalf.lt_or_eq with hlt' | heq
    · exact .inl (by linarith)
    · exact .inr ⟨by linarith, by have := hodd heq.symm; omega⟩
  · push_cast
    rw [abs_of_nonpos (by linarith)]
    rcases hup.mp rfl with hlt' | ⟨heq, hodd⟩
    · exact .inl (by linarith)
    · exact .inr ⟨by linarith, by omega⟩

omit [IsStrictOrderedRing K] in
theorem RoundsInt.towardZero [FloorRing K] (h : RoundsInt rm neg y hi n) (h0 : rm ≠ 0) (ha : ¬ Away rm neg) : ⌊y⌋ = n := by
  have hn : n = hi := h.near.resolve_right fun hup => by simpa [h0, ha] using h.up.mp hup
  rw [Int.floor_eq_iff, hn]
  exact ⟨by exact_mod_cast h.le, by exact_mod_cast h.lt⟩

theorem RoundsInt.awayFromZero [FloorRing K] (h : RoundsInt rm neg y hi n) (ha : Away rm neg) : ⌈y⌉ = n := by
  have h0 : rm ≠ 0 := by rcases ha with ⟨rfl, -⟩ | ⟨rfl, -⟩ <;> decide
  have hup : n = hi + 1 ↔ (hi : K) ≠ y := by simpa [h0, ha] using h.up
  have hle := h.le
  have hlt := h.lt
  rw [Int.ceil_eq_iff]
  by_cases hy : (hi : K) = y
  · rw [h.near.resolve_right (mt hup.mp (not_not.mpr hy)), ← hy]
    exact ⟨by simp, by simp⟩
  · rw [hup.mpr hy]
    push_cast
    exact ⟨by linarith [lt_of_le_of_ne hle hy], hlt.le⟩

end

/-! ## Float to integer (R53) -/

/-- R53: `v` is the number `q` rounded by the mode. -/
abbrev RoundsSigned (rm : Nat) (q : ℚ) (v : Int) : Prop :=
  (rm = 0 → |q - v| < 1 / 2 ∨ (|q - v| = 1 / 2 ∧ v % 2 = 0)) ∧ (rm = 1 → v = if q < 0 then ⌈q⌉ else ⌊q⌋)
    ∧ (rm = 2 → v = ⌈q⌉) ∧ (rm = 3 → v = ⌊q⌋)

theorem roundsSigned_of {rm : Nat} {neg : Bool} {y : ℚ} {hi n : Nat} (h : RoundsInt rm neg y hi n) (hy : 0 ≤ y) :
    RoundsSigned rm (if neg then -y else y) (sgnd neg n) := by
  cases neg with
  | false =>
    refine ⟨?_, ?_, ?_, ?_⟩ <;> rintro rfl <;> simp only [sgnd, Bool.false_eq_true, if_false]
    · have hnear := h.nearest
      push_cast
      exact hnear.imp_right (And.imp_right fun heven => by omega)
    · rw [if_neg hy.not_gt]
      exact (h.towardZero (by decide) (by simp [Away])).symm
    · exact (h.awayFromZero (by simp [Away])).symm
    · exact (h.towardZero (by decide) (by simp [Away])).symm
  | true =>
    refine ⟨?_, ?_, ?_, ?_⟩ <;> rintro rfl <;> simp only [sgnd, if_true, Int.ceil_neg, Int.floor_neg]
    · have hnear := h.nearest
      push_cast
      rw [show -y - -(n : ℚ) = -(y - n) by ring, abs_neg]
      exact hnear.imp_right (And.imp_right fun heven => by omega)
    · rw [h.towardZero (by decide) (by simp [Away])]
      split
      · rfl
      · next hneg =>
        obtain rfl : y = 0 := by linarith
        have := h.towardZero (by decide) (by simp [Away])
        rw [Int.floor_zero] at this
        simp [← this]
    · rw [h.towardZero (by decide) (by simp [Away])]
    · rw [h.awayFromZero (by simp [Away])]

theorem numVal_sign (n : Bool) (m : Nat) (e : Int) : numVal n m e = if n then -((m : ℚ) * 2 ^ e) else (m : ℚ) * 2 ^ e := by
  cases n <;> simp [numVal, sgnd]

theorem sgnd_neg_of {n : Bool} {m : Nat} (h : sgnd n m < 0) : n = true := by
  cases n with
  | true => rfl
  | false => exact absurd h (by simp [sgnd])

theorem sgnd_pos_of {n : Bool} {m : Nat} (h : 0 < sgnd n m) : n = false := by
  cases n with
  | false => rfl
  | true => exact absurd h (by simp [sgnd])

/-- R53: a number rounded once, clamped with NV, else with NX where it was no integer. -/
theorem fToInt_num {rm : Nat} (hrm : rm < 4) (ty : Nat) (n : Bool) (m : Nat) (e : Int) :
    let q := numVal n m e
    let r := fToInt rm ty (.num n m e)
    ∃ v : Int, RoundsSigned rm q v
      ∧ (v < tyMin ty → intOf ty r.1 = tyMin ty ∧ r.2 = fNV) ∧ (tyMax ty < v → intOf ty r.1 = tyMax ty ∧ r.2 = fNV)
      ∧ (tyMin ty ≤ v → v ≤ tyMax ty → intOf ty r.1 = v ∧ r.2 = if q = v then 0 else fNX) := by
  obtain ⟨hi, hround, hloss⟩ := roundMag_rounds (K := ℚ) hrm n m e
  have h0 := tyMin_nonpos ty
  have h1 := tyMax_nonneg ty
  have hres : fToInt rm ty (.num n m e) = if sgnd n (roundMag rm n m e).1 < tyMin ty ∨ tyMax ty < sgnd n (roundMag rm n m e).1
      then (wrapInt (tyWidth ty) (if n then tyMin ty else tyMax ty), fNV)
      else (wrapInt (tyWidth ty) (sgnd n (roundMag rm n m e).1), if (roundMag rm n m e).2 then fNX else 0) := by
    simp [fToInt]
  rw [hres]
  refine ⟨sgnd n (roundMag rm n m e).1, numVal_sign n m e ▸ roundsSigned_of hround (by positivity), fun hlow => ?_, fun hhigh => ?_,
    fun hlow hhigh => ?_⟩
  · rw [if_pos (.inl hlow), if_pos (sgnd_neg_of (hlow.trans_le h0))]
    exact ⟨intOf_wrapInt le_rfl (h0.trans h1), rfl⟩
  · rw [if_pos (.inr hhigh), if_neg (by rw [sgnd_pos_of (h1.trans_lt hhigh)]; decide)]
    exact ⟨intOf_wrapInt (h0.trans h1) le_rfl, rfl⟩
  · rw [if_neg (by omega)]
    refine ⟨intOf_wrapInt hlow hhigh, ?_⟩
    have hexact : numVal n m e = ((sgnd n (roundMag rm n m e).1 : Int) : ℚ) ↔ ¬ (roundMag rm n m e).2 = true := by
      rw [hloss, not_not, hround.exact_iff, numVal_sign]
      cases n <;> simp [sgnd, eq_comm]
    by_cases hr : (roundMag rm n m e).2 = true <;> simp [hexact, hr]

/-! ## Conversion of one element (R53) -/

theorem convertRules : ConvertRules := by
  refine ⟨fun rm st dt sat x hs hd => ?_, fun rm st dt sat x hs hd => ?_, fun rm st dt sat x hs hd => ?_, fun rm st dt sat x hs hd => ?_⟩
  · simp only [convertEl, hs, hd, if_true]
    cases (fmtOf st).decode x with
    | nan sig => cases sig <;> rfl
    | inf n => simp [FFmt.deliver]
    | num n m e => simp [FFmt.deliver]
  · have hconv : convertEl rm st dt sat x = (fmtOf dt).encode rm (.num (intOf st x < 0) (intOf st x).natAbs 0) := by
      rw [convertEl, if_neg (by simp [tyFloat_of_tyInt hs]), if_pos hd]
    rw [hconv]
    refine ⟨fun hzero => by rw [hzero]; exact encode_zero _ rm false 0, fun hrm hne => ?_⟩
    have := encode_num (fb_bounds hd).1 hrm (intOf st x < 0) (Int.natAbs_pos.mpr hne) 0
    rwa [zpow_zero, mul_one] at this
  · have hconv : convertEl rm st dt sat x = narrow dt sat (intOf st x) := by
      rw [convertEl, if_neg (by simp [tyFloat_of_tyInt hs]), if_neg (by simp [tyFloat_of_tyInt hd])]
    rw [hconv]
    refine ⟨?_, ?_⟩ <;> rintro rfl
    · rfl
    · exact clampInt_spec dt (intOf st x)
  · have hconv : convertEl rm st dt sat x = fToInt rm dt ((fmtOf st).decode x) := by
      rw [convertEl, if_pos hs, if_neg (by simp [tyFloat_of_tyInt hd])]
    have h0 := tyMin_nonpos dt
    have h1 := tyMax_nonneg dt
    rw [hconv]
    refine ⟨fun sig h => by rw [h]; rfl, fun n h => ?_, fun n m e hrm h => ?_⟩
    · rw [h]
      refine ⟨?_, rfl⟩
      cases n
      · exact intOf_wrapInt (h0.trans h1) le_rfl
      · exact intOf_wrapInt le_rfl (h0.trans h1)
    · rw [h]
      obtain ⟨v, ⟨hv0, hv1, hv2, hv3⟩, hlow, hhigh, hin⟩ := fToInt_num hrm dt n m e
      exact ⟨v, hv0, hv1, hv2, hv3, hlow, hhigh, hin⟩

end Sys2Proof.Machine
end

section
/-! SUPPORT. How a block is read (R54, R55). -/

namespace Sys2Proof.Machine

open Sys2Proof.Claims

theorem testBit_blkByte (b n i : Nat) (hi : i < 8) : (blkByte b n).testBit i = b.testBit (8 * n + i) := by
  rw [blkByte, show 256 = 2 ^ 8 from rfl, Nat.testBit_mod_two_pow, Nat.testBit_div_two_pow]
  simp [hi, Nat.add_comm]

/-- The bytes of a block from `k` on are zero together. -/
theorem div_eq_zero_iff_bytes (b k : Nat) : b / 2 ^ (8 * k) = 0 ↔ ∀ n, k ≤ n → blkByte b n = 0 := by
  refine ⟨fun h n hn => ?_, fun h => Nat.eq_of_testBit_eq fun i => ?_⟩
  · obtain ⟨d, rfl⟩ := Nat.exists_eq_add_of_le hn
    rw [blkByte, Nat.mul_add, pow_add, ← Nat.div_div_eq_div_mul, h, Nat.zero_div, Nat.zero_mod]
  · have hbyte := testBit_blkByte b (k + i / 8) (i % 8) (Nat.mod_lt _ (by decide))
    rw [h _ (Nat.le_add_right _ _), Nat.zero_testBit, show 8 * (k + i / 8) + i % 8 = i + 8 * k by omega] at hbyte
    rw [Nat.testBit_div_two_pow, ← hbyte, Nat.zero_testBit]

/-- R55: what a block that is neither zero nor invalid has to meet. -/
def WellFormedBlock (bx3 : Bool) (b : Nat) : Prop :=
  blkByte b 0 = (if bx3 then 0x20 else 0x10) ∧ (∀ n, (if bx3 then 55 else 60) ≤ n → blkByte b n = 0)
    ∧ ∀ g ∈ if bx3 then bx3Groups b else bx7Groups b, 1 + g.gap ≤ g.scale

/-- The model's own check of the bytes after the last field and of the gaps. -/
theorem rest_and_gaps_iff (bx3 : Bool) (b : Nat) :
    (((if bx3 then b / 2 ^ 440 else b / 2 ^ 480) = 0 && (if bx3 then bx3Groups b else bx7Groups b).all Grp.ok) = true) ↔
      (∀ n, (if bx3 then 55 else 60) ≤ n → blkByte b n = 0) ∧ ∀ g ∈ if bx3 then bx3Groups b else bx7Groups b, 1 + g.gap ≤ g.scale := by
  rw [Bool.and_eq_true, decide_eq_true_eq, List.all_eq_true]
  refine and_congr ?_ (by simp [Grp.ok])
  cases bx3
  · exact div_eq_zero_iff_bytes b 60
  · exact div_eq_zero_iff_bytes b 55

theorem readBlock_groups {bx3 : Bool} {b : Nat} (h : WellFormedBlock bx3 b) :
    readBlock bx3 b = .groups (if bx3 then bx3Groups b else bx7Groups b) := by
  obtain ⟨hc, hrest⟩ := h
  have h0 : blkByte b 0 / 16 ≠ 0 := by rw [hc]; cases bx3 <;> decide
  have h15 : blkByte b 0 / 16 ≠ 15 := by rw [hc]; cases bx3 <;> decide
  have hcheck := (rest_and_gaps_iff bx3 b).mpr hrest
  simp only [readBlock, if_neg h0, if_neg h15, if_pos hc, hcheck, if_true]

theorem readBlock_malformed {bx3 : Bool} {b : Nat} (h0 : blkByte b 0 / 16 ≠ 0) (h15 : blkByte b 0 / 16 ≠ 15)
    (h : ¬ WellFormedBlock bx3 b) : readBlock bx3 b = .malformed := by
  simp only [readBlock, if_neg h0, if_neg h15]
  by_cases hc : blkByte b 0 = if bx3 then 0x20 else 0x10
  · rw [if_pos hc, if_neg fun hcheck => h ⟨hc, (rest_and_gaps_iff bx3 b).mp hcheck⟩]
  · rw [if_neg hc]

theorem blockReading : BlockReading := by
  intro bx3 b hb
  refine ⟨fun h => if_pos h, fun h => ?_, readBlock_groups, readBlock_malformed⟩
  simp [readBlock, h]

end Sys2Proof.Machine
end

section
/-! SUPPORT. Quantisation to BX7 (R56, R63, R64): the least scale, the least fine scale, and the block read back. -/

namespace Sys2Proof.Machine

open Sys2Proof.Claims

/-! ## Rounding to the nearest, ties to even (R63) -/

section
variable {K : Type} [Field K] [LinearOrder K] [IsStrictOrderedRing K]

/-- A mode gives a magnitude one rounding. -/
theorem RoundsInt.unique {rm : Nat} {neg : Bool} {y : K} {hi hi' n n' : Nat} (h : RoundsInt rm neg y hi n) (h' : RoundsInt rm neg y hi' n') :
    n = n' := by
  have hlt : hi < hi' + 1 := by exact_mod_cast h.le.trans_lt h'.lt
  have hgt : hi' < hi + 1 := by exact_mod_cast h'.le.trans_lt h.lt
  obtain rfl : hi = hi' := by omega
  have hup := h.up.trans h'.up.symm
  rcases h.near with rfl | rfl <;> rcases h'.near with rfl | rfl <;> omega

end

theorem rneMag_rounds (m : Nat) (d : Int) : ∃ hi, RoundsInt 0 false ((m : ℚ) * 2 ^ d) hi (rneMag m d) := by
  obtain ⟨hi, h, -⟩ := roundMag_rounds (K := ℚ) (by decide : 0 < 4) false m d
  exact ⟨hi, h⟩

theorem rneMag_congr {m m' : Nat} {d d' : Int} (h : (m : ℚ) * 2 ^ d = (m' : ℚ) * 2 ^ d') : rneMag m d = rneMag m' d' := by
  obtain ⟨hi, h1⟩ := rneMag_rounds m d
  obtain ⟨hi', h2⟩ := rneMag_rounds m' d'
  exact h1.unique (h ▸ h2)

theorem rneMag_le {m N : Nat} {d : Int} (h : (m : ℚ) * 2 ^ d < N) : rneMag m d ≤ N := by
  obtain ⟨hi, hround⟩ := rneMag_rounds m d
  have hhi : hi < N := by exact_mod_cast hround.le.trans_lt h
  rcases hround.near with hn | hn <;> omega

/-! ## Magnitudes and their steps -/

/-- The number a magnitude stands for. -/
def magQ (y : Nat × Int) : ℚ := (y.1 : ℚ) * 2 ^ y.2

/-- R63: a magnitude in steps of the exponent `e`, rounded. -/
def magSteps (y : Nat × Int) (e : Nat) : Nat := rneMag y.1 (y.2 - ((e : Int) - 131))

theorem magQ_scaled (y : Nat × Int) (k : Int) : (y.1 : ℚ) * 2 ^ (y.2 - k) = magQ y / 2 ^ k := by
  rw [magQ, zpow_sub₀ two_ne_zero, mul_div_assoc]

theorem magSteps_congr {y z : Nat × Int} (h : magQ y = magQ z) (e : Nat) : magSteps y e = magSteps z e :=
  rneMag_congr (by rw [magQ_scaled, magQ_scaled, h])

theorem magLt_iff (m1 : Nat) (e1 : Int) (m2 : Nat) (e2 : Int) : magLt m1 e1 m2 e2 = true ↔ magQ (m1, e1) < magQ (m2, e2) := by
  have hP : (0 : ℚ) < 2 ^ min e1 e2 := by positivity
  have hunits : ∀ m e, min e1 e2 ≤ e → magQ (m, e) = ((m * 2 ^ (e - min e1 e2).toNat : Nat) : ℚ) * 2 ^ min e1 e2 := fun m e he => by
    have h := (numVal_sign false m e).symm.trans (numVal_units false m he)
    simpa [sgnd, magQ] using h
  rw [hunits m1 e1 (min_le_left _ _), hunits m2 e2 (min_le_right _ _), mul_lt_mul_iff_left₀ hP, Nat.cast_lt]
  exact decide_eq_true_iff

theorem magQ_pos_iff (y : Nat × Int) : 0 < magQ y ↔ y.1 ≠ 0 := by
  have hP : (0 : ℚ) < 2 ^ y.2 := by positivity
  rw [magQ, mul_pos_iff_of_pos_right hP, Nat.cast_pos, Nat.pos_iff_ne_zero]

theorem magQ_nonneg (y : Nat × Int) : 0 ≤ magQ y := by
  unfold magQ
  positivity

/-! ## The greatest magnitude of a list -/

theorem magMax_foldl (l : List (Nat × Int)) : ∀ a : Nat × Int,
    let r := l.foldl (fun a x => if magLt a.1 a.2 x.1 x.2 then x else a) a
    magQ a ≤ magQ r ∧ (∀ y ∈ l, magQ y ≤ magQ r) ∧ (r = a ∨ (r ∈ l ∧ r.1 ≠ 0)) := by
  induction l with
  | nil => exact fun a => ⟨le_rfl, by simp, .inl rfl⟩
  | cons x l ih =>
    intro a
    rw [List.foldl_cons]
    by_cases hlt : magLt a.1 a.2 x.1 x.2 = true
    · rw [if_pos hlt]
      have hax := (magLt_iff _ _ _ _).mp hlt
      obtain ⟨h1, h2, h3⟩ := ih x
      refine ⟨hax.le.trans h1, List.forall_mem_cons.mpr ⟨h1, h2⟩, .inr ?_⟩
      rcases h3 with h3 | ⟨h3, h4⟩
      · rw [h3]
        exact ⟨List.mem_cons_self, (magQ_pos_iff x).mp ((magQ_nonneg _).trans_lt hax)⟩
      · exact ⟨List.mem_cons_of_mem _ h3, h4⟩
    · rw [if_neg hlt]
      have hxa := not_lt.mp (mt (magLt_iff _ _ _ _).mpr hlt)
      obtain ⟨h1, h2, h3⟩ := ih a
      exact ⟨h1, List.forall_mem_cons.mpr ⟨hxa.trans h1, h2⟩, h3.imp_right fun h => ⟨List.mem_cons_of_mem _ h.1, h.2⟩⟩

theorem le_magMax {l : List (Nat × Int)} {y : Nat × Int} (h : y ∈ l) : magQ y ≤ magQ (magMax l) :=
  (magMax_foldl l (0, 0)).2.1 y h

/-- The greatest magnitude is one of the list, unless all of them are 0. -/
theorem magMax_mem {l : List (Nat × Int)} (h : (magMax l).1 ≠ 0) : magMax l ∈ l := by
  rcases (magMax_foldl l (0, 0)).2.2 with hr | hr
  · exact absurd (congrArg Prod.fst hr) h
  · exact hr.1

theorem magMax_ne_zero {l : List (Nat × Int)} {y : Nat × Int} (h : y ∈ l) (hy : y.1 ≠ 0) : (magMax l).1 ≠ 0 :=
  (magQ_pos_iff _).mp (((magQ_pos_iff y).mpr hy).trans_le (le_magMax h))

theorem magMax_eq_zero {l : List (Nat × Int)} (h : ∀ y ∈ l, y.1 = 0) : (magMax l).1 = 0 :=
  of_not_not fun hne => hne (h _ (magMax_mem hne))

/-! ## The first exponent that fits (R63) -/

/-- The search answers the first of its exponents at which the magnitude takes no more than 31 steps. -/
theorem fitExp_some {y : Nat × Int} : ∀ {n e r : Nat}, fitExp y.1 y.2 n e = some r →
    e ≤ r ∧ r < e + n ∧ magSteps y r ≤ 31 ∧ ∀ k, e ≤ k → k < r → 31 < magSteps y k
  | n + 1, e, r, h => by
    rw [fitExp] at h
    split at h
    · next hfit =>
      obtain rfl := Option.some.inj h
      exact ⟨le_rfl, by omega, hfit, fun k h1 h2 => absurd h1 (by omega)⟩
    · next hfit =>
      obtain ⟨h1, h2, h3, h4⟩ := fitExp_some h
      refine ⟨by omega, by omega, h3, fun k hk1 hk2 => ?_⟩
      rcases hk1.eq_or_lt with rfl | hlt
      · exact not_le.mp hfit
      · exact h4 k hlt hk2

theorem fitExp_none {y : Nat × Int} : ∀ {n e : Nat}, fitExp y.1 y.2 n e = none → ∀ k, e ≤ k → k < e + n → 31 < magSteps y k
  | 0, e, _, k, h1, h2 => absurd h1 (by omega)
  | n + 1, e, h, k, h1, h2 => by
    rw [fitExp] at h
    split at h
    · exact absurd h (by simp)
    · next hfit =>
      rcases h1.eq_or_lt with rfl | hlt
      · exact not_le.mp hfit
      · exact fitExp_none h k hlt (by omega)

theorem exists_fitExp {y : Nat × Int} {n e k : Nat} (h1 : e ≤ k) (h2 : k < e + n) (hfit : magSteps y k ≤ 31) :
    ∃ r, fitExp y.1 y.2 n e = some r ∧ r ≤ k := by
  cases h : fitExp y.1 y.2 n e with
  | none => exact absurd (fitExp_none h k h1 h2) (not_lt.mpr hfit)
  | some r => exact ⟨r, rfl, not_lt.mp fun hlt => absurd ((fitExp_some h).2.2.2 k h1 hlt) (not_lt.mpr hfit)⟩

/-! ## The scale and the gap of a group (R63) -/

/-- The scale of a group by its greatest magnitude, if one fits. -/
abbrev fitScale (mags : List (Nat × Int)) : Option Nat := fitExp (magMax mags).1 (magMax mags).2 255 1

/-- The magnitudes the fine scale serves: those under four steps of the scale. -/
abbrev lowMags (mags : List (Nat × Int)) (eh : Nat) : List (Nat × Int) :=
  mags.filter fun x => x.1 ≠ 0 && magLt x.1 x.2 4 ((eh : Int) - 131)

/-- The gap of a group by its scale. -/
def gapOf (mags : List (Nat × Int)) (eh : Nat) : Nat :=
  let l := magMax (lowMags mags eh)
  if l.1 = 0 then 0 else eh - 1 - (fitExp l.1 l.2 256 (eh - 16)).getD (eh - 1)

theorem bx7Group_eq (xs : List (Bool × Nat × Int)) : bx7Group xs =
    if (magMax (xs.map (·.2))).1 = 0 then ⟨1, 0, xs.map fun _ => 0, false⟩
    else
      let eh := (fitScale (xs.map (·.2))).getD 255
      ⟨eh, gapOf (xs.map (·.2)) eh, xs.map (bx7El eh (eh - 1 - gapOf (xs.map (·.2)) eh)), (fitScale (xs.map (·.2))).isNone⟩ := rfl

theorem fitScale_spec (mags : List (Nat × Int)) : let eh := (fitScale mags).getD 255
    1 ≤ eh ∧ eh ≤ 255 ∧ (∀ e, 1 ≤ e → e < eh → 31 < magSteps (magMax mags) e)
      ∧ ((fitScale mags).isNone = false → magSteps (magMax mags) eh ≤ 31)
      ∧ ((fitScale mags).isNone = true → eh = 255 ∧ 31 < magSteps (magMax mags) 255) := by
  cases h : fitScale mags with
  | none =>
    have hnone := fitExp_none h
    exact ⟨by decide, by decide, fun e h1 h2 => hnone e h1 (h2.trans (by decide)), nofun, fun _ => ⟨rfl, hnone 255 (by decide) (by decide)⟩⟩
  | some r =>
    obtain ⟨h1, h2, h3, h4⟩ := fitExp_some h
    exact ⟨h1, Nat.lt_succ_iff.mp (by simpa [Nat.add_comm] using h2), h4, fun _ => h3, nofun⟩

/-- The greatest magnitude under four steps of the scale, which is under eight of the next finer one, fits within sixteen of the scale. -/
theorem gapOf_spec {mags : List (Nat × Int)} {eh : Nat} (heh : 1 ≤ eh) (hl : (magMax (lowMags mags eh)).1 ≠ 0) :
    gapOf mags eh ≤ eh - 1 ∧ eh - 16 ≤ eh - 1 - gapOf mags eh ∧ magSteps (magMax (lowMags mags eh)) (eh - 1 - gapOf mags eh) ≤ 31
      ∧ ∀ e, eh - 16 ≤ e → e < eh - 1 - gapOf mags eh → 31 < magSteps (magMax (lowMags mags eh)) e := by
  have hlow : magQ (magMax (lowMags mags eh)) < magQ (4, (eh : Int) - 131) := by
    have hmem := List.mem_filter.mp (magMax_mem hl)
    exact (magLt_iff _ _ _ _).mp (Bool.and_eq_true_iff.mp hmem.2).2
  have hfit : magSteps (magMax (lowMags mags eh)) (eh - 1) ≤ 31 := by
    refine (rneMag_le (N := 8) ?_).trans (by decide)
    rw [magQ_scaled, div_lt_iff₀ (by positivity)]
    refine hlow.trans_eq ?_
    rw [magQ, show (eh : Int) - 131 = ((eh - 1 : Nat) : Int) - 131 + 1 by omega, zpow_add_one₀ two_ne_zero]
    push_cast
    ring
  obtain ⟨r, hr, hle⟩ := exists_fitExp (n := 256) (show eh - 16 ≤ eh - 1 by omega) (by omega) hfit
  obtain ⟨h1, -, h3, h4⟩ := fitExp_some hr
  have hgap : gapOf mags eh = eh - 1 - r := by rw [gapOf, if_neg hl, hr, Option.getD_some]
  rw [hgap, Nat.sub_sub_self hle]
  exact ⟨Nat.sub_le _ _, h1, h3, h4⟩

theorem gapOf_of_none {mags : List (Nat × Int)} {eh : Nat} (hl : (magMax (lowMags mags eh)).1 = 0) : gapOf mags eh = 0 := if_pos hl

theorem mem_lowMags {mags : List (Nat × Int)} {eh : Nat} {y : Nat × Int} :
    y ∈ lowMags mags eh ↔ y ∈ mags ∧ y.1 ≠ 0 ∧ magQ y < 4 * 2 ^ ((eh : Int) - 131) := by
  rw [List.mem_filter, Bool.and_eq_true, decide_eq_true_eq, magLt_iff]
  exact Iff.rfl

/-- R63: what a group of zeros is quantised to. -/
theorem bx7Group_zero {xs : List (Bool × Nat × Int)} (h : ∀ x ∈ xs, x.2.1 = 0) : bx7Group xs = ⟨1, 0, xs.map fun _ => 0, false⟩ :=
  if_pos (magMax_eq_zero (List.forall_mem_map.mpr h))

theorem bx7Group_nonzero {xs : List (Bool × Nat × Int)} (h : ∃ x ∈ xs, x.2.1 ≠ 0) : (magMax (xs.map (·.2))).1 ≠ 0 := by
  obtain ⟨x, hx, hne⟩ := h
  exact magMax_ne_zero (List.mem_map_of_mem hx) hne

/-- R63: the scale, the gap and the elements of a group that is not all zeros. -/
theorem bx7Group_rules {xs : List (Bool × Nat × Int)} (h : ∃ x ∈ xs, x.2.1 ≠ 0) :
    let g := bx7Group xs
    let low := fun (y : Nat × Int) => y ∈ xs.map (·.2) ∧ y.1 ≠ 0 ∧ magQ y < 4 * 2 ^ ((g.scale : ℤ) - 131)
    (∃ top ∈ xs.map (·.2), (∀ y ∈ xs.map (·.2), magQ y ≤ magQ top) ∧ 1 ≤ g.scale ∧ g.scale ≤ 255
      ∧ (∀ e, 1 ≤ e → e < g.scale → 31 < magSteps top e) ∧ (g.sat = false → magSteps top g.scale ≤ 31)
      ∧ (g.sat = true → g.scale = 255 ∧ 31 < magSteps top 255))
    ∧ ((∀ y, ¬ low y) → g.gap = 0)
    ∧ (∀ y, low y → (∀ z, low z → magQ z ≤ magQ y) → g.gap ≤ g.scale - 1 ∧ g.scale - 16 ≤ g.scale - 1 - g.gap
      ∧ magSteps y (g.scale - 1 - g.gap) ≤ 31 ∧ ∀ e, g.scale - 16 ≤ e → e < g.scale - 1 - g.gap → 31 < magSteps y e)
    ∧ g.els = xs.map (bx7El g.scale (g.scale - 1 - g.gap)) := by
  have htop := bx7Group_nonzero h
  rw [bx7Group_eq, if_neg htop]
  obtain ⟨h1, h2, h3⟩ := fitScale_spec (xs.map (·.2))
  refine ⟨⟨_, magMax_mem htop, fun y => le_magMax, h1, h2, h3⟩, fun hnone => ?_, fun y hy hmax => ?_, rfl⟩
  · exact gapOf_of_none (magMax_eq_zero fun y hy => absurd (mem_lowMags.mp hy) (hnone y))
  · have hy' := mem_lowMags.mpr hy
    have hl := magMax_ne_zero hy' hy.2.1
    have heq : magQ (magMax (lowMags (xs.map (·.2)) _)) = magQ y :=
      le_antisymm (hmax _ (mem_lowMags.mp (magMax_mem hl))) (le_magMax hy')
    obtain ⟨g1, g2, g3, g4⟩ := gapOf_spec h1 hl
    rw [magSteps_congr heq] at g3
    exact ⟨g1, g2, g3, fun e he1 he2 => magSteps_congr heq e ▸ g4 e he1 he2⟩

end Sys2Proof.Machine
end

section
/-! SUPPORT. The bytes of a quantised block, read back (R56, R64); the rules of quantisation. -/

namespace Sys2Proof.Machine

open Sys2Proof.Claims

/-! ## Numbers packed side by side -/

/-- A number of fewer than `p` values with another above it: either is read back. -/
theorem unpack {p x : Nat} (h : x < p) (y : Nat) : (x + p * y) / p = y ∧ (x + p * y) % p = x := by
  refine ⟨?_, ?_⟩
  · rw [Nat.add_mul_div_left _ _ (Nat.zero_lt_of_lt h), Nat.div_eq_of_lt h, zero_add]
  · rw [Nat.add_mul_mod_self_left, Nat.mod_eq_of_lt h]

/-- The field of the model is a number in base 128, its elements the digits. -/
theorem zipIdx_sum_eq_ofDigits (l : List Nat) : ∀ k, ((l.zipIdx k).map fun x => x.1 * 2 ^ (7 * x.2)).sum = 2 ^ (7 * k) * Nat.ofDigits 128 l := by
  induction l with
  | nil => simp
  | cons x l ih =>
    intro k
    rw [List.zipIdx_cons, List.map_cons, List.sum_cons, ih, Nat.ofDigits_cons]
    ring

theorem ofDigits_div_mod {b : Nat} {l : List Nat} {i : Nat} (h : ∀ x ∈ l, x < b) (hi : i < l.length) :
    Nat.ofDigits b l / b ^ i % b = l[i] := by
  have hlt : l[i] < b := h _ (List.getElem_mem hi)
  rw [Nat.ofDigits_div_pow_eq_ofDigits_drop i (Nat.zero_lt_of_lt hlt) l h, List.drop_eq_getElem_cons hi, Nat.ofDigits_cons]
  exact (unpack hlt _).2

/-- R56: selector, sign and magnitude of an element of seven bits. -/
def elBits (x : Nat) : Bool × Bool × Nat := (x.testBit 6, x.testBit 5, x % 32)

theorem fieldEls_ofDigits {l : List Nat} (h : ∀ x ∈ l, x < 128) {i : Nat} (hi : i + 32 ≤ l.length) :
    fieldEls (Nat.ofDigits 128 l) 5 i = ((l.drop i).take 32).map elBits := by
  refine List.ext_getElem (by simp [fieldEls]; omega) fun j h1 h2 => ?_
  have hj : j < 32 := by simpa [fieldEls] using h1
  have hdigit := ofDigits_div_mod h (show i + j < l.length by omega)
  rw [show (128 : Nat) = 2 ^ 7 from rfl, ← pow_mul] at hdigit
  simp only [fieldEls, List.getElem_map, List.getElem_range, List.getElem_take, List.getElem_drop]
  rw [show (128 : Nat) = 2 ^ (5 + 2) from rfl, hdigit]
  rfl

/-! ## The bytes of a block (R56) -/

/-- What a group of 32 values is quantised to. -/
structure GroupOk (g : QGrp) : Prop where
  scale_lt : g.scale < 256
  gap_lt : g.gap < 16
  gap_ok : 1 + g.gap ≤ g.scale
  length : g.els.length = 32
  els_lt : ∀ x ∈ g.els, x < 128

theorem bx7El_lt (eh el : Nat) (x : Bool × Nat × Int) : bx7El eh el x < 128 := by
  have hm : (if rneMag x.2.1 (x.2.2 - ((el : Int) - 131)) ≤ 31 then rneMag x.2.1 (x.2.2 - ((el : Int) - 131))
      else min (rneMag x.2.1 (x.2.2 - ((eh : Int) - 131))) 31) ≤ 31 := by
    split
    · assumption
    · exact min_le_right _ _
  dsimp only [bx7El]
  generalize (if rneMag x.2.1 (x.2.2 - ((el : Int) - 131)) ≤ 31 then rneMag x.2.1 (x.2.2 - ((el : Int) - 131))
      else min (rneMag x.2.1 (x.2.2 - ((eh : Int) - 131))) 31) = m at hm ⊢
  split
  · decide
  · split <;> split <;> omega

theorem bx7Group_ok {xs : List (Bool × Nat × Int)} (h : xs.length = 32) : GroupOk (bx7Group xs) := by
  by_cases hz : ∀ x ∈ xs, x.2.1 = 0
  · rw [bx7Group_zero hz]
    exact ⟨Nat.one_lt_ofNat, Nat.ofNat_pos, le_rfl, by simpa using h, by simp⟩
  · push Not at hz
    have htop := bx7Group_nonzero hz
    rw [bx7Group_eq, if_neg htop]
    obtain ⟨h1, h2, -⟩ := fitScale_spec (xs.map (·.2))
    refine ⟨by dsimp only; omega, ?_, ?_, by simpa using h, List.forall_mem_map.mpr fun x _ => bx7El_lt _ _ x⟩ <;> dsimp only <;>
      by_cases hl : (magMax (lowMags (xs.map (·.2)) ((fitScale (xs.map (·.2))).getD 255))).1 = 0
    · rw [gapOf_of_none hl]
      decide
    · have := gapOf_spec h1 hl
      omega
    · rw [gapOf_of_none hl]
      exact h1
    · have := gapOf_spec h1 hl
      omega

/-- The fields of a block, one above the other. -/
theorem bx7Bytes_nested (a b : QGrp) : bx7Bytes a b =
    16 + 2 ^ 8 * (a.scale + 2 ^ 8 * (Nat.ofDigits 128 (a.els ++ b.els) + 2 ^ 448 * (b.scale + 2 ^ 8 * (a.gap + 16 * b.gap)))) := by
  rw [bx7Bytes, zipIdx_sum_eq_ofDigits (a.els ++ b.els) 0, show 464 = 16 + 448 from rfl, show 472 = 24 + 448 from rfl, pow_add 2 16, pow_add 2 24]
  generalize 2 ^ 448 = P
  ring

theorem div_two_pow_add {x y : Nat} {m n : Nat} (h : x / 2 ^ m = y) : x / 2 ^ (m + n) = y / 2 ^ n := by
  rw [pow_add, ← Nat.div_div_eq_div_mul, h]

/-- Each field is read back from its place. -/
theorem fields_of_nested {s f t g : Nat} (hs : s < 2 ^ 8) (hf : f < 2 ^ 448) (ht : t < 2 ^ 8) (hg : g < 2 ^ 8) :
    let b := 16 + 2 ^ 8 * (s + 2 ^ 8 * (f + 2 ^ 448 * (t + 2 ^ 8 * g)))
    blkByte b 0 = 16 ∧ blkByte b 1 = s ∧ b / 2 ^ 16 % 2 ^ 448 = f ∧ blkByte b 58 = t ∧ blkByte b 59 = g ∧ b / 2 ^ (8 * 60) = 0 := by
  intro b
  have h8 : b / 2 ^ (8 * 1) = _ := (unpack (show 16 < 2 ^ 8 by decide) _).1
  have h16 : b / 2 ^ (8 * 1 + 8) = _ := (div_two_pow_add h8).trans (unpack hs _).1
  have h464 : b / 2 ^ (8 * 1 + 8 + 448) = _ := (div_two_pow_add h16).trans (unpack hf _).1
  have h472 : b / 2 ^ (8 * 1 + 8 + 448 + 8) = g := (div_two_pow_add h464).trans (unpack ht _).1
  refine ⟨?_, ?_, ?_, ?_, ?_, ?_⟩
  · rw [blkByte, Nat.mul_zero, pow_zero, Nat.div_one]
    exact (unpack (show 16 < 256 by decide) _).2
  · rw [blkByte, h8]
    exact (unpack hs _).2
  · rw [show 16 = 8 * 1 + 8 from rfl, h16]
    exact (unpack hf _).2
  · rw [blkByte, show 8 * 58 = 8 * 1 + 8 + 448 from rfl, h464]
    exact (unpack ht _).2
  · rw [blkByte, show 8 * 59 = 8 * 1 + 8 + 448 + 8 from rfl, h472]
    exact Nat.mod_eq_of_lt hg
  · rw [show 8 * 60 = 8 * 1 + 8 + 448 + 8 + 8 from rfl, div_two_pow_add h472]
    exact Nat.div_eq_of_lt hg

/-- R64: the block the quantiser writes reads back as its two groups. -/
theorem readBlock_bx7Bytes {a b : QGrp} (ha : GroupOk a) (hb : GroupOk b) :
    readBlock false (bx7Bytes a b) = .groups [⟨a.scale, a.gap, a.els.map elBits⟩, ⟨b.scale, b.gap, b.els.map elBits⟩] := by
  obtain ⟨hsa, hga, hoka, hla, hea⟩ := ha
  obtain ⟨hsb, hgb, hokb, hlb, heb⟩ := hb
  have hels : ∀ x ∈ a.els ++ b.els, x < 128 := fun x hx => (List.mem_append.mp hx).elim (hea x) (heb x)
  have hlen : (a.els ++ b.els).length = 64 := by rw [List.length_append, hla, hlb]
  have hf : Nat.ofDigits 128 (a.els ++ b.els) < 2 ^ 448 := by
    have := Nat.ofDigits_lt_base_pow_length (by decide) hels
    rwa [hlen, show (128 : Nat) = 2 ^ 7 from rfl, ← pow_mul] at this
  obtain ⟨hc, hscale, hfield, hscale', hgaps, hrest⟩ := bx7Bytes_nested a b ▸ fields_of_nested hsa hf hsb (show a.gap + 16 * b.gap < 2 ^ 8 by omega)
  have hgroups : bx7Groups (bx7Bytes a b) = [⟨a.scale, a.gap, a.els.map elBits⟩, ⟨b.scale, b.gap, b.els.map elBits⟩] := by
    have hlow : ((a.els ++ b.els).drop 0).take 32 = a.els := by simp [← hla]
    have hhigh : ((a.els ++ b.els).drop 32).take 32 = b.els := by simp [← hla, hlb]
    simp only [bx7Groups, hscale, hscale', hfield, hgaps]
    rw [fieldEls_ofDigits hels (by omega), fieldEls_ofDigits hels (by omega), hlow, hhigh, show (a.gap + 16 * b.gap) % 16 = a.gap by omega,
      show (a.gap + 16 * b.gap) / 16 = b.gap by omega]
  have hok : ∀ g ∈ bx7Groups (bx7Bytes a b), 1 + g.gap ≤ g.scale := by
    rw [hgroups]
    exact List.forall_mem_cons.mpr ⟨hoka, List.forall_mem_cons.mpr ⟨hokb, List.forall_mem_nil _⟩⟩
  have hwell : WellFormedBlock false (bx7Bytes a b) := ⟨hc, (div_eq_zero_iff_bytes _ 60).mp hrest, hok⟩
  exact (readBlock_groups hwell).trans (congrArg Block.groups hgroups)

/-! ## The rules of quantisation (R63, R64) -/

/-- Whether a value is an infinity, and its sign, magnitude and exponent where it is a number. -/
def infParts : FV → Bool × Bool × Nat × Int
  | .nan _ => (false, false, 0, 0)
  | .inf _ => (true, false, 0, 0)
  | .num n m e => (false, n, m, e)

theorem infParts_iff (x : FV) : (infParts x).1 = true ↔ ∃ n, x = .inf n := by
  cases x <;> simp [infParts]

theorem quantBlock_eq (xs : List FV) : quantBlock xs =
    if (xs.any FV.isNan || xs.any fun x => (infParts x).1) = true then ⟨0xF0, xs.any FV.isNan, xs.any fun x => (infParts x).1, false⟩
    else if (xs.map fun x => (infParts x).2).all (·.2.1 = 0) then ⟨0, false, false, false⟩
    else
      let a := bx7Group ((xs.map fun x => (infParts x).2).take 32)
      let b := bx7Group ((xs.map fun x => (infParts x).2).drop 32)
      ⟨bx7Bytes a b, false, false, a.sat || b.sat⟩ := by
  have hinf : (fun x : FV => match x with | .inf _ => true | _ => false) = fun x => (infParts x).1 := by
    funext x
    cases x <;> rfl
  have hparts : (fun x : FV => match x with | .num n m e => (n, m, e) | _ => (false, 0, 0)) = fun x => (infParts x).2 := by
    funext x
    cases x <;> rfl
  rw [← hinf, ← hparts]
  rfl

theorem quantBlock_invalid {xs : List FV} (h : (∃ x ∈ xs, x.isNan = true) ∨ ∃ n, FV.inf n ∈ xs) :
    (quantBlock xs).bytes = 0xF0 ∧ (quantBlock xs).sat = false
      ∧ ((quantBlock xs).nan = true ↔ ∃ x ∈ xs, x.isNan = true) ∧ ((quantBlock xs).inf = true ↔ ∃ n, FV.inf n ∈ xs) := by
  have hnan : xs.any FV.isNan = true ↔ ∃ x ∈ xs, x.isNan = true := List.any_eq_true
  have hinf : (xs.any fun x => (infParts x).1) = true ↔ ∃ n, FV.inf n ∈ xs := by
    rw [List.any_eq_true]
    refine ⟨fun ⟨x, hx, hi⟩ => ?_, fun ⟨n, hn⟩ => ⟨_, hn, rfl⟩⟩
    obtain ⟨n, rfl⟩ := (infParts_iff x).mp hi
    exact ⟨n, hx⟩
  rw [quantBlock_eq, if_pos (Bool.or_eq_true_iff.mpr (h.imp hnan.mpr hinf.mpr))]
  exact ⟨rfl, rfl, hnan, hinf⟩

theorem quantBlock_numbers (vs : List (Bool × Nat × Int)) : quantBlock (vs.map fun v => .num v.1 v.2.1 v.2.2) =
    if vs.all (·.2.1 = 0) then ⟨0, false, false, false⟩
    else ⟨bx7Bytes (bx7Group (vs.take 32)) (bx7Group (vs.drop 32)), false, false, (bx7Group (vs.take 32)).sat || (bx7Group (vs.drop 32)).sat⟩ := by
  have hvs : ((vs.map fun v => FV.num v.1 v.2.1 v.2.2).map fun x => (infParts x).2) = vs := (List.map_map ..).trans (List.map_id _)
  have hbad : ¬ ((vs.map fun v => FV.num v.1 v.2.1 v.2.2).any FV.isNan
      || (vs.map fun v => FV.num v.1 v.2.1 v.2.2).any fun x => (infParts x).1) = true := by
    simp [FV.isNan, infParts]
  rw [quantBlock_eq, if_neg hbad, hvs]

theorem quantRules : QuantRules := by
  refine ⟨fun m d => ?_, fun xs => bx7Group_zero, fun xs => bx7Group_rules, fun xs => quantBlock_invalid, fun vs => ⟨fun hz => ?_, fun hlen hnz => ?_⟩⟩
  · obtain ⟨hi, h⟩ := rneMag_rounds m d
    exact h.nearest
  · rw [quantBlock_numbers, if_pos (List.all_eq_true.mpr fun v hv => decide_eq_true (hz v hv))]
  · obtain ⟨v, hv, hne⟩ := hnz
    rw [quantBlock_numbers, if_neg fun hall => hne (of_decide_eq_true (List.all_eq_true.mp hall v hv))]
    exact ⟨rfl, rfl, rfl, readBlock_bx7Bytes (bx7Group_ok (by simp [hlen])) (bx7Group_ok (by simp [hlen]))⟩

end Sys2Proof.Machine
end

section
/-! SUPPORT. VCVT, VQB and VDQB (R175 to R177); O44. -/

namespace Sys2Proof.Machine

open Sys2Proof.Claims

/-- R177: a block that VDQB reads, zero past the last. -/
theorem blocks_getD (n b : Nat) (f : Nat → Block) : ((List.range n).map f).getD b .zero = if b < n then f b else .zero := by
  rw [List.getD_eq_getElem?_getD, List.getElem?_map]
  by_cases h : b < n
  · rw [List.getElem?_range h, if_pos h]
    rfl
  · rw [List.getElem?_eq_none (by simpa using h), if_neg h]
    rfl

theorem execVdqb_legal {s : State} {o : OpVdqb} (h : esLegal s.cell.es.sh (.vdqb o) = true) :
    let x := s.ev o.m
    let bytes := if o.bx3 then x.vl / 2 else x.vl
    let k := ceilDiv bytes 256
    let block := fun (b : Nat) => if b < bytes / 64 then readBlock o.bx3 (s.cell.es.span o.a.toNat k / 2 ^ (512 * b) % 2 ^ 512) else .zero
    let r := mapActive x fun i => dqbEl (fmtOf x.ty) x.rm (block (i / if o.bx3 then 128 else 64)) (i % if o.bx3 then 128 else 64)
    exec (.vdqb o) s = .next (s.esWrite 3 o.d x.w x.g r.1 (s.cell.es.spanPsn o.a.toNat k || x.mask.psn) r.2 (max x.g k)) := by
  refine (congrArg Host.Outcome.next (esLegalOr_on h _)).trans ?_
  simp only [blocks_getD]
  rfl

theorem dqbEl_group (f : FFmt) (rm : Nat) {i : Nat} {gs : List Grp} {g : Grp} (h : gs[i / 32]? = some g) :
    dqbEl f rm (.groups gs) i = f.encode rm (g.val (g.els.getD (i % 32) (false, false, 0))) := by
  simp only [dqbEl, h]

end Sys2Proof.Machine

namespace Sys2Proof.Proofs

open Sys2Proof.Machine Sys2Proof.Claims

/-- Settles O44: the special functions, the conversions, the reading of a block and the quantiser by the rules proved of them above; VCVT, VQB
and VDQB by the write they issue where they are legal. -/
theorem esConvertResult : Obligations.EsConvertResult := by
  unfold Obligations.EsConvertResult
  refine ⟨fun s o => ⟨elementwise1_of_exec rfl, elementwise1_of_exec rfl, elementwise1_of_exec rfl, elementwise1_of_exec rfl⟩,
    specialRules, convertRules, blockReading, quantRules, fun s o h => ?_, fun s o h => ?_, fun s o h => ?_,
    fun f rm i gs => ⟨rfl, rfl, rfl, fun g => dqbEl_group f rm⟩⟩
  · exact esWrites_of_exec (congrArg _ (esLegalOr_on h _))
  · exact esWrites_of_exec (congrArg _ (esLegalOr_on h _))
  · exact esWrites_of_exec (execVdqb_legal h)

end Sys2Proof.Proofs
end

section
/-! SUPPORT. The fields of the words that the encoder writes (R81, R82, R87, R89), and what `req` and `reqSome` let through. -/

namespace Sys2Proof.Machine

open BitVec (extractLsb'_append_eq_of_add_le extractLsb'_append_eq_of_le extractLsb'_append_eq_left extractLsb'_append_eq_right
  getLsbD_append getLsbD_eq_getElem)

/-! ## Field codes (R82, R88) -/

@[simp] theorem scope_ofCode_code (x : Scope) : Scope.ofCode x.code = some x := by cases x <;> rfl
@[simp] theorem cond_ofCode_code (x : Cond) : Cond.ofCode x.code = some x := by cases x <;> rfl
@[simp] theorem amoOp_ofCode_code (x : AmoOp) : AmoOp.ofCode x.code = some x := by cases x <;> rfl
@[simp] theorem ring_ofCode_code (x : Ring) : Ring.ofCode x.code = some x := by cases x <;> rfl
@[simp] theorem tlbiKind_ofCode_code (x : TlbiKind) : TlbiKind.ofCode x.code = some x := by cases x <;> rfl
@[simp] theorem vcond_ofCode_code (x : VCond) : VCond.ofCode x.code = some x := by cases x <;> rfl
@[simp] theorem econd_ofCode_code (x : ECond) : ECond.ofCode x.code = some x := by cases x <;> rfl
@[simp] theorem wbFmt_ofCode_code (x : WbFmt) : WbFmt.ofCode x.code = some x := by cases x <;> rfl
@[simp] theorem sysReg_ofCode_code (x : SysReg) : SysReg.ofCode x.code = some x := by cases x <;> rfl

@[simp] theorem queue_ofCode_code : ∀ x : Queue, Queue.ofCode x.code = some x
  | .q i => (by decide : ∀ i : BitVec 2, Queue.ofCode (Queue.q i).code = some (.q i)) i
  | .y i => by cases i <;> rfl
  | .lq | .bqa | .bqe => rfl

@[simp] theorem lqueue_ofCode_code : ∀ x : LQueue, LQueue.ofCode x.code = some x
  | .q i => (by decide : ∀ i : BitVec 2, LQueue.ofCode (LQueue.q i).code = some (.q i)) i
  | .lq => rfl

@[simp] theorem pqueue_ofCode_code : ∀ x : PQueue, PQueue.ofCode x.code = some x
  | .y i => by cases i <;> rfl
  | .lq => rfl

/-! ## Checks of a decoder -/

@[simp] theorem req_true (e : DecodeError) (k : Except DecodeError Instr) : req true e k = k := rfl
@[simp] theorem req_false (e : DecodeError) (k : Except DecodeError Instr) : req false e k = .error e := rfl
@[simp] theorem reqSome_some {α : Type} (a : α) (k : α → Except DecodeError Instr) : reqSome (some a) k = k a := rfl
@[simp] theorem reqSome_none {α : Type} (k : α → Except DecodeError Instr) : reqSome none k = .error .fieldCode := rfl

/-! ## The fields of an AS word (R81) -/

@[simp] theorem asMajor_asWord (m : BitVec 6) (g : Guard) (r : BitVec 22) : asMajor (asWord m g r) = m :=
  extractLsb'_append_eq_left

@[simp] theorem asGuard_asWord (m : BitVec 6) (g : Guard) (r : BitVec 22) : asGuard (asWord m g r) = g := by
  unfold asGuard asWord
  simp (disch := decide) only [extractLsb'_append_eq_of_le, extractLsb'_append_eq_of_add_le, getLsbD_append]
  simp

@[simp] theorem extractLsb'_asWord (m : BitVec 6) (g : Guard) (r : BitVec 22) {s n : Nat} (h : s + n ≤ 22) :
    (asWord m g r).extractLsb' s n = r.extractLsb' s n := by
  unfold asWord
  rw [extractLsb'_append_eq_of_add_le (by omega), extractLsb'_append_eq_of_add_le (by omega),
    extractLsb'_append_eq_of_add_le h]

@[simp] theorem asD_asWord (m : BitVec 6) (g : Guard) (r : BitVec 22) : asD (asWord m g r) = r.extractLsb' 17 5 :=
  extractLsb'_asWord m g r (by decide)
@[simp] theorem asA_asWord (m : BitVec 6) (g : Guard) (r : BitVec 22) : asA (asWord m g r) = r.extractLsb' 12 5 :=
  extractLsb'_asWord m g r (by decide)
@[simp] theorem asB_asWord (m : BitVec 6) (g : Guard) (r : BitVec 22) : asB (asWord m g r) = r.extractLsb' 7 5 :=
  extractLsb'_asWord m g r (by decide)
@[simp] theorem asFn_asWord (m : BitVec 6) (g : Guard) (r : BitVec 22) : asFn (asWord m g r) = r.extractLsb' 0 7 :=
  extractLsb'_asWord m g r (by decide)
@[simp] theorem asImm12_asWord (m : BitVec 6) (g : Guard) (r : BitVec 22) : asImm12 (asWord m g r) = r.extractLsb' 0 12 :=
  extractLsb'_asWord m g r (by decide)

@[simp] theorem extractLsb'_fA_d (d a b : BitVec 5) (fn : BitVec 7) {s n : Nat} (h : 17 ≤ s) :
    (fA d a b fn).extractLsb' s n = d.extractLsb' (s - 17) n := by
  unfold fA
  rw [extractLsb'_append_eq_of_le (by omega)]

@[simp] theorem extractLsb'_fA_a (d a b : BitVec 5) (fn : BitVec 7) {s n : Nat} (h : 12 ≤ s) (h' : s + n ≤ 17) :
    (fA d a b fn).extractLsb' s n = a.extractLsb' (s - 12) n := by
  unfold fA
  rw [extractLsb'_append_eq_of_add_le (by omega), extractLsb'_append_eq_of_le (by omega)]

@[simp] theorem extractLsb'_fA_b (d a b : BitVec 5) (fn : BitVec 7) {s n : Nat} (h : 7 ≤ s) (h' : s + n ≤ 12) :
    (fA d a b fn).extractLsb' s n = b.extractLsb' (s - 7) n := by
  unfold fA
  rw [extractLsb'_append_eq_of_add_le (by omega), extractLsb'_append_eq_of_add_le (by omega),
    extractLsb'_append_eq_of_le (by omega)]

@[simp] theorem extractLsb'_fA_fn (d a b : BitVec 5) (fn : BitVec 7) {s n : Nat} (h : s + n ≤ 7) :
    (fA d a b fn).extractLsb' s n = fn.extractLsb' s n := by
  unfold fA
  rw [extractLsb'_append_eq_of_add_le (by omega), extractLsb'_append_eq_of_add_le (by omega),
    extractLsb'_append_eq_of_add_le h]

@[simp] theorem extractLsb'_fA_bfn (d a b : BitVec 5) (fn : BitVec 7) : (fA d a b fn).extractLsb' 0 12 = b ++ fn := by
  unfold fA
  rw [extractLsb'_append_eq_of_add_le (by omega), extractLsb'_append_eq_right]

@[simp] theorem getLsbD_fA_fn (d a b : BitVec 5) (fn : BitVec 7) {i : Nat} (h : i < 7) : (fA d a b fn).getLsbD i = fn.getLsbD i := by
  unfold fA
  rw [getLsbD_append, if_pos (by omega), getLsbD_append, if_pos (by omega), getLsbD_append, if_pos h]

@[simp] theorem getLsbD_asWord (m : BitVec 6) (g : Guard) (r : BitVec 22) {i : Nat} (h : i < 22) : (asWord m g r).getLsbD i = r.getLsbD i := by
  unfold asWord
  rw [getLsbD_append, if_pos (by omega), getLsbD_append, if_pos (by omega), getLsbD_append, if_pos h]

@[simp] theorem extractLsb'_fI_d (d a : BitVec 5) (imm : BitVec 12) {s n : Nat} (h : 17 ≤ s) :
    (fI d a imm).extractLsb' s n = d.extractLsb' (s - 17) n := by
  unfold fI
  rw [extractLsb'_append_eq_of_le (by omega)]

@[simp] theorem extractLsb'_fI_a (d a : BitVec 5) (imm : BitVec 12) {s n : Nat} (h : 12 ≤ s) (h' : s + n ≤ 17) :
    (fI d a imm).extractLsb' s n = a.extractLsb' (s - 12) n := by
  unfold fI
  rw [extractLsb'_append_eq_of_add_le (by omega), extractLsb'_append_eq_of_le (by omega)]

@[simp] theorem extractLsb'_fI_imm (d a : BitVec 5) (imm : BitVec 12) {s n : Nat} (h : s + n ≤ 12) :
    (fI d a imm).extractLsb' s n = imm.extractLsb' s n := by
  unfold fI
  rw [extractLsb'_append_eq_of_add_le (by omega), extractLsb'_append_eq_of_add_le h]

@[simp] theorem extractLsb'_fI_aimm (d a : BitVec 5) (imm : BitVec 12) : (fI d a imm).extractLsb' 0 17 = a ++ imm :=
  extractLsb'_append_eq_right

@[simp] theorem extractLsb'_p5 (p : BitVec 3) {n : Nat} (h : n ≤ 3) : (p5 p).extractLsb' 0 n = p.extractLsb' 0 n :=
  extractLsb'_append_eq_of_add_le (by omega)
@[simp] theorem extractLsb'_p5_high (p : BitVec 3) : (p5 p).extractLsb' 3 2 = 0 := extractLsb'_append_eq_left
@[simp] theorem extractLsb'_t5 (t : BitVec 2) : (t5 t).extractLsb' 0 2 = t := extractLsb'_append_eq_right
@[simp] theorem extractLsb'_t5_high (t : BitVec 2) : (t5 t).extractLsb' 2 3 = 0 := extractLsb'_append_eq_left
@[simp] theorem extractLsb'_y5_high (y : Bool) : (y5 y).extractLsb' 1 4 = 0 := extractLsb'_append_eq_left
@[simp] theorem getLsbD_y5 (y : Bool) : (y5 y).getLsbD 0 = y := by cases y <;> rfl

@[simp] theorem extractLsb'_fM_d (d a : BitVec 5) (c : Cls) (off : BitVec 8) : (fM d a c off).extractLsb' 17 5 = d :=
  extractLsb'_append_eq_left

@[simp] theorem extractLsb'_fM_a (d a : BitVec 5) (c : Cls) (off : BitVec 8) : (fM d a c off).extractLsb' 12 5 = a := by
  unfold fM
  rw [extractLsb'_append_eq_of_add_le (by omega), extractLsb'_append_eq_left]

@[simp] theorem extractLsb'_fM_cls (d a : BitVec 5) (c : Cls) (off : BitVec 8) : (fM d a c off).extractLsb' 8 4 = c := by
  unfold fM
  rw [extractLsb'_append_eq_of_add_le (by omega), extractLsb'_append_eq_of_add_le (by omega), extractLsb'_append_eq_left]

@[simp] theorem extractLsb'_fM_off (d a : BitVec 5) (c : Cls) (off : BitVec 8) : (fM d a c off).extractLsb' 0 8 = off := by
  unfold fM
  rw [extractLsb'_append_eq_of_add_le (by omega), extractLsb'_append_eq_of_add_le (by omega), extractLsb'_append_eq_right]

end Sys2Proof.Machine
end

section
/-! SUPPORT. The decoders of the AS's formats read what the encoder writes (R83 to R86); O2. -/

namespace Sys2Proof.Machine

open BitVec (extractLsb'_append_eq_of_add_le extractLsb'_append_eq_of_le extractLsb'_append_eq_left extractLsb'_append_eq_right
  getLsbD_append getLsbD_eq_getElem)

/-! ## The decoders of the AS's formats read what the encoder writes (R81, R84, R85) -/

theorem decodeAlu_encAlu (o : OpA) :
    decodeAlu (encAlu o 0x00) = .ok (.add o) ∧ decodeAlu (encAlu o 0x01) = .ok (.sub o) ∧ decodeAlu (encAlu o 0x02) = .ok (.and o)
    ∧ decodeAlu (encAlu o 0x03) = .ok (.or o) ∧ decodeAlu (encAlu o 0x04) = .ok (.xor o) ∧ decodeAlu (encAlu o 0x05) = .ok (.andn o)
    ∧ decodeAlu (encAlu o 0x06) = .ok (.shl o) ∧ decodeAlu (encAlu o 0x07) = .ok (.shr o) ∧ decodeAlu (encAlu o 0x08) = .ok (.sar o)
    ∧ decodeAlu (encAlu o 0x09) = .ok (.min o) ∧ decodeAlu (encAlu o 0x0A) = .ok (.max o) ∧ decodeAlu (encAlu o 0x0B) = .ok (.minn o)
    ∧ decodeAlu (encAlu o 0x0C) = .ok (.maxn o) ∧ decodeAlu (encAlu o 0x10) = .ok (.mul o) ∧ decodeAlu (encAlu o 0x11) = .ok (.mulh o)
    ∧ decodeAlu (encAlu o 0x12) = .ok (.mulhn o) ∧ decodeAlu (encAlu o 0x14) = .ok (.div o) ∧ decodeAlu (encAlu o 0x15) = .ok (.divn o)
    ∧ decodeAlu (encAlu o 0x16) = .ok (.rem o) ∧ decodeAlu (encAlu o 0x17) = .ok (.remn o) := by
  simp [decodeAlu, encAlu, opA]

theorem decodeAlu_un (o : OpUn) :
    decodeAlu (asWord 0x01 o.pg (fA o.d o.a 0 0x0D)) = .ok (.clz o) ∧ decodeAlu (asWord 0x01 o.pg (fA o.d o.a 0 0x0E)) = .ok (.popc o) := by
  simp [decodeAlu, decodeUn]

theorem decodeAlu_sel (o : OpSel) : decodeAlu (asWord 0x01 o.pg (fA o.d o.a o.b ((3 : BitVec 4) ++ o.sel))) = .ok (.sel o) := by
  obtain ⟨g, d, a, b, p⟩ := o
  obtain rfl | rfl | rfl | rfl | rfl | rfl | rfl | rfl :=
    (by decide : ∀ p : BitVec 3, p = 0 ∨ p = 1 ∨ p = 2 ∨ p = 3 ∨ p = 4 ∨ p = 5 ∨ p = 6 ∨ p = 7) p
  all_goals simp [decodeAlu]

theorem opI_encI (m : BitVec 6) (o : OpI) : opI (encI m o) = o := by simp [opI, encI]

theorem opMem_encMem (m : BitVec 6) (o : OpMem) : opMem (encMem m o) = o := by simp [opMem, encMem]

theorem decodeSh_encSh (m : BitVec 6) (o : OpSh) (k : OpSh → Instr) : decodeSh (encSh m o) k = .ok (k o) := by
  simp [-Nat.reduceAdd, encSh, decodeSh, extractLsb'_append_eq_of_add_le, extractLsb'_append_eq_of_le]

theorem decodeLdih_encLdih (m : BitVec 6) (o : OpLdih) (k : OpLdih → Instr) : decodeLdih (encLdih m o) k = .ok (k o) := by
  simp [-Nat.reduceAdd, -getLsbD_eq_getElem, encLdih, decodeLdih, extractLsb'_append_eq_of_add_le, extractLsb'_append_eq_of_le, getLsbD_append]

theorem decodeBit_encBit (m : BitVec 6) {o : OpBit} (k : OpBit → Instr) (h : o.pos.toNat + o.len1.toNat + 1 ≤ 64) :
    decodeBit (encBit m o) k = .ok (k o) := by
  simp [-Nat.reduceAdd, encBit, decodeBit, extractLsb'_append_eq_of_add_le, extractLsb'_append_eq_of_le, h]

theorem decodeCmp_encode (o : OpCmp) : decodeCmp (asWord 0x0F o.pg (fA (p5 o.d) o.a o.b ((0 : BitVec 4) ++ o.cond.code))) = .ok (.cmp o) := by
  simp [-Nat.reduceAdd, decodeCmp, extractLsb'_append_eq_of_add_le, extractLsb'_append_eq_of_le]

theorem decodeCmpi_encode (o : OpCmpi) : decodeCmpi (asWord 0x10 o.pg (fI (p5 o.d) o.a (o.cond.code ++ o.imm))) = .ok (.cmpi o) := by
  simp [-Nat.reduceAdd, decodeCmpi, extractLsb'_append_eq_of_add_le, extractLsb'_append_eq_of_le]

theorem decodePred_encPred (o : OpPred) :
    decodePred (encPred 0 o) = .ok (.pand o) ∧ decodePred (encPred 1 o) = .ok (.por o) ∧ decodePred (encPred 2 o) = .ok (.pxor o) := by
  simp [-Nat.reduceAdd, -getLsbD_eq_getElem, decodePred, encPred, extractLsb'_append_eq_of_add_le, extractLsb'_append_eq_of_le, getLsbD_append]

theorem decodeG_encG (m : BitVec 6) (o : OpG) (k : OpG → Instr) : decodeG (encG m o) k = .ok (k o) := by simp [encG, decodeG]

theorem decodeMemQ_encMemQ (m : BitVec 6) (o : OpMemQ) (k : OpMemQ → Instr) : decodeMemQ (encMemQ m o) k = .ok (k o) := by
  simp [encMemQ, decodeMemQ]

theorem decodeStq_encode (o : OpStq) :
    decodeStq (asWord 0x1D o.pg (fM ((2 : BitVec 4) ++ BitVec.ofBool o.y) o.base o.cls o.off)) = .ok (.stq o) := by
  simp [-Nat.reduceAdd, -getLsbD_eq_getElem, decodeStq, extractLsb'_append_eq_of_le, getLsbD_append]

theorem decodeHint_encHint (m : BitVec 6) (o : OpHint) (k : OpHint → Instr) : decodeHint (encHint m o) k = .ok (k o) := by
  simp [-getLsbD_eq_getElem, encHint, decodeHint]

theorem decodeChk_reg (o : OpR) : decodeChk (asWord 0x21 o.pg (fA 0 o.a 0 0)) = .ok (.chk o) := by simp [decodeChk]

theorem decodeChk_pred (o : OpP) : decodeChk (asWord 0x21 o.pg (fA 0 (p5 o.a) 0 1)) = .ok (.chkPred o) := by simp [decodeChk]

theorem decodeTlbi_encode {o : OpTlbi} (h : (Instr.tlbi o).wf = true) :
    decodeTlbi (asWord 0x22 o.pg (fA 0 o.a 0 ((0 : BitVec 2) ++ (o.scope.code ++ o.kind.code)))) = .ok (.tlbi o) := by
  have hreq : (!decide (o.kind = .all) || decide (o.a = 0#5)) = true := by simpa [Instr.wf] using h
  simp [-Nat.reduceAdd, decodeTlbi, extractLsb'_append_eq_of_add_le, extractLsb'_append_eq_of_le, hreq]

theorem decodeAmo_encAmo (m : BitVec 6) {o : OpAmo} {sc : Bool} (k : OpAmo → Instr) (h : sc = true → o.scope ≠ .system) :
    decodeAmo (encAmo m o) sc k = .ok (k o) := by
  cases sc <;> simp_all [-Nat.reduceAdd, encAmo, decodeAmo, extractLsb'_append_eq_of_add_le, extractLsb'_append_eq_of_le]

theorem decodeCas_encode (o : OpCas) : decodeCas (asWord 0x24 o.pg (fA o.d o.a o.b (o.scope.code ++ o.cls))) = .ok (.cas o) := by
  simp [-Nat.reduceAdd, decodeCas, extractLsb'_append_eq_of_add_le, extractLsb'_append_eq_of_le]

theorem decodeScld_encode {o : OpScld} (h : o.scope ≠ .system) :
    decodeScld (asWord 0x25 o.pg (fA 0 o.a 0 (o.scope.code ++ o.cls))) = .ok (.scld o) := by
  simp [-Nat.reduceAdd, decodeScld, extractLsb'_append_eq_of_add_le, extractLsb'_append_eq_of_le, h]

theorem decodeScst_encode {o : OpScst} (h : o.scope ≠ .system) :
    decodeScst (asWord 0x26 o.pg (fA 0 o.a o.b (o.scope.code ++ o.cls))) = .ok (.scst o) := by
  simp [-Nat.reduceAdd, decodeScst, extractLsb'_append_eq_of_add_le, extractLsb'_append_eq_of_le, h]

theorem decodeFence_encode {o : OpFence} (h : o.mask ≠ 0) :
    decodeFence (asWord 0x28 o.pg (o.scope.code ++ ((0 : BitVec 3) ++ o.mask))) = .ok (.fence o) := by
  have hm : o.mask ≠ 0#16 := h
  simp [-Nat.reduceAdd, decodeFence, extractLsb'_append_eq_of_add_le, extractLsb'_append_eq_of_le, hm]

theorem decodeFork_encode (o : OpFork) :
    decodeFork (asWord 0x2A o.pg (fA o.d o.a o.b ((0 : BitVec 3) ++ (BitVec.ofBool o.join ++ o.prio)))) = .ok (.fork o) := by
  simp [-Nat.reduceAdd, -getLsbD_eq_getElem, decodeFork, extractLsb'_append_eq_of_add_le, extractLsb'_append_eq_of_le, getLsbD_append]

theorem decodeJoin_encode (o : OpJoin) : decodeJoin (asWord 0x2B o.pg (fA 0 o.a o.b 0)) = .ok (.join o) := by simp [decodeJoin]

theorem decodeEnq_encode (o : OpEnq) : decodeEnq (asWord 0x2D o.pg (fA o.ring.code o.a o.b 0)) = .ok (.enq o) := by simp [decodeEnq]

theorem decodeEnqs_encode (o : OpEnqs) : decodeEnqs (asWord 0x2E o.pg (fA o.ring.code o.a 0 0)) = .ok (.enqs o) := by
  simp [decodeEnqs]

theorem decodeR_encR (m : BitVec 6) (o : OpR) (k : OpR → Instr) : decodeR (encR m o) k = .ok (k o) := by simp [encR, decodeR]

theorem decodePbrR_encode (o : OpPbrR) : decodePbrR (asWord 0x31 o.pg (fI (t5 o.t) o.a 0)) = .ok (.pbrReg o) := by simp [decodePbrR]

theorem decodeT_encT (m : BitVec 6) (o : OpT) (k : OpT → Instr) : decodeT (encT m o) k = .ok (k o) := by
  simp [encT, decodeT]

theorem decodeBqp_encode (o : OpP) : decodeBqp (asWord 0x34 o.pg (fI 0 (p5 o.a) 0)) = .ok (.bqp o) := by simp [decodeBqp]

theorem decodeLoop_encode (o : OpLoop) : decodeLoop (asWord 0x37 o.pg (fI (t5 o.t) o.a 0)) = .ok (.loop o) := by simp [decodeLoop]

theorem decodeQueueOp_pop (o : OpPop) : decodeQueueOp (asWord 0x39 o.pg (fA o.d o.q.code 0 0)) = .ok (.pop o) := by simp [decodeQueueOp]

theorem decodeQueueOp_qpush (o : OpQpush) : decodeQueueOp (asWord 0x39 o.pg (fA (t5 o.q) 0 o.b 1)) = .ok (.qpush o) := by
  simp [decodeQueueOp]

theorem decodeQueueOp_qstat (o : OpQstat) : decodeQueueOp (asWord 0x39 o.pg (fA o.d o.q.code 0 2)) = .ok (.qstat o) := by
  simp [decodeQueueOp]

theorem decodeSemOp_encSem (o : OpSem) :
    decodeSemOp (encSem 0 o) = .ok (.sems o) ∧ decodeSemOp (encSem 1 o) = .ok (.semw o) ∧ decodeSemOp (encSem 2 o) = .ok (.semdrop o) := by
  simp [-Nat.reduceAdd, encSem, decodeSemOp, extractLsb'_append_eq_of_add_le, extractLsb'_append_eq_of_le]

theorem decodeSemOp_semrd {o : OpSemrd} (h : o.s ≠ 63) :
    decodeSemOp (asWord 0x3A o.pg (fI o.d 0 (o.s ++ (3 : BitVec 6)))) = .ok (.semrd o) := by
  have hs : o.s ≠ 63#6 := h
  simp [-Nat.reduceAdd, decodeSemOp, extractLsb'_append_eq_of_add_le, extractLsb'_append_eq_of_le, hs]

theorem decodeRep_encRep (o : OpRep) (k : OpRep → Instr) : decodeRep (encRep o) k = .ok (k o) := by
  simp [-Nat.reduceAdd, decodeRep, encRep, extractLsb'_append_eq_of_add_le, extractLsb'_append_eq_of_le]

/-! ## The major opcodes (R83) -/

@[simp] theorem asMajor_encAlu (o : OpA) (fn : BitVec 7) : asMajor (encAlu o fn) = 0x01 := asMajor_asWord _ _ _
@[simp] theorem asMajor_encI (m : BitVec 6) (o : OpI) : asMajor (encI m o) = m := asMajor_asWord _ _ _
@[simp] theorem asMajor_encSh (m : BitVec 6) (o : OpSh) : asMajor (encSh m o) = m := asMajor_asWord _ _ _
@[simp] theorem asMajor_encLdih (m : BitVec 6) (o : OpLdih) : asMajor (encLdih m o) = m := asMajor_asWord _ _ _
@[simp] theorem asMajor_encBit (m : BitVec 6) (o : OpBit) : asMajor (encBit m o) = m := asMajor_asWord _ _ _
@[simp] theorem asMajor_encPred (f : BitVec 2) (o : OpPred) : asMajor (encPred f o) = 0x11 := asMajor_asWord _ _ _
@[simp] theorem asMajor_encG (m : BitVec 6) (o : OpG) : asMajor (encG m o) = m := asMajor_asWord _ _ _
@[simp] theorem asMajor_encMem (m : BitVec 6) (o : OpMem) : asMajor (encMem m o) = m := asMajor_asWord _ _ _
@[simp] theorem asMajor_encMemQ (m : BitVec 6) (o : OpMemQ) : asMajor (encMemQ m o) = m := asMajor_asWord _ _ _
@[simp] theorem asMajor_encHint (m : BitVec 6) (o : OpHint) : asMajor (encHint m o) = m := asMajor_asWord _ _ _
@[simp] theorem asMajor_encR (m : BitVec 6) (o : OpR) : asMajor (encR m o) = m := asMajor_asWord _ _ _
@[simp] theorem asMajor_encT (m : BitVec 6) (o : OpT) : asMajor (encT m o) = m := asMajor_asWord _ _ _
@[simp] theorem asMajor_encAmo (m : BitVec 6) (o : OpAmo) : asMajor (encAmo m o) = m := asMajor_asWord _ _ _
@[simp] theorem asMajor_encSem (f : BitVec 6) (o : OpSem) : asMajor (encSem f o) = 0x3A := asMajor_asWord _ _ _
@[simp] theorem asMajor_encRep (o : OpRep) : asMajor (encRep o) = 0x3F := extractLsb'_append_eq_left

/-! ## The instructions whose decoder is written in the map of majors -/

theorem decodeAs_ldi (o : OpLdi) : decodeAs (asWord 0x09 o.pg (o.d ++ o.imm)) = .ok (.ldi o) := by
  rw [decodeAs, asMajor_asWord]
  change Except.ok (Instr.ldi _) = _
  simp [-Nat.reduceAdd, extractLsb'_append_eq_of_add_le, extractLsb'_append_eq_of_le]

theorem decodeAs_sega (o : OpSega) : decodeAs (asWord 0x12 o.pg (fI o.d o.a ((0 : BitVec 6) ++ o.seg))) = .ok (.sega o) := by
  rw [decodeAs, asMajor_asWord]
  change req _ _ (.ok (.sega _)) = _
  simp [-Nat.reduceAdd, extractLsb'_append_eq_of_add_le, extractLsb'_append_eq_of_le]

theorem decodeAs_adr2 (o : OpAdr2) : decodeAs (asWord 0x13 o.pg (fA o.d o.a o.b ((0 : BitVec 4) ++ o.k))) = .ok (.adr2 o) := by
  rw [decodeAs, asMajor_asWord]
  change req _ _ (.ok (.adr2 _)) = _
  simp [-Nat.reduceAdd, extractLsb'_append_eq_of_add_le, extractLsb'_append_eq_of_le]

theorem decodeAs_srr (o : OpSrr) : decodeAs (asWord 0x14 o.pg (fI o.d 0 o.reg.code)) = .ok (.srr o) := by
  rw [decodeAs, asMajor_asWord]
  change req _ _ (reqSome _ fun r => .ok (.srr ⟨_, _, r⟩)) = _
  simp

theorem decodeAs_srw (o : OpSrw) : decodeAs (asWord 0x15 o.pg (fI 0 o.a o.reg.code)) = .ok (.srw o) := by
  rw [decodeAs, asMajor_asWord]
  change req _ _ (reqSome _ fun r => .ok (.srw ⟨_, r, _⟩)) = _
  simp

theorem decodeAs_trap (o : OpTrap) : decodeAs (asWord 0x29 o.pg o.imm) = .ok (.trap o) := by
  rw [decodeAs, asMajor_asWord]
  change Except.ok (Instr.trap _) = _
  simp

theorem decodeAs_pbr (o : OpPbr) : decodeAs (asWord 0x30 o.pg (o.t ++ o.imm)) = .ok (.pbr o) := by
  rw [decodeAs, asMajor_asWord]
  change Except.ok (Instr.pbr _) = _
  simp [-Nat.reduceAdd, extractLsb'_append_eq_of_add_le, extractLsb'_append_eq_of_le]

theorem decodeAs_waita (o : OpWaita) : decodeAs (asWord 0x3B o.pg (fA o.d o.a o.b (o.f ++ o.cls))) = .ok (.waita o) := by
  rw [decodeAs, asMajor_asWord]
  change req _ _ (.ok (.waita _)) = _
  simp [-Nat.reduceAdd, extractLsb'_append_eq_of_add_le, extractLsb'_append_eq_of_le]

/-- R84: major 0x01 is the ALU group. -/
theorem decodeAs_of_alu {w : Word32} (h : asMajor w = 0x01) : decodeAs w = decodeAlu w := by
  rw [decodeAs, h]
  rfl

theorem decodeAs_immediate (o : OpI) :
    decodeAs (encI 0x02 o) = .ok (.addi o) ∧ decodeAs (encI 0x03 o) = .ok (.andi o) ∧ decodeAs (encI 0x04 o) = .ok (.ori o)
    ∧ decodeAs (encI 0x05 o) = .ok (.xori o) := by
  refine ⟨?_, ?_, ?_, ?_⟩ <;> rw [decodeAs, asMajor_encI] <;> exact congrArg _ (congrArg _ (opI_encI _ o))

theorem decodeAs_mem (o : OpMem) :
    decodeAs (encMem 0x18 o) = .ok (.lds o) ∧ decodeAs (encMem 0x19 o) = .ok (.sts o) ∧ decodeAs (encMem 0x1C o) = .ok (.st o)
    ∧ decodeAs (encMem 0x3E o) = .ok (.stRel o) := by
  refine ⟨?_, ?_, ?_, ?_⟩ <;> rw [decodeAs, asMajor_encMem] <;> exact congrArg _ (congrArg _ (opMem_encMem _ o))

end Sys2Proof.Machine

namespace Sys2Proof.Proofs

open Sys2Proof.Machine

/-- Settles O2: each format of the AS reads back what `encodeAs` puts in its fields, and the major opcode says which format it is.-/
theorem decodeEncodeAs : Obligations.DecodeEncodeAs := by
  unfold Obligations.DecodeEncodeAs
  intro i w hwf h
  cases i <;> cases h
  case add o | sub o | and o | or o | xor o | andn o | shl o | shr o | sar o | min o | max o | minn o | maxn o
      | mul o | mulh o | mulhn o | div o | divn o | rem o | remn o =>
    rw [decodeAs_of_alu (asMajor_encAlu _ _)]
    simp only [decodeAlu_encAlu]
  case clz o | popc o =>
    rw [decodeAs_of_alu (asMajor_asWord _ _ _)]
    simp only [decodeAlu_un]
  case sel o => exact (decodeAs_of_alu (asMajor_asWord _ _ _)).trans (decodeAlu_sel o)
  case addi o | andi o | ori o | xori o => simp only [decodeAs_immediate]
  case lds o | sts o | st o | stRel o => simp only [decodeAs_mem]
  case ldi o => exact decodeAs_ldi o
  case sega o => exact decodeAs_sega o
  case adr2 o => exact decodeAs_adr2 o
  case srr o => exact decodeAs_srr o
  case srw o => exact decodeAs_srw o
  case trap o => exact decodeAs_trap o
  case pbr o => exact decodeAs_pbr o
  case waita o => exact decodeAs_waita o
  all_goals rw [decodeAs]
  case shli o | shri o | sari o => rw [asMajor_encSh]; exact decodeSh_encSh _ o _
  case ldih1 o | ldih2 o | ldih3 o => rw [asMajor_encLdih]; exact decodeLdih_encLdih _ o _
  case bext o | bins o => rw [asMajor_encBit]; exact decodeBit_encBit _ _ (of_decide_eq_true hwf)
  case cmp o => rw [asMajor_asWord]; exact decodeCmp_encode o
  case cmpi o => rw [asMajor_asWord]; exact decodeCmpi_encode o
  case pand o => rw [asMajor_encPred]; exact (decodePred_encPred o).1
  case por o => rw [asMajor_encPred]; exact (decodePred_encPred o).2.1
  case pxor o => rw [asMajor_encPred]; exact (decodePred_encPred o).2.2
  case rett o | halt o | exit o | nop o => rw [asMajor_encG]; exact decodeG_encG _ o _
  case ldq o | ldx o | ldqAcq o => rw [asMajor_encMemQ]; exact decodeMemQ_encMemQ _ o _
  case stq o => rw [asMajor_asWord]; exact decodeStq_encode o
  case pf o | cwb o | cinv o => rw [asMajor_encHint]; exact decodeHint_encHint _ o _
  case chk o => rw [asMajor_asWord]; exact decodeChk_reg o
  case chkPred o => rw [asMajor_asWord]; exact decodeChk_pred o
  case tlbi o => rw [asMajor_asWord]; exact decodeTlbi_encode hwf
  case amo o => rw [asMajor_encAmo]; exact decodeAmo_encAmo _ _ (by simp)
  case scamo o => rw [asMajor_encAmo]; exact decodeAmo_encAmo _ _ fun _ => of_decide_eq_true hwf
  case cas o => rw [asMajor_asWord]; exact decodeCas_encode o
  case scld o => rw [asMajor_asWord]; exact decodeScld_encode (of_decide_eq_true hwf)
  case scst o => rw [asMajor_asWord]; exact decodeScst_encode (of_decide_eq_true hwf)
  case fence o => rw [asMajor_asWord]; exact decodeFence_encode (of_decide_eq_true hwf)
  case fork o => rw [asMajor_asWord]; exact decodeFork_encode o
  case join o => rw [asMajor_asWord]; exact decodeJoin_encode o
  case enq o => rw [asMajor_asWord]; exact decodeEnq_encode o
  case enqs o => rw [asMajor_asWord]; exact decodeEnqs_encode o
  case estart o | ret o | waitt o => rw [asMajor_encR]; exact decodeR_encR _ o _
  case pbrReg o => rw [asMajor_asWord]; exact decodePbrR_encode o
  case br o | brq o | call o => rw [asMajor_encT]; exact decodeT_encT _ o _
  case bqp o => rw [asMajor_asWord]; exact decodeBqp_encode o
  case loop o => rw [asMajor_asWord]; exact decodeLoop_encode o
  case pop o => rw [asMajor_asWord]; exact decodeQueueOp_pop o
  case qpush o => rw [asMajor_asWord]; exact decodeQueueOp_qpush o
  case qstat o => rw [asMajor_asWord]; exact decodeQueueOp_qstat o
  case sems o => rw [asMajor_encSem]; exact (decodeSemOp_encSem o).1
  case semw o => rw [asMajor_encSem]; exact (decodeSemOp_encSem o).2.1
  case semdrop o => rw [asMajor_encSem]; exact (decodeSemOp_encSem o).2.2
  case semrd o => rw [asMajor_asWord]; exact decodeSemOp_semrd (of_decide_eq_true hwf)
  case rep o => rw [asMajor_encRep]; exact decodeRep_encRep o _

end Sys2Proof.Proofs
end

section
/-! SUPPORT. The fields of the words that the encoder writes for the ES (R87), and the decoders of its formats (R88); O3. -/

namespace Sys2Proof.Machine

open BitVec (extractLsb'_append_eq_of_add_le extractLsb'_append_eq_of_le extractLsb'_append_eq_left extractLsb'_append_eq_right
  getLsbD_append getLsbD_eq_getElem)

/-! ## The fields of an ES word -/

@[simp] theorem esOp_esWord (op : BitVec 6) (m : BitVec 3) (d a b : BitVec 5) (fn : BitVec 8) : esOp (esWord op m d a b fn) = op :=
  extractLsb'_append_eq_left

@[simp] theorem esM_esWord (op : BitVec 6) (m : BitVec 3) (d a b : BitVec 5) (fn : BitVec 8) : esM (esWord op m d a b fn) = m := by
  unfold esM esWord
  rw [extractLsb'_append_eq_of_add_le (by omega), extractLsb'_append_eq_left]

@[simp] theorem esD_esWord (op : BitVec 6) (m : BitVec 3) (d a b : BitVec 5) (fn : BitVec 8) : esD (esWord op m d a b fn) = d := by
  unfold esD esWord
  rw [extractLsb'_append_eq_of_add_le (by omega), extractLsb'_append_eq_of_add_le (by omega),
    extractLsb'_append_eq_left]

@[simp] theorem esA_esWord (op : BitVec 6) (m : BitVec 3) (d a b : BitVec 5) (fn : BitVec 8) : esA (esWord op m d a b fn) = a := by
  unfold esA esWord
  rw [extractLsb'_append_eq_of_add_le (by omega), extractLsb'_append_eq_of_add_le (by omega),
    extractLsb'_append_eq_of_add_le (by omega), extractLsb'_append_eq_left]

/-- Bits 12 to 0 of an ES word: field b and fn. -/
theorem extractLsb'_esWord_low (op : BitVec 6) (m : BitVec 3) (d a b : BitVec 5) (fn : BitVec 8) {s n : Nat} (h : s + n ≤ 13) :
    (esWord op m d a b fn).extractLsb' s n = (b ++ fn).extractLsb' s n := by
  unfold esWord
  rw [extractLsb'_append_eq_of_add_le (by omega), extractLsb'_append_eq_of_add_le (by omega),
    extractLsb'_append_eq_of_add_le (by omega), extractLsb'_append_eq_of_add_le h]

@[simp] theorem esB_esWord (op : BitVec 6) (m : BitVec 3) (d a b : BitVec 5) (fn : BitVec 8) : esB (esWord op m d a b fn) = b :=
  (extractLsb'_esWord_low op m d a b fn (by decide)).trans extractLsb'_append_eq_left

@[simp] theorem esFn_esWord (op : BitVec 6) (m : BitVec 3) (d a b : BitVec 5) (fn : BitVec 8) : esFn (esWord op m d a b fn) = fn :=
  (extractLsb'_esWord_low op m d a b fn (by decide)).trans extractLsb'_append_eq_right

@[simp] theorem extractLsb'_esWord_fn (op : BitVec 6) (m : BitVec 3) (d a b : BitVec 5) (fn : BitVec 8) {s n : Nat} (h : s + n ≤ 8) :
    (esWord op m d a b fn).extractLsb' s n = fn.extractLsb' s n :=
  (extractLsb'_esWord_low op m d a b fn (by omega)).trans (extractLsb'_append_eq_of_add_le h)

@[simp] theorem extractLsb'_esWord_b (op : BitVec 6) (m : BitVec 3) (d a b : BitVec 5) (fn : BitVec 8) :
    (esWord op m d a b fn).extractLsb' 8 2 = b.extractLsb' 0 2 :=
  (extractLsb'_esWord_low op m d a b fn (by decide)).trans (extractLsb'_append_eq_of_le (by decide))

@[simp] theorem getLsbD_esWord_fn (op : BitVec 6) (m : BitVec 3) (d a b : BitVec 5) (fn : BitVec 8) {i : Nat} (h : i < 8) :
    (esWord op m d a b fn).getLsbD i = fn.getLsbD i := by
  unfold esWord
  rw [getLsbD_append, if_pos (by omega), getLsbD_append, if_pos (by omega), getLsbD_append, if_pos (by omega),
    getLsbD_append, if_pos (by omega), getLsbD_append, if_pos h]

@[simp] theorem maskOf_p5 (p : MReg) : maskOf (p5 p) = some p := by simp [maskOf]
@[simp] theorem queueOf_t5 (q : BitVec 2) : queueOf (t5 q) = some q := by simp [queueOf]
@[simp] theorem yOf_y5 (y : Bool) : yOf (y5 y) = some y := by simp [-getLsbD_eq_getElem, yOf]

/-- R87: operand b with its Q bit. -/
theorem esVB_esWord (op : BitVec 6) (m : BitVec 3) (d a : BitVec 5) {b : VB} {fn : BitVec 8} (h : fn.getLsbD 7 = vbQ b) :
    esVB (esWord op m d a (vbField b) fn) = some b := by
  rw [esVB, getLsbD_esWord_fn _ _ _ _ _ _ (by decide), h]
  cases b <;> simp [vbQ, vbField]

/-- The Q bit stands above the rest of fn. -/
theorem getLsbD_qBit (q : Bool) (f : BitVec 7) : (BitVec.ofBool q ++ f : BitVec 8).getLsbD 7 = q := by
  rw [getLsbD_append, if_neg (by decide)]
  simp

/-! ## The decoders of the ES's formats read what the encoder writes -/

theorem decodeV3s_encV3s (op : BitVec 6) (o : OpV3s) (k : OpV3s → Instr) : decodeV3s (encV3s op o) k = .ok (k o) := by
  rw [decodeV3s, encV3s, esVB_esWord _ _ _ _ (getLsbD_qBit _ _)]
  simp [-Nat.reduceAdd, -getLsbD_eq_getElem, extractLsb'_append_eq_of_add_le, extractLsb'_append_eq_of_le, getLsbD_append]

theorem decodeV3_encV3 (op : BitVec 6) (o : OpV3) (k : OpV3 → Instr) : decodeV3 (encV3 op o) k = .ok (k o) := by
  rw [decodeV3, encV3, esVB_esWord _ _ _ _ (getLsbD_qBit _ _)]
  simp [-Nat.reduceAdd, extractLsb'_append_eq_of_add_le]

theorem decodeV2s_encV2s (op : BitVec 6) (o : OpV2s) (k : OpV2s → Instr) : decodeV2s (encV2s op o) k = .ok (k o) := by
  simp [-Nat.reduceAdd, -getLsbD_eq_getElem, encV2s, decodeV2s, extractLsb'_append_eq_of_le, getLsbD_append]

theorem decodeV2_encV2 (op : BitVec 6) (o : OpV2) (k : OpV2 → Instr) : decodeV2 (encV2 op o) k = .ok (k o) := by
  simp [encV2, decodeV2]

/-- R87: a shift by a vector or a queue has bit 6 of fn clear. -/
theorem decodeVsh_encV3 (op : BitVec 6) (o : OpV3) (k : OpV3 → Instr) (ki : OpVshi → Instr) : decodeVsh (encV3 op o) k ki = .ok (k o) := by
  have h6 : (encV3 op o).getLsbD 6 = false := by
    rw [encV3, getLsbD_esWord_fn _ _ _ _ _ _ (by decide), getLsbD_append, if_pos (by decide)]
    simp
  rw [decodeVsh, h6]
  exact decodeV3_encV3 op o k

/-- R87: a shift by an immediate has bit 6 of fn set and bit 7 clear. -/
theorem decodeVsh_encVshi (op : BitVec 6) (o : OpVshi) (k : OpV3 → Instr) (ki : OpVshi → Instr) :
    decodeVsh (encVshi op o) k ki = .ok (ki o) := by
  simp [-Nat.reduceAdd, -getLsbD_eq_getElem, encVshi, decodeVsh, extractLsb'_append_eq_of_add_le, getLsbD_append]

theorem decodeVr3_encVr3 (op : BitVec 6) (o : OpVr3) (k : OpVr3 → Instr) : decodeVr3 (encVr3 op o) k = .ok (k o) := by
  simp [encVr3, decodeVr3]

theorem decodeVmem_encVmem (op : BitVec 6) (o : OpVmem) (k : OpVmem → Instr) : decodeVmem (encVmem op o) k = .ok (k o) := by
  simp [encVmem, decodeVmem]

theorem decodeM3_encM3 (op : BitVec 6) (o : OpM3) (k : OpM3 → Instr) : decodeM3 (encM3 op o) k = .ok (k o) := by
  simp [encM3, decodeM3]

theorem decodeDisp_encDisp (op : BitVec 6) (o : OpDisp) (k : OpDisp → Instr) : decodeDisp (encDisp op o) k = .ok (k o) := by
  simp [-Nat.reduceAdd, encDisp, decodeDisp, extractLsb'_append_eq_of_add_le, extractLsb'_append_eq_of_le]

theorem decodeEsem_encEsem (op : BitVec 6) (o : OpEsem) (k : OpEsem → Instr) : decodeEsem (encEsem op o) k = .ok (k o) := by
  simp [-Nat.reduceAdd, encEsem, decodeEsem, extractLsb'_append_eq_of_add_le, extractLsb'_append_eq_of_le]

theorem decodeAcr_encAcr (op : BitVec 6) (o : OpAcr) (k : OpAcr → Instr) : decodeAcr (encAcr op o) k = .ok (k o) := by
  simp [-Nat.reduceAdd, encAcr, decodeAcr, extractLsb'_append_eq_of_add_le, extractLsb'_append_eq_of_le]

@[simp] theorem esOp_encV3s (op : BitVec 6) (o : OpV3s) : esOp (encV3s op o) = op := esOp_esWord _ _ _ _ _ _
@[simp] theorem esOp_encV3 (op : BitVec 6) (o : OpV3) : esOp (encV3 op o) = op := esOp_esWord _ _ _ _ _ _
@[simp] theorem esOp_encV2s (op : BitVec 6) (o : OpV2s) : esOp (encV2s op o) = op := esOp_esWord _ _ _ _ _ _
@[simp] theorem esOp_encV2 (op : BitVec 6) (o : OpV2) : esOp (encV2 op o) = op := esOp_esWord _ _ _ _ _ _
@[simp] theorem esOp_encVshi (op : BitVec 6) (o : OpVshi) : esOp (encVshi op o) = op := esOp_esWord _ _ _ _ _ _
@[simp] theorem esOp_encVr3 (op : BitVec 6) (o : OpVr3) : esOp (encVr3 op o) = op := esOp_esWord _ _ _ _ _ _
@[simp] theorem esOp_encVmem (op : BitVec 6) (o : OpVmem) : esOp (encVmem op o) = op := esOp_esWord _ _ _ _ _ _
@[simp] theorem esOp_encM3 (op : BitVec 6) (o : OpM3) : esOp (encM3 op o) = op := esOp_esWord _ _ _ _ _ _
@[simp] theorem esOp_encAcr (op : BitVec 6) (o : OpAcr) : esOp (encAcr op o) = op := esOp_esWord _ _ _ _ _ _
@[simp] theorem esOp_encDisp (op : BitVec 6) (o : OpDisp) : esOp (encDisp op o) = op := extractLsb'_append_eq_left
@[simp] theorem esOp_encEsem (op : BitVec 6) (o : OpEsem) : esOp (encEsem op o) = op := extractLsb'_append_eq_left
@[simp] theorem esOp_encRep (o : OpRep) : esOp (encRep o) = 0x3F := asMajor_encRep o

/-! ## The instructions whose decoder is written in the map of opcodes -/

theorem decodeEs_setsh {o : OpSetsh} (h : shapeOk o.grp o.vl o.ety = true) :
    decodeEs ((0x01 : BitVec 6) ++ ((0 : BitVec 6) ++ (o.rm ++ (o.grp ++ (o.vl ++ o.ety))))) = .ok (.setsh o) := by
  rw [decodeEs, show esOp _ = (0x01 : BitVec 6) from extractLsb'_append_eq_left]
  change req _ _ (req (shapeOk _ _ _) _ (.ok (.setsh ⟨_, _, _, _⟩))) = _
  simp [-Nat.reduceAdd, extractLsb'_append_eq_of_add_le, extractLsb'_append_eq_of_le, h]

theorem decodeEs_setshQ (o : OpSetshQ) : decodeEs (esWord 0x02 0 0 (t5 o.q) 0 0) = .ok (.setshQ o) := by
  rw [decodeEs, esOp_esWord]
  change req _ _ (reqSome _ fun q => .ok (.setshQ ⟨q⟩)) = _
  simp

theorem decodeEs_vldq (o : OpVldq) : decodeEs (esWord 0x05 0 o.d (t5 o.q) 0 0) = .ok (.vldq o) := by
  rw [decodeEs, esOp_esWord]
  change req _ _ (reqSome _ fun q => .ok (.vldq ⟨_, q⟩)) = _
  simp

theorem decodeEs_vsty (o : OpVsty) : decodeEs (esWord 0x06 0 (y5 o.y) o.s 0 o.idx) = .ok (.vsty o) := by
  rw [decodeEs, esOp_esWord]
  change req _ _ (reqSome _ fun y => .ok (.vsty ⟨y, _, _⟩)) = _
  simp

theorem decodeEs_vbc (o : OpVbc) : decodeEs (esWord 0x07 o.m o.d (t5 o.q) 0 0) = .ok (.vbc o) := by
  rw [decodeEs, esOp_esWord]
  change req _ _ (reqSome _ fun q => .ok (.vbc ⟨_, _, q⟩)) = _
  simp

theorem decodeEs_ebr {o : OpEbr} (h : (Instr.ebr o).wf = true) :
    decodeEs ((0x0A : BitVec 6) ++ (o.m ++ (o.cond.code ++ o.disp))) = .ok (.ebr o) := by
  have hm : (!decide (o.cond = .always) || decide (o.m = 0#3)) = true := by simpa [Instr.wf] using h
  rw [decodeEs, show esOp _ = (0x0A : BitVec 6) from extractLsb'_append_eq_left]
  change reqSome _ (fun c => req _ _ (.ok (.ebr ⟨_, c, _⟩))) = _
  simp [-Nat.reduceAdd, esM, extractLsb'_append_eq_of_add_le, extractLsb'_append_eq_of_le, hm]

theorem decodeEs_ebqp {o : OpEbqp} (h : (Instr.ebqp o).wf = true) :
    decodeEs ((0x0C : BitVec 6) ++ (o.m ++ (o.cond.code ++ (0 : BitVec 21)))) = .ok (.ebqp o) := by
  have hm : (!decide (o.cond = .always) || decide (o.m = 0#3)) = true := by simpa [Instr.wf] using h
  rw [decodeEs, show esOp _ = (0x0C : BitVec 6) from extractLsb'_append_eq_left]
  change req _ _ (reqSome _ fun c => req _ _ (.ok (.ebqp ⟨_, c⟩))) = _
  simp [-Nat.reduceAdd, esM, extractLsb'_append_eq_of_add_le, extractLsb'_append_eq_of_le, hm]

theorem decodeEs_vcvt {o : OpVcvt} (h : o.ty.toNat < 11) :
    decodeEs (esWord 0x1D o.m o.d o.a 0 ((0 : BitVec 3) ++ (BitVec.ofBool o.sat ++ o.ty))) = .ok (.vcvt o) := by
  rw [decodeEs, esOp_esWord]
  change req _ _ (req _ _ (.ok (.vcvt _))) = _
  simp [-Nat.reduceAdd, -getLsbD_eq_getElem, extractLsb'_append_eq_of_add_le, extractLsb'_append_eq_of_le, getLsbD_append, h]

theorem decodeEs_vqb (o : OpVqb) : decodeEs (esWord 0x1E 0 o.d o.a 0 ((0 : BitVec 7) ++ BitVec.ofBool o.flag)) = .ok (.vqb o) := by
  rw [decodeEs, esOp_esWord]
  change req _ _ (req _ _ (.ok (.vqb _))) = _
  simp [-Nat.reduceAdd, -getLsbD_eq_getElem, extractLsb'_append_eq_of_le, getLsbD_append]

theorem decodeEs_vdqb (o : OpVdqb) : decodeEs (esWord 0x1F o.m o.d o.a 0 ((0 : BitVec 7) ++ BitVec.ofBool o.bx3)) = .ok (.vdqb o) := by
  rw [decodeEs, esOp_esWord]
  change req _ _ (req _ _ (.ok (.vdqb _))) = _
  simp [-Nat.reduceAdd, -getLsbD_eq_getElem, extractLsb'_append_eq_of_le, getLsbD_append]

theorem decodeEs_viota (o : OpViota) : decodeEs (esWord 0x26 o.m o.d 0 0 0) = .ok (.viota o) := by
  rw [decodeEs, esOp_esWord]
  change req _ _ (.ok (.viota _)) = _
  simp

theorem decodeEs_vcmp (o : OpVcmp) :
    decodeEs (esWord 0x28 o.m (p5 o.d) o.a (vbField o.b) (BitVec.ofBool (vbQ o.b) ++ ((0 : BitVec 4) ++ o.cond.code))) = .ok (.vcmp o) := by
  rw [decodeEs, esOp_esWord]
  change req _ _ (reqSome _ fun d => reqSome _ fun b => reqSome _ fun c => .ok (.vcmp ⟨_, d, _, b, c⟩)) = _
  rw [esVB_esWord _ _ _ _ (getLsbD_qBit _ _)]
  simp [-Nat.reduceAdd, extractLsb'_append_eq_of_add_le, extractLsb'_append_eq_of_le]

theorem decodeEs_mnot (o : OpM2) : decodeEs (esWord 0x2C 0 (p5 o.d) (p5 o.a) 0 0) = .ok (.mnot o) := by
  rw [decodeEs, esOp_esWord]
  change req _ _ (reqSome _ fun d => reqSome _ fun a => .ok (.mnot ⟨d, a⟩)) = _
  simp

theorem decodeEs_mpop (o : OpMpop) : decodeEs (esWord 0x2D o.m (y5 o.y) (p5 o.a) 0 0) = .ok (.mpop o) := by
  rw [decodeEs, esOp_esWord]
  change req _ _ (reqSome _ fun y => reqSome _ fun a => .ok (.mpop ⟨_, y, a⟩)) = _
  simp

theorem decodeEs_vslide (o : OpSlide) : decodeEs (esWord 0x36 o.m o.d o.a 0 o.n) = .ok (.vslide o) := by
  rw [decodeEs, esOp_esWord]
  change req _ _ (.ok (.vslide _)) = _
  simp

theorem decodeEs_acsc (o : OpAcsc) : decodeEs (esWord 0x3B 0 0 (t5 o.tile) (t5 o.q) ((0 : BitVec 2) ++ o.row)) = .ok (.acsc o) := by
  rw [decodeEs, esOp_esWord]
  change req _ _ (reqSome _ fun t => reqSome _ fun q => .ok (.acsc ⟨t, q, _⟩)) = _
  simp [-Nat.reduceAdd, extractLsb'_append_eq_of_add_le, extractLsb'_append_eq_of_le]

theorem decodeEs_acz (o : OpAcz) : decodeEs (esWord 0x3C 0 0 (t5 o.tile) 0 ((0 : BitVec 2) ++ o.row)) = .ok (.acz o) := by
  rw [decodeEs, esOp_esWord]
  change req _ _ (reqSome _ _) = _
  simp [-Nat.reduceAdd, extractLsb'_append_eq_of_add_le, extractLsb'_append_eq_of_le]

theorem decodeEs_aczTile (o : OpAczT) : decodeEs (esWord 0x3C 0 0 (t5 o.tile) 1 0) = .ok (.aczTile o) := by
  rw [decodeEs, esOp_esWord]
  change req _ _ (reqSome _ _) = _
  simp

theorem decodeEs_acst (o : OpAcst) : decodeEs (esWord 0x3D 0 o.d (t5 o.tile) 0 ((0 : BitVec 2) ++ o.row)) = .ok (.acst o) := by
  rw [decodeEs, esOp_esWord]
  change req _ _ (reqSome _ fun t => .ok (.acst ⟨_, t, _⟩)) = _
  simp [-Nat.reduceAdd, extractLsb'_append_eq_of_add_le, extractLsb'_append_eq_of_le]

end Sys2Proof.Machine

namespace Sys2Proof.Proofs

open Sys2Proof.Machine

/-- Settles O3: each format of the ES reads back what `encodeEs` puts in its fields, and the opcode says which format it is. -/
theorem decodeEncodeEs : Obligations.DecodeEncodeEs := by
  unfold Obligations.DecodeEncodeEs
  intro i w hwf h
  cases i <;> cases h
  case setsh o => exact decodeEs_setsh hwf
  case setshQ o => exact decodeEs_setshQ o
  case vldq o => exact decodeEs_vldq o
  case vsty o => exact decodeEs_vsty o
  case vbc o => exact decodeEs_vbc o
  case ebr o => exact decodeEs_ebr hwf
  case ebqp o => exact decodeEs_ebqp hwf
  case eexit => rfl
  case vcvt o => exact decodeEs_vcvt (of_decide_eq_true hwf)
  case vqb o => exact decodeEs_vqb o
  case vdqb o => exact decodeEs_vdqb o
  case viota o => exact decodeEs_viota o
  case vcmp o => exact decodeEs_vcmp o
  case mnot o => exact decodeEs_mnot o
  case mpop o => exact decodeEs_mpop o
  case vslide o => exact decodeEs_vslide o
  case acsc o => exact decodeEs_acsc o
  case acz o => exact decodeEs_acz o
  case aczTile o => exact decodeEs_aczTile o
  case acst o => exact decodeEs_acst o
  all_goals rw [decodeEs]
  case vld o | vst o => rw [esOp_encVmem]; exact decodeVmem_encVmem _ o _
  case epbr o | ebrq o => rw [esOp_encDisp]; exact decodeDisp_encDisp _ o _
  case esemw o | esems o => rw [esOp_encEsem]; exact decodeEsem_encEsem _ o _
  case vadd o | vsub o | vmul o => rw [esOp_encV3s]; exact decodeV3s_encV3s _ o _
  case vfma o | vfms o | vmin o | vmax o | vand o | vor o | vxor o => rw [esOp_encV3]; exact decodeV3_encV3 _ o _
  case vabs o | vneg o => rw [esOp_encV2s]; exact decodeV2s_encV2s _ o _
  case vrcp o | vrsq o | vexp2 o | vlog2 o | vrsum o | vrmax o | vrmin o | vrmaxi o | vrmini o =>
    rw [esOp_encV2]; exact decodeV2_encV2 _ o _
  case vshl o | vshr o | vsar o => rw [esOp_encV3]; exact decodeVsh_encV3 _ o _ _
  case vshlImm o | vshrImm o | vsarImm o => rw [esOp_encVshi]; exact decodeVsh_encVshi _ o _ _
  case vsel o | vperm o | vgath o | vrng o => rw [esOp_encVr3]; exact decodeVr3_encVr3 _ o _
  case mand o | mor o | mxor o => rw [esOp_encM3]; exact decodeM3_encM3 _ o _
  case acrd o | acwr o => rw [esOp_encAcr]; exact decodeAcr_encAcr _ o _
  case erep o => rw [esOp_encRep]; exact decodeRep_encRep o _

end Sys2Proof.Proofs
end

section
/-! SUPPORT. The header and payload words that the encoder writes for a command (R89, R91), and the decoders of the engines and ports; O4. -/

namespace Sys2Proof.Machine

open BitVec (extractLsb'_append_eq_of_add_le extractLsb'_append_eq_of_le extractLsb'_append_eq_left extractLsb'_append_eq_right
  getLsbD_append getLsbD_eq_getElem)

/-! ## Headers (R89) -/

theorem hdrOpc_encHdr (opc : BitVec 7) (h : Hdr) (len : BitVec 4) : hdrOpc (encHdr opc h len) = opc.toNat :=
  congrArg BitVec.toNat extractLsb'_append_eq_left

theorem hdrLen_encHdr (opc : BitVec 7) (h : Hdr) (len : BitVec 4) : hdrLen (encHdr opc h len) = len.toNat := by
  simp [-Nat.reduceAdd, -BitVec.extractLsb'_toNat, hdrLen, encHdr, extractLsb'_append_eq_of_add_le]

/-- R89: the fields of a header but OPC and LEN, as `decodeCmd` reads them. -/
theorem hdr_encHdr (opc : BitVec 7) (h : Hdr) (len : BitVec 4) :
    Scope.ofCode ((encHdr opc h len).extractLsb' 8 3) = some h.scope
    ∧ (⟨(encHdr opc h len).extractLsb' 19 6, (encHdr opc h len).extractLsb' 13 6, (encHdr opc h len).getLsbD 12,
        (encHdr opc h len).getLsbD 11, h.scope, (encHdr opc h len).extractLsb' 4 4⟩ : Hdr) = h := by
  simp [-Nat.reduceAdd, -getLsbD_eq_getElem, encHdr, extractLsb'_append_eq_of_add_le, extractLsb'_append_eq_of_le, getLsbD_append]

/-- R90: the decoder of a ring's engine or of a port. -/
def ringDecoder : Ring → Nat → Hdr → List Word32 → Except DecodeError Instr
  | .mx => decodeMx
  | .ce0 => decodeCe false
  | .ce1 => decodeCe true
  | .xe => decodeXe
  | .ho => decodeHo
  | .hub => decodeHub

/-- R89, R91: a header whose LEN is the length of its payload is read whole, and the decoder of the ring or port goes on. -/
theorem decodeCmd_encHdr {r : Ring} {opc : BitVec 7} {h : Hdr} {len : BitVec 4} {ps : List Word32} (hl : len.toNat = ps.length) :
    decodeCmd r (encHdr opc h len) ps = ringDecoder r opc.toNat h ps := by
  obtain ⟨hs, hh⟩ := hdr_encHdr opc h len
  cases r <;> simp only [decodeCmd, hdrLen_encHdr, hl, decide_true, req_true, hs, reqSome_some, hh, hdrOpc_encHdr] <;> rfl

theorem decodeCmd_ce {ce : Bool} {opc : BitVec 7} {h : Hdr} {len : BitVec 4} {ps : List Word32} (hl : len.toNat = ps.length) :
    decodeCmd (if ce then .ce1 else .ce0) (encHdr opc h len) ps = decodeCe ce opc.toNat h ps := by
  cases ce <;> exact decodeCmd_encHdr hl

/-! ## Payload words (R89, R210, R232, R233) -/

@[simp] theorem pair_split (x : Word) : pair (x.extractLsb' 0 32) (x.extractLsb' 32 32) = x := BitVec.extractLsb'_append_extractLsb'

@[simp] theorem accOf_encAcc (a : Acc) : accOf (encAcc a) = a := by
  simp [-Nat.reduceAdd, accOf, encAcc, extractLsb'_append_eq_of_add_le, extractLsb'_append_eq_of_le]

@[simp] theorem accReserved_encAcc (a : Acc) : accReserved (encAcc a) = true := by
  simp [-Nat.reduceAdd, accReserved, encAcc, extractLsb'_append_eq_of_add_le, extractLsb'_append_eq_of_le]

@[simp] theorem extOf_encExt (e : Ext) : extOf (encExt e) = e := by
  simp [-Nat.reduceAdd, extOf, encExt, extractLsb'_append_eq_of_add_le, extractLsb'_append_eq_of_le]

@[simp] theorem extReserved_encExt (e : Ext) : extReserved (encExt e) = true := by
  simp [-Nat.reduceAdd, extReserved, encExt, extractLsb'_append_eq_of_le]

@[simp] theorem extractLsb'_encTc_row0 (hi : BitVec 19) (keepb : Bool) (row0 : BitVec 6) (tile : BitVec 2) :
    (encTc hi keepb row0 tile).extractLsb' 2 6 = row0 := by simp [-Nat.reduceAdd, encTc, extractLsb'_append_eq_of_add_le, extractLsb'_append_eq_of_le]
@[simp] theorem extractLsb'_encTc_tile (hi : BitVec 19) (keepb : Bool) (row0 : BitVec 6) (tile : BitVec 2) :
    (encTc hi keepb row0 tile).extractLsb' 0 2 = tile := by simp [-Nat.reduceAdd, encTc, extractLsb'_append_eq_of_add_le]
@[simp] theorem extractLsb'_encTc_gap (hi : BitVec 19) (keepb : Bool) (row0 : BitVec 6) (tile : BitVec 2) :
    (encTc hi keepb row0 tile).extractLsb' 8 4 = 0 := by simp [-Nat.reduceAdd, encTc, extractLsb'_append_eq_of_add_le, extractLsb'_append_eq_of_le]
@[simp] theorem extractLsb'_encTc_hi (hi : BitVec 19) (keepb : Bool) (row0 : BitVec 6) (tile : BitVec 2) {s n : Nat} (h : 13 ≤ s) :
    (encTc hi keepb row0 tile).extractLsb' s n = hi.extractLsb' (s - 13) n := by
  unfold encTc
  rw [extractLsb'_append_eq_of_le (by omega)]
@[simp] theorem getLsbD_encTc_keepb (hi : BitVec 19) (keepb : Bool) (row0 : BitVec 6) (tile : BitVec 2) :
    (encTc hi keepb row0 tile).getLsbD 12 = keepb := by
  simp [-Nat.reduceAdd, -getLsbD_eq_getElem, encTc, getLsbD_append]
@[simp] theorem getLsbD_encTc_hi (hi : BitVec 19) (keepb : Bool) (row0 : BitVec 6) (tile : BitVec 2) {i : Nat} (h : 13 ≤ i) :
    (encTc hi keepb row0 tile).getLsbD i = hi.getLsbD (i - 13) := by
  rw [encTc, getLsbD_append, if_neg (by omega)]

/-- R210: with KEEPB clear, bits 8 and up of a tile control word are five zeros and then those of `hi`. -/
@[simp] theorem extractLsb'_encTc_upper (hi : BitVec 19) (row0 : BitVec 6) (tile : BitVec 2) (k : Nat) :
    (encTc hi false row0 tile).extractLsb' 8 (k + 5) = hi.extractLsb' 0 k ++ (0 : BitVec 5) := by
  ext i hn
  simp only [BitVec.getElem_extractLsb', encTc, getLsbD_append, BitVec.getElem_append]
  repeat' split
  all_goals first | omega | simp
  congr 1
  omega

/-- R91: a command whose bounds hold is accepted, once its reserved bits are seen to be zero. -/
theorem req_accept {c : Bool} {e : DecodeError} {i j : Instr} (hc : c = true) (hj : j = i) (hi : i.wf = true) : req c e (accept j) = .ok i := by
  rw [hc, hj, req_true, accept, hi, req_true]

/-! ## The matrix engine (R204, R205, R210, R219, R222 to R224) -/

theorem decodeMx_mhdr {h : Hdr} {p : PMhdr} (hwf : (Instr.mhdr h p).wf = true) :
    decodeMx 0x10 h [p.k ++ (p.n ++ p.m), (0 : BitVec 30) ++ (BitVec.ofBool p.areg ++ BitVec.ofBool p.bfmt)] = .ok (.mhdr h p) := by
  refine req_accept ?_ ?_ hwf
  · simp [-Nat.reduceAdd, extractLsb'_append_eq_of_le]
  · simp [-Nat.reduceAdd, -getLsbD_eq_getElem, extractLsb'_append_eq_of_add_le, extractLsb'_append_eq_of_le, getLsbD_append]

theorem decodeMop_encode {p : PMop} (k : PMop → Instr) (hwf : (k p).wf = true) :
    decodeMop (p.rpitch ++ (p.tpitch ++ (p.rot ++ (0 : BitVec 12)))) p.base k = .ok (k p) := by
  refine req_accept ?_ ?_ hwf
  · simp [-Nat.reduceAdd, extractLsb'_append_eq_of_add_le]
  · simp [-Nat.reduceAdd, extractLsb'_append_eq_of_add_le, extractLsb'_append_eq_of_le]

theorem decodeMx_mop {h : Hdr} {p : PMop} (hwf : (Instr.mopa h p).wf = true) :
    decodeMx 0x11 h (encMop p) = .ok (.mopa h p) ∧ decodeMx 0x12 h (encMop p) = .ok (.mopb h p) := by
  constructor
  all_goals
    change decodeMop (pair _ _) (pair _ _) _ = _
    rw [pair_split, pair_split]
    exact decodeMop_encode _ hwf

theorem decodeMx_mma (h : Hdr) (p : PMma) : decodeMx 0x13 h [encTc 0 p.keepb p.row0 p.tile] = .ok (.mma h p)
    ∧ decodeMx 0x14 h [encTc 0 p.keepb p.row0 p.tile] = .ok (.mmaz h p) := by
  constructor
  all_goals
    refine req_accept ?_ ?_ rfl
    · simp
    · simp [-getLsbD_eq_getElem]

theorem decodeMx_mwb {h : Hdr} {p : PMwb} (hwf : (Instr.mwb h p).wf = true) :
    decodeMx 0x15 h (encTc ((0 : BitVec 16) ++ (p.fmt.code ++ BitVec.ofBool p.z)) false p.row0 p.tile
      :: (split64 p.base ++ split64 (p.rpitch ++ ((0 : BitVec 24) ++ (p.rot ++ (0 : BitVec 12)))))) = .ok (.mwb h p) := by
  have hfmt : WbFmt.ofCode ((encTc ((0 : BitVec 16) ++ (p.fmt.code ++ BitVec.ofBool p.z)) false p.row0 p.tile).extractLsb' 14 2) = some p.fmt := by
    simp [-Nat.reduceAdd, extractLsb'_append_eq_of_add_le, extractLsb'_append_eq_of_le]
  change req _ _ (reqSome (WbFmt.ofCode _) fun f => accept (.mwb h ⟨f, _, _, _, pair _ _, _, _⟩)) = _
  rw [hfmt, reqSome_some, pair_split, pair_split]
  refine req_accept ?_ ?_ hwf
  · simp [-Nat.reduceAdd, -getLsbD_eq_getElem, extractLsb'_append_eq_of_add_le, extractLsb'_append_eq_of_le]
  · simp [-Nat.reduceAdd, -getLsbD_eq_getElem, extractLsb'_append_eq_of_add_le, extractLsb'_append_eq_of_le, getLsbD_append]

theorem decodeMx_mrn {h : Hdr} {p : PMrn} (hwf : (Instr.mrn h p).wf = true) :
    decodeMx 0x16 h [encTc ((0 : BitVec 10) ++ (p.ht ++ (0 : BitVec 3))) false p.row0 p.tile] = .ok (.mrn h p) := by
  refine req_accept ?_ ?_ hwf
  · simp [-Nat.reduceAdd, extractLsb'_append_eq_of_add_le, extractLsb'_append_eq_of_le]
  · simp [-Nat.reduceAdd, extractLsb'_append_eq_of_add_le, extractLsb'_append_eq_of_le]

theorem decodeMx_mclr {h : Hdr} {p : PMclr} (hwf : (Instr.mclr h p).wf = true) :
    decodeMx 0x17 h [encTc 0 false p.row0 p.tile] = .ok (.mclr h p) := by
  refine req_accept ?_ ?_ hwf
  · simp
  · simp

theorem decodeMx_mthr {h : Hdr} {p : PMthr} (hwf : (Instr.mthr h p).wf = true) :
    decodeMx 0x18 h [(0 : BitVec 24) ++ p.duty] = .ok (.mthr h p) := by
  refine req_accept ?_ ?_ hwf
  · simp [-Nat.reduceAdd, extractLsb'_append_eq_of_le]
  · simp [-Nat.reduceAdd, extractLsb'_append_eq_of_add_le]

/-! ## The copy engines (R240 to R249) -/

theorem decodeCe_copy {ce : Bool} {h : Hdr} {p : PCopy} (hwf : (Instr.copy ce h p).wf = true) :
    decodeCe ce 0x20 h (split64 p.src ++ split64 p.dst ++ split64 (encAcc p.sacc)
      ++ split64 (encAcc p.dacc) ++ split64 (encExt p.ext)) = .ok (.copy ce h p) := by
  refine req_accept ?_ ?_ hwf <;> simp only [pair_split]
  · simp
  · simp

theorem decodeCe_copyn {ce : Bool} {h : Hdr} {p : PCopyn} (hwf : (Instr.copyn ce h p).wf = true) :
    decodeCe ce 0x21 h (split64 p.lin ++ split64 p.ten
      ++ split64 (p.st3 ++ (p.st2 ++ (p.st1 ++ p.st0))) ++ split64 (p.nb3 ++ (p.nb2 ++ (p.nb1 ++ p.nb0)))
      ++ split64 (p.lp2 ++ p.lp1)
      ++ split64 (p.lp3 ++ ((0 : BitVec 16) ++ (p.rot ++ ((0 : BitVec 11) ++ BitVec.ofBool p.dir))))) = .ok (.copyn ce h p) := by
  refine req_accept ?_ ?_ hwf <;> simp only [pair_split]
  · simp [-Nat.reduceAdd, extractLsb'_append_eq_of_add_le, extractLsb'_append_eq_of_le]
  · simp [-Nat.reduceAdd, -getLsbD_eq_getElem, extractLsb'_append_eq_of_add_le, extractLsb'_append_eq_of_le, getLsbD_append]

theorem decodeCe_gath {ce : Bool} {h : Hdr} {p : PGath} (hwf : (Instr.gath ce h p).wf = true) :
    decodeCe ce 0x22 h (encGath p) = .ok (.gath ce h p) ∧ decodeCe ce 0x23 h (encGath p) = .ok (.scat ce h p) := by
  constructor
  all_goals
    refine req_accept ?_ ?_ hwf <;> simp only [pair_split]
    · simp [-Nat.reduceAdd, extractLsb'_append_eq_of_add_le, extractLsb'_append_eq_of_le]
    · simp [-Nat.reduceAdd, extractLsb'_append_eq_of_add_le, extractLsb'_append_eq_of_le]

theorem decodeCe_fill {ce : Bool} {h : Hdr} {p : PFill} (hwf : (Instr.fill ce h p).wf = true) :
    decodeCe ce 0x24 h (split64 p.dst ++ split64 (encAcc p.dacc) ++ split64 (encExt p.ext) ++ split64 p.value) = .ok (.fill ce h p) := by
  refine req_accept ?_ ?_ hwf <;> simp only [pair_split]
  · simp
  · simp

theorem decodeCe_flagw (ce : Bool) (h : Hdr) (p : PFlagw) : decodeCe ce 0x25 h (split64 p.addr ++ split64 p.value) = .ok (.flagw ce h p) := by
  change accept (.flagw ce h ⟨pair _ _, pair _ _⟩) = _
  rw [pair_split, pair_split]
  rfl

theorem decodeCmpr_encode {p : PCmpr} (k : PCmpr → Instr) (hwf : (k p).wf = true) :
    decodeCmpr p.src p.dst (p.cap ++ ((0 : BitVec 16) ++ (p.rot ++ (0 : BitVec 12)))) ((0 : BitVec 32) ++ p.length) p.res k = .ok (k p) := by
  refine req_accept ?_ ?_ hwf
  · simp [-Nat.reduceAdd, extractLsb'_append_eq_of_add_le, extractLsb'_append_eq_of_le]
  · simp [-Nat.reduceAdd, extractLsb'_append_eq_of_add_le, extractLsb'_append_eq_of_le]

theorem decodeCe_cmpr {ce : Bool} {h : Hdr} {p : PCmpr} (hwf : (Instr.cmpr ce h p).wf = true) :
    decodeCe ce 0x26 h (encCmpr p) = .ok (.cmpr ce h p) := by
  change decodeCmpr (pair _ _) (pair _ _) (pair _ _) (pair _ _) (pair _ _) _ = _
  simp only [pair_split]
  exact decodeCmpr_encode _ hwf

theorem decodeCe_expn {ce : Bool} {h : Hdr} {p : PCmpr} (hwf : (Instr.expn ce h p).wf = true) :
    decodeCe ce 0x27 h (encCmpr p) = .ok (.expn ce h p) := by
  change decodeCmpr (pair _ _) (pair _ _) (pair _ _) (pair _ _) (pair _ _) _ = _
  simp only [pair_split]
  exact decodeCmpr_encode _ hwf

/-! ## The transform engine (R250 to R253) -/

theorem decodeXe_unfold {h : Hdr} {p : PUnfold} (hwf : (Instr.unfold h p).wf = true) :
    decodeXe 0x30 h (split64 p.src ++ split64 p.dst ++ split64 (p.spy ++ p.spx)
      ++ split64 (p.dpitch ++ (p.oh ++ p.ow)) ++ split64 (p.h ++ (p.w ++ (p.c ++ (p.lge ++ (0 : BitVec 14)))))
      ++ split64 (p.kh ++ (p.kw ++ (p.sty ++ (p.stx ++ (p.dly ++ (p.dlx ++ (p.padt ++ p.padl)))))))
      ++ split64 ((0 : BitVec 48) ++ (p.srot ++ (p.drot ++ (0 : BitVec 8))))) = .ok (.unfold h p) := by
  refine req_accept ?_ ?_ hwf <;> simp only [pair_split]
  · simp [-Nat.reduceAdd, extractLsb'_append_eq_of_add_le, extractLsb'_append_eq_of_le]
  · simp [-Nat.reduceAdd, extractLsb'_append_eq_of_add_le, extractLsb'_append_eq_of_le]

theorem decodeXe_xpose {h : Hdr} {p : PXpose} (hwf : (Instr.xpose h p).wf = true) :
    decodeXe 0x31 h (split64 p.src ++ split64 p.dst ++ split64 (encAcc p.sacc) ++ split64 (encAcc p.dacc)
      ++ split64 ((0 : BitVec 14) ++ (p.lge ++ (p.rows1 ++ (p.cols1 ++ (0 : BitVec 16)))))) = .ok (.xpose h p) := by
  refine req_accept ?_ ?_ hwf <;> simp only [pair_split]
  · simp [-Nat.reduceAdd, extractLsb'_append_eq_of_add_le, extractLsb'_append_eq_of_le]
  · simp [-Nat.reduceAdd, extractLsb'_append_eq_of_add_le, extractLsb'_append_eq_of_le]

theorem decodeXe_relay {h : Hdr} {p : PRelay} (hwf : (Instr.relay h p).wf = true) :
    decodeXe 0x32 h (split64 p.src ++ split64 p.dst ++ split64 (p.sp2 ++ p.sp1) ++ split64 (p.dp2 ++ p.dp1)
      ++ split64 (p.srot ++ (p.drot ++ (p.perm ++ ((0 : BitVec 3) ++ (p.lgu ++ (p.n2 ++ (p.n1 ++ p.n0)))))))) = .ok (.relay h p) := by
  refine req_accept ?_ ?_ hwf <;> simp only [pair_split]
  · simp [-Nat.reduceAdd, extractLsb'_append_eq_of_add_le, extractLsb'_append_eq_of_le]
  · simp [-Nat.reduceAdd, extractLsb'_append_eq_of_add_le, extractLsb'_append_eq_of_le]

/-! ## The ports (R344, R346 to R348, R385) -/

theorem decodeHo_hoff {h : Hdr} {p : PHoff} (hwf : (Instr.hoff h p).wf = true) :
    decodeHo 0x40 h (split64 p.src ++ split64 p.dst ++ split64 (p.count1 ++ (p.blk0 ++ p.stream))
      ++ split64 ((0 : BitVec 32) ++ (p.nh ++ (p.tpb ++ (p.hb ++ BitVec.ofBool p.conv))))
      ++ split64 ((0 : BitVec 48) ++ p.modno)) = .ok (.hoff h p) := by
  refine req_accept ?_ ?_ hwf <;> simp only [pair_split]
  · simp [-Nat.reduceAdd, extractLsb'_append_eq_of_le]
  · simp [-Nat.reduceAdd, -getLsbD_eq_getElem, extractLsb'_append_eq_of_add_le, extractLsb'_append_eq_of_le, getLsbD_append]

theorem decodeHo_hpull {h : Hdr} {p : PHpull} (hwf : (Instr.hpull h p).wf = true) :
    decodeHo 0x41 h (split64 ((0 : BitVec 40) ++ p.stream)
      ++ split64 ((0 : BitVec 26) ++ (p.count1 ++ ((0 : BitVec 12) ++ p.blk0))) ++ [0, 0]) = .ok (.hpull h p) := by
  refine req_accept ?_ ?_ hwf <;> simp only [pair_split]
  · simp (disch := decide) [-Nat.reduceAdd, extractLsb'_append_eq_of_add_le, extractLsb'_append_eq_of_le]
  · simp [-Nat.reduceAdd, extractLsb'_append_eq_of_add_le, extractLsb'_append_eq_of_le]

theorem decodeHo_hcancel {h : Hdr} {p : PHcancel} (hwf : (Instr.hcancel h p).wf = true) :
    decodeHo 0x42 h [(0 : BitVec 8) ++ p.stream, (0 : BitVec 25) ++ p.cause] = .ok (.hcancel h p) := by
  refine req_accept ?_ ?_ hwf
  · simp [-Nat.reduceAdd, extractLsb'_append_eq_of_le]
  · simp [-Nat.reduceAdd, extractLsb'_append_eq_of_add_le]

theorem decodeHub_swap {h : Hdr} {p : PSwap} (hwf : (Instr.swout h p).wf = true) :
    decodeHub 0x48 h (encSwap p) = .ok (.swout h p) ∧ decodeHub 0x49 h (encSwap p) = .ok (.swin h p) := by
  constructor
  all_goals
    refine req_accept ?_ ?_ hwf <;> simp only [pair_split]
    · simp [-Nat.reduceAdd, extractLsb'_append_eq_of_add_le, extractLsb'_append_eq_of_le]
    · simp [-Nat.reduceAdd, -getLsbD_eq_getElem, extractLsb'_append_eq_of_add_le, extractLsb'_append_eq_of_le, getLsbD_append]

theorem decodeHub_rcopy {h : Hdr} {p : PRcopy} (hwf : (Instr.rcopy h p).wf = true) :
    decodeHub 0x4A h (split64 p.src ++ split64 p.doff ++ split64 (p.modno ++ (p.win ++ (0 : BitVec 42)))
      ++ split64 (encAcc p.sacc) ++ split64 (encAcc p.dacc) ++ split64 (encExt p.ext)) = .ok (.rcopy h p) := by
  refine req_accept ?_ ?_ hwf <;> simp only [pair_split]
  · simp [-Nat.reduceAdd, extractLsb'_append_eq_of_add_le]
  · simp [-Nat.reduceAdd, extractLsb'_append_eq_of_add_le, extractLsb'_append_eq_of_le]

end Sys2Proof.Machine

namespace Sys2Proof.Proofs

open Sys2Proof.Machine

/-- Settles O4: the header's LEN is that of the payload the encoder writes, and each command's decoder reads its fields back. -/
theorem decodeEncodeCmd : Obligations.DecodeEncodeCmd := by
  unfold Obligations.DecodeEncodeCmd
  intro i r h ps hwf henc
  cases i <;> cases henc
  case mhdr hd p => exact (decodeCmd_encHdr rfl).trans (decodeMx_mhdr hwf)
  case mopa hd p => exact (decodeCmd_encHdr rfl).trans (decodeMx_mop hwf).1
  case mopb hd p => exact (decodeCmd_encHdr rfl).trans (decodeMx_mop hwf).2
  case mma hd p => exact (decodeCmd_encHdr rfl).trans (decodeMx_mma hd p).1
  case mmaz hd p => exact (decodeCmd_encHdr rfl).trans (decodeMx_mma hd p).2
  case mwb hd p => exact (decodeCmd_encHdr rfl).trans (decodeMx_mwb hwf)
  case mrn hd p => exact (decodeCmd_encHdr rfl).trans (decodeMx_mrn hwf)
  case mclr hd p => exact (decodeCmd_encHdr rfl).trans (decodeMx_mclr hwf)
  case mthr hd p => exact (decodeCmd_encHdr rfl).trans (decodeMx_mthr hwf)
  case copy ce hd p => exact (decodeCmd_ce rfl).trans (decodeCe_copy hwf)
  case copyn ce hd p => exact (decodeCmd_ce rfl).trans (decodeCe_copyn hwf)
  case gath ce hd p => exact (decodeCmd_ce rfl).trans (decodeCe_gath hwf).1
  case scat ce hd p => exact (decodeCmd_ce rfl).trans (decodeCe_gath hwf).2
  case fill ce hd p => exact (decodeCmd_ce rfl).trans (decodeCe_fill hwf)
  case flagw ce hd p => exact (decodeCmd_ce rfl).trans (decodeCe_flagw ce hd p)
  case cmpr ce hd p => exact (decodeCmd_ce rfl).trans (decodeCe_cmpr hwf)
  case expn ce hd p => exact (decodeCmd_ce rfl).trans (decodeCe_expn hwf)
  case unfold hd p => exact (decodeCmd_encHdr rfl).trans (decodeXe_unfold hwf)
  case xpose hd p => exact (decodeCmd_encHdr rfl).trans (decodeXe_xpose hwf)
  case relay hd p => exact (decodeCmd_encHdr rfl).trans (decodeXe_relay hwf)
  case hoff hd p => exact (decodeCmd_encHdr rfl).trans (decodeHo_hoff hwf)
  case hpull hd p => exact (decodeCmd_encHdr rfl).trans (decodeHo_hpull hwf)
  case hcancel hd p => exact (decodeCmd_encHdr rfl).trans (decodeHo_hcancel hwf)
  case swout hd p => exact (decodeCmd_encHdr rfl).trans (decodeHub_swap hwf).1
  case swin hd p => exact (decodeCmd_encHdr rfl).trans (decodeHub_swap hwf).2
  case rcopy hd p => exact (decodeCmd_encHdr rfl).trans (decodeHub_rcopy hwf)

end Sys2Proof.Proofs
end

section
/-! SUPPORT. What the decoders answer: an instruction within its bounds, no event, and of an AS word the guard of the word (R79, R82, R92). -/

namespace Sys2Proof.Machine

open Sys2Proof.Claims

/-! ## Whatever a decoder answers -/

/-- Whatever instruction the decoder answers has the property. -/
def Answers (P : Instr → Prop) (r : Except DecodeError Instr) : Prop := ∀ i, r = .ok i → P i

section
variable {P : Instr → Prop}

theorem answers_error (e : DecodeError) : Answers P (.error e) := by
  intro i h
  cases h

theorem answers_ok {i : Instr} (h : P i) : Answers P (.ok i) := by
  rintro j ⟨⟩
  exact h

theorem answers_req {c : Bool} {e : DecodeError} {k : Except DecodeError Instr} (h : c = true → Answers P k) : Answers P (req c e k) := by
  cases c
  · exact answers_error e
  · exact h rfl

theorem answers_reqSome {α : Type} {x : Option α} {k : α → Except DecodeError Instr} (h : ∀ a, Answers P (k a)) :
    Answers P (reqSome x k) := by
  cases x with
  | none => exact answers_error _
  | some a => exact h a

end

/-- R92: within its bounds, and no event. -/
def Sound (i : Instr) : Prop := i.wf = true ∧ i.isEvent = false

/-! ## AS words (R79, R83) -/

/-- R79: what an AS word may decode to: sound, and with the guard of bits 25 to 22, or a REP. -/
structure AsAnswer (w : Word32) (i : Instr) : Prop where
  sound : Sound i
  guard : ∀ g, guardOf i = some g ∨ sysGuardOf i = some g → g = asGuard w
  unguarded : guardOf i = none → sysGuardOf i = none → ∃ o, i = .rep o

theorem AsAnswer.guarded {w : Word32} {i : Instr} (hw : i.wf = true) (he : i.isEvent = false) (hg : guardOf i = some (asGuard w))
    (hs : sysGuardOf i = none) : AsAnswer w i :=
  ⟨⟨hw, he⟩, by simp_all, by simp_all⟩

theorem AsAnswer.system {w : Word32} {i : Instr} (hw : i.wf = true) (he : i.isEvent = false) (hg : guardOf i = none)
    (hs : sysGuardOf i = some (asGuard w)) : AsAnswer w i :=
  ⟨⟨hw, he⟩, by simp_all, by simp_all⟩

theorem AsAnswer.rep (w : Word32) (o : OpRep) : AsAnswer w (.rep o) := ⟨⟨rfl, rfl⟩, nofun, fun _ _ => ⟨o, rfl⟩⟩

theorem decodeAlu_answers (w : Word32) : Answers (AsAnswer w) (decodeAlu w) := by
  unfold decodeAlu
  split
  case h_14 | h_15 => exact answers_req fun _ => answers_ok (.guarded rfl rfl rfl rfl)
  case h_31 => exact answers_error _
  all_goals exact answers_ok (.guarded rfl rfl rfl rfl)

theorem decodePred_answers (w : Word32) : Answers (AsAnswer w) (decodePred w) := by
  refine answers_req fun _ => answers_req fun _ => ?_
  dsimp only
  split
  case h_4 => exact answers_error _
  all_goals exact answers_ok (.guarded rfl rfl rfl rfl)

theorem decodeChk_answers (w : Word32) : Answers (AsAnswer w) (decodeChk w) := by
  refine answers_req fun _ => ?_
  split
  · exact answers_ok (.guarded rfl rfl rfl rfl)
  · exact answers_req fun _ => answers_ok (.guarded rfl rfl rfl rfl)
  · exact answers_error _

theorem decodeQueueOp_answers (w : Word32) : Answers (AsAnswer w) (decodeQueueOp w) := by
  unfold decodeQueueOp
  split
  · exact answers_req fun _ => answers_reqSome fun _ => answers_ok (.guarded rfl rfl rfl rfl)
  · exact answers_req fun _ => answers_req fun _ => answers_ok (.guarded rfl rfl rfl rfl)
  · exact answers_req fun _ => answers_reqSome fun _ => answers_ok (.guarded rfl rfl rfl rfl)
  · exact answers_error _

theorem decodeSemOp_answers (w : Word32) : Answers (AsAnswer w) (decodeSemOp w) := by
  refine answers_req fun _ => ?_
  dsimp only
  split
  case h_4 => exact answers_req fun hs => answers_ok (.guarded hs rfl rfl rfl)
  case h_5 => exact answers_error _
  all_goals exact answers_req fun _ => answers_ok (.guarded rfl rfl rfl rfl)

/-- R83: case `h_n` is major `n`; `h_64` is the majors that no instruction has. -/
theorem decodeAs_answers (w : Word32) : Answers (AsAnswer w) (decodeAs w) := by
  unfold decodeAs
  split
  case h_1 => exact decodeAlu_answers w
  case h_2 | h_3 | h_4 | h_5 | h_9 | h_24 | h_25 | h_28 | h_41 | h_48 | h_62 => exact answers_ok (.guarded rfl rfl rfl rfl)
  case h_6 | h_7 | h_8 | h_10 | h_11 | h_12 | h_18 | h_19 | h_29 | h_30 | h_31 | h_32 | h_42 | h_43 | h_44 | h_47 | h_54 | h_56 | h_59 | h_60 =>
    exact answers_req fun _ => answers_ok (.guarded rfl rfl rfl rfl)
  case h_13 | h_14 => exact answers_req fun hb => answers_ok (.guarded hb rfl rfl rfl)
  case h_15 => exact answers_req fun _ => answers_req fun _ => answers_reqSome fun _ => answers_ok (.guarded rfl rfl rfl rfl)
  case h_16 => exact answers_req fun _ => answers_reqSome fun _ => answers_ok (.guarded rfl rfl rfl rfl)
  case h_17 => exact decodePred_answers w
  case h_20 | h_21 => exact answers_req fun _ => answers_reqSome fun _ => answers_ok (.system rfl rfl rfl rfl)
  case h_22 | h_23 => exact answers_req fun _ => answers_ok (.system rfl rfl rfl rfl)
  case h_26 | h_27 | h_61 => exact answers_reqSome fun _ => answers_ok (.guarded rfl rfl rfl rfl)
  case h_33 => exact decodeChk_answers w
  case h_34 =>
    exact answers_req fun _ => answers_reqSome fun _ => answers_reqSome fun _ => answers_req fun ha => answers_ok (.system ha rfl rfl rfl)
  case h_35 => exact answers_reqSome fun _ => answers_reqSome fun _ => answers_req fun _ => answers_ok (.guarded rfl rfl rfl rfl)
  case h_36 => exact answers_reqSome fun _ => answers_ok (.guarded rfl rfl rfl rfl)
  case h_37 | h_38 => exact answers_req fun _ => answers_reqSome fun _ => answers_req fun hs => answers_ok (.guarded hs rfl rfl rfl)
  case h_39 => exact answers_reqSome fun _ => answers_reqSome fun _ => answers_req fun hs => answers_ok (.guarded hs rfl rfl rfl)
  case h_40 => exact answers_req fun _ => answers_reqSome fun _ => answers_req fun hm => answers_ok (.guarded hm rfl rfl rfl)
  case h_45 | h_46 => exact answers_req fun _ => answers_reqSome fun _ => answers_ok (.guarded rfl rfl rfl rfl)
  case h_49 | h_50 | h_51 | h_52 | h_53 | h_55 => exact answers_req fun _ => answers_req fun _ => answers_ok (.guarded rfl rfl rfl rfl)
  case h_57 => exact decodeQueueOp_answers w
  case h_58 => exact decodeSemOp_answers w
  case h_63 => exact answers_req fun _ => answers_ok (.rep w _)
  case h_64 => exact answers_error _

/-! ## ES words (R88) -/

theorem decodeV3_sound {w : Word32} {k : OpV3 → Instr} (hk : ∀ o, Sound (k o)) : Answers Sound (decodeV3 w k) :=
  answers_req fun _ => answers_reqSome fun _ => answers_ok (hk _)

theorem decodeVsh_sound {w : Word32} {k : OpV3 → Instr} {ki : OpVshi → Instr} (hk : ∀ o, Sound (k o)) (hi : ∀ o, Sound (ki o)) :
    Answers Sound (decodeVsh w k ki) := by
  unfold decodeVsh
  split
  · exact answers_req fun _ => answers_req fun _ => answers_ok (hi _)
  · exact decodeV3_sound hk

/-- R88: case `h_n` is the n-th opcode of the map; `h_60` is the opcodes that no instruction has. -/
theorem decodeEs_answers (w : Word32) : Answers Sound (decodeEs w) := by
  unfold decodeEs
  split
  case h_1 => exact answers_req fun _ => answers_req fun hs => answers_ok ⟨hs, rfl⟩
  case h_2 | h_3 | h_4 | h_5 | h_6 | h_7 | h_54 | h_55 | h_58 =>
    exact answers_req fun _ => answers_reqSome fun _ => answers_ok ⟨rfl, rfl⟩
  case h_8 | h_10 | h_12 | h_13 | h_14 | h_37 | h_38 | h_50 | h_51 | h_52 | h_53 | h_59 => exact answers_req fun _ => answers_ok ⟨rfl, rfl⟩
  case h_9 => exact answers_reqSome fun _ => answers_req fun hm => answers_ok ⟨hm, rfl⟩
  case h_11 => exact answers_req fun _ => answers_reqSome fun _ => answers_req fun hm => answers_ok ⟨hm, rfl⟩
  case h_15 | h_16 | h_17 => exact answers_req fun _ => answers_reqSome fun _ => answers_ok ⟨rfl, rfl⟩
  case h_18 | h_19 | h_20 | h_21 | h_31 | h_32 | h_33 => exact decodeV3_sound fun _ => ⟨rfl, rfl⟩
  case h_22 | h_23 | h_24 | h_25 | h_26 | h_27 | h_29 | h_30 | h_45 | h_46 | h_47 | h_48 | h_49 =>
    exact answers_req fun _ => answers_req fun _ => answers_ok ⟨rfl, rfl⟩
  case h_28 => exact answers_req fun _ => answers_req fun ht => answers_ok ⟨ht, rfl⟩
  case h_34 | h_35 | h_36 => exact decodeVsh_sound (fun _ => ⟨rfl, rfl⟩) fun _ => ⟨rfl, rfl⟩
  case h_39 | h_40 | h_41 | h_42 =>
    exact answers_req fun _ => answers_reqSome fun _ => answers_reqSome fun _ => answers_reqSome fun _ => answers_ok ⟨rfl, rfl⟩
  case h_43 | h_44 | h_56 => exact answers_req fun _ => answers_reqSome fun _ => answers_reqSome fun _ => answers_ok ⟨rfl, rfl⟩
  case h_57 =>
    refine answers_req fun _ => answers_reqSome fun _ => ?_
    split
    · exact answers_ok ⟨rfl, rfl⟩
    · exact answers_req fun _ => answers_ok ⟨rfl, rfl⟩
    · exact answers_error _
  case h_60 => exact answers_error _

/-! ## Commands (R91) -/

/-- R91: a command is accepted within its bounds only. -/
theorem accept_answers {i : Instr} (he : i.isEvent = false) : Answers Sound (accept i) :=
  answers_req fun hw => answers_ok ⟨hw, he⟩

theorem decodeMx_answers (opc : Nat) (h : Hdr) (ps : List Word32) : Answers Sound (decodeMx opc h ps) := by
  unfold decodeMx
  split
  case h_6 => exact answers_req fun _ => answers_reqSome fun _ => accept_answers rfl
  case h_1 | h_2 | h_3 | h_4 | h_5 | h_7 | h_8 | h_9 => exact answers_req fun _ => accept_answers rfl
  all_goals exact answers_error _

theorem decodeCe_answers (ce : Bool) (opc : Nat) (h : Hdr) (ps : List Word32) : Answers Sound (decodeCe ce opc h ps) := by
  unfold decodeCe
  split
  case h_6 => exact accept_answers rfl
  case h_1 | h_2 | h_3 | h_4 | h_5 | h_7 | h_8 => exact answers_req fun _ => accept_answers rfl
  all_goals exact answers_error _

theorem decodeXe_answers (opc : Nat) (h : Hdr) (ps : List Word32) : Answers Sound (decodeXe opc h ps) := by
  unfold decodeXe
  split
  case h_1 | h_2 | h_3 => exact answers_req fun _ => accept_answers rfl
  all_goals exact answers_error _

theorem decodeHo_answers (opc : Nat) (h : Hdr) (ps : List Word32) : Answers Sound (decodeHo opc h ps) := by
  unfold decodeHo
  split
  case h_1 | h_2 | h_3 => exact answers_req fun _ => accept_answers rfl
  all_goals exact answers_error _

theorem decodeHub_answers (opc : Nat) (h : Hdr) (ps : List Word32) : Answers Sound (decodeHub opc h ps) := by
  unfold decodeHub
  split
  case h_1 | h_2 | h_3 => exact answers_req fun _ => accept_answers rfl
  all_goals exact answers_error _

theorem decodeCmd_answers (r : Ring) (h : Word32) (ps : List Word32) : Answers Sound (decodeCmd r h ps) := by
  refine answers_req fun _ => answers_reqSome fun sc => ?_
  cases r with
  | mx => exact decodeMx_answers _ _ _
  | ce0 | ce1 => exact decodeCe_answers _ _ _ _
  | xe => exact decodeXe_answers _ _ _
  | ho => exact decodeHo_answers _ _ _
  | hub => exact decodeHub_answers _ _ _

end Sys2Proof.Machine

namespace Sys2Proof.Proofs

open Sys2Proof.Machine

/-- Settles O1: the kernel evaluates the decoders on the words the spec writes out. -/
theorem decodeSpecWords : Obligations.DecodeSpecWords := by
  unfold Obligations.DecodeSpecWords
  exact ⟨rfl, rfl, rfl, rfl, rfl, rfl, rfl, ⟨_, rfl⟩, rfl⟩

/-- Settles O5: every branch of a decoder that answers an instruction has checked its bounds, and none of them names an event. -/
theorem decodedIsWellFormed : Obligations.DecodedIsWellFormed := by
  unfold Obligations.DecodedIsWellFormed
  exact ⟨fun w i h => (decodeAs_answers w i h).sound, fun w => decodeEs_answers w, fun r h ps => decodeCmd_answers r h ps⟩

end Sys2Proof.Proofs
end

section
/-! SUPPORT. R78: a fetch leaves the program counter, the pipeline and the repetition of the AS as they are. -/

namespace Sys2Proof.Machine

open Sys2Proof.Claims

theorem core_of_cell {s t : State} (h : t.cell = s.cell) : t.core = s.core := congrArg (fun c => c.as.core) h

/-- What a call that also answers a value leaves. -/
theorem core_of_eq {α : Type} {s t : State} {x : State × α} {a : α} (h : x = (t, a)) (hx : x.1.core = s.core) : t.core = s.core := by
  rw [h] at hx
  exact hx

/-- A change of one cell, in focus or not, beside its AS. -/
theorem updCell_core {s : State} {id : CellId} {f : Cell → Cell} (h : ∀ c, (f c).as = c.as) : (s.updCell id f).core = s.core := by
  unfold State.updCell
  split
  · exact congrArg AsSt.core (h s.cell)
  · rfl

theorem tlbFill_as (c : Cell) (a : TlbAgent) (e : TlbEnt) : (c.tlbFill a e).as = c.as := by
  unfold Cell.tlbFill Cell.setTlb
  split <;> rfl

@[simp] theorem report_core (s : State) (r : Report) : (s.report r).core = s.core := by
  simp only [State.report]
  split
  · rfl
  · split
    · exact updCell_core fun _ => rfl
    · rfl

@[simp] theorem lineError_core (s : State) (w : Who) (p : Place) (sa : Word) (code : Nat) (d : Option Detection) :
    (s.lineError w p sa code d).core = s.core := by
  have hfound : (d.elim s s.detected).core = s.core := by cases d <;> rfl
  simp only [State.lineError]
  split <;> simp [hfound]

@[simp] theorem meetError_core (s : State) (w : Who) (l1 : CellId) (p : Place) (sa : Word) : (s.meetError w l1 p sa).core = s.core := by
  have hbeats : (s.noteBeats p.die p.addr 4).core = s.core := rfl
  simp only [State.meetError]
  repeat' split
  all_goals simp [hbeats]

@[simp] theorem tellShared_core (s : State) (w : Who) (p : Place) (sa : Word) : (s.tellShared w p sa).core = s.core := by
  simp only [State.tellShared]
  repeat' split
  all_goals simp

@[simp] theorem oneOf_core (s : State) (x : TW) (l : List TW) : (s.oneOf x l).1.core = s.core := by
  unfold State.oneOf
  split <;> rfl

@[simp] theorem deciphered_core (s : State) (who : CellId) (p : Place) (x : TW) : (s.deciphered who p x).1.core = s.core := by
  refine core_of_cell ?_
  simp only [State.deciphered]
  repeat' split
  all_goals simp

@[simp] theorem readNew_core (s : State) (w : Who) (p : Place) (sa : Word) : (s.readNew w p sa).1.core = s.core := by
  unfold State.readNew State.readAny
  split <;> simp

@[simp] theorem fetched_core (s : State) (c : CellId) (k : Nat) (now : TW) : (s.fetched c k now).1.core = s.core := by
  unfold State.fetched
  split <;> simp

@[simp] theorem loadVal_core (s : State) (x : TW) : (s.loadVal x).1.core = s.core := by
  unfold State.loadVal
  split <;> rfl

@[simp] theorem reportPte_core (s : State) (w : Who) (sa : Word) : (s.reportPte w sa).core = s.core := by
  unfold State.reportPte
  split <;> simp

@[simp] theorem walkDown_core (w : Who) (sa : Word) (va : Nat) :
    ∀ (l : List Nat) (s : State) (k : Place) (e : Word), (s.walkDown w sa va l k e).1.core = s.core
  | [], _, _, _ => rfl
  | lvl :: rest, s, k, e => by
    have hfound (d : Detection) : (s.detected d).core = s.core := rfl
    simp only [State.walkDown]
    repeat' split
    all_goals simp [walkDown_core w sa va rest, hfound]

@[simp] theorem putKeyed_core (s : State) (p : Place) (v : Word) (mask : BitVec 8) (psn : Bool) :
    (s.putKeyed p v mask psn).core = s.core := by
  refine core_of_cell ?_
  unfold State.putKeyed
  split <;> simp

@[simp] theorem walk_core (s : State) (cx : Cx) (seg : Nat) (e : SegEnt) (off : Nat) (wr : Bool) :
    (s.walk cx seg e off wr).1.core = s.core := by
  have hsoil (t : State) (n : Nat) (f : CtxSt → CtxSt) : (t.updCtx n f).core = t.core := rfl
  have hfill (t : State) (a : TlbAgent) (x : TlbEnt) : (t.updCell cx.who.cell (·.tlbFill a x)).core = t.core :=
    updCell_core fun c => tlbFill_as c a x
  simp only [State.walk]
  split
  · next t h => exact core_of_eq h (walkDown_core ..)
  · next t k lf h =>
    have hdown := core_of_eq h (walkDown_core ..)
    split
    · exact hdown
    · split
      · exact hdown
      · next u hu =>
        have hbind := (core_of_cell (bind_cell hu)).trans hdown
        repeat' split
        all_goals simp [hbind, hsoil, hfill]

@[simp] theorem bindWord_core (s : State) (w : CellId) (p : Place) (n : Nat) : (s.bindWord w p n).1.core = s.core := by
  refine core_of_cell ?_
  unfold State.bindWord
  split
  · rfl
  · next t ht =>
    split
    · exact bind_cell ht
    · split
      · exact bind_cell ht
      · next u hu => exact (bind_cell hu).trans (bind_cell ht)

@[simp] theorem noteSegWrite_core (s : State) (cx : Cx) (seg : Nat) (e : SegEnt) : (s.noteSegWrite cx seg e).core = s.core := by
  simp only [State.noteSegWrite]
  repeat' split
  all_goals rfl

@[simp] theorem xlate_core (s : State) (cx : Cx) (seg : Nat) (e : SegEnt) (off : Nat) (wr : Bool) :
    (s.xlate cx seg e off wr).1.core = s.core := by
  have hwalk : (match s.walk cx seg e off wr with
      | (s, .ok lf) => (s, Except.ok (leafXl e off lf))
      | (s, .error z) => (s, .error z)).1.core = s.core := by
    have := walk_core s cx seg e off wr
    split <;> next h => exact core_of_eq h this
  simp only [State.xlate]
  split
  · rfl
  · split
    · split
      · split
        · exact hwalk
        · rfl
      · exact hwalk
    · split
      · rfl
      · split
        · next h => exact core_of_eq h (bindWord_core ..)
        · next h =>
          have hbind := core_of_eq h (bindWord_core ..)
          split
          · exact (noteSegWrite_core ..).trans hbind
          · exact hbind

@[simp] theorem fetchWord_core (s : State) (agent : Nat) (base : Word) (size : Nat) (pc : Word) :
    (s.fetchWord agent base size pc).1.core = s.core := by
  simp only [State.fetchWord]
  split
  · rfl
  · split
    · rfl
    · split
      · rfl
      · split
        · next h => exact core_of_eq h (xlate_core ..)
        · next h =>
          have hx := core_of_eq h (xlate_core ..)
          split
          · exact hx
          · simp [hx]

end Sys2Proof.Machine
end

section
/-! SUPPORT. Issue (R79, R80, R157): a guarded instruction is its meaning under the check of its guard; O13, O14. -/

namespace Sys2Proof.Machine

open Sys2Proof.Claims

/-! ## What stands before the meaning of an instruction (R79, R80) -/

/-- R79, R80: an instruction with a guard does what it does under the check of it. -/
theorem exec_guarded {i : Instr} {g : Guard} (h : guardOf i = some g) (s : State) :
    ∃ f : State → State, exec i s = .next (s.guarded g f) := by
  cases i <;> cases h
  all_goals exact ⟨_, rfl⟩

/-- R80: at a level that may, an instruction whose level is checked is guarded like any other. -/
theorem exec_sysGuarded {i : Instr} {g : Guard} {s : State} (h : sysGuardOf i = some g) (hl : belowLevel i s.cell.as.lvl = false) :
    ∃ f : State → State, exec i s = .next (s.guarded g f) := by
  cases i <;> cases h
  case srr o => exact ⟨_, congrArg Host.Outcome.next (if_pos (by simpa [belowLevel] using hl))⟩
  case srw o => exact ⟨_, congrArg Host.Outcome.next (if_pos (by simpa [belowLevel] using hl))⟩
  case tlbi o => exact ⟨_, congrArg Host.Outcome.next (if_neg (by simpa [belowLevel] using hl))⟩
  case rett o => exact ⟨_, congrArg Host.Outcome.next (if_neg (by simpa [belowLevel] using hl))⟩
  case halt o => exact ⟨_, rfl⟩

/-- R31, R80: below its level an instruction traps with its word; HALT's level is checked after its guard (log 15). -/
theorem exec_belowLevel {i : Instr} {s : State} (hl : belowLevel i s.cell.as.lvl = true) (hh : ∀ o, i ≠ .halt o) :
    exec i s = .next (s.trap cPrivilege (wordOf i)) := by
  cases i
  case srr o => exact congrArg Host.Outcome.next (if_neg (by simpa [belowLevel] using hl))
  case srw o => exact congrArg Host.Outcome.next (if_neg (by simpa [belowLevel] using hl))
  case tlbi o => exact congrArg Host.Outcome.next (if_pos (by simpa [belowLevel] using hl))
  case rett o => exact congrArg Host.Outcome.next (if_pos (by simpa [belowLevel] using hl))
  case halt o => exact absurd rfl (hh o)
  all_goals cases hl

theorem passes_of_guardOff {i : Instr} {s : State} {g : Guard} (h : ∃ f : State → State, exec i s = .next (s.guarded g f))
    (hg : GuardOff s g) : Passes i s := by
  obtain ⟨f, hexec⟩ := h
  obtain ⟨htag, hfalse⟩ := hg
  rw [guarded_off htag hfalse] at hexec
  exact ⟨_, hexec, retire_core s, retire_onlyCore s⟩

theorem traps_of_guardTagged {i : Instr} {s : State} {g : Guard} (h : ∃ f : State → State, exec i s = .next (s.guarded g f))
    (hg : (s.rp g.p).psn = true) : exec i s = .next (s.trap cPoison 0) := by
  obtain ⟨f, hexec⟩ := h
  rw [hexec, guarded_tagged hg]

/-! ## A word that is no instruction (R79, R86, R135) -/

theorem asFetch_of_badWord {u : State} {w : Word32} {e : DecodeError} (hrep : u.core.rep = none)
    (hw : (asFetchAt u u.core.pc).2 = some w) (he : decodeAs w = .error e) :
    u.asFetch = ((asFetchAt u u.core.pc).1.badAsWord w, none) := by
  unfold State.asFetch
  unfold asFetchAt at hw ⊢
  rw [hrep]
  dsimp only
  generalize u.fetchWord 0 u.cell.asbase u.cell.assize u.core.pc = r at hw ⊢
  obtain ⟨t, _⟩ := r
  subst hw
  simp [he]

theorem badAsWord_of_major {s : State} {w : Word32} (h : w.extractLsb' 26 6 ≠ 0x3F) :
    s.badAsWord w = s.trap cIllegal (w.zeroExtend 64) := by
  unfold State.badAsWord badPrefix
  rw [if_neg h]
  cases s.core.rep <;> rfl

theorem badAsWord_of_prefix {s : State} {w : Word32} (h : w.extractLsb' 26 6 = 0x3F) (hrep : s.core.rep = none) (hc : Checked s) :
    s.badAsWord w = (s.setCore { s.core with
      rep := some ⟨(w.extractLsb' 20 6).toNat + 1, 0, w.extractLsb' 16 4, w.extractLsb' 12 4, w.extractLsb' 8 4⟩ }).trap cIllegal
        (w.zeroExtend 64) := by
  unfold State.badAsWord badPrefix
  rw [if_pos h, hrep]
  exact if_pos (List.isEmpty_iff.mpr hc)

/-! ## Unlisted system registers (R32, R80) -/

theorem ofCode_listed {c : BitVec 12} {r : SysReg} (h : SysReg.ofCode c = some r) : r.code = c := by
  refine BitVec.eq_of_toNat_eq ?_
  unfold SysReg.ofCode at h
  split at h
  case h_24 => cases h
  all_goals
    next hc =>
      cases h
      rw [hc]
      rfl

theorem ofCode_unlisted {c : BitVec 12} (h : ∀ r : SysReg, r.code ≠ c) : SysReg.ofCode c = none := by
  cases hr : SysReg.ofCode c with
  | none => rfl
  | some r => exact absurd (ofCode_listed hr) (h r)

/-- An instruction that asks for what is not there is refused. -/
theorem req_reqSome_none {α : Type} (c : Bool) (e : DecodeError) (k : α → Except DecodeError Instr) :
    ∃ e', req c e (reqSome none k) = .error e' := by
  cases c <;> exact ⟨_, rfl⟩

end Sys2Proof.Machine

namespace Sys2Proof.Proofs

open Sys2Proof.Machine Sys2Proof.Claims

/-- Settles O13: by the guarded form of every instruction, and the guard the decoder reads. -/
theorem falseGuardOnlyTicks : Obligations.FalseGuardOnlyTicks := by
  unfold Obligations.FalseGuardOnlyTicks
  refine ⟨?guarded, ?system, ?guardBits, ?unguarded, ?p0⟩
  case guarded => exact fun i s g hi hg => passes_of_guardOff (exec_guarded hi s) hg
  case system => exact fun i s g hi hl hg => passes_of_guardOff (exec_sysGuarded hi hl) hg
  case guardBits =>
    intro w i g hw hi
    rw [(decodeAs_answers w i hw).guard g hi]
    exact ⟨rfl, rfl⟩
  case unguarded => exact fun w i hw => (decodeAs_answers w i hw).unguarded
  case p0 => exact fun s => ⟨⟨rfl, rfl⟩, rfl, rfl⟩

/-- Settles O14: a word, a level and a guard are looked at in that order. -/
theorem guardAndPrivilegeTraps : Obligations.GuardAndPrivilegeTraps := by
  unfold Obligations.GuardAndPrivilegeTraps
  refine ⟨?badWord, ?unlisted, ?below, ?tagged, ?sysTagged⟩
  case badWord =>
    intro s u w e hcomes hruns hrep hw he
    have hstep : step s = .next ((asFetchAt u u.core.pc).1.badAsWord w) := by
      rw [step_as_of_runs hcomes hruns, asFetch_of_badWord hrep hw he]
      rfl
    have hfetched : (asFetchAt u u.core.pc).1.core.rep = none := by rw [asFetchAt, fetchWord_core, hrep]
    refine ⟨fun hmajor => ?_, fun hmajor hc => ?_⟩
    · rw [hstep, badAsWord_of_major hmajor]
    · rw [hstep, badAsWord_of_prefix hmajor hfetched hc]
  case unlisted =>
    intro w hmajor hcode
    have hnone : SysReg.ofCode (asImm12 w) = none := ofCode_unlisted hcode
    obtain h | h := hmajor <;> rw [decodeAs, h, hnone]
    · exact req_reqSome_none ..
    · exact req_reqSome_none ..
  case below => exact fun i s hl hh => exec_belowLevel hl hh
  case tagged => exact fun i s g hi hg => traps_of_guardTagged (exec_guarded hi s) hg
  case sysTagged => exact fun i s g hi hl hg => traps_of_guardTagged (exec_sysGuarded hi hl) hg

end Sys2Proof.Proofs
end

section
/-! SUPPORT. Targets and tagged operands of control (R100, R129, R153) and the words after a REP (R86); O28. -/

namespace Sys2Proof.Machine

open Sys2Proof.Claims

/-- R79, R80: under a true guard an instruction does what its meaning says. -/
theorem exec_of_guardOn {i : Instr} {s t : State} {g : Guard} {f : State → State} (h : exec i s = .next (s.guarded g f))
    (hg : GuardOn s g) (hf : f s = t) : exec i s = .next t := by
  obtain ⟨htag, htrue⟩ := hg
  rw [h, guarded_on htag htrue, hf]

theorem atKernel_of_not_program {s : State} (h : s.cell.as.lvl ≠ .program) (i : Instr) (f : State → State) : s.atKernel i f = f s :=
  if_neg h

theorem target_of_invalid {s : State} {t : TReg} (h : (s.core.rt t).valid = false) (go : Word → State) :
    s.target t go = s.trap cTarget (t.zeroExtend 64) := by
  simp [State.target, h]

theorem target_of_outlying {s : State} {t : TReg} (h : (s.core.rt t).valid = true)
    (hout : inSection s.cell.asbase s.cell.assize (s.core.rt t).addr = false) (go : Word → State) :
    s.target t go = s.trap cFetch (s.core.rt t).addr := by
  simp [State.target, h, hout]

/-- R132: RET checks the address it goes to. -/
theorem exec_ret_outlying {s : State} {o : OpR} (hg : GuardOn s o.pg) (ha : Clean s o.a)
    (hout : inSection s.cell.asbase s.cell.assize (s.rg o.a).v = false) : exec (.ret o) s = .next (s.trap cFetch (s.rg o.a).v) :=
  exec_of_guardOn rfl hg ((clean_on ha _).trans (if_neg (by simp [hout])))

/-- R131: a tagged predicate is not pushed. -/
theorem exec_bqp_tagged {s : State} {o : OpP} (hg : GuardOn s o.pg) (ha : (s.rp o.a).psn = true) :
    exec (.bqp o) s = .next (s.trap cPoison 0) :=
  exec_of_guardOn rfl hg (if_pos ha)

/-- R32, R153: SRW at a level that may write the register. -/
theorem exec_srw_tagged {s : State} {o : OpSrw} (hg : GuardOn s o.pg) (hw : sysWritable o.reg s.cell.as.lvl = true)
    (ha : (s.rg o.a).psn = true) : exec (.srw o) s = .next (s.trap cPoison (s.rg o.a).v) :=
  exec_of_guardOn (congrArg Host.Outcome.next (if_pos hw)) hg (clean_tagged ha _)

theorem exec_tlbi_tagged {s : State} {o : OpTlbi} (hg : GuardOn s o.pg) (hl : s.cell.as.lvl ≠ .program)
    (ha : (s.rg o.a).psn = true) : exec (.tlbi o) s = .next (s.trap cPoison (s.rg o.a).v) :=
  exec_of_guardOn (congrArg Host.Outcome.next (atKernel_of_not_program hl _ _)) hg (clean_tagged ha _)

/-- R86, R134: a REP whose steps the word after it does not allow. -/
theorem exec_rep_illegal {s u : State} {o : OpRep} {w : Word32} {i : Instr}
    (hw : s.fetchWord 0 s.cell.asbase s.cell.assize (s.core.pc + 4) = (u, some w)) (hi : decodeAs w = .ok i)
    (hsteps : stepsOk o (gFields i) = false) :
    exec (.rep o) s = .next ((u.setCore { u.core with rep := some (repStart o) }).trap cIllegal (wordOf (.rep o))) := by
  change execRep o s = _
  rw [execRep, hw]
  simp only [hi, hsteps]
  rfl

theorem poisonedOperands : PoisonedOperands := by
  refine ⟨?pbr, ?bqp, ?reg, ?loop, ?srw, ?tlbi, ?fork, ?join, ?enq, ?enqs⟩
  case pbr => exact fun s o hg ha => exec_of_guardOn rfl hg (clean_tagged ha _)
  case bqp => exact fun s o hg ha => exec_bqp_tagged hg ha
  case reg =>
    exact fun s o hg ha => ⟨exec_of_guardOn rfl hg (clean_tagged ha _), exec_of_guardOn rfl hg (clean_tagged ha _),
      exec_of_guardOn rfl hg (clean_tagged ha _)⟩
  case loop => exact fun s o hg ha => exec_of_guardOn rfl hg (clean_tagged ha _)
  case srw => exact fun s o hg hw ha => exec_srw_tagged hg hw ha
  case tlbi => exact fun s o hg hl ha => exec_tlbi_tagged hg hl ha
  case fork =>
    refine fun s o hg => ⟨fun ha => ?_, fun ha hb => ?_, fun ha hb hd => ?_⟩
    · exact exec_of_guardOn rfl hg (clean_tagged ha _)
    · exact exec_of_guardOn rfl hg ((clean_on ha _).trans (clean_tagged hb _))
    · exact exec_of_guardOn rfl hg ((clean_on ha _).trans ((clean_on hb _).trans (clean_tagged hd _)))
  case join =>
    refine fun s o hg => ⟨fun ha => ?_, fun ha hb => ?_⟩
    · exact exec_of_guardOn rfl hg (clean_tagged ha _)
    · exact exec_of_guardOn rfl hg ((clean_on ha _).trans (clean_tagged hb _))
  case enq =>
    refine fun s o hg => ⟨fun ha => ?_, fun ha hb => ?_⟩
    · exact exec_of_guardOn rfl hg (clean_tagged ha _)
    · exact exec_of_guardOn rfl hg ((clean_on ha _).trans (clean_tagged hb _))
  case enqs => exact fun s o hg ha => exec_of_guardOn rfl hg (clean_tagged ha _)

end Sys2Proof.Machine

namespace Sys2Proof.Proofs

open Sys2Proof.Machine Sys2Proof.Claims

/-- Settles O28: the checks that BR, BRQ, CALL, LOOP, RET and REP make before they transfer or begin. -/
theorem badTargetTraps : Obligations.BadTargetTraps := by
  unfold Obligations.BadTargetTraps
  refine ⟨?invalid, ?outlying, ?ret, ?loop, poisonedOperands, ?rep⟩
  case invalid =>
    exact fun s o hg hv => ⟨exec_of_guardOn rfl hg (target_of_invalid hv _), exec_of_guardOn rfl hg (target_of_invalid hv _),
      exec_of_guardOn rfl hg (target_of_invalid hv _)⟩
  case outlying =>
    exact fun s o hg hv hout => ⟨exec_of_guardOn rfl hg (target_of_outlying hv hout _),
      exec_of_guardOn rfl hg (target_of_outlying hv hout _), exec_of_guardOn rfl hg (target_of_outlying hv hout _)⟩
  case ret => exact fun s o hg ha hout => exec_ret_outlying hg ha hout
  case loop =>
    refine fun s o hg ha => ⟨fun hv => ?_, fun hv hout => ?_⟩
    · exact exec_of_guardOn rfl hg ((clean_on ha _).trans (target_of_invalid hv _))
    · exact exec_of_guardOn rfl hg ((clean_on ha _).trans (target_of_outlying hv hout _))
  case rep => exact fun s o u w i hw hi hsteps => exec_rep_illegal hw hi hsteps

end Sys2Proof.Proofs
end

section
/-! SUPPORT. ES control (R86, R164, R190 to R194): what an issuing ES instruction leaves, and the checks of EREP; O41. -/

namespace Sys2Proof.Machine

open Sys2Proof.Claims

/-! ## An ES instruction that changes its cell and issues -/

/-- A change of the cell that neither reads nor writes the ES. -/
def LeavesEs (c : Cell) (f : Cell → Cell) : Prop := ∀ e, f { c with es := e } = { f c with es := e }

theorem LeavesEs.es_eq {c : Cell} {f : Cell → Cell} (h : LeavesEs c f) : (f c).es = c.es := by
  have := congrArg Cell.es (h c.es)
  exact this

theorem esNext_es (s : State) (n : Nat) : (s.esNext n).cell.es = s.cell.es.advance.endTick := by rw [esNext_cell]

theorem esJump_es (s : State) (x : Word) : (s.esJump x).cell.es = ({ s.cell.es with pc := x, rep := none }).endTick := by rw [esJump_cell]

theorem esNext_updFocus_es {s : State} {f : Cell → Cell} (h : LeavesEs s.cell f) (n : Nat) :
    ((s.updFocus f).esNext n).cell.es = s.cell.es.advance.endTick := by
  rw [esNext_es, updFocus_cell, h.es_eq]

theorem esNext_updFocus_moves {s : State} {f : Cell → Cell} (h : LeavesEs s.cell f) (n : Nat) : EsMoves s ((s.updFocus f).esNext n) f := by
  refine ⟨?_, by simp, by simp, esNext_sameModule (s.updFocus f) n, fun a => by simp⟩
  rw [esNext_updFocus_es h, esNext_cell, updFocus_cell, h.es_eq]
  exact (h _).symm

theorem esJump_updFocus_es {s : State} {f : Cell → Cell} (h : LeavesEs s.cell f) (x : Word) :
    ((s.updFocus f).esJump x).cell.es = ({ s.cell.es with pc := x, rep := none }).endTick := by
  rw [esJump_es, updFocus_cell, h.es_eq]

theorem esJump_updFocus_moves {s : State} {f : Cell → Cell} (h : LeavesEs s.cell f) (x : Word) : EsMoves s ((s.updFocus f).esJump x) f := by
  refine ⟨?_, by simp, by simp, esJump_sameModule (s.updFocus f) x, fun a => by simp⟩
  rw [esJump_updFocus_es h, esJump_cell, updFocus_cell, h.es_eq]
  exact (h _).symm

theorem esNext_onlyEs (s : State) (n : Nat) : OnlyEs s (s.esNext n) := by
  refine ⟨?_, by simp, by simp, esNext_sameModule s n, fun a => by simp⟩
  rw [esNext_es, esNext_cell]

theorem esJump_onlyEs (s : State) (x : Word) : OnlyEs s (s.esJump x) := by
  refine ⟨?_, by simp, by simp, esJump_sameModule s x, fun a => by simp⟩
  rw [esJump_es, esJump_cell]

/-- A change of the ES alone, after what changed the ES alone. -/
theorem onlyEs_updEs {s t : State} (h : OnlyEs s t) (f : EsSt → EsSt) : OnlyEs s (t.updEs f) := by
  obtain ⟨hcell, hparked, hmem, hmodule, hbytes⟩ := h
  refine ⟨?_, hparked, hmem, hmodule, hbytes⟩
  change { t.cell with es := f t.cell.es } = _
  rw [hcell]
  rfl

theorem esPasses_of_exec {i : Instr} {s : State} {n : Nat} (h : exec i s = .next (s.esNext n)) : EsPasses i s :=
  ⟨_, h, esNext_onlyEs s n, esNext_es s n⟩

/-! ## Branches (R190, R191) -/

/-- R190: the mask a condition reads carries no tag. -/
theorem maskTest_false {s : State} {m : MReg} {c : ECond} (h : c = .always ∨ (s.ev m).mask.psn = false) :
    (decide (c ≠ .always) && (s.ev m).mask.psn) = false := by
  obtain h | h := h <;> simp [h]

theorem maskTest_true {s : State} {m : MReg} {c : ECond} (hc : c ≠ .always) (h : (s.ev m).mask.psn = true) :
    (decide (c ≠ .always) && (s.ev m).mask.psn) = true := by
  simp [hc, h]

theorem exec_ebr_tagged {s : State} {o : OpEbr} (hc : o.cond ≠ .always) (hm : (s.ev o.m).mask.psn = true) :
    exec (.ebr o) s = .next (s.esFault cPoison 0) :=
  congrArg Host.Outcome.next (if_pos (maskTest_true hc hm))

/-- R190: with no tag to fault on, EBR checks its target first. -/
theorem exec_ebr_clean {s : State} {o : OpEbr} (hm : o.cond = .always ∨ (s.ev o.m).mask.psn = false) :
    exec (.ebr o) s = .next (if !inSection s.cell.esbase s.cell.essize (s.esTarget o.disp) then s.esFault cEsFetch (s.esTarget o.disp)
      else if econd (s.ev o.m) o.cond then s.esJump (s.esTarget o.disp) else s.esNext) :=
  congrArg Host.Outcome.next (if_neg (by rw [maskTest_false hm]; exact Bool.false_ne_true))

theorem exec_ebr_outlying {s : State} {o : OpEbr} (hm : o.cond = .always ∨ (s.ev o.m).mask.psn = false)
    (ht : inSection s.cell.esbase s.cell.essize (s.esTarget o.disp) = false) :
    exec (.ebr o) s = .next (s.esFault cEsFetch (s.esTarget o.disp)) := by
  rw [exec_ebr_clean hm, ht]
  rfl

theorem exec_ebr_target {s : State} {o : OpEbr} (hm : o.cond = .always ∨ (s.ev o.m).mask.psn = false)
    (ht : inSection s.cell.esbase s.cell.essize (s.esTarget o.disp) = true) :
    exec (.ebr o) s = .next (if econd (s.ev o.m) o.cond then s.esJump (s.esTarget o.disp) else s.esNext) := by
  rw [exec_ebr_clean hm, ht]
  rfl

theorem exec_ebrq_outlying {s : State} {o : OpDisp} (ht : inSection s.cell.esbase s.cell.essize (s.esTarget o.disp) = false) :
    exec (.ebrq o) s = .next (s.esFault cEsFetch (s.esTarget o.disp)) :=
  congrArg Host.Outcome.next (if_pos (by rw [ht]; rfl))

/-- R191: what EBRQ does with the outcomes it finds. -/
theorem exec_ebrq_target {s : State} {o : OpDisp} (ht : inSection s.cell.esbase s.cell.essize (s.esTarget o.disp) = true) :
    exec (.ebrq o) s = .next (match s.cell.qs.bqa with
      | b :: r =>
        if b.from_ ≤ s.pkg.time.clk then
          if b.v then (s.updQs fun k => { k with bqa := r }).esJump (s.esTarget o.disp) else (s.updQs fun k => { k with bqa := r }).esNext
        else s
      | [] => s) :=
  congrArg Host.Outcome.next (if_neg (by rw [ht]; exact Bool.false_ne_true))

theorem exec_ebqp_clean {s : State} {o : OpEbqp} (hm : o.cond = .always ∨ (s.ev o.m).mask.psn = false) :
    exec (.ebqp o) s = .next (if Config.capBq ≤ s.cell.qs.bqe.length then s
      else (s.updQs fun k => { k with bqe := k.bqe ++ [⟨econd (s.ev o.m) o.cond, s.ready⟩] }).esNext) :=
  congrArg Host.Outcome.next (if_neg (by rw [maskTest_false hm]; exact Bool.false_ne_true))

/-! ## Semaphores and the end (R193, R194) -/

theorem exec_esemw_of_count {s : State} {o : OpEsem} {n : BitVec 16} (h : s.sem o.s = some (.count n)) :
    exec (.esemw o) s = .next (if n = 0 then s else (s.setSem o.s (.count (n - 1))).esNext) := by
  change execEsemw o s = _
  rw [execEsemw, h]

theorem exec_esemw_of_err {s : State} {o : OpEsem} {c : Byte} (h : s.sem o.s = some (.err c)) :
    exec (.esemw o) s = .next (s.esFault cSem (semErrVal o.s c)) := by
  change execEsemw o s = _
  rw [execEsemw, h]

theorem exec_esemw_63 {s : State} {o : OpEsem} (h : o.s = 63) : exec (.esemw o) s = .next s.esNext := by
  change execEsemw o s = _
  rw [execEsemw, h, sem_63]

/-- An ES instruction that writes one semaphore and issues. -/
theorem setSem_esNext_result (s : State) {n : SemNo} (x : Sem) (hn : n.toNat < 63) : let t := (s.setSem n x).esNext
    t.cell.es = s.cell.es.advance.endTick ∧ EsMoves s t (fun c => { c with sems := t.cell.sems }) ∧ (∀ m, m ≠ n → t.sem m = s.sem m)
      ∧ t.sem n = some x := by
  intro t
  have hsem : ∀ m, t.sem m = (s.setSem n x).sem m := fun m => sem_congr (by simp [t]) m
  have hsems : t.cell.sems = (s.cell.setSem n x).sems := by simp [t, State.setSem]
  refine ⟨?_, ?_, fun m hm => (hsem m).trans (sem_setSem_other s x hm), (hsem n).trans (sem_setSem_same x hn)⟩
  · simp only [t, setSem_eq]
    exact esNext_updFocus_es (fun _ => rfl) 1
  · rw [hsems, show t = _ from congrArg (State.esNext ·) (setSem_eq s n x)]
    exact esNext_updFocus_moves (fun _ => rfl) 1

theorem signal_esNext_result (s : State) (n : SemNo) : let t := (s.signal n).esNext
    t.cell.es = s.cell.es.advance.endTick ∧ EsMoves s t (fun c => { c with sems := t.cell.sems, ovfs := overflowsOf s n })
      ∧ (∀ m, m ≠ n → t.sem m = s.sem m) ∧ t.sem n = (s.sem n).map Sem.signal := by
  intro t
  have hsem : ∀ m, t.sem m = (s.signal n).sem m := fun m => sem_congr (by simp [t]) m
  have hsems : t.cell.sems = (s.signal n).cell.sems := by simp [t]
  have hsignal : t = _ := congrArg (State.esNext ·) (signal_eq s n)
  refine ⟨?_, ?_, fun m hm => (hsem m).trans (sem_signal_other s hm), (hsem n).trans (sem_signal_same s n)⟩
  · rw [hsignal]
    exact esNext_updFocus_es (fun _ => rfl) 1
  · rw [hsems, hsignal]
    exact esNext_updFocus_moves (fun _ => rfl) 1

/-- R194: where the ES goes once nothing more is fetched, by what is still in flight. -/
theorem afterExit_congr (e : EsSt) :
    { e with run := if e.infl.isEmpty then EsRun.idle else .draining } = { e with run := if e.infl = [] then EsRun.idle else .draining } := by
  simp only [List.isEmpty_iff]

/-! ## EREP (R86, R164, R192) -/

/-- R164, R192: a repetition is an instruction that is legal under SH. -/
def stepLegal (sh : Word) (w : Word32) (r : RepSt) : Bool :=
  match decodeEs (stepEsWord w r) with
  | .ok j => esLegal sh j
  | .error _ => false

theorem stepLegal_iff {sh : Word} {w : Word32} {r : RepSt} :
    stepLegal sh w r = true ↔ ∃ j, decodeEs (stepEsWord w r) = .ok j ∧ esLegal sh j = true := by
  unfold stepLegal
  cases decodeEs (stepEsWord w r) <;> simp

/-- R86, R192: every repetition of the word is legal. -/
def repLegal (sh : Word) (w : Word32) (o : OpRep) : Bool :=
  (List.range (o.cnt1.toNat + 1)).all fun k => stepLegal sh w { repStart o with k := k }

theorem repLegal_iff {sh : Word} {w : Word32} {o : OpRep} :
    repLegal sh w o = true ↔ ∀ k, k ≤ o.cnt1.toNat → stepLegal sh w ⟨o.cnt1.toNat + 1, k, o.ds, o.sa, o.sb⟩ = true := by
  simp [repLegal, repStart]

/-- EREP begins its repetitions. -/
def State.beginRep (s : State) (o : OpRep) : State := s.updEs fun e => { e with rep := some (repStart o) }

section Erep

variable {s u : State} {o : OpRep}

theorem exec_erep_unfetched (h : s.fetchWord 1 s.cell.esbase s.cell.essize (s.cell.es.pc + 4) = (u, none)) :
    exec (.erep o) s = .next ((u.beginRep o).esFault cEsFetch (s.cell.es.pc + 4)) := by
  change execErep o s = _
  rw [execErep, h]
  rfl

theorem exec_erep_badWord {w : Word32} {e : DecodeError}
    (h : s.fetchWord 1 s.cell.esbase s.cell.essize (s.cell.es.pc + 4) = (u, some w)) (he : decodeEs w = .error e) :
    exec (.erep o) s = .next ((u.beginRep o).esFault cIllegal (w.zeroExtend 64)) := by
  change execErep o s = _
  rw [execErep, h]
  simp only [he]
  rfl

theorem exec_erep_word {w : Word32} {i : Instr}
    (h : s.fetchWord 1 s.cell.esbase s.cell.essize (s.cell.es.pc + 4) = (u, some w)) (hi : decodeEs w = .ok i) :
    exec (.erep o) s = .next (if stepsOk o (vFields i) && repLegal u.cell.es.sh w o then u.beginRep o
      else (u.beginRep o).esFault cIllegal (wordOf (.erep o))) := by
  change execErep o s = _
  rw [execErep, h]
  simp only [hi]
  rfl

end Erep

end Sys2Proof.Machine

namespace Sys2Proof.Proofs

open Sys2Proof.Machine Sys2Proof.Claims

/-- R190: EBR with a clean mask and a target in the section. -/
theorem ebr_result {s : State} {o : OpEbr} (hm : o.cond = .always ∨ (s.ev o.m).mask.psn = false)
    (ht : inSection s.cell.esbase s.cell.essize (s.esTarget o.disp) = true) : ∃ t, exec (.ebr o) s = .next t ∧ OnlyEs s t
      ∧ t.cell.es = if econd (s.ev o.m) o.cond then ({ s.cell.es with pc := s.esTarget o.disp, rep := none }).endTick
          else s.cell.es.advance.endTick := by
  refine ⟨_, exec_ebr_target hm ht, ?_⟩
  cases econd (s.ev o.m) o.cond with
  | true => exact ⟨esJump_onlyEs s _, esJump_es s _⟩
  | false => exact ⟨esNext_onlyEs s 1, esNext_es s 1⟩

/-- R191: EBRQ with an outcome that has come. -/
theorem ebrq_result {s : State} {o : OpDisp} {b : BEnt} {r : List BEnt} (hq : s.cell.qs.bqa = b :: r) (hb : b.from_ ≤ s.pkg.time.clk)
    (ht : inSection s.cell.esbase s.cell.essize (s.esTarget o.disp) = true) : ∃ t, exec (.ebrq o) s = .next t
      ∧ EsMoves s t (fun c => { c with qs := { s.cell.qs with bqa := r } })
      ∧ t.cell.es = if b.v then ({ s.cell.es with pc := s.esTarget o.disp, rep := none }).endTick else s.cell.es.advance.endTick := by
  have hexec := exec_ebrq_target ht
  rw [hq] at hexec
  dsimp only at hexec
  rw [if_pos hb] at hexec
  refine ⟨_, hexec, ?_⟩
  have hpop : (s.updQs fun k => { k with bqa := r }) = s.updFocus fun c => { c with qs := { s.cell.qs with bqa := r } } := rfl
  rw [hpop]
  cases b.v with
  | true => exact ⟨esJump_updFocus_moves (fun _ => rfl) _, esJump_updFocus_es (fun _ => rfl) _⟩
  | false => exact ⟨esNext_updFocus_moves (fun _ => rfl) 1, esNext_updFocus_es (fun _ => rfl) 1⟩

/-- R191: EBRQ with no outcome it may pop waits. -/
theorem ebrq_waits {s : State} {o : OpDisp} (ht : inSection s.cell.esbase s.cell.essize (s.esTarget o.disp) = true)
    (hq : s.cell.qs.bqa = [] ∨ ∃ b r, s.cell.qs.bqa = b :: r ∧ s.pkg.time.clk < b.from_) : exec (.ebrq o) s = .next s := by
  rw [exec_ebrq_target ht]
  obtain hq | ⟨b, r, hq, hb⟩ := hq
  · rw [hq]
  · rw [hq]
    exact congrArg Host.Outcome.next (if_neg (Nat.not_le.mpr hb))

/-- R191: EBQP with room. -/
theorem ebqp_result {s : State} {o : OpEbqp} (hm : o.cond = .always ∨ (s.ev o.m).mask.psn = false)
    (hroom : s.cell.qs.bqe.length < Config.capBq) : ∃ t, exec (.ebqp o) s = .next t ∧ t.cell.es = s.cell.es.advance.endTick
      ∧ EsMoves s t (fun c => { c with
        qs := { s.cell.qs with bqe := s.cell.qs.bqe ++ [(⟨econd (s.ev o.m) o.cond, s.ready⟩ : BEnt)] } }) := by
  refine ⟨_, (exec_ebqp_clean hm).trans (congrArg _ (if_neg (Nat.not_le.mpr hroom))), ?_⟩
  have hpush : (s.updQs fun k => { k with bqe := k.bqe ++ [⟨econd (s.ev o.m) o.cond, s.ready⟩] })
    = s.updFocus fun c => { c with qs := { s.cell.qs with bqe := s.cell.qs.bqe ++ [⟨econd (s.ev o.m) o.cond, s.ready⟩] } } := rfl
  rw [hpush]
  exact ⟨esNext_updFocus_es (fun _ => rfl) 1, esNext_updFocus_moves (fun _ => rfl) 1⟩

/-- R194: EEXIT fetches nothing more. -/
theorem eexit_result (s : State) : let e := s.cell.es.advance.endTick
    ∃ t, exec .eexit s = .next t ∧ OnlyEs s t ∧ t.cell.es = { e with run := if e.infl = [] then .idle else .draining } := by
  refine ⟨_, rfl, onlyEs_updEs (esNext_onlyEs s 1) _, ?_⟩
  change { (s.esNext 1).cell.es with run := if (s.esNext 1).cell.es.infl.isEmpty then EsRun.idle else .draining } = _
  rw [esNext_es]
  exact afterExit_congr _

/-- R86, R164: EREP before a word whose steps or repetitions are not allowed. -/
theorem erep_illegal {s u : State} {o : OpRep} {w : Word32} {i : Instr}
    (h : s.fetchWord 1 s.cell.esbase s.cell.essize (s.cell.es.pc + 4) = (u, some w)) (hi : decodeEs w = .ok i)
    (hbad : stepsOk o (vFields i) = false ∨ ∃ k, k ≤ o.cnt1.toNat ∧
      ∀ j, decodeEs (stepEsWord w ⟨o.cnt1.toNat + 1, k, o.ds, o.sa, o.sb⟩) = .ok j → esLegal u.cell.es.sh j = false) :
    exec (.erep o) s = .next ((u.beginRep o).esFault cIllegal (wordOf (.erep o))) := by
  rw [exec_erep_word h hi, if_neg]
  intro hok
  obtain ⟨hsteps, hlegal⟩ := Bool.and_eq_true_iff.mp hok
  obtain hbad | ⟨k, hk, hbad⟩ := hbad
  · rw [hbad] at hsteps
    cases hsteps
  · obtain ⟨j, hj, hjlegal⟩ := stepLegal_iff.mp (repLegal_iff.mp hlegal k hk)
    rw [hbad j hj] at hjlegal
    cases hjlegal

/-- Settles O41: each instruction's checks and waits, then the ES issues or jumps. -/
theorem esControlResult : Obligations.EsControlResult := by
  unfold Obligations.EsControlResult
  refine ⟨?epbr, ?ebr, ?ebrq, ?ebrFaults, ?ebrqWaits, ?ebqpWaits, ?ebqp, ?esemw, ?esemwErr, ?esemw63, ?esemwWaits, ?esems, ?eexit, ?drain,
    ?erep, ?erepFaults⟩
  case epbr => exact fun s o => esPasses_of_exec rfl
  case ebr => exact fun s o hm ht => ebr_result hm ht
  case ebrq => exact fun s o b r hq hb ht => ebrq_result hq hb ht
  case ebrFaults => exact fun s o => ⟨exec_ebr_tagged, exec_ebr_outlying⟩
  case ebrqWaits => exact fun s o => ⟨exec_ebrq_outlying, ebrq_waits⟩
  case ebqpWaits =>
    exact fun s o => ⟨fun hc hm => congrArg Host.Outcome.next (if_pos (maskTest_true hc hm)),
      fun hm hfull => (exec_ebqp_clean hm).trans (congrArg _ (if_pos hfull))⟩
  case ebqp => exact fun s o hm hroom => ebqp_result hm hroom
  case esemw =>
    exact fun s o n hs hn => ⟨_, (exec_esemw_of_count hs).trans (congrArg _ (if_neg hn)), setSem_esNext_result s _ (toNat_lt_of_sem hs)⟩
  case esemwErr => exact fun s o c hs => exec_esemw_of_err hs
  case esemw63 => exact fun s o hs => esPasses_of_exec (exec_esemw_63 hs)
  case esemwWaits => exact fun s o hs => exec_esemw_of_count hs
  case esems => exact fun s o => ⟨_, rfl, signal_esNext_result s o.s⟩
  case eexit => exact eexit_result
  case drain => exact fun e => afterExit_congr e.endTick
  case erep =>
    intro s u o w i h hi hsteps hlegal
    have hok : repLegal u.cell.es.sh w o = true := repLegal_iff.mpr fun k hk => stepLegal_iff.mpr (hlegal k hk)
    rw [exec_erep_word h hi, hsteps, hok]
    rfl
  case erepFaults =>
    refine fun s u o w h => ⟨?_, ?_, ?_⟩
    · rintro rfl
      exact exec_erep_unfetched h
    · rintro x e rfl he
      exact exec_erep_badWord h he
    · rintro x i rfl hi hbad
      exact erep_illegal h hi hbad

end Sys2Proof.Proofs
end

section
/-! SUPPORT. AS arithmetic (R102 to R108): the values of the model's operations by the tables of chapter 04; O15 to O19. -/

namespace Sys2Proof.Machine

open Sys2Proof.Claims

/-! ## The shared forms (R100, R102, R104, R107) -/

/-- R79, R100: under a true guard an instruction whose meaning is one register write makes that write. -/
theorem writes_of_guardOn {i : Instr} {s : State} {g : Guard} {f : State → State} {lat : Nat} {d : Dest} {v : Word} {psn : Bool}
    (h : exec i s = .next (s.guarded g f)) (hg : GuardOn s g) (hf : f s = s.writeReg lat d v psn) : Writes i s lat d v psn :=
  writes_of_exec (exec_of_guardOn h hg hf)

section
variable {i : Instr} {s : State} {v : Word}

theorem writes_of_alu {o : OpA} {lat : Nat} {f : Word → Word → Word} (h : exec i s = .next (s.alu o lat f)) (hg : GuardOn s o.pg)
    (hv : f (s.rg o.a).v (s.rg o.b).v = v) : Writes i s lat (.g o.d) v ((s.rg o.a).psn || (s.rg o.b).psn) :=
  writes_of_guardOn h hg (by rw [hv])

theorem writes_of_unary {g : Guard} {d a : GReg} {f : Word → Word} (h : exec i s = .next (s.unary g d a f)) (hg : GuardOn s g)
    (hv : f (s.rg a).v = v) : Writes i s 1 (.g d) v (s.rg a).psn :=
  writes_of_guardOn h hg (by rw [hv])

theorem writes_of_ldih {o : OpLdih} {n : Nat} (h : exec i s = .next (s.ldih o n)) (hg : GuardOn s o.pg)
    (hv : ((s.rg o.d).v &&& ~~~ ((0xFFFF : Word) <<< (16 * n))) ||| (o.imm.zeroExtend 64 <<< (16 * n)) = v) :
    Writes i s 1 (.g o.d) v (s.rg o.d).psn :=
  writes_of_guardOn h hg (congrArg (s.writeReg 1 (.g o.d) · (s.rg o.d).psn) hv)

end

/-! ## Minimum and maximum (R102) -/

theorem ite_slt {α : Type} (x y : Word) (a b : α) : (if x.slt y then a else b) = if x.toInt < y.toInt then a else b :=
  if_congr BitVec.slt_iff_toInt_lt rfl rfl

theorem ite_ult {α : Type} (x y : Word) (a b : α) : (if x.ult y then a else b) = if x.toNat < y.toNat then a else b :=
  if_congr BitVec.ult_iff_toNat_lt rfl rfl

/-! ## Products (R102) -/

theorem mul_eq_ofInt (x y : Word) : x * y = BitVec.ofInt 64 (x.toInt * y.toInt) := by
  rw [BitVec.ofInt_mul, BitVec.ofInt_toInt, BitVec.ofInt_toInt]

/-- The high half of a 128-bit integer. -/
theorem highHalf_ofInt (z : Int) : (BitVec.ofInt 128 z).extractLsb' 64 64 = BitVec.ofInt 64 (z / 2 ^ 64) := by
  refine BitVec.eq_of_toNat_eq ?_
  rw [BitVec.extractLsb'_toNat, BitVec.toNat_ofInt, BitVec.toNat_ofInt, Nat.shiftRight_eq_div_pow]
  omega

/-- R102: both operands of MULH are taken as integers of twice the width. -/
theorem mulh_eq (x y : Word) : (x.signExtend 128 * y.signExtend 128).extractLsb' 64 64 = BitVec.ofInt 64 (x.toInt * y.toInt / 2 ^ 64) := by
  rw [← highHalf_ofInt, BitVec.ofInt_mul]
  rfl

theorem mulhn_eq (x y : Word) : (x.zeroExtend 128 * y.zeroExtend 128).extractLsb' 64 64 = BitVec.ofNat 64 (x.toNat * y.toNat / 2 ^ 64) := by
  have hprod : x.toNat * y.toNat < 2 ^ 128 := by
    rw [show 2 ^ 128 = 2 ^ 64 * 2 ^ 64 from rfl]
    exact Nat.mul_lt_mul'' x.isLt y.isLt
  refine BitVec.eq_of_toNat_eq ?_
  rw [BitVec.extractLsb'_toNat, BitVec.toNat_mul, BitVec.zeroExtend_eq_setWidth, BitVec.zeroExtend_eq_setWidth,
    BitVec.toNat_setWidth_of_le (by decide), BitVec.toNat_setWidth_of_le (by decide), Nat.mod_eq_of_lt hprod,
    Nat.shiftRight_eq_div_pow, BitVec.toNat_ofNat]

/-! ## Quotients and remainders (R102) -/

theorem sdiv_eq_ofInt (x y : Word) : x.sdiv y = BitVec.ofInt 64 (x.toInt.tdiv y.toInt) := by
  refine BitVec.eq_of_toInt_eq ?_
  rw [BitVec.toInt_sdiv, BitVec.toInt_ofInt]

theorem udiv_eq_ofNat (x y : Word) : x / y = BitVec.ofNat 64 (x.toNat / y.toNat) := by
  rw [← BitVec.toNat_udiv, BitVec.ofNat_toNat, BitVec.setWidth_eq]

theorem srem_eq_ofInt (x y : Word) : x.srem y = BitVec.ofInt 64 (x.toInt - y.toInt * x.toInt.tdiv y.toInt) := by
  rw [← Int.tmod_def, ← BitVec.toInt_srem, BitVec.ofInt_toInt]

theorem umod_eq_ofNat (x y : Word) : x % y = BitVec.ofNat 64 (x.toNat - y.toNat * (x.toNat / y.toNat)) := by
  have hmod : x.toNat - y.toNat * (x.toNat / y.toNat) = x.toNat % y.toNat := by
    have := Nat.div_add_mod x.toNat y.toNat
    omega
  rw [hmod, ← BitVec.toNat_umod, BitVec.ofNat_toNat, BitVec.setWidth_eq]

/-! ## Counts (R102) -/

/-- The number of leading indices at which a test holds. -/
theorem length_takeWhile_range {p : Nat → Bool} {m n : Nat} (hn : n ≤ m) (hp : ∀ i, i < n → p i = true) (hstop : n < m → p n = false) :
    ((List.range m).takeWhile p).length = n := by
  have hsplit : List.range m = List.range n ++ (List.range (m - n)).map (n + ·) := by
    rw [← List.range_add, Nat.add_sub_cancel' hn]
  rw [hsplit, List.takeWhile_append_of_pos fun i hi => hp i (List.mem_range.mp hi)]
  have hrest : ((List.range (m - n)).map (n + ·)).takeWhile p = [] := by
    obtain hz | hlt := Nat.eq_zero_or_pos (m - n)
    · rw [hz]
      rfl
    · rw [← Nat.sub_add_cancel hlt, List.range_succ_eq_map, List.map_cons, List.takeWhile_cons_of_neg]
      simpa using hstop (by omega)
  rw [hrest, List.append_nil, List.length_range]

theorem leadingZeros_eq {x : Word} {n : Nat} (hn : n ≤ 64) (hz : ∀ i, i < n → x.getMsbD i = false) (hone : n < 64 → x.getMsbD n = true) :
    leadingZeros x = n :=
  length_takeWhile_range hn (fun i hi => by rw [hz i hi]; rfl) fun h => by rw [hone h]; rfl

/-! ## Bit fields (R104, R105) -/

theorem getLsbD_onesMask {len i : Nat} (hi : i < 64) : (onesMask len).getLsbD i = decide (i < len) := by
  rw [onesMask, BitVec.getLsbD_ofNat, Nat.testBit_two_pow_sub_one, decide_eq_true hi, Bool.true_and]

/-- Bit `i` of a word with a field of another put at a place. -/
theorem getLsbD_insert (x y : Word) (len pos : Nat) {i : Nat} (hi : i < 64) :
    ((x &&& ~~~ (onesMask len <<< pos)) ||| ((y &&& onesMask len) <<< pos)).getLsbD i
      = if pos ≤ i ∧ i < pos + len then y.getLsbD (i - pos) else x.getLsbD i := by
  rw [BitVec.getLsbD_or, BitVec.getLsbD_and, BitVec.getLsbD_not, BitVec.getLsbD_shiftLeft, BitVec.getLsbD_shiftLeft,
    BitVec.getLsbD_and, getLsbD_onesMask (by omega)]
  by_cases hlo : i < pos
  · simp [hi, hlo, Nat.not_le.mpr hlo]
  · by_cases hhi : i - pos < len
    · simp [hi, hlo, hhi, Nat.not_lt.mp hlo, show i < pos + len by omega]
    · simp [hi, hlo, hhi, show ¬ i < pos + len by omega]

/-- R104: the 16 bits an LDIH writes, as a field put at its place. -/
theorem ldih_eq_insert (x : Word) (imm : BitVec 16) (n : Nat) :
    (x &&& ~~~ ((0xFFFF : Word) <<< n)) ||| (imm.zeroExtend 64 <<< n)
      = (x &&& ~~~ (onesMask 16 <<< n)) ||| ((imm.zeroExtend 64 &&& onesMask 16) <<< n) := by
  have himm : imm.zeroExtend 64 &&& onesMask 16 = imm.zeroExtend 64 := by
    refine BitVec.eq_of_getLsbD_eq fun i hi => ?_
    rw [BitVec.getLsbD_and, getLsbD_onesMask hi, BitVec.zeroExtend_eq_setWidth, BitVec.getLsbD_setWidth]
    by_cases h : i < 16
    · simp [h]
    · simp [h, BitVec.getLsbD_of_ge imm i (Nat.not_lt.mp h)]
  rw [himm]
  rfl

/-- R104: the word an LDIH writes, its three parts one above the other. -/
theorem getLsbD_ldih (x : Word) (imm : BitVec 16) {n i : Nat} (hi : i < 64) :
    ((x &&& ~~~ ((0xFFFF : Word) <<< n)) ||| (imm.zeroExtend 64 <<< n)).getLsbD i
      = if n ≤ i ∧ i < n + 16 then imm.getLsbD (i - n) else x.getLsbD i := by
  rw [ldih_eq_insert, getLsbD_insert x _ 16 n hi]
  refine if_ctx_congr Iff.rfl (fun h => ?_) fun _ => rfl
  rw [BitVec.zeroExtend_eq_setWidth, BitVec.getLsbD_setWidth, decide_eq_true (by omega), Bool.true_and]

theorem ldih1_eq (x : Word) (imm : BitVec 16) : (x &&& ~~~ ((0xFFFF : Word) <<< (16 * 1))) ||| (imm.zeroExtend 64 <<< (16 * 1))
    = x.extractLsb' 32 32 ++ imm ++ x.extractLsb' 0 16 := by
  refine BitVec.eq_of_getLsbD_eq fun i hi => ?_
  rw [getLsbD_ldih x imm hi]
  simp only [BitVec.getLsbD_append, BitVec.getLsbD_extractLsb']
  grind

theorem ldih2_eq (x : Word) (imm : BitVec 16) : (x &&& ~~~ ((0xFFFF : Word) <<< (16 * 2))) ||| (imm.zeroExtend 64 <<< (16 * 2))
    = x.extractLsb' 48 16 ++ imm ++ x.extractLsb' 0 32 := by
  refine BitVec.eq_of_getLsbD_eq fun i hi => ?_
  rw [getLsbD_ldih x imm hi]
  simp only [BitVec.getLsbD_append, BitVec.getLsbD_extractLsb']
  grind

theorem ldih3_eq (x : Word) (imm : BitVec 16) : (x &&& ~~~ ((0xFFFF : Word) <<< (16 * 3))) ||| (imm.zeroExtend 64 <<< (16 * 3))
    = imm ++ x.extractLsb' 0 48 := by
  refine BitVec.eq_of_getLsbD_eq fun i hi => ?_
  rw [getLsbD_ldih x imm hi]
  simp only [BitVec.getLsbD_append, BitVec.getLsbD_extractLsb']
  grind

theorem bext_eq (x : Word) {pos len : Nat} (hlen : len ≤ 64) :
    (x >>> pos) &&& onesMask len = BitVec.ofNat 64 (x.toNat / 2 ^ pos % 2 ^ len) := by
  have hpow : 2 ^ len ≤ 2 ^ 64 := Nat.pow_le_pow_right (by decide) hlen
  have hmask : (onesMask len).toNat = 2 ^ len - 1 := Nat.mod_eq_of_lt (by have := Nat.two_pow_pos len; omega)
  refine BitVec.eq_of_toNat_eq ?_
  rw [BitVec.toNat_and, hmask, Nat.and_two_pow_sub_one_eq_mod, BitVec.toNat_ushiftRight, Nat.shiftRight_eq_div_pow, BitVec.toNat_ofNat,
    Nat.mod_eq_of_lt (Nat.lt_of_lt_of_le (Nat.mod_lt _ (Nat.two_pow_pos len)) hpow)]

/-! ## Segment addresses (R108) -/

theorem adr2_offset (x y : Word) (k : Nat) :
    x.extractLsb' 0 58 + (y <<< k).extractLsb' 0 58 = BitVec.ofNat 58 ((x.extractLsb' 0 58).toNat + y.toNat * 2 ^ k) := by
  refine BitVec.eq_of_toNat_eq ?_
  rw [BitVec.toNat_add, BitVec.toNat_ofNat, BitVec.extractLsb'_toNat _ _ (y <<< k), BitVec.toNat_shiftLeft, Nat.shiftLeft_eq,
    Nat.shiftRight_zero]
  generalize y.toNat * 2 ^ k = n
  omega

/-! ## Compares (R106) -/

/-- R106: the compare of a condition code, signed and unsigned. -/
theorem condHolds_eq (c : Cond) (x y : Word) : condHolds c x y = match c with
    | .eq => decide (x = y) | .ne => decide (x ≠ y) | .lt => decide (x.toInt < y.toInt) | .ge => decide (y.toInt ≤ x.toInt)
    | .ltn => decide (x.toNat < y.toNat) | .gen => decide (y.toNat ≤ x.toNat) := by
  cases c
  case eq | ne | ltn | lt => rfl
  case ge => rw [condHolds, BitVec.slt_eq_decide, ← decide_not, decide_eq_decide, Int.not_lt]
  case gen => rw [condHolds, BitVec.ult_eq_decide, ← decide_not, decide_eq_decide, Nat.not_lt]

theorem cond_ofCode_high {c : BitVec 3} (h : 6 ≤ c.toNat) : Cond.ofCode c = none := by
  have hc : c.toNat = 6 ∨ c.toNat = 7 := by omega
  unfold Cond.ofCode
  obtain hc | hc := hc <;> rw [hc] <;> rfl

/-! ## Words that are no instruction (R92) -/

theorem req_of_not {c : Bool} (h : c = false) (e : DecodeError) (k : Except DecodeError Instr) : ∃ e', req c e k = .error e' := by
  rw [h]
  exact ⟨e, rfl⟩

theorem req_of_refused {c : Bool} {e : DecodeError} {k : Except DecodeError Instr} (h : ∃ e', k = .error e') : ∃ e', req c e k = .error e' := by
  cases c
  · exact ⟨e, rfl⟩
  · exact h

theorem reqSome_of_none {α : Type} {x : Option α} {k : α → Except DecodeError Instr} (h : x = none) : ∃ e, reqSome x k = .error e := by
  rw [h]
  exact ⟨_, rfl⟩

end Sys2Proof.Machine

namespace Sys2Proof.Proofs

open Sys2Proof.Machine Sys2Proof.Claims

/-- Settles O15: each form is `alu` with its function of the two operands. -/
theorem aluResult : Obligations.AluResult := by
  unfold Obligations.AluResult
  intro s o hg x y k tag
  refine ⟨?add, ?sub, ?and, ?or, ?xor, ?andn, ?shl, ?shr, ?sar, ?min, ?max, ?minn, ?maxn⟩
  case min | max => exact writes_of_alu rfl hg (ite_slt ..)
  case minn | maxn => exact writes_of_alu rfl hg (ite_ult ..)
  all_goals exact writes_of_alu rfl hg rfl

/-- Settles O16: products and quotients through their integers; CLZ and POPC count bits. -/
theorem mulDivResult : Obligations.MulDivResult := by
  unfold Obligations.MulDivResult
  refine ⟨fun s o hg => ?_, fun s o hg => ⟨fun n hn hz hone => ?clz, ?popc⟩, fun s o hg => ?sel⟩
  · refine ⟨?mul, ?mulh, ?mulhn, ?div, ?divn, ?rem, ?remn⟩
    case mul => exact writes_of_alu rfl hg (mul_eq_ofInt ..)
    case mulh => exact writes_of_alu rfl hg (mulh_eq ..)
    case mulhn => exact writes_of_alu rfl hg (mulhn_eq ..)
    case div => exact writes_of_alu rfl hg (by rw [sdiv_eq_ofInt])
    case divn => exact writes_of_alu rfl hg (by rw [udiv_eq_ofNat])
    case rem => exact writes_of_alu rfl hg (by rw [srem_eq_ofInt])
    case remn => exact writes_of_alu rfl hg (by rw [umod_eq_ofNat])
  case clz => exact writes_of_unary rfl hg (congrArg _ (leadingZeros_eq hn hz hone))
  case popc => exact writes_of_unary rfl hg rfl
  case sel => exact writes_of_guardOn rfl hg rfl

/-- Settles O17: the immediate forms are `unary`, LDIH puts a field of 16 bits. -/
theorem immediateResult : Obligations.ImmediateResult := by
  unfold Obligations.ImmediateResult
  refine ⟨fun s o hg => ?imm, fun s o hg => ?shift, fun s o hg => ?ldi, fun s o hg => ?ldih, fun w hlo hhi hk => ?badShift,
    fun w hlo hhi hb => ?badLdih⟩
  case imm => exact ⟨writes_of_unary rfl hg rfl, writes_of_unary rfl hg rfl, writes_of_unary rfl hg rfl, writes_of_unary rfl hg rfl⟩
  case shift => exact ⟨writes_of_unary rfl hg rfl, writes_of_unary rfl hg rfl, writes_of_unary rfl hg rfl⟩
  case ldi => exact writes_of_guardOn rfl hg rfl
  case ldih =>
    exact ⟨writes_of_ldih rfl hg (ldih1_eq ..), writes_of_ldih rfl hg (ldih2_eq ..), writes_of_ldih rfl hg (ldih3_eq ..)⟩
  case badShift =>
    have hmajor : (asMajor w).toNat = 6 ∨ (asMajor w).toNat = 7 ∨ (asMajor w).toNat = 8 := by omega
    obtain h | h | h := hmajor <;> rw [decodeAs, h] <;> exact req_of_not (decide_eq_false hk) _ _
  case badLdih =>
    have hmajor : (asMajor w).toNat = 0xA ∨ (asMajor w).toNat = 0xB ∨ (asMajor w).toNat = 0xC := by omega
    obtain h | h | h := hmajor <;> rw [decodeAs, h] <;> exact req_of_not (by rw [hb]; rfl) _ _

/-- Settles O18: BEXT by the quotient and remainder of powers of two, BINS bit by bit. -/
theorem bitFieldAndAddressResult : Obligations.BitFieldAndAddressResult := by
  unfold Obligations.BitFieldAndAddressResult
  refine ⟨fun s o hg hwf => ?bits, fun s o hg => ?sega, fun s o hg => ?adr2, fun w hmajor hend => ?badBits, fun w h hr => ?badSega,
    fun w h hr => ?badAdr2⟩
  case bits =>
    have hend : o.pos.toNat + (o.len1.toNat + 1) ≤ 64 := of_decide_eq_true hwf
    refine ⟨writes_of_unary rfl hg (bext_eq _ (by omega)), _, fun i hi => ?_, writes_of_guardOn rfl hg rfl⟩
    exact getLsbD_insert _ _ _ _ hi
  case sega => exact writes_of_unary rfl hg rfl
  case adr2 => exact writes_of_guardOn rfl hg (by dsimp only; rw [adr2_offset])
  case badBits =>
    have hbad : decide ((w.extractLsb' 0 6).toNat + (w.extractLsb' 6 6).toNat + 1 ≤ 64) = false := decide_eq_false (by omega)
    obtain h | h := hmajor <;> rw [decodeAs, h] <;> exact req_of_not hbad _ _
  case badSega =>
    rw [decodeAs, h]
    exact req_of_not (decide_eq_false hr) _ _
  case badAdr2 =>
    rw [decodeAs, h]
    exact req_of_not (decide_eq_false hr) _ _

/-- Settles O19: compares by `condHolds`, and the codes `Cond.ofCode` refuses. -/
theorem predicateResult : Obligations.PredicateResult := by
  unfold Obligations.PredicateResult
  refine ⟨fun s o hg => ?cmp, fun s o hg => ?cmpi, fun s o hg => ?logic, fun w h hc => ?badCmp, fun w h hc => ?badCmpi,
    fun c n => rp_zero _⟩
  case cmp => exact writes_of_guardOn rfl hg (congrArg (fun h => s.writeReg 1 (.p o.d) ((BitVec.ofBool h).zeroExtend 64) _) (condHolds_eq ..))
  case cmpi => exact writes_of_guardOn rfl hg (congrArg (fun h => s.writeReg 1 (.p o.d) ((BitVec.ofBool h).zeroExtend 64) _) (condHolds_eq ..))
  case logic => exact ⟨writes_of_guardOn rfl hg rfl, writes_of_guardOn rfl hg rfl, writes_of_guardOn rfl hg rfl⟩
  case badCmp =>
    rw [decodeAs, h]
    exact req_of_refused (req_of_refused (reqSome_of_none (cond_ofCode_high hc)))
  case badCmpi =>
    rw [decodeAs, h]
    exact req_of_refused (reqSome_of_none (cond_ofCode_high hc))

end Sys2Proof.Proofs
end

section
/-! SUPPORT. Memory operands (R109, R110, R166): the checks in the order of the table, and what an instruction does by what they answer;
O20 to O23. -/

namespace Sys2Proof.Machine

open Sys2Proof.Claims

/-! ## The checks of an operand (R109, R110) -/

/-- R110 check 5: the segment's kind is one the instruction accepts; the H-die has linear segments only. -/
def KindOk (c : Cell) (n : Need) (e : SegEnt) : Prop := e.kind ∈ n.kinds ∧ (c.id.die = 6 → e.kind = 0)

/-- R28, R110 check 6: `len` bytes lie inside the segment, and inside the scratchpad. -/
def Inside (c : Cell) (e : SegEnt) (off len : Nat) : Prop := off + len ≤ e.size ∧ (e.loc = 0 → e.base + off + len ≤ Config.spBytes c.id.die)

/-- R110 check 7: the segment permits what the instruction does. -/
def MayDo (n : Need) (e : SegEnt) : Prop := (n.r = true → e.permR = true) ∧ (n.w = true → e.permW = true)

/-- R281, R299 checks 10 and 11: the leaf permits it too, and is not for engines alone. -/
def LeafOk (n : Need) (y : Xl) : Prop := y.eo = false ∧ (n.r = true → y.r = true) ∧ (n.w = true → y.w = true)

section
variable {c : Cell} {n : Need} {seg off len : Nat}

theorem segCheck_of_none (h : segAt c.segs seg = none) : segCheck c n seg off len = .error cSegment := by
  rw [segCheck, h]

theorem kindTest_iff {e : SegEnt} : (!n.kinds.contains e.kind || (c.id.die = 6 && e.kind ≠ kLinear)) = true ↔ ¬ KindOk c n e := by
  by_cases hk : e.kind ∈ n.kinds <;> by_cases hd : c.id.die = 6 <;> by_cases h0 : e.kind = 0 <;>
    simp [KindOk, kLinear, hk, hd, h0]

theorem insideTest_iff {e : SegEnt} : (!inRange c.id.die e off len) = true ↔ ¬ Inside c e off len := by
  simp [Inside, inRange, imp_iff_not_or]

theorem permTest_iff {r w pr pw : Bool} : (r && !pr || w && !pw) = true ↔ ¬ ((r = true → pr = true) ∧ (w = true → pw = true)) := by
  revert r w pr pw
  decide

variable {e : SegEnt} (he : segAt c.segs seg = some e)
include he

theorem segCheck_of_badKind (hk : ¬ KindOk c n e) : segCheck c n seg off len = .error cAccess := by
  simp only [segCheck, he]
  rw [if_pos (kindTest_iff.mpr hk)]

theorem segCheck_of_outside (hk : KindOk c n e) (hi : ¬ Inside c e off len) : segCheck c n seg off len = .error cBounds := by
  simp only [segCheck, he]
  rw [if_neg (mt kindTest_iff.mp (not_not.mpr hk)), if_pos (insideTest_iff.mpr hi)]

theorem segCheck_of_forbidden (hk : KindOk c n e) (hi : Inside c e off len) (hm : ¬ MayDo n e) :
    segCheck c n seg off len = .error cPermission := by
  simp only [segCheck, he]
  rw [if_neg (mt kindTest_iff.mp (not_not.mpr hk)), if_neg (mt insideTest_iff.mp (not_not.mpr hi)), if_pos (permTest_iff.mpr hm)]

theorem segCheck_ok (hk : KindOk c n e) (hi : Inside c e off len) (hm : MayDo n e) : segCheck c n seg off len = .ok e := by
  simp only [segCheck, he]
  rw [if_neg (mt kindTest_iff.mp (not_not.mpr hk)), if_neg (mt insideTest_iff.mp (not_not.mpr hi)),
    if_neg (mt permTest_iff.mp (not_not.mpr hm))]

end

section
variable {s t : State} {n : Need} {base : Word} {off8 : BitVec 8}

theorem asAccess_outlying (h : offOf base off8 < 0 ∨ 2 ^ 58 ≤ offOf base off8) : s.asAccess n base off8 = (s, .error cBounds) := by
  simp only [State.asAccess]
  rw [if_pos (by simpa using h)]

variable (hlo : 0 ≤ offOf base off8) (hhi : offOf base off8 < 2 ^ 58)
include hlo hhi

theorem asAccess_unaligned (ha : offOf base off8 % 8 ≠ 0) : s.asAccess n base off8 = (s, .error cAlign) := by
  simp only [State.asAccess]
  rw [if_neg (by simp; omega), if_pos ha]

variable (ha : offOf base off8 % 8 = 0)
include ha

theorem asAccess_of_segError {c : Nat} (h : segCheck s.cell n (segNo base) (offOf base off8).toNat 8 = .error c) :
    s.asAccess n base off8 = (s, .error c) := by
  simp only [State.asAccess]
  rw [if_neg (by simp; omega), if_neg (not_not.mpr ha), h]

theorem asAccess_of_segOk {e : SegEnt} (h : segCheck s.cell n (segNo base) (offOf base off8).toNat 8 = .ok e) :
    s.asAccess n base off8 = s.xlCheck n (segNo base) (offOf base off8).toNat e := by
  simp only [State.asAccess]
  rw [if_neg (by simp; omega), if_neg (not_not.mpr ha), h]

end

section
variable {s t : State} {n : Need} {seg off : Nat} {e : SegEnt} {y : Xl}

theorem xlCheck_of_notPresent (h : s.xlate { s.cx 0 .as with rd := n.r } seg e off n.w = (t, .error .notPresent)) :
    s.xlCheck n seg off e = (t, .error cNotPresent) := by
  rw [State.xlCheck, h]

theorem xlCheck_of_mapping (h : s.xlate { s.cx 0 .as with rd := n.r } seg e off n.w = (t, .error .mapping)) :
    s.xlCheck n seg off e = (t, .error cMapping) := by
  rw [State.xlCheck, h]

theorem leafTest_iff : (y.eo || n.r && !y.r || n.w && !y.w) = true ↔ ¬ LeafOk n y := by
  rw [LeafOk, Bool.or_assoc, Bool.or_eq_true, permTest_iff]
  cases y.eo <;> simp

variable (h : s.xlate { s.cx 0 .as with rd := n.r } seg e off n.w = (t, .ok y))
include h

theorem xlCheck_of_badLeaf (hl : ¬ LeafOk n y) : s.xlCheck n seg off e = (t, .error cPermission) := by
  simp only [State.xlCheck, h]
  rw [if_pos (leafTest_iff.mpr hl)]

theorem xlCheck_of_compressed (hl : LeafOk n y) (hc : y.cmp = true) : s.xlCheck n seg off e = (t, .error cCompressed) := by
  simp only [State.xlCheck, h]
  rw [if_neg (mt leafTest_iff.mp (not_not.mpr hl)), if_pos hc]

theorem xlCheck_ok (hl : LeafOk n y) (hc : y.cmp = false) : s.xlCheck n seg off e = (t, .ok y.place) := by
  simp only [State.xlCheck, h]
  rw [if_neg (mt leafTest_iff.mp (not_not.mpr hl)), if_neg (by simp [hc])]

end

/-! ## The addresses the ES pops (R166) -/

section
variable {s : State} {n : Need} {base : Word} {fn : BitVec 8} {len : Nat}

theorem esAccess_outlying (h : 2 ^ 58 ≤ (base.extractLsb' 0 58).toNat + fn.toNat * 256) : s.esAccess n base fn len = .error cBounds := by
  simp only [State.esAccess]
  rw [if_pos h]

variable (hhi : (base.extractLsb' 0 58).toNat + fn.toNat * 256 < 2 ^ 58)
include hhi

theorem esAccess_unaligned (ha : ((base.extractLsb' 0 58).toNat + fn.toNat * 256) % 8 ≠ 0) : s.esAccess n base fn len = .error cAlign := by
  simp only [State.esAccess]
  rw [if_neg (Nat.not_le.mpr hhi), if_pos ha]

variable (ha : ((base.extractLsb' 0 58).toNat + fn.toNat * 256) % 8 = 0)
include ha

theorem esAccess_of_segError {c : Nat}
    (h : segCheck s.cell n (segNo base) ((base.extractLsb' 0 58).toNat + fn.toNat * 256) len = .error c) :
    s.esAccess n base fn len = .error c := by
  simp only [State.esAccess]
  rw [if_neg (Nat.not_le.mpr hhi), if_neg (not_not.mpr ha), h]

theorem esAccess_of_segOk {e : SegEnt}
    (h : segCheck s.cell n (segNo base) ((base.extractLsb' 0 58).toNat + fn.toNat * 256) len = .ok e) :
    s.esAccess n base fn len = .ok (spadPlace s.cell.id (e.base + ((base.extractLsb' 0 58).toNat + fn.toNat * 256))) := by
  simp only [State.esAccess]
  rw [if_neg (Nat.not_le.mpr hhi), if_neg (not_not.mpr ha), h]

end

/-- R109, R110: the checks of the AS's operands and of the addresses the ES pops. -/
theorem accessChecks : AccessChecks := by
  refine ⟨fun s n base off8 => ?as, fun s n base fn len => ?es, rfl, rfl, rfl, rfl, rfl, rfl⟩
  case as =>
    refine ⟨asAccess_outlying, fun hlo hhi => ⟨asAccess_unaligned hlo hhi, fun ha => ⟨?_, fun e he => ?_⟩⟩⟩
    · exact fun hnone => asAccess_of_segError hlo hhi ha (segCheck_of_none hnone)
    · refine ⟨fun hk => ?_, fun hk hi => ?_, fun hk hi hm => ?_, fun hk hi hm => ?_⟩
      · exact asAccess_of_segError hlo hhi ha (segCheck_of_badKind he hk)
      · exact asAccess_of_segError hlo hhi ha (segCheck_of_outside he hk hi)
      · exact asAccess_of_segError hlo hhi ha (segCheck_of_forbidden he hk hi hm)
      · rw [asAccess_of_segOk hlo hhi ha (segCheck_ok he hk hi hm)]
        refine ⟨fun hx => xlCheck_of_notPresent (Prod.ext rfl hx), fun hx => xlCheck_of_mapping (Prod.ext rfl hx), fun y hy => ?_⟩
        have hx : s.xlate { s.cx 0 .as with rd := n.r } (segNo base) e (offOf base off8).toNat n.w = (_, .ok y) := Prod.ext rfl hy
        exact ⟨xlCheck_of_badLeaf hx, xlCheck_of_compressed hx, xlCheck_ok hx⟩
  case es =>
    refine ⟨esAccess_outlying, fun hhi => ⟨esAccess_unaligned hhi, fun ha => ⟨?_, fun e he => ?_⟩⟩⟩
    · exact fun hnone => esAccess_of_segError hhi ha (segCheck_of_none hnone)
    · refine ⟨fun hk => ?_, fun hk hi => ?_, fun hk hi hm => ?_, fun hk hi hm => ?_⟩
      · exact esAccess_of_segError hhi ha (segCheck_of_badKind he hk)
      · exact esAccess_of_segError hhi ha (segCheck_of_outside he hk hi)
      · exact esAccess_of_segError hhi ha (segCheck_of_forbidden he hk hi hm)
      · exact esAccess_of_segOk hhi ha (segCheck_ok he hk hi hm)

/-! ## What an instruction does by its checks (R111, R113, R116, R123) -/

section
variable {s u : State} {n : Need} {a : Word} {o : BitVec 8}

theorem spadAccess_ok {cls : Cls} {p : Place} (h : s.asAccess n a o = (u, .ok p)) (hf : s.cell.classFree cls = true)
    (go : State → Place → State) : s.spadAccess n a o cls go = go u p := by
  rw [State.spadAccess, h]
  exact if_pos hf

theorem spadAccess_fails {cls : Cls} {c : Nat} (h : s.asAccess n a o = (u, .error c)) (go : State → Place → State) :
    s.spadAccess n a o cls go = u.trap c (eaOf a o) := by
  rw [State.spadAccess, h]

/-- R117: checks that finish late leave the operation without its place. -/
theorem checkOrDelay_late (hl : s.lateNow = true) (hlo : 0 ≤ offOf a o) (hhi : offOf a o < 2 ^ 58) (go : State → Option Place → State) :
    s.checkOrDelay n a o go = go s none := by
  rw [State.checkOrDelay, hl, Bool.true_or, if_pos rfl]
  exact if_neg (by simp; omega)

theorem queuedLoad_full {q : LQueue} (h : s.qFull q = true) (cls : Cls) (acq : Option (BitVec 16)) : s.queuedLoad q a o cls acq = s :=
  if_pos h

theorem queuedLoad_room {q : LQueue} (h : s.qFull q = false) (cls : Cls) (acq : Option (BitVec 16)) : s.queuedLoad q a o cls acq =
    s.checkOrDelay needLinR a o fun s p => ((s.addOp (loadKind q) cls .cell (eaOf a o) p acq none).reserve q s.cell.mseq).retire :=
  (if_neg (by simp [h])).trans (by cases q <;> rfl)

theorem atomic_room (h : s.qFull .lq = false) (k : MKind) (scope : Scope) (cls : Cls) : s.atomic k a scope cls =
    s.checkOrDelay needLinRW a 0 fun s p => ((s.addOp k cls scope (eaOf a 0) p none none).reserve .lq s.cell.mseq).retire :=
  if_neg (by simp [h])

end

/-- R114: the tagged entry that LDX pushes in place of a trap. -/
def State.pushFailed (s : State) (q : LQueue) (ea : Word) : State :=
  s.updQs fun k => k.setLqOf q (k.lqOf q ++ [⟨ea, true, true, s.pkg.time.clk, s.cell.mseq⟩])

section
variable {s u : State} {o : OpMemQ} (hg : GuardOn s o.pg) (hc : Checked s)
include hg hc

theorem exec_ldx : exec (.ldx o) s = .next (if s.qFull o.q then s
    else if (s.rg o.base).psn then (s.pushFailed o.q (eaOf (s.rg o.base).v o.off)).retire
    else match s.asAccess needLinR (s.rg o.base).v o.off with
      | (u, .error _) => (u.pushFailed o.q (eaOf (s.rg o.base).v o.off)).retire
      | (u, .ok p) => ((u.addOp (loadKind o.q) o.cls .cell (eaOf (s.rg o.base).v o.off) (some p) none none).reserve o.q u.cell.mseq).retire) :=
  exec_of_guardOn rfl hg ((afterChecks_on hc _).trans (by cases o.q <;> rfl))

theorem exec_ldx_full (hq : s.qFull o.q = true) : exec (.ldx o) s = .next s := by
  rw [exec_ldx hg hc, if_pos hq]

variable (hq : s.qFull o.q = false)
include hq

theorem exec_ldx_tagged (ha : (s.rg o.base).psn = true) :
    exec (.ldx o) s = .next (s.pushFailed o.q (eaOf (s.rg o.base).v o.off)).retire := by
  rw [exec_ldx hg hc, if_neg (by simp [hq]), if_pos ha]

theorem exec_ldx_fails {c : Nat} (ha : Clean s o.base) (h : s.asAccess needLinR (s.rg o.base).v o.off = (u, .error c)) :
    exec (.ldx o) s = .next (u.pushFailed o.q (eaOf (s.rg o.base).v o.off)).retire := by
  rw [exec_ldx hg hc, if_neg (by simp [hq]), if_neg (by simp [show (s.rg o.base).psn = false from ha]), h]

theorem exec_ldx_ok {p : Place} (ha : Clean s o.base) (h : s.asAccess needLinR (s.rg o.base).v o.off = (u, .ok p)) :
    exec (.ldx o) s = .next
      ((u.addOp (loadKind o.q) o.cls .cell (eaOf (s.rg o.base).v o.off) (some p) none none).reserve o.q u.cell.mseq).retire := by
  rw [exec_ldx hg hc, if_neg (by simp [hq]), if_neg (by simp [show (s.rg o.base).psn = false from ha]), h]

end

section
variable {s u : State} {o : OpStq} (hg : GuardOn s o.pg) (ha : Clean s o.base) (hc : Checked s)
include hg ha hc

theorem exec_stq_fails {c : Nat} (h : s.asAccess needLinW (s.rg o.base).v o.off = (u, .error c)) :
    exec (.stq o) s = .next (u.trap c (eaOf (s.rg o.base).v o.off)) :=
  exec_of_guardOn rfl hg ((clean_on ha _).trans ((afterChecks_on hc _).trans (by rw [h])))

theorem exec_stq_ok {p : Place} {e : QEnt} {r : List QEnt} (h : s.asAccess needLinW (s.rg o.base).v o.off = (u, .ok p))
    (hy : popHead s.pkg.time.clk (s.cell.qs.yq o.y) = some (e, r)) :
    exec (.stq o) s = .next (((u.updQs fun k => k.setYq o.y r).addOp (.store e.v e.psn) o.cls .cell
      (eaOf (s.rg o.base).v o.off) (some p) none none).retire) :=
  exec_of_guardOn rfl hg ((clean_on ha _).trans ((afterChecks_on hc _).trans (by simp only [h, hy])))

end

theorem exec_waita_fails {s u : State} {o : OpWaita} {c : Nat} (hg : GuardOn s o.pg) (ha : Clean s o.a) (hb : Clean s o.b)
    (hd : Clean s o.d) (hc : Checked s) (h : (s.reachWait o).asAccess needWait (s.rg o.a).v 0 = (u, .error c)) :
    exec (.waita o) s = .next (u.trap c (eaOf (s.rg o.a).v 0)) :=
  exec_of_guardOn rfl hg ((clean_on ha _).trans ((clean_on hb _).trans ((clean_on hd _).trans
    ((afterChecks_on (s := s.reachWait o) hc _).trans (by rw [h])))))

/-! ## Markers (R118) -/

theorem mem_insertN {l : List Nat} {k j : Nat} : j ∈ insertN l k ↔ j = k ∨ j ∈ l := by
  induction l with
  | nil => simp [insertN]
  | cons a r ih =>
    unfold insertN
    split
    · simp
    · split
      · next h => simp [h]
      · rw [List.mem_cons, ih, List.mem_cons, or_left_comm]

theorem mem_eraseN {l : List Nat} {k j : Nat} : j ∈ eraseN l k ↔ j ≠ k ∧ j ∈ l := by
  simp [eraseN, and_comm]

/-- R118: after a write the marker of its word follows its tag, and no other marker changes. -/
theorem contains_putNow (m : MemSt) (k j : Nat) (v : Word) (mask : BitVec 8) (psn : Bool) :
    (m.putNow k v mask psn).psn.contains j = if j = k then psn else m.psn.contains j := by
  change (if psn then insertN m.psn k else eraseN m.psn k).contains j = _
  rw [Bool.eq_iff_iff, List.contains_iff_mem]
  cases psn
  · rw [if_neg Bool.false_ne_true, mem_eraseN]
    by_cases h : j = k <;> simp [h]
  · rw [if_pos rfl, mem_insertN]
    by_cases h : j = k <;> simp [h]

/-! ## STS (R111) -/

/-- R111: the state of an STS that issues. -/
theorem sts_result (u : State) (k : Nat) (v : Word) (psn : Bool) : let t := (u.updMem fun m => m.putNow k v 0xFF psn).retire
    t.core = u.core.advance.endTick ∧ t.cell = { u.cell with as := { u.cell.as with core := t.core } } ∧ t.parked = u.parked
      ∧ t.mem.mem = memPut u.mem.mem k v 0xFF ∧ (t.mem.psn.contains k = psn)
      ∧ (∀ j, j ≠ k → t.mem.psn.contains j = u.mem.psn.contains j)
      ∧ (u.Canonical → ∀ a, a < k ∨ k + 8 ≤ a → memGet t.mem.mem a = memGet u.mem.mem a) := by
  intro t
  have hmem : t.mem = u.mem.putNow k v 0xFF psn := by simp [t]
  have hcore : t.core = u.core.advance.endTick := retire_core _
  rw [hmem, putNow_mem]
  refine ⟨hcore, ?_, by simp [t], rfl, ?_, fun j hj => ?_, fun hw a ha => memGet_memPut_other hw k a v 0xFF ha⟩
  · rw [hcore]
    exact retire_cell _
  · rw [contains_putNow, if_pos rfl]
  · rw [contains_putNow, if_neg hj]

end Sys2Proof.Machine

namespace Sys2Proof.Proofs

open Sys2Proof.Machine Sys2Proof.Claims

/-- Settles O20: a scratchpad access that passes its checks performs at once. -/
theorem scratchpadResult : Obligations.ScratchpadResult := by
  unfold Obligations.ScratchpadResult
  refine ⟨fun s u o p hg ha h hf => ?lds, fun s u o p hg ha hc h hf => ⟨_, ?sts, sts_result u p.wkey (u.rg o.d).v (u.rg o.d).psn⟩⟩
  case lds => exact exec_of_guardOn rfl hg ((clean_on ha _).trans (spadAccess_ok h hf _))
  case sts => exact exec_of_guardOn rfl hg ((clean_on ha _).trans ((afterChecks_on hc _).trans (spadAccess_ok h hf _)))

/-- Settles O21: the checks in their order, and each instruction by the first that fails. -/
theorem failedCheckTraps : Obligations.FailedCheckTraps := by
  unfold Obligations.FailedCheckTraps
  refine ⟨accessChecks, ?lds, ?st, ?sts, ?ldq, ?stq, ?atomics, ?writebacks, ?waita, ?taggedWord, ?taggedBase, ?taggedAmo, ?taggedCas,
    ?taggedWaita⟩
  case lds => exact fun s u o c hg ha h => exec_of_guardOn rfl hg ((clean_on ha _).trans (spadAccess_fails h _))
  case st =>
    exact fun s u o c hg ha hc hl h => ⟨exec_of_guardOn rfl hg ((clean_on ha _).trans (checkOrDelay_fails hl hc h _)),
      exec_of_guardOn rfl hg ((clean_on ha _).trans (checkOrDelay_fails hl hc h _))⟩
  case sts =>
    exact fun s u o c hg ha hc h => exec_of_guardOn rfl hg ((clean_on ha _).trans ((afterChecks_on hc _).trans (spadAccess_fails h _)))
  case ldq =>
    refine fun s u o c hg ha hq hc hl h => ⟨?_, ?_⟩
    all_goals exact exec_of_guardOn rfl hg ((clean_on ha _).trans ((queuedLoad_room hq _ _).trans (checkOrDelay_fails hl hc h _)))
  case stq => exact fun s u o c hg ha hc h => exec_stq_fails hg ha hc h
  case atomics =>
    refine fun s u o p c hq hc hl => ⟨fun hg ha hb h => ?_, fun hg ha hb hd h => ?_⟩
    · exact exec_of_guardOn rfl hg ((clean_on ha _).trans ((clean_on hb _).trans ((atomic_room hq _ _ _).trans
        (checkOrDelay_fails hl hc h _))))
    · exact exec_of_guardOn rfl hg ((clean_on ha _).trans ((clean_on hb _).trans ((clean_on hd _).trans ((atomic_room hq _ _ _).trans
        (checkOrDelay_fails hl hc h _)))))
  case writebacks =>
    refine fun s u o c hg ha hc hl h => ⟨?_, ?_⟩
    all_goals exact congrArg Host.Outcome.next ((guarded_on hg.1 hg.2 _).trans ((clean_on ha _).trans (checkOrDelay_fails hl hc h _)))
  case waita => exact fun s u o c hg ha hb hd hc h => exec_waita_fails hg ha hb hd hc h
  case taggedWord =>
    refine fun s o hg ha => ⟨?_, ?_, ?_, ?_⟩
    all_goals exact exec_of_guardOn rfl hg (clean_tagged ha _)
  case taggedBase =>
    refine fun s o x y => ⟨fun hg ha => ⟨?_, ?_⟩, fun hg ha => ?_, fun hg ha => ⟨?_, ?_⟩⟩
    all_goals exact exec_of_guardOn rfl hg (clean_tagged ha _)
  case taggedAmo =>
    refine fun s o hg => ⟨fun ha => ?_, fun ha hb => ?_⟩
    · exact exec_of_guardOn rfl hg (clean_tagged ha _)
    · exact exec_of_guardOn rfl hg ((clean_on ha _).trans (clean_tagged hb _))
  case taggedCas =>
    refine fun s o hg => ⟨fun ha => ?_, fun ha hb => ?_, fun ha hb hd => ?_⟩
    · exact exec_of_guardOn rfl hg (clean_tagged ha _)
    · exact exec_of_guardOn rfl hg ((clean_on ha _).trans (clean_tagged hb _))
    · exact exec_of_guardOn rfl hg ((clean_on ha _).trans ((clean_on hb _).trans (clean_tagged hd _)))
  case taggedWaita =>
    refine fun s o hg => ⟨fun ha => ?_, fun ha hb => ?_, fun ha hb hd => ?_⟩
    · exact exec_of_guardOn rfl hg (clean_tagged ha _)
    · exact exec_of_guardOn rfl hg ((clean_on ha _).trans (clean_tagged hb _))
    · exact exec_of_guardOn rfl hg ((clean_on ha _).trans ((clean_on hb _).trans (clean_tagged hd _)))

/-- Settles O22: with room a queued load makes its checks, and LDX turns their failure into a tagged entry. -/
theorem queuedLoadIssues : Obligations.QueuedLoadIssues := by
  unfold Obligations.QueuedLoadIssues
  refine ⟨fun s u o p hg ha hq hc hl h => ⟨?ldq, ?ldqAcq, exec_ldx_ok hg hc hq ha h⟩,
    fun s u o c hg ha hq hc h => exec_ldx_fails hg hc hq ha h, fun s o hg hq hc ha => exec_ldx_tagged hg hc hq ha,
    fun s o hg ha hq hc => ⟨?ldqFull, ?ldqAcqFull, exec_ldx_full hg hc hq⟩⟩
  case ldq | ldqAcq => exact exec_of_guardOn rfl hg ((clean_on ha _).trans ((queuedLoad_room hq _ _).trans (checkOrDelay_now hl hc h _)))
  case ldqFull | ldqAcqFull => exact exec_of_guardOn rfl hg ((clean_on ha _).trans (queuedLoad_full hq _ _))

/-- Settles O23: a store or an atomic whose checks pass, or finish late, joins the operations in flight. -/
theorem storeAndAtomicIssue : Obligations.StoreAndAtomicIssue := by
  unfold Obligations.StoreAndAtomicIssue
  refine ⟨fun s u o p hg ha hc hl h => ⟨?st, ?stRel⟩, fun s u o p e r hg ha hc h hy => exec_stq_ok hg ha hc h hy,
    fun s u o p hg ha hb hq hc hl h => ?amo, fun s u o p hg ha hb hd hq hc hl h => ?cas, fun s o hg ha hl hlo hhi => ⟨?late, rfl⟩⟩
  case st | stRel => exact exec_of_guardOn rfl hg ((clean_on ha _).trans (checkOrDelay_now hl hc h _))
  case amo =>
    exact exec_of_guardOn rfl hg ((clean_on ha _).trans ((clean_on hb _).trans ((atomic_room hq _ _ _).trans (checkOrDelay_now hl hc h _))))
  case cas =>
    exact exec_of_guardOn rfl hg ((clean_on ha _).trans ((clean_on hb _).trans ((clean_on hd _).trans ((atomic_room hq _ _ _).trans
      (checkOrDelay_now hl hc h _)))))
  case late => exact exec_of_guardOn rfl hg ((clean_on ha _).trans (checkOrDelay_late hl hlo hhi _))

end Sys2Proof.Proofs
end

section
/-! SUPPORT. Operations in flight that perform (R113, R116, R118, R123, R140, R258 to R262); O24. -/

namespace Sys2Proof.Machine

open Sys2Proof.Claims

/-! ## Which operation performs, and when -/

section
variable {s : State} {n : Nat} {o : MOp} (ho : s.cell.mops[n]? = some o)
include ho

theorem opKind_eq : s.cell.opKind n = some o.kind := by
  rw [Cell.opKind, ho]

variable {p : Place} (hp : o.place = some p)
include hp

/-- R376: an operation that reaches no register behind the MS's window performs on memory. -/
theorem performHere_of_memory (hl : p.loc ≠ locMgmt) : s.performHere n = s.perform n := by
  simp only [State.performHere, ho, hp]
  exact if_neg (by simp [hl])

variable (hm : s.mayPerform n = true)
include hm

theorem perform_load {q : Option (BitVec 2)} (hk : o.kind = .load q) : s.perform n = s.performLoad n o p q := by
  simp [State.perform, hm, ho, hk, hp]

theorem perform_store {v : Word} {psn : Bool} (hk : o.kind = .store v psn) : s.perform n = s.performStore n o p v psn := by
  simp [State.perform, hm, ho, hk, hp]

theorem perform_amo {op : AmoOp} {v : Word} (hk : o.kind = .amo op v) :
    s.perform n = s.performAmo n o p fun old => some (amoResult op old v) := by
  simp [State.perform, hm, ho, hk, hp]

theorem perform_cas {c v : Word} (hk : o.kind = .cas c v) :
    s.perform n = s.performAmo n o p fun old => if old = c then some v else none := by
  simp [State.perform, hm, ho, hk, hp]

variable (hl : p.loc ≠ locMgmt)
include hl

theorem exec_loadArrival_load {q : Option (BitVec 2)} (hk : o.kind = .load q) :
    exec (.loadArrival n) s = .next (s.performLoad n o p q) := by
  change execLoadArrival n s = _
  rw [execLoadArrival, opKind_eq ho, hk]
  exact congrArg _ ((performHere_of_memory ho hp hl).trans (perform_load ho hp hm hk))

theorem exec_loadArrival_amo {op : AmoOp} {v : Word} (hk : o.kind = .amo op v) :
    exec (.loadArrival n) s = .next (s.performAmo n o p fun old => some (amoResult op old v)) := by
  change execLoadArrival n s = _
  rw [execLoadArrival, opKind_eq ho, hk]
  exact congrArg _ ((performHere_of_memory ho hp hl).trans (perform_amo ho hp hm hk))

theorem exec_loadArrival_cas {c v : Word} (hk : o.kind = .cas c v) :
    exec (.loadArrival n) s = .next (s.performAmo n o p fun old => if old = c then some v else none) := by
  change execLoadArrival n s = _
  rw [execLoadArrival, opKind_eq ho, hk]
  exact congrArg _ ((performHere_of_memory ho hp hl).trans (perform_cas ho hp hm hk))

theorem exec_writePerform_store {v : Word} {psn : Bool} (hk : o.kind = .store v psn) :
    exec (.writePerform true n) s = .next (s.performStore n o p v psn) := by
  change execWritePerform true n s = _
  rw [execWritePerform, opKind_eq ho, hk]
  exact congrArg _ ((performHere_of_memory ho hp hl).trans (perform_store ho hp hm hk))

end

/-- R140: nothing stands before the oldest operation. -/
theorem exec_heldSignal {s : State} {o : MOp} {x : SemNo} (ho : s.cell.mops[0]? = some o) (hk : o.kind = .signal x) :
    exec .heldSignal s = .next ((s.dropOp 0).signal x) := by
  have hm : s.mayPerform 0 = true := by simp [State.mayPerform, ho, hk]
  change execHeldSignal s = _
  rw [execHeldSignal, opKind_eq ho, hk]
  simp [State.perform, hm, ho, hk, State.performSignal]

/-! ## Read-modify-writes (R118, R123, R262) -/

section
variable {s : State} {seq : Nat} {cls : Cls} {scope : Scope} {since : Nat} {sa : Word} {p : Place} {f : Word → Option Word}

/-- R118: a marked word stays as it is. -/
theorem rmw_marked (h : (s.readNew (s.cell.who 0) p sa).2.psn = true) :
    s.rmw seq cls scope since sa p f = s.readNew (s.cell.who 0) p sa := by
  simp only [State.rmw]
  rw [if_pos h]

theorem rmw_keeps (hf : f (s.readNew (s.cell.who 0) p sa).2.v = none) :
    s.rmw seq cls scope since sa p f = s.readNew (s.cell.who 0) p sa := by
  simp only [State.rmw, hf]
  exact ite_self _

theorem rmw_writes {v : Word} (h : (s.readNew (s.cell.who 0) p sa).2.psn = false) (hf : f (s.readNew (s.cell.who 0) p sa).2.v = some v) :
    s.rmw seq cls scope since sa p f =
      ((s.readNew (s.cell.who 0) p sa).1.writeAtW seq cls since p v false
        (max (scopeReach scope) (if (s.readNew (s.cell.who 0) p sa).1.cell.fused then 1 else 0)), (s.readNew (s.cell.who 0) p sa).2) := by
  simp only [State.rmw, hf]
  exact if_neg (by simp [h])

end

/-! ## What a write changes of memory (R258 to R262) -/

theorem writeAt_mem (m : MemSt) (w : PWrite) :
    (m.writeAt w).mem = if finalReach (keyLoc w.key) ≤ w.reach then memPut m.mem w.key w.val w.mask else m.mem := by
  unfold MemSt.writeAt
  split
  · exact finish_mem m w
  · rfl

theorem writeAtW_bytes {s : State} {p : Place} (hk : s.mem.keyFits p = true) (seq : Nat) (cls : Cls) (since : Nat) (v : Word) (psn : Bool)
    (r : Nat) : (s.writeAtW seq cls since p v psn r).mem.mem =
      if finalReach (keyLoc p.wkey) ≤ r then memPut s.mem.mem p.wkey v 0xFF else s.mem.mem := by
  rw [State.writeAtW, if_pos hk]
  exact writeAt_mem _ _

theorem widen_bytes {m : MemSt} {n : Nat} {w : PWrite} (h : m.writes[n]? = some w) :
    (m.widen n).mem = if w.reach + 1 < finalReach (keyLoc w.key) then m.mem else memPut m.mem w.key w.val w.mask := by
  unfold MemSt.widen
  rw [h]
  dsimp only
  split
  · rfl
  · exact finish_mem _ w

@[simp] theorem blockAs_parked (s : State) (c : CellId) (p : Place) : (s.blockAs c p).1.parked = s.parked := by
  simp only [State.blockAs]; split <;> rfl
@[simp] theorem toKey_parked (s : State) (p : Place) : (s.toKey p).parked = s.parked := by simp [State.toKey]
@[simp] theorem putAlien_parked (s : State) (p : Place) (v : Word) (m : BitVec 8) (t : Bool) : (s.putAlien p v m t).parked = s.parked := by
  simp [State.putAlien]

@[simp] theorem writeW_parked (s : State) (e : Bool) (q : Nat) (c : Cls) (n : Nat) (p : Place) (v : Word) (m : BitVec 8) (t : Bool) :
    (s.writeW e q c n p v m t).parked = s.parked := by
  simp only [State.writeW]; split <;> simp

/-- R258, R259: a write of the AS is in memory at once in the scratchpad, and else on its way. -/
theorem writeW_bytes {s : State} {p : Place} (hk : s.mem.keyFits p = true) (e : Bool) (q : Nat) (c : Cls) (n : Nat) (v : Word)
    (m : BitVec 8) (t : Bool) : (s.writeW e q c n p v m t).mem.mem = if p.loc = 0 then memPut s.mem.mem p.wkey v m else s.mem.mem := by
  rw [State.writeW, if_pos hk]
  exact write_mem ..

/-- R290: no cipher stands over the scratchpad. -/
theorem keyFits_spad {m : MemSt} {p : Place} (h : p.loc = 0) : m.keyFits p = true := by
  simp [MemSt.keyFits, h]

/-- R116, R258: a store that performs leaves the list, and changes memory where it is the scratchpad. -/
theorem performStore_result (s : State) (n : Nat) (o : MOp) (p : Place) (v : Word) (psn : Bool) : let t := s.performStore n o p v psn
    t.cell = { s.cell with mops := dropAt s.cell.mops n } ∧ t.parked = s.parked
      ∧ (p.loc ≠ 0 → s.mem.keyFits p = true → t.mem.mem = s.mem.mem) ∧ (p.loc = 0 → t.mem.mem = memPut s.mem.mem p.wkey v 0xFF) := by
  intro t
  have htouch := touchStore_sameButLines s (s.cell.who 0) s.cell p
  have hbytes : s.mem.keyFits p = true → t.mem.mem = if p.loc = 0 then memPut s.mem.mem p.wkey v 0xFF else s.mem.mem := fun hk => by
    rw [← htouch.saveKeeps.bytes]
    exact writeW_bytes (by rw [htouch.saveKeeps.keyFits, hk]) ..
  refine ⟨by simp [t, State.performStore, State.dropOp], by simp [t, State.performStore, State.dropOp], fun hl hk => ?_, fun hl => ?_⟩
  · rw [hbytes hk, if_neg hl]
  · rw [hbytes (keyFits_spad hl), if_pos hl]

end Sys2Proof.Machine

namespace Sys2Proof.Proofs

open Sys2Proof.Machine Sys2Proof.Claims

/-- R118, R123: an AMO that performs writes its result unless the word is marked. -/
theorem performAmo_amo (s : State) (n : Nat) (o : MOp) (p : Place) (op : AmoOp) (v : Word) :
    let u := s.passLine (s.cell.who 0) s.cell p o.addr
    let r := u.readNew (u.cell.who 0) p o.addr
    (s.performAmo n o p fun old => some (amoResult op old v)) =
      ((if r.2.psn then r.1 else r.1.writeAtW o.seq o.cls o.since p (amoResult op r.2.v v) false
        (max (scopeReach o.scope) (if r.1.cell.fused then 1 else 0))).dropOp n).arriveAt none o.seq r.2 := by
  intro u r
  change ((u.rmw o.seq o.cls o.scope o.since o.addr p _).1.dropOp n).arriveAt none o.seq (u.rmw o.seq o.cls o.scope o.since o.addr p _).2 = _
  cases hpsn : r.2.psn with
  | true =>
    rw [rmw_marked hpsn]
    rfl
  | false =>
    rw [rmw_writes (f := fun old => some (amoResult op old v)) hpsn rfl]
    rfl

/-- R118, R123: a CAS that performs writes where it finds the value it compares with, unless the word is marked. -/
theorem performAmo_cas (s : State) (n : Nat) (o : MOp) (p : Place) (c v : Word) :
    let u := s.passLine (s.cell.who 0) s.cell p o.addr
    let r := u.readNew (u.cell.who 0) p o.addr
    (s.performAmo n o p fun old => if old = c then some v else none) =
      ((if r.2.psn = false ∧ r.2.v = c then r.1.writeAtW o.seq o.cls o.since p v false
        (max (scopeReach o.scope) (if r.1.cell.fused then 1 else 0)) else r.1).dropOp n).arriveAt none o.seq r.2 := by
  intro u r
  change ((u.rmw o.seq o.cls o.scope o.since o.addr p _).1.dropOp n).arriveAt none o.seq (u.rmw o.seq o.cls o.scope o.since o.addr p _).2 = _
  cases hpsn : r.2.psn with
  | true =>
    rw [rmw_marked hpsn, if_neg (by simp)]
  | false =>
    by_cases hv : r.2.v = c
    · have hmatch : false = false ∧ r.2.v = c := ⟨rfl, hv⟩
      rw [rmw_writes hpsn (if_pos hv), if_pos hmatch]
    · rw [rmw_keeps (if_neg hv), if_neg fun h => hv h.2]

/-- Settles O24: each kind of operation by what `perform` does of it, and writes by the reach they have. -/
theorem operationsPerform : Obligations.OperationsPerform := by
  unfold Obligations.OperationsPerform
  refine ⟨?load, ?store, ?atomics, ?writeAtW, ?widen, ?signal⟩
  case load => exact fun s n o q p ho hk hp hl hm => exec_loadArrival_load ho hp hm hl hk
  case store => exact fun s n o v psn p ho hk hp hl hm => ⟨_, exec_writePerform_store ho hp hm hl hk, performStore_result s n o p v psn⟩
  case atomics =>
    refine fun s n o p ho hp hl hm => ⟨fun op v hk => ?_, fun c v hk => ?_⟩
    · rw [exec_loadArrival_amo ho hp hm hl hk, performAmo_amo]
    · rw [exec_loadArrival_cas ho hp hm hl hk, performAmo_cas]
  case writeAtW =>
    intro s seq cls since r p v psn hk
    have hbytes := writeAtW_bytes hk seq cls since v psn r
    refine ⟨fun hr => by rw [hbytes, if_neg hr], fun hr => ?_⟩
    rw [hbytes, if_pos hr]
    exact ⟨rfl, fun hw a ha => memGet_memPut_other hw _ a v 0xFF ha⟩
  case widen =>
    intro s n w hw hm
    refine ⟨congrArg _ (if_pos hm), fun hr => by rw [widen_bytes hw, if_pos hr], fun hr => ?_⟩
    rw [widen_bytes hw, if_neg hr]
    exact ⟨rfl, fun hwf a ha => memGet_memPut_other hwf _ a _ _ ha⟩
  case signal =>
    rintro s _ o x rfl ho hk
    exact exec_heldSignal ho hk

end Sys2Proof.Proofs
end

section
/-! SUPPORT. Sequentially consistent operations (R124, R262, R269, R270): the position of the wheel, and what each does there; O26. -/

namespace Sys2Proof.Machine

open Sys2Proof.Claims

/-! ## The wheel (R124, R266, R269) -/

theorem scHere_iff {s : State} :
    s.scHere = true ↔ (∃ w, s.wheelPos = some w ∧ w ∈ s.wheelOwned) ∧ s.cell.lastSc ≠ some (s.pkg.time.t3 / 5) := by
  unfold State.scHere
  cases s.wheelPos <;> simp

theorem getLsbD_classMask (c d : Cls) : ((1 : BitVec 16) <<< c.toNat).getLsbD d.toNat = decide (d = c) := by
  revert c d
  decide

theorem owes_class_iff {m : MemSt} {c : CellId} {seq : Nat} {cls : Cls} : m.owes c seq ((1 : BitVec 16) <<< cls.toNat) 3 = false ↔
    ∀ w ∈ m.writes, w.cell = c → w.eng = false → w.seq < seq → w.cls = cls → 3 ≤ w.reach := by
  simp only [MemSt.owes, getLsbD_classMask]
  simp

theorem scReady_iff {s : State} {cls : Cls} : s.scReady cls = true ↔ ScTurn s cls := by
  simp only [State.scReady, State.scFree, Bool.and_eq_true, scHere_iff, Bool.not_eq_true', owes_class_iff, List.isEmpty_iff, ScTurn, Checked,
    and_assoc]

theorem seenAll_iff {s : State} : s.seenAll = true ↔ ScSees s := by
  simp [State.seenAll, ScSees]

section
variable {s u : State} {n : Need} {a : Word} {cls : Cls} {release : Bool} {go : State → Place → State}

theorem scOp_full (h : s.qFull .lq = true) : s.scOp n a cls release go = s := if_pos h

variable (hq : s.qFull .lq = false)
include hq

theorem scOp_noPosition (hw : s.wheelOwned = []) : s.scOp n a cls release go = s.trap cWheel 0 := by
  rw [State.scOp, if_neg (by simp [hq]), if_pos (by simp [hw])]

variable (hw : s.wheelOwned ≠ [])
include hw

theorem scOp_fails {z : Nat} (h : s.asAccess n a 0 = (u, .error z)) : s.scOp n a cls release go = u.trap z (eaOf a 0) := by
  rw [State.scOp, if_neg (by simp [hq]), if_neg (by simpa using hw), h]

variable {p : Place} (h : s.asAccess n a 0 = (u, .ok p))
include h

theorem scOp_ok : s.scOp n a cls release go = if s.scReady cls && (!release || s.seenAll) then go (scTake s u) p else s := by
  rw [State.scOp, if_neg (by simp [hq]), if_neg (by simpa using hw), h]
  rfl

theorem scOp_takes (ht : ScTurn s cls) (hs : release = true → ScSees s) : s.scOp n a cls release go = go (scTake s u) p := by
  rw [scOp_ok hq hw h, if_pos]
  rw [scReady_iff.mpr ht]
  cases release with
  | false => rfl
  | true => exact seenAll_iff.mpr (hs rfl)

theorem scOp_waits (ht : ¬ (ScTurn s cls ∧ (release = true → ScSees s))) : s.scOp n a cls release go = s := by
  rw [scOp_ok hq hw h, if_neg]
  intro hready
  obtain ⟨hturn, hsees⟩ := Bool.and_eq_true_iff.mp hready
  refine ht ⟨scReady_iff.mp hturn, fun hr => seenAll_iff.mp ?_⟩
  simpa [hr] using hsees

end

/-! ## The cell in focus keeps its number where an error is met (R355, R359) -/

theorem updCell_id {s : State} {id : CellId} {f : Cell → Cell} (h : ∀ c, (f c).id = c.id) : (s.updCell id f).cell.id = s.cell.id := by
  unfold State.updCell
  split
  · exact h s.cell
  · rfl

theorem report_id (s : State) (r : Report) : (s.report r).cell.id = s.cell.id := by
  simp only [State.report]
  split
  · rfl
  · split
    · exact updCell_id fun _ => rfl
    · rfl

theorem lineError_id (s : State) (w : Who) (p : Place) (sa : Word) (code : Nat) (d : Option Detection) :
    (s.lineError w p sa code d).cell.id = s.cell.id := by
  have hfound : (d.elim s s.detected).cell.id = s.cell.id := by cases d <;> rfl
  simp only [State.lineError]
  split <;> rw [updMem_cell, report_id, hfound]

theorem meetError_id (s : State) (w : Who) (l1 : CellId) (p : Place) (sa : Word) : (s.meetError w l1 p sa).cell.id = s.cell.id := by
  have hbeats : (s.noteBeats p.die p.addr 4).cell.id = s.cell.id := rfl
  simp only [State.meetError]
  repeat' split
  all_goals simp only [updMem_cell, lineError_id, hbeats]

theorem passLine_id (s : State) (w : Who) (c : Cell) (p : Place) (sa : Word) : (s.passLine w c p sa).cell.id = s.cell.id := by
  rw [State.passLine, touchLine_cell, meetError_id]

/-! ## The writes drawn in (R262) -/

theorem finish_writes (m : MemSt) (w : PWrite) : (m.finish w).writes = m.writes := by
  unfold MemSt.finish
  split <;> rfl

theorem foldl_finish_writes (l : List PWrite) (m : MemSt) : (l.foldl MemSt.finish m).writes = m.writes := by
  induction l generalizing m with
  | nil => rfl
  | cons w r ih => rw [List.foldl_cons, ih, finish_writes]

/-- R262: what agents of the package have written to the word has performed at package scope. -/
theorem drawIn_reach {m : MemSt} {c : CellId} {k r : Nat} {w : PWrite} (hw : w ∈ (m.drawIn c k r).writes) (hk : w.key = k)
    (hs : sameUnit r w.cell c = true) : r ≤ w.reach := by
  simp only [MemSt.drawIn] at hw
  split at hw
  · rw [foldl_finish_writes] at hw
    have hkept := (List.mem_filter.mp hw).2
    simpa [hk, hs] using hkept
  · obtain ⟨x, -, hx⟩ := List.mem_map.mp hw
    split at hx <;> subst hx
    · exact Nat.le_refl r
    · next hmine => simpa [hk, hs] using hmine

/-! ## What each does at its position (R124) -/

section
variable {s u : State} {p : Place}

/-- R124, R270: the word is stored by the write, whatever line it takes. -/
theorem scst_store (b : GReg) (seq : Nat) (cls : Cls) :
    let v := (scTake s u).touchStore ((scTake s u).cell.who 0) (scTake s u).cell p
    (v.writeAtW seq cls v.pkg.time.t3 p (v.rg b).v (v.rg b).psn 3) = v.writeAtW seq cls v.pkg.time.t3 p (u.rg b).v (u.rg b).psn 3 := by
  intro v
  have hrg : v.rg b = u.rg b := congrArg (·.rg b) (core_of_cell (touchStore_cell (scTake s u) _ _ _))
  rw [hrg]

theorem scst_bytes {v : Word} {psn : Bool} (hk : u.mem.keyFits p = true) (seq : Nat) (cls : Cls) (since : Nat) :
    (((((scTake s u).touchStore ((scTake s u).cell.who 0) (scTake s u).cell p).writeAtW seq cls since p v psn 3).nextSeq).retire).mem.mem
      = if finalReach (keyLoc p.wkey) ≤ 3 then memPut u.mem.mem p.wkey v 0xFF else u.mem.mem := by
  have htouch := (touchStore_sameButLines (scTake s u) ((scTake s u).cell.who 0) (scTake s u).cell p).saveKeeps
  rw [retire_mem]
  refine (writeAtW_bytes (by rw [htouch.keyFits]; exact hk) seq cls since v psn 3).trans ?_
  rw [htouch.bytes]
  rfl

/-- R124, R262: the read-modify-write of an SCAMO, at package scope. -/
theorem scamo_rmw (v : State) (seq : Nat) (cls : Cls) (since : Nat) (ea : Word) (op : AmoOp) (x : Word) :
    let r := v.readNew (v.cell.who 0) p ea
    v.rmw seq cls .package since ea p (fun old => some (amoResult op old x)) =
      (if r.2.psn then r.1 else r.1.writeAtW seq cls since p (amoResult op r.2.v x) false 3, r.2) := by
  intro r
  have hreach : max (scopeReach .package) (if r.1.cell.fused then 1 else 0) = 3 := by
    split <;> rfl
  cases hpsn : r.2.psn with
  | true => exact rmw_marked hpsn
  | false =>
    rw [rmw_writes (f := fun old => some (amoResult op old x)) hpsn rfl, hreach]
    rfl

end

end Sys2Proof.Machine

namespace Sys2Proof.Proofs

open Sys2Proof.Machine Sys2Proof.Claims

/-- R124: SCAMO at its position. -/
theorem scamo_takes {s u : State} {o : OpAmo} {p : Place} (hg : GuardOn s o.pg) (ha : Clean s o.a) (hb : Clean s o.b)
    (hq : s.qFull .lq = false) (hw : s.wheelOwned ≠ []) (h : s.asAccess needLinRW (s.rg o.a).v 0 = (u, .ok p)) (ht : ScTurn s o.cls)
    (hs : ScSees s) :
    let v := (scPass s u p (eaOf (s.rg o.a).v 0)).updMem fun m => m.drawIn u.cell.id p.wkey 3
    let r := v.readNew (v.cell.who 0) p (eaOf (s.rg o.a).v 0)
    let w := if r.2.psn then r.1
      else r.1.writeAtW v.cell.mseq o.cls v.pkg.time.t3 p (amoResult o.op r.2.v (s.rg o.b).v) false 3
    exec (.scamo o) s = .next ((w.pushLq r.2).nextSeq.retire) := by
  intro v r w
  have hid : (scPass s u p (eaOf (s.rg o.a).v 0)).cell.id = u.cell.id := passLine_id ..
  have hv : (scPass s u p (eaOf (s.rg o.a).v 0)).updMem (fun m => m.drawIn (scPass s u p (eaOf (s.rg o.a).v 0)).cell.id p.wkey 3) = v := by
    rw [hid]
  have hbody : ∀ x : State, x = v →
      (((x.rmw x.cell.mseq o.cls .package x.pkg.time.t3 (eaOf (s.rg o.a).v 0) p fun old => some (amoResult o.op old (s.rg o.b).v)).1.pushLq
        (x.rmw x.cell.mseq o.cls .package x.pkg.time.t3 (eaOf (s.rg o.a).v 0) p fun old => some (amoResult o.op old (s.rg o.b).v)).2).nextSeq.retire)
      = (w.pushLq r.2).nextSeq.retire := by
    rintro x rfl
    rw [scamo_rmw]
  exact exec_of_guardOn rfl hg ((clean_on ha _).trans ((clean_on hb _).trans ((scOp_takes hq hw h ht fun _ => hs).trans (hbody _ hv))))

/-- Settles O26: the checks of an SC operation in their order, then its position, then what it does there. -/
theorem scOperations : Obligations.ScOperations := by
  unfold Obligations.ScOperations
  refine ⟨?scld, ?scst, ?scamo, fun m c k w hw hk hs => drawIn_reach hw hk hs, fun s x => rfl, ?fails, ?noPosition⟩
  case scld =>
    refine fun s u o p hg ha hq hw h => ⟨fun ht => ?_, fun ht => ?_⟩
    · exact exec_of_guardOn rfl hg ((clean_on ha _).trans (scOp_takes hq hw h ht nofun))
    · exact exec_of_guardOn rfl hg ((clean_on ha _).trans (scOp_waits hq hw h fun hturn => ht hturn.1))
  case scst =>
    refine fun s u o p hg ha hq hw h => ⟨fun ht hs => ⟨?_, fun hk => scst_bytes hk ..⟩, fun ht => ?_⟩
    · refine exec_of_guardOn rfl hg ((clean_on ha _).trans ((scOp_takes hq hw h ht fun _ => hs).trans ?_))
      exact congrArg (fun t : State => t.nextSeq.retire) (scst_store o.b _ o.cls)
    · exact exec_of_guardOn rfl hg ((clean_on ha _).trans (scOp_waits hq hw h fun hturn => ht ⟨hturn.1, hturn.2 rfl⟩))
  case scamo =>
    refine fun s u o p hg ha hb hq hw h => ⟨fun ht hs => scamo_takes hg ha hb hq hw h ht hs, fun ht => ?_⟩
    exact exec_of_guardOn rfl hg ((clean_on ha _).trans ((clean_on hb _).trans (scOp_waits hq hw h fun hturn => ht ⟨hturn.1, hturn.2 rfl⟩)))
  case fails =>
    refine fun s u o p q z hq hw => ⟨fun hg ha h => ?_, fun hg ha h => ?_, fun hg ha hb h => ?_⟩
    · exact exec_of_guardOn rfl hg ((clean_on ha _).trans (scOp_fails hq hw h))
    · exact exec_of_guardOn rfl hg ((clean_on ha _).trans (scOp_fails hq hw h))
    · exact exec_of_guardOn rfl hg ((clean_on ha _).trans ((clean_on hb _).trans (scOp_fails hq hw h)))
  case noPosition =>
    refine fun s o p q => ⟨fun hq hw => ⟨fun hg ha => ?_, fun hg ha => ?_, fun hg ha hb => ?_⟩,
      fun hq => ⟨fun hg ha => ?_, fun hg ha => ?_, fun hg ha hb => ?_⟩⟩
    · exact exec_of_guardOn rfl hg ((clean_on ha _).trans (scOp_noPosition hq hw))
    · exact exec_of_guardOn rfl hg ((clean_on ha _).trans (scOp_noPosition hq hw))
    · exact exec_of_guardOn rfl hg ((clean_on ha _).trans ((clean_on hb _).trans (scOp_noPosition hq hw)))
    · exact exec_of_guardOn rfl hg ((clean_on ha _).trans (scOp_full hq))
    · exact exec_of_guardOn rfl hg ((clean_on ha _).trans (scOp_full hq))
    · exact exec_of_guardOn rfl hg ((clean_on ha _).trans ((clean_on hb _).trans (scOp_full hq)))

end Sys2Proof.Proofs
end

section
/-! SUPPORT. Cache and TLB maintenance (R115, R120 to R122, R125, R284, R286): what a prefetch may change, what TLBI drops; O25. -/

namespace Sys2Proof.Machine

open Sys2Proof.Claims

/-! ## A walk that finds a leaf (R281, R282) -/

/-- What a walk through table entries leaves: cells, bytes, bindings and blocks under other keys. -/
structure WalkKeeps (s t : State) : Prop where
  cell : t.cell = s.cell
  parked : t.parked = s.parked
  bytes : t.mem.mem = s.mem.mem
  alien : t.mem.alien = s.mem.alien
  binds : t.mem.binds = s.mem.binds

theorem WalkKeeps.refl (s : State) : WalkKeeps s s := ⟨rfl, rfl, rfl, rfl, rfl⟩

theorem WalkKeeps.trans {s t u : State} (a : WalkKeeps s t) (b : WalkKeeps t u) : WalkKeeps s u :=
  ⟨b.cell.trans a.cell, b.parked.trans a.parked, b.bytes.trans a.bytes, b.alien.trans a.alien, b.binds.trans a.binds⟩

theorem SameButLines.walkKeeps {s t : State} (h : SameButLines s t) : WalkKeeps s t :=
  ⟨h.cell, h.parked, h.saveKeeps.bytes, h.saveKeeps.alien, h.saveKeeps.binds⟩

theorem WalkKeeps.keyFits {s t : State} (h : WalkKeeps s t) (p : Place) : t.mem.keyFits p = s.mem.keyFits p := keyFits_congr h.alien h.binds p

theorem WalkKeeps.boundTo {s t : State} (h : WalkKeeps s t) (loc die frame : Nat) : t.mem.boundTo loc die frame = s.mem.boundTo loc die frame := by
  unfold MemSt.boundTo
  rw [h.binds]

/-- R282, R354: an error in the line of a table entry is met. -/
def State.meetEntry (s : State) (p : Place) : State :=
  if s.mem.badLine p.line then (s.detected ⟨.sramRow, p.die, noCell, p.addr⟩).updMem fun m => m.poisonLine p.line else s

theorem meetEntry_keeps (s : State) (p : Place) : WalkKeeps s (s.meetEntry p) := by
  unfold State.meetEntry
  split
  · exact ⟨rfl, rfl, rfl, rfl, rfl⟩
  · exact .refl s

theorem walkDown_cons (s : State) (w : Who) (sa : Word) (va lvl : Nat) (rest : List Nat) (k : Place) (e : Word) :
    s.walkDown w sa va (lvl :: rest) k e =
      if !pteOk e then (s, none)
      else if s.mem.boundTo 1 (entryPlace e va lvl).die ((entryPlace e va lvl).addr / 65536) ≠ some 0 then (s, none)
      else if ((s.meetEntry (entryPlace e va lvl)).wordAs pkgAgent (entryPlace e va lvl)).psn then
        ((s.meetEntry (entryPlace e va lvl)).reportPte w sa, none)
      else (s.meetEntry (entryPlace e va lvl)).walkDown w sa va rest (entryPlace e va lvl)
        ((s.meetEntry (entryPlace e va lvl)).wordAs pkgAgent (entryPlace e va lvl)).v := rfl

/-- R282: a walk that finds a leaf has reported no entry. -/
theorem walkDown_keeps {w : Who} {sa : Word} {va : Nat} :
    ∀ {l : List Nat} {s t : State} {k : Place} {e : Word} {x : Place × Word}, s.walkDown w sa va l k e = (t, some x) → WalkKeeps s t
  | [], s, t, _, _, _, h => by
    obtain ⟨rfl, -⟩ := Prod.mk.inj h
    exact .refl s
  | lvl :: rest, s, t, k, e, x, h => by
    rw [walkDown_cons] at h
    split at h
    · cases h
    · split at h
      · cases h
      · split at h
        · cases h
        · exact (meetEntry_keeps s _).trans (walkDown_keeps h)

/-! ## A word whose frames are bound already (R292) -/

/-- R292, R294: binding a bound frame, or a line of host or CXL memory, changes nothing. -/
theorem bind_of_bound {s t : State} {w : CellId} {p : Place} (hb : 3 ≤ p.loc ∨ (s.mem.boundTo p.loc p.die (p.addr / 65536)).isSome = true)
    (h : s.bind w p false = some t) : t = s := by
  simp only [State.bind, Bool.false_eq_true, if_false] at h
  split at h
  · cases h
  · split at h
    · next hloc =>
      obtain ⟨j, hj⟩ := Option.isSome_iff_exists.mp (hb.resolve_left (by simp at hloc; omega))
      rw [hj] at h
      split at h
      · next hnone => cases hnone
      · split at h
        · exact (Option.some.inj h).symm
        · cases h
    · split at h
      · exact (Option.some.inj h).symm
      · cases h

theorem bindWord_of_bound {s : State} {w : CellId} {p : Place} {n : Nat}
    (hb : 3 ≤ p.loc ∨ ∀ q ∈ [p, p.plus (n - 1)], (s.mem.boundTo q.loc q.die (q.addr / 65536)).isSome = true) : (s.bindWord w p n).1 = s := by
  unfold State.bindWord
  split
  · rfl
  · next t ht =>
    obtain rfl := bind_of_bound (hb.imp_right fun h => h p (by simp)) ht
    split
    · rfl
    · split
      · rfl
      · next u hu => exact bind_of_bound (p := p.plus (n - 1)) (hb.imp_right fun h => h _ (by simp)) hu

/-! ## The translation of a prefetch (R284) -/

/-- A prefetch changes no register, queue or other cell, and no word but, where it walks, the leaf it finds. -/
structure PrefetchKeeps (s t : State) : Prop where
  cell : t.cell = { s.cell with tlb := t.cell.tlb }
  parked : t.parked = s.parked

theorem SameButLines.prefetchKeeps {s t : State} (h : SameButLines s t) : PrefetchKeeps s t := ⟨by rw [h.cell], h.parked⟩

/-- The leaf that a segment's walk for an address of the AS finds, if any. -/
def State.leafFor (s : State) (seg : Nat) (e : SegEnt) (off : Nat) : State × Option (Place × Word) :=
  s.walkDown (s.cell.who 0) (mkAddr seg off) (e.base + off) [4, 3, 2, 1] ⟨1, 0, 0, 0, 2, false⟩
    (if e.d3 = 0 then (s.ctx (ctxOf s.cell.as.sys.ctxid)).root else e.d3)

/-- R120, R284: what a prefetch may change of memory beside the lines of the caches: bit A of the leaf its walk finds. -/
def SetsLeafOnly (s t : State) (seg : Nat) (e : SegEnt) (off : Nat) : Prop :=
  (e.pageable = false → t.mem = { s.mem with lines := t.mem.lines })
    ∧ (e.pageable = true → ∀ k lf, (s.leafFor seg e off).2 = some (k, lf) → s.mem.keyFits k = true →
        t.mem.mem = s.mem.mem ∨ t.mem.mem = memPut s.mem.mem k.wkey (lf ||| 1 <<< 47) 0xFF)

theorem SameButLines.setsLeafOnly {s t : State} (h : SameButLines s t) (seg : Nat) (e : SegEnt) (off : Nat) : SetsLeafOnly s t seg e off :=
  ⟨fun _ => h.mem, fun _ _ _ _ _ => .inl h.saveKeeps.bytes⟩

theorem SetsLeafOnly.trans {s t u : State} {seg : Nat} {e : SegEnt} {off : Nat} (a : SetsLeafOnly s t seg e off) (b : SameButLines t u) :
    SetsLeafOnly s u seg e off := by
  refine ⟨fun hp => b.mem.trans (by rw [a.1 hp]), fun hp k lf hleaf hk => ?_⟩
  rw [b.saveKeeps.bytes]
  exact a.2 hp k lf hleaf hk

/-- R279, R280: the leaf of a translation with A set; D and UNS stay clear. -/
theorem leaf_accessed {lf : Word} {d : Bool} (h : lf.getLsbD 49 = false) (hd : d = false) :
    (lf &&& ~~~ (1 <<< 49 : Word)) ||| (1 <<< 47) ||| (if d then 1 <<< 48 else 0) = lf ||| 1 <<< 47 := by
  have hbit : ∀ i < 64, (1 <<< 49 : Word).getLsbD i = decide (i = 49) := by decide
  have hkeep : lf &&& ~~~ (1 <<< 49 : Word) = lf := by
    refine BitVec.eq_of_getLsbD_eq fun i hi => ?_
    rw [BitVec.getLsbD_and, BitVec.getLsbD_not, hbit i hi]
    by_cases h49 : i = 49
    · rw [h49, h]
      rfl
    · simp [h49, hi]
  rw [hkeep, hd]
  exact BitVec.or_zero

/-- R120, R284: what a read translation of a leaf may change: the AS's TLB, and bit A of the leaf. -/
structure ReadsLeaf (s t : State) (k : Place) (lf : Word) : Prop where
  keeps : PrefetchKeeps s t
  bytes : s.mem.keyFits k = true → t.mem.mem = s.mem.mem ∨ t.mem.mem = memPut s.mem.mem k.wkey (lf ||| 1 <<< 47) 0xFF

theorem WalkKeeps.readsLeaf {s t u : State} {k : Place} {lf : Word} (a : WalkKeeps s t) (b : ReadsLeaf t u k lf) : ReadsLeaf s u k lf := by
  obtain ⟨⟨hcell, hparked⟩, hbytes⟩ := b
  refine ⟨⟨by rw [hcell, a.cell], hparked.trans a.parked⟩, fun hk => ?_⟩
  rw [← a.bytes]
  exact hbytes ((a.keyFits k).trans hk)

theorem readsLeaf_refl (s : State) (k : Place) (lf : Word) : ReadsLeaf s s k lf := ⟨⟨rfl, rfl⟩, fun _ => .inl rfl⟩

theorem leafPlace_frame (va : Nat) (lf : Word) : (leafPlace (va % 65536) lf).addr / 65536 = leafFrame lf := by
  change (leafFrame lf * 65536 + va % 65536) / 65536 = leafFrame lf
  omega

/-- R283: what is left of a walk once the leaf is bound: A is written where it was clear, and the AS's TLB takes the leaf. -/
theorem leafWritten_reads (t : State) (k : Place) (lf : Word) (x : TlbEnt) :
    ReadsLeaf t ((if lf ||| 1 <<< 47 = lf then t else t.putKeyed k (lf ||| 1 <<< 47) 0xFF false).updCell t.cell.id fun c => c.tlbFill .as x)
      k lf := by
  have hput : (t.putKeyed k (lf ||| 1 <<< 47) 0xFF false).cell = t.cell ∧ (t.putKeyed k (lf ||| 1 <<< 47) 0xFF false).parked = t.parked := by
    unfold State.putKeyed
    split <;> simp
  have hfill : ∀ u : State, u.cell = t.cell → u.parked = t.parked →
      PrefetchKeeps t (u.updCell t.cell.id fun c => c.tlbFill .as x) ∧ (u.updCell t.cell.id fun c => c.tlbFill .as x).mem = u.mem := by
    intro u hc hp
    rw [State.updCell, if_pos (by rw [hc])]
    refine ⟨⟨?_, hp⟩, rfl⟩
    dsimp only
    rw [hc]
    rfl
  split
  · obtain ⟨hkeeps, hmem⟩ := hfill t rfl rfl
    exact ⟨hkeeps, fun _ => .inl (congrArg MemSt.mem hmem)⟩
  · obtain ⟨hkeeps, hmem⟩ := hfill _ hput.1 hput.2
    refine ⟨hkeeps, fun hk => .inr ?_⟩
    rw [hmem, State.putKeyed, if_pos hk]
    rfl

/-- R283, R284: a walk to a leaf whose frame is bound and whose UNS is clear sets its A and loads the TLB. -/
theorem walk_reads {s t : State} {cx : Cx} {seg : Nat} {e : SegEnt} {off : Nat} {k : Place} {lf : Word}
    (hwalk : s.walkDown cx.who (mkAddr seg off) (e.base + off) [4, 3, 2, 1] ⟨1, 0, 0, 0, 2, false⟩ (if e.d3 = 0 then cx.root else e.d3)
      = (t, some (k, lf)))
    (htlb : cx.tlb = some .as) (hcell : cx.who.cell = s.cell.id) (huns : lf.getLsbD 49 = false)
    (hbound : 3 ≤ leafLoc lf ∨ (s.mem.boundTo (leafLoc lf) (leafDie lf) (leafFrame lf)).isSome = true) :
    ReadsLeaf s (s.walk cx seg e off false).1 k lf := by
  have hkeeps := walkDown_keeps hwalk
  refine hkeeps.readsLeaf ?_
  rw [State.walk, hwalk]
  dsimp only
  split
  · exact readsLeaf_refl t k lf
  · rw [huns]
    split
    · exact readsLeaf_refl t k lf
    · next u hu =>
      rw [← hkeeps.boundTo, ← leafPlace_frame (e.base + off)] at hbound
      obtain rfl := bind_of_bound hbound hu
      rw [Bool.false_and, Bool.false_and, Bool.false_and, Bool.false_and, Bool.false_and, Bool.false_and, leaf_accessed huns rfl, htlb, hcell,
        ← hkeeps.cell]
      exact leafWritten_reads u k lf _

/-! ## The operand of a prefetch (R120, R284) -/

theorem xlCheck_fst (s : State) (n : Need) (seg off : Nat) (e : SegEnt) :
    (s.xlCheck n seg off e).1 = (s.xlate { s.cx 0 .as with rd := n.r } seg e off n.w).1 := by
  unfold State.xlCheck
  split
  · next h => rw [h]
  · next h => rw [h]
  · next h =>
    rw [h]
    split
    · rfl
    · split <;> rfl

theorem prefetchOk_flat {s : State} {seg : Nat} {e : SegEnt} {off : Nat} (hp : e.pageable = false) (h : s.prefetchOk seg e off = true) :
    let x := (flatXl s.cell.id e off (keyOf s.cell.as.sys.ctxid)).place
    3 ≤ x.loc ∨ ∀ q ∈ [x, x.plus 7], (s.mem.boundTo q.loc q.die (q.addr / 65536)).isSome = true := by
  intro x
  rw [State.prefetchOk, if_neg (by simp [hp])] at h
  simpa using h

theorem prefetchOk_leaf {s : State} {seg : Nat} {e : SegEnt} {off : Nat} (hp : e.pageable = true) (h : s.prefetchOk seg e off = true) :
    ∃ k lf, (s.leafFor seg e off).2 = some (k, lf) ∧ lf.getLsbD 49 = false
      ∧ (3 ≤ leafLoc lf ∨ (s.mem.boundTo (leafLoc lf) (leafDie lf) (leafFrame lf)).isSome = true) := by
  rw [State.prefetchOk, if_pos hp] at h
  change (match (s.leafFor seg e off).2 with
    | none => false
    | some (_, lf) => !lf.getLsbD 49 && (leafLoc lf ≥ 3 || (s.mem.boundTo (leafLoc lf) (leafDie lf) (leafFrame lf)).isSome)) = true at h
  cases hleaf : (s.leafFor seg e off).2 with
  | none =>
    rw [hleaf] at h
    cases h
  | some x =>
    rw [hleaf] at h
    obtain ⟨k, lf⟩ := x
    refine ⟨k, lf, rfl, ?_⟩
    simpa using h

/-- R284: the translation of an operand that a prefetch may have. -/
theorem prefetch_xlate {s : State} {seg : Nat} {e : SegEnt} {off : Nat} (h : s.prefetchOk seg e off = true) :
    let t := (s.xlCheck needLinR seg off e).1
    PrefetchKeeps s t ∧ SetsLeafOnly s t seg e off := by
  intro t
  have hsame : ∀ u : State, u = s → PrefetchKeeps s u ∧ SetsLeafOnly s u seg e off := by
    rintro u rfl
    exact ⟨(SameButLines.refl u).prefetchKeeps, (SameButLines.refl u).setsLeafOnly seg e off⟩
  have ht : t = (s.xlate { s.cx 0 .as with rd := true } seg e off false).1 := xlCheck_fst ..
  rw [ht]
  simp only [State.xlate]
  split
  · exact hsame _ rfl
  · cases hp : e.pageable with
    | false =>
      rw [if_neg Bool.false_ne_true]
      split
      · exact hsame _ rfl
      · have hbind := bindWord_of_bound (w := s.cell.id) (n := 8) (prefetchOk_flat hp h)
        split
        · next hb => exact hsame _ ((congrArg Prod.fst hb).symm.trans hbind)
        · next hb => exact hsame _ ((congrArg Prod.fst hb).symm.trans hbind)
    | true =>
      obtain ⟨k, lf, hleaf, huns, hbound⟩ := prefetchOk_leaf hp h
      have hwalk : ReadsLeaf s (s.walk { s.cx 0 .as with rd := true } seg e off false).1 k lf :=
        walk_reads (t := (s.leafFor seg e off).1) (Prod.ext rfl hleaf) rfl rfl huns hbound
      have hwalked : ∀ u : State, u = (s.walk { s.cx 0 .as with rd := true } seg e off false).1 →
          PrefetchKeeps s u ∧ SetsLeafOnly s u seg e off := by
        rintro u rfl
        refine ⟨hwalk.keeps, by simp [hp], fun _ k' lf' hleaf' hk => ?_⟩
        rw [hleaf] at hleaf'
        obtain ⟨rfl, rfl⟩ := Prod.mk.inj (Option.some.inj hleaf')
        exact hwalk.bytes hk
      rw [if_pos rfl]
      split
      · rw [Bool.false_and, if_neg Bool.false_ne_true]
        exact hsame _ rfl
      · split
        · next hw => exact hwalked _ (by rw [hw])
        · next hw => exact hwalked _ (by rw [hw])

theorem segAt_of_segCheck {c : Cell} {n : Need} {seg off len : Nat} {e : SegEnt} (h : segCheck c n seg off len = .ok e) :
    segAt c.segs seg = some e := by
  unfold segCheck at h
  split at h
  · cases h
  · next e' he =>
    repeat' split at h
    all_goals cases h
    exact he

theorem touchSram_sameButLines (s : State) (w : Who) (c : Cell) (p : Place) : SameButLines s (s.touchSram w c p) := by
  unfold State.touchSram
  split
  · exact fetchHost_sameButLines ..
  · exact .refl s

/-- R120: a prefetch does nothing, or reaches the line of an operand that passes its checks. -/
theorem prefetch_cases (s : State) (a : TW) (off : BitVec 8) (sram : Bool) : let t := s.prefetch a off sram
    SameButLines s t ∨ ∃ e, a.psn = false ∧ segAt s.cell.segs (segNo a.v) = some e ∧ PrefetchKeeps s t
      ∧ SetsLeafOnly s t (segNo a.v) e (offOf a.v off).toNat := by
  intro t
  simp only [t, State.prefetch]
  split
  · exact .inl (.refl s)
  · next hclean =>
    split
    · exact .inl (.refl s)
    · next e he =>
      split
      · exact .inl (.refl s)
      · next hok =>
        obtain ⟨hkeeps, hleaf⟩ := prefetch_xlate (by simpa using hok)
        have htouched : ∀ u v : State, (s.xlCheck needLinR (segNo a.v) (offOf a.v off).toNat e).1 = u → SameButLines u v →
            PrefetchKeeps s v ∧ SetsLeafOnly s v (segNo a.v) e (offOf a.v off).toNat := by
          rintro u v rfl huv
          refine ⟨⟨?_, huv.parked.trans hkeeps.parked⟩, hleaf.trans huv⟩
          rw [huv.cell]
          exact hkeeps.cell
        have hpsn : a.psn = false := by
          simp only [Bool.or_eq_true, not_or, Bool.not_eq_true] at hclean
          exact hclean.1.1.1
        split
        · exact .inl (.refl s)
        · next h =>
          refine .inr ⟨e, hpsn, segAt_of_segCheck he, ?_⟩
          split
          · exact htouched _ _ (congrArg Prod.fst h) (.refl _)
          · split
            · exact htouched _ _ (congrArg Prod.fst h) (touchSram_sameButLines ..)
            · exact htouched _ _ (congrArg Prod.fst h) (touchLine_sameButLines ..)

/-- A prefetch leaves the AS and everything of its cell but its TLB. -/
theorem retire_of_prefetchKeeps {s t : State} (h : PrefetchKeeps s t) : t.retire.core = s.core.advance.endTick ∧ t.retire.parked = s.parked
    ∧ t.retire.cell = { s.cell with as := { s.cell.as with core := t.retire.core }, tlb := t.retire.cell.tlb } := by
  have hcore : t.core = s.core := by rw [State.core, h.cell, State.core]
  refine ⟨by rw [retire_core, hcore], by rw [retire_parked, h.parked], ?_⟩
  rw [retire_core, retire_cell, h.cell]

theorem prefetchHides : PrefetchHides := by
  intro s o hg a off
  refine ⟨_, exec_of_guardOn rfl hg rfl, ?_⟩
  have hcases := prefetch_cases s (s.rg o.base) o.off o.kind
  generalize s.prefetch (s.rg o.base) o.off o.kind = t at hcases ⊢
  have hkeeps : PrefetchKeeps s t := by
    obtain h | ⟨e, -, -, h, -⟩ := hcases
    · exact h.prefetchKeeps
    · exact h
  obtain ⟨hcore, hparked, hcell⟩ := retire_of_prefetchKeeps hkeeps
  refine ⟨hcore, hparked, hcell, fun hflat => ?_, fun e k lf he hp hleaf hk => ?_⟩
  · rw [retire_mem]
    obtain h | ⟨e, hpsn, he, -, hflatMem, -⟩ := hcases
    · exact h.mem
    · refine hflatMem (hflat.elim (fun htag => ?_) fun hpage => hpage e he)
      rw [hpsn] at htag
      cases htag
  · rw [retire_mem]
    obtain h | ⟨e', -, he', -, -, hpaged⟩ := hcases
    · exact .inl h.saveKeeps.bytes
    · obtain rfl := Option.some.inj (he.symm.trans he')
      exact hpaged hp k lf hleaf hk

/-! ## TLBI (R122, R286) -/

theorem tlbDue_as (c : Cell) (keep : TlbEnt → Bool) (d : Nat) : (c.tlbDue keep d).as = c.as := rfl

/-- R286: only the time by which an operation must be over is set. -/
theorem tlbDue_mops (c : Cell) (keep : TlbEnt → Bool) (d : Nat) :
    ((c.tlbDue keep d).mops.map fun o => { o with due := none }) = c.mops.map fun o => { o with due := none } := by
  simp only [Cell.tlbDue, List.map_map]
  refine List.map_congr_left fun o _ => ?_
  simp only [Function.comp]
  split <;> rfl

theorem wbacksDue_undue (m : MemSt) (c : Cell) (keep : TlbEnt → Bool) (t : Nat) :
    ((m.wbacksDue c keep t).wbacks.map fun w => { w with due := none }) = m.wbacks.map fun w => { w with due := none } := by
  simp only [MemSt.wbacksDue, List.map_map]
  refine List.map_congr_left fun w _ => ?_
  simp only [Function.comp]
  split <;> rfl

/-- What the write-backs of a list of cells being given a time leaves of memory. -/
theorem foldl_wbacksDue (keep : TlbEnt → Bool) (t : Nat) : ∀ (l : List Cell) (m : MemSt), let n := l.foldl (fun m c => m.wbacksDue c keep t) m
    n = { m with wbacks := n.wbacks } ∧ (n.wbacks.map fun w => { w with due := none }) = (m.wbacks.map fun w => { w with due := none })
      ∧ ∀ (k : Nat) (w : Wback), m.wbacks[k]? = some w → w.due ≠ none → n.wbacks[k]? = some w
  | [], m => ⟨rfl, rfl, fun _ _ h _ => h⟩
  | c :: r, m => by
    obtain ⟨hmem, hundue, hkept⟩ := foldl_wbacksDue keep t r (m.wbacksDue c keep t)
    refine ⟨hmem, hundue.trans (wbacksDue_undue m c keep t), fun k w hw hdue => hkept k w ?_ hdue⟩
    simp only [MemSt.wbacksDue, List.getElem?_map, hw, Option.map_some]
    rw [if_neg]
    simp [Option.isNone_iff_eq_none, hdue]

/-- R286: a write-back of the cell itself gets the time. -/
theorem wbacksDue_own {m : MemSt} {c : Cell} {keep : TlbEnt → Bool} {t n : Nat} {w : Wback} (hw : m.wbacks[n]? = some w) (hc : w.cell = c.id)
    (hd : w.due = none) (hu : w.uses c.segs keep = true) : (m.wbacksDue c keep t).wbacks[n]? = some { w with due := some t } := by
  simp only [MemSt.wbacksDue, List.getElem?_map, hw, Option.map_some]
  rw [if_pos (by simp [hc, hd, hu])]

end Sys2Proof.Machine

namespace Sys2Proof.Proofs

open Sys2Proof.Machine Sys2Proof.Claims

/-- R122, R286: what TLBI leaves and drops. -/
theorem tlbi_result (s : State) (scope : Scope) (keep : TlbEnt → Bool) :
    let reach := min 3 (scopeReach scope)
    let drop := fun (c : Cell) => (if reach = 3 then c.tlbDue keep (s.pkg.time.t3 + 1500000) else c).tlbDrop keep
    let isDue := fun (w : Wback) => w.due = none ∧ w.uses s.cell.segs keep = true
    let t := (s.tlbInvalidate scope keep).retire
    t.core = s.core.advance.endTick ∧ t.mem = { s.mem with wbacks := t.mem.wbacks }
      ∧ (reach ≠ 3 → t.mem = s.mem)
      ∧ (reach = 3 → t.mem.wbacks.map (fun w => { w with due := none }) = s.mem.wbacks.map (fun w => { w with due := none })
        ∧ ∀ (n : Nat) (w : Wback), s.mem.wbacks[n]? = some w → w.cell = s.cell.id → isDue w →
          t.mem.wbacks[n]? = some { w with due := some (s.pkg.time.t3 + 1500000) })
      ∧ t.cell = { drop s.cell with as := { s.cell.as with core := t.core } }
      ∧ t.parked = s.parked.map (fun (c : Cell) =>
          if sameUnit reach c.id s.cell.id ∧ ctxOf c.as.sys.ctxid = ctxOf s.cell.as.sys.ctxid then drop c else c) := by
  intro reach drop isDue t
  have hdropAs : (drop s.cell).as = s.cell.as := by
    simp only [drop]
    split <;> rfl
  have hkeptCore : (s.tlbInvalidate scope keep).core = s.core := congrArg AsSt.core hdropAs
  have hcore : t.core = s.core.advance.endTick := (retire_core _).trans (by rw [hkeptCore])
  have hcell : t.cell = { drop s.cell with as := { s.cell.as with core := t.core } } := by
    rw [hcore, ← hdropAs]
    refine (retire_cell _).trans ?_
    rw [hkeptCore]
    rfl
  have hparked : t.parked = s.parked.map (fun (c : Cell) =>
      if sameUnit reach c.id s.cell.id ∧ ctxOf c.as.sys.ctxid = ctxOf s.cell.as.sys.ctxid then drop c else c) := by
    refine (retire_parked _).trans (List.map_congr_left fun c _ => ?_)
    exact if_congr (by simp [reach]) rfl rfl
  by_cases hreach : reach = 3
  · have hmem : t.mem = (s.cell :: s.parked.filter fun c => sameUnit reach c.id s.cell.id && ctxOf c.as.sys.ctxid = ctxOf s.cell.as.sys.ctxid).foldl
        (fun m c => m.wbacksDue c keep (s.pkg.time.t3 + 1500000)) s.mem := (retire_mem _).trans (if_pos hreach)
    rw [List.foldl_cons] at hmem
    obtain ⟨hbut, hundue, hkept⟩ := foldl_wbacksDue keep (s.pkg.time.t3 + 1500000)
      (s.parked.filter fun c => sameUnit reach c.id s.cell.id && ctxOf c.as.sys.ctxid = ctxOf s.cell.as.sys.ctxid)
      (s.mem.wbacksDue s.cell keep (s.pkg.time.t3 + 1500000))
    rw [← hmem] at hbut hundue hkept
    refine ⟨hcore, hbut, fun h => absurd hreach h, fun _ => ⟨hundue.trans (wbacksDue_undue ..), fun n w hw hc hd => ?_⟩, hcell, hparked⟩
    exact hkept n _ (wbacksDue_own hw hc hd.1 hd.2) nofun
  · have hmem : t.mem = s.mem := (retire_mem _).trans (if_neg hreach)
    exact ⟨hcore, by rw [hmem], fun _ => hmem, fun h => absurd h hreach, hcell, hparked⟩

/-- Settles O25: a prefetch by the translation it makes, TLBI by the lists it filters, the rest by their checks. -/
theorem maintenanceCompletes : Obligations.MaintenanceCompletes := by
  unfold Obligations.MaintenanceCompletes
  refine ⟨fun s o hg => ?pf, prefetchHides, fun s u o p hg ha hc hl h => ⟨?cwb, ?cinv⟩, fun s o hg ha => ?chk, fun s o hg ha => ?chkPred,
    fun s o hg ha hc hl => ?tlbi, fun c keep d => ⟨rfl, rfl, rfl, rfl, rfl, rfl, rfl, rfl, tlbDue_mops c keep d⟩,
    fun s o hg hc hopen => ?fence, fun s o hg hc hopen => ?fenceWaits, fun s o hg ha => ?chkTagged, fun s o hg ha => ?chkPredTagged⟩
  case pf =>
    obtain ⟨t, ht, hcore, -, hcell, -⟩ := prefetchHides s o hg
    refine ⟨t, ht, hcore, ?_⟩
    rw [hcell]
    exact ⟨rfl, rfl, rfl, rfl, rfl, rfl⟩
  case cwb | cinv =>
    exact congrArg Host.Outcome.next ((guarded_on hg.1 hg.2 _).trans ((clean_on ha _).trans (checkOrDelay_now hl hc h _)))
  case chk => exact passes_of_exec (exec_of_guardOn rfl hg (clean_on ha _))
  case chkPred => exact passes_of_exec (exec_of_guardOn rfl hg (if_neg (by simp [ha])))
  case tlbi =>
    obtain ⟨hcore, hmem, hshort, hwide, hcell, hparked⟩ := tlbi_result s o.scope
      (tlbKeep o.kind (segNo (s.rg o.a).v) (((match segAt s.cell.segs (segNo (s.rg o.a).v) with | some e => e.base | none => 0)
        + ((s.rg o.a).v.extractLsb' 0 58).toNat) / 65536))
    refine ⟨_, ?_, hcore, hmem, hshort, hwide, hcell, hparked, fun e => ?_⟩
    · exact exec_of_guardOn (congrArg Host.Outcome.next (atKernel_of_not_program hl _ _)) hg
        ((clean_on ha _).trans (afterChecks_on hc _))
    · cases o.kind <;> rfl
  case fence => exact passes_of_exec (exec_of_guardOn rfl hg ((afterChecks_on hc _).trans (if_neg (by simp [hopen]))))
  case fenceWaits => exact exec_of_guardOn rfl hg ((afterChecks_on hc _).trans (if_pos hopen))
  case chkTagged => exact exec_of_guardOn rfl hg (clean_tagged ha _)
  case chkPredTagged => exact exec_of_guardOn rfl hg (if_pos ha)

end Sys2Proof.Proofs
end

section
/-! SUPPORT. Records (R146 to R149): what FORK, JOIN and EXIT do, and what the retirement of a record leaves of the cell; O36. -/

namespace Sys2Proof.Machine

open Sys2Proof.Claims

/-! ## A record retires (R149, R309) -/

theorem placeSingle_cell (s : State) (l : Launch) : (s.placeSingle l).cell = s.cell := by
  unfold State.placeSingle
  split
  · rfl
  · split
    · rfl
    · rw [updLaunch_cell, enqueueRec_cell]

theorem launchDone_cell (s : State) (l : Launch) : (s.launchDone l).cell = s.cell := by
  simp only [State.launchDone]
  split
  · exact (fencesFrom_kept _ _ _ _).cell
  · split
    · split
      · rfl
      · split
        · exact (streamOn_kept _ _ _).cell
        · rfl
    · rfl

theorem boundary_cell (s : State) (id : Nat) : (s.boundary id).cell = s.cell := by
  simp only [State.boundary]
  split
  · rfl
  · split
    · rfl
    · split
      · split
        · exact placeSingle_cell _ _
        · rfl
      · exact launchDone_cell s _

theorem retireRecord_cell {s : State} {r : RunRec} (h : s.cell.recd = some r) : s.retireRecord.cell =
    { s.cell with recd := none, lastOp := some (r.launch, r.op), as := { s.cell.as with run := .idle, exitTested := false } } := by
  unfold State.retireRecord
  rw [h]
  exact boundary_cell _ _

/-! ## The join block (R148, R149) -/

theorem touchJoin_sameButLines (s : State) (p : Place) (n : Nat) : SameButLines s (s.touchJoin p n) := by
  simp only [State.touchJoin]
  split
  · exact touchLine_sameButLines s _ _ _
  · exact (touchLine_sameButLines s _ _ _).trans (touchLine_sameButLines _ _ _ _)

theorem nextSeq_cell (s : State) : s.nextSeq.cell = { s.cell with mseq := s.cell.mseq + 1 } := rfl

theorem joinDown_cell {s : State} {p : Place} (hk : s.mem.keyFits p = true) (n : Word) :
    (s.joinDown p n).cell = { s.cell with mseq := s.cell.mseq + 1 } := by
  rw [State.joinDown, nextSeq_cell, State.writeAtW, if_pos hk, updMem_cell]

theorem joinDown_bytes {s : State} {p : Place} (hk : s.mem.keyFits p = true) (n : Word) : (s.joinDown p n).mem.mem =
    if finalReach (keyLoc p.wkey) ≤ 3 then memPut s.mem.mem p.wkey (n - 1) 0xFF else s.mem.mem :=
  writeAtW_bytes hk _ _ _ _ _ _

/-- R148: what JOIN does in the state in which its join block has been reached. -/
def State.joinFrom (v : State) (r : RunRec) (a code : Word) (p : Place) : State :=
  let c := v.joinWord p 0
  if c.psn then v.trap cPoison a
  else if c.v = 1 then
    ((v.joinDown p c.v).continuation r code v.cell.as.sys.frame v.cell.as.sys.wid v.cell.as.sys.joinp).retire
  else (v.joinDown p c.v).retire

theorem joinAt_eq (s : State) (r : RunRec) (a code : Word) (p : Place) : s.joinAt r a code p = (joinReach s p a 8).joinFrom r a code p := rfl

section
variable {v : State} {r : RunRec} {a code : Word} {p : Place}

theorem joinFrom_marked (h : (v.joinWord p 0).psn = true) : v.joinFrom r a code p = v.trap cPoison a := if_pos h

theorem exitJoinFrom_marked (h : (v.joinWord p 0).psn = true) : v.exitJoinFrom p a = v.trap cPoison a := if_pos h

variable (h : (v.joinWord p 0).psn = false)
include h

theorem joinFrom_counts (hv : (v.joinWord p 0).v ≠ 1) : v.joinFrom r a code p = (v.joinDown p (v.joinWord p 0).v).retire :=
  (if_neg (by simp [h])).trans (if_neg hv)

theorem exitJoinFrom_counts (hv : (v.joinWord p 0).v ≠ 1) : v.exitJoinFrom p a = (v.joinDown p (v.joinWord p 0).v).leave :=
  (if_neg (by simp [h])).trans (if_neg hv)

variable (hv : (v.joinWord p 0).v = 1)
include hv

theorem joinFrom_last : v.joinFrom r a code p = ((v.joinDown p (v.joinWord p 0).v).continuation r code v.cell.as.sys.frame
    v.cell.as.sys.wid v.cell.as.sys.joinp).retire :=
  (if_neg (by simp [h])).trans (if_pos hv)

theorem exitJoinFrom_markedWord {k : Nat} (hk : v.joinMarked p = some k) : v.exitJoinFrom p a = v.trap cPoison (a + BitVec.ofNat 64 k) := by
  simp [State.exitJoinFrom, h, hv, hk]

theorem exitJoinFrom_last (hk : v.joinMarked p = none) (hr : v.cell.recd = some r) : v.exitJoinFrom p a =
    ((v.joinDown p (v.joinWord p 0).v).continuation r (v.joinWord p 8).v (v.joinWord p 16).v (v.joinWord p 24).v
      (v.joinWord p 32).v).leave := by
  simp [State.exitJoinFrom, h, hv, hk, hr]

end

/-! ## FORK and JOIN (R146 to R148) -/

/-- R147, R148: a JOIN whose checks all pass. -/
theorem exec_join_ok {s u : State} {o : OpJoin} {p : Place} {r : RunRec} (hg : GuardOn s o.pg) (ha : Clean s o.a) (hb : Clean s o.b)
    (hc : Checked s) (h : s.asAccess needLinRW (s.rg o.a).v 0 = (u, .ok p)) (hcode : s.codeOk (s.rg o.b).v = true)
    (hopen : s.packageOpen = false) (hfree : s.mem.contended s.cell.id p.wkey 3 = false) (hr : s.cell.recd = some r) :
    exec (.join o) s = .next ((joinReach u p (s.rg o.a).v 8).joinFrom r (s.rg o.a).v (s.rg o.b).v p) := by
  refine exec_of_guardOn rfl hg ((clean_on ha _).trans ((clean_on hb _).trans ((afterChecks_on hc _).trans ?_)))
  simp only [h, hcode, hopen, hfree, hr, Bool.not_true, Bool.or_false, Bool.false_eq_true, if_false, joinAt_eq]

/-! ## EXIT (R149) -/

theorem stopped_iff {e : EsSt} : e.stopped = true ↔ e.run = .idle := by simp [EsSt.stopped]

/-- R149, R194: what EXIT waits for and tests first: the engines and the ES are done, and nothing is left unconsumed. -/
def State.exitReady (s : State) : Prop :=
  s.cell.as.exitTested = true ∨
    (s.cell.engineWork = false ∧ s.cell.es.run = .idle ∧ unconsumed s.cell = 0 ∧ s.cell.qs.anyLeft = false)

theorem exit_tested {s t u w : State} (h : s.exitReady) :
    (if !s.cell.as.exitTested && (s.cell.engineWork || !s.cell.es.stopped) then t
     else if !s.cell.as.exitTested && (unconsumed s.cell ≠ 0 || s.cell.qs.anyLeft) then u else w) = w := by
  obtain ht | ⟨hw, he, hu, hq⟩ := h
  · simp [ht]
  · simp [hw, stopped_iff.mpr he, hu, hq]

section
variable {s : State} {o : OpG} (hg : GuardOn s o.pg)
include hg

theorem exec_exit_working (ht : s.cell.as.exitTested = false) (hw : s.cell.engineWork = true ∨ s.cell.es.run ≠ .idle) :
    exec (.exit o) s = .next s := by
  refine exec_of_guardOn rfl hg (if_pos ?_)
  simpa [ht, ← Bool.not_eq_true, stopped_iff] using hw

theorem exec_exit_unconsumed (ht : s.cell.as.exitTested = false) (hw : s.cell.engineWork = false) (he : s.cell.es.run = .idle)
    (hu : unconsumed s.cell ≠ 0 ∨ s.cell.qs.anyLeft = true) : exec (.exit o) s =
      .next (s.trap cExit (BitVec.ofNat 64 (unconsumed s.cell) ||| (if s.cell.qs.anyLeft then 1 <<< 63 else 0))) := by
  refine exec_of_guardOn rfl hg ((if_neg ?_).trans (if_pos ?_))
  · simp [hw, stopped_iff.mpr he]
  · simpa [ht] using hu

variable (hready : s.exitReady)
include hready

theorem exec_exit_open (hopen : s.packageOpen = true) : exec (.exit o) s = .next (s.updAs fun a => { a with exitTested := true }) :=
  exec_of_guardOn rfl hg (by rw [exit_tested hready, if_pos hopen])

variable (hopen : s.packageOpen = false)
include hopen

theorem exec_exit_noJoin (hj : s.cell.as.sys.joinp = 0) : exec (.exit o) s = .next s.leave :=
  exec_of_guardOn rfl hg (by rw [exit_tested hready, if_neg (by simp [hopen]), if_pos hj])

theorem exec_exit_join {u : State} {p : Place} (hj : s.cell.as.sys.joinp ≠ 0) (hp : s.joinpAccess = (u, .ok p))
    (hfree : s.mem.contended s.cell.id p.wkey 3 = false) :
    exec (.exit o) s = .next ((joinReach u p u.cell.as.sys.joinp 40).exitJoinFrom p u.cell.as.sys.joinp) := by
  refine exec_of_guardOn rfl hg ?_
  rw [exit_tested hready, if_neg (by simp [hopen]), if_neg hj, hp]
  simp only [hfree, Bool.false_eq_true, if_false]
  exact exitJoin_eq u p

end

end Sys2Proof.Machine

namespace Sys2Proof.Proofs

open Sys2Proof.Machine Sys2Proof.Claims

/-- Settles O36: the lemmas above, the join block's state kept apart from what JOIN and EXIT do there. -/
theorem recordResult : Obligations.RecordResult := by
  unfold Obligations.RecordResult
  refine ⟨?fork, ?join, ?touch, ?down, ?exit, ?retire, ?left, ?working⟩
  case fork =>
    intro s o r hg ha hb hd hcode hr
    refine ⟨fun hroom => ?_, fun hfull => ?_⟩
    all_goals
      refine exec_of_guardOn rfl hg ((clean_on ha _).trans ((clean_on hb _).trans ((clean_on hd _).trans ?_)))
    · simp [hcode, hr, hroom]
    · simp [hcode, hr, hfull]
  case join =>
    intro s u o p r hg ha hb hc h hcode hopen hfree hr
    rw [exec_join_ok hg ha hb hc h hcode hopen hfree hr]
    exact ⟨fun hm => congrArg Host.Outcome.next (joinFrom_marked hm), fun hm hv => congrArg Host.Outcome.next (joinFrom_counts hm hv),
      fun hm hv => congrArg Host.Outcome.next (joinFrom_last hm hv)⟩
  case touch =>
    intro s p n
    have hlines := touchJoin_sameButLines s p n
    exact ⟨hlines.cell, hlines.parked, hlines.saveKeeps.bytes, hlines.saveKeeps.psn⟩
  case down => exact fun s p n hk => ⟨joinDown_cell hk n, joinDown_bytes hk n⟩
  case exit =>
    refine fun s o hg hready => ⟨exec_exit_open hg hready, exec_exit_noJoin hg hready, fun u p hopen hj hp hfree => ?_⟩
    rw [exec_exit_join hg hready hopen hj hp hfree]
    exact ⟨fun hm => congrArg Host.Outcome.next (exitJoinFrom_marked hm),
      fun k hm hv hk => congrArg Host.Outcome.next (exitJoinFrom_markedWord hm hv hk),
      fun hm hv => congrArg Host.Outcome.next (exitJoinFrom_counts hm hv),
      fun r hm hv hk hr => congrArg Host.Outcome.next (exitJoinFrom_last hm hv hk hr)⟩
  case retire =>
    intro s r h
    rw [retireRecord_cell h]
    exact ⟨rfl, rfl, rfl⟩
  case left => exact fun s o hg => exec_exit_unconsumed hg
  case working => exact fun s o hg => exec_exit_working hg

end Sys2Proof.Proofs
end

section
/-! SUPPORT. Waiting on memory and on time (R143 to R145): what a read of a WAITA leads to, and how far time may pass; O31. -/

namespace Sys2Proof.Machine

open Sys2Proof.Claims

/-! ## What the checks of an operand leave of the AS (R109) -/

theorem rg_of_core {s t : State} (h : t.core = s.core) (r : GReg) : t.rg r = s.rg r := congrArg (·.rg r) h

theorem asAccess_core (s : State) (n : Need) (base : Word) (off8 : BitVec 8) : (s.asAccess n base off8).1.core = s.core := by
  simp only [State.asAccess]
  split
  · rfl
  · split
    · rfl
    · split
      · rfl
      · rw [xlCheck_fst, xlate_core]

theorem passLine_core (s : State) (w : Who) (c : Cell) (p : Place) (sa : Word) : (s.passLine w c p sa).core = s.core := by
  rw [State.passLine, core_of_cell (touchLine_sameButLines ..).cell, meetError_core]

/-! ## A WAITA is reached, read and ended (R143, R144) -/

theorem reachWait_core (s : State) (o : OpWaita) : (s.reachWait o).core = s.core := rfl

theorem reachWait_of_waiting {s : State} {o : OpWaita} {y : WaitSt} (h : s.cell.as.wait = some y) : s.reachWait o = s := by
  have hwait : some (s.cell.as.wait.getD (s.freshWait o)) = s.cell.as.wait := by rw [h]; rfl
  rw [State.reachWait, State.updAs, hwait]

theorem waitStart_of_waiting {s : State} {y : WaitSt} (h : s.cell.as.wait = some y) : s.waitStart = y.t0 := by
  rw [State.waitStart, h]
  rfl

theorem waitStart_of_fresh {s : State} (h : s.cell.as.wait = none) : s.waitStart = s.timeNs := by
  rw [State.waitStart, h]
  rfl

theorem reachWait_fresh {s : State} (o : OpWaita) (h : s.cell.as.wait = none) : (s.reachWait o).cell.as.wait = some (s.freshWait o) := by
  rw [State.reachWait, updAs_cell_as, h]
  rfl

/-- R143: t0 is TIME where the WAITA was reached. -/
theorem reachWait_waitStart (s : State) (o : OpWaita) : (s.reachWait o).waitStart = s.waitStart := by
  cases h : s.cell.as.wait with
  | none => rw [waitStart_of_waiting (reachWait_fresh o h), waitStart_of_fresh h]; rfl
  | some y => rw [reachWait_of_waiting h]

theorem waitDue_iff {s : State} :
    s.waitDue = true ↔ ∃ y t, s.cell.as.wait = some y ∧ y.eq = some t ∧ t + 1000 < s.pkg.time.t3 + 5 := by
  unfold State.waitDue
  cases hw : s.cell.as.wait with
  | none => simp
  | some y => cases he : y.eq <;> simp [he]

section
variable {s : State} {o : OpWaita} {t0 : Nat}

theorem waitOver_iff : s.waitOver o t0 = true ↔ o.d ≠ 0 ∧ t0 + (s.rg o.d).v.toNat ≤ s.timeNs := by
  simp [State.waitOver]

theorem waitEither_iff : s.waitEither o t0 = true ↔ (o.d ≠ 0 ∧ t0 + (s.rg o.d).v.toNat ≤ s.timeNs)
    ∧ ∃ c, s.cell.as.wait.bind (·.rd) = some c ∧ s.pkg.time.clk ≤ c + 200 := by
  rw [State.waitEither, Bool.and_eq_true, waitOver_iff]
  cases s.cell.as.wait.bind (·.rd) <;> simp

variable {p : Place} {x : TW}

theorem waitRead_marked (h : x.psn = true) : s.waitRead o p t0 x = s.endWait o.f false true := if_pos h

variable (h : x.psn = false)
include h

theorem waitRead_equal (hv : x.v = (s.rg o.b).v) : s.waitRead o p t0 x =
    if s.waitEither o t0 then { s with free := s.free + 1 }.endWait o.f (Config.freeBool s.free) false else s.endWait o.f true false :=
  (if_neg (by simp [h])).trans (if_pos hv)

theorem waitRead_unequal (hv : x.v ≠ (s.rg o.b).v) :
    s.waitRead o p t0 x = if s.waitOver o t0 then s.endWait o.f false false else s.waitOn o p :=
  (if_neg (by simp [h])).trans (if_neg hv)

end

/-- R143: one pass of a WAITA whose operand passes its checks. -/
theorem exec_waita_reads {s u w : State} {o : OpWaita} {p : Place} (hg : GuardOn s o.pg) (ha : Clean s o.a) (hb : Clean s o.b)
    (hd : Clean s o.d) (hc : Checked s) (h : (s.reachWait o).asAccess needWait (s.rg o.a).v 0 = (u, .ok p))
    (hf : u.cell.classFree o.cls = true) (hw : w = u.passLine (u.cell.who 0) u.cell p (eaOf (s.rg o.a).v 0)) :
    exec (.waita o) s = .next ((w.readAny (!w.waitDue) (w.cell.who 0) p (eaOf (s.rg o.a).v 0)).1.waitRead o p s.waitStart
      (w.readAny (!w.waitDue) (w.cell.who 0) p (eaOf (s.rg o.a).v 0)).2) := by
  have hu : u.rg o.a = s.rg o.a := rg_of_core ((core_of_eq h (asAccess_core ..)).trans (reachWait_core s o)) _
  have hwa : w.rg o.a = s.rg o.a := (rg_of_core (hw ▸ passLine_core ..) _).trans hu
  refine exec_of_guardOn rfl hg ((clean_on ha _).trans ((clean_on hb _).trans ((clean_on hd _).trans
    ((afterChecks_on (s := s.reachWait o) hc _).trans ?_))))
  rw [h]
  simp only [hf, Bool.not_true, Bool.false_eq_true, if_false, hu, ← hw, hwa, reachWait_waitStart]

/-! ## How far time passes (R144) -/

theorem chargeRoute_time (s : State) (w : Who) (col : CellId) (p : Place) : (s.chargeRoute w col p).pkg.time = s.pkg.time := by
  simp only [State.chargeRoute]
  split <;> simp

theorem chargeLine_time (s : State) (w : Who) (p : Place) : (s.chargeLine w p).pkg.time = s.pkg.time := by
  rw [State.chargeLine, chargeRoute_time, charge_time]

theorem lineHome_time (s : State) (l : CLine) : (s.lineHome l).pkg.time = s.pkg.time := by
  simp only [State.lineHome]
  split
  · rfl
  · rw [updMem_pkg]
    generalize ht : State.chargeLine _ _ _ = t
    refine Eq.trans ?_ ((congrArg (·.pkg.time) ht).symm.trans (chargeLine_time ..))
    split
    · rw [updMem_pkg, State.reportFound, report_clk]
      rfl
    · rfl

theorem foldl_lineHome_time : ∀ (l : List CLine) (s : State), (l.foldl State.lineHome s).pkg.time = s.pkg.time
  | [], _ => rfl
  | x :: r, s => (foldl_lineHome_time r _).trans (lineHome_time s x)

theorem expireLines_time (s : State) : s.expireLines.pkg.time = s.pkg.time := by
  simp only [State.expireLines]
  split
  · exact foldl_lineHome_time _ s
  · rfl

theorem foldl_min_le {f : Nat → Nat} {d : Nat} : ∀ {l : List Nat} (n : Nat), d ∈ l → l.foldl (fun k d => min k (f d)) n ≤ f d := by
  have hstart : ∀ (l : List Nat) (n : Nat), l.foldl (fun k d => min k (f d)) n ≤ n := fun l => by
    induction l with
    | nil => exact fun n => Nat.le_refl n
    | cons a r ih => exact fun n => (ih _).trans (Nat.min_le_left _ _)
  intro l
  induction l with
  | nil => exact fun n h => absurd h (by simp)
  | cons a r ih =>
    intro n h
    rcases List.mem_cons.mp h with rfl | h
    · exact (hstart r _).trans (Nat.min_le_right _ _)
    · exact ih _ h

/-- R144: cycles pass no further than a deadline that has not passed yet. -/
theorem elapse_t3 {s : State} {d : Nat} (h : d ∈ s.deadlines) (n : Nat) : (s.elapse n).pkg.time.t3 ≤ max s.pkg.time.t3 d := by
  have hslack : s.slack n ≤ (d - s.pkg.time.t3) / 5 := foldl_min_le (f := fun d => (d - s.pkg.time.t3) / 5) n h
  unfold State.elapse
  split
  · exact Nat.le_max_left _ _
  · rw [expireLines_time]
    have hadvance : (s.advance (s.slack n)).pkg.time.t3 = s.pkg.time.t3 + 5 * s.slack n := rfl
    omega

theorem noteWaits_pkg (s : State) : s.noteWaits.pkg = s.pkg := by
  unfold State.noteWaits
  split <;> rfl

theorem noteWait_waiting {s : State} {c : Cell} {y : WaitSt} (h : c.as.wait = some y) :
    ∃ eq, s.noteWait c = { c with as := { c.as with wait := some { y with eq := eq } } } := by
  unfold State.noteWait
  rw [h]
  exact ⟨_, rfl⟩

theorem noteWaits_cell {s : State} {y : WaitSt} (h : s.cell.as.wait = some y) : s.noteWaits.cell = s.noteWait s.cell := by
  have hany : (s.cell :: s.parked).any (·.as.wait.isSome) = true := by simp [h]
  rw [State.noteWaits, if_pos hany]

/-- R144: the time that bounds a wait, 200 cycles after its timeout. -/
theorem end_mem_waitDeadlines {c : Cell} {y : WaitSt} {e : Nat} (hrun : c.as.run = .running) (hw : c.as.wait = some y)
    (he : y.end_ = some e) (hh : c.holding 0 = false) (hgated : c.gated = false) : 3 * e + 1000 ∈ c.waitDeadlines true := by
  simp [Cell.waitDeadlines, hw, hrun, hh, hgated, he]

theorem mem_deadlines {s : State} {d : Nat} (h : d ∈ s.cell.waitDeadlines s.pkg.time.set) : d ∈ s.deadlines := by
  have hcell : d ∈ s.cell.deadlines s.pkg.time.set := by simp [Cell.deadlines, h]
  simp [State.deadlines, hcell]

theorem end_mem_deadlines {s : State} {y : WaitSt} {e : Nat} (hrun : s.cell.as.run = .running) (hw : s.cell.as.wait = some y)
    (he : y.end_ = some e) (hh : s.cell.holding 0 = false) (hgated : s.cell.gated = false) (hset : s.pkg.time.set = true) :
    3 * e + 1000 ∈ s.noteWaits.deadlines := by
  obtain ⟨eq, hnote⟩ := noteWait_waiting (s := s) hw
  refine mem_deadlines ?_
  rw [noteWaits_pkg, hset, noteWaits_cell hw, hnote]
  exact end_mem_waitDeadlines hrun rfl he hh hgated

theorem passTime_t3 {s : State} {d : Nat} (h : d ∈ s.noteWaits.deadlines) (n : Nat) :
    (s.passTime n).pkg.time.t3 ≤ max s.pkg.time.t3 d := by
  unfold State.passTime
  split
  · exact Nat.le_max_left _ _
  · exact noteWaits_pkg s ▸ elapse_t3 h n

end Sys2Proof.Machine

namespace Sys2Proof.Proofs

open Sys2Proof.Machine Sys2Proof.Claims

/-- Settles O31: a pass of WAITA is what its read leads to, and time stops at the deadline that the wait sets. -/
theorem waitResult : Obligations.WaitResult := by
  unfold Obligations.WaitResult
  refine ⟨?pass, ?reached, ?offers, ?goesOn, ?bound, ?ends, ?timeout, ?past, ?before⟩
  case pass =>
    intro s u o p hg ha hb hd hc h hf w r due near
    rw [exec_waita_reads hg ha hb hd hc h hf (w := w) rfl]
    refine ⟨fun hm => by rw [waitRead_marked hm], fun hm hv hnot => ?_, fun hm hv hdue hnear => ⟨Config.freeBool r.1.free, ?_⟩,
      fun hm hv hdue => ?_, fun hm hv hnot => ?_⟩
    · rw [waitRead_equal hm hv, if_neg fun he => hnot (waitEither_iff.mp he)]
    · rw [waitRead_equal hm hv, if_pos (waitEither_iff.mpr ⟨hdue, hnear⟩)]
    · rw [waitRead_unequal hm hv, if_pos (waitOver_iff.mpr hdue)]
    · rw [waitRead_unequal hm hv, if_neg fun he => hnot (waitOver_iff.mp he)]
  case reached =>
    exact fun s o => ⟨fun y h => ⟨reachWait_of_waiting h, waitStart_of_waiting h⟩,
      fun h => ⟨waitStart_of_fresh h, rfl, rfl, _, reachWait_fresh o h, rfl, rfl⟩⟩
  case offers => exact fun s w p sa => ⟨waitDue_iff, rfl, rfl⟩
  case goesOn =>
    intro s o p y h
    refine ⟨rfl, rfl, rfl, { y with rd := some s.pkg.time.clk, word := some (p, (s.rg o.b).v), eq := none }, ?_, rfl, rfl, rfl⟩
    rw [State.waitOn, updAs_cell_as, h]
    rfl
  case bound => exact fun s y e n hrun hw he hh hgated hset => passTime_t3 (end_mem_deadlines hrun hw he hh hgated hset) n
  case ends => exact fun s f v psn => ⟨by rw [State.endWait, writeReg_cell]; rfl, writeReg_core _ _ _ _ _⟩
  case timeout =>
    intro s o y hrun hw ho
    change execWaitaTimeout s = _
    rw [execWaitaTimeout, hw, ho]
    exact if_pos hrun
  case past => exact fun s o hg ha h => passes_of_exec (exec_of_guardOn rfl hg ((clean_on ha _).trans (if_pos h)))
  case before => exact fun s o hg ha h => exec_of_guardOn rfl hg ((clean_on ha _).trans (if_neg (by omega)))

end Sys2Proof.Proofs
end

section
/-! SUPPORT. Control transfer (R128 to R134, R157): what an issuing instruction that goes to a target, or changes its cell first, leaves; O27. -/

namespace Sys2Proof.Machine

open Sys2Proof.Claims

/-! ## An instruction that sets the AS's core and is charged -/

theorem setCore_chargeAs_core (s : State) (k : AsCore) : (s.setCore k).chargeAs.core = k := by simp [State.core]

/-- The instructions that change their cell beside the AS and issue differ only in the core they leave. -/
theorem setCore_chargeAs_moves {s : State} {f : Cell → Cell} (h : LeavesAs s.cell f) (k : AsCore) :
    Moves s ((s.updFocus f).setCore k).chargeAs f := by
  refine ⟨?_, by simp, by simp, charge_sameModule .., fun a => by simp⟩
  rw [setCore_chargeAs_core, chargeAs_cell, setCore_cell, updFocus_cell, h.as_eq]
  exact (h _).symm

theorem setCore_chargeAs_updQs_moves (s : State) (f : Queues → Queues) (k : AsCore) :
    Moves s ((s.updQs f).setCore k).chargeAs fun c => { c with qs := f s.cell.qs } :=
  setCore_chargeAs_moves (f := fun c => { c with qs := f s.cell.qs }) (fun _ => rfl) k

theorem setCore_chargeAs_onlyCore (s : State) (k : AsCore) : OnlyCore s (s.setCore k).chargeAs :=
  setCore_chargeAs_moves (f := id) (fun _ => rfl) k

theorem jumps_of_exec {i : Instr} {s : State} {x : Word} (h : exec i s = .next (s.jump x)) : Jumps i s x :=
  ⟨_, h, jump_core s x, setCore_chargeAs_onlyCore s _⟩

/-- R132, R133: a transfer of an instruction that also writes a register after 1 tick. -/
theorem jump_pushWr_result (s : State) (d : Dest) (v : Word) (psn : Bool) (x : Word) : let t := (s.pushWr 1 d v psn).jump x
    OnlyCore s t ∧ t.core = ({ (s.core.push 1 d v psn) with pc := x, rep := none }).endTick :=
  ⟨setCore_chargeAs_onlyCore s _, jump_core _ x⟩

/-! ## What an instruction waits for (R265) -/

/-- An instruction that would wait anyway waits, whether the checks of earlier operations are done or not. -/
theorem afterChecks_of_waits {s : State} {f : State → State} (h : f s = s) : s.afterChecks f = s := by
  rw [State.afterChecks, h, ite_self]

/-! ## Targets (R129 to R133) -/

section
variable {s : State} {t : TReg} (hv : (s.core.rt t).valid = true)
  (hin : inSection s.cell.asbase s.cell.assize (s.core.rt t).addr = true)
include hv hin

theorem target_inside (go : Word → State) : s.target t go = go (s.core.rt t).addr := by simp [State.target, hv, hin]

variable {g : Guard} (hg : GuardOn s g)
include hg

theorem exec_br_inside : exec (.br ⟨g, t⟩) s = .next (s.jump (s.core.rt t).addr) :=
  exec_of_guardOn rfl hg (target_inside hv hin _)

theorem exec_call_inside : exec (.call ⟨g, t⟩) s = .next ((s.pushWr 1 (.g 31) (s.core.pc + 4) false).jump (s.core.rt t).addr) :=
  exec_of_guardOn rfl hg (target_inside hv hin _)

/-- R131: the outcome BRQ pops says whether it transfers. -/
theorem exec_brq_pops {b : BEnt} {r : List BEnt} (hc : Checked s) (hq : s.cell.qs.bqe = b :: r) (hb : b.from_ ≤ s.pkg.time.clk) :
    exec (.brq ⟨g, t⟩) s = .next (if b.v then (s.updQs fun k => { k with bqe := r }).jump (s.core.rt t).addr
      else (s.updQs fun k => { k with bqe := r }).retire) := by
  refine exec_of_guardOn rfl hg ((target_inside hv hin _).trans ((afterChecks_on hc _).trans ?_))
  simp only [hq, if_pos hb]

/-- R131: BRQ waits for an outcome, and for the cycle from which it may pop it. -/
theorem exec_brq_waits (hq : s.cell.qs.bqe = [] ∨ ∃ b r, s.cell.qs.bqe = b :: r ∧ s.pkg.time.clk < b.from_) :
    exec (.brq ⟨g, t⟩) s = .next s := by
  refine exec_of_guardOn rfl hg ((target_inside hv hin _).trans (afterChecks_of_waits ?_))
  obtain hq | ⟨b, r, hq, hb⟩ := hq
  · simp only [hq]
  · simp only [hq, if_neg (Nat.not_le.mpr hb)]

/-- R133: LOOP transfers unless the count it writes is 0. -/
theorem exec_loop_inside {a : GReg} (ha : Clean s a) : exec (.loop ⟨g, t, a⟩) s =
    .next (if (s.rg a).v - 1 = 0 then s.writeReg 1 (.g a) ((s.rg a).v - 1) false
      else (s.pushWr 1 (.g a) ((s.rg a).v - 1) false).jump (s.core.rt t).addr) :=
  exec_of_guardOn rfl hg ((clean_on ha _).trans (target_inside hv hin _))

end

theorem brq_result {s : State} {o : OpT} {b : BEnt} {r : List BEnt} (hg : GuardOn s o.pg) (hv : (s.core.rt o.t).valid = true)
    (hin : inSection s.cell.asbase s.cell.assize (s.core.rt o.t).addr = true) (hc : Checked s) (hq : s.cell.qs.bqe = b :: r)
    (hb : b.from_ ≤ s.pkg.time.clk) : ∃ t, exec (.brq o) s = .next t ∧ Moves s t (fun c => { c with qs := { s.cell.qs with bqe := r } })
      ∧ t.core = if b.v then ({ s.core with pc := (s.core.rt o.t).addr, rep := none }).endTick else s.core.advance.endTick := by
  refine ⟨_, exec_brq_pops hv hin hg hc hq hb, ?_⟩
  cases b.v
  case false => exact ⟨setCore_chargeAs_updQs_moves .., retire_core _⟩
  case true => exact ⟨setCore_chargeAs_updQs_moves .., jump_core _ _⟩

theorem loop_result {s : State} {o : OpLoop} (hg : GuardOn s o.pg) (ha : Clean s o.a) (hv : (s.core.rt o.t).valid = true)
    (hin : inSection s.cell.asbase s.cell.assize (s.core.rt o.t).addr = true) :
    if (s.rg o.a).v = 1 then Writes (.loop o) s 1 (.g o.a) 0 false
    else ∃ t, exec (.loop o) s = .next t ∧ OnlyCore s t
      ∧ t.core = ({ (s.core.push 1 (.g o.a) ((s.rg o.a).v - 1) false) with pc := (s.core.rt o.t).addr, rep := none }).endTick := by
  have hexec := exec_loop_inside hv hin hg ha
  split
  case isTrue hone =>
    rw [hone] at hexec
    exact writes_of_exec hexec
  case isFalse hmore => exact ⟨_, hexec.trans (congrArg _ (if_neg (mt sub_eq_zero.mp hmore))), jump_pushWr_result ..⟩

/-! ## RET, BQP and REP (R131, R132, R134) -/

theorem exec_ret_inside {s : State} {o : OpR} (hg : GuardOn s o.pg) (ha : Clean s o.a)
    (hin : inSection s.cell.asbase s.cell.assize (s.rg o.a).v = true) : exec (.ret o) s = .next (s.jump (s.rg o.a).v) :=
  exec_of_guardOn rfl hg ((clean_on ha _).trans (if_pos hin))

theorem exec_bqp_room {s : State} {o : OpP} (hg : GuardOn s o.pg) (ha : (s.rp o.a).psn = false) (hc : Checked s)
    (hroom : s.cell.qs.bqa.length < Config.capBq) :
    exec (.bqp o) s = .next (s.updQs fun k => { k with bqa := k.bqa ++ [⟨(s.rp o.a).v, s.ready⟩] }).retire :=
  exec_of_guardOn rfl hg ((if_neg (by simp [ha])).trans ((afterChecks_on hc _).trans (if_neg (Nat.not_le.mpr hroom))))

theorem exec_bqp_full {s : State} {o : OpP} (hg : GuardOn s o.pg) (ha : (s.rp o.a).psn = false)
    (hfull : Config.capBq ≤ s.cell.qs.bqa.length) : exec (.bqp o) s = .next s :=
  exec_of_guardOn rfl hg ((if_neg (by simp [ha])).trans (afterChecks_of_waits (if_pos hfull)))

/-- R86, R134: a REP whose steps the word after it allows. -/
theorem exec_rep_legal {s u : State} {o : OpRep} {w : Word32} {i : Instr}
    (hw : s.fetchWord 0 s.cell.asbase s.cell.assize (s.core.pc + 4) = (u, some w)) (hi : decodeAs w = .ok i)
    (hsteps : stepsOk o (gFields i) = true) : exec (.rep o) s = .next (u.setCore { u.core with rep := some (repStart o) }) := by
  change execRep o s = _
  rw [execRep, hw]
  simp only [hi, hsteps]
  rfl

end Sys2Proof.Machine

namespace Sys2Proof.Proofs

open Sys2Proof.Machine Sys2Proof.Claims

/-- Settles O27: each instruction is a register write, a transfer or a change of a branch-outcome queue that issues. -/
theorem controlCompletes : Obligations.ControlCompletes := by
  unfold Obligations.ControlCompletes
  refine ⟨?pbr, ?pbrReg, ?target, ?bqp, ?ret, ?loop, ?brqWaits, ?bqpWaits, ?nop, ?rep⟩
  case pbr => exact fun s o hg => writes_of_guardOn rfl hg rfl
  case pbrReg => exact fun s o hg ha => writes_of_guardOn rfl hg (clean_on ha _)
  case target =>
    refine fun s o hg hv hin => ⟨?br, ?call, fun b r => brq_result hg hv hin⟩
    case br => exact jumps_of_exec (exec_br_inside hv hin hg)
    case call => exact ⟨_, exec_call_inside hv hin hg, jump_pushWr_result ..⟩
  case bqp =>
    exact fun s o hg ha hc hroom => ⟨_, exec_bqp_room hg ha hc hroom, retire_core _, setCore_chargeAs_updQs_moves ..⟩
  case ret => exact fun s o hg ha hin => jumps_of_exec (exec_ret_inside hg ha hin)
  case loop => exact fun s o => loop_result
  case brqWaits => exact fun s o hg hv hin hq => exec_brq_waits hv hin hg hq
  case bqpWaits => exact fun s o => exec_bqp_full
  case nop => exact fun s o hg => passes_of_exec (exec_of_guardOn rfl hg rfl)
  case rep => exact fun s u o w i => exec_rep_legal

end Sys2Proof.Proofs
end

section
/-! SUPPORT. Queue instructions (R137, R138): POP, QPUSH and QSTAT, the status word, and the words that are none of them; O29. -/

namespace Sys2Proof.Machine

open Sys2Proof.Claims

/-! ## POP and QPUSH (R137) -/

theorem exec_pop_head {s : State} {o : OpPop} {e : QEnt} {r : List QEnt} (hg : GuardOn s o.pg) (hc : Checked s)
    (h : popHead s.pkg.time.clk (s.cell.qs.pq o.q) = some (e, r)) :
    exec (.pop o) s = .next ((s.updQs fun k => k.setPq o.q r).writeReg 1 (.g o.d) e.v e.psn) := by
  refine exec_of_guardOn rfl hg ?_
  obtain ⟨g, d, q⟩ := o
  cases q with
  | y i => exact (afterChecks_on hc _).trans (by simp only [h])
  | lq => simp only [h]

/-- R137: POP waits for a head that has arrived. -/
theorem exec_pop_waits {s : State} {o : OpPop} (hg : GuardOn s o.pg) (h : popHead s.pkg.time.clk (s.cell.qs.pq o.q) = none) :
    exec (.pop o) s = .next s := by
  refine exec_of_guardOn rfl hg ?_
  obtain ⟨g, d, q⟩ := o
  cases q with
  | y i => exact afterChecks_of_waits (by simp only [h])
  | lq => simp only [h]

theorem exec_qpush_room {s : State} {o : OpQpush} (hg : GuardOn s o.pg) (hc : Checked s)
    (hroom : (s.cell.qs.dq o.q).length < Config.capQ) : exec (.qpush o) s = .next (s.updQs fun k =>
      k.setDq o.q (k.dq o.q ++ [⟨(s.rg o.b).v, (s.rg o.b).psn, true, s.ready, s.cell.mseq⟩])).retire :=
  exec_of_guardOn rfl hg ((afterChecks_on hc _).trans (if_neg (Nat.not_le.mpr hroom)))

theorem exec_qpush_full {s : State} {o : OpQpush} (hg : GuardOn s o.pg) (hfull : Config.capQ ≤ (s.cell.qs.dq o.q).length) :
    exec (.qpush o) s = .next s :=
  exec_of_guardOn rfl hg (afterChecks_of_waits (if_pos hfull))

/-! ## The status word (R138) -/

theorem rdyOf_eq_takeWhile (now : Nat) : ∀ l : List QEnt, rdyOf now l = (l.takeWhile fun e => e.arrived && e.from_ ≤ now).length
  | [] => rfl
  | e :: r => by
    have ih := rdyOf_eq_takeWhile now r
    by_cases h : (e.arrived && e.from_ ≤ now) = true
    · rw [rdyOf, List.takeWhile_cons, if_pos h, if_pos h, List.length_cons, ih]
    · rw [rdyOf, List.takeWhile_cons, if_neg h, if_neg h, List.length_nil]

theorem qstatWord_eq (cap occ rdy : Nat) :
    qstatWord cap occ rdy = (0 : BitVec 40) ++ (BitVec.ofNat 8 cap ++ (BitVec.ofNat 8 occ ++ BitVec.ofNat 8 rdy)) := by
  rw [qstatWord, BitVec.append_assoc, BitVec.append_assoc]
  rfl

/-! ## Words that are no queue instruction (R92, R137) -/

theorem pqueue_ofCode_outside {c : BitVec 5} (h : c.toNat < 4 ∨ 6 < c.toNat) : PQueue.ofCode c = none := by
  unfold PQueue.ofCode
  split
  case h_4 => rfl
  all_goals omega

theorem queue_ofCode_high {c : BitVec 5} (h : 8 < c.toNat) : Queue.ofCode c = none := by
  unfold Queue.ofCode
  split
  case h_10 => rfl
  all_goals omega

theorem decodeQueueOp_badFn {w : Word32} (h : 3 ≤ (asFn w).toNat) : ∃ e, decodeQueueOp w = .error e := by
  unfold decodeQueueOp
  split
  case h_4 => exact ⟨_, rfl⟩
  all_goals omega

theorem decodeQueueOp_badPop {w : Word32} (hfn : (asFn w).toNat = 0) (h : (asA w).toNat < 4 ∨ 6 < (asA w).toNat ∨ asB w ≠ 0) :
    ∃ e, decodeQueueOp w = .error e := by
  rw [decodeQueueOp, hfn]
  by_cases hb : asB w = 0
  · exact req_of_refused (reqSome_of_none (pqueue_ofCode_outside (by simpa [hb] using h)))
  · exact req_of_not (decide_eq_false hb) _ _

/-- R81: the field d of a QPUSH names q0 to q3. -/
theorem decodeQueueOp_badQpush {w : Word32} (hfn : (asFn w).toNat = 1) (h : 3 < (asD w).toNat ∨ asA w ≠ 0) :
    ∃ e, decodeQueueOp w = .error e := by
  rw [decodeQueueOp, hfn]
  obtain hd | ha := h
  · have hhigh : (asD w).extractLsb' 2 3 ≠ 0 := fun hz => by
      have := congrArg BitVec.toNat hz
      simp only [BitVec.extractLsb'_toNat, Nat.shiftRight_eq_div_pow, BitVec.ofNat_eq_ofNat, BitVec.toNat_ofNat] at this
      omega
    exact req_of_refused (req_of_not (decide_eq_false hhigh) _ _)
  · exact req_of_not (decide_eq_false ha) _ _

theorem decodeQueueOp_badQstat {w : Word32} (hfn : (asFn w).toNat = 2) (h : 8 < (asA w).toNat ∨ asB w ≠ 0) :
    ∃ e, decodeQueueOp w = .error e := by
  rw [decodeQueueOp, hfn]
  obtain ha | hb := h
  · exact req_of_refused (reqSome_of_none (queue_ofCode_high ha))
  · exact req_of_not (decide_eq_false hb) _ _

theorem decodeAs_queueOp {w : Word32} (h : (asMajor w).toNat = 0x39) : decodeAs w = decodeQueueOp w := by
  rw [decodeAs, h]
  rfl

end Sys2Proof.Machine

namespace Sys2Proof.Proofs

open Sys2Proof.Machine Sys2Proof.Claims

/-- Settles O29: POP and QPUSH change one queue and issue or wait, QSTAT is a register write, and the decoder's checks come in turn. -/
theorem queueResult : Obligations.QueueResult := by
  unfold Obligations.QueueResult
  refine ⟨?pop, ?popWaits, ?qpush, ?qpushWaits, ?qstat, ?status, ?illegal⟩
  case pop =>
    exact fun s o e r hg hc h => ⟨_, exec_pop_head hg hc h, writeReg_core _ _ _ _ _, setCore_chargeAs_updQs_moves ..⟩
  case popWaits => exact fun s o hg _ h => exec_pop_waits hg h
  case qpush =>
    exact fun s o hg hc hroom => ⟨_, exec_qpush_room hg hc hroom, retire_core _, setCore_chargeAs_updQs_moves ..⟩
  case qpushWaits => exact fun s o hg _ hfull => exec_qpush_full hg hfull
  case qstat => exact fun s o hg => writes_of_guardOn rfl hg rfl
  case status =>
    intro s rdy word
    have hword : qstatWord = word := funext fun cap => funext fun occ => funext (qstatWord_eq cap occ)
    have hrdy : rdyOf s.pkg.time.clk = rdy := funext (rdyOf_eq_takeWhile _)
    refine ⟨fun i => ?_, fun i => ?_, ?_, ?_, ?_⟩ <;>
      simp only [State.queueStatus, hword, hrdy, List.countP_eq_length_filter, Config.capQ, Config.capLq, Config.capBq]
  case illegal =>
    intro w hmajor h
    rw [decodeAs_queueOp hmajor]
    obtain hfn | ⟨hfn, h⟩ | ⟨hfn, h⟩ | ⟨hfn, h⟩ := h
    · exact decodeQueueOp_badFn hfn
    · exact decodeQueueOp_badPop hfn h
    · exact decodeQueueOp_badQpush hfn h
    · exact decodeQueueOp_badQstat hfn h

end Sys2Proof.Proofs
end

section
/-! SUPPORT. O43: bitwise forms and shifts of the ES (R171, R173): which bit of the operand a bit of VSAR's result is. -/

namespace Sys2Proof.Machine

/-- R173: a shift that copies the sign is one of the complement under a set sign, whatever the count. -/
theorem shiftEl_arith {x : Ev} {a n : Nat} (ha : a < 2 ^ x.w) : shiftEl .arith x a n =
    if 2 ^ (x.w - 1) ≤ a then 2 ^ x.w - ((2 ^ x.w - (a + 1)) / 2 ^ n + 1) else a / 2 ^ n := by
  have hsub : 2 ^ x.w - 1 - a = 2 ^ x.w - (a + 1) := by omega
  have hout : x.w ≤ n → 2 ^ x.w ≤ 2 ^ n := Nat.pow_le_pow_right two_pos
  simp only [shiftEl, hsub]
  by_cases hn : x.w ≤ n
  · have hz : a / 2 ^ n = 0 := Nat.div_eq_of_lt (ha.trans_le (hout hn))
    have hc : (2 ^ x.w - (a + 1)) / 2 ^ n = 0 := Nat.div_eq_of_lt (lt_of_lt_of_le (by omega) (hout hn))
    simp only [hn, if_true, hz, hc, Nat.zero_add]
  · simp only [hn, if_false, Nat.sub_sub, Nat.add_comm 1]

/-- R173: the sign of an element is its bit w − 1. -/
theorem testBit_sign {w a : Nat} (hw : 1 ≤ w) (ha : a < 2 ^ w) : a.testBit (w - 1) = decide (2 ^ (w - 1) ≤ a) := by
  by_cases h : 2 ^ (w - 1) ≤ a
  · rw [decide_eq_true h]
    exact Nat.testBit_of_two_pow_le_and_two_pow_add_one_gt h (by rwa [Nat.sub_add_cancel hw])
  · rw [decide_eq_false h]
    exact Nat.testBit_lt_two_pow (Nat.not_le.mp h)

/-- R173: bit i of VSAR is bit i + n, or the sign from bit w − 1 on. -/
theorem testBit_shiftEl_arith {x : Ev} {a n i : Nat} (hw : 1 ≤ x.w) (ha : a < 2 ^ x.w) (hi : i < x.w) :
    (shiftEl .arith x a n).testBit i = a.testBit (min (i + n) (x.w - 1)) := by
  have hshift : (shiftEl .arith x a n).testBit i = if i + n < x.w then a.testBit (i + n) else decide (2 ^ (x.w - 1) ≤ a) := by
    rw [shiftEl_arith ha]
    by_cases hneg : 2 ^ (x.w - 1) ≤ a
    · have hc : (2 ^ x.w - (a + 1)) / 2 ^ n < 2 ^ x.w := (Nat.div_le_self _ _).trans_lt (by omega)
      rw [if_pos hneg, Nat.testBit_two_pow_sub_succ hc, Nat.testBit_div_two_pow, Nat.testBit_two_pow_sub_succ ha]
      by_cases hin : i + n < x.w <;> simp [hi, hin, hneg]
    · rw [if_neg hneg, Nat.testBit_div_two_pow]
      by_cases hin : i + n < x.w
      · rw [if_pos hin]
      · have hout : a < 2 ^ (i + n) := ha.trans_le (Nat.pow_le_pow_right two_pos (Nat.not_lt.mp hin))
        rw [if_neg hin, decide_eq_false hneg, Nat.testBit_lt_two_pow hout]
  rw [hshift]
  by_cases hin : i + n < x.w
  · rw [if_pos hin, Nat.min_eq_left (by omega)]
  · rw [if_neg hin, Nat.min_eq_right (by omega), testBit_sign hw ha]

end Sys2Proof.Machine

namespace Sys2Proof.Proofs

open Sys2Proof.Machine Sys2Proof.Claims

/-- Settles O43: every form is `elementwise` with its function; a shift of the complement gives the sign's copies. -/
theorem esLogicResult : Obligations.EsLogicResult := by
  unfold Obligations.EsLogicResult
  refine ⟨fun s o => ⟨?and, ?or, ?xor, ?shl, ?shr, ?sar⟩, fun s o => ⟨?shlImm, ?shrImm, ?sarImm⟩,
    fun x a n hw ha i hi => testBit_shiftEl_arith hw ha hi⟩
  case and => exact elementwise_of_exec rfl fun x a b c => rfl
  case or => exact elementwise_of_exec rfl fun x a b c => rfl
  case xor => exact elementwise_of_exec rfl fun x a b c => rfl
  case shl => exact elementwise_of_exec rfl fun x a b c => rfl
  case shr => exact elementwise_of_exec rfl fun x a b c => rfl
  case sar => exact elementwise_of_exec rfl fun x a b c => rfl
  case shlImm => exact elementwise1_of_exec rfl
  case shrImm => exact elementwise1_of_exec rfl
  case sarImm => exact elementwise1_of_exec rfl

end Sys2Proof.Proofs
end

section
/-! SUPPORT. O47: permutes, gathers, slides and VRNG (R183, R184) move or make elements and raise no flag. -/

namespace Sys2Proof.Machine

/-! ## What the active elements give (R162) -/

theorem mapActive_values (x : Ev) (f : Nat → Nat × BitVec 6) :
    (mapActive x f).1 = (List.range x.vl).map fun i => if x.active i then some (f i).1 else none := by
  simp only [mapActive, List.map_map]
  refine List.map_congr_left fun i _ => ?_
  by_cases hi : x.active i <;> simp [hi]

theorem mapActive_flags (x : Ev) (f : Nat → Nat × BitVec 6) :
    (mapActive x f).2 = (List.range x.vl).foldl (fun z i => if x.active i then z ||| (f i).2 else z) 0 := by
  simp only [mapActive, List.foldl_map]
  congr 1
  funext z i
  by_cases hi : x.active i <;> simp [hi]

/-- R162: an element function that raises no flag gives the active elements' values alone. -/
theorem mapActive_noFlags (x : Ev) (f : Nat → Nat) :
    mapActive x (fun i => (f i, 0)) = ((List.range x.vl).map fun i => if x.active i then some (f i) else none, 0) :=
  Prod.ext (mapActive_values x _) ((mapActive_flags x _).trans (List.foldl_fixed' (fun i => by simp) _))

/-! ## Elements picked and made (R183, R184) -/

/-- R183: a form that picks elements by an index, where it is legal. -/
theorem permute_legal {s : State} {i : Instr} (h : esLegal s.cell.es.sh i = true) (o : OpVr3) (lat : Nat)
    (f : Ev → (Nat → Nat) → Nat → Nat) (wide : Bool) :
    let x := s.ev o.m
    let k := if wide then 8 else x.g
    let b := s.grp x o.b
    s.permute i o lat f wide = s.esWrite lat o.d x.w x.g
      ((List.range x.vl).map fun j => if x.active j then some (f x (fun n => elAt (s.cell.es.span o.a.toNat k) x.w n) (b.1 j)) else none)
      (s.cell.es.spanPsn o.a.toNat k || b.2 || x.mask.psn) 0 (max x.g k) := by
  rw [State.permute, esLegalOr_on h]
  simp only [mapActive_noFlags]

/-- R183: an element moved up by n comes from where it stood, or is 0 where that lies outside the vector. -/
theorem exec_vslide_legal {s : State} {o : OpSlide} (h : esLegal s.cell.es.sh (.vslide o) = true) :
    let x := s.ev o.m
    let a := s.grp x o.a
    exec (.vslide o) s = .next (s.esWrite 2 o.d x.w x.g
      ((List.range x.vl).map fun (i : Nat) => if x.active i then
        some (if 0 ≤ (i : Int) - o.n.toInt ∧ (i : Int) - o.n.toInt < x.vl then a.1 ((i : Int) - o.n.toInt).toNat else 0) else none)
      (a.2 || x.mask.psn) 0) := by
  refine congrArg _ ((esLegalOr_on h _).trans ?_)
  simp only [mapActive_noFlags, Bool.and_eq_true, decide_eq_true_eq]

/-- R184: VRNG reads its counters and keys element by element. -/
theorem exec_vrng_legal {s : State} {o : OpVr3} (h : esLegal s.cell.es.sh (.vrng o) = true) :
    let x := s.ev o.m
    let a := s.grp x o.a
    let b := s.grp x o.b
    exec (.vrng o) s = .next (s.esWrite 4 o.d x.w x.g
      ((List.range x.vl).map fun i => if x.active i then some (rng (BitVec.ofNat 32 (a.1 i)) (BitVec.ofNat 32 (b.1 i))).toNat else none)
      (a.2 || b.2 || x.mask.psn) 0) := by
  refine congrArg _ ((esLegalOr_on h _).trans ?_)
  simp only [mapActive_noFlags]

end Sys2Proof.Machine

namespace Sys2Proof.Proofs

open Sys2Proof.Machine Sys2Proof.Claims

/-- Settles O47: each form is the write of the active elements it picks or makes. -/
theorem esPermuteResult : Obligations.EsPermuteResult := by
  unfold Obligations.EsPermuteResult
  refine ⟨fun s o => ⟨fun h => ?vperm, fun h => ?vgath, fun h => ?vrng⟩, fun s o h => ?vslide⟩
  case vperm => exact esWrites_of_exec (congrArg _ (permute_legal h o 3 _ false))
  case vgath => exact esWrites_of_exec (congrArg _ (permute_legal h o 3 _ true))
  case vrng => exact esWrites_of_exec (exec_vrng_legal h)
  case vslide => exact esWrites_of_exec (exec_vslide_legal h)

end Sys2Proof.Proofs
end

section
/-! SUPPORT. O45: compares, mask logic, VIOTA and VSEL (R163, R178 to R180): the bits of the mask that a compare packs. -/

namespace Sys2Proof.Machine

open Sys2Proof.Claims

/-! ## Fields of k bits side by side -/

/-- The first `n` values of `f`, each in a field of `k` bits, the first one lowest. -/
def packed (k : Nat) (f : Nat → Nat) (n : Nat) : Nat := ((List.range n).map fun i => f i * 2 ^ (k * i)).sum

theorem packed_succ (k : Nat) (f : Nat → Nat) (n : Nat) : packed k f (n + 1) = 2 ^ (k * n) * f n + packed k f n := by
  simp only [packed, List.range_succ, List.map_append, List.sum_append, List.map_cons, List.map_nil, List.sum_cons, List.sum_nil]
  ring

theorem packed_lt {k : Nat} {f : Nat → Nat} (hf : ∀ i, f i < 2 ^ k) : ∀ n, packed k f n < 2 ^ (k * n)
  | 0 => Nat.one_pos
  | n + 1 => by
    have ih := packed_lt hf n
    have hfield := Nat.mul_le_mul_left (2 ^ (k * n)) (Nat.succ_le_of_lt (hf n))
    rw [packed_succ, Nat.mul_succ k, pow_add]
    rw [Nat.mul_succ] at hfield
    omega

/-- A bit of fields side by side is one of the field it lies in. -/
theorem testBit_packed {k : Nat} (hk : 0 < k) {f : Nat → Nat} (hf : ∀ i, f i < 2 ^ k) :
    ∀ n b, (packed k f n).testBit b = (decide (b / k < n) && (f (b / k)).testBit (b % k))
  | 0, b => by simp [packed]
  | n + 1, b => by
    rw [packed_succ, Nat.testBit_two_pow_mul_add _ (packed_lt hf n), testBit_packed hk hf n]
    have hdiv := Nat.div_add_mod b k
    have hmod := Nat.mod_lt b hk
    rcases lt_trichotomy (b / k) n with hlt | heq | hgt
    · have hb : b < k * n := Nat.mul_comm n k ▸ (Nat.div_lt_iff_lt_mul hk).mp hlt
      simp [hb, hlt, Nat.lt_succ_of_lt hlt]
    · have hb : ¬ b < k * n := by rw [← heq]; omega
      have hrest : b - k * n = b % k := by rw [← heq]; omega
      simp [hb, heq, hrest]
    · have hnext := Nat.mul_le_mul_left k (Nat.succ_le_of_lt hgt)
      rw [Nat.mul_succ] at hnext
      have hout : f n < 2 ^ (b - k * n) := (hf n).trans_le (Nat.pow_le_pow_right two_pos (by omega))
      rw [if_neg (by omega), Nat.testBit_lt_two_pow hout, decide_eq_false (by omega), Bool.false_and]

/-! ## Compares (R178) -/

theorem vcondEl_eq (c : VCond) (x : Ev) (a b : Nat) : vcondEl c x a b =
    ((if tyInt x.ty then vcondInt c (intOf x.ty a) (intOf x.ty b)
      else (vcondFloat c ((fmtOf x.ty).decode a) ((fmtOf x.ty).decode b)).1).toNat,
    if tyInt x.ty then 0 else (vcondFloat c ((fmtOf x.ty).decode a) ((fmtOf x.ty).decode b)).2) := by
  unfold vcondEl
  split <;> rfl

/-- R178: the mask a compare packs from the results of its elements. -/
def comparedMask (x : Ev) (f : Nat → Nat × BitVec 6) : BitVec 2048 :=
  BitVec.ofNat 2048 (((mapActive x f).1.zipIdx.map fun y => y.1.getD 0 * 2 ^ y.2).sum)

theorem comparedMask_eq_packed (x : Ev) (f : Nat → Nat × BitVec 6) :
    comparedMask x f = BitVec.ofNat 2048 (packed 1 (fun i => if x.active i then (f i).1 else 0) x.vl) := by
  rw [comparedMask, mapActive_values, packed]
  congr 2
  refine List.ext_getElem (by simp) fun i h1 h2 => ?_
  by_cases hi : x.active i <;> simp [hi]

theorem getLsbD_comparedMask {x : Ev} {f : Nat → Nat × BitVec 6} {c : Nat → Bool} (hf : ∀ i, (f i).1 = (c i).toNat) {i : Nat} (hi : i < 2048) :
    (comparedMask x f).getLsbD i = (x.active i && c i) := by
  have hbit : ∀ j, (if x.active j then (f j).1 else 0) = (x.active j && c j).toNat := fun j => by
    cases hj : x.active j <;> simp [hf]
  rw [comparedMask_eq_packed, BitVec.getLsbD_ofNat, testBit_packed one_pos fun j => by rw [hbit]; exact Bool.toNat_lt _]
  simp only [hbit, hi, decide_true, Bool.true_and, Nat.div_one, Nat.mod_one, Nat.testBit_bool_toNat]
  cases hact : x.active i
  · simp
  · simp_all [Ev.active]

/-- R178: the flags of a compare are those of its active float elements. -/
theorem comparedFlags (c : VCond) (x : Ev) (a b : Nat → Nat) : (mapActive x fun i => vcondEl c x (a i) (b i)).2 =
    (List.range x.vl).foldl (fun z i =>
      if x.active i && !tyInt x.ty then z ||| (vcondFloat c ((fmtOf x.ty).decode (a i)) ((fmtOf x.ty).decode (b i))).2 else z) 0 := by
  rw [mapActive_flags]
  congr 1
  funext z i
  rw [vcondEl_eq]
  cases x.active i <;> cases tyInt x.ty <;> simp

/-- R178: a compare that writes the packed mask, its flags and its tag. -/
theorem compares_of_writes {s : State} {o : OpVcmp} {bv : Nat → Nat} {bt : Bool} {writes : List EPart → BitVec 6 → Prop}
    (h : let x := s.ev o.m
      let av := s.grp x o.a
      let f := fun i => vcondEl o.cond x (av.1 i) (bv i)
      writes [wholePart (comparedMask x f) (av.2 || bt || x.mask.psn) (x.full 2048)] (mapActive x f).2) :
    Compares s o bv bt writes := by
  refine ⟨comparedMask (s.ev o.m) fun i => vcondEl o.cond (s.ev o.m) ((s.grp (s.ev o.m) o.a).1 i) (bv i), fun i hi => ?bits, ?writes⟩
  case writes => exact (congrArg (writes _) (comparedFlags ..)).mp h
  case bits => exact getLsbD_comparedMask (fun j => congrArg Prod.fst (vcondEl_eq ..)) hi

theorem exec_vcmp_legal {s : State} {o : OpVcmp} (h : esLegal s.cell.es.sh (.vcmp o) = true) :
    let x := s.ev o.m
    let av := s.grp x o.a
    exec (.vcmp o) s = .next (s.withB x o.b fun t bv bt =>
      let f := fun i => vcondEl o.cond x (av.1 i) (bv i)
      (t.esPush 2 .m o.d.toNat [wholePart (comparedMask x f) (av.2 || bt || x.mask.psn) (x.full 2048)] (mapActive x f).2).esNext x.g) :=
  congrArg _ (esLegalOr_on h _)

theorem vcmp_reg {s : State} {o : OpVcmp} {v : VReg} (h : esLegal s.cell.es.sh (.vcmp o) = true) (hb : o.b = .reg v) :
    Compares s o (s.grp (s.ev o.m) v).1 (s.grp (s.ev o.m) v).2 (EsWrites (.vcmp o) s 2 .m o.d.toNat) := by
  refine compares_of_writes (esWrites_of_exec (n := (s.ev o.m).g) ((exec_vcmp_legal h).trans ?_))
  rw [hb]
  rfl

theorem vcmp_queue {s : State} {o : OpVcmp} {q : BitVec 2} {e : QEnt} {r : List QEnt} (h : esLegal s.cell.es.sh (.vcmp o) = true)
    (hb : o.b = .queue q) (hq : popHead s.pkg.time.clk (s.cell.qs.dq q) = some (e, r)) :
    Compares s o (fun _ => e.v.toNat % 2 ^ (s.ev o.m).w) e.psn (EsPops (.vcmp o) s q r 2 .m o.d.toNat) := by
  refine compares_of_writes (esPops_of_exec (n := (s.ev o.m).g) ((exec_vcmp_legal h).trans ?_))
  rw [hb, withB_queue hq]

theorem exec_viota_legal {s : State} {o : OpViota} (h : esLegal s.cell.es.sh (.viota o) = true) :
    let x := s.ev o.m
    exec (.viota o) s = .next (s.esWrite 2 o.d x.w x.g
      ((List.range x.vl).map fun i => if x.active i then some (i % 2 ^ x.w) else none) x.mask.psn 0) := by
  refine congrArg _ ((esLegalOr_on h _).trans ?_)
  simp only [mapActive_noFlags]

/-! ## Words that are none of the mask forms (R88, R179, R180) -/

theorem decodeM3_unused {w : Word32} (h : esM w ≠ 0 ∨ esFn w ≠ 0) (k : OpM3 → Instr) : ∃ e, decodeM3 w k = .error e := by
  refine req_of_not ?_ _ _
  simpa [imp_iff_not_or] using h

theorem decodeEs_maskForm_unused {w : Word32} (hlow : 0x29 ≤ (esOp w).toNat) (hhigh : (esOp w).toNat ≤ 0x2C)
    (h : esM w ≠ 0 ∨ esFn w ≠ 0 ∨ ((esOp w).toNat = 0x2C ∧ esB w ≠ 0)) : ∃ e, decodeEs w = .error e := by
  have hop : (esOp w).toNat = 0x29 ∨ (esOp w).toNat = 0x2A ∨ (esOp w).toNat = 0x2B ∨ (esOp w).toNat = 0x2C := by omega
  unfold decodeEs
  rcases hop with hop | hop | hop | hop <;> simp only [hop] at h ⊢
  · exact decodeM3_unused (by simpa using h) _
  · exact decodeM3_unused (by simpa using h) _
  · exact decodeM3_unused (by simpa using h) _
  · refine req_of_not ?_ _ _
    simp only [Bool.and_eq_false_iff, decide_eq_false_iff_not]
    tauto

theorem decodeEs_viota_unused {w : Word32} (hop : (esOp w).toNat = 0x26) (h : esA w ≠ 0 ∨ esB w ≠ 0 ∨ esFn w ≠ 0) :
    ∃ e, decodeEs w = .error e := by
  unfold decodeEs
  simp only [hop]
  refine req_of_not ?_ _ _
  simp only [Bool.and_eq_false_iff, decide_eq_false_iff_not]
  tauto

end Sys2Proof.Machine

namespace Sys2Proof.Proofs

open Sys2Proof.Machine Sys2Proof.Claims

/-- Settles O45: a compare packs one bit an element, the mask forms are single writes, and the decoder asks for zero fields first. -/
theorem esMaskResult : Obligations.EsMaskResult := by
  unfold Obligations.EsMaskResult
  refine ⟨fun s o h => ⟨fun v hb => vcmp_reg h hb, fun q e r hb hq => vcmp_queue h hb hq⟩, fun s o => ⟨?mand, ?mor, ?mxor⟩,
    fun s o => ?mnot, fun s o h => esWrites_of_exec (exec_viota_legal h), fun s o h => ?vsel,
    fun w hlow hhigh h => decodeEs_maskForm_unused hlow hhigh h, fun w hop h => decodeEs_viota_unused hop h⟩
  case mand => exact esWrites_of_exec (n := 1) rfl
  case mor => exact esWrites_of_exec (n := 1) rfl
  case mxor => exact esWrites_of_exec (n := 1) rfl
  case mnot => exact esWrites_of_exec (n := 1) rfl
  case vsel => exact esWrites_of_exec (congrArg _ (esLegalOr_on h _))

end Sys2Proof.Proofs
end

section
/-! SUPPORT. O40: VLD and VST (R166, R167): the common waits and checks, what reading the scratchpad leaves, and the words a VST writes. -/

namespace Sys2Proof.Machine

open Sys2Proof.Claims

/-! ## The address (R166) -/

section EsMem

variable {s : State} {need : Need} {o : OpVmem} {e : QEnt} {r : List QEnt} {go : State → Place → Word → State}

theorem esMem_waits (h : popHead s.pkg.time.clk (s.cell.qs.dq o.q) = none) : s.esMem need o go = s := headOf_none h _

variable (h : popHead s.pkg.time.clk (s.cell.qs.dq o.q) = some (e, r))
include h

theorem esMem_tagged (hp : e.psn = true) : s.esMem need o go = s.esFault cPoison e.v := (headOf_some h _).trans (if_pos hp)

theorem esMem_fails (hp : e.psn = false) {z : Nat} (ha : s.esAccess need e.v o.off ((s.ev o.m).vl * (s.ev o.m).w / 8) = .error z) :
    s.esMem need o go = s.esFault z (esEa e.v o.off) := by
  rw [State.esMem, headOf_some h, if_neg (by simp [hp])]
  simp only [ha]

theorem esMem_ok (hp : e.psn = false) {p : Place} (ha : s.esAccess need e.v o.off ((s.ev o.m).vl * (s.ev o.m).w / 8) = .ok p) :
    s.esMem need o go = go (s.updQs fun k => k.setDq o.q r) p (esEa e.v o.off) := by
  rw [State.esMem, headOf_some h, if_neg (by simp [hp])]
  simp only [ha]

end EsMem

/-- R28, R166: an address that passes names a place of the cell's own scratchpad, which no key covers. -/
theorem esAccess_key {s : State} {need : Need} {base : Word} {fn : BitVec 8} {n : Nat} {p : Place} (h : s.esAccess need base fn n = .ok p) :
    p.key = 0 := by
  simp only [State.esAccess] at h
  split at h
  · cases h
  · split at h
    · cases h
    · split at h
      · cases h
      · cases h
        rfl

/-! ## Reading (R118, R355) -/

/-- Of the cell only the reports it holds differ, and no byte of memory does: an error may have been met. -/
structure OnlyMeets (s t : State) : Prop where
  cell : ∃ l, t.cell = { s.cell with hold := l }
  bytes : t.mem.mem = s.mem.mem

theorem OnlyMeets.of_same {s t : State} (hc : t.cell = s.cell) (hm : t.mem.mem = s.mem.mem) : OnlyMeets s t := ⟨⟨s.cell.hold, hc⟩, hm⟩

theorem OnlyMeets.trans {s t u : State} (a : OnlyMeets s t) (b : OnlyMeets t u) : OnlyMeets s u := by
  obtain ⟨x, hx⟩ := a.cell
  obtain ⟨y, hy⟩ := b.cell
  exact ⟨⟨y, by rw [hy, hx]⟩, b.bytes.trans a.bytes⟩

/-- R361: only a line under a shared key has a backing it is fetched from again. -/
theorem backing_of_key {s : State} {p : Place} (hp : p.key = 0) : s.backing p = none := by simp [State.backing, hp]

theorem lineError_onlyMeets {p : Place} (hp : p.key = 0) (s : State) (w : Who) (sa : Word) (code : Nat) (d : Option Detection) :
    OnlyMeets s (s.lineError w p sa code d) := by
  have hfound : OnlyMeets s (d.elim s s.detected) := by cases d <;> exact .of_same rfl rfl
  simp only [State.lineError, backing_of_key hp]
  exact hfound.trans ⟨report_held _ _, by rw [updMem_mem, poisonLine_mem, report_mem]⟩

theorem meetError_onlyMeets {p : Place} (hp : p.key = 0) (s : State) (w : Who) (l1 : CellId) (sa : Word) :
    OnlyMeets s (s.meetError w l1 p sa) := by
  have hline := fun t code d => lineError_onlyMeets hp t w sa code d
  have hbeats : OnlyMeets s (s.noteBeats p.die p.addr 4) := .of_same rfl rfl
  simp only [State.meetError]
  split
  · split
    · exact (hline s _ _).trans (.of_same rfl rfl)
    · exact .of_same rfl rfl
  · split
    · split
      · exact hbeats.trans (hline _ _ _)
      · exact hline s _ _
    · exact .of_same rfl rfl

theorem tellShared_of_key {p : Place} (hp : p.key = 0) (s : State) (w : Who) (sa : Word) : s.tellShared w p sa = s := by
  unfold State.tellShared
  split <;> simp [hp]

theorem oneOf_onlyMeets (s : State) (x : TW) (l : List TW) : OnlyMeets s (s.oneOf x l).1 := by
  unfold State.oneOf
  split <;> exact .of_same rfl rfl

theorem blockAs_onlyMeets (s : State) (c : CellId) (p : Place) : OnlyMeets s (s.blockAs c p).1 := by
  simp only [State.blockAs]
  split <;> exact .of_same rfl rfl

theorem deciphered_onlyMeets (s : State) (c : CellId) (p : Place) (x : TW) : OnlyMeets s (s.deciphered c p x).1 := by
  simp only [State.deciphered]
  split
  · exact .of_same rfl rfl
  · split
    · exact blockAs_onlyMeets s c p
    · exact (blockAs_onlyMeets s c p).trans (blockAs_onlyMeets _ c _)

theorem readW_onlyMeets {p : Place} (hp : p.key = 0) (s : State) (w : Who) (sa : Word) : OnlyMeets s (s.readW w p sa).1 := by
  simp only [State.readW, State.readAny, tellShared_of_key hp]
  split
  · exact .of_same rfl rfl
  · exact ((meetError_onlyMeets hp s w _ sa).trans (oneOf_onlyMeets _ _ _)).trans (deciphered_onlyMeets _ _ _ _)

theorem loadVal_onlyMeets (s : State) (x : TW) : OnlyMeets s (s.loadVal x).1 := by
  unfold State.loadVal
  split <;> exact .of_same rfl rfl

theorem readWords_onlyMeets (w : Who) : ∀ (n : Nat) {p : Place} (_ : p.key = 0) (s : State) (sa : Word),
    OnlyMeets s (s.readWords w p sa n).1
  | 0, _, _, _, _ => .of_same rfl rfl
  | n + 1, p, hp, s, sa => by
    rw [readWords_fst]
    exact ((readW_onlyMeets hp s w sa).trans (loadVal_onlyMeets _ _)).trans (readWords_onlyMeets w n (p := p.plus 8) hp _ _)

/-! ## Writing (R167) -/

/-- One of the words of `storeWords`: written under the low byte of the mask, or left as it is. -/
def MemSt.storeWord (m : MemSt) (k v be : Nat) (psn : Bool) : MemSt :=
  if be % 256 = 0 then m else m.putNow k (BitVec.ofNat 64 v) (BitVec.ofNat 8 be) psn

theorem storeWords_succ (m : MemSt) (p : Place) (v be : Nat) (psn : Bool) (n : Nat) :
    m.storeWords p v be psn (n + 1) = (m.storeWord p.wkey v be psn).storeWords (p.plus 8) (v / 2 ^ 64) (be / 256) psn n := rfl

theorem plus_wkey (p : Place) (n : Nat) : (p.plus n).wkey = p.wkey + n := (Nat.add_assoc _ _ _).symm

/-- A byte has no bit set where it is zero. -/
theorem mod_256_eq_zero_iff (x : Nat) : x % 256 = 0 ↔ ∀ i < 8, x.testBit i = false := by
  rw [show 256 = 2 ^ 8 from rfl]
  constructor
  · intro h i hi
    rw [← Bool.true_and (x.testBit i), ← decide_eq_true hi, ← Nat.testBit_mod_two_pow, h, Nat.zero_testBit]
  · refine fun h => Nat.eq_of_testBit_eq fun i => ?_
    rw [Nat.testBit_mod_two_pow, Nat.zero_testBit]
    by_cases hi : i < 8
    · rw [h i hi, Bool.and_false]
    · rw [decide_eq_false hi, Bool.false_and]

theorem storeWord_wf {m : MemSt} (h : memWf m.mem = true) (k v be : Nat) (psn : Bool) : memWf (m.storeWord k v be psn).mem = true := by
  unfold MemSt.storeWord
  split
  · exact h
  · exact putNow_wf _ _ _ _ _ h

theorem memGet_storeWord_other {m : MemSt} (h : memWf m.mem = true) (k v be : Nat) (psn : Bool) {a : Nat} (ha : a < k ∨ k + 8 ≤ a) :
    memGet (m.storeWord k v be psn).mem a = memGet m.mem a := by
  unfold MemSt.storeWord
  split
  · rfl
  · exact memGet_memPut_other h k a _ _ ha

theorem memGet_storeWord_same {m : MemSt} (h : memWf m.mem = true) (k v be : Nat) (psn : Bool) {b : Nat} (hb : b < 8) :
    memGet (m.storeWord k v be psn).mem (k + b) = if be.testBit b then BitVec.ofNat 8 (v / 2 ^ (8 * b)) else memGet m.mem (k + b) := by
  unfold MemSt.storeWord
  split
  · next hz => rw [(mod_256_eq_zero_iff be).mp hz b hb]; rfl
  · rw [putNow_mem, memGet_memPut_same h k b _ _ hb, BitVec.getLsbD_ofNat, decide_eq_true hb, Bool.true_and]
    congr 1
    refine BitVec.eq_of_getLsbD_eq fun i hi => ?_
    have hin : 8 * b + i < 64 := by omega
    simp only [BitVec.getLsbD_extractLsb', BitVec.getLsbD_ofNat, Nat.testBit_div_two_pow, hi, hin, decide_true, Bool.true_and, Nat.add_comm i]

theorem contains_storeWord_other (m : MemSt) {k j : Nat} (v be : Nat) (psn : Bool) (hj : j ≠ k) :
    (m.storeWord k v be psn).psn.contains j = m.psn.contains j := by
  unfold MemSt.storeWord
  split
  · rfl
  · rw [contains_putNow, if_neg hj]

theorem contains_storeWord_same (m : MemSt) (k v be : Nat) (psn : Bool) :
    (m.storeWord k v be psn).psn.contains k = if be % 256 = 0 then m.psn.contains k else psn := by
  unfold MemSt.storeWord
  split
  · rfl
  · rw [contains_putNow, if_pos rfl]

/-- R167: bytes outside the words keep their values. -/
theorem memGet_storeWords_other (psn : Bool) : ∀ (n : Nat) {m : MemSt} (_ : memWf m.mem = true) (p : Place) (v be : Nat) {a : Nat}
    (_ : a < p.wkey ∨ p.wkey + 8 * n ≤ a), memGet (m.storeWords p v be psn n).mem a = memGet m.mem a
  | 0, _, _, _, _, _, _, _ => rfl
  | n + 1, m, h, p, v, be, a, ha => by
    rw [storeWords_succ, memGet_storeWords_other psn n (storeWord_wf h _ _ _ _) _ _ _ (by rw [plus_wkey]; omega),
      memGet_storeWord_other h _ _ _ _ (by omega)]

/-- R167: a byte of the words is the one stored where the mask names it. -/
theorem memGet_storeWords (psn : Bool) : ∀ (n : Nat) {m : MemSt} (_ : memWf m.mem = true) (p : Place) (v be : Nat) {b : Nat} (_ : b < 8 * n),
    memGet (m.storeWords p v be psn n).mem (p.wkey + b) =
      if be.testBit b then BitVec.ofNat 8 (v / 2 ^ (8 * b)) else memGet m.mem (p.wkey + b)
  | 0, _, _, _, _, _, _, hb => absurd hb (Nat.not_lt_zero _)
  | n + 1, m, h, p, v, be, b, hb => by
    have hwf := storeWord_wf h p.wkey v be psn
    rw [storeWords_succ]
    rcases lt_or_ge b 8 with hlow | hhigh
    · rw [memGet_storeWords_other psn n hwf _ _ _ (by rw [plus_wkey]; omega), memGet_storeWord_same h _ _ _ _ hlow]
    · obtain ⟨c, rfl⟩ := Nat.exists_eq_add_of_le hhigh
      have hbyte : v / 2 ^ 64 / 2 ^ (8 * c) = v / 2 ^ (8 * (8 + c)) := by rw [Nat.div_div_eq_div_mul, ← pow_add]; congr 2; ring
      have hbit : (be / 256).testBit c = be.testBit (8 + c) := by
        rw [show 256 = 2 ^ 8 from rfl, Nat.testBit_div_two_pow, Nat.add_comm]
      have hrest := memGet_storeWords psn n hwf (p.plus 8) (v / 2 ^ 64) (be / 256) (b := c) (by omega)
      rw [plus_wkey, Nat.add_assoc] at hrest
      rw [hrest, hbyte, hbit, memGet_storeWord_other h _ _ _ _ (by omega)]

/-- R167: no marker below the words changes. -/
theorem contains_storeWords_below (psn : Bool) : ∀ (n : Nat) (m : MemSt) (p : Place) (v be : Nat) {j : Nat} (_ : j < p.wkey),
    (m.storeWords p v be psn n).psn.contains j = m.psn.contains j
  | 0, _, _, _, _, _, _ => rfl
  | n + 1, m, p, v, be, j, hj => by
    rw [storeWords_succ, contains_storeWords_below psn n _ _ _ _ (by rw [plus_wkey]; omega), contains_storeWord_other m _ _ _ hj.ne]

/-- R167: a word with a byte written takes the tag of the group. -/
theorem contains_storeWords (psn : Bool) : ∀ (n : Nat) (m : MemSt) (p : Place) (v be : Nat) {k : Nat} (_ : k < n),
    (m.storeWords p v be psn n).psn.contains (p.wkey + 8 * k) =
      if be / 2 ^ (8 * k) % 256 = 0 then m.psn.contains (p.wkey + 8 * k) else psn
  | 0, _, _, _, _, _, hk => absurd hk (Nat.not_lt_zero _)
  | n + 1, m, p, v, be, 0, _ => by
    rw [storeWords_succ, Nat.mul_zero, Nat.add_zero, contains_storeWords_below psn n _ _ _ _ (by rw [plus_wkey]; omega),
      contains_storeWord_same, pow_zero, Nat.div_one]
  | n + 1, m, p, v, be, k + 1, hk => by
    have hmask : be / 256 / 2 ^ (8 * k) = be / 2 ^ (8 * (k + 1)) := by
      rw [show 256 = 2 ^ 8 from rfl, Nat.div_div_eq_div_mul, ← pow_add]; congr 2; ring
    have hrest := contains_storeWords psn n (m.storeWord p.wkey v be psn) (p.plus 8) (v / 2 ^ 64) (be / 256) (k := k) (by omega)
    rw [plus_wkey, show p.wkey + 8 + 8 * k = p.wkey + 8 * (k + 1) by ring] at hrest
    rw [storeWords_succ, hrest, hmask, contains_storeWord_other m _ _ _ (by omega)]

/-! ## The bytes of the active elements (R162, R167) -/

/-- R45: no element is narrower than a byte. -/
theorem eight_le_tyWidth : ∀ ty, 8 ≤ tyWidth ty
  | 0 | 1 | 2 | 3 | 4 | 5 | 6 | 7 | 8 | 9 | 10 => by decide
  | _ + 11 => le_rfl

theorem activeBytes_eq_packed (x : Ev) :
    activeBytes x = packed (x.w / 8) (fun i => if x.active i then 2 ^ (x.w / 8) - 1 else 0) x.vl := by
  refine congrArg List.sum (List.map_congr_left fun i _ => ?_)
  by_cases hi : x.active i <;> simp [hi]

theorem testBit_activeBytes {x : Ev} (hw : 8 ≤ x.w) (b : Nat) : (activeBytes x).testBit b = x.active (b / (x.w / 8)) := by
  have hk : 0 < x.w / 8 := Nat.div_pos hw (by decide)
  have hones : 2 ^ (x.w / 8) - 1 < 2 ^ (x.w / 8) := Nat.sub_one_lt (by positivity)
  rw [activeBytes_eq_packed, testBit_packed hk fun i => by split <;> omega]
  cases hact : x.active (b / (x.w / 8)) with
  | false => simp
  | true =>
    have hvl : b / (x.w / 8) < x.vl := by simp_all [Ev.active]
    simp [hvl, Nat.mod_lt b hk]

/-- R162: no element past VL is active, so no byte of one is written. -/
theorem active_of_le {x : Ev} (hw : 8 ≤ x.w) {b : Nat} (h : x.vl * x.w / 8 ≤ b) : x.active (b / (x.w / 8)) = false := by
  have hle : x.vl ≤ b / (x.w / 8) := (Nat.le_div_iff_mul_le (Nat.div_pos hw (by decide))).mpr ((Nat.mul_div_le_mul_div_assoc _ _ _).trans h)
  simp [Ev.active, Nat.not_lt.mpr hle]

theorem activeWord_eq_zero_iff {x : Ev} (hw : 8 ≤ x.w) (k : Nat) :
    activeBytes x / 2 ^ (8 * k) % 256 = 0 ↔ ((List.range 8).any fun i => x.active ((8 * k + i) / (x.w / 8))) = false := by
  simp [mod_256_eq_zero_iff, Nat.testBit_div_two_pow, testBit_activeBytes hw, Nat.add_comm]

/-! ## What VLD and VST do and leave (R167) -/

/-- The memory after a VST of the group `v` from a place on. -/
def MemSt.storeActive (m : MemSt) (p : Place) (x : Ev) (v : Nat) (psn : Bool) : MemSt := m.storeWords p v (activeBytes x) psn (vmemWords x)

theorem le_vmemWords (x : Ev) : x.vl * x.w / 8 ≤ 8 * vmemWords x := by
  unfold vmemWords ceilDiv
  omega

section StoreActive

variable {m : MemSt} {p : Place} {x : Ev} (v : Nat) (psn : Bool) (hw : 8 ≤ x.w)
include hw

theorem memGet_storeActive (h : memWf m.mem = true) {b : Nat} (hb : b < x.vl * x.w / 8) :
    memGet (m.storeActive p x v psn).mem (p.wkey + b) =
      if x.active (b / (x.w / 8)) then BitVec.ofNat 8 (v / 2 ^ (8 * b)) else memGet m.mem (p.wkey + b) := by
  rw [MemSt.storeActive, memGet_storeWords psn _ h p _ _ (hb.trans_le (le_vmemWords x)), testBit_activeBytes hw]

theorem memGet_storeActive_other (h : memWf m.mem = true) {a : Nat} (ha : a < p.wkey ∨ p.wkey + x.vl * x.w / 8 ≤ a) :
    memGet (m.storeActive p x v psn).mem a = memGet m.mem a := by
  by_cases hin : a < p.wkey ∨ p.wkey + 8 * vmemWords x ≤ a
  · exact memGet_storeWords_other psn _ h p _ _ hin
  · obtain ⟨b, rfl⟩ := Nat.exists_eq_add_of_le (show p.wkey ≤ a by omega)
    rw [MemSt.storeActive, memGet_storeWords psn _ h p _ _ (by omega), testBit_activeBytes hw, active_of_le hw (by omega)]
    rfl

theorem contains_storeActive {k : Nat} (hk : k < vmemWords x) : (m.storeActive p x v psn).psn.contains (p.wkey + 8 * k) =
    if (List.range 8).any fun i => x.active ((8 * k + i) / (x.w / 8)) then psn else m.psn.contains (p.wkey + 8 * k) := by
  rw [MemSt.storeActive, contains_storeWords psn _ m p _ _ hk]
  simp only [activeWord_eq_zero_iff hw]
  cases (List.range 8).any fun i => x.active ((8 * k + i) / (x.w / 8)) <;> rfl

end StoreActive

theorem exec_vst_ok {s : State} {o : OpVmem} {e : QEnt} {r : List QEnt} {p : Place} (hl : esLegal s.cell.es.sh (.vst o) = true)
    (h : popHead s.pkg.time.clk (s.cell.qs.dq o.q) = some (e, r)) (hp : e.psn = false)
    (ha : s.esAccess needSpadW e.v o.off ((s.ev o.m).vl * (s.ev o.m).w / 8) = .ok p) :
    let x := s.ev o.m
    exec (.vst o) s = .next (((s.updQs fun k => k.setDq o.q r).updMem fun m =>
      m.storeActive p x (s.cell.es.span o.d.toNat x.g) (s.cell.es.spanPsn o.d.toNat x.g)).esNext x.g) :=
  congrArg _ ((esLegalOr_on hl _).trans (esMem_ok h hp ha))

theorem exec_vld_ok {s : State} {o : OpVmem} {e : QEnt} {r : List QEnt} {p : Place} (hl : esLegal s.cell.es.sh (.vld o) = true)
    (h : popHead s.pkg.time.clk (s.cell.qs.dq o.q) = some (e, r)) (hp : e.psn = false)
    (ha : s.esAccess needSpadR e.v o.off ((s.ev o.m).vl * (s.ev o.m).w / 8) = .ok p) :
    let x := s.ev o.m
    let u := s.updQs fun k => k.setDq o.q r
    let rd := u.readWords (u.cell.who 1) p (esEa e.v o.off) (vmemWords x)
    let els := (List.range x.vl).map fun i => if x.active i then some (elAt rd.2.1 x.w i) else none
    exec (.vld o) s = .next ((rd.1.esPush 5 .v o.d.toNat (partsOf x.w x.g els fun j => x.mask.psn || markedReg x rd.2.2 j) 0).esNext x.g) :=
  congrArg _ ((esLegalOr_on hl _).trans (esMem_ok h hp ha))

end Sys2Proof.Machine

namespace Sys2Proof.Proofs

open Sys2Proof.Machine Sys2Proof.Claims

/-- Settles O40: the address is waited for and checked once for both; a VLD's reads meet errors only, a VST writes word by word. -/
theorem esMemoryResult : Obligations.EsMemoryResult := by
  unfold Obligations.EsMemoryResult
  refine ⟨fun s o e r p hl h hp ha => ?vld, fun s w p sa n => rfl, fun s o e r p hl h hp ha => ?vst,
    fun s o => ⟨fun h => ⟨fun hl => ?_, fun hl => ?_⟩, fun e r h => ⟨fun hp => ⟨fun hl => ?_, fun hl => ?_⟩,
      fun hp z => ⟨fun hl ha => ?_, fun hl ha => ?_⟩⟩⟩⟩
  case vld =>
    intro x u rd els tag
    obtain ⟨⟨l, hcell⟩, hbytes⟩ := readWords_onlyMeets (u.cell.who 1) (vmemWords x) (esAccess_key ha) u (esEa e.v o.off)
    exact ⟨exec_vld_ok hl h hp ha, by rw [hcell]; rfl, hbytes, by rw [hcell]; rfl⟩
  case vst =>
    have hw : 8 ≤ (s.ev o.m).w := eight_le_tyWidth _
    refine ⟨_, exec_vst_ok hl h hp ha, by simp [State.updQs], by simp, fun hc => ⟨fun b hb => ?_, fun a hout => ?_⟩, fun k hk => ?_⟩ <;>
      rw [esNext_mem, updMem_mem, updQs_mem]
    · exact memGet_storeActive _ _ hw hc hb
    · exact memGet_storeActive_other _ _ hw hc hout
    · exact contains_storeActive _ _ hw hk
  · exact congrArg _ ((esLegalOr_on hl _).trans (esMem_waits h))
  · exact congrArg _ ((esLegalOr_on hl _).trans (esMem_waits h))
  · exact congrArg _ ((esLegalOr_on hl _).trans (esMem_tagged h hp))
  · exact congrArg _ ((esLegalOr_on hl _).trans (esMem_tagged h hp))
  · exact congrArg _ ((esLegalOr_on hl _).trans (esMem_fails h hp ha))
  · exact congrArg _ ((esLegalOr_on hl _).trans (esMem_fails h hp ha))

end Sys2Proof.Proofs
end
